-- ==== Sys2Proof/Word.lean ====
section
/-! DEFINITION. The word types of the model. -/
namespace Sys2Proof

/-- A 64-bit register of BAR0, a uniform register, an instruction word. -/
abbrev Word := BitVec 64

/-- The smallest addressable unit of every memory. -/
abbrev Byte := BitVec 8

/-- A byte string, first byte first. -/
abbrev Bytes := List Byte

end Sys2Proof
end

