-- ==== Sys2Proof/Syntax.lean ====
section
/-! DEFINITION. The commands of the block: what the host writes, what a pin or a link brings, and the events of the
device's own engines. What comes from outside (bytes, measurements, outcomes of analogue processes) is an operand. -/
namespace Sys2Proof

/-- R273: what the SECDED checks of a packet's way find: nothing, a corrected beat, or an uncorrectable one, at the
router of a logical cell. -/
inductive LinkErr where
  | none
  | corrected (router : BitVec 10)
  | uncorrectable (router : BitVec 10)
deriving DecidableEq, Repr

/-- R289: which scrubber reads: that of an HBM stack or that of a logical cell. -/
inductive ScrubUnit where
  | stack (n : BitVec 3)
  | cell (id : BitVec 10)
deriving DecidableEq, Repr

/-- R287, R288: what the ECC of a scrubbed block or word shows beyond the errors already known. -/
inductive EccSeen where
  | good | single | double
deriving DecidableEq, Repr

/-- R23, R473: a physical cell that fails its self-test, and its first failing part (CELL.SELFTEST.UNIT). -/
structure CellFail where
  cell : BitVec 10
  part : BitVec 4
deriving DecidableEq, Repr

/-- Table 12-2: what the governor measures of one island in a control period: junction temperature in quarter degrees,
activity in 1/256, and whether its clock monitor fails. -/
structure IslandMeas where
  island : BitVec 11
  temp : BitVec 12
  activity : Nat
  clockFail : Bool := false
deriving DecidableEq, Repr

/-- Table 12-2: the measurements of a control period: those of each island, the package power in W, and the case
temperature of each stack in degrees. -/
structure GovMeas where
  islands : List IslandMeas
  power : Nat
  hbmCase : List (BitVec 3 × Nat)
deriving DecidableEq, Repr

/-- R312: what the ECC of a CSI-2 packet header finds. -/
inductive HdrErr where
  | none | corrected | uncorrectable
deriving DecidableEq, Repr

/-- R419: whether the input tap's copy of an item carries an uncorrectable error. -/
inductive TapErr where
  | none | uncorrectable
deriving DecidableEq, Repr

/-- What the board and the fuses and flash of the part hold when PORST_N is released (R31, R473, R486, R493). -/
structure Board where
  railsOk : Bool
  bootSel : Bool
  mgmtAddr : BitVec 2
  vrAddr : BitVec 2
  bank0Ok : Bool
  bank1Ok : Bool
  flashSlotMiB : Nat
deriving DecidableEq, Repr

/-- R495: one PMBus telemetry exchange. -/
structure VrReading where
  acked : Bool
  value : Nat
deriving DecidableEq, Repr

/-- R334: what the FEC of the codewords that a flit touches finds. -/
inductive FecSeen where
  | none | corrected | uncorrectable
deriving DecidableEq, Repr

/-- The commands and events of the block: one constructor per row of spec/opcode_table.json. -/
inductive Instr where
  /-- R6. A host write to a BAR0 register that has no row of its own sets its fields, with unlisted encodings refused per field. -/
  | bar0Write (off : Nat) (size : Nat) (data : Word)
  /-- R5. A host read of a register with RC fields returns them and clears the bits returned. -/
  | rcRegisterRead (off : Nat) (size : Nat)
  /-- R482. A 4-byte read of TIME.COUNTER bits [31:0] latches the upper half for the next read. -/
  | timeCounterLowRead
  /-- R440. A host BAR2 read reaches HBM or a cell window, or is refused. -/
  | bar2Read (off : Nat) (len : Nat)
  /-- R440. A host BAR2 write is performed in arrival order at HBM or a cell window, or is refused. -/
  | bar2Write (off : Nat) (bytes : Bytes)
  /-- R21. A write of IMG.CTL.LOAD starts a load whose pass 1 reads and verifies the whole source. -/
  | imgLoad (data : Word)
  /-- R33. A load requested with VERIFY_ONLY performs pass 1 only and reports its outcome. -/
  | imgVerifyOnly (data : Word)
  /-- R33. Pass 1 finishes reading the source and runs the verification steps in order, then fails or starts the drain. -/
  | imgPass1Done (readOk : Bool)
  /-- R43. DRAIN_LIMIT ticks pass in a drain and every launch still running is aborted with LATE fallbacks. -/
  | drainLimit
  /-- R43. The last running launch of a draining channel ends and the loader enters APPLY. -/
  | imgDrainDone
  /-- R23. Pass 2 finishes applying the sections after channel reset, self-test and binding, and the load ends. -/
  | imgApplyDone (readOk : Bool) (bad : List CellFail)
  /-- R38. IMG.BIND_CTL.CLEAR_CELLS empties the failed-cell list. -/
  | clearCells
  /-- R38. IMG.BIND_CTL.CLEAR_LANES empties the retired-lane list. -/
  | clearLanes
  /-- R161. NOP issues with no effect. -/
  | nop (cell : BitVec 10) (slot : BitVec 4)
  /-- R142. A 32-bit lane integer operation on register operands. -/
  | valuI32 (cell : BitVec 10) (slot : BitVec 4)
  /-- R142. A 32-bit lane integer operation with an immediate operand. -/
  | valuI32i (cell : BitVec 10) (slot : BitVec 4)
  /-- R143. A POSIT32 lane arithmetic operation rounded once. -/
  | valuP32 (cell : BitVec 10) (slot : BitVec 4)
  /-- R143. An FP32 lane arithmetic operation rounded once. -/
  | valuF32 (cell : BitVec 10) (slot : BitVec 4)
  /-- R144. A lane compare writes a mask. -/
  | vcmp (cell : BitVec 10) (slot : BitVec 4)
  /-- R144. A lane compare against an immediate writes a mask. -/
  | vcmpi (cell : BitVec 10) (slot : BitVec 4)
  /-- R147. A lane move, uniform-to-lane move, lane id or select. -/
  | vmov (cell : BitVec 10) (slot : BitVec 4)
  /-- R147. A lane register takes an immediate. -/
  | vmovi (cell : BitVec 10) (slot : BitVec 4)
  /-- R149. A lane conversion between element formats. -/
  | cvt (cell : BitVec 10) (slot : BitVec 4)
  /-- R148. A lane shuffle reads another lane's register. -/
  | shfl (cell : BitVec 10) (slot : BitVec 4)
  /-- R142. A 64-bit uniform integer operation on registers. -/
  | ualu (cell : BitVec 10) (slot : BitVec 4)
  /-- R142. A 64-bit uniform integer operation with an immediate. -/
  | ualui (cell : BitVec 10) (slot : BitVec 4)
  /-- R144. A uniform compare writes a predicate. -/
  | ucmp (cell : BitVec 10) (slot : BitVec 4)
  /-- R144. A uniform compare against an immediate writes a predicate. -/
  | ucmpi (cell : BitVec 10) (slot : BitVec 4)
  /-- R147. A uniform move, lane-to-uniform move, MODEGET or SREAD. -/
  | umov (cell : BitVec 10) (slot : BitVec 4)
  /-- R147. A uniform register takes an immediate, low or high half. -/
  | umovi (cell : BitVec 10) (slot : BitVec 4)
  /-- R145. A whole-mask operation, MSPLIT included. -/
  | mask (cell : BitVec 10) (slot : BitVec 4)
  /-- R146. A vote writes a uniform predicate from a mask. -/
  | vote (cell : BitVec 10) (slot : BitVec 4)
  /-- R145. A uniform-predicate operation. -/
  | upred (cell : BitVec 10) (slot : BitVec 4)
  /-- R151. A lane load with conversion from local memory, another window or a region. -/
  | ld (cell : BitVec 10) (slot : BitVec 4)
  /-- R151. A lane store with conversion, local, remote or through a region. -/
  | st (cell : BitVec 10) (slot : BitVec 4)
  /-- R150. A uniform load from one uniform address. -/
  | ldu (cell : BitVec 10) (slot : BitVec 4)
  /-- R150. A uniform store to one uniform address. -/
  | stu (cell : BitVec 10) (slot : BitVec 4)
  /-- R152. An atomic update, lanes combined per word, with optional fetch. -/
  | atom (cell : BitVec 10) (slot : BitVec 4)
  /-- R267. A message is posted over the dynamic mesh to a cell, quad, dispatcher or host. -/
  | sendDynamic (cell : BitVec 10) (slot : BitVec 4)
  /-- R265. A message is sent on a static route once every credit counter is at least 1. -/
  | sendStatic (cell : BitVec 10) (slot : BitVec 4)
  /-- R270. RECV takes the oldest matching message, waiting until one is present. -/
  | recvWait (cell : BitVec 10) (slot : BitVec 4)
  /-- R270. RECV takes a matching message if one is present and returns at once. -/
  | recvPoll (cell : BitVec 10) (slot : BitVec 4)
  /-- R154. A swarm issues an address-generator transfer under a token. -/
  | xfer (cell : BitVec 10) (slot : BitVec 4)
  /-- R155. A special-function table evaluation per lane (TANH, LOGISTIC, EXP, RSQRT, RCP, TAB). -/
  | sfu (cell : BitVec 10) (slot : BitVec 4)
  /-- R216. Each lane is multiplied by the reciprocal of a record's row sum. -/
  | softmax (cell : BitVec 10) (slot : BitVec 4)
  /-- R217. Squares of the active lanes start a zero quire in a record. -/
  | rmsnormAccumFirst (cell : BitVec 10) (slot : BitVec 4)
  /-- R217. Squares of the active lanes are added to a record's quire. -/
  | rmsnormAccum (cell : BitVec 10) (slot : BitVec 4)
  /-- R218. Each lane is scaled by the reciprocal square root of the mean square plus epsilon. -/
  | rmsnormApply (cell : BitVec 10) (slot : BitVec 4)
  /-- R154. A swarm issues a descriptor-mode matrix operation under a token. -/
  | mx (cell : BitVec 10) (slot : BitVec 4)
  /-- R180. Fragment products are added into a fragment tile. -/
  | mxfMma (cell : BitVec 10) (slot : BitVec 4)
  /-- R180. A fragment tile begins at ACC. -/
  | mxfZero (cell : BitVec 10) (slot : BitVec 4)
  /-- R180. A fragment tile's output step writes the output fragment and ends the tile. -/
  | mxfOut (cell : BitVec 10) (slot : BitVec 4)
  /-- R157. A relative branch with one delay slot. -/
  | br (cell : BitVec 10) (slot : BitVec 4)
  /-- R157. A register-based branch with one delay slot. -/
  | bri (cell : BitVec 10) (slot : BitVec 4)
  /-- R158. A hardware loop is set up. -/
  | loop (cell : BitVec 10) (slot : BitVec 4)
  /-- R158. A hardware loop is made inactive. -/
  | loopx (cell : BitVec 10) (slot : BitVec 4)
  /-- R121. A new mode word is made pending and the swarm serialises. -/
  | modeset (cell : BitVec 10) (slot : BitVec 4)
  /-- R121. Earlier work of the swarm completes and the pending mode word takes effect. -/
  | modeShadowEnd (cell : BitVec 10) (slot : BitVec 4)
  /-- R101. The swarm waits for its earlier local accesses. -/
  | fenceL (cell : BitVec 10) (slot : BitVec 4)
  /-- R101. The swarm waits for its earlier accesses to homes in its channel. -/
  | fenceC (cell : BitVec 10) (slot : BitVec 4)
  /-- R101. The swarm waits for its earlier accesses to any home of the device. -/
  | fenceD (cell : BitVec 10) (slot : BitVec 4)
  /-- R160. The swarm waits until the named token counters read zero. -/
  | wait (cell : BitVec 10) (slot : BitVec 4)
  /-- R114. The swarm enters EXITING and drains. -/
  | exit (cell : BitVec 10) (slot : BitVec 4)
  /-- R127. BRK commits and parks its swarm. -/
  | brk (cell : BitVec 10) (slot : BitVec 4)
  /-- R112. The supervisor creates a swarm in the lowest free slot. -/
  | spawn (cell : BitVec 10) (slot : BitVec 4)
  /-- R132. The supervisor waits for a queued park and takes its slot. -/
  | pwait (cell : BitVec 10) (slot : BitVec 4)
  /-- R132. The supervisor reads a word of a parked swarm's record. -/
  | pread (cell : BitVec 10) (slot : BitVec 4)
  /-- R132. The supervisor writes a word of a parked swarm's record. -/
  | pwrite (cell : BitVec 10) (slot : BitVec 4)
  /-- R132. The supervisor reads a register of a parked swarm. -/
  | rread (cell : BitVec 10) (slot : BitVec 4)
  /-- R132. The supervisor writes a register of a parked swarm. -/
  | rwrite (cell : BitVec 10) (slot : BitVec 4)
  /-- R133. The supervisor resumes a parked swarm after checking its record. -/
  | pctlResume (cell : BitVec 10) (slot : BitVec 4)
  /-- R133. The supervisor re-issues the faulted asynchronous operation and resumes. -/
  | pctlResumeReissue (cell : BitVec 10) (slot : BitVec 4)
  /-- R126. The supervisor requests a park of an active swarm. -/
  | pctlParkreq (cell : BitVec 10) (slot : BitVec 4)
  /-- R114. The supervisor kills a swarm, which drains. -/
  | pctlKill (cell : BitVec 10) (slot : BitVec 4)
  /-- R126. The host requests a park through CELL.PARK_CMD. -/
  | parkCmdParkRequest (window : BitVec 10) (slot : BitVec 4)
  /-- R133. The host resumes a parked swarm through CELL.PARK_CMD. -/
  | parkCmdResume (window : BitVec 10) (slot : BitVec 4)
  /-- R133. The host re-issues and resumes through CELL.PARK_CMD. -/
  | parkCmdResumeReissue (window : BitVec 10) (slot : BitVec 4)
  /-- R114. The host kills a swarm through CELL.PARK_CMD. -/
  | parkCmdKill (window : BitVec 10) (slot : BitVec 4)
  /-- R126. A requested park is taken at the swarm's next instruction boundary. -/
  | requestedPark (cell : BitVec 10) (slot : BitVec 4)
  /-- R114. An EXITING swarm's drain completes and its slot and blocks free, ending its tiles. -/
  | swarmRelease (cell : BitVec 10) (slot : BitVec 4)
  /-- R181. A matrix operation starts after the previous one, reads its descriptors and runs its checks. -/
  | mxStart (cell : BitVec 10)
  /-- R174. A matrix operation completes its pass, writes, decrements its token and reports any fault. -/
  | mxComplete (cell : BitVec 10)
  /-- R199. A transfer starts in issue order, reads its descriptors and runs its checks. -/
  | xferStart (cell : BitVec 10)
  /-- R195. A transfer completes, or ends at a fault partway, and decrements its token. -/
  | xferComplete (cell : BitVec 10) (host : Bytes)
  /-- R282. A walk's table reads return and yield a descriptor, a miss or a walk fault. -/
  | regionWalkComplete (cell : BitVec 10) (slot : BitVec 4)
  /-- R102. A STORE packet arrives at a cell and is performed or refused. -/
  | storePacket (idx : Nat) (link : LinkErr)
  /-- R105. An ATOMIC packet is performed at the home cell. -/
  | atomicPacket (idx : Nat) (link : LinkErr)
  /-- R105. Fetched atomic values arrive and are written to lane registers. -/
  | atomicRspPacket (idx : Nat) (link : LinkErr)
  /-- R269. A message arrives at a receive ring, waits for a slot, or is refused. -/
  | msgPacket (idx : Nat) (link : LinkErr)
  /-- R269. A dynamic message waiting at a full ring is delivered when a slot frees. -/
  | msgRingWaitRelease (idx : Nat)
  /-- R101. An ACK settles a store, atomic or message for fences. -/
  | ackPacket (idx : Nat) (link : LinkErr)
  /-- R102. A refusal arrives at the sender and settles the request. -/
  | refusePacket (idx : Nat) (link : LinkErr)
  /-- R283. An HBM or host request is served at its controller or the host interface. -/
  | memreqPacket (idx : Nat) (link : LinkErr)
  /-- R283. An HBM or host response returns data or an error to its requester. -/
  | memrspPacket (idx : Nat) (link : LinkErr)
  /-- R265. A static credit returns to a route's source. -/
  | creditPacket (idx : Nat) (link : LinkErr)
  /-- R266. A RESTORE credit sets the source's counter to DEPTH. -/
  | creditRestore (idx : Nat) (link : LinkErr)
  /-- R262. Traffic reaching a closed bridge end is refused or discarded and counted. -/
  | bridgeDiscard (idx : Nat)
  /-- R284. The host issues REGION.SYNC for every register of a channel. -/
  | regionSyncAll (ch : BitVec 2) (data : Word)
  /-- R284. The host issues REGION.SYNC for registers loaded from one descriptor address. -/
  | regionSyncAddr (ch : BitVec 2) (data : Word)
  /-- R284. REGION.SYNC reaches a cell, which empties and re-walks matching registers. -/
  | regionSyncArrival (cell : BitVec 10)
  /-- R289. A scrubber reads the next block or word, correcting or recording errors. -/
  | scrubRead (unit : ScrubUnit) (ecc : EccSeen)
  /-- R211. The host writes a table row. -/
  | ftabWriteRow (window : BitVec 10) (data : Word)
  /-- R211. The host installs a table header and makes the slot valid. -/
  | ftabSetSlot (window : BitVec 10) (data : Word)
  /-- R211. The host makes a table slot invalid. -/
  | ftabClearSlot (window : BitVec 10) (data : Word)
  /-- R211. The host reads a table row into the staging registers. -/
  | ftabReadRow (window : BitVec 10) (data : Word)
  /-- R211. A table command completes, clears BUSY and signals. -/
  | ftabCommandDone (window : BitVec 10)
  /-- R224. The host installs a scale-file entry. -/
  | scaleWrite (window : BitVec 10) (data : Word)
  /-- R224. The host reads a scale-file entry and its counter. -/
  | scaleRead (window : BitVec 10) (data : Word)
  /-- R224. The host clears an entry's clip counter. -/
  | scaleClearCount (window : BitVec 10) (data : Word)
  /-- R224. A scale-file command completes, clears BUSY and signals. -/
  | scaleCommandDone (window : BitVec 10)
  /-- R239. Every 10 µs the governor measures every island and decides operating points. -/
  | govControlPeriod (m : GovMeas)
  /-- R240. A droop detector trips and stretches its island's clock. -/
  | droopTrip (island : BitVec 11)
  /-- R239. An island's voltage settles and a pending raise takes effect. -/
  | voltageSettled (island : BitVec 11)
  /-- R244. The host writes the power profile, sent to the dispatchers. -/
  | govProfileWrite (data : Word)
  /-- R244. A dispatcher applies the latest profile written. -/
  | profileApply (ch : BitVec 2)
  /-- R246. The host installs an island's floor and ceiling. -/
  | govIsleWrite (data : Word)
  /-- R249. Every 10 µs Bristle checks the governor's clock against the tick clock. -/
  | govClockCheck (ok : Bool)
  /-- R249. With the governor failed, a junction comparator at 115 °C stops clocks. -/
  | junctionComparatorTrip
  /-- R250. A crossing stalls beyond STALL_LIMIT and is reported. -/
  | isleStall (sender : BitVec 11) (receiver : BitVec 11)
  /-- R293. A front-end lane detects signal and recovers its clock, entering LOCKING. -/
  | feLaneSignal (ch : BitVec 2) (lane : BitVec 4)
  /-- R293. 64 valid sync headers bring a front-end lane UP. -/
  | feLaneLock (ch : BitVec 2) (lane : BitVec 4)
  /-- R293. A front-end lane loses lock and any copy in progress is abandoned. -/
  | ingLaneDown (ch : BitVec 2) (lane : BitVec 4)
  /-- R296. A fragment copy's header is received and its disposition decided. -/
  | copyHeader (ch : BitVec 2) (lane : BitVec 4) (header : Bytes) (tap : TapErr)
  /-- R295. A copy ends and is checked, accepted or discarded. -/
  | copyEof (ch : BitVec 2) (lane : BitVec 4) (tail : Bytes)
  /-- R299. T + ASM_TIMEOUT passes: a pending event is discarded or an open frame closes. -/
  | asmTimeout (ch : BitVec 2) (event : BitVec 48)
  /-- R303. A closed frame's writes are done and it is handed to the dispatcher. -/
  | frameHandoff (ch : BitVec 2) (event : BitVec 48)
  /-- R305. The host starts an ingest resynchronisation. -/
  | ingResync (ch : BitVec 2)
  /-- R305. Resynchronisation finishes: window emptied and mark voided. -/
  | ingResyncDone (ch : BitVec 2)
  /-- R310. A frame-start packet joins or opens a group; openings take requests and issue sensor writes. -/
  | camFrameStart (ch : BitVec 2) (ctx : BitVec 2) (frame : BitVec 16) (hdr : HdrErr) (tap : TapErr)
  /-- R312. A CSI-2 long packet (line or embedded data) is checked and written to the raw buffer. -/
  | camLongPacket (ch : BitVec 2) (vc : BitVec 4) (dt : BitVec 6) (hdr : HdrErr) (payload : Bytes) (crcOk : Bool) (full : Bool) (tap : TapErr)
  /-- R312. A frame-end packet ends a context frame and may close its group. -/
  | camFrameEnd (ch : BitVec 2) (ctx : BitVec 2) (frame : BitVec 16) (hdr : HdrErr) (tap : TapErr)
  /-- R312. FRAME_TIMEOUT after a frame start ends the context frame. -/
  | frameTimeout (ch : BitVec 2) (ctx : BitVec 2)
  /-- R311. MERGE_TIMEOUT after a group opened closes it. -/
  | mergeTimeout (ch : BitVec 2)
  /-- R315. A closed group starts processing once its predecessor is done and a slot is free. -/
  | camProcessStart (ch : BitVec 2)
  /-- R322. A processed group's writes are done and it is handed to the dispatcher. -/
  | camHandoff (ch : BitVec 2)
  /-- R325. A sensor-control write completes, acknowledged or not. -/
  | sensorWriteDone (ch : BitVec 2) (ack : Bool)
  /-- R325. A sensor write not completed within WRITE_WINDOW counts as failed. -/
  | writeWindow (ch : BitVec 2)
  /-- R326. With no frame start for 1 ms the sequencer reads the ring and issues writes at once. -/
  | camRingPoll (ch : BitVec 2)
  /-- R329. The host resynchronises a camera port in place. -/
  | camResync (ch : BitVec 2)
  /-- R335. Every 1 ms in DETECT the port retries far-end detection. -/
  | wglDetect (quad : BitVec 4) (lanes : BitVec 4)
  /-- R335. Enough lanes complete training and the port enters ALIGN. -/
  | wglTrainDone (quad : BitVec 4) (lanes : BitVec 4)
  /-- R335. Training exceeds 100 ms and the port returns to DETECT. -/
  | wglTrainTimeout (quad : BitVec 4)
  /-- R335. Markers are aligned on every trained lane and the port enters INIT. -/
  | wglAlignDone (quad : BitVec 4)
  /-- R335. Alignment exceeds 10 ms and the port returns to DETECT. -/
  | wglAlignTimeout (quad : BitVec 4)
  /-- R336. An INIT flit is compared and agreement brings the link UP and resends held messages. -/
  | wglInitFlit (quad : BitVec 4) (flit : Bytes)
  /-- R335. INIT does not agree within 1 ms and the port returns to DETECT. -/
  | wglInitTimeout (quad : BitVec 4)
  /-- R335. A write of WGL.CTL.RETRAIN sends an UP link to RETRAIN. -/
  | wglRetrainCmd (quad : BitVec 4)
  /-- R335. An UP lane loses lock and the link enters RETRAIN. -/
  | wglLaneLockLoss (quad : BitVec 4) (lane : BitVec 2)
  /-- R335. RETRAIN exceeds 10 ms and the link goes DOWN. -/
  | wglRetrainTimeout (quad : BitVec 4)
  /-- R333. A marker is received, checked and counted towards lane errors. -/
  | wglMarker (quad : BitVec 4) (lane : BitVec 2) (portion : Bytes) (parity : BitVec 8) (symbols : Nat)
  /-- R338. A MSG flit is accepted in order or discarded with a NAK. -/
  | wglMsgFlit (quad : BitVec 4) (flit : Bytes) (fec : FecSeen) (tap : TapErr)
  /-- R339. A NULL flit reports freed counts and retirement requests. -/
  | wglNullFlit (quad : BitVec 4) (flit : Bytes)
  /-- R338. A NAK makes the sender replay held flits. -/
  | wglNakFlit (quad : BitVec 4) (flit : Bytes)
  /-- R338. ACK_TIMEOUT passes without progress and held flits are replayed. -/
  | ackTimeout (quad : BitVec 4)
  /-- R344. MSG_HOLD expires after DOWN and held messages are lost. -/
  | msgHold (quad : BitVec 4)
  /-- R345. A DATA message is dispositioned and delivered to its sink. -/
  | wglData (quad : BitVec 4)
  /-- R345. A STORE message is written to its logical cell. -/
  | wglStore (quad : BitVec 4)
  /-- R348. A CHAIN message carries forwarded records or an INCOMPLETE marker to a relay. -/
  | wglChain (quad : BitVec 4)
  /-- R349. An ANNOUNCE message announces or withdraws a relay. -/
  | wglAnnounce (quad : BitVec 4)
  /-- R343. A MACK releases a held message and reports its status. -/
  | wglMack (quad : BitVec 4)
  /-- R348. A station's output piece reaches its relay, which forwards once complete. -/
  | chainOutputPiece (idx : Nat) (link : LinkErr)
  /-- R348. An in-device forward or marker reaches the next relay. -/
  | chainForward (idx : Nat)
  /-- R350. An instance's timeout tick passes without its forward and it becomes INCOMPLETE. -/
  | chainTimeout (ch : BitVec 2) (entry : BitVec 6) (inst : BitVec 48)
  /-- R358. A recognised SYNC_IN edge sets an armed epoch or starts a group step. -/
  | syncInEdge
  /-- R358. The host arms an epoch set. -/
  | timeEpochArm
  /-- R358. The host cancels an armed epoch set. -/
  | timeEpochCancel
  /-- R356. The tick clock locks to MREF. -/
  | mrefLock
  /-- R356. MREF is lost and the tick clock enters HOLDOVER. -/
  | mrefLoss
  /-- R357. Every 1000 ticks of a slew the counter adds or omits one increment. -/
  | counterSlew
  /-- R360. Every BEACON_PERIOD a device sends SYNC downstream. -/
  | beaconPeriod
  /-- R362. A SYNC beacon yields an offset, a slew, and relays any step announcement. -/
  | beaconSync (quad : BitVec 4)
  /-- R362. A DELAY_REQ beacon is stamped for the next SYNC's echo. -/
  | beaconDelayReq (quad : BitVec 4)
  /-- R369. A JOIN is checked, relayed and collected by the master. -/
  | beaconJoin (quad : BitVec 4)
  /-- R369. A FORM beacon updates the roster and forms the group at a member. -/
  | beaconForm (quad : BitVec 4)
  /-- R369. A REFUSE beacon refuses formation, naming device and field. -/
  | beaconRefuse (quad : BitVec 4)
  /-- R371. A LEAVE beacon removes a device from the roster. -/
  | beaconLeave (quad : BitVec 4)
  /-- R363. No SYNC for 4 beacon periods makes the member unqualified. -/
  | beaconLost
  /-- R364. The counter reaches STEP_AT and applies the announced jump. -/
  | groupStep
  /-- R369. FORM_TIMEOUT passes without every JOIN and formation is refused. -/
  | formTimeout
  /-- R371. The host makes the device leave its formed group. -/
  | groupLeave
  /-- R369. The host takes a REFUSED device back to SYNCING. -/
  | groupRetry
  /-- R365. The counter reaches an armed count and the launch is triggered or cancelled. -/
  | countFire (ch : BitVec 2) (slot : BitVec 4)
  /-- R379. The host arms a count in an arm slot. -/
  | dispArmGo (ch : BitVec 2) (data : Word)
  /-- R379. The host cancels an armed slot. -/
  | dispArmCancel (ch : BitVec 2) (slot : BitVec 4)
  /-- R378. A TRIGGER message reaches a dispatcher and is accepted or discarded. -/
  | triggerMessage (idx : Nat) (link : LinkErr)
  /-- R388. A RESULT piece reaches the dispatcher and may make the result ready. -/
  | resultPiece (idx : Nat) (link : LinkErr)
  /-- R380. A waiting launch reserves its resources on every cell and begins walks and refreshes. -/
  | launchBegin (ch : BitVec 2) (ctx : BitVec 4)
  /-- R380. Walks and replica refreshes finish and the launch's swarms are created. -/
  | launchSwarmCreate (ch : BitVec 2) (ctx : BitVec 4) (host : Bytes)
  /-- R381. A launch's last swarm is released and its successor begins or its context ends. -/
  | launchComplete (ch : BitVec 2) (ctx : BitVec 4)
  /-- R389. A deadline tick passes without a ready result and the fallback is emitted. -/
  | deadline (ch : BitVec 2)
  /-- R385. A victim's swarms are parked and its operations complete, and the save begins. -/
  | preemptSaveStart (ch : BitVec 2) (ctx : BitVec 4)
  /-- R386. The context save areas are written and the victim's resources freed. -/
  | preemptSaveDone (ch : BitVec 2) (ctx : BitVec 4)
  /-- R387. A saved context reserves again and its restore begins. -/
  | contextRestore (ch : BitVec 2) (ctx : BitVec 4)
  /-- R387. The restore is written and every swarm resumes. -/
  | contextRestoreDone (ch : BitVec 2) (ctx : BitVec 4)
  /-- R401. The host starts the weights-digest manifest command. -/
  | sealManifestGo (data : Word)
  /-- R401. The digest computation completes and the new weights digest is installed. -/
  | sealManifestDone
  /-- R403. The Seal engine seals a real result, which then leaves. -/
  | sealComplete (ch : BitVec 2)
  /-- R407. Room returns and one OVERFLOW entry covers the lost entries. -/
  | hrdOverflowEntry
  /-- R408. The host starts a new ring epoch. -/
  | hrdRearm
  /-- R409. The host starts or resumes replay. -/
  | hrdReplayGo (data : Word) (stream : Bytes)
  /-- R410. Replay delivers the next recorded entry once earlier ones are delivered and handed over. -/
  | hrdReplayEntry
  /-- R412. The host ends a replay. -/
  | hrdReplayStop
  /-- R417. ACTION ARM starts ARMING of a function. -/
  | safeArm (data : Word)
  /-- R418. ACTION DISARM takes a function to DISARMED if the unlock matches. -/
  | safeDisarm (data : Word)
  /-- R418. ACTION UNCURL takes a CURLED function to DISARMED. -/
  | safeUncurl (data : Word)
  /-- R417. The start-up self-test and partner exchange finish and the arming checks decide. -/
  | armingComplete (f : Bool) (selfTest : Bool)
  /-- R417. Arming does not complete within 10 ms and is refused. -/
  | armingTimeout (f : Bool)
  /-- R425. Both comparator instances decide a pair of entries and release or curl. -/
  | comparatorDecision (f : Bool)
  /-- R425. An entry has no counterpart for SKEW_LIMIT ticks. -/
  | delayTimeout (f : Bool)
  /-- R427. Every 1 ms test entries are injected through each comparator instance. -/
  | cmpInjection (f : Bool) (ok : Bool)
  /-- R427. A held delay-register entry is read and checked every 100 µs. -/
  | delayScrub (f : Bool) (side : Bool) (idx : Nat) (ok : Bool)
  /-- R427. Every 10 µs the tick clock is checked against REFCLK. -/
  | tickClockCheck (ok : Bool)
  /-- R427. The heartbeat watchdog trips after 100 µs without a write. -/
  | watchdog
  /-- R421. Every HEARTBEAT µs a device-pair side sends a MIRROR HEARTBEAT. -/
  | heartbeatSend (f : Bool)
  /-- R431. A partner HEARTBEAT is received. -/
  | mirrorHeartbeat (quad : BitVec 4)
  /-- R424. A partner RECORD enters the partner delay register. -/
  | mirrorRecord (quad : BitVec 4)
  /-- R417. A partner ARM is received for arming. -/
  | mirrorArm (quad : BitVec 4)
  /-- R431. A partner CURL is executed as partner loss. -/
  | mirrorCurl (quad : BitVec 4)
  /-- R431. A partner DISARM is executed as partner loss. -/
  | mirrorDisarm (quad : BitVec 4)
  /-- R431. No MIRROR for PARTNER_TIMEOUT loses the partner. -/
  | partnerTimeout (f : Bool)
  /-- R433. SIMPLEX_LIMIT after entry the function curls. -/
  | simplexLimit (f : Bool)
  /-- R442. A write of ENABLE = 1 resets a queue's pointers and enables it. -/
  | hostQueueEnable (data : Word)
  /-- R442. A write of ENABLE = 0 stops fetching at once. -/
  | hostQueueDisable (data : Word)
  /-- R443. The host writes a queue's SQ tail doorbell. -/
  | sqTail (queue : BitVec 6) (data : Word)
  /-- R443. The host writes a queue's CQ head doorbell and rearms its vector. -/
  | cqHead (queue : BitVec 6) (data : Word)
  /-- R443. The host writes a queue's DR head doorbell and rearms its vector. -/
  | drHead (queue : BitVec 6) (data : Word)
  /-- R445. With a CQ slot free the device fetches the next SQ entry. -/
  | hostSqFetch (queue : BitVec 6)
  /-- R447. A LAUNCH submission is checked and its input read. -/
  | launch (queue : BitVec 6)
  /-- R447. A LAUNCH's input bytes are written, the Hoard receives the doorbell and the trigger is made. -/
  | launchInputDone (queue : BitVec 6)
  /-- R449. A DMA engine copies host memory into HBM or a cell window. -/
  | copyIn (queue : BitVec 6)
  /-- R449. A DMA engine copies HBM into host memory. -/
  | copyOut (queue : BitVec 6)
  /-- R449. A copy completes or ends at a fault and its completion is posted. -/
  | hostCopyDone (queue : BitVec 6)
  /-- R450. A flash slot is erased and programmed from HBM. -/
  | flashWrite (queue : BitVec 6)
  /-- R450. Programming and read-back of a flash slot finish. -/
  | flashWriteDone (queue : BitVec 6) (ok : Bool)
  /-- R451. A key hash is programmed into a fuse slot. -/
  | fuseKey (queue : BitVec 6)
  /-- R451. A fuse key slot is revoked. -/
  | fuseRevoke (queue : BitVec 6)
  /-- R451. The SIG_REQUIRED fuse is set. -/
  | fuseSigRequired (queue : BitVec 6)
  /-- R452. A firmware package is verified and written into the inactive bank. -/
  | fwUpdate (queue : BitVec 6)
  /-- R452. A firmware update finishes and its completion is posted. -/
  | fwUpdateDone (queue : BitVec 6)
  /-- R453. A staged record is written to its data ring once the host has freed space. -/
  | hostDrWrite (queue : BitVec 6)
  /-- R458. A completion of a device read of host memory arrives, with data or error. -/
  | hostReadCompletion (idx : Nat) (ok : Bool) (bytes : Bytes)
  /-- R460. The PCIe link goes down and a host-interface reset is performed. -/
  | hostLinkDown
  /-- R460. A PCIe Function Level Reset performs a host-interface reset. -/
  | functionLevelReset
  /-- R460. A PCIe hot reset performs a host-interface reset. -/
  | hotReset
  /-- R489. PERST_N assertion causes only a host-interface reset. -/
  | perstN
  /-- R467. PORST_N asserted performs a power-on reset. -/
  | porstNAssert
  /-- R473. PORST_N released after rails pass starts the counter, reads straps and fuses and begins the boot flow. -/
  | porstNRelease (b : Board)
  /-- R465. A rail outside its range holds the device in power-on reset with CURL_N and FAULT_N. -/
  | railMonitor
  /-- R473. HBM training and zeroing of the stacks finish. -/
  | hbmTrainingDone (trained : BitVec 8)
  /-- R473. The cell self-test of all physical cells finishes and failures join the list. -/
  | powerOnSelftestDone (bad : List CellFail)
  /-- R468. WRST_N held low for 1 µs performs a warm reset. -/
  | wrstN
  /-- R468. GLB.RESET_CTL.WARM performs a warm reset. -/
  | resetCtlWarm
  /-- R469. CHANNEL_GO cancels, aborts and closes a channel and starts its reset. -/
  | resetCtlChannel (data : Word)
  /-- R469. A channel reset ends and the channel is unconfigured. -/
  | channelResetDone
  /-- R471. CELL_GO removes a cell's swarms, aborts its launches and starts its reset. -/
  | resetCtlCell (data : Word)
  /-- R266. A cell reset ends and its router sends RESTORE credits. -/
  | cellResetDone
  /-- R495. Every 100 µs the device reads VOUT or IOUT from the regulator. -/
  | pmbusTelemetry (v : VrReading)
  /-- R495. PMB_ALERT_N low makes the device read STATUS_WORD. -/
  | pmbAlertN (status : BitVec 16)
  /-- R494. Management command 0x10 returns GLB.IDENT. -/
  | mgmtIdent
  /-- R494. Management command 0x11 returns status bits. -/
  | mgmtStatus
  /-- R494. Management command 0x12 returns the highest junction temperature. -/
  | mgmtJunctionTemp
  /-- R494. Management command 0x13 returns the highest HBM case temperature. -/
  | mgmtHbmTemp
  /-- R494. Management command 0x14 returns package power. -/
  | mgmtPower
  /-- R494. Management command 0x15 returns the applied profile. -/
  | mgmtProfile
  /-- R494. Management command 0x16 returns the safety function states. -/
  | mgmtSafeState
  /-- R494. Management command 0x17 returns IMG.STATUS.LAST_CODE. -/
  | mgmtLastCode
  /-- R494. The target answers the SMBus Alert Response Address. -/
  | mgmtAlertResponse
  /-- R497. TRST_N or five TMS-high cycles reset the JTAG TAP. -/
  | tapReset
  /-- R497. JTAG BYPASS instruction. -/
  | bypass
  /-- R497. JTAG IDCODE returns the identification code. -/
  | idcode
  /-- R497. JTAG SAMPLE/PRELOAD instruction. -/
  | samplePreload
  /-- R497. JTAG EXTEST drives pins and holds the device in warm reset. -/
  | extest
  /-- R497. JTAG CLAMP holds pins and the device in warm reset. -/
  | clamp
  /-- R497. JTAG HIGHZ floats pins and holds the device in warm reset. -/
  | highz
  /-- R141. A swarm issues a word whose OP is one of the 209 reserved values, such as the all-zero word, and it faults with ENCODING. -/
  | reservedOpcode (cell : BitVec 10) (slot : BitVec 4)
  /-- R302. A data block of a copy arrives on an UP front-end lane and is written, staged, or dropped when staging is full. -/
  | dataBlock (ch : BitVec 2) (lane : BitVec 4) (block : Word)
  /-- R294. A control block of an unlisted type, an IDLE or SOF inside a copy, or data blocks outside a copy abandon the copy in progress and discard data up to the next SOF. -/
  | framingFailure (ch : BitVec 2) (lane : BitVec 4)
  /-- R349. An announcement or withdrawal from a predecessor relay on an in-device hop reaches a chain relay. -/
  | inDeviceAnnounce (idx : Nat)
  /-- R458. A device read of host memory receives no completion within the Device Control 2 timeout and is refused with HOST_CPL_ERR. -/
  | completionTimeout (idx : Nat)
  /-- R437. The PCIe link trains up, and HOST.LINK shows its speed, width and flit mode. -/
  | hostLinkUp (speed : BitVec 4) (width : BitVec 5) (flit : Bool)
  /-- R440. A Resizable BAR write changes the BAR2 size, and BAR2_BASE becomes 0 if the window no longer fits. -/
  | bar2Resize (log2 : BitVec 6)
  /-- R459. The host unmasks an MSI-X vector whose Pending Bit is set, and the vector signals. -/
  | msiXUnmask (vector : BitVec 7)
  /-- R436. The comparators' start-up self-test after a load that applies the SAFETY section ends, and entries waiting in their egress are accepted. -/
  | startUpSelfTestDone (f : Bool) (ok : Bool)
deriving DecidableEq, Repr

end Sys2Proof
end

