-- ==== Sys2Proof/Machine/Bits.lean ====
section
/-! DEFINITION. Bit fields, sign extension and byte order (R4: every multi-byte value is little-endian). -/
namespace Sys2Proof.Machine

/-- Bits `lo + len - 1` to `lo` of a number. -/
def bits (v lo len : Nat) : Nat := (v >>> lo) % 2 ^ len

/-- One bit of a number. -/
def bitAt (v i : Nat) : Bool := (v >>> i) % 2 == 1

/-- A number with bits `lo + len - 1` to `lo` replaced. -/
def setBits (v lo len x : Nat) : Nat :=
  v - bits v lo len * 2 ^ lo + (x % 2 ^ len) * 2 ^ lo

/-- The two's complement reading of the low `w` bits. -/
def sx (w v : Nat) : Int :=
  let x := v % 2 ^ w
  if x < 2 ^ (w - 1) then (x : Int) else (x : Int) - (2 : Int) ^ w

/-- The low `w` bits of an integer in two's complement. -/
def ofI (w : Nat) (x : Int) : Nat := (x % ((2 : Int) ^ w)).toNat

/-- `floor (log2 n)` for `n > 0`. -/
def lg (n : Nat) : Nat := Nat.log2 n

/-- The number a byte string holds, little-endian. -/
def leNat : Bytes → Nat
  | [] => 0
  | b :: bs => b.toNat + 256 * leNat bs

/-- The `n` bytes of a number, little-endian. -/
def leBytes : Nat → Nat → Bytes
  | 0, _ => []
  | n + 1, v => BitVec.ofNat 8 v :: leBytes n (v / 256)

/-- `n` bytes of zero. -/
def zeros (n : Nat) : Bytes := List.replicate n 0

/-- `len` bytes from offset `off` of a byte string, zero past its end. -/
def slice (bs : Bytes) (off len : Nat) : Bytes :=
  let x := (bs.drop off).take len
  x ++ zeros (len - x.length)

/-- The little-endian field of `len` bytes at `off`. -/
def fieldLE (bs : Bytes) (off len : Nat) : Nat := leNat (slice bs off len)

/-- A byte string cut or zero-padded to `n` bytes. -/
def fit (n : Nat) (bs : Bytes) : Bytes := slice bs 0 n

/-- A byte string with `x` written at offset `off`. -/
def patch (bs : Bytes) (off : Nat) (x : Bytes) : Bytes :=
  let head := slice bs 0 off
  head ++ x ++ bs.drop (off + x.length)

/-- Sum of a list. -/
def total (l : List Nat) : Nat := l.foldl (· + ·) 0

/-- Number of set bits among the low `n`. -/
def popcount (n v : Nat) : Nat := ((List.range n).filter (bitAt v)).length

/-- The number whose bit `i` is set for each `i` below `n` with `f i`. -/
def maskOf (n : Nat) (f : Nat → Bool) : Nat :=
  (List.range n).foldl (fun a i => if f i then a + 2 ^ i else a) 0

/-- R359: a pending tick moved by the jumps of the counter. -/
def jumped (t : Nat) (j : Int) : Nat := ((t : Int) + j).toNat

/-- Ceiling division. -/
def cdiv (a b : Nat) : Nat := (a + b - 1) / b

/-- A value capped at `m`, as a saturating counter holds it. -/
def capAt (m v : Nat) : Nat := min m v

/-- Inserts a number into a rising list; one that is there already stays once. -/
def insNat (n : Nat) : List Nat → List Nat
  | [] => [n]
  | m :: l => if n < m then n :: m :: l else if n == m then m :: l else m :: insNat n l

/-- The numbers of a list, rising and each once. -/
def sortNat (l : List Nat) : List Nat := l.foldr insNat []

/-- A list with only the first `n` of its elements that satisfy `p`. -/
def keepFirst {α : Type} (p : α → Bool) : Nat → List α → List α
  | _, [] => []
  | n, a :: l =>
    if !p a then a :: keepFirst p n l
    else match n with
      | 0 => keepFirst p 0 l
      | m + 1 => a :: keepFirst p m l

/-- All elements of a list satisfy `p`. -/
def allB {α : Type} (l : List α) (p : α → Bool) : Bool := l.all p

end Sys2Proof.Machine
end

