-- ==== Sys2Proof/Machine/Crypto.lean ====
section
/-! DEFINITION. The digests and checks the spec names by their standards: SHA-256 (R399 to R403), SHA-384 (R30, R473),
the CRC-64 of R423, the CRC-32 of R295, the CRC-16 of CSI-2, and ECDSA over P-384 (R31). -/
namespace Sys2Proof.Machine

/-- The number a byte string holds, big-endian. -/
def beNat (bs : Bytes) : Nat := bs.foldl (fun a b => a * 256 + b.toNat) 0

/-- The `n` bytes of a number, big-endian. -/
def beBytes (n v : Nat) : Bytes := (leBytes n v).reverse

/-- A byte string cut into pieces of `k` bytes; `fuel` bounds their number. -/
def chunks (k : Nat) : Nat → Bytes → List Bytes
  | 0, _ => []
  | fuel + 1, bs => if bs.isEmpty then [] else bs.take k :: chunks k fuel (bs.drop k)

/-- `x` rotated right by `r` in `w` bits. -/
def rotr (w x r : Nat) : Nat := (x >>> r) ||| ((x <<< (w - r)) % 2 ^ w)

/-- The working values of a SHA-2 compression. -/
structure Sha2 where
  a : Nat
  b : Nat
  c : Nat
  d : Nat
  e : Nat
  f : Nat
  g : Nat
  h : Nat

/-- FIPS 180-4 constants of SHA-256, part 0. -/
def sha256K0 : List Nat :=
  [0x428A2F98, 0x71374491, 0xB5C0FBCF, 0xE9B5DBA5, 0x3956C25B, 0x59F111F1,
   0x923F82A4, 0xAB1C5ED5, 0xD807AA98, 0x12835B01, 0x243185BE, 0x550C7DC3,
   0x72BE5D74, 0x80DEB1FE, 0x9BDC06A7, 0xC19BF174]

/-- FIPS 180-4 constants of SHA-256, part 1. -/
def sha256K1 : List Nat :=
  [0xE49B69C1, 0xEFBE4786, 0x0FC19DC6, 0x240CA1CC, 0x2DE92C6F, 0x4A7484AA,
   0x5CB0A9DC, 0x76F988DA, 0x983E5152, 0xA831C66D, 0xB00327C8, 0xBF597FC7,
   0xC6E00BF3, 0xD5A79147, 0x06CA6351, 0x14292967]

/-- FIPS 180-4 constants of SHA-256, part 2. -/
def sha256K2 : List Nat :=
  [0x27B70A85, 0x2E1B2138, 0x4D2C6DFC, 0x53380D13, 0x650A7354, 0x766A0ABB,
   0x81C2C92E, 0x92722C85, 0xA2BFE8A1, 0xA81A664B, 0xC24B8B70, 0xC76C51A3,
   0xD192E819, 0xD6990624, 0xF40E3585, 0x106AA070]

/-- FIPS 180-4 constants of SHA-256, part 3. -/
def sha256K3 : List Nat :=
  [0x19A4C116, 0x1E376C08, 0x2748774C, 0x34B0BCB5, 0x391C0CB3, 0x4ED8AA4A,
   0x5B9CCA4F, 0x682E6FF3, 0x748F82EE, 0x78A5636F, 0x84C87814, 0x8CC70208,
   0x90BEFFFA, 0xA4506CEB, 0xBEF9A3F7, 0xC67178F2]

/-- FIPS 180-4 constants of SHA-256. -/
def sha256K : List Nat := sha256K0 ++ sha256K1 ++ sha256K2 ++ sha256K3

/-- FIPS 180-4 constants of SHA-384, part 0. -/
def sha512K0 : List Nat :=
  [0x428A2F98D728AE22, 0x7137449123EF65CD, 0xB5C0FBCFEC4D3B2F, 0xE9B5DBA58189DBBC,
   0x3956C25BF348B538, 0x59F111F1B605D019, 0x923F82A4AF194F9B, 0xAB1C5ED5DA6D8118,
   0xD807AA98A3030242, 0x12835B0145706FBE, 0x243185BE4EE4B28C, 0x550C7DC3D5FFB4E2,
   0x72BE5D74F27B896F, 0x80DEB1FE3B1696B1, 0x9BDC06A725C71235, 0xC19BF174CF692694]

/-- FIPS 180-4 constants of SHA-384, part 1. -/
def sha512K1 : List Nat :=
  [0xE49B69C19EF14AD2, 0xEFBE4786384F25E3, 0x0FC19DC68B8CD5B5, 0x240CA1CC77AC9C65,
   0x2DE92C6F592B0275, 0x4A7484AA6EA6E483, 0x5CB0A9DCBD41FBD4, 0x76F988DA831153B5,
   0x983E5152EE66DFAB, 0xA831C66D2DB43210, 0xB00327C898FB213F, 0xBF597FC7BEEF0EE4,
   0xC6E00BF33DA88FC2, 0xD5A79147930AA725, 0x06CA6351E003826F, 0x142929670A0E6E70]

/-- FIPS 180-4 constants of SHA-384, part 2. -/
def sha512K2 : List Nat :=
  [0x27B70A8546D22FFC, 0x2E1B21385C26C926, 0x4D2C6DFC5AC42AED, 0x53380D139D95B3DF,
   0x650A73548BAF63DE, 0x766A0ABB3C77B2A8, 0x81C2C92E47EDAEE6, 0x92722C851482353B,
   0xA2BFE8A14CF10364, 0xA81A664BBC423001, 0xC24B8B70D0F89791, 0xC76C51A30654BE30,
   0xD192E819D6EF5218, 0xD69906245565A910, 0xF40E35855771202A, 0x106AA07032BBD1B8]

/-- FIPS 180-4 constants of SHA-384, part 3. -/
def sha512K3 : List Nat :=
  [0x19A4C116B8D2D0C8, 0x1E376C085141AB53, 0x2748774CDF8EEB99, 0x34B0BCB5E19B48A8,
   0x391C0CB3C5C95A63, 0x4ED8AA4AE3418ACB, 0x5B9CCA4F7763E373, 0x682E6FF3D6B2B8A3,
   0x748F82EE5DEFB2FC, 0x78A5636F43172F60, 0x84C87814A1F0AB72, 0x8CC702081A6439EC,
   0x90BEFFFA23631E28, 0xA4506CEBDE82BDE9, 0xBEF9A3F7B2C67915, 0xC67178F2E372532B]

/-- FIPS 180-4 constants of SHA-384, part 4. -/
def sha512K4 : List Nat :=
  [0xCA273ECEEA26619C, 0xD186B8C721C0C207, 0xEADA7DD6CDE0EB1E, 0xF57D4F7FEE6ED178,
   0x06F067AA72176FBA, 0x0A637DC5A2C898A6, 0x113F9804BEF90DAE, 0x1B710B35131C471B,
   0x28DB77F523047D84, 0x32CAAB7B40C72493, 0x3C9EBE0A15C9BEBC, 0x431D67C49C100D4C,
   0x4CC5D4BECB3E42B6, 0x597F299CFC657E2A, 0x5FCB6FAB3AD6FAEC, 0x6C44198C4A475817]

/-- FIPS 180-4 constants of SHA-384. -/
def sha512K : List Nat := sha512K0 ++ sha512K1 ++ sha512K2 ++ sha512K3 ++ sha512K4

/-- One round of SHA-2 with word width `w` and rotation amounts `r`. -/
def sha2Round (w : Nat) (r : List Nat) (s : Sha2) (kw : Nat) : Sha2 :=
  let m := 2 ^ w
  let s1 := rotr w s.e (r.getD 0 0) ^^^ rotr w s.e (r.getD 1 0) ^^^ rotr w s.e (r.getD 2 0)
  let ch := (s.e &&& s.f) ^^^ ((m - 1 - s.e) &&& s.g)
  let t1 := s.h + s1 + ch + kw
  let s0 := rotr w s.a (r.getD 3 0) ^^^ rotr w s.a (r.getD 4 0) ^^^ rotr w s.a (r.getD 5 0)
  let maj := (s.a &&& s.b) ^^^ (s.a &&& s.c) ^^^ (s.b &&& s.c)
  ⟨(t1 + s0 + maj) % m, s.a, s.b, s.c, (s.d + t1) % m, s.e, s.f, s.g⟩

/-- The rounds of one block: `win` holds the next 16 schedule words. -/
def sha2Rounds (w : Nat) (r q : List Nat) : List Nat → List Nat → Sha2 → Sha2
  | [], _, s => s
  | k :: ks, win, s =>
    let w0 := win.getD 0 0
    let x := win.getD 1 0
    let y := win.getD 14 0
    let a := rotr w x (q.getD 0 0) ^^^ rotr w x (q.getD 1 0) ^^^ (x >>> q.getD 2 0)
    let b := rotr w y (q.getD 3 0) ^^^ rotr w y (q.getD 4 0) ^^^ (y >>> q.getD 5 0)
    let nw := (w0 + a + win.getD 9 0 + b) % 2 ^ w
    sha2Rounds w r q ks (win.drop 1 ++ [nw]) (sha2Round w r s (k + w0))

/-- One block added into the chaining value. -/
def sha2Block (w : Nat) (r q ks h : List Nat) (blk : Bytes) : List Nat :=
  let ws := (chunks (w / 8) 16 blk).map beNat
  let g := fun i => h.getD i 0
  let s := sha2Rounds w r q ks ws ⟨g 0, g 1, g 2, g 3, g 4, g 5, g 6, g 7⟩
  let m := 2 ^ w
  [(g 0 + s.a) % m, (g 1 + s.b) % m, (g 2 + s.c) % m, (g 3 + s.d) % m,
   (g 4 + s.e) % m, (g 5 + s.f) % m, (g 6 + s.g) % m, (g 7 + s.h) % m]

/-- SHA-2 padding to blocks of `bl` bytes with a length field of `ll` bytes. -/
def sha2Pad (bl ll : Nat) (m : Bytes) : Bytes :=
  let n := m.length
  let z := (bl - (n + 1 + ll) % bl) % bl
  m ++ [0x80] ++ zeros z ++ beBytes ll (8 * n)

/-- SHA-256 of a byte string, as 32 bytes. -/
def sha256 (m : Bytes) : Bytes :=
  let h0 := [0x6A09E667, 0xBB67AE85, 0x3C6EF372, 0xA54FF53A, 0x510E527F, 0x9B05688C, 0x1F83D9AB, 0x5BE0CD19]
  let p := sha2Pad 64 8 m
  let h := (chunks 64 p.length p).foldl
    (sha2Block 32 [6, 11, 25, 2, 13, 22] [7, 18, 3, 17, 19, 10] sha256K) h0
  h.flatMap (beBytes 4)

/-- SHA-384 of a byte string, as 48 bytes. -/
def sha384 (m : Bytes) : Bytes :=
  let h0 := [0xCBBB9D5DC1059ED8, 0x629A292A367CD507, 0x9159015A3070DD17, 0x152FECD8F70E5939, 0x67332667FFC00B31, 0x8EB44A8768581511, 0xDB0C2E0D64F98FA7, 0x47B5481DBEFA4FA4]
  let p := sha2Pad 128 16 m
  let h := (chunks 128 p.length p).foldl
    (sha2Block 64 [14, 18, 41, 28, 34, 39] [1, 8, 7, 19, 61, 6] sha512K) h0
  (h.take 6).flatMap (beBytes 8)

/-- One step of a CRC of width `w`, most significant bit first. -/
def crcStep (w poly c : Nat) : Nat → Nat
  | 0 => c
  | n + 1 =>
    let c' := if bitAt c (w - 1) then ((c <<< 1) % 2 ^ w) ^^^ poly else (c <<< 1) % 2 ^ w
    crcStep w poly c' n

/-- A CRC without reflection. -/
def crcPlain (w poly init : Nat) (m : Bytes) : Nat :=
  m.foldl (fun c b => crcStep w poly (c ^^^ (b.toNat <<< (w - 8))) 8) init

/-- One step of a reflected CRC. -/
def crcStepR (poly c : Nat) : Nat → Nat
  | 0 => c
  | n + 1 => crcStepR poly (if bitAt c 0 then (c >>> 1) ^^^ poly else c >>> 1) n

/-- A reflected CRC; `poly` is the reversed polynomial. -/
def crcReflected (poly init : Nat) (m : Bytes) : Nat :=
  m.foldl (fun c b => crcStepR poly (c ^^^ b.toNat) 8) init

/-- R423: CRC-64, polynomial 0x42F0_E1EB_A9EA_3693, initial value 0, no reflection, no final complement. -/
def crc64 (m : Bytes) : Nat := crcPlain 64 0x42F0E1EBA9EA3693 0 m

/-! ### ECDSA over P-384 (FIPS 186), for R31 -/

/-- The field prime of P-384. -/
def p384P : Nat := 2 ^ 384 - 2 ^ 128 - 2 ^ 96 + 2 ^ 32 - 1

/-- The coefficient b of P-384. -/
def p384B : Nat :=
  0xB3312FA7E23EE7E4988E056BE3F82D19181D9C6EFE8141120314088F5013875AC656398D8A2ED19D2A85C8EDD3EC2AEF

/-- The order of P-384's base point. -/
def p384N : Nat :=
  0xFFFFFFFFFFFFFFFFFFFFFFFFFFFFFFFFFFFFFFFFFFFFFFFFC7634D81F4372DDF581A0DB248B0A77AECEC196ACCC52973

/-- The base point's coordinates. -/
def p384G : Nat × Nat :=
  (0xAA87CA22BE8B05378EB1C71EF320AD746E1D3B628BA79B9859F741E082542A385502F25DBF55296C3A545E3872760AB7,
   0x3617DE4A96262C6F5D9E98BF9292DC29F8F41DBD289A147CE9DA3113B5F0B8C00A60B1CE1D7E819D7A431D7C90EA0E5F)

/-- `b^e mod m` by squaring, over the low `fuel` bits of `e`. -/
def powMod (m : Nat) : Nat → Nat → Nat → Nat → Nat
  | 0, _, _, acc => acc
  | fuel + 1, b, e, acc => powMod m fuel (b * b % m) (e / 2) (if e % 2 == 1 then acc * b % m else acc)

/-- The inverse modulo a prime. -/
def invMod (m x : Nat) : Nat := powMod m 384 (x % m) (m - 2) 1

/-- A point in Jacobian coordinates; `z = 0` is the point at infinity. -/
structure Jac where
  x : Nat
  y : Nat
  z : Nat

/-- Difference modulo the field prime. -/
def fsub (a b : Nat) : Nat := (a + p384P - b % p384P) % p384P

/-- Doubling on P-384 (a = −3). -/
def Jac.dbl (p : Jac) : Jac :=
  if p.z == 0 || p.y == 0 then ⟨1, 1, 0⟩ else
  let q := p384P
  let d := p.z * p.z % q
  let g := p.y * p.y % q
  let b := p.x * g % q
  let al := 3 * (fsub p.x d) * (p.x + d) % q
  let x := fsub (al * al) (8 * b)
  let z := fsub (fsub ((p.y + p.z) * (p.y + p.z)) g) d
  let y := fsub (al * fsub (4 * b) x) (8 * g * g)
  ⟨x, y, z⟩

/-- Addition on P-384. -/
def Jac.add (p r : Jac) : Jac :=
  if p.z == 0 then r else if r.z == 0 then p else
  let q := p384P
  let z1 := p.z * p.z % q
  let z2 := r.z * r.z % q
  let u1 := p.x * z2 % q
  let u2 := r.x * z1 % q
  let s1 := p.y * r.z * z2 % q
  let s2 := r.y * p.z * z1 % q
  if u1 == u2 then (if s1 == s2 then p.dbl else ⟨1, 1, 0⟩) else
  let h := fsub u2 u1
  let w := fsub s2 s1
  let h2 := h * h % q
  let h3 := h2 * h % q
  let v := u1 * h2 % q
  let x := fsub (fsub (w * w) h3) (2 * v)
  let y := fsub (w * fsub v x) (s1 * h3)
  ⟨x, y, h * p.z * r.z % q⟩

/-- A multiple of a point, over the low `fuel` bits of `k`. -/
def Jac.mul : Nat → Nat → Jac → Jac → Jac
  | 0, _, _, acc => acc
  | fuel + 1, k, p, acc => Jac.mul fuel (k / 2) p.dbl (if k % 2 == 1 then acc.add p else acc)

/-- ECDSA P-384 verification of a 48-byte digest, with the public key's coordinates and the signature (r, s) as
48-byte big-endian strings. -/
def ecdsaOk (digest px py r s : Bytes) : Bool :=
  let q := p384P
  let n := p384N
  let x := beNat px
  let y := beNat py
  let r := beNat r
  let s := beNat s
  if !(x < q && y < q) then false
  else if y * y % q != (x * x % q * x + (q - 3) * x + p384B) % q then false
  else if r == 0 || n ≤ r || s == 0 || n ≤ s then false else
  let w := invMod n s
  let u1 := beNat digest * w % n
  let u2 := r * w % n
  let p := (Jac.mul 384 u1 ⟨p384G.1, p384G.2, 1⟩ ⟨1, 1, 0⟩).add (Jac.mul 384 u2 ⟨x, y, 1⟩ ⟨1, 1, 0⟩)
  if p.z == 0 then false else
  let zi := invMod q p.z
  p.x * (zi * zi % q) % q % n == r

end Sys2Proof.Machine
end

