-- ==== Sys2Proof/Machine/RegNames.lean ====
section
/-! DEFINITION. The fields of every register of BAR0, by name (chapter 24's index; each chapter's register tables),
and the access kind and reset domain of every field. An instance is named by its number; a cell window by the id of the
physical cell it shows. -/
namespace Sys2Proof.Machine

/-- A field of a register: the register's BAR0 offset (a cell's by physical id), lowest bit and width. -/
structure RegField where
  off : Nat
  lo : Nat
  len : Nat
deriving DecidableEq, Repr

/-- GLB.IDENT.FAMILY, 00_scope.md. -/
def Reg.glbIdentFamily : RegField := ⟨0x0, 48, 16⟩
/-- GLB.IDENT.PART, 00_scope.md. -/
def Reg.glbIdentPart : RegField := ⟨0x0, 32, 16⟩
/-- GLB.IDENT.STEP_LETTER, 00_scope.md. -/
def Reg.glbIdentStepLetter : RegField := ⟨0x0, 28, 4⟩
/-- GLB.IDENT.STEP_NUM, 00_scope.md. -/
def Reg.glbIdentStepNum : RegField := ⟨0x0, 24, 4⟩
/-- GLB.IDENT.CHANNELS, 00_scope.md. -/
def Reg.glbIdentChannels : RegField := ⟨0x0, 20, 4⟩
/-- GLB.IDENT.CELLS_PER_CHANNEL, 00_scope.md. -/
def Reg.glbIdentCellsPerChannel : RegField := ⟨0x0, 12, 8⟩
/-- GLB.IDENT.SPARE_ROWS, 00_scope.md. -/
def Reg.glbIdentSpareRows : RegField := ⟨0x0, 8, 4⟩
/-- IMG.CTL.VERIFY_ONLY, 02_structure_image.md. -/
def Reg.imgCtlVerifyOnly : RegField := ⟨0x70000, 8, 1⟩
/-- IMG.CTL.SOURCE, 02_structure_image.md. -/
def Reg.imgCtlSource : RegField := ⟨0x70000, 2, 2⟩
/-- IMG.CTL.LOAD, 02_structure_image.md. -/
def Reg.imgCtlLoad : RegField := ⟨0x70000, 0, 1⟩
/-- IMG.SRC.SRC_ADDR, 02_structure_image.md. -/
def Reg.imgSrcSrcAddr : RegField := ⟨0x70008, 0, 52⟩
/-- IMG.SIZE.SIZE, 02_structure_image.md. -/
def Reg.imgSizeSize : RegField := ⟨0x70010, 0, 35⟩
/-- IMG.STATUS.LOAD_COUNT, 02_structure_image.md. -/
def Reg.imgStatusLoadCount : RegField := ⟨0x70018, 48, 16⟩
/-- IMG.STATUS.FAULT_DETAIL, 02_structure_image.md. -/
def Reg.imgStatusFaultDetail : RegField := ⟨0x70018, 32, 16⟩
/-- IMG.STATUS.LAST_CODE, 02_structure_image.md. -/
def Reg.imgStatusLastCode : RegField := ⟨0x70018, 16, 16⟩
/-- IMG.STATUS.SIG_REQUIRED, 02_structure_image.md. -/
def Reg.imgStatusSigRequired : RegField := ⟨0x70018, 13, 1⟩
/-- IMG.STATUS.SIGNED, 02_structure_image.md. -/
def Reg.imgStatusSigned : RegField := ⟨0x70018, 12, 1⟩
/-- IMG.STATUS.UNCONFIGURED, 02_structure_image.md. -/
def Reg.imgStatusUnconfigured : RegField := ⟨0x70018, 8, 4⟩
/-- IMG.STATUS.CONFIGURED, 02_structure_image.md. -/
def Reg.imgStatusConfigured : RegField := ⟨0x70018, 4, 4⟩
/-- IMG.STATUS.STATE, 02_structure_image.md. -/
def Reg.imgStatusState : RegField := ⟨0x70018, 0, 3⟩
/-- IMG.BIND_CTL.CLEAR_LANES, 02_structure_image.md. -/
def Reg.imgBindCtlClearLanes : RegField := ⟨0x70050, 2, 1⟩
/-- IMG.BIND_CTL.CLEAR_CELLS, 02_structure_image.md. -/
def Reg.imgBindCtlClearCells : RegField := ⟨0x70050, 1, 1⟩
/-- IMG.BIND_CTL.FREEZE, 02_structure_image.md. -/
def Reg.imgBindCtlFreeze : RegField := ⟨0x70050, 0, 1⟩
/-- IMG.PCTL.DRAIN_LIMIT, 02_structure_image.md. -/
def Reg.imgPctlDrainLimit : RegField := ⟨0x70058, 0, 32⟩
/-- IMG.FUSE.KEY_REVOKED, 02_structure_image.md. -/
def Reg.imgFuseKeyRevoked : RegField := ⟨0x70060, 5, 4⟩
/-- IMG.FUSE.KEY_VALID, 02_structure_image.md. -/
def Reg.imgFuseKeyValid : RegField := ⟨0x70060, 1, 4⟩
/-- IMG.FUSE.SIG_REQUIRED, 02_structure_image.md. -/
def Reg.imgFuseSigRequired : RegField := ⟨0x70060, 0, 1⟩
/-- CELL.CVT_STATUS.OVF_COUNT, 03_number_formats.md. -/
def Reg.cellCvtStatusOvfCount (n : Nat) : RegField := ⟨0x1000400 + n * 0x1000, 48, 16⟩
/-- CELL.CVT_STATUS.NAR_CODE_COUNT, 03_number_formats.md. -/
def Reg.cellCvtStatusNarCodeCount (n : Nat) : RegField := ⟨0x1000400 + n * 0x1000, 32, 16⟩
/-- CELL.CVT_STATUS.SPECIAL_IN_COUNT, 03_number_formats.md. -/
def Reg.cellCvtStatusSpecialInCount (n : Nat) : RegField := ⟨0x1000400 + n * 0x1000, 16, 16⟩
/-- CELL.CVT_STATUS.SPECIAL_IN, 03_number_formats.md. -/
def Reg.cellCvtStatusSpecialIn (n : Nat) : RegField := ⟨0x1000400 + n * 0x1000, 2, 1⟩
/-- CELL.CVT_STATUS.NAR_CODE, 03_number_formats.md. -/
def Reg.cellCvtStatusNarCode (n : Nat) : RegField := ⟨0x1000400 + n * 0x1000, 1, 1⟩
/-- CELL.CVT_STATUS.OVF, 03_number_formats.md. -/
def Reg.cellCvtStatusOvf (n : Nat) : RegField := ⟨0x1000400 + n * 0x1000, 0, 1⟩
/-- CELL.ACC_STATUS.QOVF, 04_quire_accumulation.md. -/
def Reg.cellAccStatusQovf (n : Nat) : RegField := ⟨0x1000408 + n * 0x1000, 48, 1⟩
/-- CELL.ACC_STATUS.QOVF_COUNT, 04_quire_accumulation.md. -/
def Reg.cellAccStatusQovfCount (n : Nat) : RegField := ⟨0x1000408 + n * 0x1000, 32, 16⟩
/-- CELL.ACC_STATUS.FOLD_COUNT, 04_quire_accumulation.md. -/
def Reg.cellAccStatusFoldCount (n : Nat) : RegField := ⟨0x1000408 + n * 0x1000, 0, 32⟩
/-- CELL.IDENT.CONFIGURED, 05_cell.md. -/
def Reg.cellIdentConfigured (n : Nat) : RegField := ⟨0x1000000 + n * 0x1000, 33, 1⟩
/-- CELL.IDENT.REMAPPED, 05_cell.md. -/
def Reg.cellIdentRemapped (n : Nat) : RegField := ⟨0x1000000 + n * 0x1000, 32, 1⟩
/-- CELL.IDENT.PHYSICAL_ID, 05_cell.md. -/
def Reg.cellIdentPhysicalId (n : Nat) : RegField := ⟨0x1000000 + n * 0x1000, 16, 10⟩
/-- CELL.IDENT.LOGICAL_ID, 05_cell.md. -/
def Reg.cellIdentLogicalId (n : Nat) : RegField := ⟨0x1000000 + n * 0x1000, 0, 10⟩
/-- CELL.LM_STATUS.REPLICA_WRITE_COUNT, 05_cell.md. -/
def Reg.cellLmStatusReplicaWriteCount (n : Nat) : RegField := ⟨0x1000410 + n * 0x1000, 48, 16⟩
/-- CELL.LM_STATUS.REMOTE_REFUSED_COUNT, 05_cell.md. -/
def Reg.cellLmStatusRemoteRefusedCount (n : Nat) : RegField := ⟨0x1000410 + n * 0x1000, 32, 16⟩
/-- CELL.LM_STATUS.EXTRA_PASSES, 05_cell.md. -/
def Reg.cellLmStatusExtraPasses (n : Nat) : RegField := ⟨0x1000410 + n * 0x1000, 0, 32⟩
/-- CELL.SB_STATUS.HIGH_WATER, 05_cell.md. -/
def Reg.cellSbStatusHighWater (n : Nat) : RegField := ⟨0x1000418 + n * 0x1000, 16, 9⟩
/-- CELL.SB_STATUS.IN_FLIGHT, 05_cell.md. -/
def Reg.cellSbStatusInFlight (n : Nat) : RegField := ⟨0x1000418 + n * 0x1000, 0, 9⟩
/-- CELL.SWARM_STATUS.FREE_BLOCKS, 06_execution.md. -/
def Reg.cellSwarmStatusFreeBlocks (n : Nat) : RegField := ⟨0x1000420 + n * 0x1000, 32, 7⟩
/-- CELL.SWARM_STATUS.STATE, 06_execution.md. -/
def Reg.cellSwarmStatusState (n : Nat) : RegField := ⟨0x1000420 + n * 0x1000, 0, 32⟩
/-- CELL.PARK_CTL.SINGLE_ISSUE, 06_execution.md. -/
def Reg.cellParkCtlSingleIssue (n : Nat) : RegField := ⟨0x1000428 + n * 0x1000, 1, 1⟩
/-- CELL.PARK_CTL.HANDLER, 06_execution.md. -/
def Reg.cellParkCtlHandler (n : Nat) : RegField := ⟨0x1000428 + n * 0x1000, 0, 1⟩
/-- CELL.PARK_STATUS.CMD_IGNORED, 06_execution.md. -/
def Reg.cellParkStatusCmdIgnored (n : Nat) : RegField := ⟨0x1000430 + n * 0x1000, 49, 1⟩
/-- CELL.PARK_STATUS.SUPERVISOR_PARKED, 06_execution.md. -/
def Reg.cellParkStatusSupervisorParked (n : Nat) : RegField := ⟨0x1000430 + n * 0x1000, 48, 1⟩
/-- CELL.PARK_STATUS.PARK_COUNT, 06_execution.md. -/
def Reg.cellParkStatusParkCount (n : Nat) : RegField := ⟨0x1000430 + n * 0x1000, 32, 16⟩
/-- CELL.PARK_STATUS.DRAIN_FAULT_COUNT, 06_execution.md. -/
def Reg.cellParkStatusDrainFaultCount (n : Nat) : RegField := ⟨0x1000430 + n * 0x1000, 16, 16⟩
/-- CELL.PARK_STATUS.PARKED, 06_execution.md. -/
def Reg.cellParkStatusParked (n : Nat) : RegField := ⟨0x1000430 + n * 0x1000, 0, 16⟩
/-- CELL.PARK_CMD.ACTION, 06_execution.md. -/
def Reg.cellParkCmdAction (n : Nat) : RegField := ⟨0x1000438 + n * 0x1000, 8, 2⟩
/-- CELL.PARK_CMD.SLOT, 06_execution.md. -/
def Reg.cellParkCmdSlot (n : Nat) : RegField := ⟨0x1000438 + n * 0x1000, 0, 4⟩
/-- CELL.ISA.ISA_VERSION, 07_instruction_set.md. -/
def Reg.cellIsaIsaVersion (n : Nat) : RegField := ⟨0x1000440 + n * 0x1000, 16, 16⟩
/-- CELL.ISA.MODE_FORMAT, 07_instruction_set.md. -/
def Reg.cellIsaModeFormat (n : Nat) : RegField := ⟨0x1000440 + n * 0x1000, 8, 8⟩
/-- CELL.MX_STATUS.QUEUED, 08_matrix_unit.md. -/
def Reg.cellMxStatusQueued (n : Nat) : RegField := ⟨0x1000448 + n * 0x1000, 40, 9⟩
/-- CELL.MX_STATUS.LIVE_TILES, 08_matrix_unit.md. -/
def Reg.cellMxStatusLiveTiles (n : Nat) : RegField := ⟨0x1000448 + n * 0x1000, 32, 8⟩
/-- CELL.MX_STATUS.OPS_DONE, 08_matrix_unit.md. -/
def Reg.cellMxStatusOpsDone (n : Nat) : RegField := ⟨0x1000448 + n * 0x1000, 0, 32⟩
/-- CELL.AG_STATUS.QUEUED, 09_windows.md. -/
def Reg.cellAgStatusQueued (n : Nat) : RegField := ⟨0x1000450 + n * 0x1000, 40, 9⟩
/-- CELL.AG_STATUS.XFERS_DONE, 09_windows.md. -/
def Reg.cellAgStatusXfersDone (n : Nat) : RegField := ⟨0x1000450 + n * 0x1000, 0, 32⟩
/-- CELL.SFU_STATUS.FN_SAT_COUNT, 10_functions_norm.md. -/
def Reg.cellSfuStatusFnSatCount (n : Nat) : RegField := ⟨0x1000458 + n * 0x1000, 48, 16⟩
/-- CELL.SFU_STATUS.SM_SAT_COUNT, 10_functions_norm.md. -/
def Reg.cellSfuStatusSmSatCount (n : Nat) : RegField := ⟨0x1000458 + n * 0x1000, 32, 16⟩
/-- CELL.SFU_STATUS.SM_SAT, 10_functions_norm.md. -/
def Reg.cellSfuStatusSmSat (n : Nat) : RegField := ⟨0x1000458 + n * 0x1000, 1, 1⟩
/-- CELL.SFU_STATUS.FN_SAT, 10_functions_norm.md. -/
def Reg.cellSfuStatusFnSat (n : Nat) : RegField := ⟨0x1000458 + n * 0x1000, 0, 1⟩
/-- CELL.FTAB_CTL.DONE_COUNT, 10_functions_norm.md. -/
def Reg.cellFtabCtlDoneCount (n : Nat) : RegField := ⟨0x1000460 + n * 0x1000, 48, 16⟩
/-- CELL.FTAB_CTL.ERR, 10_functions_norm.md. -/
def Reg.cellFtabCtlErr (n : Nat) : RegField := ⟨0x1000460 + n * 0x1000, 34, 1⟩
/-- CELL.FTAB_CTL.BUSY, 10_functions_norm.md. -/
def Reg.cellFtabCtlBusy (n : Nat) : RegField := ⟨0x1000460 + n * 0x1000, 33, 1⟩
/-- CELL.FTAB_CTL.GO, 10_functions_norm.md. -/
def Reg.cellFtabCtlGo (n : Nat) : RegField := ⟨0x1000460 + n * 0x1000, 32, 1⟩
/-- CELL.FTAB_CTL.OP, 10_functions_norm.md. -/
def Reg.cellFtabCtlOp (n : Nat) : RegField := ⟨0x1000460 + n * 0x1000, 24, 2⟩
/-- CELL.FTAB_CTL.SLOT, 10_functions_norm.md. -/
def Reg.cellFtabCtlSlot (n : Nat) : RegField := ⟨0x1000460 + n * 0x1000, 16, 4⟩
/-- CELL.FTAB_CTL.ROW, 10_functions_norm.md. -/
def Reg.cellFtabCtlRow (n : Nat) : RegField := ⟨0x1000460 + n * 0x1000, 0, 13⟩
/-- CELL.FTAB_VALID.ROM_VERSION, 10_functions_norm.md. -/
def Reg.cellFtabValidRomVersion (n : Nat) : RegField := ⟨0x10004A8 + n * 0x1000, 16, 16⟩
/-- CELL.FTAB_VALID.VALID, 10_functions_norm.md. -/
def Reg.cellFtabValidValid (n : Nat) : RegField := ⟨0x10004A8 + n * 0x1000, 0, 16⟩
/-- CELL.SCALE_CTL.DONE_COUNT, 11_quantisation.md. -/
def Reg.cellScaleCtlDoneCount (n : Nat) : RegField := ⟨0x10004B0 + n * 0x1000, 48, 16⟩
/-- CELL.SCALE_CTL.ERR, 11_quantisation.md. -/
def Reg.cellScaleCtlErr (n : Nat) : RegField := ⟨0x10004B0 + n * 0x1000, 34, 1⟩
/-- CELL.SCALE_CTL.BUSY, 11_quantisation.md. -/
def Reg.cellScaleCtlBusy (n : Nat) : RegField := ⟨0x10004B0 + n * 0x1000, 33, 1⟩
/-- CELL.SCALE_CTL.GO, 11_quantisation.md. -/
def Reg.cellScaleCtlGo (n : Nat) : RegField := ⟨0x10004B0 + n * 0x1000, 32, 1⟩
/-- CELL.SCALE_CTL.OP, 11_quantisation.md. -/
def Reg.cellScaleCtlOp (n : Nat) : RegField := ⟨0x10004B0 + n * 0x1000, 24, 2⟩
/-- CELL.SCALE_CTL.INDEX, 11_quantisation.md. -/
def Reg.cellScaleCtlIndex (n : Nat) : RegField := ⟨0x10004B0 + n * 0x1000, 0, 10⟩
/-- CELL.SCALE_DATA.ENTRY, 11_quantisation.md. -/
def Reg.cellScaleDataEntry (n : Nat) : RegField := ⟨0x10004B8 + n * 0x1000, 0, 64⟩
/-- CELL.SCALE_COUNT.RAISED, 11_quantisation.md. -/
def Reg.cellScaleCountRaised (n : Nat) : RegField := ⟨0x10004C0 + n * 0x1000, 16, 1⟩
/-- CELL.SCALE_COUNT.COUNT, 11_quantisation.md. -/
def Reg.cellScaleCountCount (n : Nat) : RegField := ⟨0x10004C0 + n * 0x1000, 0, 16⟩
/-- CELL.QSAT_CTL.CLEAR_AT_LAUNCH, 11_quantisation.md. -/
def Reg.cellQsatCtlClearAtLaunch (n : Nat) : RegField := ⟨0x10004C8 + n * 0x1000, 16, 1⟩
/-- CELL.QSAT_CTL.THRESHOLD, 11_quantisation.md. -/
def Reg.cellQsatCtlThreshold (n : Nat) : RegField := ⟨0x10004C8 + n * 0x1000, 0, 16⟩
/-- CELL.QSAT_STATUS.QSAT_COUNT, 11_quantisation.md. -/
def Reg.cellQsatStatusQsatCount (n : Nat) : RegField := ⟨0x10004D0 + n * 0x1000, 48, 16⟩
/-- CELL.QSAT_STATUS.OTHER_CLIP_COUNT, 11_quantisation.md. -/
def Reg.cellQsatStatusOtherClipCount (n : Nat) : RegField := ⟨0x10004D0 + n * 0x1000, 32, 16⟩
/-- CELL.QSAT_STATUS.LAST_SOURCE, 11_quantisation.md. -/
def Reg.cellQsatStatusLastSource (n : Nat) : RegField := ⟨0x10004D0 + n * 0x1000, 16, 11⟩
/-- CELL.QSAT_STATUS.OTHER_RAISED, 11_quantisation.md. -/
def Reg.cellQsatStatusOtherRaised (n : Nat) : RegField := ⟨0x10004D0 + n * 0x1000, 1, 1⟩
/-- CELL.QSAT_STATUS.QSAT, 11_quantisation.md. -/
def Reg.cellQsatStatusQsat (n : Nat) : RegField := ⟨0x10004D0 + n * 0x1000, 0, 1⟩
/-- GOV.PROFILE.LOCK, 12_islands_governor.md. -/
def Reg.govProfileLock : RegField := ⟨0x10000, 8, 1⟩
/-- GOV.PROFILE.APPLIED, 12_islands_governor.md. -/
def Reg.govProfileApplied : RegField := ⟨0x10000, 4, 4⟩
/-- GOV.PROFILE.PROFILE, 12_islands_governor.md. -/
def Reg.govProfileProfile : RegField := ⟨0x10000, 0, 2⟩
/-- GOV.STATUS.STALL_FROM, 12_islands_governor.md. -/
def Reg.govStatusStallFrom : RegField := ⟨0x10008, 53, 11⟩
/-- GOV.STATUS.STALL_TO, 12_islands_governor.md. -/
def Reg.govStatusStallTo : RegField := ⟨0x10008, 42, 11⟩
/-- GOV.STATUS.EVENTS, 12_islands_governor.md. -/
def Reg.govStatusEvents : RegField := ⟨0x10008, 0, 11⟩
/-- GOV.LIMITS.STALL_LIMIT, 12_islands_governor.md. -/
def Reg.govLimitsStallLimit : RegField := ⟨0x10010, 32, 20⟩
/-- GOV.LIMITS.HBM_SOFT, 12_islands_governor.md. -/
def Reg.govLimitsHbmSoft : RegField := ⟨0x10010, 8, 8⟩
/-- GOV.LIMITS.TJ_SOFT, 12_islands_governor.md. -/
def Reg.govLimitsTjSoft : RegField := ⟨0x10010, 0, 8⟩
/-- GOV.ISLE_CTL.WRITE, 12_islands_governor.md. -/
def Reg.govIsleCtlWrite : RegField := ⟨0x10018, 63, 1⟩
/-- GOV.ISLE_CTL.ISLAND, 12_islands_governor.md. -/
def Reg.govIsleCtlIsland : RegField := ⟨0x10018, 48, 11⟩
/-- GOV.ISLE_CTL.CEIL, 12_islands_governor.md. -/
def Reg.govIsleCtlCeil : RegField := ⟨0x10018, 16, 16⟩
/-- GOV.ISLE_CTL.FLOOR, 12_islands_governor.md. -/
def Reg.govIsleCtlFloor : RegField := ⟨0x10018, 0, 16⟩
/-- GOV.ISLE_STATE.FREQ, 12_islands_governor.md. -/
def Reg.govIsleStateFreq : RegField := ⟨0x10020, 48, 16⟩
/-- GOV.ISLE_STATE.VOLT, 12_islands_governor.md. -/
def Reg.govIsleStateVolt : RegField := ⟨0x10020, 38, 10⟩
/-- GOV.ISLE_STATE.TEMP, 12_islands_governor.md. -/
def Reg.govIsleStateTemp : RegField := ⟨0x10020, 26, 12⟩
/-- GOV.ISLE_STATE.BREACHES, 12_islands_governor.md. -/
def Reg.govIsleStateBreaches : RegField := ⟨0x10020, 10, 16⟩
/-- GOV.ISLE_STATE.DROOPS, 12_islands_governor.md. -/
def Reg.govIsleStateDroops : RegField := ⟨0x10020, 0, 10⟩
/-- GOV.POWER.LIMIT, 12_islands_governor.md. -/
def Reg.govPowerLimit : RegField := ⟨0x10028, 32, 10⟩
/-- GOV.POWER.AVG_1MS, 12_islands_governor.md. -/
def Reg.govPowerAvg1ms : RegField := ⟨0x10028, 0, 10⟩
/-- CELL.MSG_STATUS.SENT_REFUSED, 13_mesh.md. -/
def Reg.cellMsgStatusSentRefused (n : Nat) : RegField := ⟨0x10004D8 + n * 0x1000, 48, 16⟩
/-- CELL.MSG_STATUS.RX_REFUSED, 13_mesh.md. -/
def Reg.cellMsgStatusRxRefused (n : Nat) : RegField := ⟨0x10004D8 + n * 0x1000, 32, 16⟩
/-- CELL.MSG_STATUS.RX_HIGH_WATER, 13_mesh.md. -/
def Reg.cellMsgStatusRxHighWater (n : Nat) : RegField := ⟨0x10004D8 + n * 0x1000, 16, 7⟩
/-- CELL.MSG_STATUS.RX_USED, 13_mesh.md. -/
def Reg.cellMsgStatusRxUsed (n : Nat) : RegField := ⟨0x10004D8 + n * 0x1000, 0, 7⟩
/-- CELL.MESH_STATUS.CORRECTED, 13_mesh.md. -/
def Reg.cellMeshStatusCorrected (n : Nat) : RegField := ⟨0x10004E0 + n * 0x1000, 48, 16⟩
/-- CELL.MESH_STATUS.UCE, 13_mesh.md. -/
def Reg.cellMeshStatusUce (n : Nat) : RegField := ⟨0x10004E0 + n * 0x1000, 32, 16⟩
/-- DISP.BRIDGE_STATUS.DISCARD_UP, 13_mesh.md. -/
def Reg.dispBridgeStatusDiscardUp (n : Nat) : RegField := ⟨0x50F000 + n * 0x10000, 48, 16⟩
/-- DISP.BRIDGE_STATUS.DISCARD_DOWN, 13_mesh.md. -/
def Reg.dispBridgeStatusDiscardDown (n : Nat) : RegField := ⟨0x50F000 + n * 0x10000, 32, 16⟩
/-- DISP.BRIDGE_STATUS.OPEN_DOWN, 13_mesh.md. -/
def Reg.dispBridgeStatusOpenDown (n : Nat) : RegField := ⟨0x50F000 + n * 0x10000, 1, 1⟩
/-- DISP.BRIDGE_STATUS.OPEN_UP, 13_mesh.md. -/
def Reg.dispBridgeStatusOpenUp (n : Nat) : RegField := ⟨0x50F000 + n * 0x10000, 0, 1⟩
/-- MEM.STATUS.CORRECTED, 14_memory.md. -/
def Reg.memStatusCorrected (n : Nat) : RegField := ⟨0x400000 + n * 0x10000, 48, 16⟩
/-- MEM.STATUS.UCE, 14_memory.md. -/
def Reg.memStatusUce (n : Nat) : RegField := ⟨0x400000 + n * 0x10000, 32, 16⟩
/-- MEM.STATUS.ZEROED, 14_memory.md. -/
def Reg.memStatusZeroed (n : Nat) : RegField := ⟨0x400000 + n * 0x10000, 1, 1⟩
/-- MEM.STATUS.PRESENT, 14_memory.md. -/
def Reg.memStatusPresent (n : Nat) : RegField := ⟨0x400000 + n * 0x10000, 0, 1⟩
/-- MEM.SCRUB_CTL.PASSES, 14_memory.md. -/
def Reg.memScrubCtlPasses (n : Nat) : RegField := ⟨0x400008 + n * 0x10000, 16, 8⟩
/-- MEM.SCRUB_CTL.PIN, 14_memory.md. -/
def Reg.memScrubCtlPin (n : Nat) : RegField := ⟨0x400008 + n * 0x10000, 11, 1⟩
/-- MEM.SCRUB_CTL.PIN_LEVEL, 14_memory.md. -/
def Reg.memScrubCtlPinLevel (n : Nat) : RegField := ⟨0x400008 + n * 0x10000, 8, 3⟩
/-- MEM.SCRUB_CTL.LEVEL, 14_memory.md. -/
def Reg.memScrubCtlLevel (n : Nat) : RegField := ⟨0x400008 + n * 0x10000, 0, 3⟩
/-- MEM.ERR_ADDR.VALID, 14_memory.md. -/
def Reg.memErrAddrValid (n : Nat) : RegField := ⟨0x400010 + n * 0x10000, 63, 1⟩
/-- MEM.ERR_ADDR.SCRUB, 14_memory.md. -/
def Reg.memErrAddrScrub (n : Nat) : RegField := ⟨0x400010 + n * 0x10000, 62, 1⟩
/-- MEM.ERR_ADDR.ADDR, 14_memory.md. -/
def Reg.memErrAddrAddr (n : Nat) : RegField := ⟨0x400010 + n * 0x10000, 0, 52⟩
/-- DISP.REGION_ROOT.WALK_EN, 14_memory.md. -/
def Reg.dispRegionRootWalkEn (n : Nat) : RegField := ⟨0x50F008 + n * 0x10000, 52, 1⟩
/-- DISP.REGION_ROOT.ROOT, 14_memory.md. -/
def Reg.dispRegionRootRoot (n : Nat) : RegField := ⟨0x50F008 + n * 0x10000, 0, 52⟩
/-- DISP.REGION_SYNC_ADDR.DESC, 14_memory.md. -/
def Reg.dispRegionSyncAddrDesc (n : Nat) : RegField := ⟨0x50F010 + n * 0x10000, 0, 52⟩
/-- DISP.REGION_CMD.SYNC_FAULTS, 14_memory.md. -/
def Reg.dispRegionCmdSyncFaults (n : Nat) : RegField := ⟨0x50F018 + n * 0x10000, 48, 16⟩
/-- DISP.REGION_CMD.DONE, 14_memory.md. -/
def Reg.dispRegionCmdDone (n : Nat) : RegField := ⟨0x50F018 + n * 0x10000, 3, 1⟩
/-- DISP.REGION_CMD.BUSY, 14_memory.md. -/
def Reg.dispRegionCmdBusy (n : Nat) : RegField := ⟨0x50F018 + n * 0x10000, 2, 1⟩
/-- DISP.REGION_CMD.MODE, 14_memory.md. -/
def Reg.dispRegionCmdMode (n : Nat) : RegField := ⟨0x50F018 + n * 0x10000, 1, 1⟩
/-- DISP.REGION_CMD.GO, 14_memory.md. -/
def Reg.dispRegionCmdGo (n : Nat) : RegField := ⟨0x50F018 + n * 0x10000, 0, 1⟩
/-- CELL.LM_ECC.CORRECTED, 14_memory.md. -/
def Reg.cellLmEccCorrected (n : Nat) : RegField := ⟨0x10004E8 + n * 0x1000, 48, 16⟩
/-- CELL.LM_ECC.UCE, 14_memory.md. -/
def Reg.cellLmEccUce (n : Nat) : RegField := ⟨0x10004E8 + n * 0x1000, 32, 16⟩
/-- CELL.LM_ECC.PIN, 14_memory.md. -/
def Reg.cellLmEccPin (n : Nat) : RegField := ⟨0x10004E8 + n * 0x1000, 11, 1⟩
/-- CELL.LM_ECC.PIN_LEVEL, 14_memory.md. -/
def Reg.cellLmEccPinLevel (n : Nat) : RegField := ⟨0x10004E8 + n * 0x1000, 8, 3⟩
/-- CELL.LM_ECC.LEVEL, 14_memory.md. -/
def Reg.cellLmEccLevel (n : Nat) : RegField := ⟨0x10004E8 + n * 0x1000, 0, 3⟩
/-- CELL.REGION_STATUS.STORES_REFUSED, 14_memory.md. -/
def Reg.cellRegionStatusStoresRefused (n : Nat) : RegField := ⟨0x10004F0 + n * 0x1000, 48, 16⟩
/-- CELL.REGION_STATUS.REGS_USED, 14_memory.md. -/
def Reg.cellRegionStatusRegsUsed (n : Nat) : RegField := ⟨0x10004F0 + n * 0x1000, 32, 7⟩
/-- CELL.REGION_STATUS.WALKS, 14_memory.md. -/
def Reg.cellRegionStatusWalks (n : Nat) : RegField := ⟨0x10004F0 + n * 0x1000, 0, 32⟩
/-- ING.CTL.RESYNC_BUSY, 15_frontend_ingest.md. -/
def Reg.ingCtlResyncBusy (n : Nat) : RegField := ⟨0x200000 + n * 0x10000, 1, 1⟩
/-- ING.CTL.RESYNC, 15_frontend_ingest.md. -/
def Reg.ingCtlResync (n : Nat) : RegField := ⟨0x200000 + n * 0x10000, 0, 1⟩
/-- ING.STATUS.STAGING_HIGH, 15_frontend_ingest.md. -/
def Reg.ingStatusStagingHigh (n : Nat) : RegField := ⟨0x200008 + n * 0x10000, 48, 16⟩
/-- ING.STATUS.HELD, 15_frontend_ingest.md. -/
def Reg.ingStatusHeld (n : Nat) : RegField := ⟨0x200008 + n * 0x10000, 32, 7⟩
/-- ING.STATUS.SLOTS_BUSY, 15_frontend_ingest.md. -/
def Reg.ingStatusSlotsBusy (n : Nat) : RegField := ⟨0x200008 + n * 0x10000, 24, 8⟩
/-- ING.STATUS.LANES_UP, 15_frontend_ingest.md. -/
def Reg.ingStatusLanesUp (n : Nat) : RegField := ⟨0x200008 + n * 0x10000, 0, 16⟩
/-- ING.COUNT_A.FRAMES, 15_frontend_ingest.md. -/
def Reg.ingCountAFrames (n : Nat) : RegField := ⟨0x200010 + n * 0x10000, 32, 32⟩
/-- ING.COUNT_A.ACCEPTED, 15_frontend_ingest.md. -/
def Reg.ingCountAAccepted (n : Nat) : RegField := ⟨0x200010 + n * 0x10000, 0, 32⟩
/-- ING.COUNT_B.DUPLICATE, 15_frontend_ingest.md. -/
def Reg.ingCountBDuplicate (n : Nat) : RegField := ⟨0x200018 + n * 0x10000, 48, 16⟩
/-- ING.COUNT_B.LATE_FRAG, 15_frontend_ingest.md. -/
def Reg.ingCountBLateFrag (n : Nat) : RegField := ⟨0x200018 + n * 0x10000, 32, 16⟩
/-- ING.COUNT_B.BAD_COPY, 15_frontend_ingest.md. -/
def Reg.ingCountBBadCopy (n : Nat) : RegField := ⟨0x200018 + n * 0x10000, 16, 16⟩
/-- ING.COUNT_B.UNKNOWN, 15_frontend_ingest.md. -/
def Reg.ingCountBUnknown (n : Nat) : RegField := ⟨0x200018 + n * 0x10000, 0, 16⟩
/-- ING.COUNT_C.FLAGGED, 15_frontend_ingest.md. -/
def Reg.ingCountCFlagged (n : Nat) : RegField := ⟨0x200020 + n * 0x10000, 48, 16⟩
/-- ING.COUNT_C.OVERFLOW, 15_frontend_ingest.md. -/
def Reg.ingCountCOverflow (n : Nat) : RegField := ⟨0x200020 + n * 0x10000, 32, 16⟩
/-- ING.COUNT_C.EVENT_LOST, 15_frontend_ingest.md. -/
def Reg.ingCountCEventLost (n : Nat) : RegField := ⟨0x200020 + n * 0x10000, 16, 16⟩
/-- ING.COUNT_C.DRAIN_DROP, 15_frontend_ingest.md. -/
def Reg.ingCountCDrainDrop (n : Nat) : RegField := ⟨0x200020 + n * 0x10000, 0, 16⟩
/-- ING.MARK.VALID, 15_frontend_ingest.md. -/
def Reg.ingMarkValid (n : Nat) : RegField := ⟨0x200028 + n * 0x10000, 48, 1⟩
/-- ING.MARK.MARK, 15_frontend_ingest.md. -/
def Reg.ingMarkMark (n : Nat) : RegField := ⟨0x200028 + n * 0x10000, 0, 48⟩
/-- ING.EVENTS.EVENTS, 15_frontend_ingest.md. -/
def Reg.ingEventsEvents (n : Nat) : RegField := ⟨0x200030 + n * 0x10000, 0, 13⟩
/-- CAM.CTL.RESYNC_BUSY, 16_camera.md. -/
def Reg.camCtlResyncBusy (n : Nat) : RegField := ⟨0x300000 + n * 0x10000, 1, 1⟩
/-- CAM.CTL.RESYNC, 16_camera.md. -/
def Reg.camCtlResync (n : Nat) : RegField := ⟨0x300000 + n * 0x10000, 0, 1⟩
/-- CAM.STATUS.FRAME, 16_camera.md. -/
def Reg.camStatusFrame (n : Nat) : RegField := ⟨0x300008 + n * 0x10000, 32, 32⟩
/-- CAM.STATUS.SLOTS_BUSY, 16_camera.md. -/
def Reg.camStatusSlotsBusy (n : Nat) : RegField := ⟨0x300008 + n * 0x10000, 24, 8⟩
/-- CAM.STATUS.OPEN_GROUPS, 16_camera.md. -/
def Reg.camStatusOpenGroups (n : Nat) : RegField := ⟨0x300008 + n * 0x10000, 21, 3⟩
/-- CAM.STATUS.SETTINGS_KNOWN, 16_camera.md. -/
def Reg.camStatusSettingsKnown (n : Nat) : RegField := ⟨0x300008 + n * 0x10000, 20, 1⟩
/-- CAM.STATUS.RAW_BUSY, 16_camera.md. -/
def Reg.camStatusRawBusy (n : Nat) : RegField := ⟨0x300008 + n * 0x10000, 0, 16⟩
/-- CAM.SEQ.CONSUMER, 16_camera.md. -/
def Reg.camSeqConsumer (n : Nat) : RegField := ⟨0x300010 + n * 0x10000, 32, 32⟩
/-- CAM.SEQ.NACK_COUNT, 16_camera.md. -/
def Reg.camSeqNackCount (n : Nat) : RegField := ⟨0x300010 + n * 0x10000, 16, 16⟩
/-- CAM.SEQ.RAW_BUSY_HI, 16_camera.md. -/
def Reg.camSeqRawBusyHi (n : Nat) : RegField := ⟨0x300010 + n * 0x10000, 0, 16⟩
/-- CAM.COUNT_A.HANDED, 16_camera.md. -/
def Reg.camCountAHanded (n : Nat) : RegField := ⟨0x300018 + n * 0x10000, 32, 32⟩
/-- CAM.COUNT_A.FLAGGED, 16_camera.md. -/
def Reg.camCountAFlagged (n : Nat) : RegField := ⟨0x300018 + n * 0x10000, 16, 16⟩
/-- CAM.COUNT_A.LOST, 16_camera.md. -/
def Reg.camCountALost (n : Nat) : RegField := ⟨0x300018 + n * 0x10000, 0, 16⟩
/-- CAM.COUNT_B.CLIP, 16_camera.md. -/
def Reg.camCountBClip (n : Nat) : RegField := ⟨0x300020 + n * 0x10000, 48, 16⟩
/-- CAM.COUNT_B.CVT_EVENTS, 16_camera.md. -/
def Reg.camCountBCvtEvents (n : Nat) : RegField := ⟨0x300020 + n * 0x10000, 32, 16⟩
/-- CAM.COUNT_B.UNSUPPORTED, 16_camera.md. -/
def Reg.camCountBUnsupported (n : Nat) : RegField := ⟨0x300020 + n * 0x10000, 16, 16⟩
/-- CAM.COUNT_B.CRC_LINES, 16_camera.md. -/
def Reg.camCountBCrcLines (n : Nat) : RegField := ⟨0x300020 + n * 0x10000, 0, 16⟩
/-- CAM.EVENTS.EVENTS, 16_camera.md. -/
def Reg.camEventsEvents (n : Nat) : RegField := ⟨0x300028 + n * 0x10000, 0, 16⟩
/-- WGL.CTL.RETIRE_EN, 17_waggle.md. -/
def Reg.wglCtlRetireEn (n : Nat) : RegField := ⟨0x100000 + n * 0x10000, 2, 1⟩
/-- WGL.CTL.EQ_FREEZE, 17_waggle.md. -/
def Reg.wglCtlEqFreeze (n : Nat) : RegField := ⟨0x100000 + n * 0x10000, 1, 1⟩
/-- WGL.CTL.RETRAIN, 17_waggle.md. -/
def Reg.wglCtlRetrain (n : Nat) : RegField := ⟨0x100000 + n * 0x10000, 0, 1⟩
/-- WGL.STATUS.LINK_UPS, 17_waggle.md. -/
def Reg.wglStatusLinkUps (n : Nat) : RegField := ⟨0x100008 + n * 0x10000, 32, 16⟩
/-- WGL.STATUS.INIT_FIELD, 17_waggle.md. -/
def Reg.wglStatusInitField (n : Nat) : RegField := ⟨0x100008 + n * 0x10000, 24, 8⟩
/-- WGL.STATUS.PEER_DEV, 17_waggle.md. -/
def Reg.wglStatusPeerDev (n : Nat) : RegField := ⟨0x100008 + n * 0x10000, 16, 8⟩
/-- WGL.STATUS.PAIR, 17_waggle.md. -/
def Reg.wglStatusPair (n : Nat) : RegField := ⟨0x100008 + n * 0x10000, 13, 1⟩
/-- WGL.STATUS.MODE, 17_waggle.md. -/
def Reg.wglStatusMode (n : Nat) : RegField := ⟨0x100008 + n * 0x10000, 12, 1⟩
/-- WGL.STATUS.RETIRED, 17_waggle.md. -/
def Reg.wglStatusRetired (n : Nat) : RegField := ⟨0x100008 + n * 0x10000, 8, 4⟩
/-- WGL.STATUS.ACTIVE, 17_waggle.md. -/
def Reg.wglStatusActive (n : Nat) : RegField := ⟨0x100008 + n * 0x10000, 4, 4⟩
/-- WGL.STATUS.STATE, 17_waggle.md. -/
def Reg.wglStatusState (n : Nat) : RegField := ⟨0x100008 + n * 0x10000, 0, 4⟩
/-- WGL.COUNT_A.REPLAYS, 17_waggle.md. -/
def Reg.wglCountAReplays (n : Nat) : RegField := ⟨0x100030 + n * 0x10000, 48, 16⟩
/-- WGL.COUNT_A.CRC_FAIL, 17_waggle.md. -/
def Reg.wglCountACrcFail (n : Nat) : RegField := ⟨0x100030 + n * 0x10000, 32, 16⟩
/-- WGL.COUNT_A.FEC_CORR, 17_waggle.md. -/
def Reg.wglCountAFecCorr (n : Nat) : RegField := ⟨0x100030 + n * 0x10000, 16, 16⟩
/-- WGL.COUNT_A.FEC_UNCORR, 17_waggle.md. -/
def Reg.wglCountAFecUncorr (n : Nat) : RegField := ⟨0x100030 + n * 0x10000, 0, 16⟩
/-- WGL.COUNT_B.DUPLICATE, 17_waggle.md. -/
def Reg.wglCountBDuplicate (n : Nat) : RegField := ⟨0x100038 + n * 0x10000, 48, 16⟩
/-- WGL.COUNT_B.STALE, 17_waggle.md. -/
def Reg.wglCountBStale (n : Nat) : RegField := ⟨0x100038 + n * 0x10000, 32, 16⟩
/-- WGL.COUNT_B.LOST, 17_waggle.md. -/
def Reg.wglCountBLost (n : Nat) : RegField := ⟨0x100038 + n * 0x10000, 16, 16⟩
/-- WGL.COUNT_B.REFUSED, 17_waggle.md. -/
def Reg.wglCountBRefused (n : Nat) : RegField := ⟨0x100038 + n * 0x10000, 0, 16⟩
/-- WGL.EVENTS.EVENTS, 17_waggle.md. -/
def Reg.wglEventsEvents (n : Nat) : RegField := ⟨0x100040 + n * 0x10000, 0, 20⟩
/-- DISP.CHAIN_STATUS.INCOMPLETE, 17_waggle.md. -/
def Reg.dispChainStatusIncomplete (n : Nat) : RegField := ⟨0x50F020 + n * 0x10000, 48, 16⟩
/-- DISP.CHAIN_STATUS.LATE, 17_waggle.md. -/
def Reg.dispChainStatusLate (n : Nat) : RegField := ⟨0x50F020 + n * 0x10000, 32, 16⟩
/-- DISP.CHAIN_STATUS.DISCARD, 17_waggle.md. -/
def Reg.dispChainStatusDiscard (n : Nat) : RegField := ⟨0x50F020 + n * 0x10000, 16, 16⟩
/-- DISP.CHAIN_STATUS.UNANNOUNCED, 17_waggle.md. -/
def Reg.dispChainStatusUnannounced (n : Nat) : RegField := ⟨0x50F020 + n * 0x10000, 0, 16⟩
/-- DISP.CHAIN_ANNOUNCED.ANNOUNCED, 17_waggle.md. -/
def Reg.dispChainAnnouncedAnnounced (n : Nat) : RegField := ⟨0x50F028 + n * 0x10000, 0, 64⟩
/-- TIME.COUNTER.COUNT, 18_time_multidevice.md. -/
def Reg.timeCounterCount : RegField := ⟨0x20000, 0, 64⟩
/-- TIME.STATUS.SYNC_EDGES, 18_time_multidevice.md. -/
def Reg.timeStatusSyncEdges : RegField := ⟨0x20008, 48, 16⟩
/-- TIME.STATUS.OFFSET_D, 18_time_multidevice.md. -/
def Reg.timeStatusOffsetD : RegField := ⟨0x20008, 32, 16⟩
/-- TIME.STATUS.QUALIFIED, 18_time_multidevice.md. -/
def Reg.timeStatusQualified : RegField := ⟨0x20008, 7, 1⟩
/-- TIME.STATUS.GROUP_STATE, 18_time_multidevice.md. -/
def Reg.timeStatusGroupState : RegField := ⟨0x20008, 4, 3⟩
/-- TIME.STATUS.SOURCE, 18_time_multidevice.md. -/
def Reg.timeStatusSource : RegField := ⟨0x20008, 0, 2⟩
/-- TIME.EPOCH_CTL.ARM, 18_time_multidevice.md. -/
def Reg.timeEpochCtlArm : RegField := ⟨0x20010, 0, 1⟩
/-- TIME.EPOCH_VALUE.VALUE, 18_time_multidevice.md. -/
def Reg.timeEpochValueValue : RegField := ⟨0x20018, 0, 64⟩
/-- TIME.GROUP.GROUP_ID, 18_time_multidevice.md. -/
def Reg.timeGroupGroupId : RegField := ⟨0x20020, 16, 16⟩
/-- TIME.GROUP.REFUSED_DEV, 18_time_multidevice.md. -/
def Reg.timeGroupRefusedDev : RegField := ⟨0x20020, 8, 8⟩
/-- TIME.GROUP.REFUSED_FIELD, 18_time_multidevice.md. -/
def Reg.timeGroupRefusedField : RegField := ⟨0x20020, 0, 4⟩
/-- TIME.GROUP_CTL.LEAVE, 18_time_multidevice.md. -/
def Reg.timeGroupCtlLeave : RegField := ⟨0x20028, 1, 1⟩
/-- TIME.GROUP_CTL.RETRY, 18_time_multidevice.md. -/
def Reg.timeGroupCtlRetry : RegField := ⟨0x20028, 0, 1⟩
/-- TIME.EVENTS.EVENTS, 18_time_multidevice.md. -/
def Reg.timeEventsEvents : RegField := ⟨0x20080, 0, 11⟩
/-- DISP.STATUS.SAVE_BUSY, 19_dispatch_deadlines.md. -/
def Reg.dispStatusSaveBusy (n : Nat) : RegField := ⟨0x500000 + n * 0x10000, 48, 1⟩
/-- DISP.STATUS.ARMED, 19_dispatch_deadlines.md. -/
def Reg.dispStatusArmed (n : Nat) : RegField := ⟨0x500000 + n * 0x10000, 32, 16⟩
/-- DISP.STATUS.QUEUED, 19_dispatch_deadlines.md. -/
def Reg.dispStatusQueued (n : Nat) : RegField := ⟨0x500000 + n * 0x10000, 16, 7⟩
/-- DISP.STATUS.CTX_BUSY, 19_dispatch_deadlines.md. -/
def Reg.dispStatusCtxBusy (n : Nat) : RegField := ⟨0x500000 + n * 0x10000, 0, 16⟩
/-- DISP.COUNT_A.LATE, 19_dispatch_deadlines.md. -/
def Reg.dispCountALate (n : Nat) : RegField := ⟨0x500008 + n * 0x10000, 48, 16⟩
/-- DISP.COUNT_A.LATE_DISCARD, 19_dispatch_deadlines.md. -/
def Reg.dispCountALateDiscard (n : Nat) : RegField := ⟨0x500008 + n * 0x10000, 32, 16⟩
/-- DISP.COUNT_A.FAULTED, 19_dispatch_deadlines.md. -/
def Reg.dispCountAFaulted (n : Nat) : RegField := ⟨0x500008 + n * 0x10000, 16, 16⟩
/-- DISP.COUNT_A.CANCELLED, 19_dispatch_deadlines.md. -/
def Reg.dispCountACancelled (n : Nat) : RegField := ⟨0x500008 + n * 0x10000, 0, 16⟩
/-- DISP.COUNT_B.OVERFLOW, 19_dispatch_deadlines.md. -/
def Reg.dispCountBOverflow (n : Nat) : RegField := ⟨0x500010 + n * 0x10000, 48, 16⟩
/-- DISP.COUNT_B.PREEMPTED, 19_dispatch_deadlines.md. -/
def Reg.dispCountBPreempted (n : Nat) : RegField := ⟨0x500010 + n * 0x10000, 32, 16⟩
/-- DISP.COUNT_B.OUT_BLOCKED, 19_dispatch_deadlines.md. -/
def Reg.dispCountBOutBlocked (n : Nat) : RegField := ⟨0x500010 + n * 0x10000, 16, 16⟩
/-- DISP.COUNT_B.INVALID, 19_dispatch_deadlines.md. -/
def Reg.dispCountBInvalid (n : Nat) : RegField := ⟨0x500010 + n * 0x10000, 0, 16⟩
/-- DISP.ARM_COUNT.C, 19_dispatch_deadlines.md. -/
def Reg.dispArmCountC (n : Nat) : RegField := ⟨0x500018 + n * 0x10000, 0, 64⟩
/-- DISP.ARM_CTL.CANCEL, 19_dispatch_deadlines.md. -/
def Reg.dispArmCtlCancel (n : Nat) : RegField := ⟨0x500020 + n * 0x10000, 49, 1⟩
/-- DISP.ARM_CTL.GO, 19_dispatch_deadlines.md. -/
def Reg.dispArmCtlGo (n : Nat) : RegField := ⟨0x500020 + n * 0x10000, 48, 1⟩
/-- DISP.ARM_CTL.PAST_BEGIN, 19_dispatch_deadlines.md. -/
def Reg.dispArmCtlPastBegin (n : Nat) : RegField := ⟨0x500020 + n * 0x10000, 32, 1⟩
/-- DISP.ARM_CTL.ENTRY, 19_dispatch_deadlines.md. -/
def Reg.dispArmCtlEntry (n : Nat) : RegField := ⟨0x500020 + n * 0x10000, 16, 10⟩
/-- DISP.ARM_CTL.SLOT, 19_dispatch_deadlines.md. -/
def Reg.dispArmCtlSlot (n : Nat) : RegField := ⟨0x500020 + n * 0x10000, 0, 4⟩
/-- DISP.LAT_SELECT.ENTRY, 19_dispatch_deadlines.md. -/
def Reg.dispLatSelectEntry (n : Nat) : RegField := ⟨0x500028 + n * 0x10000, 0, 10⟩
/-- DISP.LAT_INFO.MAX_LATENCY, 19_dispatch_deadlines.md. -/
def Reg.dispLatInfoMaxLatency (n : Nat) : RegField := ⟨0x500030 + n * 0x10000, 32, 32⟩
/-- DISP.LAT_INFO.OVER_BOUND, 19_dispatch_deadlines.md. -/
def Reg.dispLatInfoOverBound (n : Nat) : RegField := ⟨0x500030 + n * 0x10000, 16, 16⟩
/-- DISP.EVENTS.EVENTS, 19_dispatch_deadlines.md. -/
def Reg.dispEventsEvents (n : Nat) : RegField := ⟨0x500038 + n * 0x10000, 0, 12⟩
/-- SEAL.WCTL.DONE_COUNT, 20_seal_hoard.md. -/
def Reg.sealWctlDoneCount : RegField := ⟨0x40000, 48, 16⟩
/-- SEAL.WCTL.COUNT, 20_seal_hoard.md. -/
def Reg.sealWctlCount : RegField := ⟨0x40000, 16, 13⟩
/-- SEAL.WCTL.CHANNEL, 20_seal_hoard.md. -/
def Reg.sealWctlChannel : RegField := ⟨0x40000, 4, 2⟩
/-- SEAL.WCTL.UNBOUND, 20_seal_hoard.md. -/
def Reg.sealWctlUnbound : RegField := ⟨0x40000, 3, 1⟩
/-- SEAL.WCTL.ERR, 20_seal_hoard.md. -/
def Reg.sealWctlErr : RegField := ⟨0x40000, 2, 1⟩
/-- SEAL.WCTL.BUSY, 20_seal_hoard.md. -/
def Reg.sealWctlBusy : RegField := ⟨0x40000, 1, 1⟩
/-- SEAL.WCTL.GO, 20_seal_hoard.md. -/
def Reg.sealWctlGo : RegField := ⟨0x40000, 0, 1⟩
/-- SEAL.WMAN.ADDR, 20_seal_hoard.md. -/
def Reg.sealWmanAddr : RegField := ⟨0x40008, 0, 52⟩
/-- HRD.CTL.REARM, 20_seal_hoard.md. -/
def Reg.hrdCtlRearm : RegField := ⟨0x50000, 2, 1⟩
/-- HRD.CTL.MODE, 20_seal_hoard.md. -/
def Reg.hrdCtlMode : RegField := ⟨0x50000, 0, 2⟩
/-- HRD.STATUS.EPOCH, 20_seal_hoard.md. -/
def Reg.hrdStatusEpoch : RegField := ⟨0x50008, 32, 32⟩
/-- HRD.STATUS.WRAPPED, 20_seal_hoard.md. -/
def Reg.hrdStatusWrapped : RegField := ⟨0x50008, 3, 1⟩
/-- HRD.STATUS.STATE, 20_seal_hoard.md. -/
def Reg.hrdStatusState : RegField := ⟨0x50008, 0, 3⟩
/-- HRD.SEQ.SEQ, 20_seal_hoard.md. -/
def Reg.hrdSeqSeq : RegField := ⟨0x50010, 0, 64⟩
/-- HRD.RING.TAIL, 20_seal_hoard.md. -/
def Reg.hrdRingTail : RegField := ⟨0x50018, 32, 32⟩
/-- HRD.RING.HEAD, 20_seal_hoard.md. -/
def Reg.hrdRingHead : RegField := ⟨0x50018, 0, 32⟩
/-- HRD.LOST.LIVE_IGNORED, 20_seal_hoard.md. -/
def Reg.hrdLostLiveIgnored : RegField := ⟨0x50020, 32, 32⟩
/-- HRD.LOST.LOST, 20_seal_hoard.md. -/
def Reg.hrdLostLost : RegField := ⟨0x50020, 0, 32⟩
/-- HRD.REPLAY_CTL.SOURCE, 20_seal_hoard.md. -/
def Reg.hrdReplayCtlSource : RegField := ⟨0x50028, 4, 1⟩
/-- HRD.REPLAY_CTL.STOP_ON_DIVERGE, 20_seal_hoard.md. -/
def Reg.hrdReplayCtlStopOnDiverge : RegField := ⟨0x50028, 3, 1⟩
/-- HRD.REPLAY_CTL.GAP_SKIP, 20_seal_hoard.md. -/
def Reg.hrdReplayCtlGapSkip : RegField := ⟨0x50028, 2, 1⟩
/-- HRD.REPLAY_CTL.STOP, 20_seal_hoard.md. -/
def Reg.hrdReplayCtlStop : RegField := ⟨0x50028, 1, 1⟩
/-- HRD.REPLAY_CTL.GO, 20_seal_hoard.md. -/
def Reg.hrdReplayCtlGo : RegField := ⟨0x50028, 0, 1⟩
/-- HRD.REPLAY_STATUS.MATCHED, 20_seal_hoard.md. -/
def Reg.hrdReplayStatusMatched : RegField := ⟨0x50040, 48, 16⟩
/-- HRD.REPLAY_STATUS.DIVERGED, 20_seal_hoard.md. -/
def Reg.hrdReplayStatusDiverged : RegField := ⟨0x50040, 32, 16⟩
/-- HRD.REPLAY_STATUS.UNCOMPARED, 20_seal_hoard.md. -/
def Reg.hrdReplayStatusUncompared : RegField := ⟨0x50040, 24, 8⟩
/-- HRD.REPLAY_STATUS.SKIPPED, 20_seal_hoard.md. -/
def Reg.hrdReplayStatusSkipped : RegField := ⟨0x50040, 16, 8⟩
/-- HRD.REPLAY_STATUS.CAUSE, 20_seal_hoard.md. -/
def Reg.hrdReplayStatusCause : RegField := ⟨0x50040, 0, 16⟩
/-- HRD.DIVERGE_SEQ.SEQ, 20_seal_hoard.md. -/
def Reg.hrdDivergeSeqSeq : RegField := ⟨0x50048, 0, 64⟩
/-- SAFE.CTL.UNLOCK, 21_safety.md. -/
def Reg.safeCtlUnlock : RegField := ⟨0x30000, 48, 16⟩
/-- SAFE.CTL.ACTION, 21_safety.md. -/
def Reg.safeCtlAction : RegField := ⟨0x30000, 8, 2⟩
/-- SAFE.CTL.FUNC, 21_safety.md. -/
def Reg.safeCtlFunc : RegField := ⟨0x30000, 4, 1⟩
/-- SAFE.CTL.GO, 21_safety.md. -/
def Reg.safeCtlGo : RegField := ⟨0x30000, 0, 1⟩
/-- SAFE.STATUS.WATCHDOG, 21_safety.md. -/
def Reg.safeStatusWatchdog : RegField := ⟨0x30008, 11, 1⟩
/-- SAFE.STATUS.FAULT_N_ASSERTED, 21_safety.md. -/
def Reg.safeStatusFaultNAsserted : RegField := ⟨0x30008, 10, 1⟩
/-- SAFE.STATUS.CURL_N_ASSERTED, 21_safety.md. -/
def Reg.safeStatusCurlNAsserted : RegField := ⟨0x30008, 9, 1⟩
/-- SAFE.STATUS.STATE1, 21_safety.md. -/
def Reg.safeStatusState1 : RegField := ⟨0x30008, 4, 3⟩
/-- SAFE.STATUS.STATE0, 21_safety.md. -/
def Reg.safeStatusState0 : RegField := ⟨0x30008, 0, 3⟩
/-- SAFE.EVENTS.EVENTS, 21_safety.md. -/
def Reg.safeEventsEvents : RegField := ⟨0x30030, 0, 19⟩
/-- HOST.LINK.FLIT, 22_host.md. -/
def Reg.hostLinkFlit : RegField := ⟨0x60000, 9, 1⟩
/-- HOST.LINK.WIDTH, 22_host.md. -/
def Reg.hostLinkWidth : RegField := ⟨0x60000, 4, 5⟩
/-- HOST.LINK.SPEED, 22_host.md. -/
def Reg.hostLinkSpeed : RegField := ⟨0x60000, 0, 4⟩
/-- HOST.BAR2_BASE.BASE, 22_host.md. -/
def Reg.hostBar2BaseBase : RegField := ⟨0x60008, 0, 52⟩
/-- HOST.Q_CTL.ARMED, 22_host.md. -/
def Reg.hostQCtlArmed : RegField := ⟨0x60030, 34, 1⟩
/-- HOST.Q_CTL.STATE, 22_host.md. -/
def Reg.hostQCtlState : RegField := ⟨0x60030, 32, 2⟩
/-- HOST.Q_CTL.VECTOR, 22_host.md. -/
def Reg.hostQCtlVector : RegField := ⟨0x60030, 24, 7⟩
/-- HOST.Q_CTL.DR_LOG2, 22_host.md. -/
def Reg.hostQCtlDrLog2 : RegField := ⟨0x60030, 16, 5⟩
/-- HOST.Q_CTL.CQ_LOG2, 22_host.md. -/
def Reg.hostQCtlCqLog2 : RegField := ⟨0x60030, 12, 4⟩
/-- HOST.Q_CTL.SQ_LOG2, 22_host.md. -/
def Reg.hostQCtlSqLog2 : RegField := ⟨0x60030, 8, 4⟩
/-- HOST.Q_CTL.ADMIN, 22_host.md. -/
def Reg.hostQCtlAdmin : RegField := ⟨0x60030, 1, 1⟩
/-- HOST.Q_CTL.ENABLE, 22_host.md. -/
def Reg.hostQCtlEnable : RegField := ⟨0x60030, 0, 1⟩
/-- HOST.FW.FLASH_SLOT_MIB, 22_host.md. -/
def Reg.hostFwFlashSlotMib : RegField := ⟨0x60048, 48, 16⟩
/-- HOST.FW.ACTIVE_BANK, 22_host.md. -/
def Reg.hostFwActiveBank : RegField := ⟨0x60048, 32, 1⟩
/-- HOST.FW.FW_VERSION, 22_host.md. -/
def Reg.hostFwFwVersion : RegField := ⟨0x60048, 0, 32⟩
/-- HOST.COUNT.DUPLICATE, 22_host.md. -/
def Reg.hostCountDuplicate : RegField := ⟨0x60050, 48, 16⟩
/-- HOST.COUNT.STALE, 22_host.md. -/
def Reg.hostCountStale : RegField := ⟨0x60050, 32, 16⟩
/-- HOST.COUNT.DROPPED, 22_host.md. -/
def Reg.hostCountDropped : RegField := ⟨0x60050, 16, 16⟩
/-- HOST.COUNT.REFUSED, 22_host.md. -/
def Reg.hostCountRefused : RegField := ⟨0x60050, 0, 16⟩
/-- HOST.EVENTS.EVENTS, 22_host.md. -/
def Reg.hostEventsEvents : RegField := ⟨0x60058, 0, 17⟩
/-- GLB.BOOT.STACKS_PRESENT, 23_power_up.md. -/
def Reg.glbBootStacksPresent : RegField := ⟨0x8, 24, 8⟩
/-- GLB.BOOT.CELLS_FAILED, 23_power_up.md. -/
def Reg.glbBootCellsFailed : RegField := ⟨0x8, 4, 10⟩
/-- GLB.BOOT.BOOT_SEL, 23_power_up.md. -/
def Reg.glbBootBootSel : RegField := ⟨0x8, 3, 1⟩
/-- GLB.BOOT.STAGE, 23_power_up.md. -/
def Reg.glbBootStage : RegField := ⟨0x8, 1, 2⟩
/-- GLB.BOOT.DONE, 23_power_up.md. -/
def Reg.glbBootDone : RegField := ⟨0x8, 0, 1⟩
/-- GLB.RESET_CTL.WARM, 23_power_up.md. -/
def Reg.glbResetCtlWarm : RegField := ⟨0x10, 18, 1⟩
/-- GLB.RESET_CTL.CELL_GO, 23_power_up.md. -/
def Reg.glbResetCtlCellGo : RegField := ⟨0x10, 17, 1⟩
/-- GLB.RESET_CTL.CHANNEL_GO, 23_power_up.md. -/
def Reg.glbResetCtlChannelGo : RegField := ⟨0x10, 16, 1⟩
/-- GLB.RESET_CTL.CHANNEL, 23_power_up.md. -/
def Reg.glbResetCtlChannel : RegField := ⟨0x10, 10, 2⟩
/-- GLB.RESET_CTL.CELL, 23_power_up.md. -/
def Reg.glbResetCtlCell : RegField := ⟨0x10, 0, 10⟩
/-- GLB.RESET_STATUS.WARM_COUNT, 23_power_up.md. -/
def Reg.glbResetStatusWarmCount : RegField := ⟨0x18, 48, 16⟩
/-- GLB.RESET_STATUS.LAST_CAUSE, 23_power_up.md. -/
def Reg.glbResetStatusLastCause : RegField := ⟨0x18, 44, 4⟩
/-- GLB.RESET_STATUS.REFUSE_CASE, 23_power_up.md. -/
def Reg.glbResetStatusRefuseCase : RegField := ⟨0x18, 40, 4⟩
/-- GLB.RESET_STATUS.BUSY, 23_power_up.md. -/
def Reg.glbResetStatusBusy : RegField := ⟨0x18, 8, 1⟩
/-- GLB.RESET_STATUS.EVENTS, 23_power_up.md. -/
def Reg.glbResetStatusEvents : RegField := ⟨0x18, 0, 7⟩
/-- CELL.SELFTEST.TICK, 24_register_map.md. -/
def Reg.cellSelftestTick (n : Nat) : RegField := ⟨0x1000008 + n * 0x1000, 24, 40⟩
/-- CELL.SELFTEST.RUNS, 24_register_map.md. -/
def Reg.cellSelftestRuns (n : Nat) : RegField := ⟨0x1000008 + n * 0x1000, 16, 8⟩
/-- CELL.SELFTEST.UNIT, 24_register_map.md. -/
def Reg.cellSelftestUnit (n : Nat) : RegField := ⟨0x1000008 + n * 0x1000, 4, 4⟩
/-- CELL.SELFTEST.LISTED, 24_register_map.md. -/
def Reg.cellSelftestListed (n : Nat) : RegField := ⟨0x1000008 + n * 0x1000, 1, 1⟩
/-- CELL.SELFTEST.FAIL, 24_register_map.md. -/
def Reg.cellSelftestFail (n : Nat) : RegField := ⟨0x1000008 + n * 0x1000, 0, 1⟩
/-- IMG.DIGEST0.DIGEST. -/
def Reg.imgDigest0Digest : RegField := ⟨0x70020, 0, 64⟩
/-- IMG.DIGEST1.DIGEST. -/
def Reg.imgDigest1Digest : RegField := ⟨0x70028, 0, 64⟩
/-- IMG.DIGEST2.DIGEST. -/
def Reg.imgDigest2Digest : RegField := ⟨0x70030, 0, 64⟩
/-- IMG.DIGEST3.DIGEST. -/
def Reg.imgDigest3Digest : RegField := ⟨0x70038, 0, 64⟩
/-- IMG.DIGEST4.DIGEST. -/
def Reg.imgDigest4Digest : RegField := ⟨0x70040, 0, 64⟩
/-- IMG.DIGEST5.DIGEST. -/
def Reg.imgDigest5Digest : RegField := ⟨0x70048, 0, 64⟩
/-- CELL.FTAB_DATA0.DATA. -/
def Reg.cellFtabData0Data (n : Nat) : RegField := ⟨0x1000468 + n * 0x1000, 0, 64⟩
/-- CELL.FTAB_DATA1.DATA. -/
def Reg.cellFtabData1Data (n : Nat) : RegField := ⟨0x1000470 + n * 0x1000, 0, 64⟩
/-- CELL.FTAB_DATA2.DATA. -/
def Reg.cellFtabData2Data (n : Nat) : RegField := ⟨0x1000478 + n * 0x1000, 0, 64⟩
/-- CELL.FTAB_DATA3.DATA. -/
def Reg.cellFtabData3Data (n : Nat) : RegField := ⟨0x1000480 + n * 0x1000, 0, 64⟩
/-- CELL.FTAB_DATA4.DATA. -/
def Reg.cellFtabData4Data (n : Nat) : RegField := ⟨0x1000488 + n * 0x1000, 0, 64⟩
/-- CELL.FTAB_DATA5.DATA. -/
def Reg.cellFtabData5Data (n : Nat) : RegField := ⟨0x1000490 + n * 0x1000, 0, 64⟩
/-- CELL.FTAB_DATA6.DATA. -/
def Reg.cellFtabData6Data (n : Nat) : RegField := ⟨0x1000498 + n * 0x1000, 0, 64⟩
/-- CELL.FTAB_DATA7.DATA. -/
def Reg.cellFtabData7Data (n : Nat) : RegField := ⟨0x10004A0 + n * 0x1000, 0, 64⟩
/-- WGL.LANE0.RETIRED. -/
def Reg.wglLane0Retired (n : Nat) : RegField := ⟨0x100010 + n * 0x10000, 42, 1⟩
/-- WGL.LANE0.TRAINED. -/
def Reg.wglLane0Trained (n : Nat) : RegField := ⟨0x100010 + n * 0x10000, 41, 1⟩
/-- WGL.LANE0.SIGNAL. -/
def Reg.wglLane0Signal (n : Nat) : RegField := ⟨0x100010 + n * 0x10000, 40, 1⟩
/-- WGL.LANE0.SNR. -/
def Reg.wglLane0Snr (n : Nat) : RegField := ⟨0x100010 + n * 0x10000, 32, 8⟩
/-- WGL.LANE0.DFE1. -/
def Reg.wglLane0Dfe1 (n : Nat) : RegField := ⟨0x100010 + n * 0x10000, 24, 8⟩
/-- WGL.LANE0.CTLE. -/
def Reg.wglLane0Ctle (n : Nat) : RegField := ⟨0x100010 + n * 0x10000, 16, 8⟩
/-- WGL.LANE0.ERRORS. -/
def Reg.wglLane0Errors (n : Nat) : RegField := ⟨0x100010 + n * 0x10000, 0, 16⟩
/-- WGL.LANE1.RETIRED. -/
def Reg.wglLane1Retired (n : Nat) : RegField := ⟨0x100018 + n * 0x10000, 42, 1⟩
/-- WGL.LANE1.TRAINED. -/
def Reg.wglLane1Trained (n : Nat) : RegField := ⟨0x100018 + n * 0x10000, 41, 1⟩
/-- WGL.LANE1.SIGNAL. -/
def Reg.wglLane1Signal (n : Nat) : RegField := ⟨0x100018 + n * 0x10000, 40, 1⟩
/-- WGL.LANE1.SNR. -/
def Reg.wglLane1Snr (n : Nat) : RegField := ⟨0x100018 + n * 0x10000, 32, 8⟩
/-- WGL.LANE1.DFE1. -/
def Reg.wglLane1Dfe1 (n : Nat) : RegField := ⟨0x100018 + n * 0x10000, 24, 8⟩
/-- WGL.LANE1.CTLE. -/
def Reg.wglLane1Ctle (n : Nat) : RegField := ⟨0x100018 + n * 0x10000, 16, 8⟩
/-- WGL.LANE1.ERRORS. -/
def Reg.wglLane1Errors (n : Nat) : RegField := ⟨0x100018 + n * 0x10000, 0, 16⟩
/-- WGL.LANE2.RETIRED. -/
def Reg.wglLane2Retired (n : Nat) : RegField := ⟨0x100020 + n * 0x10000, 42, 1⟩
/-- WGL.LANE2.TRAINED. -/
def Reg.wglLane2Trained (n : Nat) : RegField := ⟨0x100020 + n * 0x10000, 41, 1⟩
/-- WGL.LANE2.SIGNAL. -/
def Reg.wglLane2Signal (n : Nat) : RegField := ⟨0x100020 + n * 0x10000, 40, 1⟩
/-- WGL.LANE2.SNR. -/
def Reg.wglLane2Snr (n : Nat) : RegField := ⟨0x100020 + n * 0x10000, 32, 8⟩
/-- WGL.LANE2.DFE1. -/
def Reg.wglLane2Dfe1 (n : Nat) : RegField := ⟨0x100020 + n * 0x10000, 24, 8⟩
/-- WGL.LANE2.CTLE. -/
def Reg.wglLane2Ctle (n : Nat) : RegField := ⟨0x100020 + n * 0x10000, 16, 8⟩
/-- WGL.LANE2.ERRORS. -/
def Reg.wglLane2Errors (n : Nat) : RegField := ⟨0x100020 + n * 0x10000, 0, 16⟩
/-- WGL.LANE3.RETIRED. -/
def Reg.wglLane3Retired (n : Nat) : RegField := ⟨0x100028 + n * 0x10000, 42, 1⟩
/-- WGL.LANE3.TRAINED. -/
def Reg.wglLane3Trained (n : Nat) : RegField := ⟨0x100028 + n * 0x10000, 41, 1⟩
/-- WGL.LANE3.SIGNAL. -/
def Reg.wglLane3Signal (n : Nat) : RegField := ⟨0x100028 + n * 0x10000, 40, 1⟩
/-- WGL.LANE3.SNR. -/
def Reg.wglLane3Snr (n : Nat) : RegField := ⟨0x100028 + n * 0x10000, 32, 8⟩
/-- WGL.LANE3.DFE1. -/
def Reg.wglLane3Dfe1 (n : Nat) : RegField := ⟨0x100028 + n * 0x10000, 24, 8⟩
/-- WGL.LANE3.CTLE. -/
def Reg.wglLane3Ctle (n : Nat) : RegField := ⟨0x100028 + n * 0x10000, 16, 8⟩
/-- WGL.LANE3.ERRORS. -/
def Reg.wglLane3Errors (n : Nat) : RegField := ⟨0x100028 + n * 0x10000, 0, 16⟩
/-- TIME.ROSTER0.PRESENT. -/
def Reg.timeRoster0Present : RegField := ⟨0x20030, 0, 64⟩
/-- TIME.ROSTER1.PRESENT. -/
def Reg.timeRoster1Present : RegField := ⟨0x20038, 0, 64⟩
/-- TIME.ROSTER2.PRESENT. -/
def Reg.timeRoster2Present : RegField := ⟨0x20040, 0, 64⟩
/-- TIME.ROSTER3.PRESENT. -/
def Reg.timeRoster3Present : RegField := ⟨0x20048, 0, 64⟩
/-- TIME.MEMBER_DIGEST0.DIGEST. -/
def Reg.timeMemberDigest0Digest : RegField := ⟨0x20050, 0, 64⟩
/-- TIME.MEMBER_DIGEST1.DIGEST. -/
def Reg.timeMemberDigest1Digest : RegField := ⟨0x20058, 0, 64⟩
/-- TIME.MEMBER_DIGEST2.DIGEST. -/
def Reg.timeMemberDigest2Digest : RegField := ⟨0x20060, 0, 64⟩
/-- TIME.MEMBER_DIGEST3.DIGEST. -/
def Reg.timeMemberDigest3Digest : RegField := ⟨0x20068, 0, 64⟩
/-- TIME.MEMBER_DIGEST4.DIGEST. -/
def Reg.timeMemberDigest4Digest : RegField := ⟨0x20070, 0, 64⟩
/-- TIME.MEMBER_DIGEST5.DIGEST. -/
def Reg.timeMemberDigest5Digest : RegField := ⟨0x20078, 0, 64⟩
/-- SEAL.WDIGEST0.DIGEST. -/
def Reg.sealWdigest0Digest : RegField := ⟨0x40010, 0, 64⟩
/-- SEAL.WDIGEST1.DIGEST. -/
def Reg.sealWdigest1Digest : RegField := ⟨0x40018, 0, 64⟩
/-- SEAL.WDIGEST2.DIGEST. -/
def Reg.sealWdigest2Digest : RegField := ⟨0x40020, 0, 64⟩
/-- SEAL.WDIGEST3.DIGEST. -/
def Reg.sealWdigest3Digest : RegField := ⟨0x40028, 0, 64⟩
/-- SAFE.CAUSE0.CODE. -/
def Reg.safeCause0Code : RegField := ⟨0x30010, 48, 16⟩
/-- SAFE.CAUSE0.FIELD. -/
def Reg.safeCause0Field : RegField := ⟨0x30010, 44, 4⟩
/-- SAFE.CAUSE0.TICK. -/
def Reg.safeCause0Tick : RegField := ⟨0x30010, 0, 40⟩
/-- SAFE.CAUSE1.CODE. -/
def Reg.safeCause1Code : RegField := ⟨0x30018, 48, 16⟩
/-- SAFE.CAUSE1.FIELD. -/
def Reg.safeCause1Field : RegField := ⟨0x30018, 44, 4⟩
/-- SAFE.CAUSE1.TICK. -/
def Reg.safeCause1Tick : RegField := ⟨0x30018, 0, 40⟩
/-- SAFE.COUNT0.MATCHED. -/
def Reg.safeCount0Matched : RegField := ⟨0x30020, 32, 32⟩
/-- SAFE.COUNT0.INPUT_DIVERGE. -/
def Reg.safeCount0InputDiverge : RegField := ⟨0x30020, 16, 16⟩
/-- SAFE.COUNT0.FAULTS. -/
def Reg.safeCount0Faults : RegField := ⟨0x30020, 0, 16⟩
/-- SAFE.COUNT1.MATCHED. -/
def Reg.safeCount1Matched : RegField := ⟨0x30028, 32, 32⟩
/-- SAFE.COUNT1.INPUT_DIVERGE. -/
def Reg.safeCount1InputDiverge : RegField := ⟨0x30028, 16, 16⟩
/-- SAFE.COUNT1.FAULTS. -/
def Reg.safeCount1Faults : RegField := ⟨0x30028, 0, 16⟩
/-- HRD.REPLAY_BASE.VALUE. -/
def Reg.hrdReplayBaseValue : RegField := ⟨0x50030, 0, 64⟩
/-- HRD.REPLAY_LEN.VALUE. -/
def Reg.hrdReplayLenValue : RegField := ⟨0x50038, 0, 64⟩
/-- HOST.Q_SELECT.QUEUE. -/
def Reg.hostQSelectQueue : RegField := ⟨0x60010, 0, 6⟩
/-- HOST.Q_SQ.BASE. -/
def Reg.hostQSqBase : RegField := ⟨0x60018, 12, 52⟩
/-- HOST.Q_CQ.BASE. -/
def Reg.hostQCqBase : RegField := ⟨0x60020, 12, 52⟩
/-- HOST.Q_DR.BASE. -/
def Reg.hostQDrBase : RegField := ⟨0x60028, 16, 48⟩
/-- HOST.IRQ_CAUSE.BITS. -/
def Reg.hostIrqCauseBits : RegField := ⟨0x60038, 0, 4⟩
/-- HOST.IRQ_MASK.BITS. -/
def Reg.hostIrqMaskBits : RegField := ⟨0x60040, 0, 4⟩

/-- Table 00-4: the access kinds. -/
inductive Acc where
  | ro | rw | w1c | rc | wo
deriving DecidableEq, Repr

/-- R466: the reset domains. -/
inductive Domain where
  | powerOn | warm | channel | cell
deriving DecidableEq, Repr

/-- The blocks of Table 24-1. -/
inductive Blk where
  | glb | gov | time | safe | seal_ | hrd | host | img | wgl | ing | cam | mem | disp | cell
deriving DecidableEq, Repr

/-- A register as its entry describes it: block, offset in its instance, reset domain and fields (lowest bit, width,
access). -/
structure RegDesc where
  blk : Blk
  off : Nat
  dom : Domain
  fields : List (Nat × Nat × Acc)
deriving DecidableEq, Repr

/-- The registers of GLB. -/
def regsGlb : List RegDesc := [
  ⟨.glb, 0x0, .powerOn, [(48, 16, .ro), (32, 16, .ro), (28, 4, .ro), (24, 4, .ro), (20, 4, .ro), (12, 8, .ro), (8, 4, .ro)]⟩,
  ⟨.glb, 0x8, .powerOn, [(24, 8, .ro), (4, 10, .ro), (3, 1, .ro), (1, 2, .ro), (0, 1, .ro)]⟩,
  ⟨.glb, 0x10, .warm, [(18, 1, .wo), (17, 1, .wo), (16, 1, .wo), (10, 2, .rw), (0, 10, .rw)]⟩,
  ⟨.glb, 0x18, .powerOn, [(48, 16, .ro), (44, 4, .ro), (40, 4, .ro), (8, 1, .ro), (0, 7, .w1c)]⟩]

/-- The registers of IMG. -/
def regsImg : List RegDesc := [
  ⟨.img, 0x0, .warm, [(8, 1, .rw), (2, 2, .rw), (0, 1, .wo)]⟩,
  ⟨.img, 0x8, .warm, [(0, 52, .rw)]⟩,
  ⟨.img, 0x10, .warm, [(0, 35, .rw)]⟩,
  ⟨.img, 0x18, .powerOn, [(48, 16, .ro), (32, 16, .ro), (16, 16, .ro), (13, 1, .ro), (12, 1, .ro), (8, 4, .ro), (4, 4, .ro), (0, 3, .ro)]⟩,
  ⟨.img, 0x50, .powerOn, [(2, 1, .wo), (1, 1, .wo), (0, 1, .rw)]⟩,
  ⟨.img, 0x58, .warm, [(0, 32, .rw)]⟩,
  ⟨.img, 0x60, .powerOn, [(5, 4, .ro), (1, 4, .ro), (0, 1, .ro)]⟩,
  ⟨.img, 0x20, .powerOn, [(0, 64, .ro)]⟩,
  ⟨.img, 0x28, .powerOn, [(0, 64, .ro)]⟩,
  ⟨.img, 0x30, .powerOn, [(0, 64, .ro)]⟩,
  ⟨.img, 0x38, .powerOn, [(0, 64, .ro)]⟩,
  ⟨.img, 0x40, .powerOn, [(0, 64, .ro)]⟩,
  ⟨.img, 0x48, .powerOn, [(0, 64, .ro)]⟩]

/-- The registers of CELL. -/
def regsCell : List RegDesc := [
  ⟨.cell, 0x400, .cell, [(48, 16, .rc), (32, 16, .rc), (16, 16, .rc), (2, 1, .w1c), (1, 1, .w1c), (0, 1, .w1c)]⟩,
  ⟨.cell, 0x408, .cell, [(48, 1, .w1c), (32, 16, .rc), (0, 32, .ro)]⟩,
  ⟨.cell, 0x0, .powerOn, [(33, 1, .ro), (32, 1, .ro), (16, 10, .ro), (0, 10, .ro)]⟩,
  ⟨.cell, 0x410, .cell, [(48, 16, .rc), (32, 16, .rc), (0, 32, .ro)]⟩,
  ⟨.cell, 0x418, .cell, [(16, 9, .rc), (0, 9, .ro)]⟩,
  ⟨.cell, 0x420, .cell, [(32, 7, .ro), (0, 32, .ro)]⟩,
  ⟨.cell, 0x428, .cell, [(1, 1, .rw), (0, 1, .rw)]⟩,
  ⟨.cell, 0x430, .cell, [(49, 1, .w1c), (48, 1, .ro), (32, 16, .rc), (16, 16, .rc), (0, 16, .ro)]⟩,
  ⟨.cell, 0x438, .cell, [(8, 2, .wo), (0, 4, .wo)]⟩,
  ⟨.cell, 0x440, .powerOn, [(16, 16, .ro), (8, 8, .ro)]⟩,
  ⟨.cell, 0x448, .cell, [(40, 9, .ro), (32, 8, .ro), (0, 32, .ro)]⟩,
  ⟨.cell, 0x450, .cell, [(40, 9, .ro), (0, 32, .ro)]⟩,
  ⟨.cell, 0x458, .cell, [(48, 16, .rc), (32, 16, .rc), (1, 1, .w1c), (0, 1, .w1c)]⟩,
  ⟨.cell, 0x460, .cell, [(48, 16, .ro), (34, 1, .w1c), (33, 1, .ro), (32, 1, .wo), (24, 2, .rw), (16, 4, .rw), (0, 13, .rw)]⟩,
  ⟨.cell, 0x4A8, .cell, [(16, 16, .ro), (0, 16, .ro)]⟩,
  ⟨.cell, 0x4B0, .cell, [(48, 16, .ro), (34, 1, .w1c), (33, 1, .ro), (32, 1, .wo), (24, 2, .rw), (0, 10, .rw)]⟩,
  ⟨.cell, 0x4B8, .cell, [(0, 64, .rw)]⟩,
  ⟨.cell, 0x4C0, .cell, [(16, 1, .ro), (0, 16, .ro)]⟩,
  ⟨.cell, 0x4C8, .cell, [(16, 1, .rw), (0, 16, .rw)]⟩,
  ⟨.cell, 0x4D0, .cell, [(48, 16, .rc), (32, 16, .rc), (16, 11, .ro), (1, 1, .ro), (0, 1, .w1c)]⟩,
  ⟨.cell, 0x4D8, .cell, [(48, 16, .rc), (32, 16, .rc), (16, 7, .rc), (0, 7, .ro)]⟩,
  ⟨.cell, 0x4E0, .cell, [(48, 16, .rc), (32, 16, .rc)]⟩,
  ⟨.cell, 0x4E8, .cell, [(48, 16, .rc), (32, 16, .rc), (11, 1, .rw), (8, 3, .rw), (0, 3, .ro)]⟩,
  ⟨.cell, 0x4F0, .cell, [(48, 16, .rc), (32, 7, .ro), (0, 32, .ro)]⟩,
  ⟨.cell, 0x8, .powerOn, [(24, 40, .ro), (16, 8, .ro), (4, 4, .ro), (1, 1, .ro), (0, 1, .ro)]⟩,
  ⟨.cell, 0x468, .cell, [(0, 64, .rw)]⟩,
  ⟨.cell, 0x470, .cell, [(0, 64, .rw)]⟩,
  ⟨.cell, 0x478, .cell, [(0, 64, .rw)]⟩,
  ⟨.cell, 0x480, .cell, [(0, 64, .rw)]⟩,
  ⟨.cell, 0x488, .cell, [(0, 64, .rw)]⟩,
  ⟨.cell, 0x490, .cell, [(0, 64, .rw)]⟩,
  ⟨.cell, 0x498, .cell, [(0, 64, .rw)]⟩,
  ⟨.cell, 0x4A0, .cell, [(0, 64, .rw)]⟩]

/-- The registers of GOV. -/
def regsGov : List RegDesc := [
  ⟨.gov, 0x0, .warm, [(8, 1, .ro), (4, 4, .ro), (0, 2, .rw)]⟩,
  ⟨.gov, 0x8, .warm, [(53, 11, .ro), (42, 11, .ro), (0, 11, .w1c)]⟩,
  ⟨.gov, 0x10, .warm, [(32, 20, .rw), (8, 8, .rw), (0, 8, .rw)]⟩,
  ⟨.gov, 0x18, .warm, [(63, 1, .wo), (48, 11, .rw), (16, 16, .rw), (0, 16, .rw)]⟩,
  ⟨.gov, 0x20, .warm, [(48, 16, .ro), (38, 10, .ro), (26, 12, .ro), (10, 16, .rc), (0, 10, .rc)]⟩,
  ⟨.gov, 0x28, .warm, [(32, 10, .ro), (0, 10, .ro)]⟩]

/-- The registers of DISP. -/
def regsDisp : List RegDesc := [
  ⟨.disp, 0xF000, .warm, [(48, 16, .rc), (32, 16, .rc), (1, 1, .ro), (0, 1, .ro)]⟩,
  ⟨.disp, 0xF008, .warm, [(52, 1, .rw), (0, 52, .rw)]⟩,
  ⟨.disp, 0xF010, .warm, [(0, 52, .rw)]⟩,
  ⟨.disp, 0xF018, .warm, [(48, 16, .rc), (3, 1, .w1c), (2, 1, .ro), (1, 1, .rw), (0, 1, .wo)]⟩,
  ⟨.disp, 0xF020, .channel, [(48, 16, .rc), (32, 16, .rc), (16, 16, .rc), (0, 16, .rc)]⟩,
  ⟨.disp, 0xF028, .channel, [(0, 64, .ro)]⟩,
  ⟨.disp, 0x0, .channel, [(48, 1, .ro), (32, 16, .ro), (16, 7, .ro), (0, 16, .ro)]⟩,
  ⟨.disp, 0x8, .channel, [(48, 16, .rc), (32, 16, .rc), (16, 16, .rc), (0, 16, .rc)]⟩,
  ⟨.disp, 0x10, .channel, [(48, 16, .rc), (32, 16, .rc), (16, 16, .rc), (0, 16, .rc)]⟩,
  ⟨.disp, 0x18, .channel, [(0, 64, .rw)]⟩,
  ⟨.disp, 0x20, .channel, [(49, 1, .wo), (48, 1, .wo), (32, 1, .rw), (16, 10, .rw), (0, 4, .rw)]⟩,
  ⟨.disp, 0x28, .channel, [(0, 10, .rw)]⟩,
  ⟨.disp, 0x30, .channel, [(32, 32, .rc), (16, 16, .rc)]⟩,
  ⟨.disp, 0x38, .channel, [(0, 12, .w1c)]⟩]

/-- The registers of MEM. -/
def regsMem : List RegDesc := [
  ⟨.mem, 0x0, .powerOn, [(48, 16, .rc), (32, 16, .rc), (1, 1, .ro), (0, 1, .ro)]⟩,
  ⟨.mem, 0x8, .warm, [(16, 8, .ro), (11, 1, .rw), (8, 3, .rw), (0, 3, .ro)]⟩,
  ⟨.mem, 0x10, .powerOn, [(63, 1, .w1c), (62, 1, .ro), (0, 52, .ro)]⟩]

/-- The registers of ING. -/
def regsIng : List RegDesc := [
  ⟨.ing, 0x0, .channel, [(1, 1, .ro), (0, 1, .wo)]⟩,
  ⟨.ing, 0x8, .channel, [(48, 16, .rc), (32, 7, .ro), (24, 8, .ro), (0, 16, .ro)]⟩,
  ⟨.ing, 0x10, .channel, [(32, 32, .ro), (0, 32, .ro)]⟩,
  ⟨.ing, 0x18, .channel, [(48, 16, .rc), (32, 16, .rc), (16, 16, .rc), (0, 16, .rc)]⟩,
  ⟨.ing, 0x20, .channel, [(48, 16, .rc), (32, 16, .rc), (16, 16, .rc), (0, 16, .rc)]⟩,
  ⟨.ing, 0x28, .channel, [(48, 1, .ro), (0, 48, .ro)]⟩,
  ⟨.ing, 0x30, .channel, [(0, 13, .w1c)]⟩]

/-- The registers of CAM. -/
def regsCam : List RegDesc := [
  ⟨.cam, 0x0, .channel, [(1, 1, .ro), (0, 1, .wo)]⟩,
  ⟨.cam, 0x8, .channel, [(32, 32, .ro), (24, 8, .ro), (21, 3, .ro), (20, 1, .ro), (0, 16, .ro)]⟩,
  ⟨.cam, 0x10, .channel, [(32, 32, .ro), (16, 16, .rc), (0, 16, .ro)]⟩,
  ⟨.cam, 0x18, .channel, [(32, 32, .ro), (16, 16, .rc), (0, 16, .rc)]⟩,
  ⟨.cam, 0x20, .channel, [(48, 16, .rc), (32, 16, .rc), (16, 16, .rc), (0, 16, .rc)]⟩,
  ⟨.cam, 0x28, .channel, [(0, 16, .w1c)]⟩]

/-- The registers of WGL. -/
def regsWgl : List RegDesc := [
  ⟨.wgl, 0x0, .channel, [(2, 1, .rw), (1, 1, .rw), (0, 1, .wo)]⟩,
  ⟨.wgl, 0x8, .channel, [(32, 16, .ro), (24, 8, .ro), (16, 8, .ro), (13, 1, .ro), (12, 1, .ro), (8, 4, .ro), (4, 4, .ro), (0, 4, .ro)]⟩,
  ⟨.wgl, 0x30, .channel, [(48, 16, .rc), (32, 16, .rc), (16, 16, .rc), (0, 16, .rc)]⟩,
  ⟨.wgl, 0x38, .channel, [(48, 16, .rc), (32, 16, .rc), (16, 16, .rc), (0, 16, .rc)]⟩,
  ⟨.wgl, 0x40, .channel, [(0, 20, .w1c)]⟩,
  ⟨.wgl, 0x10, .channel, [(42, 1, .ro), (41, 1, .ro), (40, 1, .ro), (32, 8, .ro), (24, 8, .ro), (16, 8, .ro), (0, 16, .rc)]⟩,
  ⟨.wgl, 0x18, .channel, [(42, 1, .ro), (41, 1, .ro), (40, 1, .ro), (32, 8, .ro), (24, 8, .ro), (16, 8, .ro), (0, 16, .rc)]⟩,
  ⟨.wgl, 0x20, .channel, [(42, 1, .ro), (41, 1, .ro), (40, 1, .ro), (32, 8, .ro), (24, 8, .ro), (16, 8, .ro), (0, 16, .rc)]⟩,
  ⟨.wgl, 0x28, .channel, [(42, 1, .ro), (41, 1, .ro), (40, 1, .ro), (32, 8, .ro), (24, 8, .ro), (16, 8, .ro), (0, 16, .rc)]⟩]

/-- The registers of TIME. -/
def regsTime : List RegDesc := [
  ⟨.time, 0x0, .powerOn, [(0, 64, .ro)]⟩,
  ⟨.time, 0x8, .powerOn, [(48, 16, .rc), (32, 16, .ro), (7, 1, .ro), (4, 3, .ro), (0, 2, .ro)]⟩,
  ⟨.time, 0x10, .warm, [(0, 1, .rw)]⟩,
  ⟨.time, 0x18, .warm, [(0, 64, .rw)]⟩,
  ⟨.time, 0x20, .warm, [(16, 16, .ro), (8, 8, .ro), (0, 4, .ro)]⟩,
  ⟨.time, 0x28, .warm, [(1, 1, .wo), (0, 1, .wo)]⟩,
  ⟨.time, 0x80, .warm, [(0, 11, .w1c)]⟩,
  ⟨.time, 0x30, .warm, [(0, 64, .ro)]⟩,
  ⟨.time, 0x38, .warm, [(0, 64, .ro)]⟩,
  ⟨.time, 0x40, .warm, [(0, 64, .ro)]⟩,
  ⟨.time, 0x48, .warm, [(0, 64, .ro)]⟩,
  ⟨.time, 0x50, .powerOn, [(0, 64, .ro)]⟩,
  ⟨.time, 0x58, .powerOn, [(0, 64, .ro)]⟩,
  ⟨.time, 0x60, .powerOn, [(0, 64, .ro)]⟩,
  ⟨.time, 0x68, .powerOn, [(0, 64, .ro)]⟩,
  ⟨.time, 0x70, .powerOn, [(0, 64, .ro)]⟩,
  ⟨.time, 0x78, .powerOn, [(0, 64, .ro)]⟩]

/-- The registers of SEAL. -/
def regsSeal : List RegDesc := [
  ⟨.seal_, 0x0, .warm, [(48, 16, .ro), (16, 13, .rw), (4, 2, .rw), (3, 1, .w1c), (2, 1, .w1c), (1, 1, .ro), (0, 1, .wo)]⟩,
  ⟨.seal_, 0x8, .warm, [(0, 52, .rw)]⟩,
  ⟨.seal_, 0x10, .channel, [(0, 64, .ro)]⟩,
  ⟨.seal_, 0x18, .channel, [(0, 64, .ro)]⟩,
  ⟨.seal_, 0x20, .channel, [(0, 64, .ro)]⟩,
  ⟨.seal_, 0x28, .channel, [(0, 64, .ro)]⟩]

/-- The registers of HRD. -/
def regsHrd : List RegDesc := [
  ⟨.hrd, 0x0, .warm, [(2, 1, .wo), (0, 2, .ro)]⟩,
  ⟨.hrd, 0x8, .powerOn, [(32, 32, .ro), (3, 1, .ro), (0, 3, .ro)]⟩,
  ⟨.hrd, 0x10, .warm, [(0, 64, .ro)]⟩,
  ⟨.hrd, 0x18, .warm, [(32, 32, .ro), (0, 32, .ro)]⟩,
  ⟨.hrd, 0x20, .warm, [(32, 32, .rc), (0, 32, .rc)]⟩,
  ⟨.hrd, 0x28, .warm, [(4, 1, .rw), (3, 1, .rw), (2, 1, .rw), (1, 1, .wo), (0, 1, .wo)]⟩,
  ⟨.hrd, 0x40, .warm, [(48, 16, .rc), (32, 16, .rc), (24, 8, .rc), (16, 8, .rc), (0, 16, .ro)]⟩,
  ⟨.hrd, 0x48, .warm, [(0, 64, .ro)]⟩,
  ⟨.hrd, 0x30, .warm, [(0, 64, .rw)]⟩,
  ⟨.hrd, 0x38, .warm, [(0, 64, .rw)]⟩]

/-- The registers of SAFE. -/
def regsSafe : List RegDesc := [
  ⟨.safe, 0x0, .warm, [(48, 16, .wo), (8, 2, .wo), (4, 1, .rw), (0, 1, .wo)]⟩,
  ⟨.safe, 0x8, .warm, [(11, 1, .ro), (10, 1, .ro), (9, 1, .ro), (4, 3, .ro), (0, 3, .ro)]⟩,
  ⟨.safe, 0x30, .warm, [(0, 19, .w1c)]⟩,
  ⟨.safe, 0x10, .warm, [(48, 16, .ro), (44, 4, .ro), (0, 40, .ro)]⟩,
  ⟨.safe, 0x18, .warm, [(48, 16, .ro), (44, 4, .ro), (0, 40, .ro)]⟩,
  ⟨.safe, 0x20, .warm, [(32, 32, .ro), (16, 16, .rc), (0, 16, .rc)]⟩,
  ⟨.safe, 0x28, .warm, [(32, 32, .ro), (16, 16, .rc), (0, 16, .rc)]⟩]

/-- The registers of HOST. -/
def regsHost : List RegDesc := [
  ⟨.host, 0x0, .powerOn, [(9, 1, .ro), (4, 5, .ro), (0, 4, .ro)]⟩,
  ⟨.host, 0x8, .warm, [(0, 52, .rw)]⟩,
  ⟨.host, 0x30, .warm, [(34, 1, .ro), (32, 2, .ro), (24, 7, .rw), (16, 5, .rw), (12, 4, .rw), (8, 4, .rw), (1, 1, .ro), (0, 1, .rw)]⟩,
  ⟨.host, 0x48, .powerOn, [(48, 16, .ro), (32, 1, .ro), (0, 32, .ro)]⟩,
  ⟨.host, 0x50, .warm, [(48, 16, .rc), (32, 16, .rc), (16, 16, .rc), (0, 16, .rc)]⟩,
  ⟨.host, 0x58, .warm, [(0, 17, .w1c)]⟩,
  ⟨.host, 0x10, .warm, [(0, 6, .rw)]⟩,
  ⟨.host, 0x18, .warm, [(12, 52, .rw)]⟩,
  ⟨.host, 0x20, .warm, [(12, 52, .rw)]⟩,
  ⟨.host, 0x28, .warm, [(16, 48, .rw)]⟩,
  ⟨.host, 0x38, .warm, [(0, 4, .w1c)]⟩,
  ⟨.host, 0x40, .warm, [(0, 4, .rw)]⟩]

/-- Table 24-5: every register but the windows IMG.REPORT and CELL.PARK_RECORD and the doorbells. -/
def regTable : List RegDesc :=
  regsGlb ++ regsImg ++ regsCell ++ regsGov ++ regsDisp ++ regsMem ++ regsIng ++ regsCam ++ regsWgl ++ regsTime ++ regsSeal ++ regsHrd ++ regsSafe ++ regsHost

end Sys2Proof.Machine
end

