-- ==== Sys2Proof/Config.lean ====
section
/-! DEFINITION. What one part fixes and the spec does not state: opaque constants without a body, so
that nothing in Lean can evaluate them. -/
namespace Sys2Proof.Config

/-- Free value number `n`: the source of every value and choice the spec leaves open at the moment
a command runs. The state's counter `free` gives the number. -/
opaque freeNat : Nat → Nat

/-- R207: row `r` of built-in function table `slot` (0 to 3), whose contents the spec leaves to Folavo's distribution. -/
opaque romRow : Nat → Nat → BitVec 128

/-- R235: the fused voltage in mV of an island at a frequency in MHz. -/
opaque fusedVolt : Nat → Nat → Nat

/-- Table 22-3 HOST.FW: version of the services firmware a factory bank holds. -/
opaque factoryFwVersion : Nat → BitVec 32

/-- R33, R26: the loader firmware version of the running services firmware. -/
opaque loaderFwVersion : BitVec 32 → Nat

/-- R497: Folavo's JEDEC manufacturer identity, bits [11:1] of IDCODE. -/
opaque jedecId : BitVec 11

end Sys2Proof.Config
end

