-- ==== Sys2Proof/Machine/Sparse.lean ====
section
/-! DEFINITION. Sparse maps as plain data: a list of (key, value) pairs, keys rising, no entry equal to the
value an unlisted key reads as. -/
namespace Sys2Proof.Machine

/-- A map from numbers, written down as the entries that differ from the default. -/
abbrev Sparse (α : Type) := List (Nat × α)

/-- Reads key `k`; an unlisted key reads as `d`. -/
def sget {α : Type} (d : α) : Sparse α → Nat → α
  | [], _ => d
  | (k', v) :: l, k => if k' = k then v else sget d l k

/-- Removes key `k`. -/
def sdel {α : Type} : Sparse α → Nat → Sparse α
  | [], _ => []
  | (k', v) :: l, k => if k' = k then sdel l k else (k', v) :: sdel l k

/-- Inserts an entry before the first larger key. -/
def sins {α : Type} : Sparse α → Nat → α → Sparse α
  | [], k, v => [(k, v)]
  | (k', v') :: l, k, v => if k < k' then (k, v) :: (k', v') :: l else (k', v') :: sins l k v

/-- Writes key `k`; writing the default removes the entry. -/
def sset {α : Type} [DecidableEq α] (d : α) (l : Sparse α) (k : Nat) (v : α) : Sparse α :=
  if v = d then sdel l k else sins (sdel l k) k v

/-- Changes the value at key `k`. -/
def smod {α : Type} [DecidableEq α] (d : α) (l : Sparse α) (k : Nat) (f : α → α) : Sparse α :=
  sset d l k (f (sget d l k))

/-- Keys strictly rising and no entry equal to the default. -/
def swf {α : Type} [DecidableEq α] (d : α) : Sparse α → Bool
  | [] => true
  | [(_, v)] => !decide (v = d)
  | (k, v) :: (k', v') :: l => !decide (v = d) && decide (k < k') && swf d ((k', v') :: l)

/-- `n` values from key `k`. -/
def sgetN {α : Type} (d : α) (l : Sparse α) (k : Nat) : Nat → List α
  | 0 => []
  | n + 1 => sget d l k :: sgetN d l (k + 1) n

/-- Values written from key `k` upwards. -/
def ssetN {α : Type} [DecidableEq α] (d : α) (l : Sparse α) (k : Nat) : List α → Sparse α
  | [] => l
  | v :: vs => ssetN d (sset d l k v) (k + 1) vs

/-- Every key from `k` for `n` keys set back to the default. -/
def sclear {α : Type} (l : Sparse α) (k n : Nat) : Sparse α :=
  l.filter fun e => e.1 < k || k + n ≤ e.1

end Sys2Proof.Machine
end

