-- ==== Sys2Proof/Machine/State.lean ====
section
/-! DEFINITION. The state of the device: every register, memory, queue, mode and pin the spec names, as plain
data. Large arrays are sparse maps: an entry that is not listed holds the reset value of its kind. -/
namespace Sys2Proof.Machine

/-! ### The cell (chapters 05 to 11, 13, 14) -/

/-- Table 06-1. -/
inductive SwarmSt where
  | free | active | parked | exiting
deriving DecidableEq, Repr

/-- R119: one hardware loop of a swarm. -/
structure Loop where
  start : Nat := 0
  stop : Nat := 0
  count : Nat := 0
  active : Bool := false
deriving DecidableEq, Repr

/-- R278: the fields of a region descriptor. -/
structure Desc where
  start : Nat := 0
  size : Nat := 0
  target : Nat := 0
  flags : Nat := 0
deriving DecidableEq, Repr

/-- R280: a full region register: its descriptor, the address it was read from, the owning context and its number among
that launch's registers: first the list registers, then the four on-demand registers. -/
structure RegionReg where
  desc : Desc
  addr : Nat
  ctx : Nat
  num : Nat
deriving DecidableEq, Repr

/-- R282: how the walk for a granule ended: the descriptor reached and its address, or a code and DETAIL. -/
structure WalkResult where
  granule : Nat
  desc : Option (Desc × Nat) := none
  code : Nat := 0
  detail : Nat := 0
deriving DecidableEq, Repr

/-- R281, R283: a lane or uniform memory instruction that is held at its pc: its word, the results of the walks done, and
for a load the lanes whose data is outstanding, the data that has come and the errors (lane, code, DETAIL). -/
structure MemWait where
  insn : Nat
  walking : Bool := true
  done : List WalkResult := []
  outstanding : List Nat := []
  data : Sparse Bytes := []
  errs : List (Nat × Nat × Nat) := []
deriving DecidableEq, Repr

/-- R125: a fault an asynchronous operation reported and its swarm has not yet parked for. -/
structure AsyncFault where
  token : Nat
  pc : Nat
  operand : Nat
  code : Nat
  detail : Nat
deriving DecidableEq, Repr

/-- R94, R164: an issued matrix operation or transfer: slot, token, issue offset, operand and the mode word at
issue. -/
structure AsyncOp where
  slot : Nat
  token : Nat
  pc : Nat
  operand : Nat
  mode : Word
  killed : Bool := false
deriving DecidableEq, Repr

/-- One swarm slot (R89, R111 to R121, R126, R133). `reissue` is the operation that RESUME.REISSUE issues again and
that has found no scoreboard entry yet; true for a matrix operation. Lane register N of lane j has key 32 × N + j. -/
structure Swarm where
  st : SwarmSt := .free
  blocks : Nat := 0
  v : Sparse (BitVec 32) := []
  u : Sparse Word := []
  p : Sparse (BitVec 32) := []
  up : BitVec 4 := 0
  loop0 : Loop := {}
  loop1 : Loop := {}
  mode : Word := 0
  shadow : Option Word := none
  tokens : Sparse Nat := []
  pc : Nat := 0
  inSlot : Bool := false
  slotNext : Nat := 0
  branchPc : Nat := 0
  branchTaken : Bool := false
  replay : Option (Bool × Nat) := none
  ctx : Option Nat := none
  adapt : Option Nat := none
  parkReq : Option Nat := none
  asyncFaults : List AsyncFault := []
  outChannel : Nat := 0
  outDevice : Nat := 0
  fetching : List Nat := []
  mem : Option MemWait := none
  reissue : Option (Bool × AsyncOp) := none
deriving DecidableEq, Repr

/-- R128, R129: what a park puts into its record besides the state of its swarm. -/
structure Park where
  code : Nat
  insn : Nat := 0
  lanes : Nat := 0
  addr : Nat := 0
  pending : Nat := 0
  detail : Nat := 0
  placement : Bool := false
  async : Option (Nat × Nat × Nat) := none
deriving DecidableEq, Repr

/-- R172, Table 19-5: the state of a live tile; `folded` holds the spill quires of a FAST fragment tile, which no descriptor
places in local memory. -/
structure Tile where
  acc : Nat
  shape : Nat
  fast : Bool
  frag : Bool
  slot : Nat
  mode : Word
  outliers : Nat := 0
  groups : Nat := 0
  reduced : Nat := 0
  ctx : Option Nat := none
  folded : Sparse (BitVec 648) := []
deriving DecidableEq, Repr

/-- R201, R211: an installed function table header. -/
structure TabSlot where
  header : Bytes := []
  base : Nat := 0
deriving DecidableEq, Repr

/-- R269: a message held in a receive ring: its slot and header word. -/
structure RingMsg where
  slot : Nat
  header : Word
deriving DecidableEq, Repr

/-- A table or scale-file command in progress (R211, R224): its OP, its slot, row or entry, and the bytes it installs. -/
structure CellCmd where
  op : Nat
  slot : Nat := 0
  row : Nat := 0
  data : Bytes := []
deriving DecidableEq, Repr

/-- A started operation: the fault its checks found, or the descriptor bytes it read; and for a matrix operation the
tables and the scale file as they were, with the commands in progress then (R212, R225). -/
structure AsyncRun where
  op : AsyncOp
  fault : Option (Nat × Nat) := none
  desc : Bytes := []
  tensors : List Bytes := []
  tables : Sparse TabSlot := []
  tableRam : Sparse (BitVec 128) := []
  tabCmd : Option CellCmd := none
  scale : Sparse Word := []
  scaleCmd : Option CellCmd := none
deriving DecidableEq, Repr

/-- R107, R108: a live replica range of a launch of context `ctx`. -/
structure Replica where
  ctx : Nat
  off : Nat
  len : Nat
deriving DecidableEq, Repr

/-- One physical cell (R88). -/
structure CellMem where
  lm : Sparse Byte := []
  lmErr : Sparse Nat := []
  acc : Sparse (BitVec 648) := []
  swarms : Sparse Swarm := []
  records : Sparse Word := []
  supervised : List (Nat × Nat × Bool) := []
  mxQueue : List AsyncOp := []
  mxRun : Option AsyncRun := none
  tiles : List Tile := []
  agQueue : List AsyncOp := []
  agRun : Option AsyncRun := none
  tables : Sparse TabSlot := []
  tableRam : Sparse (BitVec 128) := []
  tabCmd : Option CellCmd := none
  scale : Sparse Word := []
  clips : Sparse Nat := []
  raised : List Nat := []
  scaleCmd : Option CellCmd := none
  regions : List RegionReg := []
  ring : List RingMsg := []
  creditUsed : Sparse Nat := []
  replicas : List Replica := []
  scrubPos : Nat := 0
  scrubFound : Bool := false
deriving DecidableEq, Repr

/-! ### Packets on the mesh (chapter 13) -/

/-- Table 13-2: the endpoints of the mesh. -/
inductive Endpoint where
  | cell (id : Nat)
  | stack (n : Nat)
  | dispatcher (ch : Nat)
  | ingest (ch : Nat)
  | camera (ch : Nat)
  | quad (n : Nat)
  | services (ch : Nat)
deriving DecidableEq, Repr

/-- Table 13-4, and the forwards and announcements between the relays of one device. -/
inductive PktKind where
  | store | atomic | msg | memreq | ack | refuse | atomicRsp | memrsp | credit
  | chainForward | chainAnnounce
deriving DecidableEq, Repr

/-- What the sender keeps of a request until it is settled (R101, R105, R283): the slot, the lane, the fence scope
(1 channel, 2 device), and for an atomic the lanes that fetch with the operand combined below them, their register and in
`use` the number of registers less one; `use` is 1 for a store to HBM or the host. -/
structure Origin where
  slot : Nat := 0
  lane : Nat := 0
  scope : Nat := 0
  fetch : List (Nat × Option Nat) := []
  reg : Nat := 0
  use : Nat := 0
deriving DecidableEq, Repr

/-- A packet in flight (Table 13-3). -/
structure Packet where
  kind : PktKind
  src : Endpoint
  dst : Endpoint
  arg : Word := 0
  payload : Bytes := []
  route : Option Nat := none
  origin : Origin := {}
  reqKind : PktKind := .msg
  waiting : Bool := false
  wasOpen : Bool := true
deriving DecidableEq, Repr

/-! ### Loader, power and pins (chapters 02, 23, 25) -/

/-- One section of a part that is applied: TYPE, SEQ and payload. -/
structure Section where
  type : Nat
  payload : Bytes
deriving DecidableEq, Repr

/-- A load in progress (R21, R24, R33, R43): the bytes pass 1 has read, the source (0 HBM, k + 1 flash slot k) with its address
and length in HBM, STATE before the load, and the tick its drain began; `boot`: the boot flow asked for it. -/
structure Load where
  image : Bytes := []
  source : Nat
  addr : Nat := 0
  size : Nat := 0
  verifyOnly : Bool
  prior : Nat
  channels : Nat := 0
  drainFrom : Nat := 0
  boot : Bool := false
deriving DecidableEq, Repr

/-- The loader, the running image and the binding memory. `failedRow` gives, by channel × 16 + column, the failed row of the last binding; `bound` and `everBound` are channel masks: a binding in force, and one made since power-on.
`memberGlobal` is the global part digest of R368; `degraded` gives cause and tick for a channel left unconfigured under R37, and
`absent` the tick at which a stack became absent. -/
structure Img where
  load : Option Load := none
  globalDigest : Bytes := []
  channelDigest : Sparse Bytes := []
  imageDigest : Bytes := []
  memberDigest : Bytes := []
  memberGlobal : Bytes := []
  degraded : Sparse (Nat × Nat) := []
  absent : Sparse Nat := []
  globals : List Section := []
  parts : Sparse (List Section) := []
  roles : List Nat := [0, 0, 0, 0]
  failed : List (Nat × Nat × Nat) := []
  retired : List (Nat × Nat × Nat × Nat) := []
  failedRow : Sparse Nat := []
  bound : Nat := 0
  everBound : Nat := 0
  report : Bytes := []
deriving DecidableEq, Repr

/-- R31, R32: the fuses. -/
structure Fuses where
  sigRequired : Bool := false
  keyValid : BitVec 4 := 0
  keyRevoked : BitVec 4 := 0
  keyHash : Sparse Bytes := []
deriving DecidableEq, Repr

/-- One firmware bank (R452, R473); no version where it holds the factory's package. -/
structure FwBank where
  version : Option (BitVec 32) := none
  good : Bool := true
deriving DecidableEq, Repr

/-- TAP instructions (R497). -/
inductive TapInsn where
  | bypass | idcode | sample | extest | clamp | highz
deriving DecidableEq, Repr

/-- R497: what the TAP shifts out: nothing yet; the one bit of BYPASS; the identification code; or the boundary-scan chain, of
which the model shows whether CURL_N and FAULT_N read asserted. -/
inductive TapOut where
  | nothing | bit
  | code (v : BitVec 32)
  | chain (curlN faultN : Bool)
deriving DecidableEq, Repr

/-- Power, reset, straps, regulator, management bus and JTAG. `activeBank` is the bank that runs and `bootBank` the one that is to
run; `warmBoot`: the boot flow in progress follows a warm reset. -/
structure Power where
  porst : Bool := true
  railFault : Bool := false
  bootSel : Bool := false
  mgmtAddr : BitVec 2 := 0
  vrAddr : BitVec 2 := 0
  flashSlotMiB : Nat := 0
  flash : Sparse Byte := []
  flashBad : List Nat := []
  banks : Sparse FwBank := []
  activeBank : Nat := 0
  bootBank : Nat := 0
  updated : Option Nat := none
  hbmDone : Bool := false
  bistDone : Bool := false
  warmBoot : Bool := false
  fuses : Fuses := {}
  resetChannel : Option Nat := none
  resetCell : Option Nat := none
  faultN : Bool := false
  loaded : Bool := false
  watchdog : Bool := false
  vrFault : Bool := false
  vrCommand : Nat := 850
  vrAgreed : Option Nat := none
  vrBad : Nat := 0
  vrOffSince : Option Nat := none
  vrReadVout : Nat := 0
  vrReadIout : Nat := 0
  vrModeRead : Bool := false
  vrNextIout : Bool := false
  mgmtOut : Bytes := []
  mgmtAck : Bool := false
  tap : TapInsn := .idcode
  tapOut : TapOut := .nothing
  tapHold : Bool := false
deriving DecidableEq, Repr

/-- The device is out of power-on reset. -/
def Power.running (p : Power) : Bool := !p.porst

/-! ### Dispatcher (chapter 19) and chain relays (chapter 17) -/

/-- R446, R448: the submission a launch came from. -/
structure HostRef where
  queue : Nat
  id : Nat
deriving DecidableEq, Repr

/-- A queued trigger, or the trigger of a context: head entry, kind, event, slot, T, deadline tick and what was fixed
at its acceptance (R377, R399). -/
structure Trigger where
  head : Nat := 0
  kind : Nat := 0
  event : Nat := 0
  slot : Nat := 15
  tick : Nat := 0
  deadline : Option Nat := none
  frameFlags : Nat := 0
  prefixBytes : Bytes := []
  input : Bytes := []
  hostRef : Option HostRef := none
  accepted : Nat := 0
deriving DecidableEq, Repr

/-- Where a context's launch stands (R376, R380, R385, R387); `parking`: park requests of a preemption are out. -/
inductive CtxPhase where
  | dead | waiting | reserved | running | parking | saving | saved | restoring
deriving DecidableEq, Repr

/-- A context (R376): its trigger, launch, result pieces and outcome; `slotDone`: its frame slot has been released;
`folded`: for a saved context, the spill quires of fragment tiles by cell and ACC, which the save area does not hold. -/
structure Ctx where
  phase : CtxPhase := .dead
  trig : Trigger := {}
  entry : Nat := 0
  modes : List Word := []
  mode : Word := 0
  adapt : Option Nat := none
  beginTick : Nat := 0
  pieces : Sparse Bytes := []
  lastPiece : Option Nat := none
  ready : Option Nat := none
  resultBytes : Bytes := []
  outLeft : Bool := false
  aborted : Bool := false
  faultCode : Nat := 0
  events : Nat := 0
  missing : Nat := 0
  slotDone : Bool := false
  folded : List (Nat × Nat × Sparse (BitVec 648)) := []
deriving DecidableEq, Repr

/-- R403, R426: a real result that waits for its comparison or, once released, for its seal; `mark` is 1 once its deadline has
sent the fallback, `dead` where the comparison has withheld it. -/
structure SealJob where
  ctx : Nat
  trig : Trigger
  modes : List Word
  events : Nat
  mark : Nat
  result : Bytes
  dead : Bool := false
deriving DecidableEq, Repr

/-- R448: a launch of the host whose completion is still owed: what its outcome has fixed so far. -/
structure HostDone where
  ref : HostRef
  ctx : Nat
  event : Nat
  ended : Bool := false
  decided : Bool := false
  outPending : Bool := false
  status : Nat := 0
  mark : Nat := 0
  events : Nat := 0
  seal8 : Bytes := []
  output : Bool := false
deriving DecidableEq, Repr

/-- R379: an arm slot. -/
structure ArmSlot where
  armed : Bool := false
  count : Nat := 0
  entry : Nat := 0
  pastBegin : Bool := false
deriving DecidableEq, Repr

/-- R395: the latency record of one head entry. -/
structure Latency where
  maxLatency : Nat := 0
  overBound : Nat := 0
deriving DecidableEq, Repr

/-- R348 to R350: one instance of a chain at a relay: its chain entry, its number, its timeout tick once it is armed, the
records and pieces delivered to its cell, the records that have come from its cell, and whether they were forwarded. -/
structure ChainInst where
  entry : Nat
  inst : Nat
  timeout : Option Nat := none
  inCount : Nat := 0
  inPieces : Nat := 0
  inDone : Bool := false
  outBytes : Bytes := []
  outNext : Nat := 0
  forwarded : Bool := false
deriving DecidableEq, Repr

/-- R351: an instance in the completion window of its relay; `discarded`: its station output has been counted. -/
structure ChainDone where
  entry : Nat
  inst : Nat
  incomplete : Bool := false
  missing : Nat := 0
  discarded : Bool := false
deriving DecidableEq, Repr

/-- One dispatcher with its bridge ends, region commands and chain relays. -/
structure Disp where
  ctxs : Sparse Ctx := []
  queue : List Trigger := []
  arms : Sparse ArmSlot := []
  latency : Sparse Latency := []
  sealJobs : List SealJob := []
  waitMatch : List SealJob := []
  hostDone : List HostDone := []
  coupled : List Trigger := []
  widths : List (Nat × Nat × Nat) := []
  syncMode : Bool := false
  syncAddr : Nat := 0
  syncLeft : List Nat := []
  syncWalks : List (Nat × Nat × WalkResult) := []
  cancelled : List Nat := []
  profile : Nat := 0
  announced : List Nat := []
  chains : List ChainInst := []
  chainClosed : List ChainDone := []
  drain : Bool := false
deriving DecidableEq, Repr

/-! ### Seal engine and Hoard recorder (chapter 20) -/

/-- R402: the input digest of a handoff. -/
structure Handoff where
  ch : Nat
  event : Nat
  digest : Bytes
deriving DecidableEq, Repr

/-- The Seal engine. `weights` lists the digests that are not the empty string's; a handoff list is newest first. -/
structure SealEngine where
  weights : Sparse Bytes := []
  command : Option (Nat × Nat × Nat) := none
  ingest : List Handoff := []
  camera : List Handoff := []
deriving DecidableEq, Repr

/-- The Hoard recorder and replay (R404 to R412). STATE, SEQ, HEAD and TAIL stand in the registers. `entries` are the
whole entries of the ring, oldest first, as (offset, length) in bytes; `lostRun` is the run of lost entries not yet
explained: first and last SEQ, first and last tick. A replay keeps the fragments of a frame as channel, event, lane, copy and
digest; camera frames as channel, F, context and bytes; `gapPorts`, the cameras that no group with HISTORY_INVALID has reached
since a gap, and `unverifiable` their channels and groups; `badBanks`, 16 × channel + bank, whose recorded bytes failed their
digest; `profiles`, by channel, the recorded profile plus 1. -/
structure Hoard where
  entries : List (Nat × Nat) := []
  staging : Nat := 0
  lostRun : Option (Nat × Nat × Nat × Nat) := none
  source : Bool := false
  base : Nat := 0
  len : Nat := 0
  pos : Nat := 0
  stream : Bytes := []
  consumed : List Nat := []
  gapPorts : List Nat := []
  frags : List (Nat × Nat × Nat × Bytes × Bytes) := []
  frames : List (Nat × Nat × Nat × Bytes) := []
  badBanks : List Nat := []
  profiles : Sparse Nat := []
  unverifiable : List (Nat × Nat) := []
  bankDigests : Sparse Bytes := []
deriving DecidableEq, Repr

/-! ### Bristle (chapter 21) -/

/-- Table 21-3. -/
inductive SafeSt where
  | none | disarmed | arming | armed | simplex | curled
deriving DecidableEq, Repr

/-- R423: a delay-register entry, with the message it withholds. -/
structure DelayEntry where
  cls : Nat
  ch : Nat
  outcome : Nat
  seq : Nat
  key : Bytes
  fault : Nat
  crc : Nat
  input : Bytes
  compare : Bytes
  arrived : Nat
  ctx : Nat := 0
  message : Bytes := []
deriving DecidableEq, Repr

/-- A safety function. Side 0 is the leader or the local device, side 1 the follower or the partner; each register has
one copy per comparator instance. `prevSeq` is the SIDE_SEQ of the partner's last RECORD since the partner was lost,
`selfTest` that the start-up self-test has run. -/
structure SafeFn where
  st : SafeSt := .none
  armStart : Nat := 0
  fromSimplex : Bool := false
  partnerArm : Option Bytes := none
  partnerArmAt : Nat := 0
  lastMirror : Nat := 0
  partnerSeen : Bool := false
  simplexAt : Nat := 0
  seq0 : Nat := 0
  seq1 : Nat := 0
  prevSeq : Option Nat := none
  local0 : List DelayEntry := []
  local1 : List DelayEntry := []
  remote0 : List DelayEntry := []
  remote1 : List DelayEntry := []
  egress : List (Bool × DelayEntry) := []
  selfTest : Bool := false
  hostCount : Sparse Nat := []
deriving DecidableEq, Repr

/-! ### Host interface (chapter 22) -/

/-- A submission taken and not completed. `stage`: 0 not begun, 1 under way, 2 its bytes are moved or its outcome is fixed, 3 its
trigger is made; `pos` counts the bytes moved, `input` holds bytes that came; `lost`: its queue was disabled since (R442). -/
structure Job where
  id : Nat
  entry : Bytes
  stage : Nat := 0
  status : Nat := 0
  input : Bytes := []
  pos : Nat := 0
  lost : Bool := false
deriving DecidableEq, Repr

/-- R446: an identity in a completion window, with its stored completion once it has one, and the duplicates waiting. -/
structure WinEntry where
  id : Nat
  completion : Option Bytes := none
  dups : Nat := 0
deriving DecidableEq, Repr

/-- One queue (R442 to R448). -/
structure Queue where
  enabled : Bool := false
  error : Bool := false
  sqBase : Nat := 0
  cqBase : Nat := 0
  drBase : Nat := 0
  sqLog : Nat := 1
  cqLog : Nat := 1
  drLog : Nat := 16
  vector : Nat := 0
  sqTail : Nat := 0
  sqHead : Nat := 0
  cqHead : Nat := 0
  cqTail : Nat := 0
  cqPhase : Bool := true
  drHead : Nat := 0
  drTail : Nat := 0
  drPhase : Bool := true
  drSeq : Nat := 0
  armed : Bool := false
  enableBit : Bool := false
  jobs : List Job := []
  window : List WinEntry := []
deriving DecidableEq, Repr

/-- A record in host staging (R454); `ref` names the channel, queue and launch id whose completion follows it,
`mack` the quad, SRC_DEV, STREAM and MSG_ID of the Waggle message that it performs. -/
structure Staged where
  queue : Nat
  kind : Nat
  ch : Nat
  srcKind : Nat
  src : Nat
  tag : Nat
  user : Nat
  body : Bytes
  reserve : Bool := false
  ref : Option (Nat × Nat × Nat) := none
  mack : Option (Nat × Nat × Nat × Nat) := none
deriving DecidableEq, Repr

/-- A read of host memory that waits for its completion (R458): bus address, length and what it is for: `use` 0 a packet of
the mesh, 1 an SQ entry, 2 the input or the bytes of submission `job` of a queue. -/
structure HostRead where
  addr : Nat
  len : Nat
  queue : Nat := 0
  use : Nat := 0
  job : Nat := 0
  src : Endpoint := .services 0
  origin : Origin := {}
deriving DecidableEq, Repr

/-- How an access of the host ends. -/
inductive Resp where
  | none | ok | unsupported | poisoned | dropped
deriving DecidableEq, Repr

/-- The host interface. `respData` and `resp` are what the last access of the host got; `mem` is what the device has written to host memory. -/
structure HostIf where
  queues : Sparse Queue := []
  mem : Sparse Byte := []
  reads : List HostRead := []
  staged : List Staged := []
  waitingOut : List Staged := []
  bar2Log : Nat := 36
  msixMask : List Nat := List.range 68
  msixPending : List Nat := []
  msixSignalled : Sparse Nat := []
  respData : Bytes := []
  resp : Resp := .none
  counterLatch : Nat := 0
deriving DecidableEq, Repr

/-! ### Islands and the governor (chapter 12) -/

/-- One clock island (R234, R235, R246). -/
structure Island where
  freq : Nat := 800
  volt : Nat := 0
  floor : Nat := 0
  ceil : Nat := 0
  set : Bool := false
  stopped : Bool := false
  tripped : Bool := false
  droops : Nat := 0
  lastDroops : Nat := 0
  breaches : Nat := 0
  temp : Nat := 0
  pending : Option Nat := none
deriving DecidableEq, Repr

/-- The governor. `profile` is the profile whose limit and cap it enforces; `pendingProfile` is what each dispatcher has received
and not applied, plus 1. -/
structure Gov where
  profile : Nat := 0
  islands : Sparse Island := []
  failed : Bool := false
  trip : Bool := false
  periods : Nat := 0
  pendingProfile : Sparse Nat := []
  vddCore : Nat := 850
  powerHist : List Nat := []
  powerNow : Nat := 0
  junction : Nat := 0
  hbmTemp : Nat := 0
  hot : Bool := false
deriving DecidableEq, Repr

/-! ### Global time (chapter 18) -/

/-- The time block. The counter stands in `State.counter`; SOURCE, GROUP_STATE, OFFSET_D, ARM, ROSTER and the fields of
TIME.GROUP stand in the registers. `slew` is what remains of a slew and `slewTick` the ticks since its start or its last
correction; `armTick` the tick of the epoch arm; `joins` the JOINs taken and `held` those that wait for this device's own
offset; `echoes` the last DELAY_REQ of each downstream stream as quad, STREAM, T_TX and T_RX; `good` the run of offsets of at
most 2 ticks since the last TIME_SKEW; `since` the tick of application or retry. -/
structure Time where
  slew : Int := 0
  slewTick : Nat := 0
  armTick : Nat := 0
  stepAt : Option Nat := none
  stepJump : Int := 0
  level : Nat := 0
  joins : List Nat := []
  held : List Bytes := []
  echoes : List (Nat × Nat × Nat × Nat) := []
  lastD : Int := 0
  firstDone : Bool := false
  measured : Bool := false
  skewed : Bool := false
  good : Nat := 0
  lastSync : Nat := 0
  lost : Bool := false
  lastBeacon : Nat := 0
  since : Nat := 0
deriving DecidableEq, Repr

/-! ### Front-end ingest (chapter 15) -/

/-- Table 15-1. -/
inductive FeLane where
  | down | locking | up
deriving DecidableEq, Repr

/-- R296, R297, R302, R305, R409: what ingest does with a copy. `excess` is an overflowed copy, `later` a later copy of an
event that has overflowed, `lost` a copy of an event that cannot be held, `resync` a copy held during a
resynchronisation. -/
inductive CopyDisp where
  | unknown | dup | late | drained | ignored | held | deliver | excess | later | lost | stopped | resync
deriving DecidableEq, Repr

/-- A copy: its lane, the tick of its SOF, its bytes, its fragment-table index, whether blocks of it still come, and the
tick at which it was found intact. -/
structure Copy where
  lane : Nat
  tick : Nat
  raw : Bytes
  disp : CopyDisp
  frag : Nat := 0
  receiving : Bool := true
  intact : Option Nat := none
deriving DecidableEq, Repr

/-- R298, R299. -/
inductive FrameStage where
  | pending | opened | closed
deriving DecidableEq, Repr

/-- The outcome of an expected fragment: an accepted copy with its LENGTH, the digest of the copy and, while they are not
written, its payload bytes. -/
inductive FragSt where
  | missing
  | dropped
  | accepted (len : Nat) (digest payload : Bytes)
deriving DecidableEq, Repr

/-- R298: a held event. `lag`: bytes of it stand in staging though it has a slot by now; `stuck`: a write of it waits at a
stopped cell; `ready`: the tick at which it closed with every byte written; `shift`: the jumps of
the counter since its tick (R359). -/
structure FrameEv where
  event : Nat
  tick : Nat
  slot : Option Nat
  stage : FrameStage := .pending
  flags : Nat := 0
  overrun : Bool := false
  frags : Sparse FragSt := []
  lag : Bool := false
  stuck : Bool := false
  closedAt : Nat := 0
  ready : Option Nat := none
  shift : Int := 0
deriving DecidableEq, Repr

/-- Ingest of one channel. `slots` lists the busy frame slots; `window` the identities accepted most recently, newest
first; `mute` the lanes that discard data up to the next SOF; `lost` the events handed over with NO_FRAME. The closed mark
stands in ING.MARK. -/
structure Ing where
  slots : List Nat := []
  lanes : Sparse FeLane := []
  mute : List Nat := []
  copies : List Copy := []
  events : List FrameEv := []
  window : List Nat := []
  lost : List Nat := []
  frameSeq : Nat := 0
deriving DecidableEq, Repr

/-! ### Camera (chapter 16) -/

/-- R310, R312, R313: a context frame in its group: context, frame number, tick of its start, raw buffer, lines
written, whether the rest of it is dropped, its flags, its embedded data, whether it has ended, and the jumps of the counter
since its start. -/
structure CamFrame where
  ctx : Nat
  num : Nat
  start : Nat
  buf : Nat
  lines : Nat := 0
  dropping : Bool := false
  flags : Nat := 0
  emb : Bytes := []
  ended : Bool := false
  shift : Int := 0
deriving DecidableEq, Repr

/-- R310, R315, R322: a group that is not handed over. `banks` and `reqId` are those of its opening; `stats` and `parts` are
what its processing leaves for its statistics entry and its record; `stuck`: a write of it waits at a stopped cell. -/
structure CamGroup where
  f : Nat
  num : Nat
  tick : Nat
  frames : List CamFrame := []
  flags : Nat := 0
  banks : List Nat := [0, 0, 0, 0]
  reqId : Nat := 0
  closed : Bool := false
  done : Bool := false
  slot : Option Nat := none
  stuck : Bool := false
  stats : Bytes := []
  parts : Bytes := []
  histOk : Bool := false
  shift : Int := 0
deriving DecidableEq, Repr

/-- R325: a request taken: its ring index, entry, the group and tick at which it was taken, its effective frame, whether it
came too late, its acknowledged writes, the writes not finished, and whether it has been applied. -/
structure CamReq where
  index : Nat
  entry : Bytes
  taken : Nat
  tick : Nat
  eff : Nat
  late : Bool := false
  ack : Nat := 0
  left : Nat := 0
  failed : Bool := false
  applied : Bool := false
deriving DecidableEq, Repr

/-- R325: a sensor write issued and not completed: its request, its number in the entry and the tick its window starts. -/
structure SensorWrite where
  index : Nat
  write : Nat
  since : Nat
deriving DecidableEq, Repr

/-- The camera port and pipeline of one channel. `slots` lists the busy frame slots, `recent` the numbers of the last four
closed groups, `hist` the valid histories; `means` and `verdicts` are the flicker detector's. FRAME, SETTINGS_KNOWN and
CONSUMER stand in the registers. -/
structure Cam where
  slots : List Nat := []
  nextF : Nat := 0
  groups : List CamGroup := []
  recent : List Nat := []
  banks : List Nat := [0, 0, 0, 0]
  reqs : List CamReq := []
  bus : List SensorWrite := []
  quiet : Nat := 0
  frameSeq : Nat := 0
  hist : List Nat := []
  means : Option (List Nat) := none
  verdicts : List Nat := []
  prevDigest : Bytes := []
deriving DecidableEq, Repr

/-! ### Waggle (chapter 17) -/

/-- R338: a MSG flit held for replay: SEQ, virtual lane and payload; `stamp`: T_TX of a BEACON is written into it at every
transmission (R361), `mine`: it is the DELAY_REQ of this device. -/
structure HeldFlit where
  seq : Nat
  vl : Nat
  payload : Bytes
  stamp : Bool := false
  mine : Bool := false
deriving DecidableEq, Repr

/-- R342, R344: a message of the transmit store, kept until its MACK: stream, MSG_ID, virtual lane, header and payload,
the flits not yet sent for the first time, and whether it takes RESERVE space. A MACK is kept until it is sent. -/
structure TxMsg where
  stream : Nat
  id : Nat
  vl : Nat
  bytes : Bytes
  left : List Bytes
  reserve : Bool := false
deriving DecidableEq, Repr

/-- A complete message received and not yet dispositioned: virtual lane, bytes, the tick of its last flit, and whether the
input tap's copy of it is lost (R419). -/
structure RxMsg where
  vl : Nat
  bytes : Bytes
  tick : Nat
  tapBad : Bool := false
deriving DecidableEq, Repr

/-- R343: the completion window of one (SRC_DEV, STREAM): (MSG_ID, STATUS), oldest first. -/
structure CplWin where
  src : Nat
  stream : Nat
  entries : List (Nat × Nat)
deriving DecidableEq, Repr

/-- R343: a request whose execution has not finished: its identity, the packets still out and the first cause. -/
structure RxRun where
  src : Nat
  stream : Nat
  id : Nat
  left : Nat
  status : Nat := 0
deriving DecidableEq, Repr

/-- One Waggle port. The link state, the active and the retired lanes stand in WGL.STATUS. Lists by virtual lane
have four elements. `reqSent` is T_TX of the last DELAY_REQ sent (R361), `phase` is the stage of a RETRAIN as STATE would show it;
`marks` counts the markers of each lane, `masks` holds lane, MARK_COUNT and ACTIVE_MASK of each lane's last good portion,
`laneErrs` lane, marker number and errors; `limitedAt` the marker of each lane's last WGL_LANE_LIMIT, plus 1;
`tapBad` the virtual lanes whose partial message the input tap has lost. -/
structure Wgl where
  entered : Nat := 0
  trained : Nat := 0
  fresh : Bool := true
  txSeq : Nat := 0
  replay : List HeldFlit := []
  replays : Nat := 0
  progress : Nat := 0
  rxSeq : Nat := 0
  nakAt : Option Nat := none
  sent : List Nat := [0, 0, 0, 0]
  peerFreed : List Nat := [0, 0, 0, 0]
  freed : List Nat := [0, 0, 0, 0]
  part : Sparse Bytes := []
  inbox : List RxMsg := []
  tx : List TxMsg := []
  nextId : Sparse Nat := []
  building : List (Nat × Nat × Bytes) := []
  windows : List CplWin := []
  running : List RxRun := []
  phase : Nat := 0
  laneErrs : List (Nat × Nat × Nat) := []
  limitedAt : Sparse Nat := []
  marks : Sparse Nat := []
  masks : List (Nat × Nat × Nat) := []
  tapBad : List Nat := []
  retireReq : Nat := 0
  downAt : Option Nat := none
  reqSent : Option Nat := none
  wire : List Bytes := []
deriving DecidableEq, Repr


/-! ### The whole device -/

/-- The device. `pending` is the queue of commands waiting, first in first out; `free` counts the free values used. -/
structure State where
  pending : List Instr := []
  free : Nat := 0
  counter : Word := 0
  regs : Sparse Word := []
  cells : Sparse CellMem := []
  hbm : Sparse Byte := []
  hbmErr : Sparse Nat := []
  pkts : List Packet := []
  pwr : Power := {}
  img : Img := {}
  gov : Gov := {}
  time : Time := {}
  ing : Sparse Ing := []
  cam : Sparse Cam := []
  wgl : Sparse Wgl := []
  disp : Sparse Disp := []
  sealer : SealEngine := {}
  hrd : Hoard := {}
  safe : Sparse SafeFn := []
  host : HostIf := {}
  stackScrub : Sparse (Nat × Bool) := []
deriving DecidableEq, Repr

/-- What stops the machine with a fault. -/
inductive Fault where
  /-- Raised by no meaning: a command whose byte string does not have the length its interface carries (WellFormed) is
  read as far as it goes. The constructor is kept so that the type has an element (log entry 108). Safe: no step ends in
  it. -/
  | illFormed (mnemonic : String)
deriving DecidableEq, Repr

/-- Why a command has no meaning. -/
inductive Refusal where
  /-- Raised by `exec`'s arm of a command that is not modelled yet. Safe: the run stops. -/
  | notModelled (mnemonic : String)
deriving DecidableEq, Repr

/-- R467, R477, Table 23-6: the device in power-on reset. The registers listed are those whose reset value is not
zero and that no other field of the state gives: IMG.STATUS (UNCONFIGURED), IMG.PCTL, GOV.LIMITS, GOV.POWER. -/
def State.reset : State :=
  { regs := [(0x10010, 0x0000_03E8_0000_5A64), (0x10028, 0x0000_0384_0000_0000), (0x70018, 0xF00), (0x70058, 100000)] }

end Sys2Proof.Machine
end

