-- ==== Sys2Proof/Machine/Ops.lean ====
section
/-! DEFINITION. Named operations over the registers, the cells and the memories. -/
namespace Sys2Proof.Machine

/-! ### Registers -/

/-- The stored bits of the register at a BAR0 offset. -/
def State.reg (s : State) (off : Nat) : Nat := (sget 0 s.regs off).toNat

/-- The value of a stored field. -/
def State.rd (s : State) (f : RegField) : Nat := bits (s.reg f.off) f.lo f.len

/-- Writes a stored field. -/
def State.wr (s : State) (f : RegField) (v : Nat) : State :=
  { s with regs := sset 0 s.regs f.off (BitVec.ofNat 64 (setBits (s.reg f.off) f.lo f.len v)) }

/-- Adds to a counter that stops at its field's largest value. -/
def State.bump (s : State) (f : RegField) (n : Nat := 1) : State :=
  s.wr f (min (2 ^ f.len - 1) (s.rd f + n))

/-- Adds to a counter that wraps. -/
def State.incr (s : State) (f : RegField) (n : Nat := 1) : State := s.wr f (s.rd f + n)

/-- Sets bit `i` of a field. -/
def State.setBit (s : State) (f : RegField) (i : Nat) : State :=
  s.wr f ((s.rd f) ||| 2 ^ i)

/-- Clears bit `i` of a field. -/
def State.clrBit (s : State) (f : RegField) (i : Nat) : State :=
  if bitAt (s.rd f) i then s.wr f (s.rd f - 2 ^ i) else s

/-- Raises a field to at least `v`. -/
def State.high (s : State) (f : RegField) (v : Nat) : State :=
  if s.rd f < v then s.wr f v else s

/-- The global counter as a number (R355). -/
def State.now (s : State) : Nat := s.counter.toNat

/-- A free value: the next number of the stream no one can see into (log entry 5). -/
def State.fresh (s : State) : Nat × State := (Config.freeNat s.free, { s with free := s.free + 1 })

/-! ### Interrupt causes and events -/

/-- R459: signals an MSI-X vector, or sets its Pending Bit while it is masked. -/
def State.signal (s : State) (v : Nat) : State :=
  if s.host.msixMask.contains v then
    if s.host.msixPending.contains v then s
    else { s with host := { s.host with msixPending := v :: s.host.msixPending } }
  else { s with host := { s.host with msixSignalled := smod 0 s.host.msixSignalled v (· + 1) } }

/-- R459: sets bit `b` of HOST.IRQ_CAUSE; its vector 64 + b signals when the bit goes from 0 to 1 unmasked. -/
def State.irq (s : State) (b : Nat) : State :=
  if bitAt (s.rd Reg.hostIrqCauseBits) b then s else
  let s := s.setBit Reg.hostIrqCauseBits b
  if bitAt (s.rd Reg.hostIrqMaskBits) b then s else s.signal (64 + b)

/-- R459: the cause bit that a code sets. -/
def irqOf (code : Nat) : Option Nat :=
  if [0x900C, 0x9009, 0x900A, 0x900E, 0x900D].contains code then some 1
  else if [0xC003, 0xC004, 0xC005, 0xC008, 0x3008, 0xA030, 0xA031].contains code then some 2
  else if [0xB00A, 0xB008, 0xB009].contains code then some 3
  else none

/-- The event bit that a code sets in its block's EVENTS field; `n` is the block's instance. -/
def evtField (code n : Nat) : Option (RegField × Nat) :=
  let c := code / 0x1000
  let k := code % 0x1000
  if c == 5 && 1 ≤ k && k ≤ 13 then some (Reg.ingEventsEvents n, k - 1)
  else if c == 5 && 0x20 ≤ k && k ≤ 0x2F then some (Reg.camEventsEvents n, k - 0x20)
  else if c == 6 && 1 ≤ k && k ≤ 20 then some (Reg.wglEventsEvents n, k - 1)
  else if c == 7 && 1 ≤ k && k ≤ 11 then some (Reg.timeEventsEvents, k - 1)
  else if code == 0xA021 then some (Reg.sealWctlErr, 0)
  else if code == 0xA022 then some (Reg.sealWctlUnbound, 0)
  else if c == 8 && 1 ≤ k && k ≤ 12 then some (Reg.dispEventsEvents n, k - 1)
  else if c == 9 && 1 ≤ k && k ≤ 19 then some (Reg.safeEventsEvents, k - 1)
  else if c == 11 && 1 ≤ k && k ≤ 17 then some (Reg.hostEventsEvents, k - 1)
  else if c == 12 && 1 ≤ k && k ≤ 11 then some (Reg.govStatusEvents, k - 1)
  else if c == 12 && 0x20 ≤ k && k ≤ 0x26 then some (Reg.glbResetStatusEvents, k - 0x20)
  else none

/-- Raises a code as an event of block instance `n`: its EVENTS bit and its interrupt cause. -/
def State.evt (s : State) (code n : Nat) : State :=
  let s := match evtField code n with
    | some (f, b) => s.setBit f b
    | none => s
  match irqOf code with
  | some b => s.irq b
  | none => s

/-! ### Cells: ids and binding -/

/-- Channel of a cell id. -/
def chOf (id : Nat) : Nat := bits id 8 2

/-- Row of a cell id. -/
def rowOf (id : Nat) : Nat := bits id 4 4

/-- Column of a cell id. -/
def colOf (id : Nat) : Nat := bits id 0 4

/-- The cell id of a channel, row and column. -/
def cellId (ch row col : Nat) : Nat := ch * 256 + row * 16 + col

/-- An id that names a logical cell: row and column 0 to 11. -/
def isLogical (id : Nat) : Bool := id < 1024 && rowOf id ≤ 11 && colOf id ≤ 11

/-- An id that names a physical cell: row 0 to 12, column 0 to 11. -/
def isPhysical (id : Nat) : Bool := id < 1024 && rowOf id ≤ 12 && colOf id ≤ 11

/-- Every logical cell of a channel. -/
def cellsOf (ch : Nat) : List Nat :=
  (List.range 12).flatMap fun r => (List.range 12).map fun c => cellId ch r c

/-- Every physical cell of a channel. -/
def physOf (ch : Nat) : List Nat :=
  (List.range 13).flatMap fun r => (List.range 12).map fun c => cellId ch r c

/-- A binding is in force for the channel (R36). -/
def State.isBound (s : State) (ch : Nat) : Bool := bitAt s.img.bound ch

/-- R36: the failed row of a channel's column; 12 where none failed. -/
def State.failedRowOf (s : State) (ch col : Nat) : Nat := sget 12 s.img.failedRow (ch * 16 + col)

/-- R36: the physical cell bound to a logical cell; itself where no binding is in force. -/
def State.phys (s : State) (id : Nat) : Nat :=
  if s.isBound (chOf id) && s.failedRowOf (chOf id) (colOf id) ≤ rowOf id then id + 16 else id

/-- The channel is configured (IMG.STATUS.CONFIGURED). -/
def State.configured (s : State) (ch : Nat) : Bool := bitAt (s.rd Reg.imgStatusConfigured) ch

/-! ### Cells and swarms -/

/-- The cell bound to a logical id. -/
def State.cell (s : State) (id : Nat) : CellMem := sget {} s.cells (s.phys id)

/-- Changes the cell bound to a logical id. -/
def State.modCell (s : State) (id : Nat) (f : CellMem → CellMem) : State :=
  { s with cells := smod {} s.cells (s.phys id) f }

/-- A swarm slot of a cell. -/
def CellMem.swarm (c : CellMem) (slot : Nat) : Swarm := sget {} c.swarms slot

/-- R471: a reset of the logical cell or of its channel is in progress. -/
def State.cellInReset (s : State) (id : Nat) : Bool :=
  s.pwr.resetChannel == some (chOf id) || s.pwr.resetCell == some id

/-- Changes a swarm slot of a cell. -/
def CellMem.modSwarm (c : CellMem) (slot : Nat) (f : Swarm → Swarm) : CellMem :=
  { c with swarms := smod {} c.swarms slot f }

/-- A swarm of a logical cell. -/
def State.swarm (s : State) (id slot : Nat) : Swarm := (s.cell id).swarm slot

/-- Changes a swarm of a logical cell. -/
def State.modSwarm (s : State) (id slot : Nat) (f : Swarm → Swarm) : State :=
  s.modCell id fun c => c.modSwarm slot f

/-- R89: V, the lane registers of a swarm. -/
def Swarm.V (w : Swarm) : Nat := 16 * w.blocks

/-- Lane `j` of lane register `n`. -/
def Swarm.vreg (w : Swarm) (n j : Nat) : Nat := (sget 0 w.v (32 * n + j)).toNat

/-- Uniform register `n`. -/
def Swarm.ureg (w : Swarm) (n : Nat) : Nat := (sget 0 w.u n).toNat

/-- Mask `n`. -/
def Swarm.preg (w : Swarm) (n : Nat) : Nat := (sget 0 w.p n).toNat

/-- Uniform predicate `n`. -/
def Swarm.upred (w : Swarm) (n : Nat) : Bool := bitAt w.up.toNat n

/-- Writes lane `j` of lane register `n`. -/
def Swarm.setV (w : Swarm) (n j v : Nat) : Swarm :=
  { w with v := sset 0 w.v (32 * n + j) (BitVec.ofNat 32 v) }

/-- Writes uniform register `n`. -/
def Swarm.setU (w : Swarm) (n v : Nat) : Swarm := { w with u := sset 0 w.u n (BitVec.ofNat 64 v) }

/-- Writes mask `n`. -/
def Swarm.setP (w : Swarm) (n v : Nat) : Swarm := { w with p := sset 0 w.p n (BitVec.ofNat 32 v) }

/-- Writes uniform predicate `n`. -/
def Swarm.setUp (w : Swarm) (n : Nat) (b : Bool) : Swarm :=
  { w with up := BitVec.ofNat 4 (setBits w.up.toNat n 1 b.toNat) }

/-- R94: the counter of a token. -/
def Swarm.token (w : Swarm) (t : Nat) : Nat := sget 0 w.tokens t

/-- R113: a swarm as it is created. -/
def Swarm.create (blocks pc arg : Nat) (mode : Word) : Swarm :=
  ({ st := .active, blocks := blocks, pc := pc, mode := mode, p := [(0, 0xFFFFFFFF)] } : Swarm).setU 0 arg

/-- R89: lane-register blocks in use. -/
def CellMem.blocksUsed (c : CellMem) : Nat := total (c.swarms.map fun e => e.2.blocks)

/-- R112: free lane-register blocks. -/
def CellMem.freeBlocks (c : CellMem) : Nat := 64 - c.blocksUsed

/-- Free launch slots 1 to 15, lowest first. -/
def CellMem.freeSlots (c : CellMem) : List Nat :=
  ((List.range 15).map (· + 1)).filter fun i => (c.swarm i).st == .free

/-- R94: scoreboard entries in use. -/
def CellMem.inFlight (c : CellMem) : Nat :=
  c.mxQueue.length + c.agQueue.length + (if c.mxRun.isSome then 1 else 0) + (if c.agRun.isSome then 1 else 0)

/-! ### Local memory and HBM -/

/-- R91: bytes of local memory. -/
def CellMem.read (c : CellMem) (off n : Nat) : Bytes := sgetN 0 c.lm off n

/-- The 8-byte words that a range of bytes touches. -/
def wordsOf (off n : Nat) : List Nat :=
  if n == 0 then [] else (List.range ((off + n - 1) / 8 - off / 8 + 1)).map (off / 8 + ·)

/-- R288: the words that a write of a range covers whole, whose errors it replaces. -/
def wholeWords (off n : Nat) : List Nat := (wordsOf off n).filter fun w => off ≤ 8 * w && 8 * w + 8 ≤ off + n

/-- Writes bytes of local memory; a word written whole has valid ECC again (R288). -/
def CellMem.write (c : CellMem) (off : Nat) (bs : Bytes) : CellMem :=
  { c with lm := ssetN 0 c.lm off bs, lmErr := (wholeWords off bs.length).foldl sdel c.lmErr }

/-- R288: a range holds a word with a double-bit error. -/
def CellMem.uce (c : CellMem) (off n : Nat) : Bool := (wordsOf off n).any fun w => sget 0 c.lmErr w == 2

/-- R288: a write of a range would merge with a word that has a double-bit error. -/
def CellMem.partUce (c : CellMem) (off n : Nat) : Bool :=
  ((wordsOf off n).filter fun w => !(wholeWords off n).contains w).any fun w => sget 0 c.lmErr w == 2

/-- R108: a range of bytes meets a live replica range. -/
def CellMem.inReplica (c : CellMem) (off n : Nat) : Bool :=
  c.replicas.any fun r => decide (off < r.off + r.len ∧ r.off < off + n)

/-- R289: a corrected error raises the cell's scrub level by one, up to 7, unless pinned. -/
def State.raiseCellScrub (s : State) (phys : Nat) : State :=
  if s.rd (Reg.cellLmEccPin phys) == 1 then s
  else s.wr (Reg.cellLmEccLevel phys) (min 7 (s.rd (Reg.cellLmEccLevel phys) + 1))

/-- R288: a read of local memory corrects and writes back its single-bit errors, each counted. -/
def State.lmTouch (s : State) (id off n : Nat) : State :=
  (wordsOf off n).foldl (fun s w =>
    if sget 0 (s.cell id).lmErr w == 1 then
      let s := s.modCell id fun c => { c with lmErr := sdel c.lmErr w, scrubFound := true }
      (s.bump (Reg.cellLmEccCorrected (s.phys id))).raiseCellScrub (s.phys id)
    else s) s

/-- R274: the stack that holds an HBM address. -/
def stackOf (a : Nat) : Nat := 2 * (a / 2 ^ 37) + bits (a % 2 ^ 37) 8 1

/-- An HBM address (Table 14-1). -/
def isHbm (a : Nat) : Bool := a < 2 ^ 39

/-- The stack is present (MEM.STATUS.PRESENT). -/
def State.stackUp (s : State) (n : Nat) : Bool :=
  s.rd (Reg.memStatusPresent n) == 1 && !(sget {} s.gov.islands (0x400 + n)).stopped

/-- R248, R283: the cause that a refusal of an absent stack carries. -/
def State.absentCause (s : State) (n : Nat) : Nat :=
  if (sget {} s.gov.islands (0x400 + n)).stopped then 0xC008 else 0xC024

/-- Bytes of HBM. -/
def State.hbmRead (s : State) (a n : Nat) : Bytes := sgetN 0 s.hbm a n

/-- The 64-byte blocks that a range touches. -/
def blocksOf (a n : Nat) : List Nat :=
  if n == 0 then [] else (List.range ((a + n - 1) / 64 - a / 64 + 1)).map (a / 64 + ·)

/-- R287: the blocks that a write covers whole. -/
def wholeBlocks (a n : Nat) : List Nat := (blocksOf a n).filter fun b => a ≤ 64 * b && 64 * b + 64 ≤ a + n

/-- Writes bytes of HBM; a block written whole has valid ECC again (R287). -/
def State.hbmWrite (s : State) (a : Nat) (bs : Bytes) : State :=
  { s with hbm := ssetN 0 s.hbm a bs, hbmErr := (wholeBlocks a bs.length).foldl sdel s.hbmErr }

/-- R287: a range holds an uncorrectable block. -/
def State.hbmUce (s : State) (a n : Nat) : Bool := (blocksOf a n).any fun b => sget 0 s.hbmErr b == 2

/-- R287: a write of a range would merge with an uncorrectable block. -/
def State.hbmPartUce (s : State) (a n : Nat) : Bool :=
  ((blocksOf a n).filter fun b => !(wholeBlocks a n).contains b).any fun b => sget 0 s.hbmErr b == 2

/-- The stacks that a range of HBM lies on. -/
def stacksOf (a n : Nat) : List Nat :=
  if n == 0 then [] else
  let first := stackOf a
  if (List.range ((a + n - 1) / 256 - a / 256 + 1)).length < 2 then [first]
  else if a / 2 ^ 37 == (a + n - 1) / 2 ^ 37 then [2 * (a / 2 ^ 37), 2 * (a / 2 ^ 37) + 1]
  else (List.range 8).filter fun k => 2 * (a / 2 ^ 37) ≤ k && k ≤ 2 * ((a + n - 1) / 2 ^ 37) + 1

/-- A stack that a range needs and that is absent. -/
def State.absentStack (s : State) (a n : Nat) : Option Nat := (stacksOf a n).find? fun k => !s.stackUp k

/-- R289: a corrected error raises the stack's scrub level by one, up to 7, unless pinned. -/
def State.raiseStackScrub (s : State) (n : Nat) : State :=
  if s.rd (Reg.memScrubCtlPin n) == 1 then s
  else s.wr (Reg.memScrubCtlLevel n) (min 7 (s.rd (Reg.memScrubCtlLevel n) + 1))

/-- R287: a read of HBM corrects and writes back its correctable blocks, each counted. -/
def State.hbmTouch (s : State) (a n : Nat) : State :=
  (blocksOf a n).foldl (fun s b =>
    if sget 0 s.hbmErr b == 1 then
      let k := stackOf (64 * b)
      let s := { s with hbmErr := sdel s.hbmErr b,
                        stackScrub := smod (0, false) s.stackScrub k fun e => (e.1, true) }
      (s.bump (Reg.memStatusCorrected k)).raiseStackScrub k
    else s) s

/-- Every live instance of a channel's dispatcher. -/
def State.dsp (s : State) (ch : Nat) : Disp := sget {} s.disp ch

/-- Changes a channel's dispatcher. -/
def State.modDisp (s : State) (ch : Nat) (f : Disp → Disp) : State :=
  { s with disp := smod {} s.disp ch f }

/-- A context of a dispatcher. -/
def State.ctx (s : State) (ch k : Nat) : Ctx := sget {} (s.dsp ch).ctxs k

/-- Changes a context. -/
def State.modCtx (s : State) (ch k : Nat) (f : Ctx → Ctx) : State :=
  s.modDisp ch fun d => { d with ctxs := smod {} d.ctxs k f }

/-- A safety function. -/
def State.fn (s : State) (f : Nat) : SafeFn := sget {} s.safe f

/-- Changes a safety function. -/
def State.modFn (s : State) (f : Nat) (g : SafeFn → SafeFn) : State := { s with safe := smod {} s.safe f g }

/-- A queue of the host interface. -/
def State.queue (s : State) (q : Nat) : Queue := sget {} s.host.queues q

/-- Changes a queue. -/
def State.modQueue (s : State) (q : Nat) (f : Queue → Queue) : State :=
  { s with host := { s.host with queues := smod {} s.host.queues q f } }

/-- Changes the power and reset block. -/
def State.modPwr (s : State) (f : Power → Power) : State := { s with pwr := f s.pwr }

/-- An island (R234). -/
def State.island (s : State) (i : Nat) : Island := sget {} s.gov.islands i

/-- Puts a packet on the mesh behind every packet already there. -/
def State.send (s : State) (p : Packet) : State := { s with pkts := s.pkts ++ [p] }

/-- Takes packet `i` off the mesh. -/
def State.dropPkt (s : State) (i : Nat) : State := { s with pkts := s.pkts.eraseIdx i }

/-! ### Sections of the running image -/

/-- The payloads of TYPE `t` in a channel's part, in the order of application. -/
def State.sections (s : State) (ch t : Nat) : List Bytes :=
  ((sget [] s.img.parts ch).filter fun x => x.type == t).map (·.payload)

/-- The first payload of TYPE `t` in a channel's part. -/
def State.section1 (s : State) (ch t : Nat) : Bytes := (s.sections ch t).headD []

/-- The payload of the global section of TYPE `t`; empty where there is none. -/
def State.global (s : State) (t : Nat) : Bytes :=
  ((s.img.globals.filter fun x => x.type == t).map (·.payload)).headD []

end Sys2Proof.Machine
end

