-- ==== Sys2Proof/Machine/Sections.lean ====
section
/-! DEFINITION. The running image's sections read by name: LAUNCH (R396), WAGGLE (R352), SAFETY (R415), HOARD
(R413), HOST (R462), QUAD (R331) and PART (R29). -/
namespace Sys2Proof.Machine

/-! ### LAUNCH -/

/-- ENTRY_COUNT of a channel's LAUNCH section; 0 without one. -/
def State.launchCount (s : State) (ch : Nat) : Nat := fieldLE (s.section1 ch 0xD0) 0 2

/-- Launch-table entry `n` of a channel: its 128 bytes. -/
def State.launchEntry (s : State) (ch n : Nat) : Bytes := slice (s.section1 ch 0xD0) (64 + 128 * n) 128

/-- TRIGGER of a launch-table entry. -/
def leTrigger (e : Bytes) : Nat := fieldLE e 0 1
/-- CTL of a launch-table entry. -/
def leCtl (e : Bytes) : Nat := fieldLE e 1 1
/-- PRIORITY. -/
def lePriority (e : Bytes) : Nat := bits (leCtl e) 0 2
/-- PREEMPT. -/
def lePreempt (e : Bytes) : Bool := bitAt (leCtl e) 2
/-- RELEASE_SLOT. -/
def leRelease (e : Bytes) : Bool := bitAt (leCtl e) 3
/-- ABORT_LATE. -/
def leAbortLate (e : Bytes) : Bool := bitAt (leCtl e) 4
/-- NEXT; none for 0xFFFF. -/
def leNext (e : Bytes) : Option Nat := if fieldLE e 2 2 == 0xFFFF then none else some (fieldLE e 2 2)
/-- MODE. -/
def leMode (e : Bytes) : Nat := fieldLE e 8 8
/-- START. -/
def leStart (e : Bytes) : Nat := fieldLE e 0x10 4
/-- SWARMS. -/
def leSwarms (e : Bytes) : Nat := fieldLE e 0x14 1
/-- VB. -/
def leVb (e : Bytes) : Nat := fieldLE e 0x15 1
/-- ARG. -/
def leArg (e : Bytes) : Nat := fieldLE e 0x16 1
/-- CHAIN; none for 0xFF. -/
def leChain (e : Bytes) : Option Nat := if fieldLE e 0x17 1 == 0xFF then none else some (fieldLE e 0x17 1)
/-- DEADLINE. -/
def leDeadline (e : Bytes) : Nat := fieldLE e 0x24 4
/-- BOUND. -/
def leBound (e : Bytes) : Nat := fieldLE e 0x28 4
/-- OUT_KIND. -/
def leOutKind (e : Bytes) : Nat := fieldLE e 0x2C 1
/-- OUT_QUAD. -/
def leOutQuad (e : Bytes) : Nat := fieldLE e 0x2D 1
/-- OUT_STREAM. -/
def leOutStream (e : Bytes) : Nat := fieldLE e 0x2E 1
/-- RESULT_LEN. -/
def leResultLen (e : Bytes) : Nat := fieldLE e 0x30 2
/-- HOST_QUEUE. -/
def leHostQueue (e : Bytes) : Nat := fieldLE e 0x32 2
/-- The FALLBACK_LEN bytes of FALLBACK. -/
def leFallback (e : Bytes) : Bytes := slice e 0x40 (fieldLE e 0x2F 1)
/-- The entry's mode word names ADAPT (GROUP = 3). -/
def modeAdapt (m : Nat) : Bool := bits m 2 2 == 3

/-- The logical cells of an entry's rectangle. -/
def leCells (ch : Nat) (e : Bytes) : List Nat :=
  (cellsOf ch).filter fun id => fieldLE e 4 1 ≤ rowOf id && rowOf id ≤ fieldLE e 5 1
    && fieldLE e 6 1 ≤ colOf id && colOf id ≤ fieldLE e 7 1

/-- The region pool of a LAUNCH payload starts here. -/
def poolRegions (sec : Bytes) : Nat := 64 + 128 * fieldLE sec 0 2
/-- The replica pool of a LAUNCH payload starts here. -/
def poolReplicas (sec : Bytes) : Nat := poolRegions sec + 8 * fieldLE sec 2 2
/-- The footprint pool of a LAUNCH payload starts here. -/
def poolFoot (sec : Bytes) : Nat := poolReplicas sec + 24 * fieldLE sec 4 2

/-- R396: the region list of an entry: device addresses of its descriptors. -/
def State.leRegions (s : State) (ch : Nat) (e : Bytes) : List Nat :=
  let sec := s.section1 ch 0xD0
  (List.range (fieldLE e 0x1A 1)).map fun i => fieldLE sec (poolRegions sec + 8 * (fieldLE e 0x18 2 + i)) 8

/-- R396: the replicas of an entry: master address, length and local offset. -/
def State.leReplicas (s : State) (ch : Nat) (e : Bytes) : List (Nat × Nat × Nat) :=
  let sec := s.section1 ch 0xD0
  (List.range (fieldLE e 0x1B 1)).map fun i =>
    let o := poolReplicas sec + 24 * (fieldLE e 0x1C 2 + i)
    (fieldLE sec o 8, fieldLE sec (o + 8) 4, fieldLE sec (o + 12) 4)

/-- R396: the footprint ranges of an entry: local offset and length. -/
def State.leFoot (s : State) (ch : Nat) (e : Bytes) : List (Nat × Nat) :=
  let sec := s.section1 ch 0xD0
  (List.range (fieldLE e 0x1E 1)).map fun i =>
    let o := poolFoot sec + 8 * (fieldLE e 0x20 2 + i)
    (fieldLE sec o 4, fieldLE sec (o + 4) 4)

/-- SAVE_BASE of a channel. -/
def State.saveBase (s : State) (ch : Nat) : Nat := fieldLE (s.section1 ch 0xD0) 8 8
/-- SAVE_STRIDE of a channel. -/
def State.saveStride (s : State) (ch : Nat) : Nat := fieldLE (s.section1 ch 0xD0) 16 4

/-- A valid head entry of a trigger kind (R377). -/
def State.isHead (s : State) (ch n kind : Nat) : Bool :=
  n < s.launchCount ch && leTrigger (s.launchEntry ch n) == kind && kind != 0

/-- The one INGEST or CAMERA head of a channel. -/
def State.headOfKind (s : State) (ch kind : Nat) : Option Nat :=
  (List.range (s.launchCount ch)).find? fun n => leTrigger (s.launchEntry ch n) == kind

/-! ### WAGGLE and QUAD -/

/-- Channel of a quad. -/
def quadCh (q : Nat) : Nat := q / 4

/-- R331: ROLE of a quad: 0 unused, 1 Waggle, 2 front-end. -/
def State.quadRole (s : State) (q : Nat) : Nat := fieldLE (s.section1 (quadCh q) 0x40) (q % 4) 1

/-- Port entries of a channel. -/
def wgPorts (sec : Bytes) : List Bytes :=
  (List.range (fieldLE sec 0 1)).map fun i => slice sec (16 + 32 * i) 32

/-- Stream entries of a channel. -/
def wgStreams (sec : Bytes) : List Bytes :=
  (List.range (fieldLE sec 2 2)).map fun i => slice sec (16 + 32 * fieldLE sec 0 1 + 16 * i) 16

/-- Chain entries of a channel. -/
def wgChains (sec : Bytes) : List Bytes :=
  (List.range (fieldLE sec 1 1)).map fun i =>
    slice sec (16 + 32 * fieldLE sec 0 1 + 16 * fieldLE sec 2 2 + 32 * i) 32

/-- The port entry of a quad; none where the WAGGLE section configures none. -/
def State.wgPort (s : State) (q : Nat) : Option Bytes :=
  (wgPorts (s.section1 (quadCh q) 0x41)).find? fun p => fieldLE p 0 1 == q % 4

/-- The stream entry of a quad's stream. -/
def State.wgStream (s : State) (q st : Nat) : Option Bytes :=
  (wgStreams (s.section1 (quadCh q) 0x41)).find? fun p => fieldLE p 0 1 == q % 4 && fieldLE p 1 1 == st

/-- MIN_LANES of a port entry. -/
def wpMinLanes (p : Bytes) : Nat := fieldLE p 3 1
/-- PEER_DEV of a port entry. -/
def wpPeer (p : Bytes) : Nat := fieldLE p 4 1
/-- PAIR of a port entry. -/
def wpPair (p : Bytes) : Bool := bitAt (fieldLE p 5 1) 0
/-- TX of a stream entry. -/
def wsTx (p : Bytes) : Bool := bitAt (fieldLE p 2 1) 0
/-- RX of a stream entry. -/
def wsRx (p : Bytes) : Bool := bitAt (fieldLE p 2 1) 1
/-- KIND of a stream entry: 0 DATA, 1 STORE, 2 CHAIN, 3 TIME, 4 MIRROR. -/
def wsKind (p : Bytes) : Nat := fieldLE p 3 1
/-- SINK of a stream entry: 0 cell, 1 dispatcher, 2 host. -/
def wsSink (p : Bytes) : Nat := fieldLE p 4 1
/-- SINK_CELL of a stream entry. -/
def wsSinkCell (p : Bytes) : Nat := fieldLE p 6 2
/-- RESERVE of a stream entry. -/
def wsReserve (p : Bytes) : Nat := fieldLE p 8 1

/-- Chain entry `i` of a channel. -/
def State.chainEntry (s : State) (ch i : Nat) : Option Bytes := (wgChains (s.section1 ch 0x41))[i]?

/-- CHAIN_ID of a chain entry. -/
def ceId (e : Bytes) : Nat := fieldLE e 0 1
/-- STATION of a chain entry. -/
def ceStation (e : Bytes) : Nat := fieldLE e 1 1
/-- STATION_COUNT of a chain entry. -/
def ceCount (e : Bytes) : Nat := fieldLE e 2 1
/-- FORM of a chain entry. -/
def ceForm (e : Bytes) : Nat := fieldLE e 3 1
/-- RECORDS of a chain entry. -/
def ceRecords (e : Bytes) : Nat := fieldLE e 4 2
/-- STATION_CELL of a chain entry. -/
def ceCell (e : Bytes) : Nat := fieldLE e 6 2
/-- TIMEOUT of a chain entry. -/
def ceTimeout (e : Bytes) : Nat := fieldLE e 0x10 4

/-- R348: bytes of one record of a chain. -/
def ceRecLen (e : Bytes) : Nat := if ceForm e == 1 then 96 else 24

/-! ### SAFETY -/

/-- FUNC_COUNT of the running SAFETY section. -/
def State.fnCount (s : State) : Nat := fieldLE (s.global 0x70) 0 1

/-- Function entry `f`. -/
def State.fnEntry (s : State) (f : Nat) : Bytes := slice (s.global 0x70) (16 + 64 * f) 64

/-- KIND is DEVICE_PAIR. -/
def State.fnDevice (s : State) (f : Nat) : Bool := fieldLE (s.fnEntry f) 0 1 == 2
/-- CHANNELS of function `f`. -/
def State.fnChannels (s : State) (f : Nat) : Nat := bits (fieldLE (s.fnEntry f) 1 1) 0 4
/-- FLAGS of function `f`. -/
def State.fnFlags (s : State) (f : Nat) : Nat := fieldLE (s.fnEntry f) 2 1
/-- SKEW_LIMIT of function `f`. -/
def State.fnSkew (s : State) (f : Nat) : Nat := fieldLE (s.fnEntry f) 8 4

/-- The function a channel belongs to. -/
def State.fnOf (s : State) (ch : Nat) : Option Nat :=
  (List.range s.fnCount).find? fun f => bitAt (s.fnChannels f) ch

/-! ### HOARD and HOST -/

/-- MODE of the running HOARD section: 0 OFF, 1 RING_OVERWRITE, 2 RING_STOP, 3 STREAM. -/
def State.hrdMode (s : State) : Nat := fieldLE (s.global 0x90) 0 1
/-- RECORD_OUTPUTS. -/
def State.hrdOutputs (s : State) : Bool := bitAt (fieldLE (s.global 0x90) 1 1) 0
/-- RING_BASE. -/
def State.hrdBase (s : State) : Nat := fieldLE (s.global 0x90) 8 8
/-- RING_SIZE. -/
def State.hrdSize (s : State) : Nat := fieldLE (s.global 0x90) 16 8

/-- R462: ADMIN_MASK; 0x1 without a HOST section. -/
def State.adminMask (s : State) : Nat := if (s.global 0xA0).isEmpty then 1 else fieldLE (s.global 0xA0) 0 8
/-- R462: HOARD_QUEUE; 0xFF without a HOST section. -/
def State.hoardQueue (s : State) : Nat := if (s.global 0xA0).isEmpty then 0xFF else fieldLE (s.global 0xA0) 8 1

/-! ### PART and pairs -/

/-- R29: ROLE of a channel: 0 unconfigured, 1 Alone, 2 Pipeline member, 3 Pair member. -/
def State.role (s : State) (ch : Nat) : Nat := (s.img.roles[ch]?).getD 0

/-- A Pair member. -/
def State.isPair (s : State) (ch : Nat) : Bool := s.role ch == 3

/-- The other member of a channel pair. -/
def partnerOf (ch : Nat) : Nat := if ch % 2 == 0 then ch + 1 else ch - 1

/-- R414: the follower of a channel pair is its higher channel. -/
def State.isFollower (s : State) (ch : Nat) : Bool := s.isPair ch && ch % 2 == 1

/-- R14: a device address of one channel's HBM translated to another channel; a cell window of it likewise. -/
def translateTo (ch a : Nat) : Nat :=
  if isHbm a then ch * 2 ^ 37 + a % 2 ^ 37 else setBits a 29 2 ch

end Sys2Proof.Machine
end

