-- ==== Sys2Proof/Machine/Record.lean ====
section
/-! DEFINITION. Host staging (R453, R454) and the Hoard recorder (R404 to R408), with the comparison of a replayed
output (R412). -/
namespace Sys2Proof.Machine

/-! ### Host staging -/

/-- R453: bytes a record takes: 32 of header and the body, padded to a multiple of 64. -/
def recBytes (len : Nat) : Nat := 64 * cdiv (32 + len) 64

/-- The queue is ENABLED. -/
def State.queueUp (s : State) (q : Nat) : Bool := (s.queue q).enabled && !(s.queue q).error

/-- Queues that are enabled. -/
def State.queuesUp (s : State) : Nat := ((List.range 64).filter s.queueUp).length

/-- R454: unreserved bytes of the 2 MiB host staging: what the reserves of the enabled queues and the staged records
leave. -/
def State.stagingFree (s : State) : Nat :=
  2097152 - 16 * 192 * s.queuesUp
    - total ((s.host.staged.filter fun r => !r.reserve).map fun r => recBytes r.body.length)

/-- Puts a record behind those staged. -/
def State.stage (s : State) (r : Staged) : State := { s with host := { s.host with staged := s.host.staged ++ [r] } }

/-! ### The Hoard recorder -/

/-- R7. -/
def glbIdent : Nat := 0x4F4C057621490100

/-- R404: a whole entry: header, payload and padding. -/
def hrdEntry (kind ch seq tick id : Nat) (payload : Bytes) : Bytes :=
  let n := payload.length
  leBytes 2 kind ++ leBytes 1 ch ++ zeros 1 ++ leBytes 4 n ++ leBytes 8 seq ++ leBytes 8 tick ++ leBytes 8 id
    ++ sha256 payload ++ payload ++ zeros (64 * cdiv n 64 - n)

/-- Bytes of an entry whose payload has `n` bytes. -/
def hrdBytes (n : Nat) : Nat := 64 + 64 * cdiv n 64

/-- R406: whether a ring of kind RING_STOP still has room for `n` bytes before TAIL. -/
def State.ringFits (s : State) (n : Nat) : Bool :=
  (s.hrd.entries.isEmpty || s.rd Reg.hrdRingHead != 0) && 64 * s.rd Reg.hrdRingHead + n ≤ s.hrdSize

/-- R248, R407: room for an entry of `n` bytes: in the 4 MiB staging of a ring whose stacks run, or in host staging for an
enabled HOARD_QUEUE. -/
def State.hrdRoom (s : State) (n : Nat) : Bool :=
  if s.hrdMode == 3 then s.hoardQueue < 64 && s.queueUp s.hoardQueue && recBytes n ≤ s.stagingFree
  else s.hrd.staging + n ≤ 4194304 && n ≤ s.hrdSize && (s.absentStack s.hrdBase s.hrdSize).isNone

/-- R406: writes whole-entry bytes into the ring at HEAD; the older entries they overwrite leave TAIL. -/
def State.ringPut (s : State) (bs : Bytes) : State :=
  let off := 64 * s.rd Reg.hrdRingHead
  let n := bs.length
  let kept := s.hrd.entries.filter fun e => e.1 + e.2 ≤ off || off + n ≤ e.1
  let s := if kept.length == s.hrd.entries.length then s else s.wr Reg.hrdStatusWrapped 1
  let s := (s.hbmWrite (s.hrdBase + off) bs).wr Reg.hrdRingHead ((off + n) % s.hrdSize / 64)
  let s := { s with hrd := { s.hrd with entries := kept ++ [(off, n)], staging := s.hrd.staging + n } }
  s.wr Reg.hrdRingTail (((kept ++ [(off, n)]).headD (0, 0)).1 / 64)

/-- R405: takes the next SEQ. -/
def State.takeSeq (s : State) : Nat × State := (s.rd Reg.hrdSeqSeq, s.incr Reg.hrdSeqSeq)

/-- R406: one entry to its destination, a PAD entry before it where it would cross the ring's end. -/
def State.hrdAppend (s : State) (kind ch tick id : Nat) (payload : Bytes) : State :=
  let n := hrdBytes payload.length
  if s.hrdMode == 3 then
    let (q, s) := s.takeSeq
    s.stage { queue := s.hoardQueue, kind := 4, ch := 0xF, srcKind := 0, src := 0, tag := 0, user := 0,
              body := hrdEntry kind ch q tick id payload }
  else
    let off := 64 * s.rd Reg.hrdRingHead
    let s := if off + n ≤ s.hrdSize then s else
      let (q, s) := s.takeSeq
      s.ringPut (hrdEntry 0x7F 0xF q tick 0 (zeros (s.hrdSize - off - 64)))
    let (q, s) := s.takeSeq
    s.ringPut (hrdEntry kind ch q tick id payload)

/-- R407: an entry is lost: it consumes its SEQ, is counted and joins the run of lost entries. -/
def State.hrdLose (s : State) : State :=
  let (q, s) := s.takeSeq
  let run := match s.hrd.lostRun with
    | none => (q, q, s.now, s.now)
    | some (a, _, t, _) => (a, q, t, s.now)
  (({ s with hrd := { s.hrd with lostRun := some run } }).bump Reg.hrdLostLost).evt 0xA030 0

/-- R407: the OVERFLOW entry, once there is room for it. -/
def State.hrdFlush (s : State) : State :=
  match s.hrd.lostRun with
  | none => s
  | some (a, b, t, u) =>
    if s.hrdRoom (hrdBytes 32) && (s.hrdMode != 2 || s.ringFits (hrdBytes 32)) then
      { s with hrd := { s.hrd with lostRun := none } }.hrdAppend 0x7E 0xF s.now (b + 1 - a)
        (leBytes 8 a ++ leBytes 8 b ++ leBytes 8 t ++ leBytes 8 u)
    else s

/-- R406: RING_STOP is full: recording stops. -/
def State.hrdHalt (s : State) : State :=
  let (_, s) := s.takeSeq
  ((s.wr Reg.hrdStatusState 2).bump Reg.hrdLostLost).evt 0xA031 0

/-- R404 to R407: the recorder takes one entry. -/
def State.hrdRecordAt (s : State) (tick kind ch id : Nat) (payload : Bytes) : State :=
  if s.rd Reg.hrdStatusState == 1 then
    let n := hrdBytes payload.length
    if s.hrdMode == 2 && !s.ringFits n then s.hrdHalt else
    let s := s.hrdFlush
    if s.hrd.lostRun.isSome || !s.hrdRoom n then s.hrdLose
    else s.hrdAppend kind ch tick id payload
  else if s.rd Reg.hrdStatusState == 2 then (s.takeSeq.2).bump Reg.hrdLostLost
  else s

/-- The recorder takes one entry stamped with the counter. -/
def State.hrdRecord (s : State) (kind ch id : Nat) (payload : Bytes) : State := s.hrdRecordAt s.now kind ch id payload

/-- R408: a ring epoch starts; no camera bank is recorded in it yet. -/
def State.hrdEpoch (s : State) : State :=
  let s := (s.incr Reg.hrdStatusEpoch).wr Reg.hrdSeqSeq 0
  let s := (((s.wr Reg.hrdRingHead 0).wr Reg.hrdRingTail 0).wr Reg.hrdStatusWrapped 0).wr Reg.hrdStatusState 1
  let s := { s with hrd := { s.hrd with entries := [], lostRun := none, bankDigests := [] } }
  let e := s.rd Reg.hrdStatusEpoch
  s.hrdRecord 0x70 0xF e (leBytes 4 e ++ zeros 4 ++ leBytes 8 glbIdent ++ leBytes 8 s.now
    ++ fit 48 s.img.memberDigest ++ fit 48 s.img.imageDigest ++ fit 32 (s.global 0x90))

/-! ### Replay -/

/-- R409: replay runs. -/
def State.replaying (s : State) : Bool := s.rd Reg.hrdStatusState == 3

/-- R409: a live input is dropped during a replay, running or paused. -/
def State.liveIgnored (s : State) : Bool := s.rd Reg.hrdStatusState == 3 || s.rd Reg.hrdStatusState == 4

/-- R409: counts a live input dropped. -/
def State.ignoreLive (s : State) : State := s.bump Reg.hrdLostLiveIgnored

/-- Bytes of the replayed stream. -/
def State.replayBytes (s : State) (off n : Nat) : Bytes :=
  if s.hrd.source then slice s.hrd.stream off n else s.hbmRead (s.hrd.base + off) n

/-- The entry at an offset of the replayed stream: KIND, CHANNEL, LENGTH, SEQ, TICK, ID. -/
def State.replayHead (s : State) (off : Nat) : Bytes := s.replayBytes off 64

/-- Offsets of the entries of a stream from `off`. -/
def State.replayOffsets (s : State) : Nat → Nat → List Nat
  | 0, _ => []
  | fuel + 1, off =>
    if s.hrd.len ≤ off then [] else
    off :: s.replayOffsets fuel (off + hrdBytes (fieldLE (s.replayHead off) 4 4))

/-- Ends a replay with a cause: recording resumes only in a new epoch (R408). -/
def State.replayEnd (s : State) (cause : Nat) : State :=
  ((s.wr Reg.hrdStatusState 5).wr Reg.hrdReplayStatusCause cause).irq 2

/-- R412: compares the output of a replay with the oldest OUTPUT entry of its ENTRY and EVENT with MARK 0 that no
earlier output has consumed. -/
def State.replayCompare (s : State) (ch : Nat) (header sealBytes : Bytes) : State :=
  let ev := fieldLE header 0 6
  let en := fieldLE header 8 2
  if s.hrd.unverifiable.contains (ch, ev) then s.bump Reg.hrdReplayStatusUncompared else
  let isIt := fun off =>
    let h := s.replayHead off
    let p := s.replayBytes (off + 64) 40
    fieldLE h 0 2 == 0x60 && fieldLE p 0 6 == ev && fieldLE p 8 2 == en && fieldLE p 6 1 == 0
      && !s.hrd.consumed.contains off
  match (s.replayOffsets (s.hrd.len / 64) 0).find? isIt with
  | none => s.bump Reg.hrdReplayStatusUncompared
  | some off =>
    let s := { s with hrd := { s.hrd with consumed := off :: s.hrd.consumed } }
    if s.replayBytes (off + 64 + 40) 32 == fit 32 sealBytes then s.bump Reg.hrdReplayStatusMatched else
    let s := if s.rd Reg.hrdDivergeSeqSeq == 0 then
      s.wr Reg.hrdDivergeSeqSeq (fieldLE (s.replayHead off) 8 8) else s
    let s := s.bump Reg.hrdReplayStatusDiverged
    if s.rd Reg.hrdReplayCtlStopOnDiverge == 1 then s.replayEnd 0xA037 else s

end Sys2Proof.Machine
end

