-- ==== Sys2Proof/Machine/WglTx.lean ====
section
/-! DEFINITION. The transmit side of a Waggle port: the message header (R341), the transmit store (R342, R344), the
flits, their sequence numbers and credits (R337 to R339). -/
namespace Sys2Proof.Machine

/-- A Waggle port. -/
def State.wglOf (s : State) (q : Nat) : Wgl := sget {} s.wgl q

/-- Changes a Waggle port. -/
def State.modWgl (s : State) (q : Nat) (f : Wgl → Wgl) : State := { s with wgl := smod {} s.wgl q f }

/-- R373: DEV_ID of the running image; 0 without a TIME section. -/
def State.devId (s : State) : Nat := fieldLE (s.global 0x80) 0 1

/-- R295: the CRC-32 of IEEE 802.3. -/
def crc32 (m : Bytes) : Nat := 0xFFFFFFFF - crcReflected 0xEDB88320 0xFFFFFFFF m

/-- R337: a flit: 64 bytes of payload and the overhead word. -/
def mkFlit (seq ack type vl : Nat) (payload : Bytes) : Bytes :=
  let p := fit 64 payload
  let lo := leBytes 4 (seq + ack * 2 ^ 12 + type * 2 ^ 24 + vl * 2 ^ 28)
  p ++ lo ++ leBytes 4 (crc32 (p ++ lo))

/-- R337: ACK of every flit sent: the SEQ of the last MSG flit accepted in order. -/
def Wgl.ack (w : Wgl) : Nat := (w.rxSeq + 4095) % 4096

/-- R337, R339: the payload of a NULL or NAK flit. -/
def Wgl.report (w : Wgl) : Bytes := (w.freed.flatMap fun n => leBytes 2 (n % 65536)) ++ leBytes 1 w.retireReq ++ zeros 55

/-- R341: the 32-byte header of a message. -/
def wglHeader (mtype src dst stream len id tag : Nat) (arg : Bytes) : Bytes :=
  leBytes 1 mtype ++ zeros 1 ++ leBytes 1 src ++ leBytes 1 dst ++ leBytes 1 stream ++ zeros 1 ++ leBytes 2 len
    ++ leBytes 4 id ++ leBytes 2 tag ++ zeros 2 ++ fit 16 arg

/-- R339: the virtual lane of a message type. -/
def vlOf (mtype : Nat) : Nat :=
  if mtype == 7 then 0 else if mtype == 5 || mtype == 6 then 1 else if mtype == 3 || mtype == 4 then 2 else 3

/-- R341: a message cut into the payloads of its flits. -/
def flitsOf (bs : Bytes) : List Bytes := (List.range (cdiv bs.length 64)).map fun i => slice bs (64 * i) 64

/-- Bytes of the port's streams that hold messages without MACK, and of the messages being built. -/
def Wgl.held (w : Wgl) : Nat :=
  total ((w.tx.filter fun m => !m.reserve).map fun m => m.bytes.length)
    + total (w.building.map fun b => 32 + b.2.2.length)

/-- Messages of a stream without MACK. -/
def Wgl.unacked (w : Wgl) (stream : Nat) : Nat := (w.tx.filter fun m => m.vl != 0 && m.stream == stream).length

/-- R342: the transmit store takes no further `n` bytes for a stream. -/
def Wgl.full (w : Wgl) (stream n : Nat) : Bool := decide (524288 < w.held + n) || decide (1024 ≤ w.unacked stream)

/-- R339: a first transmission on a virtual lane has a credit. -/
def Wgl.credit (w : Wgl) (vl : Nat) : Bool :=
  (w.sent.getD vl 0 + 65536 - w.peerFreed.getD vl 0) % 65536 < 64

/-- The next message of a virtual lane that has flits left. -/
def Wgl.nextOn (w : Wgl) (vl : Nat) : Option TxMsg := w.tx.find? fun m => m.vl == vl && !m.left.isEmpty

/-- Takes the first flit of the next message of a virtual lane; a MACK whose last flit is sent leaves the store. -/
def takeFlit (vl : Nat) : List TxMsg → List TxMsg
  | [] => []
  | m :: l =>
    if m.vl == vl && !m.left.isEmpty then
      (if vl == 0 && m.left.length ≤ 1 then l else { m with left := m.left.drop 1 } :: l)
    else m :: takeFlit vl l

/-- R361: the payload of a held flit as it leaves: the first flit of a BEACON carries the sender's counter as T_TX. -/
def HeldFlit.out (h : HeldFlit) (now : Nat) : Bytes := if h.stamp then patch h.payload 16 (leBytes 8 now) else h.payload

/-- R361: transmits a held MSG flit. -/
def Wgl.emit (w : Wgl) (now : Nat) (h : HeldFlit) : Wgl :=
  { w with wire := w.wire ++ [mkFlit h.seq w.ack 1 h.vl (h.out now)], reqSent := if h.mine then some now else w.reqSent }

/-- R338, R339: sends one MSG flit for the first time, if the replay buffer and a credit allow; VL0 before VL3. -/
def Wgl.sendOne (w : Wgl) (now : Nat) : Option Wgl :=
  if 256 ≤ w.replay.length then none else
  match [0, 1, 2, 3].findSome? fun vl => if w.credit vl then w.nextOn vl else none with
  | none => none
  | some m =>
    let first := m.left.length == (flitsOf m.bytes).length && fieldLE m.bytes 0 1 == 5
    let h : HeldFlit := { seq := w.txSeq, vl := m.vl, payload := m.left.headD [], stamp := first,
                          mine := first && fieldLE m.bytes 24 1 == 1 }
    some (({ w with tx := takeFlit m.vl w.tx, replay := w.replay ++ [h], txSeq := (w.txSeq + 1) % 4096,
                    sent := w.sent.set m.vl (w.sent.getD m.vl 0 + 1),
                    progress := if w.replay.isEmpty then now else w.progress }).emit now h)

/-- Sends MSG flits until nothing more may go. -/
def Wgl.pump : Nat → Nat → Wgl → Wgl
  | 0, _, w => w
  | n + 1, now, w => match w.sendOne now with
    | none => w
    | some w => Wgl.pump n now w

/-- The link is UP. -/
def State.wglUp (s : State) (q : Nat) : Bool := s.rd (Reg.wglStatusState q) == 5

/-- Sends what the port may send while it is UP. -/
def State.wglPump (s : State) (q : Nat) : State := if s.wglUp q then s.modWgl q fun w => Wgl.pump 256 s.now w else s

/-- R342: the next MSG_ID of a stream. -/
def State.wglNextId (s : State) (q stream : Nat) : Nat × State :=
  (sget 0 (s.wglOf q).nextId stream,
   s.modWgl q fun w => { w with nextId := smod 0 w.nextId stream fun n => (n + 1) % 2 ^ 32 })

/-- R341, R342: a complete request of a stream, with the MSG_ID the port assigns. -/
def State.wglMake (s : State) (q stream mtype tag : Nat) (arg payload : Bytes) : Bytes × State :=
  let (id, s) := s.wglNextId q stream
  let peer := match s.wgPort q with
    | some p => wpPeer p
    | none => 0
  (wglHeader mtype s.devId peer stream payload.length id tag arg ++ payload, s)

/-- Puts a message into the transmit store and sends what may go. -/
def State.wglStore (s : State) (q : Nat) (bytes : Bytes) (reserve : Bool) : State :=
  let m : TxMsg := { stream := fieldLE bytes 4 1, id := fieldLE bytes 8 4, vl := vlOf (fieldLE bytes 0 1),
                     bytes := bytes, left := flitsOf bytes, reserve := reserve }
  (s.modWgl q fun w => { w with tx := w.tx ++ [m] }).wglPump q

/-- A request of a stream made and stored. -/
def State.wglSend (s : State) (q stream mtype tag : Nat) (arg payload : Bytes) : State :=
  let (m, s) := s.wglMake q stream mtype tag arg payload
  s.wglStore q m false

/-- R343: the MACK of a request, from a port to its partner. -/
def State.wglMack (s : State) (q stream id status : Nat) : State :=
  let peer := match s.wgPort q with
    | some p => wpPeer p
    | none => 0
  s.wglStore q (wglHeader 7 s.devId peer 0 0 0 0
    (leBytes 1 stream ++ zeros 3 ++ leBytes 4 id ++ leBytes 2 status)) false

/-- R393: reserved space of a stream that an output can take. -/
def State.wglReserveFree (s : State) (q stream : Nat) : Bool :=
  match s.wgPort q, s.wgStream q stream with
  | some _, some e => wsTx e && decide (((s.wglOf q).tx.filter fun m => m.reserve && m.stream == stream).length < wsReserve e)
  | _, _ => false

end Sys2Proof.Machine
end

