-- ==== Sys2Proof/Machine/HostQ.lean ====
section
/-! DEFINITION. The host interface's queues: completions (R442, R446, R448), queue errors (R443) and writes to host
memory. -/
namespace Sys2Proof.Machine

/-- PCIe: the link is up (HOST.LINK). -/
def State.linkUp (s : State) : Bool := s.rd Reg.hostLinkSpeed != 0

/-- R458: bytes the device writes to host memory at a bus address. A posted write into a link that is down is lost. -/
def State.hostWrite (s : State) (bus : Nat) (bs : Bytes) : State :=
  if s.linkUp then { s with host := { s.host with mem := ssetN 0 s.host.mem bus bs } } else s

/-- R459: a queue signals its vector once while ARMED. -/
def State.queueSignal (s : State) (q : Nat) : State :=
  if (s.queue q).armed then (s.modQueue q fun x => { x with armed := false }).signal (s.queue q).vector else s

/-- R443: a queue error: state ERROR, 0xB00A HOST_QUEUE_ERR. -/
def State.queueErr (s : State) (q : Nat) : State :=
  (s.modQueue q fun x => { x with error := true, jobs := x.jobs.map fun j => { j with lost := true } }).evt 0xB00A 0

/-- R448, Table 22-4: writes a completion entry at the CQ tail; a queue that is not ENABLED discards it. -/
def State.cqPost (s : State) (q status mark id events : Nat) (seal8 : Bytes) (output dup : Bool) : State :=
  let x := s.queue q
  if !s.queueUp q then s.bump Reg.hostCountDropped else
  let flags := x.cqPhase.toNat + 2 * dup.toNat + 4 * output.toNat
  let e := leBytes 2 status ++ leBytes 1 flags ++ leBytes 1 mark ++ leBytes 2 x.sqHead ++ zeros 2 ++ leBytes 8 id
    ++ leBytes 2 events ++ zeros 6 ++ fit 8 seal8
  let s := s.hostWrite (x.cqBase + 32 * x.cqTail) e
  let last := x.cqTail + 1 == 2 ^ x.cqLog
  let s := s.modQueue q fun x => { x with cqTail := if last then 0 else x.cqTail + 1, cqPhase := x.cqPhase != last }
  s.queueSignal q

/-- R446: a stored completion posted again with DUP. -/
def State.cqDup (s : State) (q id : Nat) (c : Bytes) : State :=
  s.cqPost q (fieldLE c 0 2) (fieldLE c 3 1) id (fieldLE c 8 2) (slice c 16 8) (bitAt (fieldLE c 2 1) 2) true

/-- The fields of a completion as the window stores them: STATUS, FLAGS without PHASE and DUP, MARK, EVENTS, SEAL. -/
def cplBytes (status mark events : Nat) (seal8 : Bytes) (output : Bool) : Bytes :=
  leBytes 2 status ++ leBytes 1 (4 * output.toNat) ++ leBytes 1 mark ++ zeros 4 ++ leBytes 2 events ++ zeros 6
    ++ fit 8 seal8

/-- Posts `n` duplicates of a stored completion. -/
def State.cqDups (s : State) (q id : Nat) (c : Bytes) : Nat → State
  | 0 => s
  | n + 1 => (s.cqDup q id c).cqDups q id c n

/-- R446, R448: a submission completes: it is stored in the window, its entry is posted, and the duplicates that came
while it ran are answered after it. -/
def State.hostFinish (s : State) (q id status mark events : Nat) (seal8 : Bytes) (output : Bool) : State :=
  let x := s.queue q
  let lost := (x.jobs.find? fun j => j.id == id).any (·.lost)
  let c := cplBytes status mark events seal8 output
  let dups := total ((x.window.filter fun w => w.id == id).map (·.dups))
  let s := s.modQueue q fun x => { x with
    jobs := x.jobs.filter fun j => j.id != id,
    window := x.window.map fun w => if w.id == id then { w with completion := some c, dups := 0 } else w }
  let s := if lost then s.bump Reg.hostCountDropped else s.cqPost q status mark id events seal8 output false
  s.cqDups q id c dups

/-- R454: a real result that found no room is staged once there is room, in order. -/
def State.stageWaiting : Nat → State → State
  | 0, s => s
  | n + 1, s => match s.host.waitingOut with
    | [] => s
    | r :: rest =>
      if recBytes r.body.length ≤ s.stagingFree then
        State.stageWaiting n ({ s with host := { s.host with waitingOut := rest } }.stage r)
      else s

end Sys2Proof.Machine
end

