-- ==== Sys2Proof/Machine/Emit.lean ====
section
/-! DEFINITION. Outputs: the header (R392), the seal (R399, R400), the marks, and the output paths (R390, R393, R454);
the completion that an output of a host launch leads to (R448). -/
namespace Sys2Proof.Machine

/-- One of several allowed values: the spec leaves the choice open (log entry 5). -/
def State.pick (s : State) (l : List Nat) : Nat × State :=
  match l with
  | [] => (0, s)
  | [x] => (x, s)
  | _ => let (n, s) := s.fresh; (l.getD (n % l.length) 0, s)

/-- Counts and raises a code of Table 19-10 in a channel's dispatcher. -/
def State.dEvt (s : State) (ch code : Nat) : State :=
  let s := match code with
    | 0x8001 => s.bump (Reg.dispCountALate ch)
    | 0x8002 => s.bump (Reg.dispCountALateDiscard ch)
    | 0x8003 => s.bump (Reg.dispCountAFaulted ch)
    | 0x8005 => s.bump (Reg.dispCountBOverflow ch)
    | 0x8006 => s.bump (Reg.dispCountACancelled ch)
    | 0x8007 => s.bump (Reg.dispCountBInvalid ch)
    | 0x8008 => s.bump (Reg.dispCountBPreempted ch)
    | 0x800A => s.bump (Reg.dispCountBOutBlocked ch)
    | _ => s
  s.evt code ch

/-- R433: the SIMPLEX mark of a channel's outputs, kept while a function that came from SIMPLEX is ARMING. -/
def State.simplexMark (s : State) (ch : Nat) : Nat :=
  match s.fnOf ch with
  | none => 0
  | some f => if (s.fn f).st == .simplex || ((s.fn f).st == .arming && (s.fn f).fromSimplex) then 4 else 0

/-- R392, Table 19-6: the 40-byte output header. -/
def outHeader (t : Trigger) (ctxNo mark fault events missing len : Nat) (sealBytes : Bytes) : Bytes :=
  leBytes 6 t.event ++ leBytes 1 mark ++ leBytes 1 ctxNo ++ leBytes 2 t.head ++ leBytes 2 t.frameFlags
    ++ leBytes 2 fault ++ leBytes 2 events ++ leBytes 4 missing ++ leBytes 2 len ++ zeros 2 ++ leBytes 8 t.tick
    ++ fit 8 sealBytes

/-- R400: the seal's tail. -/
def sealTail (mark fault missing events : Nat) (modes : List Word) (out : Bytes) : Bytes :=
  leBytes 1 mark ++ leBytes 1 modes.length ++ leBytes 2 fault ++ leBytes 4 missing ++ leBytes 2 events
    ++ leBytes 2 out.length ++ zeros 4 ++ (modes.flatMap fun m => leBytes 8 m.toNat) ++ out

/-- R400: the seal of an output. -/
def sealOf (t : Trigger) (mark fault missing events : Nat) (modes : List Word) (out : Bytes) : Bytes :=
  sha256 (t.prefixBytes ++ sealTail mark fault missing events modes out)

/-- R399, Table 20-2: the seal prefix of a trigger. -/
def State.sealPrefix (s : State) (ch : Nat) (t : Trigger) (unbound : Bool) : Bytes :=
  [0x4F, 0x4C, 0x4D, 0x53, 0x45, 0x41, 0x4C, 0x31] ++ fit 48 s.img.memberDigest
    ++ sget (sha256 []) s.sealer.weights ch ++ fit 32 t.input ++ leBytes 6 t.event ++ leBytes 2 t.head
    ++ leBytes 2 t.frameFlags ++ leBytes 1 (t.kind + 128 * unbound.toNat) ++ zeros 5
    ++ slice (s.launchEntry ch t.head) 8 8 ++ zeros 48

/-! ### Completions of host launches -/

/-- The completion owed for a trigger's submission. -/
def isDone (r : HostRef) (d : HostDone) : Bool := d.ref == r

/-- R448: posts the completion of a host launch whose context has ended, whose outcome is decided and whose output record,
if it has one, is written. -/
def State.tryFinish (s : State) (ch : Nat) (r : HostRef) : State :=
  match (s.dsp ch).hostDone.find? (isDone r) with
  | none => s
  | some d =>
    if d.ended && d.decided && !d.outPending then
      (s.modDisp ch fun x => { x with hostDone := x.hostDone.filter fun e => !isDone r e }).hostFinish
        r.queue r.id d.status d.mark d.events d.seal8 d.output
    else s

/-- Changes what is known of a host launch's outcome and posts its completion when that is all. -/
def State.setDone (s : State) (ch : Nat) (t : Trigger) (f : HostDone → HostDone) : State :=
  match t.hostRef with
  | none => s
  | some r => (s.modDisp ch fun x => { x with
      hostDone := x.hostDone.map fun d => if isDone r d then f d else d }).tryFinish ch r

/-- The first outcome decided stays. -/
def HostDone.decide (d : HostDone) (status mark events : Nat) (seal8 : Bytes) (output : Bool) : HostDone :=
  if d.decided then d else
    { d with decided := true, status := status, mark := mark, events := events, seal8 := seal8, output := output,
             outPending := output }

/-! ### The output paths -/

/-- R454: the queue of a host output; none where the head names no queue. -/
def hostQueueOf (e : Bytes) (t : Trigger) : Option Nat :=
  if leHostQueue e < 64 then some (leHostQueue e)
  else if leTrigger e == 3 then t.hostRef.map (·.queue) else none

/-- R393: a due output that does not leave. -/
def State.outBlocked (s : State) (ch : Nat) : State := s.dEvt ch 0x800A

/-- R390, R393, R454: writes an output into its path. -/
def State.outPath (s : State) (ch : Nat) (t : Trigger) (real : Bool) (header sealBytes out : Bytes) (status mark events : Nat) :
    State :=
  let e := s.launchEntry ch t.head
  if leOutKind e == 1 then
    let q := 4 * ch + leOutQuad e
    let s := if s.wglReserveFree q (leOutStream e) then
        let (tag, s) := s.fresh
        let (m, s) := s.wglMake q (leOutStream e) 1 tag [] (header ++ out)
        s.wglStore q m true
      else s.outBlocked ch
    s.setDone ch t fun d => d.decide status mark events sealBytes false
  else if leOutKind e == 2 then
    match hostQueueOf e t with
    | none => (s.outBlocked ch).setDone ch t fun d => d.decide status mark events sealBytes false
    | some q =>
      let r : Staged := { queue := q, kind := 1, ch := ch, srcKind := 2, src := ch, tag := t.head, user := 0,
                          body := header ++ sealBytes ++ out, reserve := !real,
                          ref := t.hostRef.map fun x => (ch, x.queue, x.id) }
      let held := (s.host.staged.filter fun x => x.reserve && x.queue == q).length
      if !s.queueUp q || (!real && 16 ≤ held) then
        (s.outBlocked ch).setDone ch t fun d => d.decide status mark events sealBytes false
      else
        let s := if !real || recBytes r.body.length ≤ s.stagingFree then s.stage r
          else { s with host := { s.host with waitingOut := s.host.waitingOut ++ [r] } }
        s.setDone ch t fun d => d.decide status mark events sealBytes true
  else s.setDone ch t fun d => d.decide status mark events [] false

/-- R249: the dispatcher's island of a channel runs. -/
def State.dispUp (s : State) (ch : Nat) : Bool := !(s.island (0x420 + ch)).stopped

/-- R249, R390, R391, R403, R410, R412, R420: emits an output: seals it, records it, and sends it on its path. During a replay a
real result is compared and nothing is sent; the follower of a channel pair sends nothing. -/
def State.emitOut (s : State) (ch : Nat) (t : Trigger) (ctxNo mark0 fault events missing : Nat) (modes : List Word)
    (out : Bytes) (real : Bool) (status : Nat) : State :=
  let mark := mark0 + s.simplexMark ch
  let sl := sealOf t mark fault missing events modes out
  let h := outHeader t ctxNo mark fault events missing out.length sl
  if s.liveIgnored then (if real then s.replayCompare ch h sl else s)
  else if s.isFollower ch || !s.dispUp ch then s
  else
    let s := if s.hrdOutputs then s.hrdRecord 0x60 ch t.event (h ++ sl) else s
    s.outPath ch t real h sl out status mark events

/-- R390, R392: emits the fallback of a trigger's head. -/
def State.emitFallback (s : State) (ch : Nat) (t : Trigger) (ctxNo mark fault events missing status : Nat) : State :=
  s.emitOut ch t ctxNo mark fault events missing [] (leFallback (s.launchEntry ch t.head)) false status

/-- R377, R379, R429: a trigger leaves without a context: its fallback is emitted if its head has a deadline, and a host
launch completes. -/
def State.dropTrigger (s : State) (ch : Nat) (t : Trigger) (mark fault status : Nat) : State :=
  let s := if t.deadline.isSome then
      let (k, s) := s.fresh
      s.emitFallback ch t (k % 256) mark fault 0 0 status
    else s
  s.setDone ch t fun d => { d.decide status 0 0 [] false with ended := true }

end Sys2Proof.Machine
end

