-- ==== Sys2Proof/Machine/SafeEntry.lean ====
section
/-! DEFINITION. Compared messages and the delay registers (R421 to R424), and the release of a message that needs no
comparison or has been matched. -/
namespace Sys2Proof.Machine

/-- SAFE.STATUS encoding of a function state (Table 21-3). -/
def SafeSt.code : SafeSt → Nat
  | .none => 0 | .disarmed => 1 | .arming => 2 | .armed => 3 | .simplex => 4 | .curled => 5

/-- R421: a MIRROR message to the partner of a device pair. -/
def State.mirror (s : State) (f kind : Nat) (payload : Bytes) : State :=
  let e := s.fnEntry f
  s.wglSend (fieldLE e 3 1) (fieldLE e 4 1) 6 0 (leBytes 1 kind ++ leBytes 1 f ++ leBytes 1 (s.fn f).st.code) payload

/-- R423, Table 21-6: an entry as the 96 bytes of a RECORD. -/
def DelayEntry.toBytes (e : DelayEntry) : Bytes :=
  leBytes 1 e.cls ++ leBytes 1 e.ch ++ leBytes 1 e.outcome ++ zeros 1 ++ leBytes 4 e.seq ++ fit 16 e.key
    ++ leBytes 8 e.crc ++ fit 32 e.input ++ fit 32 e.compare

/-- R423: the entry a RECORD carries, at its tick of arrival. -/
def DelayEntry.ofBytes (b : Bytes) (tick : Nat) : DelayEntry :=
  { cls := fieldLE b 0 1, ch := fieldLE b 1 1, outcome := fieldLE b 2 1, seq := fieldLE b 4 4, key := slice b 8 16,
    fault := if fieldLE b 0 1 == 1 then fieldLE b 10 2 else 0, crc := fieldLE b 24 8, input := slice b 32 32,
    compare := slice b 64 32, arrived := tick }

/-- R424: entries one side of a function holds: side 0 is the leader or the local device. -/
def SafeFn.side (x : SafeFn) (side : Nat) : List DelayEntry := if side == 0 then x.local0 else x.remote0

/-- R424, R425: an entry put into the registers of both comparator instances of its side. -/
def SafeFn.push (x : SafeFn) (side : Nat) (e : DelayEntry) : SafeFn :=
  if side == 0 then { x with local0 := x.local0 ++ [e], local1 := x.local1 ++ [e] }
  else { x with remote0 := x.remote0 ++ [e], remote1 := x.remote1 ++ [e] }

/-- R424, R427, R436: a side's register takes an entry: it has room and the start-up self-test has run. -/
def SafeFn.takes (x : SafeFn) (side : Nat) : Bool := x.selfTest && decide ((x.side side).length < 256)

/-- R424: an entry that finds room takes its SIDE_SEQ and is made; in a device pair its RECORD is sent. -/
def State.enter (s : State) (f side : Nat) (e : DelayEntry) : State :=
  let x := s.fn f
  let q := if side == 0 then x.seq0 else x.seq1
  let e := { e with seq := q, arrived := s.now }
  let s := s.modFn f fun x => ({ x with
    seq0 := if side == 0 then (x.seq0 + 1) % 2 ^ 32 else x.seq0,
    seq1 := if side == 0 then x.seq1 else (x.seq1 + 1) % 2 ^ 32 }).push side e
  if s.fnDevice f then s.mirror f 1 e.toBytes else s

/-- R424: entries that waited for room in their register are made, oldest first. -/
def State.fillEgress : Nat → State → Nat → State
  | 0, s, _ => s
  | n + 1, s, f =>
    match (s.fn f).egress.find? fun w => (s.fn f).takes w.1.toNat with
    | none => s
    | some w => State.fillEgress n ((s.modFn f fun x => { x with egress := x.egress.erase w }).enter f w.1.toNat w.2) f

/-- R423: the egress of a channel's side forms an entry. -/
def State.makeEntry (s : State) (f ch cls outcome : Nat) (key : Bytes) (fault : Nat) (compared input message : Bytes)
    (ctx : Nat) : State :=
  let side := !s.fnDevice f && s.isFollower ch
  let e : DelayEntry := { cls := cls, ch := if side then partnerOf ch else ch, outcome := outcome, seq := 0, key := key,
                          fault := fault, crc := crc64 compared, input := input, compare := sha256 compared,
                          arrived := s.now, ctx := ctx, message := message }
  if (s.fn f).takes side.toNat && !((s.fn f).egress.any fun w => w.1 == side) then s.enter f side.toNat e
  else s.modFn f fun x => { x with egress := x.egress ++ [(side, e)] }

/-- The function whose comparison runs for a channel: DISARMED, ARMING or ARMED (Table 21-3). -/
def State.comparing (s : State) (ch : Nat) : Option Nat :=
  match s.fnOf ch with
  | none => none
  | some f => if (s.fn f).st == .disarmed || (s.fn f).st == .arming || (s.fn f).st == .armed then some f else none

/-- The channel belongs to a CURLED function. -/
def State.curledFn (s : State) (ch : Nat) : Option Nat :=
  match s.fnOf ch with
  | none => none
  | some f => if (s.fn f).st == .curled then some f else none

/-- KEY of CLASS 1: ENTRY, FAULT_CODE, EVENT (Table 21-6). -/
def outcomeKey (entry fault event : Nat) : Bytes := leBytes 2 entry ++ leBytes 2 fault ++ leBytes 6 event ++ zeros 6

/-- R423: the compared bytes of an abort. -/
def abortBytes (event entry fault : Nat) : Bytes := leBytes 8 event ++ leBytes 2 entry ++ leBytes 2 fault

/-- R422: the outcome entry of an abort, for a head with an output in a channel whose comparison runs. -/
def State.abortEntry (s : State) (ch k outcome fault : Nat) (t : Trigger) : State :=
  match s.comparing ch with
  | none => s
  | some f =>
    if leOutKind (s.launchEntry ch t.head) == 0 then s else
    s.makeEntry f ch 1 outcome (outcomeKey t.head fault t.event) fault (abortBytes t.event t.head fault) t.input [] k

/-- "OLMCMP01". -/
def cmpTag : Bytes := [0x4F, 0x4C, 0x4D, 0x43, 0x4D, 0x50, 0x30, 0x31]

/-- R426: a message released: a Waggle message into its port's transmit store, a host message into host staging. -/
def State.releaseMsg (s : State) (cls : Nat) (key message : Bytes) (ch : Nat) : State :=
  if cls == 2 then s.wglStore (4 * ch + fieldLE key 0 1) message false
  else
    let q := fieldLE key 0 2
    if !s.queueUp q then s.bump Reg.hostCountDropped else
    s.stage { queue := q, kind := 2, ch := fieldLE message 0 1, srcKind := fieldLE message 1 1, src := fieldLE message 2 2,
              tag := fieldLE message 4 2, user := fieldLE message 6 2, body := message.drop 16 }

/-- R422, R426, R429, R433: a message that a cell sends on a Waggle stream (CLASS 2) or to the host (CLASS 3) leaves, is held
for comparison, or is discarded while its function is CURLED. -/
def State.egressMsg (s : State) (ch cls : Nat) (key compared message : Bytes) : State :=
  match s.comparing ch, s.curledFn ch with
  | some f, _ => s.makeEntry f ch cls 0 key 0 compared (zeros 32) message 0
  | none, some _ => s
  | none, none => if s.isFollower ch then s else s.releaseMsg cls key message ch

end Sys2Proof.Machine
end

