-- ==== Sys2Proof/Machine/DispCore.lean ====
section
/-! DEFINITION. The dispatcher's shared operations: acceptance of a trigger (R377, R420), the trigger queue, the end and the
abort of a context (R382, R384), and the decision of its output (R389 to R391, R394, R395). -/
namespace Sys2Proof.Machine

/-! ### Stopping swarms -/

/-- R114: EXIT or KILL takes a swarm to EXITING: it issues nothing more, and its earlier work drains. -/
def Swarm.leave (w : Swarm) : Swarm :=
  if w.st == .active || w.st == .parked then
    { w with st := .exiting, shadow := none, parkReq := none, mem := none, asyncFaults := [], fetching := [],
             replay := none, reissue := none }
  else w

/-- The logical cells of the rectangle of the launch that context `k` runs. -/
def State.ctxCells (s : State) (ch k : Nat) : List Nat := leCells ch (s.launchEntry ch (s.ctx ch k).entry)

/-- Swarm slots of a cell that belong to context `k`. -/
def CellMem.slotsOfCtx (c : CellMem) (k : Nat) : List Nat :=
  (List.range 16).filter fun i => (c.swarm i).ctx == some k && (c.swarm i).st != .free

/-- R381, R382: what the launch of context `k` holds on one cell is freed: region registers and replicas. -/
def CellMem.freeLaunch (c : CellMem) (k : Nat) : CellMem :=
  { c with regions := c.regions.filter fun r => r.ctx != k, replicas := c.replicas.filter fun r => r.ctx != k }

/-- R382: every remaining swarm of context `k` on a cell is killed, parked ones included, and belongs to no context. -/
def CellMem.stopCtx (c : CellMem) (k : Nat) : CellMem :=
  let c' := (c.slotsOfCtx k).foldl (fun c i =>
    { c.modSwarm i fun w => { w.leave with ctx := none } with supervised := c.supervised.filter fun p => p.2.1 != i }) c
  c'.freeLaunch k

/-- R382, R394: stops the launch that context `k` runs, on every cell of its rectangle. -/
def State.stopLaunch (s : State) (ch k : Nat) : State :=
  (s.ctxCells ch k).foldl (fun s id => s.modCell id fun c => c.stopCtx k) s

/-- R380: in this phase a context holds its launch's reservation. -/
def CtxPhase.holds : CtxPhase → Bool
  | .dead | .waiting | .saved => false
  | .reserved | .running | .parking | .saving | .restoring => true

/-- R380: swarm slots and lane-register blocks of a cell that the dispatcher has reserved and no swarm uses yet. -/
def State.heldBack (s : State) (id : Nat) : Nat × Nat :=
  let ch := chOf id
  (List.range 16).foldl (fun a k =>
    let c := s.ctx ch k
    if c.phase.holds && (s.ctxCells ch k).contains id then
      let e := s.launchEntry ch c.entry
      let n := leSwarms e - ((s.cell id).slotsOfCtx k).length
      (a.1 + n, a.2 + n * leVb e)
    else a) (0, 0)

/-! ### The end of a context -/

/-- R298: a slot that is released goes to the oldest event that waits for one; its staged bytes are still to be written. -/
def Ing.release (g : Ing) (slot : Nat) : Ing :=
  if !g.slots.contains slot then g else
  match g.events.find? fun e => e.slot.isNone with
  | none => { g with slots := g.slots.erase slot }
  | some e => { g with events := g.events.map fun x => if x == e then { x with slot := some slot, lag := true } else x }

/-- R384: the frame slot handed with a trigger is released. -/
def State.releaseSlot (s : State) (ch : Nat) (t : Trigger) : State :=
  if t.slot == 15 then s
  else if t.kind == 1 then { s with ing := smod {} s.ing ch fun x => x.release t.slot }
  else if t.kind == 2 then { s with cam := smod {} s.cam ch fun x => { x with slots := x.slots.erase t.slot } }
  else s

/-- Context numbers that are free. -/
def Disp.freeCtxs (d : Disp) : List Nat := (List.range 16).filter fun k => (sget {} d.ctxs k).phase == .dead

/-- R377: a queued trigger may take a context: its deadline has not passed. -/
def Trigger.due (t : Trigger) (now : Nat) : Bool :=
  match t.deadline with
  | none => true
  | some d => now < d

/-- R377: the trigger that leaves the queue next: highest PRIORITY, then oldest. -/
def State.nextTrigger (s : State) (ch : Nat) : Option Trigger :=
  let q := (s.dsp ch).queue.filter fun t => t.due s.now
  let pr := fun t : Trigger => lePriority (s.launchEntry ch t.head)
  (q.find? fun t => pr t == 3) <|> (q.find? fun t => pr t == 2) <|> (q.find? fun t => pr t == 1) <|> q.head?

/-- R377: queued triggers take free contexts. The number of the context is any free one. -/
def State.serveQueue : Nat → State → Nat → State
  | 0, s, _ => s
  | n + 1, s, ch =>
    match s.nextTrigger ch, (s.dsp ch).freeCtxs with
    | some t, k0 :: ks =>
      let (k, s) := s.pick (k0 :: ks)
      let s := s.modDisp ch fun d => { d with queue := d.queue.erase t }
      let s := s.modCtx ch k fun _ => { phase := .waiting, trig := t, entry := t.head }
      let s := s.setDone ch t fun d => { d with ctx := k }
      State.serveQueue n s ch
    | _, _ => s

/-- R376, R384: a context ends: its frame slot is released, its number is free. -/
def State.endCtx (s : State) (ch k : Nat) : State :=
  let t := (s.ctx ch k).trig
  let s := if (s.ctx ch k).slotDone then s else s.releaseSlot ch t
  let s := s.modCtx ch k fun _ => {}
  let s := s.modDisp ch fun d => { d with syncWalks := d.syncWalks.filter fun w => w.1 != k }
  let s := s.setDone ch t fun d => { d with ended := true }
  State.serveQueue 16 s ch

/-- R382: the running launch of a context is aborted with a code. -/
def State.abortCtx (s : State) (ch k code : Nat) : State :=
  let c := s.ctx ch k
  if c.phase == .dead then s else
  let s := (s.dEvt ch 0x8003).stopLaunch ch k
  let s := s.abortEntry ch k 1 code c.trig
  let s := if c.outLeft then s
    else if c.trig.deadline.isSome then s.emitFallback ch c.trig k 0x19 code c.events c.missing code
    else s.setDone ch c.trig fun d => d.decide code 0 c.events [] false
  s.endCtx ch k

/-! ### Results and deadlines -/

/-- R395: the latency of a ready result is recorded against its head entry. -/
def State.latency (s : State) (ch : Nat) (t : Trigger) : State :=
  let l := s.now - t.tick
  let b := leBound (s.launchEntry ch t.head)
  let ovf := b != 0 && b < l
  let s := s.modDisp ch fun d => { d with latency := smod {} d.latency t.head fun x =>
    { maxLatency := max x.maxLatency (min l (2 ^ 32 - 1)),
      overBound := if ovf then min 0xFFFF (x.overBound + 1) else x.overBound } }
  if ovf then s.dEvt ch 0x800B else s

/-- R389, R394: the LATE fallback of a living context; with ABORT_LATE its launch is aborted and it ends. -/
def State.lateCtx (s : State) (ch k : Nat) : State :=
  let c := s.ctx ch k
  let s := (s.dEvt ch 0x8001).emitFallback ch c.trig k 0x09 0 c.events c.missing 0x8001
  let s := s.modCtx ch k fun x => { x with outLeft := true }
  if leAbortLate (s.launchEntry ch c.trig.head) then
    ((s.stopLaunch ch k).abortEntry ch k 2 0 c.trig).endCtx ch k
  else s

/-- R248: the Seal island is stopped. -/
def State.sealDown (s : State) : Bool := (s.island 0x42B).stopped

/-- R248: a real result that finds the Seal island stopped does not leave. -/
def State.unsealed (s : State) (ch k : Nat) (t : Trigger) (events missing : Nat) : State :=
  let s := s.dEvt ch 0x8002
  if t.deadline.isSome then s.emitFallback ch t k 0x19 0xC008 events missing 0xC008
  else s.setDone ch t fun d => d.decide 0xC008 0 events [] false

/-- R389, R393, R395: a living context's real result becomes ready. -/
def State.ctxReady (s : State) (ch k : Nat) : State :=
  let c := s.ctx ch k
  let s := s.latency ch c.trig
  let s := s.modCtx ch k fun x => { x with ready := some s.now }
  if c.outLeft then s.dEvt ch 0x8002
  else if !c.trig.due s.now then (s.dEvt ch 0x8002).lateCtx ch k
  else if s.sealDown then (s.unsealed ch k c.trig c.events c.missing).modCtx ch k fun x => { x with outLeft := true }
  else
    let job : SealJob := { ctx := k, trig := c.trig, modes := c.modes, events := c.events, mark := 0,
                           result := c.resultBytes }
    (s.modCtx ch k fun x => { x with outLeft := true }).modDisp ch fun d => { d with sealJobs := d.sealJobs ++ [job] }

/-- R389, R393, R426, R433: the real result of an ended context becomes ready. `mark` is 1 where its output has left. -/
def State.jobReady (s : State) (ch : Nat) (j : SealJob) : State :=
  let s := s.latency ch j.trig
  if j.mark == 1 then s.dEvt ch 0x8002
  else if !j.trig.due s.now then
    ((s.dEvt ch 0x8002).dEvt ch 0x8001).emitFallback ch j.trig j.ctx 0x09 0 j.events 0 0x8001
  else if s.sealDown then s.unsealed ch j.ctx j.trig j.events 0
  else s.modDisp ch fun d => { d with sealJobs := d.sealJobs ++ [{ j with mark := 0 }] }

/-- R389, R425: the fallback of a result that waits for its comparison has left: one withheld is forgotten. -/
def State.jobLate (s : State) (ch : Nat) (j : SealJob) : State :=
  s.modDisp ch fun d => { d with
    waitMatch := if j.dead then d.waitMatch.erase j
      else d.waitMatch.map fun x => if x == j then { x with mark := 1 } else x }

/-- The result of a head entry and event that waits for its comparison, oldest first. -/
def State.waitingJob (s : State) (ch entry event : Nat) : Option SealJob :=
  (s.dsp ch).waitMatch.find? fun j => !j.dead && j.trig.head == entry && j.trig.event == event

/-- R426, R433: the real result of an entry and event is released by its comparison or by SIMPLEX. -/
def State.jobReleased (s : State) (ch entry event : Nat) : State :=
  match s.waitingJob ch entry event with
  | none => s
  | some j => (s.modDisp ch fun d => { d with waitMatch := d.waitMatch.erase j }).jobReady ch j

/-- R425: a result withheld is never ready: its deadline still sends its fallback; without one a host launch completes. -/
def State.jobWithheld (s : State) (ch entry event : Nat) : State :=
  match s.waitingJob ch entry event with
  | none => s
  | some j =>
    if j.mark == 0 && j.trig.deadline.isSome then s.modDisp ch fun d => { d with
      waitMatch := d.waitMatch.map fun x => if x == j then { x with dead := true } else x }
    else (s.modDisp ch fun d => { d with waitMatch := d.waitMatch.erase j }).setDone ch j.trig fun d =>
      d.decide 0x8004 0 j.events [] false

/-- R388: the dispatcher holds all RESULT_LEN bytes of a context's result. -/
def State.resultWhole (s : State) (ch k : Nat) : Bool :=
  let c := s.ctx ch k
  match c.lastPiece with
  | none => false
  | some n => decide (c.pieces.length = n + 1)

/-- R391, R422: the last launch of a context completes: its result is ready already, or becomes ready by comparison or in
SIMPLEX, or is missing. -/
def State.completeCtx (s : State) (ch k : Nat) : State :=
  let c := s.ctx ch k
  let whole := s.resultWhole ch k
  let hasOut := leOutKind (s.launchEntry ch c.trig.head) != 0
  if c.ready.isSome then s.endCtx ch k
  else if whole then
    match s.comparing ch with
    | some f =>
      if hasOut then
        let job : SealJob := { ctx := k, trig := c.trig, modes := c.modes, events := c.events,
                               mark := c.outLeft.toNat, result := c.resultBytes }
        let cmp := c.trig.prefixBytes ++ sealTail 0 0 0 c.events c.modes c.resultBytes
        let s := s.modDisp ch fun d => { d with waitMatch := d.waitMatch ++ [job] }
        (s.makeEntry f ch 1 0 (outcomeKey c.trig.head 0 c.trig.event) 0 cmp c.trig.input [] k).endCtx ch k
      else (s.ctxReady ch k).endCtx ch k
    | none => (s.ctxReady ch k).endCtx ch k
  else
    let s := s.dEvt ch 0x8004
    let s := if c.outLeft then s
      else if c.trig.deadline.isSome then s.emitFallback ch c.trig k 0x09 0 c.events c.missing 0x8004
      else s.setDone ch c.trig fun d => d.decide 0x8004 0 c.events [] false
    s.endCtx ch k

/-! ### Acceptance -/

/-- R377: queues an accepted trigger, or drops it with the code that the full queue, a drain or a curled function gives. -/
def State.enqueue (s : State) (ch : Nat) (t : Trigger) : State :=
  let s := match t.hostRef with
    | none => s
    | some r => s.modDisp ch fun d => { d with hostDone := d.hostDone ++ [({ ref := r, ctx := 0, event := t.event } : HostDone)] }
  match s.curledFn ch with
  | some f =>
    let cause := if f == 0 then s.rd Reg.safeCause0Code else s.rd Reg.safeCause1Code
    (s.releaseSlot ch t).dropTrigger ch t 0x19 cause cause
  | none =>
    if (s.dsp ch).drain then ((s.releaseSlot ch t).dEvt ch 0x8006).dropTrigger ch t 0x09 0 0x8006
    else if 64 ≤ (s.dsp ch).queue.length then ((s.releaseSlot ch t).dEvt ch 0x8005).dropTrigger ch t 0x09 0 0x8005
    else State.serveQueue 16 (s.modDisp ch fun d => { d with queue := d.queue ++ [t] }) ch

/-- R377, R399: a trigger accepted now: its trigger tick, its deadline tick and its seal prefix are fixed. A replay treats
every DEADLINE as 0 (R410). -/
def State.acceptNow (s : State) (ch : Nat) (t : Trigger) (tick : Option Nat) (unbound : Bool) : State :=
  let e := s.launchEntry ch t.head
  let tt := tick.getD s.now
  let d := if leDeadline e == 0 || s.liveIgnored then none else some (tt + leDeadline e)
  let t := { t with tick := tt, deadline := d, accepted := s.now }
  s.enqueue ch { t with prefixBytes := s.sealPrefix ch t unbound }

/-- R420: two triggers of a channel pair are the same one. -/
def Trigger.sameAs (a b : Trigger) : Bool := a.head == b.head && a.event == b.event && a.kind == b.kind

/-- R249, R377, R420: the dispatcher accepts a trigger that names a valid head entry of its kind. `tick` is none where T is the tick
of acceptance; `unbound` is R402's UNBOUND. In a channel pair it is accepted once both dispatchers have it. -/
def State.accept (s : State) (ch : Nat) (t : Trigger) (tick : Option Nat) (unbound : Bool) : State :=
  if !s.dispUp ch then s
  else if !s.configured ch || !s.isHead ch t.head t.kind then (s.releaseSlot ch t).dEvt ch 0x8007
  else if s.isPair ch && s.configured (partnerOf ch) then
    let p := partnerOf ch
    match (s.dsp p).coupled.find? t.sameAs with
    | none => s.modDisp ch fun d => { d with coupled := d.coupled ++ [{ t with accepted := unbound.toNat }] }
    | some u =>
      let s := s.modDisp p fun d => { d with coupled := d.coupled.erase u }
      let s := s.acceptNow ch t tick unbound
      s.acceptNow p u tick (u.accepted == 1)
  else s.acceptNow ch t tick unbound

/-- R379, R43: a drain cancels every queued trigger. -/
def State.cancelQueue (s : State) (ch mark fault status : Nat) : State :=
  let q := (s.dsp ch).queue
  let s := s.modDisp ch fun d => { d with queue := [], coupled := [] }
  q.foldl (fun s t => ((s.releaseSlot ch t).dEvt ch 0x8006).dropTrigger ch t mark fault status) s

/-- R379: clears armed slots, each with TRIG_CANCELLED, and records them as cancelled. -/
def State.cancelArm (s : State) (ch slot outcome : Nat) : State :=
  let a := sget {} (s.dsp ch).arms slot
  if !a.armed then s else
  let s := s.modDisp ch fun d => { d with arms := sdel d.arms slot }
  let s := s.hrdRecord 0x21 ch a.count (leBytes 2 a.entry ++ leBytes 1 slot ++ leBytes 1 outcome ++ zeros 4)
  s.dEvt ch 0x8006

/-- R379: an armed slot cancelled outright; its fallback follows with these marks if its entry has a deadline. -/
def State.cancelCountAs (s : State) (ch slot outcome mark fault status : Nat) : State :=
  let a := sget {} (s.dsp ch).arms slot
  if !a.armed then s else
  let e := s.launchEntry ch a.entry
  let t : Trigger := { head := a.entry, kind := 4, event := a.count % 2 ^ 48, tick := a.count,
                       input := sha256 (leBytes 8 a.count),
                       deadline := if leDeadline e == 0 then none else some (a.count + leDeadline e) }
  let t := { t with prefixBytes := s.sealPrefix ch t false }
  (s.cancelArm ch slot outcome).dropTrigger ch t mark fault status

/-- R379: an armed slot cancelled outright. -/
def State.cancelCount (s : State) (ch slot outcome : Nat) : State := s.cancelCountAs ch slot outcome 0x09 0 0x8006

/-- Every armed slot of a channel cancelled. -/
def State.cancelArms (s : State) (ch : Nat) : State :=
  (List.range 16).foldl (fun s i => s.cancelCount ch i 4) s

/-- R382: a park of one of a cell's swarms reported to the dispatcher: it aborts its launch, or belongs to no launch. -/
def State.parkReport (s : State) (id slot code : Nat) : State :=
  match (s.swarm id slot).ctx with
  | some k => s.abortCtx (chOf id) k code
  | none => s.dEvt (chOf id) 0x800C

end Sys2Proof.Machine
end

