-- ==== Sys2Proof/Machine/Curl.lean ====
section
/-! DEFINITION. The curled state (R429), faults that curl (R428), arming refused (R417) and the pins CURL_N and FAULT_N
(R430). -/
namespace Sys2Proof.Machine

/-- SAFE.CAUSE of a function: CODE, FIELD and TICK. -/
def State.setCause (s : State) (f code field : Nat) : State :=
  if f == 0 then ((s.wr Reg.safeCause0Code code).wr Reg.safeCause0Field field).wr Reg.safeCause0Tick s.now
  else ((s.wr Reg.safeCause1Code code).wr Reg.safeCause1Field field).wr Reg.safeCause1Tick s.now

/-- SAFE.COUNT.FAULTS of a function. -/
def fnFaults (f : Nat) : RegField := if f == 0 then Reg.safeCount0Faults else Reg.safeCount1Faults
/-- SAFE.COUNT.MATCHED of a function. -/
def fnMatched (f : Nat) : RegField := if f == 0 then Reg.safeCount0Matched else Reg.safeCount1Matched
/-- SAFE.COUNT.INPUT_DIVERGE of a function. -/
def fnDiverged (f : Nat) : RegField := if f == 0 then Reg.safeCount0InputDiverge else Reg.safeCount1InputDiverge

/-- R416: Bristle holds a function armed. -/
def SafeFn.held (x : SafeFn) : Bool := x.st == .arming || x.st == .armed || x.st == .simplex || x.st == .curled

/-- R424, R429: every entry of a function's delay registers discarded. -/
def SafeFn.clearEntries (x : SafeFn) : SafeFn :=
  { x with local0 := [], local1 := [], remote0 := [], remote1 := [], egress := [] }

/-- Channels of a function. -/
def State.fnChs (s : State) (f : Nat) : List Nat := (List.range 4).filter fun ch => bitAt (s.fnChannels f) ch

/-- R429: the real results of a channel that wait for a comparison are discarded, each with its fallback. -/
def State.dropWaiting (s : State) (ch cause : Nat) : State :=
  let js := (s.dsp ch).waitMatch
  let s := s.modDisp ch fun d => { d with waitMatch := [] }
  js.foldl (fun s j =>
    if j.mark == 1 then s
    else if j.trig.deadline.isSome then s.emitFallback ch j.trig j.ctx 0x19 cause j.events 0 cause
    else s.setDone ch j.trig fun d => d.decide cause 0 j.events [] false) s

/-- R429, steps 3 and 4, in one channel. -/
def State.curlChannel (s : State) (ch cause : Nat) : State :=
  let s := (List.range 16).foldl (fun s i => s.cancelCount ch i 4) s
  let s := s.cancelQueue ch 0x19 cause cause
  let s := s.dropWaiting ch cause
  (List.range 16).foldl (fun s k => s.abortCtx ch k cause) s

/-- R429: a function curls with a cause. -/
def State.curl (s : State) (f cause : Nat) : State :=
  let s := s.modFn f fun x => { x.clearEntries with st := .curled }
  let s := (s.fnChs f).foldl (fun s ch => s.curlChannel ch cause) s
  let s := if s.fnDevice f then s.mirror f 3 (leBytes 2 cause ++ zeros 6) else s
  (s.setCause f cause 0).evt 0x900C 0

/-- The channel whose egress made an entry of a side; none for the entries of a partner device. -/
def State.entryCh (s : State) (f : Nat) (side : Nat) (e : DelayEntry) : Option Nat :=
  if side == 0 then some e.ch else if s.fnDevice f then none else some (partnerOf e.ch)

/-- EVENT of the KEY of a CLASS 1 entry. -/
def DelayEntry.event (e : DelayEntry) : Nat := fieldLE e.key 4 6
/-- ENTRY of the KEY of a CLASS 1 entry. -/
def DelayEntry.entry (e : DelayEntry) : Nat := fieldLE e.key 0 2

/-- R426, R433: an entry's real result becomes ready; its message leaves, from the leader alone in a channel pair. -/
def State.releaseEntry (s : State) (f side : Nat) (e : DelayEntry) : State :=
  match s.entryCh f side e with
  | none => s
  | some ch =>
    if e.cls == 1 then (if e.outcome == 0 then s.jobReleased ch e.entry e.event else s)
    else if side == 0 then s.releaseMsg e.cls e.key e.message ch
    else s

/-- R433: on entry into SIMPLEX the partner's entries are discarded and the local ones released. -/
def State.releaseHeld (s : State) (f : Nat) : State :=
  let x := s.fn f
  let l := x.local0 ++ (x.egress.filter fun w => !w.1).map (·.2)
  let s := s.modFn f fun x => { x.clearEntries with st := .simplex }
  l.foldl (fun s e => s.releaseEntry f 0 e) s

/-- R417: arming is refused: FIELD and CODE, and the state it came from. -/
def State.refuseArm (s : State) (f field : Nat) : State :=
  let back := (s.fn f).fromSimplex
  let s := s.modFn f fun x => { x with st := .disarmed, partnerArm := none, fromSimplex := false }
  let s := if back then s.releaseHeld f else s
  (s.setCause f 0x900D field).evt 0x900D 0

/-- R430: FAULT_N is asserted by these codes, until the next warm reset. -/
def assertsFaultN (code : Nat) : Bool := [0xC004, 0x9010, 0x9011, 0x9004, 0x9003].contains code

/-- R428, R432: a fault detected in a function: counted; it curls an ARMED or SIMPLEX function and refuses an ARMING one. -/
def State.safeFault (s : State) (f code : Nat) : State :=
  let s := if code / 0x1000 == 9 then s.evt code 0 else s
  let s := if assertsFaultN code then { s with pwr := { s.pwr with faultN := true } } else s
  let s := s.bump (fnFaults f)
  match (s.fn f).st with
  | .armed | .simplex => s.curl f code
  | .arming => s.refuseArm f 11
  | _ => s

/-- R428: a fault of a block of a channel, raised in the function the channel belongs to. -/
def State.channelFault (s : State) (ch code : Nat) : State :=
  match s.fnOf ch with
  | some f => s.safeFault f code
  | none => s

/-- R428: a fault that concerns every function. -/
def State.allFault (s : State) (code : Nat) : State :=
  let s := if assertsFaultN code then { s with pwr := { s.pwr with faultN := true } } else s
  let s := if code / 0x1000 == 9 then s.evt code 0 else s
  (List.range s.fnCount).foldl (fun s f => s.safeFault f code) s

/-- R430: CURL_N is asserted. -/
def State.curlN (s : State) : Bool :=
  s.pwr.porst || !s.pwr.loaded || s.pwr.watchdog
  || (List.range s.fnCount).any fun f => (s.fn f).st == .curled
       || (bitAt (s.fnFlags f) 1 && ((s.fn f).st == .disarmed || (s.fn f).st == .arming))

end Sys2Proof.Machine
end

