-- ==== Sys2Proof/Machine/Operands.lean ====
section
/-! DEFINITION. Operand forms: the element formats of Table 03-1, their decoding (R48 to R50, R52), the rounding
of a value into each of them (R57 to R61) and the two-level scales (R55). -/
namespace Sys2Proof.Machine

/-- The element formats of Table 03-1. -/
inductive Fmt where
  | raw | posit8 | posit16 | posit32 | int8 | uint8 | int4 | uint4 | e4m3 | e5m2 | fp16 | bf16 | fp32 | int32
deriving DecidableEq, Repr

/-- R45: the format a 4-bit code names; 0xE and 0xF are reserved. -/
def Fmt.ofCode : Nat → Option Fmt
  | 0 => some .raw | 1 => some .posit8 | 2 => some .posit16 | 3 => some .posit32
  | 4 => some .int8 | 5 => some .uint8 | 6 => some .int4 | 7 => some .uint4
  | 8 => some .e4m3 | 9 => some .e5m2 | 10 => some .fp16 | 11 => some .bf16
  | 12 => some .fp32 | 13 => some .int32 | _ => none

/-- Table 03-1: width in bits; RAW takes the width its structure names, 32 here. -/
def Fmt.width : Fmt → Nat
  | .raw => 32 | .posit8 => 8 | .posit16 => 16 | .posit32 => 32 | .int8 => 8 | .uint8 => 8 | .int4 => 4
  | .uint4 => 4 | .e4m3 => 8 | .e5m2 => 8 | .fp16 => 16 | .bf16 => 16 | .fp32 => 32 | .int32 => 32

/-- Table 03-1: the posit formats. -/
def Fmt.isPosit : Fmt → Bool
  | .posit8 | .posit16 | .posit32 => true
  | _ => false

/-- Table 03-4: the quantised codes. -/
def Fmt.isCode : Fmt → Bool
  | .int8 | .uint8 | .int4 | .uint4 => true
  | _ => false

/-- Formats whose element is an integer: the quantised codes and INT32. -/
def Fmt.isInt : Fmt → Bool
  | .int8 | .uint8 | .int4 | .uint4 | .int32 => true
  | _ => false

/-- Table 03-1: formats the matrix operand path accepts. -/
def Fmt.isOperand : Fmt → Bool
  | .raw | .fp32 | .int32 => false
  | _ => true

/-- Formats of the two-level scales (R54). -/
def Fmt.isScaled : Fmt → Bool
  | .posit8 | .e4m3 | .e5m2 => true
  | _ => false

/-- Table 03-4: lowest code. -/
def Fmt.codeLo : Fmt → Int
  | .int8 => -128 | .int4 => -8 | .int32 => -(2 ^ 31) | _ => 0

/-- Table 03-4: highest code. -/
def Fmt.codeHi : Fmt → Int
  | .int8 => 127 | .uint8 => 255 | .int4 => 7 | .uint4 => 15 | .int32 => 2 ^ 31 - 1 | _ => 0

/-- R50: the zero point is in its format's range. -/
def Fmt.zpOk (f : Fmt) (z : Int) : Bool :=
  if f.isCode then decide (f.codeLo ≤ z ∧ z ≤ f.codeHi) else z == 0

/-- A decoded element (R52). A finite value is `(-1)^neg * sig * 2^exp`; `sig = 0` is ZERO. NaR and NaN are
one class in the operand path; conversions tell them apart (Table 03-7). -/
inductive Val where
  | fin (neg : Bool) (sig : Nat) (exp : Int)
  | inf (neg : Bool)
  | nar
  | nan
deriving DecidableEq, Repr

/-- ZERO. -/
def Val.zero : Val := .fin false 0 0

/-- An integer times a power of two. -/
def Val.ofInt (x : Int) (e : Int) : Val := .fin (decide (x < 0)) x.natAbs e

/-- The signed significand of a finite value. -/
def Val.num : Val → Int
  | .fin neg sig _ => if neg then -(sig : Int) else sig
  | _ => 0

/-- The exponent of a finite value. -/
def Val.exp : Val → Int
  | .fin _ _ e => e
  | _ => 0

/-- ZERO of either sign. -/
def Val.isZero : Val → Bool
  | .fin _ sig _ => sig == 0
  | _ => false

/-- A non-zero finite value. -/
def Val.isFinite : Val → Bool
  | .fin _ sig _ => sig != 0
  | _ => false

/-- NaR or NaN. -/
def Val.isNar : Val → Bool
  | .nar | .nan => true
  | _ => false

/-- The sign. -/
def Val.neg : Val → Bool
  | .fin n _ _ => n
  | .inf n => n
  | _ => false

/-- The negation. -/
def Val.negate : Val → Val
  | .fin n s e => .fin (!n && s != 0) s e
  | .inf n => .inf !n
  | v => v

/-- The magnitude. -/
def Val.abs : Val → Val
  | .fin _ s e => .fin false s e
  | .inf _ => .inf false
  | v => v

/-- `x * 2^k`, rounded toward minus infinity. -/
def shiftI (x k : Int) : Int :=
  if 0 ≤ k then x * 2 ^ k.toNat else x / 2 ^ (-k).toNat

/-- `floor (log2 |x|)` of a non-zero finite value. -/
def Val.scale : Val → Int
  | .fin _ s e => e + (lg s : Int)
  | _ => 0

/-- Exact sum of two values of R52's classes: any NaR, or infinities of both signs, give NaR. -/
def Val.add : Val → Val → Val
  | .nar, _ | _, .nar | .nan, _ | _, .nan => .nar
  | .inf a, .inf b => if a == b then .inf a else .nar
  | .inf a, _ => .inf a
  | _, .inf b => .inf b
  | .fin n s e, .fin n' s' e' =>
    if s == 0 then .fin (n' && s' != 0) s' e' else if s' == 0 then .fin n s e else
    let m := min e e'
    .ofInt (shiftI (Val.num (.fin n s e)) (e - m) + shiftI (Val.num (.fin n' s' e')) (e' - m)) m

/-- Table 04-2: the class and value of a product. -/
def Val.mul : Val → Val → Val
  | .nar, _ | _, .nar | .nan, _ | _, .nan => .nar
  | .inf a, .inf b => .inf (a != b)
  | .inf a, .fin n s _ => if s == 0 then .nar else .inf (a != n)
  | .fin n s _, .inf b => if s == 0 then .nar else .inf (n != b)
  | .fin n s e, .fin n' s' e' =>
    if s == 0 || s' == 0 then .zero else .fin (n != n') (s * s') (e + e')

/-- Numerical order of two finite or infinite values, minus infinity least. -/
def Val.lt (a b : Val) : Bool :=
  match a, b with
  | .inf true, .inf true => false
  | .inf true, _ => true
  | _, .inf true => false
  | .inf false, _ => false
  | _, .inf false => true
  | a, b => let m := min a.exp b.exp
    decide (shiftI a.num (a.exp - m) < shiftI b.num (b.exp - m))

/-- Numerical equality of two finite or infinite values. -/
def Val.eqv (a b : Val) : Bool :=
  match a, b with
  | .inf x, .inf y => x == y
  | .inf _, _ | _, .inf _ => false
  | a, b => let m := min a.exp b.exp
    decide (shiftI a.num (a.exp - m) = shiftI b.num (b.exp - m))

/-- The rational `n / d` to at least 96 significant bits, the bits lost kept as one set bit below them, so
that every rounding of this file gives what the exact quotient gives. -/
def Val.ratio (neg : Bool) (n d : Nat) (e : Int) : Val :=
  if n == 0 || d == 0 then .zero else
  let k := 128 + lg d + 8
  let q := n * 2 ^ k / d
  let r := n * 2 ^ k % d
  .fin neg (2 * q + if r == 0 then 0 else 1) (e - (k : Int) - 1)

/-- R48: the value of an `n`-bit posit. -/
def positDec (n v : Nat) : Val :=
  let v := v % 2 ^ n
  if v == 0 then .zero else if v == 2 ^ (n - 1) then .nar else
  let s := bitAt v (n - 1)
  let body := if s then 2 ^ n - v else v
  let one := bitAt body (n - 2)
  let x := if one then 2 ^ (n - 1) - 1 - body else body
  let m := if x == 0 then n - 1 else n - 2 - lg x
  let k : Int := if one then (m : Int) - 1 else -(m : Int)
  let r := n - 2 - m
  let rest := body % 2 ^ r
  let e := if r ≥ 2 then rest >>> (r - 2) else rest * 2 ^ (2 - r)
  let fb := r - 2
  .fin s (2 ^ fb + rest % 2 ^ fb) (4 * k + e - fb)

/-- R57: rounds a non-zero finite magnitude to the `n - 1` bits below a posit's sign. -/
def positMag (n sig : Nat) (exp : Int) : Nat :=
  let fb := lg sig
  let s : Int := exp + fb
  let top : Int := 4 * ((n : Int) - 2)
  if top ≤ s then 2 ^ (n - 1) - 1 else if s < -top then 1 else
  let k := s / 4
  let e := (s - 4 * k).toNat
  let reg := if 0 ≤ k then (2 ^ (k.toNat + 1) - 1) * 2 else 1
  let rl := if 0 ≤ k then k.toNat + 2 else (-k).toNat + 1
  let str := ((reg * 4 + e) <<< fb) + (sig - 2 ^ fb)
  let len := rl + 2 + fb
  if len ≤ n - 1 then str <<< (n - 1 - len) else
  let sh := len - (n - 1)
  let p := str >>> sh
  let rem := str % 2 ^ sh
  let half := 2 ^ (sh - 1)
  let p := if half < rem || (rem == half && p % 2 == 1) then p + 1 else p
  if p == 0 then 1 else p

/-- R57: rounds a finite value into an `n`-bit posit. -/
def positEnc (n : Nat) (neg : Bool) (sig : Nat) (exp : Int) : Nat :=
  if sig == 0 then 0 else
  let p := positMag n sig exp
  if neg then 2 ^ n - p else p

/-- Table 03-3: exponent bits, mantissa bits and bias of an IEEE or OFP8 format. -/
def Fmt.ieee : Fmt → Nat × Nat × Nat
  | .e4m3 => (4, 3, 7) | .e5m2 => (5, 2, 15) | .fp16 => (5, 10, 15) | .bf16 => (8, 7, 127) | _ => (8, 23, 127)

/-- R49: the value of an IEEE or OFP8 encoding. -/
def ieeeDec (f : Fmt) (v : Nat) : Val :=
  let (eb, mb, bias) := f.ieee
  let neg := bitAt v (eb + mb)
  let x := bits v mb eb
  let m := v % 2 ^ mb
  if f == .e4m3 then
    if x == 15 && m == 7 then .nan
    else if x == 0 then .fin neg m (1 - (bias : Int) - mb)
    else .fin neg (2 ^ mb + m) ((x : Int) - bias - mb)
  else if x == 2 ^ eb - 1 then (if m == 0 then .inf neg else .nan)
  else if x == 0 then .fin neg m (1 - (bias : Int) - mb)
  else .fin neg (2 ^ mb + m) ((x : Int) - bias - mb)

/-- Rounds `sig * 2^exp` to a multiple of `2^q`, to nearest, ties to even. -/
def rne (sig : Nat) (exp q : Int) : Nat :=
  if q ≤ exp then sig * 2 ^ (exp - q).toNat else
  let sh := (q - exp).toNat
  let p := sig >>> sh
  let rem := sig % 2 ^ sh
  let half := 2 ^ (sh - 1)
  if half < rem || (rem == half && p % 2 == 1) then p + 1 else p

/-- R58: the encoding of a finite magnitude with an unbounded exponent range above; it can run past the
largest finite encoding. -/
def ieeeMag (f : Fmt) (sig : Nat) (exp : Int) : Nat :=
  let (_, mb, bias) := f.ieee
  if sig == 0 then 0 else
  let s : Int := exp + lg sig
  let s' := max s (1 - (bias : Int))
  let r := rne sig exp (s' - mb)
  ((s' + bias - 1).toNat) * 2 ^ mb + r

/-- Table 03-3: the canonical NaN. -/
def Fmt.canonicalNan : Fmt → Nat
  | .e4m3 => 0x7F | .e5m2 => 0x7E | .fp16 => 0x7E00 | .bf16 => 0x7FC0 | _ => 0x7FC00000

/-- Events a conversion can raise (Table 03-8). -/
inductive CvtEv where
  | none | ovf | narCode | specialIn
deriving DecidableEq, Repr

/-- What a conversion gives: the bits written, the event raised, and whether a code was clipped. -/
structure Conv where
  out : Nat
  ev : CvtEv := .none
  clip : Bool := false
deriving DecidableEq, Repr

/-- R59: rounds to the nearest integer, ties away from zero. -/
def roundAway (neg : Bool) (sig : Nat) (exp : Int) : Int :=
  let m : Nat := if 0 ≤ exp then sig * 2 ^ exp.toNat else
    let k := (-exp).toNat
    (sig + 2 ^ (k - 1)) / 2 ^ k
  if neg then -(m : Int) else m

/-- R59, Table 03-7: the integer code of a value in code units. A finite value too large for the shift is
clamped without forming it. -/
def encInt (f : Fmt) (z : Int) (x : Val) : Conv :=
  let lo := f.codeLo
  let hi := f.codeHi
  let w := f.width
  match x with
  | .nar | .nan => { out := ofI w lo, ev := .narCode }
  | .inf neg => { out := ofI w (if neg then lo else hi), clip := true }
  | .fin neg sig exp =>
    if sig != 0 && decide (64 < exp + (lg sig : Int)) then
      { out := ofI w (if neg then lo else hi), clip := true }
    else
      let c := roundAway neg sig exp + z
      if c < lo then { out := ofI w lo, clip := true }
      else if hi < c then { out := ofI w hi, clip := true }
      else { out := ofI w c }

/-- R57 to R61, R63: converts a value into a format. `z` is the destination's zero point. -/
def encode (f : Fmt) (z : Int) (x : Val) : Conv :=
  if f.isInt then encInt f z x
  else if f.isPosit then
    match x with
    | .fin neg sig exp => { out := positEnc f.width neg sig exp }
    | .nar => { out := 2 ^ (f.width - 1) }
    | _ => { out := 2 ^ (f.width - 1), ev := .specialIn }
  else if f == .raw then { out := 0 }
  else
    let (eb, mb, _) := f.ieee
    match x with
    | .nar | .nan => { out := f.canonicalNan }
    | .inf neg =>
      if f == .e4m3 then { out := 0x7F, ev := .ovf }
      else { out := (if neg then 2 ^ (eb + mb) else 0) + (2 ^ eb - 1) * 2 ^ mb }
    | .fin neg sig exp =>
      if sig != 0 && decide (400 < exp + (lg sig : Int)) then
        if f == .e4m3 then { out := 0x7F, ev := .ovf }
        else { out := (if neg then 2 ^ (eb + mb) else 0) + (2 ^ eb - 1) * 2 ^ mb }
      else
        let m := ieeeMag f sig exp
        if f == .e4m3 then
          if 0x7E < m then { out := 0x7F, ev := .ovf }
          else { out := if m == 0 then 0 else (if neg then 0x80 else 0) + m }
        else
          let m := min m ((2 ^ eb - 1) * 2 ^ mb)
          { out := if m == 0 then 0 else (if neg then 2 ^ (eb + mb) else 0) + m }

/-- R48 to R50: the value of an element; `z` is its zero point. -/
def decode (f : Fmt) (z : Int) (v : Nat) : Val :=
  if f.isPosit then positDec f.width v
  else if f == .uint8 || f == .uint4 then .ofInt ((v % 2 ^ f.width : Nat) - z) 0
  else if f.isInt then .ofInt (sx f.width v - z) 0
  else if f == .raw then .zero
  else ieeeDec f v

/-- R55: a scaled element, from the element, its block scale and the tensor exponent. -/
def scaledElem (x b : Val) (texp : Int) : Val :=
  if b.isNar || x.isNar then .nar else
  match x with
  | .inf n => if b.isZero then .nar else .inf (n != b.neg)
  | _ =>
    match x.mul b with
    | .fin n s e => if s == 0 then .zero else .fin n s (e + texp)
    | v => v

/-- R56: a typed conversion from one format to another. Codes of the source subtract `zs`, codes of the
destination add `zd`. -/
def convert (src dst : Fmt) (zs zd : Int) (v : Nat) : Conv :=
  if src == .raw || dst == .raw then { out := v % 2 ^ (min src.width dst.width) }
  else encode dst zd (decode src zs v)

end Sys2Proof.Machine
end

