-- ==== Sys2Proof/Machine/Quire.lean ====
section
/-! DEFINITION. The 640-bit quire, the FAST window, folds and chain form (R65 to R75, R79 to R82, R504), and
their records in memory (R77, R84, R85). -/
namespace Sys2Proof.Machine

/-- R65: a quire. `w` is the 643-bit value W × 2^640 + Q in units of 2^-288; the tag's other bits stand beside it. -/
structure Quire where
  w : Nat := 0
  nar : Bool := false
  pinf : Bool := false
  ninf : Bool := false
  fast : Bool := false
  smsat : Bool := false
deriving DecidableEq, Repr

/-- R67: adds an integer number of units of 2^-288, modulo 2^643. -/
def Quire.addUnits (q : Quire) (x : Int) : Quire :=
  { q with w := (((q.w : Int) + x) % 2 ^ 643).toNat }

/-- R66, R67: adds a product, a scaled term or a value; a non-finite one changes only the tag. -/
def Quire.addVal (q : Quire) : Val → Quire
  | .nar | .nan => { q with nar := true }
  | .inf false => { q with pinf := true }
  | .inf true => { q with ninf := true }
  | .fin neg sig exp => q.addUnits (shiftI (Val.num (.fin neg sig exp)) (exp + 288))

/-- R67: adds two quires. -/
def Quire.merge (a b : Quire) : Quire :=
  { w := (a.w + b.w) % 2 ^ 643, nar := a.nar || b.nar, pinf := a.pinf || b.pinf,
    ninf := a.ninf || b.ninf, fast := a.fast || b.fast, smsat := a.smsat || b.smsat }

/-- The signed 640-bit integer Q of a quire. -/
def Quire.q (q : Quire) : Int := sx 640 q.w

/-- WRAP, as its 3 bits: how many times 2^640 the 643-bit value lies from the signed Q. -/
def Quire.wrap (q : Quire) : Nat := ((q.w + 2 ^ 639) >>> 640) % 8

/-- R68: the value a quire reads as, and whether QOVF is raised. -/
def Quire.read (q : Quire) : Val × Bool :=
  if q.nar || (q.pinf && q.ninf) then (.nar, false)
  else if q.pinf then (.inf false, false)
  else if q.ninf then (.inf true, false)
  else if q.wrap != 0 then (.nar, true)
  else (.ofInt q.q (-288), false)

/-- Table 04-1: a tag byte. -/
def tagByte (nar pinf ninf : Bool) (wrap : Nat) (fast smsat : Bool) : Nat :=
  nar.toNat + 2 * pinf.toNat + 4 * ninf.toNat + 8 * (wrap % 8) + 64 * fast.toNat + 128 * smsat.toNat

/-- The quire's tag. -/
def Quire.tag (q : Quire) : Nat := tagByte q.nar q.pinf q.ninf q.wrap q.fast q.smsat

/-- R77: the 648 bits of an entry that holds a quire. -/
def Quire.toEntry (q : Quire) : Nat := q.w % 2 ^ 640 + q.tag * 2 ^ 640

/-- R77: the quire an entry holds. -/
def Quire.ofEntry (v : Nat) : Quire :=
  let t := bits v 640 8
  { w := ofI 643 (sx 640 v + (bits t 3 3 : Nat) * 2 ^ 640), nar := bitAt t 0, pinf := bitAt t 1, ninf := bitAt t 2,
    fast := bitAt t 6, smsat := bitAt t 7 }

/-- R84: the 96-byte quire record. -/
def Quire.toRecord (q : Quire) : Bytes := leBytes 81 q.toEntry ++ zeros 15

/-- R84: the quire of a record; reserved bytes are ignored. -/
def Quire.ofRecord (b : Bytes) : Quire := .ofEntry (fieldLE b 0 81)

/-- R73: a FAST window. `a = none` is EMPTY; `v` is the 84-bit value's two's complement bits. -/
structure Win where
  a : Option Int := none
  v : Nat := 0
  c : Nat := 0
  nar : Bool := false
  pinf : Bool := false
  ninf : Bool := false
  fast : Bool := false
  smsat : Bool := false
  wrap : Nat := 0
deriving DecidableEq, Repr

/-- V × 2^64 + C: the window's value in units of 2^(A − 64). -/
def Win.units (w : Win) : Int := sx 84 w.v * 2 ^ 64 + w.c

/-- R77, R85: A as 12-bit two's complement, 0x800 for EMPTY. -/
def Win.aBits (w : Win) : Nat := match w.a with
  | none => 0x800
  | some x => ofI 12 x

/-- The window's tag byte. -/
def Win.tag (w : Win) : Nat := tagByte w.nar w.pinf w.ninf w.wrap w.fast w.smsat

/-- R77: the 168 bits of a window in the accumulator store. -/
def Win.toBits (w : Win) : Nat :=
  w.c % 2 ^ 64 + (w.v % 2 ^ 84) * 2 ^ 64 + w.aBits * 2 ^ 148 + w.tag * 2 ^ 160

/-- R77, R85: the window that C, V, A and a tag give; EMPTY ignores V and C. -/
def Win.ofParts (c v a t : Nat) : Win :=
  let e := a == 0x800
  { a := if e then none else some (sx 12 a), v := if e then 0 else v, c := if e then 0 else c,
    nar := bitAt t 0, pinf := bitAt t 1, ninf := bitAt t 2, fast := bitAt t 6, smsat := bitAt t 7,
    wrap := bits t 3 3 }

/-- R77: the window that 168 bits of the accumulator store hold. -/
def Win.ofBits (x : Nat) : Win := .ofParts (bits x 0 64) (bits x 64 84) (bits x 148 12) (bits x 160 8)

/-- R85: the 24-byte window record. -/
def Win.toRecord (w : Win) (groups : Nat) : Bytes :=
  leBytes 8 w.c ++ leBytes 12 (w.v % 2 ^ 84 + w.aBits * 2 ^ 84) ++ leBytes 1 w.tag
    ++ leBytes 2 (groups % 4096) ++ zeros 1

/-- R85: the window of a record. -/
def Win.ofRecord (b : Bytes) : Win :=
  let x := fieldLE b 8 12
  .ofParts (fieldLE b 0 8) (bits x 0 84) (bits x 84 12) (fieldLE b 20 1)

/-- R85: GROUPS of a window record. -/
def groupsOfRecord (b : Bytes) : Nat := fieldLE b 21 2 % 4096

/-- A value truncated toward zero to a multiple of 2^u, in units of 2^u. -/
def truncUnits (x : Val) (u : Int) : Int :=
  match x with
  | .fin neg sig exp =>
    let m := shiftI sig (exp - u)
    if neg then -m else m
  | _ => 0

/-- R73, R504: one group added into a window. -/
def Win.addGroup (w : Win) (p : List Val) : Win :=
  let w := { w with nar := w.nar || p.any Val.isNar,
                    pinf := w.pinf || p.any (· == .inf false),
                    ninf := w.ninf || p.any (· == .inf true) }
  match p.filter Val.isFinite with
  | [] => w
  | x :: xs =>
    let f := x :: xs
    let eg := xs.foldl (fun m y => max m y.scale) x.scale
    let lo := eg - 47
    let parts := f.map fun y =>
      let g := truncUnits y lo
      let rest := y.add ((Val.ofInt g lo).negate)
      (g, truncUnits rest (lo - 32))
    let gh := (parts.map fun q => q.1 * 2 ^ 32 + q.2).foldl (· + ·) 0
    let a0 := w.a.getD lo
    let a2 := match w.a with
      | none => lo
      | some a => max a lo
    let u := min (a0 - 64) (lo - 32)
    let old := match w.a with
      | none => 0
      | some a => shiftI w.units (a - 64 - u)
    let s := shiftI (old + shiftI gh (lo - 32 - u)) (u - (a2 - 64))
    { w with a := some a2, v := ofI 84 (s / 2 ^ 64), c := (s % 2 ^ 64).toNat }

/-- R74: a window folded into its spill quire. The window is then EMPTY. -/
def Win.foldInto (w : Win) (q : Quire) : Quire :=
  let q := match w.a with
    | none => q
    | some a => q.addUnits (shiftI w.units (a - 64 + 288))
  { q with nar := q.nar || w.nar, pinf := q.pinf || w.pinf, ninf := q.ninf || w.ninf,
           smsat := q.smsat || w.smsat, fast := true }

/-- R81: the window record in which a FAST station forwards its total: V, C and A hold the signed Q, WRAP goes
in its own field. DEDUCED, log entry 12. -/
def Quire.toChainForm (q : Quire) : Win :=
  let t := q.q
  let flags : Win := { nar := q.nar, pinf := q.pinf, ninf := q.ninf, fast := q.fast, smsat := q.smsat,
                       wrap := q.wrap }
  if t == 0 then flags else
  let e : Int := (lg t.natAbs : Int) - 288
  let a := e - 62
  let s := shiftI t (-288 - (a - 64))
  { flags with a := some a, v := ofI 84 (s / 2 ^ 64), c := (s % 2 ^ 64).toNat }

/-- R81: a received window record added into a quire, its WRAP with it. -/
def Quire.addChainForm (q : Quire) (w : Win) : Quire :=
  let q := q.addUnits ((w.wrap : Nat) * 2 ^ 640)
  let q := match w.a with
    | none => q
    | some a => q.addUnits (shiftI w.units (a - 64 + 288))
  { q with nar := q.nar || w.nar, pinf := q.pinf || w.pinf, ninf := q.ninf || w.ninf,
           smsat := q.smsat || w.smsat, fast := q.fast || w.fast }

/-- R79: the 128-byte row-statistics record. -/
def rowStats (sum : Quire) (rowMax : Nat) : Bytes := sum.toRecord ++ leBytes 4 rowMax ++ zeros 28

end Sys2Proof.Machine
end

