-- ==== Sys2Proof/Machine/Flags.lean ====
section
/-! DEFINITION. The event flags and counters of a cell: conversions (R63), quire overflow (R68), function and soft-maximum
saturation (R206, R217), clipping (R231, R232), and the EVENTS bits that a swarm's context collects (Table 19-6). -/
namespace Sys2Proof.Machine

/-- Table 19-6: sets a bit of EVENTS in the context a swarm belongs to. -/
def State.ctxEvent (s : State) (id slot bit : Nat) : State :=
  match (s.swarm id slot).ctx with
  | some k => s.modCtx (chOf id) k fun c => { c with events := c.events ||| 2 ^ bit }
  | none => s

/-- R63: an event of a conversion by a swarm: its sticky bit and its counter. -/
def State.cvtEvent (s : State) (id slot : Nat) (e : CvtEv) : State :=
  let p := s.phys id
  match e with
  | .none => s
  | .ovf => ((s.wr (Reg.cellCvtStatusOvf p) 1).bump (Reg.cellCvtStatusOvfCount p)).ctxEvent id slot 0
  | .narCode => ((s.wr (Reg.cellCvtStatusNarCode p) 1).bump (Reg.cellCvtStatusNarCodeCount p)).ctxEvent id slot 1
  | .specialIn => ((s.wr (Reg.cellCvtStatusSpecialIn p) 1).bump (Reg.cellCvtStatusSpecialInCount p)).ctxEvent id slot 2

/-- R68: QOVF. -/
def State.qovf (s : State) (id slot : Nat) : State :=
  let p := s.phys id
  ((s.wr (Reg.cellAccStatusQovf p) 1).bump (Reg.cellAccStatusQovfCount p)).ctxEvent id slot 3

/-- R206: FN_SAT. -/
def State.fnSat (s : State) (id slot : Nat) : State :=
  let p := s.phys id
  ((s.wr (Reg.cellSfuStatusFnSat p) 1).bump (Reg.cellSfuStatusFnSatCount p)).ctxEvent id slot 4

/-- R217: SM_SAT. -/
def State.smSat (s : State) (id slot : Nat) : State :=
  let p := s.phys id
  ((s.wr (Reg.cellSfuStatusSmSat p) 1).bump (Reg.cellSfuStatusSmSatCount p)).ctxEvent id slot 5

/-- R232: the calibration event QSAT of entry `src`, 1024 for OTHER_CLIP. -/
def State.qsat (s : State) (id slot src : Nat) : State :=
  let p := s.phys id
  (((s.wr (Reg.cellQsatStatusQsat p) 1).bump (Reg.cellQsatStatusQsatCount p)).wr
    (Reg.cellQsatStatusLastSource p) src).ctxEvent id slot 6

/-- R231, R232: a clipped element counted in OTHER_CLIP. -/
def State.clipOther (s : State) (id slot : Nat) : State :=
  let p := s.phys id
  let s := s.bump (Reg.cellQsatStatusOtherClipCount p)
  let th := s.rd (Reg.cellQsatCtlThreshold p)
  if th != 0 && th ≤ s.rd (Reg.cellQsatStatusOtherClipCount p) && s.rd (Reg.cellQsatStatusOtherRaised p) == 0 then
    (s.wr (Reg.cellQsatStatusOtherRaised p) 1).qsat id slot 1024
  else s

/-- R231, R232: a clipped element counted by the counter of a scale-file entry. -/
def State.clipEntry (s : State) (id slot e : Nat) : State :=
  let p := s.phys id
  let s := s.modCell id fun c => { c with clips := sset 0 c.clips e (min 0xFFFF (sget 0 c.clips e + 1)) }
  let th := s.rd (Reg.cellQsatCtlThreshold p)
  if th != 0 && th ≤ sget 0 (s.cell id).clips e && !(s.cell id).raised.contains e then
    (s.modCell id fun c => { c with raised := e :: c.raised }).qsat id slot e
  else s

/-- R63, R231: what one conversion in a lane path raises. -/
def State.laneConv (s : State) (id slot : Nat) (c : Conv) : State :=
  let s := s.cvtEvent id slot c.ev
  if c.clip then s.clipOther id slot else s

end Sys2Proof.Machine
end

