-- ==== Sys2Proof/Machine/CellExec.lean ====
section
/-! DEFINITION. The cell's exception operation: a park and its record (R122, R125 to R131), the commit of an instruction
(R120), and the checks every instruction passes (R95, R123, R135, R136, R163). -/
namespace Sys2Proof.Machine

/-! ### Parks -/

/-- A loop is active and ends at an offset. -/
def Swarm.endsLoop (w : Swarm) (pc : Nat) : Bool :=
  (w.loop0.active && w.loop0.stop == pc) || (w.loop1.active && w.loop1.stop == pc)

/-- R128: the branch of the delay slot a swarm stands in, or of the branch it is to re-execute: taken, and the offset that
follows the slot. -/
def Swarm.slotOf (w : Swarm) : Option (Bool × Nat) :=
  if w.inSlot then some (w.branchTaken, w.slotNext) else w.replay

/-- Table 06-3: RESTART_PC. -/
def Swarm.restart (w : Swarm) (at_ : Nat) : Nat := if w.inSlot then w.branchPc else at_

/-- R129, Table 06-4: the sixteen words of a park record. -/
def Swarm.record (w : Swarm) (slot : Nat) (p : Park) (at_ now : Nat) : List Nat :=
  let r := w.restart at_
  let br := w.slotOf
  let last := !w.inSlot && w.endsLoop r
  let flags := br.isSome.toNat + 2 * w.shadow.isSome.toNat + 4 * last.toNat + 8 * p.async.isSome.toNat
    + 16 * (br.any (·.1)).toNat + 32 * p.placement.toNat
  let (tok, apc, aop) := p.async.getD (0, 0, 0)
  let extra := w.asyncFaults.filter fun f => some (f.token, f.pc, f.operand) != p.async
  let ft := maskOf 16 fun t => extra.any fun f => f.token == t
  [r, p.insn, p.code + slot * 2 ^ 16 + flags * 2 ^ 24 + p.lanes * 2 ^ 32, p.addr, (br.map (·.2)).getD 0, w.mode.toNat,
    match w.shadow with
    | some m => m.toNat
    | none => p.pending,
    w.loop0.start + w.loop0.stop * 2 ^ 32, w.loop0.count + w.loop1.start * 2 ^ 32,
    w.loop1.stop + w.loop1.count * 2 ^ 32,
    w.loop0.active.toNat + 2 * w.loop1.active.toNat + tok * 2 ^ 8 + ft * 2 ^ 16 + apc * 2 ^ 32,
    min 0xFFFF extra.length + w.V * 2 ^ 16, now, p.detail, aop, 0]

/-- A word of a park record. -/
def CellMem.recWord (c : CellMem) (slot i : Nat) : Nat := (sget 0 c.records (16 * slot + i)).toNat

/-- Writes a word of a park record. -/
def CellMem.setRec (c : CellMem) (slot i v : Nat) : CellMem :=
  { c with records := sset 0 c.records (16 * slot + i) (BitVec.ofNat 64 v) }

/-- A field of a park record: word, lowest bit, width. -/
def CellMem.recField (c : CellMem) (slot i lo len : Nat) : Nat := bits (c.recWord slot i) lo len

/-- Writes a whole park record. -/
def CellMem.putRecord (c : CellMem) (slot : Nat) (ws : List Nat) : CellMem :=
  { c with records := ssetN 0 c.records (16 * slot) (ws.map fun x => BitVec.ofNat 64 x) }

/-- CMD_IGNORED of a cell. -/
def State.ignored (s : State) (id : Nat) : State := s.wr (Reg.cellParkStatusCmdIgnored (s.phys id)) 1

/-- CELL.PARK_CTL.HANDLER. -/
def State.handler (s : State) (id : Nat) : Bool := s.rd (Reg.cellParkCtlHandler (s.phys id)) == 1

/-- R130, R131: a park goes to the supervisor's queue, or to the dispatcher. -/
def State.reportPark (s : State) (id slot code : Nat) : State :=
  let st0 := (s.swarm id 0).st
  if slot != 0 && s.handler id && (st0 == .active || st0 == .parked) then
    s.modCell id fun c => { c with supervised := c.supervised ++ [(s.now, slot, false)] }
  else s.parkReport id slot code

/-- R122, R125, R126, R128, R129: parks a swarm: its record is written, it stops, and the park is reported. A park that the
dispatcher requested for a preemption (DETAIL 1) is its own. -/
def State.parkAt (s : State) (id slot : Nat) (p : Park) (at_ : Nat) : State :=
  let w := s.swarm id slot
  let s := if w.parkReq.isSome && p.code != 0x1015 then s.ignored id else s
  let s := s.modCell id fun c => c.putRecord slot (w.record slot p at_ s.now)
  let s := s.modSwarm id slot fun w =>
    { w with st := .parked, pc := w.restart at_, inSlot := false, slotNext := 0, branchPc := 0, branchTaken := false,
             shadow := none, parkReq := none, replay := none, mem := none, asyncFaults := [] }
  let s := s.bump (Reg.cellParkStatusParkCount (s.phys id))
  if p.code == 0x1015 && p.detail == 1 then s else s.reportPark id slot p.code

/-- Parks a swarm at the instruction it stands at. -/
def State.park (s : State) (id slot : Nat) (p : Park) : State := s.parkAt id slot p (s.swarm id slot).pc

/-- The lowest-numbered token among the asynchronous faults waiting (chapter 06, edges). -/
def firstFault : List AsyncFault → Option AsyncFault
  | [] => none
  | f :: l => match firstFault l with
    | none => some f
    | some g => if g.token < f.token then some g else some f

/-- The 8-byte word at a local offset. -/
def CellMem.word (c : CellMem) (off : Nat) : Nat := leNat (c.read off 8)

/-- R125, R126: what is due at an instruction boundary of an ACTIVE swarm: an asynchronous fault, or a requested park. -/
def State.boundary (s : State) (id slot : Nat) : State :=
  let w := s.swarm id slot
  if w.st != .active || w.mem.isSome || w.reissue.isSome then s else
  match firstFault w.asyncFaults with
  | some f => s.park id slot { code := f.code, insn := (s.cell id).word f.pc, detail := f.detail,
                               async := some (f.token, f.pc, f.operand) }
  | none => match w.parkReq with
    | some d => s.park id slot { code := 0x1015, detail := d }
    | none => s

/-- R126: a requested park. A swarm whose memory instruction is held parks once that instruction has committed. -/
def State.requestPark (s : State) (id slot detail : Nat) : State :=
  if (s.swarm id slot).st != .active then s.ignored id
  else (s.modSwarm id slot fun w => { w with parkReq := some detail }).boundary id slot

/-- R114, R125: an asynchronous operation reports a fault. -/
def State.asyncFault (s : State) (id slot : Nat) (f : AsyncFault) : State :=
  match (s.swarm id slot).st with
  | .active => (s.modSwarm id slot fun w => { w with asyncFaults := w.asyncFaults ++ [f] }).boundary id slot
  | .parked => s.modCell id fun c =>
      let v := c.recWord slot 10
      let x := c.recField slot 11 0 16
      (c.setRec slot 10 (v ||| 2 ^ (16 + f.token))).setRec slot 11 (setBits (c.recWord slot 11) 0 16 (min 0xFFFF (x + 1)))
  | .exiting => s.bump (Reg.cellParkStatusDrainFaultCount (s.phys id))
  | .free => s

/-- R130, R131: the first of the parks held, by park tick and then by slot. -/
def firstPark : List (Nat × Nat × Bool) → Option (Nat × Nat × Bool)
  | [] => none
  | p :: l => match firstPark l with
    | none => some p
    | some q => if q.1 < p.1 || (q.1 == p.1 && q.2.1 < p.2.1) then some q else some p

/-- R131: reports the parks held one by one. A swarm that an earlier report has stopped is no longer parked. -/
def State.reportHeld : Nat → State → Nat → State
  | 0, s, _ => s
  | n + 1, s, id => match firstPark (s.cell id).supervised with
    | none => s
    | some p =>
      let s := s.modCell id fun c => { c with supervised := c.supervised.erase p }
      let s := if (s.swarm id p.2.1).st == .parked then s.parkReport id p.2.1 ((s.cell id).recField p.2.1 2 0 16) else s
      State.reportHeld n s id

/-- R131: swarm 0 leaves: every park that went to the supervisor and still stands is reported to the dispatcher. -/
def State.supervisorLeft (s : State) (id : Nat) : State := State.reportHeld 16 s id

/-- R114, R131: EXIT or KILL. -/
def State.leave (s : State) (id slot : Nat) : State :=
  let s := s.modCell id fun c => { c.modSwarm slot Swarm.leave with
    supervised := c.supervised.filter fun p => p.2.1 != slot }
  if slot == 0 then s.supervisorLeft id else s

/-! ### Commit -/

/-- R120: loop `n`'s part of the choice of the next offset: the loop, and where it leads if it loops back. -/
def Loop.back (l : Loop) (pc : Nat) : Option (Loop × Option Nat) :=
  if l.active && l.stop == pc then
    if 1 < l.count then some ({ l with count := l.count - 1 }, some l.start)
    else some ({ l with count := 0, active := false }, none)
  else none

/-- R120: the swarm after its instruction commits; a branch gives whether it is taken and its target. -/
def Swarm.advance (w : Swarm) (br : Option (Bool × Nat)) : Swarm :=
  let pc := w.pc
  let nxt := if w.inSlot then w.slotNext else pc + 8
  let w := match br with
    | some (t, tg) => { w with inSlot := true, slotNext := if t then tg else pc + 16, branchPc := pc, branchTaken := t,
                               replay := none }
    | none => { w with inSlot := false, slotNext := 0, branchPc := 0, branchTaken := false, replay := none }
  match w.loop1.back pc with
  | some (l, d) => { w with loop1 := l, pc := d.getD nxt }
  | none => match w.loop0.back pc with
    | some (l, d) => { w with loop0 := l, pc := d.getD nxt }
    | none => { w with pc := nxt }

/-- R120, R126: commits the instruction a swarm stands at. -/
def State.commit (s : State) (id slot : Nat) : State := (s.modSwarm id slot fun w => w.advance none).boundary id slot

/-- Commits a branch. -/
def State.commitBranch (s : State) (id slot : Nat) (taken : Bool) (target : Nat) : State :=
  (s.modSwarm id slot fun w => w.advance (some (taken, target))).boundary id slot

/-! ### The checks of every instruction -/

/-- A fault of a check that is not tied to lanes (R163). -/
def State.faultInsn (s : State) (id slot word code detail : Nat) : State :=
  s.park id slot { code := code, insn := word, addr := (s.swarm id slot).pc, detail := detail }

/-- R135, R136: the lowest bit of the first field judged invalid. -/
def firstBad : List (Nat × Bool) → Option Nat
  | [] => none
  | (b, ok) :: l => if ok then firstBad l else some b

/-- R135, R163: the register that DETAIL holds for REG_RANGE: the last of the first operand that runs past V. -/
def pastV (v : Nat) : List (Nat × Nat) → Option Nat
  | [] => none
  | (n, k) :: l => if v < n + k then some (n + k - 1) else pastV v l

/-- R123: the placement of the instruction is one that faults. -/
def Swarm.misplaced (w : Swarm) (isC isBranch : Bool) : Bool :=
  (isC && w.inSlot) || (isBranch && w.endsLoop w.pc) || (w.inSlot && w.endsLoop w.pc)

/-- An instruction word's fields: OP, GUARD, FN. -/
def wOp (x : Nat) : Nat := bits x 56 8
/-- GUARD. -/
def wGuard (x : Nat) : Nat := bits x 53 3
/-- FN. -/
def wFn (x : Nat) : Nat := bits x 48 5
/-- D, L and DATA: bits [47:40]. -/
def wD (x : Nat) : Nat := bits x 40 8
/-- A and BASE: bits [39:32]. -/
def wA (x : Nat) : Nat := bits x 32 8
/-- B and IDX: bits [31:24]. -/
def wB (x : Nat) : Nat := bits x 24 8
/-- C: bits [23:16]. -/
def wC (x : Nat) : Nat := bits x 16 8
/-- IMM32: bits [31:0]. -/
def wImm (x : Nat) : Nat := bits x 0 32

/-- The swarm stands at an instruction it can issue: it is ACTIVE, in no shadow, and no memory instruction of it is
held. -/
def Swarm.ready (w : Swarm) : Bool := w.st == .active && w.shadow.isNone && w.mem.isNone && w.reissue.isNone

/-- The cell executes: its clock runs, its channel is not held, and it is not in a reset (R247, R471). -/
def State.cellRuns (s : State) (id : Nat) : Bool :=
  isLogical id && s.configured (chOf id) && !s.cellInReset id && !(s.island (s.phys id)).stopped

/-- R288: an uncorrectable word of a cell's local memory is met: it is counted, and Bristle is told. -/
def State.lmUceTold (s : State) (id : Nat) : State :=
  (s.bump (Reg.cellLmEccUce (s.phys id))).channelFault (chOf id) 0x300A

/-- R95, R122, R163: one instruction of a swarm. The word at its pc is fetched; a word of another row leaves the state as it
is (log entry 3). `enc` lists the fields in the order check 1 judges them, `regs` the lane-register operands of check 4,
`fmt` the fields of check 5; `body` makes the remaining checks and takes effect. -/
def State.issue (s : State) (id slot : Nat) (row : Nat → Bool) (isC isBranch sup : Bool)
    (enc : Nat → List (Nat × Bool)) (regs : Nat → List (Nat × Nat)) (fmt : Nat → List (Nat × Bool))
    (body : State → Nat → State) : State :=
  let w := s.swarm id slot
  if !s.cellRuns id || !w.ready then s else
  if 0x180000 ≤ w.pc then
    let (n, s) := s.fresh
    s.park id slot { code := 0x3030, insn := n % 2 ^ 64 }
  else
    let s := s.lmTouch id w.pc 8
    if (s.cell id).uce w.pc 8 then
      let (n, s) := s.fresh
      (s.park id slot { code := 0x300A, insn := n % 2 ^ 64 }).lmUceTold id
    else
    let x := (s.cell id).word w.pc
    if !row x then s else
    match firstBad (enc x) with
    | some b => s.faultInsn id slot x 0x1001 b
    | none =>
      if w.misplaced isC isBranch then
        s.park id slot { code := 0x1010, insn := x, addr := w.pc, placement := true }
      else if sup && slot != 0 then s.faultInsn id slot x 0x1012 0
      else match pastV w.V (regs x) with
      | some n => s.faultInsn id slot x 0x1002 n
      | none => match firstBad (fmt x) with
        | some b => s.faultInsn id slot x 0x1004 b
        | none => if !w.fetching.isEmpty && !(regs x).isEmpty then s else body s x

end Sys2Proof.Machine
end

