-- ==== Sys2Proof/Machine/LaneAlu.lean ====
section
/-! DEFINITION. Lane and uniform arithmetic, compares, masks, votes, moves, shuffles and CVT (R142 to R149, R161). -/
namespace Sys2Proof.Machine

/-! ### Field rules -/

/-- A lane-register field: any value. -/
def okV (_ : Nat) : Bool := true
/-- A uniform-register field. -/
def okU (n : Nat) : Bool := n < 64
/-- A mask field. -/
def okP (n : Nat) : Bool := n < 8
/-- A uniform-predicate field. -/
def okUp (n : Nat) : Bool := n < 4
/-- A field that is not used. -/
def okZ (n : Nat) : Bool := n == 0

/-- R136: the fields of an R-format word in judging order: `g` tells whether it is guarded. -/
def encR (x : Nat) (g : Bool) (fns : List Nat) (d a b c : Nat → Bool) (lowOk : Bool) : List (Nat × Bool) :=
  [(53, g || wGuard x == 0), (48, fns.contains (wFn x)), (40, d (wD x)), (32, a (wA x)), (24, b (wB x)), (16, c (wC x)),
   (0, lowOk)]

/-- R136: the fields of an I-format word. -/
def encI (x : Nat) (g : Bool) (fns : List Nat) (d a : Nat → Bool) (immOk : Bool) : List (Nat × Bool) :=
  [(53, g || wGuard x == 0), (48, fns.contains (wFn x)), (40, d (wD x)), (32, a (wA x)), (0, immOk)]

/-- Bits [15:0] of an R-format word are zero. -/
def lowZero (x : Nat) : Bool := bits x 0 16 == 0

/-- A word's opcode is `op`. -/
def isOp (op : Nat) (x : Nat) : Bool := wOp x == op

/-! ### Lanes -/

/-- R117: the active lanes of a guarded instruction. -/
def Swarm.active (w : Swarm) (x : Nat) : List Nat := (List.range 32).filter fun i => bitAt (w.preg (wGuard x)) i

/-- Writes lane register `n` in the lanes listed; `f` reads the swarm as it was. -/
def Swarm.mapLanes (w : Swarm) (act : List Nat) (n : Nat) (f : Nat → Nat) : Swarm :=
  act.foldl (fun w' i => w'.setV n i (f i)) w

/-- The effect of an instruction that only writes registers of its swarm. -/
def State.put (s : State) (id slot : Nat) (f : Swarm → Swarm) : State := (s.modSwarm id slot f).commit id slot

/-! ### Integer operations -/

/-- R142, Table 07-4: an integer operation of width `wd`. -/
def intOp (wd fn a b c : Nat) : Nat :=
  let m := 2 ^ wd
  let a := a % m
  let b := b % m
  let sa := sx wd a
  let sb := sx wd b
  match fn with
  | 0 => (a + b) % m
  | 1 => (a + m - b) % m
  | 2 => a * b % m
  | 3 => ofI wd (sa * sb / (2 : Int) ^ wd)
  | 4 => a * b / m
  | 5 => (a * b + c) % m
  | 6 => a &&& b
  | 7 => a ||| b
  | 8 => a ^^^ b
  | 9 => a &&& (m - 1 - b)
  | 10 => if b < wd then a * 2 ^ b % m else 0
  | 11 => if b < wd then a / 2 ^ b else 0
  | 12 => ofI wd (sa / (2 : Int) ^ (min b (wd - 1)))
  | 13 => if sa ≤ sb then a else b
  | 14 => if sa ≤ sb then b else a
  | 15 => min a b
  | 16 => max a b
  | 17 => ofI wd (Int.natAbs sa)
  | 18 => (m - a) % m
  | 19 => if a == 0 then wd else wd - 1 - lg a
  | _ => popcount wd a

/-- Table 07-4: the operations that have an I form. -/
def intImmFns : List Nat := [0, 1, 2, 3, 4, 6, 7, 8, 9, 10, 11, 12, 13, 14, 15, 16]

/-- Field B of an integer operation: not used by ABS, NEG, CLZ and POPC. -/
def intB (fn : Nat) (ok : Nat → Bool) : Nat → Bool := if 17 ≤ fn then okZ else ok

/-- Field C of an integer operation: used by MAD. -/
def intC (fn : Nat) (ok : Nat → Bool) : Nat → Bool := if fn == 5 then ok else okZ

/-- R142: VALU.I32. -/
def execValuI32 (cell : BitVec 10) (slot : BitVec 4) (s : State) : Host.Outcome State Fault Refusal :=
  let id := cell.toNat
  let k := slot.toNat
  .next <| s.issue id k (isOp 0x10) false false false
    (fun x => encR x true (List.range 21) okV okV (intB (wFn x) okV) (intC (wFn x) okV) (lowZero x))
    (fun x => [(wD x, 1), (wA x, 1), (wB x, 1), (wC x, 1)]) (fun _ => [])
    fun s x => s.put id k fun w => w.mapLanes (w.active x) (wD x) fun i =>
      intOp 32 (wFn x) (w.vreg (wA x) i) (w.vreg (wB x) i) (w.vreg (wC x) i)

/-- R142: VALU.I32I. -/
def execValuI32i (cell : BitVec 10) (slot : BitVec 4) (s : State) : Host.Outcome State Fault Refusal :=
  let id := cell.toNat
  let k := slot.toNat
  .next <| s.issue id k (isOp 0x11) false false false
    (fun x => encI x true intImmFns okV okV true)
    (fun x => [(wD x, 1), (wA x, 1)]) (fun _ => [])
    fun s x => s.put id k fun w => w.mapLanes (w.active x) (wD x) fun i =>
      intOp 32 (wFn x) (w.vreg (wA x) i) (wImm x) 0

/-- R142: UALU. -/
def execUalu (cell : BitVec 10) (slot : BitVec 4) (s : State) : Host.Outcome State Fault Refusal :=
  let id := cell.toNat
  let k := slot.toNat
  .next <| s.issue id k (isOp 0x20) false false false
    (fun x => encR x false (List.range 21) okU okU (intB (wFn x) okU) (intC (wFn x) okU) (lowZero x))
    (fun _ => []) (fun _ => [])
    fun s x => s.put id k fun w =>
      w.setU (wD x) (intOp 64 (wFn x) (w.ureg (wA x)) (w.ureg (wB x)) (w.ureg (wC x)))

/-- IMM32 sign-extended to 64 bits. -/
def immS (x : Nat) : Nat := ofI 64 (sx 32 (wImm x))

/-- R142: UALUI. -/
def execUalui (cell : BitVec 10) (slot : BitVec 4) (s : State) : Host.Outcome State Fault Refusal :=
  let id := cell.toNat
  let k := slot.toNat
  .next <| s.issue id k (isOp 0x21) false false false
    (fun x => encI x false intImmFns okU okU true)
    (fun _ => []) (fun _ => [])
    fun s x => s.put id k fun w => w.setU (wD x) (intOp 64 (wFn x) (w.ureg (wA x)) (immS x) 0)

/-! ### POSIT32 and FP32 -/

/-- Table 07-6: listed FN values. -/
def floatFns : List Nat := [0, 1, 2, 3, 13, 14, 17, 18]

/-- R143: an FP32 or POSIT32 operation on values. MIN and MAX take the first operand where the two are equal. -/
def floatVal (fn : Nat) (a b c : Val) : Val :=
  match fn with
  | 0 => a.add b
  | 1 => a.add b.negate
  | 2 => a.mul b
  | 3 => (a.mul b).add c
  | 13 => if a.isNar || b.isNar then .nar else if b.lt a then b else a
  | 14 => if a.isNar || b.isNar then .nar else if a.lt b then b else a
  | 17 => a.abs
  | _ => a.negate

/-- R143: the result bits of an operation of format `f`. -/
def floatOp (f : Fmt) (fn a b c : Nat) : Nat :=
  (encode f 0 (floatVal fn (decode f 0 a) (decode f 0 b) (decode f 0 c))).out

/-- R143: VALU.P32 and VALU.F32 share their form. -/
def State.valuFloat (s : State) (id k op : Nat) (f : Fmt) : State :=
  s.issue id k (isOp op) false false false
    (fun x => encR x true floatFns okV okV (intB (wFn x) okV) (if wFn x == 3 then okV else okZ) (lowZero x))
    (fun x => [(wD x, 1), (wA x, 1), (wB x, 1), (wC x, 1)]) (fun _ => [])
    fun s x => s.put id k fun w => w.mapLanes (w.active x) (wD x) fun i =>
      floatOp f (wFn x) (w.vreg (wA x) i) (w.vreg (wB x) i) (w.vreg (wC x) i)

/-- R143: VALU.P32. -/
def execValuP32 (cell : BitVec 10) (slot : BitVec 4) (s : State) : Host.Outcome State Fault Refusal :=
  .next <| s.valuFloat cell.toNat slot.toNat 0x12 .posit32

/-- R143: VALU.F32. -/
def execValuF32 (cell : BitVec 10) (slot : BitVec 4) (s : State) : Host.Outcome State Fault Refusal :=
  .next <| s.valuFloat cell.toNat slot.toNat 0x13 .fp32

/-! ### Compares -/

/-- R144: COND of an order: less, equal. -/
def condOf (cond : Nat) (lt eq : Bool) : Bool :=
  match cond with
  | 0 => eq
  | 1 => !eq
  | 2 => lt
  | 3 => lt || eq
  | 4 => !(lt || eq)
  | _ => !lt

/-- R144: the outcome of COND on two operands of a TYPE. FP32 with a NaN is false but for NE. -/
def cmpOp (type cond wd a b : Nat) : Bool :=
  let a := a % 2 ^ wd
  let b := b % 2 ^ wd
  match type with
  | 1 => condOf cond (decide (a < b)) (a == b)
  | 3 =>
    let x := ieeeDec .fp32 a
    let y := ieeeDec .fp32 b
    if x.isNar || y.isNar then cond == 1 else condOf cond (x.lt y) (x.eqv y)
  | _ => condOf cond (decide (sx wd a < sx wd b)) (a == b)

/-- R144: TYPE and COND in FN. -/
def encCmp (x : Nat) (g : Bool) (types : List Nat) : List (Nat × Bool) :=
  [(53, g || wGuard x == 0), (51, types.contains (bits x 51 2)), (48, bits x 48 3 ≤ 5)]

/-- R144: p[D] with the bits of the active lanes set to an outcome. -/
def Swarm.setMask (w : Swarm) (x : Nat) (f : Nat → Bool) : Swarm :=
  let old := w.preg (wD x)
  w.setP (wD x) (maskOf 32 fun i => if bitAt (w.preg (wGuard x)) i then f i else bitAt old i)

/-- R144: VCMP. -/
def execVcmp (cell : BitVec 10) (slot : BitVec 4) (s : State) : Host.Outcome State Fault Refusal :=
  let id := cell.toNat
  let k := slot.toNat
  .next <| s.issue id k (isOp 0x14) false false false
    (fun x => encCmp x true [0, 1, 2, 3] ++ [(40, okP (wD x)), (16, wC x == 0), (0, lowZero x)])
    (fun x => [(wA x, 1), (wB x, 1)]) (fun _ => [])
    fun s x => s.put id k fun w => w.setMask x fun i =>
      cmpOp (bits x 51 2) (bits x 48 3) 32 (w.vreg (wA x) i) (w.vreg (wB x) i)

/-- R144: VCMPI. -/
def execVcmpi (cell : BitVec 10) (slot : BitVec 4) (s : State) : Host.Outcome State Fault Refusal :=
  let id := cell.toNat
  let k := slot.toNat
  .next <| s.issue id k (isOp 0x15) false false false
    (fun x => encCmp x true [0, 1, 2, 3] ++ [(40, okP (wD x))])
    (fun x => [(wA x, 1)]) (fun _ => [])
    fun s x => s.put id k fun w => w.setMask x fun i =>
      cmpOp (bits x 51 2) (bits x 48 3) 32 (w.vreg (wA x) i) (wImm x)

/-- R144: UCMP. -/
def execUcmp (cell : BitVec 10) (slot : BitVec 4) (s : State) : Host.Outcome State Fault Refusal :=
  let id := cell.toNat
  let k := slot.toNat
  .next <| s.issue id k (isOp 0x22) false false false
    (fun x => encCmp x false [0, 1] ++ [(40, okUp (wD x)), (32, okU (wA x)), (24, okU (wB x)), (16, wC x == 0),
      (0, lowZero x)])
    (fun _ => []) (fun _ => [])
    fun s x => s.put id k fun w =>
      w.setUp (wD x) (cmpOp (bits x 51 2) (bits x 48 3) 64 (w.ureg (wA x)) (w.ureg (wB x)))

/-- R144: UCMPI. -/
def execUcmpi (cell : BitVec 10) (slot : BitVec 4) (s : State) : Host.Outcome State Fault Refusal :=
  let id := cell.toNat
  let k := slot.toNat
  .next <| s.issue id k (isOp 0x23) false false false
    (fun x => encCmp x false [0, 1] ++ [(40, okUp (wD x)), (32, okU (wA x))])
    (fun _ => []) (fun _ => [])
    fun s x => s.put id k fun w =>
      w.setUp (wD x) (cmpOp (bits x 51 2) (bits x 48 3) 64 (w.ureg (wA x)) (immS x))

/-! ### Masks, votes and predicates -/

/-- R145: field rules of MASK by FN: D, A, B, C. -/
def maskOk (fn : Nat) : (Nat → Bool) × (Nat → Bool) × (Nat → Bool) × (Nat → Bool) :=
  if fn ≤ 3 then (okP, okP, okP, okZ) else if fn ≤ 5 then (okP, okP, okZ, okZ)
  else if fn == 6 then (okP, okP, okP, okP) else if fn == 7 then (okP, okU, okZ, okZ) else (okU, okP, okZ, okZ)

/-- R145: the effect of MASK. -/
def Swarm.maskOp (w : Swarm) (x : Nat) : Swarm :=
  let a := w.preg (wA x)
  let b := w.preg (wB x)
  let m := 2 ^ 32 - 1
  match wFn x with
  | 0 => w.setP (wD x) (a &&& b)
  | 1 => w.setP (wD x) (a ||| b)
  | 2 => w.setP (wD x) (a ^^^ b)
  | 3 => w.setP (wD x) (a &&& (m - b))
  | 4 => w.setP (wD x) (m - a)
  | 5 => w.setP (wD x) a
  | 6 =>
    let c := w.preg (wC x)
    (w.setP (wA x) (b &&& (m - c))).setP (wD x) (b &&& c)
  | 7 => w.setP (wD x) (w.ureg (wA x) % 2 ^ 32)
  | _ => w.setU (wD x) a

/-- R145: MASK. -/
def execMask (cell : BitVec 10) (slot : BitVec 4) (s : State) : Host.Outcome State Fault Refusal :=
  let id := cell.toNat
  let k := slot.toNat
  .next <| s.issue id k (isOp 0x28) false false false
    (fun x => let (d, a, b, c) := maskOk (wFn x); encR x false (List.range 9) d a b c (lowZero x))
    (fun _ => []) (fun _ => [])
    fun s x => s.put id k fun w => w.maskOp x

/-- R146: VOTE. -/
def execVote (cell : BitVec 10) (slot : BitVec 4) (s : State) : Host.Outcome State Fault Refusal :=
  let id := cell.toNat
  let k := slot.toNat
  .next <| s.issue id k (isOp 0x29) false false false
    (fun x => encR x true [0, 1] okUp okP okZ okZ (lowZero x))
    (fun _ => []) (fun _ => [])
    fun s x => s.put id k fun w =>
      let g := w.preg (wGuard x)
      let v := w.preg (wA x) &&& g
      w.setUp (wD x) (if wFn x == 0 then v != 0 else v == g)

/-- R145: the value UPRED writes. -/
def Swarm.upredOp (w : Swarm) (x : Nat) : Bool :=
  let a := w.upred (wA x)
  let b := w.upred (wB x)
  match wFn x with
  | 0 => a && b
  | 1 => a || b
  | 2 => a != b
  | 3 => !a
  | 4 => true
  | _ => false

/-- R145: UPRED. -/
def execUpred (cell : BitVec 10) (slot : BitVec 4) (s : State) : Host.Outcome State Fault Refusal :=
  let id := cell.toNat
  let k := slot.toNat
  .next <| s.issue id k (isOp 0x2A) false false false
    (fun x => encR x false (List.range 6) okUp (if wFn x ≤ 3 then okUp else okZ) (if wFn x ≤ 2 then okUp else okZ) okZ
      (lowZero x))
    (fun _ => []) (fun _ => [])
    fun s x => s.put id k fun w => w.setUp (wD x) (w.upredOp x)

/-! ### Moves and shuffles -/

/-- R147: the value VMOV writes in lane `i`. -/
def Swarm.vmovVal (w : Swarm) (x i : Nat) : Nat :=
  match wFn x with
  | 0 => w.vreg (wA x) i
  | 1 => w.ureg (wA x) % 2 ^ 32
  | 2 => i
  | _ => if bitAt (w.preg (wC x)) i then w.vreg (wA x) i else w.vreg (wB x) i

/-- R147: VMOV. -/
def execVmov (cell : BitVec 10) (slot : BitVec 4) (s : State) : Host.Outcome State Fault Refusal :=
  let id := cell.toNat
  let k := slot.toNat
  .next <| s.issue id k (isOp 0x16) false false false
    (fun x => let f := wFn x
      encR x true [0, 1, 2, 3] okV (if f == 1 then okU else if f == 2 then okZ else okV) (if f == 3 then okV else okZ)
        (if f == 3 then okP else okZ) (lowZero x))
    (fun x => (wD x, 1) :: (if wFn x == 0 || wFn x == 3 then [(wA x, 1)] else []) ++ (if wFn x == 3 then [(wB x, 1)] else []))
    (fun _ => [])
    fun s x => s.put id k fun w => w.mapLanes (w.active x) (wD x) (w.vmovVal x)

/-- R147: VMOVI. -/
def execVmovi (cell : BitVec 10) (slot : BitVec 4) (s : State) : Host.Outcome State Fault Refusal :=
  let id := cell.toNat
  let k := slot.toNat
  .next <| s.issue id k (isOp 0x17) false false false
    (fun x => encI x true [0] okV okZ true) (fun x => [(wD x, 1)]) (fun _ => [])
    fun s x => s.put id k fun w => w.mapLanes (w.active x) (wD x) fun _ => wImm x

/-- R147: the value UMOV writes. -/
def Swarm.umovVal (w : Swarm) (id slot x : Nat) : Nat :=
  match wFn x with
  | 0 => w.ureg (wA x)
  | 1 => w.vreg (wA x) (wB x)
  | 2 => w.mode.toNat
  | _ => if wB x == 0 then id else if wB x == 1 then slot else w.V

/-- R147: UMOV. -/
def execUmov (cell : BitVec 10) (slot : BitVec 4) (s : State) : Host.Outcome State Fault Refusal :=
  let id := cell.toNat
  let k := slot.toNat
  .next <| s.issue id k (isOp 0x24) false false false
    (fun x => let f := wFn x
      encR x false [0, 1, 2, 3] okU (if f == 0 then okU else if f == 1 then okV else okZ)
        (if f == 1 then fun n => n < 32 else if f == 3 then fun n => n < 3 else okZ) okZ (lowZero x))
    (fun x => if wFn x == 1 then [(wA x, 1)] else []) (fun _ => [])
    fun s x => s.put id k fun w => w.setU (wD x) (w.umovVal id k x)

/-- R147: UMOVI. -/
def execUmovi (cell : BitVec 10) (slot : BitVec 4) (s : State) : Host.Outcome State Fault Refusal :=
  let id := cell.toNat
  let k := slot.toNat
  .next <| s.issue id k (isOp 0x25) false false false
    (fun x => encI x false [0, 1] okU okZ true) (fun _ => []) (fun _ => [])
    fun s x => s.put id k fun w =>
      w.setU (wD x) (if wFn x == 0 then immS x else w.ureg (wD x) % 2 ^ 32 + wImm x * 2 ^ 32)

/-- R148: the source lane of SHFL for lane `i`. -/
def Swarm.shflSrc (w : Swarm) (x i : Nat) : Nat :=
  let b := wB x
  match wFn x with
  | 0 => w.vreg b i % 32
  | 1 => b
  | 2 => if b ≤ i then i - b else i
  | 3 => if i + b < 32 then i + b else i
  | _ => i ^^^ b

/-- R148: SHFL. -/
def execShfl (cell : BitVec 10) (slot : BitVec 4) (s : State) : Host.Outcome State Fault Refusal :=
  let id := cell.toNat
  let k := slot.toNat
  .next <| s.issue id k (isOp 0x19) false false false
    (fun x => encR x true (List.range 5) okV okV (if wFn x == 0 then okV else fun n => n < 32) okZ (lowZero x))
    (fun x => [(wD x, 1), (wA x, 1)] ++ if wFn x == 0 then [(wB x, 1)] else []) (fun _ => [])
    fun s x => s.put id k fun w => w.mapLanes (w.active x) (wD x) fun i => w.vreg (wA x) (w.shflSrc x i)

/-- R161: NOP. -/
def execNop (cell : BitVec 10) (slot : BitVec 4) (s : State) : Host.Outcome State Fault Refusal :=
  let id := cell.toNat
  let k := slot.toNat
  .next <| s.issue id k (isOp 0x01) false false false
    (fun x => [(53, wGuard x == 0), (48, wFn x == 0), (16, bits x 16 32 == 0), (0, lowZero x)])
    (fun _ => []) (fun _ => []) fun s _ => s.put id k fun w => w

/-- Opcodes of Table 07-3. -/
def opcodes : List Nat :=
  [0x01, 0x10, 0x11, 0x12, 0x13, 0x14, 0x15, 0x16, 0x17, 0x18, 0x19, 0x20, 0x21, 0x22, 0x23, 0x24, 0x25, 0x28, 0x29, 0x2A,
   0x30, 0x31, 0x32, 0x33, 0x34, 0x38, 0x39, 0x3A, 0x40, 0x48, 0x49, 0x50, 0x51, 0x52, 0x53, 0x54, 0x55, 0x56, 0x57, 0x58,
   0x60, 0x61, 0x62, 0x63, 0x64, 0x65, 0x66]

/-- R141: a reserved opcode. -/
def execReservedOpcode (cell : BitVec 10) (slot : BitVec 4) (s : State) : Host.Outcome State Fault Refusal :=
  .next <| s.issue cell.toNat slot.toNat (fun x => !opcodes.contains (wOp x)) false false false
    (fun _ => [(56, false)]) (fun _ => []) (fun _ => []) fun s _ => s

/-! ### CVT -/

/-- R149: a zero-point field read as its format reads it. -/
def zpField (f : Fmt) (n : Nat) : Int := if f == .uint8 || f == .uint4 then (n : Int) else sx 8 n

/-- A format code that names a format other than RAW. -/
def typedFmt (c : Nat) : Option Fmt := if c == 0 then none else Fmt.ofCode c

/-- R149: the zero point of a field is in its format's range. -/
def zpFits (f : Option Fmt) (n : Nat) : Bool := f.any fun g => g.zpOk (zpField g n)

/-- R149, R163: check 5 of CVT. -/
def fmtCvt (x : Nat) : List (Nat × Bool) :=
  let sf := typedFmt (bits x 12 4)
  let df := typedFmt (bits x 8 4)
  [(12, sf.isSome), (24, zpFits sf (wB x)), (8, df.isSome), (16, zpFits df (wC x)),
   (7, bits x 7 1 == 0 || sf == some .int4 || sf == some .uint4)]

/-- R149: the conversion of one lane value. -/
def cvtLane (x v : Nat) : Conv :=
  match typedFmt (bits x 12 4), typedFmt (bits x 8 4) with
  | some sf, some df => convert sf df (zpField sf (wB x)) (zpField df (wC x)) (if bits x 7 1 == 1 then v / 16 else v)
  | _, _ => { out := 0 }

/-- R149: CVT. -/
def execCvt (cell : BitVec 10) (slot : BitVec 4) (s : State) : Host.Outcome State Fault Refusal :=
  let id := cell.toNat
  let k := slot.toNat
  .next <| s.issue id k (isOp 0x18) false false false
    (fun x => encR x true [0] okV okV okV okV (bits x 0 7 == 0))
    (fun x => [(wD x, 1), (wA x, 1)]) fmtCvt
    fun s x =>
      let w := s.swarm id k
      let act := w.active x
      let s := act.foldl (fun s i => s.laneConv id k (cvtLane x (w.vreg (wA x) i))) s
      s.put id k fun w => w.mapLanes act (wD x) fun i => (cvtLane x (w.vreg (wA x) i)).out

end Sys2Proof.Machine
end

