-- ==== Sys2Proof/Machine/Control.lean ====
section
/-! DEFINITION. Control: branches, hardware loops, mode changes, fences, waits, EXIT and BRK (R118 to R121, R127, R157 to
R161), the release of a swarm (R114) and the requested park (R126). -/
namespace Sys2Proof.Machine

/-! ### Branches -/

/-- R136, R157: the fields of a branch word; UP is judged after COND, L after LINK. `a` judges field A. -/
def encB (x : Nat) (a : Nat → Bool) : List (Nat × Bool) :=
  [(53, wGuard x == 0), (48, bits x 48 2 ≤ 2), (50, bits x 48 2 != 0 || bits x 50 2 == 0),
   (40, if bits x 52 1 == 1 then okU (wD x) else okZ (wD x)), (32, a (wA x))]

/-- R157: the branch target from its base. -/
def brTarget (base x : Nat) : Nat := (base + immS x) % 2 ^ 64

/-- R118: a branch target that PC_ALIGN refuses. -/
def badPc (t : Nat) : Bool := t % 8 != 0 || 0x180000 ≤ t

/-- R157: the condition of a branch. -/
def Swarm.brTaken (w : Swarm) (x : Nat) : Bool :=
  match bits x 48 2 with
  | 0 => true
  | 1 => w.upred (bits x 50 2)
  | _ => !w.upred (bits x 50 2)

/-- R118, R157, Table 06-3: BR and BRI. A branch that re-executes after a park in its slot takes the outcome recorded. -/
def State.branch (s : State) (id k op : Nat) (a : Nat → Bool) (base : Swarm → Nat → Nat) : State :=
  s.issue id k (isOp op) true true false (fun x => encB x a) (fun _ => []) (fun _ => []) fun s x =>
    let w := s.swarm id k
    let t := brTarget (base w x) x
    if w.replay.isNone && badPc t then s.faultInsn id k x 0x1017 0
    else
      let (taken, target) := w.replay.getD (w.brTaken x, t)
      let s := if bits x 52 1 == 1 then s.modSwarm id k fun w => w.setU (wD x) (w.pc + 16) else s
      s.commitBranch id k taken target

/-- R157: BR. -/
def execBr (cell : BitVec 10) (slot : BitVec 4) (s : State) : Host.Outcome State Fault Refusal :=
  .next <| s.branch cell.toNat slot.toNat 0x50 okZ fun w _ => w.pc

/-- R157: BRI. -/
def execBri (cell : BitVec 10) (slot : BitVec 4) (s : State) : Host.Outcome State Fault Refusal :=
  .next <| s.branch cell.toNat slot.toNat 0x51 okU fun w x => w.ureg (wA x)

/-! ### Hardware loops -/

/-- A hardware loop of a swarm. -/
def Swarm.loop (w : Swarm) (n : Nat) : Loop := if n == 0 then w.loop0 else w.loop1

/-- Writes a hardware loop of a swarm. -/
def Swarm.setLoop (w : Swarm) (n : Nat) (l : Loop) : Swarm := if n == 0 then { w with loop0 := l } else { w with loop1 := l }

/-- R119: the setup of loop `n` breaks the nesting rules. -/
def Swarm.badNest (w : Swarm) (n start stop : Nat) : Bool :=
  decide (stop < start) || (w.loop n).active || (n == 0 && w.loop1.active)
  || (n == 1 && w.loop0.active && (decide (start < w.loop0.start) || decide (w.loop0.stop ≤ stop)))

/-- R119, R158: LOOP. -/
def execLoop (cell : BitVec 10) (slot : BitVec 4) (s : State) : Host.Outcome State Fault Refusal :=
  let id := cell.toNat
  let k := slot.toNat
  .next <| s.issue id k (isOp 0x52) true false false
    (fun x =>
      let imm := bits x 49 1 == 1
      [(53, wGuard x == 0), (50, bits x 50 3 == 0), (40, imm || wD x == 0), (32, imm || okU (wA x)), (0, bits x 0 12 == 0)])
    (fun _ => []) (fun _ => [])
    fun s x =>
      let w := s.swarm id k
      let n := bits x 48 1
      let start := w.pc + 8
      let stop := start + 8 * bits x 12 20
      let count := if bits x 49 1 == 1 then bits x 32 16 else w.ureg (wA x) % 2 ^ 32
      if 0x180000 ≤ stop then s.faultInsn id k x 0x1005 0
      else if w.badNest n start stop then s.faultInsn id k x 0x1011 0
      else if count == 0 then
        (s.modSwarm id k fun w =>
          { (w.setLoop n { start := start, stop := stop, count := 0, active := false }).advance none with
            pc := stop + 8 }).boundary id k
      else s.put id k fun w => w.setLoop n { start := start, stop := stop, count := count, active := true }

/-- R119, R158: LOOPX. -/
def execLoopx (cell : BitVec 10) (slot : BitVec 4) (s : State) : Host.Outcome State Fault Refusal :=
  let id := cell.toNat
  let k := slot.toNat
  .next <| s.issue id k (isOp 0x53) true false false
    (fun x => [(53, wGuard x == 0), (49, bits x 49 4 == 0), (40, wD x == 0), (32, wA x == 0), (12, bits x 12 20 == 0),
               (0, bits x 0 12 == 0)])
    (fun _ => []) (fun _ => [])
    fun s x => s.put id k fun w => w.setLoop (bits x 48 1) { w.loop (bits x 48 1) with active := false }

/-! ### Mode changes -/

/-- R140: a valid mode word, apart from the rule of R121 for ADAPT. -/
def modeOk (m : Nat) : Bool :=
  bits m 1 1 == 0 && bits m 10 2 == 0 && m / 2 ^ 12 == 0 && !(bits m 0 1 == 0 && modeAdapt m)

/-- R121: a mode word that this swarm may install. -/
def Swarm.modeFits (w : Swarm) (m : Nat) : Bool := modeOk m && (!modeAdapt m || w.adapt.isSome)

/-- R121: the mode word as it is installed: ADAPT becomes the group width fixed at launch. -/
def Swarm.modeOf (w : Swarm) (m : Nat) : Nat := if modeAdapt m then setBits m 2 2 (w.adapt.getD 0) else m

/-- R94: matrix operations of a swarm that have not completed. -/
def CellMem.matrixBusy (c : CellMem) (slot : Nat) : Bool :=
  c.mxQueue.any (fun o => o.slot == slot && !o.killed) || c.mxRun.any fun r => r.op.slot == slot && !r.op.killed

/-- R121: every earlier instruction of the swarm has completed, its matrix operations included. -/
def State.modeQuiet (s : State) (id slot : Nat) : Bool :=
  !(s.cell id).matrixBusy slot && (s.swarm id slot).fetching.isEmpty

/-- R121: the pending mode word takes effect and the MODESET commits. -/
def State.modeEnd (s : State) (id slot : Nat) (m : Nat) : State :=
  s.put id slot fun w => { w with mode := BitVec.ofNat 64 (w.modeOf m), shadow := none }

/-- R121, R140, R159: MODESET. With no earlier work outstanding its shadow has zero length. -/
def execModeset (cell : BitVec 10) (slot : BitVec 4) (s : State) : Host.Outcome State Fault Refusal :=
  let id := cell.toNat
  let k := slot.toNat
  .next <| s.issue id k (isOp 0x54) true false false
    (fun x => [(53, wGuard x == 0), (48, wFn x ≤ 1), (40, wD x == 0), (32, if wFn x == 0 then okU (wA x) else okZ (wA x)),
               (0, wFn x == 1 || wImm x == 0)])
    (fun _ => []) (fun _ => [])
    fun s x =>
      let w := s.swarm id k
      let m := if wFn x == 0 then w.ureg (wA x) else wImm x
      if !w.modeFits m then s.park id k { code := 0x1003, insn := x, addr := w.pc, pending := m }
      else if s.modeQuiet id k then s.modeEnd id k m
      else s.modSwarm id k fun w => { w with shadow := some (BitVec.ofNat 64 m) }

/-- R121: the mode shadow ends. -/
def execModeShadowEnd (cell : BitVec 10) (slot : BitVec 4) (s : State) : Host.Outcome State Fault Refusal :=
  let id := cell.toNat
  let k := slot.toNat
  .next <| match (s.swarm id k).shadow with
    | some m => if (s.swarm id k).st == .active && s.cellRuns id && s.modeQuiet id k then s.modeEnd id k m.toNat else s
    | none => s

/-! ### Fences and waits -/

/-- The packet is one that a cell's swarm sent, or the answer to one: it is outstanding for that swarm. -/
def Packet.isOf (p : Packet) (id slot : Nat) : Bool :=
  p.origin.slot == slot &&
    match p.kind with
    | .store | .atomic | .msg | .memreq => p.src == .cell id
    | .ack | .refuse | .atomicRsp | .memrsp => p.dst == .cell id
    | _ => false

/-- R101, Table 05-5: an access of the swarm is outstanding whose home lies within a fence's scope: 1 the channel, 2 the
device. -/
def State.outstanding (s : State) (id slot scope : Nat) : Bool :=
  s.pkts.any fun p => p.isOf id slot && decide (p.origin.scope ≤ scope)

/-- R101: the three fences: FN and scope. Local accesses of a swarm are performed as they commit (R100). -/
def State.fence (s : State) (id k fn : Nat) : State :=
  s.issue id k (fun x => isOp 0x55 x && (wFn x == fn || 3 ≤ wFn x)) true false false
    (fun x => [(53, wGuard x == 0), (48, wFn x ≤ 2), (16, bits x 16 32 == 0), (0, lowZero x)])
    (fun _ => []) (fun _ => [])
    fun s _ => if fn != 0 && s.outstanding id k fn then s else s.commit id k

/-- R101: FENCE.L. -/
def execFenceL (cell : BitVec 10) (slot : BitVec 4) (s : State) : Host.Outcome State Fault Refusal :=
  .next <| s.fence cell.toNat slot.toNat 0

/-- R101: FENCE.C. -/
def execFenceC (cell : BitVec 10) (slot : BitVec 4) (s : State) : Host.Outcome State Fault Refusal :=
  .next <| s.fence cell.toNat slot.toNat 1

/-- R101: FENCE.D. -/
def execFenceD (cell : BitVec 10) (slot : BitVec 4) (s : State) : Host.Outcome State Fault Refusal :=
  .next <| s.fence cell.toNat slot.toNat 2

/-- R160: WAIT. While a named counter is not zero the swarm waits. -/
def execWait (cell : BitVec 10) (slot : BitVec 4) (s : State) : Host.Outcome State Fault Refusal :=
  let id := cell.toNat
  let k := slot.toNat
  .next <| s.issue id k (isOp 0x56) true false false
    (fun x => [(53, wGuard x == 0), (48, wFn x == 0), (16, bits x 16 32 == 0)])
    (fun _ => []) (fun _ => [])
    fun s x =>
      let w := s.swarm id k
      if (List.range 16).any fun t => bitAt x t && w.token t != 0 then s else s.commit id k

/-! ### EXIT, BRK, release and the requested park -/

/-- The fields of EXIT and BRK. -/
def encZ (x : Nat) : List (Nat × Bool) := [(53, wGuard x == 0), (48, wFn x == 0), (16, bits x 16 32 == 0), (0, lowZero x)]

/-- R114, R161: EXIT. -/
def execExit (cell : BitVec 10) (slot : BitVec 4) (s : State) : Host.Outcome State Fault Refusal :=
  let id := cell.toNat
  let k := slot.toNat
  .next <| s.issue id k (isOp 0x57) true false false encZ (fun _ => []) (fun _ => []) fun s _ => s.leave id k

/-- R127: BRK commits, and its swarm parks at the instruction that follows. -/
def execBrk (cell : BitVec 10) (slot : BitVec 4) (s : State) : Host.Outcome State Fault Refusal :=
  let id := cell.toNat
  let k := slot.toNat
  .next <| s.issue id k (isOp 0x58) true false false encZ (fun _ => []) (fun _ => []) fun s x =>
    (s.modSwarm id k fun w => w.advance none).park id k { code := 0x1014, insn := x }

/-- R114: nothing that the swarm issued is outstanding: no asynchronous operation, no access, no fetch. -/
def State.drained (s : State) (id slot : Nat) : Bool :=
  (s.swarm id slot).tokens.isEmpty && (s.swarm id slot).reissue.isNone
  && !(s.pkts.any fun p => p.isOf id slot) && !(s.host.reads.any fun r => r.src == .cell id && r.origin.slot == slot)

/-- R114, R172: the drain of an EXITING swarm completes: its slot and blocks are free, and its live tiles end. -/
def execSwarmRelease (cell : BitVec 10) (slot : BitVec 4) (s : State) : Host.Outcome State Fault Refusal :=
  let id := cell.toNat
  let k := slot.toNat
  .next <| if (s.swarm id k).st == .exiting && s.drained id k then
      s.modCell id fun c => { c.modSwarm k fun _ => {} with tiles := c.tiles.filter fun t => t.slot != k }
    else s

/-- R126: a requested park, taken at the swarm's next instruction boundary. -/
def execRequestedPark (cell : BitVec 10) (slot : BitVec 4) (s : State) : Host.Outcome State Fault Refusal :=
  let id := cell.toNat
  let k := slot.toNat
  .next <| s.boundary id k

end Sys2Proof.Machine
end

