-- ==== Sys2Proof/Machine/Gate.lean ====
section
/-! DEFINITION. Which accesses to the host's register space are served (R439, R475, R480, R483, R484). -/
namespace Sys2Proof.Machine

/-- R483, Table 24-2: the outcome of an access: served; not an access of the device in this state; refused as Unsupported
Request or dropped, both with REG_ACCESS; or without effect. -/
inductive Gate where
  | serve | hold | refuse | dropped | quiet
deriving DecidableEq, Repr

/-- R473: GLB.BOOT.DONE. -/
def State.booted (s : State) : Bool := s.rd Reg.glbBootDone == 1

/-- R474: neither firmware bank has passed, and the boot ROM has stopped. -/
def State.halted (s : State) : Bool := s.rd Reg.glbBootStage == 2

/-- R466, R497: the device is held in a reset: power-on reset, or the warm reset of a JTAG instruction. -/
def State.held (s : State) : Bool := s.pwr.porst || s.pwr.tapHold

/-- R439, R475: an access to a block outside GLB and HOST. -/
def State.blockGate (s : State) : Gate := if s.held then .hold else if s.booted then .serve else .refuse

/-- R483: an access to a block of a channel. -/
def State.chanGate (s : State) (ch : Nat) : Gate :=
  match s.blockGate with
  | .serve => if s.pwr.resetChannel == some ch then .hold else .serve
  | g => g

/-- R483: an access to ingest of a channel. -/
def State.ingGate (s : State) (ch : Nat) : Gate :=
  match s.chanGate ch with
  | .serve => if (s.island (0x418 + ch)).stopped then .dropped else .serve
  | g => g

/-- R483: an access to the camera port of a channel. -/
def State.camGate (s : State) (ch : Nat) : Gate :=
  match s.chanGate ch with
  | .serve => if (s.island (0x41C + ch)).stopped then .dropped else .serve
  | g => g

/-- R480, R483, R484, R485: an access to a cell's debug window. -/
def State.windowGate (s : State) (w : Nat) : Gate :=
  match s.blockGate with
  | .serve =>
    if !isPhysical w then .refuse
    else if s.cellInReset w then .hold
    else if s.isBound (chOf w) && rowOf w == 12 then .quiet
    else if (s.island (s.phys w)).stopped then .dropped
    else .serve
  | g => g

/-- R5: an access of the host that is refused is recorded. -/
def State.regAccess (s : State) : State := s.evt 0xB011 0

/-- R6: a write of an unlisted encoding is recorded. -/
def State.regEncoding (s : State) : State := s.evt 0xB010 0

/-- A write of the host that a gate lets through, refuses or drops. -/
def State.gated (s : State) (g : Gate) (f : State → State) : State :=
  match g with
  | .serve => f s
  | .hold | .quiet => s
  | .refuse | .dropped => s.regAccess

end Sys2Proof.Machine
end

