-- ==== Sys2Proof/Machine/Supervisor.lean ====
section
/-! DEFINITION. The supervisor instructions (R112, R132, R162), RESUME and its checks (R133), and the host's CELL.PARK_CMD. -/
namespace Sys2Proof.Machine

/-! ### Asynchronous issue and RESUME -/

/-- R94: the cell has a scoreboard entry and the token a count left. -/
def State.roomFor (s : State) (id slot token : Nat) : Bool :=
  (s.cell id).inFlight < 256 && (s.swarm id slot).token token < 255

/-- R94: an asynchronous operation is issued: its token counts up and it takes a scoreboard entry. -/
def State.asyncIssue (s : State) (id : Nat) (mx : Bool) (o : AsyncOp) : State :=
  let s := s.modSwarm id o.slot fun w => { w with tokens := sset 0 w.tokens o.token (w.token o.token + 1) }
  let s := s.modCell id fun c => if mx then { c with mxQueue := c.mxQueue ++ [o] } else { c with agQueue := c.agQueue ++ [o] }
  s.high (Reg.cellSbStatusHighWater (s.phys id)) (s.cell id).inFlight

/-- R133, R94: the operation that RESUME.REISSUE issues again finds a scoreboard entry. -/
def State.tryReissue (s : State) (id slot : Nat) : State :=
  match (s.swarm id slot).reissue with
  | none => s
  | some (mx, o) =>
    if s.roomFor id slot o.token then
      ((s.modSwarm id slot fun w => { w with reissue := none }).asyncIssue id mx o).boundary id slot
    else s

/-- R136: the fields of a T-format word. -/
def encT (x : Nat) : List (Nat × Bool) :=
  [(53, wGuard x == 0), (48, wFn x == 0), (40, bits x 40 4 == 0), (32, okU (wA x)), (0, wImm x == 0)]

/-- R133: an offset that RESUME refuses. -/
def badOff (a : Nat) : Bool := a % 8 != 0 || 0x180000 ≤ a

/-- R133: the record of a slot is one that RESUME refuses. -/
def CellMem.badRecord (c : CellMem) (slot : Nat) (reissue : Bool) : Bool :=
  let f := c.recField slot
  let w := c.swarm slot
  let fl := f 2 24 8
  let la := f 10 0 8
  let apc := f 10 32 32
  let old := f 5 0 64
  let pend := f 6 0 64
  let x := c.word apc
  bits fl 6 2 != 0 || bits la 2 6 != 0 || f 11 32 32 != 0 || f 15 0 64 != 0
  || badOff (f 0 0 64) || (reissue && badOff apc) || (bitAt fl 0 && badOff (f 4 0 64))
  || (bitAt la 0 && decide (f 7 32 32 < f 7 0 32)) || (bitAt la 1 && decide (f 9 0 32 < f 8 32 32))
  || (bits la 0 2 == 3 && (decide (f 8 32 32 < f 7 0 32) || decide (f 7 32 32 ≤ f 9 0 32)))
  || !modeOk old || modeAdapt old || (bitAt fl 1 && !w.modeFits pend)
  || (reissue && (!bitAt fl 3 || !(isOp 0x48 x || isOp 0x3A x) || (firstBad (encT x)).isSome))

/-- R133: the swarm as its record describes it, ACTIVE again. -/
def CellMem.installed (c : CellMem) (slot : Nat) : Swarm :=
  let f := c.recField slot
  let la := f 10 0 8
  let fl := f 2 24 8
  { c.swarm slot with
    st := .active, pc := f 0 0 64, mode := BitVec.ofNat 64 (f 5 0 64),
    loop0 := { start := f 7 0 32, stop := f 7 32 32, count := f 8 0 32, active := bitAt la 0 },
    loop1 := { start := f 8 32 32, stop := f 9 0 32, count := f 9 32 32, active := bitAt la 1 },
    replay := if bitAt fl 0 then some (bitAt fl 4, f 4 0 64) else none, parkReq := none }

/-- R133: RESUME of a parked slot; true where it was carried out. -/
def State.resume (s : State) (id slot : Nat) (reissue : Bool) : State × Bool :=
  let c := s.cell id
  if c.badRecord slot reissue then
    (s.modCell id fun c => c.setRec slot 2 (setBits (c.recWord slot 2) 0 16 0x1016), false)
  else
    let f := c.recField slot
    let x := c.word (f 10 32 32)
    let op : AsyncOp := { slot := slot, token := f 10 8 8 % 16, pc := f 10 32 32, operand := f 14 0 64,
                          mode := BitVec.ofNat 64 (f 5 0 64) }
    let w := { c.installed slot with reissue := if reissue then some (isOp 0x48 x, op) else none }
    let s := s.modCell id fun c =>
      let c := c.modSwarm slot fun _ => w
      let c := c.setRec slot 10 (setBits (c.recWord slot 10) 16 16 0)
      let c := c.setRec slot 11 (setBits (c.recWord slot 11) 0 16 0)
      { c with supervised := c.supervised.filter fun p => p.2.1 != slot }
    ((s.tryReissue id slot).boundary id slot, true)

/-! ### The commands on a slot -/

/-- Table 06-5: the four commands on a slot: 0 RESUME, 1 RESUME.REISSUE, 2 PARKREQ, 3 KILL; true where it succeeded. -/
def State.slotCmd (s : State) (id slot action : Nat) : State × Bool :=
  let st := (s.swarm id slot).st
  match action with
  | 0 => if st == .parked then s.resume id slot false else (s.ignored id, false)
  | 1 => if st == .parked then s.resume id slot true else (s.ignored id, false)
  | 2 => if st == .active then (s.requestPark id slot 0, true) else (s.ignored id, false)
  | _ => if st == .active || st == .parked then (s.leave id slot, true) else (s.ignored id, false)

/-! ### Supervisor instructions -/

/-- Common leading fields of a word whose FN holds UP in its low two bits. -/
def encUp (x : Nat) : List (Nat × Bool) := [(53, wGuard x == 0), (50, bits x 50 3 == 0)]

/-- R162: ends a supervisor instruction with UP set or cleared. -/
def State.supEnd (s : State) (id x : Nat) (ok : Bool) : State :=
  s.put id 0 fun w => w.setUp (bits x 48 2) ok

/-- R162: the target slot that u[A] names. -/
def State.supTarget (s : State) (id x : Nat) : Option Nat :=
  let t := (s.swarm id 0).ureg (wA x)
  if t < 16 then some t else none

/-- R162: a supervisor instruction on a PARKED target; `f` gives the new state, or none where the target lacks what the
instruction names. -/
def State.supOn (s : State) (id x : Nat) (f : Nat → Option State) : State :=
  match s.supTarget id x with
  | none => (s.ignored id).supEnd id x false
  | some t =>
    if (s.swarm id t).st == .parked then
      match f t with
      | some s' => s'.supEnd id x true
      | none => (s.ignored id).supEnd id x false
    else (s.ignored id).supEnd id x false

/-- R112, R113, R162: SPAWN. -/
def execSpawn (cell : BitVec 10) (slot : BitVec 4) (s : State) : Host.Outcome State Fault Refusal :=
  let id := cell.toNat
  let k := slot.toNat
  .next <| s.issue id k (isOp 0x60) true false true
    (fun x => encUp x ++ [(40, okU (wD x)), (32, okU (wA x)), (24, okU (wB x)), (21, bits x 21 3 == 0),
      (16, 1 ≤ bits x 16 5 && bits x 16 5 ≤ 16), (8, bits x 8 8 == 0), (0, bits x 0 8 == 0)])
    (fun _ => []) (fun _ => [])
    fun s x =>
      let w := s.swarm id 0
      let start := w.ureg (wA x)
      let vb := bits x 16 5
      let (rs, rb) := s.heldBack id
      let c := s.cell id
      if badPc start then s.park id k { code := 0x1007, insn := x, addr := start }
      else match c.freeSlots with
      | [] => (s.modSwarm id 0 fun w => w.setU (wD x) 0x1013).supEnd id x false
      | n :: _ =>
        if c.freeSlots.length ≤ rs || c.freeBlocks < vb + rb then
          (s.modSwarm id 0 fun w => w.setU (wD x) 0x1013).supEnd id x false
        else
          let s := s.modSwarm id n fun _ => Swarm.create vb start (w.ureg (wB x)) w.mode
          (s.modSwarm id 0 fun w => w.setU (wD x) n).supEnd id x true

/-- R132: PWAIT takes the first park that waits; none waiting, swarm 0 waits. -/
def execPwait (cell : BitVec 10) (slot : BitVec 4) (s : State) : Host.Outcome State Fault Refusal :=
  let id := cell.toNat
  let k := slot.toNat
  .next <| s.issue id k (isOp 0x61) true false true
    (fun x => [(53, wGuard x == 0), (48, wFn x == 0), (40, okU (wD x)), (32, wA x == 0), (24, wB x == 0),
      (8, bits x 8 16 == 0), (0, bits x 0 8 == 0)])
    (fun _ => []) (fun _ => [])
    fun s x =>
      match firstPark ((s.cell id).supervised.filter fun p => !p.2.2) with
      | none => s
      | some p =>
        let s := s.modCell id fun c => { c with
          supervised := c.supervised.map fun q => if q == p then (q.1, q.2.1, true) else q }
        s.put id 0 fun w => w.setU (wD x) p.2.1

/-- R162: the fields of PREAD and PWRITE after UP. -/
def encWord (x : Nat) (d b : Nat → Bool) : List (Nat × Bool) :=
  encUp x ++ [(40, d (wD x)), (32, okU (wA x)), (24, b (wB x)), (20, bits x 20 4 == 0), (8, bits x 8 8 == 0),
    (0, bits x 0 8 == 0)]

/-- R132: PREAD. -/
def execPread (cell : BitVec 10) (slot : BitVec 4) (s : State) : Host.Outcome State Fault Refusal :=
  let id := cell.toNat
  .next <| s.issue id slot.toNat (isOp 0x62) true false true (fun x => encWord x okU okZ) (fun _ => []) (fun _ => [])
    fun s x => s.supOn id x fun t =>
      some (s.modSwarm id 0 fun w => w.setU (wD x) ((s.cell id).recWord t (bits x 16 4)))

/-- R132: the bits of a record's word that PWRITE changes: INSN, CODE, SLOT, V, PARK_TICK and ASYNC_EXTRA keep theirs. -/
def pwriteWord (i old v : Nat) : Nat :=
  match i with
  | 1 => old
  | 2 => setBits v 0 24 old
  | 11 => setBits v 0 32 old
  | 12 => old
  | _ => v

/-- R132: PWRITE. -/
def execPwrite (cell : BitVec 10) (slot : BitVec 4) (s : State) : Host.Outcome State Fault Refusal :=
  let id := cell.toNat
  .next <| s.issue id slot.toNat (isOp 0x63) true false true (fun x => encWord x okZ okU) (fun _ => []) (fun _ => [])
    fun s x => s.supOn id x fun t =>
      let i := bits x 16 4
      some (s.modCell id fun c => c.setRec t i (pwriteWord i (c.recWord t i) ((s.swarm id 0).ureg (wB x))))

/-- R162: KIND, NUM and LANE of RREAD and RWRITE. -/
def encReg (x : Nat) (d b : Nat → Bool) : List (Nat × Bool) :=
  let kind := bits x 22 2
  let num := bits x 14 8
  encUp x ++ [(40, d (wD x)), (32, okU (wA x)), (24, b (wB x)),
    (14, kind == 0 || (kind == 1 && num < 64) || (kind == 2 && num < 8) || (kind == 3 && num < 4)),
    (9, kind == 0 || bits x 9 5 == 0), (8, bits x 8 1 == 0), (0, bits x 0 8 == 0)]

/-- R132: the register of a target that KIND, NUM and LANE name. -/
def Swarm.getReg (w : Swarm) (kind num lane : Nat) : Option Nat :=
  match kind with
  | 0 => if num < w.V then some (w.vreg num lane) else none
  | 1 => some (w.ureg num)
  | 2 => some (w.preg num)
  | _ => some (w.upred num).toNat

/-- R132: writes the register of a target that KIND, NUM and LANE name. -/
def Swarm.putReg (w : Swarm) (kind num lane v : Nat) : Swarm :=
  match kind with
  | 0 => w.setV num lane v
  | 1 => w.setU num v
  | 2 => w.setP num v
  | _ => w.setUp num (v % 2 == 1)

/-- R132: RREAD. -/
def execRread (cell : BitVec 10) (slot : BitVec 4) (s : State) : Host.Outcome State Fault Refusal :=
  let id := cell.toNat
  .next <| s.issue id slot.toNat (isOp 0x64) true false true (fun x => encReg x okU okZ) (fun _ => []) (fun _ => [])
    fun s x => s.supOn id x fun t =>
      ((s.swarm id t).getReg (bits x 22 2) (bits x 14 8) (bits x 9 5)).map fun v =>
        s.modSwarm id 0 fun w => w.setU (wD x) v

/-- R132: RWRITE. -/
def execRwrite (cell : BitVec 10) (slot : BitVec 4) (s : State) : Host.Outcome State Fault Refusal :=
  let id := cell.toNat
  .next <| s.issue id slot.toNat (isOp 0x65) true false true (fun x => encReg x okZ okU) (fun _ => []) (fun _ => [])
    fun s x => s.supOn id x fun t =>
      let kind := bits x 22 2
      ((s.swarm id t).getReg kind (bits x 14 8) (bits x 9 5)).map fun _ =>
        s.modSwarm id t fun w => w.putReg kind (bits x 14 8) (bits x 9 5) ((s.swarm id 0).ureg (wB x))

/-- R162: the fields of PCTL. -/
def encPctl (x : Nat) : List (Nat × Bool) :=
  [(53, wGuard x == 0), (50, bits x 50 3 ≤ 3), (40, wD x == 0), (32, okU (wA x)), (24, wB x == 0), (8, bits x 8 16 == 0),
   (0, bits x 0 8 == 0)]

/-- R132, R162: PCTL with an ACTION. The instruction commits before a command on swarm 0 itself takes effect. -/
def State.pctl (s : State) (id k action : Nat) : State :=
  s.issue id k (fun x => isOp 0x66 x && (bits x 50 3 == action || 4 ≤ bits x 50 3)) true false true encPctl
    (fun _ => []) (fun _ => [])
    fun s x => match s.supTarget id x with
      | none => (s.ignored id).supEnd id x false
      | some 0 =>
        if action < 2 then (s.ignored id).supEnd id x false else ((s.supEnd id x true).slotCmd id 0 action).1
      | some t => let (s, ok) := s.slotCmd id t action; s.supEnd id x ok

/-- R133: PCTL RESUME. -/
def execPctlResume (cell : BitVec 10) (slot : BitVec 4) (s : State) : Host.Outcome State Fault Refusal :=
  .next <| s.pctl cell.toNat slot.toNat 0

/-- R133: PCTL RESUME.REISSUE. -/
def execPctlResumeReissue (cell : BitVec 10) (slot : BitVec 4) (s : State) : Host.Outcome State Fault Refusal :=
  .next <| s.pctl cell.toNat slot.toNat 1

/-- R126: PCTL PARKREQ. -/
def execPctlParkreq (cell : BitVec 10) (slot : BitVec 4) (s : State) : Host.Outcome State Fault Refusal :=
  .next <| s.pctl cell.toNat slot.toNat 2

/-- R114: PCTL KILL. -/
def execPctlKill (cell : BitVec 10) (slot : BitVec 4) (s : State) : Host.Outcome State Fault Refusal :=
  .next <| s.pctl cell.toNat slot.toNat 3

/-! ### CELL.PARK_CMD -/

/-- R132: a write of CELL.PARK_CMD through a debug window. -/
def State.parkCmd (s : State) (window slot action : Nat) : State :=
  s.gated (s.windowGate window) fun s => (s.slotCmd window slot action).1

/-- R126: CELL.PARK_CMD PARK_REQUEST. -/
def execParkCmdParkRequest (window : BitVec 10) (slot : BitVec 4) (s : State) : Host.Outcome State Fault Refusal :=
  .next <| s.parkCmd window.toNat slot.toNat 2

/-- R133: CELL.PARK_CMD RESUME. -/
def execParkCmdResume (window : BitVec 10) (slot : BitVec 4) (s : State) : Host.Outcome State Fault Refusal :=
  .next <| s.parkCmd window.toNat slot.toNat 0

/-- R133: CELL.PARK_CMD RESUME.REISSUE. -/
def execParkCmdResumeReissue (window : BitVec 10) (slot : BitVec 4) (s : State) : Host.Outcome State Fault Refusal :=
  .next <| s.parkCmd window.toNat slot.toNat 1

/-- R114: CELL.PARK_CMD KILL. -/
def execParkCmdKill (window : BitVec 10) (slot : BitVec 4) (s : State) : Host.Outcome State Fault Refusal :=
  .next <| s.parkCmd window.toNat slot.toNat 3

end Sys2Proof.Machine
end

