-- ==== Sys2Proof/Machine/RegWrite.lean ====
section
/-! DEFINITION. Where a BAR0 offset leads (R479, R484), and how a host write changes the fields of a register (R5, R6). -/
namespace Sys2Proof.Machine

/-- R479, Table 24-1: block, instance and offset in the instance of a BAR0 offset; none outside every block. -/
def blockOf (a : Nat) : Option (Blk × Nat × Nat) :=
  if 0x1000000 ≤ a then
    if a < 0x1400000 then some (.cell, (a - 0x1000000) / 0x1000, a % 0x1000) else none
  else
    let k := a / 0x10000
    let o := a % 0x10000
    if k < 8 then
      some ((match k with
        | 0 => .glb | 1 => .gov | 2 => .time | 3 => .safe | 4 => .seal_ | 5 => .hrd | 6 => .host | _ => .img), 0, o)
    else if 16 ≤ k && k < 32 then some (.wgl, k - 16, o)
    else if 32 ≤ k && k < 36 then some (.ing, k - 32, o)
    else if 48 ≤ k && k < 52 then some (.cam, k - 48, o)
    else if 64 ≤ k && k < 72 then some (.mem, k - 64, o)
    else if 80 ≤ k && k < 84 then some (.disp, k - 80, o)
    else none

/-- Table 24-1: the BAR0 offset of an instance. -/
def blockBase (b : Blk) (n : Nat) : Nat :=
  match b with
  | .glb => 0 | .gov => 0x10000 | .time => 0x20000 | .safe => 0x30000 | .seal_ => 0x40000 | .hrd => 0x50000
  | .host => 0x60000 | .img => 0x70000 | .wgl => 0x100000 + n * 0x10000 | .ing => 0x200000 + n * 0x10000
  | .cam => 0x300000 + n * 0x10000 | .mem => 0x400000 + n * 0x10000 | .disp => 0x500000 + n * 0x10000
  | .cell => 0x1000000 + n * 0x1000

/-- The entry of the register at an offset of a block. -/
def descAt (b : Blk) (o : Nat) : Option RegDesc := regTable.find? fun d => d.blk == b && d.off == o

/-- R484: the physical cell that a window shows, in a channel with a binding or without one. -/
def State.windowCell (s : State) (w : Nat) : Nat :=
  if s.isBound (chOf w) && rowOf w == 12 then
    let f := s.failedRowOf (chOf w) (colOf w)
    cellId (chOf w) f (colOf w)
  else s.phys w

/-- R234: the ids that Table 12-1 lists. -/
def isIsland (i : Nat) : Bool := isPhysical i || (0x400 ≤ i && i ≤ 0x42E)

/-- R6: the field at bit `lo` of a register lists the encoding `v`. -/
def State.listed (s : State) (b : Blk) (n o lo v : Nat) : Bool :=
  match b, o, lo with
  | .img, 0x0, 2 => v != 3
  | .gov, 0x10, 8 => 75 ≤ v && v ≤ 94
  | .gov, 0x10, 0 => 85 ≤ v && v ≤ 104
  | .gov, 0x18, 48 => isIsland v
  | .cell, 0x4B0, 24 => v != 3
  | .disp, 0xF008, 0 => v % 0x10000 == 0 && (v == 0 || v / 2 ^ 37 == n)
  | .seal_, 0x0, 16 => v ≤ 4096
  | .host, 0x8, 0 => v % 2 ^ s.host.bar2Log == 0 &&
      (v + 2 ^ s.host.bar2Log ≤ 2 ^ 39 || (0x010000000000 ≤ v && v + 2 ^ s.host.bar2Log ≤ 0x010080000000))
  | _, _, _ => true

/-- R5, R6: a host write of one field: only the bits covered by `mask` are written. -/
def State.writeField (s : State) (b : Blk) (n o key mask v : Nat) (f : Nat × Nat × Acc) : State :=
  let (lo, len, acc) := f
  let m := bits mask lo len
  let x := bits v lo len
  let old := bits (s.reg key) lo len
  let fd : RegField := ⟨key, lo, len⟩
  match acc with
  | .rw =>
    if m == 0 then s else
    let new := (old &&& ((2 ^ len - 1) ^^^ m)) ||| (x &&& m)
    if s.listed b n o lo new then s.wr fd new else s.regEncoding
  | .w1c => s.wr fd (old &&& ((2 ^ len - 1) ^^^ (x &&& m)))
  | _ => s

/-- R5, R6: a host write of the RW and W1C fields of a register at offset `o` of an instance; other fields are left. -/
def State.writeReg (s : State) (b : Blk) (n o mask v : Nat) : State :=
  match descAt b o with
  | none => s
  | some d => d.fields.foldl (fun s f => s.writeField b n o (blockBase b n + o) mask v f) s

/-- A whole-register write. -/
def all64 : Nat := 2 ^ 64 - 1

end Sys2Proof.Machine
end

