-- ==== Sys2Proof/Machine/Tables.lean ====
section
/-! DEFINITION. Function tables: headers (R203, R204, R207), evaluation (R205, R206), what a lookup sees (R212), and the
host commands on tables (R211) and on the channel scale file (R222 to R225, R233). -/
namespace Sys2Proof.Machine

/-! ### Headers -/

/-- ARG of a table header: 0 BINADE, 1 POWER, 2 EXP2. -/
def thArg (h : Bytes) : Nat := fieldLE h 0 1
/-- SYM: 0 NONE, 1 ODD, 2 EVEN, 3 POS_ONLY. -/
def thSym (h : Bytes) : Nat := fieldLE h 1 1
/-- SB. -/
def thSb (h : Bytes) : Nat := fieldLE h 2 1
/-- SATFLAG. -/
def thSatflag (h : Bytes) : Bool := bitAt (fieldLE h 3 1) 0
/-- EMIN. -/
def thEmin (h : Bytes) : Int := sx 8 (fieldLE h 4 1)
/-- EMAX. -/
def thEmax (h : Bytes) : Int := sx 8 (fieldLE h 5 1)
/-- P. -/
def thP (h : Bytes) : Nat := fieldLE h 6 1
/-- N. -/
def thN (h : Bytes) : Int := sx 8 (fieldLE h 7 1)
/-- I_MAX. -/
def thImax (h : Bytes) : Int := sx 16 (fieldLE h 0x28 2)
/-- I_MIN. -/
def thImin (h : Bytes) : Int := sx 16 (fieldLE h 0x2A 2)
/-- A POSIT32 value of a header. -/
def thVal (h : Bytes) (off : Nat) : Val := positDec 32 (fieldLE h off 4)

/-- R204: the row count of a header. -/
def thRows (h : Bytes) : Nat :=
  match thArg h with
  | 0 => (if thSym h == 0 then 2 else 1) * (thEmax h - thEmin h + 1).toNat * 2 ^ thSb h
  | 1 => thP h * 2 ^ thSb h
  | _ => 2 ^ thSb h

/-- R203, R204: the header is valid. -/
def thValid (h : Bytes) : Bool :=
  let arg := thArg h
  arg ≤ 2 && (if arg == 2 then thSym h == 0 else thSym h ≤ 3) && thSb h ≤ 8 && fieldLE h 3 1 ≤ 1
  && (arg != 0 || decide (thEmin h ≤ thEmax h)) && (arg != 1 || (1 ≤ thP h && thP h ≤ 4))
  && (arg != 2 || decide (thImin h < thImax h)) && fieldLE h 0x30 1 < 64 && fieldLE h 0x31 3 == 0
  && thRows h ≤ 8192

/-- POSIT32 patterns of the built-in headers: 1, 0.5, 0.25, −1 and −0.25. -/
def p32One : Nat := 0x40000000

/-- Table 10-2: the headers of the built-in tables TANH, LOGISTIC, RSQRT and RCP. -/
def romHeader (slot : Nat) : Bytes :=
  let w := leBytes 4
  let z := zeros
  match slot with
  | 0 => leBytes 4 0x00070100 ++ leBytes 4 0x000003F3 ++ w p32One ++ z 4 ++ w p32One ++ z 28 ++ z 4 ++ z 4 ++ w p32One
      ++ w 0xC0000000
  | 1 => leBytes 4 0x00070000 ++ leBytes 4 0x000006F2 ++ w p32One ++ z 4 ++ w 0x30000000 ++ w 0x38000000 ++ w 0xD0000000
      ++ w 0x38000000 ++ z 16 ++ z 4 ++ w 0x38000000 ++ w p32One ++ z 4
  | 2 => leBytes 4 0x00080301 ++ leBytes 4 0xFF020000 ++ z 40 ++ leBytes 4 0x31 ++ z 12
  | _ => leBytes 4 0x00080101 ++ leBytes 4 0xFF010000 ++ z 40 ++ leBytes 4 0x01 ++ z 12

/-! ### Evaluation -/

/-- Table 10-1: a class result. -/
def thClass (h : Bytes) (shift off : Nat) : Val :=
  match bits (fieldLE h 0x30 1) shift 2 with
  | 0 => thVal h off
  | 1 => .inf false
  | 2 => .inf true
  | _ => .nar

/-- R202: coefficient `i` of a row. -/
def rowCoef (r i : Nat) : Val := positDec 32 (r / 2 ^ (32 * i))

/-- A power of two. -/
def Val.pow2 (e : Int) : Val := .fin false 1 e

/-- R196: a value times a power of two; what is not finite keeps its class. -/
def Val.shift (v : Val) (e : Int) : Val :=
  match v with
  | .fin neg sig exp => .fin neg sig (exp + e)
  | x => x

/-- R205: the cubic of a row at `u` in segment bits `sb`, from row `base` on. -/
def tabCubic (row : Nat → Nat) (base sb : Nat) (u : Val) : Val :=
  let t := u.mul (Val.pow2 sb)
  let j := (shiftI t.num t.exp).toNat
  let d := t.add (Val.ofInt (-(j : Int)) 0)
  let r := row (base + j)
  ((((rowCoef r 3).mul d).add (rowCoef r 2)).mul d |>.add (rowCoef r 1)).mul d |>.add (rowCoef r 0)

/-- R205: EXP2. -/
def tabExp2 (h : Bytes) (row : Nat → Nat) (x : Val) : Val × Bool :=
  let t := x.mul ((thVal h 0x20).add (thVal h 0x24))
  if t.isNar then (.nar, false) else
  let i := shiftI t.num t.exp
  if thImax h ≤ i then (thVal h 8, true)
  else if i < thImin h then (thVal h 0x2C, false)
  else ((tabCubic row 0 (thSb h) (t.add (Val.ofInt (-i) 0))).mul (Val.pow2 i), false)

/-- R205: BINADE and POWER on a non-zero finite argument, before the sign rule. -/
def tabHalf (h : Bytes) (row : Nat → Nat) (x : Val) : Val × Bool :=
  let half := x.neg && thSym h == 0
  let e := x.scale
  let u := (x.abs.mul (Val.pow2 (-e))).add (Val.ofInt (-1) 0)
  if thArg h == 0 then
    if thEmax h < e then (if half then thVal h 0xC else thVal h 8, true)
    else if e < thEmin h then
      (((if half then thVal h 0x18 else thVal h 0x10).mul x.abs).add (if half then thVal h 0x1C else thVal h 0x14), false)
    else
      let n := (if half then thEmax h - thEmin h + 1 else 0) + e - thEmin h
      (tabCubic row (n.toNat * 2 ^ thSb h) (thSb h) u, false)
  else
    let r := e % (thP h : Int)
    ((tabCubic row (r.toNat * 2 ^ thSb h) (thSb h) u).mul (Val.pow2 (thN h * (e - r) / (thP h : Int))), false)

/-- R205: the value of a table at an argument, and whether it saturates by its range. -/
def tabEval (h : Bytes) (row : Nat → Nat) (x : Val) : Val × Bool :=
  if x.isNar then (.nar, false)
  else if x.isZero then (thClass h 0 0x34, false)
  else match x with
  | .inf false => (thClass h 2 0x38, true)
  | .inf true => (thClass h 4 0x3C, true)
  | _ =>
    if thArg h == 2 then tabExp2 h row x
    else if x.neg && thSym h == 3 then (.nar, false)
    else
      let (y, sat) := tabHalf h row x
      (if x.neg && thSym h == 1 then y.negate else y, sat)

/-- The largest finite value of a floating-point or posit format. -/
def Fmt.maxFinite (f : Fmt) : Val :=
  if f.isPosit then positDec f.width (2 ^ (f.width - 1) - 1)
  else if f == .e4m3 then ieeeDec f 0x7E
  else let (eb, mb, _) := f.ieee
    ieeeDec f ((2 ^ eb - 1) * 2 ^ mb - 1)

/-- R206: a rounding meets a finite magnitude above its format's largest value. -/
def pastMax (f : Fmt) (y : Val) : Bool := !f.isInt && y.isFinite && f.maxFinite.lt y.abs

/-! ### What a lookup sees -/

/-- R211: a command's effect on the slots and the rows of the table RAM. -/
def CellCmd.onTables (c : CellCmd) (t : Sparse TabSlot) (ram : Sparse (BitVec 128)) : Sparse TabSlot × Sparse (BitVec 128) :=
  match c.op with
  | 0 => (t, sset 0 ram c.row (BitVec.ofNat 128 (leNat (c.data.take 16))))
  | 1 => (sset {} t c.slot { header := c.data, base := c.row }, ram)
  | 2 => (sdel t c.slot, ram)
  | _ => (t, ram)

/-- R212: the slots and rows that one lookup or one judgement reads, old or new while a command is in progress. -/
def State.tabView (s : State) (t : Sparse TabSlot) (ram : Sparse (BitVec 128)) (cmd : Option CellCmd) :
    State × Sparse TabSlot × Sparse (BitVec 128) :=
  match cmd with
  | none => (s, t, ram)
  | some c =>
    let (n, s) := s.fresh
    if n % 2 == 0 then (s, t, ram) else (s, c.onTables t ram)

/-- R201: the header and first row of a slot; none where it is invalid. -/
def slotHead (t : Sparse TabSlot) (slot : Nat) : Option (Bytes × Nat) :=
  if slot < 4 then some (romHeader slot, 0)
  else
    let x := sget {} t slot
    if x.header.isEmpty then none else some (x.header, x.base)

/-- R202, R207: row `i` of a slot's table. -/
def slotRow (ram : Sparse (BitVec 128)) (slot base i : Nat) : Nat :=
  if slot < 4 then (Config.romRow slot i).toNat else (sget 0 ram (base + i)).toNat

/-- R205, R212: one lookup: its value, whether its range saturates, and SATFLAG. A slot seen invalid gives NaR. -/
def tabLookup (t : Sparse TabSlot) (ram : Sparse (BitVec 128)) (slot : Nat) (x : Val) : Val × Bool × Bool :=
  match slotHead t slot with
  | none => (.nar, false, false)
  | some (h, base) =>
    let (y, sat) := tabEval h (slotRow ram slot base) x
    (y, sat, thSatflag h)

/-! ### The host commands on tables -/

/-- The channel of a cell is in IMG state APPLY. -/
def State.applying (s : State) (ch : Nat) : Bool :=
  s.rd Reg.imgStatusState == 3 && (match s.img.load with
    | some l => bitAt l.channels ch
    | none => false)

/-- The BAR0 offset of CELL.FTAB_DATA0 of a physical cell. -/
def ftabData (p : Nat) : Nat := 0x1000468 + p * 0x1000

/-- R211: the bytes of the staging registers of a cell. -/
def State.ftabStaged (s : State) (p n : Nat) : Bytes := (List.range n).flatMap fun i => leBytes 8 (s.reg (ftabData p + 8 * i))

/-- R211: why a table command is refused. -/
def State.ftabRefused (s : State) (p op slot row : Nat) : Bool :=
  let h := s.ftabStaged p 8
  s.rd (Reg.cellFtabCtlBusy p) == 1 || s.applying (chOf p) || ((op == 1 || op == 2) && slot < 4)
  || (op == 1 && (!thValid h || decide (8192 < row + thRows h)))

/-- R211: a write of CELL.FTAB_CTL with GO set, whose OP is the row's. -/
def State.ftabGo (s : State) (w v op : Nat) : State :=
  if !bitAt v 32 || bits v 24 2 != op then s else
  s.gated (s.windowGate w) fun s =>
    let p := s.windowCell w
    let s := s.writeReg .cell p 0x460 all64 v
    let slot := bits v 16 4
    let row := bits v 0 13
    if s.ftabRefused p op slot row then s.wr (Reg.cellFtabCtlErr p) 1
    else
      let cmd : CellCmd := { op := op, slot := slot, row := row, data := s.ftabStaged p 8 }
      (s.wr (Reg.cellFtabCtlBusy p) 1).modCell w fun c => { c with tabCmd := some cmd }

/-- R211: FTAB_WRITE_ROW. -/
def execFtabWriteRow (window : BitVec 10) (data : Word) (s : State) : Host.Outcome State Fault Refusal :=
  .next <| s.ftabGo window.toNat data.toNat 0

/-- R211: FTAB_SET_SLOT. -/
def execFtabSetSlot (window : BitVec 10) (data : Word) (s : State) : Host.Outcome State Fault Refusal :=
  .next <| s.ftabGo window.toNat data.toNat 1

/-- R211: FTAB_CLEAR_SLOT. -/
def execFtabClearSlot (window : BitVec 10) (data : Word) (s : State) : Host.Outcome State Fault Refusal :=
  .next <| s.ftabGo window.toNat data.toNat 2

/-- R211: FTAB_READ_ROW. -/
def execFtabReadRow (window : BitVec 10) (data : Word) (s : State) : Host.Outcome State Fault Refusal :=
  .next <| s.ftabGo window.toNat data.toNat 3

/-- R211: FTAB_COMMAND_DONE: the command takes effect and gives its signal. -/
def execFtabCommandDone (window : BitVec 10) (s : State) : Host.Outcome State Fault Refusal :=
  let w := window.toNat
  let c := s.cell w
  .next <| if !isPhysical w || s.cellInReset w then s else
    match c.tabCmd with
    | none => s
    | some cmd =>
      let p := s.phys w
      let (t, ram) := cmd.onTables c.tables c.tableRam
      let s := if cmd.op == 3 then
          let r := (sget 0 c.tableRam cmd.row).toNat
          (s.wr ⟨ftabData p, 0, 64⟩ r).wr ⟨ftabData p + 8, 0, 64⟩ (r / 2 ^ 64)
        else s
      let s := s.modCell w fun c => { c with tabCmd := none, tables := t, tableRam := ram }
      (s.wr (Reg.cellFtabCtlBusy p) 0).incr (Reg.cellFtabCtlDoneCount p)

/-! ### The channel scale file -/

/-- R223: the entry a reset writes: MUL = 1. -/
def scaleReset : Word := 0x40000000

/-- R222: entry `i` of a scale file. -/
def scaleEntry (f : Sparse Word) (i : Nat) : Nat := (sget scaleReset f i).toNat

/-- R222: MUL of an entry. -/
def seMul (e : Nat) : Val := positDec 32 e

/-- R222: the zero point of an entry in a format; none where ZP_EN is 0. -/
def seZp (f : Fmt) (e : Nat) : Option Int :=
  if !bitAt e 40 then none
  else match f with
  | .int8 => some (sx 8 (bits e 32 8))
  | .uint8 => some (bits e 32 8)
  | .int4 => some (sx 4 (bits e 32 4))
  | .uint4 => some (bits e 32 4)
  | _ => none

/-- R225: the scale file that one element reads, old or new while a WRITE is in progress. -/
def State.scaleView (s : State) (f : Sparse Word) (cmd : Option CellCmd) : State × Sparse Word :=
  match cmd with
  | none => (s, f)
  | some c =>
    if c.op != 0 then (s, f) else
    let (n, s) := s.fresh
    if n % 2 == 0 then (s, f) else (s, sset scaleReset f c.row (BitVec.ofNat 64 (leNat c.data)))

/-- R224: a write of CELL.SCALE_CTL with GO set, whose OP is the row's. -/
def State.scaleGo (s : State) (w v op : Nat) : State :=
  if !bitAt v 32 || bits v 24 2 != op then s else
  s.gated (s.windowGate w) fun s =>
    let p := s.windowCell w
    let s := s.writeReg .cell p 0x4B0 all64 v
    let d := s.reg (0x10004B8 + p * 0x1000)
    if s.rd (Reg.cellScaleCtlBusy p) == 1 || (op == 0 && d / 2 ^ 41 != 0) || s.applying (chOf p) then
      s.wr (Reg.cellScaleCtlErr p) 1
    else
      let cmd : CellCmd := { op := op, row := bits v 0 10, data := leBytes 8 d }
      (s.wr (Reg.cellScaleCtlBusy p) 1).modCell w fun c => { c with scaleCmd := some cmd }

/-- R224: SCALE_WRITE. -/
def execScaleWrite (window : BitVec 10) (data : Word) (s : State) : Host.Outcome State Fault Refusal :=
  .next <| s.scaleGo window.toNat data.toNat 0

/-- R224: SCALE_READ. -/
def execScaleRead (window : BitVec 10) (data : Word) (s : State) : Host.Outcome State Fault Refusal :=
  .next <| s.scaleGo window.toNat data.toNat 1

/-- R233: SCALE_CLEAR_COUNT. -/
def execScaleClearCount (window : BitVec 10) (data : Word) (s : State) : Host.Outcome State Fault Refusal :=
  .next <| s.scaleGo window.toNat data.toNat 2

/-- R224: a scale-file command takes effect. -/
def State.scaleDone (s : State) (w : Nat) (cmd : CellCmd) : State :=
  let p := s.phys w
  let c := s.cell w
  match cmd.op with
  | 0 => s.modCell w fun c => { c with scale := sset scaleReset c.scale cmd.row (BitVec.ofNat 64 (leNat cmd.data)) }
  | 1 =>
    let s := s.wr (Reg.cellScaleDataEntry p) (scaleEntry c.scale cmd.row)
    (s.wr (Reg.cellScaleCountCount p) (sget 0 c.clips cmd.row)).wr (Reg.cellScaleCountRaised p)
      (c.raised.contains cmd.row).toNat
  | _ => s.modCell w fun c => { c with clips := sdel c.clips cmd.row, raised := c.raised.erase cmd.row }

/-- R224: SCALE_COMMAND_DONE: the command takes effect and gives its signal. -/
def execScaleCommandDone (window : BitVec 10) (s : State) : Host.Outcome State Fault Refusal :=
  let w := window.toNat
  .next <| if !isPhysical w || s.cellInReset w then s else
    match (s.cell w).scaleCmd with
    | none => s
    | some cmd =>
      let s := (s.scaleDone w cmd).modCell w fun c => { c with scaleCmd := none }
      (s.wr (Reg.cellScaleCtlBusy (s.phys w)) 0).incr (Reg.cellScaleCtlDoneCount (s.phys w))

end Sys2Proof.Machine
end

