-- ==== Sys2Proof/Machine/Tensor.lean ====
section
/-! DEFINITION. Tensor descriptors (R165 to R167, R506), window descriptors (R184 to R191) and the elements that they
name. -/
namespace Sys2Proof.Machine

/-! ### Checks that stop at the first failure -/

/-- Bytes of local memory (R91). -/
def lmSize : Nat := 0x180000

/-- A check: its code and DETAIL where it fails. -/
def need (ok : Bool) (code detail : Nat) : Except (Nat × Nat) Unit := if ok then .ok () else .error (code, detail)

/-- A list of checks of one code: DETAIL is `hi` and the offset of the first that fails. -/
def needAll (code hi : Nat) (l : List (Nat × Bool)) : Except (Nat × Nat) Unit :=
  match firstBad l with
  | none => .ok ()
  | some b => .error (code, hi + b)

/-- R182, R288: a read of local memory by an asynchronous operation. -/
def CellMem.grab (c : CellMem) (off n : Nat) : Except (Nat × Nat) Bytes :=
  if c.uce off n then .error (0x300A, 0) else .ok (c.read off n)

/-! ### The tensor descriptor -/

/-- FORMAT. -/
def tdFmt (b : Bytes) : Nat := fieldLE b 1 1 % 16
/-- RANK. -/
def tdRank (b : Bytes) : Nat := fieldLE b 2 1
/-- SPACE: BASE is a device address. -/
def tdSpace (b : Bytes) : Bool := bitAt (fieldLE b 3 1) 0
/-- BSCALE. -/
def tdBscale (b : Bytes) : Bool := bitAt (fieldLE b 3 1) 1
/-- CBLOCK. -/
def tdCblock (b : Bytes) : Nat := bits (fieldLE b 3 1) 2 2
/-- ZERO_POINT. -/
def tdZp (b : Bytes) : Nat := fieldLE b 4 1
/-- TEXP. -/
def tdTexp (b : Bytes) : Int := sx 8 (fieldLE b 5 1)
/-- BASE. -/
def tdBase (b : Bytes) : Nat := fieldLE b 8 8
/-- DIM[i]. -/
def tdDim (b : Bytes) (i : Nat) : Nat := fieldLE b (0x10 + 4 * i) 4
/-- STRIDE[i], for i from 1. -/
def tdStride (b : Bytes) (i : Nat) : Nat := fieldLE b (0x20 + 4 * i) 4
/-- BSCALE_BASE. -/
def tdBsBase (b : Bytes) : Nat := fieldLE b 0x34 8

/-- R184: the extent of dimension `i`; 1 at or beyond RANK. -/
def tdExt (b : Bytes) (i : Nat) : Nat := if i < tdRank b then tdDim b i else 1

/-- Rows of a tensor (R167). -/
def tdRows (b : Bytes) : Nat := tdExt b 1 * tdExt b 2 * tdExt b 3 * tdExt b 4

/-- R165: the address of element 0 of the row with outer indices d1 to d4. -/
def tdRowAt (b : Bytes) (d1 d2 d3 d4 : Nat) : Nat :=
  tdBase b + d1 * tdStride b 1 + d2 * tdStride b 2 + d3 * tdStride b 3 + d4 * tdStride b 4

/-- R167: the address of row ρ; dimension 1 varies fastest. -/
def tdRow (b : Bytes) (r : Nat) : Nat :=
  let e1 := tdExt b 1
  let e2 := tdExt b 2
  let e3 := tdExt b 3
  tdRowAt b (r % e1) (r / e1 % e2) (r / (e1 * e2) % e3) (r / (e1 * e2 * e3))

/-- Block scales of a row (R165). -/
def tdBlocks (b : Bytes) : Nat := cdiv (tdDim b 0) 32

/-- R165, R195: bits of an element; a RAW element is one byte wide. -/
def elemBits (fmt : Nat) : Nat := if fmt == 0 then 8 else ((Fmt.ofCode fmt).map Fmt.width).getD 8

/-- Bytes of `n` elements of a row. -/
def rowBytes (fmt n : Nat) : Nat := cdiv (n * elemBits fmt) 8

/-- The format of a descriptor can carry TEXP and block scales (R54). -/
def tdScaled (b : Bytes) : Bool := (Fmt.ofCode (tdFmt b)).any Fmt.isScaled

/-- R506, step 2: the fields, each on its own. `space` allows SPACE = 1; `fmt` and `zp` judge FORMAT and ZERO_POINT;
`any` leaves TEXP and BSCALE of a code that names no format to a later check. -/
def tdFields (b : Bytes) (space : Bool) (fmt : Nat → Bool) (zp free : Bool) : List (Nat × Bool) :=
  let fl := fieldLE b 3 1
  let sc := tdScaled b || (free && (Fmt.ofCode (tdFmt b)).isNone)
  [(0, fieldLE b 0 1 == 0), (1, fieldLE b 1 1 / 16 == 0 && fmt (tdFmt b)), (2, 1 ≤ tdRank b && tdRank b ≤ 5),
   (3, fl / 16 == 0 && tdCblock b != 3 && (space || !tdSpace b) && (!tdBscale b || sc)),
   (4, !zp || zpFits (Fmt.ofCode (tdFmt b)) (tdZp b)),
   (5, (tdTexp b == 0 || sc) && decide (-64 ≤ tdTexp b ∧ tdTexp b ≤ 63)), (6, fieldLE b 6 2 == 0)]
  ++ ((List.range 5).map fun i => (0x10 + 4 * i,
      if i < tdRank b then 1 ≤ tdDim b i && tdDim b i ≤ 2 ^ 24 else tdDim b i == 0))
  ++ ([1, 2, 3, 4].map fun i => (0x20 + 4 * i, i < tdRank b || tdStride b i == 0))
  ++ [(0x3C, fieldLE b 0x3C 4 == 0)]

/-- R506, step 3: BASE is aligned to the element width. -/
def tdAligned (b : Bytes) : Bool :=
  match Fmt.ofCode (tdFmt b) with
  | none => true
  | some _ => elemBits (tdFmt b) < 16 || tdBase b % (elemBits (tdFmt b) / 8) == 0

/-- R506, step 5: the elements of the first `rows` rows and `cols` columns lie in local memory. -/
def tdElemsIn (b : Bytes) (rows cols : Nat) : Bool :=
  (List.range rows).all fun r => tdRow b r + rowBytes (tdFmt b) cols ≤ lmSize

/-- R506, step 5: their block scales lie in local memory. -/
def tdScalesIn (b : Bytes) (rows cols : Nat) : Bool :=
  !tdBscale b || decide (tdBsBase b + (rows - 1) * tdBlocks b + (cols - 1) / 32 < lmSize)

/-- R506, step 6: no two elements share a byte, or a nibble. -/
def tdDisjoint (b : Bytes) (rows cols : Nat) : Bool :=
  let n := cols * elemBits (tdFmt b) / 4
  (List.range rows).all fun r => (List.range r).all fun q =>
    decide (2 * tdRow b q + n ≤ 2 * tdRow b r ∨ 2 * tdRow b r + n ≤ 2 * tdRow b q)

/-- R166, R506: a tensor descriptor of a matrix operation: operand 0 A, 1 B or 2 C, with the columns and rows it must
present, none where the shape is not listed. -/
def CellMem.mxTensor (c : CellMem) (off operand : Nat) (dims : Option (Nat × Nat)) : Except (Nat × Nat) Bytes := do
  let hi := operand * 256
  let isC := operand == 2
  need (off % 64 == 0 && off < lmSize) 0x2022 hi
  let b ← c.grab off 64
  needAll 0x2022 hi (tdFields b false (fun f => !isC || (f != 0 && f < 14)) isC false)
  let known := (Fmt.ofCode (tdFmt b)).isSome && tdFmt b != 0
  need (!known || tdAligned b) 0x2022 (hi + 8)
  match dims with
  | none => .ok b
  | some (cols, rows) =>
    needAll 0x2022 hi [(0x10, cols ≤ tdDim b 0), (0x14, rows ≤ tdRows b)]
    needAll 0x2022 hi [(8, !known || tdElemsIn b rows cols), (0x34, !known || tdScalesIn b rows cols),
      (0x24, !known || !isC || tdDisjoint b rows cols)]
    .ok b

/-! ### Elements -/

/-- The bits of element `col` of a row of bytes (R47). -/
def elemIn (fmt : Nat) (row : Bytes) (col : Nat) : Nat :=
  let w := elemBits fmt
  if w == 4 then bits (fieldLE row (col / 2) 1) (4 * (col % 2)) 4 else fieldLE row (col * (w / 8)) (w / 8)

/-- R50, R55, R195: the value of an element from its bits and its block scale's byte, 1 where there is none. -/
def tdValue (b : Bytes) (x : Nat) (scale : Option Nat) : Val :=
  match Fmt.ofCode (tdFmt b) with
  | none => .zero
  | some f =>
    let v := decode f (zpField f (tdZp b)) x
    if f.isScaled then scaledElem v ((scale.map (positDec 8)).getD (.ofInt 1 0)) (tdTexp b) else v

/-- The value of element (ρ, col) of a tensor in local memory, its row at `row`. -/
def CellMem.tdElem (c : CellMem) (b : Bytes) (row r col : Nat) : Val :=
  let w := elemBits (tdFmt b)
  let x := elemIn (tdFmt b) (c.read (row + col * w / 8) (if w == 4 then 1 else w / 8)) (if w == 4 then col % 2 else 0)
  tdValue b x (if tdBscale b then some (leNat (c.read (tdBsBase b + r * tdBlocks b + col / 32) 1)) else none)

/-! ### The window descriptor -/

/-- MAPPING: 0 TAP, 1 UNROLL, 2 DIAG, 3 POOL. -/
def wdMap (b : Bytes) : Nat := bits (fieldLE b 1 1) 0 2
/-- PAD_KIND. -/
def wdPad (b : Bytes) : Nat := bits (fieldLE b 1 1) 2 2
/-- AVG_DIV. -/
def wdAvgDiv (b : Bytes) : Bool := bitAt (fieldLE b 1 1) 4
/-- FH. -/
def wdFh (b : Bytes) : Nat := fieldLE b 2 1 % 16
/-- FW. -/
def wdFw (b : Bytes) : Nat := fieldLE b 2 1 / 16
/-- SRC_DESC. -/
def wdSrc (b : Bytes) : Nat := fieldLE b 8 4
/-- PAD_VALUE. -/
def wdPadValue (b : Bytes) : Nat := fieldLE b 0xC 4
/-- IMG_H. -/
def wdImgH (b : Bytes) : Nat := fieldLE b 0x10 2
/-- IMG_W. -/
def wdImgW (b : Bytes) : Nat := fieldLE b 0x12 2
/-- OUT_H. -/
def wdOutH (b : Bytes) : Nat := fieldLE b 0x18 2
/-- OUT_W. -/
def wdOutW (b : Bytes) : Nat := fieldLE b 0x1A 2
/-- OUT_Y0. -/
def wdOutY0 (b : Bytes) : Nat := fieldLE b 0x1C 2
/-- OUT_X0. -/
def wdOutX0 (b : Bytes) : Nat := fieldLE b 0x1E 2
/-- REG_W. -/
def wdRegW (b : Bytes) : Nat := fieldLE b 0x20 2
/-- PIX0. -/
def wdPix0 (b : Bytes) : Nat := fieldLE b 0x24 4
/-- K_OFFSET. -/
def wdKOff (b : Bytes) : Nat := fieldLE b 0x28 4
/-- CB0. -/
def wdCb0 (b : Bytes) : Nat := fieldLE b 0x2C 2
/-- NCB. -/
def wdNcb (b : Bytes) : Nat := fieldLE b 0x2E 2
/-- IMAGE. -/
def wdImage (b : Bytes) : Nat := fieldLE b 0x30 4
/-- T, the number of taps. -/
def wdTaps (b : Bytes) : Nat := wdFh b * wdFw b

/-- R189, R506: the window descriptor's own conditions; `pool` for a pooling transfer. -/
def wdFields (b : Bytes) (pool : Bool) : List (Nat × Bool) :=
  let mirror := wdPad b == 2
  [(0, fieldLE b 0 1 == 1), (1, fieldLE b 1 1 / 32 == 0 && (wdMap b == 3) == pool), (2, wdFh b != 0 && wdFw b != 0),
   (7, fieldLE b 7 1 == 0), (0x10, wdImgH b != 0), (0x12, wdImgW b != 0), (0x18, wdOutH b != 0), (0x1A, wdOutW b != 0),
   (0x20, wdRegW b != 0), (0x34, fieldLE b 0x34 12 == 0),
   (0x1C, wdOutY0 b < wdOutH b), (0x1E, wdOutX0 b + wdRegW b ≤ wdOutW b),
   (5, !mirror || (fieldLE b 5 1 % 16 < wdImgH b && fieldLE b 5 1 / 16 < wdImgH b)),
   (6, !mirror || (fieldLE b 6 1 % 16 < wdImgW b && fieldLE b 6 1 / 16 < wdImgW b))]

/-- R184: the layout of a window's source tensor, for a mapping. -/
def wdLayout (w src : Bytes) : List (Nat × Bool) :=
  let cb := tdCblock src
  [(2, 3 ≤ tdRank src),
   (3, match wdMap w with
     | 0 => cb == 1 || cb == 2
     | 1 => cb == 0
     | 2 => cb == 2
     | _ => true),
   (0x10, match cb with
     | 1 => tdDim src 0 == 16
     | 2 => tdDim src 0 == 32
     | _ => true),
   (0x1C, cb != 0 || tdExt src 3 == 1)]

/-- R191, R192: the unrolled length of a mapping. -/
def wdLength (w src : Bytes) : Nat :=
  match wdMap w with
  | 0 => wdNcb w * wdTaps w * tdDim src 0
  | 1 => wdTaps w * tdDim src 0
  | _ => wdTaps w

/-- R189: the conditions that join a window with its source; the reduction range of an MX operand in `klen`. -/
def wdJoint (w src : Bytes) (klen : Option Nat) : List (Nat × Bool) :=
  [(0x30, decide (wdImage w < tdExt src 4)),
   (0xC, wdPad w != 1 || (Fmt.ofCode (tdFmt src)).isNone || wdPadValue w / 2 ^ elemBits (tdFmt src) == 0)]
  ++ (match klen with
    | none => []
    | some k => [(0x2C, wdMap w != 2 || wdCb0 w < tdExt src 3),
        (0x2E, wdMap w != 0 || (wdNcb w != 0 && wdCb0 w + wdNcb w ≤ tdExt src 3)),
        (0x28, decide (wdKOff w + k ≤ wdLength w src))])

/-- R185: the image coordinate of tap `t` of output pixel (oy, ox). -/
def wdCoord (w : Bytes) (oy ox t : Nat) : Int × Int :=
  let st := fieldLE w 3 1
  let dl := fieldLE w 4 1
  let ty := fieldLE w 0x22 1 + t / wdFw w
  let tx := fieldLE w 0x23 1 + t % wdFw w
  ((oy * (st % 16 + 1) + ty * (dl % 16 + 1) : Nat) - (fieldLE w 5 1 % 16 : Nat),
   (ox * (st / 16 + 1) + tx * (dl / 16 + 1) : Nat) - (fieldLE w 6 1 % 16 : Nat))

/-- R185: a coordinate lies within the padding of one axis. -/
def inPadding (x : Int) (lo hi size : Nat) : Bool := decide (-(lo : Int) ≤ x ∧ x ≤ (size : Int) + hi - 1)

/-- R186: a coordinate of one axis lies in the image. -/
def inImage (x : Int) (size : Nat) : Bool := decide (0 ≤ x ∧ x < size)

/-- R186: MIRROR and EDGE on one axis. -/
def padAxis (kind : Nat) (x : Int) (size : Nat) : Int :=
  if inImage x size then x
  else if kind == 2 then (if x < 0 then -x else 2 * ((size : Int) - 1) - x)
  else if x < 0 then 0 else (size : Int) - 1

/-- R186: what a tap reads: a ZERO-padded or a CONST-padded position, or the element at a resolved coordinate. -/
inductive TapEl where
  | zero
  | const
  | at_ (iy ix : Int)
deriving DecidableEq, Repr

/-- R186: the resolution of a tap. -/
def wdTap (w : Bytes) (oy ox t : Nat) : TapEl :=
  let (iy, ix) := wdCoord w oy ox t
  if inImage iy (wdImgH w) && inImage ix (wdImgW w) then .at_ iy ix
  else match wdPad w with
    | 0 => .zero
    | 1 => .const
    | k => .at_ (padAxis k iy (wdImgH w)) (padAxis k ix (wdImgW w))

/-- R187: the stored row and column of a resolved coordinate. -/
def wdStored (w : Bytes) (iy ix : Int) : Int × Int := (iy - (fieldLE w 0x14 2 : Nat), ix - (fieldLE w 0x16 2 : Nat))

/-- R185, R187: the conditions on one tap of a pixel, by the offset of the field that decides. -/
def tapOk (w src : Bytes) (e : Nat × Nat × Nat) : Nat → Bool
  | 5 => inPadding (wdCoord w e.1 e.2.1 e.2.2).1 (fieldLE w 5 1 % 16) (fieldLE w 5 1 / 16) (wdImgH w)
  | 6 => inPadding (wdCoord w e.1 e.2.1 e.2.2).2 (fieldLE w 6 1 % 16) (fieldLE w 6 1 / 16) (wdImgW w)
  | k => match wdTap w e.1 e.2.1 e.2.2 with
    | .at_ iy ix =>
      let (sy, sx) := wdStored w iy ix
      if k == 0x14 then decide (0 ≤ sy ∧ sy < tdExt src 2) else decide (0 ≤ sx ∧ sx < tdExt src 1)
    | _ => true

/-- R189: every element read satisfies R185 and R187; pixel and tap triples. -/
def wdTapsOk (w src : Bytes) (l : List (Nat × Nat × Nat)) : List (Nat × Bool) :=
  [5, 6, 0x14, 0x16].map fun k => (k, l.all fun e => tapOk w src e k)

/-- R190: the output pixel of region pixel `p`. -/
def wdPixel (w : Bytes) (p : Nat) : Nat × Nat := (wdOutY0 w + p / wdRegW w, wdOutX0 w + p % wdRegW w)

/-- R190: an operand row is void. -/
def wdVoid (w : Bytes) (m : Nat) : Bool := wdOutH w ≤ (wdPixel w (wdPix0 w + m)).1

/-- R191, R192: the tap, block and channel of unrolled index `u`; under DIAG the channel is that of column `n`. -/
def wdIndex (w src : Bytes) (u n : Nat) : Nat × Nat × Nat :=
  let cb := tdDim src 0
  match wdMap w with
  | 0 => (u / cb % wdTaps w, wdCb0 w + u / (wdTaps w * cb), u % cb)
  | 1 => (u / cb, 0, u % cb)
  | _ => (u, wdCb0 w, n)

/-- The pixel and tap triples that a pass of `klen` positions over `m` rows reads. -/
def wdReads (w src : Bytes) (m klen : Nat) : List (Nat × Nat × Nat) :=
  let taps := sortNat ((List.range klen).map fun k => (wdIndex w src (wdKOff w + k) 0).1)
  ((List.range m).filter fun r => !wdVoid w r).flatMap fun r =>
    let p := wdPixel w (wdPix0 w + r)
    taps.map fun t => (p.1, p.2, t)

/-- The row of a window's source that a resolved tap reads: its address and flattened index. -/
def wdRowOf (w src : Bytes) (cb : Nat) (iy ix : Int) : Nat × Nat :=
  let (sy, sx) := wdStored w iy ix
  let y := sy.toNat
  let x := sx.toNat
  (tdRowAt src x y cb (wdImage w), x + tdExt src 1 * (y + tdExt src 2 * (cb + tdExt src 3 * wdImage w)))

/-- R186: the value of channel (cb, c) at a tap of a pixel. -/
def CellMem.wdElem (c : CellMem) (w src : Bytes) (oy ox t cb ch : Nat) : Val :=
  match wdTap w oy ox t with
  | .zero => .zero
  | .const => tdValue src (wdPadValue w) none
  | .at_ iy ix => let (row, r) := wdRowOf w src cb iy ix; c.tdElem src row r ch

/-- The byte ranges of an element of a tensor: its own bytes and its block scale. -/
def elemRanges (b : Bytes) (row r col : Nat) : List (Nat × Nat) :=
  let w := elemBits (tdFmt b)
  (row + col * w / 8, if w == 4 then 1 else w / 8)
    :: if tdBscale b then [(tdBsBase b + r * tdBlocks b + col / 32, 1)] else []

/-- The byte ranges that a tap of a pixel reads for channel (cb, c). -/
def wdRanges (w src : Bytes) (oy ox t cb ch : Nat) : List (Nat × Nat) :=
  match wdTap w oy ox t with
  | .at_ iy ix => let (row, r) := wdRowOf w src cb iy ix; elemRanges src row r ch
  | _ => []

/-- Ranges that lie in local memory. -/
def rangesIn (l : List (Nat × Nat)) : Bool := l.all fun r => r.1 + r.2 ≤ lmSize

/-- R184, R189: the source tensor of a window; `zp` judges its zero point. -/
def CellMem.wdSource (c : CellMem) (code : Nat) (w : Bytes) (zp : Bool) : Except (Nat × Nat) Bytes := do
  let off := wdSrc w
  need (off % 64 == 0 && off < lmSize) code 0x300
  let b ← c.grab off 64
  needAll code 0x300 (tdFields b false (fun _ => true) (zp && (Fmt.ofCode (tdFmt b)).isSome) zp)
  needAll code 0x300 (wdLayout w b)
  need (tdAligned b) code 0x308
  .ok b

end Sys2Proof.Machine
end

