-- ==== Sys2Proof/Machine/MxCheck.lean ====
section
/-! DEFINITION. The matrix descriptor and the checks at the start of a matrix operation (R168 to R172, R175 to R177, R181,
R505), in the order of Table 08-7. -/
namespace Sys2Proof.Machine

/-! ### The mode word -/

/-- Table 07-5: ARITH is FAST. -/
def modeFast (m : Word) : Bool := bitAt m.toNat 0
/-- Table 07-5: the group width G. -/
def modeG (m : Word) : Nat := 4 * 2 ^ bits m.toNat 2 2
/-- Table 07-5: the spill interval S. -/
def modeS (m : Word) : Nat := 64 * (bits m.toNat 4 6 + 1)

/-! ### Shapes and paths -/

/-- Table 08-6: the operand paths. -/
inductive MxPath where
  | p8 | p16 | posit32
deriving DecidableEq, Repr

/-- Table 08-5: a tile shape. -/
structure Shape where
  path : MxPath
  m : Nat
  n : Nat
  kf : Nat
deriving DecidableEq, Repr

/-- R169, Table 08-5: the shape of a code; none where it is reserved. -/
def shapeOf : Nat → Option Shape
  | 0x00 => some ⟨.p8, 32, 32, 32⟩ | 0x01 => some ⟨.p8, 16, 64, 16⟩ | 0x02 => some ⟨.p8, 64, 16, 16⟩
  | 0x03 => some ⟨.p8, 32, 16, 32⟩ | 0x04 => some ⟨.p8, 16, 32, 32⟩ | 0x05 => some ⟨.p8, 16, 16, 64⟩
  | 0x08 => some ⟨.p16, 16, 16, 32⟩ | 0x09 => some ⟨.p16, 32, 8, 16⟩ | 0x0A => some ⟨.p16, 8, 32, 16⟩
  | 0x0B => some ⟨.p16, 16, 8, 32⟩ | 0x0C => some ⟨.p16, 8, 16, 32⟩ | 0x0D => some ⟨.p16, 8, 8, 64⟩
  | 0x10 => some ⟨.posit32, 8, 8, 32⟩ | 0x11 => some ⟨.posit32, 16, 4, 16⟩ | 0x12 => some ⟨.posit32, 4, 16, 16⟩
  | _ => none

/-- Elements of a shape. -/
def Shape.e (x : Shape) : Nat := x.m * x.n

/-- Table 08-6: the width of the path an operand format belongs to. -/
def Fmt.pathOf : Fmt → Option MxPath
  | .posit8 | .int8 | .uint8 | .int4 | .uint4 | .e4m3 | .e5m2 => some .p8
  | .posit16 | .fp16 | .bf16 => some .p16
  | .posit32 => some .posit32
  | _ => none

/-- R170, Table 08-6: the path of an operand pair; none where the pair is not accepted. -/
def pairPath (a b : Fmt) (fast : Bool) : Option MxPath :=
  match a.pathOf, b.pathOf with
  | some .posit32, some .posit32 => if fast then none else some .posit32
  | some .posit32, _ | _, some .posit32 => none
  | some .p8, some .p8 => some .p8
  | some _, some _ => some .p16
  | _, _ => none

/-! ### The matrix descriptor -/

/-- CTL. -/
def mdCtl (d : Bytes) : Nat := fieldLE d 0 2
/-- FIRST. -/
def mdFirst (d : Bytes) : Bool := bitAt (mdCtl d) 0
/-- LAST. -/
def mdLast (d : Bytes) : Bool := bitAt (mdCtl d) 1
/-- BIAS. -/
def mdBias (d : Bytes) : Bool := bitAt (mdCtl d) 2
/-- ROWSTAT. -/
def mdRowstat (d : Bytes) : Bool := bitAt (mdCtl d) 3
/-- ROWFIRST. -/
def mdRowfirst (d : Bytes) : Bool := bitAt (mdCtl d) 4
/-- CHAIN_IN. -/
def mdChainIn (d : Bytes) : Nat := bits (mdCtl d) 5 2
/-- CHAIN_OUT. -/
def mdChainOut (d : Bytes) : Bool := bitAt (mdCtl d) 7
/-- SCALE_MODE. -/
def mdScaleMode (d : Bytes) : Nat := bits (mdCtl d) 8 2
/-- SHAPE [4:0]. -/
def mdShape (d : Bytes) : Nat := fieldLE d 2 1 % 32
/-- ACT: 0 NONE, 1 RELU, 2 TANH, 3 LOGISTIC, 4 TAB. -/
def mdAct (d : Bytes) : Nat := fieldLE d 3 1
/-- ACC [10:0]. -/
def mdAcc (d : Bytes) : Nat := fieldLE d 4 2 % 2048
/-- GSIZE. -/
def mdGsize (d : Bytes) : Nat := fieldLE d 6 1
/-- The outlier count. -/
def mdOutliers (d : Bytes) : Nat := fieldLE d 7 1 % 16
/-- KLEN. -/
def mdKlen (d : Bytes) : Nat := fieldLE d 8 4
/-- PSUM_BASE. -/
def mdPsum (d : Bytes) : Nat := fieldLE d 0x18 4
/-- SPILL_BASE. -/
def mdSpill (d : Bytes) : Nat := fieldLE d 0x1C 4
/-- BIAS_BASE. -/
def mdBiasBase (d : Bytes) : Nat := fieldLE d 0x20 4
/-- SCALE. -/
def mdScale (d : Bytes) : Nat := fieldLE d 0x24 4
/-- GSCALE_BASE. -/
def mdGscale (d : Bytes) : Nat := fieldLE d 0x28 4
/-- GSTRIDE. -/
def mdGstride (d : Bytes) : Nat := fieldLE d 0x2C 2
/-- FTAB. -/
def mdFtab (d : Bytes) : Nat := fieldLE d 0x2E 1
/-- OUT_ZP. -/
def mdOutZp (d : Bytes) : Nat := fieldLE d 0x2F 1
/-- OUTLIER_BASE. -/
def mdOutlierBase (d : Bytes) : Nat := fieldLE d 0x30 4
/-- ROWSTAT_BASE. -/
def mdRowstatBase (d : Bytes) : Nat := fieldLE d 0x34 4
/-- CHAIN_BASE. -/
def mdChainBase (d : Bytes) : Nat := fieldLE d 0x38 4

/-- R168: PSUM_BASE is used. -/
def mdUsesPsum (d : Bytes) : Bool := !(mdFirst d && mdLast d)
/-- C is written: a LAST pass without CHAIN_OUT. -/
def mdUsesC (d : Bytes) : Bool := mdLast d && !mdChainOut d
/-- A chain record is read or written. -/
def mdChain (d : Bytes) : Bool := mdChainIn d != 0 || mdChainOut d
/-- R175: the group length g. -/
def mdG (d : Bytes) : Nat := 16 * 2 ^ mdGsize d
/-- Bytes of a partial-sum or chain record. -/
def recSize (fast : Bool) : Nat := if fast then 24 else 96

/-- R168, R505, round 1: the fields that the output step uses; MXF OUT has these alone. -/
def mdOutFields (d : Bytes) : List (Nat × Bool) :=
  [(0x20, !mdBias d || mdBiasBase d % 4 == 0), (0x24, mdScaleMode d != 2 || mdScale d < 1024),
   (0x2E, mdAct d != 4 || mdFtab d ≤ 15), (0x34, !mdRowstat d || mdRowstatBase d % 8 == 0)]

/-- R168, R505, round 1: each field on its own. -/
def mdFields (d : Bytes) (fast : Bool) : List (Nat × Bool) :=
  [(0, mdCtl d / 1024 == 0 && mdChainIn d != 3 && mdScaleMode d != 3), (2, fieldLE d 2 1 / 32 == 0), (3, mdAct d ≤ 4),
   (4, fieldLE d 4 2 / 2048 == 0), (6, mdGsize d ≤ 3), (7, fieldLE d 7 1 ≤ 8),
   (8, 1 ≤ mdKlen d && mdKlen d ≤ 2 ^ 24), (0x18, !mdUsesPsum d || mdPsum d % 8 == 0), (0x1C, !fast || mdSpill d % 8 == 0),
   (0x20, !mdBias d || mdBiasBase d % 4 == 0), (0x24, mdScaleMode d != 2 || mdScale d < 1024),
   (0x28, mdGsize d == 0 || mdGscale d % 2 == 0), (0x2C, mdGsize d == 0 || mdGstride d != 0),
   (0x2E, mdAct d != 4 || mdFtab d ≤ 15), (0x30, mdOutliers d == 0 || mdOutlierBase d % 4 == 0),
   (0x34, !mdRowstat d || mdRowstatBase d % 8 == 0), (0x38, !mdChain d || mdChainBase d % 8 == 0), (0x3C, fieldLE d 0x3C 4 == 0)]

/-- R505, round 2: the combinations. -/
def mdCombos (d : Bytes) : List (Nat × Bool) :=
  [(0, !mdChainOut d || (!mdBias d && !mdRowstat d && mdAct d == 0 && mdScaleMode d == 0)), (0, mdLast d || !mdChain d)]

/-- R505, round 3: the byte ranges of the enabled fields. -/
def mdRanges (d : Bytes) (fast : Bool) (x : Shape) : List (Nat × Bool) :=
  let r := recSize fast
  [(0x18, !mdUsesPsum d || mdPsum d + r * x.e ≤ lmSize), (0x1C, !fast || mdSpill d + 96 * x.e ≤ lmSize),
   (0x20, !mdBias d || mdBiasBase d + 4 * x.n ≤ lmSize),
   (0x28, mdGsize d == 0 || mdGscale d + 2 * x.n * mdGstride d ≤ lmSize),
   (0x30, mdOutliers d == 0 || mdOutlierBase d + 32 + 2 * mdOutliers d * (x.m + x.n) ≤ lmSize),
   (0x34, !mdRowstat d || mdRowstatBase d + 128 * x.m ≤ lmSize), (0x38, !mdChain d || mdChainBase d + r * x.e ≤ lmSize)]

/-! ### Tiles -/

/-- R172, R77: the first and last entry of a placement. -/
def tileSpan (acc e : Nat) (fast : Bool) : Nat × Nat :=
  if fast then (4 * acc / 3, (4 * acc + e - 1) / 3) else (acc, acc + e - 1)

/-- The entries of a live tile. -/
def Tile.span (t : Tile) : Nat × Nat := tileSpan t.acc ((shapeOf t.shape).map Shape.e |>.getD 1) t.fast

/-- R172: a placement runs past the store or meets a live tile. -/
def CellMem.overlaps (c : CellMem) (acc e : Nat) (fast : Bool) : Bool :=
  let (lo, hi) := tileSpan acc e fast
  (if fast then decide (6144 < 4 * acc + e) else decide (2048 < acc + e))
  || c.tiles.any fun t => decide (t.span.1 ≤ hi ∧ lo ≤ t.span.2)

/-- R172: the live tile of an ACC, a shape and an origin: the one of the same ARITH where there are two. -/
def CellMem.tileAt (c : CellMem) (acc shape : Nat) (frag fast : Bool) : Option Tile :=
  let l := c.tiles.filter fun t => t.acc == acc && t.shape == shape && t.frag == frag
  match l.find? fun t => t.fast == fast with
  | some t => some t
  | none => l.head?

/-- R71: the tile was begun under the same ARITH and, in FAST, the same G and S. -/
def Tile.modeFits (t : Tile) (m : Word) : Bool :=
  t.fast == modeFast m && (!t.fast || (modeG t.mode == modeG m && modeS t.mode == modeS m))

/-- R172: check 6 of an operation that continues or ends a tile. -/
def CellMem.continues (c : CellMem) (acc shape : Nat) (frag : Bool) (m : Word) : Except (Nat × Nat) Tile :=
  match c.tileAt acc shape frag (modeFast m) with
  | none => .error (0x2026, acc)
  | some t => if t.modeFits m then .ok t else .error (0x2027, acc)

/-! ### Operand A -/

/-- Operand A is a window. -/
def isWindow (a : Bytes) : Bool := fieldLE a 0 1 == 1

/-- R189, R506: operand A as a window, with its source. -/
def CellMem.mxWindow (c : CellMem) (w : Bytes) (dims : Option (Nat × Nat)) : Except (Nat × Nat) (Bytes × Bytes) := do
  needAll 0x2022 0 (wdFields w false)
  let src ← c.wdSource 0x2022 w false
  match dims with
  | none => .ok (w, src)
  | some (klen, m) =>
    needAll 0x2022 0 (wdJoint w src (some klen))
    let l := wdReads w src m klen
    needAll 0x2022 0 (wdTapsOk w src l)
    let known := (Fmt.ofCode (tdFmt src)).isSome && tdFmt src != 0
    let chans := fun t => if wdMap w == 2 then (List.range 32).map fun n => (t, wdCb0 w, n)
      else ((List.range klen).map fun k => wdIndex w src (wdKOff w + k) 0).filter fun u => u.1 == t
    let rs := l.flatMap fun e => (chans e.2.2).flatMap fun u => wdRanges w src e.1 e.2.1 u.1 u.2.1 u.2.2
    needAll 0x2022 0x300 [(8, !known || rangesIn rs)]
    .ok (w, src)

/-- R166, R189: operand A: its descriptor and, for a window, that of its source. -/
def CellMem.mxOperandA (c : CellMem) (off : Nat) (dims : Option (Nat × Nat)) : Except (Nat × Nat) (Bytes × Bytes) := do
  need (off % 64 == 0 && off < lmSize) 0x2022 0
  let w ← c.grab off 64
  if isWindow w then c.mxWindow w dims else (c.mxTensor off 0 dims).map fun b => (b, [])

/-- The tensor descriptor that gives operand A's format: its own, or that of the window's source. -/
def aTensor (p : Bytes × Bytes) : Bytes := if isWindow p.1 then p.2 else p.1

/-- R181, check 4: an operand's format and zero point are accepted. -/
def opndOk (fmt zp : Nat) : Bool := (Fmt.ofCode fmt).any fun f => f.isOperand && f.zpOk (zpField f zp)

/-- R170, R171, R181: check 4 and the path of the pair. -/
def mxFormat (fa za fb zb : Nat) (fast : Bool) : Except (Nat × Nat) MxPath := do
  need (opndOk fa za) 0x2023 0
  need (opndOk fb zb) 0x2023 1
  match Fmt.ofCode fa, Fmt.ofCode fb with
  | some a, some b => match pairPath a b fast with
    | some p => .ok p
    | none => .error (0x2023, 1)
  | _, _ => .error (0x2023, 1)

/-- R169: check 5. -/
def mxShape (code : Nat) (path : Option MxPath) (diag : Bool) : Except (Nat × Nat) Shape :=
  match shapeOf code with
  | none => .error (0x2024, 2)
  | some x => if path.any (· != x.path) || (diag && x.n != 32) then .error (0x2024, 2) else .ok x

/-! ### Later checks -/

/-- R172: check 6; the tile that is continued, none for a pass that begins one. -/
def CellMem.mxTile (c : CellMem) (d : Bytes) (x : Shape) (m : Word) : Except (Nat × Nat) (Option Tile) :=
  if mdFirst d then
    if c.overlaps (mdAcc d) x.e (modeFast m) then .error (0x2025, mdAcc d) else .ok none
  else (c.continues (mdAcc d) (mdShape d) false m).map some

/-- R173, R175: check 7. -/
def mxPassLen (d : Bytes) (m : Word) : Except (Nat × Nat) Unit :=
  need (mdLast d || ((!modeFast m || mdKlen d % modeG m == 0) && (mdGsize d == 0 || mdKlen d % mdG d == 0))) 0x2028 (mdKlen d)

/-- R175, R177: check 8. -/
def mxScale (d a b : Bytes) (x : Shape) (done : Nat) : Except (Nat × Nat) Unit :=
  let code := fun t => (Fmt.ofCode (tdFmt t)).any Fmt.isCode
  needAll 0x202A 0 [(6, mdGsize d == 0 || (code a && code b)),
    (0x2C, mdGsize d == 0 || (done + mdKlen d - 1) / mdG d < mdGstride d),
    (0x24, mdScaleMode d != 2 || mdScale d + x.n ≤ 1024)]

/-- Position slot `j` of an outlier block. -/
def outPos (o : Bytes) (j : Nat) : Nat := fieldLE o (4 * j) 4

/-- R176: check 9. -/
def mxOutlier (d o : Bytes) (before : Nat) : Except (Nat × Nat) Unit :=
  let q := mdOutliers d
  if q == 0 then .ok () else
  needAll 0x2029 0 (((List.range 8).map fun j =>
    (j, if j < q then decide (outPos o j < mdKlen d) && (j == 0 || decide (outPos o (j - 1) < outPos o j)) else outPos o j == 0))
    ++ [(8, decide (before + q ≤ 8))])

/-- R174: the ranges that a pass writes. -/
def mxWrites (d c : Bytes) (fast : Bool) (x : Shape) : List (Nat × Nat) :=
  (if mdLast d then [] else [(mdPsum d, recSize fast * x.e)]) ++ (if fast then [(mdSpill d, 96 * x.e)] else [])
  ++ (if mdUsesC d then (List.range x.m).map fun m => (tdRow c m, rowBytes (tdFmt c) x.n) else [])
  ++ (if mdRowstat d && mdLast d then [(mdRowstatBase d, 128 * x.m)] else [])
  ++ (if mdChainOut d then [(mdChainBase d, recSize fast * x.e)] else [])

/-- R181: the first byte of the ranges that falls in a live replica range. -/
def CellMem.replicaByte (c : CellMem) (l : List (Nat × Nat)) : Option Nat :=
  (l.flatMap fun r => (c.replicas.filter fun p => decide (r.1 < p.off + p.len ∧ p.off < r.1 + r.2)).map fun p => max r.1 p.off).min?

/-- R174: the last part of check 10. -/
def CellMem.noReplica (c : CellMem) (l : List (Nat × Nat)) : Except (Nat × Nat) Unit :=
  match c.replicaByte l with
  | some a => .error (0x3034, a)
  | none => .ok ()

/-- R214: FTAB_MISSING, after every check of Table 08-7. -/
def ftabThere (d : Bytes) (t : Sparse TabSlot) : Except (Nat × Nat) Unit :=
  need (mdAct d != 4 || (slotHead t (mdFtab d)).isSome) 0x2030 0

/-- R181: the checks at the start of a matrix operation: the matrix descriptor, and the descriptors of A, of a window's
source, of B and of C and the outlier block. -/
def CellMem.mxChecks (c : CellMem) (t : Sparse TabSlot) (op : AsyncOp) : Except (Nat × Nat) (Bytes × List Bytes) := do
  let off := op.operand
  let fast := modeFast op.mode
  need (off % 64 == 0 && off < lmSize) 0x2020 off
  let d ← c.grab off 64
  let sh := shapeOf (mdShape d)
  needAll 0x2021 0 (mdFields d fast ++ mdCombos d ++ (sh.map (mdRanges d fast)).getD [])
  let a ← c.mxOperandA (fieldLE d 0xC 4) (sh.map fun x => (mdKlen d, x.m))
  let b ← c.mxTensor (fieldLE d 0x10 4) 1 (sh.map fun x => (mdKlen d, x.n))
  let k ← if mdUsesC d then c.mxTensor (fieldLE d 0x14 4) 2 (sh.map fun x => (x.n, x.m)) else .ok []
  let at_ := aTensor a
  let path ← mxFormat (tdFmt at_) (tdZp at_) (tdFmt b) (tdZp b) fast
  let x ← mxShape (mdShape d) (some path) (isWindow a.1 && wdMap a.1 == 2)
  let tile ← c.mxTile d x op.mode
  mxPassLen d op.mode
  mxScale d at_ b x ((tile.map (·.reduced)).getD 0)
  let o ← if mdOutliers d == 0 then .ok [] else c.grab (mdOutlierBase d) (32 + 2 * mdOutliers d * (x.m + x.n))
  mxOutlier d o ((tile.map (·.outliers)).getD 0)
  need (mdChainIn d != (if fast then 1 else 2)) 0x2011 0x38
  c.noReplica (mxWrites d k fast x)
  if mdUsesC d then ftabThere d t else .ok ()
  .ok (d, [a.1, a.2, b, k, o])

/-! ### Issue and start -/

/-- R94, R154: MX and XFER: issue under a token. With no scoreboard entry or no count left the swarm waits. -/
def State.asyncInsn (s : State) (id k opc : Nat) (mx : Bool) : State :=
  s.issue id k (isOp opc) false false false encT (fun _ => []) (fun _ => []) fun s x =>
    let w := s.swarm id k
    let op : AsyncOp := { slot := k, token := bits x 44 4, pc := w.pc, operand := w.ureg (wA x), mode := w.mode }
    if s.roomFor id k op.token then (s.asyncIssue id mx op).commit id k else s

/-- R154: MX. -/
def execMx (cell : BitVec 10) (slot : BitVec 4) (s : State) : Host.Outcome State Fault Refusal :=
  .next <| s.asyncInsn cell.toNat slot.toNat 0x48 true

/-- R154: XFER. -/
def execXfer (cell : BitVec 10) (slot : BitVec 4) (s : State) : Host.Outcome State Fault Refusal :=
  .next <| s.asyncInsn cell.toNat slot.toNat 0x3A false

/-- R288: the local offsets of the descriptors an operation read, whose single-bit errors are corrected. -/
def State.touchAll (s : State) (id : Nat) (l : List Nat) : State := l.foldl (fun s a => s.lmTouch id a 64) s

/-- R164, R181: the matrix operation at the front starts when none runs: it reads its descriptors and runs its checks. -/
def State.mxStart (s : State) (id : Nat) : State :=
  let c := s.cell id
  match c.mxRun, c.mxQueue with
  | none, op :: rest =>
    let (s, t, _) := s.tabView c.tables c.tableRam c.tabCmd
    let r : AsyncRun := { op := op, tables := c.tables, tableRam := c.tableRam, tabCmd := c.tabCmd,
                          scale := c.scale, scaleCmd := c.scaleCmd }
    let (s, r) := match c.mxChecks t op with
      | .error e => (if e.1 == 0x300A then s.lmUceTold id else s, { r with fault := some e })
      | .ok (d, ts) =>
        (s.touchAll id ([op.operand, fieldLE d 0xC 4, fieldLE d 0x10 4] ++ (if mdUsesC d then [fieldLE d 0x14 4] else [])
          ++ (if isWindow (ts.getD 0 []) then [wdSrc (ts.getD 0 [])] else [])), { r with desc := d, tensors := ts })
    s.modCell id fun c => { c with mxQueue := rest, mxRun := some r }
  | _, _ => s

/-- R181: MX_START. -/
def execMxStart (cell : BitVec 10) (s : State) : Host.Outcome State Fault Refusal :=
  let id := cell.toNat
  .next <| if s.cellRuns id then s.mxStart id else s

end Sys2Proof.Machine
end

