-- ==== Sys2Proof/Machine/Mesh.lean ====
section
/-! DEFINITION. The mesh: where endpoints attach (Table 13-2), the route of a packet (R259), bridge ends (R262), the order of
packets (R260), what holds a packet (R247, R269), and the answers to requests (R102, R262, R273). -/
namespace Sys2Proof.Machine

/-! ### Endpoints and routes -/

/-- Table 13-2: channel and logical row of an endpoint, and the first and last column that serve it. -/
def Endpoint.place : Endpoint → Nat × Nat × Nat × Nat
  | .cell id => (chOf id, rowOf id, colOf id, colOf id)
  | .stack n => (n / 2, 0, 6 * (n % 2), 6 * (n % 2) + 5)
  | .dispatcher ch => (ch, 11, 0, 0)
  | .ingest ch => (ch, 11, 1, 1)
  | .camera ch => (ch, 11, 2, 2)
  | .quad n => (n / 4, 11, 3 + n % 4, 3 + n % 4)
  | .services ch => (ch, 11, 7, 11)

/-- Channel of an endpoint. -/
def Endpoint.ch (e : Endpoint) : Nat := e.place.1

/-- Table 13-5: OPP_DIR of a channel: true where traffic to the opposite channel goes through c - 1. -/
def State.oppDown (s : State) (c : Nat) : Bool := fieldLE (s.global 0x10) (16 + 8 * c) 1 == 1

/-- R259: the bridges crossed from one channel to another, as (from, to). -/
def State.hops (s : State) (c d : Nat) : List (Nat × Nat) :=
  match (d + 4 - c) % 4 with
  | 0 => []
  | 1 => [(c, (c + 1) % 4)]
  | 3 => [(c, (c + 3) % 4)]
  | _ => let m := if s.oppDown c then (c + 3) % 4 else (c + 1) % 4
    [(c, m), (m, d)]

/-- R259: a hop goes east, to channel c + 1. -/
def hopUp (h : Nat × Nat) : Bool := h.2 == (h.1 + 1) % 4

/-- The numbers from `a` to `b`, both included, in either direction. -/
def span (a b : Nat) : List Nat :=
  if a ≤ b then (List.range (b + 1 - a)).map (a + ·) else (List.range (a + 1 - b)).map (a - ·)

/-- R259: the cells on the rows before the last crossing, and the channel and column where the route goes on. -/
def crossCells (row : Nat) : List (Nat × Nat) → Nat → Nat → List Nat × Nat × Nat
  | [], c, k => ([], c, k)
  | h :: hs, c, k =>
    let edge := if hopUp h then 11 else 0
    let (l, c', k') := crossCells row hs h.2 (11 - edge)
    ((span k edge).map (cellId c row) ++ l, c', k')

/-- R259: the logical cells whose routers a packet passes, from column `k` of its source. -/
def State.pathFrom (s : State) (src dst : Endpoint) (k : Nat) : List Nat :=
  let (c, r, _, _) := src.place
  let (d, r', lo, hi) := dst.place
  let (l, c', k') := crossCells r (s.hops c d) c k
  let kd := min (max k' lo) hi
  l ++ (span k' kd).map (cellId c' r) ++ ((span r r').drop 1).map fun x => cellId d x kd

/-- R259, Table 13-2: the cells on the route from `src` to `dst`. An endpoint that several columns serve answers at the
column that the request reached. -/
def State.path (s : State) (src dst : Endpoint) : List Nat :=
  let (_, _, lo, hi) := src.place
  if lo == hi then s.pathFrom src dst lo
  else
    let (_, _, k, _) := dst.place
    let back := s.pathFrom dst src k
    s.pathFrom src dst (colOf (back.getLastD 0))

/-! ### Bridge ends -/

/-- Table 12-1: the island of the bridge between two neighbours. -/
def bridgeIsland (c n : Nat) : Nat := 0x424 + if n == (c + 1) % 4 then c else n

/-- R43, R249, R262: the bridge end of channel `c` that faces `n` is open. -/
def State.endOpen (s : State) (c n : Nat) : Bool :=
  s.configured c && s.configured n && !(s.dsp n).drain && !(s.island (bridgeIsland c n)).stopped
    && !(s.island (0x420 + c)).stopped && !(s.island (0x420 + n)).stopped

/-- R262: the first closed bridge end on a route: its channel, and whether it faces the channel above. -/
def State.closedOn (s : State) (c d : Nat) : Option (Nat × Bool) :=
  (s.hops c d).findSome? fun h =>
    if !s.endOpen h.1 h.2 then some (h.1, hopUp h)
    else if !s.endOpen h.2 h.1 then some (h.2, !hopUp h)
    else none

/-- R262: a closed bridge end counts what it takes. -/
def State.countEnd (s : State) (e : Nat × Bool) : State :=
  if e.2 then s.bump (Reg.dispBridgeStatusDiscardUp e.1) else s.bump (Reg.dispBridgeStatusDiscardDown e.1)

/-! ### Packets -/

/-- R256, Table 13-4: the class of a packet is RSP. -/
def PktKind.isRsp : PktKind → Bool
  | .ack | .refuse | .atomicRsp | .memrsp | .credit => true
  | _ => false

/-- The packet goes to a dispatcher as a message of its own network: a chain forward or an announcement. -/
def Packet.onMesh (p : Packet) : Bool :=
  match p.kind with
  | .chainForward | .chainAnnounce => false
  | _ => true

/-- R258: sends a packet; whether its way was open is kept with it. -/
def State.post (s : State) (p : Packet) : State :=
  s.send { p with wasOpen := (s.closedOn p.src.ch p.dst.ch).isNone }

/-- R260: two packets that keep their order: one source, one destination and one class, or one static route; forwards and
announcements between relays are a class of their own. -/
def Packet.sameLane (p q : Packet) : Bool :=
  p.src == q.src && p.dst == q.dst && p.kind.isRsp == q.kind.isRsp && p.onMesh == q.onMesh && p.route == q.route

/-- R247: a router on the way of a packet is stopped. A packet from a cell starts beyond its own router. -/
def State.wayStopped (s : State) (p : Packet) : Bool :=
  let l := s.path p.src p.dst
  let l := match p.src with
    | .cell _ => l.drop 1
    | _ => l
  l.any fun id => (s.island (s.phys id)).stopped

/-- R257, R269: packet `i` stands behind a message that waits at a full ring on its lane. -/
def State.heldBehind (s : State) (i : Nat) (p : Packet) : Bool :=
  !p.kind.isRsp && p.route.isNone &&
  ((List.range s.pkts.length).zip s.pkts).any fun e =>
    e.1 != i && e.2.waiting && e.2.dst == p.dst && (s.hops e.2.src.ch e.2.dst.ch).length == (s.hops p.src.ch p.dst.ch).length

/-- The packet that may arrive next as packet `i`: of one of the kinds, the first of its lane, not held on its way. -/
def State.arriving (s : State) (i : Nat) (kinds : List PktKind) : Option Packet :=
  match s.pkts[i]? with
  | none => none
  | some p =>
    if kinds.contains p.kind && !((s.pkts.take i).any p.sameLane)
      && (!p.onMesh || (!s.wayStopped p && !s.heldBehind i p && (p.wasOpen || (s.closedOn p.src.ch p.dst.ch).isNone)))
    then some p else none

/-- The answer to a request, from where it was performed. -/
def Packet.answer (p : Packet) (kind : PktKind) (arg : Nat) (payload : Bytes) : Packet :=
  { kind := kind, src := p.dst, dst := p.src, arg := BitVec.ofNat 64 arg, payload := payload, origin := p.origin,
    reqKind := p.kind }

/-- R101: ACK of a request. A static message is settled by its delivery and has no packet for it. -/
def State.ack (s : State) (p : Packet) : State := if p.route.isSome then s else s.post (p.answer .ack 0 [])

/-- R102, R262: REFUSE of a request. -/
def State.refuse (s : State) (p : Packet) (cause : Nat) : State :=
  if p.route.isSome then s else s.post (p.answer .refuse cause [])

/-- R102, R262, R273: REFUSE from a point on the way: the bridge end or router of a channel. -/
def State.refuseAt (s : State) (p : Packet) (ch cause : Nat) : State :=
  if p.kind.isRsp || p.route.isSome then s
  else s.post { p.answer .refuse cause [] with src := .dispatcher ch }

/-- R273: a launch that runs on a cell ends with a code. -/
def State.faultCell (s : State) (e : Endpoint) (code : Nat) : State :=
  match e with
  | .cell id =>
    let ch := chOf id
    (List.range 16).foldl (fun s k =>
      let c := s.ctx ch k
      if c.phase.holds && (s.ctxCells ch k).contains id then
        s.abortCtx ch k code
      else s) s
  | _ => s

/-- R273: an uncorrectable beat at the router of a cell: packet `i` is discarded, refused, counted and reported. -/
def State.meshUce (s : State) (i : Nat) (p : Packet) (router : Nat) : State :=
  let s := (s.dropPkt i).refuseAt p (chOf router) 0x4008
  let s := s.bump (Reg.cellMeshStatusUce (s.phys router))
  let s := (s.faultCell p.src 0x4008).faultCell p.dst 0x4008
  s.channelFault (chOf router) 0x4008

/-- R273: the arrival of packet `i`, with what the link checks on its way found. `f` performs it and takes it off the
mesh. -/
def State.arrive (s : State) (i : Nat) (kinds : List PktKind) (link : LinkErr) (f : State → Packet → State) : State :=
  match s.arriving i kinds with
  | none => s
  | some p =>
    match link with
    | .none => f s p
    | .corrected r =>
      if (s.path p.src p.dst).contains r.toNat then f (s.bump (Reg.cellMeshStatusCorrected (s.phys r.toNat))) p else s
    | .uncorrectable r =>
      if (s.path p.src p.dst).contains r.toNat then s.meshUce i p r.toNat else s

/-! ### Routes and rings (R264 to R269) -/

/-- The ROUTE entries of a channel's part: 32 bytes each. -/
def State.routeEntries (s : State) (ch : Nat) : List Bytes :=
  (s.sections ch 0x30).flatMap fun p => (List.range (fieldLE p 0 4)).map fun i => slice p (16 + 32 * i) 32

/-- A cell lies in the rectangle of a ROUTE entry, for rows and columns only. -/
def inRect (e : Bytes) (off id : Nat) : Bool :=
  fieldLE e off 1 ≤ rowOf id && rowOf id ≤ fieldLE e (off + 1) 1 && fieldLE e (off + 2) 1 ≤ colOf id
    && colOf id ≤ fieldLE e (off + 3) 1

/-- The receive ring of a cell: RX_BASE and RX_SLOTS. -/
def State.ringOf (s : State) (id : Nat) : Option (Nat × Nat) :=
  ((s.routeEntries (chOf id)).find? fun e => fieldLE e 0 1 == 1 && inRect e 4 id).map fun e => (fieldLE e 8 4, fieldLE e 12 1)

/-- A static route of a channel by its id: its entry. -/
def State.routeOf (s : State) (ch route : Nat) : Option Bytes :=
  (s.routeEntries ch).find? fun e => fieldLE e 0 1 == 0 && fieldLE e 1 1 == route

/-- The destinations of a static route. -/
def routeDests (e : Bytes) : List Nat := (cellsOf (fieldLE e 3 1 % 4)).filter (inRect e 4)

/-- DEPTH of a static route. -/
def routeDepth (e : Bytes) : Nat := fieldLE e 12 1

/-- Every static route of the running parts, with its source channel. -/
def State.allRoutes (s : State) : List Bytes :=
  ([0, 1, 2, 3].filter s.configured).flatMap fun ch => (s.routeEntries ch).filter fun e => fieldLE e 0 1 == 0

/-- R269: ring slots of a cell that static routes reserve. -/
def State.ringReserved (s : State) (id : Nat) : Nat :=
  total ((s.allRoutes.filter fun e => (routeDests e).contains id).map routeDepth)

/-- Table 13-9, bit 15. -/
def RingMsg.static (m : RingMsg) : Bool := bitAt m.header.toNat 15
/-- Route id of a message. -/
def RingMsg.route (m : RingMsg) : Nat := bits m.header.toNat 24 8
/-- Payload bytes of a message. -/
def RingMsg.len (m : RingMsg) : Nat := bits m.header.toNat 32 16

/-- The lowest ring slot that holds no message. -/
def CellMem.freeRing (c : CellMem) (slots : Nat) : Option Nat :=
  (List.range slots).find? fun i => !(c.ring.any fun m => m.slot == i)

/-- R269: a dynamic message finds an unreserved slot. -/
def State.ringRoom (s : State) (id slots : Nat) : Bool :=
  ((s.cell id).ring.filter fun m => !m.static).length + s.ringReserved id < slots

/-- R265: credits a cell has used of a route towards a destination. -/
def creditKey (route dest : Nat) : Nat := route * 1024 + dest

/-- R265: returns one credit: a CREDIT packet from the destination to the route's source. -/
def State.credit (s : State) (dest src route : Nat) (restore : Bool) : State :=
  s.post { kind := .credit, src := .cell dest, dst := .cell src, arg := BitVec.ofNat 64 (route + 256 * restore.toNat) }

/-- R269: writes a message into its slot of a cell's ring: it is performed. -/
def State.ringPutMsg (s : State) (id base slot header : Nat) (payload : Bytes) : State :=
  let s := s.modCell id fun c => { c.write (base + 528 * slot) (leBytes 8 header ++ zeros 8 ++ payload) with
    ring := c.ring ++ [{ slot := slot, header := BitVec.ofNat 64 header }] }
  s.high (Reg.cellMsgStatusRxHighWater (s.phys id)) (s.cell id).ring.length

end Sys2Proof.Machine
end

