-- ==== Sys2Proof/Machine/Region.lean ====
section
/-! DEFINITION. Physical HBM reads and writes with their outcomes (R283, R287), the region descriptors (R278), the walker
(R282) and the region registers (R280, R281). -/
namespace Sys2Proof.Machine

/-! ### HBM -/

/-- R287: an uncorrectable block is met by a read or by the scrubber: counted, its address recorded, and Bristle told. -/
def State.hbmUceTold (s : State) (block : Nat) (scrub : Bool) : State :=
  let k := stackOf (64 * block)
  let s := s.bump (Reg.memStatusUce k)
  let s := ((s.wr (Reg.memErrAddrValid k) 1).wr (Reg.memErrAddrScrub k) scrub.toNat).wr (Reg.memErrAddrAddr k) (64 * block)
  (s.evt 0x3008 k).channelFault (k / 2) 0x3008

/-- What a read gives: a code, the cause of a refusal, and the bytes. -/
structure ReadRes where
  code : Nat := 0
  cause : Nat := 0
  data : Bytes := []
deriving DecidableEq, Repr

/-- R283, R287: a physical read of HBM. -/
def State.hbmFetch (s : State) (a n : Nat) : State × ReadRes :=
  match s.absentStack a n with
  | some k => (s, { code := 0x300C, cause := s.absentCause k })
  | none =>
    match (blocksOf a n).find? fun b => sget 0 s.hbmErr b == 2 with
    | some b => (s.hbmUceTold b false, { code := 0x3008 })
    | none => let s := s.hbmTouch a n; (s, { data := s.hbmRead a n })

/-- R283, R287: a physical write of HBM: 0, or the cause of its refusal. A block partly written is read and merged. -/
def State.hbmStore (s : State) (a : Nat) (bs : Bytes) : State × Nat :=
  match s.absentStack a bs.length with
  | some k => (s, s.absentCause k)
  | none =>
    if s.hbmPartUce a bs.length then (s, 0x3008)
    else
      let part := (blocksOf a bs.length).filter fun b => !(wholeBlocks a bs.length).contains b
      let s := part.foldl (fun s b => s.hbmTouch (64 * b) 64) s
      (s.hbmWrite a bs, 0)

/-- R262, R283: an access from a channel to an HBM address whose way meets a closed bridge end is counted there. -/
def State.hbmWay (s : State) (ch a : Nat) : State × Bool :=
  match s.closedOn ch (a / 2 ^ 37) with
  | some e => (s.countEnd e, false)
  | none => (s, true)

/-- R283: a read of HBM from a channel. -/
def State.hbmFrom (s : State) (ch a n : Nat) : State × ReadRes :=
  let (s, ok) := s.hbmWay ch a
  if ok then s.hbmFetch a n else (s, { code := 0x300C, cause := 0x4007 })

/-- R283: a write of HBM from a channel: 0 or the cause of its refusal. -/
def State.hbmTo (s : State) (ch a : Nat) (bs : Bytes) : State × Nat :=
  let (s, ok) := s.hbmWay ch a
  if ok then s.hbmStore a bs else (s, 0x4007)

/-! ### Addresses and descriptors -/

/-- Table 14-1: what a device address names. -/
inductive Place where
  | hbm | window (id off : Nat) | regs | host | hole
deriving DecidableEq, Repr

/-- R276: the place of a device address. -/
def placeOf (a : Nat) : Place :=
  if a < 2 ^ 39 then .hbm
  else if 0x010000000000 ≤ a && a < 0x010080000000 then
    .window ((a - 0x010000000000) / 2 ^ 21) ((a - 0x010000000000) % 2 ^ 21)
  else if 0x020000000000 ≤ a && a < 0x020004000000 then .regs
  else if 2 ^ 51 ≤ a && a < 2 ^ 52 then .host
  else .hole

/-- READ of a descriptor. -/
def Desc.read (d : Desc) : Bool := bitAt d.flags 1
/-- WRITE of a descriptor. -/
def Desc.write (d : Desc) : Bool := bitAt d.flags 2
/-- HOST of a descriptor. -/
def Desc.host (d : Desc) : Bool := bitAt d.flags 3
/-- NO_SNOOP of a descriptor. -/
def Desc.noSnoop (d : Desc) : Bool := bitAt d.flags 4
/-- RELAXED of a descriptor. -/
def Desc.relaxed (d : Desc) : Bool := bitAt d.flags 5
/-- An address lies in a region. -/
def Desc.has (d : Desc) (a : Nat) : Bool := d.start ≤ a && a < d.start + d.size
/-- R278: the PCIe bus address of a device address of a host region. -/
def Desc.bus (d : Desc) (a : Nat) : Nat := d.target + (a - d.start)

/-- R278: the descriptor that 32 bytes hold. -/
def descOf (b : Bytes) : Desc :=
  { start := fieldLE b 0 8 % 2 ^ 52, size := fieldLE b 8 8 % 2 ^ 52, target := fieldLE b 16 8, flags := fieldLE b 24 1 }

/-- R278: 32 bytes with VALID = 1 that are malformed, for a walk of address `a`. -/
def malformed (b : Bytes) (a : Nat) : Bool :=
  let d := descOf b
  let g := a / 2 ^ 21 * 2 ^ 21
  fieldLE b 0 8 / 2 ^ 52 != 0 || fieldLE b 8 8 / 2 ^ 52 != 0 || bits d.flags 6 2 != 0 || fieldLE b 25 7 != 0
  || d.start % 64 != 0 || d.size % 64 != 0 || d.size == 0 || decide (2 ^ 51 < d.size)
  || (if d.host then decide (d.start < 2 ^ 51) || decide (2 ^ 52 < d.start + d.size) || d.target % 64 != 0
      else decide (2 ^ 39 < d.start + d.size) || d.target != 0 || d.noSnoop || d.relaxed)
  || decide (g + 2 ^ 21 ≤ d.start) || decide (d.start + d.size ≤ g)

/-- R282: DETAIL of a walk that ends without a descriptor. -/
def walkEnd (g code n addr : Nat) : WalkResult := { granule := g, code := code, detail := n + addr * 256 }

/-- R282: check_pointer. -/
def State.badPointer (s : State) (g p align : Nat) : Option WalkResult :=
  match placeOf p with
  | .window _ _ | .regs | .host => some (walkEnd g 0x3005 0 p)
  | .hole => some (walkEnd g 0x3006 6 p)
  | .hbm => if !s.stackUp (stackOf p) || p % align != 0 then some (walkEnd g 0x3006 6 p) else none

/-- R282: one read of a walk: its bytes, or how the walk ends. `sub` is Table 14-4's sub-code of an uncorrectable read. -/
def State.walkRead (s : State) (ch g p n sub : Nat) : State × Except WalkResult Bytes :=
  let (s, r) := s.hbmFrom ch p n
  if r.code == 0 then (s, .ok r.data)
  else (s, .error (walkEnd g 0x3006 (if r.code == 0x3008 then sub else 7) p))

/-- R282: the last step of a walk: the descriptor at `p`. A descriptor that does not hold `a` is kept beside REGION_MISS,
for the other lanes of the granule. -/
def State.walkDesc (s : State) (ch a p : Nat) : State × WalkResult :=
  let g := a / 2 ^ 21
  match s.walkRead ch g p 32 3 with
  | (s, .error e) => (s, e)
  | (s, .ok b) =>
    if !bitAt (fieldLE b 24 1) 0 then (s, walkEnd g 0x3002 4 p)
    else if malformed b a then (s, walkEnd g 0x3006 5 p)
    else if (descOf b).has a then (s, { granule := g, desc := some (descOf b, p) })
    else (s, { walkEnd g 0x3002 5 p with desc := some (descOf b, p) })

/-- R282: the pointer to the descriptor is checked, and the descriptor read. -/
def State.walkLeaf (s : State) (ch a p : Nat) : State × WalkResult :=
  match s.badPointer (a / 2 ^ 21) p 32 with
  | some e => (s, e)
  | none => s.walkDesc ch a p

/-- R282: the pointer to the second-level table at `base` is checked, and its entry read. -/
def State.walkTable (s : State) (ch a base : Nat) : State × WalkResult :=
  let g := a / 2 ^ 21
  match s.badPointer g base (2 ^ 21) with
  | some e => (s, e)
  | none =>
    let p2 := base + 8 * bits a 21 18
    match s.walkRead ch g p2 8 2 with
    | (s, .error e) => (s, e)
    | (s, .ok b2) =>
      let e2 := leNat b2
      if !bitAt e2 0 then (s, walkEnd g 0x3002 3 p2)
      else if bits e2 1 4 != 0 || bits e2 52 12 != 0 then (s, walkEnd g 0x3006 4 p2)
      else s.walkLeaf ch a (bits e2 5 47 * 32)

/-- R279, R282: a walk of a channel's region table for an address. -/
def State.walk (s : State) (ch a : Nat) : State × WalkResult :=
  let g := a / 2 ^ 21
  let root := s.rd (Reg.dispRegionRootRoot ch)
  if root == 0 then (s, walkEnd g 0x3002 1 0) else
  let p1 := root + 8 * bits a 39 13
  match s.walkRead ch g p1 8 1 with
  | (s, .error e) => (s, e)
  | (s, .ok b1) =>
    let e1 := leNat b1
    if !bitAt e1 0 then (s, walkEnd g 0x3002 2 p1)
    else if bits e1 1 20 != 0 || bits e1 52 12 != 0 then (s, walkEnd g 0x3006 4 p1)
    else s.walkTable ch a (bits e1 21 31 * 2 ^ 21)

/-- R282: a walk by a cell's walker, which counts it. -/
def State.cellWalk (s : State) (id a : Nat) : State × WalkResult :=
  (s.incr (Reg.cellRegionStatusWalks (s.phys id))).walk (chOf id) a

/-! ### Region registers -/

/-- R281: the lowest-numbered register of a launch that holds an address. -/
def CellMem.regionFor (c : CellMem) (ctx : Option Nat) (a : Nat) : Option RegionReg :=
  match ctx with
  | none => none
  | some k => (c.regions.filter fun r => r.ctx == k && r.desc.has a).foldl (fun b r =>
      match b with
      | none => some r
      | some x => if r.num < x.num then some r else b) none

/-- R280: the number of region list entries of the launch of context `k`. -/
def State.regionCount (s : State) (ch k : Nat) : Nat := (s.leRegions ch (s.launchEntry ch (s.ctx ch k).entry)).length

/-- R281: a successful walk fills the launch's lowest empty on-demand register, unless one of its registers already holds the
descriptor read from that address. -/
def State.fillRegion (s : State) (id : Nat) (ctx : Option Nat) (d : Desc) (addr : Nat) : State :=
  match ctx with
  | none => s
  | some k =>
    let own := (s.cell id).regions.filter fun r => r.ctx == k
    let n := s.regionCount (chOf id) k
    if own.any fun r => r.addr == addr then s else
    match [n, n + 1, n + 2, n + 3].find? fun i => !(own.any fun r => r.num == i) with
    | none => s
    | some i => s.modCell id fun c => { c with regions := c.regions ++ [{ desc := d, addr := addr, ctx := k, num := i }] }

/-- R281, step 2: what covers an address for a launch. -/
inductive Cover where
  | region (d : Desc)
  | walk
  | fail (code detail : Nat)
deriving DecidableEq, Repr

/-- R282: a walk's result applied to an address of its granule. -/
def WalkResult.covers (r : WalkResult) (a : Nat) : Cover :=
  match r.desc with
  | some (d, p) => if d.has a then .region d else .fail 0x3002 (5 + p * 256)
  | none => .fail r.code r.detail

/-- R281, step 2: the covering region of an address, or that a walk is needed, or its fault. -/
def State.cover (s : State) (id : Nat) (ctx : Option Nat) (done : List WalkResult) (a : Nat) : Cover :=
  match (s.cell id).regionFor ctx a with
  | some r => .region r.desc
  | none => match done.find? fun r => r.granule == a / 2 ^ 21 with
    | some r => r.covers a
    | none => if s.rd (Reg.dispRegionRootWalkEn (chOf id)) == 1 then .walk else .fail 0x3002 6

/-- R281, steps 3 and 4: REGION_BOUND and REGION_PERM. -/
def Desc.check (d : Desc) (a w : Nat) (write : Bool) : Nat :=
  if d.start + d.size < a + w then 0x3003
  else if (write && !d.write) || (!write && !d.read) then 0x3004
  else 0

end Sys2Proof.Machine
end

