-- ==== Sys2Proof/Machine/LaneMem.lean ====
section
/-! DEFINITION. Lane and uniform memory instructions: LD, ST, LDU, STU and ATOM (R92, R93, R100 to R105, R108, R150 to R152,
R281, R283, R288), and the end of a walk. -/
namespace Sys2Proof.Machine

/-! ### Formats and widths -/

/-- MFMT of an M-format word. -/
def mMfmt (x : Nat) : Nat := bits x 20 4
/-- RFMT of an M-format word. -/
def mRfmt (x : Nat) : Nat := bits x 16 4
/-- ZP of an M-format word. -/
def mZp (x : Nat) : Nat := bits x 8 8
/-- SHIFT of an M-format word. -/
def mShift (x : Nat) : Nat := bits x 6 2
/-- NOIDX of an M-format word. -/
def mNoidx (x : Nat) : Bool := bits x 5 1 == 1
/-- SPACE of an M-format word: DEVICE. -/
def mDevice (x : Nat) : Bool := bits x 4 1 == 1
/-- W of an M-format word. -/
def mW (x : Nat) : Nat := bits x 1 3

/-- R151: the access width in bytes. -/
def memWidth (x : Nat) : Nat := if mMfmt x == 0 then 2 ^ mW x else ((Fmt.ofCode (mMfmt x)).map Fmt.width).getD 8 / 8

/-- R151: lane registers that DATA names. -/
def memRegs (x : Nat) : Nat := if mMfmt x == 0 && 3 ≤ mW x && mW x ≤ 4 then 2 ^ (mW x - 2) else 1

/-- R136, R150, R151: the fields of LD, ST and ATOM; IDX is judged after NOIDX, DATA after W. -/
def encMem (x : Nat) (atom : Bool) (regs : Nat) : List (Nat × Bool) :=
  [if atom then (52, bits x 52 1 == 0) else (48, wFn x == 0), (32, okU (wA x)), (24, !mNoidx x || wB x == 0), (1, mW x ≤ 4),
   (40, wD x % regs == 0), (0, bits x 0 1 == 0)]

/-- R150: the fields of LDU and STU. -/
def encUni (x : Nat) : List (Nat × Bool) :=
  [(53, wGuard x == 0), (48, wFn x == 0), (40, okU (wD x)), (32, okU (wA x)), (24, wB x == 0), (6, mShift x == 0),
   (5, mNoidx x), (1, mW x ≤ 4), (0, bits x 0 1 == 0)]

/-- The lane registers of LD, ST and ATOM, in judging order. -/
def regsM (x regs : Nat) : List (Nat × Nat) := (if mNoidx x then [] else [(wB x, 1)]) ++ [(wD x, regs)]

/-- R151: formats of a memory operand. -/
def memFmts : List Nat := [0, 1, 2, 3, 4, 5, 8, 9, 10, 11, 12, 13]

/-- R151: formats of a register operand. -/
def regFmts : List Nat := [0, 1, 2, 3, 8, 9, 10, 11, 12, 13]

/-- R151, R163: check 5 of LD and ST. -/
def fmtMem (x : Nat) : List (Nat × Bool) :=
  let m := mMfmt x
  [(20, memFmts.contains m), (16, regFmts.contains (mRfmt x) && ((m == 0) == (mRfmt x == 0))),
   (8, m == 4 || m == 5 || mZp x == 0), (1, m == 0 || mW x == 0)]

/-- R151, R152, R163: check 5 of LDU, STU and ATOM: RAW with one of the widths listed. -/
def fmtRaw (ws : List Nat) (x : Nat) : List (Nat × Bool) :=
  [(20, mMfmt x == 0), (16, mRfmt x == 0), (8, mZp x == 0), (1, ws.contains (mW x))]

/-! ### The accesses of an instruction -/

/-- R102, R276: where one lane's access goes. -/
inductive Target where
  | loc (off : Nat)
  | rem (id off : Nat)
  | ext (place : Place)
deriving DecidableEq, Repr

/-- One access of a memory instruction: its lane, address, and where it goes. -/
structure LaneAcc where
  lane : Nat
  addr : Nat
  target : Target
deriving DecidableEq, Repr

/-- An opcode of the family: LD 0x30, ST 0x31, LDU 0x32, STU 0x33, ATOM 0x34. -/
def isLoad (x : Nat) : Bool := wOp x == 0x30 || wOp x == 0x32
/-- LDU or STU: one uniform address. -/
def isUni (x : Nat) : Bool := wOp x == 0x32 || wOp x == 0x33
/-- ATOM. -/
def isAtom (x : Nat) : Bool := wOp x == 0x34

/-- R102, R150: where an address of the instruction goes, for a swarm of cell `id`. -/
def targetOf (id x a : Nat) : Target :=
  if !mDevice x then .loc a
  else match placeOf a with
    | .window i off => if i == id then .loc off else .rem i off
    | p => .ext p

/-- R150: the accesses of an instruction, in ascending lane order. -/
def Swarm.accs (w : Swarm) (id x : Nat) : List LaneAcc :=
  let lanes := if isUni x then [0] else w.active x
  lanes.map fun i =>
    let idx := if mNoidx x then 0 else w.vreg (wB x) i * 2 ^ mShift x
    let a := (w.ureg (wA x) + idx) % 2 ^ 64
    { lane := i, addr := a, target := targetOf id x a }

/-- The lanes of a list of accesses as a mask; a uniform access names none (R150). -/
def laneMask (x : Nat) (l : List LaneAcc) : Nat := if isUni x then 0 else maskOf 32 fun i => l.any fun a => a.lane == i

/-- R102, R163: the parts of check 10 before the region checks, in order. -/
def memChecks (x : Nat) : List (Nat × (LaneAcc → Bool)) :=
  let w := memWidth x
  [(0x3036, fun a => isAtom x && (a.target == .ext .hbm || a.target == .ext .host)),
   (0x3032, fun a => match a.target with
     | .rem _ _ => isLoad x
     | _ => false),
   (0x3033, fun a => match a.target with
     | .rem i _ => !isLogical i
     | _ => false),
   (0x3030, fun a => match a.target with
     | .loc off | .rem _ off => decide (0x180000 < off + w)
     | _ => false),
   (0x3031, fun a => a.addr % w != 0),
   (0x3001, fun a => a.target == .ext .hole || a.target == .ext .regs)]

/-- R124: the first check that fails in any lane: its code and the lanes that fail it. -/
def firstFail (l : List LaneAcc) : List (Nat × (LaneAcc → Bool)) → Option (Nat × List LaneAcc)
  | [] => none
  | (code, bad) :: cs => match l.filter bad with
    | [] => firstFail l cs
    | h => some (code, h)

/-- R124: parks for a fault of check 10. -/
def State.memFault (s : State) (id slot x code detail : Nat) (bad : List LaneAcc) : State :=
  s.park id slot { code := code, insn := x, lanes := laneMask x bad, detail := detail,
                   addr := (bad.head?.map (·.addr)).getD 0 }

/-- Accesses to HBM or host memory. -/
def extOf (l : List LaneAcc) : List LaneAcc := l.filter fun a => match a.target with
  | .ext _ => true
  | _ => false

/-- Local accesses, with their offsets. -/
def locOf (l : List LaneAcc) : List (LaneAcc × Nat) := l.filterMap fun a => match a.target with
  | .loc off => some (a, off)
  | _ => none

/-- Remote accesses, with their cells and offsets. -/
def remOf (l : List LaneAcc) : List (LaneAcc × Nat × Nat) := l.filterMap fun a => match a.target with
  | .rem i off => some (a, i, off)
  | _ => none

/-! ### Passes and local stores -/

/-- R93: the conflict degree of local accesses of a width. -/
def conflict (offs : List Nat) (w : Nat) : Nat :=
  let words := sortNat (offs.flatMap fun o => wordsOf o w)
  let most := (List.range 32).foldl (fun m b => max m (words.filter fun v => v % 32 == b).length) 1
  most - 1

/-- R93: extra passes are counted. -/
def State.passes (s : State) (id : Nat) (offs : List Nat) (w : Nat) : State :=
  s.incr (Reg.cellLmStatusExtraPasses (s.phys id)) (conflict offs w)

/-- R288: a word whose eight bytes several writes cover together. -/
def coveredBy (l : List (Nat × Bytes)) (v : Nat) : Bool :=
  (List.range 8).all fun b => l.any fun e => e.1 ≤ 8 * v + b && 8 * v + b < e.1 + e.2.length

/-- R93, R288: writes of one instruction into a cell's local memory, in order. A word covered whole has valid ECC again; a
word covered in part is read first. -/
def State.lmStores (s : State) (id : Nat) (l : List (Nat × Bytes)) : State :=
  let words := sortNat (l.flatMap fun e => wordsOf e.1 e.2.length)
  let s := words.foldl (fun s v =>
    if coveredBy l v then s.modCell id fun c => { c with lmErr := sdel c.lmErr v } else s.lmTouch id (8 * v) 8) s
  s.modCell id fun c => l.foldl (fun c e => { c with lm := ssetN 0 c.lm e.1 e.2 }) c

/-! ### Values -/

/-- R151: what a load writes into lane `i` from the bytes read. -/
def Swarm.loadLane (w : Swarm) (x i : Nat) (b : Bytes) : Swarm × Conv :=
  if isUni x then (w.setU (wD x) (leNat b), { out := 0 })
  else if mMfmt x == 0 then
    ((List.range (memRegs x)).foldl (fun w k => w.setV (wD x + k) i (leNat b / 2 ^ (32 * k))) w, { out := 0 })
  else match Fmt.ofCode (mMfmt x), Fmt.ofCode (mRfmt x) with
    | some mf, some rf =>
      let c := convert mf rf (zpField mf (mZp x)) 0 (leNat b)
      (w.setV (wD x) i c.out, c)
    | _, _ => (w, { out := 0 })

/-- The 32-bit registers of an operand joined, lowest first. -/
def Swarm.joined (w : Swarm) (n k i : Nat) : Nat := total ((List.range k).map fun j => w.vreg (n + j) i * 2 ^ (32 * j))

/-- R151: the bytes a store of lane `i` writes. -/
def Swarm.storeLane (w : Swarm) (x i : Nat) : Bytes × Conv :=
  if isUni x then (leBytes (memWidth x) (w.ureg (wD x)), { out := 0 })
  else if mMfmt x == 0 then (leBytes (memWidth x) (w.joined (wD x) (memRegs x) i), { out := 0 })
  else match Fmt.ofCode (mMfmt x), Fmt.ofCode (mRfmt x) with
    | some mf, some rf =>
      let c := convert rf mf 0 (zpField mf (mZp x)) (w.vreg (wD x) i)
      (leBytes (memWidth x) c.out, c)
    | _, _ => ([], { out := 0 })

/-! ### Loads -/

/-- R283: a load performs: every lane's value is written, and the instruction commits. `data` holds what came from HBM or
the host. -/
def State.loadDone (s : State) (id slot x : Nat) (data : Sparse Bytes) : State :=
  let w := s.swarm id slot
  let l := w.accs id x
  let n := memWidth x
  let s := (locOf l).foldl (fun s e => s.lmTouch id e.2 n) s
  let s := s.passes id ((locOf l).map (·.2)) n
  let c := s.cell id
  let got := fun a : LaneAcc => match a.target with
    | .loc off => c.read off n
    | _ => sget [] data a.lane
  let s := l.foldl (fun s a => s.laneConv id slot (w.loadLane x a.lane (got a)).2) s
  let s := s.modSwarm id slot fun w => l.foldl (fun w a => (w.loadLane x a.lane (got a)).1) { w with mem := none }
  s.commit id slot

/-- Table 14-5: a MEMREQ of a lane through its covering region. -/
def State.memreq (s : State) (id slot x : Nat) (a : LaneAcc) (d : Desc) (data : Option Bytes) : State :=
  let addr := if d.host then d.bus a.addr else a.addr
  let n := memWidth x
  let arg := addr % 2 ^ 52 + data.isSome.toNat * 2 ^ 52 + (n - 1) * 2 ^ 53 + d.noSnoop.toNat * 2 ^ 62 + d.relaxed.toNat * 2 ^ 63
  let own := !d.host && a.addr / 2 ^ 37 == chOf id
  s.post { kind := .memreq, src := .cell id, dst := if d.host then .services (chOf id) else .stack (stackOf a.addr),
           arg := BitVec.ofNat 64 arg, payload := data.getD [],
           origin := { slot := slot, lane := a.lane, scope := if own then 1 else 2, use := data.isSome.toNat } }

/-! ### Stores -/

/-- R256: bytes in ascending address order, cut into maximal runs, each split at 512 bytes from its start. -/
def splitRuns (l : List (Nat × Byte)) : List (Nat × Bytes) :=
  l.foldl (fun rs e => match rs.getLast? with
    | some (o, bs) => if o + bs.length == e.1 && bs.length < 512 then rs.dropLast ++ [(o, bs ++ [e.2])] else rs ++ [(e.1, [e.2])]
    | none => [(e.1, [e.2])]) []

/-- R101: the fence scope of a window's home: the channel or the device. -/
def scopeOf (id other : Nat) : Nat := if chOf id == chOf other then 1 else 2

/-- R256: the STORE packets of the remote lanes of one store. -/
def State.remoteStores (s : State) (id slot : Nat) (l : List (Nat × Nat × Bytes)) : State :=
  let ids := sortNat (l.map (·.1))
  ids.foldl (fun s i =>
    let bytes : Sparse Byte := (l.filter fun e => e.1 == i).foldl (fun m e =>
      (List.range e.2.2.length).foldl (fun m k => sins (sdel m (e.2.1 + k)) (e.2.1 + k) (e.2.2.getD k 0)) m) []
    (splitRuns bytes).foldl (fun s r => s.post
      { kind := .store, src := .cell id, dst := .cell i, arg := BitVec.ofNat 64 r.1, payload := r.2,
        origin := { slot := slot, scope := scopeOf id i } }) s) s

/-- R151: a store performs: local lanes at once, remote and region lanes as packets, and the instruction commits. -/
def State.storeDone (s : State) (id slot x : Nat) (descs : List (LaneAcc × Desc)) : State :=
  let w := s.swarm id slot
  let l := w.accs id x
  let n := memWidth x
  let s := s.passes id ((locOf l).map (·.2)) n
  let s := l.foldl (fun s a => s.laneConv id slot (w.storeLane x a.lane).2) s
  let s := s.lmStores id ((locOf l).map fun e => (e.2, (w.storeLane x e.1.lane).1))
  let s := descs.foldl (fun s e => s.memreq id slot x e.1 e.2 (some (w.storeLane x e.1.lane).1)) s
  let s := s.remoteStores id slot ((remOf l).map fun e => (e.2.1, e.2.2, (w.storeLane x e.1.lane).1))
  (s.modSwarm id slot fun w => { w with mem := none }).commit id slot

/-! ### Atomics -/

/-- R104: an atomic operation on words of `wd` bits. -/
def atomOp (op wd a b : Nat) : Nat :=
  match op with
  | 0 => (a + b) % 2 ^ wd
  | 1 => if sx wd a ≤ sx wd b then a else b
  | 2 => if sx wd a ≤ sx wd b then b else a
  | 3 => min a b
  | 4 => max a b
  | 5 => a &&& b
  | 6 => a ||| b
  | _ => a ^^^ b

/-- R105: the operands of the lanes that address one word, in lane order: each lane with the operands below it combined, and
all of them combined. -/
def combineLanes (op wd : Nat) : List (Nat × Nat) → Option Nat → List (Nat × Option Nat) × Option Nat
  | [], acc => ([], acc)
  | (i, v) :: l, acc =>
    let next := match acc with
      | none => v
      | some a => atomOp op wd a v
    let (r, z) := combineLanes op wd l (some next)
    ((i, acc) :: r, z)

/-- R105: what a lane fetches from the word's old value. -/
def fetchVal (op wd old : Nat) : Option Nat → Nat
  | none => old
  | some p => atomOp op wd old p

/-- Writes a fetched value of `k` registers into a lane. -/
def Swarm.setFetched (w : Swarm) (n k i v : Nat) : Swarm :=
  (List.range k).foldl (fun w j => w.setV (n + j) i (v / 2 ^ (32 * j))) w

/-- R105: one update of a local word. -/
def State.atomLocal (s : State) (id slot x off : Nat) (lanes : List LaneAcc) : State :=
  let w := s.swarm id slot
  let n := memWidth x
  let op := bits x 48 3
  let (pre, all) := combineLanes op (8 * n) (lanes.map fun a => (a.lane, w.joined (wD x) (memRegs x) a.lane)) none
  let s := s.lmTouch id off n
  let old := leNat ((s.cell id).read off n)
  let s := s.lmStores id [(off, leBytes n (fetchVal op (8 * n) old all))]
  if bits x 51 1 == 1 then
    s.modSwarm id slot fun w => pre.foldl (fun w e => w.setFetched (wD x) (memRegs x) e.1 (fetchVal op (8 * n) old e.2)) w
  else s

/-- R102, R105: one ATOMIC packet for a word of another cell. -/
def State.atomRemote (s : State) (id slot x cell off : Nat) (lanes : List LaneAcc) : State :=
  let w := s.swarm id slot
  let n := memWidth x
  let op := bits x 48 3
  let fetch := bits x 51 1 == 1
  let (pre, all) := combineLanes op (8 * n) (lanes.map fun a => (a.lane, w.joined (wD x) (memRegs x) a.lane)) none
  let s := s.post { kind := .atomic, src := .cell id, dst := .cell cell,
                    arg := BitVec.ofNat 64 (off + op * 2 ^ 21 + (n == 8).toNat * 2 ^ 24 + fetch.toNat * 2 ^ 25),
                    payload := leBytes n (all.getD 0),
                    origin := { slot := slot, scope := scopeOf id cell, fetch := if fetch then pre else [], reg := wD x,
                                use := memRegs x - 1 } }
  if fetch then s.modSwarm id slot fun w => { w with fetching := w.fetching ++ [wD x] } else s

/-- R105: an atomic performs, one update for each word, in ascending order, and the instruction commits. -/
def State.atomDone (s : State) (id slot x : Nat) : State :=
  let l := (s.swarm id slot).accs id x
  let s := s.passes id ((locOf l).map (·.2)) (memWidth x)
  let s := (sortNat ((locOf l).map (·.2))).foldl (fun s off =>
    s.atomLocal id slot x off (l.filter fun a => a.target == .loc off)) s
  let rems := sortNat ((remOf l).map fun e => e.2.1 * 2 ^ 21 + e.2.2)
  let s := rems.foldl (fun s k =>
    s.atomRemote id slot x (k / 2 ^ 21) (k % 2 ^ 21) (l.filter fun a => a.target == .rem (k / 2 ^ 21) (k % 2 ^ 21))) s
  s.commit id slot

/-! ### Check 10 and the performance -/

/-- R288: LM_UCE in local accesses: a load or an atomic of a bad word, or a store that does not cover it whole. -/
def CellMem.uceLanes (c : CellMem) (x : Nat) (l : List LaneAcc) : List LaneAcc :=
  let n := memWidth x
  let ws := (locOf l).map fun e => (e.2, zeros n)
  let store := !isLoad x && !isAtom x
  ((locOf l).filter fun e => (wordsOf e.2 n).any fun v =>
    sget 0 c.lmErr v == 2 && !(store && coveredBy ws v)).map (·.1)

/-- R281: the accesses whose covering-region step fails, each with its code and DETAIL. -/
def coverFails (l : List (LaneAcc × Cover)) : List (LaneAcc × Nat × Nat) := l.filterMap fun e => match e.2 with
  | .fail c d => some (e.1, c, d)
  | _ => none

/-- R281: the accesses with their covering regions. -/
def coverDescs (l : List (LaneAcc × Cover)) : List (LaneAcc × Desc) := l.filterMap fun e => match e.2 with
  | .region d => some (e.1, d)
  | _ => none

/-- R163, R281: the rest of check 10 once every access has its covering region, and the performance. -/
def State.memPerform (s : State) (id slot x : Nat) (descs : List (LaneAcc × Desc)) : State :=
  let w := s.swarm id slot
  let l := w.accs id x
  let n := memWidth x
  let c := s.cell id
  match descs.filter fun e => e.2.check e.1.addr n (!isLoad x) == 0x3003 with
  | e :: es => s.memFault id slot x 0x3003 0 ((e :: es).map (·.1))
  | [] => match descs.filter fun e => e.2.check e.1.addr n (!isLoad x) == 0x3004 with
    | e :: es => s.memFault id slot x 0x3004 0 ((e :: es).map (·.1))
    | [] =>
      match if isLoad x then [] else ((locOf l).filter fun e => c.inReplica e.2 n).map (·.1) with
      | a :: as => s.memFault id slot x 0x3034 0 (a :: as)
      | [] => match c.uceLanes x l with
        | a :: as => (s.memFault id slot x 0x300A 0 (a :: as)).lmUceTold id
        | [] =>
          if isAtom x then s.atomDone id slot x
          else if !isLoad x then s.storeDone id slot x descs
          else if descs.isEmpty then s.loadDone id slot x []
          else
            let s := descs.foldl (fun s e => s.memreq id slot x e.1 e.2 none) s
            s.modSwarm id slot fun w => { w with
              mem := some { insn := x, walking := false, outstanding := descs.map fun e => e.1.lane } }

/-- R163, R281: check 10 of a memory instruction, from its first part. A walk still needed holds the swarm. -/
def State.memStep (s : State) (id slot x : Nat) : State :=
  let w := s.swarm id slot
  let l := w.accs id x
  let done := (w.mem.map (·.done)).getD []
  match firstFail l (memChecks x) with
  | some (code, bad) => s.memFault id slot x code 0 bad
  | none =>
    let cs := (extOf l).map fun a => (a, s.cover id w.ctx done a.addr)
    if cs.any fun e => e.2 == .walk then
      s.modSwarm id slot fun w => { w with mem := some { insn := x, done := done } }
    else match coverFails cs with
      | (a, code, detail) :: more =>
        s.memFault id slot x code detail (a :: ((more.filter fun e => e.2.1 == code).map (·.1)))
      | [] => s.memPerform id slot x (coverDescs cs)

/-- R281, R282: the next walk that a held instruction needs runs, fills a register, and the instruction goes on. -/
def State.memWalk (s : State) (id slot : Nat) : State :=
  let w := s.swarm id slot
  match w.mem with
  | none => s
  | some m =>
    if !m.walking || w.st != .active then s else
    let l := extOf (w.accs id m.insn)
    match l.find? fun a => s.cover id w.ctx m.done a.addr == .walk with
    | none => s.memStep id slot m.insn
    | some a =>
      let (s, r) := s.cellWalk id a.addr
      let s := match r.desc with
        | some (d, p) =>
          if l.any fun b => b.addr / 2 ^ 21 == r.granule && d.has b.addr then s.fillRegion id w.ctx d p else s
        | none => s
      let s := s.modSwarm id slot fun w => { w with mem := some { m with done := m.done ++ [r] } }
      s.memStep id slot m.insn

/-- R282: REGION_WALK_COMPLETE for a swarm that is held at a memory instruction. -/
def execRegionWalkComplete (cell : BitVec 10) (slot : BitVec 4) (s : State) : Host.Outcome State Fault Refusal :=
  .next <| if s.cellRuns cell.toNat then s.memWalk cell.toNat slot.toNat else s

/-- R283: data or an error for one lane of a held load; with the last of them the load completes or parks. -/
def State.memReturn (s : State) (id slot lane code cause : Nat) (data : Bytes) : State :=
  match (s.swarm id slot).mem with
  | none => s
  | some m =>
    if m.walking || !m.outstanding.contains lane then s else
    let m := { m with
      outstanding := m.outstanding.erase lane,
      data := if code == 0 then sset [] m.data lane data else m.data,
      errs := if code == 0 then m.errs else m.errs ++ [(lane, code, if code == 0x300C then cause else 0)] }
    let s := s.modSwarm id slot fun w => { w with mem := some m }
    if !m.outstanding.isEmpty then s else
    let l := (s.swarm id slot).accs id m.insn
    match l.findSome? fun a => (m.errs.find? fun e => e.1 == a.lane).map fun e => (a, e) with
    | none => s.loadDone id slot m.insn m.data
    | some (_, e) =>
      let bad := l.filter fun b => m.errs.any fun f => f.1 == b.lane && f.2.1 == e.2.1
      s.memFault id slot m.insn e.2.1 e.2.2 bad

/-! ### The instructions -/

/-- R151: LD. -/
def execLd (cell : BitVec 10) (slot : BitVec 4) (s : State) : Host.Outcome State Fault Refusal :=
  let id := cell.toNat
  let k := slot.toNat
  .next <| s.issue id k (isOp 0x30) false false false (fun x => encMem x false (memRegs x))
    (fun x => regsM x (memRegs x)) fmtMem fun s x => s.memStep id k x

/-- R151: ST. -/
def execSt (cell : BitVec 10) (slot : BitVec 4) (s : State) : Host.Outcome State Fault Refusal :=
  let id := cell.toNat
  let k := slot.toNat
  .next <| s.issue id k (isOp 0x31) false false false (fun x => encMem x false (memRegs x))
    (fun x => regsM x (memRegs x)) fmtMem fun s x => s.memStep id k x

/-- R150: LDU. -/
def execLdu (cell : BitVec 10) (slot : BitVec 4) (s : State) : Host.Outcome State Fault Refusal :=
  let id := cell.toNat
  let k := slot.toNat
  .next <| s.issue id k (isOp 0x32) false false false encUni (fun _ => []) (fmtRaw [0, 1, 2, 3]) fun s x => s.memStep id k x

/-- R150: STU. -/
def execStu (cell : BitVec 10) (slot : BitVec 4) (s : State) : Host.Outcome State Fault Refusal :=
  let id := cell.toNat
  let k := slot.toNat
  .next <| s.issue id k (isOp 0x33) false false false encUni (fun _ => []) (fmtRaw [0, 1, 2, 3]) fun s x => s.memStep id k x

/-- R152: ATOM. -/
def execAtom (cell : BitVec 10) (slot : BitVec 4) (s : State) : Host.Outcome State Fault Refusal :=
  let id := cell.toNat
  let k := slot.toNat
  .next <| s.issue id k (isOp 0x34) false false false (fun x => encMem x true (if mW x == 3 then 2 else 1))
    (fun x => regsM x (if mW x == 3 then 2 else 1)) (fmtRaw [2, 3]) fun s x => s.memStep id k x

end Sys2Proof.Machine
end

