-- ==== Sys2Proof/Machine/Sfu.lean ====
section
/-! DEFINITION. SFU, SOFTMAX and RMSNORM (R155, R206, R213, R216 to R219). -/
namespace Sys2Proof.Machine

/-- FMT of an SFU word. -/
def sfFmt (x : Nat) : Nat := bits x 12 4
/-- SUB of an SFU word. -/
def sfSub (x : Nat) : Nat := bits x 8 4

/-- R213: the table slot an SFU function uses. -/
def sfSlot (x : Nat) : Nat :=
  match wFn x with
  | 0 => 0 | 1 => 1 | 2 => 4 | 3 => 2 | 4 => 3 | 5 => wC x | 6 => 3 | _ => 2

/-- R136, R213: the fields of an SFU word. For RMSNORM, D and C are judged after SUB. -/
def encSfu (x : Nat) : List (Nat × Bool) :=
  let rms := wFn x == 7
  let row := wFn x == 6 || rms
  [(48, wFn x ≤ 7), (24, if row then okU (wB x) else okZ (wB x)),
   (16, rms || (if wFn x == 5 then wC x ≤ 15 else okZ (wC x))),
   (8, if rms then sfSub x ≤ 2 else sfSub x == 0),
   (40, !rms || sfSub x == 0 || okZ (wD x)), (16, !rms || (if sfSub x == 0 then okU (wC x) else okZ (wC x))),
   (0, bits x 0 8 == 0)]

/-- R155: the formats of an SFU operand and result. -/
def fmtSfu (x : Nat) : List (Nat × Bool) := [(12, [1, 2, 3, 10, 11, 12].contains (sfFmt x))]

/-- The format of an SFU word. -/
def sfF (x : Nat) : Fmt := (Fmt.ofCode (sfFmt x)).getD .fp32

/-- R213, check 1: a record offset that SFU_OPERAND refuses. -/
def badRec (off : Nat) : Bool := off % 8 != 0 || decide (0x17FF80 < off)

/-- R163, R213: the lane registers of an SFU word; D of RMSNORM is judged after SUB, and so after A. -/
def regsSfu (x : Nat) : List (Nat × Nat) :=
  if wFn x != 7 then [(wD x, 1), (wA x, 1)] else if sfSub x == 0 then [(wA x, 1), (wD x, 1)] else [(wA x, 1)]

/-- The value of a lane operand of an SFU word. -/
def Swarm.sfArg (w : Swarm) (x i : Nat) : Val := decode (sfF x) 0 (w.vreg (wA x) i)

/-! ### Functions of one operand -/

/-- R205, R206: one lane's lookup: its conversion, and whether it saturates. -/
def State.laneLookup (s : State) (id x : Nat) (a : Val) : State × Conv × Bool :=
  let c := s.cell id
  let (s, t, ram) := s.tabView c.tables c.tableRam c.tabCmd
  let (y, sat, flag) := tabLookup t ram (sfSlot x) a
  (s, encode (sfF x) 0 y, flag && (sat || pastMax (sfF x) y))

/-- R155, R206: TANH, LOGISTIC, EXP, RSQRT, RCP and TAB in every active lane. -/
def State.sfuLanes (s : State) (id k x : Nat) : State :=
  let w := s.swarm id k
  (w.active x).foldl (fun s i =>
    let (s, r, sat) := s.laneLookup id x (w.sfArg x i)
    let s := s.laneConv id k r
    let s := if sat then s.fnSat id k else s
    s.modSwarm id k fun w => w.setV (wD x) i r.out) s

/-- R155, R213: SFU. -/
def execSfu (cell : BitVec 10) (slot : BitVec 4) (s : State) : Host.Outcome State Fault Refusal :=
  let id := cell.toNat
  let k := slot.toNat
  .next <| s.issue id k (fun x => isOp 0x40 x && (wFn x ≤ 5 || 8 ≤ wFn x)) false false false encSfu regsSfu fmtSfu fun s x =>
    let c := s.cell id
    let (s, t, _) := s.tabView c.tables c.tableRam c.tabCmd
    if (slotHead t (sfSlot x)).isNone then s.faultInsn id k x 0x2030 0
    else (s.sfuLanes id k x).commit id k

/-! ### Row operations -/

/-- R213: the checks of a row operation: record offset and count, REPLICA_WRITE for a write, LM_UCE for a read; then it
goes on. -/
def State.rowOp (s : State) (id k x : Nat) (badCount write reads : Bool) (f : State → State) : State :=
  let off := (s.swarm id k).ureg (wB x)
  if badRec off || badCount then s.faultInsn id k x 0x2031 0
  else if write && (s.cell id).inReplica off 96 then s.faultInsn id k x 0x3034 0
  else if reads && (s.cell id).uce off 96 then (s.faultInsn id k x 0x300A 0).lmUceTold id
  else f (if reads then s.lmTouch id off 96 else s)

/-- The quire of a record in local memory. -/
def CellMem.quireAt (c : CellMem) (off : Nat) : Quire := Quire.ofRecord (c.read off 96)

/-- R216, R218: a value rounded to a 32-bit significand, to nearest with ties to even. -/
def Val.round32 : Val → Val
  | .fin neg sig exp =>
    if sig == 0 then .zero else
    let q := exp + (lg sig : Int) - 31
    .fin neg (rne sig exp q) q
  | v => v

/-- Writes a row operation's result into the active lanes: lane i receives v[A] × r. -/
def State.scaleLanes (s : State) (id k x : Nat) (r : Val) : State :=
  let w := s.swarm id k
  (w.active x).foldl (fun s i =>
    let c := encode (sfF x) 0 ((w.sfArg x i).mul r)
    (s.laneConv id k c).modSwarm id k fun w => w.setV (wD x) i c.out) s

/-- R216: what the row sum's reciprocal is: by Table 04-2 where the sum is not finite or zero, else by table 3. -/
def rowRecip (v : Val) : Val :=
  match v with
  | .inf _ => .zero
  | .nar | .nan => .nar
  | _ => if v.isZero then .inf false else (tabLookup [] [] 3 v.round32).1

/-- R216: SOFTMAX. -/
def execSoftmax (cell : BitVec 10) (slot : BitVec 4) (s : State) : Host.Outcome State Fault Refusal :=
  let id := cell.toNat
  let k := slot.toNat
  .next <| s.issue id k (fun x => isOp 0x40 x && (wFn x == 6 || 8 ≤ wFn x)) false false false encSfu regsSfu fmtSfu fun s x =>
    s.rowOp id k x false false true fun s =>
      let q := (s.cell id).quireAt ((s.swarm id k).ureg (wB x))
      let (v, ovf) := q.read
      let s := if ovf then s.qovf id k else s
      let s := if q.smsat then s.smSat id k else s
      (s.scaleLanes id k x (rowRecip v)).commit id k

/-- An RMSNORM word with a SUB of the row, or with one that is not listed. -/
def isRms (sub x : Nat) : Bool := isOp 0x40 x && ((wFn x == 7 && (sfSub x == sub || 3 ≤ sfSub x)) || 8 ≤ wFn x)

/-- R217: the squares of the active lanes added into a quire. -/
def Swarm.addSquares (w : Swarm) (x : Nat) (q : Quire) : Quire :=
  (w.active x).foldl (fun q i => q.addVal ((w.sfArg x i).mul (w.sfArg x i))) q

/-- R217: RMSNORM ACCUM_FIRST. -/
def execRmsnormAccumFirst (cell : BitVec 10) (slot : BitVec 4) (s : State) : Host.Outcome State Fault Refusal :=
  let id := cell.toNat
  let k := slot.toNat
  .next <| s.issue id k (isRms 1) false false false encSfu regsSfu fmtSfu fun s x =>
    s.rowOp id k x false true false fun s =>
      let w := s.swarm id k
      (s.lmStores id [(w.ureg (wB x), (w.addSquares x {}).toRecord)]).commit id k

/-- R217: RMSNORM ACCUM. -/
def execRmsnormAccum (cell : BitVec 10) (slot : BitVec 4) (s : State) : Host.Outcome State Fault Refusal :=
  let id := cell.toNat
  let k := slot.toNat
  .next <| s.issue id k (isRms 2) false false false encSfu regsSfu fmtSfu fun s x =>
    s.rowOp id k x false true true fun s =>
      let w := s.swarm id k
      let off := w.ureg (wB x)
      if (w.active x).isEmpty then s.commit id k
      else (s.lmStores id [(off, (w.addSquares x ((s.cell id).quireAt off)).toRecord)]).commit id k

/-- R218: S / n + ε rounded to a 32-bit significand. -/
def rmsMean (v : Val) (n : Nat) (eps : Val) : Val :=
  match v.add (eps.mul (Val.ofInt n 0)) with
  | .fin neg sig exp => if sig == 0 then .zero else (Val.ratio neg sig n exp).round32
  | x => x

/-- R218: RMSNORM APPLY. -/
def execRmsnormApply (cell : BitVec 10) (slot : BitVec 4) (s : State) : Host.Outcome State Fault Refusal :=
  let id := cell.toNat
  let k := slot.toNat
  .next <| s.issue id k (isRms 0) false false false encSfu regsSfu fmtSfu fun s x =>
    let cw := (s.swarm id k).ureg (wC x)
    let n := bits cw 0 32
    s.rowOp id k x (n == 0) false true fun s =>
      let (v, ovf) := ((s.cell id).quireAt ((s.swarm id k).ureg (wB x))).read
      let s := if ovf then s.qovf id k else s
      let r := (tabLookup [] [] 2 (rmsMean v n (positDec 32 (bits cw 32 32)))).1
      (s.scaleLanes id k x r).commit id k

end Sys2Proof.Machine
end

