-- ==== Sys2Proof/Machine/MxPass.lean ====
section
/-! DEFINITION. The pass of a matrix operation (R173 to R176), its output step (R177, R178, R79) and its completion
(R174, R182). -/
namespace Sys2Proof.Machine

/-! ### Local memory during an asynchronous operation -/

/-- Goes on unless an uncorrectable error has ended the operation. -/
def andThen (x : State × Bool) (f : State → State × Bool) : State × Bool := if x.2 then x else f x.1

/-- Each of a list of steps in turn, until one meets an uncorrectable error. -/
def eachOf {α : Type} (x : State × Bool) (l : List α) (f : State → α → State × Bool) : State × Bool :=
  l.foldl (fun x a => andThen x fun s => f s a) x

/-- R182, R288: reads of ranges of local memory; true where one meets an uncorrectable word. -/
def State.lmReads (s : State) (id : Nat) (l : List (Nat × Nat)) : State × Bool :=
  if l.any fun r => (s.cell id).uce r.1 r.2 then (s.lmUceTold id, true)
  else (l.foldl (fun s r => s.lmTouch id r.1 r.2) s, false)

/-- R182, R288: a write of local memory; true where it would merge with an uncorrectable word. -/
def State.lmPut (s : State) (id off : Nat) (bs : Bytes) : State × Bool :=
  if (s.cell id).partUce off bs.length then (s.lmUceTold id, true) else (s.lmStores id [(off, bs)], false)

/-! ### The accumulator store -/

/-- R77: the quires of a STRICT tile. -/
def CellMem.quires (c : CellMem) (acc n : Nat) : List Quire := (sgetN 0 c.acc acc n).map fun e => .ofEntry e.toNat

/-- R77: writes the quires of a STRICT tile. -/
def CellMem.setQuires (c : CellMem) (acc : Nat) (l : List Quire) : CellMem :=
  { c with acc := ssetN 0 c.acc acc (l.map fun q => BitVec.ofNat 648 q.toEntry) }

/-- R77: window `w`. -/
def CellMem.window (c : CellMem) (w : Nat) : Win := .ofBits (bits (sget 0 c.acc (w / 3)).toNat (168 * (w % 3)) 168)

/-- R77: the windows of a FAST tile. -/
def CellMem.windows (c : CellMem) (acc n : Nat) : List Win := (List.range n).map fun e => c.window (4 * acc + e)

/-- R77: writes window `w`. -/
def CellMem.setWindow (c : CellMem) (w : Nat) (x : Win) : CellMem :=
  { c with acc := smod 0 c.acc (w / 3) fun e =>
      BitVec.ofNat 648 (setBits (bits e.toNat 0 504) (168 * (w % 3)) 168 x.toBits) }

/-- R77: writes the windows of a FAST tile. -/
def CellMem.setWindows (c : CellMem) (acc : Nat) (l : List Win) : CellMem :=
  (l.zip (List.range l.length)).foldl (fun c x => c.setWindow (4 * acc + x.2) x.1) c

/-- Changes the live tile of an ACC and an ARITH. -/
def CellMem.modTile (c : CellMem) (acc : Nat) (fast : Bool) (f : Tile → Tile) : CellMem :=
  { c with tiles := c.tiles.map fun t => if t.acc == acc && t.fast == fast then f t else t }

/-- R172: a live tile ends. -/
def CellMem.endTile (c : CellMem) (acc : Nat) (fast : Bool) : CellMem :=
  { c with tiles := c.tiles.filter fun t => t.acc != acc || t.fast != fast }

/-- R172: a tile begins, with quires of zero or EMPTY windows. -/
def CellMem.beginTile (c : CellMem) (t : Tile) (e : Nat) : CellMem :=
  let c := { c with tiles := c.tiles ++ [t] }
  if t.fast then c.setWindows t.acc (List.replicate e {}) else c.setQuires t.acc (List.replicate e {})

/-! ### Terms -/

/-- The pieces of `n` elements of a list, the last one shorter. -/
def runsOf {α : Type} (n : Nat) (l : List α) : List (List α) :=
  (List.range (cdiv l.length n)).map fun j => (l.drop (j * n)).take n

/-- R72 to R74, R86: the groups of one element, from a window, a spill quire and the tile's group count. -/
def fastRun (iv : Nat) : List (List Val) → Win → Quire → Nat → Win × Quire
  | [], w, q, _ => (w, q)
  | p :: ps, w, q, g =>
    let (w, q, g) := if iv ≤ g then (({} : Win), w.foldInto q, 0) else (w, q, g)
    let w := w.addGroup p
    if g + 1 == iv then fastRun iv ps {} (w.foldInto q) 0 else fastRun iv ps w q (g + 1)

/-- R74: the tile's group count and its folds after `n` more groups. -/
def groupRun (iv : Nat) : Nat → Nat → Nat → Nat × Nat
  | 0, g, f => (g, f)
  | n + 1, g, f =>
    let (g, f) := if iv ≤ g then (0, f + 1) else (g, f)
    if g + 1 == iv then groupRun iv n 0 (f + 1) else groupRun iv n (g + 1) f

/-- R175: the group-scaled terms of one element, from its products in order and the scales of its groups. -/
def groupTerms (g : Nat) (scale : Nat → Val) (ps : List Val) : List Val :=
  let l := runsOf g ps
  (l.zip (List.range l.length)).map fun x => (x.1.foldl Val.add .zero).mul (scale x.2)

/-- One element's accumulation: the terms added exactly, and the products that go into FAST groups. -/
structure Terms where
  exact : List Val
  grouped : List Val
deriving DecidableEq, Repr

/-- What a pass reads: its matrix descriptor, A, the source of a window A, B, C and the outlier block. -/
structure PassIn where
  d : Bytes
  a : Bytes
  src : Bytes
  b : Bytes
  c : Bytes
  o : Bytes
  x : Shape
  done : Nat
deriving DecidableEq, Repr

/-- R176: position `k` of the pass is an outlier position. -/
def PassIn.isOutlier (i : PassIn) (k : Nat) : Bool := (List.range (mdOutliers i.d)).any fun j => outPos i.o j == k

/-- R190: row `m` of operand A is void. -/
def PassIn.void (i : PassIn) (m : Nat) : Bool := isWindow i.a && wdVoid i.a m

/-- R167, R191, R192: the value that operand A supplies for element (m, n) at position `k`. -/
def PassIn.aVal (i : PassIn) (c : CellMem) (m n k : Nat) : Val :=
  if isWindow i.a then
    let p := wdPixel i.a (wdPix0 i.a + m)
    let (t, cb, ch) := wdIndex i.a i.src (wdKOff i.a + k) n
    c.wdElem i.a i.src p.1 p.2 t cb ch
  else c.tdElem i.a (tdRow i.a m) m k

/-- R167: the value that operand B supplies for column `n` at position `k`. -/
def PassIn.bVal (i : PassIn) (c : CellMem) (n k : Nat) : Val := c.tdElem i.b (tdRow i.b n) n k

/-- R173, R176, R190: the products of an element in ascending reduction order. -/
def PassIn.products (i : PassIn) (c : CellMem) (m n : Nat) : List Val :=
  (List.range (mdKlen i.d)).map fun k =>
    if i.void m || i.isOutlier k then .zero else (i.aVal c m n k).mul (i.bVal c n k)

/-- R176: the outlier products of an element. -/
def PassIn.outlierTerms (i : PassIn) (m n : Nat) : List Val :=
  let q := mdOutliers i.d
  if i.void m then [] else (List.range q).map fun j =>
    (positDec 16 (fieldLE i.o (32 + 2 * (j * i.x.m + m)) 2)).mul
      (positDec 16 (fieldLE i.o (32 + 2 * q * i.x.m + 2 * (j * i.x.n + n)) 2))

/-- R175: the scale of group `j` of this pass for column `n`. -/
def PassIn.scale (i : PassIn) (c : CellMem) (n j : Nat) : Val :=
  positDec 16 (leNat (c.read (mdGscale i.d + 2 * (n * mdGstride i.d + i.done / mdG i.d + j)) 2))

/-- R70, R75, R175, R176: the terms of an element. -/
def PassIn.terms (i : PassIn) (c : CellMem) (m n : Nat) : Terms :=
  let ps := i.products c m n
  if mdGsize i.d == 0 then ⟨i.outlierTerms m n, ps⟩
  else ⟨groupTerms (mdG i.d) (i.scale c n) ps ++ i.outlierTerms m n, ps.map fun _ => .zero⟩

/-- The byte ranges that the operands and the group scales of a pass take. -/
def PassIn.reads (i : PassIn) : List (Nat × Nat) :=
  let k := mdKlen i.d
  let rows := fun (t : Bytes) (n : Nat) => (List.range n).flatMap fun r =>
    (tdRow t r, rowBytes (tdFmt t) k)
      :: if tdBscale t then [(tdBsBase t + r * tdBlocks t, (k - 1) / 32 + 1)] else []
  (if isWindow i.a then
      (List.range i.x.m).flatMap fun m => if i.void m then [] else (List.range k).flatMap fun kk =>
        let p := wdPixel i.a (wdPix0 i.a + m)
        (if wdMap i.a == 2 then List.range 32 else [0]).flatMap fun n =>
          let (t, cb, ch) := wdIndex i.a i.src (wdKOff i.a + kk) n
          wdRanges i.a i.src p.1 p.2 t cb ch
    else rows i.a i.x.m)
  ++ rows i.b i.x.n
  ++ (if mdGsize i.d == 0 then [] else (List.range i.x.n).map fun n =>
        (mdGscale i.d + 2 * (n * mdGstride i.d + i.done / mdG i.d), 2 * cdiv k (mdG i.d)))

/-- The elements of a tile, row by row. -/
def Shape.elems (x : Shape) : List (Nat × Nat) := (List.range x.m).flatMap fun m => (List.range x.n).map fun n => (m, n)

/-- R70: the terms of one element added to a quire. -/
def Quire.addAll (q : Quire) (l : List Val) : Quire := l.foldl Quire.addVal q

/-! ### The output step -/

/-- What the output step needs of its operation: the matrix descriptor, the tables and the scale file as it found them,
the output format, its zero point and TEXP, and the slot whose events it raises. -/
structure OutPar where
  d : Bytes
  slot : Nat
  run : AsyncRun
  f : Fmt
  zp : Int
  texp : Int
deriving DecidableEq, Repr

/-- What the output step gives for an element: the conversion, the zero point used, and that SMSAT is set. -/
structure OutVal where
  conv : Conv
  zp : Int
  smsat : Bool
deriving DecidableEq, Repr

/-- R178: RELU. -/
def relu (v : Val) : Val :=
  match v with
  | .fin n s e => if n || s == 0 then .zero else .fin false s e
  | .inf n => if n then .zero else .inf false
  | x => x

/-- R178: the activation: its result, and that a lookup of a SATFLAG table saturates by its range. -/
def State.activate (s : State) (id : Nat) (o : OutPar) (v : Val) : State × Val × Bool × Bool :=
  match mdAct o.d with
  | 0 => (s, v, false, false)
  | 1 => (s, relu v, false, false)
  | a =>
    let r := encode .posit32 0 v
    let s := s.cvtEvent id o.slot r.ev
    let (s, t, ram) := s.tabView o.run.tables o.run.tableRam o.run.tabCmd
    let (y, sat, flag) := tabLookup t ram (if a == 4 then mdFtab o.d else a - 2) (positDec 32 r.out)
    let r2 := encode .posit32 0 y
    (s.cvtEvent id o.slot r2.ev, positDec 32 r2.out, sat, flag)

/-- R177, step 6: the scale of column `n` and the zero point that its entry gives. -/
def State.outScale (s : State) (o : OutPar) (n : Nat) : State × Val × Int :=
  match mdScaleMode o.d with
  | 0 => (s, .ofInt 1 0, o.zp)
  | 1 => (s, positDec 32 (mdScale o.d), o.zp)
  | _ =>
    let (s, f) := s.scaleView o.run.scale o.run.scaleCmd
    let e := scaleEntry f (mdScale o.d + n)
    (s, seMul e, if o.f.isCode then (seZp o.f e).getD o.zp else o.zp)

/-- R177, steps 3 to 7, R231: one element, from its quire. -/
def State.outValue (s : State) (id : Nat) (o : OutPar) (n : Nat) (q : Quire) : State × OutVal :=
  let q := if mdBias o.d then q.addVal (positDec 32 (leNat ((s.cell id).read (mdBiasBase o.d + 4 * n) 4))) else q
  let (v, ovf) := q.read
  let s := if ovf then s.qovf id o.slot else s
  let (s, v, sat, flag) := s.activate id o v
  let (s, m, z) := s.outScale o n
  let y := (v.mul m).mul (Val.pow2 (-o.texp))
  let c := encode o.f z y
  let s := s.cvtEvent id o.slot c.ev
  let s := if !c.clip then s else
    if mdScaleMode o.d == 2 then s.clipEntry id o.slot (mdScale o.d + n) else s.clipOther id o.slot
  (s, { conv := c, zp := z, smsat := mdAct o.d == 4 && flag && (sat || c.clip || pastMax o.f y) })

/-- R79: the larger of two written values; NaR or NaN outranks every number. -/
def maxWritten (f : Fmt) (a b : Nat) : Nat :=
  let x := decode f 0 a
  let y := decode f 0 b
  if x.isNar then a else if y.isNar then b else if x.lt y then b else a

/-- R79: a row's sum and maximum while the row is written. -/
structure RowAcc where
  sum : Quire := {}
  top : Option Nat := none
deriving DecidableEq, Repr

/-- R79, R215: a written value enters its row. -/
def RowAcc.enter (r : RowAcc) (f : Fmt) (v : OutVal) : RowAcc :=
  let q := r.sum.addVal (decode f v.zp v.conv.out)
  { sum := { q with smsat := q.smsat || v.smsat }, top := some ((r.top.map fun t => maxWritten f t v.conv.out).getD v.conv.out) }

/-- R79: the record of a row, combined with the record in memory unless the tile is the first of its sweep. -/
def RowAcc.record (r : RowAcc) (f : Fmt) (old : Option Bytes) : Bytes :=
  match old with
  | none => rowStats r.sum (r.top.getD 0)
  | some b => rowStats ((Quire.ofRecord b).merge r.sum) (maxWritten f (fieldLE b 96 4 % 2 ^ f.width) (r.top.getD 0))

/-- R79: the update of row `m`'s record. -/
def State.rowStat (s : State) (id : Nat) (o : OutPar) (m : Nat) (r : RowAcc) : State × Bool :=
  if !mdRowstat o.d then (s, false) else
  let off := mdRowstatBase o.d + 128 * m
  if mdRowfirst o.d then s.lmPut id off (r.record o.f none)
  else andThen (s.lmReads id [(off, 128)]) fun s => s.lmPut id off (r.record o.f (some ((s.cell id).read off 128)))

/-- R177, step 8: writes element (m, n) of C. -/
def State.putC (s : State) (id : Nat) (c : Bytes) (m n v : Nat) : State × Bool :=
  let w := elemBits (tdFmt c)
  let off := tdRow c m + n * w / 8
  if w == 4 then
    andThen (s.lmReads id [(off, 1)]) fun s =>
      s.lmPut id off (leBytes 1 (setBits (leNat ((s.cell id).read off 1)) (4 * (n % 2)) 4 v))
  else s.lmPut id off (leBytes (w / 8) v)

/-- R177, steps 1 and 2: the chain record read into an element's quire. -/
def chainAdd (d : Bytes) (q : Quire) (b : Bytes) : Quire :=
  match mdChainIn d with
  | 0 => q
  | 1 => q.merge (.ofRecord b)
  | _ => q.addChainForm (.ofRecord b)

/-- R177: the elements of row `m` of a descriptor-mode tile. -/
def State.outRow (s : State) (id : Nat) (i : PassIn) (o : OutPar) (fast : Bool) (m : Nat) (qs : List Quire) : State × Bool :=
  let r := recSize fast
  let step := fun (x : (State × Bool) × RowAcc) (n : Nat) =>
    if x.1.2 then x else
    let e := m * i.x.n + n
    let rec_ := mdChainBase i.d + r * e
    let (s, bad) := x.1.1.lmReads id ((if mdChainIn i.d == 0 then [] else [(rec_, r)])
      ++ (if mdBias i.d then [(mdBiasBase i.d + 4 * n, 4)] else []))
    if bad then ((s, bad), x.2) else
    let q := chainAdd i.d (qs.getD e {}) ((s.cell id).read rec_ r)
    let (s, bad) := if fast && mdChainIn i.d != 0 then s.lmPut id (mdSpill i.d + 96 * e) q.toRecord else (s, false)
    if bad then ((s, bad), x.2)
    else if mdChainOut i.d then (s.lmPut id rec_ (if fast then q.toChainForm.toRecord 0 else q.toRecord), x.2)
    else
      let (s, v) := s.outValue id o n q
      (s.putC id i.c m n v.conv.out, x.2.enter o.f v)
  let (x, row) := (List.range i.x.n).foldl step ((s, false), {})
  andThen x fun s => if mdChainOut i.d then (s, false) else s.rowStat id o m row

/-- R177: the output step of a descriptor-mode tile. -/
def State.outputStep (s : State) (id : Nat) (i : PassIn) (run : AsyncRun) (qs : List Quire) : State × Bool :=
  let f := (Fmt.ofCode (tdFmt i.c)).getD .raw
  let o : OutPar := { d := i.d, slot := run.op.slot, run := run, f := f, zp := zpField f (tdZp i.c), texp := tdTexp i.c }
  eachOf (s, false) (List.range i.x.m) fun s m => s.outRow id i o (modeFast run.op.mode) m qs

/-! ### A pass -/

/-- R74: counts the folds of a tile. -/
def State.folds (s : State) (id n : Nat) : State := s.incr (Reg.cellAccStatusFoldCount (s.phys id)) n

/-- R173: a STRICT pass from its operand reads on. -/
def State.strictPass (s : State) (id : Nat) (i : PassIn) (run : AsyncRun) : State × Bool :=
  let acc := mdAcc i.d
  let c := s.cell id
  let qs := (i.x.elems.zip (c.quires acc i.x.e)).map fun x =>
    let t := i.terms c x.1.1 x.1.2
    x.2.addAll (if mdGsize i.d == 0 then t.exact ++ t.grouped else t.exact)
  let s := s.modCell id fun c => (c.setQuires acc qs).modTile acc false fun t =>
    { t with reduced := t.reduced + mdKlen i.d, outliers := t.outliers + mdOutliers i.d }
  if mdLast i.d then s.outputStep id i run qs
  else s.lmPut id (mdPsum i.d) (qs.flatMap Quire.toRecord)

/-- R173: a FAST pass from its operand reads on. `g0` is the group count it starts from. -/
def State.fastPass (s : State) (id : Nat) (i : PassIn) (run : AsyncRun) (g0 : Nat) : State × Bool :=
  let acc := mdAcc i.d
  let iv := modeS run.op.mode
  let gw := modeG run.op.mode
  let (g, nf) := groupRun iv (cdiv (mdKlen i.d) gw) g0 0
  let ending := mdLast i.d && g != 0
  let spills := (List.range i.x.e).map fun e => (mdSpill i.d + 96 * e, 96)
  let touched := mdLast i.d || nf != 0 || mdGsize i.d != 0 || mdOutliers i.d != 0
  andThen (s.lmReads id (if touched then spills else [])) fun s =>
    let c := s.cell id
    let res := (i.x.elems.zip (c.windows acc i.x.e)).map fun x =>
      let t := i.terms c x.1.1 x.1.2
      let q := (c.quireAt (mdSpill i.d + 96 * (x.1.1 * i.x.n + x.1.2))).addAll t.exact
      let (w, q) := fastRun iv (runsOf gw t.grouped) x.2 q g0
      if ending then (({} : Win), w.foldInto q) else (w, q)
    let s := s.modCell id fun c => (c.setWindows acc (res.map (·.1))).modTile acc true fun t =>
      { t with reduced := t.reduced + mdKlen i.d, outliers := t.outliers + mdOutliers i.d, groups := if ending then 0 else g }
    let s := s.folds id (nf + ending.toNat)
    andThen (if touched then s.lmPut id (mdSpill i.d) (res.flatMap fun r => r.2.toRecord) else (s, false)) fun s =>
      if mdLast i.d then s.outputStep id i run (res.map (·.2))
      else s.lmPut id (mdPsum i.d) (res.flatMap fun r => r.1.toRecord g)

/-- R173, steps 1 and 2: the pass begins its tile, or reads the tile's records into the placement. -/
def State.passBegin (s : State) (id : Nat) (i : PassIn) (op : AsyncOp) : State × Bool :=
  let fast := modeFast op.mode
  let acc := mdAcc i.d
  let e := i.x.e
  if mdFirst i.d then
    let t : Tile := { acc := acc, shape := mdShape i.d, fast := fast, frag := false, slot := op.slot, mode := op.mode,
                      ctx := (s.swarm id op.slot).ctx }
    let s := s.modCell id fun c => c.beginTile t e
    if fast then s.lmPut id (mdSpill i.d) (zeros (96 * e)) else (s, false)
  else
    andThen (s.lmReads id [(mdPsum i.d, recSize fast * e)]) fun s =>
      let b := (s.cell id).read (mdPsum i.d) (recSize fast * e)
      let recs := (List.range e).map fun k => slice b (recSize fast * k) (recSize fast)
      (s.modCell id fun c =>
        if fast then (c.setWindows acc (recs.map Win.ofRecord)).modTile acc true fun t => { t with groups := groupsOfRecord b }
        else c.setQuires acc (recs.map Quire.ofRecord), false)

/-- R173: the whole pass; true where it met an uncorrectable error (R182). -/
def State.mxPass (s : State) (id : Nat) (run : AsyncRun) : State × Bool :=
  let d := run.desc
  let t := fun n => run.tensors.getD n []
  match shapeOf (mdShape d) with
  | none => (s, false)
  | some x =>
    let fast := modeFast run.op.mode
    let done := if mdFirst d then 0 else (((s.cell id).tileAt (mdAcc d) (mdShape d) false fast).map (·.reduced)).getD 0
    let i : PassIn := { d := d, a := t 0, src := t 1, b := t 2, c := t 3, o := t 4, x := x, done := done }
    andThen (s.passBegin id i run.op) fun s =>
      andThen (s.lmReads id i.reads) fun s =>
        if fast then
          s.fastPass id i run ((((s.cell id).tileAt (mdAcc d) (mdShape d) false true).map (·.groups)).getD 0)
        else s.strictPass id i run

/-! ### Completion -/

/-- R94, R125: an asynchronous operation has completed: its token counts down, its fault is reported, and an operation that
waits to be issued again finds its entry. -/
def State.asyncDone (s : State) (id : Nat) (op : AsyncOp) (fault : Option (Nat × Nat)) : State :=
  let s := s.modSwarm id op.slot fun w => { w with tokens := sset 0 w.tokens op.token (w.token op.token - 1) }
  let s := match fault with
    | none => s
    | some (code, detail) =>
      s.asyncFault id op.slot { token := op.token, pc := op.pc, operand := op.operand, code := code, detail := detail }
  (List.range 16).foldl (fun s k => s.tryReissue id k) s

/-- R174, R182: the matrix operation that runs completes. -/
def State.mxComplete (s : State) (id : Nat) : State :=
  match (s.cell id).mxRun with
  | none => s
  | some run =>
    let acc := mdAcc run.desc
    let (s, fault) := match run.fault with
      | some e => (s, some e)
      | none =>
        let (s, bad) := s.mxPass id run
        (if bad || mdLast run.desc then s.modCell id fun c => c.endTile acc (modeFast run.op.mode) else s, if bad then some (0x300A, 0) else none)
    let s := s.modCell id fun c => { c with mxRun := none }
    (s.incr (Reg.cellMxStatusOpsDone (s.phys id))).asyncDone id run.op fault

/-- R174: MX_COMPLETE. -/
def execMxComplete (cell : BitVec 10) (s : State) : Host.Outcome State Fault Refusal :=
  let id := cell.toNat
  .next <| if s.cellRuns id then s.mxComplete id else s

end Sys2Proof.Machine
end

