-- ==== Sys2Proof/Machine/Chain.lean ====
section
/-! DEFINITION. Chain relays (R347 to R351): announcement, the arming of instances, forwards, station outputs, and what
becomes of an INCOMPLETE instance. A relay is one chain entry of its channel's WAGGLE section. -/
namespace Sys2Proof.Machine

/-! ### Chain entries -/

/-- NEXT.KIND of a chain entry: 0 none, 1 in-device, 2 Waggle. -/
def ceNext (e : Bytes) : Nat := fieldLE e 8 1
/-- NEXT.QUAD. -/
def ceNextQuad (e : Bytes) : Nat := fieldLE e 9 1
/-- NEXT.STREAM. -/
def ceNextStream (e : Bytes) : Nat := fieldLE e 10 1
/-- NEXT.CHANNEL. -/
def ceNextCh (e : Bytes) : Nat := fieldLE e 11 1
/-- PREV.KIND. -/
def cePrev (e : Bytes) : Nat := fieldLE e 12 1
/-- PREV.QUAD. -/
def cePrevQuad (e : Bytes) : Nat := fieldLE e 13 1
/-- PREV.STREAM. -/
def cePrevStream (e : Bytes) : Nat := fieldLE e 14 1
/-- The entry is the last station's. -/
def ceLast (e : Bytes) : Bool := ceStation e + 1 == ceCount e
/-- R348: the most records of one piece between a relay and its cell. -/
def cePiece (e : Bytes) : Nat := if ceForm e == 1 then 5 else 21
/-- R348: the most records of one CHAIN message. -/
def ceMessage (e : Bytes) : Nat := if ceForm e == 1 then 170 else 682

/-- The chain entries of a channel. -/
def State.chainEntries (s : State) (ch : Nat) : List Bytes := wgChains (s.section1 ch 0x41)

/-- The relays of a channel: index and entry. -/
def State.relays (s : State) (ch : Nat) : List (Nat × Bytes) :=
  let l := s.chainEntries ch
  (List.range l.length).zip l

/-- The relay of a station in a channel. -/
def State.relayAt (s : State) (ch id station : Nat) : Option (Nat × Bytes) :=
  (s.relays ch).find? fun r => ceId r.2 == id && ceStation r.2 == station

/-- R349: station 0 is announced as soon as its part is applied; another relay by its predecessor. -/
def State.isAnnounced (s : State) (ch i : Nat) : Bool := (s.dsp ch).announced.contains i

/-- The channel of the relay that an in-device hop leads to. The follower of a pair keeps to its own copy of the chain. -/
def State.nextRelayCh (s : State) (ch : Nat) (e : Bytes) : Option Nat :=
  let t := ceNextCh e % 4
  if !s.isFollower ch || t == ch then some t
  else if t == partnerOf ch then some ch
  else none

/-! ### Codes and counts -/

/-- The port whose EVENTS field takes a relay's codes: that of its previous hop, else that of its next hop. -/
def chainQuad (ch : Nat) (e : Bytes) : Option Nat :=
  if cePrev e == 2 then some (4 * ch + cePrevQuad e)
  else if ceNext e == 2 then some (4 * ch + ceNextQuad e)
  else none

/-- R350, R351: raises and counts a code at a relay. -/
def State.chainEvt (s : State) (ch : Nat) (e : Bytes) (code : Nat) : State :=
  let s := match code with
    | 0x6010 => s.bump (Reg.dispChainStatusLate ch)
    | 0x6011 => s.bump (Reg.dispChainStatusUnannounced ch)
    | 0x6013 => s.bump (Reg.dispChainStatusDiscard ch)
    | _ => s
  match chainQuad ch e with
  | some q => (if code == 0x6008 then s.bump (Reg.wglCountBDuplicate q) else s).evt code q
  | none => s

/-! ### Announcement (R349) -/

/-- Sends a message to the next station: inside the device, or over its Waggle stream from the leader of a pair. -/
def State.toNext (s : State) (ch : Nat) (e : Bytes) (kind : PktKind) (arg : Bytes) (payload : Bytes) : State :=
  if ceNext e == 1 then
    match s.nextRelayCh ch e with
    | some c => s.send { kind := kind, src := .dispatcher ch, dst := .dispatcher c, payload := fit 16 arg ++ payload }
    | none => s
  else if ceNext e == 2 && !s.isFollower ch then
    s.wglSend (4 * ch + ceNextQuad e) (ceNextStream e) (if kind == .chainForward then 3 else 4) 0 arg payload
  else s

/-- Table 17-5: the ARG of an ANNOUNCE. -/
def announceArg (e : Bytes) (valid : Bool) : Bytes :=
  leBytes 1 (ceId e) ++ leBytes 1 (ceStation e) ++ leBytes 1 (ceCount e) ++ leBytes 1 (ceForm e)
    ++ leBytes 2 (ceRecords e) ++ leBytes 1 valid.toNat ++ zeros 9

/-- R349: an ANNOUNCE to the successor. -/
def State.sendAnnounce (s : State) (ch : Nat) (e : Bytes) (valid : Bool) : State :=
  s.toNext ch e .chainAnnounce (announceArg e valid) []

/-- R349: a relay becomes announced or unannounced, and tells its successor. -/
def State.setAnnounced (s : State) (ch i : Nat) (valid : Bool) : State :=
  match s.chainEntry ch i with
  | none => s
  | some e =>
    if s.isAnnounced ch i == valid then s else
    (s.modDisp ch fun d => { d with announced := if valid then insNat i d.announced else d.announced.erase i }).sendAnnounce
      ch e valid

/-- R349: the previous hop of a relay is the one a message came by: none inside the device, else its quad and stream. -/
def fromPrev (e : Bytes) (way : Option (Nat × Nat)) : Bool :=
  match way with
  | none => cePrev e == 1
  | some (q, st) => cePrev e == 2 && cePrevQuad e == q && cePrevStream e == st

/-- R349: an ANNOUNCE reaches the relays of a channel; its outcome, 0 or a code. -/
def State.announceAt (s : State) (ch : Nat) (way : Option (Nat × Nat)) (arg : Bytes) : State × Nat :=
  let valid := bitAt (fieldLE arg 6 1) 0
  let mine := fun e : Bytes => ceId e == fieldLE arg 0 1 && fromPrev e way
  match (s.relays ch).find? fun r => mine r.2 && ceStation r.2 == fieldLE arg 1 1 + 1 && ceCount r.2 == fieldLE arg 2 1
      && ceForm r.2 == fieldLE arg 3 1 && ceRecords r.2 == fieldLE arg 4 2 with
  | some (i, _) => (s.setAnnounced ch i valid, 0)
  | none =>
    match (s.relays ch).find? fun r => mine r.2 with
    | some (_, e) => (s.chainEvt ch e 0x6012, 0x6012)
    | none =>
      match way with
      | some (q, _) => (s.evt 0x6012 (4 * ch + q), 0x6012)
      | none => (s, 0x6012)

/-- R349: a channel's part has been applied: its station 0 relays are announced, and the relays of other channels that
lead into it announce themselves again. -/
def State.chainsApplied (s : State) (ch : Nat) : State :=
  let s := (s.relays ch).foldl (fun s r => if ceStation r.2 == 0 then s.setAnnounced ch r.1 true else s) s
  [0, 1, 2, 3].foldl (fun s c =>
    if c == ch || !s.configured c then s else
    (s.relays c).foldl (fun s r =>
      if ceNext r.2 == 1 && s.nextRelayCh c r.2 == some ch && s.isAnnounced c r.1 then s.sendAnnounce c r.2 true else s) s) s

/-- R349: a channel begins a drain or a reset: its relays withdraw, and so do those that follow them in the device. -/
def State.chainsWithdraw (s : State) (ch : Nat) : State :=
  let gone := s.relays ch
  let s := gone.foldl (fun s r => s.setAnnounced ch r.1 false) s
  [0, 1, 2, 3].foldl (fun s c =>
    (s.relays c).foldl (fun s r =>
      if cePrev r.2 == 1 && gone.any fun g => ceId g.2 == ceId r.2 && ceStation g.2 + 1 == ceStation r.2
          && s.nextRelayCh ch g.2 == some c
      then s.setAnnounced c r.1 false else s) s) s

/-- R349: the Waggle port to their predecessor goes DOWN or receives FRESH: the relays behind it withdraw. -/
def State.chainsPortLost (s : State) (q : Nat) : State :=
  (s.relays (quadCh q)).foldl (fun s r =>
    if cePrev r.2 == 2 && cePrevQuad r.2 == q % 4 then s.setAnnounced (quadCh q) r.1 false else s) s

/-- R349: a link comes UP anew: the announced relays that lead over it announce themselves. -/
def State.chainsPortUp (s : State) (q : Nat) : State :=
  (s.relays (quadCh q)).foldl (fun s r =>
    if ceNext r.2 == 2 && ceNextQuad r.2 == q % 4 && s.isAnnounced (quadCh q) r.1 then s.sendAnnounce (quadCh q) r.2 true
    else s) s

/-! ### Instances -/

/-- An open instance at a relay. -/
def State.inst (s : State) (ch i n : Nat) : Option ChainInst :=
  (s.dsp ch).chains.find? fun c => c.entry == i && c.inst == n

/-- R351: an instance in a relay's completion window. -/
def State.closedInst (s : State) (ch i n : Nat) : Option ChainDone :=
  (s.dsp ch).chainClosed.find? fun c => c.entry == i && c.inst == n

/-- Puts an instance back among the open ones. -/
def State.putInst (s : State) (ch : Nat) (c : ChainInst) : State :=
  s.modDisp ch fun d => { d with chains := c :: d.chains.filter fun x => !(x.entry == c.entry && x.inst == c.inst) }

/-- Takes an instance from the open ones. -/
def State.dropInst (s : State) (ch i n : Nat) : State :=
  s.modDisp ch fun d => { d with chains := d.chains.filter fun x => !(x.entry == i && x.inst == n) }

/-- R351, R405: an instance is closed: it enters the window of the 1024 closed most recently, and the Hoard records it. -/
def State.closeInst (s : State) (ch : Nat) (e : Bytes) (c : ChainDone) : State :=
  let s := s.modDisp ch fun d => { d with chainClosed := c :: keepFirst (fun x => x.entry == c.entry) 1023 d.chainClosed }
  s.hrdRecord 0x31 ch c.inst
    (leBytes 1 (ceId e) ++ leBytes 1 (ceStation e) ++ leBytes 1 c.incomplete.toNat ++ zeros 1 ++ leBytes 4 c.missing)

/-- R350: the station output of an INCOMPLETE instance is discarded, counted once. -/
def State.discardOutput (s : State) (ch : Nat) (e : Bytes) (i n : Nat) : State :=
  match s.closedInst ch i n with
  | none => s
  | some d =>
    if d.discarded then s else
    (s.modDisp ch fun x => { x with chainClosed := x.chainClosed.map fun c => if c == d then { c with discarded := true } else c }
      ).chainEvt ch e 0x6013

/-- R348: a piece from a relay to its station cell: SRC_KIND dispatcher, TAG CHAIN_ID, the instance number and records. -/
def State.toStation (s : State) (ch : Nat) (e : Bytes) (n user : Nat) (records : Bytes) : State :=
  let p := leBytes 8 n ++ records
  s.post { kind := .msg, src := .dispatcher ch, dst := .cell (cellId ch (rowOf (ceCell e)) (colOf (ceCell e))), payload := p,
           arg := BitVec.ofNat 64 (ch + 2 * 2 ^ 10 + ceId e * 2 ^ 16 + p.length * 2 ^ 32 + user * 2 ^ 48) }

/-- Table 17-5: the ARG of a CHAIN message. -/
def chainArg (e : Bytes) (n missing first : Nat) (incomplete : Bool) : Bytes :=
  leBytes 1 (ceId e) ++ leBytes 1 (ceStation e) ++ leBytes 6 n ++ leBytes 4 missing ++ leBytes 2 first
    ++ leBytes 1 incomplete.toNat ++ zeros 1

/-- The entries of a sequence from its head, at most 16. -/
def State.sequence (s : State) (ch : Nat) : Nat → Nat → List Nat
  | 0, _ => []
  | fuel + 1, n =>
    n :: match leNext (s.launchEntry ch n) with
      | some m => s.sequence ch fuel m
      | none => []

/-- The entries of a context's sequence that have begun: those up to its launch. -/
def seqUpTo (cur : Nat) : List Nat → List Nat
  | [] => []
  | n :: l => if n == cur then [n] else n :: seqUpTo cur l

/-- A launch of the context that names chain entry `i` has begun. -/
def State.ctxChain (s : State) (ch k i : Nat) : Bool :=
  let c := s.ctx ch k
  c.phase != .dead && c.phase != .waiting
    && (seqUpTo c.entry (s.sequence ch 16 c.trig.head)).any fun n => leChain (s.launchEntry ch n) == some i

/-- R350, R391: the INCOMPLETE fallback of a context at the last station, unless its output has left. -/
def State.incompleteCtx (s : State) (ch k missing : Nat) : State :=
  let c := s.ctx ch k
  if c.outLeft || leOutKind (s.launchEntry ch c.trig.head) == 0 then s
  else (s.emitFallback ch c.trig k 0x0A 0 c.events missing 0x600F).modCtx ch k fun x =>
    { x with outLeft := true, missing := missing }

/-- R350, R391: the INCOMPLETE fallback of a context that has ended and whose real result waits for its comparison. -/
def State.incompleteJob (s : State) (ch : Nat) (j : SealJob) (missing : Nat) : State :=
  (s.emitFallback ch j.trig j.ctx 0x0A 0 j.events missing 0x600F).jobLate ch j

/-- R350: the fallbacks of the launches for an instance at the last station. -/
def State.incompleteOut (s : State) (ch i n missing : Nat) : State :=
  let s := (List.range 16).foldl (fun s k =>
    if (s.ctx ch k).trig.event == n && s.ctxChain ch k i then s.incompleteCtx ch k missing else s) s
  ((s.dsp ch).waitMatch.filter fun j => j.mark == 0 && j.trig.event == n
      && (s.sequence ch 16 j.trig.head).any fun x => leChain (s.launchEntry ch x) == some i).foldl
    (fun s j => s.incompleteJob ch j missing) s

/-- R350: an instance becomes INCOMPLETE. -/
def State.makeIncomplete (s : State) (ch i : Nat) (e : Bytes) (n missing code : Nat) : State :=
  let had := (s.inst ch i n).any fun c => !c.outBytes.isEmpty || c.forwarded
  let s := (s.dropInst ch i n).bump (Reg.dispChainStatusIncomplete ch)
  let s := (s.chainEvt ch e code).closeInst ch e { entry := i, inst := n, incomplete := true, missing := missing }
  let s := s.toStation ch e n 0xC000 []
  let s := if had then s.discardOutput ch e i n else s
  if ceLast e then s.incompleteOut ch i n missing
  else s.toNext ch e .chainForward (chainArg e n missing 0 true) []

/-- R350: MISSING bit of the station before. -/
def missingBit (e : Bytes) : Nat := 2 ^ (ceStation e - 1)

/-- R350: an armed instance whose timeout tick has passed without its forward. Chain timeouts do not run in a replay. -/
def State.chainExpired (s : State) (c : ChainInst) : Bool :=
  !s.liveIgnored && !c.inDone && c.timeout.any fun t => t ≤ s.now

/-- R353: open instances at a relay: armed ones whose forward is not complete. -/
def State.openInsts (s : State) (ch i : Nat) : Nat :=
  ((s.dsp ch).chains.filter fun c => c.entry == i && c.timeout.isSome && !c.inDone).length

/-- R350, R353: a launch that names chain entry `i` begins: its instance is armed. -/
def State.chainArm (s : State) (ch k i : Nat) : State :=
  let t := (s.ctx ch k).trig
  match s.chainEntry ch i with
  | none => s
  | some e =>
    if ceStation e == 0 then s else
    let n := t.event
    match s.closedInst ch i n with
    | some d => if d.incomplete && ceLast e then s.incompleteCtx ch k d.missing else s
    | none =>
      let c := (s.inst ch i n).getD { entry := i, inst := n }
      if c.timeout.isSome || c.inDone then s
      else if !s.liveIgnored && !s.isAnnounced ch i then s.makeIncomplete ch i e n (missingBit e) 0x6011
      else if !s.liveIgnored && 16 ≤ s.openInsts ch i then s.makeIncomplete ch i e n (missingBit e) 0x600F
      else s.putInst ch { c with timeout := some (t.tick + ceTimeout e) }

/-! ### Forwards -/

/-- R348: the records of a forward delivered to the station cell in pieces; `left` records of the instance are still to
come after these. -/
def State.deliverPieces : Nat → State → Nat → Bytes → Nat → Nat → Bytes → Nat → State × Nat
  | 0, s, _, _, _, k, _, _ => (s, k)
  | fuel + 1, s, ch, e, n, k, bs, left =>
    if bs.isEmpty then (s, k) else
    let m := cePiece e * ceRecLen e
    let last := bs.length ≤ m && left == 0
    State.deliverPieces fuel (s.toStation ch e n (last.toNat * 2 ^ 15 + k % 2 ^ 14) (bs.take m)) ch e n (k + 1) (bs.drop m) left

/-- An instance that nothing more can come of at its relay leaves the open ones. -/
def State.settleInst (s : State) (ch : Nat) (e : Bytes) (i n : Nat) : State :=
  match s.inst ch i n with
  | none => s
  | some c => if (c.inDone || ceStation e == 0) && (c.forwarded || ceLast e) then s.dropInst ch i n else s

/-- R348, R351: records of a forward that the relay takes; the last of them completes the forward and closes the
instance. -/
def State.takeRecords (s : State) (ch i : Nat) (e : Bytes) (n : Nat) (bs : Bytes) : State :=
  let c := (s.inst ch i n).getD { entry := i, inst := n }
  let count := c.inCount + bs.length / ceRecLen e
  let done := count == ceRecords e
  let (s, k) := State.deliverPieces 6144 s ch e n c.inPieces bs (ceRecords e - count)
  let s := s.putInst ch { c with inCount := count, inPieces := k, inDone := done }
  if done then (s.closeInst ch e { entry := i, inst := n }).settleInst ch e i n else s

/-- R350, R351: a forward or an INCOMPLETE marker of an instance at a relay; its outcome, 0 or a code. A timeout tick that
has passed wins. -/
def State.forwardAt (s : State) (ch i : Nat) (e : Bytes) (n missing first : Nat) (incomplete : Bool) (bs : Bytes) : State × Nat :=
  let s := match s.inst ch i n with
    | some c => if s.chainExpired c then s.makeIncomplete ch i e n (missingBit e) 0x600F else s
    | none => s
  match s.closedInst ch i n with
  | some d => let code := if d.incomplete then 0x6010 else 0x6008; (s.chainEvt ch e code, code)
  | none =>
    if !s.isAnnounced ch i then (s.chainEvt ch e 0x6011, 0x6011)
    else if incomplete then
      if bs.isEmpty then (s.makeIncomplete ch i e n missing 0x600F, 0) else (s, 0x600C)
    else
      let c := (s.inst ch i n).getD { entry := i, inst := n }
      if first != c.inCount || bs.isEmpty || bs.length % ceRecLen e != 0
          || decide (ceRecords e < c.inCount + bs.length / ceRecLen e) then (s, 0x600C)
      else (s.takeRecords ch i e n bs, 0)

/-- R348: a forward or marker of a chain reaches a channel's relays, by the way it came. -/
def State.forwardTo (s : State) (ch : Nat) (way : Option (Nat × Nat)) (arg bs : Bytes) : State × Nat :=
  match (s.relays ch).find? fun r => ceId r.2 == fieldLE arg 0 1 && ceStation r.2 == fieldLE arg 1 1 + 1 && fromPrev r.2 way with
  | none => (s, 0x600C)
  | some (i, e) =>
    s.forwardAt ch i e (fieldLE arg 2 6) (fieldLE arg 8 4) (fieldLE arg 12 2) (bitAt (fieldLE arg 14 1) 0) bs

/-- R348: all records of an instance go to the next station. -/
def State.forward (s : State) (ch : Nat) (e : Bytes) (n : Nat) (bs : Bytes) : State :=
  if ceNext e == 1 then s.toNext ch e .chainForward (chainArg e n 0 0 false) bs
  else
    let m := ceMessage e
    (List.range (cdiv (ceRecords e) m)).foldl (fun s j =>
      s.toNext ch e .chainForward (chainArg e n 0 (m * j) false) ((bs.drop (m * j * ceRecLen e)).take (m * ceRecLen e))) s

/-! ### Station outputs -/

/-- R348: the relay that a piece of a station's output goes to: that of the chain whose station cell sent it. -/
def State.relayOf (s : State) (ch tag src : Nat) : Option (Nat × Bytes) :=
  (s.relays ch).find? fun r => ceId r.2 == tag && ceCell r.2 % 256 == src % 256 && chOf src == ch

/-- R348, R350: a piece of a station's output. -/
def State.outputPiece (s : State) (ch i : Nat) (e : Bytes) (user : Nat) (payload : Bytes) : State :=
  let n := fieldLE payload 0 8
  let bs := payload.drop 8
  let c := (s.inst ch i n).getD { entry := i, inst := n }
  let closed := s.closedInst ch i n
  if closed.any (·.incomplete) then s.discardOutput ch e i n
  else if payload.length < 8 || 2 ^ 48 ≤ n || bs.length % ceRecLen e != 0 || cePiece e * ceRecLen e < bs.length || ceLast e
      || bitAt user 14 || user % 2 ^ 14 != c.outNext || c.forwarded
      || (closed.isSome && (s.inst ch i n).isNone) || ceRecords e * ceRecLen e < c.outBytes.length + bs.length then
    s.dEvt ch 0x8007
  else
    let all := c.outBytes ++ bs
    if all.length == ceRecords e * ceRecLen e then
      let s := s.putInst ch { c with outBytes := [], outNext := 0, forwarded := true }
      let s := s.forward ch e n all
      let s := if ceStation e == 0 then s.closeInst ch e { entry := i, inst := n } else s
      s.settleInst ch e i n
    else s.putInst ch { c with outBytes := all, outNext := c.outNext + 1 }

/-! ### Commands -/

/-- R348: CHAIN_OUTPUT_PIECE: a message of a station cell reaches its dispatcher. A TAG that is none of the dispatcher's
raises DISP_INVALID (R378). -/
def execChainOutputPiece (i : Nat) (link : LinkErr) (s : State) : Host.Outcome State Fault Refusal :=
  .next <| s.arrive i [.msg] link fun s p =>
    match p.dst with
    | .dispatcher ch =>
      let h := p.arg.toNat
      if bits h 16 8 ≤ 1 then s else
      let s := (s.dropPkt i).ack p
      match s.relayOf ch (bits h 16 8) (bits h 0 10) with
      | some (r, e) => s.outputPiece ch r e (bits h 48 16) p.payload
      | none => s.dEvt ch 0x8007
    | _ => s

/-- R348, R351: CHAIN_FORWARD: a forward or a marker from a relay of the device. -/
def execChainForward (i : Nat) (s : State) : Host.Outcome State Fault Refusal :=
  .next <| s.arrive i [.chainForward] .none fun s p =>
    match p.dst with
    | .dispatcher ch => ((s.dropPkt i).forwardTo ch none (p.payload.take 16) (p.payload.drop 16)).1
    | _ => s

/-- R349: IN_DEVICE_ANNOUNCE. -/
def execInDeviceAnnounce (i : Nat) (s : State) : Host.Outcome State Fault Refusal :=
  .next <| s.arrive i [.chainAnnounce] .none fun s p =>
    match p.dst with
    | .dispatcher ch => ((s.dropPkt i).announceAt ch none p.payload).1
    | _ => s

/-- R350: CHAIN_TIMEOUT. -/
def execChainTimeout (ch : BitVec 2) (entry : BitVec 6) (inst : BitVec 48) (s : State) : Host.Outcome State Fault Refusal :=
  .next <| match s.inst ch.toNat entry.toNat inst.toNat, s.chainEntry ch.toNat entry.toNat with
    | some c, some e =>
      if s.chainExpired c then s.makeIncomplete ch.toNat entry.toNat e inst.toNat (missingBit e) 0x600F else s
    | _, _ => s

end Sys2Proof.Machine
end

