-- ==== Sys2Proof/Machine/Time.lean ====
section
/-! DEFINITION. Global time (chapter 18): jumps of the counter, slews, armed counts, epoch sets, qualification, and the forming
and leaving of a device group. -/
namespace Sys2Proof.Machine

/-! ### The TIME section (Table 18-8) -/

/-- The running TIME section. -/
def State.tm (s : State) : Bytes := s.global 0x80
/-- ROLE: 0 standalone, 1 master, 2 member. -/
def State.tmRole (s : State) : Nat := fieldLE s.tm 1 1
/-- GROUP_ID. -/
def State.tmGroup (s : State) : Nat := fieldLE s.tm 2 2
/-- MEMBER_COUNT. -/
def State.tmCount (s : State) : Nat := fieldLE s.tm 4 2
/-- FLAGS. -/
def State.tmFlags (s : State) : Nat := fieldLE s.tm 7 1
/-- MREF_FREQ. -/
def State.tmMref (s : State) : Nat := fieldLE s.tm 8 4
/-- BEACON_PERIOD in ticks. -/
def State.tmPeriod (s : State) : Nat := 1000 * fieldLE s.tm 12 2
/-- FORM_TIMEOUT in ticks. -/
def State.tmForm (s : State) : Nat := 1000000 * fieldLE s.tm 14 2
/-- UP_QUAD. -/
def State.tmUpQuad (s : State) : Nat := fieldLE s.tm 16 1
/-- UP_STREAM. -/
def State.tmUpStream (s : State) : Nat := fieldLE s.tm 17 1
/-- The member entries of the table. -/
def State.tmMembers (s : State) : List Bytes := (List.range s.tmCount).map fun i => slice s.tm (64 + 56 * i) 56
/-- The bytes of the member table. -/
def State.tmTable (s : State) : Bytes := slice s.tm 64 (56 * s.tmCount)

/-- Changes the time block. -/
def State.modTime (s : State) (f : Time → Time) : State := { s with time := f s.time }

/-- GROUP_STATE. -/
def State.group (s : State) : Nat := s.rd Reg.timeStatusGroupState

/-- R363: the device is qualified. -/
def State.qualified (s : State) : Bool :=
  let t := s.time
  s.group == 3 && (!bitAt s.tmFlags 0 || s.rd Reg.timeStatusSource == 1)
    && (s.tmRole == 1
      || (t.measured && (if t.skewed then 8 ≤ t.good else decide (t.lastD.natAbs ≤ 8)) && decide (s.now ≤ t.lastSync + 4 * s.tmPeriod)))

/-! ### Time records, jumps and armed counts -/

/-- R405, R359: a TIME entry: the cause, the old value, the new value, J and the source. -/
def State.timeRecord (s : State) (cause old new : Nat) (j : Int) : State :=
  s.hrdRecord 0x40 0xF cause
    (leBytes 8 old ++ leBytes 8 new ++ leBytes 8 (ofI 64 j) ++ leBytes 1 (s.rd Reg.timeStatusSource))

/-- R359: a trigger's pending deadline tick moves. -/
def Trigger.shift (t : Trigger) (j : Int) : Trigger := { t with deadline := t.deadline.map fun d => jumped d j }

/-- R359: every pending tick of a dispatcher moves. -/
def Disp.shift (d : Disp) (j : Int) : Disp :=
  { d with ctxs := (List.range 16).foldl (fun m k => smod {} m k fun c => { c with trig := c.trig.shift j }) d.ctxs,
           queue := d.queue.map fun t => t.shift j,
           coupled := d.coupled.map fun t => t.shift j,
           waitMatch := d.waitMatch.map fun w => { w with trig := w.trig.shift j },
           chains := d.chains.map fun c => { c with timeout := c.timeout.map fun t => jumped t j } }

/-- R359: every pending tick of an ingest unit moves. -/
def Ing.shift (g : Ing) (j : Int) : Ing := { g with events := g.events.map fun e => { e with shift := e.shift + j } }

/-- R359: every pending tick of a camera port moves. -/
def Cam.shift (c : Cam) (j : Int) : Cam :=
  { c with groups := c.groups.map fun g => { g with shift := g.shift + j,
                                                    frames := g.frames.map fun f => { f with shift := f.shift + j } },
           bus := c.bus.map fun w => { w with since := jumped w.since j } }

/-- R365, R367, R379: the count of an arm slot fires: it is cancelled where the device is unqualified in a formed group,
else it becomes a trigger. -/
def State.fireCount (s : State) (ch slot outcome : Nat) : State :=
  let a := sget {} (s.dsp ch).arms slot
  if s.group == 3 && !s.qualified then (s.cancelCount ch slot 3).evt 0x700B 0
  else
    let s := s.modDisp ch fun d => { d with arms := sdel d.arms slot }
    let s := s.hrdRecord 0x21 ch a.count (leBytes 2 a.entry ++ leBytes 1 slot ++ leBytes 1 outcome ++ zeros 4)
    s.accept ch { head := a.entry, kind := 4, event := a.count % 2 ^ 48, input := sha256 (leBytes 8 a.count) } (some a.count) false

/-- R366: a count that is passed. -/
def State.passedCount (s : State) (ch slot : Nat) : State :=
  let a := sget {} (s.dsp ch).arms slot
  let s := s.evt 0x7005 0
  if a.pastBegin then s.fireCount ch slot 1 else s.cancelCount ch slot 2

/-- R366: the counts that a forward jump has passed. -/
def State.passCounts (s : State) (old : Nat) : State :=
  [0, 1, 2, 3].foldl (fun s ch => (List.range 16).foldl (fun s i =>
    let a := sget {} (s.dsp ch).arms i
    if a.armed && decide (old < a.count ∧ a.count ≤ s.now) then s.passedCount ch i else s) s) s

/-- R359: the ticks from which a safety function measures its intervals. -/
def SafeFn.shift (x : SafeFn) (j : Int) : SafeFn :=
  let f := fun e : DelayEntry => { e with arrived := jumped e.arrived j }
  { x with armStart := jumped x.armStart j, partnerArmAt := jumped x.partnerArmAt j, lastMirror := jumped x.lastMirror j,
           simplexAt := jumped x.simplexAt j, local0 := x.local0.map f, local1 := x.local1.map f,
           remote0 := x.remote0.map f, remote1 := x.remote1.map f }

/-- R359: the ticks from which a Waggle port measures its intervals. -/
def Wgl.shift (w : Wgl) (j : Int) : Wgl :=
  { w with entered := jumped w.entered j, progress := jumped w.progress j, nakAt := w.nakAt.map fun t => jumped t j,
           downAt := w.downAt.map fun t => jumped t j }

/-- R359: an interval that no trigger tick began keeps its length over a jump too: the ticks it is measured from move. -/
def State.shiftTimers (s : State) (j : Int) : State :=
  { s with safe := [0, 1].foldl (fun m k => smod {} m k fun x => x.shift j) s.safe,
           wgl := (List.range 16).foldl (fun m k => smod {} m k fun w => w.shift j) s.wgl,
           time := { s.time with lastSync := jumped s.time.lastSync j, lastBeacon := jumped s.time.lastBeacon j,
                                 since := jumped s.time.since j },
           pwr := { s.pwr with vrOffSince := s.pwr.vrOffSince.map fun t => jumped t j },
           img := { s.img with load := s.img.load.map fun l => { l with drainFrom := jumped l.drainFrom j } } }

/-- R359: a jump of the counter by J, with the cause of its time record. -/
def State.jump (s : State) (j : Int) (cause : Nat) : State :=
  let old := s.now
  let new := ofI 64 ((old : Int) + j)
  let chs := [0, 1, 2, 3]
  let s := { s with counter := BitVec.ofNat 64 new,
                    disp := chs.foldl (fun m k => smod {} m k fun d => d.shift j) s.disp,
                    ing := chs.foldl (fun m k => smod {} m k fun d => d.shift j) s.ing,
                    cam := chs.foldl (fun m k => smod {} m k fun d => d.shift j) s.cam }
  ((s.shiftTimers j).timeRecord cause old new j).passCounts old

/-- R357: a slew of `k` ticks supersedes any in progress. -/
def State.startSlew (s : State) (k : Int) : State :=
  s.modTime fun t => { t with slew := k, slewTick := if t.slew == 0 then 0 else t.slewTick }

/-! ### Beacons -/

/-- A beacon on a time stream. -/
def State.beacon (s : State) (q stream kind : Nat) (payload : Bytes) : State :=
  s.wglSend q stream 5 0 (zeros 8 ++ leBytes 1 kind ++ leBytes 1 s.time.level ++ leBytes 2 s.tmGroup ++ zeros 4) payload

/-- A stream of a quad is the upstream time stream of a member. -/
def State.isUp (s : State) (q stream : Nat) : Bool := s.tmRole == 2 && q == s.tmUpQuad && stream == s.tmUpStream

/-- The downstream time streams: quad and STREAM. -/
def State.downStreams (s : State) : List (Nat × Nat) :=
  if s.tmRole == 0 then [] else
  ([0, 1, 2, 3].filter fun ch => s.configured ch && !s.isFollower ch).flatMap fun ch =>
    ((wgStreams (s.section1 ch 0x41)).filter fun e => wsKind e == 3 && wsTx e).filterMap fun e =>
      let q := 4 * ch + fieldLE e 0 1
      let st := fieldLE e 1 1
      if s.isUp q st then none else some (q, st)

/-- A beacon sent on every downstream stream. -/
def State.beaconDown (s : State) (kind : Nat) (payload : Bytes) : State :=
  s.downStreams.foldl (fun s e => s.beacon e.1 e.2 kind payload) s

/-- A beacon sent upstream by a member. -/
def State.beaconUp (s : State) (kind : Nat) (payload : Bytes) : State :=
  if s.tmRole == 2 then s.beacon s.tmUpQuad s.tmUpStream kind payload else s

/-! ### Forming a group (R369 to R371) -/

/-- TIME.ROSTER as 32 bytes. -/
def State.roster (s : State) : Bytes :=
  leBytes 8 (s.rd Reg.timeRoster0Present) ++ leBytes 8 (s.rd Reg.timeRoster1Present)
    ++ leBytes 8 (s.rd Reg.timeRoster2Present) ++ leBytes 8 (s.rd Reg.timeRoster3Present)

/-- Writes TIME.ROSTER. -/
def State.setRoster (s : State) (b : Bytes) : State :=
  (((s.wr Reg.timeRoster0Present (fieldLE b 0 8)).wr Reg.timeRoster1Present (fieldLE b 8 8)).wr
    Reg.timeRoster2Present (fieldLE b 16 8)).wr Reg.timeRoster3Present (fieldLE b 24 8)

/-- The roster of a set of devices. -/
def rosterOf (l : List Nat) : Bytes := leBytes 32 (maskOf 256 l.contains)

/-- R369: formation is refused: TIME.GROUP names device and field. A device that is forming is then REFUSED. -/
def State.groupRefused (s : State) (dev field : Nat) : State :=
  let s := ((s.wr Reg.timeGroupRefusedDev dev).wr Reg.timeGroupRefusedField field).evt 0x7006 0
  if s.group == 2 then s.wr Reg.timeStatusGroupState 4 else s

/-- R369: REFUSE goes downstream. -/
def State.refuseGroup (s : State) (dev field : Nat) : State :=
  (s.groupRefused dev field).beaconDown 4 (leBytes 1 dev ++ leBytes 1 field ++ zeros 6)

/-- R369: the group is FORMED at this device; its offsets count anew. -/
def State.formed (s : State) : State :=
  ((s.wr Reg.timeStatusGroupState 3).modTime fun t =>
    { t with measured := false, skewed := false, good := 0, lost := false }).evt 0x7007 0

/-- The applied profile of the device. -/
def State.appliedProfile (s : State) : Nat := (s.dsp 0).profile

/-- The services firmware version (R452). -/
def State.fwVersion (s : State) : Nat :=
  ((sget {} s.pwr.banks s.pwr.activeBank).version.getD (Config.factoryFwVersion s.pwr.activeBank)).toNat

/-- R369: this device's own JOIN. -/
def State.joinPayload (s : State) : Bytes :=
  leBytes 1 s.devId ++ leBytes 1 (bits glbIdent 24 8) ++ leBytes 1 s.appliedProfile
    ++ leBytes 1 (s.rd Reg.govProfileLock + 2 * (s.rd Reg.timeStatusSource == 1).toNat) ++ leBytes 4 s.fwVersion
    ++ leBytes 8 (ofI 64 s.time.lastD) ++ fit 48 s.img.memberDigest ++ sha384 s.tmTable

/-- R369, Table 18-5: the first field of a JOIN that disagrees; `group` is the sender's GROUP_ID. -/
def State.joinBad (s : State) (group : Nat) (j : Bytes) : Option Nat :=
  let dev := fieldLE j 0 1
  let entry := s.tmMembers.find? fun m => fieldLE m 0 1 == dev
  let checks : List (Nat × Bool) :=
    [(1, group != s.tmGroup), (2, entry.isNone || s.time.joins.contains dev), (3, fieldLE j 1 1 != bits glbIdent 24 8),
     (4, fieldLE j 4 4 != s.fwVersion), (5, slice j 0x40 48 != sha384 s.tmTable),
     (6, entry.map (fun m => slice m 8 48) != some (slice j 0x10 48)),
     (7, decide (8 < (sx 64 (fieldLE j 8 8)).natAbs) || (s.tmRole == 2 && decide (8 < s.time.lastD.natAbs))),
     (8, bitAt s.tmFlags 1 && (!bitAt (fieldLE j 3 1) 0 || (s.tmRole == 1 && fieldLE j 2 1 != s.appliedProfile)))]
  (checks.find? (·.2)).map (·.1)

/-- R369: the master holds the JOIN of every table member: FORM is sent. A member that joins a formed group enters the
roster. -/
def State.masterForms (s : State) : State :=
  let here := s.devId :: s.time.joins
  if s.group == 3 then (s.setRoster (rosterOf here)).beaconDown 3 (rosterOf here)
  else if s.group == 2 && s.tmMembers.all fun m => here.contains (fieldLE m 0 1) then
    ((s.setRoster (rosterOf here)).beaconDown 3 (rosterOf here)).formed
  else s

/-- R369: a JOIN is checked, and collected by the master or relayed by a member. One that comes before this device's own
offset is measured waits. -/
def State.takeJoin (s : State) (group : Nat) (j : Bytes) : State :=
  if s.group == 1 then s.modTime fun t => { t with held := t.held ++ [leBytes 2 group ++ j] }
  else if s.group != 2 && s.group != 3 then s
  else match s.joinBad group j with
    | some f => s.refuseGroup (fieldLE j 0 1) f
    | none =>
      let s := s.modTime fun t => { t with joins := t.joins ++ [fieldLE j 0 1] }
      if s.tmRole == 1 then s.masterForms else s.beaconUp 2 j

/-- R369: this device's offset is good: it joins, and takes the JOINs that waited. -/
def State.joining (s : State) : State :=
  let l := s.time.held
  let s := (s.wr Reg.timeStatusGroupState 2).modTime fun t => { t with held := [] }
  let s := s.beaconUp 2 s.joinPayload
  l.foldl (fun s b => s.takeJoin (fieldLE b 0 2) (b.drop 2)) s

/-- R369, Table 18-3: SYNCING. The master goes on at once. -/
def State.syncing (s : State) : State :=
  if s.tmRole == 0 then s.wr Reg.timeStatusGroupState 0 else
  let s := (s.wr Reg.timeStatusGroupState 1).modTime fun t =>
    { t with joins := [], held := [], firstDone := false, measured := false, skewed := false, good := 0, lost := false,
             since := s.now, level := if s.tmRole == 1 then 0 else t.level }
  if s.tmRole == 1 then s.joining else s

/-- R369: a TIME section is applied. -/
def State.timeApplied (s : State) : State :=
  ((s.wr Reg.timeGroupGroupId s.tmGroup).modTime fun t => { t with stepAt := none, echoes := [] }).syncing

/-- R371: a formed device leaves its group for a reason of Table 18-5, or 0; `say` where its upstream link can carry LEAVE. -/
def State.leaveGroup (s : State) (reason : Nat) (say : Bool) : State :=
  if s.group != 3 then s else
  let s := if say then s.beaconUp 5 (leBytes 1 s.devId ++ leBytes 1 reason ++ zeros 6) else s
  ((s.wr Reg.timeGroupRefusedField reason).evt 0x7008 0).syncing

/-- R371: the upstream time port of a member goes DOWN or receives FRESH. -/
def State.timePortLost (s : State) (q : Nat) : State :=
  if s.tmRole == 2 && q == s.tmUpQuad then s.leaveGroup 11 false else s

/-! ### Offsets (R362, R363, R370) -/

/-- R362: an offset is computed from `D`. -/
def State.offset (s : State) (d : Int) : State :=
  let s := s.wr Reg.timeStatusOffsetD (ofI 16 (max (-32767) (min 32767 d)))
  let first := !s.time.firstDone && s.group == 1
  let big := 8 < d.natAbs
  let s := if big then s.evt 0x7004 0 else s
  let s := s.modTime fun t =>
    let good := if big then 0 else if t.skewed && d.natAbs ≤ 4 then t.good + 1 else 0
    { t with lastD := d, firstDone := true, measured := true, good := good,
             skewed := big || (t.skewed && decide (good < 8)) }
  let s := if first && 2000 < d.natAbs then (s.jump (-(d.fdiv 2)) 2).evt 0x700A 0 else s.startSlew (-(d.fdiv 2))
  if s.group == 1 && !big then s.joining else s

/-- R361, R362, R364: a SYNC from upstream: its ARG, its payload and its T_RX. The member answers with DELAY_REQ. -/
def State.takeSync (s : State) (arg payload : Bytes) (rx : Nat) : State :=
  let s := s.modTime fun t => { t with lastSync := rx, lost := false, level := (fieldLE arg 9 1 + 1) % 8 }
  let at_ := fieldLE payload 0x10 8
  let s := if at_ != 0 && s.now < at_ && s.group == 3 then
      s.modTime fun t => { t with stepAt := some at_, stepJump := sx 64 (fieldLE payload 0x18 8) } else s
  let t3 := fieldLE payload 0 8
  let s := if t3 != 0 && (s.wglOf s.tmUpQuad).reqSent == some t3 then
      s.offset (((rx : Int) - fieldLE arg 0 8) - ((fieldLE payload 8 8 : Int) - t3)) else s
  s.beaconUp 1 []

/-- R362: a DELAY_REQ from a downstream device: its T_TX and T_RX are kept for the next SYNC. -/
def State.takeDelayReq (s : State) (q stream : Nat) (arg : Bytes) (rx : Nat) : State :=
  s.modTime fun t => { t with echoes := (q, stream, fieldLE arg 0 8, rx) :: t.echoes.filter fun e => !(e.1 == q && e.2.1 == stream) }

/-- R369: FORM from upstream, relayed. -/
def State.takeForm (s : State) (payload : Bytes) : State :=
  let s := (s.setRoster payload).beaconDown 3 (fit 32 payload)
  if s.group == 2 then s.formed else s

/-- R369: REFUSE from upstream, relayed. -/
def State.takeRefuse (s : State) (payload : Bytes) : State :=
  (s.groupRefused (fieldLE payload 0 1) (fieldLE payload 1 1)).beaconDown 4 (fit 8 payload)

/-- R371: LEAVE from downstream: relayed to the master, which takes the device off the roster. -/
def State.takeLeave (s : State) (payload : Bytes) : State :=
  let dev := fieldLE payload 0 1
  let s := (s.wr Reg.timeGroupRefusedField (fieldLE payload 1 1)).modTime fun t => { t with joins := t.joins.filter (· != dev) }
  if s.tmRole == 1 then (if s.group == 3 then s.masterForms else s) else s.beaconUp 5 (fit 8 payload)

/-! ### Commands -/

/-- R358, R364: SYNC_IN_EDGE: an edge that the time island recognises. -/
def execSyncInEdge (s : State) : Host.Outcome State Fault Refusal :=
  .next <| if !s.pwr.running then s
    else if s.rd Reg.timeEpochCtlArm == 0 || s.time.armTick == s.now then s.bump Reg.timeStatusSyncEdges
    else
      let s := s.wr Reg.timeEpochCtlArm 0
      let j : Int := (s.rd Reg.timeEpochValueValue : Int) - s.now
      if s.group == 3 && s.tmRole == 1 then
        s.modTime fun t => { t with stepAt := some (s.now + 4 * s.tmPeriod), stepJump := j }
      else (s.jump j 0).evt 0x7003 0

/-- R356: MREF_LOCK. -/
def execMrefLock (s : State) : Host.Outcome State Fault Refusal :=
  .next <| if !s.pwr.running || s.tmMref == 0 || s.rd Reg.timeStatusSource == 1 then s
    else ((s.wr Reg.timeStatusSource 1).evt 0x7002 0).timeRecord 3 s.now s.now 0

/-- R356: MREF_LOSS. -/
def execMrefLoss (s : State) : Host.Outcome State Fault Refusal :=
  .next <| if !s.pwr.running || s.rd Reg.timeStatusSource != 1 then s
    else ((s.wr Reg.timeStatusSource 2).evt 0x7001 0).timeRecord 3 s.now s.now 0

/-- R357: COUNTER_SLEW: a tick at which the counter adds or omits one increment. -/
def execCounterSlew (s : State) : Host.Outcome State Fault Refusal :=
  .next <| if !s.pwr.running || s.time.slew == 0 || s.time.slewTick < 999 then s
    else if 0 < s.time.slew then
      { s with counter := s.counter + 2, time := { s.time with slew := s.time.slew - 1, slewTick := 0 } }
    else { s with time := { s.time with slew := s.time.slew + 1, slewTick := 0 } }

/-- R362: the SYNC of a downstream stream. -/
def State.syncPayload (s : State) (q stream : Nat) : Bytes :=
  let (t3, t4) := match s.time.echoes.find? fun e => e.1 == q && e.2.1 == stream with
    | some e => (e.2.2.1, e.2.2.2)
    | none => (0, 0)
  let (a, j) := match s.time.stepAt with
    | some a => (a, s.time.stepJump)
    | none => (0, 0)
  leBytes 8 t3 ++ leBytes 8 t4 ++ leBytes 8 a ++ leBytes 8 (ofI 64 j)

/-- R360, R362: BEACON_PERIOD: a SYNC on every downstream stream. -/
def execBeaconPeriod (s : State) : Host.Outcome State Fault Refusal :=
  .next <| if !s.pwr.running || s.tmRole == 0 || s.now < s.time.lastBeacon + s.tmPeriod then s
    else
      let s := s.modTime fun t => { t with lastBeacon := s.now }
      if s.tmRole == 2 && !s.time.firstDone then s
      else s.downStreams.foldl (fun s e => s.beacon e.1 e.2 0 (s.syncPayload e.1 e.2)) s

/-- R363: BEACON_LOST. -/
def execBeaconLost (s : State) : Host.Outcome State Fault Refusal :=
  .next <| if s.group == 3 && s.tmRole == 2 && !s.time.lost && s.time.lastSync + 4 * s.tmPeriod < s.now then
      (s.modTime fun t => { t with lost := true }).evt 0x7009 0
    else s

/-- R364: GROUP_STEP: the counter has reached STEP_AT. -/
def execGroupStep (s : State) : Host.Outcome State Fault Refusal :=
  .next <| match s.time.stepAt with
    | none => s
    | some a =>
      if s.now < a then s else
      let j := s.time.stepJump
      ((s.modTime fun t => { t with stepAt := none }).jump j 1).evt 0x7003 0

/-- R369: FORM_TIMEOUT: the device named is the first of the table that has not joined; a member names itself. -/
def execFormTimeout (s : State) : Host.Outcome State Fault Refusal :=
  .next <| if s.group != 2 || s.now < s.time.since + s.tmForm then s
    else
      let miss := s.tmMembers.find? fun m => !(s.devId :: s.time.joins).contains (fieldLE m 0 1)
      s.refuseGroup (if s.tmRole == 1 then (miss.map fun m => fieldLE m 0 1).getD s.devId else s.devId) 9

/-- R371: GROUP_LEAVE: a write of TIME.GROUP_CTL.LEAVE. -/
def execGroupLeave (s : State) : Host.Outcome State Fault Refusal :=
  .next <| s.gated s.blockGate fun s => s.leaveGroup 0 (s.wglUp s.tmUpQuad)

/-- R369: GROUP_RETRY: a write of TIME.GROUP_CTL.RETRY. -/
def execGroupRetry (s : State) : Host.Outcome State Fault Refusal :=
  .next <| s.gated s.blockGate fun s => if s.group == 4 then s.syncing else s

/-- R358: an epoch arm that is refused. -/
def State.armRefused (s : State) : Bool := (s.group == 3 && s.tmRole == 2) || s.group == 2

/-- R358: a write of TIME.EPOCH_CTL.ARM. -/
def State.epochArm (s : State) (arm : Bool) : State :=
  if !arm then s.wr Reg.timeEpochCtlArm 0
  else if s.armRefused then s.regEncoding
  else (s.wr Reg.timeEpochCtlArm 1).modTime fun t => { t with armTick := s.now }

/-- R358: TIME_EPOCH_ARM. -/
def execTimeEpochArm (s : State) : Host.Outcome State Fault Refusal := .next <| s.gated s.blockGate fun s => s.epochArm true

/-- R358: TIME_EPOCH_CANCEL. -/
def execTimeEpochCancel (s : State) : Host.Outcome State Fault Refusal := .next <| s.gated s.blockGate fun s => s.epochArm false

/-- R365: COUNT_FIRE: the counter reads an armed count or more. A replay takes no live count. -/
def execCountFire (ch : BitVec 2) (slot : BitVec 4) (s : State) : Host.Outcome State Fault Refusal :=
  let c := ch.toNat
  let a := sget {} (s.dsp c).arms slot.toNat
  .next <| if !a.armed || s.now < a.count then s
    else if s.liveIgnored then (s.modDisp c fun d => { d with arms := sdel d.arms slot.toNat }).ignoreLive
    else s.fireCount c slot.toNat 0

/-- R379: a write of DISP.ARM_CTL with CANCEL. -/
def State.armCancel (s : State) (ch slot : Nat) : State := s.cancelCount ch slot 4

/-- R379: DISP_ARM_CANCEL. -/
def execDispArmCancel (ch : BitVec 2) (slot : BitVec 4) (s : State) : Host.Outcome State Fault Refusal :=
  .next <| s.gated (s.chanGate ch.toNat) fun s => s.armCancel ch.toNat slot.toNat

/-- R366, R379, R409: a write of DISP.ARM_CTL with GO; SLOT, ENTRY and PAST_BEGIN stand in the register. -/
def State.armGo (s : State) (ch : Nat) : State :=
  let slot := s.rd (Reg.dispArmCtlSlot ch)
  let entry := s.rd (Reg.dispArmCtlEntry ch)
  let c := s.rd (Reg.dispArmCountC ch)
  if s.liveIgnored then s.ignoreLive
  else if (sget {} (s.dsp ch).arms slot).armed || !s.isHead ch entry 4 || (s.dsp ch).drain || !s.configured ch then s.regEncoding
  else
    let a : ArmSlot := { armed := true, count := c, entry := entry, pastBegin := s.rd (Reg.dispArmCtlPastBegin ch) == 1 }
    let s := s.modDisp ch fun d => { d with arms := sset {} d.arms slot a }
    if c ≤ s.now then s.passedCount ch slot else s

/-- R379: DISP_ARM_GO. -/
def execDispArmGo (ch : BitVec 2) (data : Word) (s : State) : Host.Outcome State Fault Refusal :=
  let v := data.toNat
  .next <| if !bitAt v 48 then s else
    s.gated (s.chanGate ch.toNat) fun s => (s.writeReg .disp ch.toNat 0x20 all64 v).armGo ch.toNat

end Sys2Proof.Machine
end

