-- ==== Sys2Proof/Machine/Launch.lean ====
section
/-! DEFINITION. The dispatcher's commands: the begin of a launch (R380, R383), its completion (R381), preemption, save and
restore (R385 to R387), results and deadlines (R388, R389), and TRIGGER messages (R378, R402). -/
namespace Sys2Proof.Machine

/-! ### Resources -/

/-- R383: why a logical cell is unavailable to its dispatcher: ISLE_CLOCK or THERM_TRIP. -/
def State.unavailable (s : State) (id : Nat) : Option Nat :=
  let x := s.island (s.phys id)
  if x.stopped then some (if x.tripped then 0xC004 else 0xC008) else none

/-- The entry of a context's launch. -/
def State.ctxEntry (s : State) (ch k : Nat) : Bytes := s.launchEntry ch (s.ctx ch k).entry

/-- R380: region registers of a cell that launches hold. -/
def State.regionsHeld (s : State) (id : Nat) : Nat :=
  let ch := chOf id
  total ((List.range 16).map fun k =>
    if (s.ctx ch k).phase.holds && (s.ctxCells ch k).contains id then s.regionCount ch k + 4 else 0)

/-- R380, step 1: what context `k` needs is free on every cell of its rectangle. -/
def State.canReserve (s : State) (ch k : Nat) : Bool :=
  let e := s.ctxEntry ch k
  (s.ctxCells ch k).all fun id =>
    let (rs, rb) := s.heldBack id
    let c := s.cell id
    leSwarms e + rs ≤ c.freeSlots.length && leSwarms e * leVb e + rb ≤ c.freeBlocks
      && s.regionsHeld id + s.regionCount ch k + 4 ≤ 64

/-- R383: the first unavailable cell of a context's rectangle gives the code. -/
def State.blockedBy (s : State) (ch k : Nat) : Option Nat := (s.ctxCells ch k).findSome? s.unavailable

/-- Two contexts' launches need a cell in common. -/
def State.shareCells (s : State) (ch j k : Nat) : Bool := (s.ctxCells ch j).any (s.ctxCells ch k).contains

/-- PRIORITY of a context's launch. -/
def State.ctxPriority (s : State) (ch k : Nat) : Nat := lePriority (s.ctxEntry ch k)

/-- R380, R385: a waiting launch of higher priority needs cells of context `k`. -/
def State.waitingAbove (s : State) (ch k : Nat) : Bool :=
  (List.range 16).any fun j => j != k && (s.ctx ch j).phase == .waiting && (s.blockedBy ch j).isNone
    && decide (s.ctxPriority ch k < s.ctxPriority ch j) && s.shareCells ch j k

/-! ### Preemption (R385) -/

/-- R385: the victim: the context of lowest priority below that of `k` that holds its cells, the one begun last among
equals. -/
def State.victim (s : State) (ch k : Nat) : Option Nat :=
  let l := (List.range 16).filter fun j => (s.ctx ch j).phase.holds && s.ctxPriority ch j < s.ctxPriority ch k && s.shareCells ch j k
  l.foldl (fun b j => match b with
    | none => some j
    | some i =>
      if s.ctxPriority ch j < s.ctxPriority ch i
          || (s.ctxPriority ch j == s.ctxPriority ch i && decide ((s.ctx ch i).beginTick < (s.ctx ch j).beginTick))
      then some j else b) none

/-- R126, R385: the dispatcher requests a park of every swarm of a context. -/
def State.parkCtx (s : State) (ch k : Nat) : State :=
  let s := s.modCtx ch k fun c => { c with phase := .parking }
  (s.ctxCells ch k).foldl (fun s id =>
    ((s.cell id).slotsOfCtx k).foldl (fun s i => if (s.swarm id i).st == .exiting then s else s.requestPark id i 1) s) s

/-- R385: a launch that cannot reserve preempts. A victim without PREEMPT runs on; one that is being parked, saved or
restored finishes that. -/
def State.preempt (s : State) (ch k : Nat) : State :=
  match s.victim ch k with
  | some j => if (s.ctx ch j).phase == .running && lePreempt (s.ctxEntry ch j) then s.parkCtx ch j else s
  | none => s

/-! ### Beginning a launch (R380) -/

/-- R244, Table 12: the GROUP code that a profile gives to ADAPT. -/
def adaptGroup (profile : Nat) : Nat := match profile with
  | 0 | 1 => 2
  | 2 => 1
  | _ => 0

/-- R242, R410: the profile that ADAPT follows: in a replay the one last recorded for the channel, once there is one. -/
def State.profileFor (s : State) (ch : Nat) : Nat :=
  let p := sget 0 s.hrd.profiles ch
  if s.liveIgnored && p != 0 then p - 1 else (s.dsp ch).profile

/-- R380, step 2, R420: the group width of an ADAPT launch; none where the follower of a pair waits for its leader's. -/
def State.adaptFor (s : State) (ch k : Nat) : Option Nat :=
  let c := s.ctx ch k
  if s.isFollower ch && s.configured (partnerOf ch) then
    ((s.dsp (partnerOf ch)).widths.find? fun w => w.1 == c.entry && w.2.1 == c.trig.event).map fun w => w.2.2
  else some (adaptGroup (s.profileFor ch))

/-- R233: the counters of a cell with CLEAR_AT_LAUNCH are cleared. -/
def State.clearAtLaunch (s : State) (id : Nat) : State :=
  let p := s.phys id
  if s.rd (Reg.cellQsatCtlClearAtLaunch p) == 0 then s else
  let s := s.modCell id fun c => { c with clips := [], raised := [] }
  (s.wr (Reg.cellQsatStatusOtherClipCount p) 0).wr (Reg.cellQsatStatusOtherRaised p) 0

/-- R380, steps 1 to 3, and the arming of the launch's chain. `g` is the width of an ADAPT launch. -/
def State.reserve (s : State) (ch k : Nat) (g : Option Nat) : State :=
  let e := s.ctxEntry ch k
  let m := match g with
    | some g => setBits (leMode e) 2 2 g
    | none => leMode e
  let mw : Word := BitVec.ofNat 64 m
  let s := s.modCtx ch k fun c =>
    { c with phase := .reserved, beginTick := s.now, mode := mw, modes := c.modes ++ [mw], adapt := g }
  let c := s.ctx ch k
  let s := match g with
    | some g =>
      if s.isFollower ch then s.modDisp (partnerOf ch) fun d =>
        { d with widths := d.widths.filter fun w => !(w.1 == c.entry && w.2.1 == c.trig.event) }
      else if s.isPair ch then s.modDisp ch fun d => { d with widths := d.widths ++ [(c.entry, c.trig.event, g)] }
      else s
    | none => s
  let s := (s.ctxCells ch k).foldl State.clearAtLaunch s
  match leChain e with
  | some i => s.chainArm ch k i
  | none => s

/-- R43, R249, R469: the dispatcher of a channel begins launches. -/
def State.mayBegin (s : State) (ch : Nat) : Bool :=
  s.pwr.resetChannel != some ch && !(s.dsp ch).drain && s.dispUp ch

/-- R380, R383, R385: LAUNCH_BEGIN. -/
def execLaunchBegin (ch : BitVec 2) (ctx : BitVec 4) (s : State) : Host.Outcome State Fault Refusal :=
  let c := ch.toNat
  let k := ctx.toNat
  .next <| if (s.ctx c k).phase != .waiting || !s.mayBegin c then s
    else match s.blockedBy c k with
      | some code => s.abortCtx c k code
      | none =>
        if s.waitingAbove c k then s
        else if !s.canReserve c k then s.preempt c k
        else if modeAdapt (leMode (s.ctxEntry c k)) then
          match s.adaptFor c k with
          | none => s
          | some g => s.reserve c k (some g)
        else s.reserve c k none

/-- R280: the region list of a launch walked once: the registers it fills, or none where a walk fails. -/
def State.walkList (s : State) (ch k : Nat) : List (Nat × Nat) → State × Option (List RegionReg)
  | [] => (s, some [])
  | (i, a) :: l =>
    let (s, r) := s.walk ch a
    match r.code, r.desc with
    | 0, some (d, p) =>
      let (s, rest) := State.walkList s ch k l
      (s, rest.map fun x => { desc := d, addr := p, ctx := k, num := i } :: x)
    | _, _ => (s, none)

/-- R280, step 4 of R380: the list walks; every cell of the rectangle gets the registers. -/
def State.loadRegions (s : State) (ch k : Nat) : State × Bool :=
  let l := s.leRegions ch (s.ctxEntry ch k)
  let (s, r) := s.walkList ch k ((List.range l.length).zip l)
  match r with
  | none => (s, false)
  | some regs => ((s.ctxCells ch k).foldl (fun s id => s.modCell id fun c => { c with regions := c.regions ++ regs }) s, true)

/-- R110: the replica ranges of a launch overlap one another, or one of another launch on a cell of its rectangle. -/
def State.replicasOverlap (s : State) (ch k : Nat) : Bool :=
  let l := s.leReplicas ch (s.ctxEntry ch k)
  let meets := fun (a la b lb : Nat) => decide (a < b + lb ∧ b < a + la)
  ((List.range l.length).any fun i => (List.range i).any fun j =>
    match l[i]?, l[j]? with
    | some x, some y => meets x.2.2 x.2.1 y.2.2 y.2.1
    | _, _ => false)
  || (s.ctxCells ch k).any fun id => l.any fun x => (s.cell id).inReplica x.2.2 x.2.1

/-- R107, R281: the region that covers a replica's master, from the launch's list or by a walk. -/
def State.masterRegion (s : State) (ch k a : Nat) : State × Option Desc :=
  let held := ((s.ctxCells ch k).head?.map fun id => (s.cell id).regionFor (some k) a).getD none
  match held with
  | some r => (s, some r.desc)
  | none =>
    if s.rd (Reg.dispRegionRootWalkEn ch) == 0 then (s, none) else
    let (s, r) := s.walk ch a
    (s, if r.code == 0 then r.desc.map (·.1) else none)

/-- R107: the bytes of a master; `host` is what host memory answers. None where a check or the read fails. -/
def State.masterBytes (s : State) (ch k a n : Nat) (host : Bytes) : State × Option Bytes :=
  if placeOf a != .hbm && placeOf a != .host then (s, none) else
  match s.masterRegion ch k a with
  | (s, none) => (s, none)
  | (s, some d) =>
    if d.check a n false != 0 then (s, none)
    else if d.host then (s, if s.linkUp then some (fit n host) else none)
    else
      let (s, r) := s.hbmFrom ch a n
      (s, if r.code == 0 then some r.data else none)

/-- R107, R380, step 5: every replica refreshed into every cell of the rectangle. -/
def State.refresh (s : State) (ch k : Nat) : List (Nat × Nat × Nat) → Bytes → State × Bool
  | [], _ => (s, true)
  | (a, n, off) :: l, host =>
    match s.masterBytes ch k a n host with
    | (s, none) => (s, false)
    | (s, some bs) =>
      let s := (s.ctxCells ch k).foldl (fun s id => s.modCell id fun c =>
        { c.write off bs with replicas := c.replicas ++ [{ ctx := k, off := off, len := n }] }) s
      State.refresh s ch k l (if placeOf a == .host then host.drop n else host)

/-- R375: the launch word of a context's launch. -/
def State.launchWord (s : State) (ch k : Nat) : Nat :=
  let c := s.ctx ch k
  c.trig.event % 2 ^ 48 + k * 2 ^ 48 + c.trig.slot * 2 ^ 52 + leArg (s.ctxEntry ch k) * 2 ^ 56

/-- R113, R380, step 6: the swarms of a launch on one cell, in its lowest free slots. -/
def State.createOn (s : State) (ch k id : Nat) : State :=
  let e := s.ctxEntry ch k
  let c := s.ctx ch k
  ((s.cell id).freeSlots.take (leSwarms e)).foldl (fun s i =>
    s.modSwarm id i fun _ =>
      { Swarm.create (leVb e) (leStart e) (s.launchWord ch k) c.mode with ctx := some k, adapt := c.adapt }) s

/-- R380, steps 4 to 6: LAUNCH_SWARM_CREATE. `host` is what host memory answers to a refresh from it. -/
def execLaunchSwarmCreate (ch : BitVec 2) (ctx : BitVec 4) (host : Bytes) (s : State) : Host.Outcome State Fault Refusal :=
  let c := ch.toNat
  let k := ctx.toNat
  .next <| if (s.ctx c k).phase != .reserved || s.pwr.resetChannel == some c then s else
    match s.loadRegions c k with
    | (s, false) => s.abortCtx c k 0x3007
    | (s, true) =>
      if s.replicasOverlap c k then s.abortCtx c k 0x3035 else
      match s.refresh c k (s.leReplicas c (s.ctxEntry c k)) host with
      | (s, false) => s.abortCtx c k 0x3007
      | (s, true) =>
        ((s.ctxCells c k).foldl (fun s id => s.createOn c k id) s).modCtx c k fun x => { x with phase := .running }

/-- No swarm of a context is left. -/
def State.ctxEmpty (s : State) (ch k : Nat) : Bool := (s.ctxCells ch k).all fun id => ((s.cell id).slotsOfCtx k).isEmpty

/-- R381, R384: LAUNCH_COMPLETE: every swarm of the launch has been released. -/
def execLaunchComplete (ch : BitVec 2) (ctx : BitVec 4) (s : State) : Host.Outcome State Fault Refusal :=
  let c := ch.toNat
  let k := ctx.toNat
  .next <| if !((s.ctx c k).phase == .running || (s.ctx c k).phase == .parking) || !s.ctxEmpty c k then s else
    let e := s.ctxEntry c k
    let s := (s.ctxCells c k).foldl (fun s id => s.modCell id fun x => x.freeLaunch k) s
    let s := if leRelease e && !(s.ctx c k).slotDone then
        (s.releaseSlot c (s.ctx c k).trig).modCtx c k fun x => { x with slotDone := true }
      else s
    match leNext e with
    | some n => s.modCtx c k fun x => { x with entry := n, phase := .waiting }
    | none => s.completeCtx c k

/-! ### Save and restore (R386, R387) -/

/-- R386: the save area of a context for one cell. -/
def State.saveAddr (s : State) (ch k id : Nat) : Nat :=
  s.saveBase ch + (144 * k + 12 * rowOf id + colOf id) * s.saveStride ch

/-- Table 19-4: one swarm of a save area. -/
def CellMem.saveSwarm (c : CellMem) (slot : Nat) : Bytes :=
  let w := c.swarm slot
  ((List.range 16).flatMap fun i => leBytes 8 (c.recWord slot i)) ++ ((List.range 64).flatMap fun i => leBytes 8 (w.ureg i))
    ++ ((List.range 8).flatMap fun i => leBytes 4 (w.preg i)) ++ leBytes 1 w.up.toNat ++ zeros 31
    ++ ((List.range w.V).flatMap fun n => (List.range 32).flatMap fun j => leBytes 4 (w.vreg n j))

/-- The elements of a tile. -/
def Tile.elems (t : Tile) : Nat := ((shapeOf t.shape).map Shape.e).getD 0

/-- Table 19-4, Table 19-5: one live tile of a save area. -/
def CellMem.saveTile (c : CellMem) (t : Tile) : Bytes :=
  leBytes 2 t.acc ++ leBytes 1 t.shape ++ leBytes 1 (t.fast.toNat + 2 * t.frag.toNat) ++ leBytes 1 t.slot
    ++ leBytes 1 t.outliers ++ leBytes 2 t.groups ++ leBytes 8 t.mode.toNat ++ leBytes 4 t.reduced ++ zeros 12
    ++ (if t.fast then (c.windows t.acc t.elems).flatMap fun w => w.toRecord t.groups
        else (c.quires t.acc t.elems).flatMap Quire.toRecord)

/-- The live tiles of a set of slots, by ACC. -/
def CellMem.tilesOf (c : CellMem) (slots : List Nat) : List Tile :=
  (List.range 2048).flatMap fun a => c.tiles.filter fun t => t.acc == a && slots.contains t.slot

/-- Table 19-4: the save area of a context on one cell. -/
def State.saveBytes (s : State) (ch k id : Nat) : Bytes :=
  let e := s.ctxEntry ch k
  let c := s.cell id
  let slots := c.slotsOfCtx k
  let tiles := c.tilesOf slots
  let body := (slots.flatMap c.saveSwarm) ++ (tiles.flatMap c.saveTile)
    ++ ((s.leFoot ch e).flatMap fun r => c.read r.1 r.2) ++ ((s.leReplicas ch e).flatMap fun r => c.read r.2.2 r.2.1)
  leBytes 2 (s.ctx ch k).entry ++ leBytes 1 k ++ leBytes 1 slots.length ++ leBytes 2 tiles.length ++ zeros 2
    ++ leBytes 8 (s.launchWord ch k) ++ leBytes 8 s.now ++ leBytes 8 (64 + body.length) ++ zeros 32 ++ body

/-- R183, R200, R385: every swarm of the context is parked, and what its swarms issued has completed or is settled. -/
def State.ctxParked (s : State) (ch k : Nat) : Bool :=
  (s.ctxCells ch k).all fun id => ((s.cell id).slotsOfCtx k).all fun i => (s.swarm id i).st == .parked && s.drained id i

/-- R385: PREEMPT_SAVE_START. -/
def execPreemptSaveStart (ch : BitVec 2) (ctx : BitVec 4) (s : State) : Host.Outcome State Fault Refusal :=
  let c := ch.toNat
  let k := ctx.toNat
  .next <| if (s.ctx c k).phase == .parking && s.ctxParked c k && !s.ctxEmpty c k then
      s.modCtx c k fun x => { x with phase := .saving }
    else s

/-- R386: the save areas of a list of cells written; false where a write is refused or meets an uncorrectable error. -/
def State.saveCells (s : State) (ch k : Nat) : List Nat → State × Bool
  | [] => (s, true)
  | id :: l =>
    let e := s.ctxEntry ch k
    let reads := s.leFoot ch e ++ (s.leReplicas ch e).map fun r => (r.2.2, r.2.1)
    match s.lmReads id reads with
    | (s, true) => (s, false)
    | (s, false) =>
      match s.hbmStore (s.saveAddr ch k id) (s.saveBytes ch k id) with
      | (s, 0) => State.saveCells s ch k l
      | (s, _) => (s, false)

/-- R385: the launch's reservation, region registers and tiles on a cell are freed once it is saved. -/
def CellMem.evict (c : CellMem) (k : Nat) : CellMem :=
  let slots := c.slotsOfCtx k
  let c := slots.foldl (fun c i => c.modSwarm i fun _ => {}) c
  { c with tiles := c.tiles.filter fun t => !slots.contains t.slot,
           supervised := c.supervised.filter fun p => !slots.contains p.2.1 }.freeLaunch k

/-- The spill quires of the fragment tiles of a context: cell, ACC and quires. -/
def State.foldedOf (s : State) (ch k : Nat) : List (Nat × Nat × Sparse (BitVec 648)) :=
  (s.ctxCells ch k).flatMap fun id =>
    let c := s.cell id
    ((c.tilesOf (c.slotsOfCtx k)).filter fun t => t.frag && t.fast).map fun t => (id, t.acc, t.folded)

/-- R385, R386: PREEMPT_SAVE_DONE. -/
def execPreemptSaveDone (ch : BitVec 2) (ctx : BitVec 4) (s : State) : Host.Outcome State Fault Refusal :=
  let c := ch.toNat
  let k := ctx.toNat
  .next <| if (s.ctx c k).phase != .saving then s else
    match s.saveCells c k (s.ctxCells c k) with
    | (s, false) => (s.dEvt c 0x8009).abortCtx c k 0x8009
    | (s, true) =>
      let f := s.foldedOf c k
      let s := (s.ctxCells c k).foldl (fun s id => s.modCell id fun x => x.evict k) s
      (s.modCtx c k fun x => { x with phase := .saved, folded := f }).dEvt c 0x8008

/-- R387: CONTEXT_RESTORE: a saved context reserves again and its region list is walked again. -/
def execContextRestore (ch : BitVec 2) (ctx : BitVec 4) (s : State) : Host.Outcome State Fault Refusal :=
  let c := ch.toNat
  let k := ctx.toNat
  .next <| if (s.ctx c k).phase != .saved then s
    else match s.blockedBy c k with
      | some code => s.abortCtx c k code
      | none =>
        if s.waitingAbove c k || !s.canReserve c k then s else
        let s := s.modCtx c k fun x => { x with phase := .restoring, beginTick := s.now }
        match s.loadRegions c k with
        | (s, false) => s.abortCtx c k 0x3007
        | (s, true) => s

/-- Table 19-4: the bytes of one swarm in the save area of a launch with V lane registers. -/
def saveSwarmLen (v : Nat) : Nat := 704 + 128 * v

/-- R387: a swarm from its saved bytes, PARKED. -/
def swarmOf (b : Bytes) (vb k : Nat) (adapt : Option Nat) : Swarm :=
  { st := .parked, blocks := vb,
    u := (List.range 64).foldl (fun m i => sset 0 m i (BitVec.ofNat 64 (fieldLE b (128 + 8 * i) 8))) [],
    p := (List.range 8).foldl (fun m i => sset 0 m i (BitVec.ofNat 32 (fieldLE b (640 + 4 * i) 4))) [],
    up := BitVec.ofNat 4 (fieldLE b 672 1),
    v := (List.range (512 * vb)).foldl (fun m i => sset 0 m i (BitVec.ofNat 32 (fieldLE b (704 + 4 * i) 4))) [],
    ctx := some k, adapt := adapt }

/-- Word `i` of a saved park record, with SLOT the slot that the swarm is restored to. -/
def recWordAt (b : Bytes) (slot i : Nat) : Nat :=
  let w := fieldLE b (8 * i) 8
  if i == 2 then setBits w 16 8 slot else w

/-- R387: the swarms of a save area put into slots of a cell. -/
def CellMem.putSwarms (c : CellMem) (vb k : Nat) (adapt : Option Nat) : List Nat → Bytes → CellMem
  | [], _ => c
  | i :: l, b =>
    let w := swarmOf (b.take (saveSwarmLen (16 * vb))) vb k adapt
    CellMem.putSwarms ((c.modSwarm i fun _ => w).putRecord i ((List.range 16).map fun j => recWordAt b i j)) vb k adapt l
      (b.drop (saveSwarmLen (16 * vb)))

/-- A saved tile's bytes: state, and E records. -/
def saveTileLen (b : Bytes) : Nat :=
  let e := ((shapeOf (fieldLE b 2 1)).map Shape.e).getD 0
  32 + e * (if bitAt (fieldLE b 3 1) 0 then 24 else 96)

/-- R387, Table 19-5: a tile of a save area, with its slot renamed. -/
def tileFrom (b : Bytes) (rename : Nat → Nat) (k : Nat) (folded : Sparse (BitVec 648)) : Tile :=
  { acc := fieldLE b 0 2, shape := fieldLE b 2 1, fast := bitAt (fieldLE b 3 1) 0, frag := bitAt (fieldLE b 3 1) 1,
    slot := rename (fieldLE b 4 1), outliers := fieldLE b 5 1, groups := fieldLE b 6 2,
    mode := BitVec.ofNat 64 (fieldLE b 8 8), reduced := fieldLE b 16 4, ctx := some k, folded := folded }

/-- R183, R387: a saved tile put back into the accumulator store. -/
def CellMem.putTile (c : CellMem) (t : Tile) (b : Bytes) : CellMem :=
  let e := t.elems
  let c := { c with tiles := c.tiles ++ [t] }
  if t.fast then c.setWindows t.acc ((List.range e).map fun i => Win.ofRecord (slice b (32 + 24 * i) 24))
  else c.setQuires t.acc ((List.range e).map fun i => Quire.ofRecord (slice b (32 + 96 * i) 96))

/-- R387: the tiles of a save area put back; the bytes that follow them. -/
def CellMem.putTiles (rename : Nat → Nat) (k id : Nat) (folded : List (Nat × Nat × Sparse (BitVec 648))) :
    Nat → CellMem → Bytes → CellMem × Bytes
  | 0, c, b => (c, b)
  | n + 1, c, b =>
    let acc := fieldLE b 0 2
    let f := match folded.find? fun x => x.1 == id && x.2.1 == acc && bitAt (fieldLE b 3 1) 0 with
      | some x => x.2.2
      | none => []
    CellMem.putTiles rename k id folded n (c.putTile (tileFrom b rename k f) b) (b.drop (saveTileLen b))

/-- Bytes that a list of ranges takes from a save area, written to local memory. -/
def CellMem.putRanges (c : CellMem) : List (Nat × Nat) → Bytes → CellMem × Bytes
  | [], b => (c, b)
  | (off, n) :: l, b => CellMem.putRanges (c.write off (b.take n)) l (b.drop n)

/-- R387: one cell of a context restored from its save area. -/
def State.restoreCell (s : State) (ch k id : Nat) (b : Bytes) : State :=
  let e := s.ctxEntry ch k
  let x := s.ctx ch k
  let n := fieldLE b 3 1
  let slots := (s.cell id).freeSlots.take n
  let old := (List.range n).map fun i => fieldLE b (64 + saveSwarmLen (16 * leVb e) * i + 18) 1
  let rename := fun i => ((old.zip slots).find? fun p => p.1 == i).map (·.2) |>.getD i
  let reps := (s.leReplicas ch e).map fun r => (r.2.2, r.2.1)
  let s := s.modCell id fun c =>
    let c := c.putSwarms (leVb e) k x.adapt slots (b.drop 64)
    let (c, b) := CellMem.putTiles rename k id x.folded (fieldLE b 4 2) c (b.drop (64 + saveSwarmLen (16 * leVb e) * n))
    let (c, b) := c.putRanges (s.leFoot ch e) b
    let (c, _) := c.putRanges reps b
    { c with replicas := c.replicas ++ reps.map fun r => { ctx := k, off := r.1, len := r.2 } }
  slots.foldl (fun s i => (s.resume id i false).1) s

/-- R387: the save areas of a list of cells read; none where a read is refused or meets an uncorrectable error. -/
def State.readAreas (s : State) (ch k : Nat) : List Nat → State × Option (List (Nat × Bytes))
  | [] => (s, some [])
  | id :: l =>
    let (s, h) := s.hbmFetch (s.saveAddr ch k id) 64
    let n := min (fieldLE h.data 0x18 8) (s.saveStride ch)
    let (s, r) := s.hbmFetch (s.saveAddr ch k id) n
    if h.code != 0 || r.code != 0 then (s, none) else
    let (s, rest) := State.readAreas s ch k l
    (s, rest.map fun x => (id, r.data) :: x)

/-- R172, R387: a live tile of another launch stands where a tile of a save area is to be put back. -/
def CellMem.tileInWay (c : CellMem) : Nat → Bytes → Bool
  | 0, _ => false
  | n + 1, b =>
    c.overlaps (fieldLE b 0 2) (((shapeOf (fieldLE b 2 1)).map Shape.e).getD 1) (bitAt (fieldLE b 3 1) 0)
      || CellMem.tileInWay c n (b.drop (saveTileLen b))

/-- R387: CONTEXT_RESTORE_DONE. -/
def execContextRestoreDone (ch : BitVec 2) (ctx : BitVec 4) (s : State) : Host.Outcome State Fault Refusal :=
  let c := ch.toNat
  let k := ctx.toNat
  .next <| if (s.ctx c k).phase != .restoring then s else
    let v := saveSwarmLen (16 * leVb (s.ctxEntry c k))
    match s.readAreas c k (s.ctxCells c k) with
    | (s1, none) => (s1.dEvt c 0x8009).abortCtx c k 0x8009
    | (s1, some l) =>
      if l.any fun x => (s.cell x.1).tileInWay (fieldLE x.2 4 2) (x.2.drop (64 + v * fieldLE x.2 3 1)) then s else
      (l.foldl (fun s x => s.restoreCell c k x.1 x.2) s1).modCtx c k fun x => { x with phase := .running, folded := [] }

/-! ### Deadlines (R389) -/

/-- R389: the deadline of a context has passed with no result ready and no output. -/
def State.ctxLate (s : State) (ch k : Nat) : Bool :=
  let c := s.ctx ch k
  c.phase != .dead && c.trig.deadline.isSome && !c.trig.due s.now && !c.outLeft && c.ready.isNone

/-- R389, R426: the deadline of a result that waits for its comparison. -/
def State.lateJob (s : State) (ch : Nat) (j : SealJob) : State :=
  if j.mark == 1 || j.trig.deadline.isNone || j.trig.due s.now then s else
  ((s.dEvt ch 0x8001).emitFallback ch j.trig j.ctx 0x09 0 j.events 0 0x8001).jobLate ch j

/-- R377: a queued trigger whose deadline has passed. -/
def State.lateTrigger (s : State) (ch : Nat) (t : Trigger) : State :=
  if t.due s.now then s else
  ((((s.modDisp ch fun d => { d with queue := d.queue.erase t }).releaseSlot ch t).dEvt ch 0x8001).dropTrigger ch t 0x09 0 0x8001)

/-- R350, R391: the chain timeouts of a channel that have passed. -/
def State.chainsDue (s : State) (ch : Nat) : State :=
  ((s.dsp ch).chains.filter s.chainExpired).foldl (fun s c =>
    match s.chainEntry ch c.entry with
    | some e => s.makeIncomplete ch c.entry e c.inst (missingBit e) 0x600F
    | none => s) s

/-- R377, R389, R391: DEADLINE: everything in a channel whose deadline tick has come. INCOMPLETE comes first. -/
def execDeadline (ch : BitVec 2) (s : State) : Host.Outcome State Fault Refusal :=
  let c := ch.toNat
  .next <| if !s.dispUp c then s else
    let s := s.chainsDue c
    let s := (List.range 16).foldl (fun s k => if s.ctxLate c k then s.lateCtx c k else s) s
    let s := (s.dsp c).waitMatch.foldl (fun s j => s.lateJob c j) s
    (s.dsp c).queue.foldl (fun s t => s.lateTrigger c t) s

/-! ### Messages to the dispatcher -/

/-- R248, R402: the input digest of a MESSAGE trigger, and whether it is UNBOUND. -/
def State.messageInput (s : State) (event : Nat) (payload : Bytes) : Bytes × Bool :=
  if s.sealDown then (sha256 (patch payload 16 (zeros 8)), true) else
  match (s.sealer.ingest.find? fun h => h.event == event) <|> (s.sealer.camera.find? fun h => h.event == event) with
  | some h => (h.digest, false)
  | none => (sha256 (patch payload 16 (zeros 8)), true)

/-- R378: a TRIGGER payload at a dispatcher; `inherit` where INHERIT_T is honoured. -/
def State.triggerMsg (s : State) (ch : Nat) (payload : Bytes) (honour : Bool) : State :=
  let flags := fieldLE payload 2 1
  if payload.length != 24 || flags / 2 != 0 || fieldLE payload 3 5 != 0 || fieldLE payload 14 2 != 0 then s.dEvt ch 0x8007
  else
    let event := fieldLE payload 8 6
    let (input, unbound) := s.messageInput event payload
    let s := if unbound then s.evt 0xA022 0 else s
    s.accept ch { head := fieldLE payload 0 2, kind := 5, event := event, input := input }
      (if honour && bitAt flags 0 then some (fieldLE payload 16 8) else none) unbound

/-- R378: TRIGGER_MESSAGE. -/
def execTriggerMessage (i : Nat) (link : LinkErr) (s : State) : Host.Outcome State Fault Refusal :=
  .next <| s.arrive i [.msg] link fun s p =>
    match p.dst with
    | .dispatcher ch =>
      if bits p.arg.toNat 16 8 == 1 then ((s.dropPkt i).ack p).triggerMsg ch p.payload true else s
    | _ => s

/-- R388: a RESULT piece is discarded: no living context, a repeated index, or a length that disagrees. -/
def State.badPiece (s : State) (ch k user : Nat) (payload : Bytes) : Bool :=
  let c := s.ctx ch k
  let i := user % 2 ^ 15
  let len := leResultLen (s.launchEntry ch c.trig.head)
  let n := payload.length - 8
  c.phase == .dead || fieldLE payload 0 6 != c.trig.event || (c.pieces.map (·.1)).contains i || payload.length < 8
    || (if bitAt user 15 then 504 * i + n != len || n == 0 else n != 504 || len ≤ 504 * i + n)

/-- R433: the channel's function is SIMPLEX. -/
def State.inSimplex (s : State) (ch : Nat) : Bool := (s.fnOf ch).any fun f => (s.fn f).st == .simplex

/-- R388, R389, R425, R433: a RESULT piece. The result is ready when it is whole, unless a comparator or SIMPLEX decides
when. -/
def State.resultPiece (s : State) (ch user : Nat) (payload : Bytes) : State :=
  let k := bits (fieldLE payload 0 8) 48 4
  if s.badPiece ch k user payload then s.dEvt ch 0x8007 else
  let i := user % 2 ^ 15
  let s := s.modCtx ch k fun c => { c with
    pieces := sset [] c.pieces i (payload.drop 8), lastPiece := if bitAt user 15 then some i else c.lastPiece }
  let c := s.ctx ch k
  if !s.resultWhole ch k || c.ready.isSome then s else
  let s := s.modCtx ch k fun c => { c with resultBytes := c.pieces.flatMap (·.2) }
  let hasOut := leOutKind (s.launchEntry ch c.trig.head) != 0
  if ((s.comparing ch).isSome || s.inSimplex ch) && hasOut then s else s.ctxReady ch k

/-- R388: RESULT_PIECE. -/
def execResultPiece (i : Nat) (link : LinkErr) (s : State) : Host.Outcome State Fault Refusal :=
  .next <| s.arrive i [.msg] link fun s p =>
    match p.dst with
    | .dispatcher ch =>
      if bits p.arg.toNat 16 8 == 0 then ((s.dropPkt i).ack p).resultPiece ch (bits p.arg.toNat 48 16) p.payload else s
    | _ => s

end Sys2Proof.Machine
end

