-- ==== Sys2Proof/Machine/Messages.lean ====
section
/-! DEFINITION. Messages: SEND and RECV (R153, R265, R267 to R270), and their acceptance by a quad (R342) and by the host
interface (R455). -/
namespace Sys2Proof.Machine

/-! ### SEND -/

/-- R268, check 1: the target word is refused. `st` is SEND.STATIC. -/
def State.badTarget (s : State) (t : Nat) (st : Bool) : Bool :=
  let kind := bits t 0 3
  let dest := bits t 8 10
  let route := bits t 32 8
  bits t 3 5 != 0 || bits t 18 6 != 0 || bits t 40 8 != 0 || 4 ≤ kind
  || (kind == 0 && !isLogical dest)
  || (kind == 1 && (dest / 16 != 0 || s.quadRole (dest % 16) != 1))
  || (kind == 2 && dest / 4 != 0) || (kind == 3 && dest != 0)
  || (!st && route != 0) || (st && kind != 0)

/-- R268: the checks of SEND in order; 0 where all pass. -/
def State.sendCheck (s : State) (id t off len : Nat) (st : Bool) : Nat :=
  if s.badTarget t st then 0x4001
  else if st && !((s.routeOf (chOf id) (bits t 32 8)).any fun e => fieldLE e 8 2 == id) then 0x4003
  else if 512 < len || len % 8 != 0 then 0x4002
  else if off % 8 != 0 then 0x3031
  else if 0x180000 < off + len then 0x3030
  else 0

/-- Table 13-9: the header word of a message. -/
def msgHeader (src srcKind : Nat) (static : Bool) (tag route len user : Nat) : Nat :=
  src + srcKind * 2 ^ 10 + static.toNat * 2 ^ 15 + tag * 2 ^ 16 + route * 2 ^ 24 + len * 2 ^ 32 + user * 2 ^ 48

/-- R265: every credit counter of a route is at least 1. -/
def CellMem.creditsLeft (c : CellMem) (route : Nat) (e : Bytes) : Bool :=
  (routeDests e).all fun d => sget 0 c.creditUsed (creditKey route d) < routeDepth e

/-- R265: SEND.STATIC takes one credit of every destination and sends. -/
def State.sendStatic (s : State) (id slot t : Nat) (payload : Bytes) (e : Bytes) : State :=
  let route := bits t 32 8
  let s := s.modCell id fun c => { c with
    creditUsed := (routeDests e).foldl (fun m d => smod 0 m (creditKey route d) (· + 1)) c.creditUsed }
  (routeDests e).foldl (fun s d => s.send
    { kind := .msg, src := .cell id, dst := .cell d, payload := payload, route := some route,
      arg := BitVec.ofNat 64 (msgHeader id 0 true (bits t 24 8) route payload.length (bits t 48 16)),
      origin := { slot := slot, scope := scopeOf id d }, wasOpen := (s.closedOn (chOf id) (chOf d)).isNone }) s

/-- R267, Table 13-2: the endpoint that a target word names, for a cell of a channel. -/
def targetEnd (ch t : Nat) : Endpoint :=
  match bits t 0 3 with
  | 0 => .cell (bits t 8 10)
  | 1 => .quad (bits t 8 4)
  | 2 => .dispatcher (bits t 8 2)
  | _ => .services ch

/-- R101: the fence scope of a message: the channel of the endpoint that receives it; the host is outside the channel. -/
def targetScope (ch t : Nat) : Nat := if bits t 0 3 == 3 || (targetEnd ch t).ch != ch then 2 else 1

/-- R267: SEND.DYNAMIC posts one message. The header word travels with it. -/
def State.sendDynamic (s : State) (id slot t : Nat) (payload : Bytes) : State :=
  s.post { kind := .msg, src := .cell id, dst := targetEnd (chOf id) t, payload := payload,
           arg := BitVec.ofNat 64 (msgHeader id 0 false (bits t 24 8) 0 payload.length (bits t 48 16)),
           origin := { slot := slot, scope := targetScope (chOf id) t } }

/-- R153: the fields of SEND. -/
def encSend (x : Nat) : List (Nat × Bool) :=
  [(53, wGuard x == 0), (48, wFn x ≤ 1), (40, wD x == 0), (32, okU (wA x)), (24, okU (wB x)), (16, okU (wC x)),
   (0, lowZero x)]

/-- R153, R267, R268: SEND. A static message without a credit waits. -/
def State.sendInsn (s : State) (id k fn : Nat) : State :=
  s.issue id k (fun x => isOp 0x38 x && (wFn x == fn || 2 ≤ wFn x)) false false false encSend (fun _ => []) (fun _ => [])
    fun s x =>
      let w := s.swarm id k
      let t := w.ureg (wA x)
      let off := w.ureg (wB x)
      let len := w.ureg (wC x)
      let code := s.sendCheck id t off len (fn == 1)
      if code != 0 then s.faultInsn id k x code 0
      else if (s.cell id).uce off len then (s.faultInsn id k x 0x300A 0).lmUceTold id
      else if fn == 0 then
        let s := s.lmTouch id off len
        (s.sendDynamic id k t ((s.cell id).read off len)).commit id k
      else match s.routeOf (chOf id) (bits t 32 8) with
        | none => s
        | some e =>
          if (s.cell id).creditsLeft (bits t 32 8) e then
            let s := s.lmTouch id off len
            (s.sendStatic id k t ((s.cell id).read off len) e).commit id k
          else s

/-- R267: SEND.DYNAMIC. -/
def execSendDynamic (cell : BitVec 10) (slot : BitVec 4) (s : State) : Host.Outcome State Fault Refusal :=
  .next <| s.sendInsn cell.toNat slot.toNat 0

/-- R265: SEND.STATIC. -/
def execSendStatic (cell : BitVec 10) (slot : BitVec 4) (s : State) : Host.Outcome State Fault Refusal :=
  .next <| s.sendInsn cell.toNat slot.toNat 1

/-! ### RECV -/

/-- R270, Table 13-8: a match word and buffer offset that RECV_OPERAND refuses. -/
def badMatch (m buf : Nat) : Bool :=
  bits m 32 28 != 0 || bits m 13 3 != 0 || (!bitAt m 63 && !bitAt m 60 && bits m 24 8 != 0)
  || buf % 8 != 0 || decide (0x180000 < buf + 512)

/-- R270, Table 13-8: a message matches. -/
def RingMsg.fits (g : RingMsg) (m : Nat) : Bool :=
  let h := g.header.toNat
  if bitAt m 63 then true
  else if bitAt m 60 then g.static && g.route == bits m 24 8 && bits h 16 8 == bits m 16 8
  else (bitAt m 62 || bits h 0 13 == bits m 0 13) && (bitAt m 61 || bits h 16 8 == bits m 16 8)

/-- R270: takes a message out of the ring into a buffer; a static message returns its credit. -/
def State.recvTake (s : State) (id k x base : Nat) (g : RingMsg) : State :=
  let w := s.swarm id k
  let src := base + 528 * g.slot + 16
  let s := s.lmTouch id src g.len
  let data := (s.cell id).read src g.len
  let s := s.modCell id fun c => { c with ring := c.ring.erase g }
  let s := s.lmStores id [(w.ureg (wA x), data)]
  let s := if g.static then s.credit id (bits g.header.toNat 0 10) g.route false else s
  s.modSwarm id k fun w => w.setU (wD x) g.header.toNat

/-- R153, R270: RECV. `poll` is its FN 1. -/
def State.recvInsn (s : State) (id k : Nat) (poll : Bool) : State :=
  s.issue id k (fun x => isOp 0x39 x && (wFn x == poll.toNat || 2 ≤ wFn x)) false false false
    (fun x => [(53, wGuard x == 0), (48, wFn x ≤ 1), (40, okU (wD x)), (32, okU (wA x)), (24, okU (wB x)),
      (16, if wFn x == 1 then okUp (wC x) else okZ (wC x)), (0, lowZero x)])
    (fun _ => []) (fun _ => [])
    fun s x =>
      let w := s.swarm id k
      let m := w.ureg (wB x)
      let buf := w.ureg (wA x)
      if badMatch m buf then s.faultInsn id k x 0x4005 0
      else match s.ringOf id with
      | none => s.faultInsn id k x 0x4004 0
      | some (base, _) =>
        match (s.cell id).ring.find? fun g => g.fits m with
        | none => if poll then s.put id k fun w => w.setUp (wC x) false else s
        | some g =>
          if (s.cell id).inReplica buf g.len then s.faultInsn id k x 0x3034 0
          else if (s.cell id).uce (base + 528 * g.slot + 16) g.len then (s.faultInsn id k x 0x300A 0).lmUceTold id
          else
            let s := s.recvTake id k x base g
            s.put id k fun w => if poll then w.setUp (wC x) true else w

/-- R270: RECV WAIT. -/
def execRecvWait (cell : BitVec 10) (slot : BitVec 4) (s : State) : Host.Outcome State Fault Refusal :=
  .next <| s.recvInsn cell.toNat slot.toNat false

/-- R270: RECV POLL. -/
def execRecvPoll (cell : BitVec 10) (slot : BitVec 4) (s : State) : Host.Outcome State Fault Refusal :=
  .next <| s.recvInsn cell.toNat slot.toNat true

/-! ### Messages to a quad and to the host -/

/-- R342: bytes of a stream's message that a source cell has built so far. -/
def Wgl.built (w : Wgl) (src stream : Nat) : Bytes :=
  match w.building.find? fun b => b.1 == src && b.2.1 == stream with
  | some b => b.2.2
  | none => []

/-- R342: forgets a message being built. -/
def Wgl.unbuild (w : Wgl) (src stream : Nat) : Wgl :=
  { w with building := w.building.filter fun b => !(b.1 == src && b.2.1 == stream) }

/-- R342, R422: a message that a cell sends on a stream is complete: it takes its MSG_ID and leaves, or is compared. -/
def State.quadSend (s : State) (q stream mtype tag : Nat) (arg payload : Bytes) : State :=
  let (m, s) := s.wglMake q stream mtype tag arg payload
  s.egressMsg (quadCh q) 2 (leBytes 1 (q % 4) ++ leBytes 1 stream ++ zeros 2 ++ slice m 8 4 ++ zeros 8) (cmpTag ++ m) m

/-- R342: a quad takes a SEND, or refuses it with a cause. -/
def State.quadMsg (s : State) (q src stream user : Nat) (payload : Bytes) : State × Nat :=
  match s.wgPort q, s.wgStream q stream with
  | some p, some e =>
    let w := s.wglOf q
    if wpPair p || !wsTx e || 2 ≤ wsKind e then (s, 0x600C)
    else if wsKind e == 1 then
      if payload.length < 8 then (s, 0x600C)
      else if w.full stream (24 + payload.length) then (s, 0x600B)
      else (s.quadSend q stream 2 0 (payload.take 8) (payload.drop 8), 0)
    else
      let all := w.built src stream ++ payload
      if 16384 < all.length then (s.modWgl q fun w => w.unbuild src stream, 0x600C)
      else if w.full stream (payload.length + if (w.built src stream).isEmpty then 32 else 0) then (s, 0x600B)
      else
        let s := s.modWgl q fun w => w.unbuild src stream
        if bitAt user 15 then (s.modWgl q fun w => { w with building := w.building ++ [(src, stream, all)] }, 0)
        else (s.quadSend q stream 1 (user % 2 ^ 15) [] all, 0)
  | _, _ => (s, 0x600C)

/-- R455: a MESSAGE record's header bytes 0x10 to 0x1F. -/
def hostMsgHead (ch srcKind src tag user : Nat) : Bytes :=
  leBytes 1 ch ++ leBytes 1 srcKind ++ leBytes 2 src ++ leBytes 2 tag ++ leBytes 2 user ++ zeros 8

/-- R423, R455: the count of MESSAGE records of a queue that the KEY of a compared message holds; it counts up. -/
def State.hostMsgCount (s : State) (ch q : Nat) : Nat × State :=
  match s.fnOf ch with
  | none => (0, s)
  | some f =>
    let k := 64 * ch + q
    (sget 0 (s.fn f).hostCount k, s.modFn f fun x => { x with hostCount := smod 0 x.hostCount k (· + 1) })

/-- R455: the host interface takes a cell's message, or refuses it with a cause. -/
def State.hostMsg (s : State) (ch src tag user : Nat) (payload : Bytes) : State × Nat :=
  let q := tag % 64
  if 64 ≤ tag || !s.queueUp q then (s, 0xB006)
  else if s.stagingFree < recBytes payload.length then (s, 0xB007)
  else
    let (n, s) := s.hostMsgCount ch q
    let h := hostMsgHead ch 0 src tag user
    (s.egressMsg ch 3 (leBytes 2 q ++ zeros 6 ++ leBytes 8 n) (cmpTag ++ h ++ leBytes 4 payload.length ++ payload)
      (h ++ payload), 0)

end Sys2Proof.Machine
end

