-- ==== Sys2Proof/Machine/Packets.lean ====
section
/-! DEFINITION. Packets at their destinations (R102, R105, R262, R265, R266, R269, R283, R288) and at closed bridge
ends (R262). -/
namespace Sys2Proof.Machine

/-! ### Requests at a cell -/

/-- R102, R108, R288, R471: why a write of a range by another source is refused at a cell: a cause, or 0. -/
def State.inboundCause (s : State) (id off n : Nat) (atomic : Bool) : Nat :=
  let c := s.cell id
  if s.cellInReset id then 0xC022
  else if c.inReplica off n then 0x3034
  else if (if atomic then c.uce off n else c.partUce off n) then 0x300A
  else 0

/-- R108, R288: what the refusal of an inbound write counts at the cell. -/
def State.inboundCount (s : State) (id cause : Nat) : State :=
  if cause == 0x3034 then s.bump (Reg.cellLmStatusReplicaWriteCount (s.phys id))
  else if cause == 0x300A then s.lmUceTold id
  else s

/-- R102: a write by any source other than the cell's own swarms: performed, or refused with a cause. -/
def State.inboundStore (s : State) (id off : Nat) (bs : Bytes) : State × Nat :=
  match s.inboundCause id off bs.length false with
  | 0 => (s.lmStores id [(off, bs)], 0)
  | c => (s.inboundCount id c, c)

/-- R102: STORE_PACKET. -/
def execStorePacket (i : Nat) (link : LinkErr) (s : State) : Host.Outcome State Fault Refusal :=
  .next <| s.arrive i [.store] link fun s p =>
    match p.dst with
    | .cell id =>
      let (s, c) := (s.dropPkt i).inboundStore id p.arg.toNat p.payload
      if c == 0 then s.ack p else s.refuse p c
    | _ => s

/-- R104, R105: one update of a word by an atomic packet: the cell, and the word's old value. -/
def State.atomApply (s : State) (id : Nat) (p : Packet) : State × Nat :=
  let a := p.arg.toNat
  let n := p.payload.length
  let off := bits a 0 21
  let s := s.lmTouch id off n
  let old := leNat ((s.cell id).read off n)
  (s.lmStores id [(off, leBytes n (atomOp (bits a 21 3) (8 * n) old (leNat p.payload)))], old)

/-- R104, R105: ATOMIC_PACKET. -/
def execAtomicPacket (i : Nat) (link : LinkErr) (s : State) : Host.Outcome State Fault Refusal :=
  .next <| s.arrive i [.atomic] link fun s p =>
    match p.dst with
    | .cell id =>
      let s := s.dropPkt i
      match s.inboundCause id (bits p.arg.toNat 0 21) p.payload.length true with
      | 0 =>
        let (s, old) := s.atomApply id p
        if bitAt p.arg.toNat 25 then s.post (p.answer .atomicRsp p.arg.toNat (leBytes p.payload.length old)) else s.ack p
      | c => (s.inboundCount id c).refuse p c
    | _ => s

/-- R94, R105: the lanes of a fetch receive their values, and the register's interlock ends. -/
def Swarm.fetched (w : Swarm) (o : Origin) (k : Nat) (val : Option Nat → Nat) : Swarm :=
  if w.fetching.contains o.reg then
    o.fetch.foldl (fun w e => w.setFetched o.reg k e.1 (val e.2)) { w with fetching := w.fetching.erase o.reg }
  else w

/-- R105: ATOMIC_RSP_PACKET. -/
def execAtomicRspPacket (i : Nat) (link : LinkErr) (s : State) : Host.Outcome State Fault Refusal :=
  .next <| s.arrive i [.atomicRsp] link fun s p =>
    match p.dst with
    | .cell id =>
      let n := p.payload.length
      let old := leNat p.payload
      (s.dropPkt i).modSwarm id p.origin.slot fun w =>
        w.fetched p.origin (n / 4) fun below => fetchVal (bits p.arg.toNat 21 3) (8 * n) old below
    | _ => s

/-! ### Messages at a cell, a quad and the host -/

/-- R262, R266, R269: a message is refused at its sender: it is counted there. -/
def State.sentRefused (s : State) (e : Endpoint) : State :=
  match e with
  | .cell id => s.bump (Reg.cellMsgStatusSentRefused (s.phys id))
  | _ => s

/-- R269: a message is written into the lowest free slot of a cell's ring. -/
def State.ringDeliver (s : State) (i id base slots : Nat) (p : Packet) : State :=
  match (s.cell id).freeRing slots with
  | none => s
  | some k =>
    let s := s.dropPkt i
    if (s.cell id).inReplica (base + 528 * k) (16 + p.payload.length) then
      let s := s.inboundCount id 0x3034
      match p.route with
      | some r => (s.credit id (bits p.arg.toNat 0 10) r false).sentRefused p.src
      | none => s.refuse p 0x3034
    else (s.ringPutMsg id base k p.arg.toNat p.payload).ack p

/-- R266, R269: a message at a cell. A dynamic message without an unreserved free slot waits. -/
def State.cellMsg (s : State) (i id : Nat) (p : Packet) : State :=
  match p.route with
  | some r =>
    if s.cellInReset id then
      (((s.dropPkt i).credit id (bits p.arg.toNat 0 10) r false)).sentRefused p.src
    else match s.ringOf id with
      | none => (s.dropPkt i).sentRefused p.src
      | some (base, slots) => s.ringDeliver i id base slots p
  | none =>
    if s.cellInReset id then (s.dropPkt i).refuse p 0xC022
    else match s.ringOf id with
      | none => ((s.dropPkt i).bump (Reg.cellMsgStatusRxRefused (s.phys id))).refuse p 0x4006
      | some (base, slots) =>
        if slots ≤ s.ringReserved id then
          ((s.dropPkt i).bump (Reg.cellMsgStatusRxRefused (s.phys id))).refuse p 0x4006
        else if s.ringRoom id slots then s.ringDeliver i id base slots p
        else { s with pkts := s.pkts.set i { p with waiting := true } }

/-- R267, R342, R455: a message at its endpoint. -/
def State.msgAt (s : State) (i : Nat) (p : Packet) : State :=
  let h := p.arg.toNat
  match p.dst with
  | .cell id => s.cellMsg i id p
  | .quad q =>
    let (s, c) := (s.dropPkt i).quadMsg q (bits h 0 10) (bits h 16 8) (bits h 48 16) p.payload
    if c == 0 then s.ack p else s.refuse p c
  | .services ch =>
    let (s, c) := (s.dropPkt i).hostMsg ch (bits h 0 10) (bits h 16 8) (bits h 48 16) p.payload
    if c == 0 then s.ack p else (s.bump Reg.hostCountRefused |>.evt c 0).refuse p c
  | _ => s

/-- R269: MSG_PACKET. -/
def execMsgPacket (i : Nat) (link : LinkErr) (s : State) : Host.Outcome State Fault Refusal :=
  .next <| s.arrive i [.msg] link fun s p => if p.waiting then s else s.msgAt i p

/-- R269: MSG_RING_WAIT_RELEASE. -/
def execMsgRingWaitRelease (i : Nat) (s : State) : Host.Outcome State Fault Refusal :=
  .next <| match s.arriving i [.msg] with
    | some p => if p.waiting then s.msgAt i p else s
    | none => s

/-! ### HBM and the host -/

/-- R283: answers a MEMREQ with a status and data. -/
def State.memAnswer (s : State) (p : Packet) (status : Nat) (data : Bytes) : State :=
  s.post (p.answer .memrsp status data)

/-- R283, R457, R458: MEMREQ_PACKET. A read of host memory waits for its completion; a write is posted. -/
def execMemreqPacket (i : Nat) (link : LinkErr) (s : State) : Host.Outcome State Fault Refusal :=
  .next <| s.arrive i [.memreq] link fun s p =>
    let s := s.dropPkt i
    let a := bits p.arg.toNat 0 52
    let n := bits p.arg.toNat 53 9 + 1
    let write := bitAt p.arg.toNat 52
    match p.dst with
    | .stack _ =>
      if write then let (s, c) := s.hbmStore a p.payload; s.memAnswer p c []
      else
        let (s, r) := s.hbmFetch a n
        if r.code == 0 then s.memAnswer p 0 r.data else s.memAnswer p (if r.code == 0x3008 then 0x3008 else r.cause) []
    | .services _ =>
      if write then (s.hostWrite a p.payload).memAnswer p 0 []
      else if s.linkUp then
        { s with host := { s.host with reads := s.host.reads ++ [({ addr := a, len := n, src := p.src, origin := p.origin } : HostRead)] } }
      else s.memAnswer p 0xB009 []
    | _ => s

/-- R283: a refused store to HBM or the host is counted at its cell. -/
def State.storeRefused (s : State) (id : Nat) : State := s.bump (Reg.cellRegionStatusStoresRefused (s.phys id))

/-- R283: what a MEMRSP or a refusal means at the requester: a store's refusal is counted, a load's lane ends. -/
def State.memSettled (s : State) (id : Nat) (p : Packet) (status : Nat) : State :=
  if p.origin.use == 1 then (if status == 0 then s else s.storeRefused id)
  else if status == 0 then s.memReturn id p.origin.slot p.origin.lane 0 0 p.payload
  else if status == 0x3008 && p.kind == .memrsp then s.memReturn id p.origin.slot p.origin.lane 0x3008 0 []
  else s.memReturn id p.origin.slot p.origin.lane 0x300C status []

/-- R283: MEMRSP_PACKET. -/
def execMemrspPacket (i : Nat) (link : LinkErr) (s : State) : Host.Outcome State Fault Refusal :=
  .next <| s.arrive i [.memrsp] link fun s p =>
    match p.dst with
    | .cell id => (s.dropPkt i).memSettled id p (bits p.arg.toNat 0 16)
    | _ => s

/-! ### Refusals and credits -/

/-- R102: a refused store or atomic is counted at its sender; lanes that fetch from it receive zero. -/
def State.remoteRefused (s : State) (id : Nat) (o : Origin) : State :=
  let s := s.bump (Reg.cellLmStatusRemoteRefusedCount (s.phys id))
  if o.fetch.isEmpty then s else s.modSwarm id o.slot fun w => w.fetched o (o.use + 1) fun _ => 0

/-- R262: a discard with no closed end of its own is counted at the end through which the packet came in. -/
def State.countLast (s : State) (src dst : Nat) : State :=
  match (s.hops src dst).getLast? with
  | some h => s.countEnd (h.2, !hopUp h)
  | none => s

/-- R265, R266: a CREDIT at a route's source. One for a route that the running part does not define is discarded. -/
def State.creditAt (s : State) (i : Nat) (restore : Bool) (link : LinkErr) : State :=
  s.arrive i [.credit] link fun s p =>
    if bitAt p.arg.toNat 8 != restore then s else
    match p.dst, p.src with
    | .cell src, .cell dest =>
      let s := s.dropPkt i
      let r := bits p.arg.toNat 0 8
      let known := (s.routeOf (chOf src) r).any fun e => fieldLE e 8 2 == src && (routeDests e).contains dest
      if !known then s.countLast (chOf dest) (chOf src)
      else s.modCell src fun c => { c with
        creditUsed := smod 0 c.creditUsed (creditKey r dest) fun n => if restore then 0 else n - 1 }
    | _, _ => s

/-- R265: CREDIT_PACKET. -/
def execCreditPacket (i : Nat) (link : LinkErr) (s : State) : Host.Outcome State Fault Refusal :=
  .next <| s.creditAt i false link

/-- R266: CREDIT_RESTORE. -/
def execCreditRestore (i : Nat) (link : LinkErr) (s : State) : Host.Outcome State Fault Refusal :=
  .next <| s.creditAt i true link

/-! ### Closed bridge ends -/

/-- R262: BRIDGE_DISCARD: a closed bridge end takes packet `i`. -/
def execBridgeDiscard (i : Nat) (s : State) : Host.Outcome State Fault Refusal :=
  .next <| match s.pkts[i]? with
    | none => s
    | some p =>
      match (if p.onMesh then s.closedOn p.src.ch p.dst.ch else none) with
      | none => s
      | some e =>
        if (s.pkts.take i).any p.sameLane then s
        else ((s.dropPkt i).refuseAt p e.1 0x4007).countEnd e

end Sys2Proof.Machine
end

