-- ==== Sys2Proof/Machine/Pair.lean ====
section
/-! DEFINITION. Partner loss and SIMPLEX (R431 to R433), and arming (R417). -/
namespace Sys2Proof.Machine

/-- SIMPLEX_EN of a function. -/
def State.fnSimplex (s : State) (f : Nat) : Bool := bitAt (s.fnFlags f) 0
/-- PAIR_QUAD of a function. -/
def State.fnQuad (s : State) (f : Nat) : Nat := fieldLE (s.fnEntry f) 3 1
/-- MIRROR_STREAM of a function. -/
def State.fnStream (s : State) (f : Nat) : Nat := fieldLE (s.fnEntry f) 4 1
/-- UNLOCK of a function. -/
def State.fnUnlock (s : State) (f : Nat) : Nat := fieldLE (s.fnEntry f) 6 2
/-- PARTNER_TIMEOUT of a function in ticks. -/
def State.fnTimeout (s : State) (f : Nat) : Nat := 1000 * fieldLE (s.fnEntry f) 0x0E 2
/-- SIMPLEX_LIMIT of a function in ticks. -/
def State.fnLimit (s : State) (f : Nat) : Nat := 1000000 * fieldLE (s.fnEntry f) 0x10 4
/-- The device-pair functions. -/
def State.devFns (s : State) : List Nat := (List.range s.fnCount).filter s.fnDevice

/-! ### Partner loss -/

/-- R432, R433: the function enters SIMPLEX. -/
def State.enterSimplex (s : State) (f : Nat) : State :=
  ((s.releaseHeld f).modFn f fun x => { x with simplexAt := s.now }).evt 0x900A 0

/-- R431, R432: the partner of a function is lost. -/
def State.partnerLost (s : State) (f : Nat) : State :=
  let s := s.modFn f fun x => { x with partnerSeen := false, prevSeq := none, partnerArm := none }
  let s := (s.evt 0x9009 0).bump (fnFaults f)
  match (s.fn f).st with
  | .armed => if s.fnSimplex f then s.enterSimplex f else s.curl f 0x9009
  | .arming => s.refuseArm f 5
  | _ => s

/-- R431: the pair port of a quad has gone DOWN or has received FRESH. -/
def State.pairPortLost (s : State) (q : Nat) : State :=
  (s.devFns.filter fun f => s.fnQuad f == q && (s.fn f).partnerSeen).foldl (fun s f => s.partnerLost f) s

/-! ### Arming -/

/-- R417: 10 ms in ticks. -/
def armLimit : Nat := 10000000

/-- R421, Table 21-5: the payload of this device's ARM. -/
def State.armPayload (s : State) (f : Nat) : Bytes :=
  let mine := bitAt (s.fnChannels f)
  leBytes 1 (s.fnChannels f) ++ leBytes 1 (bits glbIdent 24 8) ++ leBytes 1 s.appliedProfile
    ++ leBytes 1 (s.rd Reg.govProfileLock) ++ leBytes 4 s.fwVersion
    ++ [0, 1, 2, 3].flatMap (fun ch => if mine ch then fit 48 (sget [] s.img.channelDigest ch) else zeros 48)
    ++ [0, 1, 2, 3].flatMap (fun ch => if mine ch then fit 32 (sget (sha256 []) s.sealer.weights ch) else zeros 32)

/-- R417: some launch-table entry of the function's channels names ADAPT. -/
def State.fnAdapt (s : State) (f : Nat) : Bool :=
  (s.fnChs f).any fun ch => (List.range (s.launchCount ch)).any fun n => modeAdapt (leMode (s.launchEntry ch n))

/-- R417: the ARM of the partner that belongs to this arming. -/
def SafeFn.armOf (x : SafeFn) : Option Bytes := if x.armStart ≤ x.partnerArmAt + armLimit then x.partnerArm else none

/-- Table 21-4: the first check that fails, with the outcome of the start-up self-test. -/
def State.armCheck (s : State) (f : Nat) (selfTest : Bool) : Option Nat :=
  let dev := s.fnDevice f
  let chs := s.fnChs f
  let own := s.armPayload f
  let got := (s.fn f).armOf
  let p := got.getD []
  let differ := fun o n => slice p o n != slice own o n
  let checks : List (Nat × Bool) :=
    [(1, chs.any (fun ch => !s.configured ch || (s.dsp ch).drain) || s.img.load.isSome), (2, !selfTest),
     (3, !dev && chs.any fun ch => sget (sha256 []) s.sealer.weights ch != sget (sha256 []) s.sealer.weights (partnerOf ch)),
     (4, dev && (!s.wglUp (s.fnQuad f) || s.rd (Reg.wglStatusPair (s.fnQuad f)) == 0)),
     (5, dev && got.isNone), (6, dev && differ 0 1), (7, dev && (differ 1 1 || differ 4 4)), (8, dev && differ 8 192),
     (9, dev && differ 0xC8 128),
     (10, dev && s.fnAdapt f && (differ 2 2 || !bitAt (fieldLE p 3 1) 0))]
  (checks.find? (·.2)).map (·.1)

/-- R417: a DISARMED or SIMPLEX function starts ARMING. -/
def State.startArming (s : State) (f : Nat) : State :=
  let s := s.modFn f fun x => { x with
    st := .arming, armStart := s.now, fromSimplex := x.st == .simplex, selfTest := false }
  if s.fnDevice f then s.mirror f 2 (s.armPayload f) else s

/-- R416, R418, R436: every function starts anew: after a load that applies the SAFETY section, and at a warm reset. -/
def State.safetyApplied (s : State) : State :=
  [0, 1].foldl (fun s f =>
    if s.fnCount ≤ f then s.modFn f fun _ => {} else
    let s := s.modFn f fun _ => { st := .disarmed }
    if bitAt (s.fnFlags f) 2 then s.startArming f else s) s

end Sys2Proof.Machine
end

