-- ==== Sys2Proof/Machine/WglRx.lean ====
section
/-! DEFINITION. The Waggle port: its link states (R335, R336), flits received and retry (R337 to R339), markers and lane
retirement (R333, R340), link loss (R344), and the disposition and execution of messages (R343, R345). -/
namespace Sys2Proof.Machine

/-! ### The port's section and registers -/

/-- MODE of a port entry: 1 FEC. -/
def wpFec (p : Bytes) : Bool := fieldLE p 2 1 == 1
/-- RETIRE_LIMIT. -/
def wpRetireLimit (p : Bytes) : Nat := fieldLE p 6 2
/-- RETIRE_WINDOW. -/
def wpRetireWindow (p : Bytes) : Nat := fieldLE p 8 2
/-- ACK_TIMEOUT in ticks. -/
def wpAckTimeout (p : Bytes) : Nat := fieldLE p 10 2
/-- MSG_HOLD in ticks. -/
def wpHold (p : Bytes) : Nat := 1000 * fieldLE p 12 4

/-- A field of WGL.LANEn: RETIRED 42, TRAINED 41, SIGNAL 40, ERRORS from 0. -/
def laneField (q lane lo len : Nat) : RegField := ⟨(Reg.wglLane0Errors q).off + 8 * lane, lo, len⟩

/-- STATE of a port. -/
def State.linkState (s : State) (q : Nat) : Nat := s.rd (Reg.wglStatusState q)

/-- Puts a port into a state of Table 17-2. -/
def State.setLink (s : State) (q st : Nat) : State :=
  (s.wr (Reg.wglStatusState q) st).modWgl q fun w => { w with entered := s.now }

/-- R335: the port works: its channel is configured and not in a reset, and it is the leader's in a pair (R419). -/
def State.portOn (s : State) (q : Nat) : Bool :=
  (s.wgPort q).isSome && s.configured (quadCh q) && s.pwr.resetChannel != some (quadCh q) && !s.isFollower (quadCh q)
    && !(s.island (0x408 + q)).stopped

/-- The stage of training a port is in: STATE, or the stage that a RETRAIN has reached. -/
def State.linkStage (s : State) (q : Nat) : Nat := if s.linkState q == 6 then (s.wglOf q).phase else s.linkState q

/-- Goes on to a stage of training, within RETRAIN or outside it. -/
def State.nextStage (s : State) (q st : Nat) : State :=
  if s.linkState q == 6 then s.modWgl q fun w => { w with phase := st } else s.setLink q st

/-- Lanes of a mask that are not retired. -/
def State.usable (s : State) (q lanes : Nat) : Nat := lanes % 16 &&& (15 ^^^ s.rd (Reg.wglStatusRetired q))

/-- Time in ticks since the port entered its state. -/
def State.inState (s : State) (q : Nat) : Nat := s.now - (s.wglOf q).entered

/-- R335: the port enters RETRAIN: the replay state is kept. -/
def State.toRetrain (s : State) (q : Nat) : State :=
  ((s.setLink q 6).modWgl q fun w => { w with phase := 2 }).evt 0x6003 q

/-- R335: training or alignment has failed. -/
def State.trainFail (s : State) (q : Nat) : State := (s.setLink q 1).evt 0x6001 q

/-! ### INIT (R336) -/

/-- R336: the INIT flit of a port. -/
def State.initFlit (s : State) (q : Nat) (p : Bytes) : Bytes :=
  let w := s.wglOf q
  let pl := leBytes 2 0x100 ++ leBytes 1 s.devId ++ leBytes 1 q ++ leBytes 1 (wpFec p).toNat
    ++ leBytes 1 (w.trained % 16 + 16 * s.rd (Reg.wglStatusRetired q)) ++ leBytes 1 (wpMinLanes p)
    ++ leBytes 1 (w.fresh.toNat + 2 * (wpPair p).toNat + 4 * (s.linkState q == 6).toNat) ++ leBytes 2 w.rxSeq ++ zeros 54
  mkFlit 0 w.ack 3 0 pl

/-- R336: the active set that an INIT of the partner leads to. -/
def State.initActive (s : State) (q : Nat) (b : Bytes) : Nat :=
  let lanes := fieldLE b 5 1
  s.usable q ((s.wglOf q).trained &&& lanes) &&& (15 ^^^ (lanes / 16))

/-- R336: the offset of the first field that disagrees. -/
def State.initBad (s : State) (q : Nat) (p b : Bytes) : Option Nat :=
  let checks : List (Nat × Bool) :=
    [(0, fieldLE b 0 2 != 0x100), (2, fieldLE b 2 1 != wpPeer p), (4, fieldLE b 4 1 != (wpFec p).toNat),
     (5, popcount 4 (s.initActive q b) < max (wpMinLanes p) (fieldLE b 6 1)), (7, bitAt (fieldLE b 7 1) 1 != wpPair p)]
  (checks.find? (·.2)).map (·.1)

/-- R344: every message that the port holds is discarded, each request counted. -/
def State.loseHeld (s : State) (q : Nat) : State :=
  let n := ((s.wglOf q).tx.filter fun m => m.vl != 0).length
  let s := s.modWgl q fun w => { w with tx := [] }
  if n == 0 then s else (s.bump (Reg.wglCountBLost q) n).evt 0x600A q

/-- R344: the partner has started afresh. -/
def State.partnerFresh (s : State) (q : Nat) : State :=
  let s := (s.loseHeld q).modWgl q fun w => { w with windows := [], running := [], inbox := [], part := [], tapBad := [], replay := [] }
  ((s.chainsPortLost q).timePortLost q).pairPortLost q

/-- R344: every held message is sent anew, whole. -/
def Wgl.resend (w : Wgl) : Wgl := { w with tx := w.tx.map fun m => { m with left := flitsOf m.bytes } }

/-- R336, R338, R344: both sides agree: the link is UP. After a RETRAIN the replay goes on from the partner's NEXT_RX_SEQ; after
an INIT everything held is sent again. -/
def State.linkUpNow (s : State) (q : Nat) (p b : Bytes) : State :=
  let again := s.linkState q == 6
  let next := fieldLE b 8 2 % 4096
  let s := if bitAt (fieldLE b 7 1) 0 then s.partnerFresh q else s
  let s := match (s.wglOf q).downAt with
    | some t => if t + wpHold p < s.now then s.loseHeld q else s
    | none => s
  let s := ((((s.wr (Reg.wglStatusActive q) (s.initActive q b)).wr (Reg.wglStatusMode q) (wpFec p).toNat).wr
    (Reg.wglStatusPair q) (wpPair p).toNat).incr (Reg.wglStatusLinkUps q)).setLink q 5
  let s := s.modWgl q fun w =>
    let w := { w with fresh := false, phase := 0, replays := 0, progress := s.now, nakAt := none, downAt := none,
                      laneErrs := [], marks := [], masks := [], limitedAt := [], retireReq := 0 }
    if again then
      let held := w.replay.filter fun h => (h.seq + 4096 - next) % 4096 < 2048
      held.foldl (fun w h => w.emit s.now h) { w with replay := held, txSeq := if w.replay.isEmpty then next else w.txSeq }
    else
      ({ w with replay := [], txSeq := next, sent := [0, 0, 0, 0], peerFreed := [0, 0, 0, 0],
                freed := [0, 0, 0, 0] } : Wgl).resend
  let s := if again then s else s.chainsPortUp q
  s.wglPump q

/-- R335: WGL_DETECT: the lanes on which a far-end receiver is found. -/
def execWglDetect (quad lanes : BitVec 4) (s : State) : Host.Outcome State Fault Refusal :=
  let q := quad.toNat
  .next <| match s.wgPort q with
    | none => s
    | some p =>
      if !s.portOn q || s.linkState q != 1 then s else
      let l := s.usable q lanes.toNat
      let s := [0, 1, 2, 3].foldl (fun s i => s.wr (laneField q i 40 1) (bitAt lanes.toNat i).toNat) s
      if popcount 4 l < wpMinLanes p then s else s.setLink q 2

/-- R335: WGL_TRAIN_DONE: the lanes that have completed training. -/
def execWglTrainDone (quad lanes : BitVec 4) (s : State) : Host.Outcome State Fault Refusal :=
  let q := quad.toNat
  .next <| match s.wgPort q with
    | none => s
    | some p =>
      if !s.portOn q || s.linkStage q != 2 then s else
      let l := s.usable q lanes.toNat
      let s := [0, 1, 2, 3].foldl (fun s i => s.wr (laneField q i 41 1) (bitAt l i).toNat) s
      if popcount 4 l < wpMinLanes p then s
      else (s.modWgl q fun w => { w with trained := l }).nextStage q 3

/-- R335, R353: WGL_TRAIN_TIMEOUT: 100 ms. -/
def execWglTrainTimeout (quad : BitVec 4) (s : State) : Host.Outcome State Fault Refusal :=
  let q := quad.toNat
  .next <| if s.linkState q == 2 && 100000000 ≤ s.inState q then s.trainFail q else s

/-- R335: WGL_ALIGN_DONE: INIT flits are sent. -/
def execWglAlignDone (quad : BitVec 4) (s : State) : Host.Outcome State Fault Refusal :=
  let q := quad.toNat
  .next <| match s.wgPort q with
    | none => s
    | some p =>
      if !s.portOn q || s.linkStage q != 3 then s else
      let s := s.nextStage q 4
      s.modWgl q fun w => { w with wire := w.wire ++ [s.initFlit q p] }

/-- R335, R353: WGL_ALIGN_TIMEOUT: 10 ms. -/
def execWglAlignTimeout (quad : BitVec 4) (s : State) : Host.Outcome State Fault Refusal :=
  let q := quad.toNat
  .next <| if s.linkState q == 3 && 10000000 ≤ s.inState q then s.trainFail q else s

/-- R335, R353: WGL_INIT_TIMEOUT: 1 ms. -/
def execWglInitTimeout (quad : BitVec 4) (s : State) : Host.Outcome State Fault Refusal :=
  let q := quad.toNat
  .next <| if s.linkState q == 4 && 1000000 ≤ s.inState q then (s.setLink q 1).evt 0x6002 q else s

/-- R335: an UP link asked to RETRAIN through WGL.CTL. -/
def State.retrainCmd (s : State) (q : Nat) : State := if s.portOn q && s.wglUp q then s.toRetrain q else s

/-- R335: WGL_RETRAIN_CMD. -/
def execWglRetrainCmd (quad : BitVec 4) (s : State) : Host.Outcome State Fault Refusal :=
  .next <| s.gated (s.chanGate (quadCh quad.toNat)) fun s => s.retrainCmd quad.toNat

/-- R335: WGL_LANE_LOCK_LOSS. -/
def execWglLaneLockLoss (quad : BitVec 4) (lane : BitVec 2) (s : State) : Host.Outcome State Fault Refusal :=
  let q := quad.toNat
  .next <| if s.portOn q && s.wglUp q && bitAt (s.rd (Reg.wglStatusActive q)) lane.toNat then
      (s.wr (laneField q lane.toNat 41 1) 0).toRetrain q
    else s

/-- R335, R344, R353: WGL_RETRAIN_TIMEOUT: after 10 ms the link goes DOWN: replay buffers and partial messages are discarded, and
it starts again from DETECT. -/
def execWglRetrainTimeout (quad : BitVec 4) (s : State) : Host.Outcome State Fault Refusal :=
  let q := quad.toNat
  .next <| if s.linkState q != 6 || s.inState q < 10000000 then s else
    let s := (s.evt 0x6004 q).modWgl q fun w =>
      ({ w with replay := [], part := [], tapBad := [], phase := 0, downAt := some s.now } : Wgl).resend
    (((s.setLink q 1).chainsPortLost q).timePortLost q).pairPortLost q

/-! ### Flits -/

/-- R337: a received flit is corrupt: a bad CRC, a reserved TYPE or a zero bit that is set. -/
def badFlit (f : Bytes) : Bool :=
  f.length != 72 || fieldLE f 68 4 != crc32 (f.take 68) || 3 < bits (fieldLE f 64 4) 24 4 || bits (fieldLE f 64 4) 30 2 != 0

/-- SEQ of a flit. -/
def flSeq (f : Bytes) : Nat := bits (fieldLE f 64 4) 0 12
/-- ACK of a flit. -/
def flAck (f : Bytes) : Nat := bits (fieldLE f 64 4) 12 12
/-- TYPE of a flit. -/
def flType (f : Bytes) : Nat := bits (fieldLE f 64 4) 24 4
/-- VL of a flit. -/
def flVl (f : Bytes) : Nat := bits (fieldLE f 64 4) 28 2

/-- R336, R344: WGL_INIT_FLIT. A disagreement in RETRAIN is recorded and the RETRAIN goes on. -/
def execWglInitFlit (quad : BitVec 4) (flit : Bytes) (s : State) : Host.Outcome State Fault Refusal :=
  let q := quad.toNat
  .next <| match s.wgPort q with
    | none => s
    | some p =>
      if !s.portOn q || s.linkStage q != 4 then s
      else if badFlit flit then (s.bump (Reg.wglCountACrcFail q)).evt 0x6005 q
      else if flType flit != 3 then s
      else
        let b := flit.take 64
        let s := s.wr (Reg.wglStatusPeerDev q) (fieldLE b 2 1)
        match s.initBad q p b with
        | some o =>
          let s := (s.wr (Reg.wglStatusInitField q) o).evt 0x6002 q
          if s.linkState q == 4 then s.setLink q 1 else s
        | none => s.linkUpNow q p b

/-- R338: a flit is discarded: it is counted, and one NAK is sent until a flit is accepted or ACK_TIMEOUT has passed. -/
def State.discardFlit (s : State) (q : Nat) (p : Bytes) : State :=
  let s := (s.bump (Reg.wglCountACrcFail q)).evt 0x6005 q
  let w := s.wglOf q
  let quiet : Bool := match w.nakAt with
    | some t => decide (s.now < t + wpAckTimeout p)
    | none => false
  if quiet then s else
  s.modWgl q fun w => { w with nakAt := some s.now, wire := w.wire ++ [mkFlit 0 w.ack 2 0 w.report] }

/-- R338: the sender replays every held flit, or goes to RETRAIN after eight replays without progress. -/
def State.replayFlits (s : State) (q : Nat) : State :=
  let w := s.wglOf q
  if w.replay.isEmpty then s
  else if 8 ≤ w.replays then s.toRetrain q
  else
    let s := s.bump (Reg.wglCountAReplays q)
    s.modWgl q fun w => w.replay.foldl (fun w h => w.emit s.now h) { w with replays := w.replays + 1, progress := s.now }

/-- R338: flits up to an acknowledged SEQ leave the replay buffer. None where the SEQ is one never sent. -/
def Wgl.acked (w : Wgl) (a now : Nat) : Option Wgl :=
  let first := match w.replay.head? with
    | some h => h.seq
    | none => w.txSeq
  if a == (first + 4095) % 4096 then some w
  else if w.replay.any fun h => h.seq == a then
    some { w with replay := (w.replay.dropWhile fun h => h.seq != a).drop 1, replays := 0, progress := now }
  else none

/-- R335, R338: the ACK of a flit that is acted on. -/
def State.takeAck (s : State) (q a : Nat) : State :=
  match (s.wglOf q).acked a s.now with
  | some w => (s.modWgl q fun _ => w).wglPump q
  | none => s.toRetrain q

/-- R339: flits of a virtual lane are freed; the change is reported in a NULL flit. -/
def Wgl.free (w : Wgl) (vl n : Nat) : Wgl :=
  if n == 0 then w else
  let w := { w with freed := w.freed.set vl ((w.freed.getD vl 0 + n) % 65536) }
  { w with wire := w.wire ++ [mkFlit 0 w.ack 0 0 w.report] }

/-- R341: the flits of a message. -/
def msgFlits (bs : Bytes) : Nat := cdiv bs.length 64

/-- R339, R341: a MSG flit enters its virtual lane; a message is complete at its last flit. The flits of the oldest message
of a lane are freed as they come, and those of VL0 at once. -/
def Wgl.take (w : Wgl) (vl : Nat) (p : Bytes) (tapBad : Bool) (now : Nat) : Wgl :=
  let all := sget [] w.part vl ++ p
  let bad := tapBad || w.tapBad.contains vl
  let head := !(w.inbox.any fun m => m.vl == vl)
  let len := 32 + fieldLE all 6 2
  let w := if cdiv len 64 * 64 ≤ all.length then
      { w with part := sset [] w.part vl [], tapBad := w.tapBad.erase vl,
               inbox := w.inbox ++ [{ vl := vl, bytes := all.take len, tick := now, tapBad := bad }] }
    else { w with part := sset [] w.part vl all, tapBad := if bad then insNat vl w.tapBad else w.tapBad }
  if head || vl == 0 then w.free vl 1 else w

/-- R334, R338, R419: WGL_MSG_FLIT: `fec` is what the codewords it touches show, `tap` what the input tap makes of it. -/
def execWglMsgFlit (quad : BitVec 4) (flit : Bytes) (fec : FecSeen) (tap : TapErr) (s : State) :
    Host.Outcome State Fault Refusal :=
  let q := quad.toNat
  .next <| match s.wgPort q with
    | none => s
    | some p =>
      if !s.portOn q || !s.wglUp q then s else
      let s := if fec == .corrected then s.bump (Reg.wglCountAFecCorr q) else s
      if fec == .uncorrectable then ((s.bump (Reg.wglCountAFecUncorr q)).evt 0x6006 q).discardFlit q p
      else if badFlit flit then s.discardFlit q p
      else if flType flit != 1 then s
      else if flSeq flit != (s.wglOf q).rxSeq then s.discardFlit q p
      else
        let paired := s.isPair (quadCh q) && s.configured (partnerOf (quadCh q))
        let bad := paired && tap != .none
        let s := s.modWgl q fun w =>
          ({ w with rxSeq := (w.rxSeq + 1) % 4096, nakAt := none } : Wgl).take (flVl flit) (flit.take 64) bad s.now
        let s := if bad then s.channelFault (quadCh q) 0x9007 else s
        s.takeAck q (flAck flit)

/-- R340: a lane is retired: it leaves the active set, enters the list of the binding memory, and `ask` has the partner
drop it. -/
def State.retireLane (s : State) (q lane : Nat) (ask : Bool) : State :=
  let s := (((s.setBit (Reg.wglStatusRetired q) lane).clrBit (Reg.wglStatusActive q) lane).wr (laneField q lane 42 1) 1).evt 0x6007 q
  let s := { s with img := { s.img with retired := s.img.retired ++ [(q, lane, s.now, 0x6007)] } }
  s.modWgl q fun w => { w with
    laneErrs := w.laneErrs.filter fun e => e.1 != lane,
    retireReq := if ask then w.retireReq ||| 2 ^ lane else w.retireReq }

/-- R340: a lane at its threshold or named in RETIRE_REQ is retired while more than MIN_LANES lanes are active. -/
def State.wantRetire (s : State) (q lane : Nat) (p : Bytes) (ask : Bool) : State :=
  if !bitAt (s.rd (Reg.wglStatusActive q)) lane then s
  else if wpMinLanes p < popcount 4 (s.rd (Reg.wglStatusActive q)) then s.retireLane q lane ask
  else
    let w := s.wglOf q
    let m := sget 0 w.marks lane
    let at_ := sget 0 w.limitedAt lane
    if at_ != 0 && m < at_ - 1 + wpRetireWindow p then s
    else (s.modWgl q fun w => { w with limitedAt := sset 0 w.limitedAt lane (m + 1) }).evt 0x6014 q

/-- R339: the freed counts and RETIRE_REQ of a NULL or NAK flit, and its ACK. -/
def State.takeReport (s : State) (q : Nat) (p flit : Bytes) : State :=
  let s := s.modWgl q fun w => { w with peerFreed := (List.range 4).map fun i => fieldLE flit (2 * i) 2 }
  let s := (List.range 4).foldl (fun s i =>
    if bitAt (fieldLE flit 8 1) i then s.wantRetire q i p false else s) s
  s.takeAck q (flAck flit)

/-- R339: WGL_NULL_FLIT. -/
def execWglNullFlit (quad : BitVec 4) (flit : Bytes) (s : State) : Host.Outcome State Fault Refusal :=
  let q := quad.toNat
  .next <| match s.wgPort q with
    | none => s
    | some p =>
      if !s.portOn q || !s.wglUp q then s
      else if badFlit flit then s.discardFlit q p
      else if flType flit != 0 then s
      else s.takeReport q p flit

/-- R338: WGL_NAK_FLIT. -/
def execWglNakFlit (quad : BitVec 4) (flit : Bytes) (s : State) : Host.Outcome State Fault Refusal :=
  let q := quad.toNat
  .next <| match s.wgPort q with
    | none => s
    | some p =>
      if !s.portOn q || !s.wglUp q then s
      else if badFlit flit then s.discardFlit q p
      else if flType flit != 2 then s
      else
        let s := s.takeReport q p flit
        if s.wglUp q then s.replayFlits q else s

/-- R338: ACK_TIMEOUT. -/
def execAckTimeout (quad : BitVec 4) (s : State) : Host.Outcome State Fault Refusal :=
  let q := quad.toNat
  .next <| match s.wgPort q with
    | none => s
    | some p =>
      if s.portOn q && s.wglUp q && !(s.wglOf q).replay.isEmpty && (s.wglOf q).progress + wpAckTimeout p ≤ s.now then
        s.replayFlits q
      else s

/-- R344: MSG_HOLD. -/
def execMsgHold (quad : BitVec 4) (s : State) : Host.Outcome State Fault Refusal :=
  let q := quad.toNat
  .next <| match s.wgPort q, (s.wglOf q).downAt with
    | some p, some t =>
      if s.wglUp q || s.now < t + wpHold p then s
      else (s.loseHeld q).modWgl q fun w => { w with downAt := none }
    | _, _ => s

/-! ### Markers (R333, R340) -/

/-- R333: the CRC-8 of a marker portion, polynomial 0x07. -/
def crc8 (bs : Bytes) : Nat :=
  bs.foldl (fun c b => (List.range 8).foldl (fun c _ => if 128 ≤ c then (2 * c) % 256 ^^^ 7 else 2 * c) (c ^^^ b.toNat)) 0

/-- R340: errors of a lane over its last RETIRE_WINDOW markers. -/
def Wgl.windowErrs (w : Wgl) (lane n : Nat) : Nat :=
  total ((w.laneErrs.filter fun e => e.1 == lane && sget 0 w.marks lane < e.2.1 + n).map fun e => e.2.2)

/-- R340: errors counted on a lane at a marker. -/
def State.laneErrors (s : State) (q lane n : Nat) (p : Bytes) : State :=
  let s := s.bump (laneField q lane 0 16) n
  let win := wpRetireWindow p
  let s := s.modWgl q fun w =>
    let m := sget 0 w.marks lane + 1
    { w with marks := sset 0 w.marks lane m,
             laneErrs := (if n == 0 then [] else [(lane, m, n)])
               ++ w.laneErrs.filter fun e => !(e.1 == lane && e.2.1 + win ≤ m) }
  if s.rd (Reg.wglCtlRetireEn q) == 1 && wpRetireLimit p ≤ (s.wglOf q).windowErrs lane win then s.wantRetire q lane p true else s

/-- R333, R340: the ACTIVE_MASK of a good portion: a disagreement with another lane's portion of the same marker, a lane that the
partner has dropped, or a request of this port that the partner has answered. -/
def State.takeMask (s : State) (q lane count mask : Nat) : State :=
  let w := s.wglOf q
  if w.masks.any fun e => e.1 != lane && e.2.1 == count && e.2.2 != mask then s.toRetrain q
  else
    let s := s.modWgl q fun w => { w with
      masks := (lane, count, mask) :: w.masks.filter fun e => e.1 != lane, retireReq := w.retireReq &&& mask }
    s.wr (Reg.wglStatusActive q) (s.rd (Reg.wglStatusActive q) &&& mask)

/-- R333, R340: WGL_MARKER: the portion received on a lane, the parity of the bytes the lane has carried since its last marker,
and the symbols that the FEC has corrected on it. -/
def execWglMarker (quad : BitVec 4) (lane : BitVec 2) (portion : Bytes) (parity : BitVec 8) (symbols : Nat) (s : State) :
    Host.Outcome State Fault Refusal :=
  let q := quad.toNat
  let l := lane.toNat
  .next <| match s.wgPort q with
    | none => s
    | some p =>
      if !s.portOn q || !s.wglUp q || !bitAt (s.rd (Reg.wglStatusActive q)) l then s else
      let n := portion.length
      let good := 6 ≤ n && crc8 (portion.take (n - 1)) == fieldLE portion (n - 1) 1
      let errs := if wpFec p then symbols
        else if good then popcount 8 (parity.toNat ^^^ fieldLE portion 4 1) else 8
      let s := s.laneErrors q l errs p
      if good && s.wglUp q then s.takeMask q l (fieldLE portion 2 2) (fieldLE portion 1 1 % 16) else s

/-! ### The disposition of messages (R343) -/

/-- The oldest complete message of a virtual lane. -/
def Wgl.headOf (w : Wgl) (vl : Nat) : Option RxMsg := w.inbox.find? fun m => m.vl == vl

/-- R339: a message is consumed: the flits of the next one of its lane, whole or partial, are freed. -/
def State.consume (s : State) (q : Nat) (m : RxMsg) : State :=
  s.modWgl q fun w =>
    let w := { w with inbox := w.inbox.erase m }
    if m.vl == 0 then w
    else match w.headOf m.vl with
      | some n => w.free m.vl (msgFlits n.bytes)
      | none => w.free m.vl ((sget [] w.part m.vl).length / 64)

/-- MTYPE of a message. -/
def mType (b : Bytes) : Nat := fieldLE b 0 1
/-- SRC_DEV. -/
def mSrc (b : Bytes) : Nat := fieldLE b 2 1
/-- STREAM. -/
def mStream (b : Bytes) : Nat := fieldLE b 4 1
/-- MSG_ID. -/
def mId (b : Bytes) : Nat := fieldLE b 8 4
/-- ARG. -/
def mArg (b : Bytes) : Bytes := slice b 16 16

/-- R343: the completion window of a source and stream. -/
def Wgl.window (w : Wgl) (src stream : Nat) : List (Nat × Nat) :=
  match w.windows.find? fun c => c.src == src && c.stream == stream with
  | some c => c.entries
  | none => []

/-- R343: an identity is recorded with its STATUS: the window keeps the 1024 most recent. -/
def Wgl.record (w : Wgl) (src stream id status : Nat) : Wgl :=
  let l := w.window src stream ++ [(id, status)]
  { w with windows := { src := src, stream := stream, entries := l.drop (l.length - 1024) }
      :: w.windows.filter fun c => !(c.src == src && c.stream == stream) }

/-- R341, R345, R349, R421: the KIND of stream that an MTYPE travels on. -/
def streamKind (mtype : Nat) : Option Nat :=
  match mtype with
  | 1 => some 0 | 2 => some 1 | 3 => some 2 | 4 => some 2 | 5 => some 3 | 6 => some 4
  | _ => none

/-- R341, R360, R421: a zero field of a request's header or ARG is not zero, or a field has a value that is not listed. -/
def badFields (b : Bytes) : Bool :=
  let a := mArg b
  fieldLE b 1 1 != 0 || fieldLE b 5 1 != 0 || fieldLE b 14 2 != 0
  || match mType b with
    | 1 => fieldLE a 0 16 != 0
    | 2 => bits (fieldLE a 0 8) 10 10 != 0 || fieldLE a 0 16 / 2 ^ 41 != 0 || bits (fieldLE a 0 8) 20 3 != 0
    | 3 => fieldLE a 14 2 / 2 != 0
    | 4 => fieldLE a 6 1 / 2 != 0 || fieldLE a 7 9 != 0 || b.length != 32
    | 5 => 5 < fieldLE a 8 1 || 7 < fieldLE a 9 1 || fieldLE a 12 4 != 0
    | 6 => 4 < fieldLE a 0 1 || 1 < fieldLE a 1 1 || fieldLE a 3 13 != 0
    | _ => false

/-- R343: the third row of Table 17-6. -/
def State.badRequest (s : State) (q : Nat) (m : RxMsg) : Bool :=
  let b := m.bytes
  let peer := (s.wgPort q).map wpPeer
  match streamKind (mType b), s.wgStream q (mStream b) with
  | some k, some e =>
    vlOf (mType b) != m.vl || badFields b || 16384 < fieldLE b 6 2 || fieldLE b 6 2 % 8 != 0
      || fieldLE b 3 1 != s.devId || some (mSrc b) != peer || wsKind e != k || !wsRx e
      || (((s.wgPort q).map wpPair).getD false && mType b < 5)
  | _, _ => true

/-- R343, R296: MSG_ID at or below the oldest entry of a window. -/
def staleId (l : List (Nat × Nat)) (id : Nat) : Bool :=
  match l with
  | [] => false
  | e :: _ => (e.1 + 2 ^ 32 - id) % 2 ^ 32 < 2 ^ 31

/-- R343: the row of Table 17-6 for a complete request, from 1 to 5. -/
def State.disposition (s : State) (q : Nat) (m : RxMsg) : Nat :=
  let b := m.bytes
  let w := s.wglOf q
  let l := w.window (mSrc b) (mStream b)
  if l.any fun e => e.1 == mId b then 1
  else if w.running.any fun r => r.src == mSrc b && r.stream == mStream b && r.id == mId b then 1
  else if staleId l (mId b) then 2
  else if s.badRequest q m then 3
  else if (s.dsp (quadCh q)).drain then 4
  else 5

/-- R405, Table 20-4: a WAGGLE entry of the Hoard. -/
def State.recordWaggle (s : State) (q : Nat) (m : RxMsg) (row : Nat) : State :=
  let b := m.bytes
  s.hrdRecord 0x30 (quadCh q) (mSrc b + mStream b * 2 ^ 8 + mId b * 2 ^ 16 + q * 2 ^ 48 + row * 2 ^ 52) b

/-- R343: a request has been dispositioned or executed: its STATUS is recorded and its MACK sent. -/
def State.finishReq (s : State) (q src stream id status : Nat) : State :=
  (s.modWgl q fun w => { w with
    running := w.running.filter fun r => !(r.src == src && r.stream == stream && r.id == id) }.record src stream id status).wglMack
      q stream id status

/-- R343: rows 1 to 4 of Table 17-6. -/
def State.notExecuted (s : State) (q : Nat) (m : RxMsg) (row : Nat) : State :=
  let b := m.bytes
  match row with
  | 1 =>
    let s := (s.bump (Reg.wglCountBDuplicate q)).evt 0x6008 q
    match ((s.wglOf q).window (mSrc b) (mStream b)).find? fun e => e.1 == mId b with
    | some e => s.wglMack q (mStream b) (mId b) e.2
    | none => s
  | 2 => ((s.bump (Reg.wglCountBStale q)).evt 0x6009 q).wglMack q (mStream b) (mId b) 0x6009
  | 3 => (s.evt 0x600C q).finishReq q (mSrc b) (mStream b) (mId b) 0x600C
  | _ => (s.evt 0x600E q).finishReq q (mSrc b) (mStream b) (mId b) 0x600E

/-! ### The execution of messages (R345) -/

/-- R419: the channels that execute a request of a port: in a pair both members, the follower unless its tap lost it. -/
def State.rxChs (s : State) (q : Nat) (m : RxMsg) : List Nat :=
  let c := quadCh q
  if s.isPair c && s.configured (partnerOf c) && !m.tapBad then [c, partnerOf c] else [c]

/-- R345: pieces of a DATA message as mesh messages from a quad to a cell. -/
def State.sendPieces (s : State) (q ch cell stream src id : Nat) (b : Bytes) : State :=
  let n := cdiv b.length 512
  (List.range n).foldl (fun s i =>
    let p := (b.drop (512 * i)).take 512
    let qq := 4 * ch + q % 4
    s.post { kind := .msg, src := .quad qq, dst := .cell (cellId ch (rowOf cell) (colOf cell)), payload := p,
             arg := BitVec.ofNat 64 (qq + 2 ^ 10 + stream * 2 ^ 16 + p.length * 2 ^ 32
               + (i % 2 ^ 15 + (if i + 1 == n then 2 ^ 15 else 0)) * 2 ^ 48),
             origin := { slot := src, lane := stream, reg := id, use := q } }) s

/-- R345, R343: a DATA message to a cell: its MACK waits for every piece. -/
def State.dataToCell (s : State) (q : Nat) (m : RxMsg) (cell : Nat) : State :=
  let b := m.bytes
  let chs := s.rxChs q m
  let s := s.modWgl q fun w => { w with running := w.running ++
    [{ src := mSrc b, stream := mStream b, id := mId b, left := chs.length * cdiv b.length 512 }] }
  chs.foldl (fun s c => s.sendPieces q c cell (mStream b) (mSrc b) (mId b) b) s

/-- R345, R455: a DATA message to the host: none while it waits for staging room. -/
def State.dataToHost (s : State) (q : Nat) (m : RxMsg) : Option State :=
  let b := m.bytes
  let tag := fieldLE b 12 2
  let qu := tag % 64
  if 64 ≤ tag || !s.queueUp qu then some (s.finishReq q (mSrc b) (mStream b) (mId b) 0xB006)
  else if s.stagingFree < recBytes b.length then none
  else
    let s := s.modWgl q fun w => { w with running := w.running ++
      [{ src := mSrc b, stream := mStream b, id := mId b, left := 1 }] }
    some (s.stage { queue := qu, kind := 3, ch := quadCh q, srcKind := 1, src := q, tag := tag, user := 0, body := b,
                    mack := some (q, mSrc b, mStream b, mId b) })

/-- R345, R378: the effect of a DATA message on its stream's sink; none while it waits. A TRIGGER over Waggle inherits T only
on a qualified device of a formed group. -/
def State.execData (s : State) (q : Nat) (m : RxMsg) : Option State :=
  let b := m.bytes
  match s.wgStream q (mStream b) with
  | none => some s
  | some e =>
    match wsSink e with
    | 0 => some (s.dataToCell q m (wsSinkCell e))
    | 1 => some (((s.rxChs q m).foldl (fun s c => s.triggerMsg c (b.drop 32) s.qualified) s).finishReq
        q (mSrc b) (mStream b) (mId b) 0)
    | _ => s.dataToHost q m

/-- R102, R345: the STORE packets of a write to a cell, 512 bytes each: the first cause of a refusal, or 0. -/
def State.storePackets : Nat → State → Nat → Nat → Nat → Bytes → Nat → State × Nat
  | 0, s, _, _, _, _, c => (s, c)
  | fuel + 1, s, ch, id, off, bs, c =>
    if bs.isEmpty then (s, c) else
    let p := bs.take 512
    let (s, x) := match s.closedOn ch (chOf id) with
      | some e => (s.countEnd e, 0x4007)
      | none => s.inboundStore id off p
    State.storePackets fuel s ch id (off + 512) (bs.drop 512) (if c == 0 then x else c)

/-- R345: a STORE written to its logical cell. In a pair the follower's copy goes to the same cell of its own channel. -/
def State.execStoreMsg (s : State) (q : Nat) (m : RxMsg) : State :=
  let b := m.bytes
  let a := fieldLE (mArg b) 0 8
  let id := bits a 0 10
  let off := bits a 20 21
  let (s, status) :=
    if !isLogical id then (s, 0x3033)
    else if 0x180000 < off + (b.length - 32) then (s, 0x3030)
    else (s.rxChs q m).foldl (fun x c =>
      if c != quadCh q && chOf id != quadCh q then x else
      let t := if c == quadCh q then id else cellId c (rowOf id) (colOf id)
      let (s, r) := State.storePackets 33 x.1 c t off (b.drop 32) 0
      (s, if x.2 == 0 then r else x.2)) (s, 0)
  s.finishReq q (mSrc b) (mStream b) (mId b) status

/-- R348, R349: a CHAIN or ANNOUNCE message at the relays of its channel. -/
def State.execChainMsg (s : State) (q : Nat) (m : RxMsg) : State :=
  let b := m.bytes
  let way := some (q % 4, mStream b)
  let (s, status) := (s.rxChs q m).foldl (fun x c =>
    let (s, r) := if mType b == 3 then x.1.forwardTo c way (mArg b) (b.drop 32) else x.1.announceAt c way (mArg b)
    (s, if x.2 == 0 then r else x.2)) (s, 0)
  let s := if status == 0x600C then s.evt 0x600C q else s
  s.finishReq q (mSrc b) (mStream b) (mId b) status

/-- R343, R409: a row of Table 17-6 applied to the oldest request of a virtual lane. `f` executes it, or none while it waits; a
request that is not executed is taken by any command of its lane. A replay drops live requests. -/
def State.onRequest (s : State) (q vl : Nat) (want : Bytes → Bool) (f : State → RxMsg → Option State) : State :=
  if !s.portOn q then s else
  match (s.wglOf q).headOf vl with
  | none => s
  | some m =>
    if s.liveIgnored then (s.consume q m).ignoreLive else
    let row := s.disposition q m
    if row != 5 then ((s.consume q m).recordWaggle q m row).notExecuted q m row
    else if !want m.bytes then s
    else match f ((s.consume q m).recordWaggle q m 5) m with
      | some s => s
      | none => s

/-- R345: WGL_DATA. -/
def execWglData (quad : BitVec 4) (s : State) : Host.Outcome State Fault Refusal :=
  .next <| s.onRequest quad.toNat 3 (fun b => mType b == 1) fun s m => s.execData quad.toNat m

/-- R345: WGL_STORE. -/
def execWglStore (quad : BitVec 4) (s : State) : Host.Outcome State Fault Refusal :=
  .next <| s.onRequest quad.toNat 3 (fun b => mType b == 2) fun s m => some (s.execStoreMsg quad.toNat m)

/-- R348: WGL_CHAIN. -/
def execWglChain (quad : BitVec 4) (s : State) : Host.Outcome State Fault Refusal :=
  .next <| s.onRequest quad.toNat 2 (fun b => mType b == 3) fun s m => some (s.execChainMsg quad.toNat m)

/-- R349: WGL_ANNOUNCE. -/
def execWglAnnounce (quad : BitVec 4) (s : State) : Host.Outcome State Fault Refusal :=
  .next <| s.onRequest quad.toNat 2 (fun b => mType b == 4) fun s m => some (s.execChainMsg quad.toNat m)

/-- R343: a malformed MACK. -/
def State.badMack (s : State) (q : Nat) (b : Bytes) : Bool :=
  mType b != 7 || fieldLE b 1 1 != 0 || some (mSrc b) != (s.wgPort q).map wpPeer || fieldLE b 3 1 != s.devId
    || fieldLE b 4 4 != 0 || fieldLE b 8 8 != 0 || fieldLE b 17 3 != 0 || fieldLE b 26 6 != 0

/-- R343, R344: WGL_MACK: the message it answers leaves the transmit store. -/
def execWglMack (quad : BitVec 4) (s : State) : Host.Outcome State Fault Refusal :=
  let q := quad.toNat
  .next <| if !s.portOn q then s else
    match (s.wglOf q).headOf 0 with
    | none => s
    | some m =>
      let s := s.consume q m
      let b := m.bytes
      if s.badMack q b then (s.bump (Reg.wglCountACrcFail q)).evt 0x6005 q
      else
        let mine := fun t : TxMsg => t.vl != 0 && t.stream == fieldLE b 16 1 && t.id == fieldLE b 20 4
        if !(s.wglOf q).tx.any mine then s else
        let s := s.modWgl q fun w => { w with tx := w.tx.filter fun t => !mine t }
        if fieldLE b 24 2 == 0 then s else (s.bump (Reg.wglCountBRefused q)).evt 0x600D q

/-- R343, R345: a piece of a DATA message has been performed or refused: with the last one its execution has finished. -/
def State.pieceSettled (s : State) (o : Origin) (status : Nat) : State :=
  let q := o.use
  let mine := fun r : RxRun => r.src == o.slot && r.stream == o.lane && r.id == o.reg
  match (s.wglOf q).running.find? mine with
  | none => s
  | some r =>
    let st := if r.status == 0 then status else r.status
    if r.left ≤ 1 then s.finishReq q r.src r.stream r.id st
    else s.modWgl q fun w => { w with running := w.running.map fun x => if mine x then { x with left := x.left - 1, status := st } else x }

end Sys2Proof.Machine
end

