-- ==== Sys2Proof/Machine/HostSub.lean ====
section
/-! DEFINITION. The host's queues: configuration and doorbells (R442, R443), submissions and their checks (R444 to R446), and the
data rings (R453). -/
namespace Sys2Proof.Machine

/-! ### Staged records -/

/-- R448, R455: a staged record is written, or lost with a status: the completion and the MACK that wait for it follow. -/
def State.stagedDone (s : State) (r : Staged) (status : Nat) : State :=
  let s := match r.ref with
    | some (ch, q, id) =>
      let h : HostRef := { queue := q, id := id }
      (s.modDisp ch fun x => { x with
        hostDone := x.hostDone.map fun d => if isDone h d then { d with outPending := false } else d }).tryFinish ch h
    | none => s
  match r.mack with
  | some (q, src, stream, id) => s.pieceSettled { slot := src, lane := stream, reg := id, use := q } status
  | none => s

/-- R442, R460: the records of the queues that `gone` names are discarded and counted. -/
def State.dropStaged (s : State) (gone : Nat → Bool) : State :=
  let l := (s.host.staged ++ s.host.waitingOut).filter fun r => gone r.queue
  let s := { s with host := { s.host with staged := s.host.staged.filter fun r => !gone r.queue,
                                          waitingOut := s.host.waitingOut.filter fun r => !gone r.queue } }
  l.foldl (fun s r => (s.bump Reg.hostCountDropped).stagedDone r 0xB006) s

/-- R442: what stopping a queue means for what it has taken and staged. -/
def State.dropQueue (s : State) (q : Nat) : State :=
  let s := s.modQueue q fun x => { x with jobs := x.jobs.map fun j => { j with lost := true } }
  let s := { s with host := { s.host with reads := s.host.reads.filter fun r => !(r.use == 1 && r.queue == q) } }
  State.stageWaiting 64 (s.dropStaged fun n => n == q)

/-- R443: a queue error. -/
def State.queueFail (s : State) (q : Nat) : State := (s.queueErr q).dropQueue q

/-! ### Configuration and doorbells -/

/-- R442: ENABLE = 1. The host's pointers start at 0 with the device's. -/
def State.queueEnable (s : State) (q : Nat) : State :=
  s.modQueue q fun x => { x with
    enabled := true, error := false, enableBit := true, armed := true, sqHead := 0, sqTail := 0, cqHead := 0, cqTail := 0,
    drHead := 0, drTail := 0, cqPhase := true, drPhase := true, drSeq := 0 }

/-- R442: ENABLE = 0. -/
def State.queueDisable (s : State) (q : Nat) : State :=
  (s.modQueue q fun x => { x with enabled := false, error := false, enableBit := false }).dropQueue q

/-- R442, R6: one configuration field of a queue, with its range: it changes only while ENABLE is 0. -/
def State.qField (s : State) (q old new lo hi : Nat) (f : Queue → Queue) : State :=
  if new == old then s
  else if (s.queue q).enableBit || new < lo || hi < new then s.regEncoding
  else s.modQueue q f

/-- The RW fields of HOST.Q_CTL as a number. -/
def Queue.ctl (x : Queue) : Nat :=
  x.enableBit.toNat + x.sqLog * 2 ^ 8 + x.cqLog * 2 ^ 12 + x.drLog * 2 ^ 16 + x.vector * 2 ^ 24

/-- A value whose bits under a mask are replaced. -/
def underMask (old mask v : Nat) : Nat := (old &&& (all64 ^^^ (mask &&& all64))) ||| (v &&& mask)

/-- R442: a write of HOST.Q_CTL for the selected queue. -/
def State.writeQCtl (s : State) (mask v : Nat) : State :=
  let q := s.rd Reg.hostQSelectQueue
  let x := s.queue q
  let w := underMask x.ctl mask v
  let s := s.qField q x.vector (bits w 24 7) 0 63 fun x => { x with vector := bits w 24 7 }
  let s := s.qField q x.drLog (bits w 16 5) 16 30 fun x => { x with drLog := bits w 16 5 }
  let s := s.qField q x.cqLog (bits w 12 4) 1 12 fun x => { x with cqLog := bits w 12 4 }
  let s := s.qField q x.sqLog (bits w 8 4) 1 12 fun x => { x with sqLog := bits w 8 4 }
  if bitAt w 0 && !x.enableBit then s.queueEnable q
  else if !bitAt w 0 && x.enableBit then s.queueDisable q
  else s

/-- R442: a write of HOST.Q_SQ (0x18), Q_CQ (0x20) or Q_DR (0x28) for the selected queue. -/
def State.writeQBase (s : State) (o mask v : Nat) : State :=
  let q := s.rd Reg.hostQSelectQueue
  let x := s.queue q
  let lo := if o == 0x28 then 16 else 12
  let old := if o == 0x18 then x.sqBase else if o == 0x20 then x.cqBase else x.drBase
  let new := underMask old mask v / 2 ^ lo * 2 ^ lo
  s.qField q old new 0 all64 fun x =>
    if o == 0x18 then { x with sqBase := new } else if o == 0x20 then { x with cqBase := new } else { x with drBase := new }

/-- R439, R475: an access to the GLB or HOST block. -/
def State.hostGate (s : State) : Gate := if s.held then .hold else .serve

/-- R442: a row that is a write of HOST.Q_CTL with the ENABLE it names. -/
def State.qRow (s : State) (v : Nat) (enable : Bool) : State :=
  if bitAt v 0 != enable then s else s.gated s.hostGate fun s => s.writeQCtl all64 v

/-- R442: HOST_QUEUE_ENABLE. -/
def execHostQueueEnable (data : Word) (s : State) : Host.Outcome State Fault Refusal := .next <| s.qRow data.toNat true

/-- R442: HOST_QUEUE_DISABLE. -/
def execHostQueueDisable (data : Word) (s : State) : Host.Outcome State Fault Refusal := .next <| s.qRow data.toNat false

/-- R443: the SQ tail doorbell. -/
def State.sqTail (s : State) (q v : Nat) : State :=
  if !s.queueUp q then s.modQueue q fun x => { x with sqTail := v }
  else if 2 ^ (s.queue q).sqLog ≤ v then s.queueFail q
  else s.modQueue q fun x => { x with sqTail := v }

/-- R443, R459: the CQ head doorbell. -/
def State.cqHead (s : State) (q v : Nat) : State :=
  if !s.queueUp q then s.modQueue q fun x => { x with cqHead := v }
  else if 2 ^ (s.queue q).cqLog ≤ v then s.queueFail q
  else s.modQueue q fun x => { x with cqHead := v, armed := true }

/-- R443, R459: the DR head doorbell. -/
def State.drHead (s : State) (q v : Nat) : State :=
  if !s.queueUp q then s.modQueue q fun x => { x with drHead := v }
  else if v % 64 != 0 || 2 ^ (s.queue q).drLog ≤ v then s.queueFail q
  else s.modQueue q fun x => { x with drHead := v, armed := true }

/-- R443: SQ_TAIL. -/
def execSqTail (queue : BitVec 6) (data : Word) (s : State) : Host.Outcome State Fault Refusal :=
  .next <| s.gated s.hostGate fun s => s.sqTail queue.toNat (bits data.toNat 0 30)

/-- R443: CQ_HEAD. -/
def execCqHead (queue : BitVec 6) (data : Word) (s : State) : Host.Outcome State Fault Refusal :=
  .next <| s.gated s.hostGate fun s => s.cqHead queue.toNat (bits data.toNat 0 30)

/-- R443: DR_HEAD. -/
def execDrHead (queue : BitVec 6) (data : Word) (s : State) : Host.Outcome State Fault Refusal :=
  .next <| s.gated s.hostGate fun s => s.drHead queue.toNat (bits data.toNat 0 30)

/-! ### Submissions -/

/-- OPCODE of a submission entry. -/
def seOp (e : Bytes) : Nat := fieldLE e 0 1
/-- ORDERED. -/
def seOrdered (e : Bytes) : Bool := bitAt (fieldLE e 1 1) 0
/-- BUS. -/
def seBus (e : Bytes) : Bool := bitAt (fieldLE e 1 1) 1
/-- CHANNEL. -/
def seCh (e : Bytes) : Nat := fieldLE e 2 1
/-- ENTRY. -/
def seEntry (e : Bytes) : Nat := fieldLE e 4 2
/-- ID. -/
def seId (e : Bytes) : Nat := fieldLE e 8 8
/-- SRC. -/
def seSrc (e : Bytes) : Nat := fieldLE e 0x10 8
/-- DST. -/
def seDst (e : Bytes) : Nat := fieldLE e 0x18 8
/-- LENGTH. -/
def seLen (e : Bytes) : Nat := fieldLE e 0x20 4
/-- PARAM. -/
def seParam (e : Bytes) : Nat := fieldLE e 0x24 4

/-- A range of the host range of device addresses. -/
def inHostRange (a n : Nat) : Bool := 2 ^ 51 ≤ a && a + n ≤ 2 ^ 52
/-- A range of HBM. -/
def inHbm (a n : Nat) : Bool := a + n ≤ 2 ^ 39
/-- A range of one channel's HBM. -/
def inHbmOf (ch a n : Nat) : Bool := ch * 2 ^ 37 ≤ a && a + n ≤ (ch + 1) * 2 ^ 37
/-- A range of a cell window of a channel. -/
def inWindowOf (ch a n : Nat) : Bool :=
  match placeOf a with
  | .window id off => isLogical id && chOf id == ch && off + n ≤ 0x180000
  | _ => false

/-- R445, check 1, for the operation's own fields (Table 22-3); `slot` is the size of a flash slot in bytes. -/
def seFieldsOk (e : Bytes) (slot : Nat) : Bool :=
  let ch := seCh e
  let n := seLen e
  let a := seSrc e
  let d := seDst e
  let p := seParam e
  let m := max n 1
  match seOp e with
  | 0x01 => p == 0 && n % 64 == 0 && n ≤ 2 ^ 20 && a % 64 == 0 && d % 64 == 0
      && (inHostRange a m || (n == 0 && a == 0)) && (inHbmOf ch d m || inWindowOf ch d m || (n == 0 && d == 0))
  | 0x02 => p == 0 && n % 64 == 0 && 64 ≤ n && a % 64 == 0 && d % 64 == 0
      && (if seBus e then a + n ≤ 2 ^ 64 else inHostRange a n) && (inHbm d n || inWindowOf ch d n)
  | 0x03 => p == 0 && n % 64 == 0 && 64 ≤ n && a % 64 == 0 && d % 64 == 0
      && (if seBus e then d + n ≤ 2 ^ 64 else inHostRange d n) && inHbm a n
  | 0x10 => p / 2 == 0 && d == 0 && n % 4096 == 0 && n ≤ slot && a % 64 == 0 && inHbm a n
  | 0x11 => d == 0 && p / 64 == 0 && bits p 2 2 == 0 && bits p 0 2 != 3
      && (if bits p 0 2 == 0 then n == 48 && a % 64 == 0 && inHbm a 48 else n == 0 && a == 0)
  | 0x12 => p == 0 && d == 0 && n % 64 == 0 && 512 ≤ n && n ≤ 2 ^ 23 && a % 64 == 0 && inHbm a n
  | _ => false

/-- R445, check 1. -/
def seOk (e : Bytes) (slot : Nat) : Bool :=
  fieldLE e 1 1 < 4 && seCh e < 4 && fieldLE e 3 1 == 0 && fieldLE e 6 2 == 0 && fieldLE e 0x28 24 == 0
    && (!seBus e || seOp e == 2 || seOp e == 3) && (seOp e == 1 || seEntry e == 0) && seFieldsOk e slot

/-- R445, check 2: the entry needs an admin queue. -/
def seAdmin (e : Bytes) : Bool := 0x10 ≤ seOp e || seBus e

/-- R446: an id at or below another, by 64-bit serial comparison. -/
def idAtOrBelow (a b : Nat) : Bool := (b + 2 ^ 64 - a) % 2 ^ 64 < 2 ^ 63

/-- The size of one flash slot in bytes. -/
def State.slotSize (s : State) : Nat := s.pwr.flashSlotMiB * 2 ^ 20

/-- R445: an entry that is not executed completes with a code. -/
def State.seRefused (s : State) (q code : Nat) (e : Bytes) : State :=
  (s.evt code 0).cqPost q code 0 (seId e) 0 [] false false

/-- R446: an identity enters the window of a queue, which keeps 1024. -/
def Queue.accept (x : Queue) (e : Bytes) : Queue :=
  let w := x.window ++ [{ id := seId e }]
  { x with window := w.drop (w.length - 1024), jobs := x.jobs ++ [{ id := seId e, entry := e }] }

/-- R445, R446, R474: an entry is taken. -/
def State.takeEntry (s : State) (q : Nat) (e : Bytes) : State :=
  let s := s.modQueue q fun x => { x with sqHead := (x.sqHead + 1) % 2 ^ x.sqLog }
  if s.halted && seOp e != 0x12 then s.seRefused q 0xB004 e
  else if !seOk e s.slotSize then s.seRefused q 0xB003 e
  else if seAdmin e && !bitAt s.adminMask q then s.seRefused q 0xB004 e
  else if s.liveIgnored then s.ignoreLive.seRefused q 0xB005 e
  else
    let x := s.queue q
    match x.window.find? fun w => w.id == seId e with
    | some w =>
      let s := (s.bump Reg.hostCountDuplicate).evt 0xB001 0
      match w.completion with
      | some c => s.cqDup q (seId e) c
      | none => s.modQueue q fun x => { x with
          window := x.window.map fun w => if w.id == seId e then { w with dups := w.dups + 1 } else w }
    | none =>
      if x.window.head?.any fun w => idAtOrBelow (seId e) w.id then (s.bump Reg.hostCountStale).seRefused q 0xB002 e
      else s.modQueue q fun x => x.accept e

/-- R443: entries of a queue taken and not completed. -/
def Queue.taken (x : Queue) : Nat := (x.jobs.filter fun j => !j.lost).length + total (x.window.map (·.dups))

/-- R443: the CQ has a free slot for every entry taken and for one more; one slot of the ring stays free. -/
def Queue.cqRoom (x : Queue) : Bool :=
  let n := 2 ^ x.cqLog
  decide ((x.cqTail + n - x.cqHead) % n + x.taken + 1 ≤ n - 1)

/-- R443, R445, R474: HOST_SQ_FETCH: the next SQ entry is read from host memory. -/
def execHostSqFetch (queue : BitVec 6) (s : State) : Host.Outcome State Fault Refusal :=
  let q := queue.toNat
  let x := s.queue q
  .next <| if !s.queueUp q || !(s.booted || (s.halted && q == 0)) || !s.linkUp || x.sqHead == x.sqTail || !x.cqRoom
      || s.host.reads.any (fun r => r.use == 1 && r.queue == q) then s
    else
      let r : HostRead := { addr := x.sqBase + 64 * x.sqHead, len := 64, queue := q, use := 1 }
      { s with host := { s.host with reads := s.host.reads ++ [r] } }

/-! ### Data rings -/

/-- R453, Table 22-5: a record at the DR tail. -/
def State.drPut (s : State) (q kind ch srcKind src tag user : Nat) (body : Bytes) : State :=
  let x := s.queue q
  let n := recBytes body.length
  let ring := 2 ^ x.drLog
  let h := leBytes 1 kind ++ leBytes 1 x.drPhase.toNat ++ zeros 2 ++ leBytes 4 body.length ++ leBytes 8 x.drSeq
    ++ leBytes 1 ch ++ leBytes 1 srcKind ++ leBytes 2 src ++ leBytes 2 tag ++ leBytes 2 user ++ zeros 8
  let wraps := ring ≤ x.drTail + n
  let s := s.hostWrite (x.drBase + x.drTail) (fit n (h ++ body))
  (s.modQueue q fun x => { x with
    drTail := if wraps then 0 else x.drTail + n, drPhase := x.drPhase != wraps, drSeq := x.drSeq + 1 }).queueSignal q

/-- R453: bytes of a PAD record before a record of `n` bytes; 0 where it does not cross the ring's end. -/
def Queue.pad (x : Queue) (n : Nat) : Nat := if 2 ^ x.drLog < x.drTail + n then 2 ^ x.drLog - x.drTail else 0

/-- R453: a record of `n` bytes, with its PAD record, fits into the space that the host has freed. -/
def Queue.drFits (x : Queue) (n : Nat) : Bool :=
  let ring := 2 ^ x.drLog
  decide (x.pad n + n + 64 ≤ ring - (x.drTail + ring - x.drHead) % ring)

/-- R453, R454: HOST_DR_WRITE: the oldest staged record of a queue is written to its ring. -/
def execHostDrWrite (queue : BitVec 6) (s : State) : Host.Outcome State Fault Refusal :=
  let q := queue.toNat
  .next <| match s.host.staged.find? fun r => r.queue == q with
    | none => s
    | some r =>
      let n := recBytes r.body.length
      let x := s.queue q
      if !s.queueUp q || !s.linkUp || !x.drFits n then s else
      let s := if x.pad n == 0 then s else s.drPut q 0x7F 0 0 0 0 0 (zeros (x.pad n - 32))
      let s := s.drPut q r.kind r.ch r.srcKind r.src r.tag r.user r.body
      let s := { s with host := { s.host with staged := s.host.staged.erase r } }
      State.stageWaiting 64 (s.stagedDone r 0)

end Sys2Proof.Machine
end

