-- ==== Sys2Proof/Machine/Sign.lean ====
section
/-! DEFINITION. Signature blocks and the fuses (R31, R32). -/
namespace Sys2Proof.Machine

/-- R31: the key check: the slot is valid, not revoked, and holds the hash of the public key. -/
def Fuses.keyOk (f : Fuses) (slot : Nat) (key : Bytes) : Bool :=
  slot < 4 && bitAt f.keyValid.toNat slot && !bitAt f.keyRevoked.toNat slot && sget [] f.keyHash slot == sha384 key

/-- R31: the ECDSA check of a signature block over a message. -/
def signatureOk (block message : Bytes) : Bool :=
  fieldLE block 8 1 == 4 && ecdsaOk (sha384 message) (slice block 9 48) (slice block 57 48) (slice block 0x70 48)
    (slice block 0xA0 48)

/-- R451: slots that are valid and not revoked. -/
def Fuses.live (f : Fuses) : List Nat := (List.range 4).filter fun k => bitAt f.keyValid.toNat k && !bitAt f.keyRevoked.toNat k

end Sys2Proof.Machine
end

