-- ==== Sys2Proof/Machine/HostOps.lean ====
section
/-! DEFINITION. The operations of the host: LAUNCH (R447), copies (R449), flash, fuses and firmware (R450 to R452), and the
completions of the device's reads of host memory (R457, R458). -/
namespace Sys2Proof.Machine

/-! ### Jobs -/

/-- Changes a submission of a queue. -/
def State.modJob (s : State) (q id : Nat) (f : Job → Job) : State :=
  s.modQueue q fun x => { x with jobs := x.jobs.map fun j => if j.id == id then f j else j }

/-- The oldest submission of a queue that stands at a stage and that `want` names. -/
def State.jobAt (s : State) (q stage : Nat) (want : Bytes → Bool) : Option Job :=
  (s.queue q).jobs.find? fun j => j.stage == stage && want j.entry

/-- Table 22-2: the oldest submission that may begin: an ORDERED one waits for every earlier entry. -/
def State.jobToBegin (s : State) (q : Nat) (want : Bytes → Bool) : Option Job :=
  let l := (s.queue q).jobs
  l.find? fun j => j.stage == 0 && want j.entry && (!seOrdered j.entry || l.head? == some j)

/-- A submission without a launch completes. -/
def State.jobDone (s : State) (q id status : Nat) : State := s.hostFinish q id status 0 0 [] false

/-- A submission's bytes end with a status. -/
def State.jobEnd (s : State) (q id status : Nat) : State :=
  s.modJob q id fun j => { j with stage := 2, status := status, input := if status == 0 then j.input else [] }

/-! ### Host memory through a region table (R457) -/

/-- R449, R457: the next piece of an access at a device address of the host range: its bus address and length, or a code. -/
def State.hostPiece (s : State) (ch a n : Nat) (bus write : Bool) : State × Except Nat (Nat × Nat) :=
  let k := min n (4096 - a % 4096)
  if bus then (s, .ok (a, k)) else
  let (s, r) := s.walk ch a
  match r.covers a with
  | .region d =>
    let k := min k (d.start + d.size - a)
    match d.check a k write with
    | 0 => (s, .ok (d.bus a, k))
    | c => (s, .error c)
  | .walk => (s, .error 0x3002)
  | .fail c _ => (s, .error c)

/-- R447, R449, R458: the next read of host memory of a LAUNCH or COPY_IN. -/
def State.nextRead (s : State) (q id : Nat) : State :=
  match (s.queue q).jobs.find? fun j => j.id == id with
  | none => s
  | some j =>
    let e := j.entry
    if seLen e ≤ j.pos then s.jobEnd q id 0 else
    match s.hostPiece (seCh e) (seSrc e + j.pos) (seLen e - j.pos) (seBus e) false with
    | (s, .error c) => s.jobEnd q id c
    | (s, .ok (a, n)) =>
      if !s.linkUp then s.jobEnd q id 0x300C else
      let r : HostRead := { addr := a, len := n, queue := q, use := 2, job := id }
      { s with host := { s.host with reads := s.host.reads ++ [r] } }

/-- R449: the way from the host interface to a destination is stopped. -/
def State.dstStopped (s : State) (a : Nat) : Bool :=
  match placeOf a with
  | .window id _ => s.wayStopped { kind := .store, src := .services (chOf id), dst := .cell id }
  | _ => false

/-- R447, R449: bytes written physically to HBM, or as STORE packets to a cell window: 0 or the cause of the refusal. -/
def State.devWrite (s : State) (a : Nat) (bs : Bytes) : State × Nat :=
  match placeOf a with
  | .window id off =>
    if !s.configured (chOf id) then (s, 0x4007) else State.storePackets 3000 s (chOf id) id off bs 0
  | _ => s.hbmStore a bs

/-! ### LAUNCH -/

/-- R447: LAUNCH: its input is read. -/
def execLaunch (queue : BitVec 6) (s : State) : Host.Outcome State Fault Refusal :=
  let q := queue.toNat
  .next <| match s.jobToBegin q fun e => seOp e == 1 with
    | none => s
    | some j =>
      if !s.configured (seCh j.entry) then (s.dEvt (seCh j.entry) 0x8007).jobDone q j.id 0x8007
      else (s.modJob q j.id fun j => { j with stage := 1 }).nextRead q j.id

/-- R419, R447: the channels of a host launch: both members of a pair, the leader first. -/
def State.launchChs (s : State) (ch : Nat) : List Nat :=
  if s.isPair ch && s.configured ch && s.configured (partnerOf ch) then [min ch (partnerOf ch), max ch (partnerOf ch)] else [ch]

/-- R447, step 3: the HOST triggers of a launch. -/
def State.hostTrigger (s : State) (ch entry event : Nat) (payload : Bytes) (ref : Option HostRef) : State :=
  if !s.configured ch || !s.isHead ch entry 3 then
    let s := s.dEvt ch 0x8007
    match ref with
    | some r => s.jobDone r.queue r.id 0x8007
    | none => s
  else
    let t : Trigger := { head := entry, kind := 3, event := event, input := sha256 payload }
    let l := s.launchChs ch
    l.foldl (fun s c => s.accept c { t with hostRef := if some c == l.head? then ref else none } none false) s

/-- R447, step 1: the input bytes written, in a pair to both members. -/
def State.launchWrite (s : State) (ch dst : Nat) (bs : Bytes) : State × Nat :=
  if bs.isEmpty then (s, 0) else
  (s.launchChs ch).foldl (fun a c =>
    if a.2 != 0 then a else a.1.devWrite (if c == ch then dst else translateTo c dst) bs) (s, 0)

/-- R447: LAUNCH_INPUT_DONE: the input written, the Hoard's entry, and the trigger. -/
def execLaunchInputDone (queue : BitVec 6) (s : State) : Host.Outcome State Fault Refusal :=
  let q := queue.toNat
  .next <| match s.jobAt q 2 fun e => seOp e == 1 with
    | none => s
    | some j =>
      let e := j.entry
      let ch := seCh e
      if j.status != 0 then s.jobDone q j.id j.status
      else if !j.input.isEmpty && s.dstStopped (seDst e) then s
      else
        match s.launchWrite ch (seDst e) j.input with
        | (s, 0) =>
          let payload := fit 64 e ++ leBytes 2 q ++ zeros 6 ++ j.input
          let s := (s.modJob q j.id fun j => { j with stage := 3, input := [] }).hrdRecord 0x20 ch j.id payload
          s.hostTrigger ch (seEntry e) (j.id % 2 ^ 48) payload (some { queue := q, id := j.id })
        | (s, c) => s.jobDone q j.id c

/-! ### Copies (R449) -/

/-- R449: host DMA engines at work. -/
def State.dmaBusy (s : State) : Nat :=
  total ((List.range 64).map fun q =>
    ((s.queue q).jobs.filter fun j => j.stage == 1 && (seOp j.entry == 2 || seOp j.entry == 3)).length)

/-- R449: COPY_IN: a DMA engine begins. -/
def execCopyIn (queue : BitVec 6) (s : State) : Host.Outcome State Fault Refusal :=
  let q := queue.toNat
  .next <| match s.jobToBegin q fun e => seOp e == 2 with
    | none => s
    | some j => if 8 ≤ s.dmaBusy then s else (s.modJob q j.id fun j => { j with stage := 1 }).nextRead q j.id

/-- R449: the bytes that a COPY_IN holds are written, and it goes on. -/
def State.copyInWrite (s : State) (q : Nat) (j : Job) : State :=
  let a := seDst j.entry + j.pos
  if j.input.isEmpty || s.dstStopped a then s else
  match s.devWrite a j.input with
  | (s, 0) => (s.modJob q j.id fun x => { x with pos := x.pos + j.input.length, input := [] }).nextRead q j.id
  | (s, c) => s.jobEnd q j.id c

/-- R449: a COPY_OUT from offset `o`; `fuel` bounds the pieces. -/
def State.copyOut : Nat → State → Bytes → Nat → State × Nat
  | 0, s, _, _ => (s, 0)
  | fuel + 1, s, e, o =>
    if seLen e ≤ o then (s, 0) else
    match s.hostPiece (seCh e) (seDst e + o) (seLen e - o) (seBus e) true with
    | (s, .error c) => (s, c)
    | (s, .ok (a, n)) =>
      let (s, r) := s.hbmFetch (seSrc e + o) n
      if r.code != 0 then (s, r.code) else State.copyOut fuel (s.hostWrite a r.data) e (o + n)

/-- R449: COPY_OUT: HBM is read and host memory written, in ascending address order. -/
def execCopyOut (queue : BitVec 6) (s : State) : Host.Outcome State Fault Refusal :=
  let q := queue.toNat
  .next <| match s.jobToBegin q fun e => seOp e == 3 with
    | none => s
    | some j =>
      if 8 ≤ s.dmaBusy then s else
      let (s, c) := State.copyOut (seLen j.entry) s j.entry 0
      s.jobEnd q j.id c

/-- R449: HOST_COPY_DONE: a copy that has ended completes; one held at a stopped cell goes on. -/
def execHostCopyDone (queue : BitVec 6) (s : State) : Host.Outcome State Fault Refusal :=
  let q := queue.toNat
  let copy := fun e => seOp e == 2 || seOp e == 3
  .next <| match s.jobAt q 2 copy with
    | some j => s.jobDone q j.id j.status
    | none => match (s.queue q).jobs.find? fun j => j.stage == 1 && copy j.entry && !j.input.isEmpty with
      | some j => s.copyInWrite q j
      | none => s

/-! ### Admin operations (R450 to R452) -/

/-- R450: a load reads a flash slot. -/
def State.slotLoading (s : State) (k : Nat) : Bool := s.img.load.any fun l => l.source == k + 1

/-- R450: FLASH_WRITE: the bytes are read from HBM and programming begins. -/
def execFlashWrite (queue : BitVec 6) (s : State) : Host.Outcome State Fault Refusal :=
  let q := queue.toNat
  .next <| match s.jobToBegin q fun e => seOp e == 0x10 with
    | none => s
    | some j =>
      if s.slotLoading (seParam j.entry) then s else
      let (s, r) := s.hbmFetch (seSrc j.entry) (seLen j.entry)
      if r.code != 0 then s.jobDone q j.id r.code
      else s.modJob q j.id fun j => { j with stage := 1, input := fit (seLen j.entry) r.data }

/-- R450: FLASH_WRITE_DONE: the slot holds the bytes and 0xFF after them; a failure leaves it unknown. -/
def execFlashWriteDone (queue : BitVec 6) (ok : Bool) (s : State) : Host.Outcome State Fault Refusal :=
  let q := queue.toNat
  .next <| match s.jobAt q 1 fun e => seOp e == 0x10 with
    | none => s
    | some j =>
      let k := seParam j.entry
      if ok then
        let img := j.input ++ List.replicate (s.slotSize - j.input.length) 0xFF
        (s.modPwr fun p => { p with flash := ssetN 0xFF p.flash (k * s.slotSize) img,
                                    flashBad := p.flashBad.filter (· != k) }).jobDone q j.id 0
      else ((s.modPwr fun p => { p with flashBad := insNat k p.flashBad }).evt 0xB00C 0).jobDone q j.id 0xB00C

/-- R451: why a fuse operation is refused. -/
def State.fuseRefused (s : State) (op slot : Nat) : Bool :=
  let f := s.pwr.fuses
  let valid := bitAt f.keyValid.toNat slot
  let revoked := bitAt f.keyRevoked.toNat slot
  s.img.load.isSome || match op with
    | 0 => valid || revoked
    | 1 => revoked || (f.sigRequired && f.live == [slot])
    | _ => f.live.isEmpty

/-- R451: a fuse operation of a queue: refused, or performed by `f`. -/
def State.fuseOp (s : State) (q op : Nat) (f : State → Job → Nat → State) : State :=
  match s.jobToBegin q fun e => seOp e == 0x11 && bits (seParam e) 0 2 == op with
  | none => s
  | some j =>
    let slot := bits (seParam j.entry) 4 2
    if s.fuseRefused op slot then (s.evt 0xB00D 0).jobDone q j.id 0xB00D else f s j slot

/-- Changes the fuses. -/
def State.modFuses (s : State) (f : Fuses → Fuses) : State := s.modPwr fun p => { p with fuses := f p.fuses }

/-- R451: FUSE_KEY. -/
def execFuseKey (queue : BitVec 6) (s : State) : Host.Outcome State Fault Refusal :=
  .next <| s.fuseOp queue.toNat 0 fun s j slot =>
    let (s, r) := s.hbmFetch (seSrc j.entry) 48
    if r.code != 0 then s.jobDone queue.toNat j.id r.code
    else (s.modFuses fun f => { f with keyHash := sset [] f.keyHash slot (fit 48 r.data),
                                       keyValid := f.keyValid ||| BitVec.ofNat 4 (2 ^ slot) }).jobDone queue.toNat j.id 0

/-- R451: FUSE_REVOKE. -/
def execFuseRevoke (queue : BitVec 6) (s : State) : Host.Outcome State Fault Refusal :=
  .next <| s.fuseOp queue.toNat 1 fun s j slot =>
    (s.modFuses fun f => { f with keyRevoked := f.keyRevoked ||| BitVec.ofNat 4 (2 ^ slot) }).jobDone queue.toNat j.id 0

/-- R451: FUSE_SIG_REQUIRED. -/
def execFuseSigRequired (queue : BitVec 6) (s : State) : Host.Outcome State Fault Refusal :=
  .next <| s.fuseOp queue.toNat 2 fun s j _ => (s.modFuses fun f => { f with sigRequired := true }).jobDone queue.toNat j.id 0

/-- R452: "OLMFWPKG". -/
def fwMagic : Bytes := [0x4F, 0x4C, 0x4D, 0x46, 0x57, 0x50, 0x4B, 0x47]
/-- R452: "OLMFWSIG". -/
def fwSigTag : Bytes := [0x4F, 0x4C, 0x4D, 0x46, 0x57, 0x53, 0x49, 0x47]

/-- R452, R31, R32: a firmware package is accepted. One without a signature block, or with one of zeros, is unsigned. -/
def fwOk (f : Fuses) (p : Bytes) : Bool :=
  let n := fieldLE p 12 4
  let d := slice p 16 48
  let blk := slice p (64 + n) 208
  let signed := decide (64 + n + 208 ≤ p.length) && blk != zeros 208
  slice p 0 8 == fwMagic && decide (64 + n ≤ p.length) && sha384 ((p.drop 64).take n) == d
    && (if signed then f.keyOk (fieldLE blk 0 1) (slice blk 8 97) && signatureOk blk (fwSigTag ++ d) else !f.sigRequired)

/-- R452: FW_UPDATE: the package is read and verified. -/
def execFwUpdate (queue : BitVec 6) (s : State) : Host.Outcome State Fault Refusal :=
  let q := queue.toNat
  .next <| match s.jobToBegin q fun e => seOp e == 0x12 with
    | none => s
    | some j =>
      let (s, r) := s.hbmFetch (seSrc j.entry) (seLen j.entry)
      let ok := r.code == 0 && fwOk s.pwr.fuses (fit (seLen j.entry) r.data)
      if ok then s.modJob q j.id fun j => { j with stage := 2, input := slice r.data 8 4 }
      else (s.evt 0xB00E 0).jobEnd q j.id 0xB00E

/-- R452: FW_UPDATE_DONE: the inactive bank is written, and the submission completes. -/
def execFwUpdateDone (queue : BitVec 6) (s : State) : Host.Outcome State Fault Refusal :=
  let q := queue.toNat
  .next <| match s.jobAt q 2 fun e => seOp e == 0x12 with
    | none => s
    | some j =>
      if j.status != 0 then s.jobDone q j.id j.status else
      let k := 1 - s.pwr.activeBank
      (s.modPwr fun p => { p with
        banks := sset {} p.banks k { version := some (BitVec.ofNat 32 (leNat j.input)), good := true },
        updated := some k }).jobDone q j.id 0

/-! ### Completions of reads of host memory (R458) -/

/-- R283, R458: the answer to a packet that read host memory. -/
def State.hostAnswer (s : State) (r : HostRead) (status : Nat) (data : Bytes) : State :=
  s.post { kind := .memrsp, src := .services r.src.ch, dst := r.src, arg := BitVec.ofNat 64 status, payload := data,
           origin := r.origin, reqKind := .memreq }

/-- R443, R447, R449, R458: what a read of host memory that is refused with a cause leads to. -/
def State.readRefused (s : State) (r : HostRead) (cause : Nat) : State :=
  match r.use with
  | 0 => s.hostAnswer r cause []
  | 1 => s.queueFail r.queue
  | _ => s.jobEnd r.queue r.job 0x300C

/-- R458: bytes of host memory that have come. -/
def State.readServed (s : State) (r : HostRead) (bs : Bytes) : State :=
  match r.use with
  | 0 => s.hostAnswer r 0 bs
  | 1 => s.takeEntry r.queue bs
  | _ =>
    match (s.queue r.queue).jobs.find? fun j => j.id == r.job with
    | none => s
    | some j =>
      if seOp j.entry == 1 then
        (s.modJob r.queue r.job fun x => { x with input := x.input ++ bs, pos := x.pos + bs.length }).nextRead r.queue r.job
      else (s.modJob r.queue r.job fun x => { x with input := bs }).copyInWrite r.queue { j with input := bs }

/-- R458: HOST_READ_COMPLETION of read `i`. -/
def execHostReadCompletion (i : Nat) (ok : Bool) (bytes : Bytes) (s : State) : Host.Outcome State Fault Refusal :=
  .next <| match s.host.reads[i]? with
    | none => s
    | some r =>
      let s := { s with host := { s.host with reads := s.host.reads.eraseIdx i } }
      if ok then s.readServed r (fit r.len bytes) else (s.evt 0xB008 0).readRefused r 0xB008

/-- R458: COMPLETION_TIMEOUT of read `i`. -/
def execCompletionTimeout (i : Nat) (s : State) : Host.Outcome State Fault Refusal :=
  .next <| match s.host.reads[i]? with
    | none => s
    | some r => (({ s with host := { s.host with reads := s.host.reads.eraseIdx i } }).evt 0xB008 0).readRefused r 0xB008

end Sys2Proof.Machine
end

