-- ==== Sys2Proof/Machine/GovIsles.lean ====
section
/-! DEFINITION. Clock islands: their classes (R234), operating points (R235), floors and ceilings (R241, R246), the power
profile (R243 to R245) and the sections that set them (R251, R252). -/
namespace Sys2Proof.Machine

/-! ### Classes (Table 12-1) -/

/-- Table 12-1: clock range in MHz of an island that the governor scales. -/
def isleRange (i : Nat) : Option (Nat × Nat) :=
  if isPhysical i then some (400, 1800)
  else if 0x400 ≤ i && i ≤ 0x407 then some (800, 1600)
  else if 0x418 ≤ i && i ≤ 0x41B then some (800, 1400)
  else if 0x41C ≤ i && i ≤ 0x41F then some (400, 1200)
  else if i == 0x42B || i == 0x42C then some (400, 1200)
  else none

/-- Every island that the governor scales. -/
def scalable : List Nat :=
  ([0, 1, 2, 3].flatMap physOf) ++ (List.range 8).map (0x400 + ·) ++ (List.range 8).map (0x418 + ·) ++ [0x42B, 0x42C]

/-- Table 12-1: the listed clock in MHz of a fixed island; 0 where its clock comes from a link. -/
def fixedFreq (i : Nat) : Nat :=
  if 0x420 ≤ i && i ≤ 0x423 then 1000 else if 0x424 ≤ i && i ≤ 0x427 then 1600
  else if i == 0x429 || i == 0x42A then 1000 else if i == 0x42D then 500 else if i == 0x42E then 800 else 0

/-- Changes an island. -/
def State.modIsle (s : State) (i : Nat) (f : Island → Island) : State :=
  { s with gov := { s.gov with islands := smod {} s.gov.islands i f } }

/-- Changes the governor. -/
def State.modGov (s : State) (f : Gov → Gov) : State := { s with gov := f s.gov }

/-! ### Operating points -/

/-- R235: the voltage in mV of an island at a frequency: its fused curve, from 625 to 875 mV. -/
def voltAt (i f : Nat) : Nat := max 625 (min 875 (Config.fusedVolt i f))

/-- R235, R253: the voltage of an island; after reset it is the highest of its curve. -/
def State.isleVolt (s : State) (i : Nat) : Nat :=
  if (s.island i).volt == 0 then voltAt i (((isleRange i).getD (0, fixedFreq i)).2) else (s.island i).volt

/-- Table 12-3: the power limit in W of a profile. -/
def profileLimit (p : Nat) : Nat := match p with | 0 => 900 | 1 => 750 | 2 => 600 | _ => 450

/-- Table 12-3: the cap in MHz of cell islands under a profile. -/
def profileCap (p : Nat) : Nat := match p with | 0 => 1800 | 1 => 1600 | 2 => 1400 | _ => 1100

/-- R496: under VR_FAULT an island's frequencies whose fused voltage, plus 25 mV, does not exceed the last agreed READ_VOUT, or
850 mV; its class minimum where none is (log entry 77). -/
def State.vrCap (s : State) (i lo hi : Nat) : Nat :=
  if !s.pwr.vrFault then hi else
  let v := s.pwr.vrAgreed.getD 850
  ((List.range ((hi - lo) / 25 + 1)).map fun k => lo + 25 * k).foldl (fun a f => if voltAt i f + 25 ≤ v then max a f else a) lo

/-- R241: the ceiling of a scalable island without the cap of a regulator fault. -/
def State.isleCeil (s : State) (i : Nat) : Nat :=
  let (_, hi) := (isleRange i).getD (0, 0)
  let x := s.island i
  let c := if x.set then min hi x.ceil else hi
  if isPhysical i then min c (profileCap s.gov.profile) else c

/-- R241: the floor of a scalable island; a profile cap below it lowers it to the cap. -/
def State.isleFloor (s : State) (i : Nat) : Nat :=
  let (lo, _) := (isleRange i).getD (0, 0)
  let x := s.island i
  let f := if x.set then x.floor else lo
  if isPhysical i then min f (profileCap s.gov.profile) else f

/-- R241, R496: the highest frequency an island may run at. -/
def State.isleTop (s : State) (i : Nat) : Nat :=
  let (lo, hi) := (isleRange i).getD (0, 0)
  min (s.isleCeil i) (s.vrCap i lo hi)

/-- R239: an island lowered takes its new point at once; a raise that waits is given up. -/
def State.setFreq (s : State) (i f : Nat) : State :=
  s.modIsle i fun x => { x with freq := f, volt := voltAt i f, pending := none }

/-- R239: a raise waits until the voltage of the new point has settled. -/
def State.raiseTo (s : State) (i f : Nat) : State := s.modIsle i fun x => { x with pending := some f }

/-! ### Profile and bounds -/

/-- R244, R245, R253: a write of GOV.PROFILE.PROFILE: sent to the four dispatchers, or locked. -/
def State.profileWrite (s : State) (p : Nat) : State :=
  if s.rd Reg.govProfileLock == 1 then s.evt 0xC00A 0 else
  ((s.wr Reg.govProfileProfile p).wr Reg.govProfileApplied 0).modGov fun g =>
    { g with pendingProfile := [0, 1, 2, 3].foldl (fun l ch => sset 0 l ch (p % 4 + 1)) g.pendingProfile }

/-- R244: GOV_PROFILE_WRITE. -/
def execGovProfileWrite (data : Word) (s : State) : Host.Outcome State Fault Refusal :=
  .next <| s.gated s.blockGate fun s => s.profileWrite (bits data.toNat 0 2)

/-- R244, R249: PROFILE_APPLY: a dispatcher applies the last value it has received, and Hoard records it (Table 20-4). -/
def execProfileApply (ch : BitVec 2) (s : State) : Host.Outcome State Fault Refusal :=
  .next <|
    let c := ch.toNat
    match sget 0 s.gov.pendingProfile c with
    | 0 => s
    | p + 1 =>
      if s.gov.failed || !s.dispUp c then s else
      let s := s.modGov fun g => { g with pendingProfile := sdel g.pendingProfile c }
      let s := (s.modDisp c fun d => { d with profile := p }).setBit Reg.govProfileApplied c
      s.hrdRecord 0x41 c p []

/-- R246: bounds for an island: a scalable island, multiples of 25 MHz in its class range, the floor not above the ceiling. -/
def boundsOk (i floor ceil : Nat) : Bool :=
  match isleRange i with
  | none => false
  | some (lo, hi) => floor % 25 == 0 && ceil % 25 == 0 && lo ≤ floor && floor ≤ ceil && ceil ≤ hi

/-- R246: installs the bounds of an island. -/
def State.isleBounds (s : State) (i floor ceil : Nat) : State :=
  s.modIsle i fun x => { x with floor := floor, ceil := ceil, set := true }

/-- R246: a write of GOV.ISLE_CTL: WRITE = 1 installs FLOOR and CEIL for ISLAND. -/
def State.isleWrite (s : State) (v : Nat) : State :=
  let s := s.writeReg .gov 0 0x18 all64 v
  if !bitAt v 63 then s else
  let i := bits v 48 11
  if !isIsland i || !boundsOk i (bits v 0 16) (bits v 16 16) then s.regEncoding
  else s.isleBounds i (bits v 0 16) (bits v 16 16)

/-- R246: GOV_ISLE_WRITE. -/
def execGovIsleWrite (data : Word) (s : State) : Host.Outcome State Fault Refusal :=
  .next <| if !bitAt data.toNat 63 then s else s.gated s.blockGate fun s => s.isleWrite data.toNat

/-! ### Droop, settling and stalls -/

/-- R240: DROOP_TRIP: the trip is counted in its period. -/
def execDroopTrip (island : BitVec 11) (s : State) : Host.Outcome State Fault Refusal :=
  .next <|
    let i := island.toNat
    if !s.pwr.running || (isleRange i).isNone || (s.island i).stopped then s
    else s.modIsle i fun x => { x with droops := x.droops + 1 }

/-- R239, R249, R495: VOLTAGE_SETTLED: a raise that waits takes effect, up to the ceiling of now. -/
def execVoltageSettled (island : BitVec 11) (s : State) : Host.Outcome State Fault Refusal :=
  .next <|
    let i := island.toNat
    match (s.island i).pending with
    | none => s
    | some f => if s.gov.failed || (s.island i).stopped then s else s.setFreq i (min f (max (s.isleTop i) (s.island i).freq))

/-- R250: ISLE_STALL: a crossing has not been taken from for STALL_LIMIT; 0 disables the check. -/
def execIsleStall (sender receiver : BitVec 11) (s : State) : Host.Outcome State Fault Refusal :=
  .next <|
    if !s.pwr.running || s.gov.failed || s.rd Reg.govLimitsStallLimit == 0 || !isIsland sender.toNat || !isIsland receiver.toNat
    then s
    else ((s.wr Reg.govStatusStallFrom sender.toNat).wr Reg.govStatusStallTo receiver.toNat).evt 0xC009 0

end Sys2Proof.Machine
end

