-- ==== Sys2Proof/Machine/ImgRead.lean ====
section
/-! DEFINITION. The container of a structure image: header (R26), directory (R27, R28), digests (R30, R368) and signature
block (R31). -/
namespace Sys2Proof.Machine

/-! ### Header (Table 02-1) -/

/-- FLAGS of an image. -/
def imFlags (m : Bytes) : Nat := fieldLE m 0xC 4
/-- SIGNED. -/
def imSigned (m : Bytes) : Bool := bitAt (imFlags m) 0
/-- PARTIAL. -/
def imPartial (m : Bytes) : Bool := bitAt (imFlags m) 1
/-- CHANNEL_MASK. -/
def imMask (m : Bytes) : Nat := bits (imFlags m) 2 4
/-- SECTION_COUNT. -/
def imCount (m : Bytes) : Nat := fieldLE m 0x14 4
/-- DIR_OFFSET. -/
def imDir (m : Bytes) : Nat := fieldLE m 0x18 8
/-- IMAGE_SIZE. -/
def imSize (m : Bytes) : Nat := fieldLE m 0x20 8
/-- SIG_OFFSET. -/
def imSig (m : Bytes) : Nat := fieldLE m 0x28 8
/-- GLOBAL_DIGEST. -/
def imGlobal (m : Bytes) : Bytes := slice m 0x40 48
/-- CHANNEL_DIGEST of a channel. -/
def imChannel (m : Bytes) (ch : Nat) : Bytes := slice m (0x70 + 48 * ch) 48
/-- IMAGE_DIGEST. -/
def imDigest (m : Bytes) : Bytes := slice m 0x130 48

/-- The channels a load of the image changes: all of them, or those of the mask (R42). -/
def imChannels (m : Bytes) : List Nat :=
  if imPartial m then [0, 1, 2, 3].filter fun ch => bitAt (imMask m) ch else [0, 1, 2, 3]

/-- The bytes from `off` on, `len` of them, are zero. -/
def zeroAt (p : Bytes) (off len : Nat) : Bool := (slice p off len).all (· == 0)

/-! ### Directory (Table 02-2) -/

/-- Entry `i` of the directory: its 96 bytes. -/
def deAt (m : Bytes) (i : Nat) : Bytes := slice m (imDir m + 96 * i) 96
/-- TYPE. -/
def deType (e : Bytes) : Nat := fieldLE e 0 2
/-- SCOPE: a channel, or 0x0F. -/
def deScope (e : Bytes) : Nat := fieldLE e 2 1
/-- SEQ. -/
def deSeq (e : Bytes) : Nat := fieldLE e 4 4
/-- OFFSET. -/
def deOff (e : Bytes) : Nat := fieldLE e 8 8
/-- LENGTH. -/
def deLen (e : Bytes) : Nat := fieldLE e 0x10 8
/-- PAYLOAD_VER. -/
def deVer (e : Bytes) : Nat := fieldLE e 0x18 2
/-- SECTION_DIGEST. -/
def deDigest (e : Bytes) : Bytes := slice e 0x20 48
/-- The payload an entry names. -/
def dePayload (m e : Bytes) : Bytes := slice m (deOff e) (deLen e)

/-- The directory: indexes and entries. -/
def imEntries (m : Bytes) : List (Nat × Bytes) := (List.range (imCount m)).map fun i => (i, deAt m i)

/-- (TYPE, SEQ) order, as one number. -/
def deKey (e : Bytes) : Nat := deType e * 2 ^ 32 + deSeq e

/-- Inserts an entry by (TYPE, SEQ). -/
def insEntry (x : Nat × Bytes) : List (Nat × Bytes) → List (Nat × Bytes)
  | [] => [x]
  | y :: l => if deKey x.2 ≤ deKey y.2 then x :: y :: l else y :: insEntry x l

/-- R23: the entries of a part in the order of application. -/
def imPart (m : Bytes) (scope : Nat) : List (Nat × Bytes) :=
  ((imEntries m).filter fun x => deScope x.2 == scope).foldr insEntry []

/-- R23: every entry of an image in the order of application. -/
def imOrder (m : Bytes) : List (Nat × Bytes) := [0xF, 0, 1, 2, 3].flatMap (imPart m)

/-! ### Digests (R30, R368) -/

/-- R30: a part digest. -/
def partDigest (l : List (Nat × Bytes)) : Bytes := sha384 (l.flatMap fun x => patch x.2 8 (zeros 8))

/-- R34: a part digest without the channel that its entries name (log entry 79). -/
def pairDigest (l : List (Nat × Bytes)) : Bytes := sha384 (l.flatMap fun x => patch (patch x.2 8 (zeros 8)) 2 (zeros 1))

/-- R30: the image digest over the four channel digests and a global part digest. -/
def digest244 (part step : Nat) (global : Bytes) (chans : List Bytes) : Bytes :=
  sha384 (leBytes 2 part ++ leBytes 1 step ++ zeros 1 ++ global ++ chans.flatMap id)

/-- R368: the global part digest without TIME and NOTE sections. -/
def memberGlobal (m : Bytes) : Bytes :=
  partDigest ((imPart m 0xF).filter fun x => deType x.2 != 0x80 && deType x.2 != 0xF0)

/-! ### Section types (Table 02-3) -/

/-- Types of global scope. -/
def globalTypes : List Nat := [0x10, 0x21, 0x70, 0x80, 0x90, 0xA0]
/-- Types of channel scope that appear at most once in a part. -/
def onceTypes : List Nat := [0x20, 0x40, 0x41, 0x42, 0x50, 0xB0, 0xC2, 0xD0]
/-- Types of channel scope that appear any number of times. -/
def manyTypes : List Nat := [0x30, 0x60, 0xC0, 0xC1]

/-- Two ranges of bytes meet. -/
def meets (a n b m : Nat) : Bool := decide (a < b + m ∧ b < a + n)

/-! ### Steps 1 to 4 (R33) -/

/-- The first check of a list that fails: a code and its detail. -/
def firstBroken (l : List (Bool × Nat × Nat)) : Option (Nat × Nat) := (l.find? fun x => x.1).map (·.2)

/-- R26, step 2: header fields, in ascending offset; `n` is the length of the source. -/
def headerBad (m : Bytes) (n : Nat) : Option (Nat × Nat) :=
  let h := fun off : Nat => (0xA002, off)
  firstBroken ([
    (fieldLE m 0xA 2 != 512, h 0xA),
    (imFlags m / 64 != 0 || (imPartial m != (imMask m != 0)), h 0xC),
    (fieldLE m 0x13 1 != 0, h 0x13),
    (imCount m == 0 || 4096 < imCount m, h 0x14),
    (imDir m % 64 != 0, h 0x18),
    (imSize m < 1024 || 2 ^ 34 < imSize m || imSize m != n, h 0x20),
    (if imSigned m then imSig m % 64 != 0 || imSig m < 512 || imSig m + 208 != imSize m else imSig m != 0, h 0x28)]
    ++ ((List.range 4).map (0x3C + ·) ++ (List.range 160).map (0x160 + ·)).map fun o => (fieldLE m o 1 != 0, h o))

/-- R27, R28, step 4: an entry breaks a rule of its own or with an entry before it. -/
def entryBad (m : Bytes) (i : Nat) : Bool :=
  let e := deAt m i
  let before := (List.range i).map (deAt m)
  let t := deType e
  let out := fun a n => a < 512 || imSize m < a + n || (imSigned m && meets a n (imSig m) 208)
  let glob := deScope e == 0xF
  out (imDir m + 96 * i) 96 || fieldLE e 3 1 != 0 || !zeroAt e 0x1A 6 || !zeroAt e 0x50 16
  || !(glob || deScope e ≤ 3)
  || !((globalTypes.contains t && glob) || ((onceTypes ++ manyTypes).contains t && !glob) || t == 0xF0)
  || deLen e == 0 || deOff e % 64 != 0 || out (deOff e) (deLen e)
  || meets (deOff e) (deLen e) (imDir m) (96 * imCount m)
  || before.any (fun x => meets (deOff e) (deLen e) (deOff x) (deLen x))
  || before.any (fun x => deType x == t && deScope x == deScope e && (deSeq x == deSeq e || (globalTypes ++ onceTypes).contains t))

/-- R27, R28, step 4. A full image holds one PART section. -/
def directoryBad (m : Bytes) : Option (Nat × Nat) :=
  match (List.range (imCount m)).find? (entryBad m) with
  | some i => some (0xA004, i)
  | none =>
    if !imPartial m && !((imEntries m).any fun x => deType x.2 == 0x10) then some (0xA004, imCount m % 65536) else none

/-- R30, R41, step 5: section digests, part digests and the image digest. -/
def digestBad (m : Bytes) : Option (Nat × Nat) :=
  match (imEntries m).find? fun x => sha384 (dePayload m x.2) != deDigest x.2 with
  | some x => some (0xA005, x.1)
  | none => firstBroken ([(!imPartial m && partDigest (imPart m 0xF) != imGlobal m, 0xA005, 0xFFF0)]
      ++ ((imChannels m).map fun c => (partDigest (imPart m c) != imChannel m c, 0xA005, 0xFFF1 + c))
      ++ [(digest244 (fieldLE m 0x10 2) (fieldLE m 0x12 1) (imGlobal m) ([0, 1, 2, 3].map (imChannel m)) != imDigest m,
           0xA005, 0xFFFF)])

/-- R31, R32, step 6: the signature rules. -/
def State.signatureBad (s : State) (m : Bytes) : Option (Nat × Nat) :=
  let f := s.pwr.fuses
  if !imSigned m then (if f.sigRequired then some (0xA006, 0) else none) else
  let b := slice m (imSig m) 208
  let k := fieldLE b 0 1
  let key := slice b 8 97
  if 3 < k || !bitAt f.keyValid.toNat k || bitAt f.keyRevoked.toNat k || sget [] f.keyHash k != sha384 key then
    some (0xA007, k)
  else if !zeroAt b 1 7 || !zeroAt b 0x69 7 || fieldLE key 0 1 != 4
      || !ecdsaOk (sha384 ([0x58, 0x41, 0x4C, 0x49, 0x54, 0x48, 0x53, 0x47] ++ imDigest m)) (slice key 1 48)
        (slice key 49 48) (slice b 0x70 48) (slice b 0xA0 48) then some (0xA008, 0)
  else none

/-- R41, Table 02-7, step 7: the rules of a partial image. -/
def State.partialBad (s : State) (m : Bytes) : Option (Nat × Nat) :=
  if !imPartial m then none else
  let rule := fun n : Nat => (0xA009, n)
  let mask := imMask m
  let scopes := (imEntries m).map fun x => deScope x.2
  firstBroken [
    (s.img.imageDigest.isEmpty, rule 1),
    (scopes.contains 0xF || imGlobal m != s.img.globalDigest, rule 2),
    (scopes.any fun c => !bitAt mask c, rule 3),
    ([0, 1, 2, 3].any fun c => !bitAt mask c && imChannel m c != sget [] s.img.channelDigest c, rule 4),
    ([0, 1, 2, 3].any fun c => bitAt mask c && s.isPair c && !bitAt mask (partnerOf c), rule 5)]

/-! ### PART (R29), step 8 -/

/-- R29: ROLE of a channel in a PART payload. -/
def ptRole (p : Bytes) (c : Nat) : Nat := fieldLE p c 1
/-- R29: PIPE_POS of a channel. -/
def ptPos (p : Bytes) (c : Nat) : Nat := fieldLE p (4 + c) 1

/-- R29: the Pipeline members form one contiguous arc of two to four channels. -/
def arcOk (l : List Nat) : Bool :=
  l.isEmpty || l.length == 4 || (2 ≤ l.length && l.any fun a => (List.range l.length).all fun i => l.contains ((a + i) % 4))

/-- R29: PIPE_POS runs 0, 1, … along the arc, in one of its directions. -/
def posOk (p : Bytes) (l : List Nat) : Bool :=
  l.isEmpty || l.any fun a => [1, 3].any fun d => (List.range l.length).all fun i =>
    l.contains ((a + d * i) % 4) && ptPos p ((a + d * i) % 4) == i

/-- R29: the roles of a PART payload of at least 16 bytes. -/
def roleBad (p : Bytes) : Option (Nat × Nat) :=
  let chs := [0, 1, 2, 3]
  let first := fun f : Nat → Bool => ((chs.find? f).map fun c => (0xA00B, c) : Option (Nat × Nat))
  let pipe := chs.filter fun c => ptRole p c == 2
  let pair := chs.filter fun c => ptRole p c == 3
  (first fun c => ptRole p c == 0 || 3 < ptRole p c)
  <|> (if arcOk pipe then none else first fun c => pipe.contains c)
  <|> (if posOk p pipe then none else first fun c => pipe.contains c)
  <|> (first fun c => ptRole p c != 2 && ptPos p c != 0xFF)
  <|> (if [[], [0, 1], [2, 3], [0, 1, 2, 3]].contains pair then none else first fun c => pair.contains c)
  <|> (first fun c => bitAt (fieldLE p 8 1) c && ptRole p c != 1)

/-- R29, step 8: the PART payload of an image. -/
def imRoleBad (m : Bytes) : Option (Nat × Nat) :=
  match (imEntries m).find? fun x => deType x.2 == 0x10 with
  | none => none
  | some x => if deLen x.2 < 16 then none else roleBad (dePayload m x.2)

end Sys2Proof.Machine
end

