-- ==== Sys2Proof/Machine/SecRules.lean ====
section
/-! DEFINITION. Verification step 9: the payload rules of each section type (R29, R96, R210, R223, R251, R252, R261, R264, R290,
R291, R306, R327, R331, R352, R373, R396, R413, R415, R462). A payload is judged with the payloads of its type that come before
it in its part. -/
namespace Sys2Proof.Machine

/-! ### Shared shapes -/

/-- A rectangle of logical cells: ROW_FIRST, ROW_LAST, COL_FIRST, COL_LAST. -/
structure Rect where
  r0 : Nat
  r1 : Nat
  c0 : Nat
  c1 : Nat
deriving DecidableEq, Repr

/-- The rectangle at an offset of a payload. -/
def rectAt (p : Bytes) (off : Nat) : Rect := ⟨fieldLE p off 1, fieldLE p (off + 1) 1, fieldLE p (off + 2) 1, fieldLE p (off + 3) 1⟩

/-- In order, and no row or column above 11. -/
def Rect.ok (r : Rect) : Bool := decide (r.r0 ≤ r.r1 ∧ r.r1 ≤ 11 ∧ r.c0 ≤ r.c1 ∧ r.c1 ≤ 11)

/-- Two rectangles share a cell. -/
def Rect.meets (a b : Rect) : Bool := decide (a.r0 ≤ b.r1 ∧ b.r0 ≤ a.r1 ∧ a.c0 ≤ b.c1 ∧ b.c0 ≤ a.c1)

/-- A rectangle holds a row and column. -/
def Rect.has (r : Rect) (row col : Nat) : Bool := decide (r.r0 ≤ row ∧ row ≤ r.r1 ∧ r.c0 ≤ col ∧ col ≤ r.c1)

/-- The logical cells of a rectangle of a channel. -/
def Rect.cells (r : Rect) (ch : Nat) : List Nat := (cellsOf ch).filter fun id => r.has (rowOf id) (colOf id)

/-- No two elements of a list clash. -/
def noClash {α : Type} (clash : α → α → Bool) : List α → Bool
  | [] => true
  | x :: l => !(l.any (clash x)) && noClash clash l

/-- A logical cell id of a channel. -/
def isCellOf (ch v : Nat) : Bool := isLogical v && chOf v == ch

/-- Bytes of local memory (R91). -/
def lmBytes : Nat := 0x180000

/-- A range of HBM of one channel. -/
def channelHbm (ch a n : Nat) : Bool := decide (ch * 2 ^ 37 ≤ a ∧ a + n ≤ (ch + 1) * 2 ^ 37)

/-- The entries of `n` bytes of a payload with a 16-byte header. -/
def tabEntries (p : Bytes) (n : Nat) : List Bytes := (List.range (fieldLE p 0 4)).map fun i => slice p (16 + n * i) n

/-- A payload with ENTRY_COUNT in a 16-byte header, of `lo` to `hi` entries of `n` bytes. -/
def tabHead (p : Bytes) (n hi : Nat) : Bool :=
  decide (16 ≤ p.length ∧ 1 ≤ fieldLE p 0 4 ∧ fieldLE p 0 4 ≤ hi ∧ 16 + n * fieldLE p 0 4 ≤ p.length) && zeroAt p 4 12

/-! ### PART, QUAD, GOV, ISLE, HOST, REGION -/

/-- R29, R261: PART. -/
def partOk (p : Bytes) : Bool :=
  p.length == 48 && fieldLE p 8 1 < 16 && zeroAt p 9 7 && (List.range 4).all fun c =>
    let b := slice p (16 + 8 * c) 8
    fieldLE b 0 1 ≤ 1 && fieldLE b 1 1 == 0 && fieldLE b 2 1 ≤ 96 && fieldLE b 3 1 ≤ 96 && zeroAt b 4 4

/-- R331: QUAD. -/
def quadOk (p : Bytes) : Bool := p.length == 16 && ((List.range 4).all fun i => fieldLE p i 1 ≤ 2) && zeroAt p 4 12

/-- R252: GOV. -/
def govOk (p : Bytes) : Bool :=
  let within := fun v lo hi : Nat => decide (lo ≤ v ∧ v ≤ hi)
  p.length == 32 && fieldLE p 0 1 ≤ 3 && fieldLE p 1 1 ≤ 1 && within (fieldLE p 2 1) 85 104 && within (fieldLE p 3 1) 75 94
    && fieldLE p 4 4 ≤ 1000000 && within (fieldLE p 8 2) 400 1200 && within (fieldLE p 0xA 2) 400 1200 && zeroAt p 0xC 20

/-- Table 12-1: the class range that an ISLE entry's KIND names. -/
def isleKindRange (k : Nat) : Nat × Nat := match k with | 0 => (400, 1800) | 1 => (800, 1600) | 2 => (800, 1400) | _ => (400, 1200)

/-- R251: one ISLE entry. -/
def isleEntryOk (e : Bytes) : Bool :=
  let k := fieldLE e 0 1
  let f := fieldLE e 6 2
  let c := fieldLE e 8 2
  let (lo, hi) := isleKindRange k
  k ≤ 3 && (if k == 0 then (rectAt e 1).ok else zeroAt e 1 4) && fieldLE e 5 1 == 0 && zeroAt e 10 6
    && f % 25 == 0 && c % 25 == 0 && decide (lo ≤ f ∧ f ≤ c ∧ c ≤ hi)

/-- R251: ISLE. -/
def isleOk (p : Bytes) : Bool :=
  tabHead p 16 1024 && p.length == 16 + 16 * fieldLE p 0 4 && (tabEntries p 16).all isleEntryOk
    && noClash (fun a b => fieldLE a 0 1 == fieldLE b 0 1 && (fieldLE a 0 1 != 0 || (rectAt a 1).meets (rectAt b 1))) (tabEntries p 16)

/-- R462: HOST. -/
def hostOk (p : Bytes) : Bool :=
  p.length == 16 && (fieldLE p 8 1 ≤ 63 || fieldLE p 8 1 == 0xFF) && fieldLE p 9 1 ≤ 1 && zeroAt p 10 6

/-- R290: REGION. -/
def regionOk (ch : Nat) (p : Bytes) : Bool :=
  let root := fieldLE p 0 8
  p.length == 16 && fieldLE p 8 1 ≤ 1 && zeroAt p 9 7 && root % 65536 == 0 && (root == 0 || channelHbm ch root 1)

/-! ### ROUTE (R264) -/

/-- The ROUTE entries of KIND 0 in a payload. -/
def routesIn (p : Bytes) : List Bytes := (tabEntries p 32).filter fun e => fieldLE e 0 1 == 0
/-- The RING entries of a payload. -/
def ringsIn (p : Bytes) : List Bytes := (tabEntries p 32).filter fun e => fieldLE e 0 1 == 1
/-- RX_BASE of a RING entry. -/
def rgBase (e : Bytes) : Nat := fieldLE e 8 4
/-- RX_SLOTS of a RING entry. -/
def rgSlots (e : Bytes) : Nat := fieldLE e 0xC 1

/-- R264: one entry. -/
def routeEntryOk (ch : Nat) (e : Bytes) : Bool :=
  let r := rectAt e 4
  let src := fieldLE e 8 2
  zeroAt e 0xD 19 && r.ok &&
  match fieldLE e 0 1 with
  | 0 => decide (1 ≤ fieldLE e 2 1 ∧ fieldLE e 2 1 ≤ 4 ∧ 1 ≤ fieldLE e 0xC 1 ∧ fieldLE e 0xC 1 ≤ 8 ∧ fieldLE e 3 1 ≤ 3)
      && zeroAt e 10 2 && isCellOf ch src && !(fieldLE e 3 1 == ch && r.has (rowOf src) (colOf src))
  | 1 => zeroAt e 1 3 && rgBase e % 8 == 0 && decide (1 ≤ rgSlots e ∧ rgSlots e ≤ 64 ∧ rgBase e + 528 * rgSlots e ≤ lmBytes)
  | _ => false

/-- R264: ROUTE. -/
def routeOk (ch : Nat) (earlier : List Bytes) (p : Bytes) : Bool :=
  tabHead p 32 4096 && p.length == 16 + 32 * fieldLE p 0 4 && (tabEntries p 32).all (routeEntryOk ch)
    && noClash (fun a b => fieldLE a 1 1 == fieldLE b 1 1) ((earlier ++ [p]).flatMap routesIn)
    && noClash (fun a b => (rectAt a 4).meets (rectAt b 4)) ((earlier ++ [p]).flatMap ringsIn)

/-! ### CODE, DATA, FTAB, SCALE -/

/-- LOCAL_OFFSET of a CODE entry. -/
def cdOff (e : Bytes) : Nat := fieldLE e 4 4
/-- LENGTH of a CODE entry. -/
def cdLen (e : Bytes) : Nat := fieldLE e 8 4
/-- BOOT of a CODE entry. -/
def cdBoot (e : Bytes) : Bool := bitAt (fieldLE e 0xC 4) 0

/-- R96: one CODE entry of a payload of `n` bytes. -/
def codeEntryOk (n : Nat) (e : Bytes) : Bool :=
  (rectAt e 0).ok && cdOff e % 8 == 0 && cdLen e % 8 == 0 && cdLen e != 0 && cdOff e + cdLen e ≤ lmBytes
    && fieldLE e 0xC 4 ≤ 1 && zeroAt e 0x18 8 && fieldLE e 0x10 8 % 8 == 0 && fieldLE e 0x10 8 + cdLen e ≤ n

/-- R96: CODE. -/
def codeOk (earlier : List Bytes) (p : Bytes) : Bool :=
  let l := (earlier ++ [p]).flatMap fun q => tabEntries q 32
  tabHead p 32 65536 && (tabEntries p 32).all (codeEntryOk p.length)
    && noClash (fun a b => (rectAt a 0).meets (rectAt b 0)
        && (meets (cdOff a) (cdLen a) (cdOff b) (cdLen b) || (cdBoot a && cdBoot b))) l

/-- DEST of a DATA entry. -/
def daDest (e : Bytes) : Nat := fieldLE e 8 8
/-- LENGTH of a DATA entry. -/
def daLen (e : Bytes) : Nat := fieldLE e 0x10 8
/-- ZERO of a DATA entry. -/
def daZero (e : Bytes) : Bool := bitAt (fieldLE e 1 1) 0
/-- A DATA entry writes local memory. -/
def daLocal (e : Bytes) : Bool := fieldLE e 0 1 == 1
/-- The bytes a DATA entry of a payload writes. -/
def daBytes (p e : Bytes) : Bytes := if daZero e then zeros (daLen e) else slice p (fieldLE e 0x18 8) (daLen e)

/-- R291: one DATA entry of a payload of `n` bytes. -/
def dataEntryOk (n : Nat) (e : Bytes) : Bool :=
  let off := fieldLE e 0x18 8
  fieldLE e 0 1 ≤ 1 && fieldLE e 1 1 ≤ 1 && zeroAt e 2 2 && (if daLocal e then (rectAt e 4).ok else zeroAt e 4 4)
    && daDest e % 8 == 0 && daLen e % 8 == 0 && 8 ≤ daLen e
    && daDest e + daLen e ≤ (if daLocal e then lmBytes else 2 ^ 39)
    && (if daZero e then off == 0 else off % 8 == 0 && off + daLen e ≤ n)

/-- R291: DATA. -/
def dataOk (earlier : List Bytes) (p : Bytes) : Bool :=
  tabHead p 32 65536 && (tabEntries p 32).all (dataEntryOk p.length)
    && noClash (fun a b => daLocal a == daLocal b && (!daLocal a || (rectAt a 4).meets (rectAt b 4))
        && meets (daDest a) (daLen a) (daDest b) (daLen b)) ((earlier ++ [p]).flatMap fun q => tabEntries q 32)

/-- ROW_BASE of an FTAB payload. -/
def ftBase (p : Bytes) : Nat := fieldLE p 8 2
/-- ROW_COUNT of an FTAB payload. -/
def ftRows (p : Bytes) : Nat := fieldLE p 0xA 2

/-- R210: FTAB. -/
def ftabOk (earlier : List Bytes) (p : Bytes) : Bool :=
  let h := slice p 0x10 64
  0x50 ≤ p.length && (rectAt p 0).ok && decide (4 ≤ fieldLE p 4 1 ∧ fieldLE p 4 1 ≤ 15) && zeroAt p 5 3 && zeroAt p 0xC 4
    && thValid h && ftRows p == thRows h && ftBase p + ftRows p ≤ 8192 && p.length == 0x50 + 16 * ftRows p
    && !(earlier.any fun q => (rectAt p 0).meets (rectAt q 0)
        && (fieldLE p 4 1 == fieldLE q 4 1 || meets (ftBase p) (ftRows p) (ftBase q) (ftRows q)))

/-- R223: one SCALE block of a payload. -/
def scaleBlockOk (p b : Bytes) : Bool :=
  let i := fieldLE b 4 2
  let n := fieldLE b 6 2
  let o := fieldLE b 8 8
  (rectAt b 0).ok && n != 0 && i + n ≤ 1024 && o % 8 == 0 && o + 8 * n ≤ p.length
    && (List.range n).all fun k => fieldLE p (o + 8 * k) 8 < 2 ^ 41

/-- R223: SCALE. -/
def scaleOk (p : Bytes) : Bool :=
  tabHead p 16 65536 && (tabEntries p 16).all (scaleBlockOk p)
    && noClash (fun a b => (rectAt a 0).meets (rectAt b 0) && meets (fieldLE a 4 2) (fieldLE a 6 2) (fieldLE b 4 2) (fieldLE b 6 2))
        (tabEntries p 16)

/-! ### INGEST (R306) -/

/-- R306: INGEST. -/
def ingestOk (ch : Nat) (p : Bytes) : Bool :=
  let within := fun v lo hi : Nat => decide (lo ≤ v ∧ v ≤ hi)
  let nf := fieldLE p 0xA 2
  let nm := fieldLE p 0xC 2
  let slots := fieldLE p 8 1
  let stride := fieldLE p 0x18 4
  let info := fieldLE p 0x14 4
  let cell := fieldLE p 0xE 2
  let frags := (List.range nf).map fun i => slice p (64 + 16 * i) 16
  let maps := (List.range nm).map fun i => slice p (64 + 16 * nf + 16 * i) 16
  zeroAt p 2 2 && within (fieldLE p 4 4) 10312500 28050000 && within slots 1 8 && fieldLE p 9 1 == 0 && within nf 1 256
  && within nm 1 4096 && isCellOf ch cell && within (fieldLE p 0x10 4) 1 1000000 && info % 32 == 0 && stride % 8 == 0
  && zeroAt p 0x1C 36 && p.length == 64 + 16 * (nf + nm) && info + 32 * slots ≤ lmBytes
  && (frags.all fun f => fieldLE f 0 2 < 4096 && fieldLE f 2 2 < 256 && fieldLE f 4 2 % 8 == 0
        && within (fieldLE f 4 2) 8 16384 && zeroAt f 6 2)
  && noClash (fun a b => fieldLE a 0 4 == fieldLE b 0 4) frags
  && (maps.all fun m => fieldLE m 0 2 < nf && fieldLE m 2 2 % 8 == 0 && fieldLE m 4 2 % 8 == 0 && 8 ≤ fieldLE m 4 2
        && fieldLE m 2 2 + fieldLE m 4 2 ≤ fieldLE (frags.getD (fieldLE m 0 2) []) 4 2 && isCellOf ch (fieldLE m 6 2)
        && fieldLE m 8 4 % 8 == 0 && fieldLE m 8 4 + (slots - 1) * stride + fieldLE m 4 2 ≤ lmBytes && zeroAt m 0xC 4)
  && noClash (fun a b => fieldLE a 6 2 == fieldLE b 6 2 && meets (fieldLE a 8 4) (fieldLE a 4 2) (fieldLE b 8 4) (fieldLE b 4 2)) maps
  && (maps.all fun m => fieldLE m 6 2 != cell || (List.range slots).all fun k =>
        !meets (fieldLE m 8 4 + k * stride) (fieldLE m 4 2) (info + 32 * k) 32)

/-! ### CAMERA (R327) -/

/-- R327: the areas of a CAMERA payload: base and size. -/
def camAreas (p : Bytes) : List (Nat × Nat) :=
  let ctxs := fieldLE p 4 1
  let px := fieldLE p 8 2 * fieldLE p 10 2
  let raw20 := (List.range ctxs).any fun k => fieldLE p (0x80 + 16 * k + 1) 1 == 0x2F
  let base := fun i : Nat => fieldLE p (0x20 + 8 * i) 8
  [(base 0, ctxs * fieldLE p 0x48 1 * px * (if raw20 then 4 else 2)),
   (base 1, px * 4 * (if fieldLE p 5 1 == 1 then ctxs else 1)), (base 2, 131072), (base 3, 16448),
   (base 4, fieldLE p 0x49 1 * 16384)]

/-- R327: the largest pixel code of a DT, plus 1. -/
def dtCodes (dt : Nat) : Nat := match dt with
  | 0x2A => 2 ^ 8 | 0x2B => 2 ^ 10 | 0x2C => 2 ^ 12 | 0x2D => 2 ^ 14 | 0x2E => 2 ^ 16 | _ => 2 ^ 20

/-- R327: the rows of bytes that a map entry writes for slot 0: start and length of each. -/
def mapRows (w : Nat) (e : Bytes) : List (Nat × Nat) :=
  (List.range (fieldLE e 4 2)).map fun i => (fieldLE e 0x10 8 + i * fieldLE e 0xC 4, fieldLE e 8 2 * 16 * w)

/-- R327: one map entry. -/
def camMapOk (ch : Nat) (p : Bytes) (w : Nat) (e : Bytes) : Bool :=
  let n := fieldLE e 4 2
  let cols := fieldLE e 8 2
  let span := (fieldLE p 0x4A 1 - 1) * fieldLE p 0x50 4 + (n - 1) * fieldLE e 0xC 4 + cols * 16 * w
  fieldLE e 0 1 ≤ 1 && fieldLE e 1 1 == 0 && n != 0 && cols != 0 && fieldLE e 2 2 + n ≤ fieldLE p 10 2
    && fieldLE e 6 2 + cols ≤ fieldLE p 8 2 && fieldLE e 0xC 4 % 8 == 0 && cols * 16 * w ≤ fieldLE e 0xC 4
    && fieldLE e 0x10 8 % 8 == 0 && zeroAt e 0x18 8
    && (if fieldLE e 0 1 == 0 then isCellOf ch (fieldLE e 0xA 2) && fieldLE e 0x10 8 + span ≤ lmBytes
        else fieldLE e 0xA 2 == 0 && fieldLE e 0x10 8 + span ≤ 2 ^ 39)

/-- R327: CAMERA. -/
def cameraOk (ch : Nat) (p : Bytes) : Bool :=
  let within := fun v lo hi : Nat => decide (lo ≤ v ∧ v ≤ hi)
  let cphy := fieldLE p 0 1 == 1
  let ctxs := fieldLE p 4 1
  let w := if fieldLE p 6 1 == 2 then 2 else 1
  let nm := fieldLE p 0x56 2
  let slots := fieldLE p 0x4A 1
  let stride := fieldLE p 0x50 4
  let info := fieldLE p 0x58 4
  let cell := fieldLE p 0x54 2
  let maps := (List.range nm).map fun i => slice p (0xC0 + 32 * i) 32
  let ctx := fun k : Nat => slice p (0x80 + 16 * k) 16
  let areas := camAreas p
  fieldLE p 0 1 ≤ 1 && (if cphy then within (fieldLE p 1 1) 1 3 else [1, 2, 4].contains (fieldLE p 1 1))
  && within (fieldLE p 2 2) 80 (if cphy then 6000 else 4500) && within ctxs 1 4 && fieldLE p 5 1 ≤ 1
  && [1, 2, 4].contains (fieldLE p 6 1) && fieldLE p 7 1 ≤ 3 && within (fieldLE p 8 2) 4 8192 && fieldLE p 8 2 % 4 == 0
  && within (fieldLE p 10 2) 4 8192 && fieldLE p 0xC 1 < 128
  && (if bitAt (fieldLE p 7 1) 1 then fieldLE p 0xD 1 == 3 else fieldLE p 0xD 1 ≤ 2)
  && ((List.range 4).all fun k => within (bits (fieldLE p 0xE 2) (4 * k) 4) 1 4)
  && within (fieldLE p 0x10 4) 1 100000 && within (fieldLE p 0x14 4) 1 1000000 && within (fieldLE p 0x18 4) 1 1000000
  && fieldLE p 0x1C 4 != 0 && within (fieldLE p 0x48 1) 2 8 && within (fieldLE p 0x49 1) 1 64 && within slots 1 8
  && within (fieldLE p 0x4B 1) 16 255 && stride % 8 == 0 && isCellOf ch cell && within nm 1 4096 && info % 32 == 0
  && info + 32 * slots ≤ lmBytes && zeroAt p 0x5C 36 && p.length == 0xC0 + 32 * nm
  && ((List.range 4).all fun k =>
        let c := ctx k
        if ctxs ≤ k then zeroAt c 0 16
        else fieldLE c 0 1 ≤ 15 && within (fieldLE c 1 1) 0x2A 0x2F && fieldLE c 2 1 ≤ 1 && fieldLE c 3 1 == 0
          && fieldLE c 4 4 < dtCodes (fieldLE c 1 1) && zeroAt c 8 8)
  && noClash (fun a b => fieldLE (ctx a) 0 2 == fieldLE (ctx b) 0 2) (List.range ctxs)
  && (areas.all fun a => a.1 % 64 == 0 && channelHbm ch a.1 a.2) && noClash (fun a b => meets a.1 a.2 b.1 b.2) areas
  && (maps.all (camMapOk ch p w))
  && noClash (fun a b => fieldLE a 0 1 == fieldLE b 0 1 && (fieldLE a 0 1 == 1 || fieldLE a 0xA 2 == fieldLE b 0xA 2)
        && (mapRows w a).any fun x => (mapRows w b).any fun y => meets x.1 x.2 y.1 y.2) maps
  && (maps.all fun m => fieldLE m 0 1 == 1 || fieldLE m 0xA 2 != cell || (List.range slots).all fun k =>
        (mapRows w m).all fun x => !meets (x.1 + k * stride) x.2 (info + 32 * k) 32)

/-! ### WAGGLE (R352) -/

/-- R352: a port entry. -/
def wgPortOk (e : Bytes) : Bool :=
  let within := fun v lo hi : Nat => decide (lo ≤ v ∧ v ≤ hi)
  fieldLE e 0 1 ≤ 3 && fieldLE e 1 1 ≤ 1 && fieldLE e 2 1 ≤ 1 && within (fieldLE e 3 1) 1 4 && fieldLE e 5 1 ≤ 3
    && fieldLE e 6 2 != 0 && fieldLE e 8 2 != 0 && 250 ≤ fieldLE e 0xA 2 && fieldLE e 0xC 4 ≤ 1000000 && zeroAt e 0x10 16

/-- R352: a stream entry. -/
def wgStreamOk (e : Bytes) : Bool :=
  fieldLE e 0 1 ≤ 3 && fieldLE e 2 1 ≤ 3 && wsKind e ≤ 4 && wsSink e ≤ 2 && fieldLE e 5 1 == 0 && isLogical (wsSinkCell e)
    && wsReserve e ≤ 64 && zeroAt e 9 7

/-- R352: a hop of a chain: KIND, QUAD and STREAM at an offset; a Waggle hop names a CHAIN stream in a direction. -/
def wgHopOk (streams : List Bytes) (e : Bytes) (off : Nat) (tx needed : Bool) : Bool :=
  let k := fieldLE e off 1
  k ≤ 2 && (k == 0) != needed && (k != 2 || streams.any fun s =>
    fieldLE s 0 1 == fieldLE e (off + 1) 1 && fieldLE s 1 1 == fieldLE e (off + 2) 1 && wsKind s == 2
      && (if tx then wsTx s else wsRx s))

/-- R352: a chain entry. -/
def wgChainOk (streams : List Bytes) (e : Bytes) : Bool :=
  let within := fun v lo hi : Nat => decide (lo ≤ v ∧ v ≤ hi)
  ceStation e ≤ 31 && within (ceCount e) 2 32 && within (ceForm e) 1 2 && within (ceRecords e) 1 6144 && isLogical (ceCell e)
    && wgHopOk streams e 8 true (ceStation e + 1 != ceCount e) && fieldLE e 0xB 1 ≤ 3
    && wgHopOk streams e 0xC false (ceStation e != 0) && fieldLE e 0xF 1 == 0
    && (if ceStation e == 0 then ceTimeout e == 0 else within (ceTimeout e) 1 1000000) && zeroAt e 0x14 12

/-- R352: WAGGLE. -/
def waggleOk (p : Bytes) : Bool :=
  let np := fieldLE p 0 1
  let nc := fieldLE p 1 1
  let ns := fieldLE p 2 2
  np ≤ 4 && nc ≤ 64 && ns ≤ 64 && zeroAt p 4 12 && p.length == 16 + 32 * np + 16 * ns + 32 * nc
    && (wgPorts p).all wgPortOk && noClash (fun a b => fieldLE a 0 1 == fieldLE b 0 1) (wgPorts p)
    && (wgStreams p).all wgStreamOk && noClash (fun a b => fieldLE a 0 2 == fieldLE b 0 2) (wgStreams p)
    && ((wgStreams p).all fun s => (wgPorts p).any fun q => fieldLE q 0 1 == fieldLE s 0 1)
    && (wgChains p).all (wgChainOk (wgStreams p)) && noClash (fun a b => fieldLE a 0 2 == fieldLE b 0 2) (wgChains p)

/-! ### LAUNCH (R396) -/

/-- R396: one entry, the counts of the pools beside it. -/
def launchEntryOk (n rp pp fp : Nat) (e : Bytes) : Bool :=
  let within := fun v lo hi : Nat => decide (lo ≤ v ∧ v ≤ hi)
  let t := leTrigger e
  t ≤ 5 && leCtl e < 32 && (fieldLE e 2 2 == 0xFFFF || fieldLE e 2 2 < n) && (rectAt e 4).ok && modeOk (leMode e)
    && leStart e % 8 == 0 && leStart e < lmBytes && within (leSwarms e) 1 15 && within (leVb e) 1 16 && leSwarms e * leVb e ≤ 64
    && fieldLE e 0x1A 1 ≤ 16 && fieldLE e 0x18 2 + fieldLE e 0x1A 1 ≤ rp
    && fieldLE e 0x1B 1 ≤ 8 && fieldLE e 0x1C 2 + fieldLE e 0x1B 1 ≤ pp
    && fieldLE e 0x1E 1 ≤ 8 && fieldLE e 0x20 2 + fieldLE e 0x1E 1 ≤ fp
    && fieldLE e 0x1F 1 == 0 && zeroAt e 0x22 2 && leOutKind e ≤ 2 && leOutQuad e ≤ 3
    && fieldLE e 0x2F 1 ≤ 32 && fieldLE e 0x2F 1 % 8 == 0
    && (leResultLen e == 0 || (within (leResultLen e) 8 16344 && leResultLen e % 8 == 0)) && zeroAt e 0x34 12 && zeroAt e 0x60 32
    && (if t == 0 then zeroAt e 0x24 9 && fieldLE e 0x2F 1 == 0 && leResultLen e == 0 && zeroAt e 0x40 32
        else (leOutKind e != 2 || leHostQueue e ≤ 63 || leHostQueue e == 0xFFFF)
          && (if leOutKind e == 0 then leDeadline e == 0 else leResultLen e != 0))

/-- R396: entries of the sequence that starts at entry `i`, while `fuel` lasts. -/
def seqFrom (l : List Bytes) : Nat → Nat → List Nat
  | 0, _ => []
  | fuel + 1, i => match l[i]? with
    | none => []
    | some e => i :: (match leNext e with
      | none => []
      | some n => seqFrom l fuel n)

/-- R386, R396: bytes of a save area that an entry with PREEMPT needs. -/
def saveNeed (p e : Bytes) : Nat :=
  64 + leSwarms e * (704 + 2048 * leVb e) + 199680
    + total ((List.range (fieldLE e 0x1E 1)).map fun i => fieldLE p (poolFoot p + 8 * (fieldLE e 0x20 2 + i) + 4) 4)
    + total ((List.range (fieldLE e 0x1B 1)).map fun i => fieldLE p (poolReplicas p + 24 * (fieldLE e 0x1C 2 + i) + 8) 4)

/-- R396: LAUNCH. -/
def launchOk (ch : Nat) (p : Bytes) : Bool :=
  let n := fieldLE p 0 2
  let rp := fieldLE p 2 2
  let pp := fieldLE p 4 2
  let fp := fieldLE p 6 2
  let base := fieldLE p 8 8
  let stride := fieldLE p 0x10 4
  let l := (List.range n).map fun i => slice p (64 + 128 * i) 128
  let pre := l.filter lePreempt
  decide (1 ≤ n ∧ n ≤ 1024 ∧ rp ≤ 4096 ∧ pp ≤ 1024 ∧ fp ≤ 1024) && base % 65536 == 0 && stride % 65536 == 0
    && (base == 0 || channelHbm ch base 1) && zeroAt p 0x14 44 && p.length == 64 + 128 * n + 8 * rp + 24 * pp + 8 * fp
    && l.all (launchEntryOk n rp pp fp)
    && ((List.range rp).all fun i => fieldLE p (poolRegions p + 8 * i) 8 < 2 ^ 52)
    && ((List.range pp).all fun i =>
          let r := slice p (poolReplicas p + 24 * i) 24
          let len := fieldLE r 8 4
          let lo := fieldLE r 12 4
          fieldLE r 0 8 < 2 ^ 52 && len % 64 == 0 && 64 ≤ len && lo % 64 == 0 && lo + len ≤ lmBytes && zeroAt r 16 8)
    && ((List.range fp).all fun i =>
          let r := slice p (poolFoot p + 8 * i) 8
          fieldLE r 0 4 % 8 == 0 && fieldLE r 4 4 % 8 == 0 && fieldLE r 0 4 + fieldLE r 4 4 ≤ lmBytes)
    && (l.filter fun e => leTrigger e == 1).length ≤ 1 && (l.filter fun e => leTrigger e == 2).length ≤ 1
    && (l.all fun e => match leNext e with
          | none => true
          | some k => leTrigger (l.getD k []) == 0)
    && ((List.range n).all fun i => (seqFrom l (n + 1) i).length ≤ (if leTrigger (l.getD i []) == 0 then n else min n 16))
    && (pre.isEmpty || (base != 0 && stride != 0)) && (base == 0 || stride == 0 || channelHbm ch base (2304 * stride))
    && pre.all fun e => saveNeed p e ≤ stride

/-! ### SAFETY, TIME, HOARD -/

/-- R415: a function entry. -/
def fnOk (e : Bytes) : Bool :=
  let within := fun v lo hi : Nat => decide (lo ≤ v ∧ v ≤ hi)
  let dev := fieldLE e 0 1 == 2
  let m := fieldLE e 1 1
  let simplex := bitAt (fieldLE e 2 1) 0
  let hb := fieldLE e 0xC 2
  let pt := fieldLE e 0xE 2
  let limit := fieldLE e 0x10 4
  (dev || fieldLE e 0 1 == 1) && (if dev then m < 16 else m == 3 || m == 12) && fieldLE e 2 1 < 8
    && (if dev then fieldLE e 3 1 ≤ 15 else zeroAt e 3 3) && fieldLE e 6 2 != 0 && within (fieldLE e 8 4) 100 10000000
    && (if dev then within hb 1 100 && within pt (2 * hb) 1000 && 1000 * pt < fieldLE e 8 4 else hb == 0 && pt == 0 && !simplex)
    && (if simplex then within limit 1 3600000 else limit == 0) && zeroAt e 0x14 44

/-- R415: SAFETY. -/
def safetyOk (p : Bytes) : Bool :=
  fieldLE p 0 1 ≤ 2 && zeroAt p 1 15 && p.length == 16 + 64 * fieldLE p 0 1
    && (List.range (fieldLE p 0 1)).all fun f => fnOk (slice p (16 + 64 * f) 64)

/-- R373: TIME. -/
def timeOk (p : Bytes) : Bool :=
  let within := fun v lo hi : Nat => decide (lo ≤ v ∧ v ≤ hi)
  let dev := fieldLE p 0 1
  let role := fieldLE p 1 1
  let n := fieldLE p 4 2
  let master := fieldLE p 6 1
  let ids := (List.range n).map fun i => fieldLE p (64 + 56 * i) 1
  role ≤ 2 && (n == 0 || within n 2 256) && fieldLE p 7 1 < 8 && (fieldLE p 8 4 == 0 || within (fieldLE p 8 4) 10000 200000)
    && within (fieldLE p 0xC 2) 1 1000 && within (fieldLE p 0xE 2) 1 60000
    && (fieldLE p 0x10 1 ≤ 15 || fieldLE p 0x10 1 == 0xFF) && zeroAt p 0x12 46 && p.length == 64 + 56 * n
    && ((List.range n).all fun i => zeroAt p (64 + 56 * i + 1) 7)
    && ((List.range (n - 1)).all fun i => decide (ids.getD i 0 < ids.getD (i + 1) 0))
    && (if role == 0 then n == 0 else 2 ≤ n && ids.contains dev && ids.contains master)
    && (role != 1 || dev == master) && (role != 2 || dev != master)

/-- R413: HOARD. -/
def hoardOk (p : Bytes) : Bool :=
  let mode := fieldLE p 0 1
  let base := fieldLE p 8 8
  let size := fieldLE p 16 8
  p.length == 32 && mode ≤ 3 && fieldLE p 1 1 ≤ 1 && zeroAt p 2 6 && zeroAt p 24 8
    && (if mode == 1 || mode == 2 then base % 65536 == 0 && size % 65536 == 0 && decide (65536 ≤ size ∧ size ≤ 2 ^ 36)
          && channelHbm (base / 2 ^ 37) base size && base < 2 ^ 39
        else base == 0 && size == 0)

/-! ### Every type -/

/-- Table 02-5, step 9: a payload of a TYPE in a part, with the payloads of its type before it. -/
def payloadOk (ch type ver : Nat) (earlier : List Bytes) (p : Bytes) : Bool :=
  type == 0xF0 || (ver == 1 && match type with
    | 0x10 => partOk p | 0x20 => isleOk p | 0x21 => govOk p | 0x30 => routeOk ch earlier p | 0x40 => quadOk p
    | 0x41 => waggleOk p | 0x42 => ingestOk ch p | 0x50 => cameraOk ch p | 0x60 => ftabOk earlier p | 0x70 => safetyOk p
    | 0x80 => timeOk p | 0x90 => hoardOk p | 0xA0 => hostOk p | 0xB0 => regionOk ch p | 0xC0 => codeOk earlier p
    | 0xC1 => dataOk earlier p | 0xC2 => scaleOk p | 0xD0 => launchOk ch p
    | _ => false)

end Sys2Proof.Machine
end

