-- ==== Sys2Proof/Machine/ImgVerify.lean ====
section
/-! DEFINITION. Pass 1 of a load: the payloads (step 9), their consistency (step 10: R34, R264, R352, R373, R396, R413, R415),
safety arming (step 11: R42) and package fit (step 12: R35 to R39). -/
namespace Sys2Proof.Machine

/-! ### The payloads of a pair's follower -/

/-- R14: an HBM address of the partner becomes the channel's own. -/
def moveAddr (ch off : Nat) (p : Bytes) : Bytes :=
  let a := fieldLE p off 8
  if off + 8 ≤ p.length && isHbm a && a / 2 ^ 37 == partnerOf ch then patch p off (leBytes 8 (translateTo ch a)) else p

/-- `moveAddr` where 0 stands for no address. -/
def moveAddr0 (ch off : Nat) (p : Bytes) : Bytes := if fieldLE p off 8 == 0 then p else moveAddr ch off p

/-- R14: a cell id of the partner becomes the channel's own. -/
def moveCell (ch off : Nat) (p : Bytes) : Bytes :=
  let v := fieldLE p off 2
  if off + 2 ≤ p.length && v < 1024 && chOf v == partnerOf ch then patch p off (leBytes 2 (v % 256 + 256 * ch)) else p

/-- Changes a payload at the offsets of `n` entries. -/
def eachEntry (n base size : Nat) (f : Nat → Bytes → Bytes) (p : Bytes) : Bytes :=
  (List.range (min n p.length)).foldl (fun p i => f (base + size * i) p) p

/-- Table 01-4, R14: the one section of a pair, translated to a channel of it. -/
def ownPayload (ch type : Nat) (p : Bytes) : Bytes :=
  match type with
  | 0xB0 => moveAddr0 ch 0 p
  | 0xC1 => eachEntry (fieldLE p 0 4) 16 32 (fun o p => if fieldLE p o 1 == 0 then moveAddr ch (o + 8) p else p) p
  | 0x30 => eachEntry (fieldLE p 0 4) 16 32 (fun o p =>
      if fieldLE p o 1 != 0 then p else
      let p := moveCell ch (o + 8) p
      if fieldLE p (o + 3) 1 == partnerOf ch && o + 4 ≤ p.length then patch p (o + 3) (leBytes 1 ch) else p) p
  | 0x42 => eachEntry (fieldLE p 0xC 2) (64 + 16 * fieldLE p 0xA 2) 16 (fun o => moveCell ch (o + 6)) (moveCell ch 0xE p)
  | 0x50 => eachEntry (fieldLE p 0x56 2) 0xC0 32 (fun o p =>
      if fieldLE p o 1 == 1 then moveAddr ch (o + 0x10) p else moveCell ch (o + 0xA) p)
      (eachEntry 5 0x20 8 (moveAddr ch) (moveCell ch 0x54 p))
  | 0x41 => eachEntry (fieldLE p 1 1) (16 + 32 * fieldLE p 0 1 + 16 * fieldLE p 2 2) 32 (fun o => moveCell ch (o + 6))
      (eachEntry (fieldLE p 2 2) (16 + 32 * fieldLE p 0 1) 16 (fun o => moveCell ch (o + 6)) p)
  | 0xD0 => eachEntry (fieldLE p 4 2) (poolReplicas p) 24 (moveAddr ch)
      (eachEntry (fieldLE p 2 2) (poolRegions p) 8 (moveAddr ch) (moveAddr0 ch 8 p))
  | _ => p

/-! ### The resulting configuration -/

/-- The PART payload of an image; empty for a partial image. -/
def imPartPayload (m : Bytes) : Bytes :=
  (((imEntries m).find? fun x => deType x.2 == 0x10).map fun x => dePayload m x.2).getD []

/-- R29: the roles that the load leaves. -/
def State.newRoles (s : State) (m : Bytes) : List Nat :=
  if imPartial m then s.img.roles else [0, 1, 2, 3].map (ptRole (imPartPayload m))

/-- The payload of an entry as its channel reads it. -/
def State.ownPart (s : State) (m e : Bytes) : Bytes :=
  let ch := deScope e
  if ch % 2 == 1 && ch < 4 && (s.newRoles m).getD ch 0 == 3 then ownPayload ch (deType e) (dePayload m e) else dePayload m e

/-- The sections of a part, in the order of application; a NOTE is not applied. -/
def State.newPart (s : State) (m : Bytes) (scope : Nat) : List Section :=
  ((imPart m scope).filter fun x => deType x.2 != 0xF0).map fun x => { type := deType x.2, payload := s.ownPart m x.2 }

/-- The device with the sections and roles that the load leaves. -/
def State.withImage (s : State) (m : Bytes) : State :=
  { s with img := { s.img with
      globals := if imPartial m then s.img.globals else s.newPart m 0xF
      parts := (imChannels m).foldl (fun l c => sset [] l c (s.newPart m c)) s.img.parts
      roles := s.newRoles m } }

/-- The directory index of the k-th section of a TYPE in a part; 0 for a part that the image does not carry. -/
def idxOf (m : Bytes) (scope type k : Nat) : Nat := ((imPart m scope).filter fun x => deType x.2 == type).map (·.1) |>.getD k 0

/-! ### Step 9 -/

/-- The first payload of a part that breaks a rule. -/
def State.partBad (s : State) (m : Bytes) (ch : Nat) : List (Nat × Bytes) → List (Nat × Bytes) → Option (Nat × Nat)
  | [], _ => none
  | x :: l, before =>
    let t := deType x.2
    let p := s.ownPart m x.2
    if payloadOk ch t (deVer x.2) ((before.filter fun y => y.1 == t).map (·.2)) p then s.partBad m ch l (before ++ [(t, p)])
    else some (0xA00A, x.1)

/-- Table 02-5, step 9. -/
def State.payloadsBad (s : State) (m : Bytes) : Option (Nat × Nat) :=
  [0xF, 0, 1, 2, 3].findSome? fun ch => s.partBad m ch (imPart m ch) []

/-! ### Step 10: static routes (R263, R264) -/

/-- Steps of a path: each element with the next. -/
def stepsOf : List Nat → List (Nat × Nat)
  | a :: b :: l => (a, b) :: stepsOf (b :: l)
  | _ => []

/-- The static routes of a channel: section number and entry. -/
def State.routes (s : State) (ch : Nat) : List (Nat × Bytes) :=
  let l := s.sections ch 0x30
  (List.range l.length).flatMap fun k => (routesIn (l.getD k [])).map fun e => (k, e)

/-- R263: the tree of a route: every step from one router to the next. -/
def State.routeTree (s : State) (e : Bytes) : List (Nat × Nat) :=
  ((routeDests e).flatMap fun d => stepsOf (s.path (.cell (fieldLE e 8 2)) (.cell d))).eraseDups

/-- Every route of the device: channel, section number, entry and tree. -/
def State.plannedRoutes (s : State) : List (Nat × Nat × Bytes × List (Nat × Nat)) :=
  [0, 1, 2, 3].flatMap fun ch => (s.routes ch).map fun r => (ch, r.1, r.2, s.routeTree r.2)

/-- R264: why a route does not fit the configuration. -/
def State.routeBad (s : State) (all : List (Nat × Nat × Bytes × List (Nat × Nat))) (e : Bytes) (tree : List (Nat × Nat)) : Bool :=
  let crosses := fun st : Nat × Nat => chOf st.1 != chOf st.2
  let slots := fun st => total ((all.filter fun r => r.2.2.2.contains st).map fun r => fieldLE r.2.2.1 2 1)
  let grant := fun st : Nat × Nat =>
    fieldLE (s.global 0x10) (16 + 8 * chOf st.1 + if hopUp (chOf st.1, chOf st.2) then 2 else 3) 1
  let beats := fun st : Nat × Nat => total ((all.filter fun r => r.2.2.2.any fun x =>
    crosses x && chOf x.1 == chOf st.1 && chOf x.2 == chOf st.2).map fun r => fieldLE r.2.2.1 2 1)
  (tree.any fun st => (if crosses st then 8 else 4) < slots st)
  || (tree.any fun st => crosses st && (grant st < beats st || s.role (chOf st.2) == 3))
  || (routeDests e).any fun d => match s.ringOf d with
    | none => true
    | some g => g.2 < total ((all.filter fun r => (routeDests r.2.2.1).contains d).map fun r => fieldLE r.2.2.1 0xC 1)

/-! ### Step 10: the other rules -/

/-- R352: a chain of a channel's part holds a station. -/
def State.hasStation (s : State) (ch cid st : Nat) : Bool := (wgChains (s.section1 ch 0x41)).any fun e => ceId e == cid && ceStation e == st

/-- R352: an in-device hop of a chain entry leads nowhere. -/
def State.hopBad (s : State) (e : Bytes) : Bool :=
  (fieldLE e 8 1 == 1 && !s.hasStation (fieldLE e 0xB 1) (ceId e) (ceStation e + 1))
  || (fieldLE e 0xC 1 == 1 && !([0, 1, 2, 3].any fun c => s.hasStation c (ceId e) (ceStation e - 1)))

/-- R352: a quad is a Waggle quad whose stream has a KIND and the directions asked for. -/
def State.streamIs (s : State) (q st : Nat) (kind : Option Nat) (tx rx : Bool) : Bool :=
  s.quadRole q == 1 && match s.wgStream q st with
    | none => false
    | some e => (kind.all fun k => wsKind e == k) && (!tx || wsTx e) && (!rx || wsRx e)

/-- R373: the upstream of the TIME section. -/
def State.upstreamBad (s : State) : Bool :=
  let p := s.global 0x80
  match fieldLE p 1 1 with
  | 2 => 16 ≤ fieldLE p 0x10 1 || !s.streamIs (fieldLE p 0x10 1) (fieldLE p 0x11 1) (some 3) true true
  | 1 => fieldLE p 0x10 1 != 0xFF
  | _ => false

/-- R396: a launch-table entry names an output path or a chain that is not there. -/
def State.launchBad (s : State) (ch : Nat) (e : Bytes) : Bool :=
  (leOutKind e == 1 && !s.streamIs (4 * ch + leOutQuad e) (leOutStream e) none true false)
  || match leChain e with
    | none => false
    | some i => match s.chainEntry ch i with
      | none => true
      | some c => !(isCellOf ch (ceCell c) && (rectAt e 4).has (rowOf (ceCell c)) (colOf (ceCell c)))

/-- R413: the areas of HBM that the Hoard ring may not overlap. -/
def State.ringFoes (s : State) : List (Nat × Nat) :=
  [0, 1, 2, 3].flatMap fun ch =>
    ((s.sections ch 0xC1).flatMap fun p => ((tabEntries p 32).filter fun e => !daLocal e).map fun e => (daDest e, daLen e))
    ++ (s.sections ch 0x50).flatMap camAreas
    ++ (if s.saveBase ch == 0 then [] else [(s.saveBase ch, 2304 * s.saveStride ch)])
    ++ (if fieldLE (s.section1 ch 0xB0) 0 8 == 0 then [] else [(fieldLE (s.section1 ch 0xB0) 0 8, 65536)])

/-- R415: a function entry does not fit the roles and ports. -/
def State.fnBad (s : State) (f : Nat) : Bool :=
  let e := s.fnEntry f
  let m := s.fnChannels f
  let q := fieldLE e 3 1
  let chs := [0, 1, 2, 3].filter fun c => bitAt m c
  (List.range f).any (fun g => s.fnChannels g &&& m != 0)
  || if s.fnDevice f then
      chs.any s.isPair || !chs.contains (quadCh q) || s.quadRole q != 1
      || (match s.wgPort q with
          | none => true
          | some p => !wpPair p || wpPeer p != fieldLE e 5 1)
      || !s.streamIs q (fieldLE e 4 1) (some 4) true true
    else chs.any fun c => !s.isPair c

/-- R34 and the rules of step 10 of the other chapters, judged on the resulting configuration; `src` is the source range of a
load from HBM. The order of the rules is log entry 80. -/
def State.conflict (s : State) (m : Bytes) (src : Option (Nat × Nat)) : Option (Nat × Nat) :=
  let chs := [0, 1, 2, 3]
  let bad := fun i : Nat => (0xA00C, i)
  let datas := chs.flatMap fun ch => (List.range (s.sections ch 0xC1).length).flatMap fun k =>
    ((tabEntries ((s.sections ch 0xC1).getD k []) 32).filter fun e => !daLocal e).map fun e => (ch, k, daDest e, daLen e)
  let all := s.plannedRoutes
  let hrd := s.hrdMode == 1 || s.hrdMode == 2
  firstBroken (
    (chs.map fun ch => ((wgPorts (s.section1 ch 0x41)).any (fun p => s.quadRole (4 * ch + fieldLE p 0 1) != 1), bad (idxOf m ch 0x41 0)))
    ++ (chs.map fun ch => ((List.range 16).any (fun n =>
          bitAt (fieldLE (s.section1 ch 0x42) 0 2) n && s.quadRole (4 * ch + n / 4) != 2), bad (idxOf m ch 0x42 0)))
    ++ ([0, 2].map fun ch => (s.role ch == 3 && pairDigest (imPart m ch) != pairDigest (imPart m (ch + 1)), bad (idxOf m 0xF 0x10 0)))
    ++ (datas.map fun d => ((imChannels m).contains d.1 && src.any (fun r => meets d.2.2.1 d.2.2.2 r.1 r.2), bad (idxOf m d.1 0xC1 d.2.1)))
    ++ (datas.map fun d => (!channelHbm d.1 d.2.2.1 d.2.2.2, bad (idxOf m d.1 0xC1 d.2.1)))
    ++ (all.map fun r => (s.routeBad all r.2.2.1 r.2.2.2, bad (idxOf m r.1 0x30 r.2.1)))
    ++ (chs.map fun ch => ((wgChains (s.section1 ch 0x41)).any s.hopBad, bad (idxOf m ch 0x41 0)))
    ++ [(s.upstreamBad, bad (idxOf m 0xF 0x80 0))]
    ++ (chs.map fun ch => ((List.range (s.launchCount ch)).any (fun n => s.launchBad ch (s.launchEntry ch n)), bad (idxOf m ch 0xD0 0)))
    ++ [(hrd && s.ringFoes.any (fun x => meets s.hrdBase s.hrdSize x.1 x.2), bad (idxOf m 0xF 0x90 0)),
        ((List.range s.fnCount).any s.fnBad, bad (idxOf m 0xF 0x70 0)),
        (chs.any (fun c => s.role c == 3 && !((List.range s.fnCount).any fun f => !s.fnDevice f && bitAt (s.fnChannels f) c)),
          bad (if s.fnCount == 0 then idxOf m 0xF 0x10 0 else idxOf m 0xF 0x70 0))]
    ++ (chs.map fun ch => ((wgPorts (s.section1 ch 0x41)).any (fun p => wpPair p &&
          !((List.range s.fnCount).any fun f => s.fnDevice f && fieldLE (s.fnEntry f) 3 1 == 4 * ch + fieldLE p 0 1)),
          bad (idxOf m ch 0x41 0))))

/-! ### Steps 11 and 12 -/

/-- R42: the channels of the load in functions held armed. -/
def State.armedMask (s : State) (m : Bytes) : Nat :=
  maskOf 4 fun c => (imChannels m).contains c && (List.range s.fnCount).any fun f => (s.fn f).held && bitAt (s.fnChannels f) c

/-- R38: the failed physical cells of a channel's column: their rows, rising. -/
def State.failedRows (s : State) (ch col : Nat) : List Nat :=
  sortNat ((s.img.failed.filter fun x => chOf x.1 == ch && colOf x.1 == col).map fun x => rowOf x.1)

/-- R37: the second failed cell of the first column of a channel that has two. -/
def State.secondFailure (s : State) (ch : Nat) : Option Nat :=
  (List.range 12).findSome? fun k => ((s.failedRows ch k)[1]?).map fun r => cellId ch r k

/-- R39: a failed cell that the binding of the previous load used, or any in a channel that had none. -/
def State.frozenFailure (s : State) (ch : Nat) : Option Nat :=
  (sortNat ((s.img.failed.filter fun x => chOf x.1 == ch).map (·.1))).find? fun p =>
    !bitAt s.img.everBound ch || rowOf p != s.failedRowOf ch (colOf p)

/-- R37: a stack of a channel that is absent. -/
def State.missingStack (s : State) (ch : Nat) : Option Nat := [2 * ch, 2 * ch + 1].find? fun k => !s.stackUp k

/-- R29: DEGRADE_MASK of the resulting configuration. -/
def State.degradeOf (s : State) (ch : Nat) : Bool := bitAt (fieldLE (s.global 0x10) 8 1) ch

/-- R37, R39: why a channel of the load cannot be bound. -/
def State.bindBad (s : State) (freeze : Bool) (ch : Nat) : Option (Nat × Nat) :=
  if freeze then (s.frozenFailure ch).map fun p => (0xA00F, p)
  else (s.secondFailure ch).map fun p => (0xA00D, p)

/-- Table 02-5, step 12, on the resulting configuration. -/
def State.fitBad (s : State) (m : Bytes) : Option (Nat × Nat) :=
  let chs := imChannels m
  let freeze := s.rd Reg.imgBindCtlFreeze == 1
  let degraded := fun c => s.degradeOf c && (s.missingStack c).isSome
  (chs.findSome? fun c => if s.degradeOf c then none else (s.missingStack c).map fun k => (0xA00E, k))
  <|> (if imPartial m || !(s.hrdMode == 1 || s.hrdMode == 2) then none
       else (s.absentStack s.hrdBase s.hrdSize).map fun k => (0xA00E, k))
  <|> chs.findSome? fun c =>
    if degraded c || (!freeze && s.degradeOf c) then none else s.bindBad freeze c

/-- R33: pass 1 over the bytes of a source of length `n`. -/
def State.verify (s : State) (m : Bytes) (n : Nat) (src : Option (Nat × Nat)) : Option (Nat × Nat) :=
  let t := s.withImage m
  (if slice m 0 8 != [0x58, 0x41, 0x4C, 0x49, 0x54, 0x48, 0x49, 0x4D] || fieldLE m 8 2 != 0x100 then some (0xA001, 0) else none)
  <|> headerBad m n
  <|> (if fieldLE m 0x10 2 != 0x576 || fieldLE m 0x12 1 != 0x21 then some (0xA003, 0) else none)
  <|> directoryBad m <|> digestBad m <|> s.signatureBad m <|> s.partialBad m <|> imRoleBad m <|> s.payloadsBad m
  <|> t.conflict m src
  <|> (if s.armedMask m == 0 then none else some (0xA013, s.armedMask m))
  <|> t.fitBad m

end Sys2Proof.Machine
end

