-- ==== Sys2Proof/Machine/Ingest.lean ====
section
/-! DEFINITION. Front-end lanes and event assembly (chapter 15). -/
namespace Sys2Proof.Machine

/-! ### The INGEST section (Table 15-7) -/

/-- The INGEST payload of a channel. -/
def State.igSec (s : State) (ch : Nat) : Bytes := s.section1 ch 0x42
/-- FRAME_SLOTS. -/
def igSlots (p : Bytes) : Nat := fieldLE p 8 1
/-- FRAG_COUNT. -/
def igFrags (p : Bytes) : Nat := fieldLE p 10 2
/-- ASM_TIMEOUT. -/
def igTimeout (p : Bytes) : Nat := fieldLE p 0x10 4
/-- SLOT_STRIDE. -/
def igStride (p : Bytes) : Nat := fieldLE p 0x18 4
/-- Fragment entry `k`. -/
def igFrag (p : Bytes) (k : Nat) : Bytes := slice p (64 + 16 * k) 16
/-- EXP_LENGTH of fragment entry `k`. -/
def igExp (p : Bytes) (k : Nat) : Nat := fieldLE (igFrag p k) 4 2
/-- The delivery entries. -/
def igMaps (p : Bytes) : List Bytes :=
  (List.range (fieldLE p 12 2)).map fun i => slice p (64 + 16 * igFrags p + 16 * i) 16
/-- R296: the fragment-table index of a (SOURCE, FRAG_INDEX). -/
def igIndex (p : Bytes) (source index : Nat) : Option Nat :=
  (List.range (igFrags p)).find? fun k => fieldLE (igFrag p k) 0 2 == source && fieldLE (igFrag p k) 2 2 == index

/-! ### Copies -/

/-- SOURCE of a copy. -/
def Copy.source (c : Copy) : Nat := fieldLE c.raw 2 2 % 4096
/-- FRAG_INDEX. -/
def Copy.index (c : Copy) : Nat := fieldLE c.raw 4 1
/-- EVENT. -/
def Copy.event (c : Copy) : Nat := fieldLE c.raw 6 6
/-- LENGTH. -/
def Copy.len (c : Copy) : Nat := fieldLE c.raw 12 2
/-- The identity of a copy as one number. -/
def Copy.ident (c : Copy) : Nat := c.source + 4096 * c.index + 2 ^ 20 * c.event
/-- Payload of a copy whose trailer has come. -/
def Copy.body (c : Copy) : Bytes := (c.raw.drop 24).take (c.raw.length - 32)

/-- R295: a copy that ended with its EOF block is intact. -/
def Copy.sound (c : Copy) : Bool :=
  let n := c.raw.length / 8 - 2
  let t := c.raw.drop (c.raw.length - 8)
  fieldLE c.raw 1 1 == 1 && fieldLE c.raw 2 2 < 4096 && fieldLE c.raw 5 1 == 0 && fieldLE c.raw 14 1 < 4
    && fieldLE c.raw 15 1 == 0 && c.len % 8 == 0 && c.len ≤ 16384 && 2 ≤ n
    && fieldLE t 2 2 == 2 + c.len / 8 && fieldLE t 2 2 == n
    && fieldLE t 4 4 == crc32 ((c.raw.drop 1).take 23 ++ c.body)

/-- R294: e lies at or below m in serial arithmetic. -/
def atOrBelow (e m : Nat) : Bool := (m + 2 ^ 48 - e) % 2 ^ 48 < 2 ^ 47

/-! ### The state of ingest -/

/-- Ingest of a channel. -/
def State.ingOf (s : State) (ch : Nat) : Ing := sget {} s.ing ch
/-- Changes the ingest of a channel. -/
def State.modIng (s : State) (ch : Nat) (f : Ing → Ing) : State := { s with ing := smod {} s.ing ch f }
/-- Changes the held event of a number. -/
def State.modFrame (s : State) (ch ev : Nat) (f : FrameEv → FrameEv) : State :=
  s.modIng ch fun g => { g with events := g.events.map fun e => if e.event == ev then f e else e }
/-- The held event of a number. -/
def Ing.frame (g : Ing) (ev : Nat) : Option FrameEv := g.events.find? fun e => e.event == ev
/-- The event of a number while it is pending or open. -/
def Ing.live (g : Ing) (ev : Nat) : Option FrameEv := g.events.find? fun e => e.event == ev && e.stage != .closed
/-- Sets frame flags of an event that is pending or open. -/
def State.flagFrame (s : State) (ch ev mask : Nat) : State :=
  s.modIng ch fun g => { g with events := g.events.map fun e =>
    if e.event == ev && e.stage != .closed then { e with flags := e.flags ||| mask } else e }

/-- Bytes of an event stand in staging: it has no slot, or they are still to be written. -/
def FrameEv.inStaging (e : FrameEv) : Bool := e.slot.isNone || e.lag

/-- R302: a copy stands in staging. -/
def Ing.staged (g : Ing) (c : Copy) : Bool :=
  match c.disp with
  | .held | .resync => true
  | .deliver => match g.frame c.event with
    | some e => e.inStaging
    | none => false
  | _ => false

/-- R302: staging in use, in bytes. -/
def Ing.stagingUse (g : Ing) : Nat :=
  total ((g.copies.filter g.staged).map fun c => c.raw.length)
    + total ((g.events.filter FrameEv.inStaging).map fun e => total (e.frags.map fun f =>
        match f.2 with
        | .accepted _ _ p => 24 + p.length
        | _ => 0))

/-- ING.STATUS.STAGING_HIGH follows the staging in use. -/
def State.ingHigh (s : State) (ch : Nat) : State :=
  s.high (Reg.ingStatusStagingHigh ch) (cdiv (s.ingOf ch).stagingUse 1024)

/-- Raises a code of Table 15-9 and counts it. -/
def State.ingRaise (s : State) (ch code : Nat) : State :=
  let s := match code with
    | 0x5001 | 0x5002 => s.bump (Reg.ingCountBBadCopy ch)
    | 0x5003 => s.bump (Reg.ingCountBUnknown ch)
    | 0x5004 => s.bump (Reg.ingCountBDuplicate ch)
    | 0x5005 => s.bump (Reg.ingCountBLateFrag ch)
    | 0x500A => s.bump (Reg.ingCountCEventLost ch)
    | 0x500D => s.bump (Reg.ingCountCDrainDrop ch)
    | _ => s
  s.evt code ch

/-- R304: the FRAGMENT entry of a copy whose disposition is final; the copy leaves. -/
def State.endCopy (s : State) (ch : Nat) (c : Copy) (outcome : Nat) : State :=
  let s := s.modIng ch fun g => { g with copies := g.copies.erase c }
  if c.disp == .ignored then s
  else s.hrdRecordAt c.tick 1 ch (c.event + 2 ^ 48 * c.lane + 2 ^ 52 * outcome) c.raw

/-- R304: the record of an event that is discarded or lost. -/
def State.frameDrop (s : State) (ch ev cause tick : Nat) : State :=
  s.hrdRecord 3 ch ev (leBytes 1 cause ++ zeros 7 ++ leBytes 8 tick)

/-! ### Delivery (R300, R303) -/

/-- R303: one write of a frame. At a stopped cell, or past one, it waits (R247) and the frame never becomes ready. -/
def State.ingStore (s : State) (ch ev cell off : Nat) (bs : Bytes) : State :=
  let id := ch * 256 + cell % 256
  if s.wayStopped { kind := .store, src := .ingest ch, dst := .cell id } then s.modFrame ch ev fun e => { e with stuck := true }
  else
    let (s, cause) := s.inboundStore id off bs
    if cause == 0 then s else (s.modFrame ch ev fun e => { e with flags := e.flags ||| 0x100 }).ingRaise ch 0x500B

/-- R300: bytes of fragment `k` from offset `off` written where the delivery map places them. -/
def State.ingPut (s : State) (ch ev slot k off : Nat) (bs : Bytes) : State :=
  let p := s.igSec ch
  (igMaps p).foldl (fun s m =>
    let so := fieldLE m 2 2
    let lo := max so off
    let hi := min (so + fieldLE m 4 2) (off + bs.length)
    if fieldLE m 0 2 == k && lo < hi then
      s.ingStore ch ev (fieldLE m 6 2) (fieldLE m 8 4 + slot * igStride p + (lo - so)) (slice bs (lo - off) (hi - lo))
    else s) s

/-- R300: the padding of a closed frame. -/
def State.ingPad (s : State) (ch : Nat) (e : FrameEv) (slot : Nat) : State :=
  let p := s.igSec ch
  (List.range (igFrags p)).foldl (fun s k =>
    let n := igExp p k
    let got := match sget .missing e.frags k with
      | .accepted len _ _ => min len n
      | _ => 0
    if n ≤ got then s else
    let pad := slice (igFrag p k) 8 8
    s.ingPut ch e.event slot k got ((List.range ((n - got) / 8)).flatMap fun _ => pad)) s

/-- R303: a closed frame with a slot is padded, and ready once every write of it is performed or refused. -/
def State.ingFill (s : State) (ch : Nat) (e : FrameEv) (slot : Nat) : State :=
  (s.ingPad ch e slot).modFrame ch e.event fun e => { e with ready := some s.now }

/-- R298, R302: the staged bytes of an event that has got a slot are written. -/
def State.ingUnstage (s : State) (ch : Nat) (e : FrameEv) (slot : Nat) : State :=
  let s := e.frags.foldl (fun s f =>
    match f.2 with
    | .accepted _ _ p => s.ingPut ch e.event slot f.1 0 p
    | _ => s) s
  let s := ((s.ingOf ch).copies.filter fun c => c.disp == .deliver && c.event == e.event).foldl (fun s c =>
    s.ingPut ch e.event slot c.frag 0 (c.raw.drop 24)) s
  let s := s.modFrame ch e.event fun e => { e with lag := false, frags := e.frags.map fun f =>
    (f.1, match f.2 with
      | .accepted n d _ => .accepted n d []
      | x => x) }
  if e.stage == .closed then s.ingFill ch e slot else s

/-- Every event that has got a slot and whose bytes still stand in staging. -/
def State.ingFlush (s : State) (ch : Nat) : State :=
  ((s.ingOf ch).events.filter FrameEv.lag).foldl (fun s e =>
    match e.slot with
    | some k => s.ingUnstage ch e k
    | none => s) s

/-! ### Close and discard (R298, R299) -/

/-- R299: the copies of an event stop writing; one that is already found intact leaves. -/
def State.stopCopies (s : State) (ch ev : Nat) : State :=
  ((s.ingOf ch).copies.filter fun c => c.event == ev && (c.disp == .deliver || c.disp == .held)).foldl (fun s c =>
    let d := { c with disp := .stopped }
    let s := s.modIng ch fun g => { g with copies := g.copies.map fun x => if x == c then d else x }
    if c.receiving then s else s.endCopy ch d 2) s

/-- R299: an event number updates the closed mark. -/
def State.ingMark (s : State) (ch ev : Nat) : State :=
  if s.rd (Reg.ingMarkValid ch) == 1 && atOrBelow ev (s.rd (Reg.ingMarkMark ch)) then s
  else (s.wr (Reg.ingMarkValid ch) 1).wr (Reg.ingMarkMark ch) ev

/-- R299, R300: an open frame closes. -/
def State.ingClose (s : State) (ch : Nat) (e : FrameEv) (tick : Nat) : State :=
  let s := (s.ingMark ch e.event).stopCopies ch e.event
  let late := (List.range (igFrags (s.igSec ch))).filter fun k => sget .missing e.frags k == .missing
  let s := late.foldl (fun s _ => s.ingRaise ch 0x5008) s
  let s := s.modFrame ch e.event fun e =>
    { e with stage := .closed, closedAt := tick, flags := if late.isEmpty then e.flags else e.flags ||| 1 }
  match e.slot with
  | some k => if e.lag then s else s.ingFill ch e k
  | none => s

/-- R298: a pending event is discarded. -/
def State.ingDiscard (s : State) (ch : Nat) (e : FrameEv) (cause : Nat) : State :=
  let s := (s.stopCopies ch e.event).frameDrop ch e.event cause e.tick
  s.modIng ch fun g =>
    let g := { g with events := g.events.filter fun x => x.event != e.event }
    match e.slot with
    | some k => g.release k
    | none => g

/-- R299: what the timeout of an event does. -/
def State.ingExpire (s : State) (ch : Nat) (e : FrameEv) (tick : Nat) : State :=
  match e.stage with
  | .pending => s.ingDiscard ch e 0
  | .opened => s.ingClose ch e tick
  | .closed => s

/-- R298, R299: every event whose timeout has passed. -/
def State.ingTimeouts (s : State) (ch : Nat) : State :=
  let t := igTimeout (s.igSec ch)
  ((s.ingOf ch).events.filter fun e => jumped (e.tick + t) e.shift ≤ s.now).foldl
    (fun s e => s.ingExpire ch e (jumped (e.tick + t) e.shift)) s

/-- What time has done before the next event of ingest. -/
def State.ingSettle (s : State) (ch : Nat) : State := (s.ingTimeouts ch).ingFlush ch

/-- R299: an open frame closes once every expected fragment is accepted or dropped. -/
def State.ingCheck (s : State) (ch ev : Nat) : State :=
  match (s.ingOf ch).live ev with
  | none => s
  | some e =>
    if e.stage == .opened && (List.range (igFrags (s.igSec ch))).all fun k => sget .missing e.frags k != .missing
    then s.ingClose ch e s.now else s

/-! ### Handoff (R303) -/

/-- Table 20-5: the FRAME_CLOSE record. -/
def closeRecord (e : FrameEv) (n seq : Nat) : Bytes :=
  let fs := (List.range n).map fun k => sget .missing e.frags k
  let present := (fs.filter fun f =>
    match f with
    | .accepted _ _ _ => true
    | _ => false).length
  leBytes 8 e.tick ++ leBytes 8 seq ++ leBytes 1 (e.slot.getD 15) ++ zeros 7 ++ leBytes 2 e.flags ++ leBytes 2 n
    ++ leBytes 2 present ++ zeros 2
    ++ fs.flatMap fun f =>
      match f with
      | .accepted len d _ => zeros 2 ++ leBytes 2 len ++ zeros 4 ++ d
      | .missing => leBytes 1 1 ++ zeros 39
      | .dropped => leBytes 1 2 ++ zeros 39

/-- R402: the input digest of a handoff is kept; the last 1024 of each channel. -/
def keepHandoff (l : List Handoff) (h : Handoff) : List Handoff :=
  h :: keepFirst (fun x => x.ch == h.ch) 1023 l

/-- R303, R402: a frame goes to the dispatcher; its close record is `payload`. -/
def State.ingTrigger (s : State) (ch : Nat) (e : FrameEv) (payload : Bytes) : State :=
  let d := sha256 (payload.drop 0x18)
  let s := { s with sealer := { s.sealer with
    ingest := keepHandoff s.sealer.ingest { ch := ch, event := e.event, digest := d } } }
  s.accept ch { head := (s.headOfKind ch 1).getD 0xFFFF, kind := 1, event := e.event, slot := e.slot.getD 15,
                frameFlags := e.flags, input := d } (some e.tick) false

/-- R303: the counters of a handoff. -/
def State.ingCount (s : State) (ch : Nat) (e : FrameEv) : State :=
  let s := s.incr (Reg.ingCountAFrames ch)
  let s := if e.flags == 0 then s else s.bump (Reg.ingCountCFlagged ch)
  if bitAt e.flags 3 then s.bump (Reg.ingCountCOverflow ch) else s

/-- R302: an event that cannot be held is handed over at once. -/
def State.ingLost (s : State) (ch : Nat) (c : Copy) : State :=
  if (s.ingOf ch).lost.contains c.event then s else
  let n := igFrags (s.igSec ch)
  let e : FrameEv := { event := c.event, tick := c.tick, slot := none, stage := .closed, flags := 0x88,
                       frags := (List.range n).map fun k => (k, .dropped) }
  let s := ((s.ingRaise ch 0x500A).ingMark ch c.event).frameDrop ch c.event 1 c.tick
  let s := s.modIng ch fun g => { g with lost := c.event :: g.lost, frameSeq := g.frameSeq + 1 }
  (s.ingCount ch e).ingTrigger ch e (closeRecord e n (s.ingOf ch).frameSeq)

/-- R303: the frame that is handed over next: ready first, then the lowest event number. -/
def Ing.nextReady (g : Ing) (e : FrameEv) : Bool :=
  match e.ready with
  | none => false
  | some t => !e.stuck && g.events.all fun x =>
      match x.ready with
      | none => true
      | some u => x.stuck || decide (t < u) || (t == u && decide (e.event ≤ x.event))

/-- R303: the handoff of a ready frame: its event record (Table 15-6), its close record and the dispatcher's trigger. -/
def State.ingHandoff (s : State) (ch : Nat) (e : FrameEv) : State :=
  let p := s.igSec ch
  let n := igFrags p
  let seq := (s.ingOf ch).frameSeq + 1
  let slot := e.slot.getD 0
  let pl := closeRecord e n seq
  let rec_ := leBytes 6 e.event ++ leBytes 2 e.flags ++ leBytes 8 e.tick ++ leBytes 2 n ++ slice pl 0x1C 2
    ++ leBytes 1 slot ++ zeros 3 ++ leBytes 8 seq
  let s := s.ingStore ch e.event (fieldLE p 14 2) (fieldLE p 0x14 4 + 32 * slot) rec_
  match (s.ingOf ch).frame e.event with
  | none => s
  | some e =>
    if e.stuck then s else
    let s := s.modIng ch fun g =>
      { g with events := g.events.filter fun x => x.event != e.event, frameSeq := seq }
    let pl := closeRecord e n seq
    ((s.ingCount ch e).hrdRecordAt e.closedAt 2 ch e.event pl).ingTrigger ch e pl

/-! ### Disposition and acceptance (R296, R297, R302) -/

/-- R296: an identity enters the completion window. -/
def Ing.remember (g : Ing) (ident : Nat) : Ing :=
  if g.window.contains ident then g else { g with window := (ident :: g.window).take 1024 }

/-- Replaces a copy. -/
def Ing.swap (g : Ing) (c d : Copy) : Ing := { g with copies := g.copies.map fun x => if x == c then d else x }

/-- R297: the other copies of an identity that has been accepted are duplicates. -/
def State.dropRivals (s : State) (ch : Nat) (c : Copy) : State :=
  ((s.ingOf ch).copies.filter fun x => x != c && x.ident == c.ident && (x.disp == .held || x.disp == .deliver)).foldl
    (fun s x =>
      let s := (s.ingRaise ch 0x5004).flagFrame ch c.event 0x10
      let d := { x with disp := .dup }
      let s := s.modIng ch fun g => g.swap x d
      if x.receiving then s else s.endCopy ch d 1) s

/-- R296, R298, R300: a copy is accepted. -/
def State.ingAccept (s : State) (ch : Nat) (c : Copy) : State :=
  match (s.ingOf ch).live c.event with
  | none => s.endCopy ch c 2
  | some e =>
    let exp := igExp (s.igSec ch) c.frag
    let s := match e.slot with
      | some k => if e.lag || c.disp == CopyDisp.deliver then s else s.ingPut ch e.event k c.frag 0 c.body
      | none => s
    let bad := bitAt (fieldLE c.raw 14 1) 1 || fieldLE c.raw (c.raw.length - 7) 1 != 0
    let s := if c.len < exp then (s.ingRaise ch 0x5006).flagFrame ch e.event 2
      else if exp < c.len then (s.ingRaise ch 0x5007).flagFrame ch e.event 4 else s
    let s := if bad then s.flagFrame ch e.event 0x40 else s
    let s := s.modFrame ch e.event fun e => { e with
      stage := .opened,
      frags := sset .missing e.frags c.frag (.accepted c.len (sha256 c.raw) (if e.inStaging then c.body else [])) }
    let s := (s.incr (Reg.ingCountAAccepted ch)).modIng ch fun g => g.remember c.ident
    ((s.dropRivals ch c).endCopy ch c 0).ingCheck ch e.event

/-- R297: the writing copy of an identity has ended without acceptance: the earliest held copy is delivered from
staging. -/
def State.ingPromote (s : State) (ch ident : Nat) : State :=
  match (s.ingOf ch).copies.find? fun c => c.ident == ident && c.disp == .held with
  | none => s
  | some c =>
    let s := match (s.ingOf ch).frame c.event with
      | some e => match e.slot with
        | some k => if e.lag then s
          else s.ingPut ch e.event k c.frag 0 (if c.receiving then c.raw.drop 24 else c.body)
        | none => s
      | none => s
    let d := { c with disp := .deliver }
    let s := s.modIng ch fun g => g.swap c d
    if c.receiving then s else s.ingAccept ch d

/-- R302: a fragment of which no copy remains in progress is dropped. -/
def State.ingDropFrag (s : State) (ch : Nat) (c : Copy) : State :=
  let busy := (s.ingOf ch).copies.any fun x => x.ident == c.ident && (x.disp == .deliver || x.disp == .held)
  let s := if busy then s else s.modFrame ch c.event fun e =>
    if sget .missing e.frags c.frag == .missing then { e with frags := sset .missing e.frags c.frag .dropped } else e
  s.ingCheck ch c.event

/-- R302: staging is full at a block of a copy. -/
def State.ingOverflow (s : State) (ch : Nat) (c : Copy) : State :=
  let s := (s.ingRaise ch 0x5009).modIng ch fun g => g.swap c { c with disp := .excess }
  if c.disp == .resync then s else
  let s := (s.flagFrame ch c.event 8).modFrame ch c.event fun e => { e with overrun := true }
  let s := if c.disp == .deliver then s.ingPromote ch c.ident else s
  s.ingDropFrag ch c

/-- R302: `n` bytes of a staged copy find room, or the copy overflows. -/
def State.ingStage (s : State) (ch : Nat) (c : Copy) : State :=
  if (s.ingOf ch).staged c then
    if (s.ingOf ch).stagingUse ≤ 524288 then s.ingHigh ch else s.ingOverflow ch c
  else s

/-- R298: the lowest free frame slot. -/
def State.ingSlot (s : State) (ch : Nat) : Option Nat :=
  (List.range (igSlots (s.igSec ch))).find? fun k => !(s.ingOf ch).slots.contains k

/-- R298: an event becomes pending. -/
def State.ingPend (s : State) (ch : Nat) (c : Copy) : State :=
  let k := s.ingSlot ch
  s.modIng ch fun g => { g with
    slots := g.slots ++ k.toList,
    events := g.events ++ [{ event := c.event, tick := c.tick, slot := k }] }

/-- R296, Table 15-4: the disposition of a copy whose header has come; `c` already stands in the list. -/
def State.ingDispose (s : State) (ch : Nat) (c : Copy) : State :=
  let put := fun (s : State) (d : CopyDisp) (k : Nat) => s.modIng ch fun g => g.swap c { c with disp := d, frag := k }
  match igIndex (s.igSec ch) c.source c.index with
  | none => (put s .unknown 0).ingRaise ch 0x5003
  | some k =>
    let g := s.ingOf ch
    let ev := g.live c.event
    if g.window.contains c.ident then
      let s := (put s .dup k).ingRaise ch 0x5004
      match ev with
      | some e => if e.stage == .opened then s.flagFrame ch c.event 0x10 else s
      | none => s
    else match ev with
      | some e =>
        if e.overrun then put s .later k
        else
          let d : CopyDisp := if g.copies.any (fun x => x.ident == c.ident && x.disp == CopyDisp.deliver) then .held else .deliver
          (put s d k).ingStage ch { c with disp := d, frag := k }
      | none =>
        if s.rd (Reg.ingMarkValid ch) == 1 && atOrBelow c.event (s.rd (Reg.ingMarkMark ch)) then
          (put s .late k).ingRaise ch 0x5005
        else if 64 ≤ g.events.length then put s .lost k
        else
          let s := s.ingPend ch c
          (put s .deliver k).ingStage ch { c with disp := .deliver, frag := k }

/-- R295, R297, R302: a copy has ended, intact or not. -/
def State.ingFinish (s : State) (ch : Nat) (c0 : Copy) (ok : Bool) : State :=
  let c := { c0 with receiving := false, intact := if ok then some s.now else none }
  let s := s.modIng ch fun g => g.swap c0 c
  let bad := !ok && [.dup, .held, .deliver, .excess, .later, .stopped, .lost, .late].contains c.disp
  let s := if bad then s.flagFrame ch c.event 0x20 else s
  match c.disp with
  | .unknown => s.endCopy ch c 3
  | .dup => s.endCopy ch c 1
  | .late => s.endCopy ch c 2
  | .drained | .ignored => s.endCopy ch c 6
  | .excess => s.endCopy ch c 5
  | .stopped => s.endCopy ch c (if ok then 2 else 4)
  | .later =>
    let s := s.endCopy ch c (if ok then 5 else 4)
    if ok then (s.modIng ch fun g => g.remember c.ident).ingDropFrag ch c else s
  | .lost =>
    let s := s.endCopy ch c (if ok then 5 else 4)
    if ok then (s.modIng ch fun g => g.remember c.ident).ingLost ch c else s
  | .resync => s
  | .held => if ok then s else s.endCopy ch c 4
  | .deliver =>
    if ok then
      let same := (s.ingOf ch).copies.filter fun x => x.ident == c.ident && x.disp == .held && x.intact == some s.now
      s.ingAccept ch (same.foldl (fun b x => if x.lane < b.lane then x else b) c)
    else (s.endCopy ch c 4).ingPromote ch c.ident

/-! ### Blocks on a lane -/

/-- The copy in progress on a lane. -/
def Ing.onLane (g : Ing) (lane : Nat) : Option Copy := g.copies.find? fun c => c.lane == lane && c.receiving

/-- R294: a framing failure. -/
def State.ingFail (s : State) (ch lane : Nat) : State :=
  let s := (s.ingRaise ch 0x5001).modIng ch fun g => { g with mute := lane :: g.mute.erase lane }
  match (s.ingOf ch).onLane lane with
  | none => s
  | some c => s.ingFinish ch c false

/-- R294, R296, R305, R409: the header of a copy. -/
def State.ingHeader (s : State) (ch lane : Nat) (header : Bytes) : State :=
  let s := s.ingSettle ch
  if ((s.ingOf ch).onLane lane).isSome then s.ingFail ch lane else
  let mk := fun (s : State) (d : CopyDisp) => s.modIng ch fun g => { g with
    mute := g.mute.erase lane, copies := g.copies ++ [{ lane := lane, tick := s.now, raw := fit 24 header, disp := d }] }
  if s.liveIgnored then (mk s .ignored).ignoreLive
  else if (s.dsp ch).drain then (mk s .drained).ingRaise ch 0x500D
  else
    let c : Copy := { lane := lane, tick := s.now, raw := fit 24 header, disp := .resync }
    if s.rd (Reg.ingCtlResyncBusy ch) == 1 then (mk s .resync).ingStage ch c
    else (mk s .resync).ingDispose ch c

/-- R294, R298, R302: a data block. -/
def State.ingData (s : State) (ch lane : Nat) (block : Bytes) : State :=
  let s := s.ingSettle ch
  match (s.ingOf ch).onLane lane with
  | none => if (s.ingOf ch).mute.contains lane then s else s.ingFail ch lane
  | some c =>
    let d := { c with raw := c.raw ++ block }
    let s := s.modIng ch fun g => g.swap c d
    if (s.ingOf ch).staged d then s.ingStage ch d
    else if c.disp == .deliver then
      match (s.ingOf ch).frame c.event with
      | some e => match e.slot with
        | some k => s.ingPut ch e.event k c.frag (c.raw.length - 24) block
        | none => s
      | none => s
    else s

/-- R295: the EOF block of a copy. -/
def State.ingEof (s : State) (ch lane : Nat) (tail : Bytes) : State :=
  let s := s.ingSettle ch
  match (s.ingOf ch).onLane lane with
  | none => s
  | some c =>
    let d := { c with raw := c.raw ++ fit 8 tail }
    let s := s.modIng ch fun g => g.swap c d
    if c.disp == .ignored then s.ingFinish ch d false
    else if d.sound then s.ingFinish ch d true
    else (s.ingRaise ch 0x5002).ingFinish ch d false

/-! ### Drain and resynchronisation (R305) -/

/-- R305: a drain discards every held event and drops every copy. -/
def State.ingDrain (s : State) (ch : Nat) : State :=
  let s := (s.ingOf ch).events.foldl (fun s e => (s.ingRaise ch 0x500D).ingDiscard ch e 2) s
  ((s.ingOf ch).copies.filter fun c => c.disp != .drained && c.disp != .ignored).foldl (fun s c =>
    let d := { c with disp := .drained }
    let s := (s.ingRaise ch 0x500D).modIng ch fun g => g.swap c d
    if c.receiving then s else s.endCopy ch d 6) s

/-- R305: a copy held during a resynchronisation is dispositioned, and ended if its EOF has come. -/
def State.ingResume (s : State) (ch : Nat) (c : Copy) : State :=
  let s := s.ingDispose ch c
  if c.receiving then s else
  match (s.ingOf ch).copies.find? fun x => x.lane == c.lane && x.raw == c.raw && x.tick == c.tick with
  | none => s
  | some d => s.ingFinish ch d c.intact.isSome

/-! ### The rows -/

/-- R248, R293, R306: ingest of a channel runs. -/
def State.ingOn (s : State) (ch : Nat) : Bool :=
  s.configured ch && !(s.igSec ch).isEmpty && s.pwr.resetChannel != some ch && !(s.island (0x418 + ch)).stopped

/-- R293, R419: a lane of LANE_MASK in use. The lanes of the follower of a channel pair stay idle. -/
def State.laneUsed (s : State) (ch lane : Nat) : Bool :=
  s.ingOn ch && !s.isFollower ch && bitAt (fieldLE (s.igSec ch) 0 2) lane

/-- The state of a lane. -/
def State.laneState (s : State) (ch lane : Nat) : FeLane := sget .down (s.ingOf ch).lanes lane

/-- R293: a lane changes its state. -/
def State.setLane (s : State) (ch lane : Nat) (st : FeLane) : State :=
  s.modIng ch fun g => { g with lanes := sset .down g.lanes lane st }

/-- R419: the channels whose ingest takes a block of a channel's lanes. -/
def State.ingTakers (s : State) (ch : Nat) : List Nat :=
  if s.isPair ch && s.ingOn (partnerOf ch) then [ch, partnerOf ch] else [ch]

/-- What each ingest that takes a block of an UP lane does with it. -/
def State.onBlock (s : State) (ch lane : Nat) (f : State → Nat → State) : State :=
  if s.laneUsed ch lane && s.laneState ch lane == .up then (s.ingTakers ch).foldl f s else s

/-- R293: FE_LANE_SIGNAL. -/
def execFeLaneSignal (ch : BitVec 2) (lane : BitVec 4) (s : State) : Host.Outcome State Fault Refusal :=
  .next <|
    if s.laneUsed ch.toNat lane.toNat && s.laneState ch.toNat lane.toNat == .down then
      s.setLane ch.toNat lane.toNat .locking else s

/-- R293: FE_LANE_LOCK. -/
def execFeLaneLock (ch : BitVec 2) (lane : BitVec 4) (s : State) : Host.Outcome State Fault Refusal :=
  .next <|
    if s.laneUsed ch.toNat lane.toNat && s.laneState ch.toNat lane.toNat == .locking then
      s.setLane ch.toNat lane.toNat .up else s

/-- R293: ING_LANE_DOWN. A lane that is LOCKING goes DOWN without a code. -/
def execIngLaneDown (ch : BitVec 2) (lane : BitVec 4) (s : State) : Host.Outcome State Fault Refusal :=
  .next <|
    let c := ch.toNat
    let l := lane.toNat
    if !s.laneUsed c l then s else
    match s.laneState c l with
    | .down => s
    | .locking => s.setLane c l .down
    | .up =>
      let s := (s.ingTakers c).foldl (fun s c =>
        let s := s.ingSettle c
        let s := if ((s.ingOf c).onLane l).isSome then s.ingFail c l else s
        s.modIng c fun g => { g with mute := g.mute.erase l }) s
      (s.ingRaise c 0x500C).setLane c l .down

/-- R296, R419: COPY_HEADER. Its header is the SOF block and the two data blocks after it; its SOF tick is this tick. The
follower does not take an uncorrectable item. -/
def execCopyHeader (ch : BitVec 2) (lane : BitVec 4) (header : Bytes) (tap : TapErr) (s : State) :
    Host.Outcome State Fault Refusal :=
  .next <|
    if fieldLE header 0 1 != 0x78 then s else
    s.onBlock ch.toNat lane.toNat fun s c =>
      if c != ch.toNat && tap == .uncorrectable then
        (s.modIng c fun g => { g with mute := lane.toNat :: g.mute.erase lane.toNat }).channelFault c 0x9007
      else s.ingHeader c lane.toNat header

/-- R294, R302: DATA_BLOCK. -/
def execDataBlock (ch : BitVec 2) (lane : BitVec 4) (block : Word) (s : State) : Host.Outcome State Fault Refusal :=
  .next <| s.onBlock ch.toNat lane.toNat fun s c => s.ingData c lane.toNat (leBytes 8 block.toNat)

/-- R295: COPY_EOF. -/
def execCopyEof (ch : BitVec 2) (lane : BitVec 4) (tail : Bytes) (s : State) : Host.Outcome State Fault Refusal :=
  .next <|
    if fieldLE tail 0 1 != 0xE1 then s else
    s.onBlock ch.toNat lane.toNat fun s c => s.ingEof c lane.toNat tail

/-- R294: FRAMING_FAILURE. -/
def execFramingFailure (ch : BitVec 2) (lane : BitVec 4) (s : State) : Host.Outcome State Fault Refusal :=
  .next <| s.onBlock ch.toNat lane.toNat fun s c => (s.ingSettle c).ingFail c lane.toNat

/-- R298, R299: ASM_TIMEOUT of an event. -/
def execAsmTimeout (ch : BitVec 2) (event : BitVec 48) (s : State) : Host.Outcome State Fault Refusal :=
  .next <|
    let c := ch.toNat
    if !s.ingOn c then s else
    match (s.ingOf c).live event.toNat with
    | none => s
    | some e =>
      let t := jumped (e.tick + igTimeout (s.igSec c)) e.shift
      if t ≤ s.now then (s.ingFlush c).ingExpire c (((s.ingFlush c).ingOf c).live event.toNat |>.getD e) t else s

/-- R303: FRAME_HANDOFF of an event. -/
def execFrameHandoff (ch : BitVec 2) (event : BitVec 48) (s : State) : Host.Outcome State Fault Refusal :=
  .next <|
    let c := ch.toNat
    if !s.ingOn c || (s.dsp c).drain then s else
    let s' := s.ingSettle c
    match (s'.ingOf c).frame event.toNat with
    | none => s
    | some e => if (s'.ingOf c).nextReady e then s'.ingHandoff c e else s

/-- R305: a write of ING.CTL.RESYNC = 1. -/
def State.ingResync (s : State) (ch : Nat) : State :=
  if s.rd (Reg.ingCtlResyncBusy ch) == 1 then s else
  let s := s.ingSettle ch
  let s := (s.ingOf ch).events.foldl (fun s e => s.ingExpire ch e s.now) s
  s.wr (Reg.ingCtlResyncBusy ch) 1

/-- R305: ING_RESYNC. -/
def execIngResync (ch : BitVec 2) (s : State) : Host.Outcome State Fault Refusal :=
  .next <| s.gated (s.ingGate ch.toNat) fun s => s.ingResync ch.toNat

/-- R305: ING_RESYNC_DONE, once every frame that the resynchronisation closed is handed over. -/
def execIngResyncDone (ch : BitVec 2) (s : State) : Host.Outcome State Fault Refusal :=
  .next <|
    let c := ch.toNat
    if s.rd (Reg.ingCtlResyncBusy c) != 1 || (s.island (0x418 + c)).stopped || !(s.ingOf c).events.isEmpty then s else
    let s := ((s.wr (Reg.ingCtlResyncBusy c) 0).wr (Reg.ingMarkValid c) 0).wr (Reg.ingMarkMark c) 0
    let s := s.modIng c fun g => { g with window := [], lost := [] }
    ((s.ingOf c).copies.filter fun x => x.disp == .resync).foldl (fun s x => s.ingResume c x) s

end Sys2Proof.Machine
end

