-- ==== Sys2Proof/Machine/CamPipe.lean ====
section
/-! DEFINITION. The image pipeline as arithmetic on planes (R315 to R324): pixel unpacking, parameter banks, the stages 3a
to 8, the output elements and the statistics. A plane holds its pixels row by row. -/
namespace Sys2Proof.Machine

/-! ### Packed pixels (R308, MIPI CSI-2) -/

/-- Bits of a pixel of a data type 0x2A to 0x2F. -/
def pixBits (dt : Nat) : Nat := [8, 10, 12, 14, 16, 20].getD (dt - 0x2A) 0

/-- The pixels of one group of payload bytes. -/
def unpackGroup (dt : Nat) (b : List Nat) : List Nat :=
  let g := fun i => b.getD i 0
  match dt with
  | 0x2A => [g 0]
  | 0x2B => (List.range 4).map fun i => g i * 4 + bits (g 4) (2 * i) 2
  | 0x2C => [g 0 * 16 + g 2 % 16, g 1 * 16 + g 2 / 16]
  | 0x2D => (List.range 4).map fun i => g i * 64 + bits (g 4 + 256 * g 5 + 65536 * g 6) (6 * i) 6
  | 0x2E => [g 0 * 256 + g 1]
  | _ => (List.range 2).map fun i =>
      (g (2 * i) * 4 + bits (g 4) (4 * i) 2) * 1024 + g (2 * i + 1) * 4 + bits (g 4) (4 * i + 2) 2

/-- Payload bytes of one group of a data type. -/
def groupBytes (dt : Nat) : Nat := [1, 5, 3, 7, 2, 5].getD (dt - 0x2A) 1

/-- The whole groups of a line's payload. -/
def unpackGroups (dt : Nat) : Nat → List Nat → List Nat
  | 0, _ => []
  | n + 1, b => unpackGroup dt (b.take (groupBytes dt)) ++ unpackGroups dt n (b.drop (groupBytes dt))

/-- The pixels of a line. -/
def unpackLine (dt : Nat) (payload : Bytes) : List Nat :=
  let b := payload.map (·.toNat)
  unpackGroups dt (b.length / groupBytes dt) b

/-! ### Parameter banks (Table 16-4) -/

/-- BLACK. -/
def pbBlack (b : Bytes) : Nat := fieldLE b 0 4
/-- LIN_GAIN. -/
def pbGain (b : Bytes) : Nat := fieldLE b 4 2
/-- KNEE. -/
def pbKnee (b : Bytes) : Nat := fieldLE b 8 4
/-- RATIO. -/
def pbRatio (b : Bytes) : Nat := fieldLE b 12 4
/-- SNR_STRENGTH. -/
def pbSnr (b : Bytes) : Nat := fieldLE b 0x10 2
/-- TNR_STILL. -/
def pbStill (b : Bytes) : Nat := fieldLE b 0x12 2
/-- TNR_MOVE. -/
def pbMove (b : Bytes) : Nat := fieldLE b 0x14 2
/-- TNR_MOTION. -/
def pbMotion (b : Bytes) : Nat := fieldLE b 0x18 4
/-- DEFECT_THRESH. -/
def pbThresh (b : Bytes) : Nat := fieldLE b 0x1C 4
/-- DEFECT_COUNT. -/
def pbDefects (b : Bytes) : Nat := fieldLE b 0x20 2
/-- CFA. -/
def pbCfa (b : Bytes) : Nat := fieldLE b 0x22 1
/-- TONE_MODE. -/
def pbTone (b : Bytes) : Nat := fieldLE b 0x23 1
/-- White-balance gain of a channel: 0 R, 1 G, 2 B. -/
def pbWb (b : Bytes) (c : Nat) : Nat := fieldLE b (0x24 + 2 * c) 2
/-- CCM element M[i][j]. -/
def pbCcm (b : Bytes) (i j : Nat) : Int := sx 16 (fieldLE b (0x2C + 2 * (3 * i + j)) 2)
/-- OUT_SCALE. -/
def pbScale (b : Bytes) : Nat := fieldLE b 0x40 4
/-- OUT_ZP. -/
def pbZp (b : Bytes) : Nat := fieldLE b 0x44 1
/-- Knot `i` of tone curve `c`. -/
def pbKnot (b : Bytes) (c i : Nat) : Nat := fieldLE b (0x100 + 2 * (1025 * c + i)) 2
/-- The defects listed, as (x, y). -/
def pbDefectList (b : Bytes) : List (Nat × Nat) :=
  (List.range (pbDefects b)).map fun d => (fieldLE b (0x1C00 + 4 * d) 2, fieldLE b (0x1C02 + 4 * d) 2)
/-- The CFA is MONO. -/
def pbMono (b : Bytes) : Bool := pbCfa b == 4

/-- R316: a bank that is not replaced by zeros. -/
def bankOk (b : Bytes) : Bool :=
  let z := fun off len => (slice b off len).all (· == 0)
  pbBlack b < 2 ^ 20 && z 6 2 && z 0x16 2 && z 0x2A 2 && z 0x3E 2 && z 0x45 187 && z 0x1906 762
    && pbCfa b ≤ 4 && pbTone b ≤ 1 && pbDefects b ≤ 256

/-! ### Planes -/

/-- A plane of LIN values, row by row. -/
abbrev Plane := Array Nat

/-- A plane of a width and height from its pixels. -/
def mkPlane (w h : Nat) (f : Nat → Nat → Nat) : Plane :=
  ((List.range (w * h)).map fun i => f (i % w) (i / w)).toArray

/-- A pixel of a plane. -/
def Plane.px (p : Plane) (w x y : Nat) : Nat := p.getD (y * w + x) 0

/-- R317: MAXL. -/
def maxL : Nat := 2 ^ 32 - 1

/-- R317: rnd. -/
def rnd (a : Int) (s : Nat) : Int := if s == 0 then a else (a + (2 : Int) ^ (s - 1)) / (2 : Int) ^ s

/-- R317: a result saturates to a LIN value. -/
def toLin (a : Int) : Nat := min maxL a.toNat

/-- R186, R317: coordinate c - d, or c + d, in a row of n, reflected in steps of d. -/
def reflect (n c d : Nat) (back : Bool) : Nat :=
  if back then (if d ≤ c then c - d else c + d) else (if c + d < n then c + d else c - d)

/-- R317: the eight same-colour neighbours of a pixel. -/
def neighbours (p : Plane) (w h x y d : Nat) : List Nat :=
  let l := reflect w x d true
  let r := reflect w x d false
  let u := reflect h y d true
  let b := reflect h y d false
  [(l, u), (x, u), (r, u), (l, y), (r, y), (l, b), (x, b), (r, b)].map fun q => p.px w q.1 q.2

/-- Distance of the same-colour neighbours. -/
def cfaStep (b : Bytes) : Nat := if pbMono b then 1 else 2

/-- R317: the mean of the neighbours. -/
def meanOf (n : List Nat) : Nat := (total n + 4) / 8

/-! ### Stages 3a to 8 -/

/-- R317: linearises a code. -/
def linearise (b : Bytes) (code : Nat) : Nat := toLin (rnd (((code - pbBlack b) * pbGain b : Nat) : Int) 8)

/-- R317: merges a pixel: present contexts ascending, each with its bank and its value. -/
def mergePixel : List (Bytes × Nat) → Nat
  | [] => 0
  | [(b, v)] => toLin (rnd ((v * pbRatio b : Nat) : Int) 16)
  | (b, v) :: l => if v < pbKnee b then toLin (rnd ((v * pbRatio b : Nat) : Int) 16) else mergePixel l

/-- R317: spatial noise reduction. -/
def spatial (b : Bytes) (w h : Nat) (p : Plane) : Plane :=
  mkPlane w h fun x y =>
    let v := p.px w x y
    let m := meanOf (neighbours p w h x y (cfaStep b))
    toLin ((v : Int) + rnd (((m : Int) - v) * pbSnr b) 8)

/-- R317, R318: temporal noise reduction of a pixel against its history. -/
def temporal (b : Bytes) (s h : Nat) : Nat :=
  let a := if ((s : Int) - h).natAbs < pbMotion b then pbStill b else pbMove b
  toLin ((h : Int) + rnd (((s : Int) - h) * a) 8)

/-- R319: defect correction. -/
def defects (b : Bytes) (w h : Nat) (p : Plane) : Plane :=
  let l := pbDefectList b
  mkPlane w h fun x y =>
    let v := p.px w x y
    let n := neighbours p w h x y (cfaStep b)
    let hi := n.foldl max 0
    let lo := n.foldl min maxL
    if l.contains (x, y) then meanOf n
    else if pbThresh b != 0 && (hi + pbThresh b < v || v + pbThresh b < lo) then max lo (min v hi)
    else v

/-- Table 16-4: the colour of a pixel in a Bayer CFA: 0 R, 1 G, 2 B. -/
def cfaColour (cfa x y : Nat) : Nat :=
  let i := 2 * (y % 2) + x % 2
  match cfa with
  | 0 => [0, 1, 1, 2].getD i 1
  | 1 => [1, 0, 2, 1].getD i 1
  | 2 => [1, 2, 0, 1].getD i 1
  | _ => [2, 1, 1, 0].getD i 1

/-- R319: the mean of the nearest pixels of a colour. -/
def nearMean (l : List Nat) : Nat := if l.isEmpty then 0 else (total l + l.length / 2) / l.length

/-- R319: demosaic: the value of colour `c` at a pixel. MONO carries its value as G. -/
def demosaic (b : Bytes) (w h : Nat) (p : Plane) (c x y : Nat) : Nat :=
  if pbMono b then (if c == 1 then p.px w x y else 0) else
  let own := cfaColour (pbCfa b) x y
  if own == c then p.px w x y else
  let l := reflect w x 1 true
  let r := reflect w x 1 false
  let u := reflect h y 1 true
  let d := reflect h y 1 false
  if c == 1 then nearMean ([(x, u), (l, y), (r, y), (x, d)].map fun q => p.px w q.1 q.2)
  else if own == 1 then
    if cfaColour (pbCfa b) (x + 1) y == c then nearMean ([l, r].map fun q => p.px w q y)
    else nearMean ([u, d].map fun q => p.px w x q)
  else nearMean ([(l, u), (r, u), (l, d), (r, d)].map fun q => p.px w q.1 q.2)

/-- R319: white balance. -/
def whiteBalance (b : Bytes) (c v : Nat) : Nat := toLin (rnd ((v * pbWb b c : Nat) : Int) 12)

/-- R319: the colour matrix: output `i` of a pixel's three values. -/
def colourMatrix (b : Bytes) (i : Nat) (v : List Nat) : Nat :=
  toLin (rnd (pbCcm b i 0 * (v.getD 0 0 : Nat) + pbCcm b i 1 * (v.getD 1 0 : Nat) + pbCcm b i 2 * (v.getD 2 0 : Nat)) 12)

/-- R319: the tone curve `c` at a value. -/
def toneAt (b : Bytes) (c r : Nat) : Nat :=
  if r == 0 then pbKnot b c 0 else
  let e := lg r
  let u := 32 * (r - 2 ^ e)
  let j := u / 2 ^ e
  let i := 32 * e + j
  ((pbKnot b c i : Int) + rnd (((pbKnot b c (i + 1) : Int) - pbKnot b c i) * ((u - j * 2 ^ e : Nat) : Int)) e).toNat

/-- R319: stages 5 to 8 of a pixel: the tone-mapped values of R, G and B, or of MONO. -/
def finishPixel (b : Bytes) (rgb : List Nat) : List Nat :=
  if pbMono b then [toneAt b 0 (whiteBalance b 1 (rgb.getD 1 0))]
  else
    let v := (List.range 3).map fun c => whiteBalance b c (rgb.getD c 0)
    (List.range 3).map fun i => toneAt b (if pbTone b == 1 then 0 else i) (colourMatrix b i v)

/-- R320: the output element of a tone-mapped value. -/
def camElem (b : Bytes) (f : Fmt) (y : Nat) : Conv :=
  encode f (if f == .int8 then sx 8 (pbZp b) else 0) ((Val.ofInt y (-16)).mul (positDec 32 (pbScale b)))

/-- R320: the run of 16 elements of a pixel. -/
def camRun (b : Bytes) (f : Fmt) (es : List Conv) : Bytes :=
  let w := f.width / 8
  (es.flatMap fun e => leBytes w e.out)
    ++ (List.replicate (16 - es.length) (leBytes w (if f == .int8 then pbZp b else 0))).flatten

/-! ### Statistics (R323, R324) -/

/-- R323: the histogram bin of a LIN value. -/
def histBin (v : Nat) : Nat :=
  let r := v / 16
  if r == 0 then 0 else
  let e := lg r
  1 + 8 * e + 8 * (r - 2 ^ e) / 2 ^ e

/-- R323: the histogram of a plane: 256 bins of 4 bytes. -/
def histogram (p : Plane) : Bytes :=
  let bins := p.toList.map histBin
  (List.range 256).flatMap fun b => leBytes 4 ((bins.filter (· == b)).length)

/-- R323: the sums of a zone, 8 bytes for each colour. -/
def zoneSums (w h zx zy : Nat) (mono : Bool) (f : Nat → Nat → Nat → Nat) : Bytes :=
  let x0 := zx * w / 16
  let y0 := zy * h / 12
  let xs := (List.range ((zx + 1) * w / 16 - x0)).map (x0 + ·)
  let ys := (List.range ((zy + 1) * h / 12 - y0)).map (y0 + ·)
  (List.range 3).flatMap fun c =>
    leBytes 8 (total (ys.flatMap fun y => xs.map fun x => f (if mono then 1 else c) x y))

/-- R324: row at which band `b` begins. -/
def bandRow (h b : Nat) : Nat := b * h / 64

/-- R324: the mean of a band of context 0; none where the band has no row. -/
def bandMean (bank : Bytes) (w h : Nat) (p : Plane) (b : Nat) : Option Nat :=
  let r0 := bandRow h b
  let ys := (List.range (bandRow h (b + 1) - r0)).map (r0 + ·)
  let l := ys.flatMap fun y => ((List.range w).filter fun x =>
    pbMono bank || cfaColour (pbCfa bank) x y == 1).map fun x => p.px w x y
  if l.isEmpty then none else some (total l / l.length)

/-- R324: the table C. -/
def flickerC (i : Nat) : Int := [64, 59, 45, 24, 0, -24, -45, -59, -64, -59, -45, -24, 0, 24, 45, 59].getD (i % 16) 0

/-- R324: A_f from the differences of the band means. -/
def flickerA (h lineTime f : Nat) (d : List Int) : Nat :=
  let phi := fun b => 16 * ((bandRow h b * lineTime * f) % 10 ^ 12) / 10 ^ 12
  let sum := fun k => ((List.range 64).foldl (fun (a : Int) b => a + d.getD b 0 * flickerC (phi b + k)) 0).natAbs
  sum 0 + sum 12

/-- R324: the verdict of a group: 0 none, 1 at 100 Hz, 2 at 120 Hz. -/
def flickerVerdict (ratio lo a100 a120 : Nat) : Nat :=
  if ratio * a120 < a100 * 16 && lo < a100 then 1
  else if ratio * a100 < a120 * 16 && lo < a120 then 2
  else 0

end Sys2Proof.Machine
end

