-- ==== Sys2Proof/Machine/Camera.lean ====
section
/-! DEFINITION. Camera ports: contexts and groups (R310, R311), the frame checker (R312, R313), processing and handoff (R315 to
R323), and the sensor-control sequencer (R325, R326). -/
namespace Sys2Proof.Machine

/-! ### The CAMERA section (Table 16-6) -/

/-- The CAMERA payload of a channel. -/
def State.caSec (s : State) (ch : Nat) : Bytes := s.section1 ch 0x50
/-- CONTEXTS. -/
def caCtxs (p : Bytes) : Nat := fieldLE p 4 1
/-- ORDER is MERGE_FIRST. -/
def caMergeFirst (p : Bytes) : Bool := fieldLE p 5 1 == 0
/-- OUT_FORMAT. -/
def caFmt (p : Bytes) : Fmt := (Fmt.ofCode (fieldLE p 6 1)).getD .raw
/-- HOARD_FRAMES. -/
def caHoard (p : Bytes) : Bool := bitAt (fieldLE p 7 1) 0
/-- WIDTH. -/
def caW (p : Bytes) : Nat := fieldLE p 8 2
/-- HEIGHT. -/
def caH (p : Bytes) : Nat := fieldLE p 10 2
/-- DELAY of a write class. -/
def caDelay (p : Bytes) (k : Nat) : Nat := bits (fieldLE p 14 2) (4 * k) 4
/-- Area base `i`: RAW_BASE, HIST_BASE, PARAM_BASE, REQ_RING, STATS_BASE. -/
def caBase (p : Bytes) (i : Nat) : Nat := fieldLE p (0x20 + 8 * i) 8
/-- RAW_FRAMES. -/
def caRaw (p : Bytes) : Nat := fieldLE p 0x48 1
/-- SLOT_STRIDE. -/
def caStride (p : Bytes) : Nat := fieldLE p 0x50 4
/-- Context entry `k`. -/
def caCtx (p : Bytes) (k : Nat) : Bytes := slice p (0x80 + 16 * k) 16
/-- The map entries. -/
def caMaps (p : Bytes) : List Bytes := (List.range (fieldLE p 0x56 2)).map fun i => slice p (0xC0 + 32 * i) 32
/-- DT of context `k`. -/
def caDt (p : Bytes) (k : Nat) : Nat := fieldLE (caCtx p k) 1 1
/-- Bytes of a raw element: 4 for RAW20. -/
def caElem (p : Bytes) (k : Nat) : Nat := if caDt p k == 0x2F then 4 else 2

/-- R312: the address of raw buffer `i` of context `k`. -/
def caBuf (p : Bytes) (k i : Nat) : Nat :=
  caBase p 0 + (k * caRaw p + i) * (caW p * caH p * caElem p k)

/-! ### State -/

/-- The camera of a channel. -/
def State.camOf (s : State) (ch : Nat) : Cam := sget {} s.cam ch
/-- Changes the camera of a channel. -/
def State.modCam (s : State) (ch : Nat) (f : Cam → Cam) : State := { s with cam := smod {} s.cam ch f }
/-- Changes group F. -/
def State.modGroup (s : State) (ch f : Nat) (u : CamGroup → CamGroup) : State :=
  s.modCam ch fun c => { c with groups := c.groups.map fun g => if g.f == f then u g else g }
/-- Sets flags of group F. -/
def State.flagGroup (s : State) (ch f mask : Nat) : State :=
  s.modGroup ch f fun g => { g with flags := g.flags ||| mask }
/-- Group F. -/
def Cam.group (c : Cam) (f : Nat) : Option CamGroup := c.groups.find? fun g => g.f == f
/-- Changes the frame in progress of a context. -/
def State.modCamFrame (s : State) (ch k : Nat) (u : CamFrame → CamFrame) : State :=
  s.modCam ch fun c => { c with groups := c.groups.map fun g =>
    { g with frames := g.frames.map fun x => if x.ctx == k && !x.ended then u x else x } }
/-- The frame in progress of a context, with its group. -/
def Cam.running (c : Cam) (k : Nat) : Option (CamGroup × CamFrame) :=
  c.groups.findSome? fun g => (g.frames.find? fun x => x.ctx == k && !x.ended).map fun x => (g, x)

/-- Raises a code of Table 16-9 and counts it. -/
def State.camRaise (s : State) (ch code : Nat) : State :=
  let s := match code with
    | 0x5022 => s.bump (Reg.camCountBCrcLines ch)
    | 0x5023 => s.bump (Reg.camCountBUnsupported ch)
    | 0x502B => s.bump (Reg.camSeqNackCount ch)
    | 0x502E | 0x502F => s.bump (Reg.camCountALost ch)
    | _ => s
  s.evt code ch

/-- Raw buffers of a context that are busy: from a frame's start until the pipeline has read it (R313). -/
def Cam.busyBufs (c : Cam) (k : Nat) : List Nat :=
  ((c.groups.filter fun g => !g.done).flatMap fun g => g.frames.filter fun x => x.ctx == k).map (·.buf)

/-- Bytes no one states: a read that the memory cannot answer. -/
def State.freeBytes (s : State) : Nat → Bytes × State
  | 0 => ([], s)
  | n + 1 =>
    let (v, s) := s.fresh
    let (l, s) := s.freeBytes n
    (BitVec.ofNat 8 v :: l, s)

/-- A physical read of HBM by the pipeline. -/
def State.camRead (s : State) (a n : Nat) : Bytes × State :=
  let (s, r) := s.hbmFetch a n
  if r.code == 0 then (r.data, s) else s.freeBytes n

/-! ### The frame checker (R312, R313) -/

/-- R248, R312, R313: one line of a frame into its raw buffer; a write that is dropped is an overflow. -/
def State.camLine (s : State) (ch : Nat) (p : Bytes) (x : CamFrame) (pix : List Nat) : State :=
  let es := caElem p x.ctx
  let a := caBuf p x.ctx x.buf + x.lines * (caW p * es)
  let (s, cause) := s.hbmStore a (pix.flatMap fun v => leBytes es v)
  if cause == 0 then s.modCamFrame ch x.ctx fun x => { x with lines := x.lines + 1 }
  else if x.dropping then s.modCamFrame ch x.ctx fun x => { x with lines := x.lines + 1 }
  else (s.modCamFrame ch x.ctx fun x => { x with lines := x.lines + 1, dropping := true, flags := x.flags ||| 0x10 }).camRaise
    ch 0x5028

/-- R312, R313: the lines that did not come are filled with PAD codes. -/
def State.camFill : Nat → State → Nat → Nat → State
  | 0, s, _, _ => s
  | n + 1, s, ch, k =>
    match (s.camOf ch).running k with
    | none => s
    | some (_, x) =>
      let p := s.caSec ch
      if caH p ≤ x.lines then s
      else State.camFill n (s.camLine ch p x (List.replicate (caW p) (fieldLE (caCtx p k) 4 4))) ch k

/-- R311: a group closes: frames in progress have ended; missing contexts are flagged. -/
def State.camCloseNow (s : State) (ch f : Nat) : State :=
  match (s.camOf ch).group f with
  | none => s
  | some g =>
    let n := caCtxs (s.caSec ch)
    let s := if g.frames.length < n then (s.flagGroup ch f 0x80).camRaise ch 0x5029 else s
    let s := if g.frames.isEmpty then s.flagGroup ch f 0x2000 else s
    (s.modGroup ch f fun g => { g with closed := true }).modCam ch fun c => { c with recent := (g.num :: c.recent).take 4 }

/-- R312: a context frame ends; its group closes once every context has closed a frame in it. -/
def State.camEndFrame (s : State) (ch k : Nat) : State :=
  match (s.camOf ch).running k with
  | none => s
  | some (g, x) =>
    let p := s.caSec ch
    let short := x.lines < caH p && !x.dropping
    let s := if short then (s.modCamFrame ch k fun x => { x with flags := x.flags ||| 4 }).camRaise ch 0x5026 else s
    let s := (State.camFill (caH p) s ch k).modCamFrame ch k fun x => { x with ended := true }
    match (s.camOf ch).group g.f with
    | none => s
    | some g => if g.frames.length == caCtxs p && g.frames.all (·.ended) then s.camCloseNow ch g.f else s

/-- R311: a group closes as its timeout closes it. -/
def State.camClose (s : State) (ch : Nat) (g : CamGroup) : State :=
  let s := (g.frames.filter fun x => !x.ended).foldl (fun s x => s.camEndFrame ch x.ctx) s
  match (s.camOf ch).group g.f with
  | none => s
  | some g => if g.closed then s else s.camCloseNow ch g.f

/-- R311, R312: the timeouts that have passed. -/
def State.camSettle (s : State) (ch : Nat) : State :=
  let p := s.caSec ch
  let s := (List.range 4).foldl (fun s k =>
    match (s.camOf ch).running k with
    | some (_, x) => if jumped (x.start + 1000 * fieldLE p 0x18 4) x.shift ≤ s.now then s.camEndFrame ch k else s
    | none => s) s
  ((s.camOf ch).groups.filter fun g => !g.closed && jumped (g.tick + 1000 * fieldLE p 0x14 4) g.shift ≤ s.now).foldl
    (fun s g => s.camClose ch g) s

/-! ### Requests (R325, R326) -/

/-- Table 16-7: bytes of write `i` of an entry. -/
def reqWrite (e : Bytes) (i : Nat) : Bytes := slice e (0x10 + 8 * i) 8
/-- NWRITES. -/
def reqCount (e : Bytes) : Nat := fieldLE e 5 1
/-- The class of write `i`. -/
def reqClass (e : Bytes) (i : Nat) : Nat := fieldLE (reqWrite e i) 0 1 % 4

/-- R325: an entry that is not skipped. -/
def reqOk (e : Bytes) : Bool :=
  let z := fun off len => (slice e off len).all (· == 0)
  fieldLE e 4 1 < 16 && z 6 2 && z 12 4 && z 0xF8 8 && reqCount e ≤ 28
    && ((List.range 4).all fun k => fieldLE e (8 + k) 1 < 16)
    && (List.range 28).all fun i => fieldLE (reqWrite e i) 0 1 < 32 && fieldLE (reqWrite e i) 1 1 == 0

/-- R296: a at or below b, 32-bit. -/
def serial32 (a b : Nat) : Bool := (b + 2 ^ 32 - a % 2 ^ 32) % 2 ^ 32 < 2 ^ 31

/-- R328: the CAM_REQUEST entry of a request whose writes are finished. -/
def State.camReqRecord (s : State) (ch : Nat) (r : CamReq) : State :=
  s.hrdRecordAt r.tick 0x13 ch r.eff (r.entry ++ leBytes 4 r.taken ++ leBytes 4 r.ack ++ zeros 8)

/-- Changes the request of a ring index; a request that is finished and applied leaves. -/
def State.modReq (s : State) (ch i : Nat) (f : CamReq → CamReq) : State :=
  s.modCam ch fun c => { c with reqs := (c.reqs.map fun r => if r.index == i then f r else r).filter fun r =>
    !(r.left == 0 && r.applied) }

/-- R325: one entry taken at group g: its effective frame. `idle` is R326's reading of the ring. -/
def State.camTakeOne (s : State) (ch g i : Nat) (idle : Bool) (e : Bytes) : State :=
  if !reqOk e then s.camRaise ch 0x502C else
  let p := s.caSec ch
  let n := reqCount e
  let dmax := ((List.range n).map fun j => caDelay p (reqClass e j)).foldl max 0
  let f := fieldLE e 0 4
  let ok := idle || serial32 g ((f + 2 ^ 32 - dmax) % 2 ^ 32)
  let eff := if idle then g else if ok then f else (g + dmax) % 2 ^ 32
  let s := if ok then s else s.camRaise ch 0x502A
  let r : CamReq := { index := i, entry := e, taken := g, tick := s.now, eff := eff, late := !ok, left := n }
  let s := s.modCam ch fun c => { c with reqs := c.reqs ++ [r] }
  let out := (List.range n).map fun j => ({ index := i, write := j, since := s.now } : SensorWrite)
  let s := if idle then s.modCam ch fun c => { c with bus := c.bus ++ out } else s
  if n == 0 then s.camReqRecord ch r else s

/-- R325: reads PRODUCER and takes the entries it covers. A ring that cannot be read gives nothing. -/
def State.camTake (s : State) (ch g : Nat) (idle : Bool) : State :=
  let ring := caBase (s.caSec ch) 3
  let (s, r) := s.hbmFetch ring 4
  if r.code != 0 then s else
  let prod := leNat r.data
  let cons := s.rd (Reg.camSeqConsumer ch)
  let n := (prod + 2 ^ 32 - cons) % 2 ^ 32
  let s := s.wr (Reg.camSeqConsumer ch) prod
  if 64 < n then s.camRaise ch 0x502C else
  (List.range n).foldl (fun s i =>
    let j := (cons + i) % 2 ^ 32
    let (s, e) := s.hbmFetch (ring + 64 + 256 * (j % 64)) 256
    if e.code == 0 then s.camTakeOne ch g j idle e.data else s.camRaise ch 0x502C) s

/-- R325: the writes due at the opening of group F go out, in ring order and then in entry order. -/
def State.camIssue (s : State) (ch f : Nat) : State :=
  let p := s.caSec ch
  s.modCam ch fun c => { c with bus := c.bus ++ c.reqs.flatMap fun r =>
    if r.failed || r.applied then [] else
    ((List.range (reqCount r.entry)).filter fun j =>
      (r.eff + 2 ^ 32 - caDelay p (reqClass r.entry j)) % 2 ^ 32 == f).map fun j =>
        { index := r.index, write := j, since := s.now } }

/-- R325, R326: a request reaches its effective frame: settings state, banks, PARAM_LATE, REQ_ID. -/
def State.camApply (s : State) (ch f : Nat) (r : CamReq) : State :=
  let mask := fieldLE r.entry 4 1
  let s := if reqCount r.entry == 0 then s
    else s.wr (Reg.camStatusSettingsKnown ch) (!r.failed && r.left == 0).toNat
  let pick := fun (c : Cam) (k : Nat) => if bitAt mask k then fieldLE r.entry (8 + k) 1 else c.banks.getD k 0
  let s := s.modCam ch fun c => { c with banks := (List.range 4).map (pick c) }
  let s := if r.late then s.flagGroup ch f 0x400 else s
  (s.modGroup ch f fun g => { g with reqId := fieldLE r.entry 0xF0 8 }).modReq ch r.index fun r => { r with applied := true }

/-- R310, R325: group F opens. -/
def State.camOpen (s : State) (ch num : Nat) : State :=
  let f := (s.camOf ch).nextF
  let s := (s.modCam ch fun c => { c with
    nextF := (f + 1) % 2 ^ 32, groups := c.groups ++ [{ f := f, num := num, tick := s.now }] }).wr (Reg.camStatusFrame ch) f
  let s := (s.camTake ch f false).camIssue ch f
  let s := ((s.camOf ch).reqs.filter fun r => r.eff == f && !r.applied).foldl (fun s r => s.camApply ch f r) s
  s.modGroup ch f fun g => { g with
    banks := (s.camOf ch).banks,
    flags := if s.rd (Reg.camStatusSettingsKnown ch) == 1 then g.flags else g.flags ||| 0x100 }

/-- R325: a write fails: the request's further writes are not issued. -/
def State.camWriteFailed (s : State) (ch : Nat) (w : SensorWrite) : State :=
  let s := s.camRaise ch 0x502B
  let s := s.modCam ch fun c => { c with bus := c.bus.filter fun x => x.index != w.index }
  let s := match (s.camOf ch).reqs.find? fun r => r.index == w.index with
    | some r => s.camReqRecord ch r
    | none => s
  s.modReq ch w.index fun r => { r with failed := true, left := 0 }

/-- R325: a write is acknowledged. -/
def State.camWriteAcked (s : State) (ch : Nat) (w : SensorWrite) : State :=
  let s := s.modCam ch fun c => { c with bus := c.bus.erase w }
  match (s.camOf ch).reqs.find? fun r => r.index == w.index with
  | none => s
  | some r =>
    let r := { r with ack := r.ack ||| 2 ^ w.write, left := r.left - 1 }
    let s := if r.left == 0 then s.camReqRecord ch r else s
    s.modReq ch w.index fun _ => r

/-! ### Frame starts (R310) -/

/-- The group a frame start joins: none to open one; a group that is already joined by its context discards the frame. -/
def Cam.joins (c : Cam) (k num : Nat) : Option CamGroup :=
  if num != 0 then c.groups.find? fun g => !g.closed && g.num == num
  else c.groups.find? fun g => !g.closed && !(g.frames.any fun x => x.ctx == k)

/-- R310: the oldest open group closes where a fifth would open. -/
def State.camRoom (s : State) (ch : Nat) : State :=
  match (s.camOf ch).groups.filter fun g => !g.closed with
  | g :: rest => if 3 ≤ rest.length then s.camClose ch g else s
  | [] => s

/-- R310, R313: a frame start of a context. -/
def State.camStart (s : State) (ch k num : Nat) : State :=
  let s := (s.camSettle ch).camEndFrame ch k
  let s := s.modCam ch fun c => { c with quiet := s.now }
  if s.liveIgnored then s.ignoreLive
  else if (s.dsp ch).drain then s.camRaise ch 0x502E
  else if num != 0 && ((s.camOf ch).joins k num).isNone && (s.camOf ch).recent.contains num then s.camRaise ch 0x502F
  else
    let s := if ((s.camOf ch).joins k num).isSome then s else (s.camRoom ch).camOpen ch num
    match (s.camOf ch).joins k num with
    | none => s
    | some g =>
      let busy := (s.camOf ch).busyBufs k
      match (List.range (caRaw (s.caSec ch))).find? fun i => !busy.contains i with
      | none => s.camRaise ch 0x502F
      | some i =>
        if g.frames.any fun x => x.ctx == k then s.camRaise ch 0x502F
        else s.modGroup ch g.f fun g => { g with frames := g.frames ++ [{ ctx := k, num := num, start := s.now, buf := i }] }

/-! ### Long packets (R309, R312, R313) -/

/-- R312: what a packet header's ECC finds: true where the packet goes on. -/
def State.camHeader (s : State) (ch : Nat) (h : HdrErr) : State × Bool :=
  match h with
  | .none => (s, true)
  | .corrected => (s.camRaise ch 0x5020, true)
  | .uncorrectable =>
    ((List.range 4).foldl (fun s k => s.modCamFrame ch k fun x => { x with flags := x.flags ||| 0x40 })
      (s.camRaise ch 0x5021), false)

/-- R312, R313: a pixel line of a context's frame. -/
def State.camPixels (s : State) (ch k : Nat) (x : CamFrame) (payload : Bytes) (crcOk full : Bool) : State :=
  let p := s.caSec ch
  let w := caW p
  let set := fun (s : State) (m : Nat) => s.modCamFrame ch k fun x => { x with flags := x.flags ||| m }
  if x.dropping then s
  else if full then (s.modCamFrame ch k fun x => { x with dropping := true, flags := x.flags ||| 0x10 }).camRaise ch 0x5028
  else if caH p ≤ x.lines then (set s 8).camRaise ch 0x5027
  else
    let pad := fieldLE (caCtx p k) 4 4
    if !crcOk then ((set s 0x20).camRaise ch 0x5022).camLine ch p { x with flags := x.flags ||| 0x20 } (List.replicate w pad)
    else
      let px := unpackLine (caDt p k) payload
      let s := if px.length < w then (set s 1).camRaise ch 0x5024
        else if w < px.length then (set s 2).camRaise ch 0x5025 else s
      s.camLine ch p x ((px ++ List.replicate (w - px.length) pad).take w)

/-- R309, R312, R321: a long packet: embedded data, a pixel line, or a packet no context binds. -/
def State.camPacket (s : State) (ch vc dt : Nat) (payload : Bytes) (crcOk full : Bool) : State :=
  let p := s.caSec ch
  let want := fun k => fieldLE (caCtx p k) 0 1 == vc &&
    (if dt == 0x12 then fieldLE (caCtx p k) 2 1 == 1 else caDt p k == dt)
  match (List.range (caCtxs p)).find? want with
  | none => s.camRaise ch 0x5023
  | some k =>
    match (s.camOf ch).running k with
    | none => s
    | some (_, x) =>
      if dt != 0x12 then s.camPixels ch k x payload crcOk full
      else if x.dropping then s
      else if full then (s.modCamFrame ch k fun x => { x with dropping := true, flags := x.flags ||| 0x10 }).camRaise ch 0x5028
      else if !crcOk then (s.modCamFrame ch k fun x => { x with flags := x.flags ||| 0x20 }).camRaise ch 0x5022
      else s.modCamFrame ch k fun x => { x with emb := x.emb ++ payload }

/-! ### Processing (R315 to R324) -/

/-- R316: the banks a group uses, each as read, with the records of those that differ from the last recorded. -/
def State.camBanks (s : State) (ch : Nat) (g : CamGroup) (ctxs : List Nat) : List (Nat × Bytes) × State :=
  ctxs.foldl (fun a k =>
    let b := g.banks.getD k 0
    let (bs, s) := a.2.camRead (caBase (a.2.caSec ch) 2 + 8192 * b) 8192
    let d := sha256 bs
    let key := 16 * ch + b
    let s := if sget [] s.hrd.bankDigests key == d || s.rd Reg.hrdStatusState != 1 then s else
      ({ s with hrd := { s.hrd with bankDigests := sset [] s.hrd.bankDigests key d } }).hrdRecord 0x12 ch b bs
    (a.1 ++ [(k, bs)], s)) ([], s)

/-- R312: the codes of a raw buffer's bytes. -/
def rawCodes (es n : Nat) (bs : Bytes) : List Nat := (List.range n).map fun i => fieldLE bs (i * es) es

/-- R317, R318: temporal noise reduction of a plane against history `i`: the plane, the state, whether the history was
invalid and whether its write was dropped. -/
def State.camTemporal (s : State) (ch i : Nat) (bank : Bytes) (pl : Plane) : Plane × State × Bool × Bool :=
  let p := s.caSec ch
  let n := caW p * caH p
  let a := caBase p 1 + i * n * 4
  let valid := (s.camOf ch).hist.contains i
  let (hb, s) := if valid then s.camRead a (4 * n) else ([], s)
  let t : Plane := if valid then
      ((List.range n).map fun j => temporal bank (pl.getD j 0) (fieldLE hb (4 * j) 4)).toArray
    else pl
  let (s, cause) := s.hbmStore a (t.toList.flatMap fun v => leBytes 4 v)
  let s := s.modCam ch fun c => { c with hist := insNat i c.hist }
  (t, s, !valid, cause != 0)

/-- R317: the merge of planes. -/
def mergePlanes (w h : Nat) (l : List (Bytes × Plane)) : Plane :=
  mkPlane w h fun x y => mergePixel (l.map fun e => (e.1, e.2.px w x y))

/-- R315: stage 3 of a group from its linearised planes: the merged plane, and what the temporal stages found. -/
def State.camStage3 (s : State) (ch : Nat) (lins : List (Nat × Bytes × Plane)) (bank0 : Bytes) :
    Plane × State × Bool × Bool :=
  let p := s.caSec ch
  let w := caW p
  let h := caH p
  if caMergeFirst p then
    let m := mergePlanes w h (lins.map fun e => e.2)
    s.camTemporal ch 0 bank0 (spatial bank0 w h m)
  else
    let (l, s, inv, bad) := lins.foldl (fun (a : List (Bytes × Plane) × State × Bool × Bool) e =>
      let (t, s, i, b) := a.2.1.camTemporal ch e.1 e.2.1 (spatial e.2.1 w h e.2.2)
      (a.1 ++ [(e.2.1, t)], s, a.2.2.1 || i, a.2.2.2 || b)) ([], s, false, false)
    (mergePlanes w h l, s, inv, bad)

/-- R321: one write of the tensor or of the event record. -/
def State.camStore (s : State) (ch f : Nat) (hbm : Bool) (cell dest : Nat) (bs : Bytes) : State :=
  let id := ch * 256 + cell % 256
  if !hbm && s.wayStopped { kind := .store, src := .camera ch, dst := .cell id } then
    s.modGroup ch f fun g => { g with stuck := true }
  else
    let (s, cause) := if hbm then s.hbmStore dest bs else s.inboundStore id dest bs
    if cause == 0 then s else (s.flagGroup ch f 0x1000).camRaise ch 0x502D

/-- R320, R321: the writer: the output elements of every pixel, counted, and placed by the delivery map. -/
def State.camWrite (s : State) (ch f slot : Nat) (bank : Bytes) (rgb : Nat → Nat → Nat → Nat) : State :=
  let p := s.caSec ch
  let w := caW p
  let fm := caFmt p
  let es : Array (List Conv) := ((List.range (w * caH p)).map fun i =>
    (finishPixel bank ((List.range 3).map fun c => rgb c (i % w) (i / w))).map (camElem bank fm)).toArray
  let all := es.toList.flatten
  let s := s.bump (Reg.camCountBCvtEvents ch) ((all.filter fun e => e.ev != .none).length)
  let s := s.bump (Reg.camCountBClip ch) ((all.filter fun e => e.clip).length)
  (caMaps p).foldl (fun s m =>
    let y0 := fieldLE m 2 2
    let x0 := fieldLE m 6 2
    (List.range (fieldLE m 4 2)).foldl (fun s r =>
      let run := (List.range (fieldLE m 8 2)).flatMap fun c => camRun bank fm (es.getD ((y0 + r) * w + x0 + c) [])
      s.camStore ch f (fieldLE m 0 1 == 1) (fieldLE m 10 2)
        (fieldLE m 0x10 8 + slot * caStride p + r * fieldLE m 0x0C 4) run) s) s

/-- R324: the flicker detector takes the band means of a group: FLICKER, A_100 and A_120. A band without a row has a mean no
one states. -/
def State.camFlicker (s : State) (ch : Nat) (bank : Bytes) (pl : Plane) : Nat × Nat × Nat × State :=
  let p := s.caSec ch
  let (ms, s) := (List.range 64).foldl (fun (a : List Nat × State) b =>
    match bandMean bank (caW p) (caH p) pl b with
    | some m => (a.1 ++ [m], a.2)
    | none => let (v, s) := a.2.fresh; (a.1 ++ [v % 2 ^ 32], s)) ([], s)
  match (s.camOf ch).means with
  | none => (3, 0, 0, s.modCam ch fun c => { c with means := some ms, verdicts := [] })
  | some prev =>
    let d := (ms.zip prev).map fun e => ((e.1 : Int) - e.2)
    let a := flickerA (caH p) (fieldLE p 0x1C 4) 100 d
    let b := flickerA (caH p) (fieldLE p 0x1C 4) 120 d
    let v := flickerVerdict (fieldLE p 0x4B 1) (fieldLE p 0x4C 4) a b
    let vs := (v :: (s.camOf ch).verdicts).take 8
    let out := if vs.length == 8 && vs.all (· == v) then v else 3
    (out, a, b, s.modCam ch fun c => { c with means := some ms, verdicts := vs })

/-- R318, R324: histories become invalid, and the flicker detector is cleared. -/
def State.camInvalidate (s : State) (ch : Nat) (bad : Nat → Bool) : State :=
  s.modCam ch fun c => { c with hist := c.hist.filter fun i => !bad i, means := none, verdicts := [] }

/-- R318, R324: what a group's missing contexts invalidate. -/
def State.camMissing (s : State) (ch : Nat) (g : CamGroup) : State :=
  let p := s.caSec ch
  let miss := (List.range (caCtxs p)).filter fun k => !(g.frames.any fun x => x.ctx == k)
  if !caMergeFirst p && !miss.isEmpty then s.camInvalidate ch miss.contains
  else if miss.contains 0 then s.camInvalidate ch fun _ => false
  else s

/-- Table 16-5: a statistics entry without FLAGS. -/
def camStats (g : CamGroup) (flick a100 a120 : Nat) (hist : Nat → Bytes) (zones emb : Bytes) : Bytes :=
  leBytes 8 g.f ++ zeros 2 ++ leBytes 1 flick ++ leBytes 1 (maskOf 4 fun k => g.frames.any fun x => x.ctx == k) ++ zeros 4
    ++ leBytes 8 g.reqId ++ leBytes 8 g.tick ++ leBytes 8 a100 ++ leBytes 8 a120 ++ zeros 16
    ++ ((List.range 4).flatMap fun k => fit 1024 (hist k)) ++ fit 4608 zones ++ fit 7616 emb

/-- R328: what the contexts `ctxs` of a group left in their raw buffers, handed to the Hoard recorder under HOARD_FRAMES. -/
def State.camRaws (s : State) (ch : Nat) (g : CamGroup) (ctxs : List Nat) : List (Nat × Bytes) × State :=
  let p := s.caSec ch
  let w := caW p
  let h := caH p
  ctxs.foldl (fun (a : List (Nat × Bytes) × State) k =>
    match g.frames.find? fun x => x.ctx == k with
    | none => a
    | some x =>
      let (bs, s) := a.2.camRead (caBuf p k x.buf) (w * h * caElem p k)
      let s := if caHoard p then s.hrdRecord 0x11 ch (g.f + 2 ^ 32 * k) bs else s
      (a.1 ++ [(k, bs)], s)) ([], s)

/-- R315 to R324: a group is processed in a frame slot. -/
def State.camProcess (s : State) (ch : Nat) (g : CamGroup) (slot : Nat) : State :=
  let p := s.caSec ch
  let w := caW p
  let h := caH p
  let s := s.modCam ch fun c => { c with slots := c.slots ++ [slot] }
  let ctxs := (List.range 4).filter fun k => g.frames.any fun x => x.ctx == k
  let (banks, s) := s.camBanks ch g (if caMergeFirst p then insNat 0 ctxs else ctxs)
  let bad := banks.any fun b => !bankOk b.2
  let asRead := fun k => ((banks.find? fun b => b.1 == k).map (·.2)).getD []
  let bank := fun k => if bankOk (asRead k) then asRead k else zeros 8192
  let frame := fun k => g.frames.find? fun x => x.ctx == k
  let (raws, s) := s.camRaws ch g ctxs
  let lins := raws.map fun e =>
    (e.1, bank e.1, (((rawCodes (caElem p e.1) (w * h) e.2).map (linearise (bank e.1))).toArray : Plane))
  let ovf := g.frames.any fun x => bitAt x.flags 4
  let (m, s, inv, dropped) := s.camStage3 ch lins (bank 0)
  let lead := bank (ctxs.headD 0)
  let m := defects lead w h m
  let rgb := demosaic lead w h m
  let s := s.camWrite ch g.f slot lead rgb
  let zones := (List.range 12).flatMap fun zy => (List.range 16).flatMap fun zx => zoneSums w h zx zy (pbMono lead) rgb
  let hist := fun k => match lins.find? fun e => e.1 == k with
    | some e => histogram e.2.2
    | none => []
  let emb := ctxs.flatMap fun k => ((frame k).map (·.emb)).getD []
  let s := s.camMissing ch g
  let (fl, a, b, s) := match lins.find? fun e => e.1 == 0 with
    | some e => s.camFlicker ch e.2.1 e.2.2
    | none => (3, 0, 0, s)
  let s := if ovf || dropped then s.camInvalidate ch fun _ => true else s
  let flags := (g.frames.foldl (fun n x => n ||| x.flags) 0) ||| (if inv then 0x200 else 0) ||| (if bad then 0x800 else 0)
    ||| (if 7616 < emb.length then 0x4000 else 0) ||| (if dropped then 0x10 else 0)
  let s := if dropped then s.camRaise ch 0x5028 else s
  let parts := (List.range 4).flatMap fun k =>
    match frame k with
    | some x => leBytes 4 x.num ++ leBytes 1 (g.banks.getD k 0) ++ zeros 3
        ++ sha256 (((raws.find? fun e => e.1 == k).map (·.2)).getD []) ++ sha256 (asRead k) ++ zeros 8
    | none => zeros 80
  s.modGroup ch g.f fun g => { g with
    done := true, slot := some slot, flags := g.flags ||| flags, stats := camStats g fl a b hist zones emb, parts := parts,
    histOk := !inv }

/-! ### Handoff (R322) -/

/-- Table 20-5: the CAM_GROUP record. -/
def State.camRecord (s : State) (ch : Nat) (g : CamGroup) (seq : Nat) : Bytes :=
  leBytes 8 g.tick ++ leBytes 8 seq ++ leBytes 1 (g.slot.getD 15) ++ zeros 7 ++ leBytes 2 g.flags
    ++ leBytes 1 (maskOf 4 fun k => g.frames.any fun x => x.ctx == k) ++ zeros 5 ++ fit 320 g.parts
    ++ (if g.histOk then fit 32 (s.camOf ch).prevDigest else zeros 32)

/-- R322, R323, R402: a group whose writes are performed goes to the dispatcher; its record is `pl`. -/
def State.camDeliver (s : State) (ch : Nat) (g : CamGroup) (seq : Nat) (pl : Bytes) : State :=
  let p := s.caSec ch
  let st := if g.done then g.stats else camStats g 3 0 0 (fun _ => []) [] []
  let (s, _) := s.hbmStore (caBase p 4 + 16384 * (g.f % fieldLE p 0x49 1)) (patch st 8 (leBytes 2 g.flags))
  let d := sha256 (pl.drop 0x18)
  let s := s.modCam ch fun c => { c with
    groups := c.groups.filter fun x => x.f != g.f, frameSeq := seq, prevDigest := d }
  let s := s.incr (Reg.camCountAHanded ch)
  let s := if g.flags == 0 then s else s.bump (Reg.camCountAFlagged ch)
  let s := s.hrdRecord 0x10 ch g.f pl
  let s := { s with sealer := { s.sealer with
    camera := keepHandoff s.sealer.camera { ch := ch, event := g.f, digest := d } } }
  s.accept ch { head := (s.headOfKind ch 2).getD 0xFFFF, kind := 2, event := g.f, slot := g.slot.getD 15,
                frameFlags := g.flags, input := d } (some g.tick) false

/-- R320: the event record of a group that has a slot. -/
def State.camEventRecord (s : State) (ch : Nat) (g : CamGroup) (slot seq : Nat) : State :=
  let p := s.caSec ch
  s.camStore ch g.f false (fieldLE p 0x54 2) (fieldLE p 0x58 4 + 32 * slot)
    (leBytes 6 g.f ++ leBytes 2 g.flags ++ leBytes 8 g.tick ++ leBytes 2 (caCtxs p) ++ leBytes 2 g.frames.length
      ++ leBytes 1 slot ++ zeros 3 ++ leBytes 8 seq)

/-- R320 to R323: the last writes of a group, its record and its handoff. -/
def State.camHandoff (s : State) (ch : Nat) (g : CamGroup) : State :=
  let seq := (s.camOf ch).frameSeq + 1
  let s := match g.slot with
    | none => s.camMissing ch g
    | some k => s.camEventRecord ch g k seq
  match (s.camOf ch).group g.f with
  | none => s
  | some g => if g.stuck then s else s.camDeliver ch g seq (s.camRecord ch g seq)

/-! ### The rows -/

/-- R248, R327: the camera port of a channel runs. -/
def State.camOn (s : State) (ch : Nat) : Bool :=
  s.configured ch && !(s.caSec ch).isEmpty && s.pwr.resetChannel != some ch && !(s.island (0x41C + ch)).stopped

/-- R419: what each camera that takes a packet of a channel's port does with it. The port of a follower stays idle; it does not
take an uncorrectable item. -/
def State.onCam (s : State) (ch : Nat) (tap : TapErr) (f : State → Nat → State) : State :=
  if !s.camOn ch || s.isFollower ch then s else
  let s := f s ch
  if s.isPair ch && s.camOn (partnerOf ch) then
    match tap with
    | .none => f s (partnerOf ch)
    | .uncorrectable => s.channelFault (partnerOf ch) 0x9007
  else s

/-- R310: CAM_FRAME_START of a context. -/
def execCamFrameStart (ch : BitVec 2) (ctx : BitVec 2) (frame : BitVec 16) (hdr : HdrErr) (tap : TapErr) (s : State) :
    Host.Outcome State Fault Refusal :=
  .next <| s.onCam ch.toNat tap fun s c =>
    let (s, ok) := (s.camSettle c).camHeader c hdr
    if ok && ctx.toNat < caCtxs (s.caSec c) then s.camStart c ctx.toNat frame.toNat else s

/-- R309, R312, R321: CAM_LONG_PACKET. `full`: the receive buffer had no room for it. -/
def execCamLongPacket (ch : BitVec 2) (vc : BitVec 4) (dt : BitVec 6) (hdr : HdrErr) (payload : Bytes) (crcOk full : Bool)
    (tap : TapErr) (s : State) : Host.Outcome State Fault Refusal :=
  .next <| s.onCam ch.toNat tap fun s c =>
    let (s, ok) := (s.camSettle c).camHeader c hdr
    if ok then s.camPacket c vc.toNat dt.toNat payload crcOk full else s

/-- R312: CAM_FRAME_END of a context. -/
def execCamFrameEnd (ch : BitVec 2) (ctx : BitVec 2) (frame : BitVec 16) (hdr : HdrErr) (tap : TapErr) (s : State) :
    Host.Outcome State Fault Refusal :=
  let _ := frame
  .next <| s.onCam ch.toNat tap fun s c =>
    let (s, ok) := (s.camSettle c).camHeader c hdr
    if ok then s.camEndFrame c ctx.toNat else s

/-- R312: FRAME_TIMEOUT of a context's frame. -/
def execFrameTimeout (ch : BitVec 2) (ctx : BitVec 2) (s : State) : Host.Outcome State Fault Refusal :=
  .next <|
    let c := ch.toNat
    if !s.camOn c then s else
    match (s.camOf c).running ctx.toNat with
    | none => s
    | some (_, x) => if jumped (x.start + 1000 * fieldLE (s.caSec c) 0x18 4) x.shift ≤ s.now then s.camEndFrame c ctx.toNat else s

/-- R311: MERGE_TIMEOUT: the oldest open group whose timeout has passed closes. -/
def execMergeTimeout (ch : BitVec 2) (s : State) : Host.Outcome State Fault Refusal :=
  .next <|
    let c := ch.toNat
    if !s.camOn c then s else
    match (s.camOf c).groups.find? fun g => !g.closed && jumped (g.tick + 1000 * fieldLE (s.caSec c) 0x14 4) g.shift ≤ s.now with
    | none => s
    | some g => s.camClose c g

/-- R315: CAM_PROCESS_START: the first group that is not processed, once it has closed and a slot is free. -/
def execCamProcessStart (ch : BitVec 2) (s : State) : Host.Outcome State Fault Refusal :=
  .next <|
    let c := ch.toNat
    if !s.camOn c || (s.dsp c).drain then s else
    let s' := s.camSettle c
    let slot := (List.range (fieldLE (s'.caSec c) 0x4A 1)).find? fun k => !(s'.camOf c).slots.contains k
    match (s'.camOf c).groups.find? fun g => !g.done, slot with
    | some g, some k => if g.closed && !g.frames.isEmpty then s'.camProcess c g k else s
    | _, _ => s

/-- R322: CAM_HANDOFF: the oldest group, processed, or closed with every context missing. -/
def execCamHandoff (ch : BitVec 2) (s : State) : Host.Outcome State Fault Refusal :=
  .next <|
    let c := ch.toNat
    if !s.camOn c || (s.dsp c).drain then s else
    let s' := s.camSettle c
    match (s'.camOf c).groups with
    | g :: _ => if !g.stuck && (g.done || (g.closed && g.frames.isEmpty)) then s'.camHandoff c g else s
    | [] => s

/-- R325, R419: SENSOR_WRITE_DONE: the oldest write on the sensor-control bus completes. -/
def execSensorWriteDone (ch : BitVec 2) (ack : Bool) (s : State) : Host.Outcome State Fault Refusal :=
  .next <| s.onCam ch.toNat .none fun s c =>
    match (s.camOf c).bus with
    | [] => s
    | w :: _ => if ack then s.camWriteAcked c w else s.camWriteFailed c w

/-- R325: WRITE_WINDOW: the oldest write has not completed in its window. -/
def execWriteWindow (ch : BitVec 2) (s : State) : Host.Outcome State Fault Refusal :=
  .next <|
    let c := ch.toNat
    if !s.camOn c then s else
    match (s.camOf c).bus with
    | [] => s
    | w :: _ => if w.since + 1000 * fieldLE (s.caSec c) 0x10 4 ≤ s.now then s.camWriteFailed c w else s

/-- R326: CAM_RING_POLL: no frame start, and no reading of the ring, for 1 ms. -/
def execCamRingPoll (ch : BitVec 2) (s : State) : Host.Outcome State Fault Refusal :=
  .next <|
    let c := ch.toNat
    if !s.camOn c || (s.dsp c).drain || s.now < (s.camOf c).quiet + 1000000 then s else
    (s.modCam c fun x => { x with quiet := s.now }).camTake c (s.camOf c).nextF true

/-- R329: the state of a port as a channel reset or a resynchronisation leaves it; CONSUMER goes to the ring's PRODUCER. -/
def State.camRestart (s : State) (ch : Nat) : State :=
  let own := ((s.camOf ch).groups.filterMap (·.slot))
  let s := if (s.caSec ch).isEmpty then s else
    s.wr (Reg.camSeqConsumer ch) (leNat (s.hbmRead (caBase (s.caSec ch) 3) 4))
  ((s.modCam ch fun c => { slots := c.slots.filter fun k => !own.contains k, quiet := c.quiet }).wr
    (Reg.camStatusFrame ch) 0).wr (Reg.camStatusSettingsKnown ch) 0

/-- R329: CAM_RESYNC. -/
def execCamResync (ch : BitVec 2) (s : State) : Host.Outcome State Fault Refusal :=
  .next <| s.gated (s.camGate ch.toNat) fun s => s.camRestart ch.toNat

/-- R248: the camera's island stops: open groups are discarded and the settings state becomes UNKNOWN. -/
def State.camStop (s : State) (ch : Nat) : State :=
  (s.modCam ch fun c => { c with groups := c.groups.filter (·.closed), bus := [] }).wr (Reg.camStatusSettingsKnown ch) 0

end Sys2Proof.Machine
end

