-- ==== Sys2Proof/Machine/Reset.lean ====
section
/-! DEFINITION. Channel and cell resets (R466, R467, R469 to R472, R266). -/
namespace Sys2Proof.Machine

/-! ### Registers by reset domain (R466) -/

/-- The channel of an instance of a block in the channel or cell domain. -/
def chanOfBlk (b : Blk) (n : Nat) : Option Nat :=
  match b with
  | .wgl => some (n / 4)
  | .ing | .cam | .disp => some n
  | .cell => some (chOf n)
  | _ => none

/-- The registers that a reset reaches take their reset values. -/
def State.resetRegs (s : State) (reached : Blk → Nat → Domain → Bool) : State :=
  let hit := fun k => match blockOf k with
    | none => false
    | some (b, n, o) => match descAt b o with
      | none => false
      | some d => reached b n d.dom
  { s with regs := (State.reset.regs.filter fun e => hit e.1).foldl (fun l e => sset 0 l e.1 e.2)
                     (s.regs.filter fun e => !hit e.1) }

/-! ### Cells -/

/-- The endpoint is one of these logical cells. -/
def Endpoint.isOf (e : Endpoint) (ids : List Nat) : Bool :=
  match e with
  | .cell id => ids.contains id
  | _ => false

/-- R471: a packet that a reset of cells leaves without an owner there: a read, or the answer to one, goes; any other request
or answer is no longer awaited. -/
def Packet.disown (p : Packet) (ids : List Nat) : Option Packet :=
  let k := if p.kind.isRsp then p.reqKind else p.kind
  if !((p.kind.isRsp && p.dst.isOf ids) || (!p.kind.isRsp && p.src.isOf ids)) then some p
  else if k == .memreq && p.origin.use == 0 then none
  else if p.kind == .credit then some p
  else some { p with origin := { p.origin with slot := 16, fetch := [] } }

/-- R471, R266, Table 23-3: physical cells `ps`, bound to the logical cells `ids`, lose their swarms, memories and cell
registers. -/
def State.cellsReset (s : State) (ps ids : List Nat) : State :=
  let s := { s with
    cells := ps.foldl sdel s.cells, pkts := s.pkts.filterMap fun p : Packet => p.disown ids,
    host := { s.host with reads := s.host.reads.filter fun r => !(r.use == 0 && r.src.isOf ids) } }
  s.resetRegs fun b n d => b == Blk.cell && d == Domain.cell && ps.contains n

/-! ### Channels -/

/-- R469, step 1: queued triggers and armed counts are cancelled and launches aborted, each with its fallback; a result that waits
for its seal leaves. -/
def State.channelAbort (s : State) (ch : Nat) : State :=
  let js := (s.dsp ch).sealJobs
  let s := s.modDisp ch fun d => { d with sealJobs := [] }
  let s := js.foldl (fun s j => s.emitOut ch j.trig j.ctx 0 0 j.events 0 j.modes j.result true 0) s
  let s := s.cancelQueue ch 0x19 0xC021 0xC021
  let s := (List.range 16).foldl (fun s i => s.cancelCountAs ch i 4 0x19 0xC021 0xC021) s
  let s := s.dropWaiting ch 0xC021
  (List.range 16).foldl (fun s k => s.abortCtx ch k 0xC021) s

/-- R336, R344, R354: a Waggle port starts afresh in DISABLED; flits already on the wire stay there. -/
def State.portReset (s : State) (q : Nat) : State :=
  let up := s.linkState q == 5 || s.linkState q == 6
  let s := if up then ((s.chainsPortLost q).timePortLost q).pairPortLost q else s
  s.modWgl q fun w => { wire := w.wire }

/-- R38: the lanes of a quad on the retired-lane list show as retired. -/
def State.showRetired (s : State) (q : Nat) : State :=
  (s.img.retired.filter fun x => x.1 == q).foldl (fun s x =>
    (s.setBit (Reg.wglStatusRetired q) x.2.1).wr (laneField q x.2.1 42 1) 1) s

/-- R23, R466, R467, R469, steps 1 to 4: a channel is reset. Its bridge ends are closed until it is configured. -/
def State.channelReset (s : State) (ch : Nat) : State :=
  let quads := (List.range 4).map (4 * ch + ·)
  let s := (s.channelAbort ch).chainsWithdraw ch
  let s := quads.foldl State.portReset s
  let s := s.cellsReset (physOf ch) (cellsOf ch)
  let s := s.resetRegs fun b n d => (d == .channel || d == .cell) && chanOfBlk b n == some ch
  let s := quads.foldl State.showRetired s
  let s := s.camRestart ch
  let keep := fun l : List Handoff => l.filter fun h => h.ch != ch
  { s.modDisp ch fun d => { profile := d.profile, hostDone := d.hostDone, drain := true } with
    ing := sdel s.ing ch, cam := sdel s.cam ch,
    sealer := { s.sealer with
      weights := sdel s.sealer.weights ch, ingest := keep s.sealer.ingest, camera := keep s.sealer.camera } }

/-- R20, R484: a channel becomes unconfigured and has no binding in force. -/
def State.unconfigure (s : State) (ch : Nat) : State :=
  let s := (s.clrBit Reg.imgStatusConfigured ch).setBit Reg.imgStatusUnconfigured ch
  { s with img := { s.img with
      parts := sdel s.img.parts ch, bound := s.img.bound - (if bitAt s.img.bound ch then 2 ^ ch else 0) } }

/-- R262, R266: at the end of a channel reset its cells restore the credits of every static route that leads to them. A
RESTORE towards another channel is taken by the closed bridge end; within the channel it changes nothing. -/
def State.restoresLost (s : State) (ch : Nat) : State :=
  s.allRoutes.foldl (fun s e =>
    (routeDests e).foldl (fun s d =>
      if chOf d != ch || chOf (fieldLE e 8 2) == ch then s else
      match s.closedOn ch (chOf (fieldLE e 8 2)) with
      | some x => s.countEnd x
      | none => s) s) s

/-! ### Requests of the host (R472) -/

/-- R472: the number of the first case that refuses a reset of a channel. -/
def State.resetRefusal (s : State) (ch : Nat) (noCell : Bool) : Option Nat :=
  let st := s.rd Reg.imgStatusState
  let cases : List (Nat × Bool) := [
    (1, s.rd Reg.glbResetStatusBusy == 1),
    (2, st == 1 || st == 2 || st == 3),
    (3, (List.range s.fnCount).any fun f => (s.fn f).held && bitAt (s.fnChannels f) ch),
    (4, s.liveIgnored),
    (5, noCell)]
  (cases.find? (·.2)).map (·.1)

/-- R472: a reset that is refused. -/
def State.resetRefused (s : State) (n : Nat) : State := (s.wr Reg.glbResetStatusRefuseCase n).evt 0xC020 0

/-- R469: a write of CHANNEL_GO. -/
def State.channelGo (s : State) (ch : Nat) : State :=
  match s.resetRefusal ch false with
  | some n => s.resetRefused n
  | none =>
    ((s.channelReset ch).wr Reg.glbResetStatusBusy 1).modPwr fun p => { p with resetChannel := some ch }

/-- R471: a write of CELL_GO. -/
def State.cellGo (s : State) (id : Nat) : State :=
  match s.resetRefusal (chOf id) (!isLogical id) with
  | some n => s.resetRefused n
  | none =>
    let ch := chOf id
    let ks := (List.range 16).filter fun k => !((s.cell id).slotsOfCtx k).isEmpty
    let s := ks.foldl (fun s k => s.abortCtx ch k 0xC022) s
    ((s.cellsReset [s.phys id] [id]).wr Reg.glbResetStatusBusy 1).modPwr fun p => { p with resetCell := some id }

/-- The RW fields of a write of GLB.RESET_CTL. -/
def State.resetFields (s : State) (v : Nat) : State := s.writeReg .glb 0 0x10 all64 v

/-- R439: the GLB block answers whenever the device is out of reset. -/
def State.glbGate (s : State) : Gate := if s.held then .hold else .serve

/-- R469, R472: RESET_CTL_CHANNEL: a write with CHANNEL_GO as its first set command bit. -/
def execResetCtlChannel (data : Word) (s : State) : Host.Outcome State Fault Refusal :=
  let v := data.toNat
  .next <| if !bitAt v 16 || bitAt v 17 || bitAt v 18 then s
    else s.gated s.glbGate fun s => (s.resetFields v).channelGo (bits v 10 2)

/-- R471, R472: RESET_CTL_CELL: a write with CELL_GO as its first set command bit. -/
def execResetCtlCell (data : Word) (s : State) : Host.Outcome State Fault Refusal :=
  let v := data.toNat
  .next <| if !bitAt v 17 || bitAt v 18 then s
    else s.gated s.glbGate fun s => (s.resetFields v).cellGo (bits v 0 10)

/-- R469, step 5, R470: CHANNEL_RESET_DONE. -/
def execChannelResetDone (s : State) : Host.Outcome State Fault Refusal :=
  .next <| match s.pwr.resetChannel with
    | none => s
    | some ch =>
      let s := ((s.restoresLost ch).unconfigure ch).modDisp ch fun d => { d with drain := false }
      let s := (s.wr Reg.glbResetStatusBusy 0).modPwr fun p => { p with resetChannel := none }
      (s.evt 0xC021 0).leaveGroup 10 true

/-- R266, R471: CELL_RESET_DONE: the router restores the credits of every static route that leads to the cell. -/
def execCellResetDone (s : State) : Host.Outcome State Fault Refusal :=
  .next <| match s.pwr.resetCell with
    | none => s
    | some id =>
      let s := (s.wr Reg.glbResetStatusBusy 0).modPwr fun p => { p with resetCell := none }
      let s := (s.allRoutes.filter fun e => (routeDests e).contains id).foldl (fun s e =>
        s.credit id (fieldLE e 8 2) (fieldLE e 1 1) true) s
      s.evt 0xC022 0

end Sys2Proof.Machine
end

