-- ==== Sys2Proof/Machine/Loader.lean ====
section
/-! DEFINITION. The loader: requests (R21, R22, R33, R44), pass 1, the drain (R43) and the way into pass 2 (R23, R24); the cell
self-test record (R38) and IMG.BIND_CTL. -/
namespace Sys2Proof.Machine

/-! ### The end of a load -/

/-- R33, R459: a load ends: its code and detail stand in IMG.STATUS, STATE becomes `st`, and the image-load cause is raised. -/
def State.loadEnd (s : State) (code detail st : Nat) : State :=
  let s := ((s.wr Reg.imgStatusLastCode code).wr Reg.imgStatusFaultDetail detail).wr Reg.imgStatusState st
  { s with img := { s.img with load := none } }.irq 0

/-- R21: pass 1 of a load begins. -/
def State.loadBegin (s : State) (ld : Load) : State :=
  { s with img := { s.img with load := some ld } }.wr Reg.imgStatusState 1

/-- R21, R22, R473: pass 1 fails: nothing is applied. At boot slot 1 follows slot 0, and 0xC026 its failure. -/
def State.loadFail (s : State) (ld : Load) (code detail : Nat) : State :=
  let s := s.loadEnd code detail ld.prior
  if !ld.boot then s
  else if ld.source == 1 then s.loadBegin { source := 2, verifyOnly := false, prior := ld.prior, boot := true }
  else s.evt 0xC026 0

/-- R249: the loader's clock is stopped. -/
def State.loaderDown (s : State) : Bool := (s.island 0x42E).stopped

/-- R44, IMG.SRC: why a source in HBM is refused before anything is read: IMG_HEADER with the offset of IMAGE_SIZE, or with a
detail that no rule gives. -/
def srcBad (addr size : Nat) : Option (Option Nat) :=
  if 2 ^ 34 < size then some (some 0x20)
  else if addr % 64 != 0 then some none
  else if 2 ^ 39 < addr + size then some (some 0x20)
  else none

/-- R21, R22, R33, R44, R249: a request for a load. One that comes while a load runs is ignored. -/
def State.loadGo (s : State) (source : Nat) (verifyOnly boot : Bool) : State :=
  if s.img.load.isSome then (s.wr Reg.imgStatusLastCode 0xA012).wr Reg.imgStatusFaultDetail 0 else
  let addr := s.rd Reg.imgSrcSrcAddr
  let size := s.rd Reg.imgSizeSize
  let ld : Load := { source := source, addr := addr, size := size, verifyOnly := verifyOnly, prior := s.rd Reg.imgStatusState,
                     boot := boot }
  let (d, t) := s.fresh
  if s.loaderDown then t.loadFail ld 0xA011 d
  else match (if source == 0 then srcBad addr size else none) with
    | some (some o) => s.loadFail ld 0xA002 o
    | some none => t.loadFail ld 0xA002 d
    | none => s.loadBegin ld

/-- R6, R21: a write of IMG.CTL. -/
def State.imgCtl (s : State) (v : Nat) : State :=
  let s := s.writeReg .img 0 0 all64 v
  if bitAt v 0 then s.loadGo (s.rd Reg.imgCtlSource) (s.rd Reg.imgCtlVerifyOnly == 1) false else s

/-- R21: IMG_LOAD: a write of IMG.CTL with LOAD and without VERIFY_ONLY. -/
def execImgLoad (data : Word) (s : State) : Host.Outcome State Fault Refusal :=
  .next <| if !bitAt data.toNat 0 || bitAt data.toNat 8 then s else s.gated s.blockGate fun s => s.imgCtl data.toNat

/-- R33: IMG_VERIFY_ONLY: a write of IMG.CTL with LOAD and VERIFY_ONLY. -/
def execImgVerifyOnly (data : Word) (s : State) : Host.Outcome State Fault Refusal :=
  .next <| if !bitAt data.toNat 0 || !bitAt data.toNat 8 then s else s.gated s.blockGate fun s => s.imgCtl data.toNat

/-! ### Reading the source -/

/-- The offset in a range of HBM of the first byte that cannot be read. -/
def State.sourceGap (s : State) (a n : Nat) : Nat :=
  match (blocksOf a n).find? fun b => !s.stackUp (stackOf (64 * b)) || sget 0 s.hbmErr b == 2 with
  | some b => 64 * b - a
  | none => 0

/-- R22: bytes of a flash slot. -/
def State.flashRead (s : State) (k off n : Nat) : Bytes := sgetN 0xFF s.pwr.flash (k * s.slotSize + off) n

/-- R22, R450: a flash slot cannot be read: there is no flash, or a FLASH_WRITE has failed in it. -/
def State.slotBad (s : State) (k : Nat) : Bool := s.slotSize == 0 || s.pwr.flashBad.contains k

/-- R22, R24: bytes of the source of a load from offset `off`; none with the FAULT_DETAIL of IMG_SOURCE where the read fails. -/
def State.sourceRead (s : State) (ld : Load) (off n : Nat) : State × Option Bytes × Nat :=
  if ld.source == 0 then
    let gap := s.sourceGap (ld.addr + off) n
    let (s, r) := s.hbmFetch (ld.addr + off) n
    if n == 0 || r.code == 0 then (s, some r.data, 0) else (s, none, off + gap)
  else
    let k := ld.source - 1
    if s.slotBad k then
      let (d, s) := s.fresh
      (s, none, d)
    else (s, some (s.flashRead k off n), 0)

/-- R22, R26: the length of the source: IMG.SIZE, or IMAGE_SIZE of the header in a flash slot; 0 where the slot cannot hold it. -/
def State.sourceLen (s : State) (ld : Load) : Nat :=
  if ld.source == 0 then ld.size else
  let n := fieldLE (s.flashRead (ld.source - 1) 0x20 8) 0 8
  if n ≤ s.slotSize then n else 0

/-- R450: a FLASH_WRITE writes the slot that a load reads. -/
def State.slotWriting (s : State) (ld : Load) : Bool :=
  ld.source != 0 && (List.range 64).any fun q => (s.queue q).jobs.any fun j =>
    seOp j.entry == 0x10 && j.stage == 1 && seParam j.entry == ld.source - 1

/-! ### The drain (R43) -/

/-- R43, R379: the drain of a channel begins. -/
def State.drainBegin (s : State) (ch : Nat) : State :=
  let s := s.modDisp ch fun d => { d with drain := true }
  let s := (s.cancelQueue ch 0x09 0 0x8006).cancelArms ch
  (s.ingDrain ch).chainsWithdraw ch

/-- A launch of a context runs. -/
def CtxPhase.begun (p : CtxPhase) : Bool := p != .dead && p != .waiting

/-- Channels of the load in progress. -/
def Load.chans (ld : Load) : List Nat := imChannels ld.image

/-- R43, R382: every launch still running in a draining channel is aborted; the code it keeps is LAUNCH_FAULT. -/
def State.drainAbort (s : State) (ld : Load) : State :=
  ld.chans.foldl (fun s c => (List.range 16).foldl (fun s k =>
    if (s.ctx c k).phase.begun then s.abortCtx c k 0x8003 else s) s) s

/-- Pass 1 has succeeded: the drain, and its end at once where DRAIN_LIMIT is 0 (R44). -/
def State.drainStart (s : State) (ld : Load) : State :=
  let s := { s with img := { s.img with load := some ld } }.wr Reg.imgStatusState 2
  let s := (ld.chans.filter s.configured).foldl State.drainBegin s
  if s.rd Reg.imgPctlDrainLimit == 0 then s.drainAbort ld else s

/-- R33: IMG_PASS1_DONE: the source is read and verified. -/
def execImgPass1Done (readOk : Bool) (s : State) : Host.Outcome State Fault Refusal :=
  .next <| match s.img.load with
    | none => s
    | some ld =>
      if s.rd Reg.imgStatusState != 1 || s.slotWriting ld then s else
      let n := s.sourceLen ld
      let (s, r, d) := s.sourceRead ld 0 (if ld.source == 0 then n else max 512 n)
      match r with
      | none => s.loadFail ld 0xA011 d
      | some m =>
        if !readOk || s.loaderDown then
          let (d, s) := s.fresh
          s.loadFail ld 0xA011 d
        else match s.verify m n (if ld.source == 0 then some (ld.addr, n) else none) with
          | some (code, detail) => s.loadFail ld code detail
          | none =>
            if ld.verifyOnly then s.loadEnd 0 0 ld.prior
            else s.drainStart { ld with image := m, channels := maskOf 4 fun c => (imChannels m).contains c, drainFrom := s.now }

/-- R43: DRAIN_LIMIT. -/
def execDrainLimit (s : State) : Host.Outcome State Fault Refusal :=
  .next <| match s.img.load with
    | none => s
    | some ld =>
      if s.rd Reg.imgStatusState != 2 || s.now < ld.drainFrom + s.rd Reg.imgPctlDrainLimit then s else s.drainAbort ld

/-- R23, R43: IMG_DRAIN_DONE: no launch runs in the channels of the load; each is reset, and pass 2 begins. -/
def execImgDrainDone (s : State) : Host.Outcome State Fault Refusal :=
  .next <| match s.img.load with
    | none => s
    | some ld =>
      if s.rd Reg.imgStatusState != 2 || ld.chans.any (fun c => (List.range 16).any fun k => (s.ctx c k).phase.begun) then s
      else ld.chans.foldl (fun s c => ((s.channelReset c).restoresLost c).unconfigure c) (s.wr Reg.imgStatusState 3)

/-! ### The failed-cell list -/

/-- The cell is on the failed-cell list. -/
def State.cellListed (s : State) (p : Nat) : Bool := s.img.failed.any fun x => x.1 == p

/-- R38: a physical cell joins the failed-cell list; an earlier entry of it stays. -/
def State.listCell (s : State) (p cause : Nat) : State :=
  if s.cellListed p then s else { s with img := { s.img with failed := s.img.failed ++ [(p, s.now, cause)] } }

/-- CELL.SELFTEST of a physical cell: UNIT, and whether the test has failed. -/
def State.selfTestRecord (s : State) (p unit : Nat) (fail : Bool) : State :=
  (((s.wr (Reg.cellSelftestFail p) fail.toNat).wr (Reg.cellSelftestUnit p) unit).incr (Reg.cellSelftestRuns p)).wr
    (Reg.cellSelftestTick p) s.now

/-- R23, R38, R473: the self-test of physical cells has run: each has its record, and the failed ones join the list. -/
def State.cellSelfTest (s : State) (bad : List CellFail) (ps : List Nat) : State :=
  ps.foldl (fun s p =>
    match bad.find? fun b => b.cell.toNat == p with
    | some b => (s.selfTestRecord p b.part.toNat true).listCell p 0xC023
    | none => s.selfTestRecord p 0 false) s

/-- IMG.BIND_CTL: the lists may be cleared. -/
def State.mayClear (s : State) : Bool := s.rd Reg.imgStatusState == 0 || s.rd Reg.imgStatusState == 4

/-- R38: CLEAR_CELLS. -/
def State.clearCells (s : State) : State :=
  if s.mayClear then { s with img := { s.img with failed := [] } } else s.regEncoding

/-- R38: CLEAR_LANES: a port trains the lanes again at the next load of its channel. -/
def State.clearLanes (s : State) : State :=
  if s.mayClear then { s with img := { s.img with retired := [] } } else s.regEncoding

/-- R38: CLEAR_CELLS. -/
def execClearCells (s : State) : Host.Outcome State Fault Refusal := .next <| s.gated s.blockGate State.clearCells

/-- R38: CLEAR_LANES. -/
def execClearLanes (s : State) : Host.Outcome State Fault Refusal := .next <| s.gated s.blockGate State.clearLanes

end Sys2Proof.Machine
end

