-- ==== Sys2Proof/Machine/Apply.lean ====
section
/-! DEFINITION. Pass 2 of a load: the channel self-test and binding (R23, R36, R37, R39), application of the sections (R23,
R96, R97, R210, R223, R251, R252, R290, R291), the binding report (R40), and the end of the load (R24, R25). -/
namespace Sys2Proof.Machine

/-! ### Sections -/

/-- R252: the GOV fields; without a section the payload's defaults. -/
def govDefault : Bytes := [0, 0, 100, 90] ++ leBytes 4 1000 ++ leBytes 2 400 ++ leBytes 2 400 ++ zeros 20

/-- R245, R252: GOV: the profile as a write, the lock, the limits and the floors of the Seal engine and of Hoard. -/
def State.applyGov (s : State) (p : Bytes) : State :=
  let s := ((s.wr Reg.govProfileLock 0).profileWrite (fieldLE p 0 1)).wr Reg.govProfileLock (fieldLE p 1 1)
  let s := ((s.wr Reg.govLimitsTjSoft (fieldLE p 2 1)).wr Reg.govLimitsHbmSoft (fieldLE p 3 1)).wr
    Reg.govLimitsStallLimit (fieldLE p 4 4)
  (s.isleBounds 0x42B (fieldLE p 8 2) 1200).isleBounds 0x42C (fieldLE p 0xA 2) 1200

/-- R234: the scalable islands of a channel. -/
def chanIsles (ch : Nat) : List Nat := physOf ch ++ [0x400 + 2 * ch, 0x401 + 2 * ch, 0x418 + ch, 0x41C + ch]

/-- R251: the islands that an ISLE entry bounds. -/
def State.isleTargets (s : State) (ch : Nat) (e : Bytes) : List Nat :=
  match fieldLE e 0 1 with
  | 0 => ((rectAt e 1).cells ch).map s.phys
  | 1 => [0x400 + 2 * ch, 0x401 + 2 * ch]
  | 2 => [0x418 + ch]
  | _ => [0x41C + ch]

/-- R252: no entry bounds an island of the channel: its class limits hold. -/
def State.isleClear (s : State) (ch : Nat) : State :=
  (chanIsles ch).foldl (fun s i => s.modIsle i fun x => { x with floor := 0, ceil := 0, set := false }) s

/-- R251, R253: ISLE: the bounds of the channel's islands; each starts at its floor, and no raise is made for 10 periods. -/
def State.applyIsle (s : State) (ch : Nat) (p : Bytes) : State :=
  let s := (tabEntries p 16).foldl (fun s e =>
    (s.isleTargets ch e).foldl (fun s i => s.isleBounds i (fieldLE e 6 2) (fieldLE e 8 2)) s) s
  ((chanIsles ch).foldl (fun s i => s.setFreq i (s.isleFloor i)) s).modGov fun g => { g with periods := 0 }

/-- R210: FTAB: a table in one slot of every cell of a rectangle. -/
def State.applyFtab (s : State) (ch : Nat) (p : Bytes) : State :=
  let b := ftBase p
  ((rectAt p 0).cells ch).foldl (fun s id => s.modCell id fun c => { c with
    tables := sset {} c.tables (fieldLE p 4 1) { header := slice p 0x10 64, base := b },
    tableRam := (List.range (ftRows p)).foldl (fun r i => sset 0 r (b + i) (BitVec.ofNat 128 (fieldLE p (0x50 + 16 * i) 16)))
      c.tableRam }) s

/-- R223: SCALE: each block writes entries of every cell of its rectangle. -/
def State.applyScale (s : State) (ch : Nat) (p : Bytes) : State :=
  (tabEntries p 16).foldl (fun s b =>
    ((rectAt b 0).cells ch).foldl (fun s id => s.modCell id fun c => { c with
      scale := (List.range (fieldLE b 6 2)).foldl (fun f k =>
        sset scaleReset f (fieldLE b 4 2 + k) (BitVec.ofNat 64 (fieldLE p (fieldLE b 8 8 + 8 * k) 8))) c.scale }) s) s

/-- R96: CODE: bytes of the local memory of every cell of a rectangle. -/
def State.applyCode (s : State) (ch : Nat) (p : Bytes) : State :=
  (tabEntries p 32).foldl (fun s e =>
    ((rectAt e 0).cells ch).foldl (fun s id => s.modCell id fun c => c.write (cdOff e) (slice p (fieldLE e 0x10 8) (cdLen e))) s) s

/-- R248, R291: DATA: bytes of HBM, or of the local memory of every cell of a rectangle. A write that HBM refuses ends it. -/
def State.applyData (s : State) (ch : Nat) (p : Bytes) : List Bytes → State × Bool
  | [] => (s, false)
  | e :: l =>
    if daLocal e then
      State.applyData (((rectAt e 4).cells ch).foldl (fun s id => s.modCell id fun c => c.write (daDest e) (daBytes p e)) s) ch p l
    else
      let (s, cause) := s.hbmStore (daDest e) (daBytes p e)
      if cause != 0 then (s, true) else State.applyData s ch p l

/-- R290: REGION: ROOT and WALK_EN. -/
def State.applyRegion (s : State) (ch : Nat) (p : Bytes) : State :=
  (s.wr (Reg.dispRegionRootRoot ch) (fieldLE p 0 8)).wr (Reg.dispRegionRootWalkEn ch) (fieldLE p 8 1 % 2)

/-- WAGGLE: WGL.CTL.RETIRE_EN of each port. -/
def State.applyPorts (s : State) (ch : Nat) (p : Bytes) : State :=
  (wgPorts p).foldl (fun s e => s.wr (Reg.wglCtlRetireEn (4 * ch + fieldLE e 0 1)) (bits (fieldLE e 5 1) 1 1)) s

/-- Applies one section; true where HBM has refused a write of it. The blocks of the other types read the running part. -/
def State.applySection (s : State) (ch : Nat) (x : Section) : State × Bool :=
  match x.type with
  | 0x20 => (s.applyIsle ch x.payload, false)
  | 0x21 => (s.applyGov x.payload, false)
  | 0x41 => (s.applyPorts ch x.payload, false)
  | 0x60 => (s.applyFtab ch x.payload, false)
  | 0xB0 => (s.applyRegion ch x.payload, false)
  | 0xC0 => (s.applyCode ch x.payload, false)
  | 0xC1 => s.applyData ch x.payload (tabEntries x.payload 32)
  | 0xC2 => (s.applyScale ch x.payload, false)
  | _ => (s, false)

/-- R24: the sections of a part are read again, checked against pass 1 and applied; or the load stops with a code and a detail.
`stop` is the directory index of a section that the source does not give. -/
def State.applyPart (s : State) (ld : Load) (stop : Option Nat) (ch : Nat) : List (Nat × Bytes) → State × Option (Nat × Nat)
  | [] => (s, none)
  | x :: l =>
    let (s, r, d) := s.sourceRead ld (deOff x.2) (deLen x.2)
    let (f, t) := s.fresh
    if stop == some x.1 then (t, some (0xA011, f)) else
    match r with
    | none => (s, some (0xA011, d))
    | some b =>
      if sha384 b != deDigest x.2 then (s, some (0xA010, x.1))
      else if deType x.2 == 0xF0 then State.applyPart s ld stop ch l
      else
        let (s, refused) := s.applySection ch { type := deType x.2, payload := s.ownPart ld.image x.2 }
        if refused then
          let (f, s) := s.fresh
          (s, some (0xA011, f))
        else State.applyPart s ld stop ch l

/-! ### Binding -/

/-- R36: a channel is bound around the failed cells of its columns; under FREEZE (R39) it keeps the binding it had. -/
def State.bindChannel (s : State) (ch : Nat) (freeze : Bool) : State :=
  let row := fun k => if freeze then (if bitAt s.img.everBound ch then s.failedRowOf ch k else 12)
    else (s.failedRows ch k).headD 12
  { s with img := { s.img with
      failedRow := (List.range 12).foldl (fun l k => sset 12 l (ch * 16 + k) (row k)) s.img.failedRow,
      bound := s.img.bound ||| 2 ^ ch, everBound := s.img.everBound ||| 2 ^ ch,
      degraded := sdel s.img.degraded ch } }

/-- R37: a channel is left unconfigured, with the cause. -/
def State.degrade (s : State) (ch cause : Nat) : State :=
  { s with img := { s.img with degraded := sset (0, 0) s.img.degraded ch (cause, s.now) } }

/-- R23, R36, R37, R39: self-test, binding and application of one channel part. -/
def State.applyChannel (s : State) (ld : Load) (bad : List CellFail) (stop : Option Nat) (ch : Nat) : State × Option (Nat × Nat) :=
  let freeze := s.rd Reg.imgBindCtlFreeze == 1
  if s.degradeOf ch && (s.missingStack ch).isSome then (s.degrade ch 0xA00E, none) else
  let s := s.cellSelfTest bad (physOf ch)
  match s.bindBad freeze ch with
  | some (code, p) => if !freeze && s.degradeOf ch then (s.degrade ch 0xA00D, none) else (s, some (code, p))
  | none => (((s.bindChannel ch freeze).isleClear ch).applyRegion ch []).applyPart ld stop ch (imPart ld.image ch)

/-- R23: the channel parts of a load, A to D, until one stops it. -/
def State.applyChannels (s : State) (ld : Load) (bad : List CellFail) (stop : Option Nat) : List Nat → State × Option (Nat × Nat)
  | [] => (s, none)
  | ch :: l =>
    match s.applyChannel ld bad stop ch with
    | (s, none) => State.applyChannels s ld bad stop l
    | (s, some e) => (s, some e)

/-! ### The binding report (R40, Table 02-6) -/

/-- An entry of the report. -/
structure BindEntry where
  kind : Nat
  ch : Nat
  a : Nat := 0
  b : Nat := 0
  cause : Nat := 0
  tick : Nat := 0

/-- The 32 bytes of an entry. -/
def BindEntry.bytes (e : BindEntry) : Bytes :=
  leBytes 1 e.kind ++ leBytes 1 e.ch ++ zeros 2 ++ leBytes 2 e.a ++ leBytes 2 e.b ++ leBytes 2 e.cause ++ zeros 6
    ++ leBytes 8 e.tick ++ zeros 8

/-- Cause and tick of a physical cell on the failed-cell list. -/
def State.failInfo (s : State) (p : Nat) : Nat × Nat :=
  match s.img.failed.find? fun x => x.1 == p with
  | some x => (x.2.2, x.2.1)
  | none => (0, 0)

/-- Cause and tick of the failed cell that shifts a column. -/
def State.shiftInfo (s : State) (ch col : Nat) : Nat × Nat := s.failInfo (cellId ch (s.failedRowOf ch col) col)

/-- R255: the hop cost of one step between logical cells. -/
def State.hopCost (s : State) (st : Nat × Nat) : Nat :=
  if chOf st.1 != chOf st.2 then 1 else
  let a := rowOf (s.phys st.1)
  let b := rowOf (s.phys st.2)
  let d := max a b - min a b
  if rowOf st.1 == rowOf st.2 then (if d == 0 then 1 else 2) else if d == 1 then 1 else 2

/-- R36: the entry of a static route that the binding has lengthened. -/
def State.reboundOf (s : State) (r : Nat × Nat × Bytes × List (Nat × Nat)) : List BindEntry :=
  let tree := r.2.2.2
  let long := tree.filter fun st => s.hopCost st != 1
  match long with
  | [] => []
  | st :: _ =>
    let id := if s.phys st.1 != st.1 then st.1 else st.2
    let (c, t) := s.shiftInfo (chOf id) (colOf id)
    [{ kind := 4, ch := r.1, a := fieldLE r.2.2.1 1 1, b := total (tree.map s.hopCost), cause := c, tick := t }]

/-- Every entry that is due, in KIND order, then by channel, then by A. -/
def State.bindEntries (s : State) : List BindEntry :=
  let chs := [0, 1, 2, 3]
  let up := chs.filter s.configured
  (up.flatMap fun ch => (cellsOf ch).filterMap fun id =>
      if s.phys id == id then none else
        let (c, t) := s.shiftInfo ch (colOf id)
        some ({ kind := 1, ch := ch, a := id, b := s.phys id, cause := c, tick := t } : BindEntry))
  ++ ((sortNat (s.img.failed.map (·.1))).map fun p =>
      let (c, t) := s.failInfo p
      ({ kind := 2, ch := chOf p, a := p, cause := c, tick := t } : BindEntry))
  ++ ((List.range 16).flatMap fun q => (s.img.retired.filter fun x => x.1 == q).map fun x =>
      ({ kind := 3, ch := quadCh q, a := q, b := x.2.1, cause := x.2.2.2, tick := x.2.2.1 } : BindEntry))
  ++ ((List.range 256).flatMap fun id => (s.plannedRoutes.filter fun r =>
      s.configured r.1 && fieldLE r.2.2.1 1 1 == id).flatMap s.reboundOf).foldr
      (fun e l => (l.takeWhile fun x => x.ch < e.ch) ++ e :: l.dropWhile fun x => x.ch < e.ch) []
  ++ ((chs.filter fun ch => !s.configured ch && sget (0, 0) s.img.degraded ch != (0, 0)).map fun ch =>
      ({ kind := 5, ch := ch, cause := (sget (0, 0) s.img.degraded ch).1, tick := (sget (0, 0) s.img.degraded ch).2 } : BindEntry))
  ++ (((List.range 8).filter fun k => !s.stackUp k).map fun k =>
      ({ kind := 6, ch := k / 2, a := k, cause := s.absentCause k, tick := sget 0 s.img.absent k } : BindEntry))

/-- R40: the loader writes the report; 1020 entries at most, the last then an OVERFLOW entry. -/
def State.bindReport (s : State) (partialLoad : Bool) : State :=
  let l := s.bindEntries
  let l := if l.length ≤ 1020 then l else l.take 1019 ++ [{ kind := 7, ch := 0, a := l.length - 1019 }]
  let conf := s.rd Reg.imgStatusConfigured
  let head := [0x58, 0x4C, 0x42, 0x49, 0x4E, 0x44, 0x52, 0x50] ++ leBytes 2 1 ++ leBytes 2 l.length
    ++ leBytes 1 partialLoad.toNat ++ leBytes 1 conf ++ leBytes 1 (15 - conf) ++ zeros 1 ++ leBytes 8 s.now
    ++ fit 48 s.img.imageDigest ++ leBytes 4 (Config.loaderFwVersion (BitVec.ofNat 32 s.fwVersion)) ++ zeros 4
  { s with img := { s.img with report := head ++ l.flatMap BindEntry.bytes } }

/-! ### The end of pass 2 -/

/-- R43: the drain of channels ends. -/
def State.drainEnd (s : State) (chs : List Nat) : State := chs.foldl (fun s c => s.modDisp c fun d => { d with drain := false }) s

/-- R20, R24: no image runs any more. -/
def State.noImage (s : State) : State :=
  let s := ({ s with
    img := { s.img with globalDigest := [], channelDigest := [], imageDigest := [], memberDigest := [], memberGlobal := [],
                        globals := [], parts := [], roles := [0, 0, 0, 0] },
    safe := [] }.wr Reg.imgStatusSigned 0).wr Reg.timeStatusGroupState 0
  if (s.island 0x42C).stopped || s.liveIgnored then s else s.wr Reg.hrdStatusState 0

/-- R24: a load stops after pass 1. What it has not applied stays out; a full load leaves no channel configured, a partial one
leaves those of its mask unconfigured. -/
def State.loadStop (s : State) (ld : Load) (code detail : Nat) : State :=
  let reached := s.rd Reg.imgStatusState == 3
  let s := if reached then s else ld.chans.foldl (fun s c => ((s.channelReset c).restoresLost c).unconfigure c) s
  let s := (ld.chans.foldl State.unconfigure s).drainEnd ld.chans
  let s := if imPartial ld.image then s else s.noImage
  let s := if reached then s.bindReport (imPartial ld.image) else s
  s.loadEnd code detail (if imPartial ld.image then 4 else 0)

/-- R111: the cells that BOOT entries of a part cover, with the offset of each. -/
def State.bootCells (s : State) (ch : Nat) : List (Nat × Nat) :=
  (s.sections ch 0xC0).flatMap fun p => ((tabEntries p 32).filter cdBoot).flatMap fun e => ((rectAt e 0).cells ch).map fun id => (id, cdOff e)

/-- R111, R113: swarm 0 of a cell, in STRICT, G16 and spill interval 64. -/
def State.bootSwarm (s : State) (id pc : Nat) : State :=
  s.modCell id fun c => { c with swarms := sset {} c.swarms 0 (Swarm.create 4 pc 0 8) }

/-- R24, R25, R30, R368: the running image and its digests. -/
def State.takeImage (s : State) (m : Bytes) : State :=
  let g := if imPartial m then s.img.memberGlobal else memberGlobal m
  let chs := [0, 1, 2, 3].map (imChannel m)
  { s with img := { s.img with
      globalDigest := imGlobal m, imageDigest := imDigest m, memberGlobal := g,
      channelDigest := [0, 1, 2, 3].foldl (fun l c => sset [] l c (imChannel m c)) s.img.channelDigest,
      memberDigest := digest244 0x576 0x21 g chs } }.wr Reg.imgStatusSigned (imSigned m).toNat

/-- R25, R408: Hoard after a load: a new epoch, or a gap entry for each reloaded channel and an IMAGE entry. -/
def State.hoardLoaded (s : State) (ld : Load) : State :=
  let part := imPartial ld.image
  if s.liveIgnored || (s.island 0x42C).stopped then s
  else if !part && s.hrdMode != 0 then s.hrdEpoch
  else
    let s := if !part then s.wr Reg.hrdStatusState 0 else s
    let s := if part then ld.chans.foldl (fun s c => s.hrdRecord 0x51 c c (leBytes 8 ld.drainFrom ++ leBytes 8 s.now)) s else s
    s.hrdRecord 0x50 0xF part.toNat (fit 48 s.img.imageDigest ++ fit 48 s.img.memberDigest
      ++ leBytes 1 (s.rd Reg.imgStatusConfigured))

/-- R371, R374: the device group after a load. A device whose image has no TIME section counts from REFCLK. -/
def State.groupLoaded (s : State) (ld : Load) (changed : Bool) : State :=
  let s := if changed then s.leaveGroup 10 true else s
  if imPartial ld.image then s
  else if s.tmRole == 0 then (s.wr Reg.timeStatusGroupState 0).wr Reg.timeStatusSource 0
  else s.timeApplied

/-- R416, R418, R423: the safety functions after a load. -/
def State.safetyLoaded (s : State) (ld : Load) : State :=
  if !imPartial ld.image then s.safetyApplied else
  [0, 1].foldl (fun s f =>
    if f < s.fnCount && ld.chans.any fun c => bitAt (s.fnChannels f) c then s.modFn f fun x => { x with hostCount := [] } else s) s

/-- R23 to R25, R33, R43, R111, R371: a load succeeds; `done` are the channels whose part has been applied. -/
def State.loadApplied (s : State) (ld : Load) (done : List Nat) : State :=
  let old := s.img.memberDigest
  let s := s.takeImage ld.image
  let s := done.foldl (fun s c => (s.setBit Reg.imgStatusConfigured c).clrBit Reg.imgStatusUnconfigured c) s
  let s := s.drainEnd ld.chans
  let s := done.foldl (fun s c => (s.bootCells c).foldl (fun s b => s.bootSwarm b.1 b.2) s) s
  let s := s.groupLoaded ld (imPartial ld.image || old != s.img.memberDigest)
  let s := (s.safetyLoaded ld).hoardLoaded ld
  let s := done.foldl State.chainsApplied s
  let s := ((s.bindReport (imPartial ld.image)).incr Reg.imgStatusLoadCount).modPwr fun p => { p with loaded := true }
  s.loadEnd 0 0 4

/-- A directory index of the image that no rule names: where a failed read of the source stops pass 2. -/
def State.freeStop (s : State) (m : Bytes) : Nat × State := s.pick ((imOrder m).map (·.1))

/-- R23, R24: IMG_APPLY_DONE: pass 2 has run. `readOk` is false where the source does not give a section. -/
def execImgApplyDone (readOk : Bool) (bad : List CellFail) (s : State) : Host.Outcome State Fault Refusal :=
  .next <| match s.img.load with
    | none => s
    | some ld =>
      if s.rd Reg.imgStatusState != 3 then s else
      let (k, t) := s.freeStop ld.image
      let (s, stop) := if readOk && !s.loaderDown then (s, none) else (t, some k)
      let s0 := s
      let s := s.withImage ld.image
      let (s, r) := if imPartial ld.image then (s, none) else
        let s := if (s.global 0x21).isEmpty then s.applyGov govDefault else s
        s.applyPart ld stop 0xF (imPart ld.image 0xF)
      let (s, r) := match r with
        | some e => (s, some e)
        | none => s.applyChannels ld bad stop ld.chans
      match r with
      | some (code, detail) => { s with img := { s.img with
          globals := s0.img.globals, parts := s0.img.parts, roles := s0.img.roles } }.loadStop ld code detail
      | none => s.loadApplied ld (ld.chans.filter fun c => bitAt s.img.bound c)

end Sys2Proof.Machine
end

