-- ==== Sys2Proof/Machine/SealEng.lean ====
section
/-! DEFINITION. The Seal engine's commands: the weights digest (R401) and the seal of a real result (R403). -/
namespace Sys2Proof.Machine

/-- R401: the manifest command is refused. -/
def State.manifestRefused (s : State) : State := s.evt 0xA021 0

/-- R401: a range is misaligned, or lies outside HBM or in an absent stack. -/
def State.badRange (s : State) (a n : Nat) : Bool :=
  a % 64 != 0 || n % 64 != 0 || 2 ^ 39 < a + n || (s.absentStack a n).isSome

/-- R401: SEAL.WCTL.GO: COUNT ranges at SEAL.WMAN for CHANNEL. -/
def State.manifestGo (s : State) : State :=
  let n := s.rd Reg.sealWctlCount
  let a := s.rd Reg.sealWmanAddr
  if s.sealer.command.isSome || s.sealDown then s.manifestRefused
  else if a % 64 != 0 || 2 ^ 39 < a + 16 * n || (s.absentStack a (16 * n)).isSome then s.manifestRefused
  else ({ s with sealer := { s.sealer with command := some (s.rd Reg.sealWctlChannel, n, a) } }).wr Reg.sealWctlBusy 1

/-- R401: SEAL_MANIFEST_GO. -/
def execSealManifestGo (data : Word) (s : State) : Host.Outcome State Fault Refusal :=
  let v := data.toNat
  .next <| if !bitAt v 0 then s else
    s.gated s.blockGate fun s => (s.writeReg .seal_ 0 0 all64 v).manifestGo

/-- R401: the message of a weights digest: address, length and bytes of every range; none where a range is bad or a read fails. -/
def State.rangeBytes (s : State) (l : List Bytes) : State × Option Bytes :=
  l.foldl (fun a e =>
    match a.2 with
    | none => a
    | some m =>
      let (s, r) := a.1.hbmFetch (fieldLE e 0 8) (fieldLE e 8 8)
      (s, if r.code == 0 then some (m ++ e ++ r.data) else none)) (s, some [])

/-- R401: SEAL_MANIFEST_DONE: the digest is computed and installed, or the command is refused at a range or a read. -/
def execSealManifestDone (s : State) : Host.Outcome State Fault Refusal :=
  .next <| match s.sealer.command with
    | none => s
    | some (ch, n, a) =>
      let s := ({ s with sealer := { s.sealer with command := none } }).wr Reg.sealWctlBusy 0
      let (s, r) := s.hbmFetch a (16 * n)
      if r.code != 0 then s.manifestRefused else
      let l := (List.range n).map fun i => slice r.data (16 * i) 16
      if l.any fun e => s.badRange (fieldLE e 0 8) (fieldLE e 8 8) then s.manifestRefused else
      match s.rangeBytes l with
      | (s, none) => s.manifestRefused
      | (s, some m) =>
        let d := sha256 m
        let s := { s with sealer := { s.sealer with
          weights := if d == sha256 [] then sdel s.sealer.weights ch else sset [] s.sealer.weights ch d } }
        ((s.incr Reg.sealWctlDoneCount).evt 0xA020 0).hrdRecord 0x52 ch ch
          (d ++ leBytes 4 n ++ zeros 4 ++ fit (16 * n) r.data)

/-- R403: SEAL_COMPLETE: the oldest released result of a channel leaves with its seal. -/
def execSealComplete (ch : BitVec 2) (s : State) : Host.Outcome State Fault Refusal :=
  let c := ch.toNat
  .next <| match (s.dsp c).sealJobs with
    | [] => s
    | j :: l => (s.modDisp c fun d => { d with sealJobs := l }).emitOut c j.trig j.ctx 0 0 j.events 0 j.modes j.result true 0

end Sys2Proof.Machine
end

