-- ==== Sys2Proof/Machine/Gov.lean ====
section
/-! DEFINITION. The governor: its control period (R239 to R246), stopped islands (R242, R247 to R249) and its own failure
(R249). -/
namespace Sys2Proof.Machine

/-! ### Stopped islands -/

/-- An island's clock is held stopped. -/
def State.stopIsle (s : State) (i : Nat) (trip : Bool) : State :=
  s.modIsle i fun x => { x with stopped := true, tripped := trip, pending := none }

/-- R382, R383: every running launch whose rectangle holds a cell that `gone` names is aborted with a code. -/
def State.abortOn (s : State) (ch code : Nat) (gone : Nat → Bool) : State :=
  (List.range 16).foldl (fun s k =>
    if (s.ctx ch k).phase.holds && (s.ctxCells ch k).any gone then s.abortCtx ch k code else s) s

/-- R242: the islands that a trip stops. -/
def tripIsles : List Nat :=
  ([0, 1, 2, 3].flatMap physOf) ++ (List.range 4).map (0x418 + ·) ++ (List.range 4).map (0x41C + ·)

/-- R242, R428, R430: THERM_TRIP, once until the next warm reset. -/
def State.thermTrip (s : State) : State :=
  if s.gov.trip then s else
  let s := s.modGov fun g => { g with trip := true }
  let s := (tripIsles.filter fun i => !(s.island i).stopped).foldl (fun s i => s.stopIsle i true) s
  let s := [0, 1, 2, 3].foldl (fun s ch => s.abortOn ch 0xC004 fun _ => true) s
  (s.evt 0xC004 0).allFault 0xC004

/-- R248, R293: the ingest island of a channel stops: its lanes go DOWN, and what it holds is lost. -/
def State.ingStop (s : State) (ch : Nat) : State :=
  let g := s.ingOf ch
  let held := g.events.filterMap (·.slot)
  s.modIng ch fun _ => { slots := g.slots.filter (fun k => !held.contains k), window := g.window, lost := g.lost,
                         frameSeq := g.frameSeq }

/-- R248: the Seal island stops: results that wait for their seal do not leave, and a manifest command is refused. -/
def State.sealStop (s : State) : State :=
  let s := [0, 1, 2, 3].foldl (fun s ch =>
    let js := (s.dsp ch).sealJobs
    let s := s.modDisp ch fun d => { d with sealJobs := [] }
    js.foldl (fun s j => s.unsealed ch j.ctx j.trig j.events 0) s) s
  let busy := s.sealer.command.isSome
  let s := { s with sealer := { s.sealer with command := none, ingest := [], camera := [] } }
  if busy then (s.wr Reg.sealWctlBusy 0).manifestRefused else s

/-- R248: the Hoard island stops: recording stops, and a replay ends. -/
def State.hoardStop (s : State) : State :=
  let s := if s.liveIgnored then s.replayEnd 0xA039 else s
  ((s.wr Reg.hrdStatusState 2).evt 0xA031 0).irq 2 |> fun s => { s with hrd := { s.hrd with lostRun := none } }

/-- R249: the loader's clock stops: a load in progress stops. -/
def State.loaderStop (s : State) : State :=
  match s.img.load with
  | none => s
  | some ld =>
    let (d, s) := s.fresh
    if s.rd Reg.imgStatusState == 1 then s.loadFail ld 0xA011 d else s.loadStop ld 0xA011 d

/-- R247: a cell island stops: its launches are aborted, and the physical cell joins the failed-cell list. -/
def State.cellStop (s : State) (p : Nat) : State :=
  let s := s.abortOn (chOf p) 0xC008 fun id => s.phys id == p
  ((s.listCell p 0xC008).wr (Reg.cellSelftestUnit p) 10).channelFault (chOf p) 0xC008

/-- R249: the dispatcher of a channel stops, and with it the channel's cells, ingest and camera. -/
def State.dispStop (s : State) (ch : Nat) : State :=
  let isles := (physOf ch ++ [0x418 + ch, 0x41C + ch]).filter fun i => !(s.island i).stopped
  let s := isles.foldl (fun s i => s.stopIsle i false) s
  (((s.ingStop ch).camStop ch).modPwr fun p => { p with faultN := true }).channelFault ch 0xC008

/-- R247 to R249: the clock monitor of an island fails. The host interface and the quads have no clock of their own to fail. -/
def State.clockFail (s : State) (i : Nat) : State :=
  if (s.island i).stopped || !isIsland i || i == 0x428 || (0x408 ≤ i && i ≤ 0x417) || i == 0x42D then s else
  let s := (s.stopIsle i false).evt 0xC008 0
  if isPhysical i then s.cellStop i
  else if i ≤ 0x407 then
    let k := i - 0x400
    let s := { s.wr (Reg.memStatusPresent k) 0 with img := { s.img with absent := sset 0 s.img.absent k s.now } }
    s.channelFault (k / 2) 0xC008
  else if i ≤ 0x41B then (s.ingStop (i - 0x418)).channelFault (i - 0x418) 0xC008
  else if i ≤ 0x41F then (s.camStop (i - 0x41C)).channelFault (i - 0x41C) 0xC008
  else if i ≤ 0x423 then s.dispStop (i - 0x420)
  else if i ≤ 0x427 then s
  else if i == 0x429 then s.allFault 0x9011
  else if i == 0x42A then (s.modPwr fun p => { p with watchdog := true }).allFault 0x9010
  else if i == 0x42B then s.sealStop
  else if i == 0x42C then s.hoardStop
  else s.loaderStop

/-! ### Measurements -/

/-- A junction temperature in quarter degrees. -/
def quarterOf (m : IslandMeas) : Int := sx 12 m.temp.toNat

/-- The largest number of a list; 0 for none. -/
def maxOf (l : List Nat) : Nat := l.foldl max 0

/-- The highest measured junction, as TEMP codes it; 0 without a measurement. -/
def hottest (m : GovMeas) : Nat :=
  match m.islands with
  | [] => 0
  | x :: l => (l.foldl (fun a y => if quarterOf a < quarterOf y then y else a) x).temp.toNat

/-- R239, Table 12-2: the measurements of a period: temperatures, power averaged over 1 ms, and the droops of the period. -/
def State.govMeasure (s : State) (m : GovMeas) : State :=
  let hist := (s.gov.powerHist ++ [m.power]).drop (s.gov.powerHist.length + 1 - 100)
  let s := m.islands.foldl (fun s x => s.modIsle x.island.toNat fun y => { y with temp := x.temp.toNat }) s
  let s := (s.gov.islands.map (·.1)).foldl (fun s i => s.modIsle i fun y => { y with lastDroops := y.droops, droops := 0 }) s
  let s := s.modGov fun g => { g with
    powerHist := hist, powerNow := m.power, junction := hottest m, hbmTemp := maxOf (m.hbmCase.map (·.2)),
    periods := g.periods + 1 }
  s.wr Reg.govPowerAvg1ms (total hist / hist.length)

/-! ### Decisions -/

/-- A physical cell of a channel with a binding in force that carries no logical cell. -/
def State.unusedCell (s : State) (i : Nat) : Bool :=
  isPhysical i && s.isBound (chOf i) && rowOf i == s.failedRowOf (chOf i) (colOf i)

/-- A scalable island that runs and that the governor moves. -/
def State.movable (s : State) (i : Nat) : Bool := (isleRange i).isSome && !(s.island i).stopped && !s.unusedCell i

/-- Class minimum of a scalable island. -/
def isleMin (i : Nat) : Nat := ((isleRange i).getD (0, 0)).1

/-- An island runs above its floor. -/
def State.aboveFloor (s : State) (i : Nat) : Bool := s.isleFloor i < (s.island i).freq

/-- R239: one step down. -/
def State.stepDown (s : State) (i : Nat) : State := s.setFreq i ((s.island i).freq - 25)

/-- R239, step 2: an island goes to its floor. -/
def State.toFloor (s : State) (i : Nat) : State :=
  if s.isleFloor i < (s.island i).freq then s.setFreq i (s.isleFloor i)
  else if (s.island i).freq < s.isleFloor i then s.raiseTo i (s.isleFloor i) else s

/-- Inserts an island by activity. -/
def insAct (x : Nat × Nat) : List (Nat × Nat) → List (Nat × Nat)
  | [] => [x]
  | y :: l => if x.2 ≤ y.2 then x :: y :: l else y :: insAct x l

/-- R239, R241, step 3: islands are lowered, least active first, and one at least; below its floor only where none is left above.
How many of them is free (log entry 5). -/
def State.powerStep (s : State) (m : GovMeas) : State × List Nat :=
  let all := ((m.islands.filter fun x => s.movable x.island.toNat && isleMin x.island.toNat < (s.island x.island.toNat).freq).map
    fun x => (x.island.toNat, x.activity)).foldr insAct []
  let above := all.filter fun x => s.aboveFloor x.1
  let l := if above.isEmpty then all else above
  if l.isEmpty then (s, []) else
  let (n, s) := s.fresh
  let chosen := (l.take (n % l.length + 1)).map (·.1)
  ((chosen.foldl State.stepDown s).evt 0xC001 0, chosen)

/-- R239, step 4: an island and its row neighbours. -/
def softSet (i : Nat) : List Nat :=
  if !isPhysical i then [i] else
  [i] ++ (if colOf i == 0 then [] else [i - 1]) ++ (if colOf i == 11 then [] else [i + 1])

/-- R239, R241, step 4, for one hot island; `acted` are the islands that an earlier step has moved. -/
def State.softStep (a : State × List Nat) (i : Nat) : State × List Nat :=
  let (s, acted) := a
  let l := (softSet i).filter s.movable
  let above := l.filter s.aboveFloor
  let go := (if above.isEmpty then l.filter fun j => isleMin j < (s.island j).freq else above).filter fun j => !acted.contains j
  ((go.foldl State.stepDown s).evt 0xC002 0, acted ++ go)

/-- R239, step 5, for one stack: lowered one step, or held at its floor from 95 °C on. -/
def State.hbmStep (a : State × List Nat) (x : BitVec 3 × Nat) : State × List Nat :=
  let (s, acted) := a
  let i := 0x400 + x.1.toNat
  let s := if 95 ≤ x.2 then s.evt 0xC005 0 else s
  if x.2 < s.rd Reg.govLimitsHbmSoft || acted.contains i || !s.movable i then (s, acted)
  else if 95 ≤ x.2 then (s.toFloor i, acted ++ [i])
  else (if s.aboveFloor i then s.stepDown i else s, acted ++ [i])

/-- R240: an island whose detector tripped more than 16 times is lowered one step. -/
def State.droopStep (a : State × List Nat) (i : Nat) : State × List Nat :=
  let (s, acted) := a
  if (s.island i).lastDroops ≤ 16 || !s.movable i then (s, acted) else
  let s := s.evt 0xC00B 0
  if acted.contains i then (s, acted) else (if s.aboveFloor i then s.stepDown i else s, acted ++ [i])

/-- R239, R253, step 6: activity raises or lowers an island that no other step has moved. -/
def State.activityStep (acted : List Nat) (s : State) (x : IslandMeas) : State :=
  let i := x.island.toNat
  let f := (s.island i).freq
  if !s.movable i || acted.contains i then s
  else if 192 < x.activity then (if 10 ≤ s.gov.periods && f + 25 ≤ s.isleTop i then s.raiseTo i (f + 25) else s)
  else if x.activity < 64 then (if s.aboveFloor i then s.stepDown i else s)
  else s

/-- R239: the steps of one period, earlier ones first. -/
def State.govSteps (s : State) (m : GovMeas) : State :=
  let temps := m.islands.map quarterOf
  let s := if temps.any fun t => 460 ≤ t then s.thermTrip else s
  let hot := temps.any fun t => 420 ≤ t
  let s := s.modGov fun g => { g with hot := hot }
  if hot then ((scalable.filter s.movable).foldl State.toFloor s).evt 0xC003 0 else
  let (s, acted) := if s.rd Reg.govPowerLimit < s.rd Reg.govPowerAvg1ms then s.powerStep m else (s, [])
  let soft := (m.islands.filter fun x => (4 * s.rd Reg.govLimitsTjSoft : Int) ≤ quarterOf x).map (·.island.toNat)
  let a := soft.foldl State.softStep (s, acted)
  let a := m.hbmCase.foldl State.hbmStep a
  let (s, acted) := (s.gov.islands.map (·.1)).foldl State.droopStep a
  let s := m.islands.foldl (State.activityStep acted) s
  (scalable.filter fun i => s.movable i && !acted.contains i && (s.island i).freq < s.isleFloor i
    && (s.island i).pending.isNone).foldl (fun s i => s.raiseTo i (s.isleFloor i)) s

/-- R241, R496: islands above what they may run at are lowered at once; unused cells are held at 400 MHz. -/
def State.govClamp (s : State) : State :=
  let s := (scalable.filter fun i => s.movable i && s.isleTop i < (s.island i).freq).foldl (fun s i => s.setFreq i (s.isleTop i)) s
  (scalable.filter fun i => s.unusedCell i && !(s.island i).stopped && (s.island i).freq != 400).foldl (fun s i => s.setFreq i 400) s

/-- R241, R246: FLOOR_BREACH, and PIN_SUSPENDED for a pinned island. -/
def State.govBreaches (s : State) : State :=
  (scalable.filter fun i => s.movable i && (s.island i).freq < s.isleFloor i).foldl (fun s i =>
    let s := (s.evt 0xC006 0).modIsle i fun x => { x with breaches := min 0xFFFF (x.breaches + 1) }
    if (s.island i).set && (s.island i).floor == (s.island i).ceil then s.evt 0xC007 0 else s) s

/-- R235, R495, R496: VDD_CORE follows the highest voltage requested plus 25 mV; after VR_FAULT no command is sent. -/
def State.govVoltage (s : State) : State :=
  if s.pwr.vrFault then s else
  let want := fun i => max (s.isleVolt i) (match (s.island i).pending with
    | some f => voltAt i f
    | none => 0)
  let v := max 650 (min 900 (maxOf ((scalable.filter fun i => !(s.island i).stopped).map want) + 25))
  (s.modGov fun g => { g with vddCore := v }).modPwr fun p => { p with vrCommand := v }

/-- R244: a profile is enforced once the four dispatchers have applied it. -/
def State.govProfile (s : State) : State :=
  if s.rd Reg.govProfileApplied != 15 then s else
  let p := s.rd Reg.govProfileProfile
  (s.modGov fun g => { g with profile := p }).wr Reg.govPowerLimit (profileLimit p)

/-- R465, R473: the services run: the device is out of reset and a firmware bank has passed. -/
def State.serving (s : State) : Bool := s.pwr.running && !s.halted && !s.pwr.tapHold

/-- R239: GOV_CONTROL_PERIOD. -/
def execGovControlPeriod (m : GovMeas) (s : State) : Host.Outcome State Fault Refusal :=
  .next <| if s.gov.failed || !s.serving then s else
    let s := (s.govProfile).govMeasure m
    let s := ((m.islands.filter (·.clockFail)).map (·.island.toNat)).foldl State.clockFail s
    (((s.govSteps m).govClamp).govBreaches).govVoltage

/-- R249: GOV_CLOCK_CHECK: Bristle's check of the governor's clock. -/
def execGovClockCheck (ok : Bool) (s : State) : Host.Outcome State Fault Refusal :=
  .next <| if !s.serving || ok || s.gov.failed then s
    else ((s.modGov fun g => { g with failed := true }).modPwr fun p => { p with faultN := true }).evt 0xC008 0

/-- R249: JUNCTION_COMPARATOR_TRIP: with the governor failed, a junction sensor's own comparator trips. -/
def execJunctionComparatorTrip (s : State) : Host.Outcome State Fault Refusal :=
  .next <| if !s.serving || !s.gov.failed then s else s.thermTrip

end Sys2Proof.Machine
end

