-- ==== Sys2Proof/Machine/HostIfc.lean ====
section
/-! DEFINITION. The PCIe link, host-interface reset (R460), BAR2 (R440, R441) and MSI-X masks (R459). -/
namespace Sys2Proof.Machine

/-! ### Host-interface reset -/

/-- The warm-domain registers of the HOST block that a host-interface reset returns to their reset values; the window stays. -/
def hostWarm : List Nat :=
  ((regTable.filter fun d => d.blk == .host && d.dom == .warm && d.off != 8).map fun d => 0x60000 + d.off)

/-- R460: a host-interface reset. The counts of what it discards are taken after HOST.COUNT has returned to 0. -/
def State.hostReset (s : State) : State :=
  let reads := s.host.reads
  let s := { s with regs := hostWarm.foldl sdel s.regs,
                    host := { s.host with reads := [], msixMask := List.range 68, msixPending := [] } }
  let s := (List.range 64).foldl (fun s q => s.modQueue q fun x =>
    { ({} : Queue) with jobs := x.jobs.map fun j => { j with lost := true }, window := x.window }) s
  let s := s.dropStaged fun _ => true
  reads.foldl (fun s r => if r.use == 1 then s else s.readRefused r 0xB009) s

/-- The link goes down: HOST.LINK shows 0. -/
def State.linkLost (s : State) : State :=
  (((s.wr Reg.hostLinkSpeed 0).wr Reg.hostLinkWidth 0).wr Reg.hostLinkFlit 0).hostReset.evt 0xB009 0

/-- R460: HOST_LINK_DOWN. -/
def execHostLinkDown (s : State) : Host.Outcome State Fault Refusal :=
  .next <| if s.pwr.porst || !s.linkUp then s else s.linkLost

/-- R460, R489: PERST_N asserted: a host-interface reset and no reset of the device; the link is down until it trains again. -/
def execPerstN (s : State) : Host.Outcome State Fault Refusal :=
  .next <| if s.pwr.porst then s else if s.linkUp then s.linkLost else s.hostReset

/-- R460: FUNCTION_LEVEL_RESET. -/
def execFunctionLevelReset (s : State) : Host.Outcome State Fault Refusal :=
  .next <| if s.pwr.porst || !s.linkUp then s else s.hostReset

/-- R460: HOT_RESET. -/
def execHotReset (s : State) : Host.Outcome State Fault Refusal :=
  .next <| if s.pwr.porst || !s.linkUp then s else s.hostReset

/-- R437, Table 22-1: HOST_LINK_UP: the link trains at a rate and a width; flit mode is that of 64 GT/s. -/
def execHostLinkUp (speed : BitVec 4) (width : BitVec 5) (flit : Bool) (s : State) : Host.Outcome State Fault Refusal :=
  .next <| if s.pwr.porst || !([4, 5, 6] : List Nat).contains speed.toNat || !([4, 8, 16] : List Nat).contains width.toNat
      || flit != (speed.toNat == 6) then s
    else ((s.wr Reg.hostLinkSpeed speed.toNat).wr Reg.hostLinkWidth width.toNat).wr Reg.hostLinkFlit flit.toNat

/-! ### BAR2 -/

/-- The answer to an access of the host. -/
def State.answer (s : State) (r : Resp) (data : Bytes) : State :=
  { s with host := { s.host with resp := r, respData := data } }

/-- R440: a refused BAR2 access: 0xB00F; a read ends as Unsupported Request and a write is dropped. -/
def State.bar2Refused (s : State) (r : Resp) : State := (s.evt 0xB00F 0).answer r []

/-- R440: a BAR2 access of `n` bytes at an offset can come: the device is out of reset, the link is up, and the access lies in
BAR2. -/
def State.bar2Comes (s : State) (off n : Nat) : Bool :=
  !s.pwr.porst && s.linkUp && 1 ≤ n && off + n ≤ 2 ^ s.host.bar2Log

/-- R440: a range of a cell window is served by the cell's memory port. -/
def State.windowOpen (s : State) (id off n : Nat) : Bool :=
  let ch := chOf id
  isLogical id && off + n ≤ 0x180000 && s.configured ch
    && !(s.rd Reg.imgStatusState == 3 && s.img.load.any fun l => bitAt l.channels ch)
    && !(s.island (s.phys id)).stopped && !s.cellInReset id

/-- R440, R441: BAR2_READ. A word of local memory with a double-bit error makes the data poisoned, as a block of HBM does. -/
def execBar2Read (off len : Nat) (s : State) : Host.Outcome State Fault Refusal :=
  .next <| if !s.bar2Comes off len then s
    else if !s.booted then s.bar2Refused .unsupported
    else
      let a := s.rd Reg.hostBar2BaseBase + off
      if inHbm a len then
        let (s, r) := s.hbmFetch a len
        if r.code == 0 then s.answer .ok r.data
        else if r.code == 0x3008 then s.answer .poisoned []
        else s.bar2Refused .unsupported
      else match placeOf a with
        | .window id o =>
          if !s.windowOpen id o len then s.bar2Refused .unsupported
          else if (s.cell id).uce o len then (s.lmUceTold id).answer .poisoned []
          else
            let s := s.lmTouch id o len
            s.answer .ok ((s.cell id).read o len)
        | _ => s.bar2Refused .unsupported

/-- R440, R441: BAR2_WRITE. -/
def execBar2Write (off : Nat) (bytes : Bytes) (s : State) : Host.Outcome State Fault Refusal :=
  .next <| if !s.bar2Comes off bytes.length then s
    else if !s.booted then s.bar2Refused .dropped
    else
      let a := s.rd Reg.hostBar2BaseBase + off
      if inHbm a bytes.length then
        match s.hbmStore a bytes with
        | (s, 0) => s.answer .ok []
        | (s, _) => s.bar2Refused .dropped
      else match placeOf a with
        | .window id o =>
          if !s.windowOpen id o bytes.length then s.bar2Refused .dropped
          else match s.inboundStore id o bytes with
            | (s, 0) => s.answer .ok []
            | (s, _) => s.answer .dropped []
        | _ => s.bar2Refused .dropped

/-- R437, R440: BAR2_RESIZE: a power of two from 1 GiB to 512 GiB. -/
def execBar2Resize (log2 : BitVec 6) (s : State) : Host.Outcome State Fault Refusal :=
  let k := log2.toNat
  .next <| if s.pwr.porst || k < 30 || 39 < k then s else
    let s := { s with host := { s.host with bar2Log := k } }
    let base := s.rd Reg.hostBar2BaseBase
    let fits := base + 2 ^ k ≤ 2 ^ 39 || (0x010000000000 ≤ base && base + 2 ^ k ≤ 0x010080000000)
    if fits && base % 2 ^ k == 0 then s else s.wr Reg.hostBar2BaseBase 0

/-! ### MSI-X -/

/-- R459: MSI_X_UNMASK: a vector whose Pending Bit is set signals. -/
def execMsiXUnmask (vector : BitVec 7) (s : State) : Host.Outcome State Fault Refusal :=
  let v := vector.toNat
  .next <| if s.pwr.porst || !s.host.msixMask.contains v then s else
    let due := s.host.msixPending.contains v
    let s := { s with host := { s.host with msixMask := s.host.msixMask.filter (· != v),
                                            msixPending := s.host.msixPending.filter (· != v) } }
    if due then s.signal v else s

end Sys2Proof.Machine
end

