-- ==== Sys2Proof/Machine/Boot.lean ====
section
/-! DEFINITION. Power-on and warm reset (R465 to R468, R486) and the boot flow (R473 to R476). -/
namespace Sys2Proof.Machine

/-! ### Power-on reset -/

/-- R450: the slots whose FLASH_WRITE a reset cuts off; they cannot be used until they are written again. -/
def State.flashCut (s : State) : List Nat :=
  (List.range 64).foldl (fun l q => ((s.queue q).jobs.filter fun j => seOp j.entry == 0x10 && j.stage == 1).foldl
    (fun l j => insNat (seParam j.entry) l) l) s.pwr.flashBad

/-- R466, R467: the device in power-on reset. Outside it stand the boot flash with its firmware banks, the fuses, the host's
memory and the TAP; what HBM holds stays until it is zeroed. -/
def State.powerOff (s : State) : State :=
  { State.reset with
    pending := s.pending, free := s.free, hbm := s.hbm, hbmErr := s.hbmErr,
    host := { mem := s.host.mem, msixSignalled := s.host.msixSignalled },
    pwr := { flash := s.pwr.flash, flashBad := s.flashCut, banks := s.pwr.banks, bootBank := s.pwr.bootBank,
             updated := s.pwr.updated, fuses := s.pwr.fuses, tap := s.pwr.tap, tapOut := s.pwr.tapOut } }

/-- R467: PORST_N_ASSERT. -/
def execPorstNAssert (s : State) : Host.Outcome State Fault Refusal := .next s.powerOff

/-- R465: the rail monitor holds the device in power-on reset, with CURL_N and FAULT_N asserted. -/
def State.railTrip (s : State) : State :=
  (s.powerOff.wr Reg.glbResetStatusLastCause 1).modPwr fun p => { p with railFault := true }

/-- R465: RAIL_MONITOR: a rail has left its range. -/
def execRailMonitor (s : State) : Host.Outcome State Fault Refusal := .next <| if s.pwr.porst then s else s.railTrip

/-! ### The boot flow (Table 23-4) -/

/-- R452, R473, R474, step 2: the active bank runs, or the other one with FW_BANK_FALLBACK; with neither the boot ROM stops. After a
warm reset the bank that FW_UPDATE has written is the active one. -/
def State.bootStart (s : State) : State :=
  let warm := s.pwr.warmBoot
  let good := fun k => (sget {} s.pwr.banks k).good
  let k := if warm then s.pwr.updated.getD s.pwr.bootBank else s.pwr.bootBank
  let s := s.modPwr fun p => { p with
    bootBank := k, activeBank := k, updated := if warm then none else p.updated, tapHold := false }
  if good k then s
  else if good (1 - k) then (s.modPwr fun p => { p with activeBank := 1 - k }).evt 0xC025 0
  else s.wr Reg.glbBootStage 2

/-- R497: the TAP holds an instruction that keeps the device in warm reset. -/
def TapInsn.holds (t : TapInsn) : Bool := t == .extest || t == .clamp || t == .highz

/-- R486: the straps, the fuses' and the flash's facts as they are read at the release of PORST_N. -/
def State.readBoard (s : State) (b : Board) : State :=
  (s.modPwr fun p => { p with
    bootSel := b.bootSel, mgmtAddr := b.mgmtAddr, vrAddr := b.vrAddr, flashSlotMiB := b.flashSlotMiB,
    banks := smod {} (smod {} p.banks 0 fun x => { x with good := b.bank0Ok }) 1 fun x => { x with good := b.bank1Ok } }).wr
    Reg.glbBootBootSel b.bootSel.toNat

/-- R465, R473, R486: PORST_N_RELEASE. -/
def execPorstNRelease (b : Board) (s : State) : Host.Outcome State Fault Refusal :=
  .next <| if !s.pwr.porst || s.pwr.railFault then s
    else if !b.railsOk then s.railTrip
    else
      let s := (s.readBoard b).modPwr fun p => { p with porst := false }
      if s.pwr.tap.holds then s.modPwr fun p => { p with tapHold := true } else s.bootStart

/-- R473: a boot flow runs past its second step and has not reached GLB.BOOT.DONE. -/
def State.booting (s : State) : Bool := !s.held && !s.halted && !s.booted

/-- R22, R473, steps 6 and 7: training and self-test done, GLB.BOOT.DONE is set; with BOOT_SEL a load from flash slot 0 begins. -/
def State.bootDone (s : State) : State :=
  if !s.pwr.hbmDone || !s.pwr.bistDone then s else
  let s := (s.wr Reg.glbBootDone 1).wr Reg.glbBootStage 1
  if s.pwr.bootSel then s.loadGo 1 false true else s

/-- R275, R473, step 4, for one stack. A boot flow after power-on zeroes it. -/
def State.trainStack (s : State) (trained k : Nat) : State :=
  if bitAt trained k then
    let s := { s.wr (Reg.memStatusPresent k) 1 with img := { s.img with absent := sdel s.img.absent k } }
    if s.pwr.warmBoot then s else
      { s.wr (Reg.memStatusZeroed k) 1 with
        hbm := s.hbm.filter fun e => stackOf e.1 != k, hbmErr := s.hbmErr.filter fun e => stackOf (64 * e.1) != k }
  else
    { (s.wr (Reg.memStatusPresent k) 0).evt 0xC024 0 with img := { s.img with absent := sset 0 s.img.absent k s.now } }

/-- R473: HBM_TRAINING_DONE. -/
def execHbmTrainingDone (trained : BitVec 8) (s : State) : Host.Outcome State Fault Refusal :=
  .next <| if !s.booting || s.pwr.hbmDone then s else
    let s := (List.range 8).foldl (fun s k => s.trainStack trained.toNat k) s
    ((s.wr Reg.glbBootStacksPresent trained.toNat).modPwr fun p => { p with hbmDone := true }).bootDone

/-- R473, R476, step 5: POWER_ON_SELFTEST_DONE. -/
def execPowerOnSelftestDone (bad : List CellFail) (s : State) : Host.Outcome State Fault Refusal :=
  .next <| if !s.booting || s.pwr.bistDone then s else
    let s := s.cellSelfTest bad ([0, 1, 2, 3].flatMap physOf)
    let s := if bad.any fun b => isPhysical b.cell.toNat then s.evt 0xC023 0 else s
    (s.modPwr fun p => { p with bistDone := true }).bootDone

/-! ### Warm reset -/

/-- R371, R374, R466 to R468, Table 23-3, Table 23-6: what a warm reset clears. -/
def State.warmClear (s : State) : State :=
  let s := s.leaveGroup 0 true
  let cut := s.flashCut
  let s := s.resetRegs fun _ _ d => d != .powerOn
  let s := ((s.wr Reg.glbBootDone 0).wr Reg.glbBootStage 0).wr Reg.glbResetStatusBusy 0
  let s := (((s.wr Reg.imgStatusState 0).wr Reg.imgStatusConfigured 0).wr Reg.imgStatusUnconfigured 15).wr Reg.imgStatusSigned 0
  let s := ((s.wr Reg.timeStatusGroupState 0).wr Reg.timeStatusOffsetD 0).wr Reg.hrdStatusState 0
  let wires := s.wgl.foldl (fun l e => smod {} l e.1 fun w => { wire := w.wire }) s.wgl
  let s := { s with
    cells := [], pkts := [], time := {}, ing := [], cam := [], disp := [], sealer := {}, hrd := {}, safe := [], stackScrub := [],
    gov := { vddCore := s.pwr.vrCommand }, wgl := wires,
    img := { failed := s.img.failed, retired := s.img.retired, failedRow := s.img.failedRow, everBound := s.img.everBound,
             report := s.img.report, absent := s.img.absent },
    host := { mem := s.host.mem, bar2Log := s.host.bar2Log, msixMask := s.host.msixMask, msixPending := s.host.msixPending,
              msixSignalled := s.host.msixSignalled, counterLatch := s.host.counterLatch } }
  let s := s.modPwr fun p => { p with
    flashBad := cut, hbmDone := false, bistDone := false, warmBoot := true, resetChannel := none, resetCell := none,
    faultN := false, loaded := false, watchdog := false, vrFault := false, vrAgreed := none, vrBad := 0, vrOffSince := none,
    vrReadVout := 0, vrReadIout := 0, vrModeRead := false, vrNextIout := false }
  (List.range 16).foldl State.showRetired s

/-- R468: a warm reset with its cause in GLB.RESET_STATUS. -/
def State.warmReset (s : State) (cause : Nat) : State :=
  (s.warmClear.incr Reg.glbResetStatusWarmCount).wr Reg.glbResetStatusLastCause cause

/-- R468: a warm reset, after which the boot flow begins at its second step. -/
def State.warmBoot (s : State) (cause : Nat) : State := (s.warmReset cause).bootStart

/-- R468, R489: WRST_N. -/
def execWrstN (s : State) : Host.Outcome State Fault Refusal := .next <| if s.held then s else s.warmBoot 2

/-- R468: RESET_CTL_WARM: a write of GLB.RESET_CTL with WARM. -/
def execResetCtlWarm (s : State) : Host.Outcome State Fault Refusal :=
  .next <| s.gated s.glbGate fun s => s.warmBoot 3

end Sys2Proof.Machine
end

