-- ==== Sys2Proof/Machine/Bristle.lean ====
section
/-! DEFINITION. The Bristle supervisor: function commands (R417, R418), the comparators (R425, R426), the self-tests (R427),
the partner's MIRROR messages (R421, R424, R431) and the limits of arming and SIMPLEX. -/
namespace Sys2Proof.Machine

/-- The number of a function. -/
def fnNo (f : Bool) : Nat := f.toNat

/-! ### SAFE.CTL -/

/-- R417: ACTION ARM. -/
def State.safeArm (s : State) (f : Nat) : State :=
  if (s.fn f).st == .disarmed || (s.fn f).st == .simplex then s.startArming f else s.regEncoding

/-- R418: ACTION DISARM or UNCURL with an UNLOCK value. -/
def State.safeRelease (s : State) (f unlock : Nat) (uncurl : Bool) : State :=
  if s.fnCount ≤ f || unlock != s.fnUnlock f then s.evt 0x9012 0 else
  let st := (s.fn f).st
  let acts := if uncurl then st == .curled else st == .arming || st == .armed || st == .simplex
  if !acts then s else
  let s := s.modFn f fun x => { x with st := .disarmed, partnerArm := none, fromSimplex := false }
  let s := if s.fnDevice f then s.mirror f 4 [] else s
  if uncurl then s else s.evt 0x900F 0

/-- R417, R418: a write of SAFE.CTL with GO performs ACTION on FUNC. -/
def State.safeCtl (s : State) (v : Nat) : State :=
  let f := bits v 4 1
  if !bitAt v 0 then s else
  match bits v 8 2 with
  | 0 => s.safeArm f
  | 1 => s.safeRelease f (bits v 48 16) false
  | 2 => s.safeRelease f (bits v 48 16) true
  | _ => s.regEncoding

/-- A row that is a write of SAFE.CTL with the ACTION it names. -/
def State.safeRow (s : State) (v action : Nat) : State :=
  if !bitAt v 0 || bits v 8 2 != action then s
  else s.gated s.blockGate fun s => (s.writeReg .safe 0 0 all64 v).safeCtl v

/-- R417: SAFE_ARM. -/
def execSafeArm (data : Word) (s : State) : Host.Outcome State Fault Refusal := .next <| s.safeRow data.toNat 0

/-- R418: SAFE_DISARM. -/
def execSafeDisarm (data : Word) (s : State) : Host.Outcome State Fault Refusal := .next <| s.safeRow data.toNat 1

/-- R418: SAFE_UNCURL. -/
def execSafeUncurl (data : Word) (s : State) : Host.Outcome State Fault Refusal := .next <| s.safeRow data.toNat 2

/-! ### Arming -/

/-- The start-up self-test of a function has run: entries that waited are made. -/
def State.selfTested (s : State) (f : Nat) : State :=
  State.fillEgress 512 (s.modFn f fun x => { x with selfTest := true }) f

/-- R417: ARMING_COMPLETE: the checks decide, once the partner's ARM is there or an earlier check fails. -/
def execArmingComplete (f selfTest : Bool) (s : State) : Host.Outcome State Fault Refusal :=
  let n := fnNo f
  .next <| if (s.fn n).st != .arming then s else
    let s := if selfTest then s.selfTested n else s
    match s.armCheck n selfTest with
    | some 5 => s
    | some 2 => (((s.evt 0x9004 0).bump (fnFaults n)).refuseArm n 2).modPwr fun p => { p with faultN := true }
    | some k => s.refuseArm n k
    | none => (s.modFn n fun x => { x with st := .armed, fromSimplex := false, partnerArm := none }).evt 0x900E 0

/-- R417: ARMING_TIMEOUT: arming has not completed within 10 ms of the write. -/
def execArmingTimeout (f : Bool) (s : State) : Host.Outcome State Fault Refusal :=
  let n := fnNo f
  .next <| if (s.fn n).st != .arming || s.now < (s.fn n).armStart + armLimit then s
    else s.refuseArm n ((s.armCheck n (s.fn n).selfTest).getD 2)

/-- R427, R436: START_UP_SELF_TEST_DONE. -/
def execStartUpSelfTestDone (f ok : Bool) (s : State) : Host.Outcome State Fault Refusal :=
  let n := fnNo f
  .next <| if s.fnCount ≤ n || (s.fn n).selfTest || (s.fn n).st == .curled then s else
    let s := s.selfTested n
    if ok then s
    else if (s.fn n).st == .arming then
      (((s.evt 0x9004 0).bump (fnFaults n)).refuseArm n 2).modPwr fun p => { p with faultN := true }
    else s.safeFault n 0x9004

/-! ### The comparators -/

/-- R425: entries that are paired: equal CLASS, CHANNEL and KEY, where FAULT_CODE is no part of a CLASS 1 key. -/
def DelayEntry.pairs (a b : DelayEntry) : Bool :=
  a.cls == b.cls && a.ch == b.ch
    && (if a.cls == 1 then a.entry == b.entry && a.event == b.event else a.key == b.key)

/-- R425: the pairs of two registers, oldest first on either side. -/
def pairUp : List DelayEntry → List DelayEntry → List (DelayEntry × DelayEntry)
  | [], _ => []
  | a :: l, r =>
    match r.find? a.pairs with
    | none => pairUp l r
    | some b => (a, b) :: pairUp l (r.erase b)

/-- The tick at which a pair is complete. -/
def pairTick (p : DelayEntry × DelayEntry) : Nat := max p.1.arrived p.2.arrived

/-- R425: the pair that falls due first. -/
def firstDue : List (DelayEntry × DelayEntry) → Option (DelayEntry × DelayEntry)
  | [] => none
  | p :: l => match firstDue l with
    | none => some p
    | some q => if pairTick q < pairTick p then some q else some p

/-- R424: an entry leaves both registers of its side. -/
def SafeFn.consume (x : SafeFn) (side : Nat) (e : DelayEntry) : SafeFn :=
  if side == 0 then { x with local0 := x.local0.erase e, local1 := x.local1.erase e }
  else { x with remote0 := x.remote0.erase e, remote1 := x.remote1.erase e }

/-- R425: an entry is consumed and its message withheld. -/
def State.withhold (s : State) (f side : Nat) (e : DelayEntry) : State :=
  let s := s.modFn f fun x => x.consume side e
  match s.entryCh f side e with
  | some ch => if e.cls == 1 && e.outcome == 0 then s.jobWithheld ch e.entry e.event else s
  | none => s

/-- R425: a fault that a function's entries give; it consumes them. -/
def State.entryFault (s : State) (f code : Nat) (l : List (Nat × DelayEntry)) : State :=
  let armed := (s.fn f).st == .armed || (s.fn f).st == .simplex
  let s := if armed then s else l.foldl (fun s e => s.withhold f e.1 e.2) s
  State.fillEgress 512 (s.safeFault f code) f

/-- R425, R426: a MATCH releases what the pair holds; that of a LATE_ABORT releases nothing. -/
def State.matched (s : State) (f : Nat) (a b : DelayEntry) (release : Bool) : State :=
  let s := s.incr (fnMatched f)
  let s := if release then
      ((s.modFn f fun x => (x.consume 0 a).consume 1 b).releaseEntry f 0 a).releaseEntry f 1 b
    else (s.withhold f 0 a).withhold f 1 b
  State.fillEgress 512 s f

/-- R425: the decision of a pair, by the first row of Table 21-7a that matches. -/
def State.decidePair (s : State) (f : Nat) (a b : DelayEntry) : State :=
  let late := a.cls == 1 && (a.outcome == 2 || b.outcome == 2)
  let same := a.outcome == b.outcome && a.fault == b.fault
  let eq0 := same && a.compare == b.compare
  let eq1 := same && a.crc == b.crc
  if late then s.matched f a b false
  else if eq0 != eq1 then s.entryFault f 0x9003 [(0, a), (1, b)]
  else if eq0 then s.matched f a b true
  else if s.fnDevice f && a.cls == 1 && a.input != b.input then
    State.fillEgress 512 ((((s.withhold f 0 a).withhold f 1 b).bump (fnDiverged f)).evt 0x9008 0) f
  else s.entryFault f 0x9001 [(0, a), (1, b)]

/-- R425: COMPARATOR_DECISION. -/
def execComparatorDecision (f : Bool) (s : State) : Host.Outcome State Fault Refusal :=
  let n := fnNo f
  .next <| match (s.fn n).st with
    | .disarmed | .arming | .armed =>
      match firstDue (pairUp (s.fn n).local0 (s.fn n).remote0) with
      | some (a, b) => s.decidePair n a b
      | none => s
    | _ => s

/-- R425: the entries of one side without a counterpart on the other. -/
def unpaired : List DelayEntry → List DelayEntry → List DelayEntry
  | [], _ => []
  | a :: l, r => match r.find? a.pairs with
    | none => a :: unpaired l r
    | some b => unpaired l (r.erase b)

/-- R425: the entries of a function that have had no counterpart for SKEW_LIMIT ticks, with their side. -/
def State.overdue (s : State) (f : Nat) : List (Nat × DelayEntry) :=
  let x := s.fn f
  let late := fun e : DelayEntry => decide (e.arrived + s.fnSkew f ≤ s.now)
  ((unpaired x.local0 x.remote0).filter late).map (fun e => (0, e))
    ++ ((unpaired x.remote0 x.local0).filter late).map (fun e => (1, e))

/-- R425: DELAY_TIMEOUT. -/
def execDelayTimeout (f : Bool) (s : State) : Host.Outcome State Fault Refusal :=
  let n := fnNo f
  .next <| match (s.fn n).st with
    | .disarmed | .arming | .armed =>
      match s.overdue n with
      | e :: _ => s.entryFault n 0x9002 [e]
      | [] => s
    | _ => s

/-! ### Self-tests (R427) -/

/-- R427: CMP_INJECTION. -/
def execCmpInjection (f ok : Bool) (s : State) : Host.Outcome State Fault Refusal :=
  let n := fnNo f
  .next <| if s.fnCount ≤ n || (s.fn n).st == .curled || ok then s else s.safeFault n 0x9004

/-- R424, R427: DELAY_SCRUB: the held entry read and, where it is uncorrectable, lost. -/
def execDelayScrub (f side : Bool) (i : Nat) (ok : Bool) (s : State) : Host.Outcome State Fault Refusal :=
  let n := fnNo f
  .next <| match ((s.fn n).side side.toNat)[i]? with
    | some e => if ok then s else s.entryFault n 0x9005 [(side.toNat, e)]
    | none => s

/-- R427: TICK_CLOCK_CHECK. -/
def execTickClockCheck (ok : Bool) (s : State) : Host.Outcome State Fault Refusal :=
  .next <| if !s.pwr.running || ok then s else s.allFault 0x9011

/-- R427, R430: WATCHDOG. -/
def execWatchdog (s : State) : Host.Outcome State Fault Refusal :=
  .next <| if !s.pwr.running then s else (s.modPwr fun p => { p with watchdog := true }).allFault 0x9010

/-! ### The partner (R421, R431) -/

/-- R421: HEARTBEAT_SEND. -/
def execHeartbeatSend (f : Bool) (s : State) : Host.Outcome State Fault Refusal :=
  let n := fnNo f
  .next <| if s.fnCount ≤ n || !s.fnDevice n || (s.fn n).st == .none || (s.fn n).st == .curled then s else s.mirror n 0 []

/-- R421, Table 21-5: bytes of the payload of a MIRROR kind. -/
def mirrorLen (kind : Nat) : Nat := if kind == 1 then 96 else if kind == 2 then 328 else if kind == 3 then 8 else 0

/-- R424: a RECORD of the partner. -/
def State.takeRecord (s : State) (f : Nat) (pl : Bytes) : State :=
  let x := s.fn f
  let e := DelayEntry.ofBytes pl s.now
  let seqBad := x.prevSeq.any fun n => (n + 1) % 2 ^ 32 != e.seq
  let s := s.modFn f fun x => { x with prevSeq := some e.seq }
  match x.st with
  | .disarmed | .arming | .armed =>
    if seqBad then s.entryFault f 0x9006 []
    else if 256 ≤ x.remote0.length then s.entryFault f 0x9013 []
    else s.modFn f fun x => x.push 1 e
  | _ => s

/-- R421: a MIRROR for no function of the port, or of the wrong length. -/
def State.mirrorBad (s : State) (q : Nat) (b : Bytes) : Bool :=
  let kind := fieldLE (mArg b) 0 1
  let f := fieldLE (mArg b) 1 1
  let pl := b.drop 32
  s.fnCount ≤ f || !s.fnDevice f || s.fnQuad f != q || s.fnStream f != mStream b || pl.length != mirrorLen kind
    || (kind == 3 && fieldLE pl 2 6 != 0)

/-- R417, R424, R431: the effect of a MIRROR: the partner has been heard. -/
def State.mirrorEffect (s : State) (b : Bytes) : State :=
  let f := fieldLE (mArg b) 1 1
  let pl := b.drop 32
  let s := s.modFn f fun x => { x with partnerSeen := true, lastMirror := s.now }
  match fieldLE (mArg b) 0 1 with
  | 1 => s.takeRecord f pl
  | 2 => s.modFn f fun x => { x with partnerArm := some pl, partnerArmAt := s.now }
  | 3 | 4 => s.partnerLost f
  | _ => s

/-- R421, R431: a MIRROR of a kind; one that `mirrorBad` names is not executed. -/
def State.onMirror (s : State) (q kind : Nat) : State :=
  s.onRequest q 1 (fun b => mType b == 6 && fieldLE (mArg b) 0 1 == kind) fun s m =>
    let b := m.bytes
    if s.mirrorBad q b then some ((s.evt 0x600C q).finishReq q (mSrc b) (mStream b) (mId b) 0x600C)
    else some ((s.mirrorEffect b).finishReq q (mSrc b) (mStream b) (mId b) 0)

/-- R431: MIRROR_HEARTBEAT. -/
def execMirrorHeartbeat (quad : BitVec 4) (s : State) : Host.Outcome State Fault Refusal := .next <| s.onMirror quad.toNat 0

/-- R424: MIRROR_RECORD. -/
def execMirrorRecord (quad : BitVec 4) (s : State) : Host.Outcome State Fault Refusal := .next <| s.onMirror quad.toNat 1

/-- R417: MIRROR_ARM. -/
def execMirrorArm (quad : BitVec 4) (s : State) : Host.Outcome State Fault Refusal := .next <| s.onMirror quad.toNat 2

/-- R431: MIRROR_CURL. -/
def execMirrorCurl (quad : BitVec 4) (s : State) : Host.Outcome State Fault Refusal := .next <| s.onMirror quad.toNat 3

/-- R431: MIRROR_DISARM. -/
def execMirrorDisarm (quad : BitVec 4) (s : State) : Host.Outcome State Fault Refusal := .next <| s.onMirror quad.toNat 4

/-- R431: PARTNER_TIMEOUT. -/
def execPartnerTimeout (f : Bool) (s : State) : Host.Outcome State Fault Refusal :=
  let n := fnNo f
  .next <| if s.fnCount ≤ n || !s.fnDevice n || !(s.fn n).partnerSeen || s.now < (s.fn n).lastMirror + s.fnTimeout n then s
    else s.partnerLost n

/-- R433: SIMPLEX_LIMIT. -/
def execSimplexLimit (f : Bool) (s : State) : Host.Outcome State Fault Refusal :=
  let n := fnNo f
  .next <| if (s.fn n).st != .simplex || s.now < (s.fn n).simplexAt + s.fnLimit n then s else s.safeFault n 0x900B

end Sys2Proof.Machine
end

