-- ==== Sys2Proof/Machine/Mgmt.lean ====
section
/-! DEFINITION. The VDD_CORE regulator on PMBus (R495, R496), the management bus (R494) and the JTAG port (R497). -/
namespace Sys2Proof.Machine

/-! ### PMBus -/

/-- R496: VR_FAULT, once until the next warm reset. -/
def State.vrFail (s : State) : State :=
  if s.pwr.vrFault then s else (s.modPwr fun p => { p with vrFault := true }).evt 0xC030 0

/-- The distance of two voltages in mV. -/
def apart (a b : Nat) : Nat := (a - b) + (b - a)

/-- R496: a READ_VOUT of `v` mV: whether it agrees with the command, and since when it does not. -/
def State.vrVout (s : State) (v : Nat) : State :=
  if apart v s.pwr.vrCommand ≤ 25 then s.modPwr fun p => { p with vrReadVout := v, vrAgreed := some v, vrOffSince := none }
  else
    let since := s.pwr.vrOffSince.getD s.now
    let s := s.modPwr fun p => { p with vrReadVout := v, vrOffSince := some since }
    if since + 1000000 ≤ s.now then s.vrFail else s

/-- R495, R496: an exchange that is not acknowledged or has a bad PEC. -/
def State.vrUnanswered (s : State) : State :=
  let s := s.modPwr fun p => { p with vrBad := p.vrBad + 1 }
  if 3 ≤ s.pwr.vrBad then s.vrFail else s

/-- R495: the exchanges run once the governor has completed its first control period. -/
def State.vrTalks (s : State) : Bool := s.serving && !s.gov.failed && (s.pwr.vrModeRead || 1 ≤ s.gov.periods)

/-- R495, R496: PMBUS_TELEMETRY: the answer of one exchange: VOUT_MODE first, of which only ULINEAR16 (bits [7:5] zero) is accepted,
then READ_VOUT in mV and READ_IOUT in A in turn. -/
def execPmbusTelemetry (v : VrReading) (s : State) : Host.Outcome State Fault Refusal :=
  .next <| if !s.vrTalks then s else
    let iout := s.pwr.vrModeRead && s.pwr.vrNextIout
    let s := if s.pwr.vrModeRead then s.modPwr fun p => { p with vrNextIout := !iout } else s
    if !v.acked then s.vrUnanswered else
      let first := !s.pwr.vrModeRead
      let s := s.modPwr fun p => { p with vrBad := 0, vrModeRead := true }
      if first then (if v.value / 32 == 0 then s else s.vrFail)
      else if iout then s.modPwr fun p => { p with vrReadIout := v.value }
      else s.vrVout v.value

/-- R496: the bits of STATUS_WORD that report a fault: all but BUSY, OFF and POWER_GOOD#. -/
def vrFaultBits : Nat := 0xF73F

/-- R495, R496: PMB_ALERT_N: the device reads STATUS_WORD. -/
def execPmbAlertN (status : BitVec 16) (s : State) : Host.Outcome State Fault Refusal :=
  .next <| if !s.vrTalks || status.toNat &&& vrFaultBits == 0 then s else s.vrFail

/-! ### Management bus -/

/-- R430, R465: FAULT_N is asserted. -/
def State.faultN (s : State) : Bool := s.pwr.faultN || s.pwr.railFault

/-- R494: MGMT_ALERT_N is asserted. -/
def State.mgmtAlert (s : State) : Bool := s.curlN || s.faultN || s.pwr.vrFault

/-- R494: a read is answered; in power-on reset the target does not acknowledge. -/
def State.mgmtRead (s : State) (bs : Bytes) : State :=
  s.modPwr fun p => if p.porst then { p with mgmtAck := false, mgmtOut := [] } else { p with mgmtAck := true, mgmtOut := bs }

/-- R494: a read that gives zero before GLB.BOOT.DONE. -/
def State.mgmtLate (s : State) (bs : Bytes) : State := s.mgmtRead (if s.booted then bs else zeros bs.length)

/-- Table 25-7, 0x10. -/
def execMgmtIdent (s : State) : Host.Outcome State Fault Refusal := .next <| s.mgmtRead (leBytes 8 glbIdent)

/-- Table 25-7, 0x11. -/
def State.mgmtStatus (s : State) : Nat :=
  maskOf 6 fun i => match i with
    | 0 => s.curlN
    | 1 => s.faultN
    | 2 => s.booted
    | 3 => s.rd Reg.imgStatusConfigured != 0
    | 4 => s.pwr.vrFault
    | _ => s.gov.hot

/-- Table 25-7, 0x11. -/
def execMgmtStatus (s : State) : Host.Outcome State Fault Refusal := .next <| s.mgmtRead (leBytes 2 s.mgmtStatus)

/-- Table 25-7, 0x12. -/
def execMgmtJunctionTemp (s : State) : Host.Outcome State Fault Refusal :=
  .next <| s.mgmtLate (leBytes 2 (ofI 16 (sx 12 s.gov.junction)))

/-- Table 25-7, 0x13. -/
def execMgmtHbmTemp (s : State) : Host.Outcome State Fault Refusal := .next <| s.mgmtLate (leBytes 1 s.gov.hbmTemp)

/-- Table 25-7, 0x14. -/
def execMgmtPower (s : State) : Host.Outcome State Fault Refusal :=
  .next <| s.mgmtLate (leBytes 2 (s.rd Reg.govPowerAvg1ms))

/-- Table 25-7, 0x15. -/
def execMgmtProfile (s : State) : Host.Outcome State Fault Refusal := .next <| s.mgmtLate (leBytes 1 s.gov.profile)

/-- Table 25-7, 0x16. -/
def execMgmtSafeState (s : State) : Host.Outcome State Fault Refusal :=
  .next <| s.mgmtLate (leBytes 1 ((s.fn 0).st.code + 16 * (s.fn 1).st.code))

/-- Table 25-7, 0x17. -/
def execMgmtLastCode (s : State) : Host.Outcome State Fault Refusal :=
  .next <| s.mgmtRead (leBytes 2 (s.rd Reg.imgStatusLastCode))

/-- R494: the address of the management target. -/
def State.mgmtAddress (s : State) : Nat := 0b1001100 + s.pwr.mgmtAddr.toNat

/-- R494: MGMT_ALERT_RESPONSE: the target answers with its address while it asserts MGMT_ALERT_N. -/
def execMgmtAlertResponse (s : State) : Host.Outcome State Fault Refusal :=
  .next <| if s.mgmtAlert then s.mgmtRead (leBytes 1 s.mgmtAddress)
    else s.modPwr fun p => { p with mgmtAck := false, mgmtOut := [] }

/-! ### JTAG -/

/-- R497: IDCODE. -/
def idcodeValue : BitVec 32 := BitVec.ofNat 32 (1 + 2 * Config.jedecId.toNat + 0x0576 * 2 ^ 12 + 2 ^ 28)

/-- R497: what an instruction puts between TDI and TDO. -/
def State.tapData (s : State) (t : TapInsn) : TapOut :=
  match t with
  | .idcode => .code idcodeValue
  | .sample | .extest => .chain s.curlN s.faultN
  | .bypass | .clamp | .highz => .bit

/-- R468, R497: an instruction is loaded. EXTEST, CLAMP and HIGHZ hold the device in warm reset, whose LAST_CAUSE is free (log entry
5); any other lets it go through the boot flow. -/
def State.tapLoad (s : State) (t : TapInsn) : State :=
  let s :=
    if s.pwr.porst || t.holds == s.pwr.tapHold then s
    else if t.holds then
      let (n, s) := s.fresh
      (s.warmReset n).modPwr fun p => { p with tapHold := true }
    else s.bootStart
  s.modPwr fun p => { p with tap := t, tapOut := s.tapData t }

/-- R497: TAP_RESET: the reset TAP holds IDCODE. -/
def execTapReset (s : State) : Host.Outcome State Fault Refusal := .next <| s.tapLoad .idcode

/-- R497: BYPASS, and any instruction that the port does not have. -/
def execBypass (s : State) : Host.Outcome State Fault Refusal := .next <| s.tapLoad .bypass

/-- R497: IDCODE. -/
def execIdcode (s : State) : Host.Outcome State Fault Refusal := .next <| s.tapLoad .idcode

/-- R497: SAMPLE/PRELOAD. -/
def execSamplePreload (s : State) : Host.Outcome State Fault Refusal := .next <| s.tapLoad .sample

/-- R497: EXTEST. -/
def execExtest (s : State) : Host.Outcome State Fault Refusal := .next <| s.tapLoad .extest

/-- R497: CLAMP. -/
def execClamp (s : State) : Host.Outcome State Fault Refusal := .next <| s.tapLoad .clamp

/-- R497: HIGHZ. -/
def execHighz (s : State) : Host.Outcome State Fault Refusal := .next <| s.tapLoad .highz

end Sys2Proof.Machine
end

