-- ==== Sys2Proof/Machine/Mxf.lean ====
section
/-! DEFINITION. Fragment mode: MXF MMA, ZERO and OUT (R156, R179, R180). -/
namespace Sys2Proof.Machine

/-! ### The word and its fragments -/

/-- ACC of an X-format word. -/
def xfAcc (x : Nat) : Nat := bits x 21 11
/-- SHAPE of an X-format word. -/
def xfShape (x : Nat) : Nat := bits x 16 5
/-- AFMT of an X-format word. -/
def xfAfmt (x : Nat) : Nat := bits x 12 4
/-- BFMT of an X-format word. -/
def xfBfmt (x : Nat) : Nat := bits x 8 4
/-- ZU of an X-format word. -/
def xfZu (x : Nat) : Nat := bits x 2 6

/-- R136, R156: the fields of an MXF word. -/
def encMxf (x : Nat) : List (Nat × Bool) :=
  let mma := wFn x == 0
  [(48, wFn x ≤ 2), (40, wD x % 8 == 0), (32, wA x % 8 == 0 && (mma || wA x == 0)), (8, mma || xfBfmt x == 0),
   (0, bits x 0 2 == 0)]

/-- R179: bytes of a fragment of `n` elements. -/
def fragBytes (n : Nat) (f : Fmt) : Nat := cdiv (n * f.width) 8

/-- R156: the lane registers of a fragment, where its extent is judged. -/
def fragRegs (x base fmt : Nat) (elems : Shape → Nat) : List (Nat × Nat) :=
  match shapeOf (xfShape x), typedFmt fmt with
  | some sh, some f => [(base, cdiv (fragBytes (elems sh) f) 128)]
  | _, _ => []

/-- R156: the lane-register operands of an MXF word. -/
def regsMxf (x : Nat) : List (Nat × Nat) :=
  match wFn x with
  | 0 => fragRegs x (wD x) (xfAfmt x) (fun s => s.m * s.kf) ++ fragRegs x (wA x) (xfBfmt x) (fun s => s.n * s.kf)
  | 2 => fragRegs x (wD x) (xfAfmt x) Shape.e
  | _ => []

/-- R156: check 5 of MXF. -/
def fmtMxf (x : Nat) : List (Nat × Bool) := [(12, xfAfmt x < 14), (8, xfBfmt x < 14)]

/-- R179: byte `b` of a fragment. -/
def Swarm.fragByte (w : Swarm) (base b : Nat) : Nat := bits (w.vreg (base + b / 128) (b % 128 / 4)) (8 * (b % 4)) 8

/-- R179: the bits of element `i` of a fragment. -/
def Swarm.fragElem (w : Swarm) (base i : Nat) (f : Fmt) : Nat :=
  if f.width == 4 then bits (w.fragByte base (i / 2)) (4 * (i % 2)) 4
  else total ((List.range (f.width / 8)).map fun k => w.fragByte base (i * (f.width / 8) + k) * 2 ^ (8 * k))

/-- R179: the bytes of an output fragment. -/
def fragPack (f : Fmt) (l : List Nat) : Bytes :=
  if f.width == 4 then (runsOf 2 l).flatMap fun p => leBytes 1 (p.getD 0 0 % 16 + p.getD 1 0 % 16 * 16)
  else l.flatMap fun v => leBytes (f.width / 8) v

/-- R179: writes a fragment; bytes of its last register beyond the array are zero. -/
def Swarm.setFrag (w : Swarm) (base : Nat) (bs : Bytes) : Swarm :=
  (List.range (cdiv bs.length 128 * 32)).foldl (fun w i => w.setV (base + i / 32) (i % 32) (fieldLE bs (4 * i) 4)) w

/-! ### Turn and end -/

/-- R164: no matrix operation issued earlier is outstanding in the cell. -/
def CellMem.matrixIdle (c : CellMem) : Bool := c.mxQueue.isEmpty && c.mxRun.isNone

/-- R156, R164: an MXF of one FN: check 9, its turn, and what it does. -/
def State.mxf (s : State) (id k fn : Nat) (body : State → Nat → Except (Nat × Nat) State) : State :=
  s.issue id k (fun x => isOp 0x49 x && (wFn x == fn || 3 ≤ wFn x)) false false false encMxf regsMxf fmtMxf fun s x =>
    if (s.swarm id k).preg (wGuard x) != 0xFFFFFFFF then s.faultInsn id k x 0x1006 0
    else if !(s.cell id).matrixIdle then s
    else
      let done := fun s : State => s.incr (Reg.cellMxStatusOpsDone (s.phys id))
      match body s x with
      | .ok s => (done s).commit id k
      | .error (code, detail) =>
        let s := (done s).faultInsn id k x code detail
        if code == 0x300A then s.lmUceTold id else s

/-! ### ZERO and MMA -/

/-- R180: ZERO begins a fragment tile. -/
def execMxfZero (cell : BitVec 10) (slot : BitVec 4) (s : State) : Host.Outcome State Fault Refusal :=
  let id := cell.toNat
  let k := slot.toNat
  .next <| s.mxf id k 1 fun s x => do
    let w := s.swarm id k
    let sh ← mxShape (xfShape x) none false
    need (!(s.cell id).overlaps (xfAcc x) sh.e (modeFast w.mode)) 0x2025 (xfAcc x)
    let t : Tile := { acc := xfAcc x, shape := xfShape x, fast := modeFast w.mode, frag := true, slot := k, mode := w.mode,
                      ctx := w.ctx }
    .ok (s.modCell id fun c => c.beginTile t sh.e)

/-- R179, R180: the products of element (m, n) of an MMA. -/
def Swarm.fragProducts (w : Swarm) (x : Nat) (sh : Shape) (fa fb : Fmt) (za zb : Int) (m n : Nat) : List Val :=
  (List.range sh.kf).map fun k =>
    (decode fa za (w.fragElem (wD x) (m * sh.kf + k) fa)).mul (decode fb zb (w.fragElem (wA x) (n * sh.kf + k) fb))

/-- R70 to R74, R180: the products of an MMA added into its tile. -/
def State.fragAdd (s : State) (id : Nat) (t : Tile) (sh : Shape) (prods : Nat → Nat → List Val) : State :=
  let c := s.cell id
  if !t.fast then
    let qs := (sh.elems.zip (c.quires t.acc sh.e)).map fun e => e.2.addAll (prods e.1.1 e.1.2)
    s.modCell id fun c => (c.setQuires t.acc qs).modTile t.acc false fun t => { t with reduced := t.reduced + sh.kf }
  else
    let iv := modeS t.mode
    let gw := modeG t.mode
    let (g, nf) := groupRun iv (cdiv sh.kf gw) t.groups 0
    let res := (sh.elems.zip (c.windows t.acc sh.e)).map fun e =>
      fastRun iv (runsOf gw (prods e.1.1 e.1.2)) e.2 (.ofEntry (sget 0 t.folded (e.1.1 * sh.n + e.1.2)).toNat) t.groups
    let s := s.modCell id fun c => (c.setWindows t.acc (res.map (·.1))).modTile t.acc true fun t =>
      { t with reduced := t.reduced + sh.kf, groups := g,
               folded := ssetN 0 t.folded 0 (res.map fun r => BitVec.ofNat 648 r.2.toEntry) }
    s.folds id nf

/-- R180: MMA. -/
def execMxfMma (cell : BitVec 10) (slot : BitVec 4) (s : State) : Host.Outcome State Fault Refusal :=
  let id := cell.toNat
  let k := slot.toNat
  .next <| s.mxf id k 0 fun s x => do
    let w := s.swarm id k
    let zs := w.ureg (xfZu x)
    let za := bits zs 8 8
    let zb := bits zs 0 8
    let path ← mxFormat (xfAfmt x) za (xfBfmt x) zb (modeFast w.mode)
    let sh ← mxShape (xfShape x) (some path) false
    let t ← (s.cell id).continues (xfAcc x) (xfShape x) true w.mode
    let fa := (Fmt.ofCode (xfAfmt x)).getD .raw
    let fb := (Fmt.ofCode (xfBfmt x)).getD .raw
    .ok (s.fragAdd id t sh (w.fragProducts x sh fa fb (zpField fa za) (zpField fb zb)))

/-! ### OUT -/

/-- R168, R180: the fields of the matrix descriptor that OUT judges. -/
def fragFields (d : Bytes) (x : Shape) : List (Nat × Bool) :=
  [(0, mdScaleMode d != 3), (3, mdAct d ≤ 4)] ++ mdOutFields d ++ [(0, !mdChain d),
   (0x20, !mdBias d || mdBiasBase d + 4 * x.n ≤ lmSize), (0x34, !mdRowstat d || mdRowstatBase d + 128 * x.m ≤ lmSize)]

/-- R74, R180: the quires of a fragment tile at its end, and its folds. -/
def CellMem.fragQuires (c : CellMem) (t : Tile) (n : Nat) : List Quire × Nat :=
  if !t.fast then (c.quires t.acc n, 0)
  else
    let qs := (List.range n).map fun e => Quire.ofEntry (sget 0 t.folded e).toNat
    if t.groups == 0 then (qs, 0) else (((c.windows t.acc n).zip qs).map fun p => p.1.foldInto p.2, 1)

/-- R177, R180: the rows of an output fragment. -/
def State.fragRows (s : State) (id : Nat) (sh : Shape) (o : OutPar) (qs : List Quire) : State × List Nat :=
  (List.range sh.m).foldl (fun r m =>
    let (s, vs, row) := (List.range sh.n).foldl (fun (e : State × List Nat × RowAcc) n =>
      let (s, v) := e.1.outValue id o n (qs.getD (m * sh.n + n) {})
      (s, e.2.1 ++ [v.conv.out], e.2.2.enter o.f v)) (r.1, r.2, {})
    ((s.rowStat id o m row).1, vs)) (s, [])

/-- R180: OUT. -/
def execMxfOut (cell : BitVec 10) (slot : BitVec 4) (s : State) : Host.Outcome State Fault Refusal :=
  let id := cell.toNat
  let k := slot.toNat
  .next <| s.mxf id k 2 fun s x => do
    let w := s.swarm id k
    let c := s.cell id
    let off := w.ureg (xfZu x)
    need (off % 64 == 0 && off < lmSize) 0x2020 off
    let d ← c.grab off 64
    let f := (Fmt.ofCode (xfAfmt x)).getD .raw
    needAll 0x2021 0 (fragFields d ((shapeOf (xfShape x)).getD ⟨.p8, 0, 0, 0⟩))
    need (f != .raw && zpFits (Fmt.ofCode (xfAfmt x)) (mdOutZp d)) 0x2023 0
    let sh ← mxShape (xfShape x) none false
    let t ← c.continues (xfAcc x) (xfShape x) true w.mode
    need (mdScaleMode d != 2 || mdScale d + sh.n ≤ 1024) 0x202A 0x24
    let stats := if mdRowstat d then [(mdRowstatBase d, 128 * sh.m)] else []
    c.noReplica stats
    let (s, tabs, _) := s.tabView c.tables c.tableRam c.tabCmd
    ftabThere d tabs
    let reads := (if mdBias d then [(mdBiasBase d, 4 * sh.n)] else []) ++ (if mdRowfirst d then [] else stats)
    need (!reads.any fun r => c.uce r.1 r.2) 0x300A 0
    let s := ((off, 64) :: reads).foldl (fun s r => s.lmTouch id r.1 r.2) s
    let run : AsyncRun := { op := { slot := k, token := 0, pc := 0, operand := 0, mode := w.mode }, tables := c.tables,
                            tableRam := c.tableRam, tabCmd := c.tabCmd, scale := c.scale, scaleCmd := c.scaleCmd }
    let o : OutPar := { d := d, slot := k, run := run, f := f, zp := zpField f (mdOutZp d), texp := 0 }
    let (qs, nf) := c.fragQuires t sh.e
    let (s, vs) := (s.folds id nf).fragRows id sh o qs
    let s := s.modSwarm id k fun w => w.setFrag (wD x) (fragPack f vs)
    .ok (s.modCell id fun c => c.endTile (xfAcc x) t.fast)

end Sys2Proof.Machine
end

