-- ==== Sys2Proof/Machine/RegionCmd.lean ====
section
/-! DEFINITION. REGION.SYNC (R284) and the scrubbers (R289). -/
namespace Sys2Proof.Machine

/-! ### REGION.SYNC -/

/-- R284: a write of DISP.REGION_CMD whose GO is set, in the mode of the row: 0 ALL, 1 ADDR. -/
def State.regionSync (s : State) (ch v mode : Nat) : State :=
  if !bitAt v 0 || bits v 1 1 != mode then s else
  s.gated (s.chanGate ch) fun s =>
    if s.rd (Reg.dispRegionCmdBusy ch) == 1 then (s.writeReg .disp ch 0xF018 8 v).regEncoding
    else
      let s := (s.writeReg .disp ch 0xF018 all64 v).wr (Reg.dispRegionCmdBusy ch) 1
      s.modDisp ch fun d => { d with syncMode := mode == 1, syncAddr := s.rd (Reg.dispRegionSyncAddrDesc ch),
                                     syncLeft := cellsOf ch, syncWalks := [] }

/-- R284: REGION_SYNC_ALL. -/
def execRegionSyncAll (ch : BitVec 2) (data : Word) (s : State) : Host.Outcome State Fault Refusal :=
  .next <| s.regionSync ch.toNat data.toNat 0

/-- R284: REGION_SYNC_ADDR. -/
def execRegionSyncAddr (ch : BitVec 2) (data : Word) (s : State) : Host.Outcome State Fault Refusal :=
  .next <| s.regionSync ch.toNat data.toNat 1

/-- R284, step 3: the new walk of list item `i` of context `k`, once per launch; a walk that faults is counted. -/
def State.syncWalk (s : State) (ch k i addr : Nat) : State × WalkResult :=
  match (s.dsp ch).syncWalks.find? fun w => w.1 == k && w.2.1 == i with
  | some w => (s, w.2.2)
  | none =>
    let (s, r) := s.walk ch addr
    let s := if r.code == 0 then s else s.bump (Reg.dispRegionCmdSyncFaults ch)
    (s.modDisp ch fun d => { d with syncWalks := d.syncWalks ++ [(k, i, r)] }, r)

/-- R284: one list register of a cell for context `k`: a matching one holds its new walk's result, or is empty. -/
def State.syncItem (s : State) (ch id k i addr : Nat) : State :=
  let d := s.dsp ch
  let old := (s.cell id).regions.find? fun r => r.ctx == k && r.num == i
  let hit := if d.syncMode then old.any fun r => r.addr == d.syncAddr else true
  if !hit then s else
  let (s, r) := s.syncWalk ch k i addr
  s.modCell id fun c =>
    let rest := c.regions.filter fun x => !(x.ctx == k && x.num == i)
    match r.code, r.desc with
    | 0, some (de, a) => { c with regions := rest ++ [{ desc := de, addr := a, ctx := k, num := i }] }
    | _, _ => { c with regions := rest }

/-- R284: REGION.SYNC at a cell: on-demand registers that match are emptied, list registers are walked again. -/
def State.syncCell (s : State) (ch id : Nat) : State :=
  let d := s.dsp ch
  let keep := fun r : RegionReg => decide (r.num < s.regionCount ch r.ctx) || (d.syncMode && r.addr != d.syncAddr)
  let s := s.modCell id fun c => { c with regions := c.regions.filter keep }
  (List.range 16).foldl (fun s k =>
    let c := s.ctx ch k
    if c.phase.holds && (s.ctxCells ch k).contains id then
      let l := s.leRegions ch (s.launchEntry ch c.entry)
      ((List.range l.length).zip l).foldl (fun s e => s.syncItem ch id k e.1 e.2) s
    else s) s

/-- R284: REGION_SYNC_ARRIVAL. DONE is set when the command has reached every cell. -/
def execRegionSyncArrival (cell : BitVec 10) (s : State) : Host.Outcome State Fault Refusal :=
  let id := cell.toNat
  let ch := chOf id
  .next <| if !(s.dsp ch).syncLeft.contains id || s.cellInReset id then s else
    let s := s.syncCell ch id
    let s := s.modDisp ch fun d => { d with syncLeft := d.syncLeft.erase id }
    if (s.dsp ch).syncLeft.isEmpty then
      ((s.wr (Reg.dispRegionCmdBusy ch) 0).wr (Reg.dispRegionCmdDone ch) 1).modDisp ch fun d => { d with syncWalks := [] }
    else s

/-! ### Scrubbers -/

/-- An error of a block or word: what is known and what the scrubber's read shows. -/
def eccNow (known : Nat) : EccSeen → Nat
  | .good => known
  | .single => max known 1
  | .double => 2

/-- R274: the HBM address of block `k` of a stack. -/
def stackBlock (n k : Nat) : Nat := n / 2 * 2 ^ 37 + k / 4 * 512 + n % 2 * 256 + k % 4 * 64

/-- R289: a pass of a stack's scrubber ends. -/
def State.stackPassEnd (s : State) (n : Nat) (found : Bool) : State :=
  let s := s.incr (Reg.memScrubCtlPasses n)
  if found || s.rd (Reg.memScrubCtlPin n) == 1 then s
  else s.wr (Reg.memScrubCtlLevel n) (s.rd (Reg.memScrubCtlLevel n) - 1)

/-- R287, R289: a stack's scrubber reads its next block. -/
def State.scrubStack (s : State) (n : Nat) (ecc : EccSeen) : State :=
  if !s.stackUp n then s else
  let k := (sget (0, false) s.stackScrub n).1
  let a := stackBlock n k
  let e := eccNow (sget 0 s.hbmErr (a / 64)) ecc
  let s := { s with hbmErr := sset 0 s.hbmErr (a / 64) e }
  let s := if e == 1 then s.hbmTouch a 64 else if e == 2 then s.hbmUceTold (a / 64) true else s
  let found := (sget (0, false) s.stackScrub n).2
  if k + 1 < 2 ^ 30 then { s with stackScrub := sset (0, false) s.stackScrub n (k + 1, found) }
  else { s with stackScrub := sset (0, false) s.stackScrub n (0, false) }.stackPassEnd n found

/-- R289: a pass of a cell's scrubber ends. -/
def State.cellPassEnd (s : State) (id : Nat) (found : Bool) : State :=
  let p := s.phys id
  if found || s.rd (Reg.cellLmEccPin p) == 1 then s else s.wr (Reg.cellLmEccLevel p) (s.rd (Reg.cellLmEccLevel p) - 1)

/-- R288, R289: a cell's scrubber reads its next word. -/
def State.scrubCell (s : State) (id : Nat) (ecc : EccSeen) : State :=
  if !isLogical id || s.cellInReset id || (s.island (s.phys id)).stopped then s else
  let k := (s.cell id).scrubPos
  let e := eccNow (sget 0 (s.cell id).lmErr k) ecc
  let s := s.modCell id fun c => { c with lmErr := sset 0 c.lmErr k e }
  let s := if e == 1 then s.lmTouch id (8 * k) 8 else if e == 2 then s.lmUceTold id else s
  let found := (s.cell id).scrubFound
  if k + 1 < 196608 then s.modCell id fun c => { c with scrubPos := k + 1 }
  else (s.modCell id fun c => { c with scrubPos := 0, scrubFound := false }).cellPassEnd id found

/-- R289: SCRUB_READ. -/
def execScrubRead (unit : ScrubUnit) (ecc : EccSeen) (s : State) : Host.Outcome State Fault Refusal :=
  .next <| if s.pwr.porst then s else
    match unit with
    | .stack n => s.scrubStack n.toNat ecc
    | .cell id => s.scrubCell id.toNat ecc

end Sys2Proof.Machine
end

