-- ==== Sys2Proof/Machine/TimeRx.lean ====
section
/-! DEFINITION. BEACON messages received (R360 to R362, R369, R371). -/
namespace Sys2Proof.Machine

/-- BKIND of a BEACON. -/
def bKind (b : Bytes) : Nat := fieldLE (mArg b) 8 1

/-- R360, R362, R369, R371: the effect of a BEACON. One that comes from the wrong side of the time tree has none. -/
def State.beaconEffect (s : State) (q : Nat) (m : RxMsg) : State :=
  let b := m.bytes
  let pl := b.drop 32
  match s.isUp q (mStream b), bKind b with
  | true, 0 => s.takeSync (mArg b) pl m.tick
  | false, 1 => s.takeDelayReq q (mStream b) (mArg b) m.tick
  | false, 2 => s.takeJoin (fieldLE (mArg b) 10 2) pl
  | true, 3 => s.takeForm pl
  | true, 4 => s.takeRefuse pl
  | false, 5 => s.takeLeave pl
  | _, _ => s

/-- R360: a BEACON of a kind. -/
def State.onBeacon (s : State) (q kind : Nat) : State :=
  s.onRequest q 1 (fun b => mType b == 5 && bKind b == kind) fun s m =>
    let b := m.bytes
    some ((s.beaconEffect q m).finishReq q (mSrc b) (mStream b) (mId b) 0)

/-- R362: BEACON_SYNC. -/
def execBeaconSync (quad : BitVec 4) (s : State) : Host.Outcome State Fault Refusal := .next <| s.onBeacon quad.toNat 0

/-- R362: BEACON_DELAY_REQ. -/
def execBeaconDelayReq (quad : BitVec 4) (s : State) : Host.Outcome State Fault Refusal := .next <| s.onBeacon quad.toNat 1

/-- R369: BEACON_JOIN. -/
def execBeaconJoin (quad : BitVec 4) (s : State) : Host.Outcome State Fault Refusal := .next <| s.onBeacon quad.toNat 2

/-- R369: BEACON_FORM. -/
def execBeaconForm (quad : BitVec 4) (s : State) : Host.Outcome State Fault Refusal := .next <| s.onBeacon quad.toNat 3

/-- R369: BEACON_REFUSE. -/
def execBeaconRefuse (quad : BitVec 4) (s : State) : Host.Outcome State Fault Refusal := .next <| s.onBeacon quad.toNat 4

/-- R371: BEACON_LEAVE. -/
def execBeaconLeave (quad : BitVec 4) (s : State) : Host.Outcome State Fault Refusal := .next <| s.onBeacon quad.toNat 5

end Sys2Proof.Machine
end

