-- ==== Sys2Proof/Machine/Replay.lean ====
section
/-! DEFINITION. The Hoard recorder's commands (R407, R408) and replay (R409 to R412). -/
namespace Sys2Proof.Machine

/-! ### The recorder -/

/-- R407: HRD_OVERFLOW_ENTRY. -/
def execHrdOverflowEntry (s : State) : Host.Outcome State Fault Refusal :=
  .next <| if s.rd Reg.hrdStatusState == 1 then s.hrdFlush else s

/-- R408: a write of HRD.CTL.REARM = 1; ignored during a replay. -/
def State.hrdRearm (s : State) : State :=
  if s.liveIgnored || s.hrdMode == 0 || (s.island 0x42C).stopped then s else s.hrdEpoch

/-- R408: HRD_REARM. -/
def execHrdRearm (s : State) : Host.Outcome State Fault Refusal := .next <| s.gated s.blockGate State.hrdRearm

/-! ### Start, resume and stop (R409, R411, R412) -/

/-- Changes the replay. -/
def State.modHrd (s : State) (f : Hoard → Hoard) : State := { s with hrd := f s.hrd }

/-- KIND of an entry. -/
def enKind (h : Bytes) : Nat := fieldLE h 0 2
/-- CHANNEL of an entry. -/
def enCh (h : Bytes) : Nat := fieldLE h 2 1
/-- LENGTH of an entry. -/
def enLen (h : Bytes) : Nat := fieldLE h 4 4
/-- TICK of an entry. -/
def enTick (h : Bytes) : Nat := fieldLE h 0x10 8
/-- ID of an entry. -/
def enId (h : Bytes) : Nat := fieldLE h 0x18 8

/-- R411: an EPOCH or IMAGE entry's member digest is the running one. -/
def State.memberSame (s : State) (h payload : Bytes) : Bool :=
  slice payload (if enKind h == 0x70 then 24 else 48) 48 == fit 48 s.img.memberDigest

/-- R409: a load or drain is in progress. -/
def State.loadOrDrain (s : State) : Bool := s.img.load.isSome || [0, 1, 2, 3].any fun ch => (s.dsp ch).drain

/-- R409: why a replay of the source that `t` has set up is refused. -/
def State.replayBad (t : State) : Bool :=
  let h := t.replayHead 0
  let a := t.hrd.base
  let n := t.hrd.len
  let ring := t.hrdMode == 1 || t.hrdMode == 2
  t.loadOrDrain || n == 0
    || (!t.hrd.source && (a % 64 != 0 || n % 64 != 0 || 2 ^ 39 < a + n
        || (ring && decide (a < t.hrdBase + t.hrdSize ∧ t.hrdBase < a + n))))
    || (enKind h != 0x70 && enKind h != 0x50) || !t.memberSame h (t.replayBytes 64 (enLen h))

/-- R409, R411: a write of HRD.REPLAY_CTL.GO = 1 starts a replay or resumes a paused one. -/
def State.replayGo (s : State) (stream : Bytes) : State :=
  if s.replaying || (s.island 0x42C).stopped then s
  else if s.rd Reg.hrdStatusState == 4 then
    if s.loadOrDrain then s.wr Reg.hrdReplayStatusCause 0xA032 else s.wr Reg.hrdStatusState 3
  else
    let host := s.rd Reg.hrdReplayCtlSource == 1
    let t := s.modHrd fun x => { x with
      source := host, base := s.rd Reg.hrdReplayBaseValue, len := if host then stream.length else s.rd Reg.hrdReplayLenValue,
      pos := 0, stream := if host then stream else [], consumed := [], gapPorts := [], frags := [], frames := [],
      badBanks := [], profiles := [], unverifiable := [] }
    if t.replayBad then s.wr Reg.hrdReplayStatusCause 0xA032
    else (t.wr Reg.hrdStatusState 3).wr Reg.hrdDivergeSeqSeq 0

/-- R412: a write of HRD.REPLAY_CTL.STOP = 1. -/
def State.replayStop (s : State) : State := if s.liveIgnored then s.replayEnd 0xA039 else s

/-- R409: HRD_REPLAY_GO; `stream` is what the host stream provides. -/
def execHrdReplayGo (data : Word) (stream : Bytes) (s : State) : Host.Outcome State Fault Refusal :=
  let v := data.toNat
  .next <| if !bitAt v 0 then s else s.gated s.blockGate fun s => (s.writeReg .hrd 0 0x28 all64 v).replayGo stream

/-- R412: HRD_REPLAY_STOP. -/
def execHrdReplayStop (s : State) : Host.Outcome State Fault Refusal := .next <| s.gated s.blockGate State.replayStop

/-! ### Entries (R410, Table 20-4) -/

/-- R410, R411: an item that is skipped. -/
def State.replaySkip (s : State) : State := s.bump Reg.hrdReplayStatusSkipped

/-- R410: a payload as read is the recorded one. -/
def State.digestOk (s : State) (off : Nat) (h payload : Bytes) : Bool :=
  (s.hrd.source || !s.hbmUce (s.hrd.base + off + 64) (enLen h)) && decide (payload.length = enLen h)
    && sha256 payload == slice h 0x20 32

/-- Outcome of expected fragment `k` of a FRAME_CLOSE record, with the accepted copy found for it; none where it is lost. -/
def State.replayFrag (s : State) (ch ev : Nat) (pl : Bytes) (k : Nat) : Option FragSt :=
  let r := slice pl (0x20 + 40 * k) 40
  match fieldLE r 0 1 with
  | 0 => (s.hrd.frags.find? fun f => f.1 == ch && f.2.1 == ev && f.2.2.2.2 == slice r 8 32).map fun f =>
      .accepted (fieldLE r 2 2) (slice r 8 32) ({ lane := 0, tick := 0, raw := f.2.2.2.1, disp := .deliver } : Copy).body
  | 1 => some .missing
  | _ => some .dropped

/-- R300, R410: a frame rebuilt in a slot of its own and handed over with the recorded T, FLAGS and FRAME_SEQ. -/
def State.replayFrame (s : State) (ch slot : Nat) (e : FrameEv) (pl : Bytes) : State :=
  let p := s.igSec ch
  let n := igFrags p
  let s := s.modIng ch fun g => { g with slots := g.slots ++ [slot], events := g.events ++ [e] }
  let s := e.frags.foldl (fun s f =>
    match f.2 with
    | .accepted _ _ b => s.ingPut ch e.event slot f.1 0 b
    | _ => s) s
  let s := s.ingPad ch e slot
  let s := s.ingStore ch e.event (fieldLE p 14 2) (fieldLE p 0x14 4 + 32 * slot)
    (leBytes 6 e.event ++ leBytes 2 e.flags ++ leBytes 8 e.tick ++ leBytes 2 n ++ slice pl 0x1C 2 ++ leBytes 1 slot
      ++ zeros 3 ++ slice pl 8 8)
  if ((s.ingOf ch).frame e.event).any (·.stuck) then s else
  let s := s.modIng ch fun g => { g with events := g.events.filter fun x => x.event != e.event }
  (s.ingCount ch e).ingTrigger ch e pl

/-- R410, R411: a FRAME_CLOSE entry; none while no slot is free. -/
def State.replayClose (s : State) (h pl : Bytes) : Option State :=
  let ch := enCh h
  let ev := enId h
  let n := igFrags (s.igSec ch)
  let fs := (List.range n).map (s.replayFrag ch ev pl)
  let done := fun s : State => s.modHrd fun x => { x with frags := x.frags.filter fun f => !(f.1 == ch && f.2.1 == ev) }
  if (s.igSec ch).isEmpty || fs.contains none then some (done s).replaySkip else
  match s.ingSlot ch with
  | none => none
  | some k =>
    let frags := (List.range n).foldl (fun m i => sset .missing m i ((fs.getD i none).getD .missing)) []
    let e : FrameEv := { event := ev, tick := fieldLE pl 0 8, slot := some k, stage := .closed,
                         flags := fieldLE pl 0x18 2, frags := frags }
    some (done (s.replayFrame ch k e pl))

/-- R410: a FRAME_DROP entry: a lost event is handed over with NO_FRAME. -/
def State.replayDrop (s : State) (h pl : Bytes) : State :=
  if fieldLE pl 0 1 != 1 then s else
  let ch := enCh h
  let n := igFrags (s.igSec ch)
  let e : FrameEv := { event := enId h, tick := fieldLE pl 8 8, slot := none, stage := .closed, flags := 0x88,
                       frags := (List.range n).map fun k => (k, .dropped) }
  (s.ingCount ch e).ingTrigger ch e (closeRecord e n 0)

/-- R410, R411: the group of a CAM_GROUP record is processed and handed over with the recorded T, FLAGS and FRAME_SEQ. The
record of the group's HISTORY_INVALID makes its histories invalid. -/
def State.replayGroup (s : State) (ch slot : Nat) (bufs : List (Nat × Nat × Bytes)) (f : Nat) (pl : Bytes) : State :=
  let p := s.caSec ch
  let own := (s.camOf ch).frameSeq
  let flags := fieldLE pl 0x18 2
  let frames := bufs.map fun b => ({ ctx := b.1, num := fieldLE pl (0x20 + 80 * b.1) 4, start := fieldLE pl 0 8, buf := b.2.1,
                                     lines := caH p, ended := true } : CamFrame)
  let (req, s) := s.fresh
  let g : CamGroup := { f := f, num := 0, tick := fieldLE pl 0 8, frames := frames, reqId := req % 2 ^ 64, closed := true,
                        banks := (List.range 4).map fun k => fieldLE pl (0x24 + 80 * k) 1 }
  let s := bufs.foldl (fun s b => (s.hbmStore (caBuf p b.1 b.2.1) b.2.2).1) s
  let s := if bitAt flags 9 then s.camInvalidate ch fun _ => true else s
  let s := s.modCam ch fun c => { c with groups := c.groups ++ [g] }
  let s := if frames.isEmpty then s.camMissing ch g else s.camProcess ch g slot
  let s := s.modGroup ch f fun x => { x with flags := flags, stats := patch x.stats 8 (leBytes 2 flags) }
  let s := match (s.camOf ch).group f with
    | some x => if frames.isEmpty then s else s.camEventRecord ch x slot (fieldLE pl 8 8)
    | none => s
  match (s.camOf ch).group f with
  | none => s
  | some x =>
    if x.stuck then s
    else (s.camDeliver ch { x with flags := flags } (fieldLE pl 8 8) pl).modCam ch fun c => { c with frameSeq := own }

/-- R411: what a gap has done to the outputs of a camera's group. -/
def State.gapGroup (s : State) (ch f flags : Nat) : State :=
  if !s.hrd.gapPorts.contains ch then s
  else if bitAt flags 9 then s.modHrd fun x => { x with gapPorts := x.gapPorts.filter (· != ch) }
  else s.modHrd fun x => { x with unverifiable := (ch, f) :: x.unverifiable }

/-- R410, R411: a CAM_GROUP entry; none while no frame slot or no raw buffer is free. -/
def State.replayCam (s : State) (h pl : Bytes) : Option State :=
  let ch := enCh h
  let f := enId h
  let p := s.caSec ch
  let here := (List.range 4).filter fun k => bitAt (fieldLE pl 0x1A 1) k
  let frame := fun k => s.hrd.frames.find? fun x => x.1 == ch && x.2.1 == f && x.2.2.1 == k
  let done := fun s : State => s.modHrd fun x => { x with frames := x.frames.filter fun y => !(y.1 == ch && y.2.1 == f) }
  let bad := here.any fun k => s.hrd.badBanks.contains (16 * ch + fieldLE pl (0x24 + 80 * k) 1)
  if p.isEmpty || !caHoard p || bad || here.any fun k => (frame k).isNone then
    some (done (s.gapGroup ch f (fieldLE pl 0x18 2))).replaySkip
  else
    let bufs := here.filterMap fun k =>
      match (List.range (caRaw p)).find? fun i => !((s.camOf ch).busyBufs k).contains i, frame k with
      | some i, some x => some (k, i, x.2.2.2)
      | _, _ => none
    let slot := if here.isEmpty then some 15
      else (List.range (fieldLE p 0x4A 1)).find? fun k => !(s.camOf ch).slots.contains k
    match slot with
    | none => none
    | some k => if bufs.length < here.length then none
      else some (done ((s.gapGroup ch f (fieldLE pl 0x18 2)).replayGroup ch k bufs f pl))

/-- R410: a WAGGLE entry of row 5 is executed; nothing is answered and no window keeps it. None while it waits. -/
def State.replayWaggle (s : State) (h b : Bytes) : Option State :=
  let q := bits (enId h) 48 4
  let m : RxMsg := { vl := vlOf (mType b), bytes := b, tick := enTick h }
  let run := match mType b with
    | 1 => s.execData q m
    | 2 => some (s.execStoreMsg q m)
    | 3 | 4 => some (s.execChainMsg q m)
    | 5 => some (s.beaconEffect q m)
    | 6 => some (if s.mirrorBad q b then s else s.mirrorEffect b)
    | _ => some s
  run.map fun t => { t with wgl := s.wgl }

/-- R410, R461: a recorded submission: its bytes are written and its trigger follows; none while the way is stopped. -/
def State.replayDoorbell (s : State) (pl : Bytes) : Option State :=
  let e := pl.take 64
  let bs := pl.drop 72
  if !bs.isEmpty && s.dstStopped (seDst e) then none else
  match s.launchWrite (seCh e) (seDst e) bs with
  | (s, 0) => some (s.hostTrigger (seCh e) (seEntry e) (seId e % 2 ^ 48) pl none)
  | (s, _) => some s

/-- R410: a fired count triggers. -/
def State.replayCount (s : State) (h pl : Bytes) : State :=
  let c := enId h
  if 1 < fieldLE pl 3 1 then s
  else s.accept (enCh h) { head := fieldLE pl 0 2, kind := 4, event := c % 2 ^ 48, input := sha256 (leBytes 8 c) } (some c) false

/-- R410: a recorded INCOMPLETE outcome is applied at its relay. -/
def State.replayChain (s : State) (h pl : Bytes) : State :=
  let ch := enCh h
  match (s.relays ch).find? fun r => ceId r.2 == fieldLE pl 0 1 && ceStation r.2 == fieldLE pl 1 1 with
  | none => s
  | some (i, e) =>
    if fieldLE pl 2 1 != 1 || (s.closedInst ch i (enId h)).isSome then s
    else s.makeIncomplete ch i e (enId h) (fieldLE pl 4 4) 0x600F

/-- R411: replay pauses at an entry. -/
def State.replayPause (s : State) : State :=
  ((s.wr Reg.hrdStatusState 4).wr Reg.hrdReplayStatusCause 0xA034).irq 2

/-- R411: a gap: the end, or every camera history is invalid. -/
def State.replayGap (s : State) (h : Bytes) : State :=
  if s.rd Reg.hrdReplayCtlGapSkip == 0 then
    (s.wr Reg.hrdDivergeSeqSeq (fieldLE h 8 8)).replayEnd 0xA035
  else
    let s := [0, 1, 2, 3].foldl (fun s ch => s.camInvalidate ch fun _ => true) s
    s.modHrd fun x => { x with gapPorts := [0, 1, 2, 3] }

/-- R410: an entry whose payload fails its digest: what needs it is skipped. -/
def State.replayBroken (s : State) (h : Bytes) : State :=
  match enKind h with
  | 0x01 | 0x11 => s
  | 0x12 => s.modHrd fun x => { x with badBanks := insNat (16 * enCh h + enId h % 16) x.badBanks }
  | _ => s.replaySkip

/-- R410, Table 20-4: an entry whose payload is the recorded one; none while it waits. -/
def State.replayOne (s : State) (h pl : Bytes) : Option State :=
  let ch := enCh h
  let id := enId h
  match enKind h with
  | 0x01 => some <| if bits id 52 4 != 0 then s
      else s.modHrd fun x => { x with frags := x.frags ++ [(ch, id % 2 ^ 48, bits id 48 4, pl, slice h 0x20 32)] }
  | 0x02 => s.replayClose h pl
  | 0x03 => some (s.replayDrop h pl)
  | 0x10 => s.replayCam h pl
  | 0x11 => some (s.modHrd fun x => { x with frames := x.frames ++ [(ch, id % 2 ^ 32, bits id 32 2, pl)] })
  | 0x12 =>
    let s := s.modHrd fun x => { x with badBanks := x.badBanks.filter (· != 16 * ch + id % 16) }
    some (if (s.caSec ch).isEmpty then s else (s.hbmStore (caBase (s.caSec ch) 2 + 8192 * (id % 16)) pl).1)
  | 0x20 => s.replayDoorbell pl
  | 0x21 => some (s.replayCount h pl)
  | 0x30 => if bits id 52 4 == 5 then s.replayWaggle h pl else some s
  | 0x31 => some (s.replayChain h pl)
  | 0x41 => some (s.modHrd fun x => { x with
      profiles := (if ch < 4 then [ch] else [0, 1, 2, 3]).foldl (fun m c => sset 0 m c (id % 4 + 1)) x.profiles })
  | _ => some s

/-- Table 20-4: kinds whose entries have no effect in a replay. -/
def enIdle (kind : Nat) : Bool := [0x13, 0x40, 0x51, 0x60, 0x70, 0x7F].contains kind

/-- R410 to R412: HRD_REPLAY_ENTRY: the next entry, or the end of the stream. -/
def execHrdReplayEntry (s : State) : Host.Outcome State Fault Refusal :=
  .next <| if !s.replaying then s
    else if s.hrd.len ≤ s.hrd.pos then s.replayEnd 0xA038
    else
      let off := s.hrd.pos
      let h := s.replayHead off
      let pl := s.replayBytes (off + 64) (enLen h)
      let next := fun s : State => s.modHrd fun x => { x with pos := off + hrdBytes (enLen h) }
      if enIdle (enKind h) then next s
      else if enKind h == 0x7E then next (s.replayGap h)
      else if !s.digestOk off h pl then next (s.replayBroken h)
      else if enKind h == 0x50 && !s.memberSame h pl then s.replayPause
      else if enKind h == 0x52 && slice pl 0 32 != sget (sha256 []) s.sealer.weights (enId h) then s.replayPause
      else match s.replayOne h pl with
        | some t => next t
        | none => s

end Sys2Proof.Machine
end

