-- ==== Sys2Proof/Machine/Regs.lean ====
section
/-! DEFINITION. Accesses of the host to the register space: which are served (R5, R439, R480, R483), what a write does (R6), what a
read returns and clears (R5, R482, R485). Fields that other state gives are computed when they are read. -/
namespace Sys2Proof.Machine

/-! ### Where an access leads -/

/-- R5: an aligned unit of 4 or 8 bytes. -/
def unitOk (off size : Nat) : Bool := (size == 4 || size == 8) && off % size == 0

/-- R5: the bits of the 64-bit register that an access covers. -/
def unitMask (off size : Nat) : Nat := (2 ^ (8 * size) - 1) * 2 ^ (8 * (off % 8)) % 2 ^ 64

/-- R439, R480, R483: an access to an instance of a block. -/
def State.bar0Gate (s : State) (b : Blk) (n : Nat) : Gate :=
  match b with
  | .glb => s.glbGate
  | .host => s.hostGate
  | .wgl => s.chanGate (quadCh n)
  | .ing => s.ingGate n
  | .cam => s.camGate n
  | .disp => s.chanGate n
  | .cell => s.windowGate n
  | _ => s.blockGate

/-! ### Writes -/

/-- The RW bits of a register. -/
def rwBits (b : Blk) (o : Nat) : Nat :=
  match descAt b o with
  | none => 0
  | some d => total ((d.fields.filter fun f => f.2.2 == .rw).map fun f => (2 ^ f.2.1 - 1) * 2 ^ f.1)

/-- R5: what a write of some bits of a command register amounts to: the RW fields it does not cover stay, and no other bit is set. -/
def State.merged (s : State) (b : Blk) (n o mask v : Nat) : Nat :=
  (v &&& mask) ||| (s.reg (blockBase b n + o) &&& rwBits b o &&& (all64 ^^^ mask))

/-- R289: a pinned scrub level. -/
def State.pinLevel (s : State) (pin pinLevel level : RegField) : State := if s.rd pin == 1 then s.wr level (s.rd pinLevel) else s

/-- GLB.RESET_CTL: the first set command bit, from bit 18 downwards. -/
def State.writeResetCtl (s : State) (w : Nat) : State :=
  if bitAt w 18 then s.warmBoot 3
  else if bitAt w 17 then s.cellGo (s.rd Reg.glbResetCtlCell)
  else if bitAt w 16 then s.channelGo (s.rd Reg.glbResetCtlChannel)
  else s

/-- TIME.GROUP_CTL. -/
def State.writeGroupCtl (s : State) (w : Nat) : State :=
  let s := if bitAt w 1 then s.leaveGroup 0 (s.wglUp s.tmUpQuad) else s
  if bitAt w 0 && s.group == 4 then s.syncing else s

/-- SAFE.CTL. -/
def State.writeSafeCtl (s : State) (m : Nat) : State :=
  if bitAt m 0 then s.safeCtl m else if bits m 8 2 == 3 then s.regEncoding else s

/-- HRD.REPLAY_CTL; a replay from a host stream that is started here has no stream (HRD_REPLAY_GO brings one). -/
def State.writeReplayCtl (s : State) (w : Nat) : State :=
  if bitAt w 1 then s.replayStop else if bitAt w 0 then s.replayGo [] else s

/-- R443: the doorbells. -/
def State.writeDoorbell (s : State) (o v : Nat) : State :=
  let q := (o - 0x1000) / 32
  match (o - 0x1000) % 32 with
  | 0 => s.sqTail q (bits v 0 30)
  | 8 => s.cqHead q (bits v 0 30)
  | 16 => s.drHead q (bits v 0 30)
  | _ => s

/-- IMG.BIND_CTL. -/
def State.writeBindCtl (s : State) (w : Nat) : State :=
  let s := if bitAt w 1 then s.clearCells else s
  if bitAt w 2 then s.clearLanes else s

/-- DISP.ARM_CTL. -/
def State.writeArmCtl (s : State) (ch w : Nat) : State :=
  let s := if bitAt w 49 then s.armCancel ch (s.rd (Reg.dispArmCtlSlot ch)) else s
  if bitAt w 48 then s.armGo ch else s

/-- CELL.PARK_CMD: ACTION as `slotCmd` numbers it. -/
def State.writeParkCmd (s : State) (w v : Nat) : State :=
  (s.slotCmd w (bits v 0 4) (match bits v 8 2 with | 0 => 2 | 1 => 0 | 2 => 1 | _ => 3)).1

/-- CELL.SCALE_CTL with GO: an OP that is not listed leaves the stored one in force (R6). -/
def State.writeScaleGo (s : State) (w m : Nat) : State :=
  if bits m 24 2 == 3 then
    let op := s.rd (Reg.cellScaleCtlOp (s.windowCell w))
    s.regEncoding.scaleGo w (setBits m 24 2 op) op
  else s.scaleGo w m (bits m 24 2)

/-- A write of the bits `mask` of a register that is served; the WO fields of a command register start its command. `n` is the
instance, for a cell the id of its window. -/
def State.writeServed (s : State) (b : Blk) (n o mask v : Nat) : State :=
  let k := if b == .cell then s.windowCell n else n
  let w := v &&& mask
  let m := s.merged b k o mask v
  let t := s.writeReg b k o mask v
  let low := bitAt mask 0
  match b, o with
  | .glb, 0x10 => t.writeResetCtl w
  | .gov, 0x0 => if low then s.profileWrite (bits v 0 2) else s
  | .gov, 0x18 => s.isleWrite m
  | .time, 0x10 => if low then s.epochArm (bitAt v 0) else s
  | .time, 0x28 => s.writeGroupCtl w
  | .safe, 0x0 => t.writeSafeCtl m
  | .seal_, 0x0 => if bitAt w 0 then t.manifestGo else t
  | .hrd, 0x0 => if bitAt w 2 then s.hrdRearm else s
  | .hrd, 0x28 => t.writeReplayCtl w
  | .host, 0x18 | .host, 0x20 | .host, 0x28 => s.writeQBase o mask v
  | .host, 0x30 => s.writeQCtl mask v
  | .img, 0x0 => s.imgCtl m
  | .img, 0x50 => t.writeBindCtl w
  | .wgl, 0x0 => if bitAt w 0 then t.retrainCmd n else t
  | .ing, 0x0 => if bitAt w 0 then s.ingResync n else s
  | .cam, 0x0 => if bitAt w 0 then s.camRestart n else s
  | .mem, 0x8 => t.pinLevel (Reg.memScrubCtlPin n) (Reg.memScrubCtlPinLevel n) (Reg.memScrubCtlLevel n)
  | .disp, 0x20 => t.writeArmCtl n w
  | .disp, 0xF018 => if bitAt w 0 then s.regionSync n m (bits m 1 1) else t
  | .cell, 0x438 => if low then s.writeParkCmd n v else s
  | .cell, 0x460 => if bitAt w 32 then s.ftabGo n m (bits m 24 2) else t
  | .cell, 0x4B0 => if bitAt w 32 then s.writeScaleGo n m else t
  | .cell, 0x4E8 => t.pinLevel (Reg.cellLmEccPin k) (Reg.cellLmEccPinLevel k) (Reg.cellLmEccLevel k)
  | .host, _ => if 0x1000 ≤ o && o < 0x1800 then (if low then s.writeDoorbell o v else s) else t
  | _, _ => t

/-- R5, R6, R439, R480, R481, R483: BAR0_WRITE: a host write of `size` bytes at a BAR0 offset. -/
def execBar0Write (off size : Nat) (data : Word) (s : State) : Host.Outcome State Fault Refusal :=
  .next <| if s.held then s
    else if !unitOk off size then s.regAccess
    else match blockOf (off / 8 * 8) with
      | none => s.regAccess
      | some (b, n, o) =>
        s.gated (s.bar0Gate b n) fun s => s.writeServed b n o (unitMask off size) (data.toNat * 2 ^ (8 * (off % 8)))

/-! ### What a read returns -/

/-- A field that is computed: lowest bit, width and value. -/
abbrev View := List (Nat × Nat × Nat)

/-- A whole register that is computed. -/
def whole (v : Nat) : View := [(0, 64, v)]

/-- The mask of the numbers in a list, below `n`. -/
def maskList (n : Nat) (l : List Nat) : Nat := maskOf n l.contains

/-- GOV.ISLE_STATE of the selected island. -/
def State.isleView (s : State) : View :=
  let i := s.rd Reg.govIsleCtlIsland
  let x := s.island i
  let f := if (isleRange i).isSome then x.freq else fixedFreq i
  [(48, 16, if x.stopped then 0 else f), (38, 10, s.isleVolt i), (26, 12, x.temp), (10, 16, x.breaches), (0, 10, capAt 1023 x.lastDroops)]

/-- IMG.FUSE. -/
def Fuses.word (f : Fuses) : Nat := f.sigRequired.toNat + 2 * f.keyValid.toNat + 32 * f.keyRevoked.toNat

/-- HOST.Q_CTL of the selected queue. -/
def State.qCtlView (s : State) : View :=
  let q := s.rd Reg.hostQSelectQueue
  let x := s.queue q
  whole (x.ctl + 2 * (bitAt s.adminMask q).toNat + 2 ^ 32 * (if x.error then 2 else x.enabled.toNat) + 2 ^ 34 * x.armed.toNat)

/-- The HOST registers of the queues. -/
def State.hostView (s : State) (o : Nat) : View :=
  let x := s.queue (s.rd Reg.hostQSelectQueue)
  match o with
  | 0x18 => whole x.sqBase
  | 0x20 => whole x.cqBase
  | 0x28 => whole x.drBase
  | 0x30 => s.qCtlView
  | 0x48 => [(48, 16, s.pwr.flashSlotMiB), (32, 1, s.pwr.activeBank), (0, 32, s.fwVersion)]
  | _ =>
    if !(0x1000 ≤ o && o < 0x1800) then [] else
    let d := s.queue ((o - 0x1000) / 32)
    match (o - 0x1000) % 32 with
    | 0 => whole d.sqTail
    | 8 => whole d.cqHead
    | 16 => whole d.drHead
    | _ => []

/-- R293: SIGNAL and TRAINED of a front-end lane. -/
def State.laneView (s : State) (q lane : Nat) : View :=
  if s.quadRole q != 2 then [] else
  let l := sget .down (s.ingOf (quadCh q)).lanes (4 * (q % 4) + lane)
  [(41, 1, (l == .up).toNat), (40, 1, (l != .down).toNat)]

/-- The ING registers. -/
def State.ingView (s : State) (ch o : Nat) : View :=
  if o != 8 then [] else
  let g := s.ingOf ch
  [(48, 16, max (s.rd (Reg.ingStatusStagingHigh ch)) (cdiv g.stagingUse 1024)), (32, 7, g.events.length),
   (24, 8, maskList 8 g.slots), (0, 16, maskOf 16 fun n => sget .down g.lanes n == .up)]

/-- The CAM registers. -/
def State.camView (s : State) (ch o : Nat) : View :=
  let c := s.camOf ch
  let raw := fun hi => maskOf 16 fun i => (c.busyBufs (i / 4)).contains (i % 4 + hi)
  match o with
  | 0x8 => [(24, 8, maskList 8 c.slots), (21, 3, (c.groups.filter fun g => !g.closed).length), (0, 16, raw 0)]
  | 0x10 => [(0, 16, raw 4)]
  | _ => []

/-- The DISP registers. -/
def State.dispView (s : State) (ch o : Nat) : View :=
  let d := s.dsp ch
  match o with
  | 0x0 => [
      (48, 1, (d.ctxs.any fun e => e.2.phase == .saving || e.2.phase == .restoring).toNat),
      (32, 16, maskOf 16 fun i => (sget {} d.arms i).armed), (16, 7, d.queue.length),
      (0, 16, maskOf 16 fun k => (s.ctx ch k).phase != .dead)]
  | 0x30 =>
    let l := sget {} d.latency (s.rd (Reg.dispLatSelectEntry ch))
    [(32, 32, capAt (2 ^ 32 - 1) l.maxLatency), (16, 16, capAt 0xFFFF l.overBound)]
  | 0xF000 => [(1, 1, (s.endOpen ch ((ch + 3) % 4)).toNat), (0, 1, (s.endOpen ch ((ch + 1) % 4)).toNat)]
  | 0xF028 => whole (maskList 64 d.announced)
  | _ => []

/-- CELL.IDENT of window `w`, which shows physical cell `p`. -/
def State.identWord (s : State) (w p : Nat) : Nat :=
  w + 2 ^ 16 * p + 2 ^ 32 * (rowOf p != rowOf w).toNat + 2 ^ 33 * (s.configured (chOf w)).toNat

/-- CELL.SWARM_STATUS.STATE of a swarm. -/
def SwarmSt.code : SwarmSt → Nat
  | .free => 0 | .active => 1 | .parked => 2 | .exiting => 3

/-- The cell registers of window `w`, which shows physical cell `p`. -/
def State.cellView (s : State) (w p o : Nat) : View :=
  let c : CellMem := sget {} s.cells p
  match o with
  | 0x0 => whole (s.identWord w p)
  | 0x8 => [(1, 1, (s.cellListed p).toNat)]
  | 0x418 => [(16, 9, max (s.rd (Reg.cellSbStatusHighWater p)) c.inFlight), (0, 9, c.inFlight)]
  | 0x420 => [(32, 7, c.freeBlocks), (0, 32, total ((List.range 16).map fun i => (c.swarm i).st.code * 4 ^ i))]
  | 0x430 => [(48, 1, ((c.swarm 0).st == .parked).toNat), (0, 16, maskOf 16 fun i => (c.swarm i).st == .parked)]
  | 0x440 => whole 0x01000100
  | 0x448 => [(40, 9, c.mxQueue.length + c.mxRun.isSome.toNat), (32, 8, c.tiles.length)]
  | 0x450 => [(40, 9, c.agQueue.length + c.agRun.isSome.toNat)]
  | 0x4A8 => [(16, 16, 0x0100), (0, 16, maskOf 16 fun i => i < 4 || !(sget {} c.tables i).header.isEmpty)]
  | 0x4D8 => [(16, 7, max (s.rd (Reg.cellMsgStatusRxHighWater p)) c.ring.length), (0, 7, c.ring.length)]
  | 0x4F0 => [(32, 7, c.regions.length)]
  | _ => if 0x800 ≤ o then whole (c.recWord ((o - 0x800) / 128) ((o - 0x800) / 8 % 16)) else []

/-- The computed fields of a register. -/
def State.view (s : State) (b : Blk) (n o : Nat) : View :=
  match b, o with
  | .glb, 0x0 => whole glbIdent
  | .glb, 0x8 => [(4, 10, s.img.failed.length)]
  | .gov, 0x20 => s.isleView
  | .time, 0x0 => whole s.now
  | .time, 0x8 => [(7, 1, s.qualified.toNat)]
  | .safe, 0x8 => [(11, 1, s.pwr.watchdog.toNat), (10, 1, s.faultN.toNat), (9, 1, s.curlN.toNat), (4, 3, (s.fn 1).st.code),
                   (0, 3, (s.fn 0).st.code)]
  | .hrd, 0x0 => [(0, 2, s.hrdMode)]
  | .img, 0x18 => [(13, 1, s.pwr.fuses.sigRequired.toNat)]
  | .img, 0x60 => whole s.pwr.fuses.word
  | .host, _ => s.hostView o
  | .ing, _ => s.ingView n o
  | .cam, _ => s.camView n o
  | .disp, _ => s.dispView n o
  | .cell, _ => s.cellView n (s.windowCell n) o
  | .time, _ => if 0x50 ≤ o && o < 0x80 then whole (fieldLE s.img.memberDigest (o - 0x50) 8) else []
  | .seal_, _ =>
    if 0x10 ≤ o && o < 0x30 then whole (fieldLE (sget (sha256 []) s.sealer.weights (s.rd Reg.sealWctlChannel)) (o - 0x10) 8) else []
  | .img, _ =>
    if 0x8000 ≤ o then whole (fieldLE s.img.report (o - 0x8000) 8)
    else if 0x20 ≤ o && o < 0x50 then whole (fieldLE s.img.imageDigest (o - 0x20) 8) else []
  | .wgl, _ => if 0x10 ≤ o && o < 0x30 then s.laneView n ((o - 0x10) / 8) else []
  | _, _ => []

/-- R332: SNR, DFE1 and CTLE of a lane with a signal are measurements: free values (log entry 5). -/
def State.laneMeasured (s : State) (b : Blk) (o v : Nat) : Nat × State :=
  if b == .wgl && 0x10 ≤ o && o < 0x30 && bitAt v 40 then
    let (x, s) := s.fresh
    (setBits v 16 24 x, s)
  else (v, s)

/-- The value of a register, RSV and WO fields zero. -/
def State.regValue (s : State) (b : Blk) (n o : Nat) : Nat :=
  let k := if b == .cell then s.windowCell n else n
  (s.view b n o).foldl (fun v f => setBits v f.1 f.2.1 f.2.2) (s.reg (blockBase b k + o))

/-! ### What a read clears -/

/-- Bits of `v` that a mask does not cover. -/
def outside (v mask : Nat) : Nat := v &&& (all64 ^^^ mask)

/-- R5: RC fields lose the bits returned. -/
def State.clearStored (s : State) (b : Blk) (k o mask : Nat) : State :=
  match descAt b o with
  | none => s
  | some d => (d.fields.filter fun f => f.2.2 == .rc).foldl (fun s f =>
      let fd : RegField := ⟨blockBase b k + o, f.1, f.2.1⟩
      s.wr fd (outside (s.rd fd) (bits mask f.1 f.2.1))) s

/-- R5, R233: what a read of some bits of a register clears. -/
def State.clearRead (s : State) (b : Blk) (n o mask : Nat) : State :=
  let k := if b == .cell then s.windowCell n else n
  let s := s.clearStored b k o mask
  match b, o with
  | .gov, 0x20 => s.modIsle (s.rd Reg.govIsleCtlIsland) fun x => { x with
      breaches := outside x.breaches (bits mask 10 16), lastDroops := outside x.lastDroops (bits mask 0 10) }
  | .disp, 0x30 => s.modDisp n fun d => { d with latency := smod {} d.latency (s.rd (Reg.dispLatSelectEntry n)) fun l => {
      maxLatency := outside (capAt (2 ^ 32 - 1) l.maxLatency) (bits mask 32 32),
      overBound := outside (capAt 0xFFFF l.overBound) (bits mask 16 16) } }
  | .cell, 0x4D0 => if bitAt mask 32 then s.wr (Reg.cellQsatStatusOtherRaised k) 0 else s
  | _, _ => s

/-! ### Reads -/

/-- The answer to a read of `size` bytes at a BAR0 offset of a register whose value is `v`. -/
def State.returned (s : State) (off size v : Nat) : State := s.answer .ok (leBytes size (v / 2 ^ (8 * (off % 8))))

/-- A read that is served. TIME.COUNTER latches its upper half at a 4-byte read of the lower one, and a 4-byte read of the upper
half returns what was latched. -/
def State.readServed0 (s : State) (b : Blk) (n o off size : Nat) : State :=
  let v := s.regValue b n o
  if b == .time && o == 0 && size == 4 then
    if off % 8 == 0 then { s with host := { s.host with counterLatch := v / 2 ^ 32 } }.returned off 4 v
    else s.answer .ok (leBytes 4 s.host.counterLatch)
  else
    let (v, s) := s.laneMeasured b o v
    (s.clearRead b n o (unitMask off size)).returned off size v

/-- R485, R483: what an orphan window and a block with a stopped clock return: CELL.IDENT, CELL.SELFTEST, and zero elsewhere. -/
def State.readQuiet (s : State) (b : Blk) (n o off size : Nat) : State :=
  s.returned off size (if b == .cell && (o == 0 || o == 8) then s.regValue b n o else 0)

/-- R5, R439, R480: a read that ends as Unsupported Request. -/
def State.readRefused0 (s : State) : State := s.regAccess.answer .unsupported []

/-- R5, R439, R480, R481, R483: a host read of `size` bytes at a BAR0 offset. -/
def State.bar0Read (s : State) (off size : Nat) : State :=
  if s.held then s
  else if !unitOk off size then s.readRefused0
  else match blockOf (off / 8 * 8) with
    | none => s.readRefused0
    | some (b, n, o) =>
      match s.bar0Gate b n with
      | .serve => s.readServed0 b n o off size
      | .hold => s
      | .refuse => s.readRefused0
      | .dropped | .quiet => s.readQuiet b n o off size

/-- R5: RC_REGISTER_READ: a read of a register; its RC fields lose the bits returned. -/
def execRcRegisterRead (off size : Nat) (s : State) : Host.Outcome State Fault Refusal := .next <| s.bar0Read off size

/-- R482: TIME_COUNTER_LOW_READ: a 4-byte read of TIME.COUNTER bits [31:0]. -/
def execTimeCounterLowRead (s : State) : Host.Outcome State Fault Refusal := .next <| s.bar0Read 0x20000 4

end Sys2Proof.Machine
end

