-- ==== Sys2Proof/Machine/Settle.lean ====
section
/-! DEFINITION. Acknowledgements and refusals of packets at their senders (R101, R102, R262, R283, R345). -/
namespace Sys2Proof.Machine

/-- R101: ACK_PACKET: the request is settled. -/
def execAckPacket (i : Nat) (link : LinkErr) (s : State) : Host.Outcome State Fault Refusal :=
  .next <| s.arrive i [.ack] link fun s p =>
    match p.dst, p.reqKind with
    | .quad _, .msg => (s.dropPkt i).pieceSettled p.origin 0
    | _, _ => s.dropPkt i

/-- R102, R262, R283: REFUSE_PACKET. -/
def execRefusePacket (i : Nat) (link : LinkErr) (s : State) : Host.Outcome State Fault Refusal :=
  .next <| s.arrive i [.refuse] link fun s p =>
    let s := s.dropPkt i
    match p.dst, p.reqKind with
    | .cell id, .store | .cell id, .atomic => s.remoteRefused id p.origin
    | .cell id, .memreq => s.memSettled id p (bits p.arg.toNat 0 16)
    | .quad _, .msg => s.pieceSettled p.origin (bits p.arg.toNat 0 16)
    | e, .msg => s.sentRefused e
    | _, _ => s

end Sys2Proof.Machine
end

