-- ==== Sys2Proof/Machine/Xfer.lean ====
section
/-! DEFINITION. Transfers of the address generator: their checks (R194, R195, R199) and COPY, MAXPOOL, AVGPOOL and ARGMAX
(R196 to R198). -/
namespace Sys2Proof.Machine

/-! ### Where a transfer reads and writes -/

/-- R195: the place of an element: the cell's own memory, another cell's window, or a device address. -/
inductive Loc where
  | own (off : Nat)
  | rem (id off : Nat)
  | ext (a : Nat)
deriving DecidableEq, Repr

/-- R195: the place that an address of a descriptor names, for a transfer of cell `id`. -/
def locOf_ (id : Nat) (b : Bytes) (a : Nat) : Loc :=
  if !tdSpace b then .own a
  else match placeOf a with
    | .window i off => if i == id then .own off else .rem i off
    | _ => .ext a

/-- R276: the device address of a place. -/
def Loc.addr (id : Nat) : Loc → Nat
  | .own off => 0x010000000000 + id * 2 ^ 21 + off
  | .rem i off => 0x010000000000 + i * 2 ^ 21 + off
  | .ext a => a

/-- An element: its place, its bytes, and for a 4-bit format its nibble. -/
structure Elem where
  loc : Loc
  len : Nat
  nib : Nat := 0
  scale : Option Loc := none
deriving DecidableEq, Repr

/-- R165, R195: element `col` of a row of a tensor. -/
def elemAt (id : Nat) (b : Bytes) (row r col : Nat) : Elem :=
  let w := elemBits (tdFmt b)
  { loc := locOf_ id b (row + col * w / 8), len := if w == 4 then 1 else w / 8, nib := if w == 4 then col % 2 else 0,
    scale := if tdBscale b then some (locOf_ id b (tdBsBase b + r * tdBlocks b + col / 32)) else none }

/-- R195: element `i` of a tensor in ascending flattened index, dimension 0 fastest. -/
def elemNo (id : Nat) (b : Bytes) (i : Nat) : Elem :=
  let r := i / tdExt b 0
  elemAt id b (tdRow b r) r (i % tdExt b 0)

/-- Elements of a tensor. -/
def tdCount (b : Bytes) : Nat := tdExt b 0 * tdRows b

/-! ### The checks -/

/-- R165, R166, R195, R506: a tensor descriptor of a transfer: operand 0 the source or 2 the destination. -/
def CellMem.xfTensor (c : CellMem) (off operand : Nat) : Except (Nat × Nat) Bytes := do
  let hi := operand * 256
  need (off % 64 == 0 && off < lmSize) 0x3041 hi
  let b ← c.grab off 64
  let known := (Fmt.ofCode (tdFmt b)).isSome
  needAll 0x3041 hi (tdFields b true (fun _ => true) known true)
  need (tdAligned b) 0x3041 (hi + 8)
  let rows := tdRows b
  let cols := tdDim b 0
  needAll 0x3041 hi [(8, tdSpace b || !known || tdElemsIn b rows cols),
    (0x34, tdSpace b || !known || operand == 2 || tdScalesIn b rows cols)]
  .ok b

/-- R197: the output rows of a pooling window that lie in the layer, up to the destination's. -/
def poolRows (w dst : Bytes) : Nat := min (tdExt dst 2) (wdOutH w - wdOutY0 w)

/-- The pixel and tap triples that a pool reads. -/
def poolReads (w : Bytes) (rows : Nat) : List (Nat × Nat × Nat) :=
  (List.range rows).flatMap fun y => (List.range (wdRegW w)).flatMap fun x =>
    (List.range (wdTaps w)).map fun t => (wdOutY0 w + y, wdOutX0 w + x, t)

/-- The rows of channels that a pool reads at its taps: address and flattened index. -/
def poolRowsRead (w src : Bytes) (l : List (Nat × Nat × Nat)) : List (Nat × Nat) :=
  l.flatMap fun e => match wdTap w e.1 e.2.1 e.2.2 with
    | .at_ iy ix => (List.range (tdExt src 3)).map fun cb => wdRowOf w src cb iy ix
    | _ => []

/-- R189: the source of a pooling transfer: its window and the window's source tensor. -/
def CellMem.xfWindow (c : CellMem) (off dstOff : Nat) : Except (Nat × Nat) (Bytes × Bytes) := do
  need (off % 64 == 0 && off < lmSize) 0x3041 0
  let w ← c.grab off 64
  needAll 0x3041 0 (wdFields w true)
  let src ← c.wdSource 0x3041 w true
  needAll 0x3041 0 (wdJoint w src none)
  let dst := if dstOff % 64 == 0 && dstOff < lmSize then c.read dstOff 64 else []
  let l := poolReads w (poolRows w dst)
  needAll 0x3041 0 (wdTapsOk w src l)
  let rows := poolRowsRead w src l
  needAll 0x3041 0x300 [(8, rows.all fun r => r.1 + rowBytes (tdFmt src) (tdDim src 0) ≤ lmSize),
    (0x34, !tdBscale src || rows.all fun r => tdBsBase src + r.2 * tdBlocks src + tdBlocks src ≤ lmSize)]
  .ok (w, src)

/-- A transfer's operation and descriptors: a window for the pooling operations, empty otherwise. -/
structure XferIn where
  op : Nat
  win : Bytes
  src : Bytes
  dst : Bytes
deriving DecidableEq, Repr

/-- OP is MAXPOOL or AVGPOOL. -/
def isPool (op : Nat) : Bool := op == 1 || op == 2

/-- R199: check 3. -/
def XferIn.formatOk (i : XferIn) : List (Nat × Bool) :=
  let s := tdFmt i.src
  let d := tdFmt i.dst
  let argmax := i.op == 3
  let ch := tdExt i.src 0 * tdExt i.src 3
  [(1, s < 14 && d < 14), (1, i.op != 0 || (s == 0) == (d == 0)), (3, !tdBscale i.dst), (1, i.op == 0 || (s != 0 && d != 0)),
   (1, !argmax || d == 13 || (d == 5 && ch ≤ 256)), (4, !argmax || d == 13 || tdZp i.dst == 0)]

/-- R199: check 4. -/
def XferIn.shapeOk (i : XferIn) : List (Nat × Bool) :=
  let s := tdExt i.src
  let d := tdExt i.dst
  let at_ := fun k => 0x10 + 4 * k
  match i.op with
  | 0 => (2, tdRank i.src == tdRank i.dst) :: (List.range 5).map fun k => (at_ k, s k == d k)
  | 3 => [(at_ 0, d 0 == 1), (at_ 3, d 3 == 1), (at_ 1, d 1 == s 1), (at_ 2, d 2 == s 2), (at_ 4, d 4 == s 4)]
  | _ => [(at_ 0, d 0 == s 0), (at_ 3, d 3 == s 3), (at_ 1, d 1 == wdRegW i.win), (at_ 4, d 4 == 1),
          (at_ 2, decide (wdOutY0 i.win + d 2 ≤ wdOutH i.win))]

/-- The source elements that a transfer of cell `id` reads. -/
def XferIn.sources (i : XferIn) (id : Nat) : List Elem :=
  if isPool i.op then
    (poolRowsRead i.win i.src (poolReads i.win (poolRows i.win i.dst))).flatMap fun r =>
      (List.range (tdDim i.src 0)).map fun c => elemAt id i.src r.1 r.2 c
  else (List.range (tdCount i.src)).map (elemNo id i.src)

/-- The destination elements of a transfer. -/
def XferIn.dests (i : XferIn) (id : Nat) : List Elem := (List.range (tdCount i.dst)).map (elemNo id i.dst)

/-- The span of the bytes of a list of elements. -/
def spanOf (id : Nat) (l : List Elem) : Option (Nat × Nat) :=
  l.foldl (fun r e =>
    let lo := e.loc.addr id
    match r with
    | none => some (lo, lo + e.len)
    | some (a, b) => some (min a lo, max b (lo + e.len))) none

/-- R199: check 5. -/
def spansMeet (a b : Option (Nat × Nat)) : Bool :=
  match a, b with
  | some (x, y), some (u, v) => decide (x < v ∧ u < y)
  | _, _ => false

/-- R199, check 6: the places and lengths that one part of it judges, in element order. -/
def firstLoc (id code : Nat) (l : List (Loc × Nat)) (bad : Loc → Nat → Bool) : Except (Nat × Nat) Unit :=
  match l.find? fun e => bad e.1 e.2 with
  | none => .ok ()
  | some e => .error (code, e.1.addr id % 2 ^ 52)

/-- A place lies beyond the local memory of its window. -/
def Loc.pastLm : Loc → Nat → Bool
  | .own off, n | .rem _ off, n => decide (lmSize < off + n)
  | .ext _, _ => false

/-- The places that an element's read takes: its bytes and its block scale. -/
def Elem.reads (e : Elem) : List (Loc × Nat) := (e.loc, e.len) :: (e.scale.toList.map fun l => (l, 1))

/-- R199: check 6. -/
def CellMem.xfTargets (c : CellMem) (id : Nat) (src dst : List Elem) : Except (Nat × Nat) Unit := do
  let rs := src.flatMap Elem.reads
  let ds := dst.map fun e => (e.loc, e.len)
  firstLoc id 0x3032 rs fun l _ => match l with
    | .rem _ _ => true
    | _ => false
  firstLoc id 0x3033 ds fun l _ => match l with
    | .rem i _ => !isLogical i
    | _ => false
  firstLoc id 0x3030 (rs ++ ds) Loc.pastLm
  firstLoc id 0x3034 ds fun l n => match l with
    | .own off => c.inReplica off n
    | _ => false

/-- R199: check 1 on the descriptor's bytes. -/
def xfDescFields (d : Bytes) : List (Nat × Bool) :=
  (0, decide (fieldLE d 0 1 ≤ 3)) :: ([1, 2, 3].map fun o => (o, fieldLE d o 1 == 0))
  ++ ((List.range 52).map fun o => (0xC + o, fieldLE d (0xC + o) 1 == 0))

/-- R199: the checks at the start of a transfer. -/
def CellMem.xfChecks (c : CellMem) (id : Nat) (op : AsyncOp) : Except (Nat × Nat) (Bytes × List Bytes) := do
  let off := op.operand
  need (off % 64 == 0 && off < lmSize) 0x3040 off
  let d ← c.grab off 64
  needAll 0x3040 0 (xfDescFields d)
  let kind := fieldLE d 0 1
  let (w, src) ← if isPool kind then c.xfWindow (fieldLE d 4 4) (fieldLE d 8 4)
    else (c.xfTensor (fieldLE d 4 4) 0).map fun b => (([] : Bytes), b)
  let dst ← c.xfTensor (fieldLE d 8 4) 2
  let i : XferIn := { op := kind, win := w, src := src, dst := dst }
  needAll 0x3043 0 i.formatOk
  needAll 0x3042 0 i.shapeOk
  let se := i.sources id
  let de := i.dests id
  need (!spansMeet (spanOf id se) (spanOf id de)) 0x3044 8
  c.xfTargets id se de
  .ok (d, [w, src, dst])

/-! ### One transfer in progress -/

/-- R195: a transfer in progress: the fault that ended it, the bytes of host memory still to come, a nibble that waits for
its partner, and a run of bytes for another cell. -/
structure XferSt where
  s : State
  fault : Option (Nat × Nat) := none
  host : Bytes := []
  nib : Option Nat := none
  run : Option (Nat × Nat × Bytes) := none

/-- Ends a transfer with a fault. -/
def XferSt.stop (x : XferSt) (s : State) (code detail : Nat) : XferSt := { x with s := s, fault := some (code, detail) }

/-- R102, R262: bytes of a transfer stored into another cell; a refusal is counted. -/
def State.remotePut (s : State) (id dst off : Nat) (bs : Bytes) : State :=
  match s.closedOn (chOf id) (chOf dst) with
  | some e => (s.countEnd e).remoteRefused id {}
  | none =>
    let (s, cause) := s.inboundStore dst off bs
    if cause == 0 then s else s.remoteRefused id {}

/-- R256: the run of bytes held for another cell is sent. -/
def XferSt.flush (x : XferSt) (id : Nat) : XferSt :=
  match x.run with
  | none => x
  | some (dst, off, bs) => { x with s := x.s.remotePut id dst off bs, run := none }

/-- R281, R282: the covering region of an address for a transfer of a swarm, walked for where none is held. -/
def State.xferCover (s : State) (id slot a n : Nat) (write : Bool) : State × Except (Nat × Nat) Desc :=
  let ctx := (s.swarm id slot).ctx
  let judge := fun (d : Desc) => match d.check a n write with
    | 0 => Except.ok d
    | code => .error (code, 0)
  match placeOf a with
  | .regs | .hole => (s, .error (0x3001, 0))
  | _ =>
    match s.cover id ctx [] a with
    | .region d => (s, judge d)
    | .fail code detail => (s, .error (code, detail))
    | .walk =>
      let (s, r) := s.cellWalk id a
      let s := match r.desc with
        | some (d, p) => if d.has a then s.fillRegion id ctx d p else s
        | none => s
      match r.covers a with
      | .region d => (s, judge d)
      | .fail code detail => (s, .error (code, detail))
      | .walk => (s, .error (0x3002, 6))

/-- R195, R283: a read of a transfer. Bytes of host memory come with the command; where they run out the read has failed
(R458, R460). -/
def XferSt.read (x : XferSt) (id slot : Nat) (l : Loc) (n : Nat) : XferSt × Bytes :=
  if x.fault.isSome then (x, []) else
  match l with
  | .rem _ _ => (x, zeros n)
  | .own off =>
    let (s, bad) := x.s.lmReads id [(off, n)]
    if bad then (x.stop s 0x300A 0, []) else ({ x with s := s }, (s.cell id).read off n)
  | .ext a =>
    match x.s.xferCover id slot a n false with
    | (s, .error e) => (x.stop s e.1 e.2, [])
    | (s, .ok d) =>
      if d.host then
        if !s.linkUp then (x.stop s 0x300C 0xB009, [])
        else if x.host.length < n then (x.stop s 0x300C 0xB008, [])
        else ({ x with s := s, host := x.host.drop n }, x.host.take n)
      else
        let (s, r) := s.hbmFrom (chOf id) a n
        if r.code == 0 then ({ x with s := s }, r.data) else (x.stop s r.code r.cause, [])

/-- R195, R102, R283: a write of a transfer. -/
def XferSt.write (x : XferSt) (id slot : Nat) (l : Loc) (bs : Bytes) : XferSt :=
  if x.fault.isSome then x else
  match l with
  | .own off =>
    let (s, bad) := x.s.lmPut id off bs
    if bad then x.stop s 0x300A 0 else { x with s := s }
  | .rem i off =>
    match x.run with
    | some (j, o, r) =>
      if i == j && o + r.length == off && r.length + bs.length ≤ 512 then { x with run := some (j, o, r ++ bs) }
      else { x.flush id with run := some (i, off, bs) }
    | none => { x with run := some (i, off, bs) }
  | .ext a =>
    match x.s.xferCover id slot a bs.length true with
    | (s, .error e) => x.stop s e.1 e.2
    | (s, .ok d) =>
      if d.host then { x with s := s.hostWrite (d.bus a) bs }
      else
        let (s, cause) := s.hbmTo (chOf id) a bs
        if cause == 0 then { x with s := s } else x.stop (s.storeRefused id) 0x300C cause

/-- The value of a source element, and its bits. -/
def XferSt.value (x : XferSt) (id slot : Nat) (b : Bytes) (e : Elem) : XferSt × Val × Nat :=
  let (x, bs) := x.read id slot e.loc e.len
  let v := leNat bs
  let v := if elemBits (tdFmt b) == 4 then bits v (4 * e.nib) 4 else v
  match e.scale with
  | none => (x, tdValue b v none, v)
  | some l => let (x, sc) := x.read id slot l 1; (x, tdValue b v (some (leNat sc)), v)

/-- R47, R195: writes the bits of destination element `i`. A nibble waits for its partner in the row. -/
def XferSt.put (x : XferSt) (id slot : Nat) (dst : Bytes) (i v : Nat) : XferSt :=
  if x.fault.isSome then x else
  let e := elemNo id dst i
  if elemBits (tdFmt dst) != 4 then x.write id slot e.loc (leBytes e.len v)
  else if e.nib == 0 && i % tdExt dst 0 + 1 != tdExt dst 0 then { x with nib := some (v % 16) }
  else
    let b := if e.nib == 0 then v % 16 else x.nib.getD 0 + 16 * (v % 16)
    { x with nib := none }.write id slot e.loc (leBytes 1 b)

/-- R63, R195, R231: converts a value into the destination's format and writes it. -/
def XferSt.putVal (x : XferSt) (id slot : Nat) (dst : Bytes) (i : Nat) (v : Val) : XferSt :=
  if x.fault.isSome then x else
  match Fmt.ofCode (tdFmt dst) with
  | none => x
  | some f =>
    let c := encode f (zpField f (tdZp dst)) v
    { x with s := x.s.laneConv id slot c }.put id slot dst i c.out

/-! ### The four operations -/

/-- R196: COPY of element `k`. -/
def XferSt.copy (x : XferSt) (id slot : Nat) (i : XferIn) (k : Nat) : XferSt :=
  let (x, v, raw) := x.value id slot i.src (elemNo id i.src k)
  if tdFmt i.src == 0 then x.put id slot i.dst k raw
  else x.putVal id slot i.dst k (v.shift (-(tdTexp i.dst)))

/-- R197: value order: `a` is larger than `b`. -/
def Val.above (a b : Val) : Bool := if b.isNar then false else a.isNar || b.lt a

/-- R186, R197: the value of a tap; none where it is excluded. -/
def XferSt.tap (x : XferSt) (id slot : Nat) (i : XferIn) (oy ox t cb c : Nat) : XferSt × Option Val :=
  match wdTap i.win oy ox t with
  | .zero => (x, none)
  | .const => (x, some (tdValue i.src (wdPadValue i.win) none))
  | .at_ iy ix =>
    let (row, r) := wdRowOf i.win i.src cb iy ix
    let (x, v, _) := x.value id slot i.src (elemAt id i.src row r c)
    (x, some v)

/-- R197: the pooled value of a list of taps. -/
def poolValue (op taps : Nat) (avgDiv : Bool) (vs : List Val) : Val :=
  if op == 1 then
    match vs with
    | [] => .zero
    | v :: l => l.foldl (fun m v => if v.above m then v else m) v
  else
    match vs.foldl Val.add .zero with
    | .fin n sig e => Val.ratio n sig (if avgDiv then taps else vs.length) e
    | v => v

/-- R197: MAXPOOL and AVGPOOL of destination element `k`. -/
def XferSt.pool (x : XferSt) (id slot : Nat) (i : XferIn) (k : Nat) : XferSt :=
  let c := k % tdExt i.dst 0
  let px := k / tdExt i.dst 0 % tdExt i.dst 1
  let py := k / (tdExt i.dst 0 * tdExt i.dst 1) % tdExt i.dst 2
  let cb := k / (tdExt i.dst 0 * tdExt i.dst 1 * tdExt i.dst 2)
  let (x, vs) := (List.range (wdTaps i.win)).foldl (fun (r : XferSt × List Val) t =>
    let (x, v) := r.1.tap id slot i (wdOutY0 i.win + py) (wdOutX0 i.win + px) t cb c
    (x, r.2 ++ v.toList)) (x, [])
  x.putVal id slot i.dst k (poolValue i.op (wdTaps i.win) (wdAvgDiv i.win) vs)

/-- R198: ARGMAX of destination element `k`. -/
def XferSt.argmax (x : XferSt) (id slot : Nat) (i : XferIn) (k : Nat) : XferSt :=
  let e0 := tdExt i.src 0
  let e1 := tdExt i.src 1
  let e2 := tdExt i.src 2
  let px := k % e1
  let py := k / e1 % e2
  let img := k / (e1 * e2)
  let (x, best) := (List.range (tdExt i.src 3 * e0)).foldl (fun (r : XferSt × Option (Nat × Val)) ch =>
    let n := ch % e0 + e0 * (px + e1 * (py + e2 * (ch / e0 + tdExt i.src 3 * img)))
    let (x, v, _) := r.1.value id slot i.src (elemNo id i.src n)
    (x, match r.2 with
      | none => some (ch, v)
      | some (b, m) => if v.above m then some (ch, v) else some (b, m))) (x, none)
  x.put id slot i.dst k ((best.map (·.1)).getD 0)

/-- R195 to R198: the transfer, element by element, until a fault. -/
def XferSt.all (x : XferSt) (id slot : Nat) (i : XferIn) : XferSt :=
  ((List.range (tdCount i.dst)).foldl (fun x k =>
    if x.fault.isSome then x else
    match i.op with
    | 0 => x.copy id slot i k
    | 3 => x.argmax id slot i k
    | _ => x.pool id slot i k) x).flush id

/-! ### Start and completion -/

/-- R195, R199: the transfer at the front starts when none runs. -/
def State.xferStart (s : State) (id : Nat) : State :=
  let c := s.cell id
  match c.agRun, c.agQueue with
  | none, op :: rest =>
    let (s, r) : State × AsyncRun := match c.xfChecks id op with
      | .error e => (if e.1 == 0x300A then s.lmUceTold id else s, { op := op, fault := some e })
      | .ok (d, ts) =>
        (s.touchAll id ([op.operand, fieldLE d 4 4, fieldLE d 8 4]
          ++ (if isPool (fieldLE d 0 1) then [wdSrc (ts.getD 0 [])] else [])), { op := op, desc := d, tensors := ts })
    s.modCell id fun c => { c with agQueue := rest, agRun := some r }
  | _, _ => s

/-- R199: XFER_START. -/
def execXferStart (cell : BitVec 10) (s : State) : Host.Outcome State Fault Refusal :=
  let id := cell.toNat
  .next <| if s.cellRuns id then s.xferStart id else s

/-- R195: the transfer that runs completes. `host` is what host memory gives for its reads, in order. -/
def State.xferComplete (s : State) (id : Nat) (host : Bytes) : State :=
  match (s.cell id).agRun with
  | none => s
  | some run =>
    let t := fun n => run.tensors.getD n []
    let i : XferIn := { op := fieldLE run.desc 0 1, win := t 0, src := t 1, dst := t 2 }
    let x : XferSt := { s := s, fault := run.fault, host := host }
    let x := if run.fault.isSome then x else x.all id run.op.slot i
    let s := x.s.modCell id fun c => { c with agRun := none }
    (s.incr (Reg.cellAgStatusXfersDone (s.phys id))).asyncDone id run.op x.fault

/-- R195: XFER_COMPLETE. -/
def execXferComplete (cell : BitVec 10) (host : Bytes) (s : State) : Host.Outcome State Fault Refusal :=
  let id := cell.toNat
  .next <| if s.cellRuns id then s.xferComplete id host else s

end Sys2Proof.Machine
end

