-- ==== Sys2Proof/Machine/Dispatch.lean ====
section
/-! DEFINITION. The dispatch of every command to its meaning, one arm per constructor of Instr. -/
namespace Sys2Proof.Machine

def exec (i : Instr) (s : State) : Host.Outcome State Fault Refusal :=
  match i with
  | .bar0Write off size data => Sys2Proof.Machine.execBar0Write off size data s
  | .rcRegisterRead off size => Sys2Proof.Machine.execRcRegisterRead off size s
  | .timeCounterLowRead => Sys2Proof.Machine.execTimeCounterLowRead s
  | .bar2Read off len => Sys2Proof.Machine.execBar2Read off len s
  | .bar2Write off bytes => Sys2Proof.Machine.execBar2Write off bytes s
  | .imgLoad data => Sys2Proof.Machine.execImgLoad data s
  | .imgVerifyOnly data => Sys2Proof.Machine.execImgVerifyOnly data s
  | .imgPass1Done readOk => Sys2Proof.Machine.execImgPass1Done readOk s
  | .drainLimit => Sys2Proof.Machine.execDrainLimit s
  | .imgDrainDone => Sys2Proof.Machine.execImgDrainDone s
  | .imgApplyDone readOk bad => Sys2Proof.Machine.execImgApplyDone readOk bad s
  | .clearCells => Sys2Proof.Machine.execClearCells s
  | .clearLanes => Sys2Proof.Machine.execClearLanes s
  | .nop cell slot => Sys2Proof.Machine.execNop cell slot s
  | .valuI32 cell slot => Sys2Proof.Machine.execValuI32 cell slot s
  | .valuI32i cell slot => Sys2Proof.Machine.execValuI32i cell slot s
  | .valuP32 cell slot => Sys2Proof.Machine.execValuP32 cell slot s
  | .valuF32 cell slot => Sys2Proof.Machine.execValuF32 cell slot s
  | .vcmp cell slot => Sys2Proof.Machine.execVcmp cell slot s
  | .vcmpi cell slot => Sys2Proof.Machine.execVcmpi cell slot s
  | .vmov cell slot => Sys2Proof.Machine.execVmov cell slot s
  | .vmovi cell slot => Sys2Proof.Machine.execVmovi cell slot s
  | .cvt cell slot => Sys2Proof.Machine.execCvt cell slot s
  | .shfl cell slot => Sys2Proof.Machine.execShfl cell slot s
  | .ualu cell slot => Sys2Proof.Machine.execUalu cell slot s
  | .ualui cell slot => Sys2Proof.Machine.execUalui cell slot s
  | .ucmp cell slot => Sys2Proof.Machine.execUcmp cell slot s
  | .ucmpi cell slot => Sys2Proof.Machine.execUcmpi cell slot s
  | .umov cell slot => Sys2Proof.Machine.execUmov cell slot s
  | .umovi cell slot => Sys2Proof.Machine.execUmovi cell slot s
  | .mask cell slot => Sys2Proof.Machine.execMask cell slot s
  | .vote cell slot => Sys2Proof.Machine.execVote cell slot s
  | .upred cell slot => Sys2Proof.Machine.execUpred cell slot s
  | .ld cell slot => Sys2Proof.Machine.execLd cell slot s
  | .st cell slot => Sys2Proof.Machine.execSt cell slot s
  | .ldu cell slot => Sys2Proof.Machine.execLdu cell slot s
  | .stu cell slot => Sys2Proof.Machine.execStu cell slot s
  | .atom cell slot => Sys2Proof.Machine.execAtom cell slot s
  | .sendDynamic cell slot => Sys2Proof.Machine.execSendDynamic cell slot s
  | .sendStatic cell slot => Sys2Proof.Machine.execSendStatic cell slot s
  | .recvWait cell slot => Sys2Proof.Machine.execRecvWait cell slot s
  | .recvPoll cell slot => Sys2Proof.Machine.execRecvPoll cell slot s
  | .xfer cell slot => Sys2Proof.Machine.execXfer cell slot s
  | .sfu cell slot => Sys2Proof.Machine.execSfu cell slot s
  | .softmax cell slot => Sys2Proof.Machine.execSoftmax cell slot s
  | .rmsnormAccumFirst cell slot => Sys2Proof.Machine.execRmsnormAccumFirst cell slot s
  | .rmsnormAccum cell slot => Sys2Proof.Machine.execRmsnormAccum cell slot s
  | .rmsnormApply cell slot => Sys2Proof.Machine.execRmsnormApply cell slot s
  | .mx cell slot => Sys2Proof.Machine.execMx cell slot s
  | .mxfMma cell slot => Sys2Proof.Machine.execMxfMma cell slot s
  | .mxfZero cell slot => Sys2Proof.Machine.execMxfZero cell slot s
  | .mxfOut cell slot => Sys2Proof.Machine.execMxfOut cell slot s
  | .br cell slot => Sys2Proof.Machine.execBr cell slot s
  | .bri cell slot => Sys2Proof.Machine.execBri cell slot s
  | .loop cell slot => Sys2Proof.Machine.execLoop cell slot s
  | .loopx cell slot => Sys2Proof.Machine.execLoopx cell slot s
  | .modeset cell slot => Sys2Proof.Machine.execModeset cell slot s
  | .modeShadowEnd cell slot => Sys2Proof.Machine.execModeShadowEnd cell slot s
  | .fenceL cell slot => Sys2Proof.Machine.execFenceL cell slot s
  | .fenceC cell slot => Sys2Proof.Machine.execFenceC cell slot s
  | .fenceD cell slot => Sys2Proof.Machine.execFenceD cell slot s
  | .wait cell slot => Sys2Proof.Machine.execWait cell slot s
  | .exit cell slot => Sys2Proof.Machine.execExit cell slot s
  | .brk cell slot => Sys2Proof.Machine.execBrk cell slot s
  | .spawn cell slot => Sys2Proof.Machine.execSpawn cell slot s
  | .pwait cell slot => Sys2Proof.Machine.execPwait cell slot s
  | .pread cell slot => Sys2Proof.Machine.execPread cell slot s
  | .pwrite cell slot => Sys2Proof.Machine.execPwrite cell slot s
  | .rread cell slot => Sys2Proof.Machine.execRread cell slot s
  | .rwrite cell slot => Sys2Proof.Machine.execRwrite cell slot s
  | .pctlResume cell slot => Sys2Proof.Machine.execPctlResume cell slot s
  | .pctlResumeReissue cell slot => Sys2Proof.Machine.execPctlResumeReissue cell slot s
  | .pctlParkreq cell slot => Sys2Proof.Machine.execPctlParkreq cell slot s
  | .pctlKill cell slot => Sys2Proof.Machine.execPctlKill cell slot s
  | .parkCmdParkRequest window slot => Sys2Proof.Machine.execParkCmdParkRequest window slot s
  | .parkCmdResume window slot => Sys2Proof.Machine.execParkCmdResume window slot s
  | .parkCmdResumeReissue window slot => Sys2Proof.Machine.execParkCmdResumeReissue window slot s
  | .parkCmdKill window slot => Sys2Proof.Machine.execParkCmdKill window slot s
  | .requestedPark cell slot => Sys2Proof.Machine.execRequestedPark cell slot s
  | .swarmRelease cell slot => Sys2Proof.Machine.execSwarmRelease cell slot s
  | .mxStart cell => Sys2Proof.Machine.execMxStart cell s
  | .mxComplete cell => Sys2Proof.Machine.execMxComplete cell s
  | .xferStart cell => Sys2Proof.Machine.execXferStart cell s
  | .xferComplete cell host => Sys2Proof.Machine.execXferComplete cell host s
  | .regionWalkComplete cell slot => Sys2Proof.Machine.execRegionWalkComplete cell slot s
  | .storePacket idx link => Sys2Proof.Machine.execStorePacket idx link s
  | .atomicPacket idx link => Sys2Proof.Machine.execAtomicPacket idx link s
  | .atomicRspPacket idx link => Sys2Proof.Machine.execAtomicRspPacket idx link s
  | .msgPacket idx link => Sys2Proof.Machine.execMsgPacket idx link s
  | .msgRingWaitRelease idx => Sys2Proof.Machine.execMsgRingWaitRelease idx s
  | .ackPacket idx link => Sys2Proof.Machine.execAckPacket idx link s
  | .refusePacket idx link => Sys2Proof.Machine.execRefusePacket idx link s
  | .memreqPacket idx link => Sys2Proof.Machine.execMemreqPacket idx link s
  | .memrspPacket idx link => Sys2Proof.Machine.execMemrspPacket idx link s
  | .creditPacket idx link => Sys2Proof.Machine.execCreditPacket idx link s
  | .creditRestore idx link => Sys2Proof.Machine.execCreditRestore idx link s
  | .bridgeDiscard idx => Sys2Proof.Machine.execBridgeDiscard idx s
  | .regionSyncAll ch data => Sys2Proof.Machine.execRegionSyncAll ch data s
  | .regionSyncAddr ch data => Sys2Proof.Machine.execRegionSyncAddr ch data s
  | .regionSyncArrival cell => Sys2Proof.Machine.execRegionSyncArrival cell s
  | .scrubRead unit ecc => Sys2Proof.Machine.execScrubRead unit ecc s
  | .ftabWriteRow window data => Sys2Proof.Machine.execFtabWriteRow window data s
  | .ftabSetSlot window data => Sys2Proof.Machine.execFtabSetSlot window data s
  | .ftabClearSlot window data => Sys2Proof.Machine.execFtabClearSlot window data s
  | .ftabReadRow window data => Sys2Proof.Machine.execFtabReadRow window data s
  | .ftabCommandDone window => Sys2Proof.Machine.execFtabCommandDone window s
  | .scaleWrite window data => Sys2Proof.Machine.execScaleWrite window data s
  | .scaleRead window data => Sys2Proof.Machine.execScaleRead window data s
  | .scaleClearCount window data => Sys2Proof.Machine.execScaleClearCount window data s
  | .scaleCommandDone window => Sys2Proof.Machine.execScaleCommandDone window s
  | .govControlPeriod m => Sys2Proof.Machine.execGovControlPeriod m s
  | .droopTrip island => Sys2Proof.Machine.execDroopTrip island s
  | .voltageSettled island => Sys2Proof.Machine.execVoltageSettled island s
  | .govProfileWrite data => Sys2Proof.Machine.execGovProfileWrite data s
  | .profileApply ch => Sys2Proof.Machine.execProfileApply ch s
  | .govIsleWrite data => Sys2Proof.Machine.execGovIsleWrite data s
  | .govClockCheck ok => Sys2Proof.Machine.execGovClockCheck ok s
  | .junctionComparatorTrip => Sys2Proof.Machine.execJunctionComparatorTrip s
  | .isleStall sender receiver => Sys2Proof.Machine.execIsleStall sender receiver s
  | .feLaneSignal ch lane => Sys2Proof.Machine.execFeLaneSignal ch lane s
  | .feLaneLock ch lane => Sys2Proof.Machine.execFeLaneLock ch lane s
  | .ingLaneDown ch lane => Sys2Proof.Machine.execIngLaneDown ch lane s
  | .copyHeader ch lane header tap => Sys2Proof.Machine.execCopyHeader ch lane header tap s
  | .copyEof ch lane tail => Sys2Proof.Machine.execCopyEof ch lane tail s
  | .asmTimeout ch event => Sys2Proof.Machine.execAsmTimeout ch event s
  | .frameHandoff ch event => Sys2Proof.Machine.execFrameHandoff ch event s
  | .ingResync ch => Sys2Proof.Machine.execIngResync ch s
  | .ingResyncDone ch => Sys2Proof.Machine.execIngResyncDone ch s
  | .camFrameStart ch ctx frame hdr tap => Sys2Proof.Machine.execCamFrameStart ch ctx frame hdr tap s
  | .camLongPacket ch vc dt hdr payload crcOk full tap => Sys2Proof.Machine.execCamLongPacket ch vc dt hdr payload crcOk full tap s
  | .camFrameEnd ch ctx frame hdr tap => Sys2Proof.Machine.execCamFrameEnd ch ctx frame hdr tap s
  | .frameTimeout ch ctx => Sys2Proof.Machine.execFrameTimeout ch ctx s
  | .mergeTimeout ch => Sys2Proof.Machine.execMergeTimeout ch s
  | .camProcessStart ch => Sys2Proof.Machine.execCamProcessStart ch s
  | .camHandoff ch => Sys2Proof.Machine.execCamHandoff ch s
  | .sensorWriteDone ch ack => Sys2Proof.Machine.execSensorWriteDone ch ack s
  | .writeWindow ch => Sys2Proof.Machine.execWriteWindow ch s
  | .camRingPoll ch => Sys2Proof.Machine.execCamRingPoll ch s
  | .camResync ch => Sys2Proof.Machine.execCamResync ch s
  | .wglDetect quad lanes => Sys2Proof.Machine.execWglDetect quad lanes s
  | .wglTrainDone quad lanes => Sys2Proof.Machine.execWglTrainDone quad lanes s
  | .wglTrainTimeout quad => Sys2Proof.Machine.execWglTrainTimeout quad s
  | .wglAlignDone quad => Sys2Proof.Machine.execWglAlignDone quad s
  | .wglAlignTimeout quad => Sys2Proof.Machine.execWglAlignTimeout quad s
  | .wglInitFlit quad flit => Sys2Proof.Machine.execWglInitFlit quad flit s
  | .wglInitTimeout quad => Sys2Proof.Machine.execWglInitTimeout quad s
  | .wglRetrainCmd quad => Sys2Proof.Machine.execWglRetrainCmd quad s
  | .wglLaneLockLoss quad lane => Sys2Proof.Machine.execWglLaneLockLoss quad lane s
  | .wglRetrainTimeout quad => Sys2Proof.Machine.execWglRetrainTimeout quad s
  | .wglMarker quad lane portion parity symbols => Sys2Proof.Machine.execWglMarker quad lane portion parity symbols s
  | .wglMsgFlit quad flit fec tap => Sys2Proof.Machine.execWglMsgFlit quad flit fec tap s
  | .wglNullFlit quad flit => Sys2Proof.Machine.execWglNullFlit quad flit s
  | .wglNakFlit quad flit => Sys2Proof.Machine.execWglNakFlit quad flit s
  | .ackTimeout quad => Sys2Proof.Machine.execAckTimeout quad s
  | .msgHold quad => Sys2Proof.Machine.execMsgHold quad s
  | .wglData quad => Sys2Proof.Machine.execWglData quad s
  | .wglStore quad => Sys2Proof.Machine.execWglStore quad s
  | .wglChain quad => Sys2Proof.Machine.execWglChain quad s
  | .wglAnnounce quad => Sys2Proof.Machine.execWglAnnounce quad s
  | .wglMack quad => Sys2Proof.Machine.execWglMack quad s
  | .chainOutputPiece idx link => Sys2Proof.Machine.execChainOutputPiece idx link s
  | .chainForward idx => Sys2Proof.Machine.execChainForward idx s
  | .chainTimeout ch entry inst => Sys2Proof.Machine.execChainTimeout ch entry inst s
  | .syncInEdge => Sys2Proof.Machine.execSyncInEdge s
  | .timeEpochArm => Sys2Proof.Machine.execTimeEpochArm s
  | .timeEpochCancel => Sys2Proof.Machine.execTimeEpochCancel s
  | .mrefLock => Sys2Proof.Machine.execMrefLock s
  | .mrefLoss => Sys2Proof.Machine.execMrefLoss s
  | .counterSlew => Sys2Proof.Machine.execCounterSlew s
  | .beaconPeriod => Sys2Proof.Machine.execBeaconPeriod s
  | .beaconSync quad => Sys2Proof.Machine.execBeaconSync quad s
  | .beaconDelayReq quad => Sys2Proof.Machine.execBeaconDelayReq quad s
  | .beaconJoin quad => Sys2Proof.Machine.execBeaconJoin quad s
  | .beaconForm quad => Sys2Proof.Machine.execBeaconForm quad s
  | .beaconRefuse quad => Sys2Proof.Machine.execBeaconRefuse quad s
  | .beaconLeave quad => Sys2Proof.Machine.execBeaconLeave quad s
  | .beaconLost => Sys2Proof.Machine.execBeaconLost s
  | .groupStep => Sys2Proof.Machine.execGroupStep s
  | .formTimeout => Sys2Proof.Machine.execFormTimeout s
  | .groupLeave => Sys2Proof.Machine.execGroupLeave s
  | .groupRetry => Sys2Proof.Machine.execGroupRetry s
  | .countFire ch slot => Sys2Proof.Machine.execCountFire ch slot s
  | .dispArmGo ch data => Sys2Proof.Machine.execDispArmGo ch data s
  | .dispArmCancel ch slot => Sys2Proof.Machine.execDispArmCancel ch slot s
  | .triggerMessage idx link => Sys2Proof.Machine.execTriggerMessage idx link s
  | .resultPiece idx link => Sys2Proof.Machine.execResultPiece idx link s
  | .launchBegin ch ctx => Sys2Proof.Machine.execLaunchBegin ch ctx s
  | .launchSwarmCreate ch ctx host => Sys2Proof.Machine.execLaunchSwarmCreate ch ctx host s
  | .launchComplete ch ctx => Sys2Proof.Machine.execLaunchComplete ch ctx s
  | .deadline ch => Sys2Proof.Machine.execDeadline ch s
  | .preemptSaveStart ch ctx => Sys2Proof.Machine.execPreemptSaveStart ch ctx s
  | .preemptSaveDone ch ctx => Sys2Proof.Machine.execPreemptSaveDone ch ctx s
  | .contextRestore ch ctx => Sys2Proof.Machine.execContextRestore ch ctx s
  | .contextRestoreDone ch ctx => Sys2Proof.Machine.execContextRestoreDone ch ctx s
  | .sealManifestGo data => Sys2Proof.Machine.execSealManifestGo data s
  | .sealManifestDone => Sys2Proof.Machine.execSealManifestDone s
  | .sealComplete ch => Sys2Proof.Machine.execSealComplete ch s
  | .hrdOverflowEntry => Sys2Proof.Machine.execHrdOverflowEntry s
  | .hrdRearm => Sys2Proof.Machine.execHrdRearm s
  | .hrdReplayGo data stream => Sys2Proof.Machine.execHrdReplayGo data stream s
  | .hrdReplayEntry => Sys2Proof.Machine.execHrdReplayEntry s
  | .hrdReplayStop => Sys2Proof.Machine.execHrdReplayStop s
  | .safeArm data => Sys2Proof.Machine.execSafeArm data s
  | .safeDisarm data => Sys2Proof.Machine.execSafeDisarm data s
  | .safeUncurl data => Sys2Proof.Machine.execSafeUncurl data s
  | .armingComplete f selfTest => Sys2Proof.Machine.execArmingComplete f selfTest s
  | .armingTimeout f => Sys2Proof.Machine.execArmingTimeout f s
  | .comparatorDecision f => Sys2Proof.Machine.execComparatorDecision f s
  | .delayTimeout f => Sys2Proof.Machine.execDelayTimeout f s
  | .cmpInjection f ok => Sys2Proof.Machine.execCmpInjection f ok s
  | .delayScrub f side idx ok => Sys2Proof.Machine.execDelayScrub f side idx ok s
  | .tickClockCheck ok => Sys2Proof.Machine.execTickClockCheck ok s
  | .watchdog => Sys2Proof.Machine.execWatchdog s
  | .heartbeatSend f => Sys2Proof.Machine.execHeartbeatSend f s
  | .mirrorHeartbeat quad => Sys2Proof.Machine.execMirrorHeartbeat quad s
  | .mirrorRecord quad => Sys2Proof.Machine.execMirrorRecord quad s
  | .mirrorArm quad => Sys2Proof.Machine.execMirrorArm quad s
  | .mirrorCurl quad => Sys2Proof.Machine.execMirrorCurl quad s
  | .mirrorDisarm quad => Sys2Proof.Machine.execMirrorDisarm quad s
  | .partnerTimeout f => Sys2Proof.Machine.execPartnerTimeout f s
  | .simplexLimit f => Sys2Proof.Machine.execSimplexLimit f s
  | .hostQueueEnable data => Sys2Proof.Machine.execHostQueueEnable data s
  | .hostQueueDisable data => Sys2Proof.Machine.execHostQueueDisable data s
  | .sqTail queue data => Sys2Proof.Machine.execSqTail queue data s
  | .cqHead queue data => Sys2Proof.Machine.execCqHead queue data s
  | .drHead queue data => Sys2Proof.Machine.execDrHead queue data s
  | .hostSqFetch queue => Sys2Proof.Machine.execHostSqFetch queue s
  | .launch queue => Sys2Proof.Machine.execLaunch queue s
  | .launchInputDone queue => Sys2Proof.Machine.execLaunchInputDone queue s
  | .copyIn queue => Sys2Proof.Machine.execCopyIn queue s
  | .copyOut queue => Sys2Proof.Machine.execCopyOut queue s
  | .hostCopyDone queue => Sys2Proof.Machine.execHostCopyDone queue s
  | .flashWrite queue => Sys2Proof.Machine.execFlashWrite queue s
  | .flashWriteDone queue ok => Sys2Proof.Machine.execFlashWriteDone queue ok s
  | .fuseKey queue => Sys2Proof.Machine.execFuseKey queue s
  | .fuseRevoke queue => Sys2Proof.Machine.execFuseRevoke queue s
  | .fuseSigRequired queue => Sys2Proof.Machine.execFuseSigRequired queue s
  | .fwUpdate queue => Sys2Proof.Machine.execFwUpdate queue s
  | .fwUpdateDone queue => Sys2Proof.Machine.execFwUpdateDone queue s
  | .hostDrWrite queue => Sys2Proof.Machine.execHostDrWrite queue s
  | .hostReadCompletion idx ok bytes => Sys2Proof.Machine.execHostReadCompletion idx ok bytes s
  | .hostLinkDown => Sys2Proof.Machine.execHostLinkDown s
  | .functionLevelReset => Sys2Proof.Machine.execFunctionLevelReset s
  | .hotReset => Sys2Proof.Machine.execHotReset s
  | .perstN => Sys2Proof.Machine.execPerstN s
  | .porstNAssert => Sys2Proof.Machine.execPorstNAssert s
  | .porstNRelease b => Sys2Proof.Machine.execPorstNRelease b s
  | .railMonitor => Sys2Proof.Machine.execRailMonitor s
  | .hbmTrainingDone trained => Sys2Proof.Machine.execHbmTrainingDone trained s
  | .powerOnSelftestDone bad => Sys2Proof.Machine.execPowerOnSelftestDone bad s
  | .wrstN => Sys2Proof.Machine.execWrstN s
  | .resetCtlWarm => Sys2Proof.Machine.execResetCtlWarm s
  | .resetCtlChannel data => Sys2Proof.Machine.execResetCtlChannel data s
  | .channelResetDone => Sys2Proof.Machine.execChannelResetDone s
  | .resetCtlCell data => Sys2Proof.Machine.execResetCtlCell data s
  | .cellResetDone => Sys2Proof.Machine.execCellResetDone s
  | .pmbusTelemetry v => Sys2Proof.Machine.execPmbusTelemetry v s
  | .pmbAlertN status => Sys2Proof.Machine.execPmbAlertN status s
  | .mgmtIdent => Sys2Proof.Machine.execMgmtIdent s
  | .mgmtStatus => Sys2Proof.Machine.execMgmtStatus s
  | .mgmtJunctionTemp => Sys2Proof.Machine.execMgmtJunctionTemp s
  | .mgmtHbmTemp => Sys2Proof.Machine.execMgmtHbmTemp s
  | .mgmtPower => Sys2Proof.Machine.execMgmtPower s
  | .mgmtProfile => Sys2Proof.Machine.execMgmtProfile s
  | .mgmtSafeState => Sys2Proof.Machine.execMgmtSafeState s
  | .mgmtLastCode => Sys2Proof.Machine.execMgmtLastCode s
  | .mgmtAlertResponse => Sys2Proof.Machine.execMgmtAlertResponse s
  | .tapReset => Sys2Proof.Machine.execTapReset s
  | .bypass => Sys2Proof.Machine.execBypass s
  | .idcode => Sys2Proof.Machine.execIdcode s
  | .samplePreload => Sys2Proof.Machine.execSamplePreload s
  | .extest => Sys2Proof.Machine.execExtest s
  | .clamp => Sys2Proof.Machine.execClamp s
  | .highz => Sys2Proof.Machine.execHighz s
  | .reservedOpcode cell slot => Sys2Proof.Machine.execReservedOpcode cell slot s
  | .dataBlock ch lane block => Sys2Proof.Machine.execDataBlock ch lane block s
  | .framingFailure ch lane => Sys2Proof.Machine.execFramingFailure ch lane s
  | .inDeviceAnnounce idx => Sys2Proof.Machine.execInDeviceAnnounce idx s
  | .completionTimeout idx => Sys2Proof.Machine.execCompletionTimeout idx s
  | .hostLinkUp speed width flit => Sys2Proof.Machine.execHostLinkUp speed width flit s
  | .bar2Resize log2 => Sys2Proof.Machine.execBar2Resize log2 s
  | .msiXUnmask vector => Sys2Proof.Machine.execMsiXUnmask vector s
  | .startUpSelfTestDone f ok => Sys2Proof.Machine.execStartUpSelfTestDone f ok s

end Sys2Proof.Machine
end

