-- ==== Sys2Proof/Machine/Tick.lean ====
section
/-! DEFINITION. One tick of the global counter. -/
namespace Sys2Proof.Machine

/-- R355: the counter counts ticks while the device is out of power-on reset. A slew in progress counts the ticks since its
last correction (R357), and up to 160 bytes of Hoard staging are written out (R407). -/
def idleTick (s : State) : State :=
  if s.pwr.running then
    { s with counter := s.counter + 1,
             time := { s.time with slewTick := if s.time.slew == 0 then 0 else s.time.slewTick + 1 },
             hrd := { s.hrd with staging := s.hrd.staging - 160 } }
  else s

end Sys2Proof.Machine
end

