-- ==== Sys2Proof/Safety.lean ====
section
/-! DEFINITION. What a safe run keeps, and the terms in which the statements about the machine are said: the canonical form of the
memories, the fuses, the forms of instruction words, where a swarm stands, and what an instruction leaves as it is. -/
namespace Sys2Proof.Machine

/-! ### Memory and fuses -/

/-- The canonical form of every addressed memory: the registers, the HBM, what the device wrote to host memory, and the local
memory of every cell. Equal memories are equal lists. -/
def State.memWf (s : State) : Bool :=
  swf 0 s.regs && swf 0 s.hbm && swf 0 s.host.mem && swf {} s.cells && s.cells.all fun e => swf 0 e.2.lm

/-- R31, R451: no fuse of `f` is clear in `g`. -/
def Fuses.within (f g : Fuses) : Bool :=
  (!f.sigRequired || g.sigRequired) && f.keyValid &&& g.keyValid == f.keyValid && f.keyRevoked &&& g.keyRevoked == f.keyRevoked

/-- One byte of HBM. -/
def State.hbmByte (s : State) (a : Nat) : Byte := sget 0 s.hbm a

/-- One byte of what the device wrote to host memory. -/
def State.hostByte (s : State) (a : Nat) : Byte := sget 0 s.host.mem a

/-- One byte of the local memory of a physical cell. -/
def State.lmByte (s : State) (p a : Nat) : Byte := sget 0 (sget {} s.cells p).lm a

/-- Every byte of the HBM, of host memory and of every local memory reads as before. -/
structure KeepsBytes (s t : State) : Prop where
  hbm : ∀ a, t.hbmByte a = s.hbmByte a
  host : ∀ a, t.hostByte a = s.hostByte a
  lm : ∀ p a, t.lmByte p a = s.lmByte p a

/-- The little-endian number in `n` bytes of a physical cell's local memory. -/
def State.lmNat (s : State) (p a n : Nat) : Nat := leNat ((List.range n).map fun j => s.lmByte p (a + j))

/-! ### Instruction words (R134) -/

/-- A word of the R format. -/
def rWord (op g fn d a b c : Nat) : Nat :=
  op * 2 ^ 56 + g * 2 ^ 53 + fn * 2 ^ 48 + d * 2 ^ 40 + a * 2 ^ 32 + b * 2 ^ 24 + c * 2 ^ 16

/-- A word of the I format. -/
def iWord (op g fn d a imm : Nat) : Nat := op * 2 ^ 56 + g * 2 ^ 53 + fn * 2 ^ 48 + d * 2 ^ 40 + a * 2 ^ 32 + imm

/-- A word of the M format: DATA `d`, BASE `a`, IDX `b`, MFMT, RFMT, ZP, SHIFT, NOIDX, SPACE and W. -/
def mWord (op g fn d a b mf rf zp sh ni sp wd : Nat) : Nat :=
  op * 2 ^ 56 + g * 2 ^ 53 + fn * 2 ^ 48 + d * 2 ^ 40 + a * 2 ^ 32 + b * 2 ^ 24 + mf * 2 ^ 20 + rf * 2 ^ 16 + zp * 2 ^ 8
    + sh * 2 ^ 6 + ni * 2 ^ 5 + sp * 2 ^ 4 + wd * 2

/-- R95, R122, R163: a swarm that can issue stands at the word `x`, whose fetch meets no error; nothing is due at the boundary after it
(R125, R126), and the placement is allowed (R123). -/
def State.stands (s : State) (id slot x : Nat) (isC isBranch : Bool) : Bool :=
  let w := s.swarm id slot
  s.cellRuns id && w.ready && decide (w.pc < 0x180000) && (wordsOf w.pc 8).all (fun n => sget 0 (s.cell id).lmErr n == 0)
    && (s.cell id).word w.pc == x && !w.misplaced isC isBranch && w.fetching.isEmpty && w.asyncFaults.isEmpty && w.parkReq.isNone

/-- R135: lane registers that a word names lie within V, and in the eight bits of a field. -/
def Swarm.holds (w : Swarm) (l : List Nat) : Bool := l.all fun r => decide (r < w.V) && decide (r < 256)

/-- R130, R382: a park of the swarm ends no launch: it goes to the supervisor of its cell, or the swarm belongs to no launch. -/
def State.parksAlone (s : State) (id slot : Nat) : Bool :=
  (s.swarm id slot).ctx.isNone
    || (slot != 0 && s.handler id && ((s.swarm id 0).st == .active || (s.swarm id 0).st == .parked))

/-! ### What an instruction changes -/

/-- Only one swarm of one cell changes, and no byte of memory. -/
structure OnlySwarm (s t : State) (id slot : Nat) : Prop where
  state : t = s.modSwarm id slot fun _ => t.swarm id slot
  bytes : KeepsBytes s t

/-- No swarm changes but one slot of one physical cell. -/
def KeepsSwarms (s t : State) (id slot : Nat) : Prop :=
  ∀ i k, s.phys i ≠ s.phys id ∨ k ≠ slot → t.swarm i k = s.swarm i k

/-- No register changes but the counters of a physical cell that lane instructions and conversions keep: CVT_STATUS, LM_STATUS and
QSAT_STATUS. -/
def KeepsRegs (s t : State) (p : Nat) : Prop :=
  ∀ o, o ∉ [(Reg.cellCvtStatusOvf p).off, (Reg.cellLmStatusExtraPasses p).off, (Reg.cellQsatStatusQsat p).off] → t.reg o = s.reg o

/-- R117, R120: the active lanes of lane register `d` take the values `f`; every other lane, register, mask and predicate of the
swarm, every other swarm and every byte of memory stay, and the swarm goes on to its next offset. -/
structure WritesLanes (s t : State) (id slot g d : Nat) (f : Nat → Nat) : Prop where
  only : OnlySwarm s t id slot
  rest : t.swarm id slot = { (s.swarm id slot).advance none with v := (t.swarm id slot).v }
  lane : ∀ n i, i < 32 → (t.swarm id slot).vreg n i =
    if n = d ∧ bitAt ((s.swarm id slot).preg g) i = true then f i % 2 ^ 32 else (s.swarm id slot).vreg n i

/-- R120: uniform register `d` takes the value `v`, and nothing else changes but the swarm's offset. -/
structure WritesUniform (s t : State) (id slot d v : Nat) : Prop where
  only : OnlySwarm s t id slot
  rest : t.swarm id slot = { (s.swarm id slot).advance none with u := (t.swarm id slot).u }
  reg : ∀ n, (t.swarm id slot).ureg n = if n = d then v % 2 ^ 64 else (s.swarm id slot).ureg n

/-- R120: mask `d` takes the bits `f`, and nothing else changes but the swarm's offset. -/
structure WritesMask (s t : State) (id slot d : Nat) (f : Nat → Bool) : Prop where
  only : OnlySwarm s t id slot
  rest : t.swarm id slot = { (s.swarm id slot).advance none with p := (t.swarm id slot).p }
  mask : ∀ n i, i < 32 → bitAt ((t.swarm id slot).preg n) i = if n = d then f i else bitAt ((s.swarm id slot).preg n) i

/-- R120: uniform predicate `d` takes the value `b`, and nothing else changes but the swarm's offset. -/
structure WritesPred (s t : State) (id slot d : Nat) (b : Bool) : Prop where
  only : OnlySwarm s t id slot
  rest : t.swarm id slot = { (s.swarm id slot).advance none with up := (t.swarm id slot).up }
  pred : ∀ n, n < 4 → (t.swarm id slot).upred n = if n = d then b else (s.swarm id slot).upred n

/-! ### Packets -/

/-- Table 14-5: the MEMREQ that one lane 0 access of `n` bytes at an HBM address sends; `write` is 1 for a store of `data`. -/
def hbmRequest (id slot addr n write : Nat) (data : Bytes) : Packet :=
  { kind := .memreq, src := .cell id, dst := .stack (stackOf addr),
    arg := BitVec.ofNat 64 (addr + write * 2 ^ 52 + (n - 1) * 2 ^ 53), payload := data,
    origin := { slot := slot, scope := if addr / 2 ^ 37 = chOf id then 1 else 2, use := write } }

/-- One packet joins those on the mesh, behind them. -/
def Sends (s t : State) (p : Packet) : Prop := ∃ b, t.pkts = s.pkts ++ [{ p with wasOpen := b }]

end Sys2Proof.Machine
end

