-- ==== Sys2Proof/Certificates/Slice0/Obligations.lean ====
section
/-! DEFINITION. The statements about the machine, for the provers. -/

open Sys2Proof Sys2Proof.Machine

/-- R142, R117, R135, R120: VALU.I32 and VALU.I32I complete for every word that R135 and R136 accept: the active lanes of v[D] take
the result of Table 07-4 on v[A] and v[B], or IMM32; every other register, mask, predicate and swarm, every byte of memory and
every other part of the state stay, and the swarm goes on to its next offset. -/
def Obligations.LaneIntegers : Prop :=
  ∀ (s : State) (cell : BitVec 10) (slot : BitVec 4) (g fn d a b c imm : Nat),
    let id := cell.toNat
    let k := slot.toNat
    let w := s.swarm id k
    (g < 8 → fn ≤ 20 → w.holds [d, a, b, c] = true → (17 ≤ fn → b = 0) → (fn ≠ 5 → c = 0) →
      s.stands id k (rWord 0x10 g fn d a b c) false false = true →
      ∃ t, exec (.valuI32 cell slot) s = .next t ∧
        WritesLanes s t id k g d fun i => intOp 32 fn (w.vreg a i) (w.vreg b i) (w.vreg c i)) ∧
    (g < 8 → fn ≤ 16 → fn ≠ 5 → w.holds [d, a] = true → imm < 2 ^ 32 →
      s.stands id k (iWord 0x11 g fn d a imm) false false = true →
      ∃ t, exec (.valuI32i cell slot) s = .next t ∧ WritesLanes s t id k g d fun i => intOp 32 fn (w.vreg a i) imm 0)

/-- R142, R120: UALU and UALUI complete for every word that R136 accepts: u[D] takes the 64-bit result of Table 07-4 on u[A] and
u[B], or IMM32 sign-extended; nothing else changes but the swarm's offset. -/
def Obligations.UniformIntegers : Prop :=
  ∀ (s : State) (cell : BitVec 10) (slot : BitVec 4) (fn d a b c imm : Nat),
    let id := cell.toNat
    let k := slot.toNat
    let w := s.swarm id k
    (fn ≤ 20 → d < 64 → a < 64 → b < 64 → c < 64 → (17 ≤ fn → b = 0) → (fn ≠ 5 → c = 0) →
      s.stands id k (rWord 0x20 0 fn d a b c) false false = true →
      ∃ t, exec (.ualu cell slot) s = .next t ∧ WritesUniform s t id k d (intOp 64 fn (w.ureg a) (w.ureg b) (w.ureg c))) ∧
    (fn ≤ 16 → fn ≠ 5 → d < 64 → a < 64 → imm < 2 ^ 32 → s.stands id k (iWord 0x21 0 fn d a imm) false false = true →
      ∃ t, exec (.ualui cell slot) s = .next t ∧
        WritesUniform s t id k d (intOp 64 fn (w.ureg a) ((BitVec.ofNat 32 imm).signExtend 64).toNat 0))

/-- R142, Table 07-4: at both widths, the operations 0 to 20 give sum, difference, low product, signed and unsigned high product,
multiply-add, AND, OR, XOR, AND NOT, the three shifts with counts at or above the width, signed and unsigned minimum and
maximum, absolute value, negation, leading zeros (the width for zero) and set bits, modulo the width. -/
def Obligations.IntegerOperations : Prop :=
  ∀ (n : Nat), n = 32 ∨ n = 64 → ∀ (a b c : BitVec n),
    intOp n 0 a.toNat b.toNat c.toNat = (a + b).toNat ∧
    intOp n 1 a.toNat b.toNat c.toNat = (a - b).toNat ∧
    intOp n 2 a.toNat b.toNat c.toNat = (a * b).toNat ∧
    intOp n 3 a.toNat b.toNat c.toNat = (BitVec.ofInt n (a.toInt * b.toInt / 2 ^ n)).toNat ∧
    intOp n 4 a.toNat b.toNat c.toNat = a.toNat * b.toNat / 2 ^ n ∧
    intOp n 5 a.toNat b.toNat c.toNat = (a * b + c).toNat ∧
    intOp n 6 a.toNat b.toNat c.toNat = (a &&& b).toNat ∧
    intOp n 7 a.toNat b.toNat c.toNat = (a ||| b).toNat ∧
    intOp n 8 a.toNat b.toNat c.toNat = (a ^^^ b).toNat ∧
    intOp n 9 a.toNat b.toNat c.toNat = (a &&& ~~~b).toNat ∧
    intOp n 10 a.toNat b.toNat c.toNat = (a <<< b.toNat).toNat ∧
    intOp n 11 a.toNat b.toNat c.toNat = (a >>> b.toNat).toNat ∧
    intOp n 12 a.toNat b.toNat c.toNat = (a.sshiftRight b.toNat).toNat ∧
    intOp n 13 a.toNat b.toNat c.toNat = (if a.toInt ≤ b.toInt then a else b).toNat ∧
    intOp n 14 a.toNat b.toNat c.toNat = (if a.toInt ≤ b.toInt then b else a).toNat ∧
    intOp n 15 a.toNat b.toNat c.toNat = min a.toNat b.toNat ∧
    intOp n 16 a.toNat b.toNat c.toNat = max a.toNat b.toNat ∧
    intOp n 17 a.toNat b.toNat c.toNat = (if a.toInt < 0 then -a else a).toNat ∧
    intOp n 18 a.toNat b.toNat c.toNat = (-a).toNat ∧
    (a = 0 → intOp n 19 a.toNat b.toNat c.toNat = n) ∧
    (a ≠ 0 → intOp n 19 a.toNat b.toNat c.toNat < n ∧
      2 ^ (n - 1 - intOp n 19 a.toNat b.toNat c.toNat) ≤ a.toNat ∧
      a.toNat < 2 ^ (n - intOp n 19 a.toNat b.toNat c.toNat)) ∧
    intOp n 20 a.toNat b.toNat c.toNat = ((List.range n).filter fun i => a.getLsbD i).length

/-- R143, R57, R58, R61: VALU.P32 and VALU.F32 complete for every listed FN: the active lanes of v[D] take the exact result rounded
once; a NaR operand of a POSIT32 operation gives NaR, a NaN operand of an FP32 operation the canonical NaN, and a zero FP32
result is +0. -/
def Obligations.LaneFloats : Prop :=
  (∀ (s : State) (cell : BitVec 10) (slot : BitVec 4) (g fn d a b c : Nat),
    let id := cell.toNat
    let k := slot.toNat
    let w := s.swarm id k
    g < 8 → fn ∈ [0, 1, 2, 3, 13, 14, 17, 18] → w.holds [d, a, b, c] = true → (17 ≤ fn → b = 0) → (fn ≠ 3 → c = 0) →
    (s.stands id k (rWord 0x12 g fn d a b c) false false = true →
      ∃ t, exec (.valuP32 cell slot) s = .next t ∧
        WritesLanes s t id k g d fun i => (encode .posit32 0 (floatVal fn (positDec 32 (w.vreg a i)) (positDec 32 (w.vreg b i))
          (positDec 32 (w.vreg c i)))).out) ∧
    (s.stands id k (rWord 0x13 g fn d a b c) false false = true →
      ∃ t, exec (.valuF32 cell slot) s = .next t ∧
        WritesLanes s t id k g d fun i => (encode .fp32 0 (floatVal fn (ieeeDec .fp32 (w.vreg a i)) (ieeeDec .fp32 (w.vreg b i))
          (ieeeDec .fp32 (w.vreg c i)))).out)) ∧
  (∀ fn a b c, (fn ∈ [0, 1, 2, 3, 13, 14] ∧ (a % 2 ^ 32 = 2 ^ 31 ∨ b % 2 ^ 32 = 2 ^ 31)) ∨ (fn = 3 ∧ c % 2 ^ 32 = 2 ^ 31) ∨
      (fn ∈ [17, 18] ∧ a % 2 ^ 32 = 2 ^ 31) → floatOp .posit32 fn a b c = 2 ^ 31) ∧
  (∀ fn a b c, let nan := fun x : Nat => bits x 23 8 = 255 ∧ x % 2 ^ 23 ≠ 0
    (fn ∈ [0, 1, 2, 3, 13, 14] ∧ (nan a ∨ nan b)) ∨ (fn = 3 ∧ nan c) ∨ (fn ∈ [17, 18] ∧ nan a) →
      floatOp .fp32 fn a b c = 0x7FC00000) ∧
  (∀ fn a b c, floatOp .fp32 fn a b c ≠ 2 ^ 31)

/-- R144: VCMP and VCMPI set the bits of p[D] in the active lanes to the outcome of COND and keep the bits of the others; UCMP and
UCMPI write up[D]; nothing else changes but the swarm's offset. COND 0 to 5 are EQ, NE, LT, LE, GT and GE of the signed order
(TYPE 0 and POSIT32) or the unsigned order (TYPE 1); an FP32 NaN gives false for every COND except NE, and −0 equals +0. -/
def Obligations.Compares : Prop :=
  (∀ (s : State) (cell : BitVec 10) (slot : BitVec 4) (g ty cond d a b imm : Nat),
     let id := cell.toNat
     let k := slot.toNat
     let w := s.swarm id k
     g < 8 → ty < 4 → cond ≤ 5 → d < 8 → imm < 2 ^ 32 →
     (w.holds [a, b] = true → s.stands id k (rWord 0x14 g (8 * ty + cond) d a b 0) false false = true →
       ∃ t, exec (.vcmp cell slot) s = .next t ∧ WritesMask s t id k d fun i =>
         if bitAt (w.preg g) i then cmpOp ty cond 32 (w.vreg a i) (w.vreg b i) else bitAt (w.preg d) i) ∧
     (w.holds [a] = true → s.stands id k (iWord 0x15 g (8 * ty + cond) d a imm) false false = true →
       ∃ t, exec (.vcmpi cell slot) s = .next t ∧ WritesMask s t id k d fun i =>
         if bitAt (w.preg g) i then cmpOp ty cond 32 (w.vreg a i) imm else bitAt (w.preg d) i) ∧
     (ty < 2 → d < 4 → a < 64 → b < 64 → s.stands id k (rWord 0x22 0 (8 * ty + cond) d a b 0) false false = true →
       ∃ t, exec (.ucmp cell slot) s = .next t ∧ WritesPred s t id k d (cmpOp ty cond 64 (w.ureg a) (w.ureg b))) ∧
     (ty < 2 → d < 4 → a < 64 → s.stands id k (iWord 0x23 0 (8 * ty + cond) d a imm) false false = true →
       ∃ t, exec (.ucmpi cell slot) s = .next t ∧
         WritesPred s t id k d (cmpOp ty cond 64 (w.ureg a) ((BitVec.ofNat 32 imm).signExtend 64).toNat))) ∧
  (∀ (n : Nat), n = 32 ∨ n = 64 → ∀ (a b : BitVec n),
    (∀ ty, ty = 0 ∨ ty = 2 →
      cmpOp ty 0 n a.toNat b.toNat = (a == b) ∧ cmpOp ty 1 n a.toNat b.toNat = (a != b) ∧
      cmpOp ty 2 n a.toNat b.toNat = a.slt b ∧ cmpOp ty 3 n a.toNat b.toNat = a.sle b ∧
      cmpOp ty 4 n a.toNat b.toNat = b.slt a ∧ cmpOp ty 5 n a.toNat b.toNat = b.sle a) ∧
    cmpOp 1 0 n a.toNat b.toNat = (a == b) ∧ cmpOp 1 1 n a.toNat b.toNat = (a != b) ∧
    cmpOp 1 2 n a.toNat b.toNat = a.ult b ∧ cmpOp 1 3 n a.toNat b.toNat = a.ule b ∧
    cmpOp 1 4 n a.toNat b.toNat = b.ult a ∧ cmpOp 1 5 n a.toNat b.toNat = b.ule a) ∧
  (∀ a b cond, let nan := fun x : Nat => bits x 23 8 = 255 ∧ x % 2 ^ 23 ≠ 0
    cond ≤ 5 → (nan a ∨ nan b) → cmpOp 3 cond 32 a b = (cond == 1)) ∧
  cmpOp 3 0 32 (2 ^ 31) 0 = true

/-- R146: VOTE ANY writes up[D] := ((p[A] AND GUARD) ≠ 0), VOTE ALL writes up[D] := ((p[A] AND GUARD) = GUARD); with no active lane,
ANY gives false and ALL gives true. Nothing else changes but the swarm's offset. -/
def Obligations.Vote : Prop :=
  ∀ (s : State) (cell : BitVec 10) (slot : BitVec 4) (g fn d a : Nat),
    let id := cell.toNat
    let k := slot.toNat
    let w := s.swarm id k
    g < 8 → fn ≤ 1 → d < 4 → a < 8 → s.stands id k (rWord 0x29 g fn d a 0 0) false false = true →
    ∃ t, exec (.vote cell slot) s = .next t ∧
      WritesPred s t id k d (if fn = 0 then decide (w.preg a &&& w.preg g ≠ 0) else decide (w.preg a &&& w.preg g = w.preg g)) ∧
      (w.preg g = 0 → (t.swarm id k).upred d = decide (fn = 1))

/-- R145: MAND, MOR, MXOR, MANDN, MNOT and MMOV write p[D]; MSPLIT writes pt := pg AND pc and pf := pg AND NOT pc, pt alone where D
= A; MFROMU writes p[D] from bits [31:0] of u[A]; MTOU writes u[D] from p[A], zero-extended; the UPRED operations write up[D].
They are unguarded, and nothing else changes but the swarm's offset. -/
def Obligations.MasksAndPredicates : Prop :=
  ∀ (s : State) (cell : BitVec 10) (slot : BitVec 4) (fn d a b c : Nat),
    let id := cell.toNat
    let k := slot.toNat
    let w := s.swarm id k
    let x := bitAt (w.preg a)
    let y := bitAt (w.preg b)
    (d < 8 → a < 8 →
      (b < 8 → fn ≤ 3 → s.stands id k (rWord 0x28 0 fn d a b 0) false false = true →
        ∃ t, exec (.mask cell slot) s = .next t ∧ WritesMask s t id k d fun i =>
          if fn = 0 then x i && y i else if fn = 1 then x i || y i else if fn = 2 then xor (x i) (y i) else x i && !y i) ∧
      (s.stands id k (rWord 0x28 0 4 d a 0 0) false false = true →
        ∃ t, exec (.mask cell slot) s = .next t ∧ WritesMask s t id k d fun i => !x i) ∧
      (s.stands id k (rWord 0x28 0 5 d a 0 0) false false = true →
        ∃ t, exec (.mask cell slot) s = .next t ∧ WritesMask s t id k d x) ∧
      (b < 8 → c < 8 → s.stands id k (rWord 0x28 0 6 d a b c) false false = true →
        ∃ t, exec (.mask cell slot) s = .next t ∧ OnlySwarm s t id k ∧
          t.swarm id k = { w.advance none with p := (t.swarm id k).p } ∧
          ∀ n i, i < 32 → bitAt ((t.swarm id k).preg n) i =
            if n = d then y i && bitAt (w.preg c) i else if n = a then y i && !bitAt (w.preg c) i else bitAt (w.preg n) i)) ∧
    (d < 8 → a < 64 → s.stands id k (rWord 0x28 0 7 d a 0 0) false false = true →
      ∃ t, exec (.mask cell slot) s = .next t ∧ WritesMask s t id k d (bitAt (w.ureg a))) ∧
    (d < 64 → a < 8 → s.stands id k (rWord 0x28 0 8 d a 0 0) false false = true →
      ∃ t, exec (.mask cell slot) s = .next t ∧ WritesUniform s t id k d (w.preg a)) ∧
    (fn ≤ 5 → d < 4 → a < 4 → b < 4 → (3 < fn → a = 0) → (2 < fn → b = 0) →
      s.stands id k (rWord 0x2A 0 fn d a b 0) false false = true →
      ∃ t, exec (.upred cell slot) s = .next t ∧ WritesPred s t id k d (
        if fn = 0 then w.upred a && w.upred b else if fn = 1 then w.upred a || w.upred b
        else if fn = 2 then xor (w.upred a) (w.upred b) else if fn = 3 then !w.upred a else decide (fn = 4)))

/-- R147: VMOV copies a lane register, a uniform register's low half or the lane number, or selects by a mask; VMOVI writes IMM32;
UMOV copies a uniform register, one lane, MODE, or the cell id, slot and V; UMOVI writes IMM32 sign-extended, or the high half.
Nothing else changes but the swarm's offset. -/
def Obligations.Moves : Prop :=
  ∀ (s : State) (cell : BitVec 10) (slot : BitVec 4) (g d a b c imm : Nat),
    let id := cell.toNat
    let k := slot.toNat
    let w := s.swarm id k
    g < 8 → imm < 2 ^ 32 →
    (w.holds [d, a] = true → s.stands id k (rWord 0x16 g 0 d a 0 0) false false = true →
      ∃ t, exec (.vmov cell slot) s = .next t ∧ WritesLanes s t id k g d (w.vreg a)) ∧
    (w.holds [d] = true → a < 64 → s.stands id k (rWord 0x16 g 1 d a 0 0) false false = true →
      ∃ t, exec (.vmov cell slot) s = .next t ∧ WritesLanes s t id k g d fun _ => w.ureg a % 2 ^ 32) ∧
    (w.holds [d] = true → s.stands id k (rWord 0x16 g 2 d 0 0 0) false false = true →
      ∃ t, exec (.vmov cell slot) s = .next t ∧ WritesLanes s t id k g d fun i => i) ∧
    (w.holds [d, a, b] = true → c < 8 → s.stands id k (rWord 0x16 g 3 d a b c) false false = true →
      ∃ t, exec (.vmov cell slot) s = .next t ∧
        WritesLanes s t id k g d fun i => if bitAt (w.preg c) i then w.vreg a i else w.vreg b i) ∧
    (w.holds [d] = true → s.stands id k (iWord 0x17 g 0 d 0 imm) false false = true →
      ∃ t, exec (.vmovi cell slot) s = .next t ∧ WritesLanes s t id k g d fun _ => imm) ∧
    (d < 64 →
      (a < 64 → s.stands id k (rWord 0x24 0 0 d a 0 0) false false = true →
        ∃ t, exec (.umov cell slot) s = .next t ∧ WritesUniform s t id k d (w.ureg a)) ∧
      (w.holds [a] = true → b < 32 → s.stands id k (rWord 0x24 0 1 d a b 0) false false = true →
        ∃ t, exec (.umov cell slot) s = .next t ∧ WritesUniform s t id k d (w.vreg a b)) ∧
      (s.stands id k (rWord 0x24 0 2 d 0 0 0) false false = true →
        ∃ t, exec (.umov cell slot) s = .next t ∧ WritesUniform s t id k d w.mode.toNat) ∧
      (b < 3 → s.stands id k (rWord 0x24 0 3 d 0 b 0) false false = true →
        ∃ t, exec (.umov cell slot) s = .next t ∧
          WritesUniform s t id k d (if b = 0 then id else if b = 1 then k else w.V)) ∧
      (s.stands id k (iWord 0x25 0 0 d 0 imm) false false = true →
        ∃ t, exec (.umovi cell slot) s = .next t ∧
          WritesUniform s t id k d ((BitVec.ofNat 32 imm).signExtend 64).toNat) ∧
      (s.stands id k (iWord 0x25 0 1 d 0 imm) false false = true →
        ∃ t, exec (.umovi cell slot) s = .next t ∧ WritesUniform s t id k d (w.ureg d % 2 ^ 32 + imm * 2 ^ 32)))

/-- R148: SHFL writes v[D] in the active lanes from v[A] of the source lane: bits [4:0] of v[B], B, i − B, i + B or i XOR B, the
lane itself where that lies outside 0 to 31; an inactive source lane supplies its register value. -/
def Obligations.Shuffles : Prop :=
  ∀ (s : State) (cell : BitVec 10) (slot : BitVec 4) (g fn d a b : Nat),
    let id := cell.toNat
    let k := slot.toNat
    let w := s.swarm id k
    g < 8 → w.holds [d, a] = true →
    (w.holds [b] = true → s.stands id k (rWord 0x19 g 0 d a b 0) false false = true →
      ∃ t, exec (.shfl cell slot) s = .next t ∧ WritesLanes s t id k g d fun i => w.vreg a (w.vreg b i % 32)) ∧
    (1 ≤ fn → fn ≤ 4 → b < 32 → s.stands id k (rWord 0x19 g fn d a b 0) false false = true →
      ∃ t, exec (.shfl cell slot) s = .next t ∧ WritesLanes s t id k g d fun i => w.vreg a (
        if fn = 1 then b else if fn = 2 then (if b ≤ i then i - b else i) else if fn = 3 then (if i + b < 32 then i + b else i)
        else i ^^^ b))

/-- R161: NOP changes nothing but the swarm's offset. R149, R56: CVT writes the conversion of v[A] from SFMT to DFMT into the active
lanes of v[D]; besides v[D], only the offset, the conversion and clip flags of the registers and the events of a context may
change, and no byte of memory. R141: a word whose OP is none of the table's parks the swarm with ENCODING, here where the park
ends no launch (R130), and no byte of memory changes. -/
def Obligations.NopCvtReserved : Prop :=
  ∀ (s : State) (cell : BitVec 10) (slot : BitVec 4) (g d a b c sf df half x : Nat),
    let id := cell.toNat
    let k := slot.toNat
    let w := s.swarm id k
    (s.stands id k (rWord 0x01 0 0 0 0 0 0) false false = true →
      ∃ t, exec (.nop cell slot) s = .next t ∧ OnlySwarm s t id k ∧ t.swarm id k = w.advance none) ∧
    (g < 8 → w.holds [d, a] = true → b < 256 → c < 256 → half ≤ 1 → 1 ≤ sf → sf ≤ 13 → 1 ≤ df → df ≤ 13 →
      zpFits (Fmt.ofCode sf) b = true → zpFits (Fmt.ofCode df) c = true → (half = 1 → sf = 6 ∨ sf = 7) →
      s.stands id k (rWord 0x18 g 0 d a b c + sf * 2 ^ 12 + df * 2 ^ 8 + half * 2 ^ 7) false false = true →
      ∃ t, exec (.cvt cell slot) s = .next t ∧ KeepsBytes s t ∧
        t = { s.modSwarm id k (fun _ => t.swarm id k) with regs := t.regs, disp := t.disp } ∧
        t.swarm id k = { w.advance none with v := (t.swarm id k).v } ∧
        ∀ n i, i < 32 → (t.swarm id k).vreg n i = if n = d ∧ bitAt (w.preg g) i = true then
          (cvtLane (sf * 2 ^ 12 + df * 2 ^ 8 + half * 2 ^ 7 + b * 2 ^ 24 + c * 2 ^ 16) (w.vreg a i)).out % 2 ^ 32
          else w.vreg n i) ∧
    (wOp x ∉ opcodes → s.parksAlone id k = true → s.stands id k x false false = true →
      ∃ t, exec (.reservedOpcode cell slot) s = .next t ∧ KeepsBytes s t ∧ (t.swarm id k).st = .parked ∧
        (t.cell id).recField k 2 0 16 = 0x1001)

/-- R120: after a commit the next offset is pc + 8, or the offset that follows the delay slot; a branch makes the next instruction
its delay slot; the inner loop first, a loop that is active and ends at pc goes back to its START while its COUNT is above 1 and
else becomes inactive with COUNT 0; no other loop changes, so a branch out of an active loop leaves it active. -/
def Obligations.NextOffset : Prop :=
  ∀ (w : Swarm) (br : Option (Bool × Nat)),
    let u := w.advance br
    let next := if w.inSlot then w.slotNext else w.pc + 8
    let ends := fun l : Loop => l.active = true ∧ l.stop = w.pc
    u.inSlot = br.isSome ∧
    (∀ taken target, br = some (taken, target) → u.slotNext = (if taken then target else w.pc + 16) ∧ u.branchPc = w.pc) ∧
    (ends w.loop1 → u.loop0 = w.loop0 ∧
      (1 < w.loop1.count → u.pc = w.loop1.start ∧ u.loop1 = { w.loop1 with count := w.loop1.count - 1 }) ∧
      (w.loop1.count ≤ 1 → u.pc = next ∧ u.loop1 = { w.loop1 with count := 0, active := false })) ∧
    (¬ ends w.loop1 → u.loop1 = w.loop1 ∧
      (ends w.loop0 →
        (1 < w.loop0.count → u.pc = w.loop0.start ∧ u.loop0 = { w.loop0 with count := w.loop0.count - 1 }) ∧
        (w.loop0.count ≤ 1 → u.pc = next ∧ u.loop0 = { w.loop0 with count := 0, active := false })) ∧
      (¬ ends w.loop0 → u.pc = next ∧ u.loop0 = w.loop0)) ∧
    u.v = w.v ∧ u.u = w.u ∧ u.p = w.p ∧ u.up = w.up ∧ u.mode = w.mode ∧ u.tokens = w.tokens

/-- R118, R157: BR goes to pc + OFF32 and BRI to u[A] + OFF32, modulo 2^64: the instruction at pc + 8 is next, in the delay slot,
and after it the target if the condition holds and pc + 16 if not; LINK writes pc + 16 into u[L]. A branch that re-executes
after a park in its slot takes the outcome recorded. A target that is not a multiple of 8 or lies at 0x18_0000 or above parks
the swarm with PC_ALIGN, taken or not. No other register and no byte of memory changes. -/
def Obligations.Branches : Prop :=
  ∀ (s : State) (cell : BitVec 10) (slot : BitVec 4) (cond up link l a off : Nat),
    let id := cell.toNat
    let k := slot.toNat
    let w := s.swarm id k
    let done := fun (t : State) (taken : Bool) (target : Nat) => OnlySwarm s t id k ∧
      t.swarm id k = { w with u := (t.swarm id k).u, pc := w.pc + 8, inSlot := true, slotNext := if taken then target else w.pc + 16,
                              branchPc := w.pc, branchTaken := taken, replay := none } ∧
      ∀ n, (t.swarm id k).ureg n = if link = 1 ∧ n = l then (w.pc + 16) % 2 ^ 64 else w.ureg n
    let holds := cond = 0 ∨ (cond = 1 ∧ w.upred up = true) ∨ (cond = 2 ∧ w.upred up = false)
    cond ≤ 2 → up < 4 → (cond = 0 → up = 0) → link ≤ 1 → l < 64 → (link = 0 → l = 0) → a < 64 → off < 2 ^ 32 →
    (∀ (i : Instr) (base op : Nat),
      (i = .br cell slot ∧ base = w.pc ∧ op = 0x50 ∧ a = 0) ∨ (i = .bri cell slot ∧ base = w.ureg a ∧ op = 0x51) →
      s.stands id k (iWord op 0 (cond + 4 * up + 16 * link) l a off) true true = true →
      let target := (base + ((BitVec.ofNat 32 off).signExtend 64).toNat) % 2 ^ 64
      (w.replay = none → target % 8 = 0 → target < 0x180000 →
        (holds → ∃ t, exec i s = .next t ∧ done t true target) ∧ (¬ holds → ∃ t, exec i s = .next t ∧ done t false target)) ∧
      (∀ taken old, w.replay = some (taken, old) → ∃ t, exec i s = .next t ∧ done t taken old) ∧
      (w.replay = none → ¬ (target % 8 = 0 ∧ target < 0x180000) → s.parksAlone id k = true →
        ∃ t, exec i s = .next t ∧ KeepsBytes s t ∧ (t.swarm id k).st = .parked ∧ (t.swarm id k).pc = w.pc ∧
          (t.cell id).recField k 2 0 16 = 0x1017)) ∧
    (s.stands id k (iWord 0x50 0 (cond + 4 * up + 16 * link) l 0 off) true true = true →
      ∃ t, exec (.br cell slot) s = .next t) ∧
    (s.stands id k (iWord 0x51 0 (cond + 4 * up + 16 * link) l a off) true true = true →
      ∃ t, exec (.bri cell slot) s = .next t)

/-- R119, R158: LOOP n sets START to pc + 8, END to START + 8 × LEN and COUNT to the immediate or the low 32 bits of u[A] and makes
the loop active; a COUNT of zero leaves it inactive and the next instruction is END + 8; a setup that breaks the nesting rules
parks the swarm with LOOP_NEST and changes no loop. LOOPX n makes the loop inactive and keeps its COUNT. Nothing else changes
but the swarm's offset, by R120. -/
def Obligations.HardwareLoops : Prop :=
  ∀ (s : State) (cell : BitVec 10) (slot : BitVec 4) (n imm a cnt len : Nat),
    let id := cell.toNat
    let k := slot.toNat
    let w := s.swarm id k
    let start := w.pc + 8
    let stop := start + 8 * len
    let count := if imm = 1 then cnt else w.ureg a % 2 ^ 32
    let nested := (w.loop n).active = true ∨ (n = 0 ∧ w.loop1.active = true) ∨
      (n = 1 ∧ w.loop0.active = true ∧ (start < w.loop0.start ∨ w.loop0.stop ≤ stop))
    n ≤ 1 → imm ≤ 1 → a < 64 → cnt < 2 ^ 16 → len < 2 ^ 20 →
    (stop < 0x180000 → s.stands id k (iWord 0x52 0 (n + 2 * imm) 0 (if imm = 1 then cnt else a) (len * 2 ^ 12)) true false = true →
      (¬ nested → count ≠ 0 → ∃ t, exec (.loop cell slot) s = .next t ∧ OnlySwarm s t id k ∧
        t.swarm id k = (w.setLoop n { start := start, stop := stop, count := count, active := true }).advance none) ∧
      (¬ nested → count = 0 → ∃ t, exec (.loop cell slot) s = .next t ∧ OnlySwarm s t id k ∧ (t.swarm id k).pc = stop + 8 ∧
        ((t.swarm id k).loop n).active = false ∧ (t.swarm id k).loop (1 - n) = (w.advance none).loop (1 - n)) ∧
      (nested → s.parksAlone id k = true → ∃ t, exec (.loop cell slot) s = .next t ∧ KeepsBytes s t ∧
        (t.swarm id k).st = .parked ∧ (t.cell id).recField k 2 0 16 = 0x1011 ∧
        (t.swarm id k).loop0 = w.loop0 ∧ (t.swarm id k).loop1 = w.loop1)) ∧
    (s.stands id k (rWord 0x53 0 n 0 0 0 0) true false = true →
      ∃ t, exec (.loopx cell slot) s = .next t ∧ OnlySwarm s t id k ∧
        t.swarm id k = (w.setLoop n { w.loop n with active := false }).advance none)

/-- R121, R140, R159: a MODESET of a valid word with no earlier work outstanding installs it at once (ADAPT becomes the width fixed
at launch); with a matrix operation outstanding the word is pending, and MODE changes when the shadow ends; a word that is
refused parks the swarm with MODE_INVALID, and the record shows it as pending. No other register and no byte of memory changes. -/
def Obligations.ModeChanges : Prop :=
  ∀ (s : State) (cell : BitVec 10) (slot : BitVec 4) (fn a imm m : Nat),
    let id := cell.toNat
    let k := slot.toNat
    let w := s.swarm id k
    let installed := fun v : Nat => if bits v 2 2 = 3 then setBits v 2 2 (w.adapt.getD 0) else v
    (a < 64 → imm < 2 ^ 32 → ((fn = 0 ∧ imm = 0 ∧ m = w.ureg a) ∨ (fn = 1 ∧ a = 0 ∧ m = imm)) →
      s.stands id k (iWord 0x54 0 fn 0 a imm) true false = true →
      (w.modeFits m = true → (s.cell id).matrixBusy k = false →
        ∃ t, exec (.modeset cell slot) s = .next t ∧ OnlySwarm s t id k ∧
          t.swarm id k = { w.advance none with mode := BitVec.ofNat 64 (installed m), shadow := none }) ∧
      (w.modeFits m = true → (s.cell id).matrixBusy k = true →
        ∃ t, exec (.modeset cell slot) s = .next t ∧ OnlySwarm s t id k ∧
          t.swarm id k = { w with shadow := some (BitVec.ofNat 64 m) }) ∧
      (w.modeFits m = false → s.parksAlone id k = true →
        ∃ t, exec (.modeset cell slot) s = .next t ∧ KeepsBytes s t ∧ (t.swarm id k).st = .parked ∧ (t.swarm id k).mode = w.mode ∧
          (t.cell id).recField k 2 0 16 = 0x1003 ∧ (t.cell id).recWord k 6 = m)) ∧
    (∀ p : Word, w.shadow = some p → w.st = .active → s.cellRuns id = true → s.modeQuiet id k = true → w.asyncFaults = [] →
      w.parkReq = none → ∃ t, exec (.modeShadowEnd cell slot) s = .next t ∧ OnlySwarm s t id k ∧
        t.swarm id k = { w.advance none with mode := BitVec.ofNat 64 (installed p.toNat), shadow := none })

/-- R101, R160: FENCE.L commits at once, since local accesses are performed as they commit; FENCE.C commits once no access of the
swarm to a home in its channel is outstanding, FENCE.D once none to any home is, and until then each changes nothing; WAIT
commits once the counter of every named token reads zero, with TOKENS = 0 at once, and until then changes nothing. -/
def Obligations.FencesAndWaits : Prop :=
  ∀ (s : State) (cell : BitVec 10) (slot : BitVec 4) (tokens : Nat),
    let id := cell.toNat
    let k := slot.toNat
    let w := s.swarm id k
    let commits := fun i : Instr => ∃ t, exec i s = .next t ∧ OnlySwarm s t id k ∧ t.swarm id k = w.advance none
    (s.stands id k (rWord 0x55 0 0 0 0 0 0) true false = true → commits (.fenceL cell slot)) ∧
    (s.stands id k (rWord 0x55 0 1 0 0 0 0) true false = true →
      ((∀ p ∈ s.pkts, p.isOf id k = true → 1 < p.origin.scope) → commits (.fenceC cell slot)) ∧
      ((∃ p ∈ s.pkts, p.isOf id k = true ∧ p.origin.scope ≤ 1) → exec (.fenceC cell slot) s = .next s)) ∧
    (s.stands id k (rWord 0x55 0 2 0 0 0 0) true false = true →
      ((∀ p ∈ s.pkts, p.isOf id k = true → 2 < p.origin.scope) → commits (.fenceD cell slot)) ∧
      ((∃ p ∈ s.pkts, p.isOf id k = true ∧ p.origin.scope ≤ 2) → exec (.fenceD cell slot) s = .next s)) ∧
    (tokens < 2 ^ 16 → s.stands id k (iWord 0x56 0 0 0 0 tokens) true false = true →
      ((∀ i, i < 16 → bitAt tokens i = true → w.token i = 0) → commits (.wait cell slot)) ∧
      ((∃ i, i < 16 ∧ bitAt tokens i = true ∧ w.token i ≠ 0) → exec (.wait cell slot) s = .next s))

/-- R114, R161: EXIT takes its swarm to EXITING; R114, R172: once its drain completes its slot is free and its live tiles end. R127:
BRK commits and parks its swarm with BREAK at the instruction that R120 chooses. R126: a requested park stops the swarm at its
next boundary with PARK_REQUEST and the request's DETAIL. No byte of memory changes. -/
def Obligations.ExitBreakRelease : Prop :=
  ∀ (s : State) (cell : BitVec 10) (slot : BitVec 4),
    let id := cell.toNat
    let k := slot.toNat
    let w := s.swarm id k
    (s.stands id k (rWord 0x57 0 0 0 0 0 0) true false = true → (k ≠ 0 ∨ (s.cell id).supervised = []) →
      ∃ t, exec (.exit cell slot) s = .next t ∧ KeepsBytes s t ∧ (t.swarm id k).st = .exiting ∧
        (∀ j, j ≠ k → t.swarm id j = s.swarm id j) ∧ t.regs = s.regs ∧ t.pkts = s.pkts) ∧
    (s.stands id k (rWord 0x58 0 0 0 0 0 0) true false = true → s.parksAlone id k = true →
      ∃ t, exec (.brk cell slot) s = .next t ∧ KeepsBytes s t ∧ (t.swarm id k).st = .parked ∧
        (t.cell id).recWord k 0 = (w.advance none).pc % 2 ^ 64 ∧ (t.cell id).recField k 2 0 16 = 0x1014 ∧
        (t.swarm id k).u = w.u ∧ (t.swarm id k).v = w.v ∧ ∀ j, j ≠ k → t.swarm id j = s.swarm id j) ∧
    (w.st = .exiting → s.drained id k = true →
      ∃ t, exec (.swarmRelease cell slot) s = .next t ∧ KeepsBytes s t ∧ t.swarm id k = {} ∧
        (t.cell id).tiles = (s.cell id).tiles.filter (fun x => x.slot != k) ∧ t.regs = s.regs ∧
        ∀ j, j ≠ k → t.swarm id j = s.swarm id j) ∧
    (∀ d, w.parkReq = some d → d < 2 ^ 64 → w.st = .active → w.mem = none → w.reissue = none → w.asyncFaults = [] →
      (d = 1 ∨ s.parksAlone id k = true) →
      ∃ t, exec (.requestedPark cell slot) s = .next t ∧ KeepsBytes s t ∧ (t.swarm id k).st = .parked ∧
        (t.cell id).recField k 2 0 16 = 0x1015 ∧ (t.cell id).recWord k 13 = d ∧
        (t.swarm id k).u = w.u ∧ (t.swarm id k).v = w.v ∧ ∀ j, j ≠ k → t.swarm id j = s.swarm id j)

/-- R122, R126, R128, R129, R130: a park that goes to the supervisor, or whose swarm belongs to no launch, writes the record of
Table 06-4 (restart point, INSN, CODE, SLOT, FLAGS, FAULT_LANES, FAULT_ADDR, BR_TARGET, MODE, loops, PARK_TICK, DETAIL) and
leaves the swarm PARKED at its restart point; lane and uniform registers, masks and predicates, other swarms and every byte of
memory stay. -/
def Obligations.ParkRecord : Prop :=
  ∀ (s : State) (id k : Nat) (p : Park) (pc : Nat),
    let w := s.swarm id k
    let t := s.parkAt id k p pc
    let c := t.cell id
    s.parksAlone id k = true → k < 16 → p.code < 2 ^ 16 → p.insn < 2 ^ 64 → p.lanes < 2 ^ 32 → p.addr < 2 ^ 64 → pc < 2 ^ 64 →
    p.detail < 2 ^ 64 → w.branchPc < 2 ^ 64 → w.slotNext < 2 ^ 64 →
    (t.swarm id k).st = .parked ∧ (t.swarm id k).pc = (if w.inSlot then w.branchPc else pc) ∧
    c.recWord k 0 = (if w.inSlot then w.branchPc else pc) ∧ c.recWord k 1 = p.insn ∧ c.recField k 2 0 16 = p.code ∧
    c.recField k 2 16 8 = k ∧ c.recField k 2 32 32 = p.lanes ∧ c.recWord k 3 = p.addr ∧
    c.recField k 2 24 1 = (w.inSlot || w.replay.isSome).toNat ∧ c.recField k 2 25 1 = w.shadow.isSome.toNat ∧
    c.recField k 2 27 1 = p.async.isSome.toNat ∧ c.recField k 2 29 1 = p.placement.toNat ∧
    (w.inSlot = true → c.recField k 2 28 1 = w.branchTaken.toNat ∧ c.recWord k 4 = w.slotNext) ∧
    c.recWord k 5 = w.mode.toNat ∧ (∀ m, w.shadow = some m → c.recWord k 6 = m.toNat) ∧
    (w.loop0.start < 2 ^ 32 → w.loop0.stop < 2 ^ 32 → c.recField k 7 0 32 = w.loop0.start ∧ c.recField k 7 32 32 = w.loop0.stop) ∧
    (w.loop0.count < 2 ^ 32 → c.recField k 8 0 32 = w.loop0.count) ∧
    c.recField k 10 0 1 = w.loop0.active.toNat ∧ c.recField k 10 1 1 = w.loop1.active.toNat ∧
    c.recWord k 12 = s.now ∧ c.recWord k 13 = p.detail ∧ c.recWord k 15 = 0 ∧
    (t.swarm id k).v = w.v ∧ (t.swarm id k).u = w.u ∧ (t.swarm id k).p = w.p ∧ (t.swarm id k).up = w.up ∧
    (∀ j, j ≠ k → t.swarm id j = s.swarm id j) ∧ KeepsBytes s t ∧ t.hbm = s.hbm ∧ t.pkts = s.pkts

/-- R150, R151, R92: an LD whose active lanes address the cell's own local memory, aligned and in range, writes each active lane:
RAW data of 1 to 16 bytes into its lane registers, little-endian, lowest register first, or the converted element; LDU writes
the zero-extended data into u[DATA]. No byte of memory changes, no other swarm, no other register of the swarm, and no special
register but the pass and conversion counters. -/
def Obligations.LocalLoads : Prop :=
  ∀ (s : State) (cell : BitVec 10) (slot : BitVec 4) (g d a b mf rf zp sh ni sp wd : Nat) (off : Nat → Nat),
    let id := cell.toNat
    let k := slot.toNat
    let w := s.swarm id k
    let x := mWord 0x30 g 0 d a b mf rf zp sh ni sp wd
    let n := memWidth x
    let addr := fun i => (w.ureg a + if ni = 1 then 0 else w.vreg b i * 2 ^ sh) % 2 ^ 64
    let got := fun i => s.lmNat (s.phys id) (off i) n
    let on := fun i => i < 32 ∧ bitAt (w.preg g) i = true
    g < 8 → a < 64 → sh < 4 → ni ≤ 1 → sp ≤ 1 → wd ≤ 4 → zp < 256 → (s.cell id).lmErr = [] →
    (mf ∈ memFmts → rf ∈ regFmts → (mf = 0 ↔ rf = 0) → (mf ≠ 4 → mf ≠ 5 → zp = 0) → (mf ≠ 0 → wd = 0) → (ni = 1 → b = 0) →
      d % memRegs x = 0 → w.holds (if ni = 1 then [d + memRegs x - 1] else [b, d + memRegs x - 1]) = true →
      s.stands id k x false false = true →
      (∀ i, on i → targetOf id x (addr i) = .loc (off i) ∧ off i + n ≤ 0x180000 ∧ addr i % n = 0) →
      ∃ t, exec (.ld cell slot) s = .next t ∧ KeepsBytes s t ∧ KeepsSwarms s t id k ∧ KeepsRegs s t (s.phys id) ∧ t.pkts = s.pkts ∧
        t.swarm id k = { w.advance none with v := (t.swarm id k).v } ∧
        ∀ r i, i < 32 → (t.swarm id k).vreg r i =
          if ¬ on i then w.vreg r i
          else if mf = 0 then (if d ≤ r ∧ r < d + memRegs x then got i / 2 ^ (32 * (r - d)) % 2 ^ 32 else w.vreg r i)
          else if r = d then
            ((Fmt.ofCode mf).elim 0 fun m => (Fmt.ofCode rf).elim 0 fun f => (convert m f (zpField m zp) 0 (got i)).out) % 2 ^ 32
          else w.vreg r i) ∧
    (let y := mWord 0x32 0 0 d a 0 0 0 0 0 1 sp wd
     let off := off 0
     wd ≤ 3 → d < 64 → s.stands id k y false false = true → targetOf id y (w.ureg a) = .loc off → off + 2 ^ wd ≤ 0x180000 →
      w.ureg a % 2 ^ wd = 0 →
      ∃ t, exec (.ldu cell slot) s = .next t ∧ KeepsBytes s t ∧ KeepsSwarms s t id k ∧ KeepsRegs s t (s.phys id) ∧ t.pkts = s.pkts ∧
        t.swarm id k = (w.advance none).setU d (s.lmNat (s.phys id) off (2 ^ wd)))

/-- R150, R151, R92, R100: an ST whose active lanes address the cell's own local memory, aligned, in range and outside every replica
range, writes each lane's data, RAW or converted, little-endian; where lanes overlap the highest lane's bytes stay; STU writes
the low bytes of u[DATA]. Every byte outside the bytes stored, every register of the swarm, every other swarm and every special
register but the pass and conversion counters stay. -/
def Obligations.LocalStores : Prop :=
  ∀ (s : State) (cell : BitVec 10) (slot : BitVec 4) (g d a b mf rf zp sh ni sp wd : Nat) (off : Nat → Nat),
    let id := cell.toNat
    let k := slot.toNat
    let w := s.swarm id k
    let x := mWord 0x31 g 0 d a b mf rf zp sh ni sp wd
    let n := memWidth x
    let addr := fun i => (w.ureg a + if ni = 1 then 0 else w.vreg b i * 2 ^ sh) % 2 ^ 64
    let val := fun i => if mf = 0 then w.vreg d i + 2 ^ 32 * w.vreg (d + 1) i + 2 ^ 64 * w.vreg (d + 2) i + 2 ^ 96 * w.vreg (d + 3) i
      else (Fmt.ofCode mf).elim 0 fun m => (Fmt.ofCode rf).elim 0 fun f => (convert f m 0 (zpField m zp) (w.vreg d i)).out
    let on := fun i => i < 32 ∧ bitAt (w.preg g) i = true
    let in' := fun i c => off i ≤ c ∧ c < off i + n
    g < 8 → a < 64 → sh < 4 → ni ≤ 1 → sp ≤ 1 → wd ≤ 4 → zp < 256 → (s.cell id).lmErr = [] → (s.cell id).replicas = [] →
    (mf ∈ memFmts → rf ∈ regFmts → (mf = 0 ↔ rf = 0) → (mf ≠ 4 → mf ≠ 5 → zp = 0) → (mf ≠ 0 → wd = 0) → (ni = 1 → b = 0) →
      d % memRegs x = 0 → w.holds (if ni = 1 then [d + memRegs x - 1] else [b, d + memRegs x - 1]) = true →
      s.stands id k x false false = true →
      (∀ i, on i → targetOf id x (addr i) = .loc (off i) ∧ off i + n ≤ 0x180000 ∧ addr i % n = 0) →
      ∃ t, exec (.st cell slot) s = .next t ∧ KeepsSwarms s t id k ∧ KeepsRegs s t (s.phys id) ∧ t.pkts = s.pkts ∧
        t.swarm id k = w.advance none ∧ t.hbm = s.hbm ∧ t.host.mem = s.host.mem ∧
        (∀ p c, p ≠ s.phys id ∨ (∀ i, on i → ¬ in' i c) → t.lmByte p c = s.lmByte p c) ∧
        ∀ i j, on i → j < n → (∀ i', i < i' → on i' → ¬ in' i' (off i + j)) →
          t.lmByte (s.phys id) (off i + j) = BitVec.ofNat 8 (val i / 256 ^ j)) ∧
    (let y := mWord 0x33 0 0 d a 0 0 0 0 0 1 sp wd
     let off := off 0
     wd ≤ 3 → d < 64 → s.stands id k y false false = true → targetOf id y (w.ureg a) = .loc off → off + 2 ^ wd ≤ 0x180000 →
      w.ureg a % 2 ^ wd = 0 →
      ∃ t, exec (.stu cell slot) s = .next t ∧ KeepsSwarms s t id k ∧ KeepsRegs s t (s.phys id) ∧ t.pkts = s.pkts ∧
        t.swarm id k = w.advance none ∧ t.hbm = s.hbm ∧ t.host.mem = s.host.mem ∧
        (∀ p c, p ≠ s.phys id ∨ c < off ∨ off + 2 ^ wd ≤ c → t.lmByte p c = s.lmByte p c) ∧
        ∀ j, j < 2 ^ wd → t.lmByte (s.phys id) (off + j) = BitVec.ofNat 8 (w.ureg d / 256 ^ j))

/-- R104, R105, R152: an ATOM whose active lanes address aligned words of the cell's own local memory leaves each word combined with
the operands of the lanes that address it, in ascending lane order; the fetch form gives each lane the word's old value combined
with the operands of the lanes below it at the same word. Every other byte, every other register and swarm, and every special
register but the pass counter stay. The operations 0 to 7 are the sum modulo the width, the signed minimum and maximum, the
unsigned minimum and maximum, AND, OR and XOR. -/
def Obligations.LocalAtomics : Prop :=
  (∀ (s : State) (cell : BitVec 10) (slot : BitVec 4) (g op fetch d a b sh ni sp wd : Nat) (off : Nat → Nat),
    let id := cell.toNat
    let k := slot.toNat
    let w := s.swarm id k
    let x := mWord 0x34 g (op + 8 * fetch) d a b 0 0 0 sh ni sp wd
    let n := 2 ^ wd
    let p := s.phys id
    let addr := fun i => (w.ureg a + if ni = 1 then 0 else w.vreg b i * 2 ^ sh) % 2 ^ 64
    let on := fun i : Nat => bitAt (w.preg g) i
    let old := fun o => s.lmNat p o n
    let arg := fun i => if wd = 2 then w.vreg d i else w.vreg d i + 2 ^ 32 * w.vreg (d + 1) i
    let upTo := fun m o => (((List.range m).filter fun i => on i && off i == o).map arg).foldl (atomOp op (8 * n)) (old o)
    g < 8 → op < 8 → fetch ≤ 1 → a < 64 → sh < 4 → ni ≤ 1 → sp ≤ 1 → wd = 2 ∨ wd = 3 → (wd = 3 → d % 2 = 0) → (ni = 1 → b = 0) →
    w.holds (if ni = 1 then [d + wd - 2] else [b, d + wd - 2]) = true → (s.cell id).lmErr = [] → (s.cell id).replicas = [] →
    s.stands id k x false false = true →
    (∀ i, i < 32 → on i = true → targetOf id x (addr i) = .loc (off i) ∧ off i + n ≤ 0x180000 ∧ addr i % n = 0 ∧ off i % n = 0) →
    ∃ t, exec (.atom cell slot) s = .next t ∧ KeepsSwarms s t id k ∧ KeepsRegs s t p ∧ t.pkts = s.pkts ∧ t.hbm = s.hbm ∧
      t.host.mem = s.host.mem ∧ t.swarm id k = { w.advance none with v := (t.swarm id k).v } ∧
      (∀ i, i < 32 → on i = true → t.lmNat p (off i) n = upTo 32 (off i)) ∧
      (∀ q c, q ≠ p ∨ (∀ i, i < 32 → on i = true → ¬ (off i ≤ c ∧ c < off i + n)) → t.lmByte q c = s.lmByte q c) ∧
      ∀ r i, i < 32 → (t.swarm id k).vreg r i =
        if fetch = 1 ∧ on i = true ∧ d ≤ r ∧ r < d + wd - 1 then upTo i (off i) / 2 ^ (32 * (r - d)) % 2 ^ 32 else w.vreg r i) ∧
  (∀ n, n = 32 ∨ n = 64 → ∀ a b : BitVec n,
    atomOp 0 n a.toNat b.toNat = (a + b).toNat ∧
    atomOp 1 n a.toNat b.toNat = (if a.toInt ≤ b.toInt then a else b).toNat ∧
    atomOp 2 n a.toNat b.toNat = (if a.toInt ≤ b.toInt then b else a).toNat ∧
    atomOp 3 n a.toNat b.toNat = min a.toNat b.toNat ∧ atomOp 4 n a.toNat b.toNat = max a.toNat b.toNat ∧
    atomOp 5 n a.toNat b.toNat = (a &&& b).toNat ∧ atomOp 6 n a.toNat b.toNat = (a ||| b).toNat ∧
    atomOp 7 n a.toNat b.toNat = (a ^^^ b).toNat)

/-- R102, R256: an STU into another cell's window commits and posts one STORE packet with the offset and the bytes. R281, R283: an
LDU covered by a region register with READ holds its swarm and sends one MEMREQ to the HBM stack; an STU with WRITE commits and
sends one; where no register covers the address and WALK_EN is set, the access first waits for a walk, and REGION_WALK_COMPLETE
ends the walk, fills a register and sends the MEMREQ. No byte of memory changes until a packet arrives. -/
def Obligations.RemoteAndRegionAccess : Prop :=
  ∀ (s : State) (cell : BitVec 10) (slot : BitVec 4) (d a wd : Nat) (e : Desc),
    let id := cell.toNat
    let k := slot.toNat
    let w := s.swarm id k
    let ld := mWord 0x32 0 0 d a 0 0 0 0 0 1 1 wd
    let st := mWord 0x33 0 0 d a 0 0 0 0 0 1 1 wd
    let addr := w.ureg a
    let n := 2 ^ wd
    d < 64 → a < 64 → wd ≤ 3 → addr % n = 0 →
    (∀ j o, s.stands id k st false false = true → j ≠ id → isLogical j = true → placeOf addr = .window j o → o + n ≤ 0x180000 →
      ∃ t, exec (.stu cell slot) s = .next t ∧ KeepsBytes s t ∧ KeepsSwarms s t id k ∧ KeepsRegs s t (s.phys id) ∧
        t.swarm id k = w.advance none ∧
        Sends s t { kind := .store, src := .cell id, dst := .cell j, arg := BitVec.ofNat 64 o, payload := leBytes n (w.ureg d), origin := { slot := k, scope := if chOf id = chOf j then 1 else 2 } }) ∧
    (addr < 2 ^ 39 → addr + n ≤ e.start + e.size → e.host = false → e.noSnoop = false → e.relaxed = false →
      (e.read = true → s.stands id k ld false false = true → s.cover id w.ctx [] addr = .region e →
        ∃ t, exec (.ldu cell slot) s = .next t ∧ KeepsBytes s t ∧ KeepsSwarms s t id k ∧ t.regs = s.regs ∧
          t.swarm id k = { w with mem := some { insn := ld, walking := false, outstanding := [0] } } ∧ Sends s t (hbmRequest id k addr n 0 [])) ∧
      (e.write = true → s.stands id k st false false = true → s.cover id w.ctx [] addr = .region e →
        ∃ t, exec (.stu cell slot) s = .next t ∧ KeepsBytes s t ∧ KeepsSwarms s t id k ∧ KeepsRegs s t (s.phys id) ∧
          t.swarm id k = w.advance none ∧ Sends s t (hbmRequest id k addr n 1 (leBytes n (w.ureg d)))) ∧
      (s.stands id k ld false false = true → (s.cell id).regionFor w.ctx addr = none →
        s.rd (Reg.dispRegionRootWalkEn (chOf id)) = 1 →
        ∃ t, exec (.ldu cell slot) s = .next t ∧ OnlySwarm s t id k ∧ t.swarm id k = { w with mem := some { insn := ld } }) ∧
      (e.read = true → e.has addr = true → s.cellRuns id = true → w.st = .active → w.mem = some { insn := ld } →
        (s.cell id).regionFor w.ctx addr = none → s.rd (Reg.dispRegionRootWalkEn (chOf id)) = 1 →
        ∀ p, s.cellWalk id addr = (s.incr (Reg.cellRegionStatusWalks (s.phys id)), { granule := addr / 2 ^ 21, desc := some (e, p) }) →
        ∃ t, exec (.regionWalkComplete cell slot) s = .next t ∧ KeepsBytes s t ∧ KeepsSwarms s t id k ∧
          (t.swarm id k).mem = some { insn := ld, walking := false, outstanding := [0] } ∧
          t.regs = (s.incr (Reg.cellRegionStatusWalks (s.phys id))).regs ∧ Sends s t (hbmRequest id k addr n 0 [])))

/-- R92, R102, R124: LD, ST and ATOM whose active lanes all address own local memory and of which some lane runs past 0x18_0000 park
with LM_RANGE, and, where none does and some lane is misaligned, with LM_ALIGN: FAULT_LANES are the lanes that fail that check
and FAULT_ADDR the address of the lowest of them; no byte of memory, no lane register and no uniform register changes. -/
def Obligations.MemoryFaults : Prop :=
  ∀ (s : State) (cell : BitVec 10) (slot : BitVec 4) (i : Instr) (op g fn d a b sh ni sp wd lane : Nat) (off : Nat → Nat),
    let id := cell.toNat
    let k := slot.toNat
    let w := s.swarm id k
    let x := mWord op g fn d a b 0 0 0 sh ni sp wd
    let n := 2 ^ wd
    let addr := fun i => (w.ureg a + if ni = 1 then 0 else w.vreg b i * 2 ^ sh) % 2 ^ 64
    let on := fun i : Nat => bitAt (w.preg g) i
    let past := fun i => decide (0x180000 < off i + n)
    let odd := fun i => addr i % n != 0
    let parks := fun (code : Nat) (bad : Nat → Bool) => ∃ t, exec i s = .next t ∧ KeepsBytes s t ∧ (t.swarm id k).st = .parked ∧
      (t.swarm id k).v = w.v ∧ (t.swarm id k).u = w.u ∧ (t.cell id).recField k 2 0 16 = code ∧
      (t.cell id).recWord k 3 = addr lane ∧ ∀ j, j < 32 → bitAt ((t.cell id).recField k 2 32 32) j = (on j && bad j)
    let first := fun (bad : Nat → Bool) => lane < 32 ∧ on lane = true ∧ bad lane = true ∧ ∀ j, j < lane → on j = true → bad j = false
    (i = .ld cell slot ∧ op = 0x30 ∧ fn = 0) ∨ (i = .st cell slot ∧ op = 0x31 ∧ fn = 0) ∨
      (i = .atom cell slot ∧ op = 0x34 ∧ fn < 16 ∧ (wd = 2 ∨ wd = 3)) →
    g < 8 → a < 64 → sh < 4 → ni ≤ 1 → sp ≤ 1 → wd ≤ 4 → (ni = 1 → b = 0) → d % memRegs x = 0 →
    w.holds (if ni = 1 then [d + memRegs x - 1] else [b, d + memRegs x - 1]) = true →
    s.stands id k x false false = true → s.parksAlone id k = true →
    (∀ i, i < 32 → on i = true → targetOf id x (addr i) = .loc (off i)) →
    (first past → parks 0x3030 past) ∧
    ((∀ i, i < 32 → on i = true → past i = false) → first odd → parks 0x3031 odd)

/-- R267, R268, R265: a SEND whose checks pass sends the payload and the header word of Table 13-9 (source id, tag, route, length,
user) and commits: SEND.DYNAMIC one message to the endpoint of its target word; SEND.STATIC, once every credit counter of its
route is at least 1, takes one credit of every destination and sends to each, and until then changes nothing; a check that fails
parks the swarm with its code: SEND_TARGET first, then SEND_ROUTE, SEND_LENGTH, LM_ALIGN and LM_RANGE. No byte of memory, no
register and no other swarm changes. -/
def Obligations.SendMessages : Prop :=
  (∀ (s : State) (cell : BitVec 10) (slot : BitVec 4) (fn a b c : Nat) (e : Bytes),
    let id := cell.toNat
    let k := slot.toNat
    let w := s.swarm id k
    let target := w.ureg a
    let off := w.ureg b
    let len := w.ureg c
    let route := bits target 32 8
    let header := fun r st : Nat => BitVec.ofNat 64 (id + st * 2 ^ 15 + bits target 24 8 * 2 ^ 16 + r * 2 ^ 24 + len * 2 ^ 32 + bits target 48 16 * 2 ^ 48)
    let data := (s.cell id).read off len
    let kept := fun t : State => KeepsBytes s t ∧ KeepsSwarms s t id k ∧ t.regs = s.regs ∧ t.swarm id k = w.advance none
    let used := fun (t : State) d => sget 0 (t.cell id).creditUsed (creditKey route d)
    a < 64 → b < 64 → c < 64 → s.stands id k (rWord 0x38 0 fn 0 a b c) false false = true →
    (fn = 0 → (s.cell id).lmErr = [] → s.sendCheck id target off len false = 0 →
      ∃ t, exec (.sendDynamic cell slot) s = .next t ∧ kept t ∧
        Sends s t { kind := .msg, src := .cell id, dst := targetEnd (chOf id) target, payload := data, arg := header 0 0, origin := { slot := k, scope := targetScope (chOf id) target } }) ∧
    (fn = 1 → (s.cell id).lmErr = [] → s.sendCheck id target off len true = 0 → s.routeOf (chOf id) route = some e →
      ((∀ d ∈ routeDests e, used s d < routeDepth e) →
        ∃ t, exec (.sendStatic cell slot) s = .next t ∧ kept t ∧
          t.pkts = s.pkts ++ (routeDests e).map (fun d => { kind := .msg, src := .cell id, dst := .cell d, payload := data, route := some route, arg := header route 1, origin := { slot := k, scope := scopeOf id d }, wasOpen := (s.closedOn (chOf id) (chOf d)).isNone }) ∧
          ∀ d, d < 1024 → used t d = used s d + (if d ∈ routeDests e then 1 else 0)) ∧
      ((∃ d ∈ routeDests e, routeDepth e ≤ used s d) → exec (.sendStatic cell slot) s = .next s)) ∧
    (∀ (i : Instr), (i = .sendDynamic cell slot ∧ fn = 0) ∨ (i = .sendStatic cell slot ∧ fn = 1) →
      s.sendCheck id target off len (fn == 1) ≠ 0 → s.parksAlone id k = true →
      ∃ t, exec i s = .next t ∧ KeepsBytes s t ∧ (t.swarm id k).st = .parked ∧ t.pkts = s.pkts ∧
        (t.cell id).recField k 2 0 16 = s.sendCheck id target off len (fn == 1))) ∧
  (∀ (s : State) (id t off len : Nat) (st : Bool),
    let mine := ∃ e, s.routeOf (chOf id) (bits t 32 8) = some e ∧ fieldLE e 8 2 = id
    (s.sendCheck id t off len st = 0x4001 ↔ s.badTarget t st = true) ∧
    (s.badTarget t st = false → st = true → ¬ mine → s.sendCheck id t off len st = 0x4003) ∧
    (s.badTarget t st = false → (st = true → mine) →
      (s.sendCheck id t off len st = 0x4002 ↔ 512 < len ∨ len % 8 ≠ 0) ∧
      (len ≤ 512 → len % 8 = 0 → (s.sendCheck id t off len st = 0x3031 ↔ off % 8 ≠ 0) ∧
        (off % 8 = 0 → (s.sendCheck id t off len st = 0x3030 ↔ 0x180000 < off + len) ∧
          (off + len ≤ 0x180000 → s.sendCheck id t off len st = 0)))) ∧
    (bits t 0 3 = 0 → isLogical (bits t 8 10) = false → s.badTarget t st = true) ∧
    (st = true → bits t 0 3 ≠ 0 → s.badTarget t st = true) ∧ (st = false → bits t 32 8 ≠ 0 → s.badTarget t st = true) ∧
    (4 ≤ bits t 0 3 → s.badTarget t st = true))

/-- R270, R265, R269: a RECV takes the oldest message of the ring that matches: its payload to local memory at u[A], its header word
to u[D], the slot freed, and for a static message one CREDIT to its source; POLL sets up[C]. With no match WAIT changes nothing
and POLL clears up[C] and commits. Every other byte, register and swarm stays. -/
def Obligations.ReceiveMessages : Prop :=
  ∀ (s : State) (cell : BitVec 10) (slot : BitVec 4) (fn d a b c base n : Nat),
    let id := cell.toNat
    let k := slot.toNat
    let w := s.swarm id k
    let m := w.ureg b
    let buf := w.ureg a
    let p := s.phys id
    fn ≤ 1 → d < 64 → a < 64 → b < 64 → c < 4 → (fn = 0 → c = 0) → badMatch m buf = false → s.ringOf id = some (base, n) →
    s.stands id k (rWord 0x39 0 fn d a b c) false false = true →
    (∀ (i : Instr) g, (fn = 0 ∧ i = .recvWait cell slot) ∨ (fn = 1 ∧ i = .recvPoll cell slot) → (s.cell id).ring.find? (fun g => g.fits m) = some g → (s.cell id).lmErr = [] → (s.cell id).inReplica buf g.len = false →
      ∃ t, exec i s = .next t ∧
        KeepsSwarms s t id k ∧ t.regs = s.regs ∧ t.hbm = s.hbm ∧ t.host.mem = s.host.mem ∧
        (t.cell id).ring = (s.cell id).ring.erase g ∧
        t.swarm id k = (if fn = 0 then (w.advance none).setU d g.header.toNat else ((w.advance none).setU d g.header.toNat).setUp c true) ∧
        (∀ q o, q ≠ p ∨ o < buf ∨ buf + g.len ≤ o → t.lmByte q o = s.lmByte q o) ∧
        (∀ j, j < g.len → t.lmByte p (buf + j) = s.lmByte p (base + 528 * g.slot + 16 + j)) ∧
        (g.static = false → t.pkts = s.pkts) ∧
        (g.static = true → Sends s t { kind := .credit, src := .cell id, dst := .cell (bits g.header.toNat 0 10), arg := BitVec.ofNat 64 g.route })) ∧
    ((s.cell id).ring.find? (fun g => g.fits m) = none →
      (fn = 0 → exec (.recvWait cell slot) s = .next s) ∧
      (fn = 1 → ∃ t, exec (.recvPoll cell slot) s = .next t ∧ OnlySwarm s t id k ∧ t.swarm id k = (w.advance none).setUp c false))

/-- R102, R104, R105, R269: a STORE that arrives writes its bytes and is acknowledged; an ATOMIC updates its word and is answered
with the old value if it fetches, else acknowledged; a write into a cell in reset is refused with 0xC022, one that meets a live
replica range with 0x3034 and counted; a dynamic message takes the lowest free slot of the ring, its header word and payload
written there, and is acknowledged, at once or, where the ring had no room, when room came; until then it waits. Nothing else in
memory changes. -/
def Obligations.RequestPackets : Prop :=
  ∀ (s : State) (i id : Nat) (p : Packet),
    let n := p.payload.length
    let q := s.phys id
    let answers := fun (t : State) (a : Packet) => ∃ b, t.pkts = s.pkts.eraseIdx i ++ [{ a with wasOpen := b }]
    let others := fun (t : State) (lo hi : Nat) => t.hbm = s.hbm ∧ t.host.mem = s.host.mem ∧
      ∀ r o, r ≠ q ∨ o < lo ∨ hi ≤ o → t.lmByte r o = s.lmByte r o
    let holds := fun (t : State) (off : Nat) (bs : Bytes) => ∀ j, j < bs.length → t.lmByte q (off + j) = bs.getD j 0
    p.dst = .cell id → p.route = none →
    (∀ c : Instr, ((c = .storePacket i .none ∧ s.arriving i [.store] = some p) ∨ (c = .atomicPacket i .none ∧ s.arriving i [.atomic] = some p)) →
      let off := if p.kind = .atomic then bits p.arg.toNat 0 21 else p.arg.toNat
      (s.cellInReset id = true → ∃ t, exec c s = .next t ∧ KeepsBytes s t ∧ answers t (p.answer .refuse 0xC022 []) ∧ t.cells = s.cells) ∧
      (s.cellInReset id = false → (s.cell id).inReplica off n = true → ∃ t, exec c s = .next t ∧ KeepsBytes s t ∧ answers t (p.answer .refuse 0x3034 []) ∧
        t.rd (Reg.cellLmStatusReplicaWriteCount q) = min 0xFFFF (s.rd (Reg.cellLmStatusReplicaWriteCount q) + 1))) ∧
    (s.arriving i [.store] = some p → s.cellInReset id = false → (s.cell id).inReplica p.arg.toNat n = false → (s.cell id).lmErr = [] →
      ∃ t, exec (.storePacket i .none) s = .next t ∧ answers t (p.answer .ack 0 []) ∧ holds t p.arg.toNat p.payload ∧
        others t p.arg.toNat (p.arg.toNat + n) ∧ t.regs = s.regs ∧ ∀ j k, t.swarm j k = s.swarm j k) ∧
    (let off := bits p.arg.toNat 0 21
     let old := s.lmNat q off n
     s.arriving i [.atomic] = some p → s.cellInReset id = false → (s.cell id).inReplica off n = false → (s.cell id).lmErr = [] →
      ∃ t, exec (.atomicPacket i .none) s = .next t ∧ others t off (off + n) ∧ t.regs = s.regs ∧ (∀ j k, t.swarm j k = s.swarm j k) ∧
        holds t off (leBytes n (atomOp (bits p.arg.toNat 21 3) (8 * n) old (leNat p.payload))) ∧
        answers t (if bitAt p.arg.toNat 25 then p.answer .atomicRsp p.arg.toNat (leBytes n old) else p.answer .ack 0 [])) ∧
    (∀ base slots k, s.arriving i [.msg] = some p → s.cellInReset id = false → s.ringOf id = some (base, slots) → s.ringReserved id < slots →
      let at_ := base + 528 * k
      (s.ringRoom id slots = true → (s.cell id).freeRing slots = some k → (s.cell id).inReplica at_ (16 + n) = false →
        ∃ t, exec (if p.waiting then .msgRingWaitRelease i else .msgPacket i .none) s = .next t ∧ answers t (p.answer .ack 0 []) ∧
          (t.cell id).ring = (s.cell id).ring ++ [{ slot := k, header := p.arg }] ∧
          holds t at_ (leBytes 8 p.arg.toNat ++ zeros 8 ++ p.payload) ∧ others t at_ (at_ + 16 + n)) ∧
      (s.ringRoom id slots = false → p.waiting = false →
        ∃ t, exec (.msgPacket i .none) s = .next t ∧ t = { s with pkts := s.pkts.set i { p with waiting := true } })) ∧
    (s.arriving i [.msg] = some p → s.cellInReset id = false → s.ringOf id = none → p.waiting = false →
      ∃ t, exec (.msgPacket i .none) s = .next t ∧ KeepsBytes s t ∧ answers t (p.answer .refuse 0x4006 []) ∧
        t.rd (Reg.cellMsgStatusRxRefused q) = min 0xFFFF (s.rd (Reg.cellMsgStatusRxRefused q) + 1))

/-- R101, R102, R105, R265, R266, R283: an ACK settles its request and changes nothing else; a REFUSE of a store or an atomic that
does not fetch counts in REMOTE_REFUSED_COUNT; an ATOMIC_RSP gives each lane of the fetch its value and ends the interlock on
its register; a MEMRSP with data completes the LDU that waits for it, and one that refuses a store counts in STORES_REFUSED; a
CREDIT returns one credit of its route, and a restoring one all of them. No byte of memory changes. -/
def Obligations.AnswerPackets : Prop :=
  ∀ (s : State) (i id : Nat) (p : Packet),
    let q := s.phys id
    let k := p.origin.slot
    let w := s.swarm id k
    let taken := fun t : State => KeepsBytes s t ∧ t.pkts = s.pkts.eraseIdx i
    p.dst = .cell id →
    (s.arriving i [.ack] = some p → ∃ t, exec (.ackPacket i .none) s = .next t ∧ t = { s with pkts := s.pkts.eraseIdx i }) ∧
    (s.arriving i [.refuse] = some p → p.reqKind = .store ∨ p.reqKind = .atomic → p.origin.fetch = [] →
      ∃ t, exec (.refusePacket i .none) s = .next t ∧ taken t ∧ (∀ j k, t.swarm j k = s.swarm j k) ∧
        t.rd (Reg.cellLmStatusRemoteRefusedCount q) =
          min (2 ^ (Reg.cellLmStatusRemoteRefusedCount q).len - 1) (s.rd (Reg.cellLmStatusRemoteRefusedCount q) + 1)) ∧
    (∀ l : List (Nat × Option Nat), s.arriving i [.atomicRsp] = some p → p.origin.fetch = l → (l.map (·.1)).Nodup → (∀ e ∈ l, e.1 < 32) →
      p.origin.reg ∈ w.fetching → p.payload.length = 4 →
      ∃ t, exec (.atomicRspPacket i .none) s = .next t ∧ taken t ∧ KeepsSwarms s t id k ∧ t.regs = s.regs ∧
        t.swarm id k = { w with v := (t.swarm id k).v, fetching := w.fetching.erase p.origin.reg } ∧
        (∀ e ∈ l, (t.swarm id k).vreg p.origin.reg e.1 =
          (match e.2 with | none => leNat p.payload | some x => atomOp (bits p.arg.toNat 21 3) 32 (leNat p.payload) x) % 2 ^ 32) ∧
        ∀ r j, j < 32 → r ≠ p.origin.reg ∨ (∀ e ∈ l, e.1 ≠ j) → (t.swarm id k).vreg r j = w.vreg r j) ∧
    (∀ d a wd m, s.arriving i [.memrsp] = some p → d < 64 → wd ≤ 3 → w.mem = some m → m.insn = mWord 0x32 0 0 d a 0 0 0 0 0 1 1 wd →
      m.walking = false → m.outstanding = [0] → m.errs = [] → p.origin.lane = 0 → p.origin.use = 0 → bits p.arg.toNat 0 16 = 0 →
      w.st = .active → w.parkReq = none → w.asyncFaults = [] → targetOf id m.insn (w.ureg a) = .ext .hbm →
      ∃ t, exec (.memrspPacket i .none) s = .next t ∧ taken t ∧ KeepsSwarms s t id k ∧ KeepsRegs s t q ∧
        t.swarm id k = { (w.advance none).setU d (leNat p.payload) with mem := none }) ∧
    (s.arriving i [.memrsp] = some p → p.origin.use = 1 → bits p.arg.toNat 0 16 ≠ 0 →
      ∃ t, exec (.memrspPacket i .none) s = .next t ∧ taken t ∧ (∀ j k, t.swarm j k = s.swarm j k) ∧
        t.rd (Reg.cellRegionStatusStoresRefused q) = min 0xFFFF (s.rd (Reg.cellRegionStatusStoresRefused q) + 1)) ∧
    (∀ dest e, s.arriving i [.credit] = some p → p.src = .cell dest → dest < 1024 → s.routeOf (chOf id) (bits p.arg.toNat 0 8) = some e → fieldLE e 8 2 = id →
      dest ∈ routeDests e →
      let key := creditKey (bits p.arg.toNat 0 8) dest
      (bitAt p.arg.toNat 8 = false → ∃ t, exec (.creditPacket i .none) s = .next t ∧ taken t ∧ (∀ j k, t.swarm j k = s.swarm j k) ∧
        ∀ x, sget 0 (t.cell id).creditUsed x = if x = key then sget 0 (s.cell id).creditUsed x - 1 else sget 0 (s.cell id).creditUsed x) ∧
      (bitAt p.arg.toNat 8 = true → ∃ t, exec (.creditRestore i .none) s = .next t ∧ taken t ∧ (∀ j k, t.swarm j k = s.swarm j k) ∧
        ∀ x, sget 0 (t.cell id).creditUsed x = if x = key then 0 else sget 0 (s.cell id).creditUsed x))

/-- R283, R287, R458: a MEMREQ write at a present stack whose blocks hold no error writes its bytes of HBM and is answered with
status 0; a read is answered with the bytes; a read of host memory waits for its completion while the link is up and is answered
with HOST_LINK_DOWN while it is not; a write to host memory writes there. R262: a request whose way meets a closed bridge end is
discarded there, refused with BRIDGE_DOWN, and counted. -/
def Obligations.MemoryRequests : Prop :=
  ∀ (s : State) (i : Nat) (p : Packet),
    let a := bits p.arg.toNat 0 52
    let n := bits p.arg.toNat 53 9 + 1
    let write := bitAt p.arg.toNat 52
    let answers := fun (t : State) (x : Packet) => ∃ b, t.pkts = s.pkts.eraseIdx i ++ [{ x with wasOpen := b }]
    (s.arriving i [.memreq] = some p →
      (∀ k, p.dst = .stack k → s.hbmErr = [] →
        (write = true → p.payload.length = n → s.absentStack a n = none → ∃ t, exec (.memreqPacket i .none) s = .next t ∧ answers t (p.answer .memrsp 0 []) ∧
          (∀ j, j < n → t.hbmByte (a + j) = p.payload.getD j 0) ∧ (∀ o, o < a ∨ a + n ≤ o → t.hbmByte o = s.hbmByte o) ∧
          t.cells = s.cells ∧ t.regs = s.regs ∧ t.host = s.host) ∧
        (write = false → s.absentStack a n = none → ∃ t, exec (.memreqPacket i .none) s = .next t ∧
          answers t (p.answer .memrsp 0 ((List.range n).map fun j => s.hbmByte (a + j))) ∧ KeepsBytes s t ∧ t.cells = s.cells ∧ t.regs = s.regs) ∧
        (∀ x, write = false → s.absentStack a n = some x → ∃ t, exec (.memreqPacket i .none) s = .next t ∧
          answers t (p.answer .memrsp (if (sget {} s.gov.islands (0x400 + x)).stopped then 0xC008 else 0xC024) []) ∧ KeepsBytes s t)) ∧
      (∀ c, p.dst = .services c →
        (write = false → s.linkUp = true → ∃ t, exec (.memreqPacket i .none) s = .next t ∧ t.pkts = s.pkts.eraseIdx i ∧ KeepsBytes s t ∧
          t.host.reads = s.host.reads ++ [{ addr := a, len := n, src := p.src, origin := p.origin }]) ∧
        (write = false → s.linkUp = false → ∃ t, exec (.memreqPacket i .none) s = .next t ∧ answers t (p.answer .memrsp 0xB009 []) ∧
          KeepsBytes s t ∧ t.host = s.host) ∧
        (write = true → s.linkUp = true → ∃ t, exec (.memreqPacket i .none) s = .next t ∧ answers t (p.answer .memrsp 0 []) ∧
          (∀ j, j < p.payload.length → t.hostByte (a + j) = p.payload.getD j 0) ∧ t.hbm = s.hbm ∧ t.cells = s.cells))) ∧
    (∀ e, s.pkts[i]? = some p → p.onMesh = true → p.kind.isRsp = false → p.route = none → (s.pkts.take i).any p.sameLane = false →
      s.closedOn p.src.ch p.dst.ch = some e →
      let f := if e.2 then Reg.dispBridgeStatusDiscardUp e.1 else Reg.dispBridgeStatusDiscardDown e.1
      ∃ t, exec (.bridgeDiscard i) s = .next t ∧ KeepsBytes s t ∧ t.cells = s.cells ∧
        answers t { p.answer .refuse 0x4007 [] with src := .dispatcher e.1 } ∧ t.rd f = min (2 ^ f.len - 1) (s.rd f + 1))

/-- R273: a packet that met a corrected beat at a router of its way arrives as any other and the router counts the correction; a
packet command that names a router which is not on the way of its packet changes nothing. -/
def Obligations.PacketLinks : Prop :=
  ∀ (s : State) (i : Nat) (r : BitVec 10) (p : Packet) (c : LinkErr → Instr) (kind : PktKind),
    (kind = .store ∧ c = .storePacket i) ∨ (kind = .atomic ∧ c = .atomicPacket i) ∨ (kind = .atomicRsp ∧ c = .atomicRspPacket i) ∨
      (kind = .msg ∧ c = .msgPacket i) ∨ (kind = .ack ∧ c = .ackPacket i) ∨ (kind = .refuse ∧ c = .refusePacket i) ∨
      (kind = .memreq ∧ c = .memreqPacket i) ∨ (kind = .memrsp ∧ c = .memrspPacket i) ∨ (kind = .credit ∧ c = .creditPacket i) ∨
      (kind = .credit ∧ c = .creditRestore i) →
    s.arriving i [kind] = some p →
    (r.toNat ∈ s.path p.src p.dst → exec (c (.corrected r)) s = exec (c .none) (s.bump (Reg.cellMeshStatusCorrected (s.phys r.toNat)))) ∧
    (r.toNat ∉ s.path p.src p.dst → exec (c (.corrected r)) s = .next s ∧ exec (c (.uncorrectable r)) s = .next s)

/-- R94, R154, R164: an MX or XFER commits when the scoreboard has room and its token's count is below 255: the token counts up and
the operation joins its queue with its issue offset, operand and mode; otherwise the swarm waits and nothing changes. R164,
R181, R199: MX_START and XFER_START take the operation at the front when none runs, with the fault its checks find or the
descriptor they read. No byte of memory changes, unless the descriptors meet an uncorrectable word. -/
def Obligations.AsyncIssue : Prop :=
  ∀ (s : State) (cell : BitVec 10) (slot : BitVec 4) (tok a : Nat),
    let id := cell.toNat
    let k := slot.toNat
    let w := s.swarm id k
    let c := s.cell id
    let op : AsyncOp := { slot := k, token := tok, pc := w.pc, operand := w.ureg a, mode := w.mode }
    let issued := fun t : State => KeepsBytes s t ∧ KeepsSwarms s t id k ∧ t.pkts = s.pkts ∧
      t.swarm id k = { w.advance none with tokens := (t.swarm id k).tokens } ∧
      ∀ n, (t.swarm id k).token n = w.token n + if n = tok then 1 else 0
    tok < 16 → a < 64 →
    (s.stands id k (iWord 0x48 0 0 (16 * tok) a 0) false false = true →
      (c.inFlight < 256 → w.token tok < 255 → ∃ t, exec (.mx cell slot) s = .next t ∧ issued t ∧
        (t.cell id).mxQueue = c.mxQueue ++ [op] ∧ (t.cell id).agQueue = c.agQueue) ∧
      (¬ (c.inFlight < 256 ∧ w.token tok < 255) → exec (.mx cell slot) s = .next s)) ∧
    (s.stands id k (iWord 0x3A 0 0 (16 * tok) a 0) false false = true →
      (c.inFlight < 256 → w.token tok < 255 → ∃ t, exec (.xfer cell slot) s = .next t ∧ issued t ∧
        (t.cell id).agQueue = c.agQueue ++ [op] ∧ (t.cell id).mxQueue = c.mxQueue) ∧
      (¬ (c.inFlight < 256 ∧ w.token tok < 255) → exec (.xfer cell slot) s = .next s)) ∧
    (s.cellRuns id = true → ∀ o rest,
      (c.mxRun = none → c.mxQueue = o :: rest → c.tabCmd = none → ∃ t r, exec (.mxStart cell) s = .next t ∧
        (t.cell id).mxQueue = rest ∧ (t.cell id).mxRun = some r ∧ r.op = o ∧
        (∀ e, c.mxChecks c.tables o = .error e → r.fault = some e ∧ (e.1 ≠ 0x300A → KeepsBytes s t)) ∧
        (∀ d ts, c.mxChecks c.tables o = .ok (d, ts) → r.fault = none ∧ r.desc = d ∧ r.tensors = ts ∧ KeepsBytes s t)) ∧
      (c.agRun = none → c.agQueue = o :: rest → ∃ t r, exec (.xferStart cell) s = .next t ∧
        (t.cell id).agQueue = rest ∧ (t.cell id).agRun = some r ∧ r.op = o ∧
        (∀ e, c.xfChecks id o = .error e → r.fault = some e ∧ (e.1 ≠ 0x300A → KeepsBytes s t)) ∧
        (∀ d ts, c.xfChecks id o = .ok (d, ts) → r.fault = none ∧ r.desc = d ∧ r.tensors = ts ∧ KeepsBytes s t)))

/-- R174, R195: an operation that completes without an error leaves its unit idle, counts in OPS_DONE or XFERS_DONE and takes one
from its token, and changes nothing else beyond what its pass or transfer did; a LAST pass ends its tile. R94, R125: one whose
checks failed completes with its fault: its token counts down, it is counted, and its ACTIVE swarm parks with the fault's code,
the token, the issue offset and the operand in the record; no byte of memory changes. -/
def Obligations.AsyncCompletion : Prop :=
  ∀ (s : State) (cell : BitVec 10) (host : Bytes) (run : AsyncRun),
    let id := cell.toNat
    let k := run.op.slot
    let w := s.swarm id k
    let p := s.mxPass id run
    let x := XferSt.all { s := s, host := host } id k
      { op := fieldLE run.desc 0 1, win := run.tensors.getD 0 [], src := run.tensors.getD 1 [], dst := run.tensors.getD 2 [] }
    let ends := fun (u t : State) (f : RegField) => KeepsBytes u t ∧ KeepsSwarms u t id k ∧ t.pkts = u.pkts ∧
      t.rd f = (u.rd f + 1) % 2 ^ f.len ∧ t.swarm id k = { u.swarm id k with tokens := (t.swarm id k).tokens } ∧
      ∀ n, (t.swarm id k).token n = (u.swarm id k).token n - if n = run.op.token then 1 else 0
    s.cellRuns id = true →
    ((s.cell id).mxRun = some run → run.fault = none → p.2 = false → (∀ j, (p.1.swarm id j).reissue = none) →
      ∃ t, exec (.mxComplete cell) s = .next t ∧ (t.cell id).mxRun = none ∧ ends p.1 t (Reg.cellMxStatusOpsDone (p.1.phys id)) ∧
        (t.cell id).tiles = if mdLast run.desc then
          (p.1.cell id).tiles.filter (fun x => x.acc != mdAcc run.desc || x.fast != modeFast run.op.mode) else (p.1.cell id).tiles) ∧
    ((s.cell id).agRun = some run → run.fault = none → x.fault = none → (∀ j, (x.s.swarm id j).reissue = none) →
      ∃ t, exec (.xferComplete cell host) s = .next t ∧ (t.cell id).agRun = none ∧ ends x.s t (Reg.cellAgStatusXfersDone (x.s.phys id))) ∧
    (∀ (i : Instr) (f : RegField) code detail,
      (i = .mxComplete cell ∧ f = Reg.cellMxStatusOpsDone (s.phys id) ∧ (s.cell id).mxRun = some run) ∨
        (i = .xferComplete cell host ∧ f = Reg.cellAgStatusXfersDone (s.phys id) ∧ (s.cell id).agRun = some run) →
      run.fault = some (code, detail) → code < 2 ^ 16 → detail < 2 ^ 64 → k < 16 → run.op.token < 16 → run.op.pc < 2 ^ 32 →
      run.op.operand < 2 ^ 64 → w.st = .active → w.mem = none → w.asyncFaults = [] →
      (∀ j, (s.swarm id j).reissue = none) → s.parksAlone id k = true →
      ∃ t, exec i s = .next t ∧ KeepsBytes s t ∧ KeepsSwarms s t id k ∧ (t.swarm id k).st = .parked ∧
        (t.swarm id k).token run.op.token = w.token run.op.token - 1 ∧ (t.cell id).recField k 2 0 16 = code ∧
        (t.cell id).recWord k 13 = detail ∧ (t.cell id).recField k 10 8 8 = run.op.token ∧ (t.cell id).recField k 10 32 32 = run.op.pc ∧
        (t.cell id).recWord k 14 = run.op.operand ∧ t.rd f = (s.rd f + 1) % 2 ^ f.len)

/-- R66, R67, R68: added to an empty quire, values whose units of 2^-288 are whole give a quire that reads as their exact sum while
the sum fits 640 bits; beyond that, and within 643 bits, it reads as NaR and raises QOVF; any order of the same values gives the
same quire. R84: the record of a quire gives the quire back. R173: a STRICT pass with FIRST and without LAST whose operands meet
no error leaves in PSUM, for every element of its tile, the record of the exact sum of its products, and no other byte of local
memory changes. -/
def Obligations.StrictQuire : Prop :=
  (∀ l : List (Bool × Nat × Int), (∀ x ∈ l, -288 ≤ x.2.2) →
    let q := Quire.addAll {} (l.map fun x => .fin x.1 x.2.1 x.2.2)
    let total : Int := (l.map fun x => (if x.1 then -(x.2.1 : Int) else x.2.1) * 2 ^ (x.2.2 + 288).toNat).sum
    (-(2 : Int) ^ 639 ≤ total → total < 2 ^ 639 → q.read = (Val.ofInt total (-288), false)) ∧
    (-(2 : Int) ^ 642 ≤ total → total < 2 ^ 642 → ¬ (-(2 : Int) ^ 639 ≤ total ∧ total < 2 ^ 639) → q.read = (.nar, true))) ∧
  (∀ (q : Quire) (l m : List Val), l.Perm m → q.addAll l = q.addAll m) ∧
  (∀ (q : Quire) (l : List Val), (.nar ∈ l ∨ .nan ∈ l ∨ (.inf true ∈ l ∧ .inf false ∈ l)) → (q.addAll l).read = (.nar, false)) ∧
  (∀ q : Quire, q.w < 2 ^ 643 → Quire.ofRecord q.toRecord = q) ∧
  (∀ (s : State) (id : Nat) (run : AsyncRun) (sh : Shape),
    let d := run.desc
    let t := fun n => run.tensors.getD n []
    let i : PassIn := { d := d, a := t 0, src := t 1, b := t 2, c := t 3, o := t 4, x := sh, done := 0 }
    let r := s.mxPass id run
    shapeOf (mdShape d) = some sh → mdFirst d = true → mdLast d = false → mdGsize d = 0 → mdOutliers d = 0 →
    modeFast run.op.mode = false → (s.cell id).lmErr = [] →
    r.2 = false ∧
    (∀ m n, m < sh.m → n < sh.n → (r.1.cell id).read (mdPsum d + 96 * (m * sh.n + n)) 96 =
      (Quire.addAll {} ((List.range (mdKlen d)).map fun k =>
        if i.void m then .zero else (i.aVal (s.cell id) m n k).mul (i.bVal (s.cell id) n k))).toRecord) ∧
    ∀ p o, p ≠ s.phys id ∨ o < mdPsum d ∨ mdPsum d + 96 * sh.e ≤ o → r.1.lmByte p o = s.lmByte p o)

/-- R156, R180: ZERO begins a fragment tile of zero quires where none lives; MMA adds to each element's quire the products of row m
of the A fragment and row n of the B fragment; OUT rounds each element once, writes the output fragment and ends the tile. R164:
each waits while a matrix operation is outstanding. No byte of memory changes, no other swarm and no uniform register. -/
def Obligations.FragmentTiles : Prop :=
  ∀ (s : State) (cell : BitVec 10) (slot : BitVec 4) (fn g d a acc shape af bf zu : Nat) (sh : Shape),
    let id := cell.toNat
    let k := slot.toNat
    let w := s.swarm id k
    let c := s.cell id
    let x := 0x49 * 2 ^ 56 + g * 2 ^ 53 + fn * 2 ^ 48 + d * 2 ^ 40 + a * 2 ^ 32 + acc * 2 ^ 21 + shape * 2 ^ 16 + af * 2 ^ 12 + bf * 2 ^ 8 + zu * 4
    let quire := fun (c : CellMem) e => Quire.ofEntry (sget 0 c.acc (acc + e)).toNat
    let others := fun t : State => KeepsBytes s t ∧ KeepsSwarms s t id k ∧ t.pkts = s.pkts
    g < 8 → w.preg g = 0xFFFFFFFF → acc < 2048 → zu < 64 → af < 14 → bf < 14 → shapeOf shape = some sh → bitAt w.mode.toNat 0 = false →
    s.stands id k x false false = true →
    (∀ i : Instr, (i = .mxfZero cell slot ∧ fn = 1 ∧ d = 0 ∧ a = 0 ∧ bf = 0) ∨ (i = .mxfMma cell slot ∧ fn = 0 ∧ d % 8 = 0 ∧ a % 8 = 0 ∧ w.holds [d + 31, a + 31] = true) ∨
        (i = .mxfOut cell slot ∧ fn = 2 ∧ d % 8 = 0 ∧ a = 0 ∧ bf = 0 ∧ w.holds [d + 31] = true) →
      c.matrixIdle = false → exec i s = .next s) ∧
    (fn = 1 → d = 0 → a = 0 → bf = 0 → c.matrixIdle = true → c.overlaps acc sh.e false = false →
      ∃ t, exec (.mxfZero cell slot) s = .next t ∧ others t ∧ t.swarm id k = w.advance none ∧
        (t.cell id).tiles = c.tiles ++ [{ acc := acc, shape := shape, fast := false, frag := true, slot := k, mode := w.mode, ctx := w.ctx }] ∧
        (∀ e, e < sh.e → quire (t.cell id) e = {}) ∧ ∀ e, e < acc ∨ acc + sh.e ≤ e → sget 0 (t.cell id).acc e = sget 0 c.acc e) ∧
    (∀ fa fb tile, fn = 0 → d % 8 = 0 → a % 8 = 0 → w.holds [d + 15, a + 15] = true → c.matrixIdle = true → Fmt.ofCode af = some fa → Fmt.ofCode bf = some fb →
      mxFormat af (bits (w.ureg zu) 8 8) bf (bits (w.ureg zu) 0 8) false = .ok sh.path → c.continues acc shape true w.mode = .ok tile → tile.acc = acc → tile.fast = false →
      ∃ t, exec (.mxfMma cell slot) s = .next t ∧ others t ∧ t.swarm id k = w.advance none ∧
        (∀ m n, m < sh.m → n < sh.n → quire (t.cell id) (m * sh.n + n) = (quire c (m * sh.n + n)).addAll
          ((List.range sh.kf).map fun j =>
            (decode fa (zpField fa (bits (w.ureg zu) 8 8)) (w.fragElem d (m * sh.kf + j) fa)).mul
              (decode fb (zpField fb (bits (w.ureg zu) 0 8)) (w.fragElem a (n * sh.kf + j) fb)))) ∧
        ∀ e, e < acc ∨ acc + sh.e ≤ e → sget 0 (t.cell id).acc e = sget 0 c.acc e) ∧
    (∀ f tile, fn = 2 → d % 8 = 0 → a = 0 → bf = 0 → w.holds [d + 31] = true → c.matrixIdle = true → Fmt.ofCode af = some f → f ≠ .raw → c.lmErr = [] → c.tabCmd = none →
      w.ureg zu % 64 = 0 → w.ureg zu < 0x180000 → (c.read (w.ureg zu) 64).all (· == 0) = true →
      c.continues acc shape true w.mode = .ok tile → tile.acc = acc → tile.fast = false →
      ∃ t, exec (.mxfOut cell slot) s = .next t ∧ others t ∧ t.swarm id k = { w.advance none with v := (t.swarm id k).v } ∧
        (∀ m n, m < sh.m → n < sh.n → (t.swarm id k).fragElem d (m * sh.n + n) f = (encode f 0 (quire c (m * sh.n + n)).read.1).out) ∧
        ∀ y ∈ (t.cell id).tiles, ¬ (y.acc = acc ∧ y.fast = false))

/-- R155, R205, R213: an SFU function whose table is valid writes to each active lane the value of its table at the lane's operand,
rounded once; R216: SOFTMAX multiplies each active lane by the reciprocal of the row sum of its record, NaR for a sum that is
not a number; R217: RMSNORM ACCUM_FIRST writes the quire of the squares of the active lanes as a record, ACCUM adds them to the
record; R218: APPLY multiplies each active lane by the reciprocal square root of S / n + ε. Nothing else in memory and no other
swarm changes. -/
def Obligations.SpecialFunctions : Prop :=
  ∀ (s : State) (cell : BitVec 10) (slot : BitVec 4) (fn g d a b c sub fmt : Nat) (f : Fmt),
    let id := cell.toNat
    let k := slot.toNat
    let w := s.swarm id k
    let x := rWord 0x40 g fn d a b c + fmt * 2 ^ 12 + sub * 2 ^ 8
    let off := w.ureg b
    let q := (s.cell id).quireAt off
    let on := fun i : Nat => bitAt (w.preg g) i
    let arg := fun i => decode f 0 (w.vreg a i)
    let squares := ((List.range 32).filter fun i => on i).map fun i => (arg i).mul (arg i)
    let others := fun t : State => KeepsSwarms s t id k ∧ t.pkts = s.pkts ∧ t.hbm = s.hbm ∧ t.host.mem = s.host.mem
    let lanes := fun (t : State) (v : Nat → Val) => others t ∧ KeepsBytes s t ∧ t.swarm id k = { w.advance none with v := (t.swarm id k).v } ∧
      ∀ n i, i < 32 → (t.swarm id k).vreg n i = if n = d ∧ on i = true then (encode f 0 (v i)).out % 2 ^ 32 else w.vreg n i
    let record := fun (t : State) (r : Quire) => others t ∧ t.swarm id k = w.advance none ∧ (t.cell id).read off 96 = r.toRecord ∧
      ∀ p o, p ≠ s.phys id ∨ o < off ∨ off + 96 ≤ o → t.lmByte p o = s.lmByte p o
    g < 8 → fmt ∈ [1, 2, 3, 10, 11, 12] → Fmt.ofCode fmt = some f → (s.cell id).lmErr = [] →
    (fn ≤ 5 → b = 0 → sub = 0 → (fn = 5 → c < 16) → (fn ≠ 5 → c = 0) → w.holds [d, a] = true → s.stands id k x false false = true →
      (s.cell id).tabCmd = none → (slotHead (s.cell id).tables (sfSlot x)).isSome = true →
      ∃ t, exec (.sfu cell slot) s = .next t ∧ lanes t fun i => (tabLookup (s.cell id).tables (s.cell id).tableRam (sfSlot x) (arg i)).1) ∧
    (off % 8 = 0 → off ≤ 0x17FF80 → b < 64 →
      (fn = 6 → c = 0 → sub = 0 → w.holds [d, a] = true → s.stands id k x false false = true →
        ∃ t, exec (.softmax cell slot) s = .next t ∧ lanes t fun i => (arg i).mul (rowRecip q.read.1)) ∧
      (fn = 7 → sub = 1 → d = 0 → c = 0 → w.holds [a] = true → s.stands id k x false false = true → (s.cell id).inReplica off 96 = false →
        ∃ t, exec (.rmsnormAccumFirst cell slot) s = .next t ∧ record t (Quire.addAll {} squares)) ∧
      (fn = 7 → sub = 2 → d = 0 → c = 0 → w.holds [a] = true → s.stands id k x false false = true → (s.cell id).inReplica off 96 = false → squares ≠ [] →
        ∃ t, exec (.rmsnormAccum cell slot) s = .next t ∧ record t (q.addAll squares)) ∧
      (fn = 7 → sub = 0 → c < 64 → w.holds [d, a] = true → s.stands id k x false false = true → bits (w.ureg c) 0 32 ≠ 0 →
        ∃ t, exec (.rmsnormApply cell slot) s = .next t ∧
          lanes t fun i => (arg i).mul (tabLookup [] [] 2 (rmsMean q.read.1 (bits (w.ureg c) 0 32) (positDec 32 (bits (w.ureg c) 32 32)))).1)) ∧
    (∀ v, v = .nar ∨ v = .nan → rowRecip v = .nar) ∧ (∀ n, rowRecip (.inf n) = .zero) ∧ rowRecip .zero = .inf false

/-- R112, R113, R132, R162: in swarm 0, SPAWN creates a swarm in the lowest free launch slot and gives the slot, or gives SPAWN_FULL
with UP cleared where the slots or blocks left beside what launches hold back do not suffice; PWAIT gives the slot of the first
park not yet taken and waits while there is none; PREAD and PWRITE read and write a word of a PARKED slot's record, RREAD and
RWRITE a register of a PARKED swarm, with UP set; a target that is not PARKED gives UP = 0 and sets CMD_IGNORED. Every other
swarm, every other register and every byte of memory stays. In another swarm each of them parks with PRIV. -/
def Obligations.SupervisorInstructions : Prop :=
  ∀ (s : State) (cell : BitVec 10) (slot : BitVec 4) (up d a b vb i kind num lane : Nat),
    let id := cell.toNat
    let w := s.swarm id 0
    let tgt := w.ureg a
    let v := s.swarm id tgt
    let next := w.advance none
    let others := fun (t : State) (j : Nat) => KeepsBytes s t ∧ t.pkts = s.pkts ∧ ∀ n, n ≠ 0 → n ≠ j → t.swarm id n = s.swarm id n
    let spawn := rWord 0x60 0 up d a b vb
    let pwait := rWord 0x61 0 0 d 0 0 0
    let pread := rWord 0x62 0 up d a 0 i
    let pwrite := rWord 0x63 0 up 0 a b i
    let field := kind * 2 ^ 22 + num * 2 ^ 14 + lane * 2 ^ 9
    let rread := rWord 0x64 0 up d a 0 0 + field
    let rwrite := rWord 0x65 0 up 0 a b 0 + field
    let valid := (kind = 0 ∧ num < 256) ∨ (kind = 1 ∧ num < 64 ∧ lane = 0) ∨ (kind = 2 ∧ num < 8 ∧ lane = 0) ∨ (kind = 3 ∧ num < 4 ∧ lane = 0)
    up < 4 → d < 64 → a < 64 → b < 64 → 1 ≤ vb → vb ≤ 16 → i < 16 → lane < 32 → valid →
    (slot = 0 →
      (s.stands id 0 spawn true false = true → badPc tgt = false →
        (∀ n l, (s.cell id).freeSlots = n :: l → (s.heldBack id).1 < (n :: l).length → vb + (s.heldBack id).2 ≤ (s.cell id).freeBlocks →
          ∃ t, exec (.spawn cell slot) s = .next t ∧ others t n ∧ t.regs = s.regs ∧ t.swarm id 0 = (next.setU d n).setUp up true ∧
            t.swarm id n = Swarm.create vb tgt (w.ureg b) w.mode) ∧
        ((s.cell id).freeSlots.length ≤ (s.heldBack id).1 ∨ (s.cell id).freeBlocks < vb + (s.heldBack id).2 →
          ∃ t, exec (.spawn cell slot) s = .next t ∧ OnlySwarm s t id 0 ∧ t.swarm id 0 = (next.setU d 0x1013).setUp up false)) ∧
      (s.stands id 0 pwait true false = true →
        (∀ p, firstPark ((s.cell id).supervised.filter fun p => !p.2.2) = some p →
          ∃ t, exec (.pwait cell slot) s = .next t ∧ others t 0 ∧ t.regs = s.regs ∧ t.swarm id 0 = next.setU d p.2.1 ∧
            (t.cell id).supervised = (s.cell id).supervised.map fun q => if q = p then (q.1, q.2.1, true) else q) ∧
        ((∀ p ∈ (s.cell id).supervised, p.2.2 = true) → exec (.pwait cell slot) s = .next s)) ∧
      (tgt < 16 → v.st = .parked → tgt ≠ 0 →
        (s.stands id 0 pread true false = true → ∃ t, exec (.pread cell slot) s = .next t ∧ OnlySwarm s t id 0 ∧
          t.swarm id 0 = (next.setU d ((s.cell id).recWord tgt i)).setUp up true) ∧
        (s.stands id 0 pwrite true false = true → ∃ t, exec (.pwrite cell slot) s = .next t ∧ others t 0 ∧ t.regs = s.regs ∧
          t.swarm id 0 = next.setUp up true ∧
          ∀ j n, j < 16 → n < 16 → (t.cell id).recWord j n = if j = tgt ∧ n = i then pwriteWord i ((s.cell id).recWord tgt i) (w.ureg b) % 2 ^ 64
            else (s.cell id).recWord j n) ∧
        ((kind = 0 → num < v.V) →
          (s.stands id 0 rread true false = true → ∃ t, exec (.rread cell slot) s = .next t ∧ OnlySwarm s t id 0 ∧
            t.swarm id 0 = (next.setU d (match kind with | 0 => v.vreg num lane | 1 => v.ureg num | 2 => v.preg num | _ => (v.upred num).toNat)).setUp up true) ∧
          (s.stands id 0 rwrite true false = true → ∃ t, exec (.rwrite cell slot) s = .next t ∧ others t tgt ∧ t.regs = s.regs ∧
            t.swarm id 0 = next.setUp up true ∧
            t.swarm id tgt = (match kind with
              | 0 => v.setV num lane (w.ureg b) | 1 => v.setU num (w.ureg b) | 2 => v.setP num (w.ureg b) | _ => v.setUp num (w.ureg b % 2 == 1))))) ∧
      (∀ (c : Instr) x, (c = .pread cell slot ∧ x = pread) ∨ (c = .pwrite cell slot ∧ x = pwrite) ∨ (c = .rread cell slot ∧ x = rread) ∨
          (c = .rwrite cell slot ∧ x = rwrite) → s.stands id 0 x true false = true → (16 ≤ tgt ∨ v.st ≠ .parked) →
        ∃ t, exec c s = .next t ∧ others t 0 ∧ t.swarm id 0 = next.setUp up false ∧ t.rd (Reg.cellParkStatusCmdIgnored (s.phys id)) = 1)) ∧
    (∀ (c : Instr) x, (c = .spawn cell slot ∧ x = spawn) ∨ (c = .pwait cell slot ∧ x = pwait) ∨ (c = .pread cell slot ∧ x = pread) ∨
        (c = .pwrite cell slot ∧ x = pwrite) ∨ (c = .rread cell slot ∧ x = rread) ∨ (c = .rwrite cell slot ∧ x = rwrite) →
      slot ≠ 0 → s.stands id slot.toNat x true false = true → s.parksAlone id slot.toNat = true →
      ∃ t, exec c s = .next t ∧ KeepsBytes s t ∧ KeepsSwarms s t id slot.toNat ∧ (t.swarm id slot.toNat).st = .parked ∧
        (t.cell id).recField slot.toNat 2 0 16 = 0x1012)

/-- R126, R133, R114, R162: RESUME makes a PARKED slot ACTIVE as its record describes it (restart point, MODE, loops, branch to
re-execute); RESUME.REISSUE also issues the recorded operation again where the scoreboard has room; PARKREQ parks an ACTIVE slot
at its next boundary with PARK_REQUEST; KILL takes an ACTIVE or PARKED slot to EXITING; PCTL sets UP, and a slot in another
state gives UP = 0 and CMD_IGNORED; swarm 0 can stop itself and cannot resume itself. The command through a debug window does
the same. Registers of the target, every other swarm and every byte of memory stay. -/
def Obligations.SlotCommands : Prop :=
  ∀ (s : State) (cell : BitVec 10) (up a : Nat) (n : BitVec 4) (act : Nat) (viaHost : Bool) (c : Instr),
    let id := cell.toNat
    let w := s.swarm id 0
    let k := n.toNat
    let v := s.swarm id k
    let f := (s.cell id).recField k
    let ran := if viaHost then s.windowGate id = .serve else
      up < 4 ∧ a < 64 ∧ w.ureg a = k ∧ k ≠ 0 ∧ s.stands id 0 (rWord 0x66 0 (up + 4 * act) 0 a 0 0) true false = true
    let sup := fun (t : State) (ok : Bool) => KeepsBytes s t ∧ (∀ j, j ≠ k → (viaHost = true ∨ j ≠ 0) → t.swarm id j = s.swarm id j) ∧
      (viaHost = false → t.swarm id 0 = (w.advance none).setUp up ok)
    (viaHost = true ∧ ((act = 0 ∧ c = .parkCmdResume cell n) ∨ (act = 1 ∧ c = .parkCmdResumeReissue cell n) ∨
        (act = 2 ∧ c = .parkCmdParkRequest cell n) ∨ (act = 3 ∧ c = .parkCmdKill cell n))) ∨
      (viaHost = false ∧ ((act = 0 ∧ c = .pctlResume cell 0) ∨ (act = 1 ∧ c = .pctlResumeReissue cell 0) ∨
        (act = 2 ∧ c = .pctlParkreq cell 0) ∨ (act = 3 ∧ c = .pctlKill cell 0))) →
    (ran → (act ≤ 1 → v.st = .parked → (s.cell id).badRecord k (act == 1) = false → v.asyncFaults = [] →
      ∃ t, exec c s = .next t ∧ sup t true ∧ (t.swarm id k).st = .active ∧ (t.swarm id k).pc = f 0 0 64 ∧
        (t.swarm id k).mode = BitVec.ofNat 64 (f 5 0 64) ∧
        (t.swarm id k).loop0 = { start := f 7 0 32, stop := f 7 32 32, count := f 8 0 32, active := bitAt (f 10 0 8) 0 } ∧
        (t.swarm id k).loop1 = { start := f 8 32 32, stop := f 9 0 32, count := f 9 32 32, active := bitAt (f 10 0 8) 1 } ∧
        (t.swarm id k).replay = (if f 2 24 1 = 1 then some (f 2 28 1 == 1, f 4 0 64) else none) ∧
        (t.swarm id k).v = v.v ∧ (t.swarm id k).u = v.u ∧ (t.swarm id k).p = v.p ∧ (t.swarm id k).up = v.up ∧
        (act = 0 → (t.swarm id k).tokens = v.tokens ∧ (t.cell id).mxQueue = (s.cell id).mxQueue ∧ (t.cell id).agQueue = (s.cell id).agQueue) ∧
        (act = 1 → (s.cell id).inFlight < 256 → v.token (f 10 8 4) < 255 →
          (t.swarm id k).token (f 10 8 4) = v.token (f 10 8 4) + 1 ∧ (t.swarm id k).reissue = none ∧
          (t.cell id).mxQueue.length + (t.cell id).agQueue.length = (s.cell id).mxQueue.length + (s.cell id).agQueue.length + 1)) ∧
    (act ≤ 1 → v.st = .parked → (s.cell id).badRecord k (act == 1) = true → ∃ t, exec c s = .next t ∧ sup t false ∧
      t.swarm id k = v ∧ (t.cell id).recField k 2 0 16 = 0x1016) ∧
    (act = 2 → v.st = .active → v.mem = none → v.reissue = none → v.asyncFaults = [] → s.parksAlone id k = true →
      ∃ t, exec c s = .next t ∧ sup t true ∧ (t.swarm id k).st = .parked ∧ (t.cell id).recField k 2 0 16 = 0x1015 ∧
        (t.cell id).recWord k 13 = 0 ∧ (t.swarm id k).u = v.u ∧ (t.swarm id k).v = v.v) ∧
    (act = 3 → v.st = .active ∨ v.st = .parked → (k ≠ 0 ∨ (s.cell id).supervised = []) →
      ∃ t, exec c s = .next t ∧ sup t true ∧ (t.swarm id k).st = .exiting) ∧
    ((act ≤ 1 ∧ v.st ≠ .parked) ∨ (act = 2 ∧ v.st ≠ .active) ∨ (act = 3 ∧ v.st ≠ .active ∧ v.st ≠ .parked) →
      ∃ t, exec c s = .next t ∧ sup t false ∧ t.swarm id k = v ∧ t.rd (Reg.cellParkStatusCmdIgnored (s.phys id)) = 1)) ∧
    (viaHost = false → up < 4 → a < 64 → w.ureg a = 0 → s.stands id 0 (rWord 0x66 0 (up + 4 * act) 0 a 0 0) true false = true →
      (act ≤ 1 → ∃ t, exec c s = .next t ∧ KeepsBytes s t ∧ t.swarm id 0 = (w.advance none).setUp up false ∧
        t.rd (Reg.cellParkStatusCmdIgnored (s.phys id)) = 1) ∧
      (act = 3 → (s.cell id).supervised = [] → ∃ t, exec c s = .next t ∧ KeepsBytes s t ∧ (t.swarm id 0).st = .exiting ∧
        ∀ j, j ≠ 0 → t.swarm id j = s.swarm id j))

/-- R211, R224, R233: a served write with GO whose OP is the command's is accepted, unless it is refused, with BUSY set and the
staged bytes taken, or refused with ERR set and the tables unchanged; when the command is done it takes effect (a row of the
table RAM, a slot set, a slot cleared, a row read into FTAB_DATA; an entry written, an entry with its count read, a count
cleared), BUSY clears and DONE_COUNT counts. No byte of memory and no swarm changes. -/
def Obligations.CellTables : Prop :=
  ∀ (s : State) (window : BitVec 10) (data : Word) (op : Nat),
    let id := window.toNat
    let p := s.phys id
    let v := data.toNat
    let slot := bits v 16 4
    let row := bits v 0 13
    let entry := bits v 0 10
    let c := s.cell id
    let same := fun t : State => KeepsBytes s t ∧ t.pkts = s.pkts ∧ ∀ j k, t.swarm j k = s.swarm j k
    bitAt v 32 = true → bits v 24 2 = op → s.windowGate id = .serve →
    (∀ i : Instr, (i = .ftabWriteRow window data ∧ op = 0) ∨ (i = .ftabSetSlot window data ∧ op = 1) ∨ (i = .ftabClearSlot window data ∧ op = 2) ∨
        (i = .ftabReadRow window data ∧ op = 3) →
      (s.ftabRefused p op slot row = false → ∃ t, exec i s = .next t ∧ same t ∧ t.rd (Reg.cellFtabCtlBusy p) = 1 ∧
        t.cell id = { c with tabCmd := some { op := op, slot := slot, row := row, data := s.ftabStaged p 8 } }) ∧
      (s.ftabRefused p op slot row = true → ∃ t, exec i s = .next t ∧ same t ∧ t.cells = s.cells ∧ t.rd (Reg.cellFtabCtlErr p) = 1)) ∧
    (∀ i : Instr, (i = .scaleWrite window data ∧ op = 0) ∨ (i = .scaleRead window data ∧ op = 1) ∨ (i = .scaleClearCount window data ∧ op = 2) →
      let d := s.reg (0x10004B8 + p * 0x1000)
      let refused := s.rd (Reg.cellScaleCtlBusy p) = 1 ∨ (op = 0 ∧ 2 ^ 41 ≤ d) ∨ s.applying (chOf p) = true
      (¬ refused → ∃ t, exec i s = .next t ∧ same t ∧ t.rd (Reg.cellScaleCtlBusy p) = 1 ∧
        t.cell id = { c with scaleCmd := some { op := op, row := entry, data := leBytes 8 d } }) ∧
      (refused → ∃ t, exec i s = .next t ∧ same t ∧ t.cells = s.cells ∧ t.rd (Reg.cellScaleCtlErr p) = 1)) ∧
    (∀ x, c.tabCmd = some x → x.op ≤ 3 → ∃ t, exec (.ftabCommandDone window) s = .next t ∧ same t ∧ (t.cell id).tabCmd = none ∧
      t.rd (Reg.cellFtabCtlBusy p) = 0 ∧
      t.rd (Reg.cellFtabCtlDoneCount p) = (s.rd (Reg.cellFtabCtlDoneCount p) + 1) % 2 ^ (Reg.cellFtabCtlDoneCount p).len ∧
      (∀ r, sget 0 (t.cell id).tableRam r = if x.op = 0 ∧ r = x.row then BitVec.ofNat 128 (leNat (x.data.take 16)) else sget 0 c.tableRam r) ∧
      (∀ k, sget {} (t.cell id).tables k = if x.op = 1 ∧ k = x.slot then { header := x.data, base := x.row } else if x.op = 2 ∧ k = x.slot then {}
        else sget {} c.tables k) ∧
      (x.op = 3 → t.reg (ftabData p) + 2 ^ 64 * t.reg (ftabData p + 8) = (sget 0 c.tableRam x.row).toNat)) ∧
    (∀ x, c.scaleCmd = some x → x.op ≤ 2 → ∃ t, exec (.scaleCommandDone window) s = .next t ∧ same t ∧ (t.cell id).scaleCmd = none ∧
      t.rd (Reg.cellScaleCtlBusy p) = 0 ∧
      (∀ r, scaleEntry (t.cell id).scale r = if x.op = 0 ∧ r = x.row then leNat x.data % 2 ^ 64 else scaleEntry c.scale r) ∧
      (∀ r, sget 0 (t.cell id).clips r = if x.op = 2 ∧ r = x.row then 0 else sget 0 c.clips r) ∧
      (x.op = 1 → t.rd (Reg.cellScaleDataEntry p) = scaleEntry c.scale x.row % 2 ^ (Reg.cellScaleDataEntry p).len))

/-- R284: a served REGION_CMD with GO starts in its mode for every cell of its channel, BUSY set, or is refused while one is in
progress; where it arrives at a cell that no launch holds it empties the on-demand registers, in ADDR mode those read from the
address named, and with the last cell BUSY clears and DONE sets. R289: a scrub read of a good block or word goes on to the next
one; a single-bit error is corrected and counted and raises the level by one up to 7, unless pinned; a pass that found none
lowers it by one. -/
def Obligations.RegionSyncAndScrub : Prop :=
  ∀ (s : State),
    (∀ (ch : BitVec 2) (data : Word) (mode : Nat) (i : Instr), (i = .regionSyncAll ch data ∧ mode = 0) ∨ (i = .regionSyncAddr ch data ∧ mode = 1) →
      let c := ch.toNat
      bitAt data.toNat 0 = true → bits data.toNat 1 1 = mode → s.chanGate c = .serve →
      (s.rd (Reg.dispRegionCmdBusy c) = 0 → ∃ t, exec i s = .next t ∧ KeepsBytes s t ∧ t.cells = s.cells ∧ t.rd (Reg.dispRegionCmdBusy c) = 1 ∧
        (t.dsp c).syncLeft = cellsOf c ∧ (t.dsp c).syncMode = (mode == 1) ∧ (t.dsp c).syncAddr = s.rd (Reg.dispRegionSyncAddrDesc c)) ∧
      (s.rd (Reg.dispRegionCmdBusy c) = 1 → ∃ t, exec i s = .next t ∧ KeepsBytes s t ∧ t.cells = s.cells ∧ t.disp = s.disp ∧
        t.rd (Reg.dispRegionCmdBusy c) = 1)) ∧
    (∀ cell : BitVec 10,
      let id := cell.toNat
      let c := chOf id
      let d := s.dsp c
      id ∈ d.syncLeft → d.syncLeft.Nodup → s.cellInReset id = false → (∀ k, k < 16 → (s.ctx c k).phase.holds = false) →
      ∃ t, exec (.regionSyncArrival cell) s = .next t ∧ KeepsBytes s t ∧ (t.dsp c).syncLeft = d.syncLeft.erase id ∧
        (t.cell id).regions = (s.cell id).regions.filter (fun r => decide (r.num < s.regionCount c r.ctx) || (d.syncMode && r.addr != d.syncAddr)) ∧
        (d.syncLeft = [id] → t.rd (Reg.dispRegionCmdBusy c) = 0 ∧ t.rd (Reg.dispRegionCmdDone c) = 1) ∧ (d.syncLeft ≠ [id] → t.regs = s.regs)) ∧
    (∀ (n : BitVec 3) (ecc : EccSeen),
      let k := n.toNat
      let pos := (sget (0, false) s.stackScrub k).1
      let found := (sget (0, false) s.stackScrub k).2
      let b := stackBlock k pos / 64
      let level := Reg.memScrubCtlLevel k
      s.pwr.porst = false → s.stackUp k = true → sget 0 s.hbmErr b = 0 →
      (ecc = .good → ∃ t, exec (.scrubRead (.stack n) ecc) s = .next t ∧ KeepsBytes s t ∧ sget 0 t.hbmErr b = 0 ∧
        (pos + 1 < 2 ^ 30 → sget (0, false) t.stackScrub k = (pos + 1, found) ∧ t.regs = s.regs) ∧
        (pos + 1 = 2 ^ 30 → sget (0, false) t.stackScrub k = (0, false) ∧
          t.rd level = if found = true ∨ s.rd (Reg.memScrubCtlPin k) = 1 then s.rd level else s.rd level - 1)) ∧
      (ecc = .single → pos + 1 < 2 ^ 30 → ∃ t, exec (.scrubRead (.stack n) ecc) s = .next t ∧ KeepsBytes s t ∧ sget 0 t.hbmErr b = 0 ∧
        (stackOf (64 * b) = k → sget (0, false) t.stackScrub k = (pos + 1, true) ∧
          t.rd (Reg.memStatusCorrected k) = min (2 ^ (Reg.memStatusCorrected k).len - 1) (s.rd (Reg.memStatusCorrected k) + 1) ∧
          t.rd level = if s.rd (Reg.memScrubCtlPin k) = 1 then s.rd level else min 7 (s.rd level + 1)))) ∧
    (∀ (cell : BitVec 10) (ecc : EccSeen),
      let id := cell.toNat
      let p := s.phys id
      let pos := (s.cell id).scrubPos
      s.pwr.porst = false → isLogical id = true → s.cellInReset id = false → (s.island p).stopped = false → sget 0 (s.cell id).lmErr pos = 0 → pos + 1 < 196608 →
      (ecc = .good → ∃ t, exec (.scrubRead (.cell cell) ecc) s = .next t ∧ KeepsBytes s t ∧ t.regs = s.regs ∧ (t.cell id).scrubPos = pos + 1) ∧
      (ecc = .single → ∃ t, exec (.scrubRead (.cell cell) ecc) s = .next t ∧ KeepsBytes s t ∧ (t.cell id).scrubPos = pos + 1 ∧
        sget 0 (t.cell id).lmErr pos = 0 ∧ (t.cell id).scrubFound = true ∧
        t.rd (Reg.cellLmEccLevel p) = if s.rd (Reg.cellLmEccPin p) = 1 then s.rd (Reg.cellLmEccLevel p) else min 7 (s.rd (Reg.cellLmEccLevel p) + 1)))

/-- R244, R245: a profile write without the lock goes to the four dispatchers and clears APPLIED, and with it raises GOV_LOCKED and
changes no profile; a dispatcher that applies it takes it. R246: a valid ISLE_CTL write bounds its island and no other. R240: a
droop trip counts. R239: a settled voltage lets a waiting raise take effect, no higher than the ceiling of now. R241: after a
control period no running scalable island in use exceeds its ceiling, and VDD_CORE, from 650 to 900 mV, is what the regulator is
told. R249: the governor's own clock failure is kept and asserts FAULT_N; R250: a stall is recorded with its two islands; R242:
a comparator trip with the governor failed stops every cell, ingest and camera island. -/
def Obligations.Governor : Prop :=
  ∀ (s : State),
    (∀ data : Word, let p := bits data.toNat 0 2
      s.blockGate = .serve →
      (s.rd Reg.govProfileLock = 0 → ∃ t, exec (.govProfileWrite data) s = .next t ∧ KeepsBytes s t ∧ t.rd Reg.govProfileProfile = p ∧
        t.rd Reg.govProfileApplied = 0 ∧ (∀ c, c < 4 → sget 0 t.gov.pendingProfile c = p + 1) ∧ t.disp = s.disp ∧ t.gov.islands = s.gov.islands) ∧
      (s.rd Reg.govProfileLock = 1 → ∃ t, exec (.govProfileWrite data) s = .next t ∧ KeepsBytes s t ∧ t.gov = s.gov ∧ t.disp = s.disp ∧
        t.rd Reg.govProfileProfile = s.rd Reg.govProfileProfile ∧ bitAt (t.rd Reg.govStatusEvents) 9 = true)) ∧
    (∀ (ch : BitVec 2) (p : Nat), sget 0 s.gov.pendingProfile ch.toNat = p + 1 → s.gov.failed = false → s.dispUp ch.toNat = true →
      ∃ t, exec (.profileApply ch) s = .next t ∧ (t.dsp ch.toNat).profile = p ∧ sget 0 t.gov.pendingProfile ch.toNat = 0 ∧
        t.cells = s.cells ∧ t.gov.islands = s.gov.islands) ∧
    (∀ data : Word, let v := data.toNat
      let i := bits v 48 11
      let ok := isIsland i && boundsOk i (bits v 0 16) (bits v 16 16)
      s.blockGate = .serve → bitAt v 63 = true → ∃ t, exec (.govIsleWrite data) s = .next t ∧ KeepsBytes s t ∧ t.cells = s.cells ∧
        ∀ j, t.island j = if ok = true ∧ j = i then { s.island i with floor := bits v 0 16, ceil := bits v 16 16, set := true } else s.island j) ∧
    (∀ island : BitVec 11, let i := island.toNat
      (s.pwr.running = true → (isleRange i).isSome = true → (s.island i).stopped = false → ∃ t, exec (.droopTrip island) s = .next t ∧
        t.regs = s.regs ∧ t.cells = s.cells ∧ ∀ j, t.island j = if j = i then { s.island i with droops := (s.island i).droops + 1 } else s.island j) ∧
      (∀ f, (s.island i).pending = some f → s.gov.failed = false → (s.island i).stopped = false →
        let g := min f (max (s.isleTop i) (s.island i).freq)
        ∃ t, exec (.voltageSettled island) s = .next t ∧ t.regs = s.regs ∧ t.cells = s.cells ∧
          ∀ j, t.island j = if j = i then { s.island i with freq := g, volt := voltAt i g, pending := none } else s.island j)) ∧
    (∀ a b : BitVec 11, s.pwr.running = true → s.gov.failed = false → s.rd Reg.govLimitsStallLimit ≠ 0 → isIsland a.toNat = true → isIsland b.toNat = true →
      ∃ t, exec (.isleStall a b) s = .next t ∧ KeepsBytes s t ∧ t.gov = s.gov ∧ t.rd Reg.govStatusStallFrom = a.toNat ∧
        t.rd Reg.govStatusStallTo = b.toNat ∧ bitAt (t.rd Reg.govStatusEvents) 8 = true) ∧
    (s.serving = true → s.gov.failed = false →
      exec (.govClockCheck true) s = .next s ∧
      (∃ t, exec (.govClockCheck false) s = .next t ∧ KeepsBytes s t ∧ t.gov = { s.gov with failed := true } ∧ t.pwr = { s.pwr with faultN := true }) ∧
      ∀ m : GovMeas, (∀ x ∈ m.islands, x.clockFail = false ∧ quarterOf x < 460) →
        ∃ t, exec (.govControlPeriod m) s = .next t ∧ KeepsBytes s t ∧ t.gov.periods = s.gov.periods + 1 ∧ t.gov.powerNow = m.power ∧
          t.gov.junction = hottest m ∧ (∀ i ∈ scalable, t.movable i = true → (t.island i).freq ≤ t.isleTop i) ∧
          (s.pwr.vrFault = false → t.gov.vddCore = t.pwr.vrCommand ∧ 650 ≤ t.gov.vddCore ∧ t.gov.vddCore ≤ 900)) ∧
    (s.serving = true → s.gov.failed = true → s.gov.trip = false → s.fnCount = 0 → (∀ ch k, (s.ctx ch k).phase.holds = false) →
      ∃ t, exec .junctionComparatorTrip s = .next t ∧ KeepsBytes s t ∧ t.gov.trip = true ∧ bitAt (t.rd Reg.govStatusEvents) 3 = true ∧
        ∀ i ∈ tripIsles, (t.island i).stopped = true)

/-- R293: a used lane goes DOWN to LOCKING to UP, and DOWN again with ING_LANE_DOWN. R296, R298: the header of the first copy of a
new expected identity opens a pending event with this tick in the lowest free slot, and the copy is to be delivered; a copy of
an identity that no fragment expects is unknown and counted. R294, R295: data blocks add to the copy on their lane; an intact
copy is accepted, leaves its bytes in the event and enters the completion window; a framing failure mutes its lane. R298, R299:
a timeout that has passed leaves no live event. R303: a handoff removes its frame and keeps its digest for the seal. R305: a
resynchronisation is busy from RESYNC until the frames have gone, and then the mark and the window are empty. -/
def Obligations.IngestLanes : Prop :=
  ∀ (s : State) (ch : BitVec 2) (lane : BitVec 4),
    let c := ch.toNat
    let l := lane.toNat
    let g := s.ingOf c
    let p := s.igSec c
    let live := s.laneUsed c l = true ∧ s.laneState c l = .up ∧ s.isPair c = false ∧ s.ingSettle c = s
    let kept := fun t : State => t.hbm = s.hbm ∧ t.host.mem = s.host.mem
    (s.laneUsed c l = true →
      (s.laneState c l = .down → ∃ t, exec (.feLaneSignal ch lane) s = .next t ∧ t.laneState c l = .locking ∧ t.regs = s.regs ∧ t.cells = s.cells) ∧
      (s.laneState c l = .locking → ∃ t, exec (.feLaneLock ch lane) s = .next t ∧ t.laneState c l = .up ∧ t.regs = s.regs ∧ t.cells = s.cells) ∧
      (s.laneState c l = .up → ∃ t, exec (.ingLaneDown ch lane) s = .next t ∧ t.laneState c l = .down ∧ bitAt (t.rd (Reg.ingEventsEvents c)) 11 = true)) ∧
    (live → g.onLane l = none → s.liveIgnored = false → (s.dsp c).drain = false → s.rd (Reg.ingCtlResyncBusy c) = 0 →
      ∀ (header : Bytes) (x : Copy), fieldLE header 0 1 = 0x78 → x = { lane := l, tick := s.now, raw := fit 24 header, disp := .resync } →
      (∀ k j, igIndex p x.source x.index = some k → x.ident ∉ g.window → g.live x.event = none → g.events.length < 64 → s.ingSlot c = some j →
        (s.rd (Reg.ingMarkValid c) = 0 ∨ atOrBelow x.event (s.rd (Reg.ingMarkMark c)) = false) → (∀ y ∈ g.events, y.event ≠ x.event) →
        ∃ t, exec (.copyHeader ch lane header .none) s = .next t ∧ kept t ∧ t.cells = s.cells ∧ t.regs = s.regs ∧
          (t.ingOf c).events = g.events ++ [{ event := x.event, tick := s.now, slot := some j }] ∧ (t.ingOf c).slots = g.slots ++ [j] ∧
          (t.ingOf c).copies = g.copies ++ [{ x with disp := .deliver, frag := k }]) ∧
      (igIndex p x.source x.index = none → ∃ t, exec (.copyHeader ch lane header .none) s = .next t ∧ kept t ∧ t.cells = s.cells ∧
        (t.ingOf c).events = g.events ∧ (t.ingOf c).copies = g.copies ++ [{ x with disp := .unknown }] ∧
        t.rd (Reg.ingCountBUnknown c) = min (2 ^ (Reg.ingCountBUnknown c).len - 1) (s.rd (Reg.ingCountBUnknown c) + 1))) ∧
    (live → ∀ (x : Copy), g.onLane l = some x → x.disp ∈ [.unknown, .dup, .late, .drained, .ignored, .stopped, .lost, .excess, .later] →
      (∀ block : Word, ∃ t, exec (.dataBlock ch lane block) s = .next t ∧ kept t ∧ t.cells = s.cells ∧ t.regs = s.regs ∧
        (t.ingOf c).copies = g.copies.map fun y => if y = x then { x with raw := x.raw ++ leBytes 8 block.toNat } else y)) ∧
    (live → ∀ (x : Copy) (e : FrameEv) (tail : Bytes), let d := { x with raw := x.raw ++ fit 8 tail }
      fieldLE tail 0 1 = 0xE1 → g.copies = [x] → x.lane = l → x.receiving = true → x.disp = .deliver → d.sound = true → g.events = [e] → e.event = x.event →
      e.stage ≠ .closed → e.lag = false → e.slot.isSome = true → x.len = igExp p x.frag → bitAt (fieldLE d.raw 14 1) 1 = false → fieldLE d.raw (d.raw.length - 7) 1 = 0 →
      s.rd Reg.hrdStatusState = 0 → (∃ k, k < igFrags p ∧ k ≠ x.frag ∧ sget .missing e.frags k = .missing) →
      ∃ t, exec (.copyEof ch lane tail) s = .next t ∧ kept t ∧ t.cells = s.cells ∧ (t.ingOf c).copies = [] ∧ d.ident ∈ (t.ingOf c).window ∧
        (t.ingOf c).events = [{ e with stage := .opened, frags := sset .missing e.frags x.frag (.accepted x.len (sha256 d.raw) []) }]) ∧
    (live → g.onLane l = none → ∃ t, exec (.framingFailure ch lane) s = .next t ∧ kept t ∧ t.cells = s.cells ∧ l ∈ (t.ingOf c).mute ∧
      t.rd (Reg.ingCountBBadCopy c) = min (2 ^ (Reg.ingCountBBadCopy c).len - 1) (s.rd (Reg.ingCountBBadCopy c) + 1)) ∧
    (s.ingOn c = true → ∀ (ev : BitVec 48) (e : FrameEv),
      (g.live ev.toNat = some e → s.ingFlush c = s → jumped (e.tick + igTimeout p) e.shift ≤ s.now →
        ∃ t, exec (.asmTimeout ch ev) s = .next t ∧ (t.ingOf c).live ev.toNat = none) ∧
      ((s.dsp c).drain = false → s.ingSettle c = s → g.frame ev.toNat = some e → g.nextReady e = true →
        s.wayStopped { kind := .store, src := .ingest c, dst := .cell (c * 256 + fieldLE p 14 2 % 256) } = false →
        ∃ t, exec (.frameHandoff ch ev) s = .next t ∧ (∀ y ∈ (t.ingOf c).events, y.event ≠ ev.toNat) ∧
          ∃ h, t.sealer.ingest.head? = some h ∧ h.ch = c ∧ h.event = ev.toNat)) ∧
    (s.ingGate c = .serve → s.rd (Reg.ingCtlResyncBusy c) = 0 → ∃ t, exec (.ingResync ch) s = .next t ∧ t.rd (Reg.ingCtlResyncBusy c) = 1) ∧
    (s.rd (Reg.ingCtlResyncBusy c) = 1 → (s.island (0x418 + c)).stopped = false → g.events = [] → (∀ x ∈ g.copies, x.disp ≠ .resync) →
      ∃ t, exec (.ingResyncDone ch) s = .next t ∧ kept t ∧ t.cells = s.cells ∧ t.rd (Reg.ingCtlResyncBusy c) = 0 ∧ t.rd (Reg.ingMarkValid c) = 0 ∧
        t.ingOf c = { g with window := [], lost := [] })

/-- R310: a frame start joins the open group that its frame number names, in a free raw buffer; R312, R321: a long packet that no
context binds is counted, and embedded data joins its frame; R312, R313: a frame end or a passed timeout ends the frame of its
context; R311: a passed merge timeout closes its group. R315: processing takes the lowest free frame slot for the first group
not processed and leaves it processed; R322: a handoff removes the oldest group and keeps its digest for the seal. R325: an
acknowledged sensor write leaves the bus and is kept in its request; one that fails takes the request's further writes with it;
R326: a poll of the ring takes CONSUMER to PRODUCER. R329: a resynchronisation leaves no group, FRAME 0 and the settings
unknown. -/
def Obligations.CameraFrames : Prop :=
  ∀ (s : State) (ch ctx : BitVec 2),
    let c := ch.toNat
    let k := ctx.toNat
    let g := s.camOf c
    let p := s.caSec c
    let on := s.camOn c = true ∧ s.isFollower c = false ∧ s.isPair c = false
    let kept := fun t : State => t.hbm = s.hbm ∧ t.host.mem = s.host.mem ∧ t.cells = s.cells
    (on → s.camSettle c = s →
      (∀ (num : BitVec 16) (x : CamGroup) i, k < caCtxs p → g.running k = none → s.liveIgnored = false → (s.dsp c).drain = false →
        g.joins k num.toNat = some x → (x.frames.any fun f => f.ctx == k) = false →
        ((List.range (caRaw p)).find? fun i => !(g.busyBufs k).contains i) = some i →
        ∃ t, exec (.camFrameStart ch ctx num .none .none) s = .next t ∧ kept t ∧ t.regs = s.regs ∧ (t.camOf c).quiet = s.now ∧ (t.camOf c).nextF = g.nextF ∧
          (t.camOf c).groups = g.groups.map fun y => if y.f = x.f then { y with frames := y.frames ++ [{ ctx := k, num := num.toNat, start := s.now, buf := i }] } else y) ∧
      (∀ (vc : BitVec 4) (dt : BitVec 6) (data : Bytes) crcOk full,
        ((∀ j, j < caCtxs p → fieldLE (caCtx p j) 0 1 = vc.toNat → if dt.toNat = 0x12 then fieldLE (caCtx p j) 2 1 ≠ 1 else caDt p j ≠ dt.toNat) →
          ∃ t, exec (.camLongPacket ch vc dt .none data crcOk full .none) s = .next t ∧ kept t ∧ t.cam = s.cam ∧
            t.rd (Reg.camCountBUnsupported c) = min (2 ^ (Reg.camCountBUnsupported c).len - 1) (s.rd (Reg.camCountBUnsupported c) + 1)) ∧
        (∀ x f, dt.toNat = 0x12 → crcOk = true → full = false → k < caCtxs p → fieldLE (caCtx p k) 0 1 = vc.toNat → fieldLE (caCtx p k) 2 1 = 1 →
          (∀ j, j < k → ¬ (fieldLE (caCtx p j) 0 1 = vc.toNat ∧ fieldLE (caCtx p j) 2 1 = 1)) → g.running k = some (x, f) → f.dropping = false →
          ∃ t, exec (.camLongPacket ch vc dt .none data crcOk full .none) s = .next t ∧ kept t ∧ t.regs = s.regs ∧
            (t.camOf c).running k = some ({ x with frames := x.frames.map fun y => if y.ctx == k && !y.ended then { y with emb := y.emb ++ data } else y }, { f with emb := f.emb ++ data }))) ∧
      (∀ (num : BitVec 16) x f, g.running k = some (x, f) → caH p ≤ f.lines → ∃ t, exec (.camFrameEnd ch ctx num .none .none) s = .next t ∧ kept t ∧
        (t.camOf c).running k = none)) ∧
    (s.camOn c = true →
      (∀ x f, g.running k = some (x, f) → caH p ≤ f.lines → jumped (f.start + 1000 * fieldLE p 0x18 4) f.shift ≤ s.now →
        ∃ t, exec (.frameTimeout ch ctx) s = .next t ∧ kept t ∧ (t.camOf c).running k = none) ∧
      (∀ x, (g.groups.find? fun y => !y.closed && decide (jumped (y.tick + 1000 * fieldLE p 0x14 4) y.shift ≤ s.now)) = some x →
        (∀ f ∈ x.frames, f.ended = true) → g.group x.f = some x →
        ∃ t, exec (.mergeTimeout ch) s = .next t ∧ kept t ∧ (∀ y ∈ (t.camOf c).groups, y.f = x.f → y.closed = true) ∧
          (t.camOf c).recent = (x.num :: g.recent).take 4) ∧
      ((s.dsp c).drain = false → s.camSettle c = s →
        (∀ x i, (g.groups.find? fun y => !y.done) = some x → ((List.range (fieldLE p 0x4A 1)).find? fun i => !g.slots.contains i) = some i →
          x.closed = true → x.frames ≠ [] → ∃ t, exec (.camProcessStart ch) s = .next t ∧
            (∀ y ∈ (t.camOf c).groups, y.f = x.f → y.done = true ∧ y.slot = some i)) ∧
        (∀ x l, g.groups = x :: l → x.stuck = false → x.closed = true → x.frames = [] → x.done = false → x.slot = none →
          ∃ t, exec (.camHandoff ch) s = .next t ∧ (∀ y ∈ (t.camOf c).groups, y.f ≠ x.f) ∧
            ∃ h, t.sealer.camera.head? = some h ∧ h.ch = c ∧ h.event = x.f)) ∧
      (∀ w l, g.bus = w :: l → w.since + 1000 * fieldLE p 0x10 4 ≤ s.now → ∃ t, exec (.writeWindow ch) s = .next t ∧
        (t.camOf c).bus = (w :: l).filter fun x => x.index != w.index) ∧
      ((s.dsp c).drain = false → g.quiet + 1000000 ≤ s.now → s.hbmErr = [] → s.absentStack (caBase p 3) 4 = none →
        ∃ t, exec (.camRingPoll ch) s = .next t ∧ (t.camOf c).quiet = s.now ∧ t.rd (Reg.camSeqConsumer c) = leNat (s.hbmRead (caBase p 3) 4))) ∧
    (on → ∀ w l r, g.bus = w :: l → (g.reqs.find? fun r => r.index == w.index) = some r →
      (1 < r.left → ∃ t, exec (.sensorWriteDone ch true) s = .next t ∧ kept t ∧ t.regs = s.regs ∧ (t.camOf c).bus = l ∧
        ((t.camOf c).reqs.find? fun r => r.index == w.index) = some { r with ack := r.ack ||| 2 ^ w.write, left := r.left - 1 }) ∧
      (∃ t, exec (.sensorWriteDone ch false) s = .next t ∧ (t.camOf c).bus = (w :: l).filter fun x => x.index != w.index)) ∧
    (s.camGate c = .serve → ∃ t, exec (.camResync ch) s = .next t ∧ kept t ∧ (t.camOf c).groups = [] ∧ (t.camOf c).reqs = [] ∧ (t.camOf c).bus = [] ∧
      t.rd (Reg.camStatusFrame c) = 0 ∧ t.rd (Reg.camStatusSettingsKnown c) = 0)

/-- R335, R336: enough usable lanes take a port from DETECT to TRAIN and from TRAIN to ALIGN; alignment sends an INIT flit; an INIT
that disagrees is recorded and takes the port back to DETECT, or leaves it in RETRAIN, and one that agrees makes it UP with the
lanes both sides have; a corrupt one is counted. R335, R353: the timeouts of TRAIN, ALIGN, INIT and RETRAIN lead to DETECT with
their events. A command or a lost lane takes an UP port to RETRAIN. R340: a marker's errors are counted, and its ACTIVE_MASK
narrows the active set. R344: after MSG_HOLD the held messages are discarded and counted. -/
def Obligations.WaggleLink : Prop :=
  ∀ (s : State) (quad : BitVec 4),
    let q := quad.toNat
    let w := s.wglOf q
    let kept := fun t : State => KeepsBytes s t ∧ t.cells = s.cells ∧ t.pkts = s.pkts
    let event := fun (t : State) k => bitAt (t.rd (Reg.wglEventsEvents q)) k = true
    (∀ p, s.wgPort q = some p → s.portOn q = true →
      (∀ lanes : BitVec 4, let l := s.usable q lanes.toNat
        (s.linkState q = 1 → ∃ t, exec (.wglDetect quad lanes) s = .next t ∧ kept t ∧ (∀ i, i < 4 → t.rd (laneField q i 40 1) = (bitAt lanes.toNat i).toNat) ∧
          t.linkState q = if popcount 4 l < wpMinLanes p then 1 else 2) ∧
        (s.linkStage q = 2 → ∃ t, exec (.wglTrainDone quad lanes) s = .next t ∧ kept t ∧ (∀ i, i < 4 → t.rd (laneField q i 41 1) = (bitAt l i).toNat) ∧
          t.linkStage q = (if popcount 4 l < wpMinLanes p then 2 else 3) ∧ (wpMinLanes p ≤ popcount 4 l → (t.wglOf q).trained = l))) ∧
      (s.linkStage q = 3 → ∃ t, exec (.wglAlignDone quad) s = .next t ∧ kept t ∧ t.linkStage q = 4 ∧ (t.wglOf q).wire = w.wire ++ [s.initFlit q p]) ∧
      (∀ flit : Bytes, s.linkStage q = 4 → let b := flit.take 64
        (badFlit flit = true → ∃ t, exec (.wglInitFlit quad flit) s = .next t ∧ kept t ∧ t.wgl = s.wgl ∧ t.linkState q = s.linkState q ∧ event t 4 ∧
          t.rd (Reg.wglCountACrcFail q) = min (2 ^ (Reg.wglCountACrcFail q).len - 1) (s.rd (Reg.wglCountACrcFail q) + 1)) ∧
        (badFlit flit = false → flType flit = 3 →
          (∀ o, s.initBad q p b = some o → ∃ t, exec (.wglInitFlit quad flit) s = .next t ∧ kept t ∧ event t 1 ∧ t.rd (Reg.wglStatusInitField q) = o ∧
            t.linkState q = if s.linkState q = 4 then 1 else s.linkState q) ∧
          (s.initBad q p b = none → ∃ t, exec (.wglInitFlit quad flit) s = .next t ∧ t.linkState q = 5 ∧ (t.wglOf q).downAt = none ∧
            (bitAt (fieldLE b 7 1) 0 = false → w.downAt = none → t.rd (Reg.wglStatusActive q) = s.initActive q b)))) ∧
      (s.linkState q = 5 →
        (s.chanGate (quadCh q) = .serve → ∃ t, exec (.wglRetrainCmd quad) s = .next t ∧ kept t ∧ t.linkState q = 6 ∧ t.linkStage q = 2 ∧ event t 2 ∧ (t.wglOf q).replay = w.replay) ∧
        ∀ lane : BitVec 2, let l := lane.toNat
          bitAt (s.rd (Reg.wglStatusActive q)) l = true →
          (∃ t, exec (.wglLaneLockLoss quad lane) s = .next t ∧ kept t ∧ t.linkState q = 6 ∧ event t 2 ∧ t.rd (laneField q l 41 1) = 0 ∧ (t.wglOf q).replay = w.replay) ∧
          ∀ (portion : Bytes) (parity : BitVec 8) (symbols : Nat),
            let n := portion.length
            let good := 6 ≤ n ∧ crc8 (portion.take (n - 1)) = fieldLE portion (n - 1) 1
            let mask := fieldLE portion 1 1 % 16
            s.rd (Reg.wglCtlRetireEn q) = 0 → (∀ e ∈ w.masks, e.1 ≠ l → e.2.1 = fieldLE portion 2 2 → e.2.2 = mask) →
            ∃ t, exec (.wglMarker quad lane portion parity symbols) s = .next t ∧ kept t ∧ t.linkState q = 5 ∧
              (good → t.rd (Reg.wglStatusActive q) = s.rd (Reg.wglStatusActive q) &&& mask ∧
                t.rd (laneField q l 0 16) = min 65535 (s.rd (laneField q l 0 16) + if wpFec p = true then symbols else popcount 8 (parity.toNat ^^^ fieldLE portion 4 1))) ∧
              (¬ good → t.rd (Reg.wglStatusActive q) = s.rd (Reg.wglStatusActive q)))) ∧
    (s.linkState q = 2 → 100000000 ≤ s.inState q → ∃ t, exec (.wglTrainTimeout quad) s = .next t ∧ kept t ∧ t.linkState q = 1 ∧ event t 0) ∧
    (s.linkState q = 3 → 10000000 ≤ s.inState q → ∃ t, exec (.wglAlignTimeout quad) s = .next t ∧ kept t ∧ t.linkState q = 1 ∧ event t 0) ∧
    (s.linkState q = 4 → 1000000 ≤ s.inState q → ∃ t, exec (.wglInitTimeout quad) s = .next t ∧ kept t ∧ t.linkState q = 1 ∧ event t 1) ∧
    (s.linkState q = 6 → 10000000 ≤ s.inState q → (∀ r ∈ s.relays (quadCh q), cePrev r.2 ≠ 2) → s.tmRole ≠ 2 → s.fnCount = 0 →
      ∃ t, exec (.wglRetrainTimeout quad) s = .next t ∧ kept t ∧ t.linkState q = 1 ∧ event t 3 ∧
        t.wglOf q = { w with replay := [], part := [], tapBad := [], phase := 0, downAt := some s.now, entered := s.now, tx := w.tx.map fun m => { m with left := flitsOf m.bytes } }) ∧
    (∀ p d, s.wgPort q = some p → w.downAt = some d → s.linkState q ≠ 5 → d + wpHold p ≤ s.now →
      ∃ t, exec (.msgHold quad) s = .next t ∧ kept t ∧ t.wglOf q = { w with tx := [], downAt := none } ∧ t.linkState q = s.linkState q ∧
        t.rd (Reg.wglCountBLost q) = min (2 ^ (Reg.wglCountBLost q).len - 1) (s.rd (Reg.wglCountBLost q) + (w.tx.filter fun m => m.vl != 0).length))

/-- R338, R334: a MSG flit that is corrupt, uncorrectable or out of order is discarded and counted with WGL_CRC_FAIL, and the
expected SEQ stays; one in order advances it, enters its virtual lane (a message of one flit is complete at once) and clears the
NAK. R337, R338: an ACK of a SEQ never sent takes the link to RETRAIN, any other leaves it UP. R339: a NULL or NAK flit reports
the freed counts. R338: a NAK, or ACK_TIMEOUT without progress, replays every held flit and counts it; after eight replays
without progress the link goes to RETRAIN. -/
def Obligations.WaggleFlits : Prop :=
  ∀ (s : State) (quad : BitVec 4) (p : Bytes),
    let q := quad.toNat
    let w := s.wglOf q
    let kept := fun t : State => KeepsBytes s t ∧ t.cells = s.cells ∧ t.pkts = s.pkts
    let event := fun (t : State) k => bitAt (t.rd (Reg.wglEventsEvents q)) k = true
    let counts := fun (t : State) (f : RegField) => t.rd f = min (2 ^ f.len - 1) (s.rd f + 1)
    s.wgPort q = some p → s.portOn q = true → s.linkState q = 5 →
    (∀ flit : Bytes, let vl := flVl flit
      let link := fun t : State => t.linkState q = if (w.acked (flAck flit) s.now).isSome = true then 5 else 6
      (∀ fec tap, (fec = .uncorrectable ∨ badFlit flit = true ∨ (flType flit = 1 ∧ flSeq flit ≠ w.rxSeq)) →
        ∃ t, exec (.wglMsgFlit quad flit fec tap) s = .next t ∧ kept t ∧ (t.wglOf q).rxSeq = w.rxSeq ∧ (t.wglOf q).inbox = w.inbox ∧ (t.wglOf q).part = w.part ∧
          t.linkState q = 5 ∧ counts t (Reg.wglCountACrcFail q) ∧ event t 4 ∧ (fec = .uncorrectable → counts t (Reg.wglCountAFecUncorr q) ∧ event t 5)) ∧
      (badFlit flit = false →
        (∀ fec, flType flit = 1 → flSeq flit = w.rxSeq → fec ≠ .uncorrectable → ∃ t, exec (.wglMsgFlit quad flit fec .none) s = .next t ∧ kept t ∧
          (t.wglOf q).rxSeq = (w.rxSeq + 1) % 4096 ∧ (t.wglOf q).nakAt = none ∧ link t ∧ (fec = .corrected → counts t (Reg.wglCountAFecCorr q)) ∧
          (sget [] w.part vl = [] → fieldLE flit 6 2 ≤ 32 → (t.wglOf q).inbox =
            w.inbox ++ [{ vl := vl, bytes := flit.take (32 + fieldLE flit 6 2), tick := s.now, tapBad := w.tapBad.contains vl }])) ∧
        ((∀ i, i < 4 → bitAt (fieldLE flit 8 1) i = false) →
          (flType flit = 0 → ∃ t, exec (.wglNullFlit quad flit) s = .next t ∧ kept t ∧ link t ∧
            (t.wglOf q).peerFreed = (List.range 4).map fun i => fieldLE flit (2 * i) 2) ∧
          (∀ u, flType flit = 2 → w.acked (flAck flit) s.now = some u → u.replay ≠ [] → ∃ t, exec (.wglNakFlit quad flit) s = .next t ∧ kept t ∧
            (t.wglOf q).peerFreed = ((List.range 4).map fun i => fieldLE flit (2 * i) 2) ∧
            (u.replays < 8 → (t.wglOf q).replays = u.replays + 1 ∧ counts t (Reg.wglCountAReplays q) ∧ t.linkState q = 5) ∧
            (8 ≤ u.replays → t.linkState q = 6 ∧ event t 2))))) ∧
    (w.replay ≠ [] → w.progress + wpAckTimeout p ≤ s.now → ∃ t, exec (.ackTimeout quad) s = .next t ∧ kept t ∧
      (w.replays < 8 → (t.wglOf q).replays = w.replays + 1 ∧ counts t (Reg.wglCountAReplays q) ∧ t.linkState q = 5 ∧
        (t.wglOf q).wire = w.wire ++ w.replay.map fun h => mkFlit h.seq w.ack 1 h.vl (h.out s.now)) ∧
      (8 ≤ w.replays → t.linkState q = 6 ∧ event t 2))

/-- R343: of the oldest request of its lane a duplicate or a stale one is counted, and a bad one or one of a draining channel is
recorded with its code; none of these is executed. R345: a DATA message goes to its cell in pieces, and its MACK waits for all
of them, or to its host queue; a STORE writes its bytes and no others; a CHAIN adds its records to its instance; an ANNOUNCE
announces its relay; each that is finished is recorded with STATUS 0. R343: a MACK takes the message it answers from the
transmit store, and counts a refused one. Every consumed message leaves the inbox. -/
def Obligations.WaggleMessages : Prop :=
  ∀ (s : State) (quad : BitVec 4) (m : RxMsg),
    let q := quad.toNat
    let c := quadCh q
    let w := s.wglOf q
    let b := m.bytes
    let arg := mArg b
    let counts := fun (t : State) (f : RegField) => t.rd f = min (2 ^ f.len - 1) (s.rd f + 1)
    let taken := fun t : State => (t.wglOf q).inbox = w.inbox.erase m
    let ends := fun (t : State) status => ((t.wglOf q).window (mSrc b) (mStream b)).getLast? = some (mId b, status)
    s.portOn q = true → s.rd Reg.hrdStatusState = 0 → s.isPair c = false →
    (∀ (i : Instr) vl, (i = .wglData quad ∧ vl = 3) ∨ (i = .wglStore quad ∧ vl = 3) ∨ (i = .wglChain quad ∧ vl = 2) ∨ (i = .wglAnnounce quad ∧ vl = 2) →
      w.headOf vl = some m → s.disposition q m ≠ 5 → ∃ t, exec i s = .next t ∧ KeepsBytes s t ∧ t.cells = s.cells ∧ t.pkts = s.pkts ∧ t.disp = s.disp ∧ taken t ∧
        (s.disposition q m = 1 → counts t (Reg.wglCountBDuplicate q)) ∧ (s.disposition q m = 2 → counts t (Reg.wglCountBStale q)) ∧
        (s.disposition q m = 3 → ends t 0x600C) ∧ (s.disposition q m = 4 → ends t 0x600E)) ∧
    (s.disposition q m = 5 →
      (w.headOf 3 = some m →
        (∀ e, mType b = 1 → s.wgStream q (mStream b) = some e →
          (wsSink e = 0 → ∃ t, exec (.wglData quad) s = .next t ∧ KeepsBytes s t ∧ t.cells = s.cells ∧ taken t ∧ t.pkts.length = s.pkts.length + cdiv b.length 512 ∧
            (t.wglOf q).running = w.running ++ [{ src := mSrc b, stream := mStream b, id := mId b, left := cdiv b.length 512 }]) ∧
          (1 < wsSink e → fieldLE b 12 2 < 64 → s.queueUp (fieldLE b 12 2) = true → recBytes b.length ≤ s.stagingFree →
            ∃ t, exec (.wglData quad) s = .next t ∧ KeepsBytes s t ∧ t.cells = s.cells ∧ t.pkts = s.pkts ∧ taken t ∧
              ∃ r, t.host.staged = s.host.staged ++ [r] ∧ r.queue = fieldLE b 12 2 ∧ r.tag = fieldLE b 12 2 ∧ r.body = b)) ∧
        (mType b = 2 →
          let id := bits (fieldLE arg 0 8) 0 10
          let off := bits (fieldLE arg 0 8) 20 21
          let n := b.length - 32
          isLogical id = true → off + n ≤ 0x180000 → 0 < n → n ≤ 512 → s.closedOn c (chOf id) = none → s.inboundCause id off n false = 0 →
          ∃ t, exec (.wglStore quad) s = .next t ∧ t.hbm = s.hbm ∧ t.host.mem = s.host.mem ∧ t.pkts = s.pkts ∧ taken t ∧ ends t 0 ∧
            (∀ j, j < n → t.lmByte (s.phys id) (off + j) = b.getD (32 + j) 0) ∧
            (∀ p a, p ≠ s.phys id ∨ a < off ∨ off + n ≤ a → t.lmByte p a = s.lmByte p a))) ∧
      (w.headOf 2 = some m →
        (∀ r e, let n := fieldLE arg 2 6
          mType b = 3 → (s.relays c).find? (fun r => ceId r.2 == fieldLE arg 0 1 && ceStation r.2 == fieldLE arg 1 1 + 1 && fromPrev r.2 (some (q % 4, mStream b))) = some (r, e) →
          s.inst c r n = none → s.closedInst c r n = none → s.isAnnounced c r = true → bitAt (fieldLE arg 14 1) 0 = false → fieldLE arg 12 2 = 0 →
          32 < b.length → (b.length - 32) % ceRecLen e = 0 → (b.length - 32) / ceRecLen e < ceRecords e →
          ∃ t, exec (.wglChain quad) s = .next t ∧ KeepsBytes s t ∧ t.cells = s.cells ∧ taken t ∧ ends t 0 ∧
            (t.inst c r n).map (·.inCount) = some ((b.length - 32) / ceRecLen e)) ∧
        (∀ r e, mType b = 4 → bitAt (fieldLE arg 6 1) 0 = true →
          (s.relays c).find? (fun r => ceId r.2 == fieldLE arg 0 1 && fromPrev r.2 (some (q % 4, mStream b)) && ceStation r.2 == fieldLE arg 1 1 + 1 &&
            ceCount r.2 == fieldLE arg 2 1 && ceForm r.2 == fieldLE arg 3 1 && ceRecords r.2 == fieldLE arg 4 2) = some (r, e) →
          ∃ t, exec (.wglAnnounce quad) s = .next t ∧ KeepsBytes s t ∧ t.cells = s.cells ∧ taken t ∧ ends t 0 ∧ t.isAnnounced c r = true))) ∧
    (let mine := fun x : TxMsg => x.vl != 0 && x.stream == fieldLE b 16 1 && x.id == fieldLE b 20 4;
      w.headOf 0 = some m → s.badMack q b = false → w.tx.any mine = true →
      ∃ t, exec (.wglMack quad) s = .next t ∧ KeepsBytes s t ∧ t.cells = s.cells ∧ t.pkts = s.pkts ∧ taken t ∧ (t.wglOf q).tx = w.tx.filter (fun x => !mine x) ∧
        (fieldLE b 24 2 = 0 → t.regs = s.regs) ∧ (fieldLE b 24 2 ≠ 0 → counts t (Reg.wglCountBRefused q)))

/-- R348: a piece of a station's output, in order and not the last, is kept for its instance at the relay, and one that no relay of
its chain names raises DISP_INVALID; a forward of an announced relay adds its records to its instance; R349: an announcement
that agrees announces the relay. The packet leaves the mesh. R350, R351: an armed instance whose timeout has passed becomes
INCOMPLETE with the bit of the station before it: it is no longer open, and stands in the completion window. -/
def Obligations.Chains : Prop :=
  ∀ (s : State) (i : Nat) (p : Packet) (ch : BitVec 2),
    let c := ch.toNat
    let bs := p.payload.drop 16
    s.rd Reg.hrdStatusState = 0 →
    (s.arriving i [.msg] = some p → p.dst = .dispatcher c → p.route = none → 1 < bits p.arg.toNat 16 8 →
      let n := fieldLE p.payload 0 8
      let x := p.payload.drop 8
      let user := bits p.arg.toNat 48 16
      let kept := fun t : State => KeepsBytes s t ∧ t.cells = s.cells ∧ ∃ a : Packet, a.kind = .ack ∧ a.dst = p.src ∧ t.pkts = s.pkts.eraseIdx i ++ [a]
      (s.relayOf c (bits p.arg.toNat 16 8) (bits p.arg.toNat 0 10) = none → ∃ t, exec (.chainOutputPiece i .none) s = .next t ∧ kept t ∧
        bitAt (t.rd (Reg.dispEventsEvents c)) 6 = true ∧ t.disp = s.disp) ∧
      (∀ r e, s.relayOf c (bits p.arg.toNat 16 8) (bits p.arg.toNat 0 10) = some (r, e) → s.inst c r n = none → s.closedInst c r n = none →
        8 ≤ p.payload.length → n < 2 ^ 48 → x.length % ceRecLen e = 0 → x.length ≤ cePiece e * ceRecLen e → ceLast e = false → user % 2 ^ 15 = 0 →
        x.length < ceRecords e * ceRecLen e → ∃ t, exec (.chainOutputPiece i .none) s = .next t ∧ kept t ∧ t.regs = s.regs ∧
          t.inst c r n = some { entry := r, inst := n, outBytes := x, outNext := 1 })) ∧
    (s.arriving i [.chainForward] = some p → p.dst = .dispatcher c → ∀ r e,
      let arg := p.payload.take 16
      let n := fieldLE arg 2 6
      (s.relays c).find? (fun r => ceId r.2 == fieldLE arg 0 1 && ceStation r.2 == fieldLE arg 1 1 + 1 && fromPrev r.2 none) = some (r, e) →
      s.inst c r n = none → s.closedInst c r n = none → s.isAnnounced c r = true → bitAt (fieldLE arg 14 1) 0 = false → fieldLE arg 12 2 = 0 →
      bs ≠ [] → bs.length % ceRecLen e = 0 → bs.length / ceRecLen e < ceRecords e →
      ∃ t, exec (.chainForward i) s = .next t ∧ KeepsBytes s t ∧ t.cells = s.cells ∧ t.regs = s.regs ∧ (t.inst c r n).map (·.inCount) = some (bs.length / ceRecLen e)) ∧
    (s.arriving i [.chainAnnounce] = some p → p.dst = .dispatcher c → ∀ r e,
      let arg := p.payload
      bitAt (fieldLE arg 6 1) 0 = true →
      (s.relays c).find? (fun r => ceId r.2 == fieldLE arg 0 1 && fromPrev r.2 none && ceStation r.2 == fieldLE arg 1 1 + 1 &&
        ceCount r.2 == fieldLE arg 2 1 && ceForm r.2 == fieldLE arg 3 1 && ceRecords r.2 == fieldLE arg 4 2) = some (r, e) →
      ∃ t, exec (.inDeviceAnnounce i) s = .next t ∧ KeepsBytes s t ∧ t.cells = s.cells ∧ t.regs = s.regs ∧ t.isAnnounced c r = true) ∧
    (∀ (entry : BitVec 6) (inst : BitVec 48) e x, s.inst c entry.toNat inst.toNat = some x → s.chainEntry c entry.toNat = some e → s.chainExpired x = true →
      ceLast e = false → x.outBytes = [] → x.forwarded = false →
      ∃ t, exec (.chainTimeout ch entry inst) s = .next t ∧ KeepsBytes s t ∧ t.cells = s.cells ∧ t.inst c entry.toNat inst.toNat = none ∧
        t.closedInst c entry.toNat inst.toNat = some { entry := entry.toNat, inst := inst.toNat, incomplete := true, missing := 2 ^ (ceStation e - 1) })

/-- R356: MREF lock and loss change SOURCE with their events. R357: a slew tick adds an increment or omits one. R358: SYNC_IN edges
are counted; on an armed device the edge sets the counter to EPOCH_VALUE and clears ARM, and on the master of a formed group it
schedules the step four beacon periods later; an arm is refused on a member of a formed group and while forming. R364: at
STEP_AT the counter jumps. R359: a jump moves the pending ticks of contexts, ports and armed instances by the same amount. -/
def Obligations.CounterAndEpoch : Prop :=
  ∀ s : State,
    let kept := fun t : State => KeepsBytes s t ∧ t.cells = s.cells ∧ t.pkts = s.pkts
    let event := fun (t : State) k => bitAt (t.rd Reg.timeEventsEvents) k = true
    let jumps := fun (t : State) (j : Int) => t.now = ofI 64 ((s.now : Int) + j) ∧ event t 2 ∧
      (∀ ch k, ch < 4 → k < 16 → (t.ctx ch k).trig.deadline = (s.ctx ch k).trig.deadline.map fun d => jumped d j) ∧
      (∀ ch, ch < 4 → (t.dsp ch).chains = (s.dsp ch).chains.map fun x => { x with timeout := x.timeout.map fun d => jumped d j }) ∧
      (∀ q, q < 16 → (t.wglOf q).entered = jumped (s.wglOf q).entered j ∧ (t.wglOf q).progress = jumped (s.wglOf q).progress j) ∧
      (∀ f, f < 2 → (t.fn f).armStart = jumped (s.fn f).armStart j)
    let calm := s.rd Reg.hrdStatusState = 0 ∧ ∀ ch k, (sget {} (s.dsp ch).arms k).armed = false
    (s.pwr.running = true →
      (s.rd Reg.timeEpochCtlArm = 0 ∨ s.time.armTick = s.now → ∃ t, exec .syncInEdge s = .next t ∧ kept t ∧ t.counter = s.counter ∧ t.time = s.time ∧
        t.rd Reg.timeStatusSyncEdges = min (2 ^ Reg.timeStatusSyncEdges.len - 1) (s.rd Reg.timeStatusSyncEdges + 1)) ∧
      (s.rd Reg.timeEpochCtlArm = 1 → s.time.armTick ≠ s.now →
        (s.group = 3 → s.tmRole = 1 → ∃ t, exec .syncInEdge s = .next t ∧ kept t ∧ t.counter = s.counter ∧ t.rd Reg.timeEpochCtlArm = 0 ∧
          t.time = { s.time with stepAt := some (s.now + 4 * s.tmPeriod), stepJump := (s.rd Reg.timeEpochValueValue : Int) - s.now }) ∧
        (¬ (s.group = 3 ∧ s.tmRole = 1) → calm → ∃ t, exec .syncInEdge s = .next t ∧ kept t ∧ t.rd Reg.timeEpochCtlArm = 0 ∧
          t.now = s.rd Reg.timeEpochValueValue ∧ jumps t ((s.rd Reg.timeEpochValueValue : Int) - s.now))) ∧
      (s.tmMref ≠ 0 → s.rd Reg.timeStatusSource ≠ 1 → s.rd Reg.hrdStatusState = 0 →
        ∃ t, exec .mrefLock s = .next t ∧ kept t ∧ t.rd Reg.timeStatusSource = 1 ∧ event t 1 ∧ t.counter = s.counter) ∧
      (s.rd Reg.timeStatusSource = 1 → s.rd Reg.hrdStatusState = 0 →
        ∃ t, exec .mrefLoss s = .next t ∧ kept t ∧ t.rd Reg.timeStatusSource = 2 ∧ event t 0 ∧ t.counter = s.counter) ∧
      (999 ≤ s.time.slewTick →
        (0 < s.time.slew → exec .counterSlew s = .next { s with counter := s.counter + 2, time := { s.time with slew := s.time.slew - 1, slewTick := 0 } }) ∧
        (s.time.slew < 0 → exec .counterSlew s = .next { s with time := { s.time with slew := s.time.slew + 1, slewTick := 0 } }))) ∧
    (∀ a, s.time.stepAt = some a → a ≤ s.now → calm → ∃ t, exec .groupStep s = .next t ∧ kept t ∧ t.time.stepAt = none ∧ jumps t s.time.stepJump) ∧
    (s.blockGate = .serve →
      (s.armRefused = true → ∃ t, exec .timeEpochArm s = .next t ∧ kept t ∧ t.time = s.time ∧ t.rd Reg.timeEpochCtlArm = s.rd Reg.timeEpochCtlArm ∧
        bitAt (t.rd Reg.hostEventsEvents) 15 = true) ∧
      (s.armRefused = false → ∃ t, exec .timeEpochArm s = .next t ∧ kept t ∧ t.rd Reg.timeEpochCtlArm = 1 ∧ t.time = { s.time with armTick := s.now }) ∧
      (∃ t, exec .timeEpochCancel s = .next t ∧ kept t ∧ t.rd Reg.timeEpochCtlArm = 0 ∧ t.time = s.time)) ∧
    (s.armRefused = true ↔ (s.group = 3 ∧ s.tmRole = 2) ∨ s.group = 2)

/-- R360: after BEACON_PERIOD a SYNC goes out on each downstream stream. R362, R364: a SYNC from upstream is taken with its tick,
and its step is scheduled in a formed group; a DELAY_REQ from downstream is kept for the next SYNC. R369: a JOIN waits while
this device is syncing; one that agrees is collected; one that does not refuses the group, naming device and field; FORM from
upstream sets the roster and forms a joining device; REFUSE refuses it. R371: LEAVE from downstream takes the device off. R363:
BEACON_LOST; R369: FORM_TIMEOUT; a command leaves a formed group or retries a refused one. Each request consumed is recorded
with STATUS 0. -/
def Obligations.GroupOfDevices : Prop :=
  ∀ s : State,
    let kept := fun t : State => KeepsBytes s t ∧ t.cells = s.cells
    let event := fun (t : State) k => bitAt (t.rd Reg.timeEventsEvents) k = true
    (∀ (quad : BitVec 4) (m : RxMsg),
      let q := quad.toNat
      let w := s.wglOf q
      let b := m.bytes
      let arg := mArg b
      let pl := b.drop 32
      let up := s.isUp q (mStream b)
      let done := fun t : State => kept t ∧ t.pkts = s.pkts ∧ t.counter = s.counter ∧ (t.wglOf q).inbox = w.inbox.erase m ∧
        ((t.wglOf q).window (mSrc b) (mStream b)).getLast? = some (mId b, 0)
      let refuses := fun (t : State) dev field => t.rd Reg.timeGroupRefusedDev = dev ∧ t.rd Reg.timeGroupRefusedField = field ∧ event t 5 ∧
        t.group = if s.group = 2 then 4 else s.group
      s.portOn q = true → s.rd Reg.hrdStatusState = 0 → w.headOf 1 = some m → s.disposition q m = 5 → mType b = 5 →
      (bKind b = 0 → up = true → fieldLE pl 0 8 = 0 → ∃ t, exec (.beaconSync quad) s = .next t ∧ done t ∧ t.time.lastSync = m.tick ∧ t.time.lost = false ∧
        t.time.level = (fieldLE arg 9 1 + 1) % 8 ∧
        t.time.stepAt = if fieldLE pl 16 8 ≠ 0 ∧ s.now < fieldLE pl 16 8 ∧ s.group = 3 then some (fieldLE pl 16 8) else s.time.stepAt) ∧
      (bKind b = 1 → up = false → ∃ t, exec (.beaconDelayReq quad) s = .next t ∧ done t ∧
        t.time = { s.time with echoes := (q, mStream b, fieldLE arg 0 8, m.tick) :: s.time.echoes.filter fun e => !(e.1 == q && e.2.1 == mStream b) }) ∧
      (bKind b = 2 → up = false → let group := fieldLE arg 10 2;
        (s.group = 1 → ∃ t, exec (.beaconJoin quad) s = .next t ∧ done t ∧ t.time = { s.time with held := s.time.held ++ [leBytes 2 group ++ pl] }) ∧
        (s.group = 2 ∨ s.group = 3 → s.joinBad group pl = none → s.tmRole ≠ 1 → ∃ t, exec (.beaconJoin quad) s = .next t ∧ done t ∧
          t.time = { s.time with joins := s.time.joins ++ [fieldLE pl 0 1] }) ∧
        (∀ f, s.group = 2 ∨ s.group = 3 → s.joinBad group pl = some f → ∃ t, exec (.beaconJoin quad) s = .next t ∧ done t ∧ t.time = s.time ∧ refuses t (fieldLE pl 0 1) f)) ∧
      (bKind b = 3 → up = true → s.group = 2 → pl.length = 32 → ∃ t, exec (.beaconForm quad) s = .next t ∧ done t ∧ t.group = 3 ∧ event t 6 ∧ t.roster = pl) ∧
      (bKind b = 4 → up = true → ∃ t, exec (.beaconRefuse quad) s = .next t ∧ done t ∧ t.time = s.time ∧ refuses t (fieldLE pl 0 1) (fieldLE pl 1 1)) ∧
      (bKind b = 5 → up = false → s.tmRole ≠ 1 → ∃ t, exec (.beaconLeave quad) s = .next t ∧ done t ∧ t.rd Reg.timeGroupRefusedField = fieldLE pl 1 1 ∧
        t.time = { s.time with joins := s.time.joins.filter (· != fieldLE pl 0 1) } ∧ t.group = s.group)) ∧
    (s.pwr.running = true → s.tmRole ≠ 0 → s.time.lastBeacon + s.tmPeriod ≤ s.now → ∃ t, exec .beaconPeriod s = .next t ∧ kept t ∧
      t.regs = s.regs ∧ t.time = { s.time with lastBeacon := s.now } ∧
      (∀ q st, s.downStreams = [(q, st)] → s.wglUp q = false → (s.tmRole = 2 → s.time.firstDone = true) →
        (t.wglOf q).tx.length = (s.wglOf q).tx.length + 1)) ∧
    (s.group = 3 → s.tmRole = 2 → s.time.lost = false → s.time.lastSync + 4 * s.tmPeriod < s.now →
      ∃ t, exec .beaconLost s = .next t ∧ kept t ∧ t.time = { s.time with lost := true } ∧ event t 8) ∧
    (s.group = 2 → s.time.since + s.tmForm ≤ s.now → ∃ t, exec .formTimeout s = .next t ∧ kept t ∧ t.group = 4 ∧
      t.rd Reg.timeGroupRefusedField = 9 ∧ event t 5 ∧ (s.tmRole ≠ 1 → t.rd Reg.timeGroupRefusedDev = s.devId)) ∧
    (s.blockGate = .serve → s.tmRole = 2 →
      (s.group = 3 → ∃ t, exec .groupLeave s = .next t ∧ kept t ∧ t.group = 1 ∧ t.rd Reg.timeGroupRefusedField = 0 ∧ event t 7 ∧ t.time.joins = []) ∧
      (s.group = 4 → ∃ t, exec .groupRetry s = .next t ∧ kept t ∧ t.group = 1 ∧ t.time.joins = [] ∧ t.time.firstDone = false))

/-- R380: a waiting context that finds its resources reserves them; its swarms are then made in the lowest free slots of every cell
of its rectangle with the launch word, and it runs. R383: a blocked cell aborts it. R381, R384: when no swarm is left it goes on
to its next entry with what it has gathered, or ends. R385 to R387: a parked context is saved: its cells are freed and it is
counted; a saved one reserves again and, once its areas have been read, runs. No byte of memory changes in the steps that move
no bytes. -/
def Obligations.ContextsAndLaunches : Prop :=
  ∀ (s : State) (ch : BitVec 2) (ctx : BitVec 4),
    let c := ch.toNat
    let k := ctx.toNat
    let x := s.ctx c k
    let e := s.ctxEntry c k
    let kept := fun t : State => KeepsBytes s t ∧ t.pkts = s.pkts
    let others := fun t : State => ∀ j, j ≠ k → t.ctx c j = s.ctx c j
    let lone := x.trig.hostRef = none ∧ (s.dsp c).queue = []
    let event := fun (t : State) n => bitAt (t.rd (Reg.dispEventsEvents c)) n = true
    (x.phase = .waiting → s.mayBegin c = true →
      (s.blockedBy c k = none → s.waitingAbove c k = false → s.canReserve c k = true → modeAdapt (leMode e) = false → leChain e = none →
        ∃ t, exec (.launchBegin ch ctx) s = .next t ∧ kept t ∧ others t ∧ t.ctx c k =
          { x with phase := .reserved, beginTick := s.now, mode := BitVec.ofNat 64 (leMode e), modes := x.modes ++ [BitVec.ofNat 64 (leMode e)], adapt := none }) ∧
      (∀ code, s.blockedBy c k = some code → lone → x.trig.deadline = none → s.fnCount = 0 →
        ∃ t, exec (.launchBegin ch ctx) s = .next t ∧ kept t ∧ (t.ctx c k).phase = .dead ∧ event t 2 ∧
          t.rd (Reg.dispCountAFaulted c) = min (2 ^ (Reg.dispCountAFaulted c).len - 1) (s.rd (Reg.dispCountAFaulted c) + 1))) ∧
    (x.phase = .reserved → s.pwr.resetChannel ≠ some c → s.leRegions c e = [] → s.leReplicas c e = [] →
      ∀ host, ∃ t, exec (.launchSwarmCreate ch ctx host) s = .next t ∧ kept t ∧ others t ∧ t.regs = s.regs ∧ t.ctx c k = { x with phase := .running } ∧
        ∀ id ∈ s.ctxCells c k, ∀ i ∈ (s.cell id).freeSlots.take (leSwarms e),
          t.swarm id i = { Swarm.create (leVb e) (leStart e) (s.launchWord c k) x.mode with ctx := some k, adapt := x.adapt }) ∧
    (x.phase = .running → s.ctxEmpty c k = true →
      (∀ n, leNext e = some n → ∃ t, exec (.launchComplete ch ctx) s = .next t ∧ kept t ∧ others t ∧ t.regs = s.regs ∧
        (t.ctx c k).phase = .waiting ∧ (t.ctx c k).entry = n ∧ (t.ctx c k).trig = x.trig ∧ (t.ctx c k).modes = x.modes ∧ (t.ctx c k).pieces = x.pieces) ∧
      (leNext e = none → x.ready.isSome = true → lone → ∃ t, exec (.launchComplete ch ctx) s = .next t ∧ kept t ∧ others t ∧ t.regs = s.regs ∧
        t.ctx c k = {})) ∧
    (x.phase = .parking → s.ctxParked c k = true → s.ctxEmpty c k = false →
      ∃ t, exec (.preemptSaveStart ch ctx) s = .next t ∧ kept t ∧ others t ∧ t.cells = s.cells ∧ t.regs = s.regs ∧ t.ctx c k = { x with phase := .saving }) ∧
    (∀ u, x.phase = .saving → s.saveCells c k (s.ctxCells c k) = (u, true) →
      ∃ t, exec (.preemptSaveDone ch ctx) s = .next t ∧ t.hbm = u.hbm ∧ (t.ctx c k).phase = .saved ∧ event t 7 ∧
        ∀ id ∈ u.ctxCells c k, (t.cell id).slotsOfCtx k = []) ∧
    (x.phase = .saved → s.blockedBy c k = none → s.waitingAbove c k = false → s.canReserve c k = true → s.leRegions c e = [] →
      ∃ t, exec (.contextRestore ch ctx) s = .next t ∧ kept t ∧ others t ∧ t.regs = s.regs ∧ t.ctx c k = { x with phase := .restoring, beginTick := s.now }) ∧
    (∀ u l, x.phase = .restoring → s.readAreas c k (s.ctxCells c k) = (u, some l) →
      (l.any fun y => (s.cell y.1).tileInWay (fieldLE y.2 4 2) (y.2.drop (64 + saveSwarmLen (16 * leVb e) * fieldLE y.2 3 1))) = false →
      ∃ t, exec (.contextRestoreDone ch ctx) s = .next t ∧ t.hbm = u.hbm ∧ (t.ctx c k).phase = .running ∧ (t.ctx c k).folded = [])

/-- R379, R366: a GO with a count still to come arms its slot; an unlisted one raises REG_ENCODING and arms nothing. R365: a count
that is reached fires: its slot is free and its trigger, with T the count, is queued or takes the free context. R379: a
cancelled count raises TRIG_CANCELLED. R378: a TRIGGER message becomes a trigger, with T inherited where its flag says so; a bad
one raises DISP_INVALID. R388, R395: a piece of a living context's result is kept, and a whole result goes to be sealed; a bad
piece raises DISP_INVALID. R377, R389: a queued trigger or a context whose deadline has passed leaves the queue or has its
output gone, with LATE_RESULT. -/
def Obligations.TriggersAndResults : Prop :=
  ∀ (s : State) (ch : BitVec 2),
    let c := ch.toNat
    let d := s.dsp c
    let event := fun (t : State) n => bitAt (t.rd (Reg.dispEventsEvents c)) n = true
    let opened := s.dispUp c = true ∧ s.configured c = true ∧ s.isPair c = false ∧ s.fnCount = 0 ∧ d.drain = false ∧ d.queue.length < 64
    let takes := fun (t : State) (ok : Trigger → Prop) =>
      (d.freeCtxs = [] → ∃ u, (t.dsp c).queue = d.queue ++ [u] ∧ ok u) ∧
      (∀ k, d.freeCtxs = [k] → d.queue = [] → (t.ctx c k).phase = .waiting ∧ (t.ctx c k).entry = (t.ctx c k).trig.head ∧ ok (t.ctx c k).trig)
    (∀ data : Word, bitAt data.toNat 48 = true → s.chanGate c = .serve →
      let u := s.writeReg .disp c 0x20 all64 data.toNat
      let slot := u.rd (Reg.dispArmCtlSlot c)
      let entry := u.rd (Reg.dispArmCtlEntry c)
      let n := u.rd (Reg.dispArmCountC c)
      let bad := (sget {} (u.dsp c).arms slot).armed || !u.isHead c entry 4 || (u.dsp c).drain || !u.configured c
      u.liveIgnored = false →
        (bad = true → ∃ t, exec (.dispArmGo ch data) s = .next t ∧ KeepsBytes s t ∧ t.disp = s.disp ∧ bitAt (t.rd Reg.hostEventsEvents) 15 = true) ∧
        (bad = false → u.now < n → ∃ t, exec (.dispArmGo ch data) s = .next t ∧ KeepsBytes s t ∧ t.regs = u.regs ∧
          ∀ i, sget {} (t.dsp c).arms i = if i = slot then { armed := true, count := n, entry := entry, pastBegin := u.rd (Reg.dispArmCtlPastBegin c) == 1 } else sget {} d.arms i)) ∧
    (∀ slot : BitVec 4, let i := slot.toNat
      let a := sget {} d.arms i
      a.armed = true → s.rd Reg.hrdStatusState = 0 →
      (s.chanGate c = .serve → leDeadline (s.launchEntry c a.entry) = 0 → ∃ t, exec (.dispArmCancel ch slot) s = .next t ∧ KeepsBytes s t ∧
        sget {} (t.dsp c).arms i = {} ∧ event t 5 ∧ t.rd (Reg.dispCountACancelled c) = min (2 ^ (Reg.dispCountACancelled c).len - 1) (s.rd (Reg.dispCountACancelled c) + 1)) ∧
      (a.count ≤ s.now → s.group ≠ 3 → opened → s.isHead c a.entry 4 = true → leDeadline (s.launchEntry c a.entry) = 0 →
        ∃ t, exec (.countFire ch slot) s = .next t ∧ KeepsBytes s t ∧ t.cells = s.cells ∧ t.regs = s.regs ∧ sget {} (t.dsp c).arms i = {} ∧
          takes t fun u => u.head = a.entry ∧ u.kind = 4 ∧ u.tick = a.count ∧ u.event = a.count % 2 ^ 48 ∧ u.deadline = none)) ∧
    (∀ i p, s.arriving i [.msg] = some p → p.dst = .dispatcher c →
      let h := p.payload
      let flags := fieldLE h 2 1
      let user := bits p.arg.toNat 48 16
      (bits p.arg.toNat 16 8 = 1 →
        let bad := h.length != 24 || flags / 2 != 0 || fieldLE h 3 5 != 0 || fieldLE h 14 2 != 0
        (bad = true → ∃ t, exec (.triggerMessage i .none) s = .next t ∧ KeepsBytes s t ∧ t.cells = s.cells ∧ t.disp = s.disp ∧ event t 6) ∧
        (bad = false → opened → s.isHead c (fieldLE h 0 2) 5 = true → leDeadline (s.launchEntry c (fieldLE h 0 2)) = 0 →
          ∃ t, exec (.triggerMessage i .none) s = .next t ∧ KeepsBytes s t ∧ t.cells = s.cells ∧
            takes t fun u => u.head = fieldLE h 0 2 ∧ u.kind = 5 ∧ u.event = fieldLE h 8 6 ∧ u.deadline = none ∧
              u.tick = if bitAt flags 0 = true then fieldLE h 16 8 else s.now)) ∧
      (bits p.arg.toNat 16 8 = 0 →
        let k := bits (fieldLE h 0 8) 48 4
        let x := s.ctx c k
        let y := { x with pieces := sset [] x.pieces (user % 2 ^ 15) (h.drop 8), lastPiece := if bitAt user 15 then some (user % 2 ^ 15) else x.lastPiece }
        (s.badPiece c k user h = true → ∃ t, exec (.resultPiece i .none) s = .next t ∧ KeepsBytes s t ∧ t.cells = s.cells ∧ t.disp = s.disp ∧ event t 6) ∧
        (s.badPiece c k user h = false →
          ((∀ n, y.lastPiece = some n → y.pieces.length ≠ n + 1) → ∃ t, exec (.resultPiece i .none) s = .next t ∧ KeepsBytes s t ∧ t.cells = s.cells ∧
            t.regs = s.regs ∧ t.ctx c k = y) ∧
          (∀ n, y.lastPiece = some n → y.pieces.length = n + 1 → s.fnCount = 0 → x.ready = none → x.outLeft = false → x.trig.due s.now = true → s.sealDown = false →
            ∃ t, exec (.resultPiece i .none) s = .next t ∧ KeepsBytes s t ∧ t.cells = s.cells ∧ (t.ctx c k).ready = some s.now ∧ (t.ctx c k).outLeft = true ∧
              ∃ j, (t.dsp c).sealJobs = d.sealJobs ++ [j] ∧ j.ctx = k ∧ j.trig = x.trig ∧ j.result = y.pieces.flatMap (·.2))))) ∧
    (s.dispUp c = true → d.chains = [] → d.waitMatch = [] → s.rd Reg.hrdStatusState = 0 →
      (∀ u, (∀ k, k < 16 → s.ctxLate c k = false) → d.queue = [u] → u.due s.now = false → u.hostRef = none →
        ∃ t, exec (.deadline ch) s = .next t ∧ KeepsBytes s t ∧ (t.dsp c).queue = [] ∧ event t 0) ∧
      (∀ k, k < 16 → (∀ j, j < 16 → (s.ctxLate c j = true ↔ j = k)) → d.queue = [] → (s.ctx c k).trig.hostRef = none →
        leAbortLate (s.launchEntry c (s.ctx c k).trig.head) = false →
        ∃ t, exec (.deadline ch) s = .next t ∧ KeepsBytes s t ∧ t.ctx c k = { s.ctx c k with outLeft := true } ∧ event t 0))

/-- R401: a manifest command that is refused sets ERR and changes nothing of the engine; one accepted is busy, and when it is done
the digest over each range's entry and bytes is the channel's weights digest. R403: the oldest sealed result leaves, and one for
a host queue is staged with its header, its seal over the prefix, the tail and the result, and the result. R407, R408: the
OVERFLOW entry ends the run of lost entries once it fits; REARM starts a new epoch. R409 to R412: GO starts a replay of a source
that is not refused, or resumes a paused one; an idle entry is passed over; a gap ends or is skipped; a missing member pauses;
the end and STOP end it with their cause. -/
def Obligations.SealAndHoard : Prop :=
  ∀ s : State,
    (∀ data : Word, bitAt data.toNat 0 = true → s.blockGate = .serve →
      let u := s.writeReg .seal_ 0 0 all64 data.toNat
      let n := u.rd Reg.sealWctlCount
      let a := u.rd Reg.sealWmanAddr
      let bad := u.sealer.command.isSome || u.sealDown || a % 64 != 0 || decide (2 ^ 39 < a + 16 * n) || (u.absentStack a (16 * n)).isSome
      (bad = true → ∃ t, exec (.sealManifestGo data) s = .next t ∧ KeepsBytes s t ∧ t.sealer = s.sealer ∧ bitAt (t.rd Reg.sealWctlErr) 0 = true) ∧
      (bad = false → ∃ t, exec (.sealManifestGo data) s = .next t ∧ KeepsBytes s t ∧ t.rd Reg.sealWctlBusy = 1 ∧
        t.sealer = { s.sealer with command := some (u.rd Reg.sealWctlChannel, n, a) })) ∧
    (∀ ch n a, s.sealer.command = some (ch, n, a) → s.hbmErr = [] → s.absentStack a (16 * n) = none → s.rd Reg.hrdStatusState = 0 →
      let l := (List.range n).map fun i => s.hbmRead (a + 16 * i) 16
      ((l.any fun e => s.badRange (fieldLE e 0 8) (fieldLE e 8 8)) = true → ∃ t, exec .sealManifestDone s = .next t ∧ KeepsBytes s t ∧
        t.sealer = { s.sealer with command := none } ∧ t.rd Reg.sealWctlBusy = 0 ∧ bitAt (t.rd Reg.sealWctlErr) 0 = true) ∧
      ((l.any fun e => s.badRange (fieldLE e 0 8) (fieldLE e 8 8)) = false → ∃ t, exec .sealManifestDone s = .next t ∧ KeepsBytes s t ∧
        t.sealer.command = none ∧ t.rd Reg.sealWctlBusy = 0 ∧
        t.rd Reg.sealWctlDoneCount = (s.rd Reg.sealWctlDoneCount + 1) % 2 ^ Reg.sealWctlDoneCount.len ∧
        sget (sha256 []) t.sealer.weights ch = sha256 (l.flatMap fun e => e ++ s.hbmRead (fieldLE e 0 8) (fieldLE e 8 8)))) ∧
    (∀ (ch : BitVec 2) j l, let c := ch.toNat
      let out := sealTail (s.simplexMark c) 0 0 j.events j.modes j.result
      let sl := sha256 (j.trig.prefixBytes ++ out)
      let body := outHeader j.trig j.ctx (s.simplexMark c) 0 j.events 0 j.result.length sl ++ sl ++ j.result
      (s.dsp c).sealJobs = j :: l → j.trig.hostRef = none → s.rd Reg.hrdStatusState = 0 →
      ∃ t, exec (.sealComplete ch) s = .next t ∧ KeepsBytes s t ∧ (t.dsp c).sealJobs = l ∧
        (∀ q, s.isFollower c = false → s.dispUp c = true → leOutKind (s.launchEntry c j.trig.head) = 2 → hostQueueOf (s.launchEntry c j.trig.head) j.trig = some q →
          s.queueUp q = true → recBytes body.length ≤ s.stagingFree →
          ∃ r, t.host.staged = s.host.staged ++ [r] ∧ r.queue = q ∧ r.kind = 1 ∧ r.tag = j.trig.head ∧ r.body = body)) ∧
    (∀ run, s.rd Reg.hrdStatusState = 1 → s.hrd.lostRun = some run →
      let fits := s.hrdRoom (hrdBytes 32) && (s.hrdMode != 2 || s.ringFits (hrdBytes 32))
      (fits = false → exec .hrdOverflowEntry s = .next s) ∧
      (fits = true → ∃ t, exec .hrdOverflowEntry s = .next t ∧ t.hrd.lostRun = none ∧ t.cells = s.cells ∧ t.host.mem = s.host.mem)) ∧
    (s.blockGate = .serve →
      let off := s.liveIgnored || s.hrdMode == 0 || (s.island 0x42C).stopped
      (off = true → exec .hrdRearm s = .next s) ∧
      (off = false → ∃ t, exec .hrdRearm s = .next t ∧ t.cells = s.cells ∧ t.host.mem = s.host.mem ∧ t.hrd.bankDigests = [] ∧
        t.rd Reg.hrdStatusEpoch = (s.rd Reg.hrdStatusEpoch + 1) % 2 ^ Reg.hrdStatusEpoch.len) ∧
      (s.liveIgnored = false → exec .hrdReplayStop s = .next s) ∧
      (s.liveIgnored = true → ∃ t, exec .hrdReplayStop s = .next t ∧ KeepsBytes s t ∧ t.rd Reg.hrdStatusState = 5 ∧ t.rd Reg.hrdReplayStatusCause = 0xA039) ∧
      (∀ (data : Word) (stream : Bytes), bitAt data.toNat 0 = true →
        let u := s.writeReg .hrd 0 0x28 all64 data.toNat
        let host := u.rd Reg.hrdReplayCtlSource == 1
        let v := u.modHrd fun x => { x with
          source := host, base := u.rd Reg.hrdReplayBaseValue, len := if host then stream.length else u.rd Reg.hrdReplayLenValue, pos := 0, stream := if host then stream else [], consumed := [],
          gapPorts := [], frags := [], frames := [], badBanks := [], profiles := [], unverifiable := [] }
        u.replaying = false → (u.island 0x42C).stopped = false →
        (u.rd Reg.hrdStatusState = 4 → u.loadOrDrain = false → ∃ t, exec (.hrdReplayGo data stream) s = .next t ∧ KeepsBytes s t ∧ t.replaying = true ∧ t.hrd = s.hrd) ∧
        (u.rd Reg.hrdStatusState ≠ 4 → v.replayBad = true → ∃ t, exec (.hrdReplayGo data stream) s = .next t ∧ KeepsBytes s t ∧ t.hrd = s.hrd ∧
          t.rd Reg.hrdReplayStatusCause = 0xA032) ∧
        (u.rd Reg.hrdStatusState ≠ 4 → v.replayBad = false → ∃ t, exec (.hrdReplayGo data stream) s = .next t ∧ KeepsBytes s t ∧ t.replaying = true ∧
          t.hrd = v.hrd ∧ t.rd Reg.hrdDivergeSeqSeq = 0))) ∧
    (s.replaying = true →
      let h := s.replayHead s.hrd.pos
      let pl := s.replayBytes (s.hrd.pos + 64) (enLen h)
      let next := fun x : Hoard => { x with pos := s.hrd.pos + hrdBytes (enLen h) }
      (s.hrd.len ≤ s.hrd.pos → ∃ t, exec .hrdReplayEntry s = .next t ∧ KeepsBytes s t ∧ t.rd Reg.hrdStatusState = 5 ∧ t.rd Reg.hrdReplayStatusCause = 0xA038) ∧
      (s.hrd.pos < s.hrd.len →
        (enIdle (enKind h) = true → exec .hrdReplayEntry s = .next { s with hrd := next s.hrd }) ∧
        (enKind h = 0x7E → s.rd Reg.hrdReplayCtlGapSkip = 0 → ∃ t, exec .hrdReplayEntry s = .next t ∧ KeepsBytes s t ∧ t.hrd = next s.hrd ∧
          t.rd Reg.hrdStatusState = 5 ∧ t.rd Reg.hrdReplayStatusCause = 0xA035) ∧
        (s.digestOk s.hrd.pos h pl = true →
          (enKind h = 0x50 → s.memberSame h pl = false → ∃ t, exec .hrdReplayEntry s = .next t ∧ KeepsBytes s t ∧ t.hrd = s.hrd ∧
            t.rd Reg.hrdStatusState = 4 ∧ t.rd Reg.hrdReplayStatusCause = 0xA034) ∧
          (enKind h = 0x01 → bits (enId h) 52 4 = 0 → exec .hrdReplayEntry s = .next { s with
            hrd := next { s.hrd with frags := s.hrd.frags ++ [(enCh h, enId h % 2 ^ 48, bits (enId h) 48 4, pl, slice h 0x20 32)] } }))))

/-- R417: ARM takes a DISARMED or SIMPLEX function to ARMING; ARMING that passes every check is ARMED, one that fails is refused
with its field, and a failed self-test asserts FAULT_N. R418: DISARM and UNCURL act with the right UNLOCK only. R425, R426: a
matched pair leaves both registers and counts; a mismatch or an overdue entry is withheld and counted as a fault in a DISARMED
function, and curls an ARMED one with its cause. R424, R427: a scrub loses an uncorrectable entry; a failed injection, clock
check or watchdog asserts FAULT_N with its event. -/
def Obligations.SafetyFunctions : Prop :=
  ∀ s : State,
    let bytes := fun t : State => KeepsBytes s t ∧ t.cells = s.cells
    let event := fun (t : State) k => bitAt (t.rd Reg.safeEventsEvents) k = true
    let counts := fun (t : State) (r : RegField) => t.rd r = min (2 ^ r.len - 1) (s.rd r + 1)
    let quiet := s.rd Reg.hrdStatusState = 0 ∧ ∀ ch, ch < 4 → (s.dsp ch).queue = [] ∧ (s.dsp ch).waitMatch = [] ∧ ∀ k, (s.ctx ch k).phase = .dead ∧ (sget {} (s.dsp ch).arms k).armed = false
    (∀ data : Word, let v := data.toNat
      let f := bits v 4 1
      let x := s.fn f
      let opens := f < s.fnCount ∧ bits v 48 16 = s.fnUnlock f
      bitAt v 0 = true → s.blockGate = .serve →
      (bits v 8 2 = 0 →
        (x.st = .disarmed ∨ x.st = .simplex → ∃ t, exec (.safeArm data) s = .next t ∧ bytes t ∧
          t.fn f = { x with st := .arming, armStart := s.now, fromSimplex := x.st == .simplex, selfTest := false }) ∧
        (x.st ≠ .disarmed → x.st ≠ .simplex → ∃ t, exec (.safeArm data) s = .next t ∧ bytes t ∧ t.safe = s.safe ∧ bitAt (t.rd Reg.hostEventsEvents) 15 = true)) ∧
      (∀ i, (i = .safeDisarm data ∧ bits v 8 2 = 1) ∨ (i = .safeUncurl data ∧ bits v 8 2 = 2) →
        (¬ opens → ∃ t, exec i s = .next t ∧ bytes t ∧ t.safe = s.safe ∧ event t 17) ∧
        (opens → ((i = .safeUncurl data ∧ x.st = .curled) ∨ (i = .safeDisarm data ∧ (x.st = .arming ∨ x.st = .armed ∨ x.st = .simplex)) →
          ∃ t, exec i s = .next t ∧ bytes t ∧ t.fn f = { x with st := .disarmed, partnerArm := none, fromSimplex := false } ∧ (i = .safeDisarm data → event t 14))))) ∧
    (∀ f : Bool, let n := fnNo f
      let x := s.fn n
      let field := if n = 0 then Reg.safeCause0Field else Reg.safeCause1Field
      let code := if n = 0 then Reg.safeCause0Code else Reg.safeCause1Code
      let idle := x.egress = [] ∧ x.fromSimplex = false
      (x.st = .arming → idle →
        (s.armCheck n true = none → ∃ t, exec (.armingComplete f true) s = .next t ∧ bytes t ∧ event t 13 ∧
          t.fn n = { x with selfTest := true, st := .armed, partnerArm := none }) ∧
        (∀ k, s.armCheck n true = some k → k ≠ 5 → k ≠ 2 → ∃ t, exec (.armingComplete f true) s = .next t ∧ bytes t ∧ event t 12 ∧ t.rd field = k ∧
          t.fn n = { x with selfTest := true, st := .disarmed, partnerArm := none }) ∧
        (s.armCheck n false = some 2 → ∃ t, exec (.armingComplete f false) s = .next t ∧ bytes t ∧ event t 12 ∧ event t 3 ∧ t.rd field = 2 ∧ t.pwr.faultN = true ∧
          t.fn n = { x with st := .disarmed, partnerArm := none }) ∧
        (x.armStart + armLimit ≤ s.now → ∃ t, exec (.armingTimeout f) s = .next t ∧ bytes t ∧ event t 12 ∧ t.fn n = { x with st := .disarmed, partnerArm := none })) ∧
      (n < s.fnCount → idle →
        (x.selfTest = false → x.st ≠ .curled → ∃ t, exec (.startUpSelfTestDone f true) s = .next t ∧ bytes t ∧ t.regs = s.regs ∧ t.fn n = { x with selfTest := true }) ∧
        (x.selfTest = false → x.st = .arming → ∃ t, exec (.startUpSelfTestDone f false) s = .next t ∧ bytes t ∧ event t 3 ∧ t.pwr.faultN = true ∧
          t.fn n = { x with selfTest := true, st := .disarmed, partnerArm := none }) ∧
        (x.st ≠ .curled → exec (.cmpInjection f true) s = .next s) ∧
        (x.st = .disarmed → ∃ t, exec (.cmpInjection f false) s = .next t ∧ bytes t ∧ t.safe = s.safe ∧ event t 3 ∧ t.pwr.faultN = true ∧ counts t (fnFaults n))) ∧
      (∀ a b, firstDue (pairUp x.local0 x.remote0) = some (a, b) → x.egress = [] → a.cls ≠ 1 →
        (x.st = .disarmed ∨ x.st = .arming ∨ x.st = .armed → a.outcome = b.outcome → a.fault = b.fault → a.compare = b.compare → a.crc = b.crc →
          ∃ t, exec (.comparatorDecision f) s = .next t ∧ bytes t ∧ t.fn n = (x.consume 0 a).consume 1 b ∧ t.rd (fnMatched n) = (s.rd (fnMatched n) + 1) % 2 ^ (fnMatched n).len) ∧
        (a.compare ≠ b.compare → a.crc ≠ b.crc →
          (x.st = .disarmed → ∃ t, exec (.comparatorDecision f) s = .next t ∧ bytes t ∧ t.fn n = (x.consume 0 a).consume 1 b ∧ event t 0 ∧ counts t (fnFaults n)) ∧
          (x.st = .armed → quiet → ∃ t, exec (.comparatorDecision f) s = .next t ∧ bytes t ∧ t.fn n = { x.clearEntries with st := .curled } ∧ event t 11 ∧ t.rd code = 0x9001))) ∧
      (x.st = .disarmed → x.egress = [] →
        (∀ e l, s.overdue n = e :: l → e.2.cls ≠ 1 → ∃ t, exec (.delayTimeout f) s = .next t ∧ bytes t ∧ t.fn n = x.consume e.1 e.2 ∧ event t 1 ∧ counts t (fnFaults n)) ∧
        (∀ (side : Bool) i e, (x.side side.toNat)[i]? = some e → exec (.delayScrub f side i true) s = .next s ∧
          (e.cls ≠ 1 → ∃ t, exec (.delayScrub f side i false) s = .next t ∧ bytes t ∧ t.fn n = x.consume side.toNat e ∧ event t 4 ∧ counts t (fnFaults n))))) ∧
    (s.pwr.running = true → exec (.tickClockCheck true) s = .next s ∧ ((∀ f, f < s.fnCount → (s.fn f).st = .disarmed) →
      (∃ t, exec (.tickClockCheck false) s = .next t ∧ bytes t ∧ t.safe = s.safe ∧ t.pwr = { s.pwr with faultN := true } ∧ event t 16) ∧
      (∃ t, exec .watchdog s = .next t ∧ bytes t ∧ t.safe = s.safe ∧ t.pwr = { s.pwr with faultN := true, watchdog := true } ∧ event t 15)))

/-- R421: a heartbeat joins the transmit store of its port. R431: every MIRROR of the partner marks it as seen at this tick; R424: a
RECORD whose SIDE_SEQ follows joins the remote registers; R417: an ARM is kept with its tick; R431, R432: a CURL, a DISARM or
PARTNER_TIMEOUT loses the partner: a DISARMED function stays so, an ARMED one with SIMPLEX_EN enters SIMPLEX. R433: after
SIMPLEX_LIMIT the function curls. Each MIRROR consumed is recorded with STATUS 0, and one of no function of the port with
0x600C. -/
def Obligations.SafetyPartner : Prop :=
  ∀ s : State,
    let bytes := fun t : State => KeepsBytes s t ∧ t.cells = s.cells
    let event := fun (t : State) k => bitAt (t.rd Reg.safeEventsEvents) k = true
    (∀ (quad : BitVec 4) (m : RxMsg),
      let q := quad.toNat
      let w := s.wglOf q
      let b := m.bytes
      let kind := fieldLE (mArg b) 0 1
      let g := fieldLE (mArg b) 1 1
      let pl := b.drop 32
      let x := s.fn g
      let y := { x with partnerSeen := true, lastMirror := s.now }
      let e := DelayEntry.ofBytes pl s.now
      let done := fun (t : State) st => bytes t ∧ (t.wglOf q).inbox = w.inbox.erase m ∧ ((t.wglOf q).window (mSrc b) (mStream b)).getLast? = some (mId b, st)
      s.portOn q = true → s.rd Reg.hrdStatusState = 0 → w.headOf 1 = some m → s.disposition q m = 5 → mType b = 6 →
      (∀ i, (i = .mirrorHeartbeat quad ∧ kind = 0) ∨ (i = .mirrorRecord quad ∧ kind = 1) ∨ (i = .mirrorArm quad ∧ kind = 2) ∨ (i = .mirrorCurl quad ∧ kind = 3) ∨ (i = .mirrorDisarm quad ∧ kind = 4) →
        (s.mirrorBad q b = true → ∃ t, exec i s = .next t ∧ done t 0x600C ∧ t.safe = s.safe) ∧
        (s.mirrorBad q b = false →
          (kind = 0 → ∃ t, exec i s = .next t ∧ done t 0 ∧ t.fn g = y) ∧
          (kind = 1 → (x.st = .disarmed ∨ x.st = .arming ∨ x.st = .armed) → (∀ n, x.prevSeq = some n → (n + 1) % 2 ^ 32 = e.seq) → x.remote0.length < 256 →
            ∃ t, exec i s = .next t ∧ done t 0 ∧ t.fn g = { y with prevSeq := some e.seq, remote0 := x.remote0 ++ [e], remote1 := x.remote1 ++ [e] }) ∧
          (kind = 2 → ∃ t, exec i s = .next t ∧ done t 0 ∧ t.fn g = { y with partnerArm := some pl, partnerArmAt := s.now }) ∧
          (3 ≤ kind →
            (x.st = .disarmed → ∃ t, exec i s = .next t ∧ done t 0 ∧ event t 8 ∧ t.fn g = { y with partnerSeen := false, prevSeq := none, partnerArm := none }) ∧
            (x.st = .armed → s.fnSimplex g = true → x.local0 = [] → x.egress = [] → ∃ t, exec i s = .next t ∧ done t 0 ∧ event t 8 ∧ event t 9 ∧
              t.fn g = { y.clearEntries with partnerSeen := false, prevSeq := none, partnerArm := none, st := .simplex, simplexAt := s.now }))))) ∧
    (∀ f : Bool, let n := fnNo f
      let x := s.fn n
      (n < s.fnCount → s.fnDevice n = true →
        (x.st ≠ .none → x.st ≠ .curled → s.wglUp (s.fnQuad n) = false → ∃ t, exec (.heartbeatSend f) s = .next t ∧ bytes t ∧ t.safe = s.safe ∧ t.regs = s.regs ∧
          (t.wglOf (s.fnQuad n)).tx.length = (s.wglOf (s.fnQuad n)).tx.length + 1) ∧
        (x.partnerSeen = true → x.lastMirror + s.fnTimeout n ≤ s.now → x.st = .disarmed → ∃ t, exec (.partnerTimeout f) s = .next t ∧ bytes t ∧ event t 8 ∧
          t.fn n = { x with partnerSeen := false, prevSeq := none, partnerArm := none })) ∧
      (x.st = .simplex → x.simplexAt + s.fnLimit n ≤ s.now → s.rd Reg.hrdStatusState = 0 →
        (∀ ch, ch < 4 → (s.dsp ch).queue = [] ∧ (s.dsp ch).waitMatch = [] ∧ ∀ k, (s.ctx ch k).phase = .dead ∧ (sget {} (s.dsp ch).arms k).armed = false) →
        ∃ t, exec (.simplexLimit f) s = .next t ∧ bytes t ∧ event t 10 ∧ event t 11 ∧ t.fn n = { x.clearEntries with st := .curled } ∧
          t.rd (if n = 0 then Reg.safeCause0Code else Reg.safeCause1Code) = 0x900B))

/-- R442: ENABLE starts a queue with its written configuration and its pointers at 0; its clearing stops it and marks what it has
taken lost. R443: a doorbell in range is kept, and re-arms; one out of range is a queue error with HOST_QUEUE_ERR. R443, R444:
the next SQ entry is read; R445, R446: an entry that passes its checks is taken. R453: the oldest staged record of a queue is
written whole at the DR tail. R458: a failed or late completion raises its event and refuses the read. R437, R460: the link
comes up at a listed rate and width, and its loss stops every queue. R459: an unmasked pending vector signals. R440: a BAR2
resize keeps a fitting window. -/
def Obligations.HostQueues : Prop :=
  ∀ s : State,
    let event := fun (t : State) k => bitAt (t.rd Reg.hostEventsEvents) k = true
    (∀ data : Word, let v := data.toNat
      let q := s.rd Reg.hostQSelectQueue
      let x := s.queue q
      s.held = false →
      (bitAt v 0 = true → x.enableBit = false → bits v 24 7 ≤ 63 → 16 ≤ bits v 16 5 → bits v 16 5 ≤ 30 → 1 ≤ bits v 12 4 → bits v 12 4 ≤ 12 → 1 ≤ bits v 8 4 → bits v 8 4 ≤ 12 →
        ∃ t, exec (.hostQueueEnable data) s = .next t ∧ KeepsBytes s t ∧ t.regs = s.regs ∧ (∀ p, p ≠ q → t.queue p = s.queue p) ∧ t.queue q = { x with
          vector := bits v 24 7, drLog := bits v 16 5, cqLog := bits v 12 4, sqLog := bits v 8 4, enabled := true, error := false, enableBit := true, armed := true, sqHead := 0, sqTail := 0,
          cqHead := 0, cqTail := 0, drHead := 0, drTail := 0, cqPhase := true, drPhase := true, drSeq := 0 }) ∧
      (bitAt v 0 = false → x.enableBit = true → bits v 24 7 = x.vector → bits v 16 5 = x.drLog → bits v 12 4 = x.cqLog → bits v 8 4 = x.sqLog →
        (∀ r ∈ s.host.staged, r.queue ≠ q) → s.host.waitingOut = [] → ∃ t, exec (.hostQueueDisable data) s = .next t ∧ KeepsBytes s t ∧ t.regs = s.regs ∧
          (∀ p, p ≠ q → t.queue p = s.queue p) ∧
          t.queue q = { x with enabled := false, error := false, enableBit := false, jobs := x.jobs.map fun j => { j with lost := true } })) ∧
    (∀ (queue : BitVec 6), let q := queue.toNat
      let x := s.queue q
      (∀ data : Word, let v := bits data.toNat 0 30
        s.held = false → (∀ r ∈ s.host.staged, r.queue ≠ q) → s.host.waitingOut = [] →
        let range := fun (i : Instr) ok (y : Queue) =>
          (s.queueUp q = true → ok → ∃ t, exec i s = .next t ∧ KeepsBytes s t ∧ t.regs = s.regs ∧ (∀ p, p ≠ q → t.queue p = s.queue p) ∧ t.queue q = { y with armed := i != .sqTail queue data || x.armed }) ∧
          (s.queueUp q = true → ¬ ok → ∃ t, exec i s = .next t ∧ KeepsBytes s t ∧ (t.queue q).error = true ∧ event t 9) ∧
          (s.queueUp q = false → ∃ t, exec i s = .next t ∧ KeepsBytes s t ∧ t.regs = s.regs ∧ (∀ p, p ≠ q → t.queue p = s.queue p) ∧ t.queue q = y)
        range (.sqTail queue data) (v < 2 ^ x.sqLog) { x with sqTail := v } ∧ range (.cqHead queue data) (v < 2 ^ x.cqLog) { x with cqHead := v } ∧
        range (.drHead queue data) (v % 64 = 0 ∧ v < 2 ^ x.drLog) { x with drHead := v }) ∧
      (s.queueUp q = true → s.linkUp = true →
        (s.booted = true → x.sqHead ≠ x.sqTail → x.cqRoom = true → (∀ r ∈ s.host.reads, r.use = 1 → r.queue ≠ q) →
          exec (.hostSqFetch queue) s = .next { s with host := { s.host with reads := s.host.reads ++ [{ addr := x.sqBase + 64 * x.sqHead, len := 64, queue := q, use := 1 }] } }) ∧
        (∀ r, s.host.staged.find? (fun r => r.queue == q) = some r → r.ref = none → r.mack = none → s.host.waitingOut = [] →
          x.drFits (recBytes r.body.length) = true → x.pad (recBytes r.body.length) = 0 →
          ∃ t, exec (.hostDrWrite queue) s = .next t ∧ t.hbm = s.hbm ∧ t.cells = s.cells ∧ t.host.staged = s.host.staged.erase r ∧ (t.queue q).drSeq = x.drSeq + 1 ∧
            t.hostByte (x.drBase + x.drTail) = BitVec.ofNat 8 r.kind ∧
            (∀ i, i < r.body.length → t.hostByte (x.drBase + x.drTail + 32 + i) = r.body.getD i 0) ∧
            (∀ a, a < x.drBase + x.drTail ∨ x.drBase + x.drTail + recBytes r.body.length ≤ a → t.hostByte a = s.hostByte a)))) ∧
    (∀ (i : Nat) r, s.host.reads[i]? = some r →
      (∀ bytes : Bytes, let e := fit r.len bytes
        let x := s.queue r.queue
        r.use = 1 → s.halted = false → seOk e s.slotSize = true → seAdmin e = false → s.liveIgnored = false → x.window = [] →
        ∃ t, exec (.hostReadCompletion i true bytes) s = .next t ∧ KeepsBytes s t ∧ t.regs = s.regs ∧ t.host.reads = s.host.reads.eraseIdx i ∧
          t.queue r.queue = { x with sqHead := (x.sqHead + 1) % 2 ^ x.sqLog, window := [{ id := seId e }], jobs := x.jobs ++ [{ id := seId e, entry := e }] }) ∧
      (∀ (c : Instr) (bytes : Bytes), c = .hostReadCompletion i false bytes ∨ c = .completionTimeout i → r.use = 0 →
        ∃ t, exec c s = .next t ∧ KeepsBytes s t ∧ event t 7 ∧ t.host.reads = s.host.reads.eraseIdx i ∧
          ∃ p, t.pkts = s.pkts ++ [p] ∧ p.kind = .memrsp ∧ p.dst = r.src ∧ p.arg = BitVec.ofNat 64 0xB008 ∧ p.origin = r.origin)) ∧
    (s.pwr.porst = false →
      (∀ (speed : BitVec 4) (width : BitVec 5), speed.toNat ∈ [4, 5, 6] → width.toNat ∈ [4, 8, 16] →
        ∃ t, exec (.hostLinkUp speed width (speed.toNat == 6)) s = .next t ∧ KeepsBytes s t ∧ t.host = s.host ∧ t.rd Reg.hostLinkSpeed = speed.toNat ∧
          t.rd Reg.hostLinkWidth = width.toNat ∧ t.rd Reg.hostLinkFlit = (speed.toNat == 6).toNat ∧ t.linkUp = true) ∧
      (s.linkUp = true → s.host.reads = [] → s.host.staged = [] → s.host.waitingOut = [] → ∃ t, exec .hostLinkDown s = .next t ∧ KeepsBytes s t ∧ t.linkUp = false ∧ event t 8 ∧
        ∀ q, q < 64 → (t.queue q).enabled = false ∧ (t.queue q).window = (s.queue q).window ∧ ∀ j ∈ (t.queue q).jobs, j.lost = true) ∧
      (∀ vector : BitVec 7, let v := vector.toNat
        v ∈ s.host.msixMask → ∃ t, exec (.msiXUnmask vector) s = .next t ∧ KeepsBytes s t ∧ t.regs = s.regs ∧ v ∉ t.host.msixMask ∧ v ∉ t.host.msixPending ∧
          ∀ n, sget 0 t.host.msixSignalled n = sget 0 s.host.msixSignalled n + if n = v ∧ v ∈ s.host.msixPending then 1 else 0) ∧
      (∀ log : BitVec 6, let k := log.toNat
        let base := s.rd Reg.hostBar2BaseBase
        30 ≤ k → k ≤ 39 → ∃ t, exec (.bar2Resize log) s = .next t ∧ KeepsBytes s t ∧ t.host = { s.host with bar2Log := k } ∧
          t.rd Reg.hostBar2BaseBase = if (base + 2 ^ k ≤ 2 ^ 39 ∨ 0x010000000000 ≤ base ∧ base + 2 ^ k ≤ 0x010080000000) ∧ base % 2 ^ k = 0 then base else 0))

/-- R447: a LAUNCH to an unconfigured channel completes with DISP_INVALID; one without input triggers its head with its id as event.
R449: a bus COPY_IN reads its first page; a COPY_OUT writes the bytes of HBM to host memory and no others. R450: flash
programming fills the slot with 0xFF after the image, and a failure makes it unknown. R451: a fuse operation adds its bits, and
one refused changes none. R452: a package that passes its checks is kept and then written to the inactive bank. R448: each
submission that ends leaves its queue with a completion whose STATUS is its own. -/
def Obligations.HostOperations : Prop :=
  ∀ (s : State) (queue : BitVec 6) (j : Job),
    let q := queue.toNat
    let x := s.queue q
    let e := j.entry
    let event := fun (t : State) k => bitAt (t.rd Reg.hostEventsEvents) k = true
    let begins := fun op => s.jobToBegin q (fun y => seOp y == op) = some j
    let stands := fun stage op => s.jobAt q stage (fun y => seOp y == op) = some j
    let jobs := fun (t : State) (f : Job → Job) => (t.queue q).jobs = x.jobs.map fun y => if y.id == j.id then f y else y
    let kept := fun t : State => t.hbm = s.hbm ∧ t.cells = s.cells
    let ends := fun (t : State) status => kept t ∧ (t.queue q).jobs = x.jobs.filter (fun y => y.id != j.id) ∧
      (s.queueUp q = true → s.linkUp = true → (∀ y ∈ x.jobs, y.lost = false) → (∀ y ∈ x.window, y.dups = 0) →
        t.hostByte (x.cqBase + 32 * x.cqTail) = BitVec.ofNat 8 status ∧ t.hostByte (x.cqBase + 32 * x.cqTail + 1) = BitVec.ofNat 8 (status / 256))
    let readable := s.hbmErr = [] ∧ s.absentStack (seSrc e) (seLen e) = none
    let single := ∀ y ∈ x.jobs, y.id = j.id → y = j
    (begins 1 →
      (s.configured (seCh e) = false → ∃ t, exec (.launch queue) s = .next t ∧ ends t 0x8007) ∧
      (s.configured (seCh e) = true → single → seLen e = 0 → j.pos = 0 → ∃ t, exec (.launch queue) s = .next t ∧ KeepsBytes s t ∧ t.regs = s.regs ∧
        jobs t fun y => { y with stage := 2, status := 0 })) ∧
    (stands 2 1 →
      (j.status ≠ 0 → ∃ t, exec (.launchInputDone queue) s = .next t ∧ ends t j.status) ∧
      (let c := seCh e
       let d := s.dsp c
       j.status = 0 → j.input = [] → s.rd Reg.hrdStatusState = 0 → s.configured c = true → s.isHead c (seEntry e) 3 = true → s.dispUp c = true → s.isPair c = false → s.fnCount = 0 →
       d.drain = false → d.queue.length < 64 → leDeadline (s.launchEntry c (seEntry e)) = 0 → d.freeCtxs = [] →
       ∃ t, exec (.launchInputDone queue) s = .next t ∧ KeepsBytes s t ∧ t.regs = s.regs ∧ (jobs t fun y => { y with stage := 3, input := [] }) ∧
         ∃ u, (t.dsp c).queue = d.queue ++ [u] ∧ u.head = seEntry e ∧ u.kind = 3 ∧ u.event = j.id % 2 ^ 48 ∧ u.tick = s.now ∧ u.hostRef = some { queue := q, id := j.id })) ∧
    (begins 2 → s.dmaBusy < 8 → single → seBus e = true → 0 < seLen e → j.pos = 0 → s.linkUp = true →
      ∃ t, exec (.copyIn queue) s = .next t ∧ KeepsBytes s t ∧ t.regs = s.regs ∧ (jobs t fun y => { y with stage := 1 }) ∧
        t.host.reads = s.host.reads ++ [{ addr := seSrc e, len := min (seLen e) (4096 - seSrc e % 4096), queue := q, use := 2, job := j.id }]) ∧
    (begins 3 → s.dmaBusy < 8 → seBus e = true → seDst e % 4096 + seLen e ≤ 4096 → s.linkUp = true → readable →
      ∃ t, exec (.copyOut queue) s = .next t ∧ kept t ∧ t.regs = s.regs ∧ (jobs t fun y => { y with stage := 2, status := 0 }) ∧
        (∀ i, i < seLen e → t.hostByte (seDst e + i) = s.hbmByte (seSrc e + i)) ∧
        (∀ a, a < seDst e ∨ seDst e + seLen e ≤ a → t.hostByte a = s.hostByte a)) ∧
    (s.jobAt q 2 (fun y => seOp y == 2 || seOp y == 3) = some j → ∃ t, exec (.hostCopyDone queue) s = .next t ∧ ends t j.status) ∧
    (begins 0x10 → s.slotLoading (seParam e) = false → readable → ∃ t, exec (.flashWrite queue) s = .next t ∧ KeepsBytes s t ∧ t.pwr = s.pwr ∧
      jobs t fun y => { y with stage := 1, input := s.hbmRead (seSrc e) (seLen e) }) ∧
    (stands 1 0x10 → let k := seParam e;
      (j.input.length ≤ s.slotSize → ∃ t, exec (.flashWriteDone queue true) s = .next t ∧ ends t 0 ∧ k ∉ t.pwr.flashBad ∧
        ∀ i, i < s.slotSize → sget 0xFF t.pwr.flash (k * s.slotSize + i) = j.input.getD i 0xFF) ∧
      (∃ t, exec (.flashWriteDone queue false) s = .next t ∧ ends t 0xB00C ∧ k ∈ t.pwr.flashBad ∧ t.pwr.flash = s.pwr.flash ∧ event t 11)) ∧
    (let slot := bits (seParam e) 4 2
     let f := s.pwr.fuses
     ∀ (i : Instr) op (g : Fuses), (i = .fuseKey queue ∧ op = 0 ∧ g = { f with keyHash := sset [] f.keyHash slot (fit 48 (s.hbmRead (seSrc e) 48)), keyValid := f.keyValid ||| BitVec.ofNat 4 (2 ^ slot) }) ∨
        (i = .fuseRevoke queue ∧ op = 1 ∧ g = { f with keyRevoked := f.keyRevoked ||| BitVec.ofNat 4 (2 ^ slot) }) ∨ (i = .fuseSigRequired queue ∧ op = 2 ∧ g = { f with sigRequired := true }) →
      s.jobToBegin q (fun y => seOp y == 0x11 && bits (seParam y) 0 2 == op) = some j →
      (s.fuseRefused op slot = true → ∃ t, exec i s = .next t ∧ ends t 0xB00D ∧ t.pwr = s.pwr) ∧
      (s.fuseRefused op slot = false → s.hbmErr = [] → s.absentStack (seSrc e) 48 = none → ∃ t, exec i s = .next t ∧ ends t 0 ∧ t.pwr = { s.pwr with fuses := g })) ∧
    (begins 0x12 → readable →
      let data := s.hbmRead (seSrc e) (seLen e)
      (fwOk s.pwr.fuses data = true → ∃ t, exec (.fwUpdate queue) s = .next t ∧ KeepsBytes s t ∧ t.pwr = s.pwr ∧ jobs t fun y => { y with stage := 2, input := slice data 8 4 }) ∧
      (fwOk s.pwr.fuses data = false → ∃ t, exec (.fwUpdate queue) s = .next t ∧ KeepsBytes s t ∧ t.pwr = s.pwr ∧ event t 13 ∧
        jobs t fun y => { y with stage := 2, status := 0xB00E, input := [] })) ∧
    (stands 2 0x12 →
      (j.status ≠ 0 → ∃ t, exec (.fwUpdateDone queue) s = .next t ∧ ends t j.status ∧ t.pwr = s.pwr) ∧
      (j.status = 0 → let k := 1 - s.pwr.activeBank;
        ∃ t, exec (.fwUpdateDone queue) s = .next t ∧ ends t 0 ∧
          t.pwr = { s.pwr with banks := sset {} s.pwr.banks k { version := some (BitVec.ofNat 32 (leNat j.input)), good := true }, updated := some k }))

/-- R460: a function-level or hot reset stops every queue and keeps the link; PERST_N drops the link. R465 to R467: power-on reset
keeps HBM, host memory, flash and fuses and clears the rest; a rail fault holds it with LAST_CAUSE 1. R473: the release of
PORST_N starts the good bank, or the other with FW_BANK_FALLBACK, or stops the boot ROM; training shows and zeroes the stacks
that trained; with the self-test it sets BOOT.DONE. R468: a warm reset counts, names its cause and clears swarms, packets and
dispatchers but not HBM. R469 to R472: a channel or cell reset is busy until it is done, or is refused with its case. R266: a
cell reset restores the credits of the routes to it. -/
def Obligations.ResetsAndBoot : Prop :=
  ∀ s : State,
    let event := fun (t : State) k => bitAt (t.rd Reg.glbResetStatusEvents) k = true
    let still := s.host.reads = [] ∧ s.host.staged = [] ∧ s.host.waitingOut = []
    let stopped := fun t : State => KeepsBytes s t ∧ t.cells = s.cells ∧ (∀ v, v < 68 → v ∈ t.host.msixMask) ∧
      ∀ q, q < 64 → (t.queue q).enabled = false ∧ (t.queue q).window = (s.queue q).window ∧ ∀ j ∈ (t.queue q).jobs, j.lost = true
    let cleared := fun (t : State) cause => t.hbm = s.hbm ∧ t.host.mem = s.host.mem ∧ t.pwr.fuses = s.pwr.fuses ∧ t.cells = [] ∧ t.pkts = [] ∧ t.disp = [] ∧ t.safe = [] ∧ t.img.parts = [] ∧
      t.rd Reg.glbBootDone = 0 ∧ t.rd Reg.glbResetStatusLastCause = cause ∧ t.rd Reg.glbResetStatusWarmCount = (s.rd Reg.glbResetStatusWarmCount + 1) % 2 ^ 16
    let held := fun t : State => t.pwr.porst = true ∧ t.hbm = s.hbm ∧ t.host.mem = s.host.mem ∧ t.pwr.fuses = s.pwr.fuses ∧ t.pwr.flash = s.pwr.flash ∧ t.cells = [] ∧ t.pkts = [] ∧
      t.disp = [] ∧ t.pending = s.pending
    (s.pwr.porst = false → s.linkUp = true → still →
      (∀ i, i = .functionLevelReset ∨ i = .hotReset → ∃ t, exec i s = .next t ∧ stopped t ∧ t.host.msixPending = [] ∧ t.linkUp = true) ∧
      (∃ t, exec .perstN s = .next t ∧ stopped t ∧ t.linkUp = false ∧ bitAt (t.rd Reg.hostEventsEvents) 8 = true)) ∧
    (∃ t, exec .porstNAssert s = .next t ∧ held t ∧ t.regs = State.reset.regs ∧ t.pwr.railFault = false) ∧
    (s.pwr.porst = false → ∃ t, exec .railMonitor s = .next t ∧ held t ∧ t.pwr.railFault = true ∧ t.rd Reg.glbResetStatusLastCause = 1) ∧
    (∀ b : Board, s.pwr.porst = true → s.pwr.railFault = false →
      (b.railsOk = false → ∃ t, exec (.porstNRelease b) s = .next t ∧ held t ∧ t.pwr.railFault = true ∧ t.rd Reg.glbResetStatusLastCause = 1) ∧
      (b.railsOk = true → s.pwr.tap.holds = true → ∃ t, exec (.porstNRelease b) s = .next t ∧ KeepsBytes s t ∧ t.pwr.porst = false ∧ t.pwr.tapHold = true) ∧
      (b.railsOk = true → s.pwr.tap.holds = false → s.pwr.warmBoot = false → s.pwr.bootBank = 0 → ∃ t, exec (.porstNRelease b) s = .next t ∧ KeepsBytes s t ∧ t.pwr.porst = false ∧
        t.pwr.tapHold = false ∧ t.pwr.bootSel = b.bootSel ∧ t.pwr.mgmtAddr = b.mgmtAddr ∧ (b.bank0Ok = true → t.pwr.activeBank = 0) ∧
        (b.bank0Ok = false → b.bank1Ok = true → t.pwr.activeBank = 1 ∧ event t 5) ∧ (b.bank0Ok = false → b.bank1Ok = false → t.halted = true))) ∧
    (s.booting = true → s.pwr.bootSel = false →
      (∀ trained : BitVec 8, s.pwr.hbmDone = false → ∃ t, exec (.hbmTrainingDone trained) s = .next t ∧ t.host.mem = s.host.mem ∧ t.cells = s.cells ∧ t.pwr = { s.pwr with hbmDone := true } ∧
        (∀ k, k < 8 → t.rd (Reg.memStatusPresent k) = (bitAt trained.toNat k).toNat) ∧ t.rd Reg.glbBootStacksPresent = trained.toNat ∧
        (∀ k, k < 8 → bitAt trained.toNat k = true → s.pwr.warmBoot = false → t.rd (Reg.memStatusZeroed k) = 1 ∧ ∀ a, stackOf a = k → t.hbmByte a = 0) ∧
        (s.pwr.warmBoot = true → t.hbm = s.hbm) ∧ (trained.toNat ≠ 255 → event t 4) ∧ t.rd Reg.glbBootDone = if s.pwr.bistDone = true then 1 else 0) ∧
      (∀ bad : List CellFail, s.pwr.bistDone = false → ∃ t, exec (.powerOnSelftestDone bad) s = .next t ∧ KeepsBytes s t ∧ t.cells = s.cells ∧ t.pwr = { s.pwr with bistDone := true } ∧
        (∀ p, isPhysical p = true → t.rd (Reg.cellSelftestFail p) = (bad.any fun b => b.cell.toNat == p).toNat ∧ ((bad.any fun b => b.cell.toNat == p) = true → t.cellListed p = true)) ∧
        ((bad.any fun b => isPhysical b.cell.toNat) = true → event t 3) ∧ t.rd Reg.glbBootDone = if s.pwr.hbmDone = true then 1 else 0)) ∧
    (s.held = false → s.group ≠ 3 →
      (∃ t, exec .wrstN s = .next t ∧ cleared t 2) ∧ (∃ t, exec .resetCtlWarm s = .next t ∧ cleared t 3)) ∧
    (∀ data : Word, let v := data.toNat
      s.held = false →
      (bitAt v 16 = true → bitAt v 17 = false → bitAt v 18 = false → let c := bits v 10 2; let u := s.resetFields v;
        (∀ n, u.resetRefusal c false = some n → ∃ t, exec (.resetCtlChannel data) s = .next t ∧ KeepsBytes s t ∧ t.cells = s.cells ∧ t.pwr = s.pwr ∧
          t.rd Reg.glbResetStatusRefuseCase = n ∧ event t 0) ∧
        (u.resetRefusal c false = none → ∃ t, exec (.resetCtlChannel data) s = .next t ∧ t.rd Reg.glbResetStatusBusy = 1 ∧ t.pwr.resetChannel = some c ∧
          (∀ p ∈ physOf c, sget {} t.cells p = {}) ∧ (t.dsp c).drain = true ∧ (t.dsp c).queue = [] ∧ (∀ k, t.ctx c k = {}))) ∧
      (bitAt v 17 = true → bitAt v 18 = false → let id := bits v 0 10; let u := s.resetFields v;
        (∀ n, u.resetRefusal (chOf id) (!isLogical id) = some n → ∃ t, exec (.resetCtlCell data) s = .next t ∧ KeepsBytes s t ∧ t.cells = s.cells ∧ t.pwr = s.pwr ∧
          t.rd Reg.glbResetStatusRefuseCase = n ∧ event t 0) ∧
        (u.resetRefusal (chOf id) (!isLogical id) = none → (∀ k, k < 16 → (s.cell id).slotsOfCtx k = []) → ∃ t, exec (.resetCtlCell data) s = .next t ∧
          t.hbm = s.hbm ∧ t.host.mem = s.host.mem ∧ t.rd Reg.glbResetStatusBusy = 1 ∧ t.pwr = { s.pwr with resetCell := some id } ∧ sget {} t.cells (s.phys id) = {} ∧
          ∀ p, p ≠ s.phys id → sget {} t.cells p = sget {} s.cells p))) ∧
    (∀ c, s.pwr.resetChannel = some c → c < 4 → s.group ≠ 3 → ∃ t, exec .channelResetDone s = .next t ∧ KeepsBytes s t ∧ t.cells = s.cells ∧ t.pkts = s.pkts ∧ t.pwr = { s.pwr with resetChannel := none } ∧
      t.rd Reg.glbResetStatusBusy = 0 ∧ t.configured c = false ∧ (t.dsp c).drain = false ∧ event t 1) ∧
    (∀ id, s.pwr.resetCell = some id → ∃ t, exec .cellResetDone s = .next t ∧ KeepsBytes s t ∧ t.cells = s.cells ∧ t.pwr = { s.pwr with resetCell := none } ∧
      t.rd Reg.glbResetStatusBusy = 0 ∧ event t 2 ∧ t.pkts.length = s.pkts.length + (s.allRoutes.filter fun e => (routeDests e).contains id).length)

/-- R495, R496: an answered exchange takes VOUT_MODE, READ_VOUT or READ_IOUT in its turn; a reading off by more than 25 mV for 1 ms,
a third unanswered exchange, a bad VOUT_MODE or a fault bit of STATUS_WORD is VR_FAULT. R494: a management read answers with its
value, with zero before BOOT.DONE where it is one of the live readings, and is not acknowledged in power-on reset; the alert
response is the target's address while the alert is asserted. R497: an instruction is taken; EXTEST, CLAMP and HIGHZ hold the
device in a warm reset, and any other lets it go. -/
def Obligations.ManagementPorts : Prop :=
  ∀ s : State,
    let answers := fun (i : Instr) (bs : Bytes) =>
      exec i s = .next { s with pwr := if s.pwr.porst = true then { s.pwr with mgmtAck := false, mgmtOut := [] } else { s.pwr with mgmtAck := true, mgmtOut := bs } }
    let late := fun n v => leBytes n (if s.booted = true then v else 0)
    (s.vrTalks = true →
      (∀ v, ∃ t, exec (.pmbusTelemetry { acked := false, value := v }) s = .next t ∧ KeepsBytes s t ∧ t.pwr.vrBad = s.pwr.vrBad + 1 ∧ t.pwr.vrFault = (s.pwr.vrFault || decide (2 ≤ s.pwr.vrBad)) ∧
        t.pwr.vrModeRead = s.pwr.vrModeRead) ∧
      (∀ v, let r : VrReading := { acked := true, value := v };
        (s.pwr.vrModeRead = false → ∃ t, exec (.pmbusTelemetry r) s = .next t ∧ KeepsBytes s t ∧ t.pwr = { s.pwr with vrBad := 0, vrModeRead := true, vrFault := s.pwr.vrFault || v / 32 != 0 }) ∧
        (s.pwr.vrModeRead = true → s.pwr.vrNextIout = true → exec (.pmbusTelemetry r) s = .next { s with pwr := { s.pwr with vrBad := 0, vrNextIout := false, vrReadIout := v } }) ∧
        (s.pwr.vrModeRead = true → s.pwr.vrNextIout = false →
          (apart v s.pwr.vrCommand ≤ 25 → exec (.pmbusTelemetry r) s = .next { s with pwr := { s.pwr with vrBad := 0, vrNextIout := true, vrReadVout := v, vrAgreed := some v, vrOffSince := none } }) ∧
          (25 < apart v s.pwr.vrCommand → let since := s.pwr.vrOffSince.getD s.now;
            ∃ t, exec (.pmbusTelemetry r) s = .next t ∧ KeepsBytes s t ∧ t.pwr = { s.pwr with vrBad := 0, vrNextIout := true, vrReadVout := v, vrOffSince := some since, vrFault := s.pwr.vrFault || decide (since + 1000000 ≤ s.now) }))) ∧
      (∀ status : BitVec 16, status.toNat &&& 0xF73F ≠ 0 → ∃ t, exec (.pmbAlertN status) s = .next t ∧ KeepsBytes s t ∧ t.pwr = { s.pwr with vrFault := true }) ∧
      (∀ status : BitVec 16, status.toNat &&& 0xF73F = 0 → exec (.pmbAlertN status) s = .next s)) ∧
    answers .mgmtIdent (leBytes 8 0x4F4C057621490100) ∧ answers .mgmtStatus (leBytes 2 s.mgmtStatus) ∧ answers .mgmtJunctionTemp (late 2 (ofI 16 (sx 12 s.gov.junction))) ∧
    answers .mgmtHbmTemp (late 1 s.gov.hbmTemp) ∧ answers .mgmtPower (late 2 (s.rd Reg.govPowerAvg1ms)) ∧ answers .mgmtProfile (late 1 s.gov.profile) ∧
    answers .mgmtSafeState (late 1 ((s.fn 0).st.code + 16 * (s.fn 1).st.code)) ∧ answers .mgmtLastCode (leBytes 2 (s.rd Reg.imgStatusLastCode)) ∧
    (s.mgmtAlert = true → answers .mgmtAlertResponse (leBytes 1 (0b1001100 + s.pwr.mgmtAddr.toNat))) ∧
    (s.mgmtAlert = false → exec .mgmtAlertResponse s = .next { s with pwr := { s.pwr with mgmtAck := false, mgmtOut := [] } }) ∧
    (∀ k, k < 6 → (bitAt s.mgmtStatus k = true ↔ (k = 0 ∧ s.curlN = true) ∨ (k = 1 ∧ s.faultN = true) ∨ (k = 2 ∧ s.booted = true) ∨
      (k = 3 ∧ s.rd Reg.imgStatusConfigured ≠ 0) ∨ (k = 4 ∧ s.pwr.vrFault = true) ∨ (k = 5 ∧ s.gov.hot = true))) ∧
    (∀ i t, (i = .tapReset ∧ t = .idcode) ∨ (i = .bypass ∧ t = .bypass) ∨ (i = .idcode ∧ t = .idcode) ∨ (i = .samplePreload ∧ t = .sample) ∨ (i = .extest ∧ t = .extest) ∨
        (i = .clamp ∧ t = .clamp) ∨ (i = .highz ∧ t = .highz) →
      (s.pwr.porst = true ∨ t.holds = s.pwr.tapHold → exec i s = .next { s with pwr := { s.pwr with tap := t, tapOut := s.tapData t } }) ∧
      (s.pwr.porst = false → t.holds = true → s.pwr.tapHold = false → s.group ≠ 3 → ∃ u, exec i s = .next u ∧ u.hbm = s.hbm ∧ u.host.mem = s.host.mem ∧ u.pwr.tap = t ∧ u.pwr.tapHold = true ∧
        u.cells = [] ∧ u.pkts = [] ∧ u.rd Reg.glbBootDone = 0 ∧ u.rd Reg.glbResetStatusWarmCount = (s.rd Reg.glbResetStatusWarmCount + 1) % 2 ^ 16 ∧
        (t = .extest → u.pwr.tapOut = .chain true u.pwr.railFault) ∧ (t ≠ .extest → u.pwr.tapOut = .bit)) ∧
      (s.pwr.porst = false → t.holds = false → s.pwr.tapHold = true → ∃ u, exec i s = .next u ∧ KeepsBytes s u ∧ u.pwr.tap = t ∧ u.pwr.tapHold = false ∧
        (t = .idcode → u.pwr.tapOut = .code idcodeValue) ∧ (t = .bypass → u.pwr.tapOut = .bit)))

/-- R5, R439: an access that is misaligned, outside every block or refused is recorded as REG_ACCESS; a write changes the RW bits it
covers and no others, clears the W1C bits it sets, and leaves a field whose encoding is not listed with REG_ENCODING (R6); a
read returns the register and clears its RC fields. R482: a 4-byte read of the low half of TIME.COUNTER latches the high half.
R440, R441: BAR2 reads and writes the bytes of HBM and of a cell's local memory, a bad block is poisoned, and an access that is
not served raises 0xB00F. -/
def Obligations.HostRegisters : Prop :=
  ∀ s : State,
    let event := fun (t : State) k => bitAt (t.rd Reg.hostEventsEvents) k = true
    let got := fun (t : State) (bs : Bytes) => t.host.resp = .ok ∧ t.host.respData = bs
    (∀ (off size : Nat) (data : Word),
      (s.held = true → exec (.bar0Write off size data) s = .next s ∧ exec (.rcRegisterRead off size) s = .next s) ∧
      (s.held = false → unitOk off size = false ∨ blockOf (off / 8 * 8) = none ∨ (∃ b n o, blockOf (off / 8 * 8) = some (b, n, o) ∧ s.bar0Gate b n = .refuse) →
        (∃ t, exec (.bar0Write off size data) s = .next t ∧ KeepsBytes s t ∧ t.cells = s.cells ∧ t.host = s.host ∧ event t 16) ∧
        (∃ t, exec (.rcRegisterRead off size) s = .next t ∧ KeepsBytes s t ∧ t.cells = s.cells ∧ t.host.resp = .unsupported ∧ event t 16))) ∧
    (∀ data : Word, let v := data.toNat
      (∀ ch : BitVec 2, let a := 0x500018 + 0x10000 * ch.toNat;
        s.chanGate ch.toNat = .serve →
        (∃ t, exec (.bar0Write a 8 data) s = .next t ∧ KeepsBytes s t ∧ t.reg a = v ∧ ∀ o, o ≠ a → t.reg o = s.reg o) ∧
        (∃ t, exec (.bar0Write a 4 data) s = .next t ∧ KeepsBytes s t ∧ t.reg a = s.reg a / 2 ^ 32 * 2 ^ 32 + v % 2 ^ 32 ∧ ∀ o, o ≠ a → t.reg o = s.reg o) ∧
        (∃ t, exec (.bar0Write (a + 4) 4 data) s = .next t ∧ KeepsBytes s t ∧ t.reg a = s.reg a % 2 ^ 32 + v % 2 ^ 32 * 2 ^ 32 ∧ ∀ o, o ≠ a → t.reg o = s.reg o) ∧
        (∃ t, exec (.rcRegisterRead (a - 0x10) 8) s = .next t ∧ KeepsBytes s t ∧ got t (leBytes 8 (s.reg (a - 0x10))) ∧ t.reg (a - 0x10) = 0 ∧ ∀ o, o ≠ a - 0x10 → t.reg o = s.reg o)) ∧
      (s.held = false → ∃ t, exec (.bar0Write 0x18 8 data) s = .next t ∧ KeepsBytes s t ∧ t.rd Reg.glbResetStatusLastCause = s.rd Reg.glbResetStatusLastCause ∧
        ∀ k, k < 7 → bitAt (t.rd Reg.glbResetStatusEvents) k = (bitAt (s.rd Reg.glbResetStatusEvents) k && !bitAt v k)) ∧
      (s.blockGate = .serve → ∃ t, exec (.bar0Write 0x10010 8 data) s = .next t ∧ KeepsBytes s t ∧ t.rd Reg.govLimitsStallLimit = bits v 32 20 ∧
        t.rd Reg.govLimitsTjSoft = (if 85 ≤ bits v 0 8 ∧ bits v 0 8 ≤ 104 then bits v 0 8 else s.rd Reg.govLimitsTjSoft) ∧
        t.rd Reg.govLimitsHbmSoft = (if 75 ≤ bits v 8 8 ∧ bits v 8 8 ≤ 94 then bits v 8 8 else s.rd Reg.govLimitsHbmSoft) ∧
        (bits v 0 8 < 85 ∨ 104 < bits v 0 8 → event t 15))) ∧
    (s.held = false → ∃ t, exec (.rcRegisterRead 0 8) s = .next t ∧ KeepsBytes s t ∧ t.regs = s.regs ∧ got t (leBytes 8 0x4F4C057621490100)) ∧
    (s.blockGate = .serve →
      (∃ t, exec .timeCounterLowRead s = .next t ∧ KeepsBytes s t ∧ t.regs = s.regs ∧ got t (leBytes 4 s.now) ∧ t.host.counterLatch = s.now / 2 ^ 32) ∧
      (∃ t, exec (.rcRegisterRead 0x20004 4) s = .next t ∧ KeepsBytes s t ∧ t.regs = s.regs ∧ got t (leBytes 4 s.host.counterLatch))) ∧
    (∀ (off len : Nat) (bytes : Bytes),
      let a := s.rd Reg.hostBar2BaseBase + off
      s.bar2Comes off len = true → bytes.length = len →
      (s.booted = false → (∃ t, exec (.bar2Read off len) s = .next t ∧ KeepsBytes s t ∧ t.host.resp = .unsupported ∧ event t 14) ∧
        (∃ t, exec (.bar2Write off bytes) s = .next t ∧ KeepsBytes s t ∧ t.host.resp = .dropped ∧ event t 14)) ∧
      (s.booted = true → inHbm a len = true → s.absentStack a len = none →
        (s.hbmErr = [] → (∃ t, exec (.bar2Read off len) s = .next t ∧ KeepsBytes s t ∧ t.regs = s.regs ∧ got t (s.hbmRead a len)) ∧
          (∃ t, exec (.bar2Write off bytes) s = .next t ∧ t.regs = s.regs ∧ t.cells = s.cells ∧ t.host.resp = .ok ∧ ∀ b, t.hbmByte b = if a ≤ b ∧ b < a + len then bytes.getD (b - a) 0 else s.hbmByte b)) ∧
        (s.hbmUce a len = true → ∃ t, exec (.bar2Read off len) s = .next t ∧ t.host.resp = .poisoned ∧ t.host.respData = [])) ∧
      (∀ id o, s.booted = true → inHbm a len = false → placeOf a = .window id o → s.windowOpen id o len = true → (s.cell id).lmErr = [] →
        (∃ t, exec (.bar2Read off len) s = .next t ∧ KeepsBytes s t ∧ t.regs = s.regs ∧ got t ((s.cell id).read o len)) ∧
        ((s.cell id).inReplica o len = false → ∃ t, exec (.bar2Write off bytes) s = .next t ∧ t.regs = s.regs ∧ t.hbm = s.hbm ∧ t.host.resp = .ok ∧
          ∀ p b, t.lmByte p b = if p = s.phys id ∧ o ≤ b ∧ b < o + len then bytes.getD (b - o) 0 else s.lmByte p b)))

/-- R21, R33: a request starts pass 1 with its source and VERIFY_ONLY, is ignored with 0xA012 while a load runs, or ends at once
with IMG_HEADER and its detail. R33: pass 1 ends with the code and detail of the first check that fails, with the state as it
was; a verification that passes ends with 0; a load that passes drains. R43: at DRAIN_LIMIT no launch of its channels runs; then
each channel is reset and unconfigured and pass 2 begins. R24, R33: pass 2 ends with no load, and with a running image or, where
it stopped a full load, none. R38: the lists are cleared while no load runs. -/
def Obligations.ImageLoads : Prop :=
  ∀ s : State,
    let shows := fun (t : State) code detail st => t.rd Reg.imgStatusLastCode = code % 2 ^ 16 ∧ t.rd Reg.imgStatusFaultDetail = detail % 2 ^ 16 ∧ t.rd Reg.imgStatusState = st % 8
    let ends := fun (t : State) code detail st => shows t code detail st ∧ t.img.load = none ∧ bitAt (t.rd Reg.hostIrqCauseBits) 0 = true
    (∀ (i : Instr) (data : Word), (i = .imgLoad data ∧ bitAt data.toNat 8 = false) ∨ (i = .imgVerifyOnly data ∧ bitAt data.toNat 8 = true) → bitAt data.toNat 0 = true → s.blockGate = .serve →
      let u := s.writeReg .img 0 0 all64 data.toNat
      let source := u.rd Reg.imgCtlSource
      let addr := u.rd Reg.imgSrcSrcAddr
      let size := u.rd Reg.imgSizeSize
      (s.img.load.isSome = true → ∃ t, exec i s = .next t ∧ KeepsBytes s t ∧ t.img = s.img ∧ shows t 0xA012 0 (s.rd Reg.imgStatusState)) ∧
      (s.img.load = none → s.loaderDown = false →
        (source ≠ 0 ∨ srcBad addr size = none → ∃ t, exec i s = .next t ∧ KeepsBytes s t ∧ t.cells = s.cells ∧ t.rd Reg.imgStatusState = 1 ∧
          t.img.load = some { source := source, addr := addr, size := size, verifyOnly := bitAt data.toNat 8, prior := s.rd Reg.imgStatusState }) ∧
        (∀ o, source = 0 → srcBad addr size = some (some o) → ∃ t, exec i s = .next t ∧ KeepsBytes s t ∧ t.cells = s.cells ∧ ends t 0xA002 o (s.rd Reg.imgStatusState)))) ∧
    (∀ ld, s.img.load = some ld →
      (s.rd Reg.imgStatusState = 1 → ld.source = 0 → s.loaderDown = false → s.hbmErr = [] → s.absentStack ld.addr ld.size = none →
        let m := s.hbmRead ld.addr ld.size
        let bad := s.verify m ld.size (some (ld.addr, ld.size))
        (∀ code detail, bad = some (code, detail) → ld.boot = false → ∃ t, exec (.imgPass1Done true) s = .next t ∧ KeepsBytes s t ∧ t.cells = s.cells ∧ ends t code detail ld.prior) ∧
        (bad = none → ld.verifyOnly = true → ∃ t, exec (.imgPass1Done true) s = .next t ∧ KeepsBytes s t ∧ t.cells = s.cells ∧ ends t 0 0 ld.prior) ∧
        (bad = none → ld.verifyOnly = false → (∀ c ∈ imChannels m, s.configured c = false) → s.rd Reg.imgPctlDrainLimit ≠ 0 →
          ∃ t, exec (.imgPass1Done true) s = .next t ∧ KeepsBytes s t ∧ t.cells = s.cells ∧ t.rd Reg.imgStatusState = 2 ∧
            ∃ l, t.img.load = some l ∧ l.image = m ∧ l.drainFrom = s.now ∧ l.source = 0)) ∧
      (s.rd Reg.imgStatusState = 2 →
        (ld.drainFrom + s.rd Reg.imgPctlDrainLimit ≤ s.now → s.fnCount = 0 → (∀ c ∈ ld.chans, (s.dsp c).queue = [] ∧ ∀ k, (s.ctx c k).trig.deadline = none ∧ (s.ctx c k).trig.hostRef = none) →
          ∃ t, exec .drainLimit s = .next t ∧ KeepsBytes s t ∧ ∀ c ∈ ld.chans, ∀ k, k < 16 → (t.ctx c k).phase.begun = false) ∧
        (∀ c, ld.chans = [c] → c < 4 → (∀ k, k < 16 → (s.ctx c k).phase.begun = false) →
          ∃ t, exec .imgDrainDone s = .next t ∧ t.configured c = false ∧ t.isBound c = false ∧ sget [] t.img.parts c = []) ∧
        ((∃ c ∈ ld.chans, ∃ k, k < 16 ∧ (s.ctx c k).phase.begun = true) → exec .imgDrainDone s = .next s)) ∧
      (s.rd Reg.imgStatusState = 3 → ∀ readOk bad, ∃ t, exec (.imgApplyDone readOk bad) s = .next t ∧ t.img.load = none ∧ bitAt (t.rd Reg.hostIrqCauseBits) 0 = true ∧
        (t.rd Reg.imgStatusState = 4 ∨ t.rd Reg.imgStatusState = 0) ∧ (imPartial ld.image = true → t.rd Reg.imgStatusState = 4) ∧
        (imPartial ld.image = true → ld.chans = [] → shows t 0 0 4 ∧ t.pwr.loaded = true))) ∧
    (s.blockGate = .serve →
      (s.mayClear = true → exec .clearCells s = .next { s with img := { s.img with failed := [] } } ∧ exec .clearLanes s = .next { s with img := { s.img with retired := [] } }) ∧
      (∀ i, i = .clearCells ∨ i = .clearLanes → s.mayClear = false → ∃ t, exec i s = .next t ∧ KeepsBytes s t ∧ t.img = s.img ∧ bitAt (t.rd Reg.hostEventsEvents) 15 = true))

/-- With a command at the front of the queue a step is the command's effect on the state with the queue's rest. With an empty queue
a step is one tick of the idle device (the choice of log entry 1): no byte of memory changes, and the counter, while it runs,
goes on by one. -/
def Obligations.StepRunsCommand : Prop :=
  (∀ (s : State) (c : Instr) (rest : List Instr), step { s with pending := c :: rest } = exec c { s with pending := rest }) ∧
  (∀ s : State, s.pending = [] → ∃ t, step s = .next t ∧ KeepsBytes s t ∧ t.regs = s.regs ∧ t.pending = [] ∧
    t.counter = if s.pwr.running = true then s.counter + 1 else s.counter)

/-- R466, R467: after reset the device is in power-on reset with no command waiting, no swarm, no packet and no image: no channel is
configured and all four show as unconfigured, no link is up, no stack is present, no fuse is set, CURL_N is asserted, every byte
of HBM and local memory reads as 0 (R275, R467) and of what the device wrote to host memory too (the choice of log entry 9), and
the memories have their canonical form. GOV.LIMITS and DRAIN_LIMIT hold their reset values. -/
def Obligations.ResetState : Prop :=
  let s := State.reset
  s.pwr.porst = true ∧ s.pending = [] ∧ s.cells = [] ∧ s.pkts = [] ∧ s.memWf = true ∧ s.img.parts = [] ∧ s.img.load = none ∧ s.pwr.fuses = {} ∧ s.curlN = true ∧
    s.rd Reg.imgStatusConfigured = 0 ∧ s.rd Reg.imgStatusUnconfigured = 15 ∧ s.rd Reg.imgStatusState = 0 ∧ s.rd Reg.imgPctlDrainLimit = 100000 ∧ s.rd Reg.glbBootDone = 0 ∧
    s.rd Reg.govLimitsTjSoft = 100 ∧ s.rd Reg.govLimitsHbmSoft = 90 ∧ s.rd Reg.govLimitsStallLimit = 1000 ∧
    (∀ id k, (s.swarm id k).st = .free) ∧ (∀ n, n < 8 → s.stackUp n = false) ∧ (∀ q, q < 16 → s.linkState q = 0) ∧ s.linkUp = false ∧
    (∀ a, s.hbmByte a = 0 ∧ s.hostByte a = 0) ∧ ∀ p a, s.lmByte p a = 0

/-- For every state whose registers, HBM, host memory, cells and local memories have their canonical form, a step that answers a
next state keeps that form; no fuse that is set becomes clear (R31, R451: a fuse is set once); and the queue of commands loses
its front command only. -/
def Obligations.StepKeepsInvariant : Prop :=
  ∀ s t : State, s.memWf = true → step s = .next t → t.memWf = true ∧ Fuses.within s.pwr.fuses t.pwr.fuses = true ∧ t.pending = s.pending.tail
end

