-- ==== Sys2Proof/Laws/Bits.lean ====
section
/-! SUPPORT. The laws of bit fields: a field read after a field written, and a bit of a field. -/
namespace Sys2Proof.Machine

theorem bits_lt (v lo len : Nat) : bits v lo len < 2 ^ len := Nat.mod_lt _ (Nat.two_pow_pos _)

theorem bits_eq (v lo len : Nat) : bits v lo len = v / 2 ^ lo % 2 ^ len := by
  simp [bits, Nat.shiftRight_eq_div_pow]

@[simp] theorem testBit_bits (v lo len i : Nat) : (bits v lo len).testBit i = (decide (i < len) && v.testBit (lo + i)) := by
  simp [bits, Nat.testBit_mod_two_pow]

theorem bitAt_eq (v i : Nat) : bitAt v i = v.testBit i := by
  simp only [bitAt, Nat.testBit, Nat.one_and_eq_mod_two, Nat.shiftRight_eq_div_pow]
  rcases Nat.mod_two_eq_zero_or_one (v / 2 ^ i) with h | h <;> simp [h]

/-- A number is its part above a field, the field, and its part below. -/
theorem setBits_split (v lo len x : Nat) : setBits v lo len x =
    v / 2 ^ (lo + len) * 2 ^ (lo + len) + x % 2 ^ len * 2 ^ lo + v % 2 ^ lo := by
  have h1 : v = 2 ^ lo * (v / 2 ^ lo) + v % 2 ^ lo := (Nat.div_add_mod ..).symm
  have h2 : v / 2 ^ lo = 2 ^ len * (v / 2 ^ lo / 2 ^ len) + v / 2 ^ lo % 2 ^ len := (Nat.div_add_mod ..).symm
  have h3 : v / 2 ^ (lo + len) = v / 2 ^ lo / 2 ^ len := by rw [Nat.pow_add, Nat.div_div_eq_div_mul]
  have h4 : v = v / 2 ^ (lo + len) * 2 ^ (lo + len) + bits v lo len * 2 ^ lo + v % 2 ^ lo := by
    rw [bits_eq, h3, Nat.pow_add]
    generalize v / 2 ^ lo / 2 ^ len = a at *
    generalize v / 2 ^ lo % 2 ^ len = b at *
    generalize 2 ^ lo = p at *
    generalize 2 ^ len = q at *
    calc v = p * (q * a + b) + v % p := by rw [← h2]; exact h1
      _ = a * (p * q) + b * p + v % p := by
        rw [Nat.mul_add, ← Nat.mul_assoc, Nat.mul_comm (p * q) a, Nat.mul_comm p b]
  unfold setBits
  generalize x % 2 ^ len * 2 ^ lo = y
  generalize bits v lo len * 2 ^ lo = b at *
  generalize v / 2 ^ (lo + len) * 2 ^ (lo + len) = a at *
  omega

@[simp] theorem testBit_setBits (v lo len x i : Nat) : (setBits v lo len x).testBit i =
    if lo ≤ i ∧ i < lo + len then x.testBit (i - lo) else v.testBit i := by
  have hb : v % 2 ^ lo < 2 ^ lo := Nat.mod_lt _ (Nat.two_pow_pos _)
  have hx : x % 2 ^ len < 2 ^ len := Nat.mod_lt _ (Nat.two_pow_pos _)
  have hm : x % 2 ^ len * 2 ^ lo + v % 2 ^ lo < 2 ^ (lo + len) := by
    rw [Nat.pow_add]
    calc x % 2 ^ len * 2 ^ lo + v % 2 ^ lo < x % 2 ^ len * 2 ^ lo + 2 ^ lo := by omega
      _ = (x % 2 ^ len + 1) * 2 ^ lo := by rw [Nat.add_mul, Nat.one_mul]
      _ ≤ 2 ^ len * 2 ^ lo := Nat.mul_le_mul_right _ hx
      _ = 2 ^ lo * 2 ^ len := Nat.mul_comm ..
  rw [setBits_split, Nat.add_assoc, Nat.mul_comm _ (2 ^ (lo + len)), Nat.testBit_two_pow_mul_add _ hm,
    Nat.mul_comm _ (2 ^ lo), Nat.testBit_two_pow_mul_add _ hb]
  by_cases h1 : i < lo + len
  · by_cases h2 : i < lo
    · have : ¬ lo ≤ i := by omega
      simp [h1, h2, this, Nat.testBit_mod_two_pow]
    · have h3 : lo ≤ i := by omega
      have h4 : i - lo < len := by omega
      simp [h1, h2, h3, h4, Nat.testBit_mod_two_pow]
  · have h5 : lo + len ≤ i := by omega
    simp [h1, Nat.testBit_div_two_pow]
    congr 1
    omega

theorem bits_setBits_same (v lo len x : Nat) : bits (setBits v lo len x) lo len = x % 2 ^ len := by
  apply Nat.eq_of_testBit_eq
  intro i
  by_cases h : i < len <;> simp [h, Nat.testBit_mod_two_pow]

/-- A field that lies beside the field written reads as before. -/
theorem bits_setBits_disjoint (v lo len x lo' len' : Nat) (h : lo + len ≤ lo' ∨ lo' + len' ≤ lo) :
    bits (setBits v lo len x) lo' len' = bits v lo' len' := by
  apply Nat.eq_of_testBit_eq
  intro i
  by_cases hi : i < len'
  · have : ¬ (lo ≤ lo' + i ∧ lo' + i < lo + len) := by omega
    simp [hi, this]
  · simp [hi]

theorem bits_mod (v lo len n : Nat) (h : lo + len ≤ n) : bits (v % 2 ^ n) lo len = bits v lo len := by
  apply Nat.eq_of_testBit_eq
  intro i
  by_cases hi : i < len
  · have : lo + i < n := by omega
    simp [hi, this, Nat.testBit_mod_two_pow]
  · simp [hi]

end Sys2Proof.Machine
end

