-- ==== Sys2Proof/Laws/Sparse.lean ====
section
/-! SUPPORT. The laws of sparse maps: a read after a write, and the canonical form that every write keeps. -/
namespace Sys2Proof.Machine

/-! ### Reads -/

theorem sget_sdel_same {α : Type} (d : α) (l : Sparse α) (k : Nat) : sget d (sdel l k) k = d := by
  induction l with
  | nil => rfl
  | cons e l ih =>
    obtain ⟨i, v⟩ := e
    unfold sdel
    split
    · exact ih
    · rename_i h; simp only [sget, if_neg h, ih]

theorem sget_sdel_ne {α : Type} (d : α) (l : Sparse α) {i k : Nat} (h : i ≠ k) : sget d (sdel l k) i = sget d l i := by
  induction l with
  | nil => rfl
  | cons e l ih =>
    obtain ⟨j, v⟩ := e
    unfold sdel
    split
    · rename_i hj; subst hj; simp only [sget, if_neg (Ne.symm h), ih]
    · simp only [sget, ih]

theorem sget_sins_same {α : Type} (d : α) (l : Sparse α) (k : Nat) (v : α)
    (hd : ∀ e ∈ l, e.1 ≠ k) : sget d (sins l k v) k = v := by

  induction l with
  | nil => simp [sins, sget]
  | cons e l ih =>
    obtain ⟨j, w⟩ := e
    have hj : j ≠ k := hd (j, w) (List.mem_cons_self ..)
    have ih := ih fun e he => hd e (List.mem_cons_of_mem _ he)
    unfold sins
    split
    · simp [sget]
    · simp only [sget, if_neg hj, ih]

theorem sget_sins_ne {α : Type} (d : α) (l : Sparse α) {i k : Nat} (v : α) (h : i ≠ k) : sget d (sins l k v) i = sget d l i := by
  induction l with
  | nil => simp only [sins, sget, if_neg (Ne.symm h)]
  | cons e l ih =>
    obtain ⟨j, w⟩ := e
    unfold sins
    split
    · simp only [sget, if_neg (Ne.symm h)]
    · simp only [sget, ih]

theorem sdel_not_mem {α : Type} (l : Sparse α) (k : Nat) : ∀ e ∈ sdel l k, e.1 ≠ k := by
  induction l with
  | nil => intro e he; exact absurd he (List.not_mem_nil)
  | cons x l ih =>
    obtain ⟨j, w⟩ := x
    unfold sdel
    split
    · exact ih
    · rename_i hj
      intro e he
      rcases List.mem_cons.mp he with rfl | he
      · exact hj
      · exact ih e he

@[simp] theorem sget_sset_same {α : Type} [DecidableEq α] (d : α) (l : Sparse α) (k : Nat) (v : α) :
    sget d (sset d l k v) k = v := by
  unfold sset
  split
  · rename_i h; rw [sget_sdel_same, h]
  · exact sget_sins_same d _ k v (sdel_not_mem l k)

theorem sget_sset_ne {α : Type} [DecidableEq α] (d : α) (l : Sparse α) {i k : Nat} (v : α) (h : i ≠ k) :
    sget d (sset d l k v) i = sget d l i := by
  unfold sset
  split
  · exact sget_sdel_ne d l h
  · rw [sget_sins_ne d _ v h, sget_sdel_ne d l h]

theorem sget_sset {α : Type} [DecidableEq α] (d : α) (l : Sparse α) (i k : Nat) (v : α) :
    sget d (sset d l k v) i = if i = k then v else sget d l i := by
  split
  · rename_i h; subst h; exact sget_sset_same d l i v
  · rename_i h; exact sget_sset_ne d l v h

theorem sdel_sdel_same {α : Type} (l : Sparse α) (k : Nat) : sdel (sdel l k) k = sdel l k := by
  induction l with
  | nil => rfl
  | cons e l ih =>
    obtain ⟨j, v⟩ := e
    by_cases h : j = k
    · simp only [sdel, if_pos h, ih]
    · simp only [sdel, if_neg h, ih]

theorem sdel_sins_same {α : Type} (l : Sparse α) (k : Nat) (v : α) : sdel (sins l k v) k = sdel l k := by
  induction l with
  | nil => simp [sins, sdel]
  | cons e l ih =>
    obtain ⟨j, w⟩ := e
    unfold sins
    split
    · simp [sdel]
    · by_cases h : j = k
      · simp only [sdel, if_pos h, ih]
      · simp only [sdel, if_neg h, ih]

/-- The second of two writes of one key counts. -/
theorem sset_sset_same {α : Type} [DecidableEq α] (d : α) (l : Sparse α) (k : Nat) (u v : α) :
    sset d (sset d l k u) k v = sset d l k v := by
  have e : sdel (sset d l k u) k = sdel l k := by
    unfold sset
    split
    · exact sdel_sdel_same l k
    · rw [sdel_sins_same, sdel_sdel_same]
  unfold sset
  unfold sset at e
  rw [e]

theorem smod_smod_same {α : Type} [DecidableEq α] (d : α) (l : Sparse α) (k : Nat) (f g : α → α) :
    smod d (smod d l k f) k g = smod d l k (g ∘ f) := by
  unfold smod
  rw [sset_sset_same, sget_sset_same]
  rfl

@[simp] theorem sget_smod_same {α : Type} [DecidableEq α] (d : α) (l : Sparse α) (k : Nat) (f : α → α) :
    sget d (smod d l k f) k = f (sget d l k) := sget_sset_same ..

theorem sget_smod_ne {α : Type} [DecidableEq α] (d : α) (l : Sparse α) {i k : Nat} (f : α → α) (h : i ≠ k) :
    sget d (smod d l k f) i = sget d l i := sget_sset_ne d l _ h

theorem sget_smod {α : Type} [DecidableEq α] (d : α) (l : Sparse α) (i k : Nat) (f : α → α) :
    sget d (smod d l k f) i = if i = k then f (sget d l k) else sget d l i := sget_sset ..

theorem sget_ssetN_lt {α : Type} [DecidableEq α] (d : α) (vs : List α) (l : Sparse α) {i k : Nat} (h : i < k) :
    sget d (ssetN d l k vs) i = sget d l i := by
  induction vs generalizing l k with
  | nil => rfl
  | cons v vs ih =>
    unfold ssetN
    rw [ih _ (Nat.lt_succ_of_lt h), sget_sset_ne d l v (Nat.ne_of_lt h)]

/-- A run of values written is read back. -/
theorem sget_ssetN {α : Type} [DecidableEq α] (d : α) (vs : List α) (l : Sparse α) (i k : Nat) :
    sget d (ssetN d l k vs) i = if k ≤ i then (vs[i - k]?).getD (sget d l i) else sget d l i := by
  induction vs generalizing l k with
  | nil => simp [ssetN]
  | cons v vs ih =>
    unfold ssetN
    rw [ih]
    by_cases h : k + 1 ≤ i
    · have h1 : i ≠ k := by omega
      have h2 : k ≤ i := by omega
      have h3 : i - k = (i - (k + 1)) + 1 := by omega
      rw [if_pos h, if_pos h2, sget_sset_ne d l v h1, h3, List.getElem?_cons_succ]
    · rw [if_neg h]
      by_cases h2 : i = k
      · subst h2; simp
      · have h4 : ¬ k ≤ i := by omega
        rw [if_neg h4, sget_sset_ne d l v h2]

theorem sgetN_length {α : Type} (d : α) (l : Sparse α) (k n : Nat) : (sgetN d l k n).length = n := by
  induction n generalizing k with
  | zero => rfl
  | succ n ih => simp [sgetN, ih]

theorem sgetN_getElem? {α : Type} (d : α) (l : Sparse α) (k n i : Nat) (h : i < n) :
    (sgetN d l k n)[i]? = some (sget d l (k + i)) := by
  induction n generalizing k i with
  | zero => omega
  | succ n ih =>
    cases i with
    | zero => simp [sgetN]
    | succ i =>
      rw [sgetN, List.getElem?_cons_succ, ih (k + 1) i (by omega)]
      congr 2; omega

/-- Reading a range only depends on its bytes. -/
theorem sgetN_congr {α : Type} (d : α) (l m : Sparse α) (k n : Nat) (h : ∀ i, k ≤ i → i < k + n → sget d l i = sget d m i) :
    sgetN d l k n = sgetN d m k n := by
  induction n generalizing k with
  | zero => rfl
  | succ n ih =>
    simp only [sgetN]
    rw [h k (Nat.le_refl k) (by omega), ih (k + 1) fun i h1 h2 => h i (by omega) (by omega)]

/-- What was written is what is read. -/
theorem sgetN_ssetN {α : Type} [DecidableEq α] (d : α) (l : Sparse α) (k : Nat) (vs : List α) :
    sgetN d (ssetN d l k vs) k vs.length = vs := by
  apply List.ext_getElem?
  intro i
  by_cases h : i < vs.length
  · rw [sgetN_getElem? d _ k vs.length i h, sget_ssetN, if_pos (by omega)]
    have : k + i - k = i := by omega
    rw [this]
    simp [List.getElem?_eq_getElem h]
  · rw [List.getElem?_eq_none (by rw [sgetN_length]; omega), List.getElem?_eq_none (by omega)]

/-! ### The canonical form -/

/-- The canonical form as a statement about keys and values. -/
theorem swf_iff {α : Type} [DecidableEq α] (d : α) (l : Sparse α) :
    swf d l = true ↔ l.Pairwise (fun a b => a.1 < b.1) ∧ ∀ e ∈ l, e.2 ≠ d := by
  induction l with
  | nil => simp [swf]
  | cons x l ih =>
    obtain ⟨k, v⟩ := x
    cases l with
    | nil => simp [swf]
    | cons y m =>
      obtain ⟨k', v'⟩ := y
      simp only [swf, Bool.and_eq_true, Bool.not_eq_true', decide_eq_false_iff_not, decide_eq_true_eq, ih]
      constructor
      · rintro ⟨⟨h1, h2⟩, h3, h4⟩
        refine ⟨List.pairwise_cons.mpr ⟨?_, h3⟩, ?_⟩
        · intro b hb
          rcases List.mem_cons.mp hb with rfl | hb
          · exact h2
          · exact Nat.lt_trans h2 ((List.pairwise_cons.mp h3).1 b hb)
        · intro e he
          rcases List.mem_cons.mp he with rfl | he
          · exact h1
          · exact h4 e he
      · rintro ⟨h1, h2⟩
        obtain ⟨h3, h4⟩ := List.pairwise_cons.mp h1
        exact ⟨⟨h2 (k, v) (List.mem_cons_self ..), h3 (k', v') (List.mem_cons_self ..)⟩, h4,
          fun e he => h2 e (List.mem_cons_of_mem _ he)⟩

theorem sdel_sublist {α : Type} (l : Sparse α) (k : Nat) : (sdel l k).Sublist l := by
  induction l with
  | nil => exact List.Sublist.slnil
  | cons x l ih =>
    obtain ⟨j, w⟩ := x
    unfold sdel
    split
    · exact ih.cons _
    · exact ih.cons_cons _

theorem swf_sublist {α : Type} [DecidableEq α] (d : α) {l m : Sparse α} (h : m.Sublist l) (w : swf d l = true) :
    swf d m = true := by
  rw [swf_iff] at w ⊢
  exact ⟨w.1.sublist h, fun e he => w.2 e (h.subset he)⟩

theorem swf_sdel {α : Type} [DecidableEq α] (d : α) (l : Sparse α) (k : Nat) (w : swf d l = true) : swf d (sdel l k) = true :=
  swf_sublist d (sdel_sublist l k) w

theorem swf_filter {α : Type} [DecidableEq α] (d : α) (l : Sparse α) (p : Nat × α → Bool) (w : swf d l = true) :
    swf d (l.filter p) = true := swf_sublist d List.filter_sublist w

theorem mem_sins {α : Type} (l : Sparse α) (k : Nat) (v : α) (e : Nat × α) : e ∈ sins l k v ↔ e = (k, v) ∨ e ∈ l := by
  induction l with
  | nil => simp [sins]
  | cons x l ih =>
    obtain ⟨j, w⟩ := x
    unfold sins
    split
    · simp
    · simp only [List.mem_cons, ih]; exact or_left_comm

theorem swf_sins {α : Type} [DecidableEq α] (d : α) (l : Sparse α) (k : Nat) (v : α) (hv : v ≠ d) (hk : ∀ e ∈ l, e.1 ≠ k)
    (w : swf d l = true) : swf d (sins l k v) = true := by
  induction l with
  | nil => simp [sins, swf, hv]
  | cons x l ih =>
    obtain ⟨j, u⟩ := x
    rw [swf_iff] at w ⊢
    obtain ⟨h1, h2⟩ := w
    obtain ⟨h3, h4⟩ := List.pairwise_cons.mp h1
    unfold sins
    split
    · rename_i hlt
      refine ⟨List.pairwise_cons.mpr ⟨?_, h1⟩, ?_⟩
      · intro b hb
        rcases List.mem_cons.mp hb with rfl | hb
        · exact hlt
        · exact Nat.lt_trans hlt (h3 b hb)
      · intro e he
        rcases List.mem_cons.mp he with rfl | he
        · exact hv
        · exact h2 e he
    · rename_i hlt
      have hne : j ≠ k := hk (j, u) (List.mem_cons_self ..)
      have ih := (swf_iff d _).mp (ih (fun e he => hk e (List.mem_cons_of_mem _ he))
        ((swf_iff d l).mpr ⟨h4, fun e he => h2 e (List.mem_cons_of_mem _ he)⟩))
      refine ⟨List.pairwise_cons.mpr ⟨?_, ih.1⟩, ?_⟩
      · intro b hb
        rcases (mem_sins l k v b).mp hb with rfl | hb
        · show j < k; omega
        · exact h3 b hb
      · intro e he
        rcases List.mem_cons.mp he with rfl | he
        · exact h2 _ (List.mem_cons_self ..)
        · exact ih.2 e he

/-- Every write keeps the canonical form. -/
theorem swf_sset {α : Type} [DecidableEq α] (d : α) (l : Sparse α) (k : Nat) (v : α) (w : swf d l = true) :
    swf d (sset d l k v) = true := by
  unfold sset
  split
  · exact swf_sdel d l k w
  · rename_i h; exact swf_sins d _ k v h (sdel_not_mem l k) (swf_sdel d l k w)

theorem swf_smod {α : Type} [DecidableEq α] (d : α) (l : Sparse α) (k : Nat) (f : α → α) (w : swf d l = true) :
    swf d (smod d l k f) = true := swf_sset d l k _ w

theorem swf_ssetN {α : Type} [DecidableEq α] (d : α) (vs : List α) (l : Sparse α) (k : Nat) (w : swf d l = true) :
    swf d (ssetN d l k vs) = true := by
  induction vs generalizing l k with
  | nil => exact w
  | cons v vs ih => exact ih _ _ (swf_sset d l k v w)

theorem swf_sclear {α : Type} [DecidableEq α] (d : α) (l : Sparse α) (k n : Nat) (w : swf d l = true) :
    swf d (sclear l k n) = true := swf_filter d l _ w

/-- Two maps in canonical form that read alike are one list. -/
theorem swf_ext {α : Type} [DecidableEq α] (d : α) (l m : Sparse α) (hl : swf d l = true) (hm : swf d m = true)
    (h : ∀ k, sget d l k = sget d m k) : l = m := by
  rw [swf_iff] at hl hm
  have key : ∀ (l : Sparse α), l.Pairwise (fun a b => a.1 < b.1) → ∀ e ∈ l, sget d l e.1 = e.2 := by
    intro l hp
    induction l with
    | nil => intro e he; exact absurd he List.not_mem_nil
    | cons x l ih =>
      obtain ⟨h1, h2⟩ := List.pairwise_cons.mp hp
      intro e he
      rcases List.mem_cons.mp he with rfl | he
      · simp [sget]
      · have := h1 e he
        simp only [sget, if_neg (Nat.ne_of_lt this)]
        exact ih h2 e he
  have low : ∀ (l : Sparse α) (k : Nat), (∀ e ∈ l, k < e.1) → sget d l k = d := by
    intro l k hk
    induction l with
    | nil => rfl
    | cons x l ih =>
      have := hk x (List.mem_cons_self ..)
      simp only [sget, if_neg (Nat.ne_of_gt this)]
      exact ih fun e he => hk e (List.mem_cons_of_mem _ he)
  induction l generalizing m with
  | nil =>
    cases m with
    | nil => rfl
    | cons y m =>
      have h1 := key (y :: m) hm.1 y (List.mem_cons_self ..)
      rw [← h y.1] at h1
      exact absurd h1.symm (hm.2 y (List.mem_cons_self ..))
  | cons x l ih =>
    cases m with
    | nil =>
      have h1 := key (x :: l) hl.1 x (List.mem_cons_self ..)
      rw [h x.1] at h1
      exact absurd h1.symm (hl.2 x (List.mem_cons_self ..))
    | cons y m =>
      have hx := key (x :: l) hl.1 x (List.mem_cons_self ..)
      have hy := key (y :: m) hm.1 y (List.mem_cons_self ..)
      obtain ⟨a1, a2⟩ := List.pairwise_cons.mp hl.1
      obtain ⟨b1, b2⟩ := List.pairwise_cons.mp hm.1
      have hk : x.1 = y.1 := by
        rcases Nat.lt_trichotomy x.1 y.1 with hlt | heq | hgt
        · have : sget d (y :: m) x.1 = d := low _ _ fun e he => by
            rcases List.mem_cons.mp he with rfl | he
            · exact hlt
            · exact Nat.lt_trans hlt (b1 e he)
          rw [← h, hx] at this
          exact absurd this (hl.2 x (List.mem_cons_self ..))
        · exact heq
        · have : sget d (x :: l) y.1 = d := low _ _ fun e he => by
            rcases List.mem_cons.mp he with rfl | he
            · exact hgt
            · exact Nat.lt_trans hgt (a1 e he)
          rw [h, hy] at this
          exact absurd this (hm.2 y (List.mem_cons_self ..))
      have hv : x.2 = y.2 := by rw [← hx, ← hy, h, hk]
      have hxy : x = y := Prod.ext hk hv
      subst hxy
      congr 1
      refine ih m ⟨a2, fun e he => hl.2 e (List.mem_cons_of_mem _ he)⟩ ⟨b2, fun e he => hm.2 e (List.mem_cons_of_mem _ he)⟩ ?_
      intro k
      by_cases e : x.1 = k
      · subst e
        rw [low l x.1 a1, low m x.1 b1]
      · have := h k
        simpa only [sget, if_neg e] using this

end Sys2Proof.Machine
end

