-- ==== Sys2Proof/Laws/Cells.lean ====
section
/-! SUPPORT. The operations on a cell that leave its local memory as it is, and those that keep its canonical form. -/
namespace Sys2Proof.Machine

/-- A fold of steps that each leave the local memory leaves it. -/
theorem foldl_lm {α : Type} {f : CellMem → α → CellMem} (hf : ∀ c x, (f c x).lm = c.lm) (l : List α) (c : CellMem) :
    (l.foldl f c).lm = c.lm := by
  induction l generalizing c with
  | nil => rfl
  | cons x l ih => exact (ih _).trans (hf c x)

@[simp] theorem CellMem.modSwarm_lm (c : CellMem) (k f) : (c.modSwarm k f).lm = c.lm := rfl
@[simp] theorem CellMem.setRec_lm (c : CellMem) (k i v) : (c.setRec k i v).lm = c.lm := rfl
@[simp] theorem CellMem.putRecord_lm (c : CellMem) (k ws) : (c.putRecord k ws).lm = c.lm := rfl
@[simp] theorem CellMem.setWindow_lm (c : CellMem) (w x) : (c.setWindow w x).lm = c.lm := by unfold CellMem.setWindow; rfl
@[simp] theorem CellMem.setQuires_lm (c : CellMem) (a l) : (c.setQuires a l).lm = c.lm := rfl
@[simp] theorem CellMem.modTile_lm (c : CellMem) (a b f) : (c.modTile a b f).lm = c.lm := rfl
@[simp] theorem CellMem.endTile_lm (c : CellMem) (a b) : (c.endTile a b).lm = c.lm := rfl
@[simp] theorem CellMem.freeLaunch_lm (c : CellMem) (k) : (c.freeLaunch k).lm = c.lm := rfl
@[simp] theorem CellMem.setWindows_lm (c : CellMem) (a l) : (c.setWindows a l).lm = c.lm := by
  unfold CellMem.setWindows
  exact foldl_lm (fun c x => CellMem.setWindow_lm c _ _) _ _

@[simp] theorem CellMem.beginTile_lm (c : CellMem) (t e) : (c.beginTile t e).lm = c.lm := by
  unfold CellMem.beginTile
  dsimp only
  split <;> simp

@[simp] theorem CellMem.putTile_lm (c : CellMem) (t b) : (c.putTile t b).lm = c.lm := by
  unfold CellMem.putTile
  dsimp only
  split <;> simp

@[simp] theorem CellMem.stopCtx_lm (c : CellMem) (k) : (c.stopCtx k).lm = c.lm := by
  simp only [CellMem.stopCtx, CellMem.freeLaunch_lm]
  exact foldl_lm (fun c x => by simp only [CellMem.modSwarm_lm]) _ _

@[simp] theorem CellMem.evict_lm (c : CellMem) (k) : (c.evict k).lm = c.lm := by
  simp only [CellMem.evict, CellMem.freeLaunch_lm]
  exact foldl_lm (fun c x => CellMem.modSwarm_lm c _ _) _ _

@[simp] theorem CellMem.putSwarms_lm (l : List Nat) (c : CellMem) (vb k a b) : (c.putSwarms vb k a l b).lm = c.lm := by
  induction l generalizing c b with
  | nil => rfl
  | cons i l ih => unfold CellMem.putSwarms; simp [ih]

@[simp] theorem CellMem.putTiles_lm (r k i f n) (c : CellMem) (b) : (CellMem.putTiles r k i f n c b).1.lm = c.lm := by
  induction n generalizing c b with
  | zero => rfl
  | succ n ih => unfold CellMem.putTiles; simp only [ih, CellMem.putTile_lm]

theorem CellMem.write_lm {c : CellMem} {off bs} (h : swf 0 c.lm = true) : swf 0 (c.write off bs).lm = true := swf_ssetN _ _ _ _ h

theorem CellMem.putRanges_lm {l : List (Nat × Nat)} : ∀ {c : CellMem} {b}, swf 0 c.lm = true → swf 0 (c.putRanges l b).1.lm = true := by
  induction l with
  | nil => exact fun h => h
  | cons e l ih => exact fun h => ih (CellMem.write_lm h)

theorem CellMem.stores_lm {l : List (Nat × Bytes)} : ∀ {c : CellMem}, swf 0 c.lm = true →
    swf 0 (l.foldl (fun c e => { c with lm := ssetN 0 c.lm e.1 e.2 }) c).lm = true := by
  induction l with
  | nil => exact fun h => h
  | cons e l ih => exact fun h => ih (swf_ssetN _ _ _ _ h)

end Sys2Proof.Machine
end

