-- ==== Sys2Proof/Laws/State.lean ====
section
/-! SUPPORT. The named updates of the state, field by field, and the reads they leave as they were. -/
namespace Sys2Proof.Machine

/-! ### wr -/

@[simp] theorem State.wr_pending (s : State) (f v) : (s.wr f v).pending = s.pending := rfl
@[simp] theorem State.wr_free (s : State) (f v) : (s.wr f v).free = s.free := rfl
@[simp] theorem State.wr_counter (s : State) (f v) : (s.wr f v).counter = s.counter := rfl
@[simp] theorem State.wr_cells (s : State) (f v) : (s.wr f v).cells = s.cells := rfl
@[simp] theorem State.wr_hbm (s : State) (f v) : (s.wr f v).hbm = s.hbm := rfl
@[simp] theorem State.wr_hbmErr (s : State) (f v) : (s.wr f v).hbmErr = s.hbmErr := rfl
@[simp] theorem State.wr_pkts (s : State) (f v) : (s.wr f v).pkts = s.pkts := rfl
@[simp] theorem State.wr_pwr (s : State) (f v) : (s.wr f v).pwr = s.pwr := rfl
@[simp] theorem State.wr_img (s : State) (f v) : (s.wr f v).img = s.img := rfl
@[simp] theorem State.wr_gov (s : State) (f v) : (s.wr f v).gov = s.gov := rfl
@[simp] theorem State.wr_time (s : State) (f v) : (s.wr f v).time = s.time := rfl
@[simp] theorem State.wr_ing (s : State) (f v) : (s.wr f v).ing = s.ing := rfl
@[simp] theorem State.wr_cam (s : State) (f v) : (s.wr f v).cam = s.cam := rfl
@[simp] theorem State.wr_wgl (s : State) (f v) : (s.wr f v).wgl = s.wgl := rfl
@[simp] theorem State.wr_disp (s : State) (f v) : (s.wr f v).disp = s.disp := rfl
@[simp] theorem State.wr_sealer (s : State) (f v) : (s.wr f v).sealer = s.sealer := rfl
@[simp] theorem State.wr_hrd (s : State) (f v) : (s.wr f v).hrd = s.hrd := rfl
@[simp] theorem State.wr_safe (s : State) (f v) : (s.wr f v).safe = s.safe := rfl
@[simp] theorem State.wr_host (s : State) (f v) : (s.wr f v).host = s.host := rfl
@[simp] theorem State.wr_stackScrub (s : State) (f v) : (s.wr f v).stackScrub = s.stackScrub := rfl
@[simp] theorem State.now_wr (s : State) (f v) : (s.wr f v).now = s.now := rfl
@[simp] theorem State.phys_wr (s : State) (f v) (c) : (s.wr f v).phys c = s.phys c := rfl
@[simp] theorem State.isBound_wr (s : State) (f v) (c) : (s.wr f v).isBound c = s.isBound c := rfl
@[simp] theorem State.failedRowOf_wr (s : State) (f v) (c j) : (s.wr f v).failedRowOf c j = s.failedRowOf c j := rfl
@[simp] theorem State.cell_wr (s : State) (f v) (c) : (s.wr f v).cell c = s.cell c := rfl
@[simp] theorem State.swarm_wr (s : State) (f v) (c j) : (s.wr f v).swarm c j = s.swarm c j := rfl
@[simp] theorem State.cellInReset_wr (s : State) (f v) (c) : (s.wr f v).cellInReset c = s.cellInReset c := rfl
@[simp] theorem State.hbmByte_wr (s : State) (f v) (x) : (s.wr f v).hbmByte x = s.hbmByte x := rfl
@[simp] theorem State.hostByte_wr (s : State) (f v) (x) : (s.wr f v).hostByte x = s.hostByte x := rfl
@[simp] theorem State.lmByte_wr (s : State) (f v) (x y) : (s.wr f v).lmByte x y = s.lmByte x y := rfl
@[simp] theorem State.dsp_wr (s : State) (f v) (x) : (s.wr f v).dsp x = s.dsp x := rfl
@[simp] theorem State.ctx_wr (s : State) (f v) (x y) : (s.wr f v).ctx x y = s.ctx x y := rfl
@[simp] theorem State.fn_wr (s : State) (f v) (x) : (s.wr f v).fn x = s.fn x := rfl
@[simp] theorem State.queue_wr (s : State) (f v) (x) : (s.wr f v).queue x = s.queue x := rfl
@[simp] theorem State.island_wr (s : State) (f v) (x) : (s.wr f v).island x = s.island x := rfl
@[simp] theorem State.camOf_wr (s : State) (f v) (x) : (s.wr f v).camOf x = s.camOf x := rfl
@[simp] theorem State.ingOf_wr (s : State) (f v) (x) : (s.wr f v).ingOf x = s.ingOf x := rfl
@[simp] theorem State.wglOf_wr (s : State) (f v) (x) : (s.wr f v).wglOf x = s.wglOf x := rfl
@[simp] theorem State.sections_wr (s : State) (f v) (x y) : (s.wr f v).sections x y = s.sections x y := rfl
@[simp] theorem State.global_wr (s : State) (f v) (x) : (s.wr f v).global x = s.global x := rfl

/-! ### bump -/

@[simp] theorem State.bump_pending (s : State) (f n) : (s.bump f n).pending = s.pending := rfl
@[simp] theorem State.bump_free (s : State) (f n) : (s.bump f n).free = s.free := rfl
@[simp] theorem State.bump_counter (s : State) (f n) : (s.bump f n).counter = s.counter := rfl
@[simp] theorem State.bump_cells (s : State) (f n) : (s.bump f n).cells = s.cells := rfl
@[simp] theorem State.bump_hbm (s : State) (f n) : (s.bump f n).hbm = s.hbm := rfl
@[simp] theorem State.bump_hbmErr (s : State) (f n) : (s.bump f n).hbmErr = s.hbmErr := rfl
@[simp] theorem State.bump_pkts (s : State) (f n) : (s.bump f n).pkts = s.pkts := rfl
@[simp] theorem State.bump_pwr (s : State) (f n) : (s.bump f n).pwr = s.pwr := rfl
@[simp] theorem State.bump_img (s : State) (f n) : (s.bump f n).img = s.img := rfl
@[simp] theorem State.bump_gov (s : State) (f n) : (s.bump f n).gov = s.gov := rfl
@[simp] theorem State.bump_time (s : State) (f n) : (s.bump f n).time = s.time := rfl
@[simp] theorem State.bump_ing (s : State) (f n) : (s.bump f n).ing = s.ing := rfl
@[simp] theorem State.bump_cam (s : State) (f n) : (s.bump f n).cam = s.cam := rfl
@[simp] theorem State.bump_wgl (s : State) (f n) : (s.bump f n).wgl = s.wgl := rfl
@[simp] theorem State.bump_disp (s : State) (f n) : (s.bump f n).disp = s.disp := rfl
@[simp] theorem State.bump_sealer (s : State) (f n) : (s.bump f n).sealer = s.sealer := rfl
@[simp] theorem State.bump_hrd (s : State) (f n) : (s.bump f n).hrd = s.hrd := rfl
@[simp] theorem State.bump_safe (s : State) (f n) : (s.bump f n).safe = s.safe := rfl
@[simp] theorem State.bump_host (s : State) (f n) : (s.bump f n).host = s.host := rfl
@[simp] theorem State.bump_stackScrub (s : State) (f n) : (s.bump f n).stackScrub = s.stackScrub := rfl
@[simp] theorem State.now_bump (s : State) (f n) : (s.bump f n).now = s.now := rfl
@[simp] theorem State.phys_bump (s : State) (f n) (c) : (s.bump f n).phys c = s.phys c := rfl
@[simp] theorem State.isBound_bump (s : State) (f n) (c) : (s.bump f n).isBound c = s.isBound c := rfl
@[simp] theorem State.failedRowOf_bump (s : State) (f n) (c j) : (s.bump f n).failedRowOf c j = s.failedRowOf c j := rfl
@[simp] theorem State.cell_bump (s : State) (f n) (c) : (s.bump f n).cell c = s.cell c := rfl
@[simp] theorem State.swarm_bump (s : State) (f n) (c j) : (s.bump f n).swarm c j = s.swarm c j := rfl
@[simp] theorem State.cellInReset_bump (s : State) (f n) (c) : (s.bump f n).cellInReset c = s.cellInReset c := rfl
@[simp] theorem State.hbmByte_bump (s : State) (f n) (x) : (s.bump f n).hbmByte x = s.hbmByte x := rfl
@[simp] theorem State.hostByte_bump (s : State) (f n) (x) : (s.bump f n).hostByte x = s.hostByte x := rfl
@[simp] theorem State.lmByte_bump (s : State) (f n) (x y) : (s.bump f n).lmByte x y = s.lmByte x y := rfl
@[simp] theorem State.dsp_bump (s : State) (f n) (x) : (s.bump f n).dsp x = s.dsp x := rfl
@[simp] theorem State.ctx_bump (s : State) (f n) (x y) : (s.bump f n).ctx x y = s.ctx x y := rfl
@[simp] theorem State.fn_bump (s : State) (f n) (x) : (s.bump f n).fn x = s.fn x := rfl
@[simp] theorem State.queue_bump (s : State) (f n) (x) : (s.bump f n).queue x = s.queue x := rfl
@[simp] theorem State.island_bump (s : State) (f n) (x) : (s.bump f n).island x = s.island x := rfl
@[simp] theorem State.camOf_bump (s : State) (f n) (x) : (s.bump f n).camOf x = s.camOf x := rfl
@[simp] theorem State.ingOf_bump (s : State) (f n) (x) : (s.bump f n).ingOf x = s.ingOf x := rfl
@[simp] theorem State.wglOf_bump (s : State) (f n) (x) : (s.bump f n).wglOf x = s.wglOf x := rfl
@[simp] theorem State.sections_bump (s : State) (f n) (x y) : (s.bump f n).sections x y = s.sections x y := rfl
@[simp] theorem State.global_bump (s : State) (f n) (x) : (s.bump f n).global x = s.global x := rfl

/-! ### incr -/

@[simp] theorem State.incr_pending (s : State) (f n) : (s.incr f n).pending = s.pending := rfl
@[simp] theorem State.incr_free (s : State) (f n) : (s.incr f n).free = s.free := rfl
@[simp] theorem State.incr_counter (s : State) (f n) : (s.incr f n).counter = s.counter := rfl
@[simp] theorem State.incr_cells (s : State) (f n) : (s.incr f n).cells = s.cells := rfl
@[simp] theorem State.incr_hbm (s : State) (f n) : (s.incr f n).hbm = s.hbm := rfl
@[simp] theorem State.incr_hbmErr (s : State) (f n) : (s.incr f n).hbmErr = s.hbmErr := rfl
@[simp] theorem State.incr_pkts (s : State) (f n) : (s.incr f n).pkts = s.pkts := rfl
@[simp] theorem State.incr_pwr (s : State) (f n) : (s.incr f n).pwr = s.pwr := rfl
@[simp] theorem State.incr_img (s : State) (f n) : (s.incr f n).img = s.img := rfl
@[simp] theorem State.incr_gov (s : State) (f n) : (s.incr f n).gov = s.gov := rfl
@[simp] theorem State.incr_time (s : State) (f n) : (s.incr f n).time = s.time := rfl
@[simp] theorem State.incr_ing (s : State) (f n) : (s.incr f n).ing = s.ing := rfl
@[simp] theorem State.incr_cam (s : State) (f n) : (s.incr f n).cam = s.cam := rfl
@[simp] theorem State.incr_wgl (s : State) (f n) : (s.incr f n).wgl = s.wgl := rfl
@[simp] theorem State.incr_disp (s : State) (f n) : (s.incr f n).disp = s.disp := rfl
@[simp] theorem State.incr_sealer (s : State) (f n) : (s.incr f n).sealer = s.sealer := rfl
@[simp] theorem State.incr_hrd (s : State) (f n) : (s.incr f n).hrd = s.hrd := rfl
@[simp] theorem State.incr_safe (s : State) (f n) : (s.incr f n).safe = s.safe := rfl
@[simp] theorem State.incr_host (s : State) (f n) : (s.incr f n).host = s.host := rfl
@[simp] theorem State.incr_stackScrub (s : State) (f n) : (s.incr f n).stackScrub = s.stackScrub := rfl
@[simp] theorem State.now_incr (s : State) (f n) : (s.incr f n).now = s.now := rfl
@[simp] theorem State.phys_incr (s : State) (f n) (c) : (s.incr f n).phys c = s.phys c := rfl
@[simp] theorem State.isBound_incr (s : State) (f n) (c) : (s.incr f n).isBound c = s.isBound c := rfl
@[simp] theorem State.failedRowOf_incr (s : State) (f n) (c j) : (s.incr f n).failedRowOf c j = s.failedRowOf c j := rfl
@[simp] theorem State.cell_incr (s : State) (f n) (c) : (s.incr f n).cell c = s.cell c := rfl
@[simp] theorem State.swarm_incr (s : State) (f n) (c j) : (s.incr f n).swarm c j = s.swarm c j := rfl
@[simp] theorem State.cellInReset_incr (s : State) (f n) (c) : (s.incr f n).cellInReset c = s.cellInReset c := rfl
@[simp] theorem State.hbmByte_incr (s : State) (f n) (x) : (s.incr f n).hbmByte x = s.hbmByte x := rfl
@[simp] theorem State.hostByte_incr (s : State) (f n) (x) : (s.incr f n).hostByte x = s.hostByte x := rfl
@[simp] theorem State.lmByte_incr (s : State) (f n) (x y) : (s.incr f n).lmByte x y = s.lmByte x y := rfl
@[simp] theorem State.dsp_incr (s : State) (f n) (x) : (s.incr f n).dsp x = s.dsp x := rfl
@[simp] theorem State.ctx_incr (s : State) (f n) (x y) : (s.incr f n).ctx x y = s.ctx x y := rfl
@[simp] theorem State.fn_incr (s : State) (f n) (x) : (s.incr f n).fn x = s.fn x := rfl
@[simp] theorem State.queue_incr (s : State) (f n) (x) : (s.incr f n).queue x = s.queue x := rfl
@[simp] theorem State.island_incr (s : State) (f n) (x) : (s.incr f n).island x = s.island x := rfl
@[simp] theorem State.camOf_incr (s : State) (f n) (x) : (s.incr f n).camOf x = s.camOf x := rfl
@[simp] theorem State.ingOf_incr (s : State) (f n) (x) : (s.incr f n).ingOf x = s.ingOf x := rfl
@[simp] theorem State.wglOf_incr (s : State) (f n) (x) : (s.incr f n).wglOf x = s.wglOf x := rfl
@[simp] theorem State.sections_incr (s : State) (f n) (x y) : (s.incr f n).sections x y = s.sections x y := rfl
@[simp] theorem State.global_incr (s : State) (f n) (x) : (s.incr f n).global x = s.global x := rfl

/-! ### setBit -/

@[simp] theorem State.setBit_pending (s : State) (f i) : (s.setBit f i).pending = s.pending := rfl
@[simp] theorem State.setBit_free (s : State) (f i) : (s.setBit f i).free = s.free := rfl
@[simp] theorem State.setBit_counter (s : State) (f i) : (s.setBit f i).counter = s.counter := rfl
@[simp] theorem State.setBit_cells (s : State) (f i) : (s.setBit f i).cells = s.cells := rfl
@[simp] theorem State.setBit_hbm (s : State) (f i) : (s.setBit f i).hbm = s.hbm := rfl
@[simp] theorem State.setBit_hbmErr (s : State) (f i) : (s.setBit f i).hbmErr = s.hbmErr := rfl
@[simp] theorem State.setBit_pkts (s : State) (f i) : (s.setBit f i).pkts = s.pkts := rfl
@[simp] theorem State.setBit_pwr (s : State) (f i) : (s.setBit f i).pwr = s.pwr := rfl
@[simp] theorem State.setBit_img (s : State) (f i) : (s.setBit f i).img = s.img := rfl
@[simp] theorem State.setBit_gov (s : State) (f i) : (s.setBit f i).gov = s.gov := rfl
@[simp] theorem State.setBit_time (s : State) (f i) : (s.setBit f i).time = s.time := rfl
@[simp] theorem State.setBit_ing (s : State) (f i) : (s.setBit f i).ing = s.ing := rfl
@[simp] theorem State.setBit_cam (s : State) (f i) : (s.setBit f i).cam = s.cam := rfl
@[simp] theorem State.setBit_wgl (s : State) (f i) : (s.setBit f i).wgl = s.wgl := rfl
@[simp] theorem State.setBit_disp (s : State) (f i) : (s.setBit f i).disp = s.disp := rfl
@[simp] theorem State.setBit_sealer (s : State) (f i) : (s.setBit f i).sealer = s.sealer := rfl
@[simp] theorem State.setBit_hrd (s : State) (f i) : (s.setBit f i).hrd = s.hrd := rfl
@[simp] theorem State.setBit_safe (s : State) (f i) : (s.setBit f i).safe = s.safe := rfl
@[simp] theorem State.setBit_host (s : State) (f i) : (s.setBit f i).host = s.host := rfl
@[simp] theorem State.setBit_stackScrub (s : State) (f i) : (s.setBit f i).stackScrub = s.stackScrub := rfl
@[simp] theorem State.now_setBit (s : State) (f i) : (s.setBit f i).now = s.now := rfl
@[simp] theorem State.phys_setBit (s : State) (f i) (c) : (s.setBit f i).phys c = s.phys c := rfl
@[simp] theorem State.isBound_setBit (s : State) (f i) (c) : (s.setBit f i).isBound c = s.isBound c := rfl
@[simp] theorem State.failedRowOf_setBit (s : State) (f i) (c j) : (s.setBit f i).failedRowOf c j = s.failedRowOf c j := rfl
@[simp] theorem State.cell_setBit (s : State) (f i) (c) : (s.setBit f i).cell c = s.cell c := rfl
@[simp] theorem State.swarm_setBit (s : State) (f i) (c j) : (s.setBit f i).swarm c j = s.swarm c j := rfl
@[simp] theorem State.cellInReset_setBit (s : State) (f i) (c) : (s.setBit f i).cellInReset c = s.cellInReset c := rfl
@[simp] theorem State.hbmByte_setBit (s : State) (f i) (x) : (s.setBit f i).hbmByte x = s.hbmByte x := rfl
@[simp] theorem State.hostByte_setBit (s : State) (f i) (x) : (s.setBit f i).hostByte x = s.hostByte x := rfl
@[simp] theorem State.lmByte_setBit (s : State) (f i) (x y) : (s.setBit f i).lmByte x y = s.lmByte x y := rfl
@[simp] theorem State.dsp_setBit (s : State) (f i) (x) : (s.setBit f i).dsp x = s.dsp x := rfl
@[simp] theorem State.ctx_setBit (s : State) (f i) (x y) : (s.setBit f i).ctx x y = s.ctx x y := rfl
@[simp] theorem State.fn_setBit (s : State) (f i) (x) : (s.setBit f i).fn x = s.fn x := rfl
@[simp] theorem State.queue_setBit (s : State) (f i) (x) : (s.setBit f i).queue x = s.queue x := rfl
@[simp] theorem State.island_setBit (s : State) (f i) (x) : (s.setBit f i).island x = s.island x := rfl
@[simp] theorem State.camOf_setBit (s : State) (f i) (x) : (s.setBit f i).camOf x = s.camOf x := rfl
@[simp] theorem State.ingOf_setBit (s : State) (f i) (x) : (s.setBit f i).ingOf x = s.ingOf x := rfl
@[simp] theorem State.wglOf_setBit (s : State) (f i) (x) : (s.setBit f i).wglOf x = s.wglOf x := rfl
@[simp] theorem State.sections_setBit (s : State) (f i) (x y) : (s.setBit f i).sections x y = s.sections x y := rfl
@[simp] theorem State.global_setBit (s : State) (f i) (x) : (s.setBit f i).global x = s.global x := rfl

/-! ### modCell -/

@[simp] theorem State.modCell_pending (s : State) (i f) : (s.modCell i f).pending = s.pending := rfl
@[simp] theorem State.modCell_free (s : State) (i f) : (s.modCell i f).free = s.free := rfl
@[simp] theorem State.modCell_counter (s : State) (i f) : (s.modCell i f).counter = s.counter := rfl
@[simp] theorem State.modCell_regs (s : State) (i f) : (s.modCell i f).regs = s.regs := rfl
@[simp] theorem State.modCell_hbm (s : State) (i f) : (s.modCell i f).hbm = s.hbm := rfl
@[simp] theorem State.modCell_hbmErr (s : State) (i f) : (s.modCell i f).hbmErr = s.hbmErr := rfl
@[simp] theorem State.modCell_pkts (s : State) (i f) : (s.modCell i f).pkts = s.pkts := rfl
@[simp] theorem State.modCell_pwr (s : State) (i f) : (s.modCell i f).pwr = s.pwr := rfl
@[simp] theorem State.modCell_img (s : State) (i f) : (s.modCell i f).img = s.img := rfl
@[simp] theorem State.modCell_gov (s : State) (i f) : (s.modCell i f).gov = s.gov := rfl
@[simp] theorem State.modCell_time (s : State) (i f) : (s.modCell i f).time = s.time := rfl
@[simp] theorem State.modCell_ing (s : State) (i f) : (s.modCell i f).ing = s.ing := rfl
@[simp] theorem State.modCell_cam (s : State) (i f) : (s.modCell i f).cam = s.cam := rfl
@[simp] theorem State.modCell_wgl (s : State) (i f) : (s.modCell i f).wgl = s.wgl := rfl
@[simp] theorem State.modCell_disp (s : State) (i f) : (s.modCell i f).disp = s.disp := rfl
@[simp] theorem State.modCell_sealer (s : State) (i f) : (s.modCell i f).sealer = s.sealer := rfl
@[simp] theorem State.modCell_hrd (s : State) (i f) : (s.modCell i f).hrd = s.hrd := rfl
@[simp] theorem State.modCell_safe (s : State) (i f) : (s.modCell i f).safe = s.safe := rfl
@[simp] theorem State.modCell_host (s : State) (i f) : (s.modCell i f).host = s.host := rfl
@[simp] theorem State.modCell_stackScrub (s : State) (i f) : (s.modCell i f).stackScrub = s.stackScrub := rfl
@[simp] theorem State.reg_modCell (s : State) (i f) (o) : (s.modCell i f).reg o = s.reg o := rfl
@[simp] theorem State.rd_modCell (s : State) (i f) (g) : (s.modCell i f).rd g = s.rd g := rfl
@[simp] theorem State.now_modCell (s : State) (i f) : (s.modCell i f).now = s.now := rfl
@[simp] theorem State.phys_modCell (s : State) (i f) (c) : (s.modCell i f).phys c = s.phys c := rfl
@[simp] theorem State.isBound_modCell (s : State) (i f) (c) : (s.modCell i f).isBound c = s.isBound c := rfl
@[simp] theorem State.failedRowOf_modCell (s : State) (i f) (c j) : (s.modCell i f).failedRowOf c j = s.failedRowOf c j := rfl
@[simp] theorem State.configured_modCell (s : State) (i f) (c) : (s.modCell i f).configured c = s.configured c := rfl
@[simp] theorem State.cellInReset_modCell (s : State) (i f) (c) : (s.modCell i f).cellInReset c = s.cellInReset c := rfl
@[simp] theorem State.hbmByte_modCell (s : State) (i f) (x) : (s.modCell i f).hbmByte x = s.hbmByte x := rfl
@[simp] theorem State.hostByte_modCell (s : State) (i f) (x) : (s.modCell i f).hostByte x = s.hostByte x := rfl
@[simp] theorem State.stackUp_modCell (s : State) (i f) (x) : (s.modCell i f).stackUp x = s.stackUp x := rfl
@[simp] theorem State.dsp_modCell (s : State) (i f) (x) : (s.modCell i f).dsp x = s.dsp x := rfl
@[simp] theorem State.ctx_modCell (s : State) (i f) (x y) : (s.modCell i f).ctx x y = s.ctx x y := rfl
@[simp] theorem State.fn_modCell (s : State) (i f) (x) : (s.modCell i f).fn x = s.fn x := rfl
@[simp] theorem State.queue_modCell (s : State) (i f) (x) : (s.modCell i f).queue x = s.queue x := rfl
@[simp] theorem State.island_modCell (s : State) (i f) (x) : (s.modCell i f).island x = s.island x := rfl
@[simp] theorem State.camOf_modCell (s : State) (i f) (x) : (s.modCell i f).camOf x = s.camOf x := rfl
@[simp] theorem State.ingOf_modCell (s : State) (i f) (x) : (s.modCell i f).ingOf x = s.ingOf x := rfl
@[simp] theorem State.wglOf_modCell (s : State) (i f) (x) : (s.modCell i f).wglOf x = s.wglOf x := rfl
@[simp] theorem State.sections_modCell (s : State) (i f) (x y) : (s.modCell i f).sections x y = s.sections x y := rfl
@[simp] theorem State.global_modCell (s : State) (i f) (x) : (s.modCell i f).global x = s.global x := rfl
@[simp] theorem State.linkState_modCell (s : State) (i f) (x) : (s.modCell i f).linkState x = s.linkState x := rfl

/-! ### modSwarm -/

@[simp] theorem State.modSwarm_pending (s : State) (i k f) : (s.modSwarm i k f).pending = s.pending := rfl
@[simp] theorem State.modSwarm_free (s : State) (i k f) : (s.modSwarm i k f).free = s.free := rfl
@[simp] theorem State.modSwarm_counter (s : State) (i k f) : (s.modSwarm i k f).counter = s.counter := rfl
@[simp] theorem State.modSwarm_regs (s : State) (i k f) : (s.modSwarm i k f).regs = s.regs := rfl
@[simp] theorem State.modSwarm_hbm (s : State) (i k f) : (s.modSwarm i k f).hbm = s.hbm := rfl
@[simp] theorem State.modSwarm_hbmErr (s : State) (i k f) : (s.modSwarm i k f).hbmErr = s.hbmErr := rfl
@[simp] theorem State.modSwarm_pkts (s : State) (i k f) : (s.modSwarm i k f).pkts = s.pkts := rfl
@[simp] theorem State.modSwarm_pwr (s : State) (i k f) : (s.modSwarm i k f).pwr = s.pwr := rfl
@[simp] theorem State.modSwarm_img (s : State) (i k f) : (s.modSwarm i k f).img = s.img := rfl
@[simp] theorem State.modSwarm_gov (s : State) (i k f) : (s.modSwarm i k f).gov = s.gov := rfl
@[simp] theorem State.modSwarm_time (s : State) (i k f) : (s.modSwarm i k f).time = s.time := rfl
@[simp] theorem State.modSwarm_ing (s : State) (i k f) : (s.modSwarm i k f).ing = s.ing := rfl
@[simp] theorem State.modSwarm_cam (s : State) (i k f) : (s.modSwarm i k f).cam = s.cam := rfl
@[simp] theorem State.modSwarm_wgl (s : State) (i k f) : (s.modSwarm i k f).wgl = s.wgl := rfl
@[simp] theorem State.modSwarm_disp (s : State) (i k f) : (s.modSwarm i k f).disp = s.disp := rfl
@[simp] theorem State.modSwarm_sealer (s : State) (i k f) : (s.modSwarm i k f).sealer = s.sealer := rfl
@[simp] theorem State.modSwarm_hrd (s : State) (i k f) : (s.modSwarm i k f).hrd = s.hrd := rfl
@[simp] theorem State.modSwarm_safe (s : State) (i k f) : (s.modSwarm i k f).safe = s.safe := rfl
@[simp] theorem State.modSwarm_host (s : State) (i k f) : (s.modSwarm i k f).host = s.host := rfl
@[simp] theorem State.modSwarm_stackScrub (s : State) (i k f) : (s.modSwarm i k f).stackScrub = s.stackScrub := rfl
@[simp] theorem State.reg_modSwarm (s : State) (i k f) (o) : (s.modSwarm i k f).reg o = s.reg o := rfl
@[simp] theorem State.rd_modSwarm (s : State) (i k f) (g) : (s.modSwarm i k f).rd g = s.rd g := rfl
@[simp] theorem State.now_modSwarm (s : State) (i k f) : (s.modSwarm i k f).now = s.now := rfl
@[simp] theorem State.phys_modSwarm (s : State) (i k f) (c) : (s.modSwarm i k f).phys c = s.phys c := rfl
@[simp] theorem State.isBound_modSwarm (s : State) (i k f) (c) : (s.modSwarm i k f).isBound c = s.isBound c := rfl
@[simp] theorem State.failedRowOf_modSwarm (s : State) (i k f) (c j) : (s.modSwarm i k f).failedRowOf c j = s.failedRowOf c j := rfl
@[simp] theorem State.configured_modSwarm (s : State) (i k f) (c) : (s.modSwarm i k f).configured c = s.configured c := rfl
@[simp] theorem State.cellInReset_modSwarm (s : State) (i k f) (c) : (s.modSwarm i k f).cellInReset c = s.cellInReset c := rfl
@[simp] theorem State.hbmByte_modSwarm (s : State) (i k f) (x) : (s.modSwarm i k f).hbmByte x = s.hbmByte x := rfl
@[simp] theorem State.hostByte_modSwarm (s : State) (i k f) (x) : (s.modSwarm i k f).hostByte x = s.hostByte x := rfl
@[simp] theorem State.stackUp_modSwarm (s : State) (i k f) (x) : (s.modSwarm i k f).stackUp x = s.stackUp x := rfl
@[simp] theorem State.dsp_modSwarm (s : State) (i k f) (x) : (s.modSwarm i k f).dsp x = s.dsp x := rfl
@[simp] theorem State.ctx_modSwarm (s : State) (i k f) (x y) : (s.modSwarm i k f).ctx x y = s.ctx x y := rfl
@[simp] theorem State.fn_modSwarm (s : State) (i k f) (x) : (s.modSwarm i k f).fn x = s.fn x := rfl
@[simp] theorem State.queue_modSwarm (s : State) (i k f) (x) : (s.modSwarm i k f).queue x = s.queue x := rfl
@[simp] theorem State.island_modSwarm (s : State) (i k f) (x) : (s.modSwarm i k f).island x = s.island x := rfl
@[simp] theorem State.camOf_modSwarm (s : State) (i k f) (x) : (s.modSwarm i k f).camOf x = s.camOf x := rfl
@[simp] theorem State.ingOf_modSwarm (s : State) (i k f) (x) : (s.modSwarm i k f).ingOf x = s.ingOf x := rfl
@[simp] theorem State.wglOf_modSwarm (s : State) (i k f) (x) : (s.modSwarm i k f).wglOf x = s.wglOf x := rfl
@[simp] theorem State.sections_modSwarm (s : State) (i k f) (x y) : (s.modSwarm i k f).sections x y = s.sections x y := rfl
@[simp] theorem State.global_modSwarm (s : State) (i k f) (x) : (s.modSwarm i k f).global x = s.global x := rfl
@[simp] theorem State.linkState_modSwarm (s : State) (i k f) (x) : (s.modSwarm i k f).linkState x = s.linkState x := rfl

/-! ### hbmWrite -/

@[simp] theorem State.hbmWrite_pending (s : State) (a bs) : (s.hbmWrite a bs).pending = s.pending := rfl
@[simp] theorem State.hbmWrite_free (s : State) (a bs) : (s.hbmWrite a bs).free = s.free := rfl
@[simp] theorem State.hbmWrite_counter (s : State) (a bs) : (s.hbmWrite a bs).counter = s.counter := rfl
@[simp] theorem State.hbmWrite_regs (s : State) (a bs) : (s.hbmWrite a bs).regs = s.regs := rfl
@[simp] theorem State.hbmWrite_cells (s : State) (a bs) : (s.hbmWrite a bs).cells = s.cells := rfl
@[simp] theorem State.hbmWrite_pkts (s : State) (a bs) : (s.hbmWrite a bs).pkts = s.pkts := rfl
@[simp] theorem State.hbmWrite_pwr (s : State) (a bs) : (s.hbmWrite a bs).pwr = s.pwr := rfl
@[simp] theorem State.hbmWrite_img (s : State) (a bs) : (s.hbmWrite a bs).img = s.img := rfl
@[simp] theorem State.hbmWrite_gov (s : State) (a bs) : (s.hbmWrite a bs).gov = s.gov := rfl
@[simp] theorem State.hbmWrite_time (s : State) (a bs) : (s.hbmWrite a bs).time = s.time := rfl
@[simp] theorem State.hbmWrite_ing (s : State) (a bs) : (s.hbmWrite a bs).ing = s.ing := rfl
@[simp] theorem State.hbmWrite_cam (s : State) (a bs) : (s.hbmWrite a bs).cam = s.cam := rfl
@[simp] theorem State.hbmWrite_wgl (s : State) (a bs) : (s.hbmWrite a bs).wgl = s.wgl := rfl
@[simp] theorem State.hbmWrite_disp (s : State) (a bs) : (s.hbmWrite a bs).disp = s.disp := rfl
@[simp] theorem State.hbmWrite_sealer (s : State) (a bs) : (s.hbmWrite a bs).sealer = s.sealer := rfl
@[simp] theorem State.hbmWrite_hrd (s : State) (a bs) : (s.hbmWrite a bs).hrd = s.hrd := rfl
@[simp] theorem State.hbmWrite_safe (s : State) (a bs) : (s.hbmWrite a bs).safe = s.safe := rfl
@[simp] theorem State.hbmWrite_host (s : State) (a bs) : (s.hbmWrite a bs).host = s.host := rfl
@[simp] theorem State.hbmWrite_stackScrub (s : State) (a bs) : (s.hbmWrite a bs).stackScrub = s.stackScrub := rfl
@[simp] theorem State.reg_hbmWrite (s : State) (a bs) (o) : (s.hbmWrite a bs).reg o = s.reg o := rfl
@[simp] theorem State.rd_hbmWrite (s : State) (a bs) (g) : (s.hbmWrite a bs).rd g = s.rd g := rfl
@[simp] theorem State.now_hbmWrite (s : State) (a bs) : (s.hbmWrite a bs).now = s.now := rfl
@[simp] theorem State.phys_hbmWrite (s : State) (a bs) (c) : (s.hbmWrite a bs).phys c = s.phys c := rfl
@[simp] theorem State.isBound_hbmWrite (s : State) (a bs) (c) : (s.hbmWrite a bs).isBound c = s.isBound c := rfl
@[simp] theorem State.failedRowOf_hbmWrite (s : State) (a bs) (c j) : (s.hbmWrite a bs).failedRowOf c j = s.failedRowOf c j := rfl
@[simp] theorem State.configured_hbmWrite (s : State) (a bs) (c) : (s.hbmWrite a bs).configured c = s.configured c := rfl
@[simp] theorem State.cell_hbmWrite (s : State) (a bs) (c) : (s.hbmWrite a bs).cell c = s.cell c := rfl
@[simp] theorem State.swarm_hbmWrite (s : State) (a bs) (c j) : (s.hbmWrite a bs).swarm c j = s.swarm c j := rfl
@[simp] theorem State.cellInReset_hbmWrite (s : State) (a bs) (c) : (s.hbmWrite a bs).cellInReset c = s.cellInReset c := rfl
@[simp] theorem State.hostByte_hbmWrite (s : State) (a bs) (x) : (s.hbmWrite a bs).hostByte x = s.hostByte x := rfl
@[simp] theorem State.lmByte_hbmWrite (s : State) (a bs) (x y) : (s.hbmWrite a bs).lmByte x y = s.lmByte x y := rfl
@[simp] theorem State.stackUp_hbmWrite (s : State) (a bs) (x) : (s.hbmWrite a bs).stackUp x = s.stackUp x := rfl
@[simp] theorem State.dsp_hbmWrite (s : State) (a bs) (x) : (s.hbmWrite a bs).dsp x = s.dsp x := rfl
@[simp] theorem State.ctx_hbmWrite (s : State) (a bs) (x y) : (s.hbmWrite a bs).ctx x y = s.ctx x y := rfl
@[simp] theorem State.fn_hbmWrite (s : State) (a bs) (x) : (s.hbmWrite a bs).fn x = s.fn x := rfl
@[simp] theorem State.queue_hbmWrite (s : State) (a bs) (x) : (s.hbmWrite a bs).queue x = s.queue x := rfl
@[simp] theorem State.island_hbmWrite (s : State) (a bs) (x) : (s.hbmWrite a bs).island x = s.island x := rfl
@[simp] theorem State.camOf_hbmWrite (s : State) (a bs) (x) : (s.hbmWrite a bs).camOf x = s.camOf x := rfl
@[simp] theorem State.ingOf_hbmWrite (s : State) (a bs) (x) : (s.hbmWrite a bs).ingOf x = s.ingOf x := rfl
@[simp] theorem State.wglOf_hbmWrite (s : State) (a bs) (x) : (s.hbmWrite a bs).wglOf x = s.wglOf x := rfl
@[simp] theorem State.sections_hbmWrite (s : State) (a bs) (x y) : (s.hbmWrite a bs).sections x y = s.sections x y := rfl
@[simp] theorem State.global_hbmWrite (s : State) (a bs) (x) : (s.hbmWrite a bs).global x = s.global x := rfl
@[simp] theorem State.linkState_hbmWrite (s : State) (a bs) (x) : (s.hbmWrite a bs).linkState x = s.linkState x := rfl

/-! ### modDisp -/

@[simp] theorem State.modDisp_pending (s : State) (ch f) : (s.modDisp ch f).pending = s.pending := rfl
@[simp] theorem State.modDisp_free (s : State) (ch f) : (s.modDisp ch f).free = s.free := rfl
@[simp] theorem State.modDisp_counter (s : State) (ch f) : (s.modDisp ch f).counter = s.counter := rfl
@[simp] theorem State.modDisp_regs (s : State) (ch f) : (s.modDisp ch f).regs = s.regs := rfl
@[simp] theorem State.modDisp_cells (s : State) (ch f) : (s.modDisp ch f).cells = s.cells := rfl
@[simp] theorem State.modDisp_hbm (s : State) (ch f) : (s.modDisp ch f).hbm = s.hbm := rfl
@[simp] theorem State.modDisp_hbmErr (s : State) (ch f) : (s.modDisp ch f).hbmErr = s.hbmErr := rfl
@[simp] theorem State.modDisp_pkts (s : State) (ch f) : (s.modDisp ch f).pkts = s.pkts := rfl
@[simp] theorem State.modDisp_pwr (s : State) (ch f) : (s.modDisp ch f).pwr = s.pwr := rfl
@[simp] theorem State.modDisp_img (s : State) (ch f) : (s.modDisp ch f).img = s.img := rfl
@[simp] theorem State.modDisp_gov (s : State) (ch f) : (s.modDisp ch f).gov = s.gov := rfl
@[simp] theorem State.modDisp_time (s : State) (ch f) : (s.modDisp ch f).time = s.time := rfl
@[simp] theorem State.modDisp_ing (s : State) (ch f) : (s.modDisp ch f).ing = s.ing := rfl
@[simp] theorem State.modDisp_cam (s : State) (ch f) : (s.modDisp ch f).cam = s.cam := rfl
@[simp] theorem State.modDisp_wgl (s : State) (ch f) : (s.modDisp ch f).wgl = s.wgl := rfl
@[simp] theorem State.modDisp_sealer (s : State) (ch f) : (s.modDisp ch f).sealer = s.sealer := rfl
@[simp] theorem State.modDisp_hrd (s : State) (ch f) : (s.modDisp ch f).hrd = s.hrd := rfl
@[simp] theorem State.modDisp_safe (s : State) (ch f) : (s.modDisp ch f).safe = s.safe := rfl
@[simp] theorem State.modDisp_host (s : State) (ch f) : (s.modDisp ch f).host = s.host := rfl
@[simp] theorem State.modDisp_stackScrub (s : State) (ch f) : (s.modDisp ch f).stackScrub = s.stackScrub := rfl
@[simp] theorem State.reg_modDisp (s : State) (ch f) (o) : (s.modDisp ch f).reg o = s.reg o := rfl
@[simp] theorem State.rd_modDisp (s : State) (ch f) (g) : (s.modDisp ch f).rd g = s.rd g := rfl
@[simp] theorem State.now_modDisp (s : State) (ch f) : (s.modDisp ch f).now = s.now := rfl
@[simp] theorem State.phys_modDisp (s : State) (ch f) (c) : (s.modDisp ch f).phys c = s.phys c := rfl
@[simp] theorem State.isBound_modDisp (s : State) (ch f) (c) : (s.modDisp ch f).isBound c = s.isBound c := rfl
@[simp] theorem State.failedRowOf_modDisp (s : State) (ch f) (c j) : (s.modDisp ch f).failedRowOf c j = s.failedRowOf c j := rfl
@[simp] theorem State.configured_modDisp (s : State) (ch f) (c) : (s.modDisp ch f).configured c = s.configured c := rfl
@[simp] theorem State.cell_modDisp (s : State) (ch f) (c) : (s.modDisp ch f).cell c = s.cell c := rfl
@[simp] theorem State.swarm_modDisp (s : State) (ch f) (c j) : (s.modDisp ch f).swarm c j = s.swarm c j := rfl
@[simp] theorem State.cellInReset_modDisp (s : State) (ch f) (c) : (s.modDisp ch f).cellInReset c = s.cellInReset c := rfl
@[simp] theorem State.hbmByte_modDisp (s : State) (ch f) (x) : (s.modDisp ch f).hbmByte x = s.hbmByte x := rfl
@[simp] theorem State.hostByte_modDisp (s : State) (ch f) (x) : (s.modDisp ch f).hostByte x = s.hostByte x := rfl
@[simp] theorem State.lmByte_modDisp (s : State) (ch f) (x y) : (s.modDisp ch f).lmByte x y = s.lmByte x y := rfl
@[simp] theorem State.stackUp_modDisp (s : State) (ch f) (x) : (s.modDisp ch f).stackUp x = s.stackUp x := rfl
@[simp] theorem State.fn_modDisp (s : State) (ch f) (x) : (s.modDisp ch f).fn x = s.fn x := rfl
@[simp] theorem State.queue_modDisp (s : State) (ch f) (x) : (s.modDisp ch f).queue x = s.queue x := rfl
@[simp] theorem State.island_modDisp (s : State) (ch f) (x) : (s.modDisp ch f).island x = s.island x := rfl
@[simp] theorem State.camOf_modDisp (s : State) (ch f) (x) : (s.modDisp ch f).camOf x = s.camOf x := rfl
@[simp] theorem State.ingOf_modDisp (s : State) (ch f) (x) : (s.modDisp ch f).ingOf x = s.ingOf x := rfl
@[simp] theorem State.wglOf_modDisp (s : State) (ch f) (x) : (s.modDisp ch f).wglOf x = s.wglOf x := rfl
@[simp] theorem State.sections_modDisp (s : State) (ch f) (x y) : (s.modDisp ch f).sections x y = s.sections x y := rfl
@[simp] theorem State.global_modDisp (s : State) (ch f) (x) : (s.modDisp ch f).global x = s.global x := rfl
@[simp] theorem State.linkState_modDisp (s : State) (ch f) (x) : (s.modDisp ch f).linkState x = s.linkState x := rfl

/-! ### modCtx -/

@[simp] theorem State.modCtx_pending (s : State) (ch k f) : (s.modCtx ch k f).pending = s.pending := rfl
@[simp] theorem State.modCtx_free (s : State) (ch k f) : (s.modCtx ch k f).free = s.free := rfl
@[simp] theorem State.modCtx_counter (s : State) (ch k f) : (s.modCtx ch k f).counter = s.counter := rfl
@[simp] theorem State.modCtx_regs (s : State) (ch k f) : (s.modCtx ch k f).regs = s.regs := rfl
@[simp] theorem State.modCtx_cells (s : State) (ch k f) : (s.modCtx ch k f).cells = s.cells := rfl
@[simp] theorem State.modCtx_hbm (s : State) (ch k f) : (s.modCtx ch k f).hbm = s.hbm := rfl
@[simp] theorem State.modCtx_hbmErr (s : State) (ch k f) : (s.modCtx ch k f).hbmErr = s.hbmErr := rfl
@[simp] theorem State.modCtx_pkts (s : State) (ch k f) : (s.modCtx ch k f).pkts = s.pkts := rfl
@[simp] theorem State.modCtx_pwr (s : State) (ch k f) : (s.modCtx ch k f).pwr = s.pwr := rfl
@[simp] theorem State.modCtx_img (s : State) (ch k f) : (s.modCtx ch k f).img = s.img := rfl
@[simp] theorem State.modCtx_gov (s : State) (ch k f) : (s.modCtx ch k f).gov = s.gov := rfl
@[simp] theorem State.modCtx_time (s : State) (ch k f) : (s.modCtx ch k f).time = s.time := rfl
@[simp] theorem State.modCtx_ing (s : State) (ch k f) : (s.modCtx ch k f).ing = s.ing := rfl
@[simp] theorem State.modCtx_cam (s : State) (ch k f) : (s.modCtx ch k f).cam = s.cam := rfl
@[simp] theorem State.modCtx_wgl (s : State) (ch k f) : (s.modCtx ch k f).wgl = s.wgl := rfl
@[simp] theorem State.modCtx_sealer (s : State) (ch k f) : (s.modCtx ch k f).sealer = s.sealer := rfl
@[simp] theorem State.modCtx_hrd (s : State) (ch k f) : (s.modCtx ch k f).hrd = s.hrd := rfl
@[simp] theorem State.modCtx_safe (s : State) (ch k f) : (s.modCtx ch k f).safe = s.safe := rfl
@[simp] theorem State.modCtx_host (s : State) (ch k f) : (s.modCtx ch k f).host = s.host := rfl
@[simp] theorem State.modCtx_stackScrub (s : State) (ch k f) : (s.modCtx ch k f).stackScrub = s.stackScrub := rfl
@[simp] theorem State.reg_modCtx (s : State) (ch k f) (o) : (s.modCtx ch k f).reg o = s.reg o := rfl
@[simp] theorem State.rd_modCtx (s : State) (ch k f) (g) : (s.modCtx ch k f).rd g = s.rd g := rfl
@[simp] theorem State.now_modCtx (s : State) (ch k f) : (s.modCtx ch k f).now = s.now := rfl
@[simp] theorem State.phys_modCtx (s : State) (ch k f) (c) : (s.modCtx ch k f).phys c = s.phys c := rfl
@[simp] theorem State.isBound_modCtx (s : State) (ch k f) (c) : (s.modCtx ch k f).isBound c = s.isBound c := rfl
@[simp] theorem State.failedRowOf_modCtx (s : State) (ch k f) (c j) : (s.modCtx ch k f).failedRowOf c j = s.failedRowOf c j := rfl
@[simp] theorem State.configured_modCtx (s : State) (ch k f) (c) : (s.modCtx ch k f).configured c = s.configured c := rfl
@[simp] theorem State.cell_modCtx (s : State) (ch k f) (c) : (s.modCtx ch k f).cell c = s.cell c := rfl
@[simp] theorem State.swarm_modCtx (s : State) (ch k f) (c j) : (s.modCtx ch k f).swarm c j = s.swarm c j := rfl
@[simp] theorem State.cellInReset_modCtx (s : State) (ch k f) (c) : (s.modCtx ch k f).cellInReset c = s.cellInReset c := rfl
@[simp] theorem State.hbmByte_modCtx (s : State) (ch k f) (x) : (s.modCtx ch k f).hbmByte x = s.hbmByte x := rfl
@[simp] theorem State.hostByte_modCtx (s : State) (ch k f) (x) : (s.modCtx ch k f).hostByte x = s.hostByte x := rfl
@[simp] theorem State.lmByte_modCtx (s : State) (ch k f) (x y) : (s.modCtx ch k f).lmByte x y = s.lmByte x y := rfl
@[simp] theorem State.stackUp_modCtx (s : State) (ch k f) (x) : (s.modCtx ch k f).stackUp x = s.stackUp x := rfl
@[simp] theorem State.fn_modCtx (s : State) (ch k f) (x) : (s.modCtx ch k f).fn x = s.fn x := rfl
@[simp] theorem State.queue_modCtx (s : State) (ch k f) (x) : (s.modCtx ch k f).queue x = s.queue x := rfl
@[simp] theorem State.island_modCtx (s : State) (ch k f) (x) : (s.modCtx ch k f).island x = s.island x := rfl
@[simp] theorem State.camOf_modCtx (s : State) (ch k f) (x) : (s.modCtx ch k f).camOf x = s.camOf x := rfl
@[simp] theorem State.ingOf_modCtx (s : State) (ch k f) (x) : (s.modCtx ch k f).ingOf x = s.ingOf x := rfl
@[simp] theorem State.wglOf_modCtx (s : State) (ch k f) (x) : (s.modCtx ch k f).wglOf x = s.wglOf x := rfl
@[simp] theorem State.sections_modCtx (s : State) (ch k f) (x y) : (s.modCtx ch k f).sections x y = s.sections x y := rfl
@[simp] theorem State.global_modCtx (s : State) (ch k f) (x) : (s.modCtx ch k f).global x = s.global x := rfl
@[simp] theorem State.linkState_modCtx (s : State) (ch k f) (x) : (s.modCtx ch k f).linkState x = s.linkState x := rfl

/-! ### modFn -/

@[simp] theorem State.modFn_pending (s : State) (i f) : (s.modFn i f).pending = s.pending := rfl
@[simp] theorem State.modFn_free (s : State) (i f) : (s.modFn i f).free = s.free := rfl
@[simp] theorem State.modFn_counter (s : State) (i f) : (s.modFn i f).counter = s.counter := rfl
@[simp] theorem State.modFn_regs (s : State) (i f) : (s.modFn i f).regs = s.regs := rfl
@[simp] theorem State.modFn_cells (s : State) (i f) : (s.modFn i f).cells = s.cells := rfl
@[simp] theorem State.modFn_hbm (s : State) (i f) : (s.modFn i f).hbm = s.hbm := rfl
@[simp] theorem State.modFn_hbmErr (s : State) (i f) : (s.modFn i f).hbmErr = s.hbmErr := rfl
@[simp] theorem State.modFn_pkts (s : State) (i f) : (s.modFn i f).pkts = s.pkts := rfl
@[simp] theorem State.modFn_pwr (s : State) (i f) : (s.modFn i f).pwr = s.pwr := rfl
@[simp] theorem State.modFn_img (s : State) (i f) : (s.modFn i f).img = s.img := rfl
@[simp] theorem State.modFn_gov (s : State) (i f) : (s.modFn i f).gov = s.gov := rfl
@[simp] theorem State.modFn_time (s : State) (i f) : (s.modFn i f).time = s.time := rfl
@[simp] theorem State.modFn_ing (s : State) (i f) : (s.modFn i f).ing = s.ing := rfl
@[simp] theorem State.modFn_cam (s : State) (i f) : (s.modFn i f).cam = s.cam := rfl
@[simp] theorem State.modFn_wgl (s : State) (i f) : (s.modFn i f).wgl = s.wgl := rfl
@[simp] theorem State.modFn_disp (s : State) (i f) : (s.modFn i f).disp = s.disp := rfl
@[simp] theorem State.modFn_sealer (s : State) (i f) : (s.modFn i f).sealer = s.sealer := rfl
@[simp] theorem State.modFn_hrd (s : State) (i f) : (s.modFn i f).hrd = s.hrd := rfl
@[simp] theorem State.modFn_host (s : State) (i f) : (s.modFn i f).host = s.host := rfl
@[simp] theorem State.modFn_stackScrub (s : State) (i f) : (s.modFn i f).stackScrub = s.stackScrub := rfl
@[simp] theorem State.reg_modFn (s : State) (i f) (o) : (s.modFn i f).reg o = s.reg o := rfl
@[simp] theorem State.rd_modFn (s : State) (i f) (g) : (s.modFn i f).rd g = s.rd g := rfl
@[simp] theorem State.now_modFn (s : State) (i f) : (s.modFn i f).now = s.now := rfl
@[simp] theorem State.phys_modFn (s : State) (i f) (c) : (s.modFn i f).phys c = s.phys c := rfl
@[simp] theorem State.isBound_modFn (s : State) (i f) (c) : (s.modFn i f).isBound c = s.isBound c := rfl
@[simp] theorem State.failedRowOf_modFn (s : State) (i f) (c j) : (s.modFn i f).failedRowOf c j = s.failedRowOf c j := rfl
@[simp] theorem State.configured_modFn (s : State) (i f) (c) : (s.modFn i f).configured c = s.configured c := rfl
@[simp] theorem State.cell_modFn (s : State) (i f) (c) : (s.modFn i f).cell c = s.cell c := rfl
@[simp] theorem State.swarm_modFn (s : State) (i f) (c j) : (s.modFn i f).swarm c j = s.swarm c j := rfl
@[simp] theorem State.cellInReset_modFn (s : State) (i f) (c) : (s.modFn i f).cellInReset c = s.cellInReset c := rfl
@[simp] theorem State.hbmByte_modFn (s : State) (i f) (x) : (s.modFn i f).hbmByte x = s.hbmByte x := rfl
@[simp] theorem State.hostByte_modFn (s : State) (i f) (x) : (s.modFn i f).hostByte x = s.hostByte x := rfl
@[simp] theorem State.lmByte_modFn (s : State) (i f) (x y) : (s.modFn i f).lmByte x y = s.lmByte x y := rfl
@[simp] theorem State.stackUp_modFn (s : State) (i f) (x) : (s.modFn i f).stackUp x = s.stackUp x := rfl
@[simp] theorem State.dsp_modFn (s : State) (i f) (x) : (s.modFn i f).dsp x = s.dsp x := rfl
@[simp] theorem State.ctx_modFn (s : State) (i f) (x y) : (s.modFn i f).ctx x y = s.ctx x y := rfl
@[simp] theorem State.queue_modFn (s : State) (i f) (x) : (s.modFn i f).queue x = s.queue x := rfl
@[simp] theorem State.island_modFn (s : State) (i f) (x) : (s.modFn i f).island x = s.island x := rfl
@[simp] theorem State.camOf_modFn (s : State) (i f) (x) : (s.modFn i f).camOf x = s.camOf x := rfl
@[simp] theorem State.ingOf_modFn (s : State) (i f) (x) : (s.modFn i f).ingOf x = s.ingOf x := rfl
@[simp] theorem State.wglOf_modFn (s : State) (i f) (x) : (s.modFn i f).wglOf x = s.wglOf x := rfl
@[simp] theorem State.sections_modFn (s : State) (i f) (x y) : (s.modFn i f).sections x y = s.sections x y := rfl
@[simp] theorem State.global_modFn (s : State) (i f) (x) : (s.modFn i f).global x = s.global x := rfl
@[simp] theorem State.linkState_modFn (s : State) (i f) (x) : (s.modFn i f).linkState x = s.linkState x := rfl

/-! ### modQueue -/

@[simp] theorem State.modQueue_pending (s : State) (q f) : (s.modQueue q f).pending = s.pending := rfl
@[simp] theorem State.modQueue_free (s : State) (q f) : (s.modQueue q f).free = s.free := rfl
@[simp] theorem State.modQueue_counter (s : State) (q f) : (s.modQueue q f).counter = s.counter := rfl
@[simp] theorem State.modQueue_regs (s : State) (q f) : (s.modQueue q f).regs = s.regs := rfl
@[simp] theorem State.modQueue_cells (s : State) (q f) : (s.modQueue q f).cells = s.cells := rfl
@[simp] theorem State.modQueue_hbm (s : State) (q f) : (s.modQueue q f).hbm = s.hbm := rfl
@[simp] theorem State.modQueue_hbmErr (s : State) (q f) : (s.modQueue q f).hbmErr = s.hbmErr := rfl
@[simp] theorem State.modQueue_pkts (s : State) (q f) : (s.modQueue q f).pkts = s.pkts := rfl
@[simp] theorem State.modQueue_pwr (s : State) (q f) : (s.modQueue q f).pwr = s.pwr := rfl
@[simp] theorem State.modQueue_img (s : State) (q f) : (s.modQueue q f).img = s.img := rfl
@[simp] theorem State.modQueue_gov (s : State) (q f) : (s.modQueue q f).gov = s.gov := rfl
@[simp] theorem State.modQueue_time (s : State) (q f) : (s.modQueue q f).time = s.time := rfl
@[simp] theorem State.modQueue_ing (s : State) (q f) : (s.modQueue q f).ing = s.ing := rfl
@[simp] theorem State.modQueue_cam (s : State) (q f) : (s.modQueue q f).cam = s.cam := rfl
@[simp] theorem State.modQueue_wgl (s : State) (q f) : (s.modQueue q f).wgl = s.wgl := rfl
@[simp] theorem State.modQueue_disp (s : State) (q f) : (s.modQueue q f).disp = s.disp := rfl
@[simp] theorem State.modQueue_sealer (s : State) (q f) : (s.modQueue q f).sealer = s.sealer := rfl
@[simp] theorem State.modQueue_hrd (s : State) (q f) : (s.modQueue q f).hrd = s.hrd := rfl
@[simp] theorem State.modQueue_safe (s : State) (q f) : (s.modQueue q f).safe = s.safe := rfl
@[simp] theorem State.modQueue_stackScrub (s : State) (q f) : (s.modQueue q f).stackScrub = s.stackScrub := rfl
@[simp] theorem State.reg_modQueue (s : State) (q f) (o) : (s.modQueue q f).reg o = s.reg o := rfl
@[simp] theorem State.rd_modQueue (s : State) (q f) (g) : (s.modQueue q f).rd g = s.rd g := rfl
@[simp] theorem State.now_modQueue (s : State) (q f) : (s.modQueue q f).now = s.now := rfl
@[simp] theorem State.phys_modQueue (s : State) (q f) (c) : (s.modQueue q f).phys c = s.phys c := rfl
@[simp] theorem State.isBound_modQueue (s : State) (q f) (c) : (s.modQueue q f).isBound c = s.isBound c := rfl
@[simp] theorem State.failedRowOf_modQueue (s : State) (q f) (c j) : (s.modQueue q f).failedRowOf c j = s.failedRowOf c j := rfl
@[simp] theorem State.configured_modQueue (s : State) (q f) (c) : (s.modQueue q f).configured c = s.configured c := rfl
@[simp] theorem State.cell_modQueue (s : State) (q f) (c) : (s.modQueue q f).cell c = s.cell c := rfl
@[simp] theorem State.swarm_modQueue (s : State) (q f) (c j) : (s.modQueue q f).swarm c j = s.swarm c j := rfl
@[simp] theorem State.cellInReset_modQueue (s : State) (q f) (c) : (s.modQueue q f).cellInReset c = s.cellInReset c := rfl
@[simp] theorem State.hbmByte_modQueue (s : State) (q f) (x) : (s.modQueue q f).hbmByte x = s.hbmByte x := rfl
@[simp] theorem State.lmByte_modQueue (s : State) (q f) (x y) : (s.modQueue q f).lmByte x y = s.lmByte x y := rfl
@[simp] theorem State.stackUp_modQueue (s : State) (q f) (x) : (s.modQueue q f).stackUp x = s.stackUp x := rfl
@[simp] theorem State.dsp_modQueue (s : State) (q f) (x) : (s.modQueue q f).dsp x = s.dsp x := rfl
@[simp] theorem State.ctx_modQueue (s : State) (q f) (x y) : (s.modQueue q f).ctx x y = s.ctx x y := rfl
@[simp] theorem State.fn_modQueue (s : State) (q f) (x) : (s.modQueue q f).fn x = s.fn x := rfl
@[simp] theorem State.island_modQueue (s : State) (q f) (x) : (s.modQueue q f).island x = s.island x := rfl
@[simp] theorem State.camOf_modQueue (s : State) (q f) (x) : (s.modQueue q f).camOf x = s.camOf x := rfl
@[simp] theorem State.ingOf_modQueue (s : State) (q f) (x) : (s.modQueue q f).ingOf x = s.ingOf x := rfl
@[simp] theorem State.wglOf_modQueue (s : State) (q f) (x) : (s.modQueue q f).wglOf x = s.wglOf x := rfl
@[simp] theorem State.sections_modQueue (s : State) (q f) (x y) : (s.modQueue q f).sections x y = s.sections x y := rfl
@[simp] theorem State.global_modQueue (s : State) (q f) (x) : (s.modQueue q f).global x = s.global x := rfl
@[simp] theorem State.linkState_modQueue (s : State) (q f) (x) : (s.modQueue q f).linkState x = s.linkState x := rfl

/-! ### modJob -/

@[simp] theorem State.modJob_pending (s : State) (q n f) : (s.modJob q n f).pending = s.pending := rfl
@[simp] theorem State.modJob_free (s : State) (q n f) : (s.modJob q n f).free = s.free := rfl
@[simp] theorem State.modJob_counter (s : State) (q n f) : (s.modJob q n f).counter = s.counter := rfl
@[simp] theorem State.modJob_regs (s : State) (q n f) : (s.modJob q n f).regs = s.regs := rfl
@[simp] theorem State.modJob_cells (s : State) (q n f) : (s.modJob q n f).cells = s.cells := rfl
@[simp] theorem State.modJob_hbm (s : State) (q n f) : (s.modJob q n f).hbm = s.hbm := rfl
@[simp] theorem State.modJob_hbmErr (s : State) (q n f) : (s.modJob q n f).hbmErr = s.hbmErr := rfl
@[simp] theorem State.modJob_pkts (s : State) (q n f) : (s.modJob q n f).pkts = s.pkts := rfl
@[simp] theorem State.modJob_pwr (s : State) (q n f) : (s.modJob q n f).pwr = s.pwr := rfl
@[simp] theorem State.modJob_img (s : State) (q n f) : (s.modJob q n f).img = s.img := rfl
@[simp] theorem State.modJob_gov (s : State) (q n f) : (s.modJob q n f).gov = s.gov := rfl
@[simp] theorem State.modJob_time (s : State) (q n f) : (s.modJob q n f).time = s.time := rfl
@[simp] theorem State.modJob_ing (s : State) (q n f) : (s.modJob q n f).ing = s.ing := rfl
@[simp] theorem State.modJob_cam (s : State) (q n f) : (s.modJob q n f).cam = s.cam := rfl
@[simp] theorem State.modJob_wgl (s : State) (q n f) : (s.modJob q n f).wgl = s.wgl := rfl
@[simp] theorem State.modJob_disp (s : State) (q n f) : (s.modJob q n f).disp = s.disp := rfl
@[simp] theorem State.modJob_sealer (s : State) (q n f) : (s.modJob q n f).sealer = s.sealer := rfl
@[simp] theorem State.modJob_hrd (s : State) (q n f) : (s.modJob q n f).hrd = s.hrd := rfl
@[simp] theorem State.modJob_safe (s : State) (q n f) : (s.modJob q n f).safe = s.safe := rfl
@[simp] theorem State.modJob_stackScrub (s : State) (q n f) : (s.modJob q n f).stackScrub = s.stackScrub := rfl
@[simp] theorem State.reg_modJob (s : State) (q n f) (o) : (s.modJob q n f).reg o = s.reg o := rfl
@[simp] theorem State.rd_modJob (s : State) (q n f) (g) : (s.modJob q n f).rd g = s.rd g := rfl
@[simp] theorem State.now_modJob (s : State) (q n f) : (s.modJob q n f).now = s.now := rfl
@[simp] theorem State.phys_modJob (s : State) (q n f) (c) : (s.modJob q n f).phys c = s.phys c := rfl
@[simp] theorem State.isBound_modJob (s : State) (q n f) (c) : (s.modJob q n f).isBound c = s.isBound c := rfl
@[simp] theorem State.failedRowOf_modJob (s : State) (q n f) (c j) : (s.modJob q n f).failedRowOf c j = s.failedRowOf c j := rfl
@[simp] theorem State.configured_modJob (s : State) (q n f) (c) : (s.modJob q n f).configured c = s.configured c := rfl
@[simp] theorem State.cell_modJob (s : State) (q n f) (c) : (s.modJob q n f).cell c = s.cell c := rfl
@[simp] theorem State.swarm_modJob (s : State) (q n f) (c j) : (s.modJob q n f).swarm c j = s.swarm c j := rfl
@[simp] theorem State.cellInReset_modJob (s : State) (q n f) (c) : (s.modJob q n f).cellInReset c = s.cellInReset c := rfl
@[simp] theorem State.hbmByte_modJob (s : State) (q n f) (x) : (s.modJob q n f).hbmByte x = s.hbmByte x := rfl
@[simp] theorem State.lmByte_modJob (s : State) (q n f) (x y) : (s.modJob q n f).lmByte x y = s.lmByte x y := rfl
@[simp] theorem State.stackUp_modJob (s : State) (q n f) (x) : (s.modJob q n f).stackUp x = s.stackUp x := rfl
@[simp] theorem State.dsp_modJob (s : State) (q n f) (x) : (s.modJob q n f).dsp x = s.dsp x := rfl
@[simp] theorem State.ctx_modJob (s : State) (q n f) (x y) : (s.modJob q n f).ctx x y = s.ctx x y := rfl
@[simp] theorem State.fn_modJob (s : State) (q n f) (x) : (s.modJob q n f).fn x = s.fn x := rfl
@[simp] theorem State.island_modJob (s : State) (q n f) (x) : (s.modJob q n f).island x = s.island x := rfl
@[simp] theorem State.camOf_modJob (s : State) (q n f) (x) : (s.modJob q n f).camOf x = s.camOf x := rfl
@[simp] theorem State.ingOf_modJob (s : State) (q n f) (x) : (s.modJob q n f).ingOf x = s.ingOf x := rfl
@[simp] theorem State.wglOf_modJob (s : State) (q n f) (x) : (s.modJob q n f).wglOf x = s.wglOf x := rfl
@[simp] theorem State.sections_modJob (s : State) (q n f) (x y) : (s.modJob q n f).sections x y = s.sections x y := rfl
@[simp] theorem State.global_modJob (s : State) (q n f) (x) : (s.modJob q n f).global x = s.global x := rfl
@[simp] theorem State.linkState_modJob (s : State) (q n f) (x) : (s.modJob q n f).linkState x = s.linkState x := rfl

/-! ### modPwr -/

@[simp] theorem State.modPwr_pending (s : State) (f) : (s.modPwr f).pending = s.pending := rfl
@[simp] theorem State.modPwr_free (s : State) (f) : (s.modPwr f).free = s.free := rfl
@[simp] theorem State.modPwr_counter (s : State) (f) : (s.modPwr f).counter = s.counter := rfl
@[simp] theorem State.modPwr_regs (s : State) (f) : (s.modPwr f).regs = s.regs := rfl
@[simp] theorem State.modPwr_cells (s : State) (f) : (s.modPwr f).cells = s.cells := rfl
@[simp] theorem State.modPwr_hbm (s : State) (f) : (s.modPwr f).hbm = s.hbm := rfl
@[simp] theorem State.modPwr_hbmErr (s : State) (f) : (s.modPwr f).hbmErr = s.hbmErr := rfl
@[simp] theorem State.modPwr_pkts (s : State) (f) : (s.modPwr f).pkts = s.pkts := rfl
@[simp] theorem State.modPwr_img (s : State) (f) : (s.modPwr f).img = s.img := rfl
@[simp] theorem State.modPwr_gov (s : State) (f) : (s.modPwr f).gov = s.gov := rfl
@[simp] theorem State.modPwr_time (s : State) (f) : (s.modPwr f).time = s.time := rfl
@[simp] theorem State.modPwr_ing (s : State) (f) : (s.modPwr f).ing = s.ing := rfl
@[simp] theorem State.modPwr_cam (s : State) (f) : (s.modPwr f).cam = s.cam := rfl
@[simp] theorem State.modPwr_wgl (s : State) (f) : (s.modPwr f).wgl = s.wgl := rfl
@[simp] theorem State.modPwr_disp (s : State) (f) : (s.modPwr f).disp = s.disp := rfl
@[simp] theorem State.modPwr_sealer (s : State) (f) : (s.modPwr f).sealer = s.sealer := rfl
@[simp] theorem State.modPwr_hrd (s : State) (f) : (s.modPwr f).hrd = s.hrd := rfl
@[simp] theorem State.modPwr_safe (s : State) (f) : (s.modPwr f).safe = s.safe := rfl
@[simp] theorem State.modPwr_host (s : State) (f) : (s.modPwr f).host = s.host := rfl
@[simp] theorem State.modPwr_stackScrub (s : State) (f) : (s.modPwr f).stackScrub = s.stackScrub := rfl
@[simp] theorem State.reg_modPwr (s : State) (f) (o) : (s.modPwr f).reg o = s.reg o := rfl
@[simp] theorem State.rd_modPwr (s : State) (f) (g) : (s.modPwr f).rd g = s.rd g := rfl
@[simp] theorem State.now_modPwr (s : State) (f) : (s.modPwr f).now = s.now := rfl
@[simp] theorem State.phys_modPwr (s : State) (f) (c) : (s.modPwr f).phys c = s.phys c := rfl
@[simp] theorem State.isBound_modPwr (s : State) (f) (c) : (s.modPwr f).isBound c = s.isBound c := rfl
@[simp] theorem State.failedRowOf_modPwr (s : State) (f) (c j) : (s.modPwr f).failedRowOf c j = s.failedRowOf c j := rfl
@[simp] theorem State.configured_modPwr (s : State) (f) (c) : (s.modPwr f).configured c = s.configured c := rfl
@[simp] theorem State.cell_modPwr (s : State) (f) (c) : (s.modPwr f).cell c = s.cell c := rfl
@[simp] theorem State.swarm_modPwr (s : State) (f) (c j) : (s.modPwr f).swarm c j = s.swarm c j := rfl
@[simp] theorem State.hbmByte_modPwr (s : State) (f) (x) : (s.modPwr f).hbmByte x = s.hbmByte x := rfl
@[simp] theorem State.hostByte_modPwr (s : State) (f) (x) : (s.modPwr f).hostByte x = s.hostByte x := rfl
@[simp] theorem State.lmByte_modPwr (s : State) (f) (x y) : (s.modPwr f).lmByte x y = s.lmByte x y := rfl
@[simp] theorem State.stackUp_modPwr (s : State) (f) (x) : (s.modPwr f).stackUp x = s.stackUp x := rfl
@[simp] theorem State.dsp_modPwr (s : State) (f) (x) : (s.modPwr f).dsp x = s.dsp x := rfl
@[simp] theorem State.ctx_modPwr (s : State) (f) (x y) : (s.modPwr f).ctx x y = s.ctx x y := rfl
@[simp] theorem State.fn_modPwr (s : State) (f) (x) : (s.modPwr f).fn x = s.fn x := rfl
@[simp] theorem State.queue_modPwr (s : State) (f) (x) : (s.modPwr f).queue x = s.queue x := rfl
@[simp] theorem State.island_modPwr (s : State) (f) (x) : (s.modPwr f).island x = s.island x := rfl
@[simp] theorem State.camOf_modPwr (s : State) (f) (x) : (s.modPwr f).camOf x = s.camOf x := rfl
@[simp] theorem State.ingOf_modPwr (s : State) (f) (x) : (s.modPwr f).ingOf x = s.ingOf x := rfl
@[simp] theorem State.wglOf_modPwr (s : State) (f) (x) : (s.modPwr f).wglOf x = s.wglOf x := rfl
@[simp] theorem State.sections_modPwr (s : State) (f) (x y) : (s.modPwr f).sections x y = s.sections x y := rfl
@[simp] theorem State.global_modPwr (s : State) (f) (x) : (s.modPwr f).global x = s.global x := rfl
@[simp] theorem State.linkState_modPwr (s : State) (f) (x) : (s.modPwr f).linkState x = s.linkState x := rfl

/-! ### modFuses -/

@[simp] theorem State.modFuses_pending (s : State) (f) : (s.modFuses f).pending = s.pending := rfl
@[simp] theorem State.modFuses_free (s : State) (f) : (s.modFuses f).free = s.free := rfl
@[simp] theorem State.modFuses_counter (s : State) (f) : (s.modFuses f).counter = s.counter := rfl
@[simp] theorem State.modFuses_regs (s : State) (f) : (s.modFuses f).regs = s.regs := rfl
@[simp] theorem State.modFuses_cells (s : State) (f) : (s.modFuses f).cells = s.cells := rfl
@[simp] theorem State.modFuses_hbm (s : State) (f) : (s.modFuses f).hbm = s.hbm := rfl
@[simp] theorem State.modFuses_hbmErr (s : State) (f) : (s.modFuses f).hbmErr = s.hbmErr := rfl
@[simp] theorem State.modFuses_pkts (s : State) (f) : (s.modFuses f).pkts = s.pkts := rfl
@[simp] theorem State.modFuses_img (s : State) (f) : (s.modFuses f).img = s.img := rfl
@[simp] theorem State.modFuses_gov (s : State) (f) : (s.modFuses f).gov = s.gov := rfl
@[simp] theorem State.modFuses_time (s : State) (f) : (s.modFuses f).time = s.time := rfl
@[simp] theorem State.modFuses_ing (s : State) (f) : (s.modFuses f).ing = s.ing := rfl
@[simp] theorem State.modFuses_cam (s : State) (f) : (s.modFuses f).cam = s.cam := rfl
@[simp] theorem State.modFuses_wgl (s : State) (f) : (s.modFuses f).wgl = s.wgl := rfl
@[simp] theorem State.modFuses_disp (s : State) (f) : (s.modFuses f).disp = s.disp := rfl
@[simp] theorem State.modFuses_sealer (s : State) (f) : (s.modFuses f).sealer = s.sealer := rfl
@[simp] theorem State.modFuses_hrd (s : State) (f) : (s.modFuses f).hrd = s.hrd := rfl
@[simp] theorem State.modFuses_safe (s : State) (f) : (s.modFuses f).safe = s.safe := rfl
@[simp] theorem State.modFuses_host (s : State) (f) : (s.modFuses f).host = s.host := rfl
@[simp] theorem State.modFuses_stackScrub (s : State) (f) : (s.modFuses f).stackScrub = s.stackScrub := rfl
@[simp] theorem State.reg_modFuses (s : State) (f) (o) : (s.modFuses f).reg o = s.reg o := rfl
@[simp] theorem State.rd_modFuses (s : State) (f) (g) : (s.modFuses f).rd g = s.rd g := rfl
@[simp] theorem State.now_modFuses (s : State) (f) : (s.modFuses f).now = s.now := rfl
@[simp] theorem State.phys_modFuses (s : State) (f) (c) : (s.modFuses f).phys c = s.phys c := rfl
@[simp] theorem State.isBound_modFuses (s : State) (f) (c) : (s.modFuses f).isBound c = s.isBound c := rfl
@[simp] theorem State.failedRowOf_modFuses (s : State) (f) (c j) : (s.modFuses f).failedRowOf c j = s.failedRowOf c j := rfl
@[simp] theorem State.configured_modFuses (s : State) (f) (c) : (s.modFuses f).configured c = s.configured c := rfl
@[simp] theorem State.cell_modFuses (s : State) (f) (c) : (s.modFuses f).cell c = s.cell c := rfl
@[simp] theorem State.swarm_modFuses (s : State) (f) (c j) : (s.modFuses f).swarm c j = s.swarm c j := rfl
@[simp] theorem State.hbmByte_modFuses (s : State) (f) (x) : (s.modFuses f).hbmByte x = s.hbmByte x := rfl
@[simp] theorem State.hostByte_modFuses (s : State) (f) (x) : (s.modFuses f).hostByte x = s.hostByte x := rfl
@[simp] theorem State.lmByte_modFuses (s : State) (f) (x y) : (s.modFuses f).lmByte x y = s.lmByte x y := rfl
@[simp] theorem State.stackUp_modFuses (s : State) (f) (x) : (s.modFuses f).stackUp x = s.stackUp x := rfl
@[simp] theorem State.dsp_modFuses (s : State) (f) (x) : (s.modFuses f).dsp x = s.dsp x := rfl
@[simp] theorem State.ctx_modFuses (s : State) (f) (x y) : (s.modFuses f).ctx x y = s.ctx x y := rfl
@[simp] theorem State.fn_modFuses (s : State) (f) (x) : (s.modFuses f).fn x = s.fn x := rfl
@[simp] theorem State.queue_modFuses (s : State) (f) (x) : (s.modFuses f).queue x = s.queue x := rfl
@[simp] theorem State.island_modFuses (s : State) (f) (x) : (s.modFuses f).island x = s.island x := rfl
@[simp] theorem State.camOf_modFuses (s : State) (f) (x) : (s.modFuses f).camOf x = s.camOf x := rfl
@[simp] theorem State.ingOf_modFuses (s : State) (f) (x) : (s.modFuses f).ingOf x = s.ingOf x := rfl
@[simp] theorem State.wglOf_modFuses (s : State) (f) (x) : (s.modFuses f).wglOf x = s.wglOf x := rfl
@[simp] theorem State.sections_modFuses (s : State) (f) (x y) : (s.modFuses f).sections x y = s.sections x y := rfl
@[simp] theorem State.global_modFuses (s : State) (f) (x) : (s.modFuses f).global x = s.global x := rfl
@[simp] theorem State.linkState_modFuses (s : State) (f) (x) : (s.modFuses f).linkState x = s.linkState x := rfl

/-! ### send -/

@[simp] theorem State.send_pending (s : State) (p) : (s.send p).pending = s.pending := rfl
@[simp] theorem State.send_free (s : State) (p) : (s.send p).free = s.free := rfl
@[simp] theorem State.send_counter (s : State) (p) : (s.send p).counter = s.counter := rfl
@[simp] theorem State.send_regs (s : State) (p) : (s.send p).regs = s.regs := rfl
@[simp] theorem State.send_cells (s : State) (p) : (s.send p).cells = s.cells := rfl
@[simp] theorem State.send_hbm (s : State) (p) : (s.send p).hbm = s.hbm := rfl
@[simp] theorem State.send_hbmErr (s : State) (p) : (s.send p).hbmErr = s.hbmErr := rfl
@[simp] theorem State.send_pwr (s : State) (p) : (s.send p).pwr = s.pwr := rfl
@[simp] theorem State.send_img (s : State) (p) : (s.send p).img = s.img := rfl
@[simp] theorem State.send_gov (s : State) (p) : (s.send p).gov = s.gov := rfl
@[simp] theorem State.send_time (s : State) (p) : (s.send p).time = s.time := rfl
@[simp] theorem State.send_ing (s : State) (p) : (s.send p).ing = s.ing := rfl
@[simp] theorem State.send_cam (s : State) (p) : (s.send p).cam = s.cam := rfl
@[simp] theorem State.send_wgl (s : State) (p) : (s.send p).wgl = s.wgl := rfl
@[simp] theorem State.send_disp (s : State) (p) : (s.send p).disp = s.disp := rfl
@[simp] theorem State.send_sealer (s : State) (p) : (s.send p).sealer = s.sealer := rfl
@[simp] theorem State.send_hrd (s : State) (p) : (s.send p).hrd = s.hrd := rfl
@[simp] theorem State.send_safe (s : State) (p) : (s.send p).safe = s.safe := rfl
@[simp] theorem State.send_host (s : State) (p) : (s.send p).host = s.host := rfl
@[simp] theorem State.send_stackScrub (s : State) (p) : (s.send p).stackScrub = s.stackScrub := rfl
@[simp] theorem State.reg_send (s : State) (p) (o) : (s.send p).reg o = s.reg o := rfl
@[simp] theorem State.rd_send (s : State) (p) (g) : (s.send p).rd g = s.rd g := rfl
@[simp] theorem State.now_send (s : State) (p) : (s.send p).now = s.now := rfl
@[simp] theorem State.phys_send (s : State) (p) (c) : (s.send p).phys c = s.phys c := rfl
@[simp] theorem State.isBound_send (s : State) (p) (c) : (s.send p).isBound c = s.isBound c := rfl
@[simp] theorem State.failedRowOf_send (s : State) (p) (c j) : (s.send p).failedRowOf c j = s.failedRowOf c j := rfl
@[simp] theorem State.configured_send (s : State) (p) (c) : (s.send p).configured c = s.configured c := rfl
@[simp] theorem State.cell_send (s : State) (p) (c) : (s.send p).cell c = s.cell c := rfl
@[simp] theorem State.swarm_send (s : State) (p) (c j) : (s.send p).swarm c j = s.swarm c j := rfl
@[simp] theorem State.cellInReset_send (s : State) (p) (c) : (s.send p).cellInReset c = s.cellInReset c := rfl
@[simp] theorem State.hbmByte_send (s : State) (p) (x) : (s.send p).hbmByte x = s.hbmByte x := rfl
@[simp] theorem State.hostByte_send (s : State) (p) (x) : (s.send p).hostByte x = s.hostByte x := rfl
@[simp] theorem State.lmByte_send (s : State) (p) (x y) : (s.send p).lmByte x y = s.lmByte x y := rfl
@[simp] theorem State.stackUp_send (s : State) (p) (x) : (s.send p).stackUp x = s.stackUp x := rfl
@[simp] theorem State.dsp_send (s : State) (p) (x) : (s.send p).dsp x = s.dsp x := rfl
@[simp] theorem State.ctx_send (s : State) (p) (x y) : (s.send p).ctx x y = s.ctx x y := rfl
@[simp] theorem State.fn_send (s : State) (p) (x) : (s.send p).fn x = s.fn x := rfl
@[simp] theorem State.queue_send (s : State) (p) (x) : (s.send p).queue x = s.queue x := rfl
@[simp] theorem State.island_send (s : State) (p) (x) : (s.send p).island x = s.island x := rfl
@[simp] theorem State.camOf_send (s : State) (p) (x) : (s.send p).camOf x = s.camOf x := rfl
@[simp] theorem State.ingOf_send (s : State) (p) (x) : (s.send p).ingOf x = s.ingOf x := rfl
@[simp] theorem State.wglOf_send (s : State) (p) (x) : (s.send p).wglOf x = s.wglOf x := rfl
@[simp] theorem State.sections_send (s : State) (p) (x y) : (s.send p).sections x y = s.sections x y := rfl
@[simp] theorem State.global_send (s : State) (p) (x) : (s.send p).global x = s.global x := rfl
@[simp] theorem State.linkState_send (s : State) (p) (x) : (s.send p).linkState x = s.linkState x := rfl

/-! ### dropPkt -/

@[simp] theorem State.dropPkt_pending (s : State) (i) : (s.dropPkt i).pending = s.pending := rfl
@[simp] theorem State.dropPkt_free (s : State) (i) : (s.dropPkt i).free = s.free := rfl
@[simp] theorem State.dropPkt_counter (s : State) (i) : (s.dropPkt i).counter = s.counter := rfl
@[simp] theorem State.dropPkt_regs (s : State) (i) : (s.dropPkt i).regs = s.regs := rfl
@[simp] theorem State.dropPkt_cells (s : State) (i) : (s.dropPkt i).cells = s.cells := rfl
@[simp] theorem State.dropPkt_hbm (s : State) (i) : (s.dropPkt i).hbm = s.hbm := rfl
@[simp] theorem State.dropPkt_hbmErr (s : State) (i) : (s.dropPkt i).hbmErr = s.hbmErr := rfl
@[simp] theorem State.dropPkt_pwr (s : State) (i) : (s.dropPkt i).pwr = s.pwr := rfl
@[simp] theorem State.dropPkt_img (s : State) (i) : (s.dropPkt i).img = s.img := rfl
@[simp] theorem State.dropPkt_gov (s : State) (i) : (s.dropPkt i).gov = s.gov := rfl
@[simp] theorem State.dropPkt_time (s : State) (i) : (s.dropPkt i).time = s.time := rfl
@[simp] theorem State.dropPkt_ing (s : State) (i) : (s.dropPkt i).ing = s.ing := rfl
@[simp] theorem State.dropPkt_cam (s : State) (i) : (s.dropPkt i).cam = s.cam := rfl
@[simp] theorem State.dropPkt_wgl (s : State) (i) : (s.dropPkt i).wgl = s.wgl := rfl
@[simp] theorem State.dropPkt_disp (s : State) (i) : (s.dropPkt i).disp = s.disp := rfl
@[simp] theorem State.dropPkt_sealer (s : State) (i) : (s.dropPkt i).sealer = s.sealer := rfl
@[simp] theorem State.dropPkt_hrd (s : State) (i) : (s.dropPkt i).hrd = s.hrd := rfl
@[simp] theorem State.dropPkt_safe (s : State) (i) : (s.dropPkt i).safe = s.safe := rfl
@[simp] theorem State.dropPkt_host (s : State) (i) : (s.dropPkt i).host = s.host := rfl
@[simp] theorem State.dropPkt_stackScrub (s : State) (i) : (s.dropPkt i).stackScrub = s.stackScrub := rfl
@[simp] theorem State.reg_dropPkt (s : State) (i) (o) : (s.dropPkt i).reg o = s.reg o := rfl
@[simp] theorem State.rd_dropPkt (s : State) (i) (g) : (s.dropPkt i).rd g = s.rd g := rfl
@[simp] theorem State.now_dropPkt (s : State) (i) : (s.dropPkt i).now = s.now := rfl
@[simp] theorem State.phys_dropPkt (s : State) (i) (c) : (s.dropPkt i).phys c = s.phys c := rfl
@[simp] theorem State.isBound_dropPkt (s : State) (i) (c) : (s.dropPkt i).isBound c = s.isBound c := rfl
@[simp] theorem State.failedRowOf_dropPkt (s : State) (i) (c j) : (s.dropPkt i).failedRowOf c j = s.failedRowOf c j := rfl
@[simp] theorem State.configured_dropPkt (s : State) (i) (c) : (s.dropPkt i).configured c = s.configured c := rfl
@[simp] theorem State.cell_dropPkt (s : State) (i) (c) : (s.dropPkt i).cell c = s.cell c := rfl
@[simp] theorem State.swarm_dropPkt (s : State) (i) (c j) : (s.dropPkt i).swarm c j = s.swarm c j := rfl
@[simp] theorem State.cellInReset_dropPkt (s : State) (i) (c) : (s.dropPkt i).cellInReset c = s.cellInReset c := rfl
@[simp] theorem State.hbmByte_dropPkt (s : State) (i) (x) : (s.dropPkt i).hbmByte x = s.hbmByte x := rfl
@[simp] theorem State.hostByte_dropPkt (s : State) (i) (x) : (s.dropPkt i).hostByte x = s.hostByte x := rfl
@[simp] theorem State.lmByte_dropPkt (s : State) (i) (x y) : (s.dropPkt i).lmByte x y = s.lmByte x y := rfl
@[simp] theorem State.stackUp_dropPkt (s : State) (i) (x) : (s.dropPkt i).stackUp x = s.stackUp x := rfl
@[simp] theorem State.dsp_dropPkt (s : State) (i) (x) : (s.dropPkt i).dsp x = s.dsp x := rfl
@[simp] theorem State.ctx_dropPkt (s : State) (i) (x y) : (s.dropPkt i).ctx x y = s.ctx x y := rfl
@[simp] theorem State.fn_dropPkt (s : State) (i) (x) : (s.dropPkt i).fn x = s.fn x := rfl
@[simp] theorem State.queue_dropPkt (s : State) (i) (x) : (s.dropPkt i).queue x = s.queue x := rfl
@[simp] theorem State.island_dropPkt (s : State) (i) (x) : (s.dropPkt i).island x = s.island x := rfl
@[simp] theorem State.camOf_dropPkt (s : State) (i) (x) : (s.dropPkt i).camOf x = s.camOf x := rfl
@[simp] theorem State.ingOf_dropPkt (s : State) (i) (x) : (s.dropPkt i).ingOf x = s.ingOf x := rfl
@[simp] theorem State.wglOf_dropPkt (s : State) (i) (x) : (s.dropPkt i).wglOf x = s.wglOf x := rfl
@[simp] theorem State.sections_dropPkt (s : State) (i) (x y) : (s.dropPkt i).sections x y = s.sections x y := rfl
@[simp] theorem State.global_dropPkt (s : State) (i) (x) : (s.dropPkt i).global x = s.global x := rfl
@[simp] theorem State.linkState_dropPkt (s : State) (i) (x) : (s.dropPkt i).linkState x = s.linkState x := rfl

/-! ### modCam -/

@[simp] theorem State.modCam_pending (s : State) (ch f) : (s.modCam ch f).pending = s.pending := rfl
@[simp] theorem State.modCam_free (s : State) (ch f) : (s.modCam ch f).free = s.free := rfl
@[simp] theorem State.modCam_counter (s : State) (ch f) : (s.modCam ch f).counter = s.counter := rfl
@[simp] theorem State.modCam_regs (s : State) (ch f) : (s.modCam ch f).regs = s.regs := rfl
@[simp] theorem State.modCam_cells (s : State) (ch f) : (s.modCam ch f).cells = s.cells := rfl
@[simp] theorem State.modCam_hbm (s : State) (ch f) : (s.modCam ch f).hbm = s.hbm := rfl
@[simp] theorem State.modCam_hbmErr (s : State) (ch f) : (s.modCam ch f).hbmErr = s.hbmErr := rfl
@[simp] theorem State.modCam_pkts (s : State) (ch f) : (s.modCam ch f).pkts = s.pkts := rfl
@[simp] theorem State.modCam_pwr (s : State) (ch f) : (s.modCam ch f).pwr = s.pwr := rfl
@[simp] theorem State.modCam_img (s : State) (ch f) : (s.modCam ch f).img = s.img := rfl
@[simp] theorem State.modCam_gov (s : State) (ch f) : (s.modCam ch f).gov = s.gov := rfl
@[simp] theorem State.modCam_time (s : State) (ch f) : (s.modCam ch f).time = s.time := rfl
@[simp] theorem State.modCam_ing (s : State) (ch f) : (s.modCam ch f).ing = s.ing := rfl
@[simp] theorem State.modCam_wgl (s : State) (ch f) : (s.modCam ch f).wgl = s.wgl := rfl
@[simp] theorem State.modCam_disp (s : State) (ch f) : (s.modCam ch f).disp = s.disp := rfl
@[simp] theorem State.modCam_sealer (s : State) (ch f) : (s.modCam ch f).sealer = s.sealer := rfl
@[simp] theorem State.modCam_hrd (s : State) (ch f) : (s.modCam ch f).hrd = s.hrd := rfl
@[simp] theorem State.modCam_safe (s : State) (ch f) : (s.modCam ch f).safe = s.safe := rfl
@[simp] theorem State.modCam_host (s : State) (ch f) : (s.modCam ch f).host = s.host := rfl
@[simp] theorem State.modCam_stackScrub (s : State) (ch f) : (s.modCam ch f).stackScrub = s.stackScrub := rfl
@[simp] theorem State.reg_modCam (s : State) (ch f) (o) : (s.modCam ch f).reg o = s.reg o := rfl
@[simp] theorem State.rd_modCam (s : State) (ch f) (g) : (s.modCam ch f).rd g = s.rd g := rfl
@[simp] theorem State.now_modCam (s : State) (ch f) : (s.modCam ch f).now = s.now := rfl
@[simp] theorem State.phys_modCam (s : State) (ch f) (c) : (s.modCam ch f).phys c = s.phys c := rfl
@[simp] theorem State.isBound_modCam (s : State) (ch f) (c) : (s.modCam ch f).isBound c = s.isBound c := rfl
@[simp] theorem State.failedRowOf_modCam (s : State) (ch f) (c j) : (s.modCam ch f).failedRowOf c j = s.failedRowOf c j := rfl
@[simp] theorem State.configured_modCam (s : State) (ch f) (c) : (s.modCam ch f).configured c = s.configured c := rfl
@[simp] theorem State.cell_modCam (s : State) (ch f) (c) : (s.modCam ch f).cell c = s.cell c := rfl
@[simp] theorem State.swarm_modCam (s : State) (ch f) (c j) : (s.modCam ch f).swarm c j = s.swarm c j := rfl
@[simp] theorem State.cellInReset_modCam (s : State) (ch f) (c) : (s.modCam ch f).cellInReset c = s.cellInReset c := rfl
@[simp] theorem State.hbmByte_modCam (s : State) (ch f) (x) : (s.modCam ch f).hbmByte x = s.hbmByte x := rfl
@[simp] theorem State.hostByte_modCam (s : State) (ch f) (x) : (s.modCam ch f).hostByte x = s.hostByte x := rfl
@[simp] theorem State.lmByte_modCam (s : State) (ch f) (x y) : (s.modCam ch f).lmByte x y = s.lmByte x y := rfl
@[simp] theorem State.stackUp_modCam (s : State) (ch f) (x) : (s.modCam ch f).stackUp x = s.stackUp x := rfl
@[simp] theorem State.dsp_modCam (s : State) (ch f) (x) : (s.modCam ch f).dsp x = s.dsp x := rfl
@[simp] theorem State.ctx_modCam (s : State) (ch f) (x y) : (s.modCam ch f).ctx x y = s.ctx x y := rfl
@[simp] theorem State.fn_modCam (s : State) (ch f) (x) : (s.modCam ch f).fn x = s.fn x := rfl
@[simp] theorem State.queue_modCam (s : State) (ch f) (x) : (s.modCam ch f).queue x = s.queue x := rfl
@[simp] theorem State.island_modCam (s : State) (ch f) (x) : (s.modCam ch f).island x = s.island x := rfl
@[simp] theorem State.ingOf_modCam (s : State) (ch f) (x) : (s.modCam ch f).ingOf x = s.ingOf x := rfl
@[simp] theorem State.wglOf_modCam (s : State) (ch f) (x) : (s.modCam ch f).wglOf x = s.wglOf x := rfl
@[simp] theorem State.sections_modCam (s : State) (ch f) (x y) : (s.modCam ch f).sections x y = s.sections x y := rfl
@[simp] theorem State.global_modCam (s : State) (ch f) (x) : (s.modCam ch f).global x = s.global x := rfl
@[simp] theorem State.linkState_modCam (s : State) (ch f) (x) : (s.modCam ch f).linkState x = s.linkState x := rfl

/-! ### modIng -/

@[simp] theorem State.modIng_pending (s : State) (ch f) : (s.modIng ch f).pending = s.pending := rfl
@[simp] theorem State.modIng_free (s : State) (ch f) : (s.modIng ch f).free = s.free := rfl
@[simp] theorem State.modIng_counter (s : State) (ch f) : (s.modIng ch f).counter = s.counter := rfl
@[simp] theorem State.modIng_regs (s : State) (ch f) : (s.modIng ch f).regs = s.regs := rfl
@[simp] theorem State.modIng_cells (s : State) (ch f) : (s.modIng ch f).cells = s.cells := rfl
@[simp] theorem State.modIng_hbm (s : State) (ch f) : (s.modIng ch f).hbm = s.hbm := rfl
@[simp] theorem State.modIng_hbmErr (s : State) (ch f) : (s.modIng ch f).hbmErr = s.hbmErr := rfl
@[simp] theorem State.modIng_pkts (s : State) (ch f) : (s.modIng ch f).pkts = s.pkts := rfl
@[simp] theorem State.modIng_pwr (s : State) (ch f) : (s.modIng ch f).pwr = s.pwr := rfl
@[simp] theorem State.modIng_img (s : State) (ch f) : (s.modIng ch f).img = s.img := rfl
@[simp] theorem State.modIng_gov (s : State) (ch f) : (s.modIng ch f).gov = s.gov := rfl
@[simp] theorem State.modIng_time (s : State) (ch f) : (s.modIng ch f).time = s.time := rfl
@[simp] theorem State.modIng_cam (s : State) (ch f) : (s.modIng ch f).cam = s.cam := rfl
@[simp] theorem State.modIng_wgl (s : State) (ch f) : (s.modIng ch f).wgl = s.wgl := rfl
@[simp] theorem State.modIng_disp (s : State) (ch f) : (s.modIng ch f).disp = s.disp := rfl
@[simp] theorem State.modIng_sealer (s : State) (ch f) : (s.modIng ch f).sealer = s.sealer := rfl
@[simp] theorem State.modIng_hrd (s : State) (ch f) : (s.modIng ch f).hrd = s.hrd := rfl
@[simp] theorem State.modIng_safe (s : State) (ch f) : (s.modIng ch f).safe = s.safe := rfl
@[simp] theorem State.modIng_host (s : State) (ch f) : (s.modIng ch f).host = s.host := rfl
@[simp] theorem State.modIng_stackScrub (s : State) (ch f) : (s.modIng ch f).stackScrub = s.stackScrub := rfl
@[simp] theorem State.reg_modIng (s : State) (ch f) (o) : (s.modIng ch f).reg o = s.reg o := rfl
@[simp] theorem State.rd_modIng (s : State) (ch f) (g) : (s.modIng ch f).rd g = s.rd g := rfl
@[simp] theorem State.now_modIng (s : State) (ch f) : (s.modIng ch f).now = s.now := rfl
@[simp] theorem State.phys_modIng (s : State) (ch f) (c) : (s.modIng ch f).phys c = s.phys c := rfl
@[simp] theorem State.isBound_modIng (s : State) (ch f) (c) : (s.modIng ch f).isBound c = s.isBound c := rfl
@[simp] theorem State.failedRowOf_modIng (s : State) (ch f) (c j) : (s.modIng ch f).failedRowOf c j = s.failedRowOf c j := rfl
@[simp] theorem State.configured_modIng (s : State) (ch f) (c) : (s.modIng ch f).configured c = s.configured c := rfl
@[simp] theorem State.cell_modIng (s : State) (ch f) (c) : (s.modIng ch f).cell c = s.cell c := rfl
@[simp] theorem State.swarm_modIng (s : State) (ch f) (c j) : (s.modIng ch f).swarm c j = s.swarm c j := rfl
@[simp] theorem State.cellInReset_modIng (s : State) (ch f) (c) : (s.modIng ch f).cellInReset c = s.cellInReset c := rfl
@[simp] theorem State.hbmByte_modIng (s : State) (ch f) (x) : (s.modIng ch f).hbmByte x = s.hbmByte x := rfl
@[simp] theorem State.hostByte_modIng (s : State) (ch f) (x) : (s.modIng ch f).hostByte x = s.hostByte x := rfl
@[simp] theorem State.lmByte_modIng (s : State) (ch f) (x y) : (s.modIng ch f).lmByte x y = s.lmByte x y := rfl
@[simp] theorem State.stackUp_modIng (s : State) (ch f) (x) : (s.modIng ch f).stackUp x = s.stackUp x := rfl
@[simp] theorem State.dsp_modIng (s : State) (ch f) (x) : (s.modIng ch f).dsp x = s.dsp x := rfl
@[simp] theorem State.ctx_modIng (s : State) (ch f) (x y) : (s.modIng ch f).ctx x y = s.ctx x y := rfl
@[simp] theorem State.fn_modIng (s : State) (ch f) (x) : (s.modIng ch f).fn x = s.fn x := rfl
@[simp] theorem State.queue_modIng (s : State) (ch f) (x) : (s.modIng ch f).queue x = s.queue x := rfl
@[simp] theorem State.island_modIng (s : State) (ch f) (x) : (s.modIng ch f).island x = s.island x := rfl
@[simp] theorem State.camOf_modIng (s : State) (ch f) (x) : (s.modIng ch f).camOf x = s.camOf x := rfl
@[simp] theorem State.wglOf_modIng (s : State) (ch f) (x) : (s.modIng ch f).wglOf x = s.wglOf x := rfl
@[simp] theorem State.sections_modIng (s : State) (ch f) (x y) : (s.modIng ch f).sections x y = s.sections x y := rfl
@[simp] theorem State.global_modIng (s : State) (ch f) (x) : (s.modIng ch f).global x = s.global x := rfl
@[simp] theorem State.linkState_modIng (s : State) (ch f) (x) : (s.modIng ch f).linkState x = s.linkState x := rfl

/-! ### modFrame -/

@[simp] theorem State.modFrame_pending (s : State) (ch e f) : (s.modFrame ch e f).pending = s.pending := rfl
@[simp] theorem State.modFrame_free (s : State) (ch e f) : (s.modFrame ch e f).free = s.free := rfl
@[simp] theorem State.modFrame_counter (s : State) (ch e f) : (s.modFrame ch e f).counter = s.counter := rfl
@[simp] theorem State.modFrame_regs (s : State) (ch e f) : (s.modFrame ch e f).regs = s.regs := rfl
@[simp] theorem State.modFrame_cells (s : State) (ch e f) : (s.modFrame ch e f).cells = s.cells := rfl
@[simp] theorem State.modFrame_hbm (s : State) (ch e f) : (s.modFrame ch e f).hbm = s.hbm := rfl
@[simp] theorem State.modFrame_hbmErr (s : State) (ch e f) : (s.modFrame ch e f).hbmErr = s.hbmErr := rfl
@[simp] theorem State.modFrame_pkts (s : State) (ch e f) : (s.modFrame ch e f).pkts = s.pkts := rfl
@[simp] theorem State.modFrame_pwr (s : State) (ch e f) : (s.modFrame ch e f).pwr = s.pwr := rfl
@[simp] theorem State.modFrame_img (s : State) (ch e f) : (s.modFrame ch e f).img = s.img := rfl
@[simp] theorem State.modFrame_gov (s : State) (ch e f) : (s.modFrame ch e f).gov = s.gov := rfl
@[simp] theorem State.modFrame_time (s : State) (ch e f) : (s.modFrame ch e f).time = s.time := rfl
@[simp] theorem State.modFrame_cam (s : State) (ch e f) : (s.modFrame ch e f).cam = s.cam := rfl
@[simp] theorem State.modFrame_wgl (s : State) (ch e f) : (s.modFrame ch e f).wgl = s.wgl := rfl
@[simp] theorem State.modFrame_disp (s : State) (ch e f) : (s.modFrame ch e f).disp = s.disp := rfl
@[simp] theorem State.modFrame_sealer (s : State) (ch e f) : (s.modFrame ch e f).sealer = s.sealer := rfl
@[simp] theorem State.modFrame_hrd (s : State) (ch e f) : (s.modFrame ch e f).hrd = s.hrd := rfl
@[simp] theorem State.modFrame_safe (s : State) (ch e f) : (s.modFrame ch e f).safe = s.safe := rfl
@[simp] theorem State.modFrame_host (s : State) (ch e f) : (s.modFrame ch e f).host = s.host := rfl
@[simp] theorem State.modFrame_stackScrub (s : State) (ch e f) : (s.modFrame ch e f).stackScrub = s.stackScrub := rfl
@[simp] theorem State.reg_modFrame (s : State) (ch e f) (o) : (s.modFrame ch e f).reg o = s.reg o := rfl
@[simp] theorem State.rd_modFrame (s : State) (ch e f) (g) : (s.modFrame ch e f).rd g = s.rd g := rfl
@[simp] theorem State.now_modFrame (s : State) (ch e f) : (s.modFrame ch e f).now = s.now := rfl
@[simp] theorem State.phys_modFrame (s : State) (ch e f) (c) : (s.modFrame ch e f).phys c = s.phys c := rfl
@[simp] theorem State.isBound_modFrame (s : State) (ch e f) (c) : (s.modFrame ch e f).isBound c = s.isBound c := rfl
@[simp] theorem State.failedRowOf_modFrame (s : State) (ch e f) (c j) : (s.modFrame ch e f).failedRowOf c j = s.failedRowOf c j := rfl
@[simp] theorem State.configured_modFrame (s : State) (ch e f) (c) : (s.modFrame ch e f).configured c = s.configured c := rfl
@[simp] theorem State.cell_modFrame (s : State) (ch e f) (c) : (s.modFrame ch e f).cell c = s.cell c := rfl
@[simp] theorem State.swarm_modFrame (s : State) (ch e f) (c j) : (s.modFrame ch e f).swarm c j = s.swarm c j := rfl
@[simp] theorem State.cellInReset_modFrame (s : State) (ch e f) (c) : (s.modFrame ch e f).cellInReset c = s.cellInReset c := rfl
@[simp] theorem State.hbmByte_modFrame (s : State) (ch e f) (x) : (s.modFrame ch e f).hbmByte x = s.hbmByte x := rfl
@[simp] theorem State.hostByte_modFrame (s : State) (ch e f) (x) : (s.modFrame ch e f).hostByte x = s.hostByte x := rfl
@[simp] theorem State.lmByte_modFrame (s : State) (ch e f) (x y) : (s.modFrame ch e f).lmByte x y = s.lmByte x y := rfl
@[simp] theorem State.stackUp_modFrame (s : State) (ch e f) (x) : (s.modFrame ch e f).stackUp x = s.stackUp x := rfl
@[simp] theorem State.dsp_modFrame (s : State) (ch e f) (x) : (s.modFrame ch e f).dsp x = s.dsp x := rfl
@[simp] theorem State.ctx_modFrame (s : State) (ch e f) (x y) : (s.modFrame ch e f).ctx x y = s.ctx x y := rfl
@[simp] theorem State.fn_modFrame (s : State) (ch e f) (x) : (s.modFrame ch e f).fn x = s.fn x := rfl
@[simp] theorem State.queue_modFrame (s : State) (ch e f) (x) : (s.modFrame ch e f).queue x = s.queue x := rfl
@[simp] theorem State.island_modFrame (s : State) (ch e f) (x) : (s.modFrame ch e f).island x = s.island x := rfl
@[simp] theorem State.camOf_modFrame (s : State) (ch e f) (x) : (s.modFrame ch e f).camOf x = s.camOf x := rfl
@[simp] theorem State.wglOf_modFrame (s : State) (ch e f) (x) : (s.modFrame ch e f).wglOf x = s.wglOf x := rfl
@[simp] theorem State.sections_modFrame (s : State) (ch e f) (x y) : (s.modFrame ch e f).sections x y = s.sections x y := rfl
@[simp] theorem State.global_modFrame (s : State) (ch e f) (x) : (s.modFrame ch e f).global x = s.global x := rfl
@[simp] theorem State.linkState_modFrame (s : State) (ch e f) (x) : (s.modFrame ch e f).linkState x = s.linkState x := rfl

/-! ### modIsle -/

@[simp] theorem State.modIsle_pending (s : State) (i f) : (s.modIsle i f).pending = s.pending := rfl
@[simp] theorem State.modIsle_free (s : State) (i f) : (s.modIsle i f).free = s.free := rfl
@[simp] theorem State.modIsle_counter (s : State) (i f) : (s.modIsle i f).counter = s.counter := rfl
@[simp] theorem State.modIsle_regs (s : State) (i f) : (s.modIsle i f).regs = s.regs := rfl
@[simp] theorem State.modIsle_cells (s : State) (i f) : (s.modIsle i f).cells = s.cells := rfl
@[simp] theorem State.modIsle_hbm (s : State) (i f) : (s.modIsle i f).hbm = s.hbm := rfl
@[simp] theorem State.modIsle_hbmErr (s : State) (i f) : (s.modIsle i f).hbmErr = s.hbmErr := rfl
@[simp] theorem State.modIsle_pkts (s : State) (i f) : (s.modIsle i f).pkts = s.pkts := rfl
@[simp] theorem State.modIsle_pwr (s : State) (i f) : (s.modIsle i f).pwr = s.pwr := rfl
@[simp] theorem State.modIsle_img (s : State) (i f) : (s.modIsle i f).img = s.img := rfl
@[simp] theorem State.modIsle_time (s : State) (i f) : (s.modIsle i f).time = s.time := rfl
@[simp] theorem State.modIsle_ing (s : State) (i f) : (s.modIsle i f).ing = s.ing := rfl
@[simp] theorem State.modIsle_cam (s : State) (i f) : (s.modIsle i f).cam = s.cam := rfl
@[simp] theorem State.modIsle_wgl (s : State) (i f) : (s.modIsle i f).wgl = s.wgl := rfl
@[simp] theorem State.modIsle_disp (s : State) (i f) : (s.modIsle i f).disp = s.disp := rfl
@[simp] theorem State.modIsle_sealer (s : State) (i f) : (s.modIsle i f).sealer = s.sealer := rfl
@[simp] theorem State.modIsle_hrd (s : State) (i f) : (s.modIsle i f).hrd = s.hrd := rfl
@[simp] theorem State.modIsle_safe (s : State) (i f) : (s.modIsle i f).safe = s.safe := rfl
@[simp] theorem State.modIsle_host (s : State) (i f) : (s.modIsle i f).host = s.host := rfl
@[simp] theorem State.modIsle_stackScrub (s : State) (i f) : (s.modIsle i f).stackScrub = s.stackScrub := rfl
@[simp] theorem State.reg_modIsle (s : State) (i f) (o) : (s.modIsle i f).reg o = s.reg o := rfl
@[simp] theorem State.rd_modIsle (s : State) (i f) (g) : (s.modIsle i f).rd g = s.rd g := rfl
@[simp] theorem State.now_modIsle (s : State) (i f) : (s.modIsle i f).now = s.now := rfl
@[simp] theorem State.phys_modIsle (s : State) (i f) (c) : (s.modIsle i f).phys c = s.phys c := rfl
@[simp] theorem State.isBound_modIsle (s : State) (i f) (c) : (s.modIsle i f).isBound c = s.isBound c := rfl
@[simp] theorem State.failedRowOf_modIsle (s : State) (i f) (c j) : (s.modIsle i f).failedRowOf c j = s.failedRowOf c j := rfl
@[simp] theorem State.configured_modIsle (s : State) (i f) (c) : (s.modIsle i f).configured c = s.configured c := rfl
@[simp] theorem State.cell_modIsle (s : State) (i f) (c) : (s.modIsle i f).cell c = s.cell c := rfl
@[simp] theorem State.swarm_modIsle (s : State) (i f) (c j) : (s.modIsle i f).swarm c j = s.swarm c j := rfl
@[simp] theorem State.cellInReset_modIsle (s : State) (i f) (c) : (s.modIsle i f).cellInReset c = s.cellInReset c := rfl
@[simp] theorem State.hbmByte_modIsle (s : State) (i f) (x) : (s.modIsle i f).hbmByte x = s.hbmByte x := rfl
@[simp] theorem State.hostByte_modIsle (s : State) (i f) (x) : (s.modIsle i f).hostByte x = s.hostByte x := rfl
@[simp] theorem State.lmByte_modIsle (s : State) (i f) (x y) : (s.modIsle i f).lmByte x y = s.lmByte x y := rfl
@[simp] theorem State.dsp_modIsle (s : State) (i f) (x) : (s.modIsle i f).dsp x = s.dsp x := rfl
@[simp] theorem State.ctx_modIsle (s : State) (i f) (x y) : (s.modIsle i f).ctx x y = s.ctx x y := rfl
@[simp] theorem State.fn_modIsle (s : State) (i f) (x) : (s.modIsle i f).fn x = s.fn x := rfl
@[simp] theorem State.queue_modIsle (s : State) (i f) (x) : (s.modIsle i f).queue x = s.queue x := rfl
@[simp] theorem State.camOf_modIsle (s : State) (i f) (x) : (s.modIsle i f).camOf x = s.camOf x := rfl
@[simp] theorem State.ingOf_modIsle (s : State) (i f) (x) : (s.modIsle i f).ingOf x = s.ingOf x := rfl
@[simp] theorem State.wglOf_modIsle (s : State) (i f) (x) : (s.modIsle i f).wglOf x = s.wglOf x := rfl
@[simp] theorem State.sections_modIsle (s : State) (i f) (x y) : (s.modIsle i f).sections x y = s.sections x y := rfl
@[simp] theorem State.global_modIsle (s : State) (i f) (x) : (s.modIsle i f).global x = s.global x := rfl
@[simp] theorem State.linkState_modIsle (s : State) (i f) (x) : (s.modIsle i f).linkState x = s.linkState x := rfl

/-! ### modGov -/

@[simp] theorem State.modGov_pending (s : State) (f) : (s.modGov f).pending = s.pending := rfl
@[simp] theorem State.modGov_free (s : State) (f) : (s.modGov f).free = s.free := rfl
@[simp] theorem State.modGov_counter (s : State) (f) : (s.modGov f).counter = s.counter := rfl
@[simp] theorem State.modGov_regs (s : State) (f) : (s.modGov f).regs = s.regs := rfl
@[simp] theorem State.modGov_cells (s : State) (f) : (s.modGov f).cells = s.cells := rfl
@[simp] theorem State.modGov_hbm (s : State) (f) : (s.modGov f).hbm = s.hbm := rfl
@[simp] theorem State.modGov_hbmErr (s : State) (f) : (s.modGov f).hbmErr = s.hbmErr := rfl
@[simp] theorem State.modGov_pkts (s : State) (f) : (s.modGov f).pkts = s.pkts := rfl
@[simp] theorem State.modGov_pwr (s : State) (f) : (s.modGov f).pwr = s.pwr := rfl
@[simp] theorem State.modGov_img (s : State) (f) : (s.modGov f).img = s.img := rfl
@[simp] theorem State.modGov_time (s : State) (f) : (s.modGov f).time = s.time := rfl
@[simp] theorem State.modGov_ing (s : State) (f) : (s.modGov f).ing = s.ing := rfl
@[simp] theorem State.modGov_cam (s : State) (f) : (s.modGov f).cam = s.cam := rfl
@[simp] theorem State.modGov_wgl (s : State) (f) : (s.modGov f).wgl = s.wgl := rfl
@[simp] theorem State.modGov_disp (s : State) (f) : (s.modGov f).disp = s.disp := rfl
@[simp] theorem State.modGov_sealer (s : State) (f) : (s.modGov f).sealer = s.sealer := rfl
@[simp] theorem State.modGov_hrd (s : State) (f) : (s.modGov f).hrd = s.hrd := rfl
@[simp] theorem State.modGov_safe (s : State) (f) : (s.modGov f).safe = s.safe := rfl
@[simp] theorem State.modGov_host (s : State) (f) : (s.modGov f).host = s.host := rfl
@[simp] theorem State.modGov_stackScrub (s : State) (f) : (s.modGov f).stackScrub = s.stackScrub := rfl
@[simp] theorem State.reg_modGov (s : State) (f) (o) : (s.modGov f).reg o = s.reg o := rfl
@[simp] theorem State.rd_modGov (s : State) (f) (g) : (s.modGov f).rd g = s.rd g := rfl
@[simp] theorem State.now_modGov (s : State) (f) : (s.modGov f).now = s.now := rfl
@[simp] theorem State.phys_modGov (s : State) (f) (c) : (s.modGov f).phys c = s.phys c := rfl
@[simp] theorem State.isBound_modGov (s : State) (f) (c) : (s.modGov f).isBound c = s.isBound c := rfl
@[simp] theorem State.failedRowOf_modGov (s : State) (f) (c j) : (s.modGov f).failedRowOf c j = s.failedRowOf c j := rfl
@[simp] theorem State.configured_modGov (s : State) (f) (c) : (s.modGov f).configured c = s.configured c := rfl
@[simp] theorem State.cell_modGov (s : State) (f) (c) : (s.modGov f).cell c = s.cell c := rfl
@[simp] theorem State.swarm_modGov (s : State) (f) (c j) : (s.modGov f).swarm c j = s.swarm c j := rfl
@[simp] theorem State.cellInReset_modGov (s : State) (f) (c) : (s.modGov f).cellInReset c = s.cellInReset c := rfl
@[simp] theorem State.hbmByte_modGov (s : State) (f) (x) : (s.modGov f).hbmByte x = s.hbmByte x := rfl
@[simp] theorem State.hostByte_modGov (s : State) (f) (x) : (s.modGov f).hostByte x = s.hostByte x := rfl
@[simp] theorem State.lmByte_modGov (s : State) (f) (x y) : (s.modGov f).lmByte x y = s.lmByte x y := rfl
@[simp] theorem State.dsp_modGov (s : State) (f) (x) : (s.modGov f).dsp x = s.dsp x := rfl
@[simp] theorem State.ctx_modGov (s : State) (f) (x y) : (s.modGov f).ctx x y = s.ctx x y := rfl
@[simp] theorem State.fn_modGov (s : State) (f) (x) : (s.modGov f).fn x = s.fn x := rfl
@[simp] theorem State.queue_modGov (s : State) (f) (x) : (s.modGov f).queue x = s.queue x := rfl
@[simp] theorem State.camOf_modGov (s : State) (f) (x) : (s.modGov f).camOf x = s.camOf x := rfl
@[simp] theorem State.ingOf_modGov (s : State) (f) (x) : (s.modGov f).ingOf x = s.ingOf x := rfl
@[simp] theorem State.wglOf_modGov (s : State) (f) (x) : (s.modGov f).wglOf x = s.wglOf x := rfl
@[simp] theorem State.sections_modGov (s : State) (f) (x y) : (s.modGov f).sections x y = s.sections x y := rfl
@[simp] theorem State.global_modGov (s : State) (f) (x) : (s.modGov f).global x = s.global x := rfl
@[simp] theorem State.linkState_modGov (s : State) (f) (x) : (s.modGov f).linkState x = s.linkState x := rfl

/-! ### modHrd -/

@[simp] theorem State.modHrd_pending (s : State) (f) : (s.modHrd f).pending = s.pending := rfl
@[simp] theorem State.modHrd_free (s : State) (f) : (s.modHrd f).free = s.free := rfl
@[simp] theorem State.modHrd_counter (s : State) (f) : (s.modHrd f).counter = s.counter := rfl
@[simp] theorem State.modHrd_regs (s : State) (f) : (s.modHrd f).regs = s.regs := rfl
@[simp] theorem State.modHrd_cells (s : State) (f) : (s.modHrd f).cells = s.cells := rfl
@[simp] theorem State.modHrd_hbm (s : State) (f) : (s.modHrd f).hbm = s.hbm := rfl
@[simp] theorem State.modHrd_hbmErr (s : State) (f) : (s.modHrd f).hbmErr = s.hbmErr := rfl
@[simp] theorem State.modHrd_pkts (s : State) (f) : (s.modHrd f).pkts = s.pkts := rfl
@[simp] theorem State.modHrd_pwr (s : State) (f) : (s.modHrd f).pwr = s.pwr := rfl
@[simp] theorem State.modHrd_img (s : State) (f) : (s.modHrd f).img = s.img := rfl
@[simp] theorem State.modHrd_gov (s : State) (f) : (s.modHrd f).gov = s.gov := rfl
@[simp] theorem State.modHrd_time (s : State) (f) : (s.modHrd f).time = s.time := rfl
@[simp] theorem State.modHrd_ing (s : State) (f) : (s.modHrd f).ing = s.ing := rfl
@[simp] theorem State.modHrd_cam (s : State) (f) : (s.modHrd f).cam = s.cam := rfl
@[simp] theorem State.modHrd_wgl (s : State) (f) : (s.modHrd f).wgl = s.wgl := rfl
@[simp] theorem State.modHrd_disp (s : State) (f) : (s.modHrd f).disp = s.disp := rfl
@[simp] theorem State.modHrd_sealer (s : State) (f) : (s.modHrd f).sealer = s.sealer := rfl
@[simp] theorem State.modHrd_safe (s : State) (f) : (s.modHrd f).safe = s.safe := rfl
@[simp] theorem State.modHrd_host (s : State) (f) : (s.modHrd f).host = s.host := rfl
@[simp] theorem State.modHrd_stackScrub (s : State) (f) : (s.modHrd f).stackScrub = s.stackScrub := rfl
@[simp] theorem State.reg_modHrd (s : State) (f) (o) : (s.modHrd f).reg o = s.reg o := rfl
@[simp] theorem State.rd_modHrd (s : State) (f) (g) : (s.modHrd f).rd g = s.rd g := rfl
@[simp] theorem State.now_modHrd (s : State) (f) : (s.modHrd f).now = s.now := rfl
@[simp] theorem State.phys_modHrd (s : State) (f) (c) : (s.modHrd f).phys c = s.phys c := rfl
@[simp] theorem State.isBound_modHrd (s : State) (f) (c) : (s.modHrd f).isBound c = s.isBound c := rfl
@[simp] theorem State.failedRowOf_modHrd (s : State) (f) (c j) : (s.modHrd f).failedRowOf c j = s.failedRowOf c j := rfl
@[simp] theorem State.configured_modHrd (s : State) (f) (c) : (s.modHrd f).configured c = s.configured c := rfl
@[simp] theorem State.cell_modHrd (s : State) (f) (c) : (s.modHrd f).cell c = s.cell c := rfl
@[simp] theorem State.swarm_modHrd (s : State) (f) (c j) : (s.modHrd f).swarm c j = s.swarm c j := rfl
@[simp] theorem State.cellInReset_modHrd (s : State) (f) (c) : (s.modHrd f).cellInReset c = s.cellInReset c := rfl
@[simp] theorem State.hbmByte_modHrd (s : State) (f) (x) : (s.modHrd f).hbmByte x = s.hbmByte x := rfl
@[simp] theorem State.hostByte_modHrd (s : State) (f) (x) : (s.modHrd f).hostByte x = s.hostByte x := rfl
@[simp] theorem State.lmByte_modHrd (s : State) (f) (x y) : (s.modHrd f).lmByte x y = s.lmByte x y := rfl
@[simp] theorem State.stackUp_modHrd (s : State) (f) (x) : (s.modHrd f).stackUp x = s.stackUp x := rfl
@[simp] theorem State.dsp_modHrd (s : State) (f) (x) : (s.modHrd f).dsp x = s.dsp x := rfl
@[simp] theorem State.ctx_modHrd (s : State) (f) (x y) : (s.modHrd f).ctx x y = s.ctx x y := rfl
@[simp] theorem State.fn_modHrd (s : State) (f) (x) : (s.modHrd f).fn x = s.fn x := rfl
@[simp] theorem State.queue_modHrd (s : State) (f) (x) : (s.modHrd f).queue x = s.queue x := rfl
@[simp] theorem State.island_modHrd (s : State) (f) (x) : (s.modHrd f).island x = s.island x := rfl
@[simp] theorem State.camOf_modHrd (s : State) (f) (x) : (s.modHrd f).camOf x = s.camOf x := rfl
@[simp] theorem State.ingOf_modHrd (s : State) (f) (x) : (s.modHrd f).ingOf x = s.ingOf x := rfl
@[simp] theorem State.wglOf_modHrd (s : State) (f) (x) : (s.modHrd f).wglOf x = s.wglOf x := rfl
@[simp] theorem State.sections_modHrd (s : State) (f) (x y) : (s.modHrd f).sections x y = s.sections x y := rfl
@[simp] theorem State.global_modHrd (s : State) (f) (x) : (s.modHrd f).global x = s.global x := rfl
@[simp] theorem State.linkState_modHrd (s : State) (f) (x) : (s.modHrd f).linkState x = s.linkState x := rfl

/-! ### modTime -/

@[simp] theorem State.modTime_pending (s : State) (f) : (s.modTime f).pending = s.pending := rfl
@[simp] theorem State.modTime_free (s : State) (f) : (s.modTime f).free = s.free := rfl
@[simp] theorem State.modTime_counter (s : State) (f) : (s.modTime f).counter = s.counter := rfl
@[simp] theorem State.modTime_regs (s : State) (f) : (s.modTime f).regs = s.regs := rfl
@[simp] theorem State.modTime_cells (s : State) (f) : (s.modTime f).cells = s.cells := rfl
@[simp] theorem State.modTime_hbm (s : State) (f) : (s.modTime f).hbm = s.hbm := rfl
@[simp] theorem State.modTime_hbmErr (s : State) (f) : (s.modTime f).hbmErr = s.hbmErr := rfl
@[simp] theorem State.modTime_pkts (s : State) (f) : (s.modTime f).pkts = s.pkts := rfl
@[simp] theorem State.modTime_pwr (s : State) (f) : (s.modTime f).pwr = s.pwr := rfl
@[simp] theorem State.modTime_img (s : State) (f) : (s.modTime f).img = s.img := rfl
@[simp] theorem State.modTime_gov (s : State) (f) : (s.modTime f).gov = s.gov := rfl
@[simp] theorem State.modTime_ing (s : State) (f) : (s.modTime f).ing = s.ing := rfl
@[simp] theorem State.modTime_cam (s : State) (f) : (s.modTime f).cam = s.cam := rfl
@[simp] theorem State.modTime_wgl (s : State) (f) : (s.modTime f).wgl = s.wgl := rfl
@[simp] theorem State.modTime_disp (s : State) (f) : (s.modTime f).disp = s.disp := rfl
@[simp] theorem State.modTime_sealer (s : State) (f) : (s.modTime f).sealer = s.sealer := rfl
@[simp] theorem State.modTime_hrd (s : State) (f) : (s.modTime f).hrd = s.hrd := rfl
@[simp] theorem State.modTime_safe (s : State) (f) : (s.modTime f).safe = s.safe := rfl
@[simp] theorem State.modTime_host (s : State) (f) : (s.modTime f).host = s.host := rfl
@[simp] theorem State.modTime_stackScrub (s : State) (f) : (s.modTime f).stackScrub = s.stackScrub := rfl
@[simp] theorem State.reg_modTime (s : State) (f) (o) : (s.modTime f).reg o = s.reg o := rfl
@[simp] theorem State.rd_modTime (s : State) (f) (g) : (s.modTime f).rd g = s.rd g := rfl
@[simp] theorem State.now_modTime (s : State) (f) : (s.modTime f).now = s.now := rfl
@[simp] theorem State.phys_modTime (s : State) (f) (c) : (s.modTime f).phys c = s.phys c := rfl
@[simp] theorem State.isBound_modTime (s : State) (f) (c) : (s.modTime f).isBound c = s.isBound c := rfl
@[simp] theorem State.failedRowOf_modTime (s : State) (f) (c j) : (s.modTime f).failedRowOf c j = s.failedRowOf c j := rfl
@[simp] theorem State.configured_modTime (s : State) (f) (c) : (s.modTime f).configured c = s.configured c := rfl
@[simp] theorem State.cell_modTime (s : State) (f) (c) : (s.modTime f).cell c = s.cell c := rfl
@[simp] theorem State.swarm_modTime (s : State) (f) (c j) : (s.modTime f).swarm c j = s.swarm c j := rfl
@[simp] theorem State.cellInReset_modTime (s : State) (f) (c) : (s.modTime f).cellInReset c = s.cellInReset c := rfl
@[simp] theorem State.hbmByte_modTime (s : State) (f) (x) : (s.modTime f).hbmByte x = s.hbmByte x := rfl
@[simp] theorem State.hostByte_modTime (s : State) (f) (x) : (s.modTime f).hostByte x = s.hostByte x := rfl
@[simp] theorem State.lmByte_modTime (s : State) (f) (x y) : (s.modTime f).lmByte x y = s.lmByte x y := rfl
@[simp] theorem State.stackUp_modTime (s : State) (f) (x) : (s.modTime f).stackUp x = s.stackUp x := rfl
@[simp] theorem State.dsp_modTime (s : State) (f) (x) : (s.modTime f).dsp x = s.dsp x := rfl
@[simp] theorem State.ctx_modTime (s : State) (f) (x y) : (s.modTime f).ctx x y = s.ctx x y := rfl
@[simp] theorem State.fn_modTime (s : State) (f) (x) : (s.modTime f).fn x = s.fn x := rfl
@[simp] theorem State.queue_modTime (s : State) (f) (x) : (s.modTime f).queue x = s.queue x := rfl
@[simp] theorem State.island_modTime (s : State) (f) (x) : (s.modTime f).island x = s.island x := rfl
@[simp] theorem State.camOf_modTime (s : State) (f) (x) : (s.modTime f).camOf x = s.camOf x := rfl
@[simp] theorem State.ingOf_modTime (s : State) (f) (x) : (s.modTime f).ingOf x = s.ingOf x := rfl
@[simp] theorem State.wglOf_modTime (s : State) (f) (x) : (s.modTime f).wglOf x = s.wglOf x := rfl
@[simp] theorem State.sections_modTime (s : State) (f) (x y) : (s.modTime f).sections x y = s.sections x y := rfl
@[simp] theorem State.global_modTime (s : State) (f) (x) : (s.modTime f).global x = s.global x := rfl
@[simp] theorem State.linkState_modTime (s : State) (f) (x) : (s.modTime f).linkState x = s.linkState x := rfl

/-! ### modWgl -/

@[simp] theorem State.modWgl_pending (s : State) (q f) : (s.modWgl q f).pending = s.pending := rfl
@[simp] theorem State.modWgl_free (s : State) (q f) : (s.modWgl q f).free = s.free := rfl
@[simp] theorem State.modWgl_counter (s : State) (q f) : (s.modWgl q f).counter = s.counter := rfl
@[simp] theorem State.modWgl_regs (s : State) (q f) : (s.modWgl q f).regs = s.regs := rfl
@[simp] theorem State.modWgl_cells (s : State) (q f) : (s.modWgl q f).cells = s.cells := rfl
@[simp] theorem State.modWgl_hbm (s : State) (q f) : (s.modWgl q f).hbm = s.hbm := rfl
@[simp] theorem State.modWgl_hbmErr (s : State) (q f) : (s.modWgl q f).hbmErr = s.hbmErr := rfl
@[simp] theorem State.modWgl_pkts (s : State) (q f) : (s.modWgl q f).pkts = s.pkts := rfl
@[simp] theorem State.modWgl_pwr (s : State) (q f) : (s.modWgl q f).pwr = s.pwr := rfl
@[simp] theorem State.modWgl_img (s : State) (q f) : (s.modWgl q f).img = s.img := rfl
@[simp] theorem State.modWgl_gov (s : State) (q f) : (s.modWgl q f).gov = s.gov := rfl
@[simp] theorem State.modWgl_time (s : State) (q f) : (s.modWgl q f).time = s.time := rfl
@[simp] theorem State.modWgl_ing (s : State) (q f) : (s.modWgl q f).ing = s.ing := rfl
@[simp] theorem State.modWgl_cam (s : State) (q f) : (s.modWgl q f).cam = s.cam := rfl
@[simp] theorem State.modWgl_disp (s : State) (q f) : (s.modWgl q f).disp = s.disp := rfl
@[simp] theorem State.modWgl_sealer (s : State) (q f) : (s.modWgl q f).sealer = s.sealer := rfl
@[simp] theorem State.modWgl_hrd (s : State) (q f) : (s.modWgl q f).hrd = s.hrd := rfl
@[simp] theorem State.modWgl_safe (s : State) (q f) : (s.modWgl q f).safe = s.safe := rfl
@[simp] theorem State.modWgl_host (s : State) (q f) : (s.modWgl q f).host = s.host := rfl
@[simp] theorem State.modWgl_stackScrub (s : State) (q f) : (s.modWgl q f).stackScrub = s.stackScrub := rfl
@[simp] theorem State.reg_modWgl (s : State) (q f) (o) : (s.modWgl q f).reg o = s.reg o := rfl
@[simp] theorem State.rd_modWgl (s : State) (q f) (g) : (s.modWgl q f).rd g = s.rd g := rfl
@[simp] theorem State.now_modWgl (s : State) (q f) : (s.modWgl q f).now = s.now := rfl
@[simp] theorem State.phys_modWgl (s : State) (q f) (c) : (s.modWgl q f).phys c = s.phys c := rfl
@[simp] theorem State.isBound_modWgl (s : State) (q f) (c) : (s.modWgl q f).isBound c = s.isBound c := rfl
@[simp] theorem State.failedRowOf_modWgl (s : State) (q f) (c j) : (s.modWgl q f).failedRowOf c j = s.failedRowOf c j := rfl
@[simp] theorem State.configured_modWgl (s : State) (q f) (c) : (s.modWgl q f).configured c = s.configured c := rfl
@[simp] theorem State.cell_modWgl (s : State) (q f) (c) : (s.modWgl q f).cell c = s.cell c := rfl
@[simp] theorem State.swarm_modWgl (s : State) (q f) (c j) : (s.modWgl q f).swarm c j = s.swarm c j := rfl
@[simp] theorem State.cellInReset_modWgl (s : State) (q f) (c) : (s.modWgl q f).cellInReset c = s.cellInReset c := rfl
@[simp] theorem State.hbmByte_modWgl (s : State) (q f) (x) : (s.modWgl q f).hbmByte x = s.hbmByte x := rfl
@[simp] theorem State.hostByte_modWgl (s : State) (q f) (x) : (s.modWgl q f).hostByte x = s.hostByte x := rfl
@[simp] theorem State.lmByte_modWgl (s : State) (q f) (x y) : (s.modWgl q f).lmByte x y = s.lmByte x y := rfl
@[simp] theorem State.stackUp_modWgl (s : State) (q f) (x) : (s.modWgl q f).stackUp x = s.stackUp x := rfl
@[simp] theorem State.dsp_modWgl (s : State) (q f) (x) : (s.modWgl q f).dsp x = s.dsp x := rfl
@[simp] theorem State.ctx_modWgl (s : State) (q f) (x y) : (s.modWgl q f).ctx x y = s.ctx x y := rfl
@[simp] theorem State.fn_modWgl (s : State) (q f) (x) : (s.modWgl q f).fn x = s.fn x := rfl
@[simp] theorem State.queue_modWgl (s : State) (q f) (x) : (s.modWgl q f).queue x = s.queue x := rfl
@[simp] theorem State.island_modWgl (s : State) (q f) (x) : (s.modWgl q f).island x = s.island x := rfl
@[simp] theorem State.camOf_modWgl (s : State) (q f) (x) : (s.modWgl q f).camOf x = s.camOf x := rfl
@[simp] theorem State.ingOf_modWgl (s : State) (q f) (x) : (s.modWgl q f).ingOf x = s.ingOf x := rfl
@[simp] theorem State.sections_modWgl (s : State) (q f) (x y) : (s.modWgl q f).sections x y = s.sections x y := rfl
@[simp] theorem State.global_modWgl (s : State) (q f) (x) : (s.modWgl q f).global x = s.global x := rfl
@[simp] theorem State.linkState_modWgl (s : State) (q f) (x) : (s.modWgl q f).linkState x = s.linkState x := rfl

end Sys2Proof.Machine
end

