-- ==== Sys2Proof/Laws/Ops.lean ====
section
/-! SUPPORT. What the named operations do: a register field after a write, an event, a cell, a swarm, a context or a packet after a
change, and the bytes of HBM after a store. -/
namespace Sys2Proof.Machine

/-! ### Registers -/

theorem reg_wr_same (s : State) (f : RegField) (v : Nat) : (s.wr f v).reg f.off = setBits (s.reg f.off) f.lo f.len v % 2 ^ 64 := by
  simp [State.reg, State.wr]

theorem reg_wr_ne (s : State) (f : RegField) (v : Nat) {o : Nat} (h : o ≠ f.off) : (s.wr f v).reg o = s.reg o := by
  simp [State.reg, State.wr, sget_sset_ne _ _ _ h]

theorem rd_wr_same (s : State) (f : RegField) (v : Nat) (h : f.lo + f.len ≤ 64) : (s.wr f v).rd f = v % 2 ^ f.len := by
  rw [State.rd, reg_wr_same, bits_mod _ _ _ _ h, bits_setBits_same]

theorem rd_wr_ne (s : State) (f g : RegField) (v : Nat) (h : g.off ≠ f.off) : (s.wr f v).rd g = s.rd g := by
  rw [State.rd, reg_wr_ne s f v h, State.rd]

theorem rd_wr_disjoint (s : State) (f g : RegField) (v : Nat) (ho : g.off = f.off) (hg : g.lo + g.len ≤ 64)
    (h : f.lo + f.len ≤ g.lo ∨ g.lo + g.len ≤ f.lo) : (s.wr f v).rd g = s.rd g := by
  rw [State.rd, ho, reg_wr_same, bits_mod _ _ _ _ hg, bits_setBits_disjoint _ _ _ _ _ _ h, State.rd, ho]

/-- What a write leaves of another field. -/
theorem rd_wr (s : State) (f g : RegField) (v : Nat) (hf : f.lo + f.len ≤ 64) (hg : g.lo + g.len ≤ 64)
    (h : g = f ∨ g.off ≠ f.off ∨ f.lo + f.len ≤ g.lo ∨ g.lo + g.len ≤ f.lo) :
    (s.wr f v).rd g = if g = f then v % 2 ^ f.len else s.rd g := by
  split
  · rename_i e; subst e; exact rd_wr_same s g v hg
  · rename_i e
    rcases h with h | h | h
    · exact absurd h e
    · exact rd_wr_ne s f g v h
    · by_cases ho : g.off = f.off
      · exact rd_wr_disjoint s f g v ho hg h
      · exact rd_wr_ne s f g v ho

theorem rd_lt (s : State) (f : RegField) : s.rd f < 2 ^ f.len := bits_lt _ _ _

theorem reg_lt (s : State) (o : Nat) : s.reg o < 2 ^ 64 := (sget 0 s.regs o).isLt

theorem bump_def (s : State) (f : RegField) (n : Nat) : s.bump f n = s.wr f (min (2 ^ f.len - 1) (s.rd f + n)) := rfl

theorem incr_def (s : State) (f : RegField) (n : Nat) : s.incr f n = s.wr f (s.rd f + n) := rfl

theorem setBit_def (s : State) (f : RegField) (i : Nat) : s.setBit f i = s.wr f (s.rd f ||| 2 ^ i) := rfl

/-- A bit set in a field: every other bit of the field stays. -/
theorem bitAt_setBit (s : State) (f : RegField) (i j : Nat) (h : f.lo + f.len ≤ 64) (hi : i < f.len) :
    bitAt ((s.setBit f i).rd f) j = (bitAt (s.rd f) j || decide (j = i)) := by
  have hl : j < f.len ∨ (s.rd f).testBit j = false := by
    by_cases hj : j < f.len
    · exact .inl hj
    · right; rw [State.rd, testBit_bits]; simp [hj]
  rw [setBit_def, rd_wr_same _ _ _ h, bitAt_eq, bitAt_eq, Nat.testBit_mod_two_pow, Nat.testBit_or, Nat.testBit_two_pow]
  by_cases e : i = j
  · subst e; simp [hi]
  · have e' : ¬ j = i := fun x => e x.symm
    rcases hl with hl | hl
    · simp [hl, e, e']
    · simp [hl, e, e']

/-! ### Interrupt causes and events -/

/-- R459: signalling a vector changes the host interface's MSI-X state alone. -/
theorem signal_eq (s : State) (v : Nat) : ∃ m p, s.signal v = { s with host := { s.host with msixSignalled := m, msixPending := p } } := by
  unfold State.signal
  split
  · split
    · exact ⟨s.host.msixSignalled, s.host.msixPending, rfl⟩
    · exact ⟨s.host.msixSignalled, _, rfl⟩
  · exact ⟨_, s.host.msixPending, rfl⟩

/-- R459: setting a cause bit changes HOST.IRQ_CAUSE and the MSI-X state alone. -/
theorem irq_eq (s : State) (b : Nat) : ∃ r m p, s.irq b =
    { s with regs := r, host := { s.host with msixSignalled := m, msixPending := p } } ∧
    ∀ o, o ≠ Reg.hostIrqCauseBits.off → sget 0 r o = sget 0 s.regs o := by
  unfold State.irq
  split
  · exact ⟨s.regs, s.host.msixSignalled, s.host.msixPending, rfl, fun _ _ => rfl⟩
  · dsimp only
    split
    · exact ⟨_, s.host.msixSignalled, s.host.msixPending, rfl, fun o ho => sget_sset_ne _ _ _ ho⟩
    · obtain ⟨m, p, e⟩ := signal_eq (s.setBit Reg.hostIrqCauseBits b) (64 + b)
      exact ⟨_, m, p, e, fun o ho => sget_sset_ne _ _ _ ho⟩

/-- An event changes its block's EVENTS register, HOST.IRQ_CAUSE and the MSI-X state alone. -/
theorem evt_eq (s : State) (code n : Nat) : ∃ r m p, s.evt code n =
    { s with regs := r, host := { s.host with msixSignalled := m, msixPending := p } } ∧
    ∀ o, o ≠ Reg.hostIrqCauseBits.off → (∀ f b, evtField code n = some (f, b) → o ≠ f.off) → sget 0 r o = sget 0 s.regs o := by
  have key : ∀ (t : State), (∃ r, t = { s with regs := r } ∧
      ∀ o, (∀ f b, evtField code n = some (f, b) → o ≠ f.off) → sget 0 r o = sget 0 s.regs o) →
      ∃ r m p, (match irqOf code with | some b => t.irq b | none => t) =
        { s with regs := r, host := { s.host with msixSignalled := m, msixPending := p } } ∧
        ∀ o, o ≠ Reg.hostIrqCauseBits.off → (∀ f b, evtField code n = some (f, b) → o ≠ f.off) → sget 0 r o = sget 0 s.regs o := by
    rintro t ⟨r, rfl, hr⟩
    split
    · rename_i b _
      obtain ⟨r', m, p, e, h⟩ := irq_eq { s with regs := r } b
      exact ⟨r', m, p, e, fun o ho hf => (h o ho).trans (hr o hf)⟩
    · exact ⟨r, s.host.msixSignalled, s.host.msixPending, rfl, fun o _ hf => hr o hf⟩
  unfold State.evt
  apply key
  split
  · rename_i f b e
    exact ⟨_, rfl, fun o hf => sget_sset_ne _ _ _ (hf f b e)⟩
  · exact ⟨s.regs, rfl, fun _ _ => rfl⟩

theorem reg_evt (s : State) (code n o : Nat) (h : o ≠ Reg.hostIrqCauseBits.off)
    (hf : ∀ f b, evtField code n = some (f, b) → o ≠ f.off) : (s.evt code n).reg o = s.reg o := by
  obtain ⟨r, m, p, e, k⟩ := evt_eq s code n
  rw [e]
  show (sget 0 r o).toNat = _
  rw [k o h hf]
  rfl

@[simp] theorem signal_pending (s : State) (v) : (s.signal v).pending = s.pending := by obtain ⟨_, _, e⟩ := signal_eq s v; rw [e]
@[simp] theorem signal_free (s : State) (v) : (s.signal v).free = s.free := by obtain ⟨_, _, e⟩ := signal_eq s v; rw [e]
@[simp] theorem signal_counter (s : State) (v) : (s.signal v).counter = s.counter := by obtain ⟨_, _, e⟩ := signal_eq s v; rw [e]
@[simp] theorem signal_cells (s : State) (v) : (s.signal v).cells = s.cells := by obtain ⟨_, _, e⟩ := signal_eq s v; rw [e]
@[simp] theorem signal_hbm (s : State) (v) : (s.signal v).hbm = s.hbm := by obtain ⟨_, _, e⟩ := signal_eq s v; rw [e]
@[simp] theorem signal_hbmErr (s : State) (v) : (s.signal v).hbmErr = s.hbmErr := by obtain ⟨_, _, e⟩ := signal_eq s v; rw [e]
@[simp] theorem signal_pkts (s : State) (v) : (s.signal v).pkts = s.pkts := by obtain ⟨_, _, e⟩ := signal_eq s v; rw [e]
@[simp] theorem signal_pwr (s : State) (v) : (s.signal v).pwr = s.pwr := by obtain ⟨_, _, e⟩ := signal_eq s v; rw [e]
@[simp] theorem signal_img (s : State) (v) : (s.signal v).img = s.img := by obtain ⟨_, _, e⟩ := signal_eq s v; rw [e]
@[simp] theorem signal_gov (s : State) (v) : (s.signal v).gov = s.gov := by obtain ⟨_, _, e⟩ := signal_eq s v; rw [e]
@[simp] theorem signal_time (s : State) (v) : (s.signal v).time = s.time := by obtain ⟨_, _, e⟩ := signal_eq s v; rw [e]
@[simp] theorem signal_ing (s : State) (v) : (s.signal v).ing = s.ing := by obtain ⟨_, _, e⟩ := signal_eq s v; rw [e]
@[simp] theorem signal_cam (s : State) (v) : (s.signal v).cam = s.cam := by obtain ⟨_, _, e⟩ := signal_eq s v; rw [e]
@[simp] theorem signal_wgl (s : State) (v) : (s.signal v).wgl = s.wgl := by obtain ⟨_, _, e⟩ := signal_eq s v; rw [e]
@[simp] theorem signal_disp (s : State) (v) : (s.signal v).disp = s.disp := by obtain ⟨_, _, e⟩ := signal_eq s v; rw [e]
@[simp] theorem signal_sealer (s : State) (v) : (s.signal v).sealer = s.sealer := by obtain ⟨_, _, e⟩ := signal_eq s v; rw [e]
@[simp] theorem signal_hrd (s : State) (v) : (s.signal v).hrd = s.hrd := by obtain ⟨_, _, e⟩ := signal_eq s v; rw [e]
@[simp] theorem signal_safe (s : State) (v) : (s.signal v).safe = s.safe := by obtain ⟨_, _, e⟩ := signal_eq s v; rw [e]
@[simp] theorem signal_stackScrub (s : State) (v) : (s.signal v).stackScrub = s.stackScrub := by obtain ⟨_, _, e⟩ := signal_eq s v; rw [e]

@[simp] theorem irq_pending (s : State) (b) : (s.irq b).pending = s.pending := by obtain ⟨_, _, _, e, _⟩ := irq_eq s b; rw [e]
@[simp] theorem irq_free (s : State) (b) : (s.irq b).free = s.free := by obtain ⟨_, _, _, e, _⟩ := irq_eq s b; rw [e]
@[simp] theorem irq_counter (s : State) (b) : (s.irq b).counter = s.counter := by obtain ⟨_, _, _, e, _⟩ := irq_eq s b; rw [e]
@[simp] theorem irq_cells (s : State) (b) : (s.irq b).cells = s.cells := by obtain ⟨_, _, _, e, _⟩ := irq_eq s b; rw [e]
@[simp] theorem irq_hbm (s : State) (b) : (s.irq b).hbm = s.hbm := by obtain ⟨_, _, _, e, _⟩ := irq_eq s b; rw [e]
@[simp] theorem irq_hbmErr (s : State) (b) : (s.irq b).hbmErr = s.hbmErr := by obtain ⟨_, _, _, e, _⟩ := irq_eq s b; rw [e]
@[simp] theorem irq_pkts (s : State) (b) : (s.irq b).pkts = s.pkts := by obtain ⟨_, _, _, e, _⟩ := irq_eq s b; rw [e]
@[simp] theorem irq_pwr (s : State) (b) : (s.irq b).pwr = s.pwr := by obtain ⟨_, _, _, e, _⟩ := irq_eq s b; rw [e]
@[simp] theorem irq_img (s : State) (b) : (s.irq b).img = s.img := by obtain ⟨_, _, _, e, _⟩ := irq_eq s b; rw [e]
@[simp] theorem irq_gov (s : State) (b) : (s.irq b).gov = s.gov := by obtain ⟨_, _, _, e, _⟩ := irq_eq s b; rw [e]
@[simp] theorem irq_time (s : State) (b) : (s.irq b).time = s.time := by obtain ⟨_, _, _, e, _⟩ := irq_eq s b; rw [e]
@[simp] theorem irq_ing (s : State) (b) : (s.irq b).ing = s.ing := by obtain ⟨_, _, _, e, _⟩ := irq_eq s b; rw [e]
@[simp] theorem irq_cam (s : State) (b) : (s.irq b).cam = s.cam := by obtain ⟨_, _, _, e, _⟩ := irq_eq s b; rw [e]
@[simp] theorem irq_wgl (s : State) (b) : (s.irq b).wgl = s.wgl := by obtain ⟨_, _, _, e, _⟩ := irq_eq s b; rw [e]
@[simp] theorem irq_disp (s : State) (b) : (s.irq b).disp = s.disp := by obtain ⟨_, _, _, e, _⟩ := irq_eq s b; rw [e]
@[simp] theorem irq_sealer (s : State) (b) : (s.irq b).sealer = s.sealer := by obtain ⟨_, _, _, e, _⟩ := irq_eq s b; rw [e]
@[simp] theorem irq_hrd (s : State) (b) : (s.irq b).hrd = s.hrd := by obtain ⟨_, _, _, e, _⟩ := irq_eq s b; rw [e]
@[simp] theorem irq_safe (s : State) (b) : (s.irq b).safe = s.safe := by obtain ⟨_, _, _, e, _⟩ := irq_eq s b; rw [e]
@[simp] theorem irq_stackScrub (s : State) (b) : (s.irq b).stackScrub = s.stackScrub := by obtain ⟨_, _, _, e, _⟩ := irq_eq s b; rw [e]

@[simp] theorem evt_pending (s : State) (c n) : (s.evt c n).pending = s.pending := by obtain ⟨_, _, _, e, _⟩ := evt_eq s c n; rw [e]
@[simp] theorem evt_free (s : State) (c n) : (s.evt c n).free = s.free := by obtain ⟨_, _, _, e, _⟩ := evt_eq s c n; rw [e]
@[simp] theorem evt_counter (s : State) (c n) : (s.evt c n).counter = s.counter := by obtain ⟨_, _, _, e, _⟩ := evt_eq s c n; rw [e]
@[simp] theorem evt_cells (s : State) (c n) : (s.evt c n).cells = s.cells := by obtain ⟨_, _, _, e, _⟩ := evt_eq s c n; rw [e]
@[simp] theorem evt_hbm (s : State) (c n) : (s.evt c n).hbm = s.hbm := by obtain ⟨_, _, _, e, _⟩ := evt_eq s c n; rw [e]
@[simp] theorem evt_hbmErr (s : State) (c n) : (s.evt c n).hbmErr = s.hbmErr := by obtain ⟨_, _, _, e, _⟩ := evt_eq s c n; rw [e]
@[simp] theorem evt_pkts (s : State) (c n) : (s.evt c n).pkts = s.pkts := by obtain ⟨_, _, _, e, _⟩ := evt_eq s c n; rw [e]
@[simp] theorem evt_pwr (s : State) (c n) : (s.evt c n).pwr = s.pwr := by obtain ⟨_, _, _, e, _⟩ := evt_eq s c n; rw [e]
@[simp] theorem evt_img (s : State) (c n) : (s.evt c n).img = s.img := by obtain ⟨_, _, _, e, _⟩ := evt_eq s c n; rw [e]
@[simp] theorem evt_gov (s : State) (c n) : (s.evt c n).gov = s.gov := by obtain ⟨_, _, _, e, _⟩ := evt_eq s c n; rw [e]
@[simp] theorem evt_time (s : State) (c n) : (s.evt c n).time = s.time := by obtain ⟨_, _, _, e, _⟩ := evt_eq s c n; rw [e]
@[simp] theorem evt_ing (s : State) (c n) : (s.evt c n).ing = s.ing := by obtain ⟨_, _, _, e, _⟩ := evt_eq s c n; rw [e]
@[simp] theorem evt_cam (s : State) (c n) : (s.evt c n).cam = s.cam := by obtain ⟨_, _, _, e, _⟩ := evt_eq s c n; rw [e]
@[simp] theorem evt_wgl (s : State) (c n) : (s.evt c n).wgl = s.wgl := by obtain ⟨_, _, _, e, _⟩ := evt_eq s c n; rw [e]
@[simp] theorem evt_disp (s : State) (c n) : (s.evt c n).disp = s.disp := by obtain ⟨_, _, _, e, _⟩ := evt_eq s c n; rw [e]
@[simp] theorem evt_sealer (s : State) (c n) : (s.evt c n).sealer = s.sealer := by obtain ⟨_, _, _, e, _⟩ := evt_eq s c n; rw [e]
@[simp] theorem evt_hrd (s : State) (c n) : (s.evt c n).hrd = s.hrd := by obtain ⟨_, _, _, e, _⟩ := evt_eq s c n; rw [e]
@[simp] theorem evt_safe (s : State) (c n) : (s.evt c n).safe = s.safe := by obtain ⟨_, _, _, e, _⟩ := evt_eq s c n; rw [e]
@[simp] theorem evt_stackScrub (s : State) (c n) : (s.evt c n).stackScrub = s.stackScrub := by obtain ⟨_, _, _, e, _⟩ := evt_eq s c n; rw [e]


/-! ### Cells and swarms -/

theorem cell_modCell (s : State) (id i : Nat) (f : CellMem → CellMem) :
    (s.modCell id f).cell i = if s.phys i = s.phys id then f (s.cell id) else s.cell i := by
  show sget {} (smod {} s.cells (s.phys id) f) (s.phys i) = _
  rw [sget_smod]
  rfl

@[simp] theorem cell_modCell_same (s : State) (id : Nat) (f : CellMem → CellMem) : (s.modCell id f).cell id = f (s.cell id) := by
  rw [cell_modCell, if_pos rfl]

theorem cell_modCell_ne (s : State) {id i : Nat} (f : CellMem → CellMem) (h : s.phys i ≠ s.phys id) :
    (s.modCell id f).cell i = s.cell i := by
  rw [cell_modCell, if_neg h]

@[simp] theorem CellMem.swarm_modSwarm_same (c : CellMem) (k : Nat) (f : Swarm → Swarm) : (c.modSwarm k f).swarm k = f (c.swarm k) :=
  sget_smod_same ..

theorem CellMem.swarm_modSwarm_ne (c : CellMem) {k j : Nat} (f : Swarm → Swarm) (h : j ≠ k) : (c.modSwarm k f).swarm j = c.swarm j :=
  sget_smod_ne _ _ _ h

@[simp] theorem swarm_modSwarm_same (s : State) (id k : Nat) (f : Swarm → Swarm) : (s.modSwarm id k f).swarm id k = f (s.swarm id k) := by
  simp [State.swarm, State.modSwarm]

theorem swarm_modSwarm (s : State) (id k i j : Nat) (f : Swarm → Swarm) :
    (s.modSwarm id k f).swarm i j = if s.phys i = s.phys id ∧ j = k then f (s.swarm id k) else s.swarm i j := by
  unfold State.swarm State.modSwarm
  rw [cell_modCell]
  by_cases h : s.phys i = s.phys id
  · have e : s.cell i = s.cell id := by unfold State.cell; rw [h]
    by_cases hk : j = k
    · subst hk; simp [h]
    · simp [h, hk, CellMem.swarm_modSwarm_ne _ _ hk, e]
  · simp [h]

@[simp] theorem lmByte_modSwarm (s : State) (id k p a : Nat) (f : Swarm → Swarm) : (s.modSwarm id k f).lmByte p a = s.lmByte p a := by
  show sget 0 (sget {} (smod {} s.cells (s.phys id) fun c => c.modSwarm k f) p).lm a = _
  rw [sget_smod]
  split
  · rename_i h; subst h; rfl
  · rfl

/-! ### The registers of a swarm -/

theorem Swarm.vreg_setV (w : Swarm) (n j v m i : Nat) (hj : j < 32) (hi : i < 32) :
    (w.setV n j v).vreg m i = if m = n ∧ i = j then v % 2 ^ 32 else w.vreg m i := by
  show (sget 0 (sset 0 w.v (32 * n + j) (BitVec.ofNat 32 v)) (32 * m + i)).toNat = _
  rw [sget_sset]
  have : 32 * m + i = 32 * n + j ↔ m = n ∧ i = j := by omega
  simp only [this]
  split
  · simp
  · rfl

theorem Swarm.ureg_setU (w : Swarm) (n v m : Nat) : (w.setU n v).ureg m = if m = n then v % 2 ^ 64 else w.ureg m := by
  show (sget 0 (sset 0 w.u n (BitVec.ofNat 64 v)) m).toNat = _
  rw [sget_sset]
  split
  · simp
  · rfl

theorem Swarm.preg_setP (w : Swarm) (n v m : Nat) : (w.setP n v).preg m = if m = n then v % 2 ^ 32 else w.preg m := by
  show (sget 0 (sset 0 w.p n (BitVec.ofNat 32 v)) m).toNat = _
  rw [sget_sset]
  split
  · simp
  · rfl

theorem Swarm.upred_setUp (w : Swarm) (n m : Nat) (b : Bool) (hn : n < 4) (hm : m < 4) :
    (w.setUp n b).upred m = if m = n then b else w.upred m := by
  show bitAt (BitVec.ofNat 4 (setBits w.up.toNat n 1 b.toNat)).toNat m = _
  rw [BitVec.toNat_ofNat, bitAt_eq, Nat.testBit_mod_two_pow, testBit_setBits]
  by_cases h : m = n
  · subst h
    simp only [hm, decide_true, Bool.true_and, Nat.le_refl, Nat.lt_succ_self, and_self, if_true, Nat.sub_self]
    cases b <;> rfl
  · have : ¬ (n ≤ m ∧ m < n + 1) := by omega
    rw [if_neg this, if_neg h, Swarm.upred, bitAt_eq]
    simp [hm]

/-! ### The blocks -/

@[simp] theorem dsp_modDisp_same (s : State) (ch : Nat) (f : Disp → Disp) : (s.modDisp ch f).dsp ch = f (s.dsp ch) := sget_smod_same ..
theorem dsp_modDisp_ne (s : State) {ch i : Nat} (f : Disp → Disp) (h : i ≠ ch) : (s.modDisp ch f).dsp i = s.dsp i := sget_smod_ne _ _ _ h
@[simp] theorem ctx_modCtx_same (s : State) (ch k : Nat) (f : Ctx → Ctx) : (s.modCtx ch k f).ctx ch k = f (s.ctx ch k) := by
  unfold State.ctx State.modCtx
  rw [dsp_modDisp_same]
  exact sget_smod_same ..
theorem ctx_modCtx_ne (s : State) {ch k i j : Nat} (f : Ctx → Ctx) (h : i ≠ ch ∨ j ≠ k) : (s.modCtx ch k f).ctx i j = s.ctx i j := by
  unfold State.ctx State.modCtx
  by_cases hc : i = ch
  · subst hc
    rw [dsp_modDisp_same]
    exact sget_smod_ne _ _ _ (h.resolve_left fun x => x rfl)
  · rw [dsp_modDisp_ne s _ hc]
@[simp] theorem fn_modFn_same (s : State) (i : Nat) (f : SafeFn → SafeFn) : (s.modFn i f).fn i = f (s.fn i) := sget_smod_same ..
theorem fn_modFn_ne (s : State) {i j : Nat} (f : SafeFn → SafeFn) (h : j ≠ i) : (s.modFn i f).fn j = s.fn j := sget_smod_ne _ _ _ h
@[simp] theorem queue_modQueue_same (s : State) (q : Nat) (f : Queue → Queue) : (s.modQueue q f).queue q = f (s.queue q) := sget_smod_same ..
theorem queue_modQueue_ne (s : State) {q j : Nat} (f : Queue → Queue) (h : j ≠ q) : (s.modQueue q f).queue j = s.queue j :=
  sget_smod_ne _ _ _ h
@[simp] theorem island_modIsle_same (s : State) (i : Nat) (f : Island → Island) : (s.modIsle i f).island i = f (s.island i) :=
  sget_smod_same ..
theorem island_modIsle_ne (s : State) {i j : Nat} (f : Island → Island) (h : j ≠ i) : (s.modIsle i f).island j = s.island j :=
  sget_smod_ne _ _ _ h
@[simp] theorem camOf_modCam_same (s : State) (ch : Nat) (f : Cam → Cam) : (s.modCam ch f).camOf ch = f (s.camOf ch) := sget_smod_same ..
theorem camOf_modCam_ne (s : State) {ch j : Nat} (f : Cam → Cam) (h : j ≠ ch) : (s.modCam ch f).camOf j = s.camOf j := sget_smod_ne _ _ _ h
@[simp] theorem ingOf_modIng_same (s : State) (ch : Nat) (f : Ing → Ing) : (s.modIng ch f).ingOf ch = f (s.ingOf ch) := sget_smod_same ..
theorem ingOf_modIng_ne (s : State) {ch j : Nat} (f : Ing → Ing) (h : j ≠ ch) : (s.modIng ch f).ingOf j = s.ingOf j := sget_smod_ne _ _ _ h
@[simp] theorem wglOf_modWgl_same (s : State) (q : Nat) (f : Wgl → Wgl) : (s.modWgl q f).wglOf q = f (s.wglOf q) := sget_smod_same ..
theorem wglOf_modWgl_ne (s : State) {q j : Nat} (f : Wgl → Wgl) (h : j ≠ q) : (s.modWgl q f).wglOf j = s.wglOf j := sget_smod_ne _ _ _ h
@[simp] theorem send_pkts (s : State) (p : Packet) : (s.send p).pkts = s.pkts ++ [p] := rfl
@[simp] theorem dropPkt_pkts (s : State) (i : Nat) : (s.dropPkt i).pkts = s.pkts.eraseIdx i := rfl
@[simp] theorem modPwr_pwr (s : State) (f : Power → Power) : (s.modPwr f).pwr = f s.pwr := rfl
@[simp] theorem modGov_gov (s : State) (f : Gov → Gov) : (s.modGov f).gov = f s.gov := rfl
@[simp] theorem modTime_time (s : State) (f : Time → Time) : (s.modTime f).time = f s.time := rfl
@[simp] theorem modHrd_hrd (s : State) (f : Hoard → Hoard) : (s.modHrd f).hrd = f s.hrd := rfl

/-! ### Bytes of HBM -/

/-- A store writes its bytes, and every other byte stays. -/
theorem hbmByte_hbmWrite (s : State) (a x : Nat) (bs : Bytes) :
    (s.hbmWrite a bs).hbmByte x = if a ≤ x then (bs[x - a]?).getD (s.hbmByte x) else s.hbmByte x := sget_ssetN ..

theorem hbmRead_getElem? (s : State) (a n i : Nat) (h : i < n) : (s.hbmRead a n)[i]? = some (s.hbmByte (a + i)) :=
  sgetN_getElem? _ _ _ _ _ h

/-- Bytes written to HBM are read back. -/
theorem hbmRead_hbmWrite (s : State) (a : Nat) (bs : Bytes) : (s.hbmWrite a bs).hbmRead a bs.length = bs := sgetN_ssetN ..

end Sys2Proof.Machine
end

