-- ==== Sys2Proof/Laws/Issue.lean ====
section
/-! SUPPORT. The laws of issuing an instruction: the fields of an instruction word, the checks that a swarm standing at a valid word
passes, and the commit of an instruction that only writes its swarm. -/
namespace Sys2Proof.Machine

/-! ### The fields of a word -/

/-- R134: the fields of an R-format word. -/
theorem rWord_fields {op g fn d a b c : Nat} (hop : op < 256) (hg : g < 8) (hfn : fn < 32) (hd : d < 256) (ha : a < 256)
    (hb : b < 256) (hc : c < 256) : wOp (rWord op g fn d a b c) = op ∧ wGuard (rWord op g fn d a b c) = g ∧
    wFn (rWord op g fn d a b c) = fn ∧ wD (rWord op g fn d a b c) = d ∧ wA (rWord op g fn d a b c) = a ∧
    wB (rWord op g fn d a b c) = b ∧ wC (rWord op g fn d a b c) = c ∧ lowZero (rWord op g fn d a b c) = true := by
  simp only [wOp, wGuard, wFn, wD, wA, wB, wC, lowZero, rWord, bits_eq, beq_iff_eq]
  omega

/-- R134: the fields of an I-format word. -/
theorem iWord_fields {op g fn d a imm : Nat} (hop : op < 256) (hg : g < 8) (hfn : fn < 32) (hd : d < 256) (ha : a < 256)
    (hi : imm < 2 ^ 32) : wOp (iWord op g fn d a imm) = op ∧ wGuard (iWord op g fn d a imm) = g ∧
    wFn (iWord op g fn d a imm) = fn ∧ wD (iWord op g fn d a imm) = d ∧ wA (iWord op g fn d a imm) = a ∧
    wImm (iWord op g fn d a imm) = imm := by
  simp only [wOp, wGuard, wFn, wD, wA, wImm, iWord, bits_eq]
  omega

/-- R134, R151: the fields of an M-format word. -/
theorem mWord_fields {op g fn d a b mf rf zp sh ni sp wd : Nat} (hop : op < 256) (hg : g < 8) (hfn : fn < 32) (hd : d < 256)
    (ha : a < 256) (hb : b < 256) (hm : mf < 16) (hr : rf < 16) (hz : zp < 256) (hs : sh < 4) (hn : ni < 2) (hp : sp < 2)
    (hw : wd < 8) : let x := mWord op g fn d a b mf rf zp sh ni sp wd
    wOp x = op ∧ wGuard x = g ∧ wFn x = fn ∧ wD x = d ∧ wA x = a ∧ wB x = b ∧ mMfmt x = mf ∧ mRfmt x = rf ∧ mZp x = zp ∧
    mShift x = sh ∧ mNoidx x = (ni == 1) ∧ mDevice x = (sp == 1) ∧ mW x = wd ∧ bits x 0 1 = 0 := by
  have e : ∀ {p q : Nat}, p = q → (p == 1) = (q == 1) := fun h => by rw [h]
  simp only [wOp, wGuard, wFn, wD, wA, wB, mMfmt, mRfmt, mZp, mShift, mNoidx, mDevice, mW, mWord, bits_eq]
  refine ⟨?_, ?_, ?_, ?_, ?_, ?_, ?_, ?_, ?_, ?_, e ?_, e ?_, ?_, ?_⟩ <;> omega

/-! ### A swarm that stands at a word -/

/-- R95, R122: what standing at a word says. -/
theorem stands_iff (s : State) (id slot x : Nat) (isC isBranch : Bool) : s.stands id slot x isC isBranch = true ↔
    s.cellRuns id = true ∧ (s.swarm id slot).ready = true ∧ (s.swarm id slot).pc < 0x180000 ∧
    (∀ n ∈ wordsOf (s.swarm id slot).pc 8, sget 0 (s.cell id).lmErr n = 0) ∧ (s.cell id).word (s.swarm id slot).pc = x ∧
    (s.swarm id slot).misplaced isC isBranch = false ∧ (s.swarm id slot).fetching = [] ∧ (s.swarm id slot).asyncFaults = [] ∧
    (s.swarm id slot).parkReq = none := by
  simp only [State.stands, Bool.and_eq_true, decide_eq_true_eq, List.all_eq_true, beq_iff_eq, Bool.not_eq_true', List.isEmpty_iff,
    Option.isNone_iff_eq_none, and_assoc]

/-- R288: a read of local memory without errors changes nothing. -/
theorem lmTouch_clean (s : State) (id off n : Nat) (h : ∀ w ∈ wordsOf off n, sget 0 (s.cell id).lmErr w = 0) : s.lmTouch id off n = s := by
  unfold State.lmTouch
  generalize wordsOf off n = l at h
  induction l with
  | nil => rfl
  | cons w l ih =>
    rw [List.foldl_cons, h w (List.mem_cons_self ..)]
    exact ih fun v hv => h v (List.mem_cons_of_mem _ hv)

theorem uce_clean (c : CellMem) (off n : Nat) (h : ∀ w ∈ wordsOf off n, sget 0 c.lmErr w = 0) : c.uce off n = false := by
  unfold CellMem.uce
  rw [List.any_eq_false]
  intro w hw
  rw [h w hw]
  decide

/-- R95, R122, R163: an instruction whose word passes every check takes its effect. -/
theorem issue_stands {s : State} {id slot x : Nat} {row : Nat → Bool} {isC isBranch sup : Bool} {enc : Nat → List (Nat × Bool)}
    {regs : Nat → List (Nat × Nat)} {fmt : Nat → List (Nat × Bool)} {body : State → Nat → State}
    (h : s.stands id slot x isC isBranch = true) (hrow : row x = true) (henc : firstBad (enc x) = none)
    (hsup : sup = true → slot = 0) (hregs : pastV (s.swarm id slot).V (regs x) = none) (hfmt : firstBad (fmt x) = none) :
    s.issue id slot row isC isBranch sup enc regs fmt body = body s x := by
  obtain ⟨h1, h2, h3, h4, h5, h6, h7, _, _⟩ := (stands_iff ..).mp h
  have hs : (sup && slot != 0) = false := by
    cases sup
    · rfl
    · simp [hsup rfl]
  unfold State.issue
  simp only [h1, h2, Bool.not_true, Bool.or_self, Bool.false_eq_true, if_false, Nat.not_le.mpr h3, lmTouch_clean s id _ _ h4,
    uce_clean _ _ _ h4, h5, hrow, henc, h6, hs, hregs, hfmt, h7, List.isEmpty_nil, Bool.false_and]

/-- R136, R163: a swarm that stands at a word whose encoding is bad parks with ENCODING, DETAIL the lowest bit of the first field judged
bad. -/
theorem issue_encoding {s : State} {id slot x n : Nat} {row : Nat → Bool} {isC isBranch sup : Bool} {enc : Nat → List (Nat × Bool)}
    {regs : Nat → List (Nat × Nat)} {fmt : Nat → List (Nat × Bool)} {body : State → Nat → State}
    (h : s.stands id slot x isC isBranch = true) (hrow : row x = true) (henc : firstBad (enc x) = some n) :
    s.issue id slot row isC isBranch sup enc regs fmt body = s.faultInsn id slot x 0x1001 n := by
  obtain ⟨h1, h2, h3, h4, h5, _, _, _, _⟩ := (stands_iff ..).mp h
  unfold State.issue
  simp only [h1, h2, Bool.not_true, Bool.or_self, Bool.false_eq_true, if_false, Nat.not_le.mpr h3, lmTouch_clean s id _ _ h4,
    uce_clean _ _ _ h4, h5, hrow, henc]

/-- Log entry 3: a word of another row leaves the state as it is. -/
theorem issue_otherRow {s : State} {id slot x : Nat} {row : Nat → Bool} {isC isBranch sup : Bool} {enc : Nat → List (Nat × Bool)}
    {regs : Nat → List (Nat × Nat)} {fmt : Nat → List (Nat × Bool)} {body : State → Nat → State}
    (h : s.stands id slot x isC isBranch = true) (hrow : row x = false) :
    s.issue id slot row isC isBranch sup enc regs fmt body = s := by
  obtain ⟨h1, h2, h3, h4, h5, _, _, _, _⟩ := (stands_iff ..).mp h
  unfold State.issue
  simp only [h1, h2, Bool.not_true, Bool.or_self, Bool.false_eq_true, if_false, Nat.not_le.mpr h3, lmTouch_clean s id _ _ h4,
    uce_clean _ _ _ h4, h5, hrow, Bool.not_false, if_true]

theorem firstBad_nil : firstBad [] = none := rfl
theorem firstBad_cons (b : Nat) (l : List (Nat × Bool)) : firstBad ((b, true) :: l) = firstBad l := rfl
theorem firstBad_none_iff (l : List (Nat × Bool)) : firstBad l = none ↔ ∀ e ∈ l, e.2 = true := by
  induction l with
  | nil => simp [firstBad]
  | cons e l ih =>
    obtain ⟨b, ok⟩ := e
    cases ok <;> simp [firstBad, ih]
theorem pastV_none_iff (v : Nat) (l : List (Nat × Nat)) : pastV v l = none ↔ ∀ e ∈ l, e.1 + e.2 ≤ v := by
  induction l with
  | nil => simp [pastV]
  | cons e l ih =>
    obtain ⟨n, k⟩ := e
    simp only [pastV, List.mem_cons, forall_eq_or_imp]
    split
    · rename_i h
      exact ⟨fun e => absurd e (by simp), fun e => absurd e.1 (by omega)⟩
    · rename_i h
      rw [ih]
      exact ⟨fun e => ⟨by omega, e⟩, fun e => e.2⟩

/-! ### The commit -/

/-- R125, R126: where no asynchronous fault and no requested park waits, nothing is due at the boundary. -/
theorem boundary_quiet (s : State) (id slot : Nat) (h1 : (s.swarm id slot).asyncFaults = []) (h2 : (s.swarm id slot).parkReq = none) :
    s.boundary id slot = s := by
  unfold State.boundary
  simp only [h1, h2, firstFault, ite_self]

theorem advance_asyncFaults (w : Swarm) (br : Option (Bool × Nat)) : (w.advance br).asyncFaults = w.asyncFaults := by
  unfold Swarm.advance
  cases br <;> dsimp only <;> split <;> try rfl
  all_goals split <;> rfl

theorem advance_parkReq (w : Swarm) (br : Option (Bool × Nat)) : (w.advance br).parkReq = w.parkReq := by
  unfold Swarm.advance
  cases br <;> dsimp only <;> split <;> try rfl
  all_goals split <;> rfl

theorem CellMem.modSwarm_modSwarm (c : CellMem) (k : Nat) (f g : Swarm → Swarm) :
    (c.modSwarm k f).modSwarm k g = c.modSwarm k (g ∘ f) := by
  show { c with swarms := smod {} (smod {} c.swarms k f) k g } = { c with swarms := smod {} c.swarms k (g ∘ f) }
  rw [smod_smod_same]

theorem modSwarm_modSwarm (s : State) (id k : Nat) (f g : Swarm → Swarm) :
    (s.modSwarm id k f).modSwarm id k g = s.modSwarm id k (g ∘ f) := by
  show { s with cells := smod {} (smod {} s.cells (s.phys id) fun c => c.modSwarm k f) (s.phys id) fun c => c.modSwarm k g } =
    { s with cells := smod {} s.cells (s.phys id) fun c => c.modSwarm k (g ∘ f) }
  rw [smod_smod_same]
  congr 2
  funext c
  exact CellMem.modSwarm_modSwarm c k f g

/-- R120: the commit of an instruction that changed its swarm alone, where nothing is due at the boundary. -/
theorem commit_modSwarm (s : State) (id k : Nat) (f : Swarm → Swarm) (h1 : (f (s.swarm id k)).asyncFaults = [])
    (h2 : (f (s.swarm id k)).parkReq = none) :
    (s.modSwarm id k f).commit id k = s.modSwarm id k fun w => (f w).advance none := by
  unfold State.commit
  rw [modSwarm_modSwarm]
  apply boundary_quiet
  · rw [swarm_modSwarm_same]
    exact (advance_asyncFaults _ none).trans h1
  · rw [swarm_modSwarm_same]
    exact (advance_parkReq _ none).trans h2

/-- The effect of an instruction that only writes its swarm. -/
theorem put_quiet (s : State) (id k : Nat) (f : Swarm → Swarm) (h1 : (f (s.swarm id k)).asyncFaults = [])
    (h2 : (f (s.swarm id k)).parkReq = none) : s.put id k f = s.modSwarm id k fun w => (f w).advance none :=
  commit_modSwarm s id k f h1 h2

/-- R120: a branch that is taken or not, where nothing is due at the boundary. -/
theorem commitBranch_quiet (s : State) (id k : Nat) (taken : Bool) (target : Nat) (h1 : (s.swarm id k).asyncFaults = [])
    (h2 : (s.swarm id k).parkReq = none) :
    s.commitBranch id k taken target = s.modSwarm id k fun w => w.advance (some (taken, target)) := by
  unfold State.commitBranch
  apply boundary_quiet
  · rw [swarm_modSwarm_same, advance_asyncFaults, h1]
  · rw [swarm_modSwarm_same, advance_parkReq, h2]

/-! ### Lanes -/

theorem mapLanes_fields (w : Swarm) (act : List Nat) (n : Nat) (f : Nat → Nat) :
    w.mapLanes act n f = { w with v := (w.mapLanes act n f).v } := by
  unfold Swarm.mapLanes
  induction act generalizing w with
  | nil => rfl
  | cons i l ih => rw [List.foldl_cons, ih]; rfl

/-- R117: the lanes listed take their values, and every other lane of every register stays. -/
theorem vreg_mapLanes (w : Swarm) (act : List Nat) (n : Nat) (f : Nat → Nat) (m i : Nat) (ha : ∀ j ∈ act, j < 32) (hi : i < 32) :
    (w.mapLanes act n f).vreg m i = if m = n ∧ i ∈ act then f i % 2 ^ 32 else w.vreg m i := by
  unfold Swarm.mapLanes
  induction act generalizing w with
  | nil => simp
  | cons j l ih =>
    rw [List.foldl_cons, ih _ fun k hk => ha k (List.mem_cons_of_mem _ hk), Swarm.vreg_setV _ _ _ _ _ _ (ha j (List.mem_cons_self ..)) hi]
    by_cases hm : m = n
    · by_cases hl : i ∈ l
      · simp [hm, hl]
      · by_cases hj : i = j
        · subst hj; simp [hm, hl]
        · simp [hm, hl, hj]
    · simp [hm]

theorem mem_active (w : Swarm) (x i : Nat) : i ∈ w.active x ↔ i < 32 ∧ bitAt (w.preg (wGuard x)) i = true := by
  simp [Swarm.active]

end Sys2Proof.Machine
end

