-- ==== Sys2Proof/Laws/Effects.lean ====
section
/-! SUPPORT. The effect of an instruction that writes one lane register, one uniform register, one mask or one predicate of its swarm,
in the terms of Safety. -/
namespace Sys2Proof.Machine

theorem modSwarm_const (s : State) (id k : Nat) (f : Swarm → Swarm) : s.modSwarm id k f = s.modSwarm id k fun _ => f (s.swarm id k) := by
  unfold State.modSwarm State.modCell smod CellMem.modSwarm smod
  rfl

theorem keepsBytes_modSwarm (s : State) (id k : Nat) (f : Swarm → Swarm) : KeepsBytes s (s.modSwarm id k f) :=
  ⟨fun _ => rfl, fun _ => rfl, fun _ _ => lmByte_modSwarm ..⟩

theorem onlySwarm_modSwarm (s : State) (id k : Nat) (f : Swarm → Swarm) : OnlySwarm s (s.modSwarm id k f) id k :=
  ⟨by rw [swarm_modSwarm_same, ← modSwarm_const], keepsBytes_modSwarm ..⟩

/-! ### The offset moves on whatever the registers hold -/

theorem advance_v (w : Swarm) (br : Option (Bool × Nat)) (x : Sparse (BitVec 32)) :
    ({ w with v := x } : Swarm).advance br = { w.advance br with v := x } := by
  unfold Swarm.advance
  cases br <;> dsimp only
  all_goals
    split
    · rfl
    · split <;> rfl

theorem advance_u (w : Swarm) (br : Option (Bool × Nat)) (x : Sparse Word) :
    ({ w with u := x } : Swarm).advance br = { w.advance br with u := x } := by
  unfold Swarm.advance
  cases br <;> dsimp only
  all_goals
    split
    · rfl
    · split <;> rfl

theorem advance_p (w : Swarm) (br : Option (Bool × Nat)) (x : Sparse (BitVec 32)) :
    ({ w with p := x } : Swarm).advance br = { w.advance br with p := x } := by
  unfold Swarm.advance
  cases br <;> dsimp only
  all_goals
    split
    · rfl
    · split <;> rfl

theorem advance_up (w : Swarm) (br : Option (Bool × Nat)) (x : BitVec 4) :
    ({ w with up := x } : Swarm).advance br = { w.advance br with up := x } := by
  unfold Swarm.advance
  cases br <;> dsimp only
  all_goals
    split
    · rfl
    · split <;> rfl

/-- What a change of the lane registers alone leads to. -/
theorem put_v (s : State) (id k : Nat) (f : Swarm → Sparse (BitVec 32)) (h1 : (s.swarm id k).asyncFaults = [])
    (h2 : (s.swarm id k).parkReq = none) :
    let t := s.put id k fun w => { w with v := f w }
    OnlySwarm s t id k ∧ t.swarm id k = { (s.swarm id k).advance none with v := f (s.swarm id k) } := by
  intro t
  have e : t = s.modSwarm id k fun w => ({ w with v := f w } : Swarm).advance none := put_quiet s id k _ h1 h2
  refine ⟨e ▸ onlySwarm_modSwarm .., ?_⟩
  rw [e, swarm_modSwarm_same]
  exact advance_v _ none _

theorem put_u (s : State) (id k : Nat) (f : Swarm → Sparse Word) (h1 : (s.swarm id k).asyncFaults = [])
    (h2 : (s.swarm id k).parkReq = none) :
    let t := s.put id k fun w => { w with u := f w }
    OnlySwarm s t id k ∧ t.swarm id k = { (s.swarm id k).advance none with u := f (s.swarm id k) } := by
  intro t
  have e : t = s.modSwarm id k fun w => ({ w with u := f w } : Swarm).advance none := put_quiet s id k _ h1 h2
  refine ⟨e ▸ onlySwarm_modSwarm .., ?_⟩
  rw [e, swarm_modSwarm_same]
  exact advance_u _ none _

theorem put_p (s : State) (id k : Nat) (f : Swarm → Sparse (BitVec 32)) (h1 : (s.swarm id k).asyncFaults = [])
    (h2 : (s.swarm id k).parkReq = none) :
    let t := s.put id k fun w => { w with p := f w }
    OnlySwarm s t id k ∧ t.swarm id k = { (s.swarm id k).advance none with p := f (s.swarm id k) } := by
  intro t
  have e : t = s.modSwarm id k fun w => ({ w with p := f w } : Swarm).advance none := put_quiet s id k _ h1 h2
  refine ⟨e ▸ onlySwarm_modSwarm .., ?_⟩
  rw [e, swarm_modSwarm_same]
  exact advance_p _ none _

theorem put_up (s : State) (id k : Nat) (f : Swarm → BitVec 4) (h1 : (s.swarm id k).asyncFaults = [])
    (h2 : (s.swarm id k).parkReq = none) :
    let t := s.put id k fun w => { w with up := f w }
    OnlySwarm s t id k ∧ t.swarm id k = { (s.swarm id k).advance none with up := f (s.swarm id k) } := by
  intro t
  have e : t = s.modSwarm id k fun w => ({ w with up := f w } : Swarm).advance none := put_quiet s id k _ h1 h2
  refine ⟨e ▸ onlySwarm_modSwarm .., ?_⟩
  rw [e, swarm_modSwarm_same]
  exact advance_up _ none _

/-- R117, R120: an instruction that writes a lane register in its active lanes. -/
theorem put_mapLanes (s : State) (id k x d : Nat) (f : Swarm → Nat → Nat) (h1 : (s.swarm id k).asyncFaults = [])
    (h2 : (s.swarm id k).parkReq = none) :
    WritesLanes s (s.put id k fun w => w.mapLanes (w.active x) d (f w)) id k (wGuard x) d (f (s.swarm id k)) := by
  have e : (fun w : Swarm => w.mapLanes (w.active x) d (f w)) = fun w => { w with v := (w.mapLanes (w.active x) d (f w)).v } :=
    funext fun w => mapLanes_fields ..
  obtain ⟨a, b⟩ := put_v s id k (fun w => (w.mapLanes (w.active x) d (f w)).v) h1 h2
  rw [e]
  refine ⟨a, ?_, fun n i hi => ?_⟩
  · rw [b]
  · rw [b]
    show ((s.swarm id k).mapLanes ((s.swarm id k).active x) d (f (s.swarm id k))).vreg n i = _
    rw [vreg_mapLanes _ _ _ _ _ _ (fun j hj => ((mem_active _ _ _).mp hj).1) hi]
    simp only [mem_active, hi, true_and]

/-- R120: an instruction that writes a uniform register. -/
theorem put_setU (s : State) (id k d : Nat) (f : Swarm → Nat) (h1 : (s.swarm id k).asyncFaults = [])
    (h2 : (s.swarm id k).parkReq = none) : WritesUniform s (s.put id k fun w => w.setU d (f w)) id k d (f (s.swarm id k)) := by
  have key : ∀ F : Swarm → Swarm, F = (fun w => { w with u := (w.setU d (f w)).u }) →
      WritesUniform s (s.put id k F) id k d (f (s.swarm id k)) := by
    rintro F rfl
    obtain ⟨a, b⟩ := put_u s id k (fun w => (w.setU d (f w)).u) h1 h2
    refine ⟨a, by rw [b], fun n => ?_⟩
    rw [b]
    exact Swarm.ureg_setU ..
  exact key _ rfl

/-- R120: an instruction that writes a uniform predicate. -/
theorem put_setUp (s : State) (id k d : Nat) (f : Swarm → Bool) (hd : d < 4) (h1 : (s.swarm id k).asyncFaults = [])
    (h2 : (s.swarm id k).parkReq = none) : WritesPred s (s.put id k fun w => w.setUp d (f w)) id k d (f (s.swarm id k)) := by
  have key : ∀ F : Swarm → Swarm, F = (fun w => { w with up := (w.setUp d (f w)).up }) →
      WritesPred s (s.put id k F) id k d (f (s.swarm id k)) := by
    rintro F rfl
    obtain ⟨a, b⟩ := put_up s id k (fun w => (w.setUp d (f w)).up) h1 h2
    refine ⟨a, by rw [b], fun n hn => ?_⟩
    rw [b]
    exact Swarm.upred_setUp _ _ _ _ hd hn
  exact key _ rfl

/-- R120: an instruction that writes a mask. -/
theorem put_setP (s : State) (id k d : Nat) (f : Swarm → Nat) (h1 : (s.swarm id k).asyncFaults = [])
    (h2 : (s.swarm id k).parkReq = none) :
    WritesMask s (s.put id k fun w => w.setP d (f w)) id k d fun i => bitAt (f (s.swarm id k)) i := by
  have key : ∀ F : Swarm → Swarm, F = (fun w => { w with p := (w.setP d (f w)).p }) →
      WritesMask s (s.put id k F) id k d fun i => bitAt (f (s.swarm id k)) i := by
    rintro F rfl
    obtain ⟨a, b⟩ := put_p s id k (fun w => (w.setP d (f w)).p) h1 h2
    refine ⟨a, by rw [b], fun n i hi => ?_⟩
    rw [b]
    show bitAt (((s.swarm id k).setP d (f (s.swarm id k))).preg n) i = _
    rw [Swarm.preg_setP]
    split
    · rw [bitAt_eq, bitAt_eq, Nat.testBit_mod_two_pow]
      simp [hi]
    · rfl
  exact key _ rfl

end Sys2Proof.Machine
end

