-- ==== Sys2Proof/Laws/Keeps.lean ====
section
/-! SUPPORT. The relation that every operation of the machine keeps: the waiting commands stay, the memories keep their canonical form,
and no fuse that is set becomes clear. -/
namespace Sys2Proof.Machine

/-- From `s` to `t` the waiting commands stay as they are, the memories keep their canonical form, and every fuse set stays set. -/
structure Keeps (s t : State) : Prop where
  pending : t.pending = s.pending
  mem : s.memWf = true → t.memWf = true
  fuses : Fuses.within s.pwr.fuses t.pwr.fuses = true

/-- The local memory of every cell, and the list of the cells, have their canonical form. -/
def cellsWf (l : Sparse CellMem) : Bool := swf {} l && l.all fun e => swf 0 e.2.lm

theorem Fuses.within_refl (f : Fuses) : Fuses.within f f = true := by
  cases f; simp [Fuses.within]

theorem and_within {n : Nat} {a b c : BitVec n} (h : a &&& b = a) (k : b &&& c = b) : a &&& c = a := by
  rw [← h, BitVec.and_assoc, k]

theorem Fuses.within_trans {f g h : Fuses} (a : Fuses.within f g = true) (b : Fuses.within g h = true) : Fuses.within f h = true := by
  simp only [Fuses.within, Bool.and_eq_true, Bool.or_eq_true, Bool.not_eq_true', beq_iff_eq] at a b ⊢
  refine ⟨⟨?_, and_within a.1.2 b.1.2⟩, and_within a.2 b.2⟩
  rcases a.1.1 with h | h
  · exact .inl h
  · rcases b.1.1 with k | k
    · rw [h] at k; exact absurd k (by decide)
    · exact .inr k

theorem Keeps.refl (s : State) : Keeps s s := ⟨rfl, id, Fuses.within_refl _⟩

theorem Keeps.trans {s t u : State} (a : Keeps s t) (b : Keeps t u) : Keeps s u :=
  ⟨b.pending.trans a.pending, fun h => b.mem (a.mem h), Fuses.within_trans a.fuses b.fuses⟩

theorem memWf_iff (s : State) : s.memWf = true ↔
    swf 0 s.regs = true ∧ swf 0 s.hbm = true ∧ swf 0 s.host.mem = true ∧ cellsWf s.cells = true := by
  simp only [State.memWf, cellsWf, Bool.and_eq_true, and_assoc]

/-- A new value of some fields of the state keeps what it must if the four memories keep their form and the fuses stay set. -/
theorem Keeps.update {z s t : State} (h : Keeps z s) (hp : t.pending = s.pending)
    (hr : swf 0 s.regs = true → swf 0 t.regs = true) (hh : swf 0 s.hbm = true → swf 0 t.hbm = true)
    (hm : swf 0 s.host.mem = true → swf 0 t.host.mem = true) (hc : cellsWf s.cells = true → cellsWf t.cells = true)
    (hf : Fuses.within s.pwr.fuses t.pwr.fuses = true) : Keeps z t :=
  h.trans ⟨hp, fun w => by
    rw [memWf_iff] at w ⊢
    exact ⟨hr w.1, hh w.2.1, hm w.2.2.1, hc w.2.2.2⟩, hf⟩

/-- A new value of the fields that hold no memory and no fuse. -/
theorem Keeps.frame {z s : State} (h : Keeps z s) {free : Nat} {counter : Word} {hbmErr : Sparse Nat} {pkts : List Packet} {pwr : Power}
    {img : Img} {gov : Gov} {time : Time} {ing : Sparse Ing} {cam : Sparse Cam} {wgl : Sparse Wgl} {disp : Sparse Disp}
    {sealer : SealEngine} {hrd : Hoard} {safe : Sparse SafeFn} {host : HostIf} {stackScrub : Sparse (Nat × Bool)}
    (hf : pwr.fuses = s.pwr.fuses) (hm : host.mem = s.host.mem) :
    Keeps z ⟨s.pending, free, counter, s.regs, s.cells, s.hbm, hbmErr, pkts, pwr, img, gov, time, ing, cam, wgl, disp, sealer, hrd,
      safe, host, stackScrub⟩ :=
  h.update rfl id id (fun w => by rw [hm]; exact w) id (by rw [hf]; exact Fuses.within_refl _)

/-! ### Folds, options and outcomes -/

theorem Keeps.foldl {α : Type} {z : State} {l : List α} {f : State → α → State} (hf : ∀ s x, Keeps z s → Keeps z (f s x)) :
    ∀ {s : State}, Keeps z s → Keeps z (l.foldl f s) := by
  induction l with
  | nil => exact id
  | cons x l ih => exact fun h => ih (hf _ x h)

theorem Keeps.foldl_fst {α β : Type} {z : State} {l : List α} {f : State × β → α → State × β}
    (hf : ∀ p x, Keeps z p.1 → Keeps z (f p x).1) : ∀ {p : State × β}, Keeps z p.1 → Keeps z (l.foldl f p).1 := by
  induction l with
  | nil => exact id
  | cons x l ih => exact fun h => ih (hf _ x h)

theorem Keeps.foldl_snd {α β : Type} {z : State} {l : List α} {f : β × State → α → β × State}
    (hf : ∀ p x, Keeps z p.2 → Keeps z (f p x).2) : ∀ {p : β × State}, Keeps z p.2 → Keeps z (l.foldl f p).2 := by
  induction l with
  | nil => exact id
  | cons x l ih => exact fun h => ih (hf _ x h)

/-- A fold whose accumulator holds a state. -/
theorem Keeps.foldl_by {α β : Type} {z : State} {l : List α} {f : β → α → β} (π : β → State)
    (hf : ∀ b x, Keeps z (π b) → Keeps z (π (f b x))) : ∀ {b : β}, Keeps z (π b) → Keeps z (π (l.foldl f b)) := by
  induction l with
  | nil => exact fun h => h
  | cons x l ih => exact fun h => ih (hf _ x h)

/-- The state in an option, if there is one. -/
def KeepsOpt (z : State) (o : Option State) : Prop := ∀ t, o = some t → Keeps z t

theorem KeepsOpt.none {z : State} : KeepsOpt z none := fun _ h => by cases h

theorem KeepsOpt.some {z s : State} (h : Keeps z s) : KeepsOpt z (some s) := fun _ e => by cases e; exact h

theorem KeepsOpt.map {z : State} {o : Option State} {f : State → State} (hf : ∀ t, Keeps z t → Keeps z (f t)) (h : KeepsOpt z o) :
    KeepsOpt z (o.map f) := fun t e => by
  cases o with
  | none => cases e
  | some s => cases e; exact hf s (h s rfl)

theorem KeepsOpt.of_map {α : Type} {z : State} {o : Option α} {f : α → State} (hf : ∀ x, Keeps z (f x)) : KeepsOpt z (o.map f) :=
  fun t e => by
  cases o with
  | none => cases e
  | some x => cases e; exact hf x

/-- The state an operation answers, if it answers one. -/
def KeepsEx {α : Type} (z : State) (o : Except α State) : Prop := ∀ t, o = .ok t → Keeps z t

theorem KeepsEx.error {α : Type} {z : State} {e : α} : KeepsEx z (.error e : Except α State) := fun _ h => by cases h

theorem KeepsEx.ok {α : Type} {z s : State} (h : Keeps z s) : KeepsEx z (.ok s : Except α State) := fun _ e => by cases e; exact h

theorem KeepsEx.bind {α β : Type} {z : State} {o : Except α β} {f : β → Except α State} (hf : ∀ x, KeepsEx z (f x)) :
    KeepsEx z (o >>= f) := fun t e => by
  cases o with
  | error a => cases e
  | ok x => exact hf x t e

/-- The next state of an outcome, if it is one. -/
def KeepsOut (z : State) (o : Host.Outcome State Fault Refusal) : Prop := ∀ t, o = .next t → Keeps z t

theorem KeepsOut.next {z s : State} (h : Keeps z s) : KeepsOut z (.next s) := fun _ e => by cases e; exact h

/-! ### A state taken out of a pair -/

theorem Keeps.of_fst {α : Type} {z y : State} {a : α} {p : State × α} (e : p = (y, a)) (h : Keeps z p.1) : Keeps z y := by
  subst e; exact h

theorem Keeps.of_snd {α : Type} {z y : State} {a : α} {p : α × State} (e : p = (a, y)) (h : Keeps z p.2) : Keeps z y := by
  subst e; exact h

theorem Keeps.of_fst_s {α : Type} {z : State} {y : XferSt} {a : α} {p : XferSt × α} (e : p = (y, a)) (h : Keeps z p.1.s) : Keeps z y.s := by
  subst e; exact h

theorem Keeps.of_mid {α β : Type} {z y : State} {a : α} {b : β} {p : α × State × β} (e : p = (a, y, b)) (h : Keeps z p.2.1) :
    Keeps z y := by
  subst e; exact h

theorem Keeps.of_last {α β : Type} {z y : State} {a : α} {b : β} {p : α × β × State} (e : p = (a, b, y)) (h : Keeps z p.2.2) :
    Keeps z y := by
  subst e; exact h

theorem Keeps.of_fourth {α β γ : Type} {z y : State} {a : α} {b : β} {c : γ} {p : α × β × γ × State} (e : p = (a, b, c, y))
    (h : Keeps z p.2.2.2) : Keeps z y := by
  subst e; exact h

theorem Keeps.of_opt {z y : State} {o : Option State} (e : o = some y) (h : KeepsOpt z o) : Keeps z y := h y e

theorem Keeps.of_ok {α : Type} {z y : State} {o : Except α State} (e : o = .ok y) (h : KeepsEx z o) : Keeps z y := h y e

/-! ### The memories -/

theorem cellsWf_smod {l : Sparse CellMem} {p : Nat} {f : CellMem → CellMem} (hf : ∀ c, swf 0 c.lm = true → swf 0 (f c).lm = true)
    (h : cellsWf l = true) : cellsWf (smod {} l p f) = true := by
  simp only [cellsWf, Bool.and_eq_true, List.all_eq_true] at h ⊢
  refine ⟨swf_smod _ l p f h.1, fun e he => ?_⟩
  have key : swf 0 (sget {} l p).lm = true := by
    clear he
    have hl := h.2
    generalize l = m at hl
    induction m with
    | nil => rfl
    | cons x m ih =>
      simp only [sget]
      split
      · exact hl x (List.mem_cons_self ..)
      · exact ih fun e he => hl e (List.mem_cons_of_mem _ he)
  unfold smod sset at he
  split at he
  · exact h.2 e ((sdel_sublist l p).subset he)
  · rcases (mem_sins _ _ _ _).mp he with rfl | he
    · exact hf _ key
    · exact h.2 e ((sdel_sublist l p).subset he)

theorem State.wr_keeps {z s : State} {f v} (h : Keeps z s) : Keeps z (s.wr f v) :=
  h.update rfl (swf_sset _ _ _ _) id id id (Fuses.within_refl _)

theorem State.modCell_keeps {z s : State} {n} {f : CellMem → CellMem} (hf : ∀ c, swf 0 c.lm = true → swf 0 (f c).lm = true)
    (h : Keeps z s) : Keeps z (s.modCell n f) :=
  h.update rfl (fun w => w) (fun w => w) (fun w => w) (cellsWf_smod hf) (Fuses.within_refl _)

theorem State.hbmWrite_keeps {z s : State} {a bs} (h : Keeps z s) : Keeps z (s.hbmWrite a bs) :=
  h.update rfl id (swf_ssetN _ _ _ _) id id (Fuses.within_refl _)

theorem State.modPwr_keeps {z s : State} {f : Power → Power} (hf : ∀ p, (f p).fuses = p.fuses) (h : Keeps z s) :
    Keeps z (s.modPwr f) :=
  h.update rfl id id id id (by show Fuses.within _ (f s.pwr).fuses = true; rw [hf]; exact Fuses.within_refl _)

theorem State.modFuses_keeps {z s : State} {f : Fuses → Fuses} (hf : ∀ p, Fuses.within p (f p) = true) (h : Keeps z s) :
    Keeps z (s.modFuses f) :=
  h.update rfl id id id id (hf _)

theorem swf_foldl_sset {α β : Type} [DecidableEq α] (d : α) (l : Sparse α) (es : List β) (k : β → Nat) (v : β → α)
    (w : swf d l = true) : swf d (es.foldl (fun l e => sset d l (k e) (v e)) l) = true := by
  induction es generalizing l with
  | nil => exact w
  | cons e es ih => exact ih _ (swf_sset d l _ _ w)

theorem swf_foldl_sdel {α : Type} [DecidableEq α] (d : α) (l : Sparse α) (ks : List Nat) (w : swf d l = true) :
    swf d (ks.foldl sdel l) = true := by
  induction ks generalizing l with
  | nil => exact w
  | cons k ks ih => exact ih _ (swf_sdel d l k w)

theorem cellsWf_sublist {l m : Sparse CellMem} (h : m.Sublist l) (w : cellsWf l = true) : cellsWf m = true := by
  simp only [cellsWf, Bool.and_eq_true, List.all_eq_true] at w ⊢
  exact ⟨swf_sublist _ h w.1, fun e he => w.2 e (h.subset he)⟩

theorem foldl_sdel_sublist {α : Type} (ks : List Nat) (l : Sparse α) : (ks.foldl sdel l).Sublist l := by
  induction ks generalizing l with
  | nil => exact .refl l
  | cons k ks ih => exact (ih _).trans (sdel_sublist l k)

theorem within_or {n : Nat} (a b : BitVec n) : a &&& (a ||| b) = a := by
  ext i; simp +contextual

end Sys2Proof.Machine
end

