-- ==== Sys2Proof/Laws/KeepsBase.lean ====
section
/-! SUPPORT. Keeps of the operations that the blocks share: registers, events, packets, chains, the dispatcher's and the governor's basic ones. -/
namespace Sys2Proof.Machine

theorem State.stopLaunch_keeps {z s : State} {ch k : Nat} (h : Keeps z s) : Keeps z (State.stopLaunch s ch k) := by
  unfold State.stopLaunch
  repeat' first
    | with_reducible assumption
    | exact fun _ hc => by simpa using hc
    | with_reducible refine State.modCell_keeps ?_ ?_
    | with_reducible refine Keeps.foldl (fun _ _ _ => ?_) ?_

theorem State.bump_keeps {z s : State} {f : RegField} {n : Nat} (h : Keeps z s) : Keeps z (State.bump s f n) := by
  unfold State.bump
  repeat' first
    | with_reducible assumption
    | with_reducible refine State.wr_keeps ?_

theorem State.setBit_keeps {z s : State} {f : RegField} {i : Nat} (h : Keeps z s) : Keeps z (State.setBit s f i) := by
  unfold State.setBit
  repeat' first
    | with_reducible assumption
    | with_reducible refine State.wr_keeps ?_

theorem State.signal_keeps {z s : State} {v : Nat} (h : Keeps z s) : Keeps z (State.signal s v) := by
  unfold State.signal
  repeat' first
    | with_reducible assumption
    | (extract_lets +onlyGivenNames y; have hy : HostIf := y; clear hy; subst y)
    | split
    | with_reducible refine Keeps.frame ?_ rfl rfl

theorem State.irq_keeps {z s : State} {b : Nat} (h : Keeps z s) : Keeps z (State.irq s b) := by
  unfold State.irq
  repeat' first
    | with_reducible assumption
    | with_reducible refine State.setBit_keeps ?_
    | with_reducible refine State.signal_keeps ?_
    | (extract_lets +onlyGivenNames y; have hy : Keeps z y := ?_; clear_value y; rotate_left; subst y)
    | split

theorem State.evt_keeps {z s : State} {code n : Nat} (h : Keeps z s) : Keeps z (State.evt s code n) := by
  unfold State.evt
  repeat' first
    | with_reducible assumption
    | with_reducible refine State.setBit_keeps ?_
    | with_reducible refine State.irq_keeps ?_
    | (extract_lets +onlyGivenNames y; have hy : Keeps z y := ?_; clear_value y; rotate_left; subst y)
    | split

theorem State.dEvt_keeps {z s : State} {ch code : Nat} (h : Keeps z s) : Keeps z (State.dEvt s ch code) := by
  unfold State.dEvt
  repeat' first
    | with_reducible assumption
    | with_reducible refine State.bump_keeps ?_
    | with_reducible refine State.evt_keeps ?_
    | split

theorem State.modFn_keeps {z s : State} {f : Nat} {g : SafeFn → SafeFn} (h : Keeps z s) : Keeps z (State.modFn s f g) := by
  unfold State.modFn
  repeat' first
    | with_reducible assumption
    | with_reducible refine Keeps.frame ?_ rfl rfl

theorem State.modWgl_keeps {z s : State} {q : Nat} {f : Wgl → Wgl} (h : Keeps z s) : Keeps z (State.modWgl s q f) := by
  unfold State.modWgl
  repeat' first
    | with_reducible assumption
    | with_reducible refine Keeps.frame ?_ rfl rfl

theorem State.wglNextId_keeps {z s : State} {q stream : Nat} (h : Keeps z s) : Keeps z (State.wglNextId s q stream).2 := by
  unfold State.wglNextId
  repeat' first
    | with_reducible assumption
    | with_reducible refine State.modWgl_keeps ?_

theorem State.wglMake_keeps {z s : State} {q stream mtype tag : Nat} {arg payload : Bytes} (h : Keeps z s) : Keeps z (State.wglMake s q stream mtype tag arg payload).2 := by
  unfold State.wglMake
  repeat' first
    | with_reducible assumption
    | with_reducible refine State.wglNextId_keeps ?_

theorem State.wglPump_keeps {z s : State} {q : Nat} (h : Keeps z s) : Keeps z (State.wglPump s q) := by
  unfold State.wglPump
  repeat' first
    | with_reducible assumption
    | with_reducible refine State.modWgl_keeps ?_
    | split

theorem State.wglStore_keeps {z s : State} {q : Nat} {bytes : Bytes} {reserve : Bool} (h : Keeps z s) : Keeps z (State.wglStore s q bytes reserve) := by
  unfold State.wglStore
  repeat' first
    | with_reducible assumption
    | with_reducible refine State.wglPump_keeps ?_
    | with_reducible refine State.modWgl_keeps ?_

theorem State.wglSend_keeps {z s : State} {q stream mtype tag : Nat} {arg payload : Bytes} (h : Keeps z s) : Keeps z (State.wglSend s q stream mtype tag arg payload) := by
  unfold State.wglSend
  repeat' first
    | with_reducible assumption
    | with_reducible refine State.wglMake_keeps ?_
    | with_reducible refine State.wglStore_keeps ?_

theorem State.mirror_keeps {z s : State} {f kind : Nat} {payload : Bytes} (h : Keeps z s) : Keeps z (State.mirror s f kind payload) := by
  unfold State.mirror
  repeat' first
    | with_reducible assumption
    | with_reducible refine State.wglSend_keeps ?_

theorem State.enter_keeps {z s : State} {f side : Nat} {e : DelayEntry} (h : Keeps z s) : Keeps z (State.enter s f side e) := by
  unfold State.enter
  repeat' first
    | with_reducible assumption
    | with_reducible refine State.modFn_keeps ?_
    | with_reducible refine State.mirror_keeps ?_
    | (extract_lets +onlyGivenNames y; have hy : Keeps z y := ?_; clear_value y; rotate_left; subst y)
    | (extract_lets +onlyGivenNames y; clear_value y)
    | split

theorem State.makeEntry_keeps {z s : State} {f ch cls outcome : Nat} {key : Bytes} {fault : Nat} {compared input message : Bytes} {ctx : Nat} (h : Keeps z s) : Keeps z (State.makeEntry s f ch cls outcome key fault compared input message ctx) := by
  unfold State.makeEntry
  repeat' first
    | with_reducible assumption
    | with_reducible refine State.enter_keeps ?_
    | with_reducible refine State.modFn_keeps ?_
    | (extract_lets +onlyGivenNames y; clear_value y)
    | split

theorem State.abortEntry_keeps {z s : State} {ch k outcome fault : Nat} {t : Trigger} (h : Keeps z s) : Keeps z (State.abortEntry s ch k outcome fault t) := by
  unfold State.abortEntry
  repeat' first
    | with_reducible assumption
    | with_reducible refine State.makeEntry_keeps ?_
    | split

theorem State.replayEnd_keeps {z s : State} {cause : Nat} (h : Keeps z s) : Keeps z (State.replayEnd s cause) := by
  unfold State.replayEnd
  repeat' first
    | with_reducible assumption
    | with_reducible refine State.irq_keeps ?_
    | with_reducible refine State.wr_keeps ?_

theorem State.replayCompare_keeps {z s : State} {ch : Nat} {header sealBytes : Bytes} (h : Keeps z s) : Keeps z (State.replayCompare s ch header sealBytes) := by
  unfold State.replayCompare
  repeat' first
    | with_reducible assumption
    | with_reducible refine State.bump_keeps ?_
    | with_reducible refine State.wr_keeps ?_
    | with_reducible refine State.replayEnd_keeps ?_
    | (extract_lets +onlyGivenNames y; have hy : Keeps z y := ?_; clear_value y; rotate_left; subst y)
    | (extract_lets +onlyGivenNames y; clear_value y)
    | split
    | with_reducible refine Keeps.frame ?_ rfl rfl

theorem State.incr_keeps {z s : State} {f : RegField} {n : Nat} (h : Keeps z s) : Keeps z (State.incr s f n) := by
  unfold State.incr
  repeat' first
    | with_reducible assumption
    | with_reducible refine State.wr_keeps ?_

theorem State.takeSeq_keeps {z s : State} (h : Keeps z s) : Keeps z (State.takeSeq s).2 := by
  unfold State.takeSeq
  repeat' first
    | with_reducible assumption
    | with_reducible refine State.incr_keeps ?_

theorem State.hrdHalt_keeps {z s : State} (h : Keeps z s) : Keeps z (State.hrdHalt s) := by
  unfold State.hrdHalt
  repeat' first
    | with_reducible assumption
    | with_reducible refine State.takeSeq_keeps ?_
    | with_reducible refine State.evt_keeps ?_
    | with_reducible refine State.bump_keeps ?_
    | with_reducible refine State.wr_keeps ?_

theorem State.stage_keeps {z s : State} {r : Staged} (h : Keeps z s) : Keeps z (State.stage s r) := by
  unfold State.stage
  repeat' first
    | with_reducible assumption
    | (extract_lets +onlyGivenNames y; have hy : HostIf := y; clear hy; subst y)
    | with_reducible refine Keeps.frame ?_ rfl rfl

theorem State.ringPut_keeps {z s : State} {bs : Bytes} (h : Keeps z s) : Keeps z (State.ringPut s bs) := by
  unfold State.ringPut
  repeat' first
    | with_reducible assumption
    | with_reducible refine State.wr_keeps ?_
    | with_reducible refine State.hbmWrite_keeps ?_
    | (extract_lets +onlyGivenNames y; clear_value y)
    | split
    | with_reducible refine Keeps.frame ?_ rfl rfl

theorem State.hrdAppend_keeps {z s : State} {kind ch tick id : Nat} {payload : Bytes} (h : Keeps z s) : Keeps z (State.hrdAppend s kind ch tick id payload) := by
  unfold State.hrdAppend
  repeat' first
    | with_reducible assumption
    | with_reducible refine State.takeSeq_keeps ?_
    | with_reducible refine State.stage_keeps ?_
    | with_reducible refine State.ringPut_keeps ?_
    | (extract_lets +onlyGivenNames y; have hy : Keeps z y := ?_; clear_value y; rotate_left; subst y)
    | (extract_lets +onlyGivenNames y; clear_value y)
    | split

theorem State.hrdFlush_keeps {z s : State} (h : Keeps z s) : Keeps z (State.hrdFlush s) := by
  unfold State.hrdFlush
  repeat' first
    | with_reducible assumption
    | with_reducible refine State.hrdAppend_keeps ?_
    | (extract_lets +onlyGivenNames y; clear_value y)
    | split
    | with_reducible refine Keeps.frame ?_ rfl rfl

theorem State.hrdLose_keeps {z s : State} (h : Keeps z s) : Keeps z (State.hrdLose s) := by
  unfold State.hrdLose
  repeat' first
    | with_reducible assumption
    | with_reducible refine State.takeSeq_keeps ?_
    | with_reducible refine State.evt_keeps ?_
    | with_reducible refine State.bump_keeps ?_
    | (extract_lets +onlyGivenNames y; clear_value y)
    | split
    | with_reducible refine Keeps.frame ?_ rfl rfl

theorem State.hrdRecordAt_keeps {z s : State} {tick kind ch id : Nat} {payload : Bytes} (h : Keeps z s) : Keeps z (State.hrdRecordAt s tick kind ch id payload) := by
  unfold State.hrdRecordAt
  repeat' first
    | with_reducible assumption
    | with_reducible refine State.hrdHalt_keeps ?_
    | with_reducible refine State.hrdFlush_keeps ?_
    | with_reducible refine State.hrdLose_keeps ?_
    | with_reducible refine State.hrdAppend_keeps ?_
    | with_reducible refine State.bump_keeps ?_
    | with_reducible refine State.takeSeq_keeps ?_
    | (extract_lets +onlyGivenNames y; have hy : Keeps z y := ?_; clear_value y; rotate_left; subst y)
    | (extract_lets +onlyGivenNames y; clear_value y)
    | split

theorem State.hrdRecord_keeps {z s : State} {kind ch id : Nat} {payload : Bytes} (h : Keeps z s) : Keeps z (State.hrdRecord s kind ch id payload) := by
  unfold State.hrdRecord
  repeat' first
    | with_reducible assumption
    | with_reducible refine State.hrdRecordAt_keeps ?_

theorem State.fresh_keeps {z s : State} (h : Keeps z s) : Keeps z (State.fresh s).2 := by
  unfold State.fresh
  repeat' first
    | with_reducible assumption
    | with_reducible refine Keeps.frame ?_ rfl rfl

theorem State.outBlocked_keeps {z s : State} {ch : Nat} (h : Keeps z s) : Keeps z (State.outBlocked s ch) := by
  unfold State.outBlocked
  repeat' first
    | with_reducible assumption
    | with_reducible refine State.dEvt_keeps ?_

theorem State.modQueue_keeps {z s : State} {q : Nat} {f : Queue → Queue} (h : Keeps z s) : Keeps z (State.modQueue s q f) := by
  unfold State.modQueue
  repeat' first
    | with_reducible assumption
    | (extract_lets +onlyGivenNames y; have hy : HostIf := y; clear hy; subst y)
    | with_reducible refine Keeps.frame ?_ rfl rfl

theorem State.hostWrite_keeps {z s : State} {bus : Nat} {bs : Bytes} (h : Keeps z s) : Keeps z (State.hostWrite s bus bs) := by
  unfold State.hostWrite
  split
  · exact h.update rfl (fun w => w) (fun w => w) (swf_ssetN _ _ _ _) (fun w => w) (Fuses.within_refl _)
  · exact h

theorem State.queueSignal_keeps {z s : State} {q : Nat} (h : Keeps z s) : Keeps z (State.queueSignal s q) := by
  unfold State.queueSignal
  repeat' first
    | with_reducible assumption
    | with_reducible refine State.signal_keeps ?_
    | with_reducible refine State.modQueue_keeps ?_
    | split

theorem State.cqPost_keeps {z s : State} {q status mark id events : Nat} {seal8 : Bytes} {output dup : Bool} (h : Keeps z s) : Keeps z (State.cqPost s q status mark id events seal8 output dup) := by
  unfold State.cqPost
  repeat' first
    | with_reducible assumption
    | with_reducible refine State.bump_keeps ?_
    | with_reducible refine State.hostWrite_keeps ?_
    | with_reducible refine State.modQueue_keeps ?_
    | with_reducible refine State.queueSignal_keeps ?_
    | (extract_lets +onlyGivenNames y; have hy : Keeps z y := ?_; clear_value y; rotate_left; subst y)
    | (extract_lets +onlyGivenNames y; clear_value y)
    | split

theorem State.cqDup_keeps {z s : State} {q id : Nat} {c : Bytes} (h : Keeps z s) : Keeps z (State.cqDup s q id c) := by
  unfold State.cqDup
  repeat' first
    | with_reducible assumption
    | with_reducible refine State.cqPost_keeps ?_

theorem State.cqDups_keeps {z s : State} {q id : Nat} {c : Bytes} {x1 : Nat} (h : Keeps z s) : Keeps z (State.cqDups s q id c x1) := by
  induction x1 generalizing s q id c
  case zero => exact h
  case succ n ih =>
  unfold State.cqDups
  repeat' first
    | with_reducible assumption
    | with_reducible refine ih ?_
    | with_reducible refine State.cqDup_keeps ?_

theorem State.hostFinish_keeps {z s : State} {q id status mark events : Nat} {seal8 : Bytes} {output : Bool} (h : Keeps z s) : Keeps z (State.hostFinish s q id status mark events seal8 output) := by
  unfold State.hostFinish
  repeat' first
    | with_reducible assumption
    | with_reducible refine State.modQueue_keeps ?_
    | with_reducible refine State.bump_keeps ?_
    | with_reducible refine State.cqPost_keeps ?_
    | with_reducible refine State.cqDups_keeps ?_
    | split

theorem State.modDisp_keeps {z s : State} {ch : Nat} {f : Disp → Disp} (h : Keeps z s) : Keeps z (State.modDisp s ch f) := by
  unfold State.modDisp
  repeat' first
    | with_reducible assumption
    | with_reducible refine Keeps.frame ?_ rfl rfl

theorem State.tryFinish_keeps {z s : State} {ch : Nat} {r : HostRef} (h : Keeps z s) : Keeps z (State.tryFinish s ch r) := by
  unfold State.tryFinish
  repeat' first
    | with_reducible assumption
    | with_reducible refine State.hostFinish_keeps ?_
    | with_reducible refine State.modDisp_keeps ?_
    | split

theorem State.setDone_keeps {z s : State} {ch : Nat} {t : Trigger} {f : HostDone → HostDone} (h : Keeps z s) : Keeps z (State.setDone s ch t f) := by
  unfold State.setDone
  repeat' first
    | with_reducible assumption
    | with_reducible refine State.tryFinish_keeps ?_
    | with_reducible refine State.modDisp_keeps ?_
    | split

theorem State.outPath_keeps {z s : State} {ch : Nat} {t : Trigger} {real : Bool} {header sealBytes out : Bytes} {status mark events : Nat} (h : Keeps z s) : Keeps z (State.outPath s ch t real header sealBytes out status mark events) := by
  unfold State.outPath
  repeat' first
    | with_reducible assumption
    | with_reducible refine State.fresh_keeps ?_
    | with_reducible refine State.wglMake_keeps ?_
    | with_reducible refine State.wglStore_keeps ?_
    | with_reducible refine State.outBlocked_keeps ?_
    | with_reducible refine State.setDone_keeps ?_
    | with_reducible refine State.stage_keeps ?_
    | (extract_lets +onlyGivenNames y; have hy : Keeps z y := ?_; clear_value y; rotate_left; subst y)
    | (extract_lets +onlyGivenNames y; have hy : HostIf := y; clear hy; subst y)
    | (extract_lets +onlyGivenNames y; clear_value y)
    | split
    | with_reducible refine Keeps.frame ?_ rfl rfl

theorem State.emitOut_keeps {z s : State} {ch : Nat} {t : Trigger} {ctxNo mark0 fault events missing : Nat} {modes : List Word} {out : Bytes} {real : Bool} {status : Nat} (h : Keeps z s) : Keeps z (State.emitOut s ch t ctxNo mark0 fault events missing modes out real status) := by
  unfold State.emitOut
  repeat' first
    | with_reducible assumption
    | with_reducible refine State.replayCompare_keeps ?_
    | with_reducible refine State.hrdRecord_keeps ?_
    | with_reducible refine State.outPath_keeps ?_
    | (extract_lets +onlyGivenNames y; have hy : Keeps z y := ?_; clear_value y; rotate_left; subst y)
    | (extract_lets +onlyGivenNames y; clear_value y)
    | split

theorem State.emitFallback_keeps {z s : State} {ch : Nat} {t : Trigger} {ctxNo mark fault events missing status : Nat} (h : Keeps z s) : Keeps z (State.emitFallback s ch t ctxNo mark fault events missing status) := by
  unfold State.emitFallback
  repeat' first
    | with_reducible assumption
    | with_reducible refine State.emitOut_keeps ?_

theorem State.releaseSlot_keeps {z s : State} {ch : Nat} {t : Trigger} (h : Keeps z s) : Keeps z (State.releaseSlot s ch t) := by
  unfold State.releaseSlot
  repeat' first
    | with_reducible assumption
    | split
    | with_reducible refine Keeps.frame ?_ rfl rfl

theorem State.modCtx_keeps {z s : State} {ch k : Nat} {f : Ctx → Ctx} (h : Keeps z s) : Keeps z (State.modCtx s ch k f) := by
  unfold State.modCtx
  repeat' first
    | with_reducible assumption
    | with_reducible refine State.modDisp_keeps ?_

theorem State.pick_keeps {z s : State} {l : List Nat} (h : Keeps z s) : Keeps z (State.pick s l).2 := by
  unfold State.pick
  repeat' first
    | with_reducible assumption
    | with_reducible refine State.fresh_keeps ?_
    | split

theorem State.serveQueue_keeps {z : State} {x1 : Nat} {s : State} {x3 : Nat} (h : Keeps z s) : Keeps z (State.serveQueue x1 s x3) := by
  induction x1 generalizing s x3
  case zero => exact h
  case succ n ih =>
  unfold State.serveQueue
  repeat' first
    | with_reducible assumption
    | with_reducible refine ih ?_
    | with_reducible refine State.modCtx_keeps ?_
    | with_reducible refine State.modDisp_keeps ?_
    | with_reducible refine State.pick_keeps ?_
    | with_reducible refine State.setDone_keeps ?_
    | split

theorem State.endCtx_keeps {z s : State} {ch k : Nat} (h : Keeps z s) : Keeps z (State.endCtx s ch k) := by
  unfold State.endCtx
  repeat' first
    | with_reducible assumption
    | with_reducible refine State.releaseSlot_keeps ?_
    | with_reducible refine State.modCtx_keeps ?_
    | with_reducible refine State.modDisp_keeps ?_
    | with_reducible refine State.setDone_keeps ?_
    | with_reducible refine State.serveQueue_keeps ?_
    | split

theorem State.abortCtx_keeps {z s : State} {ch k code : Nat} (h : Keeps z s) : Keeps z (State.abortCtx s ch k code) := by
  unfold State.abortCtx
  repeat' first
    | with_reducible assumption
    | with_reducible refine State.stopLaunch_keeps ?_
    | with_reducible refine State.dEvt_keeps ?_
    | with_reducible refine State.abortEntry_keeps ?_
    | with_reducible refine State.emitFallback_keeps ?_
    | with_reducible refine State.setDone_keeps ?_
    | with_reducible refine State.endCtx_keeps ?_
    | (extract_lets +onlyGivenNames y; have hy : Keeps z y := ?_; clear_value y; rotate_left; subst y)
    | (extract_lets +onlyGivenNames y; clear_value y)
    | split

theorem State.dropTrigger_keeps {z s : State} {ch : Nat} {t : Trigger} {mark fault status : Nat} (h : Keeps z s) : Keeps z (State.dropTrigger s ch t mark fault status) := by
  unfold State.dropTrigger
  repeat' first
    | with_reducible assumption
    | with_reducible refine State.fresh_keeps ?_
    | with_reducible refine State.emitFallback_keeps ?_
    | with_reducible refine State.setDone_keeps ?_
    | split

theorem State.enqueue_keeps {z s : State} {ch : Nat} {t : Trigger} (h : Keeps z s) : Keeps z (State.enqueue s ch t) := by
  unfold State.enqueue
  repeat' first
    | with_reducible assumption
    | with_reducible refine State.modDisp_keeps ?_
    | with_reducible refine State.dropTrigger_keeps ?_
    | with_reducible refine State.releaseSlot_keeps ?_
    | with_reducible refine State.dEvt_keeps ?_
    | with_reducible refine State.serveQueue_keeps ?_
    | (extract_lets +onlyGivenNames y; have hy : Keeps z y := ?_; clear_value y; rotate_left; subst y)
    | split

theorem State.acceptNow_keeps {z s : State} {ch : Nat} {t : Trigger} {tick : Option Nat} {unbound : Bool} (h : Keeps z s) : Keeps z (State.acceptNow s ch t tick unbound) := by
  unfold State.acceptNow
  repeat' first
    | with_reducible assumption
    | with_reducible refine State.enqueue_keeps ?_

theorem State.accept_keeps {z s : State} {ch : Nat} {t : Trigger} {tick : Option Nat} {unbound : Bool} (h : Keeps z s) : Keeps z (State.accept s ch t tick unbound) := by
  unfold State.accept
  repeat' first
    | with_reducible assumption
    | with_reducible refine State.dEvt_keeps ?_
    | with_reducible refine State.releaseSlot_keeps ?_
    | with_reducible refine State.modDisp_keeps ?_
    | with_reducible refine State.acceptNow_keeps ?_
    | (extract_lets +onlyGivenNames y; clear_value y)
    | split

theorem State.send_keeps {z s : State} {p : Packet} (h : Keeps z s) : Keeps z (State.send s p) := by
  unfold State.send
  repeat' first
    | with_reducible assumption
    | with_reducible refine Keeps.frame ?_ rfl rfl

theorem State.post_keeps {z s : State} {p : Packet} (h : Keeps z s) : Keeps z (State.post s p) := by
  unfold State.post
  repeat' first
    | with_reducible assumption
    | with_reducible refine State.send_keeps ?_

theorem State.ack_keeps {z s : State} {p : Packet} (h : Keeps z s) : Keeps z (State.ack s p) := by
  unfold State.ack
  repeat' first
    | with_reducible assumption
    | with_reducible refine State.post_keeps ?_
    | split

theorem State.cancelArm_keeps {z s : State} {ch slot outcome : Nat} (h : Keeps z s) : Keeps z (State.cancelArm s ch slot outcome) := by
  unfold State.cancelArm
  repeat' first
    | with_reducible assumption
    | with_reducible refine State.modDisp_keeps ?_
    | with_reducible refine State.hrdRecord_keeps ?_
    | with_reducible refine State.dEvt_keeps ?_
    | (extract_lets +onlyGivenNames y; have hy : Keeps z y := ?_; clear_value y; rotate_left; subst y)
    | (extract_lets +onlyGivenNames y; clear_value y)
    | split

theorem State.cancelCountAs_keeps {z s : State} {ch slot outcome mark fault status : Nat} (h : Keeps z s) : Keeps z (State.cancelCountAs s ch slot outcome mark fault status) := by
  unfold State.cancelCountAs
  repeat' first
    | with_reducible assumption
    | with_reducible refine State.dropTrigger_keeps ?_
    | with_reducible refine State.cancelArm_keeps ?_
    | (extract_lets +onlyGivenNames y; clear_value y)
    | split

theorem State.cancelCount_keeps {z s : State} {ch slot outcome : Nat} (h : Keeps z s) : Keeps z (State.cancelCount s ch slot outcome) := by
  unfold State.cancelCount
  repeat' first
    | with_reducible assumption
    | with_reducible refine State.cancelCountAs_keeps ?_

theorem State.cancelQueue_keeps {z s : State} {ch mark fault status : Nat} (h : Keeps z s) : Keeps z (State.cancelQueue s ch mark fault status) := by
  unfold State.cancelQueue
  repeat' first
    | with_reducible assumption
    | with_reducible refine State.modDisp_keeps ?_
    | with_reducible refine State.dropTrigger_keeps ?_
    | with_reducible refine State.dEvt_keeps ?_
    | with_reducible refine State.releaseSlot_keeps ?_
    | with_reducible refine Keeps.foldl (fun _ _ _ => ?_) ?_

theorem State.dropWaiting_keeps {z s : State} {ch cause : Nat} (h : Keeps z s) : Keeps z (State.dropWaiting s ch cause) := by
  unfold State.dropWaiting
  repeat' first
    | with_reducible assumption
    | with_reducible refine State.modDisp_keeps ?_
    | with_reducible refine State.emitFallback_keeps ?_
    | with_reducible refine State.setDone_keeps ?_
    | with_reducible refine Keeps.foldl (fun _ _ _ => ?_) ?_
    | split

theorem State.curlChannel_keeps {z s : State} {ch cause : Nat} (h : Keeps z s) : Keeps z (State.curlChannel s ch cause) := by
  unfold State.curlChannel
  repeat' first
    | with_reducible assumption
    | with_reducible refine State.cancelCount_keeps ?_
    | with_reducible refine State.cancelQueue_keeps ?_
    | with_reducible refine State.dropWaiting_keeps ?_
    | with_reducible refine State.abortCtx_keeps ?_
    | with_reducible refine Keeps.foldl (fun _ _ _ => ?_) ?_

theorem State.setCause_keeps {z s : State} {f code field : Nat} (h : Keeps z s) : Keeps z (State.setCause s f code field) := by
  unfold State.setCause
  repeat' first
    | with_reducible assumption
    | with_reducible refine State.wr_keeps ?_
    | split

theorem State.curl_keeps {z s : State} {f cause : Nat} (h : Keeps z s) : Keeps z (State.curl s f cause) := by
  unfold State.curl
  repeat' first
    | with_reducible assumption
    | with_reducible refine State.modFn_keeps ?_
    | with_reducible refine State.curlChannel_keeps ?_
    | with_reducible refine State.mirror_keeps ?_
    | with_reducible refine State.evt_keeps ?_
    | with_reducible refine State.setCause_keeps ?_
    | with_reducible refine Keeps.foldl (fun _ _ _ => ?_) ?_
    | split

theorem State.latency_keeps {z s : State} {ch : Nat} {t : Trigger} (h : Keeps z s) : Keeps z (State.latency s ch t) := by
  unfold State.latency
  repeat' first
    | with_reducible assumption
    | with_reducible refine State.modDisp_keeps ?_
    | with_reducible refine State.dEvt_keeps ?_
    | (extract_lets +onlyGivenNames y; have hy : Keeps z y := ?_; clear_value y; rotate_left; subst y)
    | (extract_lets +onlyGivenNames y; clear_value y)
    | split

theorem State.unsealed_keeps {z s : State} {ch k : Nat} {t : Trigger} {events missing : Nat} (h : Keeps z s) : Keeps z (State.unsealed s ch k t events missing) := by
  unfold State.unsealed
  repeat' first
    | with_reducible assumption
    | with_reducible refine State.dEvt_keeps ?_
    | with_reducible refine State.emitFallback_keeps ?_
    | with_reducible refine State.setDone_keeps ?_
    | (extract_lets +onlyGivenNames y; have hy : Keeps z y := ?_; clear_value y; rotate_left; subst y)
    | split

theorem State.jobReady_keeps {z s : State} {ch : Nat} {j : SealJob} (h : Keeps z s) : Keeps z (State.jobReady s ch j) := by
  unfold State.jobReady
  repeat' first
    | with_reducible assumption
    | with_reducible refine State.latency_keeps ?_
    | with_reducible refine State.dEvt_keeps ?_
    | with_reducible refine State.emitFallback_keeps ?_
    | with_reducible refine State.unsealed_keeps ?_
    | with_reducible refine State.modDisp_keeps ?_
    | (extract_lets +onlyGivenNames y; have hy : Keeps z y := ?_; clear_value y; rotate_left; subst y)
    | split

theorem State.jobReleased_keeps {z s : State} {ch entry event : Nat} (h : Keeps z s) : Keeps z (State.jobReleased s ch entry event) := by
  unfold State.jobReleased
  repeat' first
    | with_reducible assumption
    | with_reducible refine State.jobReady_keeps ?_
    | with_reducible refine State.modDisp_keeps ?_
    | split

theorem State.releaseMsg_keeps {z s : State} {cls : Nat} {key message : Bytes} {ch : Nat} (h : Keeps z s) : Keeps z (State.releaseMsg s cls key message ch) := by
  unfold State.releaseMsg
  repeat' first
    | with_reducible assumption
    | with_reducible refine State.wglStore_keeps ?_
    | with_reducible refine State.bump_keeps ?_
    | with_reducible refine State.stage_keeps ?_
    | (extract_lets +onlyGivenNames y; clear_value y)
    | split

theorem State.releaseEntry_keeps {z s : State} {f side : Nat} {e : DelayEntry} (h : Keeps z s) : Keeps z (State.releaseEntry s f side e) := by
  unfold State.releaseEntry
  repeat' first
    | with_reducible assumption
    | with_reducible refine State.jobReleased_keeps ?_
    | with_reducible refine State.releaseMsg_keeps ?_
    | split

theorem State.releaseHeld_keeps {z s : State} {f : Nat} (h : Keeps z s) : Keeps z (State.releaseHeld s f) := by
  unfold State.releaseHeld
  repeat' first
    | with_reducible assumption
    | with_reducible refine State.modFn_keeps ?_
    | with_reducible refine State.releaseEntry_keeps ?_
    | with_reducible refine Keeps.foldl (fun _ _ _ => ?_) ?_

theorem State.refuseArm_keeps {z s : State} {f field : Nat} (h : Keeps z s) : Keeps z (State.refuseArm s f field) := by
  unfold State.refuseArm
  repeat' first
    | with_reducible assumption
    | with_reducible refine State.modFn_keeps ?_
    | with_reducible refine State.releaseHeld_keeps ?_
    | with_reducible refine State.evt_keeps ?_
    | with_reducible refine State.setCause_keeps ?_
    | split

theorem State.safeFault_keeps {z s : State} {f code : Nat} (h : Keeps z s) : Keeps z (State.safeFault s f code) := by
  unfold State.safeFault
  repeat' first
    | with_reducible assumption
    | with_reducible refine State.evt_keeps ?_
    | with_reducible refine State.bump_keeps ?_
    | with_reducible refine State.curl_keeps ?_
    | with_reducible refine State.refuseArm_keeps ?_
    | (extract_lets +onlyGivenNames y; have hy : Keeps z y := ?_; clear_value y; rotate_left; subst y)
    | (extract_lets +onlyGivenNames y; have hy : Power := y; clear hy; subst y)
    | split
    | with_reducible refine Keeps.frame ?_ rfl rfl

theorem State.allFault_keeps {z s : State} {code : Nat} (h : Keeps z s) : Keeps z (State.allFault s code) := by
  unfold State.allFault
  repeat' first
    | with_reducible assumption
    | with_reducible refine State.evt_keeps ?_
    | with_reducible refine State.safeFault_keeps ?_
    | with_reducible refine Keeps.foldl (fun _ _ _ => ?_) ?_
    | (extract_lets +onlyGivenNames y; have hy : Power := y; clear hy; subst y)
    | split
    | with_reducible refine Keeps.frame ?_ rfl rfl

theorem State.toNext_keeps {z s : State} {ch : Nat} {e : Bytes} {kind : PktKind} {arg payload : Bytes} (h : Keeps z s) : Keeps z (State.toNext s ch e kind arg payload) := by
  unfold State.toNext
  repeat' first
    | with_reducible assumption
    | with_reducible refine State.send_keeps ?_
    | with_reducible refine State.wglSend_keeps ?_
    | split

theorem State.sendAnnounce_keeps {z s : State} {ch : Nat} {e : Bytes} {valid : Bool} (h : Keeps z s) : Keeps z (State.sendAnnounce s ch e valid) := by
  unfold State.sendAnnounce
  repeat' first
    | with_reducible assumption
    | with_reducible refine State.toNext_keeps ?_

theorem State.setAnnounced_keeps {z s : State} {ch i : Nat} {valid : Bool} (h : Keeps z s) : Keeps z (State.setAnnounced s ch i valid) := by
  unfold State.setAnnounced
  repeat' first
    | with_reducible assumption
    | with_reducible refine State.sendAnnounce_keeps ?_
    | with_reducible refine State.modDisp_keeps ?_
    | split

theorem State.chainEvt_keeps {z s : State} {ch : Nat} {e : Bytes} {code : Nat} (h : Keeps z s) : Keeps z (State.chainEvt s ch e code) := by
  unfold State.chainEvt
  repeat' first
    | with_reducible assumption
    | with_reducible refine State.bump_keeps ?_
    | with_reducible refine State.evt_keeps ?_
    | (extract_lets +onlyGivenNames y; have hy : Keeps z y := ?_; clear_value y; rotate_left; subst y)
    | split

theorem State.announceAt_keeps {z s : State} {ch : Nat} {way : Option (Nat × Nat)} {arg : Bytes} (h : Keeps z s) : Keeps z (State.announceAt s ch way arg).1 := by
  unfold State.announceAt
  repeat' first
    | with_reducible assumption
    | with_reducible refine State.setAnnounced_keeps ?_
    | with_reducible refine State.chainEvt_keeps ?_
    | with_reducible refine State.evt_keeps ?_
    | (extract_lets +onlyGivenNames y; clear_value y)
    | split

theorem State.refuseAt_keeps {z s : State} {p : Packet} {ch cause : Nat} (h : Keeps z s) : Keeps z (State.refuseAt s p ch cause) := by
  unfold State.refuseAt
  repeat' first
    | with_reducible assumption
    | with_reducible refine State.post_keeps ?_
    | (extract_lets +onlyGivenNames y; clear_value y)
    | split

theorem State.dropPkt_keeps {z s : State} {i : Nat} (h : Keeps z s) : Keeps z (State.dropPkt s i) := by
  unfold State.dropPkt
  repeat' first
    | with_reducible assumption
    | with_reducible refine Keeps.frame ?_ rfl rfl

theorem State.faultCell_keeps {z s : State} {e : Endpoint} {code : Nat} (h : Keeps z s) : Keeps z (State.faultCell s e code) := by
  unfold State.faultCell
  repeat' first
    | with_reducible assumption
    | with_reducible refine State.abortCtx_keeps ?_
    | with_reducible refine Keeps.foldl (fun _ _ _ => ?_) ?_
    | (extract_lets +onlyGivenNames y; clear_value y)
    | split

theorem State.channelFault_keeps {z s : State} {ch code : Nat} (h : Keeps z s) : Keeps z (State.channelFault s ch code) := by
  unfold State.channelFault
  repeat' first
    | with_reducible assumption
    | with_reducible refine State.safeFault_keeps ?_
    | split

theorem State.meshUce_keeps {z s : State} {i : Nat} {p : Packet} {router : Nat} (h : Keeps z s) : Keeps z (State.meshUce s i p router) := by
  unfold State.meshUce
  repeat' first
    | with_reducible assumption
    | with_reducible refine State.refuseAt_keeps ?_
    | with_reducible refine State.dropPkt_keeps ?_
    | with_reducible refine State.bump_keeps ?_
    | with_reducible refine State.faultCell_keeps ?_
    | with_reducible refine State.channelFault_keeps ?_

theorem State.arrive_keeps {z s : State} {i : Nat} {kinds : List PktKind} {link : LinkErr} {f : State → Packet → State} (h : Keeps z s) (hf : ∀ y0 y1, Keeps z y0 → Keeps z (f y0 y1)) : Keeps z (State.arrive s i kinds link f) := by
  unfold State.arrive
  repeat' first
    | with_reducible assumption
    | with_reducible refine hf _ _ ?_
    | with_reducible refine State.bump_keeps ?_
    | with_reducible refine State.meshUce_keeps ?_
    | split

theorem State.cancelArms_keeps {z s : State} {ch : Nat} (h : Keeps z s) : Keeps z (State.cancelArms s ch) := by
  unfold State.cancelArms
  repeat' first
    | with_reducible assumption
    | with_reducible refine State.cancelCount_keeps ?_
    | with_reducible refine Keeps.foldl (fun _ _ _ => ?_) ?_

theorem State.incompleteCtx_keeps {z s : State} {ch k missing : Nat} (h : Keeps z s) : Keeps z (State.incompleteCtx s ch k missing) := by
  unfold State.incompleteCtx
  repeat' first
    | with_reducible assumption
    | with_reducible refine State.modCtx_keeps ?_
    | with_reducible refine State.emitFallback_keeps ?_
    | (extract_lets +onlyGivenNames y; clear_value y)
    | split

theorem State.dropInst_keeps {z s : State} {ch i n : Nat} (h : Keeps z s) : Keeps z (State.dropInst s ch i n) := by
  unfold State.dropInst
  repeat' first
    | with_reducible assumption
    | with_reducible refine State.modDisp_keeps ?_

theorem State.closeInst_keeps {z s : State} {ch : Nat} {e : Bytes} {c : ChainDone} (h : Keeps z s) : Keeps z (State.closeInst s ch e c) := by
  unfold State.closeInst
  repeat' first
    | with_reducible assumption
    | with_reducible refine State.modDisp_keeps ?_
    | with_reducible refine State.hrdRecord_keeps ?_

theorem State.toStation_keeps {z s : State} {ch : Nat} {e : Bytes} {n user : Nat} {records : Bytes} (h : Keeps z s) : Keeps z (State.toStation s ch e n user records) := by
  unfold State.toStation
  repeat' first
    | with_reducible assumption
    | with_reducible refine State.post_keeps ?_

theorem State.discardOutput_keeps {z s : State} {ch : Nat} {e : Bytes} {i n : Nat} (h : Keeps z s) : Keeps z (State.discardOutput s ch e i n) := by
  unfold State.discardOutput
  repeat' first
    | with_reducible assumption
    | with_reducible refine State.chainEvt_keeps ?_
    | with_reducible refine State.modDisp_keeps ?_
    | split

theorem State.jobLate_keeps {z s : State} {ch : Nat} {j : SealJob} (h : Keeps z s) : Keeps z (State.jobLate s ch j) := by
  unfold State.jobLate
  repeat' first
    | with_reducible assumption
    | with_reducible refine State.modDisp_keeps ?_

theorem State.incompleteJob_keeps {z s : State} {ch : Nat} {j : SealJob} {missing : Nat} (h : Keeps z s) : Keeps z (State.incompleteJob s ch j missing) := by
  unfold State.incompleteJob
  repeat' first
    | with_reducible assumption
    | with_reducible refine State.jobLate_keeps ?_
    | with_reducible refine State.emitFallback_keeps ?_

theorem State.incompleteOut_keeps {z s : State} {ch i n missing : Nat} (h : Keeps z s) : Keeps z (State.incompleteOut s ch i n missing) := by
  unfold State.incompleteOut
  repeat' first
    | with_reducible assumption
    | with_reducible refine State.incompleteCtx_keeps ?_
    | with_reducible refine State.incompleteJob_keeps ?_
    | with_reducible refine Keeps.foldl (fun _ _ _ => ?_) ?_
    | split

theorem State.makeIncomplete_keeps {z s : State} {ch i : Nat} {e : Bytes} {n missing code : Nat} (h : Keeps z s) : Keeps z (State.makeIncomplete s ch i e n missing code) := by
  unfold State.makeIncomplete
  repeat' first
    | with_reducible assumption
    | with_reducible refine State.bump_keeps ?_
    | with_reducible refine State.dropInst_keeps ?_
    | with_reducible refine State.closeInst_keeps ?_
    | with_reducible refine State.chainEvt_keeps ?_
    | with_reducible refine State.toStation_keeps ?_
    | with_reducible refine State.discardOutput_keeps ?_
    | with_reducible refine State.incompleteOut_keeps ?_
    | with_reducible refine State.toNext_keeps ?_
    | (extract_lets +onlyGivenNames y; have hy : Keeps z y := ?_; clear_value y; rotate_left; subst y)
    | (extract_lets +onlyGivenNames y; clear_value y)
    | split

theorem State.putInst_keeps {z s : State} {ch : Nat} {c : ChainInst} (h : Keeps z s) : Keeps z (State.putInst s ch c) := by
  unfold State.putInst
  repeat' first
    | with_reducible assumption
    | with_reducible refine State.modDisp_keeps ?_

theorem State.chainArm_keeps {z s : State} {ch k i : Nat} (h : Keeps z s) : Keeps z (State.chainArm s ch k i) := by
  unfold State.chainArm
  repeat' first
    | with_reducible assumption
    | with_reducible refine State.incompleteCtx_keeps ?_
    | with_reducible refine State.makeIncomplete_keeps ?_
    | with_reducible refine State.putInst_keeps ?_
    | (extract_lets +onlyGivenNames y; clear_value y)
    | split

theorem State.chainsApplied_keeps {z s : State} {ch : Nat} (h : Keeps z s) : Keeps z (State.chainsApplied s ch) := by
  unfold State.chainsApplied
  repeat' first
    | with_reducible assumption
    | with_reducible refine State.setAnnounced_keeps ?_
    | with_reducible refine State.sendAnnounce_keeps ?_
    | with_reducible refine Keeps.foldl (fun _ _ _ => ?_) ?_
    | split

theorem State.chainsPortLost_keeps {z s : State} {q : Nat} (h : Keeps z s) : Keeps z (State.chainsPortLost s q) := by
  unfold State.chainsPortLost
  repeat' first
    | with_reducible assumption
    | with_reducible refine State.setAnnounced_keeps ?_
    | with_reducible refine Keeps.foldl (fun _ _ _ => ?_) ?_
    | split

theorem State.chainsPortUp_keeps {z s : State} {q : Nat} (h : Keeps z s) : Keeps z (State.chainsPortUp s q) := by
  unfold State.chainsPortUp
  repeat' first
    | with_reducible assumption
    | with_reducible refine State.sendAnnounce_keeps ?_
    | with_reducible refine Keeps.foldl (fun _ _ _ => ?_) ?_
    | split

theorem State.chainsWithdraw_keeps {z s : State} {ch : Nat} (h : Keeps z s) : Keeps z (State.chainsWithdraw s ch) := by
  unfold State.chainsWithdraw
  repeat' first
    | with_reducible assumption
    | with_reducible refine State.setAnnounced_keeps ?_
    | with_reducible refine Keeps.foldl (fun _ _ _ => ?_) ?_
    | split

theorem State.clrBit_keeps {z s : State} {f : RegField} {i : Nat} (h : Keeps z s) : Keeps z (State.clrBit s f i) := by
  unfold State.clrBit
  repeat' first
    | with_reducible assumption
    | with_reducible refine State.wr_keeps ?_
    | split

theorem State.lateCtx_keeps {z s : State} {ch k : Nat} (h : Keeps z s) : Keeps z (State.lateCtx s ch k) := by
  unfold State.lateCtx
  repeat' first
    | with_reducible assumption
    | with_reducible refine State.emitFallback_keeps ?_
    | with_reducible refine State.dEvt_keeps ?_
    | with_reducible refine State.modCtx_keeps ?_
    | with_reducible refine State.endCtx_keeps ?_
    | with_reducible refine State.abortEntry_keeps ?_
    | with_reducible refine State.stopLaunch_keeps ?_
    | (extract_lets +onlyGivenNames y; have hy : Keeps z y := ?_; clear_value y; rotate_left; subst y)
    | (extract_lets +onlyGivenNames y; clear_value y)
    | split

theorem State.ctxReady_keeps {z s : State} {ch k : Nat} (h : Keeps z s) : Keeps z (State.ctxReady s ch k) := by
  unfold State.ctxReady
  repeat' first
    | with_reducible assumption
    | with_reducible refine State.latency_keeps ?_
    | with_reducible refine State.modCtx_keeps ?_
    | with_reducible refine State.dEvt_keeps ?_
    | with_reducible refine State.lateCtx_keeps ?_
    | with_reducible refine State.unsealed_keeps ?_
    | with_reducible refine State.modDisp_keeps ?_
    | (extract_lets +onlyGivenNames y; have hy : Keeps z y := ?_; clear_value y; rotate_left; subst y)
    | (extract_lets +onlyGivenNames y; clear_value y)
    | split

theorem State.completeCtx_keeps {z s : State} {ch k : Nat} (h : Keeps z s) : Keeps z (State.completeCtx s ch k) := by
  unfold State.completeCtx
  repeat' first
    | with_reducible assumption
    | with_reducible refine State.endCtx_keeps ?_
    | with_reducible refine State.modDisp_keeps ?_
    | with_reducible refine State.makeEntry_keeps ?_
    | with_reducible refine State.ctxReady_keeps ?_
    | with_reducible refine State.dEvt_keeps ?_
    | with_reducible refine State.emitFallback_keeps ?_
    | with_reducible refine State.setDone_keeps ?_
    | (extract_lets +onlyGivenNames y; have hy : Keeps z y := ?_; clear_value y; rotate_left; subst y)
    | (extract_lets +onlyGivenNames y; clear_value y)
    | split

theorem State.countEnd_keeps {z s : State} {e : Nat × Bool} (h : Keeps z s) : Keeps z (State.countEnd s e) := by
  unfold State.countEnd
  repeat' first
    | with_reducible assumption
    | with_reducible refine State.bump_keeps ?_
    | split

theorem State.credit_keeps {z s : State} {dest src route : Nat} {restore : Bool} (h : Keeps z s) : Keeps z (State.credit s dest src route restore) := by
  unfold State.credit
  repeat' first
    | with_reducible assumption
    | with_reducible refine State.post_keeps ?_

theorem State.deliverPieces_keeps {z : State} {x1 : Nat} {s : State} {x3 : Nat} {x4 : Bytes} {x5 x6 : Nat} {x7 : Bytes} {x8 : Nat} (h : Keeps z s) : Keeps z (State.deliverPieces x1 s x3 x4 x5 x6 x7 x8).1 := by
  induction x1 generalizing s x3 x4 x5 x6 x7 x8
  case zero => exact h
  case succ n ih =>
  unfold State.deliverPieces
  repeat' first
    | with_reducible assumption
    | with_reducible refine ih ?_
    | with_reducible refine State.toStation_keeps ?_
    | (extract_lets +onlyGivenNames y; clear_value y)
    | split

theorem State.egressMsg_keeps {z s : State} {ch cls : Nat} {key compared message : Bytes} (h : Keeps z s) : Keeps z (State.egressMsg s ch cls key compared message) := by
  unfold State.egressMsg
  repeat' first
    | with_reducible assumption
    | with_reducible refine State.makeEntry_keeps ?_
    | with_reducible refine State.releaseMsg_keeps ?_
    | split

theorem State.fillEgress_keeps {z : State} {x1 : Nat} {s : State} {x3 : Nat} (h : Keeps z s) : Keeps z (State.fillEgress x1 s x3) := by
  induction x1 generalizing s x3
  case zero => exact h
  case succ n ih =>
  unfold State.fillEgress
  repeat' first
    | with_reducible assumption
    | with_reducible refine ih ?_
    | with_reducible refine State.enter_keeps ?_
    | with_reducible refine State.modFn_keeps ?_
    | split

theorem State.forward_keeps {z s : State} {ch : Nat} {e : Bytes} {n : Nat} {bs : Bytes} (h : Keeps z s) : Keeps z (State.forward s ch e n bs) := by
  unfold State.forward
  repeat' first
    | with_reducible assumption
    | with_reducible refine State.toNext_keeps ?_
    | with_reducible refine Keeps.foldl (fun _ _ _ => ?_) ?_
    | (extract_lets +onlyGivenNames y; clear_value y)
    | split

theorem State.settleInst_keeps {z s : State} {ch : Nat} {e : Bytes} {i n : Nat} (h : Keeps z s) : Keeps z (State.settleInst s ch e i n) := by
  unfold State.settleInst
  repeat' first
    | with_reducible assumption
    | with_reducible refine State.dropInst_keeps ?_
    | split

theorem State.takeRecords_keeps {z s : State} {ch i : Nat} {e : Bytes} {n : Nat} {bs : Bytes} (h : Keeps z s) : Keeps z (State.takeRecords s ch i e n bs) := by
  unfold State.takeRecords
  repeat' first
    | with_reducible assumption
    | with_reducible refine State.deliverPieces_keeps ?_
    | with_reducible refine State.putInst_keeps ?_
    | with_reducible refine State.settleInst_keeps ?_
    | with_reducible refine State.closeInst_keeps ?_
    | (extract_lets +onlyGivenNames y; have hy : Keeps z y := ?_; clear_value y; rotate_left; subst y)
    | (extract_lets +onlyGivenNames y; clear_value y)
    | split
    | refine Keeps.of_fst (by assumption) ?_

theorem State.forwardAt_keeps {z s : State} {ch i : Nat} {e : Bytes} {n missing first : Nat} {incomplete : Bool} {bs : Bytes} (h : Keeps z s) : Keeps z (State.forwardAt s ch i e n missing first incomplete bs).1 := by
  unfold State.forwardAt
  repeat' first
    | with_reducible assumption
    | with_reducible refine State.makeIncomplete_keeps ?_
    | with_reducible refine State.chainEvt_keeps ?_
    | with_reducible refine State.takeRecords_keeps ?_
    | (extract_lets +onlyGivenNames y; have hy : Keeps z y := ?_; clear_value y; rotate_left; subst y)
    | (extract_lets +onlyGivenNames y; clear_value y)
    | split

theorem State.forwardTo_keeps {z s : State} {ch : Nat} {way : Option (Nat × Nat)} {arg bs : Bytes} (h : Keeps z s) : Keeps z (State.forwardTo s ch way arg bs).1 := by
  unfold State.forwardTo
  repeat' first
    | with_reducible assumption
    | with_reducible refine State.forwardAt_keeps ?_
    | split

theorem State.regAccess_keeps {z s : State} (h : Keeps z s) : Keeps z (State.regAccess s) := by
  unfold State.regAccess
  repeat' first
    | with_reducible assumption
    | with_reducible refine State.evt_keeps ?_

theorem State.gated_keeps {z s : State} {g : Gate} {f : State → State} (h : Keeps z s) (hf : ∀ y0, Keeps z y0 → Keeps z (f y0)) : Keeps z (State.gated s g f) := by
  unfold State.gated
  repeat' first
    | with_reducible assumption
    | with_reducible refine hf _ ?_
    | with_reducible refine State.regAccess_keeps ?_
    | split

theorem State.raiseStackScrub_keeps {z s : State} {n : Nat} (h : Keeps z s) : Keeps z (State.raiseStackScrub s n) := by
  unfold State.raiseStackScrub
  repeat' first
    | with_reducible assumption
    | with_reducible refine State.wr_keeps ?_
    | split

theorem State.hbmTouch_keeps {z s : State} {a n : Nat} (h : Keeps z s) : Keeps z (State.hbmTouch s a n) := by
  unfold State.hbmTouch
  repeat' first
    | with_reducible assumption
    | with_reducible refine State.raiseStackScrub_keeps ?_
    | with_reducible refine State.bump_keeps ?_
    | with_reducible refine Keeps.foldl (fun _ _ _ => ?_) ?_
    | (extract_lets +onlyGivenNames y; have hy : Keeps z y := ?_; clear_value y; rotate_left; subst y)
    | (extract_lets +onlyGivenNames y; clear_value y)
    | split
    | with_reducible refine Keeps.frame ?_ rfl rfl

theorem State.high_keeps {z s : State} {f : RegField} {v : Nat} (h : Keeps z s) : Keeps z (State.high s f v) := by
  unfold State.high
  repeat' first
    | with_reducible assumption
    | with_reducible refine State.wr_keeps ?_
    | split

theorem State.hrdEpoch_keeps {z s : State} (h : Keeps z s) : Keeps z (State.hrdEpoch s) := by
  unfold State.hrdEpoch
  repeat' first
    | with_reducible assumption
    | with_reducible refine State.wr_keeps ?_
    | with_reducible refine State.incr_keeps ?_
    | with_reducible refine State.hrdRecord_keeps ?_
    | (extract_lets +onlyGivenNames y; clear_value y)
    | with_reducible refine Keeps.frame ?_ rfl rfl

theorem State.ignoreLive_keeps {z s : State} (h : Keeps z s) : Keeps z (State.ignoreLive s) := by
  unfold State.ignoreLive
  repeat' first
    | with_reducible assumption
    | with_reducible refine State.bump_keeps ?_

theorem State.modIsle_keeps {z s : State} {i : Nat} {f : Island → Island} (h : Keeps z s) : Keeps z (State.modIsle s i f) := by
  unfold State.modIsle
  repeat' first
    | with_reducible assumption
    | (extract_lets +onlyGivenNames y; clear_value y)
    | with_reducible refine Keeps.frame ?_ rfl rfl

theorem State.isleBounds_keeps {z s : State} {i floor ceil : Nat} (h : Keeps z s) : Keeps z (State.isleBounds s i floor ceil) := by
  unfold State.isleBounds
  repeat' first
    | with_reducible assumption
    | with_reducible refine State.modIsle_keeps ?_

theorem State.regEncoding_keeps {z s : State} (h : Keeps z s) : Keeps z (State.regEncoding s) := by
  unfold State.regEncoding
  repeat' first
    | with_reducible assumption
    | with_reducible refine State.evt_keeps ?_

theorem State.writeField_keeps {z s : State} {b : Blk} {n o key mask v : Nat} {f : Nat × Nat × Acc} (h : Keeps z s) : Keeps z (State.writeField s b n o key mask v f) := by
  unfold State.writeField
  repeat' first
    | with_reducible assumption
    | with_reducible refine State.wr_keeps ?_
    | with_reducible refine State.regEncoding_keeps ?_
    | (extract_lets +onlyGivenNames y; clear_value y)
    | split

theorem State.writeReg_keeps {z s : State} {b : Blk} {n o mask v : Nat} (h : Keeps z s) : Keeps z (State.writeReg s b n o mask v) := by
  unfold State.writeReg
  repeat' first
    | with_reducible assumption
    | with_reducible refine State.writeField_keeps ?_
    | with_reducible refine Keeps.foldl (fun _ _ _ => ?_) ?_
    | split

theorem State.isleWrite_keeps {z s : State} {v : Nat} (h : Keeps z s) : Keeps z (State.isleWrite s v) := by
  unfold State.isleWrite
  repeat' first
    | with_reducible assumption
    | with_reducible refine State.writeReg_keeps ?_
    | with_reducible refine State.regEncoding_keeps ?_
    | with_reducible refine State.isleBounds_keeps ?_
    | (extract_lets +onlyGivenNames y; have hy : Keeps z y := ?_; clear_value y; rotate_left; subst y)
    | (extract_lets +onlyGivenNames y; clear_value y)
    | split

theorem State.jobWithheld_keeps {z s : State} {ch entry event : Nat} (h : Keeps z s) : Keeps z (State.jobWithheld s ch entry event) := by
  unfold State.jobWithheld
  repeat' first
    | with_reducible assumption
    | with_reducible refine State.modDisp_keeps ?_
    | with_reducible refine State.setDone_keeps ?_
    | split

theorem State.raiseCellScrub_keeps {z s : State} {phys : Nat} (h : Keeps z s) : Keeps z (State.raiseCellScrub s phys) := by
  unfold State.raiseCellScrub
  repeat' first
    | with_reducible assumption
    | with_reducible refine State.wr_keeps ?_
    | split

theorem State.lmTouch_keeps {z s : State} {id off n : Nat} (h : Keeps z s) : Keeps z (State.lmTouch s id off n) := by
  unfold State.lmTouch
  repeat' first
    | with_reducible assumption
    | exact fun _ hc => hc
    | exact fun _ hc => by simpa using hc
    | with_reducible refine State.modCell_keeps ?_ ?_
    | with_reducible refine State.raiseCellScrub_keeps ?_
    | with_reducible refine State.bump_keeps ?_
    | with_reducible refine Keeps.foldl (fun _ _ _ => ?_) ?_
    | (extract_lets +onlyGivenNames y; have hy : Keeps z y := ?_; clear_value y; rotate_left; subst y)
    | split

theorem State.modGov_keeps {z s : State} {f : Gov → Gov} (h : Keeps z s) : Keeps z (State.modGov s f) := by
  unfold State.modGov
  repeat' first
    | with_reducible assumption
    | with_reducible refine Keeps.frame ?_ rfl rfl

theorem State.modSwarm_keeps {z s : State} {id slot : Nat} {f : Swarm → Swarm} (h : Keeps z s) : Keeps z (State.modSwarm s id slot f) := by
  unfold State.modSwarm
  repeat' first
    | with_reducible assumption
    | exact fun _ hc => hc
    | exact fun _ hc => by simpa using hc
    | with_reducible refine State.modCell_keeps ?_ ?_

theorem State.outputPiece_keeps {z s : State} {ch i : Nat} {e : Bytes} {user : Nat} {payload : Bytes} (h : Keeps z s) : Keeps z (State.outputPiece s ch i e user payload) := by
  unfold State.outputPiece
  repeat' first
    | with_reducible assumption
    | with_reducible refine State.discardOutput_keeps ?_
    | with_reducible refine State.dEvt_keeps ?_
    | with_reducible refine State.putInst_keeps ?_
    | with_reducible refine State.forward_keeps ?_
    | with_reducible refine State.closeInst_keeps ?_
    | with_reducible refine State.settleInst_keeps ?_
    | (extract_lets +onlyGivenNames y; have hy : Keeps z y := ?_; clear_value y; rotate_left; subst y)
    | (extract_lets +onlyGivenNames y; clear_value y)
    | split

theorem State.parkReport_keeps {z s : State} {id slot code : Nat} (h : Keeps z s) : Keeps z (State.parkReport s id slot code) := by
  unfold State.parkReport
  repeat' first
    | with_reducible assumption
    | with_reducible refine State.abortCtx_keeps ?_
    | with_reducible refine State.dEvt_keeps ?_
    | split

theorem State.profileWrite_keeps {z s : State} {p : Nat} (h : Keeps z s) : Keeps z (State.profileWrite s p) := by
  unfold State.profileWrite
  repeat' first
    | with_reducible assumption
    | with_reducible refine State.evt_keeps ?_
    | with_reducible refine State.modGov_keeps ?_
    | with_reducible refine State.wr_keeps ?_
    | split

theorem State.queueErr_keeps {z s : State} {q : Nat} (h : Keeps z s) : Keeps z (State.queueErr s q) := by
  unfold State.queueErr
  repeat' first
    | with_reducible assumption
    | with_reducible refine State.evt_keeps ?_
    | with_reducible refine State.modQueue_keeps ?_

theorem State.raiseTo_keeps {z s : State} {i f : Nat} (h : Keeps z s) : Keeps z (State.raiseTo s i f) := by
  unfold State.raiseTo
  repeat' first
    | with_reducible assumption
    | with_reducible refine State.modIsle_keeps ?_

theorem State.refuse_keeps {z s : State} {p : Packet} {cause : Nat} (h : Keeps z s) : Keeps z (State.refuse s p cause) := by
  unfold State.refuse
  repeat' first
    | with_reducible assumption
    | with_reducible refine State.post_keeps ?_
    | split

theorem State.ringPutMsg_keeps {z s : State} {id base slot header : Nat} {payload : Bytes} (h : Keeps z s) : Keeps z (State.ringPutMsg s id base slot header payload) := by
  unfold State.ringPutMsg
  repeat' first
    | with_reducible assumption
    | exact fun _ hc => by simpa using hc
    | exact fun _ hc => by with_reducible exact CellMem.write_lm hc
    | with_reducible refine State.modCell_keeps ?_ ?_
    | with_reducible refine State.high_keeps ?_

theorem State.setFreq_keeps {z s : State} {i f : Nat} (h : Keeps z s) : Keeps z (State.setFreq s i f) := by
  unfold State.setFreq
  repeat' first
    | with_reducible assumption
    | with_reducible refine State.modIsle_keeps ?_

theorem State.stageWaiting_keeps {z : State} {x1 : Nat} {s : State} (h : Keeps z s) : Keeps z (State.stageWaiting x1 s) := by
  induction x1 generalizing s
  case zero => exact h
  case succ n ih =>
  unfold State.stageWaiting
  repeat' first
    | with_reducible assumption
    | with_reducible refine ih ?_
    | with_reducible refine State.stage_keeps ?_
    | (extract_lets +onlyGivenNames y; have hy : HostIf := y; clear hy; subst y)
    | split
    | with_reducible refine Keeps.frame ?_ rfl rfl

theorem State.wglMack_keeps {z s : State} {q stream id status : Nat} (h : Keeps z s) : Keeps z (State.wglMack s q stream id status) := by
  unfold State.wglMack
  repeat' first
    | with_reducible assumption
    | with_reducible refine State.wglStore_keeps ?_

end Sys2Proof.Machine
end

