-- ==== Sys2Proof/Laws/KeepsCells.lean ====
section
/-! SUPPORT. Keeps of the operations of the cells: the commit and the park, memory instructions, the matrix passes, tables, transfers and regions. -/
namespace Sys2Proof.Machine

theorem State.ctxEvent_keeps {z s : State} {id slot bit : Nat} (h : Keeps z s) : Keeps z (State.ctxEvent s id slot bit) := by
  unfold State.ctxEvent
  repeat' first
    | with_reducible assumption
    | with_reducible refine State.modCtx_keeps ?_
    | split

theorem State.cvtEvent_keeps {z s : State} {id slot : Nat} {e : CvtEv} (h : Keeps z s) : Keeps z (State.cvtEvent s id slot e) := by
  unfold State.cvtEvent
  repeat' first
    | with_reducible assumption
    | with_reducible refine State.ctxEvent_keeps ?_
    | with_reducible refine State.bump_keeps ?_
    | with_reducible refine State.wr_keeps ?_
    | (extract_lets +onlyGivenNames y; clear_value y)
    | split

theorem State.tabView_keeps {z s : State} {t : Sparse TabSlot} {ram : Sparse (BitVec 128)} {cmd : Option CellCmd} (h : Keeps z s) : Keeps z (State.tabView s t ram cmd).1 := by
  unfold State.tabView
  repeat' first
    | with_reducible assumption
    | with_reducible refine State.fresh_keeps ?_
    | split
    | refine Keeps.of_snd (by assumption) ?_

theorem State.activate_keeps {z s : State} {id : Nat} {o : OutPar} {v : Val} (h : Keeps z s) : Keeps z (State.activate s id o v).1 := by
  unfold State.activate
  repeat' first
    | with_reducible assumption
    | with_reducible refine State.cvtEvent_keeps ?_
    | with_reducible refine State.tabView_keeps ?_
    | (extract_lets +onlyGivenNames y; have hy : Keeps z y := ?_; clear_value y; rotate_left; subst y)
    | (extract_lets +onlyGivenNames y; clear_value y)
    | split

theorem State.ignored_keeps {z s : State} {id : Nat} (h : Keeps z s) : Keeps z (State.ignored s id) := by
  unfold State.ignored
  repeat' first
    | with_reducible assumption
    | with_reducible refine State.wr_keeps ?_

theorem State.reportPark_keeps {z s : State} {id slot code : Nat} (h : Keeps z s) : Keeps z (State.reportPark s id slot code) := by
  unfold State.reportPark
  repeat' first
    | with_reducible assumption
    | exact fun _ hc => hc
    | exact fun _ hc => by simpa using hc
    | with_reducible refine State.modCell_keeps ?_ ?_
    | with_reducible refine State.parkReport_keeps ?_
    | (extract_lets +onlyGivenNames y; clear_value y)
    | split

theorem State.parkAt_keeps {z s : State} {id slot : Nat} {p : Park} {at_ : Nat} (h : Keeps z s) : Keeps z (State.parkAt s id slot p at_) := by
  unfold State.parkAt
  repeat' first
    | with_reducible assumption
    | with_reducible refine State.ignored_keeps ?_
    | exact fun _ hc => hc
    | exact fun _ hc => by simpa using hc
    | with_reducible refine State.modCell_keeps ?_ ?_
    | with_reducible refine State.modSwarm_keeps ?_
    | with_reducible refine State.bump_keeps ?_
    | with_reducible refine State.reportPark_keeps ?_
    | (extract_lets +onlyGivenNames y; have hy : Keeps z y := ?_; clear_value y; rotate_left; subst y)
    | (extract_lets +onlyGivenNames y; clear_value y)
    | split

theorem State.park_keeps {z s : State} {id slot : Nat} {p : Park} (h : Keeps z s) : Keeps z (State.park s id slot p) := by
  unfold State.park
  repeat' first
    | with_reducible assumption
    | with_reducible refine State.parkAt_keeps ?_

theorem State.boundary_keeps {z s : State} {id slot : Nat} (h : Keeps z s) : Keeps z (State.boundary s id slot) := by
  unfold State.boundary
  repeat' first
    | with_reducible assumption
    | with_reducible refine State.park_keeps ?_
    | (extract_lets +onlyGivenNames y; clear_value y)
    | split

theorem State.asyncFault_keeps {z s : State} {id slot : Nat} {f : AsyncFault} (h : Keeps z s) : Keeps z (State.asyncFault s id slot f) := by
  unfold State.asyncFault
  repeat' first
    | with_reducible assumption
    | with_reducible refine State.boundary_keeps ?_
    | with_reducible refine State.modSwarm_keeps ?_
    | exact fun _ hc => hc
    | exact fun _ hc => by simpa using hc
    | with_reducible refine State.modCell_keeps ?_ ?_
    | with_reducible refine State.bump_keeps ?_
    | split

theorem State.asyncIssue_keeps {z s : State} {id : Nat} {mx : Bool} {o : AsyncOp} (h : Keeps z s) : Keeps z (State.asyncIssue s id mx o) := by
  unfold State.asyncIssue
  repeat' first
    | with_reducible assumption
    | with_reducible refine State.modSwarm_keeps ?_
    | exact fun _ hc => hc
    | exact fun _ hc => by simpa using hc
    | with_reducible refine State.modCell_keeps ?_ ?_
    | with_reducible refine State.high_keeps ?_
    | split

theorem State.tryReissue_keeps {z s : State} {id slot : Nat} (h : Keeps z s) : Keeps z (State.tryReissue s id slot) := by
  unfold State.tryReissue
  repeat' first
    | with_reducible assumption
    | with_reducible refine State.boundary_keeps ?_
    | with_reducible refine State.asyncIssue_keeps ?_
    | with_reducible refine State.modSwarm_keeps ?_
    | split

theorem State.asyncDone_keeps {z s : State} {id : Nat} {op : AsyncOp} {fault : Option (Nat × Nat)} (h : Keeps z s) : Keeps z (State.asyncDone s id op fault) := by
  unfold State.asyncDone
  repeat' first
    | with_reducible assumption
    | with_reducible refine State.modSwarm_keeps ?_
    | with_reducible refine State.asyncFault_keeps ?_
    | with_reducible refine State.tryReissue_keeps ?_
    | with_reducible refine Keeps.foldl (fun _ _ _ => ?_) ?_
    | split

theorem State.lmUceTold_keeps {z s : State} {id : Nat} (h : Keeps z s) : Keeps z (State.lmUceTold s id) := by
  unfold State.lmUceTold
  repeat' first
    | with_reducible assumption
    | with_reducible refine State.channelFault_keeps ?_
    | with_reducible refine State.bump_keeps ?_

theorem State.faultInsn_keeps {z s : State} {id slot word code detail : Nat} (h : Keeps z s) : Keeps z (State.faultInsn s id slot word code detail) := by
  unfold State.faultInsn
  repeat' first
    | with_reducible assumption
    | with_reducible refine State.park_keeps ?_

theorem State.issue_keeps {z s : State} {id slot : Nat} {row : Nat → Bool} {isC isBranch sup : Bool} {enc : Nat → List (Nat × Bool)} {regs : Nat → List (Nat × Nat)} {fmt : Nat → List (Nat × Bool)} {body : State → Nat → State} (h : Keeps z s) (hbody : ∀ y0 y1, Keeps z y0 → Keeps z (body y0 y1)) : Keeps z (State.issue s id slot row isC isBranch sup enc regs fmt body) := by
  unfold State.issue
  repeat' first
    | with_reducible assumption
    | with_reducible refine hbody _ _ ?_
    | with_reducible refine State.fresh_keeps ?_
    | with_reducible refine State.park_keeps ?_
    | with_reducible refine State.lmTouch_keeps ?_
    | with_reducible refine State.lmUceTold_keeps ?_
    | with_reducible refine State.faultInsn_keeps ?_
    | (extract_lets +onlyGivenNames y; have hy : Keeps z y := ?_; clear_value y; rotate_left; subst y)
    | (extract_lets +onlyGivenNames y; clear_value y)
    | split

theorem State.commit_keeps {z s : State} {id slot : Nat} (h : Keeps z s) : Keeps z (State.commit s id slot) := by
  unfold State.commit
  repeat' first
    | with_reducible assumption
    | with_reducible refine State.boundary_keeps ?_
    | with_reducible refine State.modSwarm_keeps ?_

theorem State.asyncInsn_keeps {z s : State} {id k opc : Nat} {mx : Bool} (h : Keeps z s) : Keeps z (State.asyncInsn s id k opc mx) := by
  unfold State.asyncInsn
  repeat' first
    | with_reducible assumption
    | with_reducible refine State.issue_keeps ?_ (fun _ _ _ => ?_)
    | with_reducible refine State.commit_keeps ?_
    | with_reducible refine State.asyncIssue_keeps ?_
    | (extract_lets +onlyGivenNames y; clear_value y)
    | split

theorem State.lmStores_keeps {z s : State} {id : Nat} {l : List (Nat × Bytes)} (h : Keeps z s) : Keeps z (State.lmStores s id l) := by
  unfold State.lmStores
  refine State.modCell_keeps (fun _ hc => CellMem.stores_lm hc) (Keeps.foldl (fun _ _ hs => ?_) h)
  split
  · exact State.modCell_keeps (fun _ hc => hc) hs
  · exact State.lmTouch_keeps hs

theorem State.atomApply_keeps {z s : State} {id : Nat} {p : Packet} (h : Keeps z s) : Keeps z (State.atomApply s id p).1 := by
  unfold State.atomApply
  repeat' first
    | with_reducible assumption
    | with_reducible refine State.lmTouch_keeps ?_
    | with_reducible refine State.lmStores_keeps ?_

theorem State.passes_keeps {z s : State} {id : Nat} {offs : List Nat} {w : Nat} (h : Keeps z s) : Keeps z (State.passes s id offs w) := by
  unfold State.passes
  repeat' first
    | with_reducible assumption
    | with_reducible refine State.incr_keeps ?_

theorem State.atomLocal_keeps {z s : State} {id slot x off : Nat} {lanes : List LaneAcc} (h : Keeps z s) : Keeps z (State.atomLocal s id slot x off lanes) := by
  unfold State.atomLocal
  repeat' first
    | with_reducible assumption
    | with_reducible refine State.lmTouch_keeps ?_
    | with_reducible refine State.lmStores_keeps ?_
    | with_reducible refine State.modSwarm_keeps ?_
    | (extract_lets +onlyGivenNames y; have hy : Keeps z y := ?_; clear_value y; rotate_left; subst y)
    | (extract_lets +onlyGivenNames y; clear_value y)
    | split

theorem State.atomRemote_keeps {z s : State} {id slot x cell off : Nat} {lanes : List LaneAcc} (h : Keeps z s) : Keeps z (State.atomRemote s id slot x cell off lanes) := by
  unfold State.atomRemote
  repeat' first
    | with_reducible assumption
    | with_reducible refine State.post_keeps ?_
    | with_reducible refine State.modSwarm_keeps ?_
    | (extract_lets +onlyGivenNames y; have hy : Keeps z y := ?_; clear_value y; rotate_left; subst y)
    | (extract_lets +onlyGivenNames y; clear_value y)
    | split

theorem State.atomDone_keeps {z s : State} {id slot x : Nat} (h : Keeps z s) : Keeps z (State.atomDone s id slot x) := by
  unfold State.atomDone
  repeat' first
    | with_reducible assumption
    | with_reducible refine State.passes_keeps ?_
    | with_reducible refine State.atomLocal_keeps ?_
    | with_reducible refine State.atomRemote_keeps ?_
    | with_reducible refine State.commit_keeps ?_
    | with_reducible refine Keeps.foldl (fun _ _ _ => ?_) ?_

theorem State.commitBranch_keeps {z s : State} {id slot : Nat} {taken : Bool} {target : Nat} (h : Keeps z s) : Keeps z (State.commitBranch s id slot taken target) := by
  unfold State.commitBranch
  repeat' first
    | with_reducible assumption
    | with_reducible refine State.boundary_keeps ?_
    | with_reducible refine State.modSwarm_keeps ?_

theorem State.branch_keeps {z s : State} {id k op : Nat} {a : Nat → Bool} {base : Swarm → Nat → Nat} (h : Keeps z s) : Keeps z (State.branch s id k op a base) := by
  unfold State.branch
  repeat' first
    | with_reducible assumption
    | with_reducible refine State.issue_keeps ?_ (fun _ _ _ => ?_)
    | with_reducible refine State.faultInsn_keeps ?_
    | with_reducible refine State.modSwarm_keeps ?_
    | with_reducible refine State.commitBranch_keeps ?_
    | (extract_lets +onlyGivenNames y; have hy : Keeps z y := ?_; clear_value y; rotate_left; subst y)
    | (extract_lets +onlyGivenNames y; clear_value y)
    | split

theorem State.sentRefused_keeps {z s : State} {e : Endpoint} (h : Keeps z s) : Keeps z (State.sentRefused s e) := by
  unfold State.sentRefused
  repeat' first
    | with_reducible assumption
    | with_reducible refine State.bump_keeps ?_
    | split

theorem State.inboundCount_keeps {z s : State} {id cause : Nat} (h : Keeps z s) : Keeps z (State.inboundCount s id cause) := by
  unfold State.inboundCount
  repeat' first
    | with_reducible assumption
    | with_reducible refine State.bump_keeps ?_
    | with_reducible refine State.lmUceTold_keeps ?_
    | split

theorem State.ringDeliver_keeps {z s : State} {i id base slots : Nat} {p : Packet} (h : Keeps z s) : Keeps z (State.ringDeliver s i id base slots p) := by
  unfold State.ringDeliver
  repeat' first
    | with_reducible assumption
    | with_reducible refine State.dropPkt_keeps ?_
    | with_reducible refine State.inboundCount_keeps ?_
    | with_reducible refine State.sentRefused_keeps ?_
    | with_reducible refine State.credit_keeps ?_
    | with_reducible refine State.refuse_keeps ?_
    | with_reducible refine State.ack_keeps ?_
    | with_reducible refine State.ringPutMsg_keeps ?_
    | (extract_lets +onlyGivenNames y; have hy : Keeps z y := ?_; clear_value y; rotate_left; subst y)
    | split

theorem State.cellMsg_keeps {z s : State} {i id : Nat} {p : Packet} (h : Keeps z s) : Keeps z (State.cellMsg s i id p) := by
  unfold State.cellMsg
  repeat' first
    | with_reducible assumption
    | with_reducible refine State.sentRefused_keeps ?_
    | with_reducible refine State.credit_keeps ?_
    | with_reducible refine State.dropPkt_keeps ?_
    | with_reducible refine State.ringDeliver_keeps ?_
    | with_reducible refine State.refuse_keeps ?_
    | with_reducible refine State.bump_keeps ?_
    | split
    | with_reducible refine Keeps.frame ?_ rfl rfl

theorem State.cellPassEnd_keeps {z s : State} {id : Nat} {found : Bool} (h : Keeps z s) : Keeps z (State.cellPassEnd s id found) := by
  unfold State.cellPassEnd
  repeat' first
    | with_reducible assumption
    | with_reducible refine State.wr_keeps ?_
    | (extract_lets +onlyGivenNames y; clear_value y)
    | split

theorem State.hbmWay_keeps {z s : State} {ch a : Nat} (h : Keeps z s) : Keeps z (State.hbmWay s ch a).1 := by
  unfold State.hbmWay
  repeat' first
    | with_reducible assumption
    | with_reducible refine State.countEnd_keeps ?_
    | split

theorem State.hbmUceTold_keeps {z s : State} {block : Nat} {scrub : Bool} (h : Keeps z s) : Keeps z (State.hbmUceTold s block scrub) := by
  unfold State.hbmUceTold
  repeat' first
    | with_reducible assumption
    | with_reducible refine State.bump_keeps ?_
    | with_reducible refine State.wr_keeps ?_
    | with_reducible refine State.channelFault_keeps ?_
    | with_reducible refine State.evt_keeps ?_

theorem State.hbmFetch_keeps {z s : State} {a n : Nat} (h : Keeps z s) : Keeps z (State.hbmFetch s a n).1 := by
  unfold State.hbmFetch
  repeat' first
    | with_reducible assumption
    | with_reducible refine State.hbmUceTold_keeps ?_
    | with_reducible refine State.hbmTouch_keeps ?_
    | (extract_lets +onlyGivenNames y; have hy : Keeps z y := ?_; clear_value y; rotate_left; subst y)
    | split

theorem State.hbmFrom_keeps {z s : State} {ch a n : Nat} (h : Keeps z s) : Keeps z (State.hbmFrom s ch a n).1 := by
  unfold State.hbmFrom
  repeat' first
    | with_reducible assumption
    | with_reducible refine State.hbmWay_keeps ?_
    | with_reducible refine State.hbmFetch_keeps ?_
    | split
    | refine Keeps.of_fst (by assumption) ?_

theorem State.walkRead_keeps {z s : State} {ch g p n sub : Nat} (h : Keeps z s) : Keeps z (State.walkRead s ch g p n sub).1 := by
  unfold State.walkRead
  repeat' first
    | with_reducible assumption
    | with_reducible refine State.hbmFrom_keeps ?_
    | split
    | refine Keeps.of_fst (by assumption) ?_

theorem State.walkDesc_keeps {z s : State} {ch a p : Nat} (h : Keeps z s) : Keeps z (State.walkDesc s ch a p).1 := by
  unfold State.walkDesc
  repeat' first
    | with_reducible assumption
    | with_reducible refine State.walkRead_keeps ?_
    | (extract_lets +onlyGivenNames y; clear_value y)
    | split
    | refine Keeps.of_fst (by assumption) ?_

theorem State.walkLeaf_keeps {z s : State} {ch a p : Nat} (h : Keeps z s) : Keeps z (State.walkLeaf s ch a p).1 := by
  unfold State.walkLeaf
  repeat' first
    | with_reducible assumption
    | with_reducible refine State.walkDesc_keeps ?_
    | split

theorem State.walkTable_keeps {z s : State} {ch a base : Nat} (h : Keeps z s) : Keeps z (State.walkTable s ch a base).1 := by
  unfold State.walkTable
  repeat' first
    | with_reducible assumption
    | with_reducible refine State.walkRead_keeps ?_
    | with_reducible refine State.walkLeaf_keeps ?_
    | (extract_lets +onlyGivenNames y; clear_value y)
    | split
    | refine Keeps.of_fst (by assumption) ?_

theorem State.walk_keeps {z s : State} {ch a : Nat} (h : Keeps z s) : Keeps z (State.walk s ch a).1 := by
  unfold State.walk
  repeat' first
    | with_reducible assumption
    | with_reducible refine State.walkRead_keeps ?_
    | with_reducible refine State.walkTable_keeps ?_
    | (extract_lets +onlyGivenNames y; clear_value y)
    | split
    | refine Keeps.of_fst (by assumption) ?_

theorem State.cellWalk_keeps {z s : State} {id a : Nat} (h : Keeps z s) : Keeps z (State.cellWalk s id a).1 := by
  unfold State.cellWalk
  repeat' first
    | with_reducible assumption
    | with_reducible refine State.walk_keeps ?_
    | with_reducible refine State.incr_keeps ?_

theorem State.qsat_keeps {z s : State} {id slot src : Nat} (h : Keeps z s) : Keeps z (State.qsat s id slot src) := by
  unfold State.qsat
  repeat' first
    | with_reducible assumption
    | with_reducible refine State.ctxEvent_keeps ?_
    | with_reducible refine State.wr_keeps ?_
    | with_reducible refine State.bump_keeps ?_

theorem State.clipEntry_keeps {z s : State} {id slot e : Nat} (h : Keeps z s) : Keeps z (State.clipEntry s id slot e) := by
  unfold State.clipEntry
  repeat' first
    | with_reducible assumption
    | exact fun _ hc => hc
    | exact fun _ hc => by simpa using hc
    | with_reducible refine State.modCell_keeps ?_ ?_
    | with_reducible refine State.qsat_keeps ?_
    | (extract_lets +onlyGivenNames y; have hy : Keeps z y := ?_; clear_value y; rotate_left; subst y)
    | (extract_lets +onlyGivenNames y; clear_value y)
    | split

theorem State.clipOther_keeps {z s : State} {id slot : Nat} (h : Keeps z s) : Keeps z (State.clipOther s id slot) := by
  unfold State.clipOther
  repeat' first
    | with_reducible assumption
    | with_reducible refine State.bump_keeps ?_
    | with_reducible refine State.qsat_keeps ?_
    | with_reducible refine State.wr_keeps ?_
    | (extract_lets +onlyGivenNames y; have hy : Keeps z y := ?_; clear_value y; rotate_left; subst y)
    | (extract_lets +onlyGivenNames y; clear_value y)
    | split

theorem State.countLast_keeps {z s : State} {src dst : Nat} (h : Keeps z s) : Keeps z (State.countLast s src dst) := by
  unfold State.countLast
  repeat' first
    | with_reducible assumption
    | with_reducible refine State.countEnd_keeps ?_
    | split

theorem State.creditAt_keeps {z s : State} {i : Nat} {restore : Bool} {link : LinkErr} (h : Keeps z s) : Keeps z (State.creditAt s i restore link) := by
  unfold State.creditAt
  repeat' first
    | with_reducible assumption
    | with_reducible refine State.arrive_keeps ?_ (fun _ _ _ => ?_)
    | with_reducible refine State.dropPkt_keeps ?_
    | with_reducible refine State.countLast_keeps ?_
    | exact fun _ hc => hc
    | exact fun _ hc => by simpa using hc
    | with_reducible refine State.modCell_keeps ?_ ?_
    | (extract_lets +onlyGivenNames y; have hy : Keeps z y := ?_; clear_value y; rotate_left; subst y)
    | (extract_lets +onlyGivenNames y; clear_value y)
    | split

theorem andThen_keeps {z : State} {x : State × Bool} {f : State → State × Bool} (h : Keeps z x.1) (hf : ∀ y0, Keeps z y0 → Keeps z (f y0).1) : Keeps z (andThen x f).1 := by
  unfold andThen
  repeat' first
    | with_reducible assumption
    | with_reducible refine hf _ ?_
    | split

theorem State.lmReads_keeps {z s : State} {id : Nat} {l : List (Nat × Nat)} (h : Keeps z s) : Keeps z (State.lmReads s id l).1 := by
  unfold State.lmReads
  repeat' first
    | with_reducible assumption
    | with_reducible refine State.lmUceTold_keeps ?_
    | with_reducible refine State.lmTouch_keeps ?_
    | with_reducible refine Keeps.foldl (fun _ _ _ => ?_) ?_
    | split

theorem State.folds_keeps {z s : State} {id n : Nat} (h : Keeps z s) : Keeps z (State.folds s id n) := by
  unfold State.folds
  repeat' first
    | with_reducible assumption
    | with_reducible refine State.incr_keeps ?_

theorem State.lmPut_keeps {z s : State} {id off : Nat} {bs : Bytes} (h : Keeps z s) : Keeps z (State.lmPut s id off bs).1 := by
  unfold State.lmPut
  repeat' first
    | with_reducible assumption
    | with_reducible refine State.lmUceTold_keeps ?_
    | with_reducible refine State.lmStores_keeps ?_
    | split

theorem eachOf_keeps {z : State} {x : State × Bool} {l : List α} {f : State → α → State × Bool} (h : Keeps z x.1) (hf : ∀ y0 y1, Keeps z y0 → Keeps z (f y0 y1).1) : Keeps z (eachOf x l f).1 := by
  unfold eachOf
  repeat' first
    | with_reducible assumption
    | with_reducible refine hf _ _ ?_
    | with_reducible refine andThen_keeps ?_ (fun _ _ => ?_)
    | with_reducible refine Keeps.foldl_fst (fun _ _ _ => ?_) ?_

theorem State.qovf_keeps {z s : State} {id slot : Nat} (h : Keeps z s) : Keeps z (State.qovf s id slot) := by
  unfold State.qovf
  repeat' first
    | with_reducible assumption
    | with_reducible refine State.ctxEvent_keeps ?_
    | with_reducible refine State.bump_keeps ?_
    | with_reducible refine State.wr_keeps ?_

theorem State.scaleView_keeps {z s : State} {f : Sparse Word} {cmd : Option CellCmd} (h : Keeps z s) : Keeps z (State.scaleView s f cmd).1 := by
  unfold State.scaleView
  repeat' first
    | with_reducible assumption
    | with_reducible refine State.fresh_keeps ?_
    | split
    | refine Keeps.of_snd (by assumption) ?_

theorem State.outScale_keeps {z s : State} {o : OutPar} {n : Nat} (h : Keeps z s) : Keeps z (State.outScale s o n).1 := by
  unfold State.outScale
  repeat' first
    | with_reducible assumption
    | with_reducible refine State.scaleView_keeps ?_
    | split

theorem State.outValue_keeps {z s : State} {id : Nat} {o : OutPar} {n : Nat} {q : Quire} (h : Keeps z s) : Keeps z (State.outValue s id o n q).1 := by
  unfold State.outValue
  repeat' first
    | with_reducible assumption
    | with_reducible refine State.qovf_keeps ?_
    | with_reducible refine State.activate_keeps ?_
    | with_reducible refine State.outScale_keeps ?_
    | with_reducible refine State.cvtEvent_keeps ?_
    | with_reducible refine State.clipEntry_keeps ?_
    | with_reducible refine State.clipOther_keeps ?_
    | (extract_lets +onlyGivenNames y; have hy : Keeps z y := ?_; clear_value y; rotate_left; subst y)
    | (extract_lets +onlyGivenNames y; clear_value y)
    | split
    | refine Keeps.of_fst (by assumption) ?_

theorem State.putC_keeps {z s : State} {id : Nat} {c : Bytes} {m n v : Nat} (h : Keeps z s) : Keeps z (State.putC s id c m n v).1 := by
  unfold State.putC
  repeat' first
    | with_reducible assumption
    | with_reducible refine andThen_keeps ?_ (fun _ _ => ?_)
    | with_reducible refine State.lmReads_keeps ?_
    | with_reducible refine State.lmPut_keeps ?_
    | (extract_lets +onlyGivenNames y; clear_value y)
    | split

theorem State.rowStat_keeps {z s : State} {id : Nat} {o : OutPar} {m : Nat} {r : RowAcc} (h : Keeps z s) : Keeps z (State.rowStat s id o m r).1 := by
  unfold State.rowStat
  repeat' first
    | with_reducible assumption
    | with_reducible refine State.lmPut_keeps ?_
    | with_reducible refine andThen_keeps ?_ (fun _ _ => ?_)
    | with_reducible refine State.lmReads_keeps ?_
    | (extract_lets +onlyGivenNames y; clear_value y)
    | split

theorem State.outRow_keeps {z s : State} {id : Nat} {i : PassIn} {o : OutPar} {fast : Bool} {m : Nat} {qs : List Quire} (h : Keeps z s) : Keeps z (State.outRow s id i o fast m qs).1 := by
  unfold State.outRow
  repeat' first
    | with_reducible assumption
    | with_reducible refine State.lmReads_keeps ?_
    | with_reducible refine State.lmPut_keeps ?_
    | with_reducible refine State.outValue_keeps ?_
    | with_reducible refine State.putC_keeps ?_
    | with_reducible refine andThen_keeps ?_ (fun _ _ => ?_)
    | with_reducible refine State.rowStat_keeps ?_
    | with_reducible refine Keeps.foldl_by (fun p : (State × _) × _ => p.1.1) (fun _ _ _ => ?_) ?_
    | (extract_lets +onlyGivenNames y; clear_value y)
    | split
    | refine Keeps.of_fst (by assumption) ?_

theorem State.outputStep_keeps {z s : State} {id : Nat} {i : PassIn} {run : AsyncRun} {qs : List Quire} (h : Keeps z s) : Keeps z (State.outputStep s id i run qs).1 := by
  unfold State.outputStep
  repeat' first
    | with_reducible assumption
    | with_reducible refine eachOf_keeps ?_ (fun _ _ _ => ?_)
    | with_reducible refine State.outRow_keeps ?_

theorem State.fastPass_keeps {z s : State} {id : Nat} {i : PassIn} {run : AsyncRun} {g0 : Nat} (h : Keeps z s) : Keeps z (State.fastPass s id i run g0).1 := by
  unfold State.fastPass
  repeat' first
    | with_reducible assumption
    | with_reducible refine andThen_keeps ?_ (fun _ _ => ?_)
    | with_reducible refine State.lmReads_keeps ?_
    | exact fun _ hc => by simpa using hc
    | with_reducible refine State.modCell_keeps ?_ ?_
    | with_reducible refine State.folds_keeps ?_
    | with_reducible refine State.lmPut_keeps ?_
    | with_reducible refine State.outputStep_keeps ?_
    | split

theorem State.fence_keeps {z s : State} {id k fn : Nat} (h : Keeps z s) : Keeps z (State.fence s id k fn) := by
  unfold State.fence
  repeat' first
    | with_reducible assumption
    | with_reducible refine State.issue_keeps ?_ (fun _ _ _ => ?_)
    | with_reducible refine State.commit_keeps ?_
    | split

theorem State.fillRegion_keeps {z s : State} {id : Nat} {ctx : Option Nat} {d : Desc} {addr : Nat} (h : Keeps z s) : Keeps z (State.fillRegion s id ctx d addr) := by
  unfold State.fillRegion
  repeat' first
    | with_reducible assumption
    | exact fun _ hc => hc
    | exact fun _ hc => by simpa using hc
    | with_reducible refine State.modCell_keeps ?_ ?_
    | (extract_lets +onlyGivenNames y; clear_value y)
    | split

theorem State.fnSat_keeps {z s : State} {id slot : Nat} (h : Keeps z s) : Keeps z (State.fnSat s id slot) := by
  unfold State.fnSat
  repeat' first
    | with_reducible assumption
    | with_reducible refine State.ctxEvent_keeps ?_
    | with_reducible refine State.bump_keeps ?_
    | with_reducible refine State.wr_keeps ?_

theorem State.fragAdd_keeps {z s : State} {id : Nat} {t : Tile} {sh : Shape} {prods : Nat → Nat → List Val} (h : Keeps z s) : Keeps z (State.fragAdd s id t sh prods) := by
  unfold State.fragAdd
  repeat' first
    | with_reducible assumption
    | exact fun _ hc => hc
    | exact fun _ hc => by simpa using hc
    | with_reducible refine State.modCell_keeps ?_ ?_
    | with_reducible refine State.folds_keeps ?_
    | (extract_lets +onlyGivenNames y; clear_value y)
    | split

theorem State.fragRows_keeps {z s : State} {id : Nat} {sh : Shape} {o : OutPar} {qs : List Quire} (h : Keeps z s) : Keeps z (State.fragRows s id sh o qs).1 := by
  unfold State.fragRows
  repeat' first
    | with_reducible assumption
    | with_reducible refine State.outValue_keeps ?_
    | with_reducible refine State.rowStat_keeps ?_
    | with_reducible refine Keeps.foldl_fst (fun _ _ _ => ?_) ?_

theorem State.ftabGo_keeps {z s : State} {w v op : Nat} (h : Keeps z s) : Keeps z (State.ftabGo s w v op) := by
  unfold State.ftabGo
  repeat' first
    | with_reducible assumption
    | with_reducible refine State.gated_keeps ?_ (fun _ _ => ?_)
    | with_reducible refine State.writeReg_keeps ?_
    | with_reducible refine State.wr_keeps ?_
    | exact fun _ hc => hc
    | exact fun _ hc => by simpa using hc
    | with_reducible refine State.modCell_keeps ?_ ?_
    | (extract_lets +onlyGivenNames y; have hy : Keeps z y := ?_; clear_value y; rotate_left; subst y)
    | (extract_lets +onlyGivenNames y; clear_value y)
    | split

theorem State.hbmStore_keeps {z s : State} {a : Nat} {bs : Bytes} (h : Keeps z s) : Keeps z (State.hbmStore s a bs).1 := by
  unfold State.hbmStore
  repeat' first
    | with_reducible assumption
    | with_reducible refine State.hbmTouch_keeps ?_
    | with_reducible refine State.hbmWrite_keeps ?_
    | with_reducible refine Keeps.foldl (fun _ _ _ => ?_) ?_
    | (extract_lets +onlyGivenNames y; have hy : Keeps z y := ?_; clear_value y; rotate_left; subst y)
    | (extract_lets +onlyGivenNames y; clear_value y)
    | split

theorem State.hbmTo_keeps {z s : State} {ch a : Nat} {bs : Bytes} (h : Keeps z s) : Keeps z (State.hbmTo s ch a bs).1 := by
  unfold State.hbmTo
  repeat' first
    | with_reducible assumption
    | with_reducible refine State.hbmWay_keeps ?_
    | with_reducible refine State.hbmStore_keeps ?_
    | split
    | refine Keeps.of_fst (by assumption) ?_

theorem State.hostMsgCount_keeps {z s : State} {ch q : Nat} (h : Keeps z s) : Keeps z (State.hostMsgCount s ch q).2 := by
  unfold State.hostMsgCount
  repeat' first
    | with_reducible assumption
    | with_reducible refine State.modFn_keeps ?_
    | (extract_lets +onlyGivenNames y; clear_value y)
    | split

theorem State.hostMsg_keeps {z s : State} {ch src tag user : Nat} {payload : Bytes} (h : Keeps z s) : Keeps z (State.hostMsg s ch src tag user payload).1 := by
  unfold State.hostMsg
  repeat' first
    | with_reducible assumption
    | with_reducible refine State.hostMsgCount_keeps ?_
    | with_reducible refine State.egressMsg_keeps ?_
    | (extract_lets +onlyGivenNames y; clear_value y)
    | split

theorem State.inboundStore_keeps {z s : State} {id off : Nat} {bs : Bytes} (h : Keeps z s) : Keeps z (State.inboundStore s id off bs).1 := by
  unfold State.inboundStore
  repeat' first
    | with_reducible assumption
    | with_reducible refine State.lmStores_keeps ?_
    | with_reducible refine State.inboundCount_keeps ?_
    | split

theorem State.laneConv_keeps {z s : State} {id slot : Nat} {c : Conv} (h : Keeps z s) : Keeps z (State.laneConv s id slot c) := by
  unfold State.laneConv
  repeat' first
    | with_reducible assumption
    | with_reducible refine State.cvtEvent_keeps ?_
    | with_reducible refine State.clipOther_keeps ?_
    | (extract_lets +onlyGivenNames y; have hy : Keeps z y := ?_; clear_value y; rotate_left; subst y)
    | split

theorem State.laneLookup_keeps {z s : State} {id x : Nat} {a : Val} (h : Keeps z s) : Keeps z (State.laneLookup s id x a).1 := by
  unfold State.laneLookup
  repeat' first
    | with_reducible assumption
    | with_reducible refine State.tabView_keeps ?_

theorem State.reportHeld_keeps {z : State} {x1 : Nat} {s : State} {x3 : Nat} (h : Keeps z s) : Keeps z (State.reportHeld x1 s x3) := by
  induction x1 generalizing s x3
  case zero => exact h
  case succ n ih =>
  unfold State.reportHeld
  repeat' first
    | with_reducible assumption
    | with_reducible refine ih ?_
    | exact fun _ hc => hc
    | exact fun _ hc => by simpa using hc
    | with_reducible refine State.modCell_keeps ?_ ?_
    | with_reducible refine State.parkReport_keeps ?_
    | split

theorem State.supervisorLeft_keeps {z s : State} {id : Nat} (h : Keeps z s) : Keeps z (State.supervisorLeft s id) := by
  unfold State.supervisorLeft
  repeat' first
    | with_reducible assumption
    | with_reducible refine State.reportHeld_keeps ?_

theorem State.leave_keeps {z s : State} {id slot : Nat} (h : Keeps z s) : Keeps z (State.leave s id slot) := by
  unfold State.leave
  repeat' first
    | with_reducible assumption
    | exact fun _ hc => hc
    | exact fun _ hc => by simpa using hc
    | with_reducible refine State.modCell_keeps ?_ ?_
    | with_reducible refine State.supervisorLeft_keeps ?_
    | (extract_lets +onlyGivenNames y; have hy : Keeps z y := ?_; clear_value y; rotate_left; subst y)
    | split

theorem State.loadDone_keeps {z s : State} {id slot x : Nat} {data : Sparse Bytes} (h : Keeps z s) : Keeps z (State.loadDone s id slot x data) := by
  unfold State.loadDone
  repeat' first
    | with_reducible assumption
    | with_reducible refine State.lmTouch_keeps ?_
    | with_reducible refine State.passes_keeps ?_
    | with_reducible refine State.laneConv_keeps ?_
    | with_reducible refine State.modSwarm_keeps ?_
    | with_reducible refine State.commit_keeps ?_
    | with_reducible refine Keeps.foldl (fun _ _ _ => ?_) ?_

theorem State.memAnswer_keeps {z s : State} {p : Packet} {status : Nat} {data : Bytes} (h : Keeps z s) : Keeps z (State.memAnswer s p status data) := by
  unfold State.memAnswer
  repeat' first
    | with_reducible assumption
    | with_reducible refine State.post_keeps ?_

theorem State.memFault_keeps {z s : State} {id slot x code detail : Nat} {bad : List LaneAcc} (h : Keeps z s) : Keeps z (State.memFault s id slot x code detail bad) := by
  unfold State.memFault
  repeat' first
    | with_reducible assumption
    | with_reducible refine State.park_keeps ?_

theorem State.memreq_keeps {z s : State} {id slot x : Nat} {a : LaneAcc} {d : Desc} {data : Option Bytes} (h : Keeps z s) : Keeps z (State.memreq s id slot x a d data) := by
  unfold State.memreq
  repeat' first
    | with_reducible assumption
    | with_reducible refine State.post_keeps ?_

theorem State.remoteStores_keeps {z s : State} {id slot : Nat} {l : List (Nat × Nat × Bytes)} (h : Keeps z s) : Keeps z (State.remoteStores s id slot l) := by
  unfold State.remoteStores
  repeat' first
    | with_reducible assumption
    | with_reducible refine State.post_keeps ?_
    | with_reducible refine Keeps.foldl (fun _ _ _ => ?_) ?_

theorem State.storeDone_keeps {z s : State} {id slot x : Nat} {descs : List (LaneAcc × Desc)} (h : Keeps z s) : Keeps z (State.storeDone s id slot x descs) := by
  unfold State.storeDone
  repeat' first
    | with_reducible assumption
    | with_reducible refine State.passes_keeps ?_
    | with_reducible refine State.laneConv_keeps ?_
    | with_reducible refine State.lmStores_keeps ?_
    | with_reducible refine State.memreq_keeps ?_
    | with_reducible refine State.remoteStores_keeps ?_
    | with_reducible refine State.commit_keeps ?_
    | with_reducible refine State.modSwarm_keeps ?_
    | with_reducible refine Keeps.foldl (fun _ _ _ => ?_) ?_

theorem State.memPerform_keeps {z s : State} {id slot x : Nat} {descs : List (LaneAcc × Desc)} (h : Keeps z s) : Keeps z (State.memPerform s id slot x descs) := by
  unfold State.memPerform
  repeat' first
    | with_reducible assumption
    | with_reducible refine State.memFault_keeps ?_
    | with_reducible refine State.lmUceTold_keeps ?_
    | with_reducible refine State.atomDone_keeps ?_
    | with_reducible refine State.storeDone_keeps ?_
    | with_reducible refine State.loadDone_keeps ?_
    | with_reducible refine State.memreq_keeps ?_
    | with_reducible refine State.modSwarm_keeps ?_
    | with_reducible refine Keeps.foldl (fun _ _ _ => ?_) ?_
    | (extract_lets +onlyGivenNames y; have hy : Keeps z y := ?_; clear_value y; rotate_left; subst y)
    | (extract_lets +onlyGivenNames y; clear_value y)
    | split

theorem State.memReturn_keeps {z s : State} {id slot lane code cause : Nat} {data : Bytes} (h : Keeps z s) : Keeps z (State.memReturn s id slot lane code cause data) := by
  unfold State.memReturn
  repeat' first
    | with_reducible assumption
    | with_reducible refine State.modSwarm_keeps ?_
    | with_reducible refine State.loadDone_keeps ?_
    | with_reducible refine State.memFault_keeps ?_
    | (extract_lets +onlyGivenNames y; have hy : Keeps z y := ?_; clear_value y; rotate_left; subst y)
    | (extract_lets +onlyGivenNames y; clear_value y)
    | split

theorem State.storeRefused_keeps {z s : State} {id : Nat} (h : Keeps z s) : Keeps z (State.storeRefused s id) := by
  unfold State.storeRefused
  repeat' first
    | with_reducible assumption
    | with_reducible refine State.bump_keeps ?_

theorem State.memSettled_keeps {z s : State} {id : Nat} {p : Packet} {status : Nat} (h : Keeps z s) : Keeps z (State.memSettled s id p status) := by
  unfold State.memSettled
  repeat' first
    | with_reducible assumption
    | with_reducible refine State.storeRefused_keeps ?_
    | with_reducible refine State.memReturn_keeps ?_
    | split

theorem State.memStep_keeps {z s : State} {id slot x : Nat} (h : Keeps z s) : Keeps z (State.memStep s id slot x) := by
  unfold State.memStep
  repeat' first
    | with_reducible assumption
    | with_reducible refine State.memFault_keeps ?_
    | with_reducible refine State.modSwarm_keeps ?_
    | with_reducible refine State.memPerform_keeps ?_
    | (extract_lets +onlyGivenNames y; clear_value y)
    | split

theorem State.memWalk_keeps {z s : State} {id slot : Nat} (h : Keeps z s) : Keeps z (State.memWalk s id slot) := by
  unfold State.memWalk
  repeat' first
    | with_reducible assumption
    | with_reducible refine State.memStep_keeps ?_
    | with_reducible refine State.cellWalk_keeps ?_
    | with_reducible refine State.fillRegion_keeps ?_
    | with_reducible refine State.modSwarm_keeps ?_
    | (extract_lets +onlyGivenNames y; clear_value y)
    | split

theorem State.put_keeps {z s : State} {id slot : Nat} {f : Swarm → Swarm} (h : Keeps z s) : Keeps z (State.put s id slot f) := by
  unfold State.put
  repeat' first
    | with_reducible assumption
    | with_reducible refine State.commit_keeps ?_
    | with_reducible refine State.modSwarm_keeps ?_

theorem State.modeEnd_keeps {z s : State} {id slot m : Nat} (h : Keeps z s) : Keeps z (State.modeEnd s id slot m) := by
  unfold State.modeEnd
  repeat' first
    | with_reducible assumption
    | with_reducible refine State.put_keeps ?_

theorem State.quadSend_keeps {z s : State} {q stream mtype tag : Nat} {arg payload : Bytes} (h : Keeps z s) : Keeps z (State.quadSend s q stream mtype tag arg payload) := by
  unfold State.quadSend
  repeat' first
    | with_reducible assumption
    | with_reducible refine State.wglMake_keeps ?_
    | with_reducible refine State.egressMsg_keeps ?_

theorem State.quadMsg_keeps {z s : State} {q src stream user : Nat} {payload : Bytes} (h : Keeps z s) : Keeps z (State.quadMsg s q src stream user payload).1 := by
  unfold State.quadMsg
  repeat' first
    | with_reducible assumption
    | with_reducible refine State.quadSend_keeps ?_
    | with_reducible refine State.modWgl_keeps ?_
    | (extract_lets +onlyGivenNames y; have hy : Keeps z y := ?_; clear_value y; rotate_left; subst y)
    | (extract_lets +onlyGivenNames y; clear_value y)
    | split

theorem State.msgAt_keeps {z s : State} {i : Nat} {p : Packet} (h : Keeps z s) : Keeps z (State.msgAt s i p) := by
  unfold State.msgAt
  repeat' first
    | with_reducible assumption
    | with_reducible refine State.cellMsg_keeps ?_
    | with_reducible refine State.quadMsg_keeps ?_
    | with_reducible refine State.dropPkt_keeps ?_
    | with_reducible refine State.ack_keeps ?_
    | with_reducible refine State.refuse_keeps ?_
    | with_reducible refine State.hostMsg_keeps ?_
    | with_reducible refine State.evt_keeps ?_
    | with_reducible refine State.bump_keeps ?_
    | (extract_lets +onlyGivenNames y; clear_value y)
    | split
    | refine Keeps.of_fst (by assumption) ?_

theorem State.passBegin_keeps {z s : State} {id : Nat} {i : PassIn} {op : AsyncOp} (h : Keeps z s) : Keeps z (State.passBegin s id i op).1 := by
  unfold State.passBegin
  repeat' first
    | with_reducible assumption
    | exact fun _ hc => hc
    | exact fun _ hc => by simpa using hc
    | with_reducible refine State.modCell_keeps ?_ ?_
    | with_reducible refine State.lmPut_keeps ?_
    | with_reducible refine andThen_keeps ?_ (fun _ _ => ?_)
    | with_reducible refine State.lmReads_keeps ?_
    | (extract_lets +onlyGivenNames y; have hy : Keeps z y := ?_; clear_value y; rotate_left; subst y)
    | (extract_lets +onlyGivenNames y; clear_value y)
    | split

theorem State.strictPass_keeps {z s : State} {id : Nat} {i : PassIn} {run : AsyncRun} (h : Keeps z s) : Keeps z (State.strictPass s id i run).1 := by
  unfold State.strictPass
  repeat' first
    | with_reducible assumption
    | exact fun _ hc => hc
    | exact fun _ hc => by simpa using hc
    | with_reducible refine State.modCell_keeps ?_ ?_
    | with_reducible refine State.outputStep_keeps ?_
    | with_reducible refine State.lmPut_keeps ?_
    | (extract_lets +onlyGivenNames y; have hy : Keeps z y := ?_; clear_value y; rotate_left; subst y)
    | (extract_lets +onlyGivenNames y; clear_value y)
    | split

theorem State.mxPass_keeps {z s : State} {id : Nat} {run : AsyncRun} (h : Keeps z s) : Keeps z (State.mxPass s id run).1 := by
  unfold State.mxPass
  repeat' first
    | with_reducible assumption
    | with_reducible refine andThen_keeps ?_ (fun _ _ => ?_)
    | with_reducible refine State.passBegin_keeps ?_
    | with_reducible refine State.lmReads_keeps ?_
    | with_reducible refine State.fastPass_keeps ?_
    | with_reducible refine State.strictPass_keeps ?_
    | (extract_lets +onlyGivenNames y; clear_value y)
    | split

theorem State.mxComplete_keeps {z s : State} {id : Nat} (h : Keeps z s) : Keeps z (State.mxComplete s id) := by
  unfold State.mxComplete
  repeat' first
    | with_reducible assumption
    | with_reducible refine State.mxPass_keeps ?_
    | exact fun _ hc => hc
    | exact fun _ hc => by simpa using hc
    | with_reducible refine State.modCell_keeps ?_ ?_
    | with_reducible refine State.asyncDone_keeps ?_
    | with_reducible refine State.incr_keeps ?_
    | split
    | refine Keeps.of_fst (by assumption) ?_

theorem State.touchAll_keeps {z s : State} {id : Nat} {l : List Nat} (h : Keeps z s) : Keeps z (State.touchAll s id l) := by
  unfold State.touchAll
  repeat' first
    | with_reducible assumption
    | with_reducible refine State.lmTouch_keeps ?_
    | with_reducible refine Keeps.foldl (fun _ _ _ => ?_) ?_

theorem State.mxStart_keeps {z s : State} {id : Nat} (h : Keeps z s) : Keeps z (State.mxStart s id) := by
  unfold State.mxStart
  repeat' first
    | with_reducible assumption
    | with_reducible refine State.tabView_keeps ?_
    | with_reducible refine State.lmUceTold_keeps ?_
    | with_reducible refine State.touchAll_keeps ?_
    | exact fun _ hc => hc
    | exact fun _ hc => by simpa using hc
    | with_reducible refine State.modCell_keeps ?_ ?_
    | (extract_lets +onlyGivenNames y; clear_value y)
    | split

theorem State.mxf_keeps {z s : State} {id k fn : Nat} {body : State → Nat → Except (Nat × Nat) State} (h : Keeps z s) (hbody : ∀ y0 y1, Keeps z y0 → KeepsEx z (body y0 y1)) : Keeps z (State.mxf s id k fn body) := by
  unfold State.mxf
  repeat' first
    | with_reducible assumption
    | with_reducible refine hbody _ _ ?_
    | with_reducible refine State.issue_keeps ?_ (fun _ _ _ => ?_)
    | with_reducible refine State.faultInsn_keeps ?_
    | with_reducible refine State.incr_keeps ?_
    | with_reducible refine State.commit_keeps ?_
    | with_reducible refine State.lmUceTold_keeps ?_
    | refine Keeps.of_ok (by assumption) ?_
    | (extract_lets +onlyGivenNames y; have hy : Keeps z y := ?_; clear_value y; rotate_left; subst y)
    | (extract_lets +onlyGivenNames y; have hy : State → _ := y; clear hy; subst y)
    | split

theorem State.resume_keeps {z s : State} {id slot : Nat} {reissue : Bool} (h : Keeps z s) : Keeps z (State.resume s id slot reissue).1 := by
  unfold State.resume
  extract_lets c
  split
  · exact State.modCell_keeps (fun c hc => by simpa only [CellMem.setRec_lm] using hc) h
  · exact State.boundary_keeps (State.tryReissue_keeps (State.modCell_keeps (fun c hc => by
      simpa only [CellMem.modSwarm_lm, CellMem.setRec_lm] using hc) h))

theorem State.requestPark_keeps {z s : State} {id slot detail : Nat} (h : Keeps z s) : Keeps z (State.requestPark s id slot detail) := by
  unfold State.requestPark
  repeat' first
    | with_reducible assumption
    | with_reducible refine State.ignored_keeps ?_
    | with_reducible refine State.boundary_keeps ?_
    | with_reducible refine State.modSwarm_keeps ?_
    | split

theorem State.slotCmd_keeps {z s : State} {id slot action : Nat} (h : Keeps z s) : Keeps z (State.slotCmd s id slot action).1 := by
  unfold State.slotCmd
  repeat' first
    | with_reducible assumption
    | with_reducible refine State.resume_keeps ?_
    | with_reducible refine State.ignored_keeps ?_
    | with_reducible refine State.requestPark_keeps ?_
    | with_reducible refine State.leave_keeps ?_
    | (extract_lets +onlyGivenNames y; clear_value y)
    | split

theorem State.parkCmd_keeps {z s : State} {window slot action : Nat} (h : Keeps z s) : Keeps z (State.parkCmd s window slot action) := by
  unfold State.parkCmd
  repeat' first
    | with_reducible assumption
    | with_reducible refine State.gated_keeps ?_ (fun _ _ => ?_)
    | with_reducible refine State.slotCmd_keeps ?_

theorem State.supEnd_keeps {z s : State} {id x : Nat} {ok : Bool} (h : Keeps z s) : Keeps z (State.supEnd s id x ok) := by
  unfold State.supEnd
  repeat' first
    | with_reducible assumption
    | with_reducible refine State.put_keeps ?_

theorem State.pctl_keeps {z s : State} {id k action : Nat} (h : Keeps z s) : Keeps z (State.pctl s id k action) := by
  unfold State.pctl
  repeat' first
    | with_reducible assumption
    | with_reducible refine State.issue_keeps ?_ (fun _ _ _ => ?_)
    | with_reducible refine State.supEnd_keeps ?_
    | with_reducible refine State.ignored_keeps ?_
    | with_reducible refine State.slotCmd_keeps ?_
    | split

theorem State.recvTake_keeps {z s : State} {id k x base : Nat} {g : RingMsg} (h : Keeps z s) : Keeps z (State.recvTake s id k x base g) := by
  unfold State.recvTake
  repeat' first
    | with_reducible assumption
    | with_reducible refine State.lmTouch_keeps ?_
    | exact fun _ hc => hc
    | exact fun _ hc => by simpa using hc
    | with_reducible refine State.modCell_keeps ?_ ?_
    | with_reducible refine State.lmStores_keeps ?_
    | with_reducible refine State.credit_keeps ?_
    | with_reducible refine State.modSwarm_keeps ?_
    | split

theorem State.recvInsn_keeps {z s : State} {id k : Nat} {poll : Bool} (h : Keeps z s) : Keeps z (State.recvInsn s id k poll) := by
  unfold State.recvInsn
  repeat' first
    | with_reducible assumption
    | with_reducible refine State.issue_keeps ?_ (fun _ _ _ => ?_)
    | with_reducible refine State.faultInsn_keeps ?_
    | with_reducible refine State.put_keeps ?_
    | with_reducible refine State.lmUceTold_keeps ?_
    | with_reducible refine State.recvTake_keeps ?_
    | (extract_lets +onlyGivenNames y; have hy : Keeps z y := ?_; clear_value y; rotate_left; subst y)
    | (extract_lets +onlyGivenNames y; clear_value y)
    | split

theorem State.regionSync_keeps {z s : State} {ch v mode : Nat} (h : Keeps z s) : Keeps z (State.regionSync s ch v mode) := by
  unfold State.regionSync
  repeat' first
    | with_reducible assumption
    | with_reducible refine State.gated_keeps ?_ (fun _ _ => ?_)
    | with_reducible refine State.regEncoding_keeps ?_
    | with_reducible refine State.writeReg_keeps ?_
    | with_reducible refine State.wr_keeps ?_
    | with_reducible refine State.modDisp_keeps ?_
    | (extract_lets +onlyGivenNames y; have hy : Keeps z y := ?_; clear_value y; rotate_left; subst y)
    | split

theorem State.remoteRefused_keeps {z s : State} {id : Nat} {o : Origin} (h : Keeps z s) : Keeps z (State.remoteRefused s id o) := by
  unfold State.remoteRefused
  repeat' first
    | with_reducible assumption
    | with_reducible refine State.bump_keeps ?_
    | with_reducible refine State.modSwarm_keeps ?_
    | (extract_lets +onlyGivenNames y; have hy : Keeps z y := ?_; clear_value y; rotate_left; subst y)
    | split

theorem State.remotePut_keeps {z s : State} {id dst off : Nat} {bs : Bytes} (h : Keeps z s) : Keeps z (State.remotePut s id dst off bs) := by
  unfold State.remotePut
  repeat' first
    | with_reducible assumption
    | with_reducible refine State.remoteRefused_keeps ?_
    | with_reducible refine State.countEnd_keeps ?_
    | with_reducible refine State.inboundStore_keeps ?_
    | split
    | refine Keeps.of_fst (by assumption) ?_

theorem State.rowOp_keeps {z s : State} {id k x : Nat} {badCount write reads : Bool} {f : State → State} (h : Keeps z s) (hf : ∀ y0, Keeps z y0 → Keeps z (f y0)) : Keeps z (State.rowOp s id k x badCount write reads f) := by
  unfold State.rowOp
  repeat' first
    | with_reducible assumption
    | with_reducible refine hf _ ?_
    | with_reducible refine State.faultInsn_keeps ?_
    | with_reducible refine State.lmUceTold_keeps ?_
    | with_reducible refine State.lmTouch_keeps ?_
    | (extract_lets +onlyGivenNames y; clear_value y)
    | split

theorem State.scaleDone_keeps {z s : State} {w : Nat} {cmd : CellCmd} (h : Keeps z s) : Keeps z (State.scaleDone s w cmd) := by
  unfold State.scaleDone
  repeat' first
    | with_reducible assumption
    | exact fun _ hc => hc
    | exact fun _ hc => by simpa using hc
    | with_reducible refine State.modCell_keeps ?_ ?_
    | with_reducible refine State.wr_keeps ?_
    | (extract_lets +onlyGivenNames y; have hy : Keeps z y := ?_; clear_value y; rotate_left; subst y)
    | (extract_lets +onlyGivenNames y; clear_value y)
    | split

theorem State.scaleGo_keeps {z s : State} {w v op : Nat} (h : Keeps z s) : Keeps z (State.scaleGo s w v op) := by
  unfold State.scaleGo
  repeat' first
    | with_reducible assumption
    | with_reducible refine State.gated_keeps ?_ (fun _ _ => ?_)
    | with_reducible refine State.writeReg_keeps ?_
    | with_reducible refine State.wr_keeps ?_
    | exact fun _ hc => hc
    | exact fun _ hc => by simpa using hc
    | with_reducible refine State.modCell_keeps ?_ ?_
    | (extract_lets +onlyGivenNames y; have hy : Keeps z y := ?_; clear_value y; rotate_left; subst y)
    | (extract_lets +onlyGivenNames y; clear_value y)
    | split

theorem State.scaleLanes_keeps {z s : State} {id k x : Nat} {r : Val} (h : Keeps z s) : Keeps z (State.scaleLanes s id k x r) := by
  unfold State.scaleLanes
  repeat' first
    | with_reducible assumption
    | with_reducible refine State.modSwarm_keeps ?_
    | with_reducible refine State.laneConv_keeps ?_
    | with_reducible refine Keeps.foldl (fun _ _ _ => ?_) ?_

theorem State.scrubCell_keeps {z s : State} {id : Nat} {ecc : EccSeen} (h : Keeps z s) : Keeps z (State.scrubCell s id ecc) := by
  unfold State.scrubCell
  repeat' first
    | with_reducible assumption
    | exact fun _ hc => hc
    | exact fun _ hc => by simpa using hc
    | with_reducible refine State.modCell_keeps ?_ ?_
    | with_reducible refine State.lmTouch_keeps ?_
    | with_reducible refine State.lmUceTold_keeps ?_
    | with_reducible refine State.cellPassEnd_keeps ?_
    | (extract_lets +onlyGivenNames y; have hy : Keeps z y := ?_; clear_value y; rotate_left; subst y)
    | (extract_lets +onlyGivenNames y; clear_value y)
    | split

theorem State.stackPassEnd_keeps {z s : State} {n : Nat} {found : Bool} (h : Keeps z s) : Keeps z (State.stackPassEnd s n found) := by
  unfold State.stackPassEnd
  repeat' first
    | with_reducible assumption
    | with_reducible refine State.incr_keeps ?_
    | with_reducible refine State.wr_keeps ?_
    | (extract_lets +onlyGivenNames y; have hy : Keeps z y := ?_; clear_value y; rotate_left; subst y)
    | split

theorem State.scrubStack_keeps {z s : State} {n : Nat} {ecc : EccSeen} (h : Keeps z s) : Keeps z (State.scrubStack s n ecc) := by
  unfold State.scrubStack
  repeat' first
    | with_reducible assumption
    | with_reducible refine State.hbmTouch_keeps ?_
    | with_reducible refine State.hbmUceTold_keeps ?_
    | with_reducible refine State.stackPassEnd_keeps ?_
    | (extract_lets +onlyGivenNames y; have hy : Keeps z y := ?_; clear_value y; rotate_left; subst y)
    | (extract_lets +onlyGivenNames y; clear_value y)
    | split
    | with_reducible refine Keeps.frame ?_ rfl rfl

theorem State.sendDynamic_keeps {z s : State} {id slot t : Nat} {payload : Bytes} (h : Keeps z s) : Keeps z (State.sendDynamic s id slot t payload) := by
  unfold State.sendDynamic
  repeat' first
    | with_reducible assumption
    | with_reducible refine State.post_keeps ?_

theorem State.sendStatic_keeps {z s : State} {id slot t : Nat} {payload e : Bytes} (h : Keeps z s) : Keeps z (State.sendStatic s id slot t payload e) := by
  unfold State.sendStatic
  repeat' first
    | with_reducible assumption
    | exact fun _ hc => hc
    | exact fun _ hc => by simpa using hc
    | with_reducible refine State.modCell_keeps ?_ ?_
    | with_reducible refine State.send_keeps ?_
    | with_reducible refine Keeps.foldl (fun _ _ _ => ?_) ?_

theorem State.sendInsn_keeps {z s : State} {id k fn : Nat} (h : Keeps z s) : Keeps z (State.sendInsn s id k fn) := by
  unfold State.sendInsn
  repeat' first
    | with_reducible assumption
    | with_reducible refine State.issue_keeps ?_ (fun _ _ _ => ?_)
    | with_reducible refine State.faultInsn_keeps ?_
    | with_reducible refine State.lmUceTold_keeps ?_
    | with_reducible refine State.lmTouch_keeps ?_
    | with_reducible refine State.commit_keeps ?_
    | with_reducible refine State.sendDynamic_keeps ?_
    | with_reducible refine State.sendStatic_keeps ?_
    | (extract_lets +onlyGivenNames y; have hy : Keeps z y := ?_; clear_value y; rotate_left; subst y)
    | (extract_lets +onlyGivenNames y; clear_value y)
    | split

theorem State.sfuLanes_keeps {z s : State} {id k x : Nat} (h : Keeps z s) : Keeps z (State.sfuLanes s id k x) := by
  unfold State.sfuLanes
  repeat' first
    | with_reducible assumption
    | with_reducible refine State.laneLookup_keeps ?_
    | with_reducible refine State.laneConv_keeps ?_
    | with_reducible refine State.fnSat_keeps ?_
    | with_reducible refine State.modSwarm_keeps ?_
    | with_reducible refine Keeps.foldl (fun _ _ _ => ?_) ?_
    | split

theorem State.smSat_keeps {z s : State} {id slot : Nat} (h : Keeps z s) : Keeps z (State.smSat s id slot) := by
  unfold State.smSat
  repeat' first
    | with_reducible assumption
    | with_reducible refine State.ctxEvent_keeps ?_
    | with_reducible refine State.bump_keeps ?_
    | with_reducible refine State.wr_keeps ?_

theorem State.supOn_keeps {z s : State} {id x : Nat} {f : Nat → Option State} (h : Keeps z s) (hf : ∀ y0, KeepsOpt z (f y0)) : Keeps z (State.supOn s id x f) := by
  unfold State.supOn
  repeat' first
    | with_reducible assumption
    | with_reducible refine hf _ 
    | with_reducible refine State.supEnd_keeps ?_
    | with_reducible refine State.ignored_keeps ?_
    | refine Keeps.of_opt (by assumption) ?_
    | split

theorem State.syncWalk_keeps {z s : State} {ch k i addr : Nat} (h : Keeps z s) : Keeps z (State.syncWalk s ch k i addr).1 := by
  unfold State.syncWalk
  repeat' first
    | with_reducible assumption
    | with_reducible refine State.walk_keeps ?_
    | with_reducible refine State.bump_keeps ?_
    | with_reducible refine State.modDisp_keeps ?_
    | split

theorem State.syncItem_keeps {z s : State} {ch id k i addr : Nat} (h : Keeps z s) : Keeps z (State.syncItem s ch id k i addr) := by
  unfold State.syncItem
  repeat' first
    | with_reducible assumption
    | with_reducible refine State.syncWalk_keeps ?_
    | exact fun _ hc => hc
    | exact fun _ hc => by simpa using hc
    | with_reducible refine State.modCell_keeps ?_ ?_
    | (extract_lets +onlyGivenNames y; clear_value y)
    | split

theorem State.syncCell_keeps {z s : State} {ch id : Nat} (h : Keeps z s) : Keeps z (State.syncCell s ch id) := by
  unfold State.syncCell
  repeat' first
    | with_reducible assumption
    | exact fun _ hc => hc
    | exact fun _ hc => by simpa using hc
    | with_reducible refine State.modCell_keeps ?_ ?_
    | with_reducible refine State.syncItem_keeps ?_
    | with_reducible refine Keeps.foldl (fun _ _ _ => ?_) ?_
    | (extract_lets +onlyGivenNames y; clear_value y)
    | split

theorem State.valuFloat_keeps {z s : State} {id k op : Nat} {f : Fmt} (h : Keeps z s) : Keeps z (State.valuFloat s id k op f) := by
  unfold State.valuFloat
  repeat' first
    | with_reducible assumption
    | with_reducible refine State.issue_keeps ?_ (fun _ _ _ => ?_)
    | with_reducible refine State.put_keeps ?_

theorem XferSt.flush_keeps {z : State} {x : XferSt} {id : Nat} (h : Keeps z x.s) : Keeps z ((XferSt.flush x id)).s := by
  unfold XferSt.flush
  repeat' first
    | with_reducible assumption
    | with_reducible refine State.remotePut_keeps ?_
    | split

theorem XferSt.stop_keeps {z : State} {x : XferSt} {s : State} {code detail : Nat} (h : Keeps z s) : Keeps z ((XferSt.stop x s code detail)).s := by
  unfold XferSt.stop
  repeat' first
    | with_reducible assumption

theorem State.xferCover_keeps {z s : State} {id slot a n : Nat} {write : Bool} (h : Keeps z s) : Keeps z (State.xferCover s id slot a n write).1 := by
  unfold State.xferCover
  repeat' first
    | with_reducible assumption
    | with_reducible refine State.cellWalk_keeps ?_
    | with_reducible refine State.fillRegion_keeps ?_
    | (extract_lets +onlyGivenNames y; have hy : Keeps z y := ?_; clear_value y; rotate_left; subst y)
    | (extract_lets +onlyGivenNames y; clear_value y)
    | split
    | refine Keeps.of_fst (by assumption) ?_

theorem XferSt.read_keeps {z : State} {x : XferSt} {id slot : Nat} {l : Loc} {n : Nat} (h : Keeps z x.s) : Keeps z (XferSt.read x id slot l n).1.s := by
  unfold XferSt.read
  repeat' first
    | with_reducible assumption
    | with_reducible refine State.lmReads_keeps ?_
    | with_reducible refine XferSt.stop_keeps ?_
    | with_reducible refine State.xferCover_keeps ?_
    | with_reducible refine State.hbmFrom_keeps ?_
    | split
    | refine Keeps.of_fst (by assumption) ?_

theorem XferSt.value_keeps {z : State} {x : XferSt} {id slot : Nat} {b : Bytes} {e : Elem} (h : Keeps z x.s) : Keeps z (XferSt.value x id slot b e).1.s := by
  unfold XferSt.value
  repeat' first
    | with_reducible assumption
    | with_reducible refine XferSt.read_keeps ?_
    | (extract_lets +onlyGivenNames y; clear_value y)
    | split
    | refine Keeps.of_fst_s (by assumption) ?_

theorem XferSt.write_keeps {z : State} {x : XferSt} {id slot : Nat} {l : Loc} {bs : Bytes} (h : Keeps z x.s) : Keeps z ((XferSt.write x id slot l bs)).s := by
  unfold XferSt.write
  repeat' first
    | with_reducible assumption
    | with_reducible refine State.lmPut_keeps ?_
    | with_reducible refine XferSt.stop_keeps ?_
    | with_reducible refine XferSt.flush_keeps ?_
    | with_reducible refine State.xferCover_keeps ?_
    | with_reducible refine State.hostWrite_keeps ?_
    | with_reducible refine State.hbmTo_keeps ?_
    | with_reducible refine State.storeRefused_keeps ?_
    | (extract_lets +onlyGivenNames y; have hy : Keeps z y.1 := ?_; clear_value y; rotate_left; subst y)
    | split
    | refine Keeps.of_fst (by assumption) ?_

theorem XferSt.put_keeps {z : State} {x : XferSt} {id slot : Nat} {dst : Bytes} {i v : Nat} (h : Keeps z x.s) : Keeps z ((XferSt.put x id slot dst i v)).s := by
  unfold XferSt.put
  repeat' first
    | with_reducible assumption
    | with_reducible refine XferSt.write_keeps ?_
    | (extract_lets +onlyGivenNames y; clear_value y)
    | split

theorem XferSt.putVal_keeps {z : State} {x : XferSt} {id slot : Nat} {dst : Bytes} {i : Nat} {v : Val} (h : Keeps z x.s) : Keeps z ((XferSt.putVal x id slot dst i v)).s := by
  unfold XferSt.putVal
  repeat' first
    | with_reducible assumption
    | with_reducible refine XferSt.put_keeps ?_
    | with_reducible refine State.laneConv_keeps ?_
    | split

theorem XferSt.copy_keeps {z : State} {x : XferSt} {id slot : Nat} {i : XferIn} {k : Nat} (h : Keeps z x.s) : Keeps z ((XferSt.copy x id slot i k)).s := by
  unfold XferSt.copy
  repeat' first
    | with_reducible assumption
    | with_reducible refine XferSt.value_keeps ?_
    | with_reducible refine XferSt.put_keeps ?_
    | with_reducible refine XferSt.putVal_keeps ?_
    | split
    | refine Keeps.of_fst_s (by assumption) ?_

theorem XferSt.argmax_keeps {z : State} {x : XferSt} {id slot : Nat} {i : XferIn} {k : Nat} (h : Keeps z x.s) : Keeps z ((XferSt.argmax x id slot i k)).s := by
  unfold XferSt.argmax
  repeat' first
    | with_reducible assumption
    | with_reducible refine XferSt.value_keeps ?_
    | with_reducible refine XferSt.put_keeps ?_
    | with_reducible refine Keeps.foldl_by (fun p : XferSt × _ => p.1.s) (fun _ _ _ => ?_) ?_

theorem XferSt.tap_keeps {z : State} {x : XferSt} {id slot : Nat} {i : XferIn} {oy ox t cb c : Nat} (h : Keeps z x.s) : Keeps z (XferSt.tap x id slot i oy ox t cb c).1.s := by
  unfold XferSt.tap
  repeat' first
    | with_reducible assumption
    | with_reducible refine XferSt.value_keeps ?_
    | split

theorem XferSt.pool_keeps {z : State} {x : XferSt} {id slot : Nat} {i : XferIn} {k : Nat} (h : Keeps z x.s) : Keeps z ((XferSt.pool x id slot i k)).s := by
  unfold XferSt.pool
  repeat' first
    | with_reducible assumption
    | with_reducible refine XferSt.tap_keeps ?_
    | with_reducible refine XferSt.putVal_keeps ?_
    | with_reducible refine Keeps.foldl_by (fun p : XferSt × _ => p.1.s) (fun _ _ _ => ?_) ?_

theorem XferSt.all_keeps {z : State} {x : XferSt} {id slot : Nat} {i : XferIn} (h : Keeps z x.s) : Keeps z ((XferSt.all x id slot i)).s := by
  unfold XferSt.all
  repeat' first
    | with_reducible assumption
    | with_reducible refine XferSt.flush_keeps ?_
    | with_reducible refine XferSt.copy_keeps ?_
    | with_reducible refine XferSt.argmax_keeps ?_
    | with_reducible refine XferSt.pool_keeps ?_
    | with_reducible refine Keeps.foldl_by XferSt.s (fun _ _ _ => ?_) ?_
    | split

theorem State.xferComplete_keeps {z s : State} {id : Nat} {host : Bytes} (h : Keeps z s) : Keeps z (State.xferComplete s id host) := by
  unfold State.xferComplete
  repeat' first
    | with_reducible assumption
    | with_reducible refine XferSt.all_keeps ?_
    | exact fun _ hc => hc
    | exact fun _ hc => by simpa using hc
    | with_reducible refine State.modCell_keeps ?_ ?_
    | with_reducible refine State.asyncDone_keeps ?_
    | with_reducible refine State.incr_keeps ?_
    | split

theorem State.xferStart_keeps {z s : State} {id : Nat} (h : Keeps z s) : Keeps z (State.xferStart s id) := by
  unfold State.xferStart
  repeat' first
    | with_reducible assumption
    | with_reducible refine State.lmUceTold_keeps ?_
    | with_reducible refine State.touchAll_keeps ?_
    | exact fun _ hc => hc
    | exact fun _ hc => by simpa using hc
    | with_reducible refine State.modCell_keeps ?_ ?_
    | (extract_lets +onlyGivenNames y; clear_value y)
    | split

end Sys2Proof.Machine
end

