-- ==== Sys2Proof/Laws/KeepsSensors.lean ====
section
/-! SUPPORT. Keeps of the operations of ingest and of the camera pipeline. -/
namespace Sys2Proof.Machine

theorem State.modCam_keeps {z s : State} {ch : Nat} {f : Cam → Cam} (h : Keeps z s) : Keeps z (State.modCam s ch f) := by
  unfold State.modCam
  repeat' first
    | with_reducible assumption
    | with_reducible refine Keeps.frame ?_ rfl rfl

theorem State.modGroup_keeps {z s : State} {ch f : Nat} {u : CamGroup → CamGroup} (h : Keeps z s) : Keeps z (State.modGroup s ch f u) := by
  unfold State.modGroup
  repeat' first
    | with_reducible assumption
    | with_reducible refine State.modCam_keeps ?_

theorem State.flagGroup_keeps {z s : State} {ch f mask : Nat} (h : Keeps z s) : Keeps z (State.flagGroup s ch f mask) := by
  unfold State.flagGroup
  repeat' first
    | with_reducible assumption
    | with_reducible refine State.modGroup_keeps ?_

theorem State.modReq_keeps {z s : State} {ch i : Nat} {f : CamReq → CamReq} (h : Keeps z s) : Keeps z (State.modReq s ch i f) := by
  unfold State.modReq
  repeat' first
    | with_reducible assumption
    | with_reducible refine State.modCam_keeps ?_

theorem State.camApply_keeps {z s : State} {ch f : Nat} {r : CamReq} (h : Keeps z s) : Keeps z (State.camApply s ch f r) := by
  unfold State.camApply
  repeat' first
    | with_reducible assumption
    | with_reducible refine State.wr_keeps ?_
    | with_reducible refine State.modCam_keeps ?_
    | with_reducible refine State.flagGroup_keeps ?_
    | with_reducible refine State.modReq_keeps ?_
    | with_reducible refine State.modGroup_keeps ?_
    | split

theorem State.freeBytes_keeps {z s : State} {x1 : Nat} (h : Keeps z s) : Keeps z (State.freeBytes s x1).2 := by
  induction x1 generalizing s
  case zero => exact h
  case succ n ih =>
  unfold State.freeBytes
  repeat' first
    | with_reducible assumption
    | with_reducible refine ih ?_
    | with_reducible refine State.fresh_keeps ?_

theorem State.camRead_keeps {z s : State} {a n : Nat} (h : Keeps z s) : Keeps z (State.camRead s a n).2 := by
  unfold State.camRead
  repeat' first
    | with_reducible assumption
    | with_reducible refine State.hbmFetch_keeps ?_
    | with_reducible refine State.freeBytes_keeps ?_
    | split
    | refine Keeps.of_fst (by assumption) ?_

theorem State.camBanks_keeps {z s : State} {ch : Nat} {g : CamGroup} {ctxs : List Nat} (h : Keeps z s) : Keeps z (State.camBanks s ch g ctxs).2 := by
  unfold State.camBanks
  repeat' first
    | with_reducible assumption
    | with_reducible refine State.camRead_keeps ?_
    | with_reducible refine State.hrdRecord_keeps ?_
    | with_reducible refine Keeps.foldl_snd (fun _ _ _ => ?_) ?_
    | (extract_lets +onlyGivenNames y; have hy : Keeps z y := ?_; clear_value y; rotate_left; subst y)
    | (extract_lets +onlyGivenNames y; clear_value y)
    | split
    | refine Keeps.of_snd (by assumption) ?_
    | with_reducible refine Keeps.frame ?_ rfl rfl

theorem State.camRaise_keeps {z s : State} {ch code : Nat} (h : Keeps z s) : Keeps z (State.camRaise s ch code) := by
  unfold State.camRaise
  repeat' first
    | with_reducible assumption
    | with_reducible refine State.bump_keeps ?_
    | with_reducible refine State.evt_keeps ?_
    | split

theorem State.modCamFrame_keeps {z s : State} {ch k : Nat} {u : CamFrame → CamFrame} (h : Keeps z s) : Keeps z (State.modCamFrame s ch k u) := by
  unfold State.modCamFrame
  repeat' first
    | with_reducible assumption
    | with_reducible refine State.modCam_keeps ?_

theorem State.camLine_keeps {z s : State} {ch : Nat} {p : Bytes} {x : CamFrame} {pix : List Nat} (h : Keeps z s) : Keeps z (State.camLine s ch p x pix) := by
  unfold State.camLine
  repeat' first
    | with_reducible assumption
    | with_reducible refine State.hbmStore_keeps ?_
    | with_reducible refine State.modCamFrame_keeps ?_
    | with_reducible refine State.camRaise_keeps ?_
    | (extract_lets +onlyGivenNames y; clear_value y)
    | split
    | refine Keeps.of_fst (by assumption) ?_

theorem State.camFill_keeps {z : State} {x1 : Nat} {s : State} {x3 x4 : Nat} (h : Keeps z s) : Keeps z (State.camFill x1 s x3 x4) := by
  induction x1 generalizing s x3 x4
  case zero => exact h
  case succ n ih =>
  unfold State.camFill
  repeat' first
    | with_reducible assumption
    | with_reducible refine ih ?_
    | with_reducible refine State.camLine_keeps ?_
    | (extract_lets +onlyGivenNames y; clear_value y)
    | split

theorem State.camCloseNow_keeps {z s : State} {ch f : Nat} (h : Keeps z s) : Keeps z (State.camCloseNow s ch f) := by
  unfold State.camCloseNow
  repeat' first
    | with_reducible assumption
    | with_reducible refine State.camRaise_keeps ?_
    | with_reducible refine State.flagGroup_keeps ?_
    | with_reducible refine State.modCam_keeps ?_
    | with_reducible refine State.modGroup_keeps ?_
    | (extract_lets +onlyGivenNames y; clear_value y)
    | split

theorem State.camEndFrame_keeps {z s : State} {ch k : Nat} (h : Keeps z s) : Keeps z (State.camEndFrame s ch k) := by
  unfold State.camEndFrame
  repeat' first
    | with_reducible assumption
    | with_reducible refine State.camRaise_keeps ?_
    | with_reducible refine State.modCamFrame_keeps ?_
    | with_reducible refine State.camFill_keeps ?_
    | with_reducible refine State.camCloseNow_keeps ?_
    | (extract_lets +onlyGivenNames y; have hy : Keeps z y := ?_; clear_value y; rotate_left; subst y)
    | (extract_lets +onlyGivenNames y; clear_value y)
    | split

theorem State.camClose_keeps {z s : State} {ch : Nat} {g : CamGroup} (h : Keeps z s) : Keeps z (State.camClose s ch g) := by
  unfold State.camClose
  repeat' first
    | with_reducible assumption
    | with_reducible refine State.camEndFrame_keeps ?_
    | with_reducible refine State.camCloseNow_keeps ?_
    | with_reducible refine Keeps.foldl (fun _ _ _ => ?_) ?_
    | (extract_lets +onlyGivenNames y; have hy : Keeps z y := ?_; clear_value y; rotate_left; subst y)
    | split

theorem State.camDeliver_keeps {z s : State} {ch : Nat} {g : CamGroup} {seq : Nat} {pl : Bytes} (h : Keeps z s) : Keeps z (State.camDeliver s ch g seq pl) := by
  unfold State.camDeliver
  repeat' first
    | with_reducible assumption
    | with_reducible refine State.hbmStore_keeps ?_
    | with_reducible refine State.modCam_keeps ?_
    | with_reducible refine State.incr_keeps ?_
    | with_reducible refine State.bump_keeps ?_
    | with_reducible refine State.hrdRecord_keeps ?_
    | with_reducible refine State.accept_keeps ?_
    | (extract_lets +onlyGivenNames y; clear_value y)
    | split
    | with_reducible refine Keeps.frame ?_ rfl rfl

theorem State.camStore_keeps {z s : State} {ch f : Nat} {hbm : Bool} {cell dest : Nat} {bs : Bytes} (h : Keeps z s) : Keeps z (State.camStore s ch f hbm cell dest bs) := by
  unfold State.camStore
  repeat' first
    | with_reducible assumption
    | with_reducible refine State.modGroup_keeps ?_
    | with_reducible refine State.hbmStore_keeps ?_
    | with_reducible refine State.inboundStore_keeps ?_
    | with_reducible refine State.camRaise_keeps ?_
    | with_reducible refine State.flagGroup_keeps ?_
    | (extract_lets +onlyGivenNames y; clear_value y)
    | split
    | refine Keeps.of_fst (by assumption) ?_

theorem State.camEventRecord_keeps {z s : State} {ch : Nat} {g : CamGroup} {slot seq : Nat} (h : Keeps z s) : Keeps z (State.camEventRecord s ch g slot seq) := by
  unfold State.camEventRecord
  repeat' first
    | with_reducible assumption
    | with_reducible refine State.camStore_keeps ?_

theorem State.camFlicker_keeps {z s : State} {ch : Nat} {bank : Bytes} {pl : Plane} (h : Keeps z s) : Keeps z (State.camFlicker s ch bank pl).2.2.2 := by
  unfold State.camFlicker
  repeat' first
    | with_reducible assumption
    | with_reducible refine State.fresh_keeps ?_
    | with_reducible refine State.modCam_keeps ?_
    | with_reducible refine Keeps.foldl_snd (fun _ _ _ => ?_) ?_
    | (extract_lets +onlyGivenNames y; clear_value y)
    | split
    | refine Keeps.of_snd (by assumption) ?_

theorem State.camInvalidate_keeps {z s : State} {ch : Nat} {bad : Nat → Bool} (h : Keeps z s) : Keeps z (State.camInvalidate s ch bad) := by
  unfold State.camInvalidate
  repeat' first
    | with_reducible assumption
    | with_reducible refine State.modCam_keeps ?_

theorem State.camMissing_keeps {z s : State} {ch : Nat} {g : CamGroup} (h : Keeps z s) : Keeps z (State.camMissing s ch g) := by
  unfold State.camMissing
  repeat' first
    | with_reducible assumption
    | with_reducible refine State.camInvalidate_keeps ?_
    | (extract_lets +onlyGivenNames y; clear_value y)
    | split

theorem State.camHandoff_keeps {z s : State} {ch : Nat} {g : CamGroup} (h : Keeps z s) : Keeps z (State.camHandoff s ch g) := by
  unfold State.camHandoff
  repeat' first
    | with_reducible assumption
    | with_reducible refine State.camMissing_keeps ?_
    | with_reducible refine State.camEventRecord_keeps ?_
    | with_reducible refine State.camDeliver_keeps ?_
    | (extract_lets +onlyGivenNames y; have hy : Keeps z y := ?_; clear_value y; rotate_left; subst y)
    | (extract_lets +onlyGivenNames y; clear_value y)
    | split

theorem State.camHeader_keeps {z s : State} {ch : Nat} {x1 : HdrErr} (h : Keeps z s) : Keeps z (State.camHeader s ch x1).1 := by
  unfold State.camHeader
  repeat' first
    | with_reducible assumption
    | with_reducible refine State.camRaise_keeps ?_
    | with_reducible refine State.modCamFrame_keeps ?_
    | with_reducible refine Keeps.foldl (fun _ _ _ => ?_) ?_
    | split

theorem State.camIssue_keeps {z s : State} {ch f : Nat} (h : Keeps z s) : Keeps z (State.camIssue s ch f) := by
  unfold State.camIssue
  repeat' first
    | with_reducible assumption
    | with_reducible refine State.modCam_keeps ?_

theorem State.camReqRecord_keeps {z s : State} {ch : Nat} {r : CamReq} (h : Keeps z s) : Keeps z (State.camReqRecord s ch r) := by
  unfold State.camReqRecord
  repeat' first
    | with_reducible assumption
    | with_reducible refine State.hrdRecordAt_keeps ?_

theorem State.camTakeOne_keeps {z s : State} {ch g i : Nat} {idle : Bool} {e : Bytes} (h : Keeps z s) : Keeps z (State.camTakeOne s ch g i idle e) := by
  unfold State.camTakeOne
  repeat' first
    | with_reducible assumption
    | with_reducible refine State.camRaise_keeps ?_
    | with_reducible refine State.modCam_keeps ?_
    | with_reducible refine State.camReqRecord_keeps ?_
    | (extract_lets +onlyGivenNames y; have hy : Keeps z y := ?_; clear_value y; rotate_left; subst y)
    | (extract_lets +onlyGivenNames y; clear_value y)
    | split

theorem State.camTake_keeps {z s : State} {ch g : Nat} {idle : Bool} (h : Keeps z s) : Keeps z (State.camTake s ch g idle) := by
  unfold State.camTake
  repeat' first
    | with_reducible assumption
    | with_reducible refine State.hbmFetch_keeps ?_
    | with_reducible refine State.wr_keeps ?_
    | with_reducible refine State.camRaise_keeps ?_
    | with_reducible refine State.camTakeOne_keeps ?_
    | with_reducible refine Keeps.foldl (fun _ _ _ => ?_) ?_
    | (extract_lets +onlyGivenNames y; have hy : Keeps z y := ?_; clear_value y; rotate_left; subst y)
    | (extract_lets +onlyGivenNames y; clear_value y)
    | split
    | refine Keeps.of_fst (by assumption) ?_

theorem State.camOpen_keeps {z s : State} {ch num : Nat} (h : Keeps z s) : Keeps z (State.camOpen s ch num) := by
  unfold State.camOpen
  repeat' first
    | with_reducible assumption
    | with_reducible refine State.wr_keeps ?_
    | with_reducible refine State.modCam_keeps ?_
    | with_reducible refine State.camIssue_keeps ?_
    | with_reducible refine State.camTake_keeps ?_
    | with_reducible refine State.camApply_keeps ?_
    | with_reducible refine State.modGroup_keeps ?_
    | with_reducible refine Keeps.foldl (fun _ _ _ => ?_) ?_

theorem State.camPixels_keeps {z s : State} {ch k : Nat} {x : CamFrame} {payload : Bytes} {crcOk full : Bool} (h : Keeps z s) : Keeps z (State.camPixels s ch k x payload crcOk full) := by
  unfold State.camPixels
  repeat' first
    | with_reducible assumption
    | with_reducible refine State.modCamFrame_keeps ?_
    | with_reducible refine State.camRaise_keeps ?_
    | with_reducible refine State.camLine_keeps ?_
    | (extract_lets +onlyGivenNames y; have hy : Keeps z y := ?_; clear_value y; rotate_left; subst y)
    | (extract_lets +onlyGivenNames y; have hy : State → _ := y; clear hy; subst y)
    | (extract_lets +onlyGivenNames y; clear_value y)
    | split

theorem State.camPacket_keeps {z s : State} {ch vc dt : Nat} {payload : Bytes} {crcOk full : Bool} (h : Keeps z s) : Keeps z (State.camPacket s ch vc dt payload crcOk full) := by
  unfold State.camPacket
  repeat' first
    | with_reducible assumption
    | with_reducible refine State.camRaise_keeps ?_
    | with_reducible refine State.camPixels_keeps ?_
    | with_reducible refine State.modCamFrame_keeps ?_
    | (extract_lets +onlyGivenNames y; clear_value y)
    | split

theorem State.camTemporal_keeps {z s : State} {ch i : Nat} {bank : Bytes} {pl : Plane} (h : Keeps z s) : Keeps z (State.camTemporal s ch i bank pl).2.1 := by
  unfold State.camTemporal
  repeat' first
    | with_reducible assumption
    | with_reducible refine State.camRead_keeps ?_
    | with_reducible refine State.hbmStore_keeps ?_
    | with_reducible refine State.modCam_keeps ?_
    | split

theorem State.camStage3_keeps {z s : State} {ch : Nat} {lins : List (Nat × Bytes × Plane)} {bank0 : Bytes} (h : Keeps z s) : Keeps z (State.camStage3 s ch lins bank0).2.1 := by
  unfold State.camStage3
  repeat' first
    | with_reducible assumption
    | with_reducible refine State.camTemporal_keeps ?_
    | with_reducible refine Keeps.foldl_by (fun p : _ × State × _ => p.2.1) (fun _ _ _ => ?_) ?_
    | (extract_lets +onlyGivenNames y; clear_value y)
    | split

theorem State.camWrite_keeps {z s : State} {ch f slot : Nat} {bank : Bytes} {rgb : Nat → Nat → Nat → Nat} (h : Keeps z s) : Keeps z (State.camWrite s ch f slot bank rgb) := by
  unfold State.camWrite
  repeat' first
    | with_reducible assumption
    | with_reducible refine State.bump_keeps ?_
    | with_reducible refine State.camStore_keeps ?_
    | with_reducible refine Keeps.foldl (fun _ _ _ => ?_) ?_

theorem State.camRaws_keeps {z s : State} {ch : Nat} {g : CamGroup} {l : List Nat} (h : Keeps z s) : Keeps z (State.camRaws s ch g l).2 := by
  unfold State.camRaws
  refine Keeps.foldl_snd (fun a _ h => ?_) h
  split
  · exact h
  · rename_i x _
    generalize hr : State.camRead a.2 (caBuf (s.caSec ch) _ x.buf) _ = r
    have hk : Keeps z r.2 := hr ▸ State.camRead_keeps h
    dsimp only
    split
    · exact State.hrdRecord_keeps hk
    · exact hk

theorem State.camProcess_keeps {z s : State} {ch : Nat} {g : CamGroup} {slot : Nat} (h : Keeps z s) : Keeps z (State.camProcess s ch g slot) := by
  unfold State.camProcess
  repeat' first
    | with_reducible assumption
    | with_reducible refine State.modCam_keeps ?_
    | with_reducible refine State.camBanks_keeps ?_
    | with_reducible refine State.camRaws_keeps ?_
    | with_reducible refine State.camStage3_keeps ?_
    | with_reducible refine State.camWrite_keeps ?_
    | with_reducible refine State.camMissing_keeps ?_
    | with_reducible refine State.camFlicker_keeps ?_
    | with_reducible refine State.camInvalidate_keeps ?_
    | with_reducible refine State.camRaise_keeps ?_
    | with_reducible refine State.modGroup_keeps ?_
    | split

theorem State.camRestart_keeps {z s : State} {ch : Nat} (h : Keeps z s) : Keeps z (State.camRestart s ch) := by
  unfold State.camRestart
  repeat' first
    | with_reducible assumption
    | with_reducible refine State.wr_keeps ?_
    | with_reducible refine State.modCam_keeps ?_
    | split

theorem State.camRoom_keeps {z s : State} {ch : Nat} (h : Keeps z s) : Keeps z (State.camRoom s ch) := by
  unfold State.camRoom
  repeat' first
    | with_reducible assumption
    | with_reducible refine State.camClose_keeps ?_
    | split

theorem State.camSettle_keeps {z s : State} {ch : Nat} (h : Keeps z s) : Keeps z (State.camSettle s ch) := by
  unfold State.camSettle
  repeat' first
    | with_reducible assumption
    | with_reducible refine State.camEndFrame_keeps ?_
    | with_reducible refine State.camClose_keeps ?_
    | with_reducible refine Keeps.foldl (fun _ _ _ => ?_) ?_
    | split

theorem State.camStart_keeps {z s : State} {ch k num : Nat} (h : Keeps z s) : Keeps z (State.camStart s ch k num) := by
  unfold State.camStart
  repeat' first
    | with_reducible assumption
    | with_reducible refine State.camEndFrame_keeps ?_
    | with_reducible refine State.camSettle_keeps ?_
    | with_reducible refine State.modCam_keeps ?_
    | with_reducible refine State.ignoreLive_keeps ?_
    | with_reducible refine State.camRaise_keeps ?_
    | with_reducible refine State.camOpen_keeps ?_
    | with_reducible refine State.camRoom_keeps ?_
    | with_reducible refine State.modGroup_keeps ?_
    | (extract_lets +onlyGivenNames y; have hy : Keeps z y := ?_; clear_value y; rotate_left; subst y)
    | (extract_lets +onlyGivenNames y; clear_value y)
    | split

theorem State.camStop_keeps {z s : State} {ch : Nat} (h : Keeps z s) : Keeps z (State.camStop s ch) := by
  unfold State.camStop
  repeat' first
    | with_reducible assumption
    | with_reducible refine State.wr_keeps ?_
    | with_reducible refine State.modCam_keeps ?_

theorem State.camWriteAcked_keeps {z s : State} {ch : Nat} {w : SensorWrite} (h : Keeps z s) : Keeps z (State.camWriteAcked s ch w) := by
  unfold State.camWriteAcked
  repeat' first
    | with_reducible assumption
    | with_reducible refine State.modCam_keeps ?_
    | with_reducible refine State.camReqRecord_keeps ?_
    | with_reducible refine State.modReq_keeps ?_
    | (extract_lets +onlyGivenNames y; have hy : Keeps z y := ?_; clear_value y; rotate_left; subst y)
    | split

theorem State.camWriteFailed_keeps {z s : State} {ch : Nat} {w : SensorWrite} (h : Keeps z s) : Keeps z (State.camWriteFailed s ch w) := by
  unfold State.camWriteFailed
  repeat' first
    | with_reducible assumption
    | with_reducible refine State.camRaise_keeps ?_
    | with_reducible refine State.modCam_keeps ?_
    | with_reducible refine State.camReqRecord_keeps ?_
    | with_reducible refine State.modReq_keeps ?_
    | split

theorem State.modIng_keeps {z s : State} {ch : Nat} {f : Ing → Ing} (h : Keeps z s) : Keeps z (State.modIng s ch f) := by
  unfold State.modIng
  repeat' first
    | with_reducible assumption
    | with_reducible refine Keeps.frame ?_ rfl rfl

theorem State.flagFrame_keeps {z s : State} {ch ev mask : Nat} (h : Keeps z s) : Keeps z (State.flagFrame s ch ev mask) := by
  unfold State.flagFrame
  repeat' first
    | with_reducible assumption
    | with_reducible refine State.modIng_keeps ?_

theorem State.ingRaise_keeps {z s : State} {ch code : Nat} (h : Keeps z s) : Keeps z (State.ingRaise s ch code) := by
  unfold State.ingRaise
  repeat' first
    | with_reducible assumption
    | with_reducible refine State.bump_keeps ?_
    | with_reducible refine State.evt_keeps ?_
    | split

theorem State.endCopy_keeps {z s : State} {ch : Nat} {c : Copy} {outcome : Nat} (h : Keeps z s) : Keeps z (State.endCopy s ch c outcome) := by
  unfold State.endCopy
  repeat' first
    | with_reducible assumption
    | with_reducible refine State.modIng_keeps ?_
    | with_reducible refine State.hrdRecordAt_keeps ?_
    | (extract_lets +onlyGivenNames y; have hy : Keeps z y := ?_; clear_value y; rotate_left; subst y)
    | split

theorem State.dropRivals_keeps {z s : State} {ch : Nat} {c : Copy} (h : Keeps z s) : Keeps z (State.dropRivals s ch c) := by
  unfold State.dropRivals
  repeat' first
    | with_reducible assumption
    | with_reducible refine State.flagFrame_keeps ?_
    | with_reducible refine State.ingRaise_keeps ?_
    | with_reducible refine State.modIng_keeps ?_
    | with_reducible refine State.endCopy_keeps ?_
    | with_reducible refine Keeps.foldl (fun _ _ _ => ?_) ?_
    | (extract_lets +onlyGivenNames y; have hy : Keeps z y := ?_; clear_value y; rotate_left; subst y)
    | (extract_lets +onlyGivenNames y; clear_value y)
    | split

theorem State.frameDrop_keeps {z s : State} {ch ev cause tick : Nat} (h : Keeps z s) : Keeps z (State.frameDrop s ch ev cause tick) := by
  unfold State.frameDrop
  repeat' first
    | with_reducible assumption
    | with_reducible refine State.hrdRecord_keeps ?_

theorem State.modFrame_keeps {z s : State} {ch ev : Nat} {f : FrameEv → FrameEv} (h : Keeps z s) : Keeps z (State.modFrame s ch ev f) := by
  unfold State.modFrame
  repeat' first
    | with_reducible assumption
    | with_reducible refine State.modIng_keeps ?_

theorem State.ingStore_keeps {z s : State} {ch ev cell off : Nat} {bs : Bytes} (h : Keeps z s) : Keeps z (State.ingStore s ch ev cell off bs) := by
  unfold State.ingStore
  repeat' first
    | with_reducible assumption
    | with_reducible refine State.modFrame_keeps ?_
    | with_reducible refine State.inboundStore_keeps ?_
    | with_reducible refine State.ingRaise_keeps ?_
    | (extract_lets +onlyGivenNames y; clear_value y)
    | split
    | refine Keeps.of_fst (by assumption) ?_

theorem State.ingPut_keeps {z s : State} {ch ev slot k off : Nat} {bs : Bytes} (h : Keeps z s) : Keeps z (State.ingPut s ch ev slot k off bs) := by
  unfold State.ingPut
  repeat' first
    | with_reducible assumption
    | with_reducible refine State.ingStore_keeps ?_
    | with_reducible refine Keeps.foldl (fun _ _ _ => ?_) ?_
    | (extract_lets +onlyGivenNames y; clear_value y)
    | split

theorem State.stopCopies_keeps {z s : State} {ch ev : Nat} (h : Keeps z s) : Keeps z (State.stopCopies s ch ev) := by
  unfold State.stopCopies
  repeat' first
    | with_reducible assumption
    | with_reducible refine State.modIng_keeps ?_
    | with_reducible refine State.endCopy_keeps ?_
    | with_reducible refine Keeps.foldl (fun _ _ _ => ?_) ?_
    | (extract_lets +onlyGivenNames y; have hy : Keeps z y := ?_; clear_value y; rotate_left; subst y)
    | (extract_lets +onlyGivenNames y; clear_value y)
    | split

theorem State.ingMark_keeps {z s : State} {ch ev : Nat} (h : Keeps z s) : Keeps z (State.ingMark s ch ev) := by
  unfold State.ingMark
  repeat' first
    | with_reducible assumption
    | with_reducible refine State.wr_keeps ?_
    | split

theorem State.ingPad_keeps {z s : State} {ch : Nat} {e : FrameEv} {slot : Nat} (h : Keeps z s) : Keeps z (State.ingPad s ch e slot) := by
  unfold State.ingPad
  repeat' first
    | with_reducible assumption
    | with_reducible refine State.ingPut_keeps ?_
    | with_reducible refine Keeps.foldl (fun _ _ _ => ?_) ?_
    | (extract_lets +onlyGivenNames y; clear_value y)
    | split

theorem State.ingFill_keeps {z s : State} {ch : Nat} {e : FrameEv} {slot : Nat} (h : Keeps z s) : Keeps z (State.ingFill s ch e slot) := by
  unfold State.ingFill
  repeat' first
    | with_reducible assumption
    | with_reducible refine State.modFrame_keeps ?_
    | with_reducible refine State.ingPad_keeps ?_

theorem State.ingClose_keeps {z s : State} {ch : Nat} {e : FrameEv} {tick : Nat} (h : Keeps z s) : Keeps z (State.ingClose s ch e tick) := by
  unfold State.ingClose
  repeat' first
    | with_reducible assumption
    | with_reducible refine State.stopCopies_keeps ?_
    | with_reducible refine State.ingMark_keeps ?_
    | with_reducible refine State.ingRaise_keeps ?_
    | with_reducible refine State.modFrame_keeps ?_
    | with_reducible refine State.ingFill_keeps ?_
    | with_reducible refine Keeps.foldl (fun _ _ _ => ?_) ?_
    | (extract_lets +onlyGivenNames y; have hy : Keeps z y := ?_; clear_value y; rotate_left; subst y)
    | (extract_lets +onlyGivenNames y; clear_value y)
    | split

theorem State.ingCheck_keeps {z s : State} {ch ev : Nat} (h : Keeps z s) : Keeps z (State.ingCheck s ch ev) := by
  unfold State.ingCheck
  repeat' first
    | with_reducible assumption
    | with_reducible refine State.ingClose_keeps ?_
    | split

theorem State.ingAccept_keeps {z s : State} {ch : Nat} {c : Copy} (h : Keeps z s) : Keeps z (State.ingAccept s ch c) := by
  unfold State.ingAccept
  repeat' first
    | with_reducible assumption
    | with_reducible refine State.endCopy_keeps ?_
    | with_reducible refine State.ingPut_keeps ?_
    | with_reducible refine State.flagFrame_keeps ?_
    | with_reducible refine State.ingRaise_keeps ?_
    | with_reducible refine State.modFrame_keeps ?_
    | with_reducible refine State.modIng_keeps ?_
    | with_reducible refine State.incr_keeps ?_
    | with_reducible refine State.ingCheck_keeps ?_
    | with_reducible refine State.dropRivals_keeps ?_
    | (extract_lets +onlyGivenNames y; clear_value y)
    | (extract_lets +onlyGivenNames y; subst y)
    | split

theorem State.ingCount_keeps {z s : State} {ch : Nat} {e : FrameEv} (h : Keeps z s) : Keeps z (State.ingCount s ch e) := by
  unfold State.ingCount
  repeat' first
    | with_reducible assumption
    | with_reducible refine State.incr_keeps ?_
    | with_reducible refine State.bump_keeps ?_
    | (extract_lets +onlyGivenNames y; have hy : Keeps z y := ?_; clear_value y; rotate_left; subst y)
    | split

theorem State.ingUnstage_keeps {z s : State} {ch : Nat} {e : FrameEv} {slot : Nat} (h : Keeps z s) : Keeps z (State.ingUnstage s ch e slot) := by
  unfold State.ingUnstage
  repeat' first
    | with_reducible assumption
    | with_reducible refine State.ingPut_keeps ?_
    | with_reducible refine State.modFrame_keeps ?_
    | with_reducible refine State.ingFill_keeps ?_
    | with_reducible refine Keeps.foldl (fun _ _ _ => ?_) ?_
    | (extract_lets +onlyGivenNames y; have hy : Keeps z y := ?_; clear_value y; rotate_left; subst y)
    | split

theorem State.ingFlush_keeps {z s : State} {ch : Nat} (h : Keeps z s) : Keeps z (State.ingFlush s ch) := by
  unfold State.ingFlush
  repeat' first
    | with_reducible assumption
    | with_reducible refine State.ingUnstage_keeps ?_
    | with_reducible refine Keeps.foldl (fun _ _ _ => ?_) ?_
    | split

theorem State.ingDiscard_keeps {z s : State} {ch : Nat} {e : FrameEv} {cause : Nat} (h : Keeps z s) : Keeps z (State.ingDiscard s ch e cause) := by
  unfold State.ingDiscard
  repeat' first
    | with_reducible assumption
    | with_reducible refine State.frameDrop_keeps ?_
    | with_reducible refine State.stopCopies_keeps ?_
    | with_reducible refine State.modIng_keeps ?_

theorem State.ingExpire_keeps {z s : State} {ch : Nat} {e : FrameEv} {tick : Nat} (h : Keeps z s) : Keeps z (State.ingExpire s ch e tick) := by
  unfold State.ingExpire
  repeat' first
    | with_reducible assumption
    | with_reducible refine State.ingDiscard_keeps ?_
    | with_reducible refine State.ingClose_keeps ?_
    | split

theorem State.ingTimeouts_keeps {z s : State} {ch : Nat} (h : Keeps z s) : Keeps z (State.ingTimeouts s ch) := by
  unfold State.ingTimeouts
  repeat' first
    | with_reducible assumption
    | with_reducible refine State.ingExpire_keeps ?_
    | with_reducible refine Keeps.foldl (fun _ _ _ => ?_) ?_

theorem State.ingSettle_keeps {z s : State} {ch : Nat} (h : Keeps z s) : Keeps z (State.ingSettle s ch) := by
  unfold State.ingSettle
  repeat' first
    | with_reducible assumption
    | with_reducible refine State.ingFlush_keeps ?_
    | with_reducible refine State.ingTimeouts_keeps ?_

theorem State.ingDropFrag_keeps {z s : State} {ch : Nat} {c : Copy} (h : Keeps z s) : Keeps z (State.ingDropFrag s ch c) := by
  unfold State.ingDropFrag
  repeat' first
    | with_reducible assumption
    | with_reducible refine State.modFrame_keeps ?_
    | with_reducible refine State.ingCheck_keeps ?_
    | split

theorem State.ingTrigger_keeps {z s : State} {ch : Nat} {e : FrameEv} {payload : Bytes} (h : Keeps z s) : Keeps z (State.ingTrigger s ch e payload) := by
  unfold State.ingTrigger
  repeat' first
    | with_reducible assumption
    | with_reducible refine State.accept_keeps ?_
    | (extract_lets +onlyGivenNames y; clear_value y)
    | with_reducible refine Keeps.frame ?_ rfl rfl

theorem State.ingLost_keeps {z s : State} {ch : Nat} {c : Copy} (h : Keeps z s) : Keeps z (State.ingLost s ch c) := by
  unfold State.ingLost
  repeat' first
    | with_reducible assumption
    | with_reducible refine State.frameDrop_keeps ?_
    | with_reducible refine State.ingMark_keeps ?_
    | with_reducible refine State.ingRaise_keeps ?_
    | with_reducible refine State.modIng_keeps ?_
    | with_reducible refine State.ingTrigger_keeps ?_
    | with_reducible refine State.ingCount_keeps ?_
    | (extract_lets +onlyGivenNames y; have hy : Keeps z y := ?_; clear_value y; rotate_left; subst y)
    | (extract_lets +onlyGivenNames y; clear_value y)
    | split

theorem State.ingPromote_keeps {z s : State} {ch ident : Nat} (h : Keeps z s) : Keeps z (State.ingPromote s ch ident) := by
  unfold State.ingPromote
  repeat' first
    | with_reducible assumption
    | with_reducible refine State.ingPut_keeps ?_
    | with_reducible refine State.modIng_keeps ?_
    | with_reducible refine State.ingAccept_keeps ?_
    | (extract_lets +onlyGivenNames y; have hy : Keeps z y := ?_; clear_value y; rotate_left; subst y)
    | (extract_lets +onlyGivenNames y; clear_value y)
    | split

theorem State.ingFinish_keeps {z s : State} {ch : Nat} {c0 : Copy} {ok : Bool} (h : Keeps z s) : Keeps z (State.ingFinish s ch c0 ok) := by
  unfold State.ingFinish
  repeat' first
    | with_reducible assumption
    | with_reducible refine State.modIng_keeps ?_
    | with_reducible refine State.flagFrame_keeps ?_
    | with_reducible refine State.endCopy_keeps ?_
    | with_reducible refine State.ingDropFrag_keeps ?_
    | with_reducible refine State.ingLost_keeps ?_
    | with_reducible refine State.ingAccept_keeps ?_
    | with_reducible refine State.ingPromote_keeps ?_
    | (extract_lets +onlyGivenNames y; have hy : Keeps z y := ?_; clear_value y; rotate_left; subst y)
    | (extract_lets +onlyGivenNames y; clear_value y)
    | split

theorem State.ingFail_keeps {z s : State} {ch lane : Nat} (h : Keeps z s) : Keeps z (State.ingFail s ch lane) := by
  unfold State.ingFail
  repeat' first
    | with_reducible assumption
    | with_reducible refine State.modIng_keeps ?_
    | with_reducible refine State.ingRaise_keeps ?_
    | with_reducible refine State.ingFinish_keeps ?_
    | (extract_lets +onlyGivenNames y; have hy : Keeps z y := ?_; clear_value y; rotate_left; subst y)
    | split

theorem State.ingHigh_keeps {z s : State} {ch : Nat} (h : Keeps z s) : Keeps z (State.ingHigh s ch) := by
  unfold State.ingHigh
  repeat' first
    | with_reducible assumption
    | with_reducible refine State.high_keeps ?_

theorem State.ingOverflow_keeps {z s : State} {ch : Nat} {c : Copy} (h : Keeps z s) : Keeps z (State.ingOverflow s ch c) := by
  unfold State.ingOverflow
  repeat' first
    | with_reducible assumption
    | with_reducible refine State.modIng_keeps ?_
    | with_reducible refine State.ingRaise_keeps ?_
    | with_reducible refine State.modFrame_keeps ?_
    | with_reducible refine State.flagFrame_keeps ?_
    | with_reducible refine State.ingPromote_keeps ?_
    | with_reducible refine State.ingDropFrag_keeps ?_
    | (extract_lets +onlyGivenNames y; have hy : Keeps z y := ?_; clear_value y; rotate_left; subst y)
    | split

theorem State.ingStage_keeps {z s : State} {ch : Nat} {c : Copy} (h : Keeps z s) : Keeps z (State.ingStage s ch c) := by
  unfold State.ingStage
  repeat' first
    | with_reducible assumption
    | with_reducible refine State.ingHigh_keeps ?_
    | with_reducible refine State.ingOverflow_keeps ?_
    | split

theorem State.ingData_keeps {z s : State} {ch lane : Nat} {block : Bytes} (h : Keeps z s) : Keeps z (State.ingData s ch lane block) := by
  unfold State.ingData
  repeat' first
    | with_reducible assumption
    | with_reducible refine State.ingSettle_keeps ?_
    | with_reducible refine State.ingFail_keeps ?_
    | with_reducible refine State.modIng_keeps ?_
    | with_reducible refine State.ingStage_keeps ?_
    | with_reducible refine State.ingPut_keeps ?_
    | (extract_lets +onlyGivenNames y; have hy : Keeps z y := ?_; clear_value y; rotate_left; subst y)
    | (extract_lets +onlyGivenNames y; clear_value y)
    | split

theorem State.ingPend_keeps {z s : State} {ch : Nat} {c : Copy} (h : Keeps z s) : Keeps z (State.ingPend s ch c) := by
  unfold State.ingPend
  repeat' first
    | with_reducible assumption
    | with_reducible refine State.modIng_keeps ?_

theorem State.ingDispose_keeps {z s : State} {ch : Nat} {c : Copy} (h : Keeps z s) : Keeps z (State.ingDispose s ch c) := by
  unfold State.ingDispose
  repeat' first
    | with_reducible assumption
    | with_reducible refine State.modIng_keeps ?_
    | with_reducible refine State.ingRaise_keeps ?_
    | with_reducible refine State.flagFrame_keeps ?_
    | with_reducible refine State.ingStage_keeps ?_
    | with_reducible refine State.ingPend_keeps ?_
    | (extract_lets +onlyGivenNames y; have hy : Keeps z y := ?_; clear_value y; rotate_left; subst y)
    | (extract_lets +onlyGivenNames y; have hy : State → _ := y; clear hy; subst y)
    | (extract_lets +onlyGivenNames y; clear_value y)
    | split

theorem State.ingDrain_keeps {z s : State} {ch : Nat} (h : Keeps z s) : Keeps z (State.ingDrain s ch) := by
  unfold State.ingDrain
  repeat' first
    | with_reducible assumption
    | with_reducible refine State.ingDiscard_keeps ?_
    | with_reducible refine State.ingRaise_keeps ?_
    | with_reducible refine State.modIng_keeps ?_
    | with_reducible refine State.endCopy_keeps ?_
    | with_reducible refine Keeps.foldl (fun _ _ _ => ?_) ?_
    | (extract_lets +onlyGivenNames y; have hy : Keeps z y := ?_; clear_value y; rotate_left; subst y)
    | (extract_lets +onlyGivenNames y; clear_value y)
    | split

theorem State.ingEof_keeps {z s : State} {ch lane : Nat} {tail : Bytes} (h : Keeps z s) : Keeps z (State.ingEof s ch lane tail) := by
  unfold State.ingEof
  repeat' first
    | with_reducible assumption
    | with_reducible refine State.ingSettle_keeps ?_
    | with_reducible refine State.modIng_keeps ?_
    | with_reducible refine State.ingFinish_keeps ?_
    | with_reducible refine State.ingRaise_keeps ?_
    | (extract_lets +onlyGivenNames y; have hy : Keeps z y := ?_; clear_value y; rotate_left; subst y)
    | (extract_lets +onlyGivenNames y; clear_value y)
    | split

theorem State.ingHandoff_keeps {z s : State} {ch : Nat} {e : FrameEv} (h : Keeps z s) : Keeps z (State.ingHandoff s ch e) := by
  unfold State.ingHandoff
  repeat' first
    | with_reducible assumption
    | with_reducible refine State.ingStore_keeps ?_
    | with_reducible refine State.modIng_keeps ?_
    | with_reducible refine State.ingTrigger_keeps ?_
    | with_reducible refine State.hrdRecordAt_keeps ?_
    | with_reducible refine State.ingCount_keeps ?_
    | (extract_lets +onlyGivenNames y; have hy : Keeps z y := ?_; clear_value y; rotate_left; subst y)
    | (extract_lets +onlyGivenNames y; clear_value y)
    | split

theorem State.ingHeader_keeps {z s : State} {ch lane : Nat} {header : Bytes} (h : Keeps z s) : Keeps z (State.ingHeader s ch lane header) := by
  unfold State.ingHeader
  repeat' first
    | with_reducible assumption
    | with_reducible refine State.ingSettle_keeps ?_
    | with_reducible refine State.ingFail_keeps ?_
    | with_reducible refine State.modIng_keeps ?_
    | with_reducible refine State.ignoreLive_keeps ?_
    | with_reducible refine State.ingRaise_keeps ?_
    | with_reducible refine State.ingStage_keeps ?_
    | with_reducible refine State.ingDispose_keeps ?_
    | (extract_lets +onlyGivenNames y; have hy : Keeps z y := ?_; clear_value y; rotate_left; subst y)
    | (extract_lets +onlyGivenNames y; have hy : State → _ := y; clear hy; subst y)
    | (extract_lets +onlyGivenNames y; clear_value y)
    | split

theorem State.ingResume_keeps {z s : State} {ch : Nat} {c : Copy} (h : Keeps z s) : Keeps z (State.ingResume s ch c) := by
  unfold State.ingResume
  repeat' first
    | with_reducible assumption
    | with_reducible refine State.ingDispose_keeps ?_
    | with_reducible refine State.ingFinish_keeps ?_
    | (extract_lets +onlyGivenNames y; have hy : Keeps z y := ?_; clear_value y; rotate_left; subst y)
    | split

theorem State.ingResync_keeps {z s : State} {ch : Nat} (h : Keeps z s) : Keeps z (State.ingResync s ch) := by
  unfold State.ingResync
  repeat' first
    | with_reducible assumption
    | with_reducible refine State.ingSettle_keeps ?_
    | with_reducible refine State.ingExpire_keeps ?_
    | with_reducible refine State.wr_keeps ?_
    | with_reducible refine Keeps.foldl (fun _ _ _ => ?_) ?_
    | (extract_lets +onlyGivenNames y; have hy : Keeps z y := ?_; clear_value y; rotate_left; subst y)
    | split

theorem State.onBlock_keeps {z s : State} {ch lane : Nat} {f : State → Nat → State} (h : Keeps z s) (hf : ∀ y0 y1, Keeps z y0 → Keeps z (f y0 y1)) : Keeps z (State.onBlock s ch lane f) := by
  unfold State.onBlock
  repeat' first
    | with_reducible assumption
    | with_reducible refine hf _ _ ?_
    | with_reducible refine Keeps.foldl (fun _ _ _ => ?_) ?_
    | split

theorem State.onCam_keeps {z s : State} {ch : Nat} {tap : TapErr} {f : State → Nat → State} (h : Keeps z s) (hf : ∀ y0 y1, Keeps z y0 → Keeps z (f y0 y1)) : Keeps z (State.onCam s ch tap f) := by
  unfold State.onCam
  repeat' first
    | with_reducible assumption
    | with_reducible refine hf _ _ ?_
    | with_reducible refine State.channelFault_keeps ?_
    | (extract_lets +onlyGivenNames y; have hy : Keeps z y := ?_; clear_value y; rotate_left; subst y)
    | split

theorem State.setLane_keeps {z s : State} {ch lane : Nat} {st : FeLane} (h : Keeps z s) : Keeps z (State.setLane s ch lane st) := by
  unfold State.setLane
  repeat' first
    | with_reducible assumption
    | with_reducible refine State.modIng_keeps ?_

end Sys2Proof.Machine
end

