-- ==== Sys2Proof/Laws/KeepsSystem.lean ====
section
/-! SUPPORT. Keeps of the operations of the loader, the group of devices and the resets. -/
namespace Sys2Proof.Machine

theorem State.degrade_keeps {z s : State} {ch cause : Nat} (h : Keeps z s) : Keeps z (State.degrade s ch cause) := by
  unfold State.degrade
  repeat' first
    | with_reducible assumption
    | (extract_lets +onlyGivenNames y; clear_value y)
    | with_reducible refine Keeps.frame ?_ rfl rfl

theorem State.listCell_keeps {z s : State} {p cause : Nat} (h : Keeps z s) : Keeps z (State.listCell s p cause) := by
  unfold State.listCell
  repeat' first
    | with_reducible assumption
    | (extract_lets +onlyGivenNames y; clear_value y)
    | split
    | with_reducible refine Keeps.frame ?_ rfl rfl

theorem State.selfTestRecord_keeps {z s : State} {p unit : Nat} {fail : Bool} (h : Keeps z s) : Keeps z (State.selfTestRecord s p unit fail) := by
  unfold State.selfTestRecord
  repeat' first
    | with_reducible assumption
    | with_reducible refine State.wr_keeps ?_
    | with_reducible refine State.incr_keeps ?_

theorem State.cellSelfTest_keeps {z s : State} {bad : List CellFail} {ps : List Nat} (h : Keeps z s) : Keeps z (State.cellSelfTest s bad ps) := by
  unfold State.cellSelfTest
  repeat' first
    | with_reducible assumption
    | with_reducible refine State.listCell_keeps ?_
    | with_reducible refine State.selfTestRecord_keeps ?_
    | with_reducible refine Keeps.foldl (fun _ _ _ => ?_) ?_
    | split

theorem State.applyIsle_keeps {z s : State} {ch : Nat} {p : Bytes} (h : Keeps z s) : Keeps z (State.applyIsle s ch p) := by
  unfold State.applyIsle
  repeat' first
    | with_reducible assumption
    | with_reducible refine State.isleBounds_keeps ?_
    | with_reducible refine State.modGov_keeps ?_
    | with_reducible refine State.setFreq_keeps ?_
    | with_reducible refine Keeps.foldl (fun _ _ _ => ?_) ?_

theorem State.applyGov_keeps {z s : State} {p : Bytes} (h : Keeps z s) : Keeps z (State.applyGov s p) := by
  unfold State.applyGov
  repeat' first
    | with_reducible assumption
    | with_reducible refine State.wr_keeps ?_
    | with_reducible refine State.profileWrite_keeps ?_
    | with_reducible refine State.isleBounds_keeps ?_

theorem State.applyPorts_keeps {z s : State} {ch : Nat} {p : Bytes} (h : Keeps z s) : Keeps z (State.applyPorts s ch p) := by
  unfold State.applyPorts
  repeat' first
    | with_reducible assumption
    | with_reducible refine State.wr_keeps ?_
    | with_reducible refine Keeps.foldl (fun _ _ _ => ?_) ?_

theorem State.applyFtab_keeps {z s : State} {ch : Nat} {p : Bytes} (h : Keeps z s) : Keeps z (State.applyFtab s ch p) := by
  unfold State.applyFtab
  repeat' first
    | with_reducible assumption
    | exact fun _ hc => hc
    | exact fun _ hc => by simpa using hc
    | with_reducible refine State.modCell_keeps ?_ ?_
    | with_reducible refine Keeps.foldl (fun _ _ _ => ?_) ?_

theorem State.applyRegion_keeps {z s : State} {ch : Nat} {p : Bytes} (h : Keeps z s) : Keeps z (State.applyRegion s ch p) := by
  unfold State.applyRegion
  repeat' first
    | with_reducible assumption
    | with_reducible refine State.wr_keeps ?_

theorem State.applyCode_keeps {z s : State} {ch : Nat} {p : Bytes} (h : Keeps z s) : Keeps z (State.applyCode s ch p) := by
  unfold State.applyCode
  repeat' first
    | with_reducible assumption
    | exact fun _ hc => by simpa using hc
    | exact fun _ hc => by with_reducible exact CellMem.write_lm hc
    | with_reducible refine State.modCell_keeps ?_ ?_
    | with_reducible refine Keeps.foldl (fun _ _ _ => ?_) ?_

theorem State.applyData_keeps {z s : State} {ch : Nat} {p : Bytes} {x1 : List Bytes} (h : Keeps z s) : Keeps z (State.applyData s ch p x1).1 := by
  induction x1 generalizing s ch p
  case nil => exact h
  case cons y l ih =>
  unfold State.applyData
  repeat' first
    | with_reducible assumption
    | with_reducible refine ih ?_
    | with_reducible refine State.hbmStore_keeps ?_
    | exact fun _ hc => by simpa using hc
    | exact fun _ hc => by with_reducible exact CellMem.write_lm hc
    | with_reducible refine State.modCell_keeps ?_ ?_
    | with_reducible refine Keeps.foldl (fun _ _ _ => ?_) ?_
    | split
    | refine Keeps.of_fst (by assumption) ?_

theorem State.applyScale_keeps {z s : State} {ch : Nat} {p : Bytes} (h : Keeps z s) : Keeps z (State.applyScale s ch p) := by
  unfold State.applyScale
  repeat' first
    | with_reducible assumption
    | exact fun _ hc => hc
    | exact fun _ hc => by simpa using hc
    | with_reducible refine State.modCell_keeps ?_ ?_
    | with_reducible refine Keeps.foldl (fun _ _ _ => ?_) ?_

theorem State.applySection_keeps {z s : State} {ch : Nat} {x : Section} (h : Keeps z s) : Keeps z (State.applySection s ch x).1 := by
  unfold State.applySection
  repeat' first
    | with_reducible assumption
    | with_reducible refine State.applyIsle_keeps ?_
    | with_reducible refine State.applyGov_keeps ?_
    | with_reducible refine State.applyPorts_keeps ?_
    | with_reducible refine State.applyFtab_keeps ?_
    | with_reducible refine State.applyRegion_keeps ?_
    | with_reducible refine State.applyCode_keeps ?_
    | with_reducible refine State.applyData_keeps ?_
    | with_reducible refine State.applyScale_keeps ?_
    | split

theorem State.sourceRead_keeps {z s : State} {ld : Load} {off n : Nat} (h : Keeps z s) : Keeps z (State.sourceRead s ld off n).1 := by
  unfold State.sourceRead
  repeat' first
    | with_reducible assumption
    | with_reducible refine State.hbmFetch_keeps ?_
    | with_reducible refine State.fresh_keeps ?_
    | (extract_lets +onlyGivenNames y; clear_value y)
    | split
    | refine Keeps.of_fst (by assumption) ?_

theorem State.applyPart_keeps {z s : State} {ld : Load} {stop : Option Nat} {ch : Nat} {x1 : List (Nat × Bytes)} (h : Keeps z s) : Keeps z (State.applyPart s ld stop ch x1).1 := by
  induction x1 generalizing s ld stop ch
  case nil => exact h
  case cons y l ih =>
  unfold State.applyPart
  repeat' first
    | with_reducible assumption
    | with_reducible refine ih ?_
    | with_reducible refine State.applySection_keeps ?_
    | with_reducible refine State.fresh_keeps ?_
    | with_reducible refine State.sourceRead_keeps ?_
    | split
    | refine Keeps.of_fst (by assumption) ?_
    | refine Keeps.of_snd (by assumption) ?_

theorem State.isleClear_keeps {z s : State} {ch : Nat} (h : Keeps z s) : Keeps z (State.isleClear s ch) := by
  unfold State.isleClear
  repeat' first
    | with_reducible assumption
    | with_reducible refine State.modIsle_keeps ?_
    | with_reducible refine Keeps.foldl (fun _ _ _ => ?_) ?_

theorem State.bindChannel_keeps {z s : State} {ch : Nat} {freeze : Bool} (h : Keeps z s) : Keeps z (State.bindChannel s ch freeze) := by
  unfold State.bindChannel
  repeat' first
    | with_reducible assumption
    | (extract_lets +onlyGivenNames y; clear_value y)
    | with_reducible refine Keeps.frame ?_ rfl rfl

theorem State.applyChannel_keeps {z s : State} {ld : Load} {bad : List CellFail} {stop : Option Nat} {ch : Nat} (h : Keeps z s) : Keeps z (State.applyChannel s ld bad stop ch).1 := by
  unfold State.applyChannel
  repeat' first
    | with_reducible assumption
    | with_reducible refine State.degrade_keeps ?_
    | with_reducible refine State.cellSelfTest_keeps ?_
    | with_reducible refine State.applyPart_keeps ?_
    | with_reducible refine State.applyRegion_keeps ?_
    | with_reducible refine State.isleClear_keeps ?_
    | with_reducible refine State.bindChannel_keeps ?_
    | (extract_lets +onlyGivenNames y; have hy : Keeps z y := ?_; clear_value y; rotate_left; subst y)
    | (extract_lets +onlyGivenNames y; clear_value y)
    | split

theorem State.applyChannels_keeps {z s : State} {ld : Load} {bad : List CellFail} {stop : Option Nat} {x1 : List Nat} (h : Keeps z s) : Keeps z (State.applyChannels s ld bad stop x1).1 := by
  induction x1 generalizing s ld bad stop
  case nil => exact h
  case cons y l ih =>
  unfold State.applyChannels
  repeat' first
    | with_reducible assumption
    | with_reducible refine ih ?_
    | with_reducible refine State.applyChannel_keeps ?_
    | split
    | refine Keeps.of_fst (by assumption) ?_

theorem State.armCancel_keeps {z s : State} {ch slot : Nat} (h : Keeps z s) : Keeps z (State.armCancel s ch slot) := by
  unfold State.armCancel
  repeat' first
    | with_reducible assumption
    | with_reducible refine State.cancelCount_keeps ?_

theorem State.fireCount_keeps {z s : State} {ch slot outcome : Nat} (h : Keeps z s) : Keeps z (State.fireCount s ch slot outcome) := by
  unfold State.fireCount
  repeat' first
    | with_reducible assumption
    | with_reducible refine State.evt_keeps ?_
    | with_reducible refine State.cancelCount_keeps ?_
    | with_reducible refine State.modDisp_keeps ?_
    | with_reducible refine State.hrdRecord_keeps ?_
    | with_reducible refine State.accept_keeps ?_
    | (extract_lets +onlyGivenNames y; have hy : Keeps z y := ?_; clear_value y; rotate_left; subst y)
    | (extract_lets +onlyGivenNames y; clear_value y)
    | split

theorem State.passedCount_keeps {z s : State} {ch slot : Nat} (h : Keeps z s) : Keeps z (State.passedCount s ch slot) := by
  unfold State.passedCount
  repeat' first
    | with_reducible assumption
    | with_reducible refine State.evt_keeps ?_
    | with_reducible refine State.fireCount_keeps ?_
    | with_reducible refine State.cancelCount_keeps ?_
    | (extract_lets +onlyGivenNames y; have hy : Keeps z y := ?_; clear_value y; rotate_left; subst y)
    | (extract_lets +onlyGivenNames y; clear_value y)
    | split

theorem State.armGo_keeps {z s : State} {ch : Nat} (h : Keeps z s) : Keeps z (State.armGo s ch) := by
  unfold State.armGo
  repeat' first
    | with_reducible assumption
    | with_reducible refine State.ignoreLive_keeps ?_
    | with_reducible refine State.regEncoding_keeps ?_
    | with_reducible refine State.modDisp_keeps ?_
    | with_reducible refine State.passedCount_keeps ?_
    | (extract_lets +onlyGivenNames y; have hy : Keeps z y := ?_; clear_value y; rotate_left; subst y)
    | (extract_lets +onlyGivenNames y; clear_value y)
    | split

theorem State.beacon_keeps {z s : State} {q stream kind : Nat} {payload : Bytes} (h : Keeps z s) : Keeps z (State.beacon s q stream kind payload) := by
  unfold State.beacon
  repeat' first
    | with_reducible assumption
    | with_reducible refine State.wglSend_keeps ?_

theorem State.beaconDown_keeps {z s : State} {kind : Nat} {payload : Bytes} (h : Keeps z s) : Keeps z (State.beaconDown s kind payload) := by
  unfold State.beaconDown
  repeat' first
    | with_reducible assumption
    | with_reducible refine State.beacon_keeps ?_
    | with_reducible refine Keeps.foldl (fun _ _ _ => ?_) ?_

theorem State.beaconUp_keeps {z s : State} {kind : Nat} {payload : Bytes} (h : Keeps z s) : Keeps z (State.beaconUp s kind payload) := by
  unfold State.beaconUp
  repeat' first
    | with_reducible assumption
    | with_reducible refine State.beacon_keeps ?_
    | split

theorem State.bindReport_keeps {z s : State} {partialLoad : Bool} (h : Keeps z s) : Keeps z (State.bindReport s partialLoad) := by
  unfold State.bindReport
  repeat' first
    | with_reducible assumption
    | (extract_lets +onlyGivenNames y; clear_value y)
    | with_reducible refine Keeps.frame ?_ rfl rfl

theorem State.loadEnd_keeps {z s : State} {code detail st : Nat} (h : Keeps z s) : Keeps z (State.loadEnd s code detail st) := by
  unfold State.loadEnd
  repeat' first
    | with_reducible assumption
    | with_reducible refine State.wr_keeps ?_
    | with_reducible refine State.irq_keeps ?_
    | (extract_lets +onlyGivenNames y; clear_value y)
    | with_reducible refine Keeps.frame ?_ rfl rfl

theorem State.loadBegin_keeps {z s : State} {ld : Load} (h : Keeps z s) : Keeps z (State.loadBegin s ld) := by
  unfold State.loadBegin
  repeat' first
    | with_reducible assumption
    | with_reducible refine State.wr_keeps ?_
    | (extract_lets +onlyGivenNames y; clear_value y)
    | with_reducible refine Keeps.frame ?_ rfl rfl

theorem State.loadFail_keeps {z s : State} {ld : Load} {code detail : Nat} (h : Keeps z s) : Keeps z (State.loadFail s ld code detail) := by
  unfold State.loadFail
  repeat' first
    | with_reducible assumption
    | with_reducible refine State.loadEnd_keeps ?_
    | with_reducible refine State.loadBegin_keeps ?_
    | with_reducible refine State.evt_keeps ?_
    | (extract_lets +onlyGivenNames y; have hy : Keeps z y := ?_; clear_value y; rotate_left; subst y)
    | split

theorem State.loadGo_keeps {z s : State} {source : Nat} {verifyOnly boot : Bool} (h : Keeps z s) : Keeps z (State.loadGo s source verifyOnly boot) := by
  unfold State.loadGo
  repeat' first
    | with_reducible assumption
    | with_reducible refine State.wr_keeps ?_
    | with_reducible refine State.fresh_keeps ?_
    | with_reducible refine State.loadFail_keeps ?_
    | with_reducible refine State.loadBegin_keeps ?_
    | (extract_lets +onlyGivenNames y; clear_value y)
    | split
    | refine Keeps.of_snd (by assumption) ?_

theorem State.bootDone_keeps {z s : State} (h : Keeps z s) : Keeps z (State.bootDone s) := by
  unfold State.bootDone
  repeat' first
    | with_reducible assumption
    | with_reducible refine State.wr_keeps ?_
    | with_reducible refine State.loadGo_keeps ?_
    | (extract_lets +onlyGivenNames y; have hy : Keeps z y := ?_; clear_value y; rotate_left; subst y)
    | split

theorem State.bootStart_keeps {z s : State} (h : Keeps z s) : Keeps z (State.bootStart s) := by
  unfold State.bootStart
  repeat' first
    | with_reducible assumption
    | exact fun _ => rfl
    | with_reducible refine State.modPwr_keeps ?_ ?_
    | with_reducible refine State.evt_keeps ?_
    | with_reducible refine State.wr_keeps ?_
    | (extract_lets +onlyGivenNames y; have hy : Keeps z y := ?_; clear_value y; rotate_left; subst y)
    | (extract_lets +onlyGivenNames y; clear_value y)
    | split

theorem State.bootSwarm_keeps {z s : State} {id pc : Nat} (h : Keeps z s) : Keeps z (State.bootSwarm s id pc) := by
  unfold State.bootSwarm
  repeat' first
    | with_reducible assumption
    | exact fun _ hc => hc
    | exact fun _ hc => by simpa using hc
    | with_reducible refine State.modCell_keeps ?_ ?_

theorem State.resetRefused_keeps {z s : State} {n : Nat} (h : Keeps z s) : Keeps z (State.resetRefused s n) := by
  unfold State.resetRefused
  repeat' first
    | with_reducible assumption
    | with_reducible refine State.evt_keeps ?_
    | with_reducible refine State.wr_keeps ?_

theorem State.resetRegs_keeps {z s : State} {reached : Blk → Nat → Domain → Bool} (h : Keeps z s) : Keeps z (State.resetRegs s reached) := by
  unfold State.resetRegs
  exact h.update rfl (fun w => swf_foldl_sset _ _ _ _ _ (swf_filter _ _ _ w)) (fun w => w) (fun w => w) (fun w => w)
    (Fuses.within_refl _)

theorem State.cellsReset_keeps {z s : State} {ps ids : List Nat} (h : Keeps z s) : Keeps z (State.cellsReset s ps ids) := by
  unfold State.cellsReset
  exact State.resetRegs_keeps (h.update rfl (fun w => w) (fun w => w) (fun w => w) (cellsWf_sublist (foldl_sdel_sublist _ _))
    (Fuses.within_refl _))

theorem State.cellGo_keeps {z s : State} {id : Nat} (h : Keeps z s) : Keeps z (State.cellGo s id) := by
  unfold State.cellGo
  repeat' first
    | with_reducible assumption
    | with_reducible refine State.resetRefused_keeps ?_
    | with_reducible refine State.abortCtx_keeps ?_
    | exact fun _ => rfl
    | with_reducible refine State.modPwr_keeps ?_ ?_
    | with_reducible refine State.wr_keeps ?_
    | with_reducible refine State.cellsReset_keeps ?_
    | with_reducible refine Keeps.foldl (fun _ _ _ => ?_) ?_
    | (extract_lets +onlyGivenNames y; have hy : Keeps z y := ?_; clear_value y; rotate_left; subst y)
    | (extract_lets +onlyGivenNames y; clear_value y)
    | split

theorem State.channelAbort_keeps {z s : State} {ch : Nat} (h : Keeps z s) : Keeps z (State.channelAbort s ch) := by
  unfold State.channelAbort
  repeat' first
    | with_reducible assumption
    | with_reducible refine State.modDisp_keeps ?_
    | with_reducible refine State.emitOut_keeps ?_
    | with_reducible refine State.cancelQueue_keeps ?_
    | with_reducible refine State.cancelCountAs_keeps ?_
    | with_reducible refine State.dropWaiting_keeps ?_
    | with_reducible refine State.abortCtx_keeps ?_
    | with_reducible refine Keeps.foldl (fun _ _ _ => ?_) ?_

theorem State.enterSimplex_keeps {z s : State} {f : Nat} (h : Keeps z s) : Keeps z (State.enterSimplex s f) := by
  unfold State.enterSimplex
  repeat' first
    | with_reducible assumption
    | with_reducible refine State.evt_keeps ?_
    | with_reducible refine State.modFn_keeps ?_
    | with_reducible refine State.releaseHeld_keeps ?_

theorem State.partnerLost_keeps {z s : State} {f : Nat} (h : Keeps z s) : Keeps z (State.partnerLost s f) := by
  unfold State.partnerLost
  repeat' first
    | with_reducible assumption
    | with_reducible refine State.modFn_keeps ?_
    | with_reducible refine State.bump_keeps ?_
    | with_reducible refine State.evt_keeps ?_
    | with_reducible refine State.enterSimplex_keeps ?_
    | with_reducible refine State.curl_keeps ?_
    | with_reducible refine State.refuseArm_keeps ?_
    | (extract_lets +onlyGivenNames y; have hy : Keeps z y := ?_; clear_value y; rotate_left; subst y)
    | split

theorem State.pairPortLost_keeps {z s : State} {q : Nat} (h : Keeps z s) : Keeps z (State.pairPortLost s q) := by
  unfold State.pairPortLost
  repeat' first
    | with_reducible assumption
    | with_reducible refine State.partnerLost_keeps ?_
    | with_reducible refine Keeps.foldl (fun _ _ _ => ?_) ?_

theorem State.modTime_keeps {z s : State} {f : Time → Time} (h : Keeps z s) : Keeps z (State.modTime s f) := by
  unfold State.modTime
  repeat' first
    | with_reducible assumption
    | with_reducible refine Keeps.frame ?_ rfl rfl

theorem State.groupRefused_keeps {z s : State} {dev field : Nat} (h : Keeps z s) : Keeps z (State.groupRefused s dev field) := by
  unfold State.groupRefused
  repeat' first
    | with_reducible assumption
    | with_reducible refine State.evt_keeps ?_
    | with_reducible refine State.wr_keeps ?_
    | (extract_lets +onlyGivenNames y; have hy : Keeps z y := ?_; clear_value y; rotate_left; subst y)
    | split

theorem State.refuseGroup_keeps {z s : State} {dev field : Nat} (h : Keeps z s) : Keeps z (State.refuseGroup s dev field) := by
  unfold State.refuseGroup
  repeat' first
    | with_reducible assumption
    | with_reducible refine State.beaconDown_keeps ?_
    | with_reducible refine State.groupRefused_keeps ?_

theorem State.setRoster_keeps {z s : State} {b : Bytes} (h : Keeps z s) : Keeps z (State.setRoster s b) := by
  unfold State.setRoster
  repeat' first
    | with_reducible assumption
    | with_reducible refine State.wr_keeps ?_

theorem State.formed_keeps {z s : State} (h : Keeps z s) : Keeps z (State.formed s) := by
  unfold State.formed
  repeat' first
    | with_reducible assumption
    | with_reducible refine State.evt_keeps ?_
    | with_reducible refine State.modTime_keeps ?_
    | with_reducible refine State.wr_keeps ?_

theorem State.masterForms_keeps {z s : State} (h : Keeps z s) : Keeps z (State.masterForms s) := by
  unfold State.masterForms
  repeat' first
    | with_reducible assumption
    | with_reducible refine State.beaconDown_keeps ?_
    | with_reducible refine State.setRoster_keeps ?_
    | with_reducible refine State.formed_keeps ?_
    | (extract_lets +onlyGivenNames y; clear_value y)
    | split

theorem State.takeJoin_keeps {z s : State} {group : Nat} {j : Bytes} (h : Keeps z s) : Keeps z (State.takeJoin s group j) := by
  unfold State.takeJoin
  repeat' first
    | with_reducible assumption
    | with_reducible refine State.modTime_keeps ?_
    | with_reducible refine State.refuseGroup_keeps ?_
    | with_reducible refine State.masterForms_keeps ?_
    | with_reducible refine State.beaconUp_keeps ?_
    | (extract_lets +onlyGivenNames y; have hy : Keeps z y := ?_; clear_value y; rotate_left; subst y)
    | split

theorem State.joining_keeps {z s : State} (h : Keeps z s) : Keeps z (State.joining s) := by
  unfold State.joining
  repeat' first
    | with_reducible assumption
    | with_reducible refine State.modTime_keeps ?_
    | with_reducible refine State.wr_keeps ?_
    | with_reducible refine State.beaconUp_keeps ?_
    | with_reducible refine State.takeJoin_keeps ?_
    | with_reducible refine Keeps.foldl (fun _ _ _ => ?_) ?_

theorem State.syncing_keeps {z s : State} (h : Keeps z s) : Keeps z (State.syncing s) := by
  unfold State.syncing
  repeat' first
    | with_reducible assumption
    | with_reducible refine State.wr_keeps ?_
    | with_reducible refine State.modTime_keeps ?_
    | with_reducible refine State.joining_keeps ?_
    | (extract_lets +onlyGivenNames y; have hy : Keeps z y := ?_; clear_value y; rotate_left; subst y)
    | split

theorem State.leaveGroup_keeps {z s : State} {reason : Nat} {say : Bool} (h : Keeps z s) : Keeps z (State.leaveGroup s reason say) := by
  unfold State.leaveGroup
  repeat' first
    | with_reducible assumption
    | with_reducible refine State.beaconUp_keeps ?_
    | with_reducible refine State.syncing_keeps ?_
    | with_reducible refine State.evt_keeps ?_
    | with_reducible refine State.wr_keeps ?_
    | (extract_lets +onlyGivenNames y; have hy : Keeps z y := ?_; clear_value y; rotate_left; subst y)
    | split

theorem State.timePortLost_keeps {z s : State} {q : Nat} (h : Keeps z s) : Keeps z (State.timePortLost s q) := by
  unfold State.timePortLost
  repeat' first
    | with_reducible assumption
    | with_reducible refine State.leaveGroup_keeps ?_
    | split

theorem State.portReset_keeps {z s : State} {q : Nat} (h : Keeps z s) : Keeps z (State.portReset s q) := by
  unfold State.portReset
  repeat' first
    | with_reducible assumption
    | with_reducible refine State.pairPortLost_keeps ?_
    | with_reducible refine State.timePortLost_keeps ?_
    | with_reducible refine State.chainsPortLost_keeps ?_
    | with_reducible refine State.modWgl_keeps ?_
    | split

theorem State.showRetired_keeps {z s : State} {q : Nat} (h : Keeps z s) : Keeps z (State.showRetired s q) := by
  unfold State.showRetired
  repeat' first
    | with_reducible assumption
    | with_reducible refine State.wr_keeps ?_
    | with_reducible refine State.setBit_keeps ?_
    | with_reducible refine Keeps.foldl (fun _ _ _ => ?_) ?_

theorem State.channelReset_keeps {z s : State} {ch : Nat} (h : Keeps z s) : Keeps z (State.channelReset s ch) := by
  unfold State.channelReset
  repeat' first
    | with_reducible assumption
    | with_reducible refine State.chainsWithdraw_keeps ?_
    | with_reducible refine State.channelAbort_keeps ?_
    | with_reducible refine State.portReset_keeps ?_
    | with_reducible refine State.cellsReset_keeps ?_
    | with_reducible refine State.resetRegs_keeps ?_
    | with_reducible refine State.showRetired_keeps ?_
    | with_reducible refine State.camRestart_keeps ?_
    | with_reducible refine State.modDisp_keeps ?_
    | with_reducible refine Keeps.foldl (fun _ _ _ => ?_) ?_
    | (extract_lets +onlyGivenNames y; have hy : Keeps z y := ?_; clear_value y; rotate_left; subst y)
    | (extract_lets +onlyGivenNames y; clear_value y)
    | with_reducible refine Keeps.frame ?_ rfl rfl

theorem State.channelGo_keeps {z s : State} {ch : Nat} (h : Keeps z s) : Keeps z (State.channelGo s ch) := by
  unfold State.channelGo
  repeat' first
    | with_reducible assumption
    | with_reducible refine State.resetRefused_keeps ?_
    | exact fun _ => rfl
    | with_reducible refine State.modPwr_keeps ?_ ?_
    | with_reducible refine State.wr_keeps ?_
    | with_reducible refine State.channelReset_keeps ?_
    | split

theorem State.clearCells_keeps {z s : State} (h : Keeps z s) : Keeps z (State.clearCells s) := by
  unfold State.clearCells
  repeat' first
    | with_reducible assumption
    | with_reducible refine State.regEncoding_keeps ?_
    | (extract_lets +onlyGivenNames y; clear_value y)
    | split
    | with_reducible refine Keeps.frame ?_ rfl rfl

theorem State.clearLanes_keeps {z s : State} (h : Keeps z s) : Keeps z (State.clearLanes s) := by
  unfold State.clearLanes
  repeat' first
    | with_reducible assumption
    | with_reducible refine State.regEncoding_keeps ?_
    | (extract_lets +onlyGivenNames y; clear_value y)
    | split
    | with_reducible refine Keeps.frame ?_ rfl rfl

theorem State.drainAbort_keeps {z s : State} {ld : Load} (h : Keeps z s) : Keeps z (State.drainAbort s ld) := by
  unfold State.drainAbort
  repeat' first
    | with_reducible assumption
    | with_reducible refine State.abortCtx_keeps ?_
    | with_reducible refine Keeps.foldl (fun _ _ _ => ?_) ?_
    | split

theorem State.drainBegin_keeps {z s : State} {ch : Nat} (h : Keeps z s) : Keeps z (State.drainBegin s ch) := by
  unfold State.drainBegin
  repeat' first
    | with_reducible assumption
    | with_reducible refine State.modDisp_keeps ?_
    | with_reducible refine State.cancelArms_keeps ?_
    | with_reducible refine State.cancelQueue_keeps ?_
    | with_reducible refine State.chainsWithdraw_keeps ?_
    | with_reducible refine State.ingDrain_keeps ?_

theorem State.drainEnd_keeps {z s : State} {chs : List Nat} (h : Keeps z s) : Keeps z (State.drainEnd s chs) := by
  unfold State.drainEnd
  repeat' first
    | with_reducible assumption
    | with_reducible refine State.modDisp_keeps ?_
    | with_reducible refine Keeps.foldl (fun _ _ _ => ?_) ?_

theorem State.drainStart_keeps {z s : State} {ld : Load} (h : Keeps z s) : Keeps z (State.drainStart s ld) := by
  unfold State.drainStart
  repeat' first
    | with_reducible assumption
    | with_reducible refine State.wr_keeps ?_
    | with_reducible refine State.drainBegin_keeps ?_
    | with_reducible refine State.drainAbort_keeps ?_
    | with_reducible refine Keeps.foldl (fun _ _ _ => ?_) ?_
    | (extract_lets +onlyGivenNames y; have hy : Keeps z y := ?_; clear_value y; rotate_left; subst y)
    | (extract_lets +onlyGivenNames y; clear_value y)
    | split
    | with_reducible refine Keeps.frame ?_ rfl rfl

theorem State.epochArm_keeps {z s : State} {arm : Bool} (h : Keeps z s) : Keeps z (State.epochArm s arm) := by
  unfold State.epochArm
  repeat' first
    | with_reducible assumption
    | with_reducible refine State.wr_keeps ?_
    | with_reducible refine State.regEncoding_keeps ?_
    | with_reducible refine State.modTime_keeps ?_
    | split

theorem State.freeStop_keeps {z s : State} {m : Bytes} (h : Keeps z s) : Keeps z (State.freeStop s m).2 := by
  unfold State.freeStop
  repeat' first
    | with_reducible assumption
    | with_reducible refine State.pick_keeps ?_

theorem State.timeApplied_keeps {z s : State} (h : Keeps z s) : Keeps z (State.timeApplied s) := by
  unfold State.timeApplied
  repeat' first
    | with_reducible assumption
    | with_reducible refine State.syncing_keeps ?_
    | with_reducible refine State.modTime_keeps ?_
    | with_reducible refine State.wr_keeps ?_

theorem State.groupLoaded_keeps {z s : State} {ld : Load} {changed : Bool} (h : Keeps z s) : Keeps z (State.groupLoaded s ld changed) := by
  unfold State.groupLoaded
  repeat' first
    | with_reducible assumption
    | with_reducible refine State.leaveGroup_keeps ?_
    | with_reducible refine State.wr_keeps ?_
    | with_reducible refine State.timeApplied_keeps ?_
    | (extract_lets +onlyGivenNames y; have hy : Keeps z y := ?_; clear_value y; rotate_left; subst y)
    | split

theorem State.hoardLoaded_keeps {z s : State} {ld : Load} (h : Keeps z s) : Keeps z (State.hoardLoaded s ld) := by
  unfold State.hoardLoaded
  repeat' first
    | with_reducible assumption
    | with_reducible refine State.hrdEpoch_keeps ?_
    | with_reducible refine State.wr_keeps ?_
    | with_reducible refine State.hrdRecord_keeps ?_
    | with_reducible refine Keeps.foldl (fun _ _ _ => ?_) ?_
    | (extract_lets +onlyGivenNames y; have hy : Keeps z y := ?_; clear_value y; rotate_left; subst y)
    | (extract_lets +onlyGivenNames y; clear_value y)
    | split

theorem State.imgCtl_keeps {z s : State} {v : Nat} (h : Keeps z s) : Keeps z (State.imgCtl s v) := by
  unfold State.imgCtl
  repeat' first
    | with_reducible assumption
    | with_reducible refine State.writeReg_keeps ?_
    | with_reducible refine State.loadGo_keeps ?_
    | (extract_lets +onlyGivenNames y; have hy : Keeps z y := ?_; clear_value y; rotate_left; subst y)
    | split

theorem State.passCounts_keeps {z s : State} {old : Nat} (h : Keeps z s) : Keeps z (State.passCounts s old) := by
  unfold State.passCounts
  repeat' first
    | with_reducible assumption
    | with_reducible refine State.passedCount_keeps ?_
    | with_reducible refine Keeps.foldl (fun _ _ _ => ?_) ?_
    | (extract_lets +onlyGivenNames y; clear_value y)
    | split

theorem State.timeRecord_keeps {z s : State} {cause old new : Nat} {j : Int} (h : Keeps z s) : Keeps z (State.timeRecord s cause old new j) := by
  unfold State.timeRecord
  repeat' first
    | with_reducible assumption
    | with_reducible refine State.hrdRecord_keeps ?_

theorem State.shiftTimers_keeps {z s : State} {j : Int} (h : Keeps z s) : Keeps z (State.shiftTimers s j) := by
  unfold State.shiftTimers
  repeat' first
    | with_reducible assumption
    | (extract_lets +onlyGivenNames y; have hy : Power := y; clear hy; subst y)
    | (extract_lets +onlyGivenNames y; clear_value y)
    | with_reducible refine Keeps.frame ?_ rfl rfl

theorem State.jump_keeps {z s : State} {j : Int} {cause : Nat} (h : Keeps z s) : Keeps z (State.jump s j cause) := by
  unfold State.jump
  repeat' first
    | with_reducible assumption
    | with_reducible refine State.passCounts_keeps ?_
    | with_reducible refine State.timeRecord_keeps ?_
    | with_reducible refine State.shiftTimers_keeps ?_
    | with_reducible refine Keeps.frame ?_ rfl rfl

theorem State.takeImage_keeps {z s : State} {m : Bytes} (h : Keeps z s) : Keeps z (State.takeImage s m) := by
  unfold State.takeImage
  repeat' first
    | with_reducible assumption
    | with_reducible refine State.wr_keeps ?_
    | (extract_lets +onlyGivenNames y; clear_value y)
    | split
    | with_reducible refine Keeps.frame ?_ rfl rfl

theorem State.startArming_keeps {z s : State} {f : Nat} (h : Keeps z s) : Keeps z (State.startArming s f) := by
  unfold State.startArming
  repeat' first
    | with_reducible assumption
    | with_reducible refine State.modFn_keeps ?_
    | with_reducible refine State.mirror_keeps ?_
    | (extract_lets +onlyGivenNames y; have hy : Keeps z y := ?_; clear_value y; rotate_left; subst y)
    | split

theorem State.safetyApplied_keeps {z s : State} (h : Keeps z s) : Keeps z (State.safetyApplied s) := by
  unfold State.safetyApplied
  repeat' first
    | with_reducible assumption
    | with_reducible refine State.modFn_keeps ?_
    | with_reducible refine State.startArming_keeps ?_
    | with_reducible refine Keeps.foldl (fun _ _ _ => ?_) ?_
    | (extract_lets +onlyGivenNames y; have hy : Keeps z y := ?_; clear_value y; rotate_left; subst y)
    | split

theorem State.safetyLoaded_keeps {z s : State} {ld : Load} (h : Keeps z s) : Keeps z (State.safetyLoaded s ld) := by
  unfold State.safetyLoaded
  repeat' first
    | with_reducible assumption
    | with_reducible refine State.safetyApplied_keeps ?_
    | with_reducible refine State.modFn_keeps ?_
    | with_reducible refine Keeps.foldl (fun _ _ _ => ?_) ?_
    | split

theorem State.loadApplied_keeps {z s : State} {ld : Load} {done : List Nat} (h : Keeps z s) : Keeps z (State.loadApplied s ld done) := by
  unfold State.loadApplied
  repeat' first
    | with_reducible assumption
    | with_reducible refine State.takeImage_keeps ?_
    | with_reducible refine State.clrBit_keeps ?_
    | with_reducible refine State.setBit_keeps ?_
    | with_reducible refine State.drainEnd_keeps ?_
    | with_reducible refine State.bootSwarm_keeps ?_
    | with_reducible refine State.groupLoaded_keeps ?_
    | with_reducible refine State.hoardLoaded_keeps ?_
    | with_reducible refine State.safetyLoaded_keeps ?_
    | with_reducible refine State.chainsApplied_keeps ?_
    | exact fun _ => rfl
    | with_reducible refine State.modPwr_keeps ?_ ?_
    | with_reducible refine State.incr_keeps ?_
    | with_reducible refine State.bindReport_keeps ?_
    | with_reducible refine State.loadEnd_keeps ?_
    | with_reducible refine Keeps.foldl (fun _ _ _ => ?_) ?_

theorem State.unconfigure_keeps {z s : State} {ch : Nat} (h : Keeps z s) : Keeps z (State.unconfigure s ch) := by
  unfold State.unconfigure
  repeat' first
    | with_reducible assumption
    | with_reducible refine State.setBit_keeps ?_
    | with_reducible refine State.clrBit_keeps ?_
    | (extract_lets +onlyGivenNames y; have hy : Keeps z y := ?_; clear_value y; rotate_left; subst y)
    | (extract_lets +onlyGivenNames y; clear_value y)
    | split
    | with_reducible refine Keeps.frame ?_ rfl rfl

theorem State.restoresLost_keeps {z s : State} {ch : Nat} (h : Keeps z s) : Keeps z (State.restoresLost s ch) := by
  unfold State.restoresLost
  repeat' first
    | with_reducible assumption
    | with_reducible refine State.countEnd_keeps ?_
    | with_reducible refine Keeps.foldl (fun _ _ _ => ?_) ?_
    | split

theorem State.noImage_keeps {z s : State} (h : Keeps z s) : Keeps z (State.noImage s) := by
  unfold State.noImage
  repeat' first
    | with_reducible assumption
    | with_reducible refine State.wr_keeps ?_
    | (extract_lets +onlyGivenNames y; have hy : Keeps z y := ?_; clear_value y; rotate_left; subst y)
    | (extract_lets +onlyGivenNames y; clear_value y)
    | split
    | with_reducible refine Keeps.frame ?_ rfl rfl

theorem State.loadStop_keeps {z s : State} {ld : Load} {code detail : Nat} (h : Keeps z s) : Keeps z (State.loadStop s ld code detail) := by
  unfold State.loadStop
  repeat' first
    | with_reducible assumption
    | with_reducible refine State.unconfigure_keeps ?_
    | with_reducible refine State.restoresLost_keeps ?_
    | with_reducible refine State.channelReset_keeps ?_
    | with_reducible refine State.drainEnd_keeps ?_
    | with_reducible refine State.noImage_keeps ?_
    | with_reducible refine State.bindReport_keeps ?_
    | with_reducible refine State.loadEnd_keeps ?_
    | with_reducible refine Keeps.foldl (fun _ _ _ => ?_) ?_
    | split

theorem State.startSlew_keeps {z s : State} {k : Int} (h : Keeps z s) : Keeps z (State.startSlew s k) := by
  unfold State.startSlew
  repeat' first
    | with_reducible assumption
    | with_reducible refine State.modTime_keeps ?_

theorem State.offset_keeps {z s : State} {d : Int} (h : Keeps z s) : Keeps z (State.offset s d) := by
  unfold State.offset
  repeat' first
    | with_reducible assumption
    | with_reducible refine State.wr_keeps ?_
    | with_reducible refine State.evt_keeps ?_
    | with_reducible refine State.modTime_keeps ?_
    | with_reducible refine State.jump_keeps ?_
    | with_reducible refine State.startSlew_keeps ?_
    | with_reducible refine State.joining_keeps ?_
    | (extract_lets +onlyGivenNames y; have hy : Keeps z y := ?_; clear_value y; rotate_left; subst y)
    | (extract_lets +onlyGivenNames y; clear_value y)
    | (extract_lets +onlyGivenNames y; subst y)
    | split

theorem State.powerOff_keeps {z s : State} (h : Keeps z s) : Keeps z (State.powerOff s) := by
  unfold State.powerOff
  exact h.update rfl (fun _ => by show swf 0 State.reset.regs = true; decide) (fun w => w) (fun w => w)
    (fun _ => by show cellsWf State.reset.cells = true; decide) (Fuses.within_refl _)

theorem State.railTrip_keeps {z s : State} (h : Keeps z s) : Keeps z (State.railTrip s) := by
  unfold State.railTrip
  repeat' first
    | with_reducible assumption
    | exact fun _ => rfl
    | with_reducible refine State.modPwr_keeps ?_ ?_
    | with_reducible refine State.wr_keeps ?_
    | with_reducible refine State.powerOff_keeps ?_

theorem State.readBoard_keeps {z s : State} {b : Board} (h : Keeps z s) : Keeps z (State.readBoard s b) := by
  unfold State.readBoard
  repeat' first
    | with_reducible assumption
    | with_reducible refine State.wr_keeps ?_
    | exact fun _ => rfl
    | with_reducible refine State.modPwr_keeps ?_ ?_

theorem State.resetFields_keeps {z s : State} {v : Nat} (h : Keeps z s) : Keeps z (State.resetFields s v) := by
  unfold State.resetFields
  repeat' first
    | with_reducible assumption
    | with_reducible refine State.writeReg_keeps ?_

theorem State.takeDelayReq_keeps {z s : State} {q stream : Nat} {arg : Bytes} {rx : Nat} (h : Keeps z s) : Keeps z (State.takeDelayReq s q stream arg rx) := by
  unfold State.takeDelayReq
  repeat' first
    | with_reducible assumption
    | with_reducible refine State.modTime_keeps ?_

theorem State.takeForm_keeps {z s : State} {payload : Bytes} (h : Keeps z s) : Keeps z (State.takeForm s payload) := by
  unfold State.takeForm
  repeat' first
    | with_reducible assumption
    | with_reducible refine State.beaconDown_keeps ?_
    | with_reducible refine State.setRoster_keeps ?_
    | with_reducible refine State.formed_keeps ?_
    | (extract_lets +onlyGivenNames y; have hy : Keeps z y := ?_; clear_value y; rotate_left; subst y)
    | split

theorem State.takeLeave_keeps {z s : State} {payload : Bytes} (h : Keeps z s) : Keeps z (State.takeLeave s payload) := by
  unfold State.takeLeave
  repeat' first
    | with_reducible assumption
    | with_reducible refine State.modTime_keeps ?_
    | with_reducible refine State.wr_keeps ?_
    | with_reducible refine State.masterForms_keeps ?_
    | with_reducible refine State.beaconUp_keeps ?_
    | (extract_lets +onlyGivenNames y; have hy : Keeps z y := ?_; clear_value y; rotate_left; subst y)
    | (extract_lets +onlyGivenNames y; clear_value y)
    | split

theorem State.takeRefuse_keeps {z s : State} {payload : Bytes} (h : Keeps z s) : Keeps z (State.takeRefuse s payload) := by
  unfold State.takeRefuse
  repeat' first
    | with_reducible assumption
    | with_reducible refine State.beaconDown_keeps ?_
    | with_reducible refine State.groupRefused_keeps ?_

theorem State.takeSync_keeps {z s : State} {arg payload : Bytes} {rx : Nat} (h : Keeps z s) : Keeps z (State.takeSync s arg payload rx) := by
  unfold State.takeSync
  repeat' first
    | with_reducible assumption
    | with_reducible refine State.modTime_keeps ?_
    | with_reducible refine State.offset_keeps ?_
    | with_reducible refine State.beaconUp_keeps ?_
    | split

theorem State.trainStack_keeps {z s : State} {trained k : Nat} (h : Keeps z s) : Keeps z (State.trainStack s trained k) := by
  unfold State.trainStack
  split
  · extract_lets a b s1
    have ha : Keeps z a := State.wr_keeps h
    have h1 : Keeps z s1 := by with_reducible exact Keeps.frame ha rfl rfl
    clear_value s1
    split
    · exact h1
    · have h2 : Keeps z (s1.wr (Reg.memStatusZeroed k) 1) := State.wr_keeps h1
      exact h2.update (s := s1.wr (Reg.memStatusZeroed k) 1) rfl (fun w => w) (fun w => swf_filter _ _ _ w) (fun w => w) (fun w => w)
        (Fuses.within_refl _)
  · have h2 : Keeps z ((s.wr (Reg.memStatusPresent k) 0).evt 0xC024 0) := State.evt_keeps (State.wr_keeps h)
    with_reducible exact Keeps.frame h2 rfl rfl

theorem State.warmClear_keeps {z s : State} (h : Keeps z s) : Keeps z (State.warmClear s) := by
  unfold State.warmClear
  extract_lets s1 cut s2 s3 s4 s5 wires s6 s7
  have h1 : Keeps z s1 := State.leaveGroup_keeps h
  have h2 : Keeps z s2 := State.resetRegs_keeps h1
  have h3 : Keeps z s3 := State.wr_keeps (State.wr_keeps (State.wr_keeps h2))
  have h4 : Keeps z s4 := State.wr_keeps (State.wr_keeps (State.wr_keeps (State.wr_keeps h3)))
  have h5 : Keeps z s5 := State.wr_keeps (State.wr_keeps (State.wr_keeps h4))
  clear_value s5
  have h6 : Keeps z s6 := h5.update rfl (fun w => w) (fun w => w) (fun w => w) (fun _ => rfl) (Fuses.within_refl _)
  clear_value s6
  have h7 : Keeps z s7 := State.modPwr_keeps (fun _ => rfl) h6
  exact Keeps.foldl (fun _ _ hs => State.showRetired_keeps hs) h7

theorem State.warmReset_keeps {z s : State} {cause : Nat} (h : Keeps z s) : Keeps z (State.warmReset s cause) := by
  unfold State.warmReset
  repeat' first
    | with_reducible assumption
    | with_reducible refine State.wr_keeps ?_
    | with_reducible refine State.incr_keeps ?_
    | with_reducible refine State.warmClear_keeps ?_

theorem State.warmBoot_keeps {z s : State} {cause : Nat} (h : Keeps z s) : Keeps z (State.warmBoot s cause) := by
  unfold State.warmBoot
  repeat' first
    | with_reducible assumption
    | with_reducible refine State.bootStart_keeps ?_
    | with_reducible refine State.warmReset_keeps ?_

end Sys2Proof.Machine
end

