-- ==== Sys2Proof/Laws/KeepsLinks.lean ====
section
/-! SUPPORT. Keeps of the operations of the launches, the seal engine, Waggle and Bristle. -/
namespace Sys2Proof.Machine

theorem State.beaconEffect_keeps {z s : State} {q : Nat} {m : RxMsg} (h : Keeps z s) : Keeps z (State.beaconEffect s q m) := by
  unfold State.beaconEffect
  repeat' first
    | with_reducible assumption
    | with_reducible refine State.takeSync_keeps ?_
    | with_reducible refine State.takeDelayReq_keeps ?_
    | with_reducible refine State.takeJoin_keeps ?_
    | with_reducible refine State.takeForm_keeps ?_
    | with_reducible refine State.takeRefuse_keeps ?_
    | with_reducible refine State.takeLeave_keeps ?_
    | (extract_lets +onlyGivenNames y; clear_value y)
    | split

theorem State.chainsDue_keeps {z s : State} {ch : Nat} (h : Keeps z s) : Keeps z (State.chainsDue s ch) := by
  unfold State.chainsDue
  repeat' first
    | with_reducible assumption
    | with_reducible refine State.makeIncomplete_keeps ?_
    | with_reducible refine Keeps.foldl (fun _ _ _ => ?_) ?_
    | split

theorem State.clearAtLaunch_keeps {z s : State} {id : Nat} (h : Keeps z s) : Keeps z (State.clearAtLaunch s id) := by
  unfold State.clearAtLaunch
  repeat' first
    | with_reducible assumption
    | exact fun _ hc => hc
    | exact fun _ hc => by simpa using hc
    | with_reducible refine State.modCell_keeps ?_ ?_
    | with_reducible refine State.wr_keeps ?_
    | (extract_lets +onlyGivenNames y; have hy : Keeps z y := ?_; clear_value y; rotate_left; subst y)
    | (extract_lets +onlyGivenNames y; clear_value y)
    | split

theorem State.consume_keeps {z s : State} {q : Nat} {m : RxMsg} (h : Keeps z s) : Keeps z (State.consume s q m) := by
  unfold State.consume
  repeat' first
    | with_reducible assumption
    | with_reducible refine State.modWgl_keeps ?_

theorem State.createOn_keeps {z s : State} {ch k id : Nat} (h : Keeps z s) : Keeps z (State.createOn s ch k id) := by
  unfold State.createOn
  repeat' first
    | with_reducible assumption
    | with_reducible refine State.modSwarm_keeps ?_
    | with_reducible refine Keeps.foldl (fun _ _ _ => ?_) ?_

theorem State.sendPieces_keeps {z s : State} {q ch cell stream src id : Nat} {b : Bytes} (h : Keeps z s) : Keeps z (State.sendPieces s q ch cell stream src id b) := by
  unfold State.sendPieces
  repeat' first
    | with_reducible assumption
    | with_reducible refine State.post_keeps ?_
    | with_reducible refine Keeps.foldl (fun _ _ _ => ?_) ?_

theorem State.dataToCell_keeps {z s : State} {q : Nat} {m : RxMsg} {cell : Nat} (h : Keeps z s) : Keeps z (State.dataToCell s q m cell) := by
  unfold State.dataToCell
  repeat' first
    | with_reducible assumption
    | with_reducible refine State.modWgl_keeps ?_
    | with_reducible refine State.sendPieces_keeps ?_
    | with_reducible refine Keeps.foldl (fun _ _ _ => ?_) ?_

theorem State.finishReq_keeps {z s : State} {q src stream id status : Nat} (h : Keeps z s) : Keeps z (State.finishReq s q src stream id status) := by
  unfold State.finishReq
  repeat' first
    | with_reducible assumption
    | with_reducible refine State.wglMack_keeps ?_
    | with_reducible refine State.modWgl_keeps ?_

theorem State.dataToHost_keeps {z s : State} {q : Nat} {m : RxMsg} (h : Keeps z s) : KeepsOpt z (State.dataToHost s q m) := by
  unfold State.dataToHost
  repeat' first
    | with_reducible assumption
    | with_reducible refine State.finishReq_keeps ?_
    | with_reducible refine State.modWgl_keeps ?_
    | with_reducible refine State.stage_keeps ?_
    | with_reducible exact KeepsOpt.none
    | with_reducible refine KeepsOpt.some ?_
    | (extract_lets +onlyGivenNames y; have hy : Keeps z y := ?_; clear_value y; rotate_left; subst y)
    | (extract_lets +onlyGivenNames y; clear_value y)
    | split

theorem State.withhold_keeps {z s : State} {f side : Nat} {e : DelayEntry} (h : Keeps z s) : Keeps z (State.withhold s f side e) := by
  unfold State.withhold
  repeat' first
    | with_reducible assumption
    | with_reducible refine State.modFn_keeps ?_
    | with_reducible refine State.jobWithheld_keeps ?_
    | (extract_lets +onlyGivenNames y; have hy : Keeps z y := ?_; clear_value y; rotate_left; subst y)
    | split

theorem State.matched_keeps {z s : State} {f : Nat} {a b : DelayEntry} {release : Bool} (h : Keeps z s) : Keeps z (State.matched s f a b release) := by
  unfold State.matched
  repeat' first
    | with_reducible assumption
    | with_reducible refine State.incr_keeps ?_
    | with_reducible refine State.releaseEntry_keeps ?_
    | with_reducible refine State.modFn_keeps ?_
    | with_reducible refine State.withhold_keeps ?_
    | with_reducible refine State.fillEgress_keeps ?_
    | split

theorem State.entryFault_keeps {z s : State} {f code : Nat} {l : List (Nat × DelayEntry)} (h : Keeps z s) : Keeps z (State.entryFault s f code l) := by
  unfold State.entryFault
  repeat' first
    | with_reducible assumption
    | with_reducible refine State.withhold_keeps ?_
    | with_reducible refine State.fillEgress_keeps ?_
    | with_reducible refine State.safeFault_keeps ?_
    | with_reducible refine Keeps.foldl (fun _ _ _ => ?_) ?_
    | split

theorem State.decidePair_keeps {z s : State} {f : Nat} {a b : DelayEntry} (h : Keeps z s) : Keeps z (State.decidePair s f a b) := by
  unfold State.decidePair
  repeat' first
    | with_reducible assumption
    | with_reducible refine State.matched_keeps ?_
    | with_reducible refine State.entryFault_keeps ?_
    | with_reducible refine State.fillEgress_keeps ?_
    | with_reducible refine State.evt_keeps ?_
    | with_reducible refine State.bump_keeps ?_
    | with_reducible refine State.withhold_keeps ?_
    | (extract_lets +onlyGivenNames y; clear_value y)
    | split

theorem State.discardFlit_keeps {z s : State} {q : Nat} {p : Bytes} (h : Keeps z s) : Keeps z (State.discardFlit s q p) := by
  unfold State.discardFlit
  repeat' first
    | with_reducible assumption
    | with_reducible refine State.evt_keeps ?_
    | with_reducible refine State.bump_keeps ?_
    | with_reducible refine State.modWgl_keeps ?_
    | (extract_lets +onlyGivenNames y; have hy : Keeps z y := ?_; clear_value y; rotate_left; subst y)
    | (extract_lets +onlyGivenNames y; clear_value y)
    | split

theorem State.execChainMsg_keeps {z s : State} {q : Nat} {m : RxMsg} (h : Keeps z s) : Keeps z (State.execChainMsg s q m) := by
  unfold State.execChainMsg
  repeat' first
    | with_reducible assumption
    | with_reducible refine State.forwardTo_keeps ?_
    | with_reducible refine State.announceAt_keeps ?_
    | with_reducible refine State.evt_keeps ?_
    | with_reducible refine State.finishReq_keeps ?_
    | with_reducible refine Keeps.foldl_fst (fun _ _ _ => ?_) ?_
    | split

theorem State.triggerMsg_keeps {z s : State} {ch : Nat} {payload : Bytes} {honour : Bool} (h : Keeps z s) : Keeps z (State.triggerMsg s ch payload honour) := by
  unfold State.triggerMsg
  repeat' first
    | with_reducible assumption
    | with_reducible refine State.dEvt_keeps ?_
    | with_reducible refine State.evt_keeps ?_
    | with_reducible refine State.accept_keeps ?_
    | (extract_lets +onlyGivenNames y; clear_value y)
    | split

theorem State.execData_keeps {z s : State} {q : Nat} {m : RxMsg} (h : Keeps z s) : KeepsOpt z (State.execData s q m) := by
  unfold State.execData
  repeat' first
    | with_reducible assumption
    | with_reducible refine State.dataToCell_keeps ?_
    | with_reducible refine State.finishReq_keeps ?_
    | with_reducible refine State.triggerMsg_keeps ?_
    | with_reducible refine State.dataToHost_keeps ?_
    | with_reducible refine KeepsOpt.some ?_
    | with_reducible refine Keeps.foldl (fun _ _ _ => ?_) ?_
    | (extract_lets +onlyGivenNames y; clear_value y)
    | split

theorem State.storePackets_keeps {z : State} {x1 : Nat} {s : State} {x3 x4 x5 : Nat} {x6 : Bytes} {x7 : Nat} (h : Keeps z s) : Keeps z (State.storePackets x1 s x3 x4 x5 x6 x7).1 := by
  induction x1 generalizing s x3 x4 x5 x6 x7
  case zero => exact h
  case succ n ih =>
  unfold State.storePackets
  repeat' first
    | with_reducible assumption
    | with_reducible refine ih ?_
    | with_reducible refine State.countEnd_keeps ?_
    | with_reducible refine State.inboundStore_keeps ?_
    | (extract_lets +onlyGivenNames y; clear_value y)
    | split

theorem State.execStoreMsg_keeps {z s : State} {q : Nat} {m : RxMsg} (h : Keeps z s) : Keeps z (State.execStoreMsg s q m) := by
  unfold State.execStoreMsg
  repeat' first
    | with_reducible assumption
    | with_reducible refine State.storePackets_keeps ?_
    | with_reducible refine State.finishReq_keeps ?_
    | with_reducible refine Keeps.foldl_fst (fun _ _ _ => ?_) ?_
    | (extract_lets +onlyGivenNames y; clear_value y)
    | split

theorem State.retireLane_keeps {z s : State} {q lane : Nat} {ask : Bool} (h : Keeps z s) : Keeps z (State.retireLane s q lane ask) := by
  unfold State.retireLane
  repeat' first
    | with_reducible assumption
    | with_reducible refine State.evt_keeps ?_
    | with_reducible refine State.wr_keeps ?_
    | with_reducible refine State.clrBit_keeps ?_
    | with_reducible refine State.setBit_keeps ?_
    | with_reducible refine State.modWgl_keeps ?_
    | (extract_lets +onlyGivenNames y; clear_value y)
    | with_reducible refine Keeps.frame ?_ rfl rfl

theorem State.wantRetire_keeps {z s : State} {q lane : Nat} {p : Bytes} {ask : Bool} (h : Keeps z s) : Keeps z (State.wantRetire s q lane p ask) := by
  unfold State.wantRetire
  repeat' first
    | with_reducible assumption
    | with_reducible refine State.retireLane_keeps ?_
    | with_reducible refine State.evt_keeps ?_
    | with_reducible refine State.modWgl_keeps ?_
    | (extract_lets +onlyGivenNames y; clear_value y)
    | split

theorem State.laneErrors_keeps {z s : State} {q lane n : Nat} {p : Bytes} (h : Keeps z s) : Keeps z (State.laneErrors s q lane n p) := by
  unfold State.laneErrors
  repeat' first
    | with_reducible assumption
    | with_reducible refine State.bump_keeps ?_
    | with_reducible refine State.modWgl_keeps ?_
    | with_reducible refine State.wantRetire_keeps ?_
    | (extract_lets +onlyGivenNames y; have hy : Keeps z y := ?_; clear_value y; rotate_left; subst y)
    | (extract_lets +onlyGivenNames y; clear_value y)
    | split

theorem State.lateJob_keeps {z s : State} {ch : Nat} {j : SealJob} (h : Keeps z s) : Keeps z (State.lateJob s ch j) := by
  unfold State.lateJob
  repeat' first
    | with_reducible assumption
    | with_reducible refine State.jobLate_keeps ?_
    | with_reducible refine State.emitFallback_keeps ?_
    | with_reducible refine State.dEvt_keeps ?_
    | split

theorem State.lateTrigger_keeps {z s : State} {ch : Nat} {t : Trigger} (h : Keeps z s) : Keeps z (State.lateTrigger s ch t) := by
  unfold State.lateTrigger
  repeat' first
    | with_reducible assumption
    | with_reducible refine State.dropTrigger_keeps ?_
    | with_reducible refine State.dEvt_keeps ?_
    | with_reducible refine State.releaseSlot_keeps ?_
    | with_reducible refine State.modDisp_keeps ?_
    | split

theorem State.loseHeld_keeps {z s : State} {q : Nat} (h : Keeps z s) : Keeps z (State.loseHeld s q) := by
  unfold State.loseHeld
  repeat' first
    | with_reducible assumption
    | with_reducible refine State.modWgl_keeps ?_
    | with_reducible refine State.evt_keeps ?_
    | with_reducible refine State.bump_keeps ?_
    | (extract_lets +onlyGivenNames y; have hy : Keeps z y := ?_; clear_value y; rotate_left; subst y)
    | (extract_lets +onlyGivenNames y; clear_value y)
    | split

theorem State.partnerFresh_keeps {z s : State} {q : Nat} (h : Keeps z s) : Keeps z (State.partnerFresh s q) := by
  unfold State.partnerFresh
  repeat' first
    | with_reducible assumption
    | with_reducible refine State.modWgl_keeps ?_
    | with_reducible refine State.loseHeld_keeps ?_
    | with_reducible refine State.pairPortLost_keeps ?_
    | with_reducible refine State.timePortLost_keeps ?_
    | with_reducible refine State.chainsPortLost_keeps ?_

theorem State.setLink_keeps {z s : State} {q st : Nat} (h : Keeps z s) : Keeps z (State.setLink s q st) := by
  unfold State.setLink
  repeat' first
    | with_reducible assumption
    | with_reducible refine State.modWgl_keeps ?_
    | with_reducible refine State.wr_keeps ?_

theorem State.linkUpNow_keeps {z s : State} {q : Nat} {p b : Bytes} (h : Keeps z s) : Keeps z (State.linkUpNow s q p b) := by
  unfold State.linkUpNow
  repeat' first
    | with_reducible assumption
    | with_reducible refine State.partnerFresh_keeps ?_
    | with_reducible refine State.loseHeld_keeps ?_
    | with_reducible refine State.setLink_keeps ?_
    | with_reducible refine State.incr_keeps ?_
    | with_reducible refine State.wr_keeps ?_
    | with_reducible refine State.modWgl_keeps ?_
    | with_reducible refine State.chainsPortUp_keeps ?_
    | with_reducible refine State.wglPump_keeps ?_
    | split

theorem State.walkList_keeps {z s : State} {ch k : Nat} {x1 : List (Nat × Nat)} (h : Keeps z s) : Keeps z (State.walkList s ch k x1).1 := by
  induction x1 generalizing s ch k
  case nil => exact h
  case cons y l ih =>
  unfold State.walkList
  repeat' first
    | with_reducible assumption
    | with_reducible refine ih ?_
    | with_reducible refine State.walk_keeps ?_
    | split
    | refine Keeps.of_fst (by assumption) ?_

theorem State.loadRegions_keeps {z s : State} {ch k : Nat} (h : Keeps z s) : Keeps z (State.loadRegions s ch k).1 := by
  unfold State.loadRegions
  repeat' first
    | with_reducible assumption
    | with_reducible refine State.walkList_keeps ?_
    | exact fun _ hc => hc
    | exact fun _ hc => by simpa using hc
    | with_reducible refine State.modCell_keeps ?_ ?_
    | with_reducible refine Keeps.foldl (fun _ _ _ => ?_) ?_
    | (extract_lets +onlyGivenNames y; clear_value y)
    | split
    | refine Keeps.of_fst (by assumption) ?_

theorem State.manifestRefused_keeps {z s : State} (h : Keeps z s) : Keeps z (State.manifestRefused s) := by
  unfold State.manifestRefused
  repeat' first
    | with_reducible assumption
    | with_reducible refine State.evt_keeps ?_

theorem State.manifestGo_keeps {z s : State} (h : Keeps z s) : Keeps z (State.manifestGo s) := by
  unfold State.manifestGo
  repeat' first
    | with_reducible assumption
    | with_reducible refine State.manifestRefused_keeps ?_
    | with_reducible refine State.wr_keeps ?_
    | (extract_lets +onlyGivenNames y; clear_value y)
    | split
    | with_reducible refine Keeps.frame ?_ rfl rfl

theorem State.masterRegion_keeps {z s : State} {ch k a : Nat} (h : Keeps z s) : Keeps z (State.masterRegion s ch k a).1 := by
  unfold State.masterRegion
  repeat' first
    | with_reducible assumption
    | with_reducible refine State.walk_keeps ?_
    | (extract_lets +onlyGivenNames y; clear_value y)
    | split

theorem State.masterBytes_keeps {z s : State} {ch k a n : Nat} {host : Bytes} (h : Keeps z s) : Keeps z (State.masterBytes s ch k a n host).1 := by
  unfold State.masterBytes
  repeat' first
    | with_reducible assumption
    | with_reducible refine State.masterRegion_keeps ?_
    | with_reducible refine State.hbmFrom_keeps ?_
    | split
    | refine Keeps.of_fst (by assumption) ?_

theorem State.takeRecord_keeps {z s : State} {f : Nat} {pl : Bytes} (h : Keeps z s) : Keeps z (State.takeRecord s f pl) := by
  unfold State.takeRecord
  repeat' first
    | with_reducible assumption
    | with_reducible refine State.modFn_keeps ?_
    | with_reducible refine State.entryFault_keeps ?_
    | (extract_lets +onlyGivenNames y; have hy : Keeps z y := ?_; clear_value y; rotate_left; subst y)
    | (extract_lets +onlyGivenNames y; clear_value y)
    | split

theorem State.mirrorEffect_keeps {z s : State} {b : Bytes} (h : Keeps z s) : Keeps z (State.mirrorEffect s b) := by
  unfold State.mirrorEffect
  repeat' first
    | with_reducible assumption
    | with_reducible refine State.modFn_keeps ?_
    | with_reducible refine State.takeRecord_keeps ?_
    | with_reducible refine State.partnerLost_keeps ?_
    | (extract_lets +onlyGivenNames y; have hy : Keeps z y := ?_; clear_value y; rotate_left; subst y)
    | (extract_lets +onlyGivenNames y; clear_value y)
    | split

theorem State.nextStage_keeps {z s : State} {q st : Nat} (h : Keeps z s) : Keeps z (State.nextStage s q st) := by
  unfold State.nextStage
  repeat' first
    | with_reducible assumption
    | with_reducible refine State.modWgl_keeps ?_
    | with_reducible refine State.setLink_keeps ?_
    | split

theorem State.notExecuted_keeps {z s : State} {q : Nat} {m : RxMsg} {row : Nat} (h : Keeps z s) : Keeps z (State.notExecuted s q m row) := by
  unfold State.notExecuted
  repeat' first
    | with_reducible assumption
    | with_reducible refine State.evt_keeps ?_
    | with_reducible refine State.bump_keeps ?_
    | with_reducible refine State.wglMack_keeps ?_
    | with_reducible refine State.finishReq_keeps ?_
    | (extract_lets +onlyGivenNames y; have hy : Keeps z y := ?_; clear_value y; rotate_left; subst y)
    | (extract_lets +onlyGivenNames y; clear_value y)
    | split

theorem State.recordWaggle_keeps {z s : State} {q : Nat} {m : RxMsg} {row : Nat} (h : Keeps z s) : Keeps z (State.recordWaggle s q m row) := by
  unfold State.recordWaggle
  repeat' first
    | with_reducible assumption
    | with_reducible refine State.hrdRecord_keeps ?_

theorem State.onRequest_keeps {z s : State} {q vl : Nat} {want : Bytes → Bool} {f : State → RxMsg → Option State} (h : Keeps z s) (hf : ∀ y0 y1, Keeps z y0 → KeepsOpt z (f y0 y1)) : Keeps z (State.onRequest s q vl want f) := by
  unfold State.onRequest
  repeat' first
    | with_reducible assumption
    | with_reducible refine hf _ _ ?_
    | with_reducible refine State.ignoreLive_keeps ?_
    | with_reducible refine State.consume_keeps ?_
    | with_reducible refine State.notExecuted_keeps ?_
    | with_reducible refine State.recordWaggle_keeps ?_
    | refine Keeps.of_opt (by assumption) ?_
    | (extract_lets +onlyGivenNames y; clear_value y)
    | split

theorem State.onBeacon_keeps {z s : State} {q kind : Nat} (h : Keeps z s) : Keeps z (State.onBeacon s q kind) := by
  unfold State.onBeacon
  repeat' first
    | with_reducible assumption
    | with_reducible refine State.onRequest_keeps ?_ (fun _ _ _ => ?_)
    | with_reducible refine State.finishReq_keeps ?_
    | with_reducible refine State.beaconEffect_keeps ?_
    | with_reducible refine KeepsOpt.some ?_

theorem State.onMirror_keeps {z s : State} {q kind : Nat} (h : Keeps z s) : Keeps z (State.onMirror s q kind) := by
  unfold State.onMirror
  repeat' first
    | with_reducible assumption
    | with_reducible refine State.onRequest_keeps ?_ (fun _ _ _ => ?_)
    | with_reducible refine State.finishReq_keeps ?_
    | with_reducible refine State.evt_keeps ?_
    | with_reducible refine State.mirrorEffect_keeps ?_
    | with_reducible refine KeepsOpt.some ?_
    | (extract_lets +onlyGivenNames y; clear_value y)
    | split

theorem State.parkCtx_keeps {z s : State} {ch k : Nat} (h : Keeps z s) : Keeps z (State.parkCtx s ch k) := by
  unfold State.parkCtx
  repeat' first
    | with_reducible assumption
    | with_reducible refine State.modCtx_keeps ?_
    | with_reducible refine State.requestPark_keeps ?_
    | with_reducible refine Keeps.foldl (fun _ _ _ => ?_) ?_
    | split

theorem State.pieceSettled_keeps {z s : State} {o : Origin} {status : Nat} (h : Keeps z s) : Keeps z (State.pieceSettled s o status) := by
  unfold State.pieceSettled
  repeat' first
    | with_reducible assumption
    | with_reducible refine State.finishReq_keeps ?_
    | with_reducible refine State.modWgl_keeps ?_
    | (extract_lets +onlyGivenNames y; clear_value y)
    | split

theorem State.preempt_keeps {z s : State} {ch k : Nat} (h : Keeps z s) : Keeps z (State.preempt s ch k) := by
  unfold State.preempt
  repeat' first
    | with_reducible assumption
    | with_reducible refine State.parkCtx_keeps ?_
    | split

theorem State.rangeBytes_keeps {z s : State} {l : List Bytes} (h : Keeps z s) : Keeps z (State.rangeBytes s l).1 := by
  unfold State.rangeBytes
  repeat' first
    | with_reducible assumption
    | with_reducible refine State.hbmFetch_keeps ?_
    | with_reducible refine Keeps.foldl_fst (fun _ _ _ => ?_) ?_
    | split

theorem State.readAreas_keeps {z s : State} {ch k : Nat} {x1 : List Nat} (h : Keeps z s) : Keeps z (State.readAreas s ch k x1).1 := by
  induction x1 generalizing s ch k
  case nil => exact h
  case cons y l ih =>
  unfold State.readAreas
  repeat' first
    | with_reducible assumption
    | with_reducible refine ih ?_
    | with_reducible refine State.hbmFetch_keeps ?_
    | (extract_lets +onlyGivenNames y; clear_value y)
    | split
    | refine Keeps.of_fst (by assumption) ?_

theorem State.refresh_keeps {z s : State} {ch k : Nat} {x1 : List (Nat × Nat × Nat)} {x2 : Bytes} (h : Keeps z s) : Keeps z (State.refresh s ch k x1 x2).1 := by
  induction x1 generalizing s ch k x2
  case nil => exact h
  case cons y l ih =>
  unfold State.refresh
  repeat' first
    | with_reducible assumption
    | with_reducible refine ih ?_
    | with_reducible refine State.masterBytes_keeps ?_
    | exact fun _ hc => by simpa using hc
    | exact fun _ hc => by with_reducible exact CellMem.write_lm hc
    | with_reducible refine State.modCell_keeps ?_ ?_
    | with_reducible refine Keeps.foldl (fun _ _ _ => ?_) ?_
    | split
    | refine Keeps.of_fst (by assumption) ?_

theorem State.toRetrain_keeps {z s : State} {q : Nat} (h : Keeps z s) : Keeps z (State.toRetrain s q) := by
  unfold State.toRetrain
  repeat' first
    | with_reducible assumption
    | with_reducible refine State.evt_keeps ?_
    | with_reducible refine State.modWgl_keeps ?_
    | with_reducible refine State.setLink_keeps ?_

theorem State.replayFlits_keeps {z s : State} {q : Nat} (h : Keeps z s) : Keeps z (State.replayFlits s q) := by
  unfold State.replayFlits
  repeat' first
    | with_reducible assumption
    | with_reducible refine State.toRetrain_keeps ?_
    | with_reducible refine State.bump_keeps ?_
    | with_reducible refine State.modWgl_keeps ?_
    | (extract_lets +onlyGivenNames y; have hy : Keeps z y := ?_; clear_value y; rotate_left; subst y)
    | (extract_lets +onlyGivenNames y; clear_value y)
    | split

theorem State.reserve_keeps {z s : State} {ch k : Nat} {g : Option Nat} (h : Keeps z s) : Keeps z (State.reserve s ch k g) := by
  unfold State.reserve
  repeat' first
    | with_reducible assumption
    | with_reducible refine State.modCtx_keeps ?_
    | with_reducible refine State.modDisp_keeps ?_
    | with_reducible refine State.clearAtLaunch_keeps ?_
    | with_reducible refine State.chainArm_keeps ?_
    | with_reducible refine Keeps.foldl (fun _ _ _ => ?_) ?_
    | (extract_lets +onlyGivenNames y; have hy : Keeps z y := ?_; clear_value y; rotate_left; subst y)
    | (extract_lets +onlyGivenNames y; clear_value y)
    | split

theorem State.restoreCell_keeps {z s : State} {ch k id : Nat} {b : Bytes} (h : Keeps z s) : Keeps z (State.restoreCell s ch k id b) := by
  unfold State.restoreCell
  extract_lets e x n slots old rename reps s1
  have h1 : Keeps z s1 := State.modCell_keeps (fun c hc => by
    extract_lets c1
    have k1 : swf 0 c1.lm = true := by rw [CellMem.putSwarms_lm]; exact hc
    clear_value c1
    split
    rename_i c2 b2 e2
    have k2 : swf 0 c2.lm = true := by rw [← CellMem.putTiles_lm, e2] at k1; exact k1
    split
    rename_i c3 b3 e3
    have k3 := CellMem.putRanges_lm (l := s.leFoot ch e) (b := b2) k2
    rw [e3] at k3
    split
    rename_i c4 b4 e4
    have k4 := CellMem.putRanges_lm (l := reps) (b := b3) k3
    rw [e4] at k4
    exact k4) h
  exact Keeps.foldl (fun _ _ hs => State.resume_keeps hs) h1

theorem State.resultPiece_keeps {z s : State} {ch user : Nat} {payload : Bytes} (h : Keeps z s) : Keeps z (State.resultPiece s ch user payload) := by
  unfold State.resultPiece
  repeat' first
    | with_reducible assumption
    | with_reducible refine State.dEvt_keeps ?_
    | with_reducible refine State.modCtx_keeps ?_
    | with_reducible refine State.ctxReady_keeps ?_
    | (extract_lets +onlyGivenNames y; have hy : Keeps z y := ?_; clear_value y; rotate_left; subst y)
    | (extract_lets +onlyGivenNames y; clear_value y)
    | split

theorem State.retrainCmd_keeps {z s : State} {q : Nat} (h : Keeps z s) : Keeps z (State.retrainCmd s q) := by
  unfold State.retrainCmd
  repeat' first
    | with_reducible assumption
    | with_reducible refine State.toRetrain_keeps ?_
    | split

theorem State.safeArm_keeps {z s : State} {f : Nat} (h : Keeps z s) : Keeps z (State.safeArm s f) := by
  unfold State.safeArm
  repeat' first
    | with_reducible assumption
    | with_reducible refine State.startArming_keeps ?_
    | with_reducible refine State.regEncoding_keeps ?_
    | split

theorem State.safeRelease_keeps {z s : State} {f unlock : Nat} {uncurl : Bool} (h : Keeps z s) : Keeps z (State.safeRelease s f unlock uncurl) := by
  unfold State.safeRelease
  repeat' first
    | with_reducible assumption
    | with_reducible refine State.evt_keeps ?_
    | with_reducible refine State.modFn_keeps ?_
    | with_reducible refine State.mirror_keeps ?_
    | (extract_lets +onlyGivenNames y; have hy : Keeps z y := ?_; clear_value y; rotate_left; subst y)
    | (extract_lets +onlyGivenNames y; clear_value y)
    | split

theorem State.safeCtl_keeps {z s : State} {v : Nat} (h : Keeps z s) : Keeps z (State.safeCtl s v) := by
  unfold State.safeCtl
  repeat' first
    | with_reducible assumption
    | with_reducible refine State.safeArm_keeps ?_
    | with_reducible refine State.safeRelease_keeps ?_
    | with_reducible refine State.regEncoding_keeps ?_
    | (extract_lets +onlyGivenNames y; clear_value y)
    | split

theorem State.safeRow_keeps {z s : State} {v action : Nat} (h : Keeps z s) : Keeps z (State.safeRow s v action) := by
  unfold State.safeRow
  repeat' first
    | with_reducible assumption
    | with_reducible refine State.gated_keeps ?_ (fun _ _ => ?_)
    | with_reducible refine State.safeCtl_keeps ?_
    | with_reducible refine State.writeReg_keeps ?_
    | split

theorem State.saveCells_keeps {z s : State} {ch k : Nat} {x1 : List Nat} (h : Keeps z s) : Keeps z (State.saveCells s ch k x1).1 := by
  induction x1 generalizing s ch k
  case nil => exact h
  case cons y l ih =>
  unfold State.saveCells
  repeat' first
    | with_reducible assumption
    | with_reducible refine ih ?_
    | with_reducible refine State.hbmStore_keeps ?_
    | with_reducible refine State.lmReads_keeps ?_
    | (extract_lets +onlyGivenNames y; clear_value y)
    | split
    | refine Keeps.of_fst (by assumption) ?_

theorem State.selfTested_keeps {z s : State} {f : Nat} (h : Keeps z s) : Keeps z (State.selfTested s f) := by
  unfold State.selfTested
  repeat' first
    | with_reducible assumption
    | with_reducible refine State.fillEgress_keeps ?_
    | with_reducible refine State.modFn_keeps ?_

theorem State.takeAck_keeps {z s : State} {q a : Nat} (h : Keeps z s) : Keeps z (State.takeAck s q a) := by
  unfold State.takeAck
  repeat' first
    | with_reducible assumption
    | with_reducible refine State.wglPump_keeps ?_
    | with_reducible refine State.modWgl_keeps ?_
    | with_reducible refine State.toRetrain_keeps ?_
    | split

theorem State.takeMask_keeps {z s : State} {q lane count mask : Nat} (h : Keeps z s) : Keeps z (State.takeMask s q lane count mask) := by
  unfold State.takeMask
  repeat' first
    | with_reducible assumption
    | with_reducible refine State.toRetrain_keeps ?_
    | with_reducible refine State.modWgl_keeps ?_
    | with_reducible refine State.wr_keeps ?_
    | (extract_lets +onlyGivenNames y; have hy : Keeps z y := ?_; clear_value y; rotate_left; subst y)
    | (extract_lets +onlyGivenNames y; clear_value y)
    | split

theorem State.takeReport_keeps {z s : State} {q : Nat} {p flit : Bytes} (h : Keeps z s) : Keeps z (State.takeReport s q p flit) := by
  unfold State.takeReport
  repeat' first
    | with_reducible assumption
    | with_reducible refine State.modWgl_keeps ?_
    | with_reducible refine State.wantRetire_keeps ?_
    | with_reducible refine State.takeAck_keeps ?_
    | with_reducible refine Keeps.foldl (fun _ _ _ => ?_) ?_
    | split

theorem State.trainFail_keeps {z s : State} {q : Nat} (h : Keeps z s) : Keeps z (State.trainFail s q) := by
  unfold State.trainFail
  repeat' first
    | with_reducible assumption
    | with_reducible refine State.evt_keeps ?_
    | with_reducible refine State.setLink_keeps ?_

end Sys2Proof.Machine
end

