-- ==== Sys2Proof/Laws/KeepsHost.lean ====
section
/-! SUPPORT. Keeps of the operations of the governor, the host queues, the management port, the Hoard and the register window. -/
namespace Sys2Proof.Machine

theorem State.abortOn_keeps {z s : State} {ch code : Nat} {gone : Nat → Bool} (h : Keeps z s) : Keeps z (State.abortOn s ch code gone) := by
  unfold State.abortOn
  repeat' first
    | with_reducible assumption
    | with_reducible refine State.abortCtx_keeps ?_
    | with_reducible refine Keeps.foldl (fun _ _ _ => ?_) ?_
    | split

theorem State.stepDown_keeps {z s : State} {i : Nat} (h : Keeps z s) : Keeps z (State.stepDown s i) := by
  unfold State.stepDown
  repeat' first
    | with_reducible assumption
    | with_reducible refine State.setFreq_keeps ?_

theorem State.activityStep_keeps {z : State} {acted : List Nat} {s : State} {x : IslandMeas} (h : Keeps z s) : Keeps z (State.activityStep acted s x) := by
  unfold State.activityStep
  repeat' first
    | with_reducible assumption
    | with_reducible refine State.raiseTo_keeps ?_
    | with_reducible refine State.stepDown_keeps ?_
    | (extract_lets +onlyGivenNames y; clear_value y)
    | split

theorem State.answer_keeps {z s : State} {r : Resp} {data : Bytes} (h : Keeps z s) : Keeps z (State.answer s r data) := by
  unfold State.answer
  repeat' first
    | with_reducible assumption
    | (extract_lets +onlyGivenNames y; have hy : HostIf := y; clear hy; subst y)
    | with_reducible refine Keeps.frame ?_ rfl rfl

theorem State.readRefused0_keeps {z s : State} (h : Keeps z s) : Keeps z (State.readRefused0 s) := by
  unfold State.readRefused0
  repeat' first
    | with_reducible assumption
    | with_reducible refine State.answer_keeps ?_
    | with_reducible refine State.regAccess_keeps ?_

theorem State.returned_keeps {z s : State} {off size v : Nat} (h : Keeps z s) : Keeps z (State.returned s off size v) := by
  unfold State.returned
  repeat' first
    | with_reducible assumption
    | with_reducible refine State.answer_keeps ?_

theorem State.laneMeasured_keeps {z s : State} {b : Blk} {o v : Nat} (h : Keeps z s) : Keeps z (State.laneMeasured s b o v).2 := by
  unfold State.laneMeasured
  repeat' first
    | with_reducible assumption
    | with_reducible refine State.fresh_keeps ?_
    | split

theorem State.clearStored_keeps {z s : State} {b : Blk} {k o mask : Nat} (h : Keeps z s) : Keeps z (State.clearStored s b k o mask) := by
  unfold State.clearStored
  repeat' first
    | with_reducible assumption
    | with_reducible refine State.wr_keeps ?_
    | with_reducible refine Keeps.foldl (fun _ _ _ => ?_) ?_
    | split

theorem State.clearRead_keeps {z s : State} {b : Blk} {n o mask : Nat} (h : Keeps z s) : Keeps z (State.clearRead s b n o mask) := by
  unfold State.clearRead
  repeat' first
    | with_reducible assumption
    | with_reducible refine State.clearStored_keeps ?_
    | with_reducible refine State.modIsle_keeps ?_
    | with_reducible refine State.modDisp_keeps ?_
    | with_reducible refine State.wr_keeps ?_
    | (extract_lets +onlyGivenNames y; have hy : Keeps z y := ?_; clear_value y; rotate_left; subst y)
    | (extract_lets +onlyGivenNames y; clear_value y)
    | split

theorem State.readServed0_keeps {z s : State} {b : Blk} {n o off size : Nat} (h : Keeps z s) : Keeps z (State.readServed0 s b n o off size) := by
  unfold State.readServed0
  repeat' first
    | with_reducible assumption
    | with_reducible refine State.returned_keeps ?_
    | with_reducible refine State.answer_keeps ?_
    | with_reducible refine State.laneMeasured_keeps ?_
    | with_reducible refine State.clearRead_keeps ?_
    | (extract_lets +onlyGivenNames y; have hy : HostIf := y; clear hy; subst y)
    | (extract_lets +onlyGivenNames y; clear_value y)
    | split
    | with_reducible refine Keeps.frame ?_ rfl rfl

theorem State.readQuiet_keeps {z s : State} {b : Blk} {n o off size : Nat} (h : Keeps z s) : Keeps z (State.readQuiet s b n o off size) := by
  unfold State.readQuiet
  repeat' first
    | with_reducible assumption
    | with_reducible refine State.returned_keeps ?_

theorem State.bar0Read_keeps {z s : State} {off size : Nat} (h : Keeps z s) : Keeps z (State.bar0Read s off size) := by
  unfold State.bar0Read
  repeat' first
    | with_reducible assumption
    | with_reducible refine State.readRefused0_keeps ?_
    | with_reducible refine State.readServed0_keeps ?_
    | with_reducible refine State.readQuiet_keeps ?_
    | split

theorem State.bar2Refused_keeps {z s : State} {r : Resp} (h : Keeps z s) : Keeps z (State.bar2Refused s r) := by
  unfold State.bar2Refused
  repeat' first
    | with_reducible assumption
    | with_reducible refine State.answer_keeps ?_
    | with_reducible refine State.evt_keeps ?_

theorem State.cellStop_keeps {z s : State} {p : Nat} (h : Keeps z s) : Keeps z (State.cellStop s p) := by
  unfold State.cellStop
  repeat' first
    | with_reducible assumption
    | with_reducible refine State.abortOn_keeps ?_
    | with_reducible refine State.channelFault_keeps ?_
    | with_reducible refine State.wr_keeps ?_
    | with_reducible refine State.listCell_keeps ?_

theorem State.stopIsle_keeps {z s : State} {i : Nat} {trip : Bool} (h : Keeps z s) : Keeps z (State.stopIsle s i trip) := by
  unfold State.stopIsle
  repeat' first
    | with_reducible assumption
    | with_reducible refine State.modIsle_keeps ?_

theorem State.ingStop_keeps {z s : State} {ch : Nat} (h : Keeps z s) : Keeps z (State.ingStop s ch) := by
  unfold State.ingStop
  repeat' first
    | with_reducible assumption
    | with_reducible refine State.modIng_keeps ?_

theorem State.dispStop_keeps {z s : State} {ch : Nat} (h : Keeps z s) : Keeps z (State.dispStop s ch) := by
  unfold State.dispStop
  repeat' first
    | with_reducible assumption
    | with_reducible refine State.stopIsle_keeps ?_
    | with_reducible refine State.channelFault_keeps ?_
    | exact fun _ => rfl
    | with_reducible refine State.modPwr_keeps ?_ ?_
    | with_reducible refine State.camStop_keeps ?_
    | with_reducible refine State.ingStop_keeps ?_
    | with_reducible refine Keeps.foldl (fun _ _ _ => ?_) ?_

theorem State.sealStop_keeps {z s : State} (h : Keeps z s) : Keeps z (State.sealStop s) := by
  unfold State.sealStop
  repeat' first
    | with_reducible assumption
    | with_reducible refine State.modDisp_keeps ?_
    | with_reducible refine State.unsealed_keeps ?_
    | with_reducible refine State.manifestRefused_keeps ?_
    | with_reducible refine State.wr_keeps ?_
    | with_reducible refine Keeps.foldl (fun _ _ _ => ?_) ?_
    | (extract_lets +onlyGivenNames y; have hy : Keeps z y := ?_; clear_value y; rotate_left; subst y)
    | (extract_lets +onlyGivenNames y; clear_value y)
    | split
    | with_reducible refine Keeps.frame ?_ rfl rfl

theorem State.hoardStop_keeps {z s : State} (h : Keeps z s) : Keeps z (State.hoardStop s) := by
  unfold State.hoardStop
  repeat' first
    | with_reducible assumption
    | with_reducible refine State.replayEnd_keeps ?_
    | with_reducible refine State.irq_keeps ?_
    | with_reducible refine State.evt_keeps ?_
    | with_reducible refine State.wr_keeps ?_
    | (extract_lets +onlyGivenNames y; have hy : Keeps z y := ?_; clear_value y; rotate_left; subst y)
    | split
    | with_reducible refine Keeps.frame ?_ rfl rfl

theorem State.loaderStop_keeps {z s : State} (h : Keeps z s) : Keeps z (State.loaderStop s) := by
  unfold State.loaderStop
  repeat' first
    | with_reducible assumption
    | with_reducible refine State.fresh_keeps ?_
    | with_reducible refine State.loadFail_keeps ?_
    | with_reducible refine State.loadStop_keeps ?_
    | split
    | refine Keeps.of_snd (by assumption) ?_

theorem State.clockFail_keeps {z s : State} {i : Nat} (h : Keeps z s) : Keeps z (State.clockFail s i) := by
  unfold State.clockFail
  repeat' first
    | with_reducible assumption
    | with_reducible refine State.evt_keeps ?_
    | with_reducible refine State.stopIsle_keeps ?_
    | with_reducible refine State.cellStop_keeps ?_
    | with_reducible refine State.wr_keeps ?_
    | with_reducible refine State.channelFault_keeps ?_
    | with_reducible refine State.ingStop_keeps ?_
    | with_reducible refine State.camStop_keeps ?_
    | with_reducible refine State.dispStop_keeps ?_
    | with_reducible refine State.allFault_keeps ?_
    | exact fun _ => rfl
    | with_reducible refine State.modPwr_keeps ?_ ?_
    | with_reducible refine State.sealStop_keeps ?_
    | with_reducible refine State.hoardStop_keeps ?_
    | with_reducible refine State.loaderStop_keeps ?_
    | (extract_lets +onlyGivenNames y; have hy : Keeps z y := ?_; clear_value y; rotate_left; subst y)
    | (extract_lets +onlyGivenNames y; clear_value y)
    | split
    | with_reducible refine Keeps.frame ?_ rfl rfl

theorem State.devWrite_keeps {z s : State} {a : Nat} {bs : Bytes} (h : Keeps z s) : Keeps z (State.devWrite s a bs).1 := by
  unfold State.devWrite
  repeat' first
    | with_reducible assumption
    | with_reducible refine State.storePackets_keeps ?_
    | with_reducible refine State.hbmStore_keeps ?_
    | split

theorem State.modJob_keeps {z s : State} {q id : Nat} {f : Job → Job} (h : Keeps z s) : Keeps z (State.modJob s q id f) := by
  unfold State.modJob
  repeat' first
    | with_reducible assumption
    | with_reducible refine State.modQueue_keeps ?_

theorem State.jobEnd_keeps {z s : State} {q id status : Nat} (h : Keeps z s) : Keeps z (State.jobEnd s q id status) := by
  unfold State.jobEnd
  repeat' first
    | with_reducible assumption
    | with_reducible refine State.modJob_keeps ?_

theorem State.hostPiece_keeps {z s : State} {ch a n : Nat} {bus write : Bool} (h : Keeps z s) : Keeps z (State.hostPiece s ch a n bus write).1 := by
  unfold State.hostPiece
  repeat' first
    | with_reducible assumption
    | with_reducible refine State.walk_keeps ?_
    | (extract_lets +onlyGivenNames y; clear_value y)
    | split
    | refine Keeps.of_fst (by assumption) ?_

theorem State.nextRead_keeps {z s : State} {q id : Nat} (h : Keeps z s) : Keeps z (State.nextRead s q id) := by
  unfold State.nextRead
  repeat' first
    | with_reducible assumption
    | with_reducible refine State.jobEnd_keeps ?_
    | with_reducible refine State.hostPiece_keeps ?_
    | (extract_lets +onlyGivenNames y; have hy : HostIf := y; clear hy; subst y)
    | (extract_lets +onlyGivenNames y; clear_value y)
    | split
    | refine Keeps.of_fst (by assumption) ?_
    | with_reducible refine Keeps.frame ?_ rfl rfl

theorem State.copyInWrite_keeps {z s : State} {q : Nat} {j : Job} (h : Keeps z s) : Keeps z (State.copyInWrite s q j) := by
  unfold State.copyInWrite
  repeat' first
    | with_reducible assumption
    | with_reducible refine State.devWrite_keeps ?_
    | with_reducible refine State.nextRead_keeps ?_
    | with_reducible refine State.modJob_keeps ?_
    | with_reducible refine State.jobEnd_keeps ?_
    | (extract_lets +onlyGivenNames y; clear_value y)
    | split
    | refine Keeps.of_fst (by assumption) ?_

theorem State.copyOut_keeps {z : State} {x1 : Nat} {s : State} {x3 : Bytes} {x4 : Nat} (h : Keeps z s) : Keeps z (State.copyOut x1 s x3 x4).1 := by
  induction x1 generalizing s x3 x4
  case zero => exact h
  case succ n ih =>
  unfold State.copyOut
  repeat' first
    | with_reducible assumption
    | with_reducible refine ih ?_
    | with_reducible refine State.hbmFetch_keeps ?_
    | with_reducible refine State.hostPiece_keeps ?_
    | with_reducible refine State.hostWrite_keeps ?_
    | split
    | refine Keeps.of_fst (by assumption) ?_

theorem State.stagedDone_keeps {z s : State} {r : Staged} {status : Nat} (h : Keeps z s) : Keeps z (State.stagedDone s r status) := by
  unfold State.stagedDone
  repeat' first
    | with_reducible assumption
    | with_reducible refine State.tryFinish_keeps ?_
    | with_reducible refine State.modDisp_keeps ?_
    | with_reducible refine State.pieceSettled_keeps ?_
    | (extract_lets +onlyGivenNames y; have hy : Keeps z y := ?_; clear_value y; rotate_left; subst y)
    | split

theorem State.dropStaged_keeps {z s : State} {gone : Nat → Bool} (h : Keeps z s) : Keeps z (State.dropStaged s gone) := by
  unfold State.dropStaged
  repeat' first
    | with_reducible assumption
    | with_reducible refine State.stagedDone_keeps ?_
    | with_reducible refine State.bump_keeps ?_
    | with_reducible refine Keeps.foldl (fun _ _ _ => ?_) ?_
    | (extract_lets +onlyGivenNames y; have hy : HostIf := y; clear hy; subst y)
    | with_reducible refine Keeps.frame ?_ rfl rfl

theorem State.dropQueue_keeps {z s : State} {q : Nat} (h : Keeps z s) : Keeps z (State.dropQueue s q) := by
  unfold State.dropQueue
  repeat' first
    | with_reducible assumption
    | with_reducible refine State.modQueue_keeps ?_
    | with_reducible refine State.stageWaiting_keeps ?_
    | with_reducible refine State.dropStaged_keeps ?_
    | (extract_lets +onlyGivenNames y; have hy : HostIf := y; clear hy; subst y)
    | with_reducible refine Keeps.frame ?_ rfl rfl

theorem State.queueFail_keeps {z s : State} {q : Nat} (h : Keeps z s) : Keeps z (State.queueFail s q) := by
  unfold State.queueFail
  repeat' first
    | with_reducible assumption
    | with_reducible refine State.dropQueue_keeps ?_
    | with_reducible refine State.queueErr_keeps ?_

theorem State.cqHead_keeps {z s : State} {q v : Nat} (h : Keeps z s) : Keeps z (State.cqHead s q v) := by
  unfold State.cqHead
  repeat' first
    | with_reducible assumption
    | with_reducible refine State.modQueue_keeps ?_
    | with_reducible refine State.queueFail_keeps ?_
    | split

theorem State.drHead_keeps {z s : State} {q v : Nat} (h : Keeps z s) : Keeps z (State.drHead s q v) := by
  unfold State.drHead
  repeat' first
    | with_reducible assumption
    | with_reducible refine State.modQueue_keeps ?_
    | with_reducible refine State.queueFail_keeps ?_
    | split

theorem State.drPut_keeps {z s : State} {q kind ch srcKind src tag user : Nat} {body : Bytes} (h : Keeps z s) : Keeps z (State.drPut s q kind ch srcKind src tag user body) := by
  unfold State.drPut
  repeat' first
    | with_reducible assumption
    | with_reducible refine State.hostWrite_keeps ?_
    | with_reducible refine State.queueSignal_keeps ?_
    | with_reducible refine State.modQueue_keeps ?_

theorem State.droopStep_keeps {z : State} {a : State × List Nat} {i : Nat} (h : Keeps z a.1) : Keeps z (State.droopStep a i).1 := by
  unfold State.droopStep
  repeat' first
    | with_reducible assumption
    | with_reducible refine State.evt_keeps ?_
    | with_reducible refine State.stepDown_keeps ?_
    | (extract_lets +onlyGivenNames y; have hy : Keeps z y := ?_; clear_value y; rotate_left; subst y)
    | split

theorem State.jobDone_keeps {z s : State} {q id status : Nat} (h : Keeps z s) : Keeps z (State.jobDone s q id status) := by
  unfold State.jobDone
  repeat' first
    | with_reducible assumption
    | with_reducible refine State.hostFinish_keeps ?_

theorem State.fuseOp_keeps {z s : State} {q op : Nat} {f : State → Job → Nat → State} (h : Keeps z s) (hf : ∀ y0 y1 y2, Keeps z y0 → Keeps z (f y0 y1 y2)) : Keeps z (State.fuseOp s q op f) := by
  unfold State.fuseOp
  repeat' first
    | with_reducible assumption
    | with_reducible refine hf _ _ _ ?_
    | with_reducible refine State.jobDone_keeps ?_
    | with_reducible refine State.evt_keeps ?_
    | (extract_lets +onlyGivenNames y; clear_value y)
    | split

theorem State.modHrd_keeps {z s : State} {f : Hoard → Hoard} (h : Keeps z s) : Keeps z (State.modHrd s f) := by
  unfold State.modHrd
  repeat' first
    | with_reducible assumption
    | with_reducible refine Keeps.frame ?_ rfl rfl

theorem State.gapGroup_keeps {z s : State} {ch f flags : Nat} (h : Keeps z s) : Keeps z (State.gapGroup s ch f flags) := by
  unfold State.gapGroup
  repeat' first
    | with_reducible assumption
    | with_reducible refine State.modHrd_keeps ?_
    | split

theorem State.govBreaches_keeps {z s : State} (h : Keeps z s) : Keeps z (State.govBreaches s) := by
  unfold State.govBreaches
  repeat' first
    | with_reducible assumption
    | with_reducible refine State.modIsle_keeps ?_
    | with_reducible refine State.evt_keeps ?_
    | with_reducible refine Keeps.foldl (fun _ _ _ => ?_) ?_
    | (extract_lets +onlyGivenNames y; have hy : Keeps z y := ?_; clear_value y; rotate_left; subst y)
    | split

theorem State.govClamp_keeps {z s : State} (h : Keeps z s) : Keeps z (State.govClamp s) := by
  unfold State.govClamp
  repeat' first
    | with_reducible assumption
    | with_reducible refine State.setFreq_keeps ?_
    | with_reducible refine Keeps.foldl (fun _ _ _ => ?_) ?_

theorem State.govMeasure_keeps {z s : State} {m : GovMeas} (h : Keeps z s) : Keeps z (State.govMeasure s m) := by
  unfold State.govMeasure
  repeat' first
    | with_reducible assumption
    | with_reducible refine State.modIsle_keeps ?_
    | with_reducible refine State.modGov_keeps ?_
    | with_reducible refine State.wr_keeps ?_
    | with_reducible refine Keeps.foldl (fun _ _ _ => ?_) ?_

theorem State.govProfile_keeps {z s : State} (h : Keeps z s) : Keeps z (State.govProfile s) := by
  unfold State.govProfile
  repeat' first
    | with_reducible assumption
    | with_reducible refine State.wr_keeps ?_
    | with_reducible refine State.modGov_keeps ?_
    | (extract_lets +onlyGivenNames y; clear_value y)
    | split

theorem State.thermTrip_keeps {z s : State} (h : Keeps z s) : Keeps z (State.thermTrip s) := by
  unfold State.thermTrip
  repeat' first
    | with_reducible assumption
    | with_reducible refine State.modGov_keeps ?_
    | with_reducible refine State.stopIsle_keeps ?_
    | with_reducible refine State.abortOn_keeps ?_
    | with_reducible refine State.allFault_keeps ?_
    | with_reducible refine State.evt_keeps ?_
    | with_reducible refine Keeps.foldl (fun _ _ _ => ?_) ?_
    | (extract_lets +onlyGivenNames y; have hy : Keeps z y := ?_; clear_value y; rotate_left; subst y)
    | split

theorem State.toFloor_keeps {z s : State} {i : Nat} (h : Keeps z s) : Keeps z (State.toFloor s i) := by
  unfold State.toFloor
  repeat' first
    | with_reducible assumption
    | with_reducible refine State.setFreq_keeps ?_
    | with_reducible refine State.raiseTo_keeps ?_
    | split

theorem State.powerStep_keeps {z s : State} {m : GovMeas} (h : Keeps z s) : Keeps z (State.powerStep s m).1 := by
  unfold State.powerStep
  repeat' first
    | with_reducible assumption
    | with_reducible refine State.fresh_keeps ?_
    | with_reducible refine State.evt_keeps ?_
    | with_reducible refine State.stepDown_keeps ?_
    | with_reducible refine Keeps.foldl (fun _ _ _ => ?_) ?_
    | (extract_lets +onlyGivenNames y; clear_value y)
    | split

theorem State.softStep_keeps {z : State} {a : State × List Nat} {i : Nat} (h : Keeps z a.1) : Keeps z (State.softStep a i).1 := by
  unfold State.softStep
  repeat' first
    | with_reducible assumption
    | with_reducible refine State.evt_keeps ?_
    | with_reducible refine State.stepDown_keeps ?_
    | with_reducible refine Keeps.foldl (fun _ _ _ => ?_) ?_

theorem State.hbmStep_keeps {z : State} {a : State × List Nat} {x : BitVec 3 × Nat} (h : Keeps z a.1) : Keeps z (State.hbmStep a x).1 := by
  unfold State.hbmStep
  repeat' first
    | with_reducible assumption
    | with_reducible refine State.evt_keeps ?_
    | with_reducible refine State.toFloor_keeps ?_
    | with_reducible refine State.stepDown_keeps ?_
    | (extract_lets +onlyGivenNames y; have hy : Keeps z y := ?_; clear_value y; rotate_left; subst y)
    | (extract_lets +onlyGivenNames y; clear_value y)
    | split

theorem State.govSteps_keeps {z s : State} {m : GovMeas} (h : Keeps z s) : Keeps z (State.govSteps s m) := by
  unfold State.govSteps
  repeat' first
    | with_reducible assumption
    | with_reducible refine State.thermTrip_keeps ?_
    | with_reducible refine State.modGov_keeps ?_
    | with_reducible refine State.evt_keeps ?_
    | with_reducible refine State.toFloor_keeps ?_
    | with_reducible refine State.powerStep_keeps ?_
    | with_reducible refine State.softStep_keeps ?_
    | with_reducible refine State.hbmStep_keeps ?_
    | with_reducible refine State.droopStep_keeps ?_
    | with_reducible refine State.activityStep_keeps ?_
    | with_reducible refine State.raiseTo_keeps ?_
    | with_reducible refine Keeps.foldl (fun _ _ _ => ?_) ?_
    | with_reducible refine Keeps.foldl_fst (fun _ _ _ => ?_) ?_
    | (extract_lets +onlyGivenNames y; have hy : Keeps z y := ?_; clear_value y; rotate_left; subst y)
    | (extract_lets +onlyGivenNames y; clear_value y)
    | split

theorem State.govVoltage_keeps {z s : State} (h : Keeps z s) : Keeps z (State.govVoltage s) := by
  unfold State.govVoltage
  repeat' first
    | with_reducible assumption
    | exact fun _ => rfl
    | with_reducible refine State.modPwr_keeps ?_ ?_
    | with_reducible refine State.modGov_keeps ?_
    | (extract_lets +onlyGivenNames y; clear_value y)
    | split

theorem State.hostAnswer_keeps {z s : State} {r : HostRead} {status : Nat} {data : Bytes} (h : Keeps z s) : Keeps z (State.hostAnswer s r status data) := by
  unfold State.hostAnswer
  repeat' first
    | with_reducible assumption
    | with_reducible refine State.post_keeps ?_

theorem State.readRefused_keeps {z s : State} {r : HostRead} {cause : Nat} (h : Keeps z s) : Keeps z (State.readRefused s r cause) := by
  unfold State.readRefused
  repeat' first
    | with_reducible assumption
    | with_reducible refine State.hostAnswer_keeps ?_
    | with_reducible refine State.queueFail_keeps ?_
    | with_reducible refine State.jobEnd_keeps ?_
    | split

theorem State.hostReset_keeps {z s : State} (h : Keeps z s) : Keeps z (State.hostReset s) := by
  unfold State.hostReset
  extract_lets reads i s1 i2 s2 s3
  have h1 : Keeps z s1 := h.update rfl (swf_foldl_sdel _ _ _) (fun w => w) (fun w => w) (fun w => w) (Fuses.within_refl _)
  clear_value s1
  have h2 : Keeps z s2 := Keeps.foldl (fun _ _ h => State.modQueue_keeps h) h1
  have h3 : Keeps z s3 := State.dropStaged_keeps h2
  refine Keeps.foldl (fun _ _ h => ?_) h3
  split
  · exact h
  · exact State.readRefused_keeps h

theorem State.hostTrigger_keeps {z s : State} {ch entry event : Nat} {payload : Bytes} {ref : Option HostRef} (h : Keeps z s) : Keeps z (State.hostTrigger s ch entry event payload ref) := by
  unfold State.hostTrigger
  repeat' first
    | with_reducible assumption
    | with_reducible refine State.dEvt_keeps ?_
    | with_reducible refine State.jobDone_keeps ?_
    | with_reducible refine State.accept_keeps ?_
    | with_reducible refine Keeps.foldl (fun _ _ _ => ?_) ?_
    | (extract_lets +onlyGivenNames y; have hy : Keeps z y := ?_; clear_value y; rotate_left; subst y)
    | (extract_lets +onlyGivenNames y; clear_value y)
    | split

theorem State.hrdRearm_keeps {z s : State} (h : Keeps z s) : Keeps z (State.hrdRearm s) := by
  unfold State.hrdRearm
  repeat' first
    | with_reducible assumption
    | with_reducible refine State.hrdEpoch_keeps ?_
    | split

theorem State.launchWrite_keeps {z s : State} {ch dst : Nat} {bs : Bytes} (h : Keeps z s) : Keeps z (State.launchWrite s ch dst bs).1 := by
  unfold State.launchWrite
  repeat' first
    | with_reducible assumption
    | with_reducible refine State.devWrite_keeps ?_
    | with_reducible refine Keeps.foldl_fst (fun _ _ _ => ?_) ?_
    | split

theorem State.linkLost_keeps {z s : State} (h : Keeps z s) : Keeps z (State.linkLost s) := by
  unfold State.linkLost
  repeat' first
    | with_reducible assumption
    | with_reducible refine State.evt_keeps ?_
    | with_reducible refine State.hostReset_keeps ?_
    | with_reducible refine State.wr_keeps ?_

theorem State.mgmtRead_keeps {z s : State} {bs : Bytes} (h : Keeps z s) : Keeps z (State.mgmtRead s bs) := by
  unfold State.mgmtRead
  repeat' first
    | with_reducible assumption
    | exact fun _ => by split <;> rfl
    | with_reducible refine State.modPwr_keeps ?_ ?_

theorem State.mgmtLate_keeps {z s : State} {bs : Bytes} (h : Keeps z s) : Keeps z (State.mgmtLate s bs) := by
  unfold State.mgmtLate
  repeat' first
    | with_reducible assumption
    | with_reducible refine State.mgmtRead_keeps ?_

theorem State.pinLevel_keeps {z s : State} {pin pinLevel level : RegField} (h : Keeps z s) : Keeps z (State.pinLevel s pin pinLevel level) := by
  unfold State.pinLevel
  repeat' first
    | with_reducible assumption
    | with_reducible refine State.wr_keeps ?_
    | split

theorem State.qField_keeps {z s : State} {q old new lo hi : Nat} {f : Queue → Queue} (h : Keeps z s) : Keeps z (State.qField s q old new lo hi f) := by
  unfold State.qField
  repeat' first
    | with_reducible assumption
    | with_reducible refine State.regEncoding_keeps ?_
    | with_reducible refine State.modQueue_keeps ?_
    | split

theorem State.queueEnable_keeps {z s : State} {q : Nat} (h : Keeps z s) : Keeps z (State.queueEnable s q) := by
  unfold State.queueEnable
  repeat' first
    | with_reducible assumption
    | with_reducible refine State.modQueue_keeps ?_

theorem State.queueDisable_keeps {z s : State} {q : Nat} (h : Keeps z s) : Keeps z (State.queueDisable s q) := by
  unfold State.queueDisable
  repeat' first
    | with_reducible assumption
    | with_reducible refine State.dropQueue_keeps ?_
    | with_reducible refine State.modQueue_keeps ?_

theorem State.writeQCtl_keeps {z s : State} {mask v : Nat} (h : Keeps z s) : Keeps z (State.writeQCtl s mask v) := by
  unfold State.writeQCtl
  repeat' first
    | with_reducible assumption
    | with_reducible refine State.qField_keeps ?_
    | with_reducible refine State.queueEnable_keeps ?_
    | with_reducible refine State.queueDisable_keeps ?_
    | (extract_lets +onlyGivenNames y; have hy : Keeps z y := ?_; clear_value y; rotate_left; subst y)
    | (extract_lets +onlyGivenNames y; clear_value y)
    | split

theorem State.qRow_keeps {z s : State} {v : Nat} {enable : Bool} (h : Keeps z s) : Keeps z (State.qRow s v enable) := by
  unfold State.qRow
  repeat' first
    | with_reducible assumption
    | with_reducible refine State.gated_keeps ?_ (fun _ _ => ?_)
    | with_reducible refine State.writeQCtl_keeps ?_
    | split

theorem State.seRefused_keeps {z s : State} {q code : Nat} {e : Bytes} (h : Keeps z s) : Keeps z (State.seRefused s q code e) := by
  unfold State.seRefused
  repeat' first
    | with_reducible assumption
    | with_reducible refine State.cqPost_keeps ?_
    | with_reducible refine State.evt_keeps ?_

theorem State.takeEntry_keeps {z s : State} {q : Nat} {e : Bytes} (h : Keeps z s) : Keeps z (State.takeEntry s q e) := by
  unfold State.takeEntry
  repeat' first
    | with_reducible assumption
    | with_reducible refine State.modQueue_keeps ?_
    | with_reducible refine State.seRefused_keeps ?_
    | with_reducible refine State.ignoreLive_keeps ?_
    | with_reducible refine State.evt_keeps ?_
    | with_reducible refine State.bump_keeps ?_
    | with_reducible refine State.cqDup_keeps ?_
    | (extract_lets +onlyGivenNames y; have hy : Keeps z y := ?_; clear_value y; rotate_left; subst y)
    | (extract_lets +onlyGivenNames y; clear_value y)
    | split

theorem State.readServed_keeps {z s : State} {r : HostRead} {bs : Bytes} (h : Keeps z s) : Keeps z (State.readServed s r bs) := by
  unfold State.readServed
  repeat' first
    | with_reducible assumption
    | with_reducible refine State.hostAnswer_keeps ?_
    | with_reducible refine State.takeEntry_keeps ?_
    | with_reducible refine State.nextRead_keeps ?_
    | with_reducible refine State.modJob_keeps ?_
    | with_reducible refine State.copyInWrite_keeps ?_
    | split

theorem State.replaySkip_keeps {z s : State} (h : Keeps z s) : Keeps z (State.replaySkip s) := by
  unfold State.replaySkip
  repeat' first
    | with_reducible assumption
    | with_reducible refine State.bump_keeps ?_

theorem State.replayBroken_keeps {z s : State} {x1 : Bytes} (h : Keeps z s) : Keeps z (State.replayBroken s x1) := by
  unfold State.replayBroken
  repeat' first
    | with_reducible assumption
    | with_reducible refine State.modHrd_keeps ?_
    | with_reducible refine State.replaySkip_keeps ?_
    | split

theorem State.replayGroup_keeps {z s : State} {ch slot : Nat} {bufs : List (Nat × Nat × Bytes)} {f : Nat} {pl : Bytes} (h : Keeps z s) : Keeps z (State.replayGroup s ch slot bufs f pl) := by
  unfold State.replayGroup
  repeat' first
    | with_reducible assumption
    | with_reducible refine State.fresh_keeps ?_
    | with_reducible refine State.hbmStore_keeps ?_
    | with_reducible refine State.camInvalidate_keeps ?_
    | with_reducible refine State.modCam_keeps ?_
    | with_reducible refine State.camMissing_keeps ?_
    | with_reducible refine State.camProcess_keeps ?_
    | with_reducible refine State.modGroup_keeps ?_
    | with_reducible refine State.camEventRecord_keeps ?_
    | with_reducible refine State.camDeliver_keeps ?_
    | with_reducible refine Keeps.foldl (fun _ _ _ => ?_) ?_
    | (extract_lets +onlyGivenNames y; have hy : Keeps z y := ?_; clear_value y; rotate_left; subst y)
    | (extract_lets +onlyGivenNames y; clear_value y)
    | split
    | refine Keeps.of_snd (by assumption) ?_

theorem State.replayCam_keeps {z s : State} {x1 pl : Bytes} (h : Keeps z s) : KeepsOpt z (State.replayCam s x1 pl) := by
  unfold State.replayCam
  repeat' first
    | with_reducible assumption
    | with_reducible refine State.modHrd_keeps ?_
    | with_reducible refine State.replaySkip_keeps ?_
    | with_reducible refine State.gapGroup_keeps ?_
    | with_reducible refine State.replayGroup_keeps ?_
    | with_reducible exact KeepsOpt.none
    | with_reducible refine KeepsOpt.some ?_
    | (extract_lets +onlyGivenNames y; have hy : State → _ := y; clear hy; subst y)
    | (extract_lets +onlyGivenNames y; clear_value y)
    | split

theorem State.replayChain_keeps {z s : State} {x1 pl : Bytes} (h : Keeps z s) : Keeps z (State.replayChain s x1 pl) := by
  unfold State.replayChain
  repeat' first
    | with_reducible assumption
    | with_reducible refine State.makeIncomplete_keeps ?_
    | (extract_lets +onlyGivenNames y; clear_value y)
    | split

theorem State.replayFrame_keeps {z s : State} {ch slot : Nat} {e : FrameEv} {pl : Bytes} (h : Keeps z s) : Keeps z (State.replayFrame s ch slot e pl) := by
  unfold State.replayFrame
  repeat' first
    | with_reducible assumption
    | with_reducible refine State.modIng_keeps ?_
    | with_reducible refine State.ingPut_keeps ?_
    | with_reducible refine State.ingPad_keeps ?_
    | with_reducible refine State.ingStore_keeps ?_
    | with_reducible refine State.ingTrigger_keeps ?_
    | with_reducible refine State.ingCount_keeps ?_
    | with_reducible refine Keeps.foldl (fun _ _ _ => ?_) ?_
    | (extract_lets +onlyGivenNames y; have hy : Keeps z y := ?_; clear_value y; rotate_left; subst y)
    | (extract_lets +onlyGivenNames y; clear_value y)
    | split

theorem State.replayClose_keeps {z s : State} {x1 pl : Bytes} (h : Keeps z s) : KeepsOpt z (State.replayClose s x1 pl) := by
  unfold State.replayClose
  repeat' first
    | with_reducible assumption
    | with_reducible refine State.modHrd_keeps ?_
    | with_reducible refine State.replaySkip_keeps ?_
    | with_reducible refine State.replayFrame_keeps ?_
    | with_reducible exact KeepsOpt.none
    | with_reducible refine KeepsOpt.some ?_
    | (extract_lets +onlyGivenNames y; have hy : State → _ := y; clear hy; subst y)
    | (extract_lets +onlyGivenNames y; clear_value y)
    | split

theorem State.replayCount_keeps {z s : State} {x1 pl : Bytes} (h : Keeps z s) : Keeps z (State.replayCount s x1 pl) := by
  unfold State.replayCount
  repeat' first
    | with_reducible assumption
    | with_reducible refine State.accept_keeps ?_
    | (extract_lets +onlyGivenNames y; clear_value y)
    | split

theorem State.replayDoorbell_keeps {z s : State} {pl : Bytes} (h : Keeps z s) : KeepsOpt z (State.replayDoorbell s pl) := by
  unfold State.replayDoorbell
  repeat' first
    | with_reducible assumption
    | with_reducible refine State.launchWrite_keeps ?_
    | with_reducible refine State.hostTrigger_keeps ?_
    | with_reducible exact KeepsOpt.none
    | with_reducible refine KeepsOpt.some ?_
    | (extract_lets +onlyGivenNames y; clear_value y)
    | split
    | refine Keeps.of_fst (by assumption) ?_

theorem State.replayDrop_keeps {z s : State} {x1 pl : Bytes} (h : Keeps z s) : Keeps z (State.replayDrop s x1 pl) := by
  unfold State.replayDrop
  repeat' first
    | with_reducible assumption
    | with_reducible refine State.ingTrigger_keeps ?_
    | with_reducible refine State.ingCount_keeps ?_
    | (extract_lets +onlyGivenNames y; clear_value y)
    | split

theorem State.replayGap_keeps {z s : State} {x1 : Bytes} (h : Keeps z s) : Keeps z (State.replayGap s x1) := by
  unfold State.replayGap
  repeat' first
    | with_reducible assumption
    | with_reducible refine State.replayEnd_keeps ?_
    | with_reducible refine State.wr_keeps ?_
    | with_reducible refine State.camInvalidate_keeps ?_
    | with_reducible refine State.modHrd_keeps ?_
    | with_reducible refine Keeps.foldl (fun _ _ _ => ?_) ?_
    | (extract_lets +onlyGivenNames y; have hy : Keeps z y := ?_; clear_value y; rotate_left; subst y)
    | split

theorem State.replayGo_keeps {z s : State} {stream : Bytes} (h : Keeps z s) : Keeps z (State.replayGo s stream) := by
  unfold State.replayGo
  repeat' first
    | with_reducible assumption
    | with_reducible refine State.wr_keeps ?_
    | with_reducible refine State.modHrd_keeps ?_
    | (extract_lets +onlyGivenNames y; have hy : Keeps z y := ?_; clear_value y; rotate_left; subst y)
    | (extract_lets +onlyGivenNames y; clear_value y)
    | split

theorem State.replayWaggle_keeps {z s : State} {x1 b : Bytes} (h : Keeps z s) : KeepsOpt z (State.replayWaggle s x1 b) := by
  unfold State.replayWaggle
  repeat' first
    | with_reducible assumption
    | with_reducible refine State.execData_keeps ?_
    | with_reducible refine State.execStoreMsg_keeps ?_
    | with_reducible refine State.execChainMsg_keeps ?_
    | with_reducible refine State.beaconEffect_keeps ?_
    | with_reducible refine State.mirrorEffect_keeps ?_
    | with_reducible refine KeepsOpt.some ?_
    | with_reducible refine KeepsOpt.map (fun _ _ => ?_) ?_
    | split
    | with_reducible refine Keeps.frame ?_ rfl rfl

theorem State.replayOne_keeps {z s : State} {x1 pl : Bytes} (h : Keeps z s) : KeepsOpt z (State.replayOne s x1 pl) := by
  unfold State.replayOne
  repeat' first
    | with_reducible assumption
    | with_reducible refine State.modHrd_keeps ?_
    | with_reducible refine State.replayClose_keeps ?_
    | with_reducible refine State.replayDrop_keeps ?_
    | with_reducible refine State.replayCam_keeps ?_
    | with_reducible refine State.hbmStore_keeps ?_
    | with_reducible refine State.replayDoorbell_keeps ?_
    | with_reducible refine State.replayCount_keeps ?_
    | with_reducible refine State.replayWaggle_keeps ?_
    | with_reducible refine State.replayChain_keeps ?_
    | with_reducible refine KeepsOpt.some ?_
    | (extract_lets +onlyGivenNames y; have hy : Keeps z y := ?_; clear_value y; rotate_left; subst y)
    | (extract_lets +onlyGivenNames y; clear_value y)
    | split

theorem State.replayPause_keeps {z s : State} (h : Keeps z s) : Keeps z (State.replayPause s) := by
  unfold State.replayPause
  repeat' first
    | with_reducible assumption
    | with_reducible refine State.irq_keeps ?_
    | with_reducible refine State.wr_keeps ?_

theorem State.replayStop_keeps {z s : State} (h : Keeps z s) : Keeps z (State.replayStop s) := by
  unfold State.replayStop
  repeat' first
    | with_reducible assumption
    | with_reducible refine State.replayEnd_keeps ?_
    | split

theorem State.sqTail_keeps {z s : State} {q v : Nat} (h : Keeps z s) : Keeps z (State.sqTail s q v) := by
  unfold State.sqTail
  repeat' first
    | with_reducible assumption
    | with_reducible refine State.modQueue_keeps ?_
    | with_reducible refine State.queueFail_keeps ?_
    | split

theorem State.tapLoad_keeps {z s : State} {t : TapInsn} (h : Keeps z s) : Keeps z (State.tapLoad s t) := by
  unfold State.tapLoad
  repeat' first
    | with_reducible assumption
    | with_reducible refine State.fresh_keeps ?_
    | exact fun _ => rfl
    | with_reducible refine State.modPwr_keeps ?_ ?_
    | with_reducible refine State.warmReset_keeps ?_
    | with_reducible refine State.bootStart_keeps ?_
    | split

theorem State.vrFail_keeps {z s : State} (h : Keeps z s) : Keeps z (State.vrFail s) := by
  unfold State.vrFail
  repeat' first
    | with_reducible assumption
    | with_reducible refine State.evt_keeps ?_
    | exact fun _ => rfl
    | with_reducible refine State.modPwr_keeps ?_ ?_
    | split

theorem State.vrUnanswered_keeps {z s : State} (h : Keeps z s) : Keeps z (State.vrUnanswered s) := by
  unfold State.vrUnanswered
  repeat' first
    | with_reducible assumption
    | exact fun _ => rfl
    | with_reducible refine State.modPwr_keeps ?_ ?_
    | with_reducible refine State.vrFail_keeps ?_
    | (extract_lets +onlyGivenNames y; have hy : Keeps z y := ?_; clear_value y; rotate_left; subst y)
    | split

theorem State.vrVout_keeps {z s : State} {v : Nat} (h : Keeps z s) : Keeps z (State.vrVout s v) := by
  unfold State.vrVout
  repeat' first
    | with_reducible assumption
    | exact fun _ => rfl
    | with_reducible refine State.modPwr_keeps ?_ ?_
    | with_reducible refine State.vrFail_keeps ?_
    | (extract_lets +onlyGivenNames y; have hy : Keeps z y := ?_; clear_value y; rotate_left; subst y)
    | (extract_lets +onlyGivenNames y; clear_value y)
    | split

theorem State.withImage_keeps {z s : State} {m : Bytes} (h : Keeps z s) : Keeps z (State.withImage s m) := by
  unfold State.withImage
  repeat' first
    | with_reducible assumption
    | (extract_lets +onlyGivenNames y; clear_value y)
    | split
    | with_reducible refine Keeps.frame ?_ rfl rfl

theorem State.writeArmCtl_keeps {z s : State} {ch w : Nat} (h : Keeps z s) : Keeps z (State.writeArmCtl s ch w) := by
  unfold State.writeArmCtl
  repeat' first
    | with_reducible assumption
    | with_reducible refine State.armCancel_keeps ?_
    | with_reducible refine State.armGo_keeps ?_
    | (extract_lets +onlyGivenNames y; have hy : Keeps z y := ?_; clear_value y; rotate_left; subst y)
    | split

theorem State.writeBindCtl_keeps {z s : State} {w : Nat} (h : Keeps z s) : Keeps z (State.writeBindCtl s w) := by
  unfold State.writeBindCtl
  repeat' first
    | with_reducible assumption
    | with_reducible refine State.clearCells_keeps ?_
    | with_reducible refine State.clearLanes_keeps ?_
    | (extract_lets +onlyGivenNames y; have hy : Keeps z y := ?_; clear_value y; rotate_left; subst y)
    | split

theorem State.writeDoorbell_keeps {z s : State} {o v : Nat} (h : Keeps z s) : Keeps z (State.writeDoorbell s o v) := by
  unfold State.writeDoorbell
  repeat' first
    | with_reducible assumption
    | with_reducible refine State.sqTail_keeps ?_
    | with_reducible refine State.cqHead_keeps ?_
    | with_reducible refine State.drHead_keeps ?_
    | (extract_lets +onlyGivenNames y; clear_value y)
    | split

theorem State.writeGroupCtl_keeps {z s : State} {w : Nat} (h : Keeps z s) : Keeps z (State.writeGroupCtl s w) := by
  unfold State.writeGroupCtl
  repeat' first
    | with_reducible assumption
    | with_reducible refine State.leaveGroup_keeps ?_
    | with_reducible refine State.syncing_keeps ?_
    | (extract_lets +onlyGivenNames y; have hy : Keeps z y := ?_; clear_value y; rotate_left; subst y)
    | split

theorem State.writeParkCmd_keeps {z s : State} {w v : Nat} (h : Keeps z s) : Keeps z (State.writeParkCmd s w v) := by
  unfold State.writeParkCmd
  repeat' first
    | with_reducible assumption
    | with_reducible refine State.slotCmd_keeps ?_

theorem State.writeQBase_keeps {z s : State} {o mask v : Nat} (h : Keeps z s) : Keeps z (State.writeQBase s o mask v) := by
  unfold State.writeQBase
  repeat' first
    | with_reducible assumption
    | with_reducible refine State.qField_keeps ?_

theorem State.writeReplayCtl_keeps {z s : State} {w : Nat} (h : Keeps z s) : Keeps z (State.writeReplayCtl s w) := by
  unfold State.writeReplayCtl
  repeat' first
    | with_reducible assumption
    | with_reducible refine State.replayStop_keeps ?_
    | with_reducible refine State.replayGo_keeps ?_
    | split

theorem State.writeResetCtl_keeps {z s : State} {w : Nat} (h : Keeps z s) : Keeps z (State.writeResetCtl s w) := by
  unfold State.writeResetCtl
  repeat' first
    | with_reducible assumption
    | with_reducible refine State.warmBoot_keeps ?_
    | with_reducible refine State.cellGo_keeps ?_
    | with_reducible refine State.channelGo_keeps ?_
    | split

theorem State.writeSafeCtl_keeps {z s : State} {m : Nat} (h : Keeps z s) : Keeps z (State.writeSafeCtl s m) := by
  unfold State.writeSafeCtl
  repeat' first
    | with_reducible assumption
    | with_reducible refine State.safeCtl_keeps ?_
    | with_reducible refine State.regEncoding_keeps ?_
    | split

theorem State.writeScaleGo_keeps {z s : State} {w m : Nat} (h : Keeps z s) : Keeps z (State.writeScaleGo s w m) := by
  unfold State.writeScaleGo
  repeat' first
    | with_reducible assumption
    | with_reducible refine State.scaleGo_keeps ?_
    | with_reducible refine State.regEncoding_keeps ?_
    | (extract_lets +onlyGivenNames y; clear_value y)
    | split

theorem State.writeServed_keeps {z s : State} {b : Blk} {n o mask v : Nat} (h : Keeps z s) : Keeps z (State.writeServed s b n o mask v) := by
  unfold State.writeServed
  repeat' first
    | with_reducible assumption
    | with_reducible refine State.writeReg_keeps ?_
    | with_reducible refine State.writeResetCtl_keeps ?_
    | with_reducible refine State.profileWrite_keeps ?_
    | with_reducible refine State.isleWrite_keeps ?_
    | with_reducible refine State.epochArm_keeps ?_
    | with_reducible refine State.writeGroupCtl_keeps ?_
    | with_reducible refine State.writeSafeCtl_keeps ?_
    | with_reducible refine State.manifestGo_keeps ?_
    | with_reducible refine State.hrdRearm_keeps ?_
    | with_reducible refine State.writeReplayCtl_keeps ?_
    | with_reducible refine State.writeQBase_keeps ?_
    | with_reducible refine State.writeQCtl_keeps ?_
    | with_reducible refine State.imgCtl_keeps ?_
    | with_reducible refine State.writeBindCtl_keeps ?_
    | with_reducible refine State.retrainCmd_keeps ?_
    | with_reducible refine State.ingResync_keeps ?_
    | with_reducible refine State.camRestart_keeps ?_
    | with_reducible refine State.pinLevel_keeps ?_
    | with_reducible refine State.writeArmCtl_keeps ?_
    | with_reducible refine State.regionSync_keeps ?_
    | with_reducible refine State.writeParkCmd_keeps ?_
    | with_reducible refine State.ftabGo_keeps ?_
    | with_reducible refine State.writeScaleGo_keeps ?_
    | with_reducible refine State.writeDoorbell_keeps ?_
    | (extract_lets +onlyGivenNames y; have hy : Keeps z y := ?_; clear_value y; rotate_left; subst y)
    | (extract_lets +onlyGivenNames y; clear_value y)
    | split

end Sys2Proof.Machine
end

