-- ==== Sys2Proof/Laws/Step.lean ====
section
/-! SUPPORT. Every command has an effect, and the tick of the idle device keeps what every operation keeps. -/
namespace Sys2Proof.Machine

/-- No command is refused and none faults. -/
theorem exec_next (c : Instr) (s : State) : ∃ t, exec c s = .next t := by
  cases c <;> exact ⟨_, rfl⟩

theorem idleTick_keeps {z s : State} (h : Keeps z s) : Keeps z (idleTick s) := by
  unfold idleTick
  split
  · with_reducible exact Keeps.frame h rfl rfl
  · exact h

/-- An outcome of a command that keeps what it must, said of the state it answers. -/
theorem KeepsOut.of_exec {z : State} {o : Host.Outcome State Fault Refusal} {t : State} (h : KeepsOut z o) (e : o = .next t) : Keeps z t :=
  h t e

end Sys2Proof.Machine
end

