-- ==== Sys2Proof/WellFormed.lean ====
section
/-! DEFINITION. Which commands an interface of the block can carry: ids that name something, byte strings of the lengths of their
units, and measurements within their ranges. A command that is not well formed never arises; the machine's answer to it says
nothing about the hardware. -/
namespace Sys2Proof

/-- R90: an id of a logical cell, whose row and column fields are at most 11. -/
def wfCell (id : BitVec 10) : Bool := decide (id.toNat / 16 % 16 ≤ 11) && decide (id.toNat % 16 ≤ 11)

/-- R484: an id of a physical cell: row 0 to 12, column 0 to 11. -/
def wfPhysical (id : BitVec 10) : Bool := decide (id.toNat / 16 % 16 ≤ 12) && decide (id.toNat % 16 ≤ 11)

/-- Table 12-1: an island id. -/
def wfIsland (i : BitVec 11) : Bool :=
  if i.toNat < 1024 then decide (i.toNat / 16 % 16 ≤ 12) && decide (i.toNat % 16 ≤ 11) else decide (i.toNat ≤ 0x42E)

/-- R273: a router is that of a logical cell. -/
def wfLink : LinkErr → Bool
  | .none => true
  | .corrected r => wfCell r
  | .uncorrectable r => wfCell r

/-- R337: a flit has 72 bytes. -/
def wfFlit (f : Bytes) : Bool := decide (f.length = 72)

/-- Table 12-2: measurements of islands, each once. -/
def wfMeas (m : GovMeas) : Bool :=
  m.islands.all (fun x => wfIsland x.island && decide (x.activity ≤ 256))
    && decide (m.islands.map fun x => x.island).Nodup && decide (m.power < 1024)
    && m.hbmCase.all (fun x => decide (x.2 < 256)) && decide (m.hbmCase.map fun x => x.1).Nodup

/-- A self-test result names a physical cell and a part of CELL.SELFTEST.UNIT. -/
def wfFail (l : List CellFail) : Bool :=
  l.all fun x => wfPhysical x.cell && decide (1 ≤ x.part.toNat) && decide (x.part.toNat ≤ 9)

/-- The shape of a command, one check for each kind of operand. -/
def Instr.wf : Instr → Bool
  | .bar0Write _ size _ => decide (1 ≤ size)
  | .rcRegisterRead _ size => decide (1 ≤ size)
  | .bar2Read _ len => decide (1 ≤ len)
  | .bar2Write _ bytes => decide (1 ≤ bytes.length)
  | .imgApplyDone _ bad | .powerOnSelftestDone bad => wfFail bad
  | .nop c _ | .valuI32 c _ | .valuI32i c _ | .valuP32 c _ | .valuF32 c _ | .vcmp c _ | .vcmpi c _ | .vmov c _
  | .vmovi c _ | .cvt c _ | .shfl c _ | .ualu c _ | .ualui c _ | .ucmp c _ | .ucmpi c _ | .umov c _ | .umovi c _
  | .mask c _ | .vote c _ | .upred c _ | .ld c _ | .st c _ | .ldu c _ | .stu c _ | .atom c _ | .sendDynamic c _
  | .sendStatic c _ | .recvWait c _ | .recvPoll c _ | .xfer c _ | .sfu c _ | .softmax c _ | .rmsnormAccumFirst c _
  | .rmsnormAccum c _ | .rmsnormApply c _ | .mx c _ | .mxfMma c _ | .mxfZero c _ | .mxfOut c _ | .br c _ | .bri c _
  | .loop c _ | .loopx c _ | .modeset c _ | .modeShadowEnd c _ | .fenceL c _ | .fenceC c _ | .fenceD c _ | .wait c _
  | .exit c _ | .brk c _ | .spawn c _ | .pwait c _ | .pread c _ | .pwrite c _ | .rread c _ | .rwrite c _
  | .pctlResume c _ | .pctlResumeReissue c _ | .pctlParkreq c _ | .pctlKill c _ | .requestedPark c _
  | .swarmRelease c _ | .regionWalkComplete c _ | .reservedOpcode c _ => wfCell c
  | .mxStart c | .mxComplete c | .xferStart c | .xferComplete c _ | .regionSyncArrival c => wfCell c
  | .parkCmdParkRequest w _ | .parkCmdResume w _ | .parkCmdResumeReissue w _ | .parkCmdKill w _ => wfPhysical w
  | .ftabWriteRow w _ | .ftabSetSlot w _ | .ftabClearSlot w _ | .ftabReadRow w _ | .ftabCommandDone w => wfPhysical w
  | .scaleWrite w _ | .scaleRead w _ | .scaleClearCount w _ | .scaleCommandDone w => wfPhysical w
  | .storePacket _ l | .atomicPacket _ l | .atomicRspPacket _ l | .msgPacket _ l | .ackPacket _ l | .refusePacket _ l => wfLink l
  | .memreqPacket _ l | .memrspPacket _ l | .creditPacket _ l | .creditRestore _ l => wfLink l
  | .chainOutputPiece _ l | .triggerMessage _ l | .resultPiece _ l => wfLink l
  | .scrubRead u _ => match u with
    | .stack _ => true
    | .cell id => wfCell id
  | .govControlPeriod m => wfMeas m
  | .droopTrip i | .voltageSettled i => wfIsland i
  | .isleStall a b => wfIsland a && wfIsland b
  | .copyHeader _ _ h _ => decide (h.length = 24)
  | .copyEof _ _ t => decide (t.length = 8)
  | .camLongPacket _ _ _ _ p _ _ _ => decide (p.length < 65536)
  | .wglInitFlit _ f | .wglMsgFlit _ f _ _ | .wglNullFlit _ f | .wglNakFlit _ f => wfFlit f
  | .wglMarker _ _ p _ _ => decide (p.length ≤ 72)
  | .hostLinkUp speed width _ =>
    (speed == 4 || speed == 5 || speed == 6) && (width == 4 || width == 8 || width == 16)
  | .bar2Resize k => decide (30 ≤ k.toNat) && decide (k.toNat ≤ 39)
  | .msiXUnmask v => decide (v.toNat < 68)
  | .porstNRelease b => decide (b.flashSlotMiB ≤ 1024)
  | .pmbusTelemetry v => decide (v.value < 65536)
  | _ => true

end Sys2Proof
end

