-- ==== Sys2Proof/Tests/Slice0.lean ====
section
/-! SUPPORT. States and operands that meet the hypotheses of the statements; ill-formed commands that WellFormed refuses; the worked
examples of the spec, and one step of some other commands. -/
namespace Sys2Proof.Tests
section
open Sys2Proof.Machine
set_option Elab.async false
set_option linter.unusedVariables false

/-- A configured channel 0 in which slot `k` of cell 0 runs a swarm at the word `x`. -/
def atWord (k x : Nat) : State :=
  { State.reset with
    regs := (State.reset.wr Reg.imgStatusConfigured 1).regs
    cells := [(0, { lm := ssetN 0 [] 0 (leBytes 8 x), swarms := [(k, { st := .active, blocks := 16 })] })] }

/-- A fact about the active lanes from the same fact about the 32 lanes. -/
theorem on_lanes {p q : Nat → Prop} (h : ∀ i, i < 32 → p i → q i) : ∀ i, i < 32 ∧ p i → q i :=
  fun i hi => h i hi.1 hi.2

/-- The number `v` in `n` bytes of HBM at `a`. -/
def poke (s : State) (a n v : Nat) : State := { s with hbm := ssetN 0 s.hbm a (leBytes n v) }

/-- The value `v` in uniform register `r` of slot `k` of cell 0. -/
def setu (s : State) (k r v : Nat) : State := s.modSwarm 0 k fun w => w.setU r v

/-- A section of TYPE `t` with the payload `b` in the part of channel `ch`. -/
def withSection (s : State) (ch t : Nat) (b : Bytes) : State :=
  { s with img := { s.img with parts := sset [] s.img.parts ch (sget [] s.img.parts ch ++ [{ type := t, payload := b }]) } }

/-- An entry of a ROUTE section: KIND, id, destination channel, rectangle, source or ring base, depth or slots. -/
def routeBytes (kind id ch r0 r1 c0 c1 src n : Nat) : Bytes :=
  leBytes 1 kind ++ leBytes 1 id ++ leBytes 1 0 ++ leBytes 1 ch ++ leBytes 1 r0 ++ leBytes 1 r1 ++ leBytes 1 c0 ++ leBytes 1 c1
    ++ leBytes 4 src ++ leBytes 1 n ++ zeros 19

/-- A ROUTE section with these entries in the part of channel 0. -/
def withRoutes (s : State) (l : List Bytes) : State := withSection s 0 0x30 (leBytes 4 l.length ++ zeros 12 ++ l.flatten)

/-- The state after reset with one packet in flight, behind one of another lane. -/
def inFlight (p : Packet) : State :=
  { State.reset with pkts := [{ kind := .credit, src := .cell 0x0BB, dst := .cell 0x0BB }, p] }

/-- A fact about every value of a map from the same fact about its entries and its default. -/
theorem sget_all {α : Type} {P : α → Prop} {d : α} (hd : P d) (l : Sparse α) (h : ∀ e ∈ l, P e.2) (k : Nat) : P (sget d l k) := by
  induction l with
  | nil => exact hd
  | cons e l ih =>
    rw [sget]; split
    · exact h e (by simp)
    · exact ih fun x hx => h x (by simp [hx])

/-- No swarm of a cell waits to issue an operation again. -/
theorem no_reissue {s : State} {id : Nat} (h : (s.cell id).swarms.all (fun e => e.2.reissue.isNone) = true) :
    ∀ j, (s.swarm id j).reissue = none := fun j =>
  sget_all (P := fun w : Swarm => w.reissue = none) rfl _
    (fun e he => Option.isNone_iff_eq_none.1 (List.all_eq_true.1 h e he)) j

/-- The state out of power-on reset, with the boot flow done: an access of the host is served. -/
def awake (s : State) : State := { s with pwr := { s.pwr with porst := false } }.wr Reg.glbBootDone 1

/-- `n` bytes that are 0 but for fields, given as offset, length and value. -/
def blob (n : Nat) (l : List (Nat × Nat × Nat)) : Bytes :=
  sgetN 0 (l.foldl (fun m e => ssetN 0 m e.1 (leBytes e.2.1 e.2.2)) []) 0 n

/-- Every channel configured, and an INGEST section in channel 3: lane 15, one frame slot, two fragments, a timeout of one tick. -/
def ingState : State :=
  withSection (State.reset.wr Reg.imgStatusConfigured 15) 3 0x42
    (blob 96 [(0, 2, 0x8000), (8, 1, 1), (10, 2, 2), (16, 4, 1), (64, 2, 4095), (66, 2, 255), (80, 2, 1)])

/-- `ingState` with lane 15 UP. -/
def ingUp (g : Ing) : State := { ingState with ing := [(3, { g with lanes := [(15, .up)] })] }

/-- Every channel configured, and a CAMERA section in channel 3: four contexts, one line, one raw buffer, one frame slot, a frame
and a merge timeout of 1000 ticks, an embedded-data context 3 on virtual channel 15. -/
def camState (g : Cam) : State :=
  { withSection (State.reset.wr Reg.imgStatusConfigured 15) 3 0x50
      (blob 192 [(4, 1, 4), (10, 2, 1), (16, 4, 1), (20, 4, 1), (24, 4, 1), (0x48, 1, 1), (0x4A, 1, 1), (0xB0, 1, 15), (0xB1, 1, 0x2F), (0xB2, 1, 1)])
    with cam := [(3, g)] }

/-- The port entry of quad 15: at least two lanes, partner device 7, timeouts of one tick and of 1000 ticks. -/
def wagPort : Bytes := blob 32 [(0, 1, 3), (3, 1, 2), (4, 1, 7), (10, 2, 1), (12, 4, 1)]

/-- Stream `n` of quad 15, which sends and receives messages of KIND `kind`, with SINK `sink`. -/
def wagStream (n kind sink : Nat) : Bytes := blob 16 [(0, 1, 3), (1, 1, n), (2, 1, 3), (3, 1, kind), (4, 1, sink)]

/-- Station 1 of chain `id`, of three stations and two records, whose PREV is of KIND `prev`, in cell 0x3BB. -/
def wagChain (id prev : Nat) : Bytes :=
  blob 32 [(0, 1, id), (1, 1, 1), (2, 1, 3), (4, 2, 2), (6, 2, 0x3BB), (12, 1, prev), (13, 1, 3), (14, 1, 3)]

/-- Every channel configured; in channel 3 quad 15 is a Waggle port with seven streams and two chains; its link is in state `st`. -/
def wagState (st : Nat) (w : Wgl) : State :=
  { (withSection (State.reset.wr Reg.imgStatusConfigured 15) 3 0x41
      (blob 16 [(0, 1, 1), (1, 1, 2), (2, 2, 7)] ++ wagPort ++ wagStream 0 0 0 ++ wagStream 1 0 2 ++ wagStream 2 1 0 ++ wagStream 3 2 1 ++ wagStream 4 3 0 ++ wagStream 5 3 0 ++ wagStream 6 4 0
        ++ wagChain 255 2 ++ wagChain 254 1)).wr (Reg.wglStatusState 15) st with wgl := [(15, w)] }

/-- A message of virtual lane `vl`, MTYPE `t` and stream `st` from device 7, with fields of its ARG and payload. -/
def wagMsg (vl t st n : Nat) (l : List (Nat × Nat × Nat)) : RxMsg :=
  { vl := vl, tick := 0, bytes := blob (32 + n) ([(0, 1, t), (2, 1, 7), (4, 1, st), (6, 2, n), (8, 4, 2 ^ 32 - 1)] ++ l) }

/-- The payload of the TIME section of a device of ROLE `role` in group 0xFFFF, with an MREF, periods of 1000 ticks and of 1000000
ticks, its upstream stream 4 of quad 15, and device 7 as the one member of the table. -/
def timeBytes (role : Nat) : Bytes :=
  blob 120 [(1, 1, role), (2, 2, 0xFFFF), (4, 2, 1), (8, 4, 1), (12, 2, 1), (14, 2, 1), (16, 1, 15), (17, 1, 4), (64, 1, 7)]

/-- A state with that TIME section and GROUP_STATE `g`. -/
def inGroup (s : State) (role g : Nat) : State :=
  { s with img := { s.img with globals := [{ type := 0x80, payload := timeBytes role }] } }.wr Reg.timeStatusGroupState g

/-- A launch-table entry with TRIGGER `trig`, NEXT `next`, RESULT_LEN 512, one swarm of one block in cell (11, 11). -/
def launchBytes (trig next : Nat) : Bytes :=
  blob 128 [(0, 1, trig), (2, 2, next), (4, 1, 11), (5, 1, 11), (6, 1, 11), (7, 1, 11), (0x14, 1, 1), (0x15, 1, 1), (0x17, 1, 255), (0x30, 2, 512)]

/-- Every channel configured, every stack present, and a LAUNCH section in channel 3 with two entries. -/
def launchState (d : Disp) : State :=
  { withSection (([0, 1, 2, 3, 4, 5, 6, 7].foldl (fun s n => s.wr (Reg.memStatusPresent n) 1) State.reset).wr Reg.imgStatusConfigured 15) 3 0xD0
      (blob 64 [(0, 2, 2), (16, 4, 64)] ++ launchBytes 4 1 ++ launchBytes 5 0xFFFF) with disp := [(3, d)] }

/-- A JOIN of device 7 that agrees with `timeBytes 2` and firmware version 9. -/
def joinMsg : RxMsg :=
  { vl := 1, tick := 0, bytes := (wagMsg 1 5 5 112 [(24, 1, 2), (26, 2, 0xFFFF), (32, 1, 7), (33, 1, 33), (36, 4, 9)]).bytes.take 96
      ++ sha384 (slice (timeBytes 2) 64 56) }

/-- `wagState` with a SAFETY section: function 0 of channels 0 and 1, and function 1 of a pair of devices over stream 6 of quad 15, with
SIMPLEX_EN, UNLOCK 0xFFFF and limits of 1, 1000 and 1000000 ticks; `x` is function `f`. -/
def safeState (st : Nat) (w : Wgl) (f : Nat) (x : SafeFn) : State :=
  { wagState st w with
    img := { (wagState st w).img with globals := [{ type := 0x70, payload := blob 144 [(0, 1, 2), (16, 1, 1), (17, 1, 3),
      (80, 1, 2), (81, 1, 8), (82, 1, 1), (83, 1, 15), (84, 1, 6), (86, 2, 0xFFFF), (88, 4, 1), (94, 2, 1), (96, 4, 1)] }] }
    safe := [(f, x)] }

/-- A delay-register entry with fault `fault` and digest `d`. -/
def entryOf (fault d : Nat) : DelayEntry :=
  { cls := 0, ch := 3, outcome := 0, seq := 0, key := [], fault := fault, crc := d, input := [], compare := leBytes 1 d, arrived := 0 }

/-- Every stack present, and a HOARD section: a ring of MODE `m` and 4096 bytes. -/
def hoardState (m st : Nat) (x : Hoard) : State :=
  { ([0, 1, 2, 3, 4, 5, 6, 7].foldl (fun s n => s.wr (Reg.memStatusPresent n) 1) State.reset).wr Reg.hrdStatusState st with
    img := { globals := [{ type := 0x90, payload := blob 32 [(0, 1, m), (16, 8, 4096)] }] }, hrd := x }

/-- Boot done, the link up, queue 63 ENABLED with the configuration and pointers of `x`. -/
def hostState (x : Queue) : State :=
  { awake ((launchState {}).wr Reg.hostLinkSpeed 6) with host := { queues := [(63, { x with enabled := true })] } }

/-- A submission entry with these fields. -/
def subEntry (l : List (Nat × Nat × Nat)) : Bytes := blob 64 l

/-- Queue 63 with the submission `j`, all of whose identities are in the window. -/
def jobState (j : Job) : State := hostState { sqLog := 12, cqLog := 12, jobs := [j], window := [{ id := j.id }] }

/-- A firmware package of `n` payload bytes of 0, not signed. -/
def fwPackage (n : Nat) : Bytes := fwMagic ++ leBytes 4 9 ++ leBytes 4 n ++ sha384 (zeros n) ++ zeros n

/-- A partial image of channel 3 that holds one NOTE section of 64 bytes of 0; its three digests are written out. -/
def noteImage : Bytes :=
  [0x58, 0x41, 0x4C, 0x49, 0x54, 0x48, 0x49, 0x4D] ++ leBytes 2 0x100 ++ leBytes 2 512 ++ leBytes 4 34 ++ leBytes 2 0x576 ++ leBytes 2 0x21
    ++ leBytes 4 1 ++ leBytes 8 512 ++ leBytes 8 1024 ++ zeros 24 ++ zeros 192
    ++ leBytes 48 0x9ECC340E03966294ABF409B658E77B859E7E9C720A0F87E8F21161B5FFCEE68EDCA58891C5AA8C5219724DFBE3BD53AA
    ++ leBytes 48 0x3713812E0DBA506A6C465502EBE4D08650099DAC94A7EB2BF78B45CFADEDCCAFD23FA11DC193391EBB78AF9E85E06A83
    ++ zeros 160
    ++ leBytes 2 0xF0 ++ leBytes 2 3 ++ zeros 4 ++ leBytes 8 640 ++ leBytes 8 64 ++ leBytes 2 1 ++ zeros 6
    ++ leBytes 48 0xBEDEB6978EBABA4A4C8869036162440C1B287320BCE48F3C8B381A70C3F2133AD2C099709326686C637C453B8DAA16C5
    ++ zeros 432

/-- A running full image, `noteImage` in HBM, IMG.STATUS.STATE `st` and the load `l`; channel 3 is unconfigured. -/
def loadState (st : Nat) (l : Option Load) : State :=
  let s := (((launchState {}).wr Reg.glbBootDone 1).wr Reg.imgStatusConfigured 7).wr Reg.imgStatusState st
  { s with pwr := { s.pwr with porst := false }, hbm := ((List.range 1024).zip noteImage).filter fun x => x.2 != 0, counter := 200000,
           img := { imageDigest := [1], globalDigest := zeros 48, channelDigest := [(0, zeros 48), (1, zeros 48), (2, zeros 48)], load := l } }

/-! ### The hypotheses of the statements are met -/

/-- The hypotheses of every clause of LaneIntegers are met. -/
theorem wit_laneIntegers :
    (∃ (s : State) (cell : BitVec 10) (slot : BitVec 4) (g fn d a b c : Nat),
      let id := cell.toNat
      let k := slot.toNat
      let w := s.swarm id k
      g < 8 ∧ fn ≤ 20 ∧ w.holds [d, a, b, c] = true ∧ (17 ≤ fn → b = 0) ∧ (fn ≠ 5 → c = 0) ∧ s.stands id k (rWord 0x10 g fn d a b c) false false =
        true) ∧
    (∃ (s : State) (cell : BitVec 10) (slot : BitVec 4) (g fn d a imm : Nat),
      let id := cell.toNat
      let k := slot.toNat
      let w := s.swarm id k
      g < 8 ∧ fn ≤ 16 ∧ fn ≠ 5 ∧ w.holds [d, a] = true ∧ imm < 2 ^ 32 ∧ s.stands id k (iWord 0x11 g fn d a imm) false false = true) :=
  ⟨⟨atWord 15 (rWord 0x10 7 20 255 255 0 0), 0, 15, 7, 20, 255, 255, 0, 0, by decide⟩,
   ⟨atWord 15 (iWord 0x11 7 16 255 0 0xFFFFFFFF), 0, 15, 7, 16, 255, 0, 0xFFFFFFFF, by decide⟩⟩

/-- The hypotheses of every clause of UniformIntegers are met. -/
theorem wit_uniformIntegers :
    (∃ (s : State) (cell : BitVec 10) (slot : BitVec 4) (fn d a b c : Nat),
      let id := cell.toNat
      let k := slot.toNat
      fn ≤ 20 ∧ d < 64 ∧ a < 64 ∧ b < 64 ∧ c < 64 ∧ (17 ≤ fn → b = 0) ∧ (fn ≠ 5 → c = 0) ∧ s.stands id k (rWord 0x20 0 fn d a b c) false false = true) ∧
    (∃ (s : State) (cell : BitVec 10) (slot : BitVec 4) (fn d a imm : Nat),
      let id := cell.toNat
      let k := slot.toNat
      fn ≤ 16 ∧ fn ≠ 5 ∧ d < 64 ∧ a < 64 ∧ imm < 2 ^ 32 ∧ s.stands id k (iWord 0x21 0 fn d a imm) false false = true) :=
  ⟨⟨atWord 15 (rWord 0x20 0 20 63 63 0 0), 0, 15, 20, 63, 63, 0, 0, by decide⟩,
   ⟨atWord 15 (iWord 0x21 0 16 63 63 0xFFFFFFFF), 0, 15, 16, 63, 63, 0xFFFFFFFF, by decide⟩⟩

/-- The hypotheses of every clause of IntegerOperations are met. -/
theorem wit_integerOperations :
    (∃ (n : Nat),
      ∃ (a : BitVec n), (n = 32 ∨ n = 64) ∧ a = 0) ∧
    (∃ (n : Nat),
      ∃ (a : BitVec n), (n = 32 ∨ n = 64) ∧ a ≠ 0) ∧
    (∃ (n : Nat), (n = 32 ∨ n = 64)) :=
  ⟨⟨64, 0, by decide⟩,
   ⟨64, 0xFFFFFFFFFFFFFFFF, by decide⟩,
   ⟨32, by decide⟩⟩

/-- The hypotheses of every clause of LaneFloats are met. -/
theorem wit_laneFloats :
    (∃ (s : State) (cell : BitVec 10) (slot : BitVec 4) (g fn d a b c : Nat),
      let id := cell.toNat
      let k := slot.toNat
      let w := s.swarm id k
      g < 8 ∧ fn ∈ [0, 1, 2, 3, 13, 14, 17, 18] ∧ w.holds [d, a, b, c] = true ∧ (17 ≤ fn → b = 0) ∧ (fn ≠ 3 → c = 0) ∧ s.stands id k (rWord 0x12 g fn
        d a b c) false false = true) ∧
    (∃ (s : State) (cell : BitVec 10) (slot : BitVec 4) (g fn d a b c : Nat),
      let id := cell.toNat
      let k := slot.toNat
      let w := s.swarm id k
      g < 8 ∧ fn ∈ [0, 1, 2, 3, 13, 14, 17, 18] ∧ w.holds [d, a, b, c] = true ∧ (17 ≤ fn → b = 0) ∧ (fn ≠ 3 → c = 0) ∧ s.stands id k (rWord 0x13 g fn
        d a b c) false false = true) ∧
    (∃ (fn a b c : Nat), ((fn ∈ [0, 1, 2, 3, 13, 14] ∧ (a % 2 ^ 32 = 2 ^ 31 ∨ b % 2 ^ 32 = 2 ^ 31)) ∨ (fn = 3 ∧ c % 2 ^ 32 = 2 ^ 31) ∨ (fn ∈ [17,
        18] ∧ a % 2 ^ 32 = 2 ^ 31))) ∧
    (∃ (fn a b c : Nat),
      let nan := fun x : Nat => bits x 23 8 = 255 ∧ x % 2 ^ 23 ≠ 0
      ((fn ∈ [0, 1, 2, 3, 13, 14] ∧ (nan a ∨ nan b)) ∨ (fn = 3 ∧ nan c) ∨ (fn ∈ [17, 18] ∧ nan a))) :=
  ⟨⟨atWord 15 (rWord 0x12 7 18 255 255 0 0), 0, 15, 7, 18, 255, 255, 0, 0, by decide⟩,
   ⟨atWord 15 (rWord 0x13 7 3 255 255 255 255), 0, 15, 7, 3, 255, 255, 255, 255, by decide⟩,
   ⟨18, 0x80000000, 0, 0, by decide⟩,
   ⟨3, 255, 0, 0x7FFFFFFF, by decide⟩⟩

/-- The hypotheses of every clause of Compares are met. -/
theorem wit_compares :
    (∃ (s : State) (cell : BitVec 10) (slot : BitVec 4) (g ty cond d a b imm : Nat),
      let id := cell.toNat
      let k := slot.toNat
      let w := s.swarm id k
      g < 8 ∧ ty < 4 ∧ cond ≤ 5 ∧ d < 8 ∧ imm < 2 ^ 32 ∧ w.holds [a, b] = true ∧ s.stands id k (rWord 0x14 g (8 * ty + cond) d a b 0) false false =
        true) ∧
    (∃ (s : State) (cell : BitVec 10) (slot : BitVec 4) (g ty cond d a imm : Nat),
      let id := cell.toNat
      let k := slot.toNat
      let w := s.swarm id k
      g < 8 ∧ ty < 4 ∧ cond ≤ 5 ∧ d < 8 ∧ imm < 2 ^ 32 ∧ w.holds [a] = true ∧ s.stands id k (iWord 0x15 g (8 * ty + cond) d a imm) false false = true) ∧
    (∃ (s : State) (cell : BitVec 10) (slot : BitVec 4) (g ty cond d a b imm : Nat),
      let id := cell.toNat
      let k := slot.toNat
      g < 8 ∧ ty < 4 ∧ cond ≤ 5 ∧ d < 8 ∧ imm < 2 ^ 32 ∧ ty < 2 ∧ d < 4 ∧ a < 64 ∧ b < 64 ∧ s.stands id k (rWord 0x22 0 (8 * ty + cond) d a b 0) false
        false = true) ∧
    (∃ (s : State) (cell : BitVec 10) (slot : BitVec 4) (g ty cond d a imm : Nat),
      let id := cell.toNat
      let k := slot.toNat
      g < 8 ∧ ty < 4 ∧ cond ≤ 5 ∧ d < 8 ∧ imm < 2 ^ 32 ∧ ty < 2 ∧ d < 4 ∧ a < 64 ∧ s.stands id k (iWord 0x23 0 (8 * ty + cond) d a imm) false false =
        true) ∧
    (∃ (n : Nat),
      ∃ (ty : Nat), (n = 32 ∨ n = 64) ∧ (ty = 0 ∨ ty = 2)) ∧
    (∃ (n : Nat), (n = 32 ∨ n = 64)) ∧
    (∃ (a b cond : Nat),
      let nan := fun x : Nat => bits x 23 8 = 255 ∧ x % 2 ^ 23 ≠ 0
      cond ≤ 5 ∧ (nan a ∨ nan b)) :=
  ⟨⟨atWord 15 (rWord 0x14 7 (8 * 3 + 5) 7 255 255 0), 0, 15, 7, 3, 5, 7, 255, 255, 0, by decide⟩,
   ⟨atWord 15 (iWord 0x15 7 (8 * 3 + 5) 7 255 0xFFFFFFFF), 0, 15, 7, 3, 5, 7, 255, 0xFFFFFFFF, by decide⟩,
   ⟨atWord 15 (rWord 0x22 0 (8 * 1 + 5) 3 63 63 0), 0, 15, 0, 1, 5, 3, 63, 63, 0, by decide⟩,
   ⟨atWord 15 (iWord 0x23 0 (8 * 1 + 5) 3 63 0xFFFFFFFF), 0, 15, 0, 1, 5, 3, 63, 0xFFFFFFFF, by decide⟩,
   ⟨32, 2, by decide⟩,
   ⟨64, by decide⟩,
   ⟨0x7F800001, 0, 5, by decide⟩⟩

/-- The hypotheses of Vote are met. -/
theorem wit_vote :
    ∃ (s : State) (cell : BitVec 10) (slot : BitVec 4) (g fn d a : Nat),
      let id := cell.toNat
      let k := slot.toNat
      g < 8 ∧ fn ≤ 1 ∧ d < 4 ∧ a < 8 ∧ s.stands id k (rWord 0x29 g fn d a 0 0) false false = true :=
  ⟨atWord 15 (rWord 0x29 7 1 3 7 0 0), 0, 15, 7, 1, 3, 7, by decide⟩

/-- The hypotheses of every clause of MasksAndPredicates are met. -/
theorem wit_masksAndPredicates :
    (∃ (s : State) (cell : BitVec 10) (slot : BitVec 4) (fn d a b : Nat),
      let id := cell.toNat
      let k := slot.toNat
      d < 8 ∧ a < 8 ∧ b < 8 ∧ fn ≤ 3 ∧ s.stands id k (rWord 0x28 0 fn d a b 0) false false = true) ∧
    (∃ (s : State) (cell : BitVec 10) (slot : BitVec 4) (d a : Nat),
      let id := cell.toNat
      let k := slot.toNat
      d < 8 ∧ a < 8 ∧ s.stands id k (rWord 0x28 0 4 d a 0 0) false false = true) ∧
    (∃ (s : State) (cell : BitVec 10) (slot : BitVec 4) (d a : Nat),
      let id := cell.toNat
      let k := slot.toNat
      d < 8 ∧ a < 8 ∧ s.stands id k (rWord 0x28 0 5 d a 0 0) false false = true) ∧
    (∃ (s : State) (cell : BitVec 10) (slot : BitVec 4) (d a b c : Nat),
      let id := cell.toNat
      let k := slot.toNat
      d < 8 ∧ a < 8 ∧ b < 8 ∧ c < 8 ∧ s.stands id k (rWord 0x28 0 6 d a b c) false false = true) ∧
    (∃ (s : State) (cell : BitVec 10) (slot : BitVec 4) (d a : Nat),
      let id := cell.toNat
      let k := slot.toNat
      d < 8 ∧ a < 64 ∧ s.stands id k (rWord 0x28 0 7 d a 0 0) false false = true) ∧
    (∃ (s : State) (cell : BitVec 10) (slot : BitVec 4) (d a : Nat),
      let id := cell.toNat
      let k := slot.toNat
      d < 64 ∧ a < 8 ∧ s.stands id k (rWord 0x28 0 8 d a 0 0) false false = true) ∧
    (∃ (s : State) (cell : BitVec 10) (slot : BitVec 4) (fn d a b : Nat),
      let id := cell.toNat
      let k := slot.toNat
      fn ≤ 5 ∧ d < 4 ∧ a < 4 ∧ b < 4 ∧ (3 < fn → a = 0) ∧ (2 < fn → b = 0) ∧ s.stands id k (rWord 0x2A 0 fn d a b 0) false false = true) :=
  ⟨⟨atWord 15 (rWord 0x28 0 3 7 7 7 0), 0, 15, 3, 7, 7, 7, by decide⟩,
   ⟨atWord 15 (rWord 0x28 0 4 7 7 0 0), 0, 15, 7, 7, by decide⟩,
   ⟨atWord 15 (rWord 0x28 0 5 7 7 0 0), 0, 15, 7, 7, by decide⟩,
   ⟨atWord 15 (rWord 0x28 0 6 7 7 7 7), 0, 15, 7, 7, 7, 7, by decide⟩,
   ⟨atWord 15 (rWord 0x28 0 7 7 63 0 0), 0, 15, 7, 63, by decide⟩,
   ⟨atWord 15 (rWord 0x28 0 8 63 7 0 0), 0, 15, 63, 7, by decide⟩,
   ⟨atWord 15 (rWord 0x2A 0 5 3 0 0 0), 0, 15, 5, 3, 0, 0, by decide⟩⟩

/-- The hypotheses of every clause of Moves are met. -/
theorem wit_moves :
    (∃ (s : State) (cell : BitVec 10) (slot : BitVec 4) (g d a imm : Nat),
      let id := cell.toNat
      let k := slot.toNat
      let w := s.swarm id k
      g < 8 ∧ imm < 2 ^ 32 ∧ w.holds [d, a] = true ∧ s.stands id k (rWord 0x16 g 0 d a 0 0) false false = true) ∧
    (∃ (s : State) (cell : BitVec 10) (slot : BitVec 4) (g d a imm : Nat),
      let id := cell.toNat
      let k := slot.toNat
      let w := s.swarm id k
      g < 8 ∧ imm < 2 ^ 32 ∧ w.holds [d] = true ∧ a < 64 ∧ s.stands id k (rWord 0x16 g 1 d a 0 0) false false = true) ∧
    (∃ (s : State) (cell : BitVec 10) (slot : BitVec 4) (g d imm : Nat),
      let id := cell.toNat
      let k := slot.toNat
      let w := s.swarm id k
      g < 8 ∧ imm < 2 ^ 32 ∧ w.holds [d] = true ∧ s.stands id k (rWord 0x16 g 2 d 0 0 0) false false = true) ∧
    (∃ (s : State) (cell : BitVec 10) (slot : BitVec 4) (g d a b c imm : Nat),
      let id := cell.toNat
      let k := slot.toNat
      let w := s.swarm id k
      g < 8 ∧ imm < 2 ^ 32 ∧ w.holds [d, a, b] = true ∧ c < 8 ∧ s.stands id k (rWord 0x16 g 3 d a b c) false false = true) ∧
    (∃ (s : State) (cell : BitVec 10) (slot : BitVec 4) (g d imm : Nat),
      let id := cell.toNat
      let k := slot.toNat
      let w := s.swarm id k
      g < 8 ∧ imm < 2 ^ 32 ∧ w.holds [d] = true ∧ s.stands id k (iWord 0x17 g 0 d 0 imm) false false = true) ∧
    (∃ (s : State) (cell : BitVec 10) (slot : BitVec 4) (g d a imm : Nat),
      let id := cell.toNat
      let k := slot.toNat
      g < 8 ∧ imm < 2 ^ 32 ∧ d < 64 ∧ a < 64 ∧ s.stands id k (rWord 0x24 0 0 d a 0 0) false false = true) ∧
    (∃ (s : State) (cell : BitVec 10) (slot : BitVec 4) (g d a b imm : Nat),
      let id := cell.toNat
      let k := slot.toNat
      let w := s.swarm id k
      g < 8 ∧ imm < 2 ^ 32 ∧ d < 64 ∧ w.holds [a] = true ∧ b < 32 ∧ s.stands id k (rWord 0x24 0 1 d a b 0) false false = true) ∧
    (∃ (s : State) (cell : BitVec 10) (slot : BitVec 4) (g d imm : Nat),
      let id := cell.toNat
      let k := slot.toNat
      g < 8 ∧ imm < 2 ^ 32 ∧ d < 64 ∧ s.stands id k (rWord 0x24 0 2 d 0 0 0) false false = true) ∧
    (∃ (s : State) (cell : BitVec 10) (slot : BitVec 4) (g d b imm : Nat),
      let id := cell.toNat
      let k := slot.toNat
      g < 8 ∧ imm < 2 ^ 32 ∧ d < 64 ∧ b < 3 ∧ s.stands id k (rWord 0x24 0 3 d 0 b 0) false false = true) ∧
    (∃ (s : State) (cell : BitVec 10) (slot : BitVec 4) (g d imm : Nat),
      let id := cell.toNat
      let k := slot.toNat
      g < 8 ∧ imm < 2 ^ 32 ∧ d < 64 ∧ s.stands id k (iWord 0x25 0 0 d 0 imm) false false = true) ∧
    (∃ (s : State) (cell : BitVec 10) (slot : BitVec 4) (g d imm : Nat),
      let id := cell.toNat
      let k := slot.toNat
      g < 8 ∧ imm < 2 ^ 32 ∧ d < 64 ∧ s.stands id k (iWord 0x25 0 1 d 0 imm) false false = true) :=
  ⟨⟨atWord 15 (rWord 0x16 7 0 255 255 0 0), 0, 15, 7, 255, 255, 0, by decide⟩,
   ⟨atWord 15 (rWord 0x16 7 1 255 63 0 0), 0, 15, 7, 255, 63, 0, by decide⟩,
   ⟨atWord 15 (rWord 0x16 7 2 255 0 0 0), 0, 15, 7, 255, 0, by decide⟩,
   ⟨atWord 15 (rWord 0x16 7 3 255 255 255 7), 0, 15, 7, 255, 255, 255, 7, 0, by decide⟩,
   ⟨atWord 15 (iWord 0x17 7 0 255 0 0xFFFFFFFF), 0, 15, 7, 255, 0xFFFFFFFF, by decide⟩,
   ⟨atWord 15 (rWord 0x24 0 0 63 63 0 0), 0, 15, 0, 63, 63, 0, by decide⟩,
   ⟨atWord 15 (rWord 0x24 0 1 63 255 31 0), 0, 15, 0, 63, 255, 31, 0, by decide⟩,
   ⟨atWord 15 (rWord 0x24 0 2 63 0 0 0), 0, 15, 0, 63, 0, by decide⟩,
   ⟨atWord 15 (rWord 0x24 0 3 63 0 2 0), 0, 15, 0, 63, 2, 0, by decide⟩,
   ⟨atWord 15 (iWord 0x25 0 0 63 0 0xFFFFFFFF), 0, 15, 0, 63, 0xFFFFFFFF, by decide⟩,
   ⟨atWord 15 (iWord 0x25 0 1 63 0 0xFFFFFFFF), 0, 15, 0, 63, 0xFFFFFFFF, by decide⟩⟩

/-- The hypotheses of every clause of Shuffles are met. -/
theorem wit_shuffles :
    (∃ (s : State) (cell : BitVec 10) (slot : BitVec 4) (g d a b : Nat),
      let id := cell.toNat
      let k := slot.toNat
      let w := s.swarm id k
      g < 8 ∧ w.holds [d, a] = true ∧ w.holds [b] = true ∧ s.stands id k (rWord 0x19 g 0 d a b 0) false false = true) ∧
    (∃ (s : State) (cell : BitVec 10) (slot : BitVec 4) (g fn d a b : Nat),
      let id := cell.toNat
      let k := slot.toNat
      let w := s.swarm id k
      g < 8 ∧ w.holds [d, a] = true ∧ 1 ≤ fn ∧ fn ≤ 4 ∧ b < 32 ∧ s.stands id k (rWord 0x19 g fn d a b 0) false false = true) :=
  ⟨⟨atWord 15 (rWord 0x19 7 0 255 255 255 0), 0, 15, 7, 255, 255, 255, by decide⟩,
   ⟨atWord 15 (rWord 0x19 7 4 255 255 31 0), 0, 15, 7, 4, 255, 255, 31, by decide⟩⟩

/-- The hypotheses of every clause of NopCvtReserved are met. -/
theorem wit_nopCvtReserved :
    (∃ (s : State) (cell : BitVec 10) (slot : BitVec 4),
      let id := cell.toNat
      let k := slot.toNat
      s.stands id k (rWord 0x01 0 0 0 0 0 0) false false = true) ∧
    (∃ (s : State) (cell : BitVec 10) (slot : BitVec 4) (g d a b c sf df half : Nat),
      let id := cell.toNat
      let k := slot.toNat
      let w := s.swarm id k
      g < 8 ∧ w.holds [d, a] = true ∧ b < 256 ∧ c < 256 ∧ half ≤ 1 ∧ 1 ≤ sf ∧ sf ≤ 13 ∧ 1 ≤ df ∧ df ≤ 13 ∧ zpFits (Fmt.ofCode sf) b = true ∧ zpFits
        (Fmt.ofCode df) c = true ∧ (half = 1 → sf = 6 ∨ sf = 7) ∧ s.stands id k (rWord 0x18 g 0 d a b c + sf * 2 ^ 12 + df * 2 ^ 8 + half * 2 ^
        7) false false = true) ∧
    (∃ (s : State) (cell : BitVec 10) (slot : BitVec 4) (x : Nat),
      let id := cell.toNat
      let k := slot.toNat
      wOp x ∉ opcodes ∧ s.parksAlone id k = true ∧ s.stands id k x false false = true) :=
  ⟨⟨atWord 15 (rWord 0x01 0 0 0 0 0 0), 0, 15, by decide⟩,
   ⟨atWord 15 (rWord 0x18 7 0 255 255 0 0 + 7 * 2 ^ 12 + 13 * 2 ^ 8 + 1 * 2 ^ 7), 0, 15, 7, 255, 255, 0, 0, 7, 13, 1, by decide⟩,
   ⟨atWord 15 0xFF00000000000000, 0, 15, 0xFF00000000000000, by decide⟩⟩

/-- The hypotheses of every clause of NextOffset are met. -/
theorem wit_nextOffset :
    (∃ (br : Option (Bool × Nat)),
      ∃ (taken : Bool) (target : Nat), br = some (taken, target)) ∧
    (∃ (w : Swarm),
      let ends := fun l : Loop => l.active = true ∧ l.stop = w.pc
      ends w.loop1 ∧ 1 < w.loop1.count) ∧
    (∃ (w : Swarm),
      let ends := fun l : Loop => l.active = true ∧ l.stop = w.pc
      ends w.loop1 ∧ w.loop1.count ≤ 1) ∧
    (∃ (w : Swarm),
      let ends := fun l : Loop => l.active = true ∧ l.stop = w.pc
      ¬ ends w.loop1 ∧ ends w.loop0 ∧ 1 < w.loop0.count) ∧
    (∃ (w : Swarm),
      let ends := fun l : Loop => l.active = true ∧ l.stop = w.pc
      ¬ ends w.loop1 ∧ ends w.loop0 ∧ w.loop0.count ≤ 1) ∧
    (∃ (w : Swarm),
      let ends := fun l : Loop => l.active = true ∧ l.stop = w.pc
      ¬ ends w.loop1 ∧ ¬ ends w.loop0) :=
  ⟨⟨some (true, 0x17FFF8), true, 0x17FFF8, by decide⟩,
   ⟨{ loop1 := { active := true, stop := 0, count := 2 } }, by decide⟩,
   ⟨{ loop1 := { active := true, stop := 0, count := 1 } }, by decide⟩,
   ⟨{ loop0 := { active := true, stop := 0, count := 2 } }, by decide⟩,
   ⟨{ loop0 := { active := true, stop := 0, count := 0 } }, by decide⟩,
   ⟨{ loop0 := { active := false, stop := 0, count := 2 } }, by decide⟩⟩

/-- The hypotheses of every clause of Branches are met. -/
theorem wit_branches :
    (∃ (s : State) (cell : BitVec 10) (slot : BitVec 4) (cond up link l a off : Nat),
      let id := cell.toNat
      let k := slot.toNat
      let w := s.swarm id k
      let holds := cond = 0 ∨ (cond = 1 ∧ w.upred up = true) ∨ (cond = 2 ∧ w.upred up = false)
      ∃ (i : Instr) (base op : Nat),
      let target := (base + ((BitVec.ofNat 32 off).signExtend 64).toNat) % 2 ^ 64
      cond ≤ 2 ∧ up < 4 ∧ (cond = 0 → up = 0) ∧ link ≤ 1 ∧ l < 64 ∧ (link = 0 → l = 0) ∧ a < 64 ∧ off < 2 ^ 32 ∧ ((i = .br cell slot ∧ base = w.pc ∧
        op = 0x50 ∧ a = 0) ∨ (i = .bri cell slot ∧ base = w.ureg a ∧ op = 0x51)) ∧ s.stands id k (iWord op 0 (cond + 4 * up + 16 * link) l a
        off) true true = true ∧ w.replay = none ∧ target % 8 = 0 ∧ target < 0x180000 ∧ holds) ∧
    (∃ (s : State) (cell : BitVec 10) (slot : BitVec 4) (cond up link l a off : Nat),
      let id := cell.toNat
      let k := slot.toNat
      let w := s.swarm id k
      let holds := cond = 0 ∨ (cond = 1 ∧ w.upred up = true) ∨ (cond = 2 ∧ w.upred up = false)
      ∃ (i : Instr) (base op : Nat),
      let target := (base + ((BitVec.ofNat 32 off).signExtend 64).toNat) % 2 ^ 64
      cond ≤ 2 ∧ up < 4 ∧ (cond = 0 → up = 0) ∧ link ≤ 1 ∧ l < 64 ∧ (link = 0 → l = 0) ∧ a < 64 ∧ off < 2 ^ 32 ∧ ((i = .br cell slot ∧ base = w.pc ∧
        op = 0x50 ∧ a = 0) ∨ (i = .bri cell slot ∧ base = w.ureg a ∧ op = 0x51)) ∧ s.stands id k (iWord op 0 (cond + 4 * up + 16 * link) l a
        off) true true = true ∧ w.replay = none ∧ target % 8 = 0 ∧ target < 0x180000 ∧ ¬ holds) ∧
    (∃ (s : State) (cell : BitVec 10) (slot : BitVec 4) (cond up link l a off : Nat),
      let id := cell.toNat
      let k := slot.toNat
      let w := s.swarm id k
      ∃ (i : Instr) (base op : Nat),
      ∃ (taken : Bool) (old : Nat), cond ≤ 2 ∧ up < 4 ∧ (cond = 0 → up = 0) ∧ link ≤ 1 ∧ l < 64 ∧ (link = 0 → l = 0) ∧ a < 64 ∧ off < 2 ^ 32 ∧ ((i =
        .br cell slot ∧ base = w.pc ∧ op = 0x50 ∧ a = 0) ∨ (i = .bri cell slot ∧ base = w.ureg a ∧ op = 0x51)) ∧ s.stands id k (iWord op 0
        (cond + 4 * up + 16 * link) l a off) true true = true ∧ w.replay = some (taken, old)) ∧
    (∃ (s : State) (cell : BitVec 10) (slot : BitVec 4) (cond up link l a off : Nat),
      let id := cell.toNat
      let k := slot.toNat
      let w := s.swarm id k
      ∃ (i : Instr) (base op : Nat),
      let target := (base + ((BitVec.ofNat 32 off).signExtend 64).toNat) % 2 ^ 64
      cond ≤ 2 ∧ up < 4 ∧ (cond = 0 → up = 0) ∧ link ≤ 1 ∧ l < 64 ∧ (link = 0 → l = 0) ∧ a < 64 ∧ off < 2 ^ 32 ∧ ((i = .br cell slot ∧ base = w.pc ∧
        op = 0x50 ∧ a = 0) ∨ (i = .bri cell slot ∧ base = w.ureg a ∧ op = 0x51)) ∧ s.stands id k (iWord op 0 (cond + 4 * up + 16 * link) l a
        off) true true = true ∧ w.replay = none ∧ ¬ (target % 8 = 0 ∧ target < 0x180000) ∧ s.parksAlone id k = true) ∧
    (∃ (s : State) (cell : BitVec 10) (slot : BitVec 4) (cond up link l a off : Nat),
      let id := cell.toNat
      let k := slot.toNat
      cond ≤ 2 ∧ up < 4 ∧ (cond = 0 → up = 0) ∧ link ≤ 1 ∧ l < 64 ∧ (link = 0 → l = 0) ∧ a < 64 ∧ off < 2 ^ 32 ∧ s.stands id k (iWord 0x50 0 (cond + 4
        * up + 16 * link) l 0 off) true true = true) ∧
    (∃ (s : State) (cell : BitVec 10) (slot : BitVec 4) (cond up link l a off : Nat),
      let id := cell.toNat
      let k := slot.toNat
      cond ≤ 2 ∧ up < 4 ∧ (cond = 0 → up = 0) ∧ link ≤ 1 ∧ l < 64 ∧ (link = 0 → l = 0) ∧ a < 64 ∧ off < 2 ^ 32 ∧ s.stands id k (iWord 0x51 0 (cond + 4
        * up + 16 * link) l a off) true true = true) :=
  ⟨⟨atWord 15 (iWord 0x50 0 (2 + 4 * 3 + 16 * 1) 63 0 0x17FFF8), 0, 15, 2, 3, 1, 63, 0, 0x17FFF8, .br 0 15, 0, 0x50, by decide⟩,
   ⟨atWord 15 (iWord 0x50 0 (1 + 4 * 3 + 16 * 1) 63 0 0x17FFF8), 0, 15, 1, 3, 1, 63, 0, 0x17FFF8, .br 0 15, 0, 0x50, by decide⟩,
   ⟨(atWord 15 (iWord 0x50 0 (2 + 4 * 3 + 16 * 1) 63 0 0x17FFF8)).modSwarm 0 15 fun w => { w with replay := some (true, 0x17FFF8) }, 0, 15, 2, 3, 1, 63, 0, 0x17FFF8, .br 0 15, 0, 0x50, true, 0x17FFF8, by decide⟩,
   ⟨atWord 15 (iWord 0x51 0 (2 + 4 * 3 + 16 * 1) 63 63 0x180000), 0, 15, 2, 3, 1, 63, 63, 0x180000, .bri 0 15, 0, 0x51, by decide⟩,
   ⟨atWord 15 (iWord 0x50 0 (2 + 4 * 3 + 16 * 1) 63 0 0x17FFF8), 0, 15, 2, 3, 1, 63, 0, 0x17FFF8, by decide⟩,
   ⟨atWord 15 (iWord 0x51 0 (2 + 4 * 3 + 16 * 1) 63 63 0x17FFF8), 0, 15, 2, 3, 1, 63, 63, 0x17FFF8, by decide⟩⟩

/-- The hypotheses of every clause of HardwareLoops are met. -/
theorem wit_hardwareLoops :
    (∃ (s : State) (cell : BitVec 10) (slot : BitVec 4) (n imm a cnt len : Nat),
      let id := cell.toNat
      let k := slot.toNat
      let w := s.swarm id k
      let start := w.pc + 8
      let stop := start + 8 * len
      let count := if imm = 1 then cnt else w.ureg a % 2 ^ 32
      let nested := (w.loop n).active = true ∨ (n = 0 ∧ w.loop1.active = true) ∨ (n = 1 ∧ w.loop0.active = true ∧ (start < w.loop0.start ∨ w.loop0.stop ≤ stop))
      n ≤ 1 ∧ imm ≤ 1 ∧ a < 64 ∧ cnt < 2 ^ 16 ∧ len < 2 ^ 20 ∧ stop < 0x180000 ∧ s.stands id k (iWord 0x52 0 (n + 2 * imm) 0 (if imm = 1 then cnt else
        a) (len * 2 ^ 12)) true false = true ∧ ¬ nested ∧ count ≠ 0) ∧
    (∃ (s : State) (cell : BitVec 10) (slot : BitVec 4) (n imm a cnt len : Nat),
      let id := cell.toNat
      let k := slot.toNat
      let w := s.swarm id k
      let start := w.pc + 8
      let stop := start + 8 * len
      let count := if imm = 1 then cnt else w.ureg a % 2 ^ 32
      let nested := (w.loop n).active = true ∨ (n = 0 ∧ w.loop1.active = true) ∨ (n = 1 ∧ w.loop0.active = true ∧ (start < w.loop0.start ∨ w.loop0.stop ≤ stop))
      n ≤ 1 ∧ imm ≤ 1 ∧ a < 64 ∧ cnt < 2 ^ 16 ∧ len < 2 ^ 20 ∧ stop < 0x180000 ∧ s.stands id k (iWord 0x52 0 (n + 2 * imm) 0 (if imm = 1 then cnt else
        a) (len * 2 ^ 12)) true false = true ∧ ¬ nested ∧ count = 0) ∧
    (∃ (s : State) (cell : BitVec 10) (slot : BitVec 4) (n imm a cnt len : Nat),
      let id := cell.toNat
      let k := slot.toNat
      let w := s.swarm id k
      let start := w.pc + 8
      let stop := start + 8 * len
      let nested := (w.loop n).active = true ∨ (n = 0 ∧ w.loop1.active = true) ∨ (n = 1 ∧ w.loop0.active = true ∧ (start < w.loop0.start ∨ w.loop0.stop ≤ stop))
      n ≤ 1 ∧ imm ≤ 1 ∧ a < 64 ∧ cnt < 2 ^ 16 ∧ len < 2 ^ 20 ∧ stop < 0x180000 ∧ s.stands id k (iWord 0x52 0 (n + 2 * imm) 0 (if imm = 1 then cnt else
        a) (len * 2 ^ 12)) true false = true ∧ nested ∧ s.parksAlone id k = true) ∧
    (∃ (s : State) (cell : BitVec 10) (slot : BitVec 4) (n imm a cnt len : Nat),
      let id := cell.toNat
      let k := slot.toNat
      n ≤ 1 ∧ imm ≤ 1 ∧ a < 64 ∧ cnt < 2 ^ 16 ∧ len < 2 ^ 20 ∧ s.stands id k (rWord 0x53 0 n 0 0 0 0) true false = true) :=
  ⟨⟨atWord 15 (iWord 0x52 0 (1 + 2 * 1) 0 (if 1 = 1 then 0xFFFF else 0) (0x2FFFE * 2 ^ 12)), 0, 15, 1, 1, 0, 0xFFFF, 0x2FFFE, by decide⟩,
   ⟨atWord 15 (iWord 0x52 0 (1 + 2 * 1) 0 (if 1 = 1 then 0 else 0) (0x2FFFE * 2 ^ 12)), 0, 15, 1, 1, 0, 0, 0x2FFFE, by decide⟩,
   ⟨(atWord 15 (iWord 0x52 0 (0 + 2 * 0) 0 (if 0 = 1 then 0xFFFF else 63) (0x2FFFE * 2 ^ 12))).modSwarm 0 15 fun w => { w with loop1 := { active := true } }, 0, 15, 0, 0, 63, 0xFFFF, 0x2FFFE, by decide⟩,
   ⟨atWord 15 (rWord 0x53 0 1 0 0 0 0), 0, 15, 1, 1, 0, 0xFFFF, 0x2FFFE, by decide⟩⟩

/-- The hypotheses of every clause of ModeChanges are met. -/
theorem wit_modeChanges :
    (∃ (s : State) (cell : BitVec 10) (slot : BitVec 4) (fn a imm m : Nat),
      let id := cell.toNat
      let k := slot.toNat
      let w := s.swarm id k
      a < 64 ∧ imm < 2 ^ 32 ∧ ((fn = 0 ∧ imm = 0 ∧ m = w.ureg a) ∨ (fn = 1 ∧ a = 0 ∧ m = imm)) ∧ s.stands id k (iWord 0x54 0 fn 0 a imm) true false =
        true ∧ w.modeFits m = true ∧ (s.cell id).matrixBusy k = false) ∧
    (∃ (s : State) (cell : BitVec 10) (slot : BitVec 4) (fn a imm m : Nat),
      let id := cell.toNat
      let k := slot.toNat
      let w := s.swarm id k
      a < 64 ∧ imm < 2 ^ 32 ∧ ((fn = 0 ∧ imm = 0 ∧ m = w.ureg a) ∨ (fn = 1 ∧ a = 0 ∧ m = imm)) ∧ s.stands id k (iWord 0x54 0 fn 0 a imm) true false =
        true ∧ w.modeFits m = true ∧ (s.cell id).matrixBusy k = true) ∧
    (∃ (s : State) (cell : BitVec 10) (slot : BitVec 4) (fn a imm m : Nat),
      let id := cell.toNat
      let k := slot.toNat
      let w := s.swarm id k
      a < 64 ∧ imm < 2 ^ 32 ∧ ((fn = 0 ∧ imm = 0 ∧ m = w.ureg a) ∨ (fn = 1 ∧ a = 0 ∧ m = imm)) ∧ s.stands id k (iWord 0x54 0 fn 0 a imm) true false =
        true ∧ w.modeFits m = false ∧ s.parksAlone id k = true) ∧
    (∃ (s : State) (cell : BitVec 10) (slot : BitVec 4),
      let id := cell.toNat
      let k := slot.toNat
      let w := s.swarm id k
      ∃ (p : Word), w.shadow = some p ∧ w.st = .active ∧ s.cellRuns id = true ∧ s.modeQuiet id k = true ∧ w.asyncFaults = [] ∧ w.parkReq = none) :=
  ⟨⟨atWord 15 (iWord 0x54 0 1 0 0 0), 0, 15, 1, 0, 0, 0, by decide⟩,
   ⟨(atWord 15 (iWord 0x54 0 1 0 0 0)).modCell 0 fun c => { c with mxQueue := [{ slot := 15, token := 0, pc := 0, operand := 0, mode := 0 }] }, 0, 15, 1, 0, 0, 0, by decide⟩,
   ⟨atWord 15 (iWord 0x54 0 1 0 0 0xFFFFFFFF), 0, 15, 1, 0, 0xFFFFFFFF, 0xFFFFFFFF, by decide⟩,
   ⟨(atWord 15 0).modSwarm 0 15 fun w => { w with shadow := some 0 }, 0, 15, 0, by decide⟩⟩

/-- The hypotheses of every clause of FencesAndWaits are met. -/
theorem wit_fencesAndWaits :
    (∃ (s : State) (cell : BitVec 10) (slot : BitVec 4),
      let id := cell.toNat
      let k := slot.toNat
      s.stands id k (rWord 0x55 0 0 0 0 0 0) true false = true) ∧
    (∃ (s : State) (cell : BitVec 10) (slot : BitVec 4),
      let id := cell.toNat
      let k := slot.toNat
      s.stands id k (rWord 0x55 0 1 0 0 0 0) true false = true ∧ (∀ p ∈ s.pkts, p.isOf id k = true → 1 < p.origin.scope)) ∧
    (∃ (s : State) (cell : BitVec 10) (slot : BitVec 4),
      let id := cell.toNat
      let k := slot.toNat
      s.stands id k (rWord 0x55 0 1 0 0 0 0) true false = true ∧ (∃ p ∈ s.pkts, p.isOf id k = true ∧ p.origin.scope ≤ 1)) ∧
    (∃ (s : State) (cell : BitVec 10) (slot : BitVec 4),
      let id := cell.toNat
      let k := slot.toNat
      s.stands id k (rWord 0x55 0 2 0 0 0 0) true false = true ∧ (∀ p ∈ s.pkts, p.isOf id k = true → 2 < p.origin.scope)) ∧
    (∃ (s : State) (cell : BitVec 10) (slot : BitVec 4),
      let id := cell.toNat
      let k := slot.toNat
      s.stands id k (rWord 0x55 0 2 0 0 0 0) true false = true ∧ (∃ p ∈ s.pkts, p.isOf id k = true ∧ p.origin.scope ≤ 2)) ∧
    (∃ (s : State) (cell : BitVec 10) (slot : BitVec 4) (tokens : Nat),
      let id := cell.toNat
      let k := slot.toNat
      let w := s.swarm id k
      tokens < 2 ^ 16 ∧ s.stands id k (iWord 0x56 0 0 0 0 tokens) true false = true ∧ (∀ i, i < 16 → bitAt tokens i = true → w.token i = 0)) ∧
    (∃ (s : State) (cell : BitVec 10) (slot : BitVec 4) (tokens : Nat),
      let id := cell.toNat
      let k := slot.toNat
      let w := s.swarm id k
      tokens < 2 ^ 16 ∧ s.stands id k (iWord 0x56 0 0 0 0 tokens) true false = true ∧ (∃ i, i < 16 ∧ bitAt tokens i = true ∧ w.token i ≠ 0)) :=
  ⟨⟨atWord 15 (rWord 0x55 0 0 0 0 0 0), 0, 15, by decide⟩,
   ⟨atWord 15 (rWord 0x55 0 1 0 0 0 0), 0, 15, by decide⟩,
   ⟨{ atWord 15 (rWord 0x55 0 1 0 0 0 0) with pkts := [hbmRequest 0 15 0 1 0 []] }, 0, 15, by decide⟩,
   ⟨atWord 15 (rWord 0x55 0 2 0 0 0 0), 0, 15, by decide⟩,
   ⟨{ atWord 15 (rWord 0x55 0 2 0 0 0 0) with pkts := [hbmRequest 0 15 (2 ^ 39 - 8) 1 0 []] }, 0, 15, by decide⟩,
   ⟨atWord 15 (iWord 0x56 0 0 0 0 0xFFFF), 0, 15, 0xFFFF, by decide⟩,
   ⟨(atWord 15 (iWord 0x56 0 0 0 0 0xFFFF)).modSwarm 0 15 fun w => { w with tokens := [(15, 1)] }, 0, 15, 0xFFFF, by decide⟩⟩

/-- The hypotheses of every clause of ExitBreakRelease are met. -/
theorem wit_exitBreakRelease :
    (∃ (s : State) (cell : BitVec 10) (slot : BitVec 4),
      let id := cell.toNat
      let k := slot.toNat
      s.stands id k (rWord 0x57 0 0 0 0 0 0) true false = true ∧ (k ≠ 0 ∨ (s.cell id).supervised = [])) ∧
    (∃ (s : State) (cell : BitVec 10) (slot : BitVec 4),
      let id := cell.toNat
      let k := slot.toNat
      s.stands id k (rWord 0x58 0 0 0 0 0 0) true false = true ∧ s.parksAlone id k = true) ∧
    (∃ (s : State) (cell : BitVec 10) (slot : BitVec 4),
      let id := cell.toNat
      let k := slot.toNat
      let w := s.swarm id k
      w.st = .exiting ∧ s.drained id k = true) ∧
    (∃ (s : State) (cell : BitVec 10) (slot : BitVec 4),
      let id := cell.toNat
      let k := slot.toNat
      let w := s.swarm id k
      ∃ (d : Nat), w.parkReq = some d ∧ d < 2 ^ 64 ∧ w.st = .active ∧ w.mem = none ∧ w.reissue = none ∧ w.asyncFaults = [] ∧ (d = 1 ∨ s.parksAlone id
        k = true)) :=
  ⟨⟨atWord 15 (rWord 0x57 0 0 0 0 0 0), 0, 15, by decide⟩,
   ⟨atWord 15 (rWord 0x58 0 0 0 0 0 0), 0, 15, by decide⟩,
   ⟨(atWord 15 0).modSwarm 0 15 fun w => { w with st := .exiting }, 0, 15, by decide⟩,
   ⟨(atWord 15 0).modSwarm 0 15 fun w => { w with parkReq := some 0xFFFFFFFFFFFFFFFF }, 0, 15, 0xFFFFFFFFFFFFFFFF, by decide⟩⟩

/-- The hypotheses of every clause of ParkRecord are met. -/
theorem wit_parkRecord :
    (∃ (s : State) (id k : Nat) (p : Park) (pc : Nat),
      let w := s.swarm id k
      s.parksAlone id k = true ∧ k < 16 ∧ p.code < 2 ^ 16 ∧ p.insn < 2 ^ 64 ∧ p.lanes < 2 ^ 32 ∧ p.addr < 2 ^ 64 ∧ pc < 2 ^ 64 ∧ p.detail < 2 ^ 64 ∧
        w.branchPc < 2 ^ 64 ∧ w.slotNext < 2 ^ 64 ∧ w.inSlot = true) ∧
    (∃ (s : State) (id k : Nat) (p : Park) (pc : Nat),
      let w := s.swarm id k
      ∃ (m : Word), s.parksAlone id k = true ∧ k < 16 ∧ p.code < 2 ^ 16 ∧ p.insn < 2 ^ 64 ∧ p.lanes < 2 ^ 32 ∧ p.addr < 2 ^ 64 ∧ pc < 2 ^ 64 ∧
        p.detail < 2 ^ 64 ∧ w.branchPc < 2 ^ 64 ∧ w.slotNext < 2 ^ 64 ∧ w.shadow = some m) ∧
    (∃ (s : State) (id k : Nat) (p : Park) (pc : Nat),
      let w := s.swarm id k
      s.parksAlone id k = true ∧ k < 16 ∧ p.code < 2 ^ 16 ∧ p.insn < 2 ^ 64 ∧ p.lanes < 2 ^ 32 ∧ p.addr < 2 ^ 64 ∧ pc < 2 ^ 64 ∧ p.detail < 2 ^ 64 ∧
        w.branchPc < 2 ^ 64 ∧ w.slotNext < 2 ^ 64 ∧ w.loop0.start < 2 ^ 32 ∧ w.loop0.stop < 2 ^ 32) ∧
    (∃ (s : State) (id k : Nat) (p : Park) (pc : Nat),
      let w := s.swarm id k
      s.parksAlone id k = true ∧ k < 16 ∧ p.code < 2 ^ 16 ∧ p.insn < 2 ^ 64 ∧ p.lanes < 2 ^ 32 ∧ p.addr < 2 ^ 64 ∧ pc < 2 ^ 64 ∧ p.detail < 2 ^ 64 ∧
        w.branchPc < 2 ^ 64 ∧ w.slotNext < 2 ^ 64 ∧ w.loop0.count < 2 ^ 32) ∧
    (∃ (s : State) (id k : Nat) (p : Park) (pc : Nat),
      let w := s.swarm id k
      ∃ (j : Nat), s.parksAlone id k = true ∧ k < 16 ∧ p.code < 2 ^ 16 ∧ p.insn < 2 ^ 64 ∧ p.lanes < 2 ^ 32 ∧ p.addr < 2 ^ 64 ∧ pc < 2 ^ 64 ∧ p.detail
        < 2 ^ 64 ∧ w.branchPc < 2 ^ 64 ∧ w.slotNext < 2 ^ 64 ∧ j ≠ k) :=
  ⟨⟨(atWord 15 0).modSwarm 0 15 fun w => { w with inSlot := true, branchPc := 0x17FFF8, slotNext := 2 ^ 64 - 8 }, 0, 15, { code := 0xFFFF, insn := 2 ^ 64 - 1, lanes := 2 ^ 32 - 1, addr := 2 ^ 64 - 1, detail := 2 ^ 64 - 1 }, 0x17FFF8, by decide⟩,
   ⟨(atWord 15 0).modSwarm 0 15 fun w => { w with shadow := some 1 }, 0, 15, { code := 0xFFFF, insn := 2 ^ 64 - 1, lanes := 2 ^ 32 - 1, addr := 2 ^ 64 - 1, detail := 2 ^ 64 - 1 }, 0x17FFF8, 1, by decide⟩,
   ⟨(atWord 15 0).modSwarm 0 15 fun w => { w with loop0 := { start := 2 ^ 32 - 1, stop := 2 ^ 32 - 1, count := 2 ^ 32 - 1 } }, 0, 15, { code := 0xFFFF, insn := 2 ^ 64 - 1, lanes := 2 ^ 32 - 1, addr := 2 ^ 64 - 1, detail := 2 ^ 64 - 1 }, 0x17FFF8, by decide⟩,
   ⟨(atWord 15 0).modSwarm 0 15 fun w => { w with loop0 := { start := 2 ^ 32 - 1, stop := 2 ^ 32 - 1, count := 2 ^ 32 - 1 } }, 0, 15, { code := 0xFFFF, insn := 2 ^ 64 - 1, lanes := 2 ^ 32 - 1, addr := 2 ^ 64 - 1, detail := 2 ^ 64 - 1 }, 0x17FFF8, by decide⟩,
   ⟨atWord 15 0, 0, 15, { code := 0xFFFF, insn := 2 ^ 64 - 1, lanes := 2 ^ 32 - 1, addr := 2 ^ 64 - 1, detail := 2 ^ 64 - 1 }, 0x17FFF8, 14, by decide⟩⟩

/-- The hypotheses of every clause of LocalLoads are met. -/
theorem wit_localLoads :
    (∃ (s : State) (cell : BitVec 10) (slot : BitVec 4) (g d a b mf rf zp sh ni sp wd : Nat) (off : Nat → Nat),
      let id := cell.toNat
      let k := slot.toNat
      let w := s.swarm id k
      let x := mWord 0x30 g 0 d a b mf rf zp sh ni sp wd
      let n := memWidth x
      let addr := fun i => (w.ureg a + if ni = 1 then 0 else w.vreg b i * 2 ^ sh) % 2 ^ 64
      let on := fun i => i < 32 ∧ bitAt (w.preg g) i = true
      g < 8 ∧ a < 64 ∧ sh < 4 ∧ ni ≤ 1 ∧ sp ≤ 1 ∧ wd ≤ 4 ∧ zp < 256 ∧ (s.cell id).lmErr = [] ∧ mf ∈ memFmts ∧ rf ∈ regFmts ∧ (mf = 0 ↔ rf = 0) ∧ (mf ≠
        4 → mf ≠ 5 → zp = 0) ∧ (mf ≠ 0 → wd = 0) ∧ (ni = 1 → b = 0) ∧ d % memRegs x = 0 ∧ w.holds (if ni = 1 then [d + memRegs x - 1] else [b,
        d + memRegs x - 1]) = true ∧ s.stands id k x false false = true ∧ (∀ i, on i → targetOf id x (addr i) = .loc (off i) ∧ off i + n ≤
        0x180000 ∧ addr i % n = 0)) ∧
    (∃ (s : State) (cell : BitVec 10) (slot : BitVec 4) (g d a zp sh ni sp wd : Nat) (off : Nat → Nat),
      let id := cell.toNat
      let k := slot.toNat
      let w := s.swarm id k
      let y := mWord 0x32 0 0 d a 0 0 0 0 0 1 sp wd
      let off := off 0
      g < 8 ∧ a < 64 ∧ sh < 4 ∧ ni ≤ 1 ∧ sp ≤ 1 ∧ wd ≤ 4 ∧ zp < 256 ∧ (s.cell id).lmErr = [] ∧ wd ≤ 3 ∧ d < 64 ∧ s.stands id k y false false = true ∧
        targetOf id y (w.ureg a) = .loc off ∧ off + 2 ^ wd ≤ 0x180000 ∧ w.ureg a % 2 ^ wd = 0) :=
  ⟨⟨(atWord 15 (mWord 0x30 7 0 252 63 0 0 0 0 0 1 0 4)).modSwarm 0 15 fun w => { w with u := [(63, 0x17FFF0)], p := [(7, 0x80000001)] }, 0, 15, 7, 252, 63, 0, 0, 0, 0, 0, 1, 0, 4, fun _ => 0x17FFF0, by (repeat' apply And.intro) <;> first | decide | exact on_lanes (by decide)⟩,
   ⟨(atWord 15 (mWord 0x32 0 0 63 63 0 0 0 0 0 1 0 3)).modSwarm 0 15 fun w => { w with u := [(63, 0x17FFF8)] }, 0, 15, 7, 63, 63, 0, 0, 1, 0, 3, fun _ => 0x17FFF8, by decide⟩⟩

/-- The hypotheses of every clause of LocalStores are met. -/
theorem wit_localStores :
    (∃ (s : State) (cell : BitVec 10) (slot : BitVec 4) (g d a b mf rf zp sh ni sp wd : Nat) (off : Nat → Nat),
      let id := cell.toNat
      let k := slot.toNat
      let w := s.swarm id k
      let x := mWord 0x31 g 0 d a b mf rf zp sh ni sp wd
      let n := memWidth x
      let addr := fun i => (w.ureg a + if ni = 1 then 0 else w.vreg b i * 2 ^ sh) % 2 ^ 64
      let on := fun i => i < 32 ∧ bitAt (w.preg g) i = true
      g < 8 ∧ a < 64 ∧ sh < 4 ∧ ni ≤ 1 ∧ sp ≤ 1 ∧ wd ≤ 4 ∧ zp < 256 ∧ (s.cell id).lmErr = [] ∧ (s.cell id).replicas = [] ∧ mf ∈ memFmts ∧ rf ∈ regFmts
        ∧ (mf = 0 ↔ rf = 0) ∧ (mf ≠ 4 → mf ≠ 5 → zp = 0) ∧ (mf ≠ 0 → wd = 0) ∧ (ni = 1 → b = 0) ∧ d % memRegs x = 0 ∧ w.holds (if ni = 1 then
        [d + memRegs x - 1] else [b, d + memRegs x - 1]) = true ∧ s.stands id k x false false = true ∧ (∀ i, on i → targetOf id x (addr i) =
        .loc (off i) ∧ off i + n ≤ 0x180000 ∧ addr i % n = 0)) ∧
    (∃ (s : State) (cell : BitVec 10) (slot : BitVec 4) (g d a zp sh ni sp wd : Nat) (off : Nat → Nat),
      let id := cell.toNat
      let k := slot.toNat
      let w := s.swarm id k
      let y := mWord 0x33 0 0 d a 0 0 0 0 0 1 sp wd
      let off := off 0
      g < 8 ∧ a < 64 ∧ sh < 4 ∧ ni ≤ 1 ∧ sp ≤ 1 ∧ wd ≤ 4 ∧ zp < 256 ∧ (s.cell id).lmErr = [] ∧ (s.cell id).replicas = [] ∧ wd ≤ 3 ∧ d < 64 ∧ s.stands
        id k y false false = true ∧ targetOf id y (w.ureg a) = .loc off ∧ off + 2 ^ wd ≤ 0x180000 ∧ w.ureg a % 2 ^ wd = 0) :=
  ⟨⟨(atWord 15 (mWord 0x31 7 0 255 63 255 5 2 255 0 0 0 0)).modSwarm 0 15 fun w => { w with u := [(63, 0x17FFFF)], p := [(7, 0x80000001)] }, 0, 15, 7, 255, 63, 255, 5, 2, 255, 0, 0, 0, 0, fun _ => 0x17FFFF, by (repeat' apply And.intro) <;> first | decide | exact on_lanes (by decide)⟩,
   ⟨(atWord 15 (mWord 0x33 0 0 63 63 0 0 0 0 0 1 0 3)).modSwarm 0 15 fun w => { w with u := [(63, 0x17FFF8)] }, 0, 15, 7, 63, 63, 0, 0, 0, 0, 3, fun _ => 0x17FFF8, by decide⟩⟩

/-- The hypotheses of every clause of LocalAtomics are met. -/
theorem wit_localAtomics :
    (∃ (s : State) (cell : BitVec 10) (slot : BitVec 4) (g op fetch d a b sh ni sp wd : Nat) (off : Nat → Nat),
      let id := cell.toNat
      let k := slot.toNat
      let w := s.swarm id k
      let x := mWord 0x34 g (op + 8 * fetch) d a b 0 0 0 sh ni sp wd
      let n := 2 ^ wd
      let addr := fun i => (w.ureg a + if ni = 1 then 0 else w.vreg b i * 2 ^ sh) % 2 ^ 64
      let on := fun i : Nat => bitAt (w.preg g) i
      g < 8 ∧ op < 8 ∧ fetch ≤ 1 ∧ a < 64 ∧ sh < 4 ∧ ni ≤ 1 ∧ sp ≤ 1 ∧ (wd = 2 ∨ wd = 3) ∧ (wd = 3 → d % 2 = 0) ∧ (ni = 1 → b = 0) ∧ w.holds (if ni =
        1 then [d + wd - 2] else [b, d + wd - 2]) = true ∧ (s.cell id).lmErr = [] ∧ (s.cell id).replicas = [] ∧ s.stands id k x false false =
        true ∧ (∀ i, i < 32 → on i = true → targetOf id x (addr i) = .loc (off i) ∧ off i + n ≤ 0x180000 ∧ addr i % n = 0 ∧ off i % n = 0)) ∧
    (∃ (n : Nat), (n = 32 ∨ n = 64)) :=
  ⟨⟨(atWord 15 (mWord 0x34 7 (7 + 8 * 1) 254 63 255 0 0 0 0 0 0 3)).modSwarm 0 15 fun w => { w with u := [(63, 0x17FFF8)], p := [(7, 0x80000001)] }, 0, 15, 7, 7, 1, 254, 63, 255, 0, 0, 0, 3, fun _ => 0x17FFF8, by decide⟩,
   ⟨64, by decide⟩⟩

/-- The hypotheses of every clause of RemoteAndRegionAccess are met. -/
theorem wit_remoteAndRegionAccess :
    (∃ (s : State) (cell : BitVec 10) (slot : BitVec 4) (d a wd : Nat),
      let id := cell.toNat
      let k := slot.toNat
      let w := s.swarm id k
      let st := mWord 0x33 0 0 d a 0 0 0 0 0 1 1 wd
      let addr := w.ureg a
      let n := 2 ^ wd
      ∃ (j o : Nat), d < 64 ∧ a < 64 ∧ wd ≤ 3 ∧ addr % n = 0 ∧ s.stands id k st false false = true ∧ j ≠ id ∧ isLogical j = true ∧ placeOf addr =
        .window j o ∧ o + n ≤ 0x180000) ∧
    (∃ (s : State) (cell : BitVec 10) (slot : BitVec 4) (d a wd : Nat) (e : Desc),
      let id := cell.toNat
      let k := slot.toNat
      let w := s.swarm id k
      let ld := mWord 0x32 0 0 d a 0 0 0 0 0 1 1 wd
      let addr := w.ureg a
      let n := 2 ^ wd
      d < 64 ∧ a < 64 ∧ wd ≤ 3 ∧ addr % n = 0 ∧ addr < 2 ^ 39 ∧ addr + n ≤ e.start + e.size ∧ e.host = false ∧ e.noSnoop = false ∧ e.relaxed = false ∧
        e.read = true ∧ s.stands id k ld false false = true ∧ s.cover id w.ctx [] addr = .region e) ∧
    (∃ (s : State) (cell : BitVec 10) (slot : BitVec 4) (d a wd : Nat) (e : Desc),
      let id := cell.toNat
      let k := slot.toNat
      let w := s.swarm id k
      let st := mWord 0x33 0 0 d a 0 0 0 0 0 1 1 wd
      let addr := w.ureg a
      let n := 2 ^ wd
      d < 64 ∧ a < 64 ∧ wd ≤ 3 ∧ addr % n = 0 ∧ addr < 2 ^ 39 ∧ addr + n ≤ e.start + e.size ∧ e.host = false ∧ e.noSnoop = false ∧ e.relaxed = false ∧
        e.write = true ∧ s.stands id k st false false = true ∧ s.cover id w.ctx [] addr = .region e) ∧
    (∃ (s : State) (cell : BitVec 10) (slot : BitVec 4) (d a wd : Nat) (e : Desc),
      let id := cell.toNat
      let k := slot.toNat
      let w := s.swarm id k
      let ld := mWord 0x32 0 0 d a 0 0 0 0 0 1 1 wd
      let addr := w.ureg a
      let n := 2 ^ wd
      d < 64 ∧ a < 64 ∧ wd ≤ 3 ∧ addr % n = 0 ∧ addr < 2 ^ 39 ∧ addr + n ≤ e.start + e.size ∧ e.host = false ∧ e.noSnoop = false ∧ e.relaxed = false ∧
        s.stands id k ld false false = true ∧ (s.cell id).regionFor w.ctx addr = none ∧ s.rd (Reg.dispRegionRootWalkEn (chOf id)) = 1) ∧
    (∃ (s : State) (cell : BitVec 10) (slot : BitVec 4) (d a wd : Nat) (e : Desc),
      let id := cell.toNat
      let k := slot.toNat
      let w := s.swarm id k
      let ld := mWord 0x32 0 0 d a 0 0 0 0 0 1 1 wd
      let st := mWord 0x33 0 0 d a 0 0 0 0 0 1 1 wd
      let addr := w.ureg a
      let n := 2 ^ wd
      ∃ (p : Nat), d < 64 ∧ a < 64 ∧ wd ≤ 3 ∧ addr % n = 0 ∧ addr < 2 ^ 39 ∧ addr + n ≤ e.start + e.size ∧ e.host = false ∧ e.noSnoop = false ∧
        e.relaxed = false ∧ e.read = true ∧ e.has addr = true ∧ s.cellRuns id = true ∧ w.st = .active ∧ w.mem = some { insn := ld } ∧ (s.cell
        id).regionFor w.ctx addr = none ∧ s.rd (Reg.dispRegionRootWalkEn (chOf id)) = 1 ∧ s.cellWalk id addr = (s.incr
        (Reg.cellRegionStatusWalks (s.phys id)), { granule := addr / 2 ^ 21, desc := some (e, p) })) :=
  ⟨⟨setu (atWord 15 (mWord 0x33 0 0 63 62 0 0 0 0 0 1 1 3)) 15 62 (0x010000000000 + 2 ^ 21 + 0x17FFF8), 0, 15, 63, 62, 3, 1, 0x17FFF8, by decide⟩,
   ⟨((setu (atWord 15 (mWord 0x32 0 0 63 62 0 0 0 0 0 1 1 3)) 15 62 (2 ^ 39 - 8)).modSwarm 0 15 fun w => { w with ctx := some 5 }).modCell 0 fun c => { c with regions := [{ desc := { start := 2 ^ 39 - 64, size := 64, target := 0, flags := 7 }, addr := 0, ctx := 5, num := 0 }] }, 0, 15, 63, 62, 3, { start := 2 ^ 39 - 64, size := 64, target := 0, flags := 7 }, by decide⟩,
   ⟨((setu (atWord 15 (mWord 0x33 0 0 63 62 0 0 0 0 0 1 1 3)) 15 62 (2 ^ 39 - 8)).modSwarm 0 15 fun w => { w with ctx := some 5 }).modCell 0 fun c => { c with regions := [{ desc := { start := 2 ^ 39 - 64, size := 64, target := 0, flags := 7 }, addr := 0, ctx := 5, num := 0 }] }, 0, 15, 63, 62, 3, { start := 2 ^ 39 - 64, size := 64, target := 0, flags := 7 }, by decide⟩,
   ⟨(setu (atWord 15 (mWord 0x32 0 0 63 62 0 0 0 0 0 1 1 3)) 15 62 (2 ^ 39 - 8)).wr (Reg.dispRegionRootWalkEn 0) 1, 0, 15, 63, 62, 3, { start := 2 ^ 39 - 64, size := 64, target := 0, flags := 7 }, by decide⟩,
   ⟨poke (poke (poke (poke ((((((setu (atWord 15 0) 15 62 (2 ^ 39 - 8)).wr (Reg.dispRegionRootWalkEn 0) 1).wr (Reg.memStatusPresent 0) 1).wr (Reg.memStatusPresent 1) 1).wr (Reg.dispRegionRootRoot 0) 4096).modSwarm 0 15 fun w => { w with mem := some { insn := mWord 0x32 0 0 63 62 0 0 0 0 0 1 1 3 } }) (4096 + 8 * bits (2 ^ 39 - 8) 39 13) 8 (2 ^ 21 + 1)) (2 ^ 21 + 8 * bits (2 ^ 39 - 8) 21 18) 8 (2 ^ 22 + 1)) (2 ^ 22) 16 (2 ^ 39 - 64 + 64 * 2 ^ 64)) (2 ^ 22 + 24) 1 7, 0, 15, 63, 62, 3, { start := 2 ^ 39 - 64, size := 64, target := 0, flags := 7 }, 2 ^ 22, by decide⟩⟩

/-- The hypotheses of every clause of MemoryFaults are met. -/
theorem wit_memoryFaults :
    (∃ (s : State) (cell : BitVec 10) (slot : BitVec 4) (i : Instr) (op g fn d a b sh ni sp wd lane : Nat) (off : Nat → Nat),
      let id := cell.toNat
      let k := slot.toNat
      let w := s.swarm id k
      let x := mWord op g fn d a b 0 0 0 sh ni sp wd
      let n := 2 ^ wd
      let addr := fun i => (w.ureg a + if ni = 1 then 0 else w.vreg b i * 2 ^ sh) % 2 ^ 64
      let on := fun i : Nat => bitAt (w.preg g) i
      let past := fun i => decide (0x180000 < off i + n)
      let first := fun (bad : Nat → Bool) => lane < 32 ∧ on lane = true ∧ bad lane = true ∧ ∀ j, j < lane → on j = true → bad j = false
      ((i = .ld cell slot ∧ op = 0x30 ∧ fn = 0) ∨ (i = .st cell slot ∧ op = 0x31 ∧ fn = 0) ∨ (i = .atom cell slot ∧ op = 0x34 ∧ fn < 16 ∧ (wd = 2 ∨ wd
        = 3))) ∧ g < 8 ∧ a < 64 ∧ sh < 4 ∧ ni ≤ 1 ∧ sp ≤ 1 ∧ wd ≤ 4 ∧ (ni = 1 → b = 0) ∧ d % memRegs x = 0 ∧ w.holds (if ni = 1 then [d +
        memRegs x - 1] else [b, d + memRegs x - 1]) = true ∧ s.stands id k x false false = true ∧ s.parksAlone id k = true ∧ (∀ i, i < 32 → on
        i = true → targetOf id x (addr i) = .loc (off i)) ∧ first past) ∧
    (∃ (s : State) (cell : BitVec 10) (slot : BitVec 4) (i : Instr) (op g fn d a b sh ni sp wd lane : Nat) (off : Nat → Nat),
      let id := cell.toNat
      let k := slot.toNat
      let w := s.swarm id k
      let x := mWord op g fn d a b 0 0 0 sh ni sp wd
      let n := 2 ^ wd
      let addr := fun i => (w.ureg a + if ni = 1 then 0 else w.vreg b i * 2 ^ sh) % 2 ^ 64
      let on := fun i : Nat => bitAt (w.preg g) i
      let past := fun i => decide (0x180000 < off i + n)
      let odd := fun i => addr i % n != 0
      let first := fun (bad : Nat → Bool) => lane < 32 ∧ on lane = true ∧ bad lane = true ∧ ∀ j, j < lane → on j = true → bad j = false
      ((i = .ld cell slot ∧ op = 0x30 ∧ fn = 0) ∨ (i = .st cell slot ∧ op = 0x31 ∧ fn = 0) ∨ (i = .atom cell slot ∧ op = 0x34 ∧ fn < 16 ∧ (wd = 2 ∨ wd
        = 3))) ∧ g < 8 ∧ a < 64 ∧ sh < 4 ∧ ni ≤ 1 ∧ sp ≤ 1 ∧ wd ≤ 4 ∧ (ni = 1 → b = 0) ∧ d % memRegs x = 0 ∧ w.holds (if ni = 1 then [d +
        memRegs x - 1] else [b, d + memRegs x - 1]) = true ∧ s.stands id k x false false = true ∧ s.parksAlone id k = true ∧ (∀ i, i < 32 → on
        i = true → targetOf id x (addr i) = .loc (off i)) ∧ (∀ i, i < 32 → on i = true → past i = false) ∧ first odd) :=
  ⟨⟨(atWord 15 (mWord 0x30 7 0 252 63 255 0 0 0 0 0 0 4)).modSwarm 0 15 fun w => { w with u := [(63, 0x17FFF8)], p := [(7, 0x80000000)] }, 0, 15, .ld 0 15, 0x30, 7, 0, 252, 63, 255, 0, 0, 0, 4, 31, fun _ => 0x17FFF8, by decide⟩,
   ⟨(atWord 15 (mWord 0x34 7 15 252 63 255 0 0 0 0 0 0 3)).modSwarm 0 15 fun w => { w with u := [(63, 0x17FFF7)], p := [(7, 0x80000000)] }, 0, 15, .atom 0 15, 0x34, 7, 15, 252, 63, 255, 0, 0, 0, 3, 31, fun _ => 0x17FFF7, by decide⟩⟩

/-- The hypotheses of every clause of SendMessages are met. -/
theorem wit_sendMessages :
    (∃ (s : State) (cell : BitVec 10) (slot : BitVec 4) (fn a b c : Nat),
      let id := cell.toNat
      let k := slot.toNat
      let w := s.swarm id k
      let target := w.ureg a
      let off := w.ureg b
      let len := w.ureg c
      a < 64 ∧ b < 64 ∧ c < 64 ∧ s.stands id k (rWord 0x38 0 fn 0 a b c) false false = true ∧ fn = 0 ∧ (s.cell id).lmErr = [] ∧ s.sendCheck id target
        off len false = 0) ∧
    (∃ (s : State) (cell : BitVec 10) (slot : BitVec 4) (fn a b c : Nat) (e : Bytes),
      let id := cell.toNat
      let k := slot.toNat
      let w := s.swarm id k
      let target := w.ureg a
      let off := w.ureg b
      let len := w.ureg c
      let route := bits target 32 8
      let used := fun (t : State) d => sget 0 (t.cell id).creditUsed (creditKey route d)
      a < 64 ∧ b < 64 ∧ c < 64 ∧ s.stands id k (rWord 0x38 0 fn 0 a b c) false false = true ∧ fn = 1 ∧ (s.cell id).lmErr = [] ∧ s.sendCheck id target
        off len true = 0 ∧ s.routeOf (chOf id) route = some e ∧ (∀ d ∈ routeDests e, used s d < routeDepth e)) ∧
    (∃ (s : State) (cell : BitVec 10) (slot : BitVec 4) (fn a b c : Nat) (e : Bytes),
      let id := cell.toNat
      let k := slot.toNat
      let w := s.swarm id k
      let target := w.ureg a
      let off := w.ureg b
      let len := w.ureg c
      let route := bits target 32 8
      let used := fun (t : State) d => sget 0 (t.cell id).creditUsed (creditKey route d)
      a < 64 ∧ b < 64 ∧ c < 64 ∧ s.stands id k (rWord 0x38 0 fn 0 a b c) false false = true ∧ fn = 1 ∧ (s.cell id).lmErr = [] ∧ s.sendCheck id target
        off len true = 0 ∧ s.routeOf (chOf id) route = some e ∧ (∃ d ∈ routeDests e, routeDepth e ≤ used s d)) ∧
    (∃ (s : State) (cell : BitVec 10) (slot : BitVec 4) (fn a b c : Nat),
      let id := cell.toNat
      let k := slot.toNat
      let w := s.swarm id k
      let target := w.ureg a
      let off := w.ureg b
      let len := w.ureg c
      ∃ (i : Instr), a < 64 ∧ b < 64 ∧ c < 64 ∧ s.stands id k (rWord 0x38 0 fn 0 a b c) false false = true ∧ ((i = .sendDynamic cell slot ∧ fn = 0) ∨
        (i = .sendStatic cell slot ∧ fn = 1)) ∧ s.sendCheck id target off len (fn == 1) ≠ 0 ∧ s.parksAlone id k = true) ∧
    (∃ (s : State) (id t : Nat) (st : Bool),
      let mine := ∃ e, s.routeOf (chOf id) (bits t 32 8) = some e ∧ fieldLE e 8 2 = id
      s.badTarget t st = false ∧ st = true ∧ ¬ mine) ∧
    (∃ (s : State) (id t off len : Nat) (st : Bool),
      let mine := ∃ e, s.routeOf (chOf id) (bits t 32 8) = some e ∧ fieldLE e 8 2 = id
      s.badTarget t st = false ∧ (st = true → mine) ∧ len ≤ 512 ∧ len % 8 = 0 ∧ off % 8 = 0 ∧ off + len ≤ 0x180000) ∧
    (∃ (t : Nat), bits t 0 3 = 0 ∧ isLogical (bits t 8 10) = false) ∧
    (∃ (t : Nat) (st : Bool), st = true ∧ bits t 0 3 ≠ 0) ∧
    (∃ (t : Nat) (st : Bool), st = false ∧ bits t 32 8 ≠ 0) ∧
    (∃ (t : Nat), 4 ≤ bits t 0 3) :=
  ⟨⟨setu (setu (setu (atWord 15 (rWord 0x38 0 0 0 61 62 63)) 15 61 (0x3BB * 2 ^ 8 + 255 * 2 ^ 24 + 0xFFFF * 2 ^ 48)) 15 62 (0x180000 - 512)) 15 63 512, 0, 15, 0, 61, 62, 63, by decide⟩,
   ⟨withRoutes (setu (setu (setu (atWord 15 (rWord 0x38 0 1 0 61 62 63)) 15 61 (255 * 2 ^ 24 + 255 * 2 ^ 32)) 15 62 (0x180000 - 512)) 15 63 512) [routeBytes 0 255 0 11 11 11 11 0 255], 0, 15, 1, 61, 62, 63, routeBytes 0 255 0 11 11 11 11 0 255, by decide⟩,
   ⟨(withRoutes (setu (setu (setu (atWord 15 (rWord 0x38 0 1 0 61 62 63)) 15 61 (255 * 2 ^ 24 + 255 * 2 ^ 32)) 15 62 (0x180000 - 512)) 15 63 512) [routeBytes 0 255 0 11 11 11 11 0 255]).modCell 0 fun c => { c with creditUsed := [(creditKey 255 0xBB, 255)] }, 0, 15, 1, 61, 62, 63, routeBytes 0 255 0 11 11 11 11 0 255, by decide⟩,
   ⟨setu (setu (setu (atWord 15 (rWord 0x38 0 1 0 61 62 63)) 15 61 (255 * 2 ^ 24 + 255 * 2 ^ 32)) 15 62 (0x180000 - 512)) 15 63 512, 0, 15, 1, 61, 62, 63, .sendStatic 0 15, by decide⟩,
   ⟨State.reset, 0, 255 * 2 ^ 32, true, by exact ⟨by decide, rfl, by rintro ⟨e, h, -⟩; exact absurd (Option.isSome_iff_exists.2 ⟨e, h⟩) (by decide)⟩⟩,
   ⟨State.reset, 0, 0, 0x180000 - 512, 512, false, by exact ⟨by decide, (fun h => nomatch h), by decide, by decide, by decide, by decide⟩⟩,
   ⟨0xBC * 2 ^ 8, by decide⟩,
   ⟨3, true, by decide⟩,
   ⟨255 * 2 ^ 32, false, by decide⟩,
   ⟨4, by decide⟩⟩

/-- The hypotheses of every clause of ReceiveMessages are met. -/
theorem wit_receiveMessages :
    (∃ (s : State) (cell : BitVec 10) (slot : BitVec 4) (fn d a b c base n : Nat),
      let id := cell.toNat
      let k := slot.toNat
      let w := s.swarm id k
      let m := w.ureg b
      let buf := w.ureg a
      ∃ (i : Instr) (g : RingMsg), fn ≤ 1 ∧ d < 64 ∧ a < 64 ∧ b < 64 ∧ c < 4 ∧ (fn = 0 → c = 0) ∧ badMatch m buf = false ∧ s.ringOf id = some (base,
        n) ∧ s.stands id k (rWord 0x39 0 fn d a b c) false false = true ∧ ((fn = 0 ∧ i = .recvWait cell slot) ∨ (fn = 1 ∧ i = .recvPoll cell
        slot)) ∧ (s.cell id).ring.find? (fun g => g.fits m) = some g ∧ (s.cell id).lmErr = [] ∧ (s.cell id).inReplica buf g.len = false) ∧
    (∃ (s : State) (cell : BitVec 10) (slot : BitVec 4) (fn d a b c base n : Nat),
      let id := cell.toNat
      let k := slot.toNat
      let w := s.swarm id k
      let m := w.ureg b
      let buf := w.ureg a
      fn ≤ 1 ∧ d < 64 ∧ a < 64 ∧ b < 64 ∧ c < 4 ∧ (fn = 0 → c = 0) ∧ badMatch m buf = false ∧ s.ringOf id = some (base, n) ∧ s.stands id k (rWord 0x39
        0 fn d a b c) false false = true ∧ (s.cell id).ring.find? (fun g => g.fits m) = none ∧ fn = 0) ∧
    (∃ (s : State) (cell : BitVec 10) (slot : BitVec 4) (fn d a b c base n : Nat),
      let id := cell.toNat
      let k := slot.toNat
      let w := s.swarm id k
      let m := w.ureg b
      let buf := w.ureg a
      fn ≤ 1 ∧ d < 64 ∧ a < 64 ∧ b < 64 ∧ c < 4 ∧ (fn = 0 → c = 0) ∧ badMatch m buf = false ∧ s.ringOf id = some (base, n) ∧ s.stands id k (rWord 0x39
        0 fn d a b c) false false = true ∧ (s.cell id).ring.find? (fun g => g.fits m) = none ∧ fn = 1) :=
  ⟨⟨(withRoutes (setu (setu (atWord 15 (rWord 0x39 0 0 61 62 63 0)) 15 62 (0x180000 - 512)) 15 63 (2 ^ 63)) [routeBytes 1 0 0 0 11 0 11 0x17FDF0 255]).modCell 0 fun c => { c with ring := [{ slot := 254, header := BitVec.ofNat 64 (2 ^ 15 + 512 * 2 ^ 32) }] }, 0, 15, 0, 61, 62, 63, 0, 0x17FDF0, 255, .recvWait 0 15, { slot := 254, header := BitVec.ofNat 64 (2 ^ 15 + 512 * 2 ^ 32) }, by decide⟩,
   ⟨(withRoutes (setu (setu (atWord 15 (rWord 0x39 0 0 61 62 63 0)) 15 62 (0x180000 - 512)) 15 63 0) [routeBytes 1 0 0 0 11 0 11 0x17FDF0 255]).modCell 0 fun c => { c with ring := [{ slot := 254, header := 1 }] }, 0, 15, 0, 61, 62, 63, 0, 0x17FDF0, 255, by decide⟩,
   ⟨(withRoutes (setu (setu (atWord 15 (rWord 0x39 0 1 61 62 63 3)) 15 62 (0x180000 - 512)) 15 63 0) [routeBytes 1 0 0 0 11 0 11 0x17FDF0 255]).modCell 0 fun c => { c with ring := [{ slot := 254, header := 1 }] }, 0, 15, 1, 61, 62, 63, 3, 0x17FDF0, 255, by decide⟩⟩

/-- The hypotheses of every clause of RequestPackets are met. -/
theorem wit_requestPackets :
    (∃ (s : State) (i id : Nat) (p : Packet),
      ∃ (c : Instr), p.dst = .cell id ∧ p.route = none ∧ ((c = .storePacket i .none ∧ s.arriving i [.store] = some p) ∨ (c = .atomicPacket i .none ∧
        s.arriving i [.atomic] = some p)) ∧ s.cellInReset id = true) ∧
    (∃ (s : State) (i id : Nat) (p : Packet),
      let n := p.payload.length
      ∃ (c : Instr),
      let off := if p.kind = .atomic then bits p.arg.toNat 0 21 else p.arg.toNat
      p.dst = .cell id ∧ p.route = none ∧ ((c = .storePacket i .none ∧ s.arriving i [.store] = some p) ∨ (c = .atomicPacket i .none ∧ s.arriving i
        [.atomic] = some p)) ∧ s.cellInReset id = false ∧ (s.cell id).inReplica off n = true) ∧
    (∃ (s : State) (i id : Nat) (p : Packet),
      let n := p.payload.length
      p.dst = .cell id ∧ p.route = none ∧ s.arriving i [.store] = some p ∧ s.cellInReset id = false ∧ (s.cell id).inReplica p.arg.toNat n = false ∧
        (s.cell id).lmErr = []) ∧
    (∃ (s : State) (i id : Nat) (p : Packet),
      let n := p.payload.length
      let off := bits p.arg.toNat 0 21
      p.dst = .cell id ∧ p.route = none ∧ s.arriving i [.atomic] = some p ∧ s.cellInReset id = false ∧ (s.cell id).inReplica off n = false ∧ (s.cell
        id).lmErr = []) ∧
    (∃ (s : State) (i id : Nat) (p : Packet),
      let n := p.payload.length
      ∃ (base slots k : Nat),
      let at_ := base + 528 * k
      p.dst = .cell id ∧ p.route = none ∧ s.arriving i [.msg] = some p ∧ s.cellInReset id = false ∧ s.ringOf id = some (base, slots) ∧ s.ringReserved
        id < slots ∧ s.ringRoom id slots = true ∧ (s.cell id).freeRing slots = some k ∧ (s.cell id).inReplica at_ (16 + n) = false) ∧
    (∃ (s : State) (i id : Nat) (p : Packet),
      ∃ (base slots : Nat), p.dst = .cell id ∧ p.route = none ∧ s.arriving i [.msg] = some p ∧ s.cellInReset id = false ∧ s.ringOf id = some (base,
        slots) ∧ s.ringReserved id < slots ∧ s.ringRoom id slots = false ∧ p.waiting = false) ∧
    (∃ (s : State) (i id : Nat) (p : Packet), p.dst = .cell id ∧ p.route = none ∧ s.arriving i [.msg] = some p ∧ s.cellInReset id = false ∧ s.ringOf
        id = none ∧ p.waiting = false) :=
  ⟨⟨{ inFlight { kind := .store, src := .cell 0, dst := .cell 0xBB, arg := 0x17FFF0, payload := zeros 16 } with pwr := { resetCell := some 0xBB } }, 1, 0xBB, { kind := .store, src := .cell 0, dst := .cell 0xBB, arg := 0x17FFF0, payload := zeros 16 }, .storePacket 1 .none, by decide⟩,
   ⟨(inFlight { kind := .atomic, src := .cell 0, dst := .cell 0xBB, arg := 0x17FFF8, payload := zeros 8 }).modCell 0xBB fun c => { c with replicas := [⟨0, 0x17FFFF, 1⟩] }, 1, 0xBB, { kind := .atomic, src := .cell 0, dst := .cell 0xBB, arg := 0x17FFF8, payload := zeros 8 }, .atomicPacket 1 .none, by decide⟩,
   ⟨inFlight { kind := .store, src := .cell 0, dst := .cell 0xBB, arg := 0x17FFF0, payload := zeros 16 }, 1, 0xBB, { kind := .store, src := .cell 0, dst := .cell 0xBB, arg := 0x17FFF0, payload := zeros 16 }, by decide⟩,
   ⟨inFlight { kind := .atomic, src := .cell 0, dst := .cell 0xBB, arg := 0x17FFF8, payload := zeros 8 }, 1, 0xBB, { kind := .atomic, src := .cell 0, dst := .cell 0xBB, arg := 0x17FFF8, payload := zeros 8 }, by decide⟩,
   ⟨withRoutes (inFlight { kind := .msg, src := .cell 0, dst := .cell 0xBB, arg := 8 * 2 ^ 32, payload := zeros 8 }) [routeBytes 1 0 0 0 11 0 11 0x17FDF0 1], 1, 0xBB, { kind := .msg, src := .cell 0, dst := .cell 0xBB, arg := 8 * 2 ^ 32, payload := zeros 8 }, 0x17FDF0, 1, 0, by decide⟩,
   ⟨(withRoutes (inFlight { kind := .msg, src := .cell 0, dst := .cell 0xBB, arg := 8 * 2 ^ 32, payload := zeros 8 }) [routeBytes 1 0 0 0 11 0 11 0x17FDF0 1]).modCell 0xBB fun c => { c with ring := [⟨0, 0⟩] }, 1, 0xBB, { kind := .msg, src := .cell 0, dst := .cell 0xBB, arg := 8 * 2 ^ 32, payload := zeros 8 }, 0x17FDF0, 1, by decide⟩,
   ⟨inFlight { kind := .msg, src := .cell 0, dst := .cell 0xBB, arg := 8 * 2 ^ 32, payload := zeros 8 }, 1, 0xBB, { kind := .msg, src := .cell 0, dst := .cell 0xBB, arg := 8 * 2 ^ 32, payload := zeros 8 }, by decide⟩⟩

/-- The hypotheses of every clause of AnswerPackets are met. -/
theorem wit_answerPackets :
    (∃ (s : State) (i id : Nat) (p : Packet), p.dst = .cell id ∧ s.arriving i [.ack] = some p) ∧
    (∃ (s : State) (i id : Nat) (p : Packet), p.dst = .cell id ∧ s.arriving i [.refuse] = some p ∧ (p.reqKind = .store ∨ p.reqKind = .atomic) ∧
        p.origin.fetch = []) ∧
    (∃ (s : State) (i id : Nat) (p : Packet),
      let k := p.origin.slot
      let w := s.swarm id k
      ∃ (l : List (Nat × Option Nat)), p.dst = .cell id ∧ s.arriving i [.atomicRsp] = some p ∧ p.origin.fetch = l ∧ (l.map (·.1)).Nodup ∧ (∀ e ∈ l,
        e.1 < 32) ∧ p.origin.reg ∈ w.fetching ∧ p.payload.length = 4) ∧
    (∃ (s : State) (i id : Nat) (p : Packet),
      let k := p.origin.slot
      let w := s.swarm id k
      ∃ (d a wd : Nat) (m : MemWait), p.dst = .cell id ∧ s.arriving i [.memrsp] = some p ∧ d < 64 ∧ wd ≤ 3 ∧ w.mem = some m ∧ m.insn = mWord 0x32 0 0
        d a 0 0 0 0 0 1 1 wd ∧ m.walking = false ∧ m.outstanding = [0] ∧ m.errs = [] ∧ p.origin.lane = 0 ∧ p.origin.use = 0 ∧ bits p.arg.toNat
        0 16 = 0 ∧ w.st = .active ∧ w.parkReq = none ∧ w.asyncFaults = [] ∧ targetOf id m.insn (w.ureg a) = .ext .hbm) ∧
    (∃ (s : State) (i id : Nat) (p : Packet), p.dst = .cell id ∧ s.arriving i [.memrsp] = some p ∧ p.origin.use = 1 ∧ bits p.arg.toNat 0 16 ≠ 0) ∧
    (∃ (s : State) (i id : Nat) (p : Packet),
      ∃ (dest : Nat) (e : Bytes), p.dst = .cell id ∧ s.arriving i [.credit] = some p ∧ p.src = .cell dest ∧ dest < 1024 ∧ s.routeOf (chOf id) (bits
        p.arg.toNat 0 8) = some e ∧ fieldLE e 8 2 = id ∧ dest ∈ routeDests e ∧ bitAt p.arg.toNat 8 = false) ∧
    (∃ (s : State) (i id : Nat) (p : Packet),
      ∃ (dest : Nat) (e : Bytes), p.dst = .cell id ∧ s.arriving i [.credit] = some p ∧ p.src = .cell dest ∧ dest < 1024 ∧ s.routeOf (chOf id) (bits
        p.arg.toNat 0 8) = some e ∧ fieldLE e 8 2 = id ∧ dest ∈ routeDests e ∧ bitAt p.arg.toNat 8 = true) :=
  ⟨⟨inFlight { kind := .ack, src := .cell 0, dst := .cell 0xBB }, 1, 0xBB, { kind := .ack, src := .cell 0, dst := .cell 0xBB }, by decide⟩,
   ⟨inFlight { kind := .refuse, src := .cell 0, dst := .cell 0xBB, arg := 0xC022, reqKind := .atomic }, 1, 0xBB, { kind := .refuse, src := .cell 0, dst := .cell 0xBB, arg := 0xC022, reqKind := .atomic }, by decide⟩,
   ⟨(inFlight { kind := .atomicRsp, src := .cell 0, dst := .cell 0xBB, payload := zeros 4, origin := { slot := 15, reg := 255, fetch := [(0, none), (31, some 1)] } }).modSwarm 0xBB 15 fun w => { w with fetching := [255] }, 1, 0xBB, { kind := .atomicRsp, src := .cell 0, dst := .cell 0xBB, payload := zeros 4, origin := { slot := 15, reg := 255, fetch := [(0, none), (31, some 1)] } }, [(0, none), (31, some 1)], by decide⟩,
   ⟨(inFlight { kind := .memrsp, src := .stack 7, dst := .cell 0xBB, payload := zeros 8, origin := { slot := 15 } }).modSwarm 0xBB 15 fun w => { w with st := .active, u := [(62, 2 ^ 39 - 8)], mem := some { insn := mWord 0x32 0 0 63 62 0 0 0 0 0 1 1 3, walking := false, outstanding := [0] } }, 1, 0xBB, { kind := .memrsp, src := .stack 7, dst := .cell 0xBB, payload := zeros 8, origin := { slot := 15 } }, 63, 62, 3, { insn := mWord 0x32 0 0 63 62 0 0 0 0 0 1 1 3, walking := false, outstanding := [0] }, by decide⟩,
   ⟨inFlight { kind := .memrsp, src := .stack 7, dst := .cell 0xBB, arg := 0xC024, origin := { use := 1 } }, 1, 0xBB, { kind := .memrsp, src := .stack 7, dst := .cell 0xBB, arg := 0xC024, origin := { use := 1 } }, by decide⟩,
   ⟨withRoutes (inFlight { kind := .credit, src := .cell 0xBA, dst := .cell 0xBB, arg := 255 }) [routeBytes 0 255 0 11 11 10 11 0xBB 1], 1, 0xBB, { kind := .credit, src := .cell 0xBA, dst := .cell 0xBB, arg := 255 }, 0xBA, routeBytes 0 255 0 11 11 10 11 0xBB 1, by decide⟩,
   ⟨withRoutes (inFlight { kind := .credit, src := .cell 0xBA, dst := .cell 0xBB, arg := 511 }) [routeBytes 0 255 0 11 11 10 11 0xBB 1], 1, 0xBB, { kind := .credit, src := .cell 0xBA, dst := .cell 0xBB, arg := 511 }, 0xBA, routeBytes 0 255 0 11 11 10 11 0xBB 1, by decide⟩⟩

/-- The hypotheses of every clause of MemoryRequests are met. -/
theorem wit_memoryRequests :
    (∃ (s : State) (i : Nat) (p : Packet),
      let a := bits p.arg.toNat 0 52
      let n := bits p.arg.toNat 53 9 + 1
      let write := bitAt p.arg.toNat 52
      ∃ (k : Nat), s.arriving i [.memreq] = some p ∧ p.dst = .stack k ∧ s.hbmErr = [] ∧ write = true ∧ p.payload.length = n ∧ s.absentStack a n =
        none) ∧
    (∃ (s : State) (i : Nat) (p : Packet),
      let a := bits p.arg.toNat 0 52
      let n := bits p.arg.toNat 53 9 + 1
      let write := bitAt p.arg.toNat 52
      ∃ (k : Nat), s.arriving i [.memreq] = some p ∧ p.dst = .stack k ∧ s.hbmErr = [] ∧ write = false ∧ s.absentStack a n = none) ∧
    (∃ (s : State) (i : Nat) (p : Packet),
      let a := bits p.arg.toNat 0 52
      let n := bits p.arg.toNat 53 9 + 1
      let write := bitAt p.arg.toNat 52
      ∃ (k : Nat),
      ∃ (x : Nat), s.arriving i [.memreq] = some p ∧ p.dst = .stack k ∧ s.hbmErr = [] ∧ write = false ∧ s.absentStack a n = some x) ∧
    (∃ (s : State) (i : Nat) (p : Packet),
      let write := bitAt p.arg.toNat 52
      ∃ (c : Nat), s.arriving i [.memreq] = some p ∧ p.dst = .services c ∧ write = false ∧ s.linkUp = true) ∧
    (∃ (s : State) (i : Nat) (p : Packet),
      let write := bitAt p.arg.toNat 52
      ∃ (c : Nat), s.arriving i [.memreq] = some p ∧ p.dst = .services c ∧ write = false ∧ s.linkUp = false) ∧
    (∃ (s : State) (i : Nat) (p : Packet),
      let write := bitAt p.arg.toNat 52
      ∃ (c : Nat), s.arriving i [.memreq] = some p ∧ p.dst = .services c ∧ write = true ∧ s.linkUp = true) ∧
    (∃ (s : State) (i : Nat) (p : Packet),
      ∃ (e : Nat × Bool), s.pkts[i]? = some p ∧ p.onMesh = true ∧ p.kind.isRsp = false ∧ p.route = none ∧ (s.pkts.take i).any p.sameLane = false ∧
        s.closedOn p.src.ch p.dst.ch = some e) :=
  ⟨⟨((inFlight { kind := .memreq, src := .cell 0x300, dst := .stack 7, arg := BitVec.ofNat 64 (2 ^ 39 - 8 + 2 ^ 52 + 7 * 2 ^ 53), payload := zeros 8 }).wr (Reg.memStatusPresent 7) 1), 1, { kind := .memreq, src := .cell 0x300, dst := .stack 7, arg := BitVec.ofNat 64 (2 ^ 39 - 8 + 2 ^ 52 + 7 * 2 ^ 53), payload := zeros 8 }, 7, by decide⟩,
   ⟨((inFlight { kind := .memreq, src := .cell 0x300, dst := .stack 7, arg := BitVec.ofNat 64 (2 ^ 39 - 8 + 7 * 2 ^ 53) }).wr (Reg.memStatusPresent 7) 1), 1, { kind := .memreq, src := .cell 0x300, dst := .stack 7, arg := BitVec.ofNat 64 (2 ^ 39 - 8 + 7 * 2 ^ 53) }, 7, by decide⟩,
   ⟨inFlight { kind := .memreq, src := .cell 0x300, dst := .stack 7, arg := BitVec.ofNat 64 (2 ^ 39 - 8 + 7 * 2 ^ 53) }, 1, { kind := .memreq, src := .cell 0x300, dst := .stack 7, arg := BitVec.ofNat 64 (2 ^ 39 - 8 + 7 * 2 ^ 53) }, 7, 7, by decide⟩,
   ⟨(inFlight { kind := .memreq, src := .cell 0x300, dst := .services 3, arg := BitVec.ofNat 64 (2 ^ 51 + 511 * 2 ^ 53) }).wr Reg.hostLinkSpeed 6, 1, { kind := .memreq, src := .cell 0x300, dst := .services 3, arg := BitVec.ofNat 64 (2 ^ 51 + 511 * 2 ^ 53) }, 3, by decide⟩,
   ⟨inFlight { kind := .memreq, src := .cell 0x300, dst := .services 3, arg := BitVec.ofNat 64 (2 ^ 51 + 511 * 2 ^ 53) }, 1, { kind := .memreq, src := .cell 0x300, dst := .services 3, arg := BitVec.ofNat 64 (2 ^ 51 + 511 * 2 ^ 53) }, 3, by decide⟩,
   ⟨(inFlight { kind := .memreq, src := .cell 0x300, dst := .services 3, arg := BitVec.ofNat 64 (2 ^ 52 - 8 + 2 ^ 52 + 7 * 2 ^ 53), payload := zeros 8 }).wr Reg.hostLinkSpeed 6, 1, { kind := .memreq, src := .cell 0x300, dst := .services 3, arg := BitVec.ofNat 64 (2 ^ 52 - 8 + 2 ^ 52 + 7 * 2 ^ 53), payload := zeros 8 }, 3, by decide⟩,
   ⟨inFlight { kind := .memreq, src := .cell 0, dst := .stack 7, arg := 0 }, 1, { kind := .memreq, src := .cell 0, dst := .stack 7, arg := 0 }, (0, false), by decide⟩⟩

/-- The hypotheses of every clause of PacketLinks are met. -/
theorem wit_packetLinks :
    (∃ (s : State) (i : Nat) (r : BitVec 10) (p : Packet) (c : LinkErr → Instr) (kind : PktKind), ((kind = .store ∧ c = .storePacket i) ∨ (kind =
        .atomic ∧ c = .atomicPacket i) ∨ (kind = .atomicRsp ∧ c = .atomicRspPacket i) ∨ (kind = .msg ∧ c = .msgPacket i) ∨ (kind = .ack ∧ c =
        .ackPacket i) ∨ (kind = .refuse ∧ c = .refusePacket i) ∨ (kind = .memreq ∧ c = .memreqPacket i) ∨ (kind = .memrsp ∧ c = .memrspPacket
        i) ∨ (kind = .credit ∧ c = .creditPacket i) ∨ (kind = .credit ∧ c = .creditRestore i)) ∧ s.arriving i [kind] = some p ∧ r.toNat ∈
        s.path p.src p.dst) ∧
    (∃ (s : State) (i : Nat) (r : BitVec 10) (p : Packet) (c : LinkErr → Instr) (kind : PktKind), ((kind = .store ∧ c = .storePacket i) ∨ (kind =
        .atomic ∧ c = .atomicPacket i) ∨ (kind = .atomicRsp ∧ c = .atomicRspPacket i) ∨ (kind = .msg ∧ c = .msgPacket i) ∨ (kind = .ack ∧ c =
        .ackPacket i) ∨ (kind = .refuse ∧ c = .refusePacket i) ∨ (kind = .memreq ∧ c = .memreqPacket i) ∨ (kind = .memrsp ∧ c = .memrspPacket
        i) ∨ (kind = .credit ∧ c = .creditPacket i) ∨ (kind = .credit ∧ c = .creditRestore i)) ∧ s.arriving i [kind] = some p ∧ r.toNat ∉
        s.path p.src p.dst) :=
  ⟨⟨inFlight { kind := .credit, src := .cell 0, dst := .cell 0xBB }, 1, 0xBB, { kind := .credit, src := .cell 0, dst := .cell 0xBB }, .creditPacket 1, .credit, by exact ⟨by simp, by decide, by decide⟩⟩,
   ⟨inFlight { kind := .credit, src := .cell 0, dst := .cell 0xBB }, 1, 0x3BB, { kind := .credit, src := .cell 0, dst := .cell 0xBB }, .creditRestore 1, .credit, by exact ⟨by simp, by decide, by decide⟩⟩⟩

/-- The hypotheses of every clause of AsyncIssue are met. -/
theorem wit_asyncIssue :
    (∃ (s : State) (cell : BitVec 10) (slot : BitVec 4) (tok a : Nat),
      let id := cell.toNat
      let k := slot.toNat
      let w := s.swarm id k
      let c := s.cell id
      tok < 16 ∧ a < 64 ∧ s.stands id k (iWord 0x48 0 0 (16 * tok) a 0) false false = true ∧ c.inFlight < 256 ∧ w.token tok < 255) ∧
    (∃ (s : State) (cell : BitVec 10) (slot : BitVec 4) (tok a : Nat),
      let id := cell.toNat
      let k := slot.toNat
      let w := s.swarm id k
      let c := s.cell id
      tok < 16 ∧ a < 64 ∧ s.stands id k (iWord 0x48 0 0 (16 * tok) a 0) false false = true ∧ ¬ (c.inFlight < 256 ∧ w.token tok < 255)) ∧
    (∃ (s : State) (cell : BitVec 10) (slot : BitVec 4) (tok a : Nat),
      let id := cell.toNat
      let k := slot.toNat
      let w := s.swarm id k
      let c := s.cell id
      tok < 16 ∧ a < 64 ∧ s.stands id k (iWord 0x3A 0 0 (16 * tok) a 0) false false = true ∧ c.inFlight < 256 ∧ w.token tok < 255) ∧
    (∃ (s : State) (cell : BitVec 10) (slot : BitVec 4) (tok a : Nat),
      let id := cell.toNat
      let k := slot.toNat
      let w := s.swarm id k
      let c := s.cell id
      tok < 16 ∧ a < 64 ∧ s.stands id k (iWord 0x3A 0 0 (16 * tok) a 0) false false = true ∧ ¬ (c.inFlight < 256 ∧ w.token tok < 255)) ∧
    (∃ (s : State) (cell : BitVec 10) (tok a : Nat),
      let id := cell.toNat
      let c := s.cell id
      ∃ (o : AsyncOp) (rest : List AsyncOp), tok < 16 ∧ a < 64 ∧ s.cellRuns id = true ∧ c.mxRun = none ∧ c.mxQueue = o :: rest ∧ c.tabCmd = none) ∧
    (∃ (s : State) (cell : BitVec 10) (tok a : Nat),
      let id := cell.toNat
      let c := s.cell id
      ∃ (o : AsyncOp) (rest : List AsyncOp), tok < 16 ∧ a < 64 ∧ s.cellRuns id = true ∧ c.agRun = none ∧ c.agQueue = o :: rest) :=
  ⟨⟨(atWord 15 (iWord 0x48 0 0 (16 * 15) 63 0)).modSwarm 0 15 fun w => { w with tokens := [(15, 254)] }, 0, 15, 15, 63, by decide⟩,
   ⟨(atWord 15 (iWord 0x48 0 0 (16 * 15) 63 0)).modSwarm 0 15 fun w => { w with tokens := [(15, 255)] }, 0, 15, 15, 63, by decide⟩,
   ⟨(atWord 15 (iWord 0x3A 0 0 (16 * 15) 63 0)).modSwarm 0 15 fun w => { w with tokens := [(15, 254)] }, 0, 15, 15, 63, by decide⟩,
   ⟨(atWord 15 (iWord 0x3A 0 0 (16 * 15) 63 0)).modSwarm 0 15 fun w => { w with tokens := [(15, 255)] }, 0, 15, 15, 63, by decide⟩,
   ⟨(atWord 15 0).modCell 0 fun c => { c with mxQueue := [{ slot := 15, token := 15, pc := 0, operand := 0, mode := 0 }] }, 0, 15, 63, { slot := 15, token := 15, pc := 0, operand := 0, mode := 0 }, [], by decide⟩,
   ⟨(atWord 15 0).modCell 0 fun c => { c with agQueue := [{ slot := 15, token := 15, pc := 0, operand := 0, mode := 0 }] }, 0, 15, 63, { slot := 15, token := 15, pc := 0, operand := 0, mode := 0 }, [], by decide⟩⟩

/-- The hypotheses of every clause of AsyncCompletion are met. -/
theorem wit_asyncCompletion :
    (∃ (s : State) (cell : BitVec 10) (run : AsyncRun),
      let id := cell.toNat
      let p := s.mxPass id run
      s.cellRuns id = true ∧ (s.cell id).mxRun = some run ∧ run.fault = none ∧ p.2 = false ∧ (∀ j, (p.1.swarm id j).reissue = none)) ∧
    (∃ (s : State) (cell : BitVec 10) (host : Bytes) (run : AsyncRun),
      let id := cell.toNat
      let k := run.op.slot
      let x := XferSt.all { s := s, host := host } id k { op := fieldLE run.desc 0 1, win := run.tensors.getD 0 [], src := run.tensors.getD 1 [], dst := run.tensors.getD 2 [] }
      s.cellRuns id = true ∧ (s.cell id).agRun = some run ∧ run.fault = none ∧ x.fault = none ∧ (∀ j, (x.s.swarm id j).reissue = none)) ∧
    (∃ (s : State) (cell : BitVec 10) (host : Bytes) (run : AsyncRun),
      let id := cell.toNat
      let k := run.op.slot
      let w := s.swarm id k
      ∃ (i : Instr) (f : RegField) (code detail : Nat), s.cellRuns id = true ∧ ((i = .mxComplete cell ∧ f = Reg.cellMxStatusOpsDone (s.phys id) ∧
        (s.cell id).mxRun = some run) ∨ (i = .xferComplete cell host ∧ f = Reg.cellAgStatusXfersDone (s.phys id) ∧ (s.cell id).agRun = some
        run)) ∧ run.fault = some (code, detail) ∧ code < 2 ^ 16 ∧ detail < 2 ^ 64 ∧ k < 16 ∧ run.op.token < 16 ∧ run.op.pc < 2 ^ 32 ∧
        run.op.operand < 2 ^ 64 ∧ w.st = .active ∧ w.mem = none ∧ w.asyncFaults = [] ∧ (∀ j, (s.swarm id j).reissue = none) ∧ s.parksAlone id k
        = true) :=
  ⟨⟨(atWord 15 0).modCell 0 fun c => { c with mxRun := some { op := { slot := 15, token := 15, pc := 0, operand := 0, mode := 0 }, desc := [2, 0, 31, 0], tensors := [] } }, 0, { op := { slot := 15, token := 15, pc := 0, operand := 0, mode := 0 }, desc := [2, 0, 31, 0], tensors := [] }, by (repeat' apply And.intro) <;> first | decide | exact no_reissue (by decide)⟩,
   ⟨(atWord 15 0).modCell 0 fun c => { c with agRun := some { op := { slot := 15, token := 15, pc := 0, operand := 0, mode := 0 }, desc := [], tensors := [] } }, 0, [], { op := { slot := 15, token := 15, pc := 0, operand := 0, mode := 0 }, desc := [], tensors := [] }, by (repeat' apply And.intro) <;> first | decide | exact no_reissue (by decide)⟩,
   ⟨(atWord 15 0).modCell 0 fun c => { c with mxRun := some { op := { slot := 15, token := 15, pc := 2 ^ 32 - 8, operand := 2 ^ 64 - 1, mode := 0 }, fault := some (0xFFFF, 2 ^ 64 - 1) } }, 0, [], { op := { slot := 15, token := 15, pc := 2 ^ 32 - 8, operand := 2 ^ 64 - 1, mode := 0 }, fault := some (0xFFFF, 2 ^ 64 - 1) }, .mxComplete 0, Reg.cellMxStatusOpsDone 0, 0xFFFF, 2 ^ 64 - 1, by (repeat' apply And.intro) <;> first | decide | exact no_reissue (by decide)⟩⟩

/-- The hypotheses of every clause of StrictQuire are met. -/
theorem wit_strictQuire :
    (∃ (l : List (Bool × Nat × Int)),
      let total : Int := (l.map fun x => (if x.1 then -(x.2.1 : Int) else x.2.1) * 2 ^ (x.2.2 + 288).toNat).sum
      (∀ x ∈ l, -288 ≤ x.2.2) ∧ -(2 : Int) ^ 639 ≤ total ∧ total < 2 ^ 639) ∧
    (∃ (l : List (Bool × Nat × Int)),
      let total : Int := (l.map fun x => (if x.1 then -(x.2.1 : Int) else x.2.1) * 2 ^ (x.2.2 + 288).toNat).sum
      (∀ x ∈ l, -288 ≤ x.2.2) ∧ -(2 : Int) ^ 642 ≤ total ∧ total < 2 ^ 642 ∧ ¬ (-(2 : Int) ^ 639 ≤ total ∧ total < 2 ^ 639)) ∧
    (∃ (l m : List Val), l.Perm m) ∧
    (∃ (l : List Val), (.nar ∈ l ∨ .nan ∈ l ∨ (.inf true ∈ l ∧ .inf false ∈ l))) ∧
    (∃ (q : Quire), q.w < 2 ^ 643) ∧
    (∃ (s : State) (id : Nat) (run : AsyncRun) (sh : Shape),
      let d := run.desc
      ∃ (m n : Nat), shapeOf (mdShape d) = some sh ∧ mdFirst d = true ∧ mdLast d = false ∧ mdGsize d = 0 ∧ mdOutliers d = 0 ∧ modeFast run.op.mode =
        false ∧ (s.cell id).lmErr = [] ∧ m < sh.m ∧ n < sh.n) ∧
    (∃ (s : State) (id : Nat) (run : AsyncRun) (sh : Shape),
      let d := run.desc
      ∃ (p o : Nat), shapeOf (mdShape d) = some sh ∧ mdFirst d = true ∧ mdLast d = false ∧ mdGsize d = 0 ∧ mdOutliers d = 0 ∧ modeFast run.op.mode =
        false ∧ (s.cell id).lmErr = [] ∧ (p ≠ s.phys id ∨ o < mdPsum d ∨ mdPsum d + 96 * sh.e ≤ o)) :=
  ⟨⟨[(true, 1, 351)], by decide +kernel⟩,
   ⟨[(false, 1, 351)], by decide +kernel⟩,
   ⟨[.nar, .zero], [.zero, .nar], by exact List.Perm.swap _ _ _⟩,
   ⟨[.inf true, .inf false], by decide⟩,
   ⟨{ w := 2 ^ 643 - 1 }, by decide +kernel⟩,
   ⟨State.reset, 0, { op := { slot := 15, token := 15, pc := 0, operand := 0, mode := 0 }, desc := [1, 0, 18, 0, 0, 0, 0, 0, 1, 0, 0, 0], tensors := [] }, ⟨.posit32, 4, 16, 16⟩, 3, 15, by decide⟩,
   ⟨State.reset, 0, { op := { slot := 15, token := 15, pc := 0, operand := 0, mode := 0 }, desc := [1, 0, 18, 0, 0, 0, 0, 0, 1, 0, 0, 0], tensors := [] }, ⟨.posit32, 4, 16, 16⟩, 0, 96 * 64, by decide⟩⟩

/-- The hypotheses of every clause of FragmentTiles are met. -/
theorem wit_fragmentTiles :
    (∃ (s : State) (cell : BitVec 10) (slot : BitVec 4) (fn g d a acc shape af bf zu : Nat) (sh : Shape),
      let id := cell.toNat
      let k := slot.toNat
      let w := s.swarm id k
      let c := s.cell id
      let x := 0x49 * 2 ^ 56 + g * 2 ^ 53 + fn * 2 ^ 48 + d * 2 ^ 40 + a * 2 ^ 32 + acc * 2 ^ 21 + shape * 2 ^ 16 + af * 2 ^ 12 + bf * 2 ^ 8 + zu * 4
      ∃ (i : Instr), g < 8 ∧ w.preg g = 0xFFFFFFFF ∧ acc < 2048 ∧ zu < 64 ∧ af < 14 ∧ bf < 14 ∧ shapeOf shape = some sh ∧ bitAt w.mode.toNat 0 = false
        ∧ s.stands id k x false false = true ∧ ((i = .mxfZero cell slot ∧ fn = 1 ∧ d = 0 ∧ a = 0 ∧ bf = 0) ∨ (i = .mxfMma cell slot ∧ fn = 0 ∧
        d % 8 = 0 ∧ a % 8 = 0 ∧ w.holds [d + 31, a + 31] = true) ∨ (i = .mxfOut cell slot ∧ fn = 2 ∧ d % 8 = 0 ∧ a = 0 ∧ bf = 0 ∧ w.holds [d +
        31] = true)) ∧ c.matrixIdle = false) ∧
    (∃ (s : State) (cell : BitVec 10) (slot : BitVec 4) (fn g d a acc shape af bf zu : Nat) (sh : Shape),
      let id := cell.toNat
      let k := slot.toNat
      let w := s.swarm id k
      let c := s.cell id
      let x := 0x49 * 2 ^ 56 + g * 2 ^ 53 + fn * 2 ^ 48 + d * 2 ^ 40 + a * 2 ^ 32 + acc * 2 ^ 21 + shape * 2 ^ 16 + af * 2 ^ 12 + bf * 2 ^ 8 + zu * 4
      g < 8 ∧ w.preg g = 0xFFFFFFFF ∧ acc < 2048 ∧ zu < 64 ∧ af < 14 ∧ bf < 14 ∧ shapeOf shape = some sh ∧ bitAt w.mode.toNat 0 = false ∧ s.stands id
        k x false false = true ∧ fn = 1 ∧ d = 0 ∧ a = 0 ∧ bf = 0 ∧ c.matrixIdle = true ∧ c.overlaps acc sh.e false = false) ∧
    (∃ (s : State) (cell : BitVec 10) (slot : BitVec 4) (fn g d a acc shape af bf zu : Nat) (sh : Shape),
      let id := cell.toNat
      let k := slot.toNat
      let w := s.swarm id k
      let c := s.cell id
      let x := 0x49 * 2 ^ 56 + g * 2 ^ 53 + fn * 2 ^ 48 + d * 2 ^ 40 + a * 2 ^ 32 + acc * 2 ^ 21 + shape * 2 ^ 16 + af * 2 ^ 12 + bf * 2 ^ 8 + zu * 4
      ∃ (fa fb : Fmt) (tile : Tile), g < 8 ∧ w.preg g = 0xFFFFFFFF ∧ acc < 2048 ∧ zu < 64 ∧ af < 14 ∧ bf < 14 ∧ shapeOf shape = some sh ∧ bitAt
        w.mode.toNat 0 = false ∧ s.stands id k x false false = true ∧ fn = 0 ∧ d % 8 = 0 ∧ a % 8 = 0 ∧ w.holds [d + 15, a + 15] = true ∧
        c.matrixIdle = true ∧ Fmt.ofCode af = some fa ∧ Fmt.ofCode bf = some fb ∧ mxFormat af (bits (w.ureg zu) 8 8) bf (bits (w.ureg zu) 0 8)
        false = .ok sh.path ∧ c.continues acc shape true w.mode = .ok tile ∧ tile.acc = acc ∧ tile.fast = false) ∧
    (∃ (s : State) (cell : BitVec 10) (slot : BitVec 4) (fn g d a acc shape af bf zu : Nat) (sh : Shape),
      let id := cell.toNat
      let k := slot.toNat
      let w := s.swarm id k
      let c := s.cell id
      let x := 0x49 * 2 ^ 56 + g * 2 ^ 53 + fn * 2 ^ 48 + d * 2 ^ 40 + a * 2 ^ 32 + acc * 2 ^ 21 + shape * 2 ^ 16 + af * 2 ^ 12 + bf * 2 ^ 8 + zu * 4
      ∃ (f : Fmt) (tile : Tile), g < 8 ∧ w.preg g = 0xFFFFFFFF ∧ acc < 2048 ∧ zu < 64 ∧ af < 14 ∧ bf < 14 ∧ shapeOf shape = some sh ∧ bitAt
        w.mode.toNat 0 = false ∧ s.stands id k x false false = true ∧ fn = 2 ∧ d % 8 = 0 ∧ a = 0 ∧ bf = 0 ∧ w.holds [d + 31] = true ∧
        c.matrixIdle = true ∧ Fmt.ofCode af = some f ∧ f ≠ .raw ∧ c.lmErr = [] ∧ c.tabCmd = none ∧ w.ureg zu % 64 = 0 ∧ w.ureg zu < 0x180000 ∧
        (c.read (w.ureg zu) 64).all (· == 0) = true ∧ c.continues acc shape true w.mode = .ok tile ∧ tile.acc = acc ∧ tile.fast = false) :=
  ⟨⟨((atWord 15 (0x49 * 2 ^ 56 + 7 * 2 ^ 53 + 1 * 2 ^ 48 + 0 * 2 ^ 40 + 0 * 2 ^ 32 + 1984 * 2 ^ 21 + 18 * 2 ^ 16 + 3 * 2 ^ 12 + 0 * 2 ^ 8 + 63 * 4)).modSwarm 0 15 fun w => { w with p := [(7, 0xFFFFFFFF)] }).modCell 0 fun c => { c with mxQueue := [{ slot := 15, token := 15, pc := 0, operand := 0, mode := 0 }] }, 0, 15, 1, 7, 0, 0, 1984, 18, 3, 0, 63, ⟨.posit32, 4, 16, 16⟩, .mxfZero 0 15, by decide⟩,
   ⟨(atWord 15 (0x49 * 2 ^ 56 + 7 * 2 ^ 53 + 1 * 2 ^ 48 + 0 * 2 ^ 40 + 0 * 2 ^ 32 + 1984 * 2 ^ 21 + 18 * 2 ^ 16 + 3 * 2 ^ 12 + 0 * 2 ^ 8 + 63 * 4)).modSwarm 0 15 fun w => { w with p := [(7, 0xFFFFFFFF)] }, 0, 15, 1, 7, 0, 0, 1984, 18, 3, 0, 63, ⟨.posit32, 4, 16, 16⟩, by decide⟩,
   ⟨((atWord 15 (0x49 * 2 ^ 56 + 7 * 2 ^ 53 + 0 * 2 ^ 48 + 240 * 2 ^ 40 + 240 * 2 ^ 32 + 1984 * 2 ^ 21 + 18 * 2 ^ 16 + 3 * 2 ^ 12 + 3 * 2 ^ 8 + 63 * 4)).modSwarm 0 15 fun w => { w with p := [(7, 0xFFFFFFFF)] }).modCell 0 fun c => { c with tiles := [{ acc := 1984, shape := 18, fast := false, frag := true, slot := 15, mode := 0 }] }, 0, 15, 0, 7, 240, 240, 1984, 18, 3, 3, 63, ⟨.posit32, 4, 16, 16⟩, .posit32, .posit32, { acc := 1984, shape := 18, fast := false, frag := true, slot := 15, mode := 0 }, by (repeat' apply And.intro) <;> first | decide | rfl⟩,
   ⟨(setu ((atWord 15 (0x49 * 2 ^ 56 + 7 * 2 ^ 53 + 2 * 2 ^ 48 + 224 * 2 ^ 40 + 0 * 2 ^ 32 + 1984 * 2 ^ 21 + 18 * 2 ^ 16 + 3 * 2 ^ 12 + 0 * 2 ^ 8 + 63 * 4)).modSwarm 0 15 fun w => { w with p := [(7, 0xFFFFFFFF)] }) 15 63 (0x180000 - 64)).modCell 0 fun c => { c with tiles := [{ acc := 1984, shape := 18, fast := false, frag := true, slot := 15, mode := 0 }] }, 0, 15, 2, 7, 224, 0, 1984, 18, 3, 0, 63, ⟨.posit32, 4, 16, 16⟩, .posit32, { acc := 1984, shape := 18, fast := false, frag := true, slot := 15, mode := 0 }, by (repeat' apply And.intro) <;> first | decide | rfl⟩⟩

/-- The hypotheses of every clause of SpecialFunctions are met. -/
theorem wit_specialFunctions :
    (∃ (s : State) (cell : BitVec 10) (slot : BitVec 4) (fn g d a b c sub fmt : Nat) (f : Fmt),
      let id := cell.toNat
      let k := slot.toNat
      let w := s.swarm id k
      let x := rWord 0x40 g fn d a b c + fmt * 2 ^ 12 + sub * 2 ^ 8
      g < 8 ∧ fmt ∈ [1, 2, 3, 10, 11, 12] ∧ Fmt.ofCode fmt = some f ∧ (s.cell id).lmErr = [] ∧ fn ≤ 5 ∧ b = 0 ∧ sub = 0 ∧ (fn = 5 → c < 16) ∧ (fn ≠ 5
        → c = 0) ∧ w.holds [d, a] = true ∧ s.stands id k x false false = true ∧ (s.cell id).tabCmd = none ∧ (slotHead (s.cell id).tables
        (sfSlot x)).isSome = true) ∧
    (∃ (s : State) (cell : BitVec 10) (slot : BitVec 4) (fn g d a b c sub fmt : Nat) (f : Fmt),
      let id := cell.toNat
      let k := slot.toNat
      let w := s.swarm id k
      let x := rWord 0x40 g fn d a b c + fmt * 2 ^ 12 + sub * 2 ^ 8
      let off := w.ureg b
      g < 8 ∧ fmt ∈ [1, 2, 3, 10, 11, 12] ∧ Fmt.ofCode fmt = some f ∧ (s.cell id).lmErr = [] ∧ off % 8 = 0 ∧ off ≤ 0x17FF80 ∧ b < 64 ∧ fn = 6 ∧ c = 0
        ∧ sub = 0 ∧ w.holds [d, a] = true ∧ s.stands id k x false false = true) ∧
    (∃ (s : State) (cell : BitVec 10) (slot : BitVec 4) (fn g d a b c sub fmt : Nat) (f : Fmt),
      let id := cell.toNat
      let k := slot.toNat
      let w := s.swarm id k
      let x := rWord 0x40 g fn d a b c + fmt * 2 ^ 12 + sub * 2 ^ 8
      let off := w.ureg b
      g < 8 ∧ fmt ∈ [1, 2, 3, 10, 11, 12] ∧ Fmt.ofCode fmt = some f ∧ (s.cell id).lmErr = [] ∧ off % 8 = 0 ∧ off ≤ 0x17FF80 ∧ b < 64 ∧ fn = 7 ∧ sub =
        1 ∧ d = 0 ∧ c = 0 ∧ w.holds [a] = true ∧ s.stands id k x false false = true ∧ (s.cell id).inReplica off 96 = false) ∧
    (∃ (s : State) (cell : BitVec 10) (slot : BitVec 4) (fn g d a b c sub fmt : Nat) (f : Fmt),
      let id := cell.toNat
      let k := slot.toNat
      let w := s.swarm id k
      let x := rWord 0x40 g fn d a b c + fmt * 2 ^ 12 + sub * 2 ^ 8
      let off := w.ureg b
      let on := fun i : Nat => bitAt (w.preg g) i
      let arg := fun i => decode f 0 (w.vreg a i)
      let squares := ((List.range 32).filter fun i => on i).map fun i => (arg i).mul (arg i)
      g < 8 ∧ fmt ∈ [1, 2, 3, 10, 11, 12] ∧ Fmt.ofCode fmt = some f ∧ (s.cell id).lmErr = [] ∧ off % 8 = 0 ∧ off ≤ 0x17FF80 ∧ b < 64 ∧ fn = 7 ∧ sub =
        2 ∧ d = 0 ∧ c = 0 ∧ w.holds [a] = true ∧ s.stands id k x false false = true ∧ (s.cell id).inReplica off 96 = false ∧ squares ≠ []) ∧
    (∃ (s : State) (cell : BitVec 10) (slot : BitVec 4) (fn g d a b c sub fmt : Nat) (f : Fmt),
      let id := cell.toNat
      let k := slot.toNat
      let w := s.swarm id k
      let x := rWord 0x40 g fn d a b c + fmt * 2 ^ 12 + sub * 2 ^ 8
      let off := w.ureg b
      g < 8 ∧ fmt ∈ [1, 2, 3, 10, 11, 12] ∧ Fmt.ofCode fmt = some f ∧ (s.cell id).lmErr = [] ∧ off % 8 = 0 ∧ off ≤ 0x17FF80 ∧ b < 64 ∧ fn = 7 ∧ sub =
        0 ∧ c < 64 ∧ w.holds [d, a] = true ∧ s.stands id k x false false = true ∧ bits (w.ureg c) 0 32 ≠ 0) ∧
    (∃ (s : State) (cell : BitVec 10) (g fmt : Nat) (f : Fmt),
      let id := cell.toNat
      ∃ (v : Val), g < 8 ∧ fmt ∈ [1, 2, 3, 10, 11, 12] ∧ Fmt.ofCode fmt = some f ∧ (s.cell id).lmErr = [] ∧ (v = .nar ∨ v = .nan)) :=
  ⟨⟨(atWord 15 (rWord 0x40 7 5 255 255 0 15 + 12 * 2 ^ 12 + 0 * 2 ^ 8)).modCell 0 fun c => { c with tables := [(15, { header := zeros 64 })] }, 0, 15, 5, 7, 255, 255, 0, 15, 0, 12, .fp32, by decide⟩,
   ⟨setu (atWord 15 (rWord 0x40 7 6 255 255 63 0 + 12 * 2 ^ 12 + 0 * 2 ^ 8)) 15 63 0x17FF80, 0, 15, 6, 7, 255, 255, 63, 0, 0, 12, .fp32, by decide⟩,
   ⟨setu (atWord 15 (rWord 0x40 7 7 0 255 63 0 + 12 * 2 ^ 12 + 1 * 2 ^ 8)) 15 63 0x17FF80, 0, 15, 7, 7, 0, 255, 63, 0, 1, 12, .fp32, by decide⟩,
   ⟨setu ((atWord 15 (rWord 0x40 7 7 0 255 63 0 + 12 * 2 ^ 12 + 2 * 2 ^ 8)).modSwarm 0 15 fun w => { w with p := [(7, 0x80000000)] }) 15 63 0x17FF80, 0, 15, 7, 7, 0, 255, 63, 0, 2, 12, .fp32, by decide⟩,
   ⟨setu (setu (atWord 15 (rWord 0x40 7 7 255 255 63 62 + 12 * 2 ^ 12 + 0 * 2 ^ 8)) 15 63 0x17FF80) 15 62 1, 0, 15, 7, 7, 255, 255, 63, 62, 0, 12, .fp32, by decide⟩,
   ⟨State.reset, 0, 7, 12, .fp32, .nar, by decide⟩⟩

/-- The hypotheses of every clause of SupervisorInstructions are met. -/
theorem wit_supervisorInstructions :
    (∃ (s : State) (cell : BitVec 10) (slot : BitVec 4) (up d a b vb i kind num lane : Nat),
      let id := cell.toNat
      let w := s.swarm id 0
      let tgt := w.ureg a
      let spawn := rWord 0x60 0 up d a b vb
      let valid := (kind = 0 ∧ num < 256) ∨ (kind = 1 ∧ num < 64 ∧ lane = 0) ∨ (kind = 2 ∧ num < 8 ∧ lane = 0) ∨ (kind = 3 ∧ num < 4 ∧ lane = 0)
      ∃ (n : Nat) (l : List Nat), up < 4 ∧ d < 64 ∧ a < 64 ∧ b < 64 ∧ 1 ≤ vb ∧ vb ≤ 16 ∧ i < 16 ∧ lane < 32 ∧ valid ∧ slot = 0 ∧ s.stands id 0 spawn
        true false = true ∧ badPc tgt = false ∧ (s.cell id).freeSlots = n :: l ∧ (s.heldBack id).1 < (n :: l).length ∧ vb + (s.heldBack id).2 ≤
        (s.cell id).freeBlocks) ∧
    (∃ (s : State) (cell : BitVec 10) (slot : BitVec 4) (up d a b vb i kind num lane : Nat),
      let id := cell.toNat
      let w := s.swarm id 0
      let tgt := w.ureg a
      let spawn := rWord 0x60 0 up d a b vb
      let valid := (kind = 0 ∧ num < 256) ∨ (kind = 1 ∧ num < 64 ∧ lane = 0) ∨ (kind = 2 ∧ num < 8 ∧ lane = 0) ∨ (kind = 3 ∧ num < 4 ∧ lane = 0)
      up < 4 ∧ d < 64 ∧ a < 64 ∧ b < 64 ∧ 1 ≤ vb ∧ vb ≤ 16 ∧ i < 16 ∧ lane < 32 ∧ valid ∧ slot = 0 ∧ s.stands id 0 spawn true false = true ∧ badPc tgt
        = false ∧ ((s.cell id).freeSlots.length ≤ (s.heldBack id).1 ∨ (s.cell id).freeBlocks < vb + (s.heldBack id).2)) ∧
    (∃ (s : State) (cell : BitVec 10) (slot : BitVec 4) (up d a b vb i kind num lane : Nat),
      let id := cell.toNat
      let pwait := rWord 0x61 0 0 d 0 0 0
      let valid := (kind = 0 ∧ num < 256) ∨ (kind = 1 ∧ num < 64 ∧ lane = 0) ∨ (kind = 2 ∧ num < 8 ∧ lane = 0) ∨ (kind = 3 ∧ num < 4 ∧ lane = 0)
      ∃ (p : Nat × Nat × Bool), up < 4 ∧ d < 64 ∧ a < 64 ∧ b < 64 ∧ 1 ≤ vb ∧ vb ≤ 16 ∧ i < 16 ∧ lane < 32 ∧ valid ∧ slot = 0 ∧ s.stands id 0 pwait
        true false = true ∧ firstPark ((s.cell id).supervised.filter fun p => !p.2.2) = some p) ∧
    (∃ (s : State) (cell : BitVec 10) (slot : BitVec 4) (up d a b vb i kind num lane : Nat),
      let id := cell.toNat
      let pwait := rWord 0x61 0 0 d 0 0 0
      let valid := (kind = 0 ∧ num < 256) ∨ (kind = 1 ∧ num < 64 ∧ lane = 0) ∨ (kind = 2 ∧ num < 8 ∧ lane = 0) ∨ (kind = 3 ∧ num < 4 ∧ lane = 0)
      up < 4 ∧ d < 64 ∧ a < 64 ∧ b < 64 ∧ 1 ≤ vb ∧ vb ≤ 16 ∧ i < 16 ∧ lane < 32 ∧ valid ∧ slot = 0 ∧ s.stands id 0 pwait true false = true ∧ (∀ p ∈
        (s.cell id).supervised, p.2.2 = true)) ∧
    (∃ (s : State) (cell : BitVec 10) (slot : BitVec 4) (up d a b vb i kind num lane : Nat),
      let id := cell.toNat
      let w := s.swarm id 0
      let tgt := w.ureg a
      let v := s.swarm id tgt
      let pread := rWord 0x62 0 up d a 0 i
      let valid := (kind = 0 ∧ num < 256) ∨ (kind = 1 ∧ num < 64 ∧ lane = 0) ∨ (kind = 2 ∧ num < 8 ∧ lane = 0) ∨ (kind = 3 ∧ num < 4 ∧ lane = 0)
      up < 4 ∧ d < 64 ∧ a < 64 ∧ b < 64 ∧ 1 ≤ vb ∧ vb ≤ 16 ∧ i < 16 ∧ lane < 32 ∧ valid ∧ slot = 0 ∧ tgt < 16 ∧ v.st = .parked ∧ tgt ≠ 0 ∧ s.stands id
        0 pread true false = true) ∧
    (∃ (s : State) (cell : BitVec 10) (slot : BitVec 4) (up d a b vb i kind num lane : Nat),
      let id := cell.toNat
      let w := s.swarm id 0
      let tgt := w.ureg a
      let v := s.swarm id tgt
      let pwrite := rWord 0x63 0 up 0 a b i
      let valid := (kind = 0 ∧ num < 256) ∨ (kind = 1 ∧ num < 64 ∧ lane = 0) ∨ (kind = 2 ∧ num < 8 ∧ lane = 0) ∨ (kind = 3 ∧ num < 4 ∧ lane = 0)
      up < 4 ∧ d < 64 ∧ a < 64 ∧ b < 64 ∧ 1 ≤ vb ∧ vb ≤ 16 ∧ i < 16 ∧ lane < 32 ∧ valid ∧ slot = 0 ∧ tgt < 16 ∧ v.st = .parked ∧ tgt ≠ 0 ∧ s.stands id
        0 pwrite true false = true) ∧
    (∃ (s : State) (cell : BitVec 10) (slot : BitVec 4) (up d a b vb i kind num lane : Nat),
      let id := cell.toNat
      let w := s.swarm id 0
      let tgt := w.ureg a
      let v := s.swarm id tgt
      let field := kind * 2 ^ 22 + num * 2 ^ 14 + lane * 2 ^ 9
      let rread := rWord 0x64 0 up d a 0 0 + field
      let valid := (kind = 0 ∧ num < 256) ∨ (kind = 1 ∧ num < 64 ∧ lane = 0) ∨ (kind = 2 ∧ num < 8 ∧ lane = 0) ∨ (kind = 3 ∧ num < 4 ∧ lane = 0)
      up < 4 ∧ d < 64 ∧ a < 64 ∧ b < 64 ∧ 1 ≤ vb ∧ vb ≤ 16 ∧ i < 16 ∧ lane < 32 ∧ valid ∧ slot = 0 ∧ tgt < 16 ∧ v.st = .parked ∧ tgt ≠ 0 ∧ (kind = 0 →
        num < v.V) ∧ s.stands id 0 rread true false = true) ∧
    (∃ (s : State) (cell : BitVec 10) (slot : BitVec 4) (up d a b vb i kind num lane : Nat),
      let id := cell.toNat
      let w := s.swarm id 0
      let tgt := w.ureg a
      let v := s.swarm id tgt
      let field := kind * 2 ^ 22 + num * 2 ^ 14 + lane * 2 ^ 9
      let rwrite := rWord 0x65 0 up 0 a b 0 + field
      let valid := (kind = 0 ∧ num < 256) ∨ (kind = 1 ∧ num < 64 ∧ lane = 0) ∨ (kind = 2 ∧ num < 8 ∧ lane = 0) ∨ (kind = 3 ∧ num < 4 ∧ lane = 0)
      up < 4 ∧ d < 64 ∧ a < 64 ∧ b < 64 ∧ 1 ≤ vb ∧ vb ≤ 16 ∧ i < 16 ∧ lane < 32 ∧ valid ∧ slot = 0 ∧ tgt < 16 ∧ v.st = .parked ∧ tgt ≠ 0 ∧ (kind = 0 →
        num < v.V) ∧ s.stands id 0 rwrite true false = true) ∧
    (∃ (s : State) (cell : BitVec 10) (slot : BitVec 4) (up d a b vb i kind num lane : Nat),
      let id := cell.toNat
      let w := s.swarm id 0
      let tgt := w.ureg a
      let v := s.swarm id tgt
      let pread := rWord 0x62 0 up d a 0 i
      let pwrite := rWord 0x63 0 up 0 a b i
      let field := kind * 2 ^ 22 + num * 2 ^ 14 + lane * 2 ^ 9
      let rread := rWord 0x64 0 up d a 0 0 + field
      let rwrite := rWord 0x65 0 up 0 a b 0 + field
      let valid := (kind = 0 ∧ num < 256) ∨ (kind = 1 ∧ num < 64 ∧ lane = 0) ∨ (kind = 2 ∧ num < 8 ∧ lane = 0) ∨ (kind = 3 ∧ num < 4 ∧ lane = 0)
      ∃ (c : Instr) (x : Nat), up < 4 ∧ d < 64 ∧ a < 64 ∧ b < 64 ∧ 1 ≤ vb ∧ vb ≤ 16 ∧ i < 16 ∧ lane < 32 ∧ valid ∧ slot = 0 ∧ ((c = .pread cell slot ∧
        x = pread) ∨ (c = .pwrite cell slot ∧ x = pwrite) ∨ (c = .rread cell slot ∧ x = rread) ∨ (c = .rwrite cell slot ∧ x = rwrite)) ∧
        s.stands id 0 x true false = true ∧ (16 ≤ tgt ∨ v.st ≠ .parked)) ∧
    (∃ (s : State) (cell : BitVec 10) (slot : BitVec 4) (up d a b vb i kind num lane : Nat),
      let id := cell.toNat
      let spawn := rWord 0x60 0 up d a b vb
      let pwait := rWord 0x61 0 0 d 0 0 0
      let pread := rWord 0x62 0 up d a 0 i
      let pwrite := rWord 0x63 0 up 0 a b i
      let field := kind * 2 ^ 22 + num * 2 ^ 14 + lane * 2 ^ 9
      let rread := rWord 0x64 0 up d a 0 0 + field
      let rwrite := rWord 0x65 0 up 0 a b 0 + field
      let valid := (kind = 0 ∧ num < 256) ∨ (kind = 1 ∧ num < 64 ∧ lane = 0) ∨ (kind = 2 ∧ num < 8 ∧ lane = 0) ∨ (kind = 3 ∧ num < 4 ∧ lane = 0)
      ∃ (c : Instr) (x : Nat), up < 4 ∧ d < 64 ∧ a < 64 ∧ b < 64 ∧ 1 ≤ vb ∧ vb ≤ 16 ∧ i < 16 ∧ lane < 32 ∧ valid ∧ ((c = .spawn cell slot ∧ x = spawn)
        ∨ (c = .pwait cell slot ∧ x = pwait) ∨ (c = .pread cell slot ∧ x = pread) ∨ (c = .pwrite cell slot ∧ x = pwrite) ∨ (c = .rread cell
        slot ∧ x = rread) ∨ (c = .rwrite cell slot ∧ x = rwrite)) ∧ slot ≠ 0 ∧ s.stands id slot.toNat x true false = true ∧ s.parksAlone id
        slot.toNat = true) :=
  ⟨⟨setu ((atWord 0 (rWord 0x60 0 3 63 62 61 15)).modSwarm 0 0 fun w => { w with blocks := 1 }) 0 62 0x17FFF8, 0, 0, 3, 63, 62, 61, 15, 15, 0, 255, 31, 1, [2, 3, 4, 5, 6, 7, 8, 9, 10, 11, 12, 13, 14, 15], by decide⟩,
   ⟨(atWord 0 (rWord 0x60 0 3 63 62 61 16)).modSwarm 0 15 fun w => { w with st := .active, blocks := 33 }, 0, 0, 3, 63, 62, 61, 16, 15, 0, 255, 31, by decide⟩,
   ⟨(atWord 0 (rWord 0x61 0 0 63 0 0 0)).modCell 0 fun c => { c with supervised := [(9, 14, false), (7, 15, false), (6, 1, true)] }, 0, 0, 3, 63, 62, 61, 16, 15, 0, 255, 31, (7, 15, false), by decide⟩,
   ⟨(atWord 0 (rWord 0x61 0 0 63 0 0 0)).modCell 0 fun c => { c with supervised := [(6, 1, true)] }, 0, 0, 3, 63, 62, 61, 16, 15, 0, 255, 31, by decide⟩,
   ⟨(setu (atWord 0 (rWord 0x62 0 3 63 62 0 15)) 0 62 15).modSwarm 0 15 fun w => { w with st := .parked }, 0, 0, 3, 63, 62, 61, 16, 15, 0, 255, 31, by decide⟩,
   ⟨(setu (atWord 0 (rWord 0x63 0 3 0 62 61 15)) 0 62 15).modSwarm 0 15 fun w => { w with st := .parked }, 0, 0, 3, 63, 62, 61, 16, 15, 0, 255, 31, by decide⟩,
   ⟨(setu (atWord 0 (rWord 0x64 0 3 63 62 0 0 + (255 * 2 ^ 14 + 31 * 2 ^ 9))) 0 62 15).modSwarm 0 15 fun w => { w with st := .parked, blocks := 16 }, 0, 0, 3, 63, 62, 61, 16, 15, 0, 255, 31, by decide⟩,
   ⟨(setu (atWord 0 (rWord 0x65 0 3 0 62 61 0 + (3 * 2 ^ 22 + 3 * 2 ^ 14))) 0 62 15).modSwarm 0 15 fun w => { w with st := .parked, blocks := 16 }, 0, 0, 3, 63, 62, 61, 16, 15, 3, 3, 0, by decide⟩,
   ⟨setu (atWord 0 (rWord 0x62 0 3 63 62 0 15)) 0 62 16, 0, 0, 3, 63, 62, 61, 16, 15, 0, 255, 31, .pread 0 0, rWord 0x62 0 3 63 62 0 15, by decide⟩,
   ⟨atWord 15 (rWord 0x60 0 3 63 62 61 16), 0, 15, 3, 63, 62, 61, 16, 15, 0, 255, 31, .spawn 0 15, rWord 0x60 0 3 63 62 61 16, by decide⟩⟩

/-- The hypotheses of every clause of SlotCommands are met. -/
theorem wit_slotCommands :
    (∃ (s : State) (cell : BitVec 10) (up a : Nat) (n : BitVec 4) (act : Nat) (viaHost : Bool) (c : Instr),
      let id := cell.toNat
      let w := s.swarm id 0
      let k := n.toNat
      let v := s.swarm id k
      let ran := if viaHost then s.windowGate id = .serve else up < 4 ∧ a < 64 ∧ w.ureg a = k ∧ k ≠ 0 ∧ s.stands id 0 (rWord 0x66 0 (up + 4 * act) 0 a 0 0) true false = true
      ((viaHost = true ∧ ((act = 0 ∧ c = .parkCmdResume cell n) ∨ (act = 1 ∧ c = .parkCmdResumeReissue cell n) ∨ (act = 2 ∧ c = .parkCmdParkRequest
        cell n) ∨ (act = 3 ∧ c = .parkCmdKill cell n))) ∨ (viaHost = false ∧ ((act = 0 ∧ c = .pctlResume cell 0) ∨ (act = 1 ∧ c =
        .pctlResumeReissue cell 0) ∨ (act = 2 ∧ c = .pctlParkreq cell 0) ∨ (act = 3 ∧ c = .pctlKill cell 0)))) ∧ ran ∧ act ≤ 1 ∧ v.st = .parked
        ∧ (s.cell id).badRecord k (act == 1) = false ∧ v.asyncFaults = []) ∧
    (∃ (s : State) (cell : BitVec 10) (up a : Nat) (n : BitVec 4) (act : Nat) (viaHost : Bool) (c : Instr),
      let id := cell.toNat
      let w := s.swarm id 0
      let k := n.toNat
      let v := s.swarm id k
      let ran := if viaHost then s.windowGate id = .serve else up < 4 ∧ a < 64 ∧ w.ureg a = k ∧ k ≠ 0 ∧ s.stands id 0 (rWord 0x66 0 (up + 4 * act) 0 a 0 0) true false = true
      ((viaHost = true ∧ ((act = 0 ∧ c = .parkCmdResume cell n) ∨ (act = 1 ∧ c = .parkCmdResumeReissue cell n) ∨ (act = 2 ∧ c = .parkCmdParkRequest
        cell n) ∨ (act = 3 ∧ c = .parkCmdKill cell n))) ∨ (viaHost = false ∧ ((act = 0 ∧ c = .pctlResume cell 0) ∨ (act = 1 ∧ c =
        .pctlResumeReissue cell 0) ∨ (act = 2 ∧ c = .pctlParkreq cell 0) ∨ (act = 3 ∧ c = .pctlKill cell 0)))) ∧ ran ∧ act ≤ 1 ∧ v.st = .parked
        ∧ (s.cell id).badRecord k (act == 1) = true) ∧
    (∃ (s : State) (cell : BitVec 10) (up a : Nat) (n : BitVec 4) (act : Nat) (viaHost : Bool) (c : Instr),
      let id := cell.toNat
      let w := s.swarm id 0
      let k := n.toNat
      let v := s.swarm id k
      let ran := if viaHost then s.windowGate id = .serve else up < 4 ∧ a < 64 ∧ w.ureg a = k ∧ k ≠ 0 ∧ s.stands id 0 (rWord 0x66 0 (up + 4 * act) 0 a 0 0) true false = true
      ((viaHost = true ∧ ((act = 0 ∧ c = .parkCmdResume cell n) ∨ (act = 1 ∧ c = .parkCmdResumeReissue cell n) ∨ (act = 2 ∧ c = .parkCmdParkRequest
        cell n) ∨ (act = 3 ∧ c = .parkCmdKill cell n))) ∨ (viaHost = false ∧ ((act = 0 ∧ c = .pctlResume cell 0) ∨ (act = 1 ∧ c =
        .pctlResumeReissue cell 0) ∨ (act = 2 ∧ c = .pctlParkreq cell 0) ∨ (act = 3 ∧ c = .pctlKill cell 0)))) ∧ ran ∧ act = 2 ∧ v.st = .active
        ∧ v.mem = none ∧ v.reissue = none ∧ v.asyncFaults = [] ∧ s.parksAlone id k = true) ∧
    (∃ (s : State) (cell : BitVec 10) (up a : Nat) (n : BitVec 4) (act : Nat) (viaHost : Bool) (c : Instr),
      let id := cell.toNat
      let w := s.swarm id 0
      let k := n.toNat
      let v := s.swarm id k
      let ran := if viaHost then s.windowGate id = .serve else up < 4 ∧ a < 64 ∧ w.ureg a = k ∧ k ≠ 0 ∧ s.stands id 0 (rWord 0x66 0 (up + 4 * act) 0 a 0 0) true false = true
      ((viaHost = true ∧ ((act = 0 ∧ c = .parkCmdResume cell n) ∨ (act = 1 ∧ c = .parkCmdResumeReissue cell n) ∨ (act = 2 ∧ c = .parkCmdParkRequest
        cell n) ∨ (act = 3 ∧ c = .parkCmdKill cell n))) ∨ (viaHost = false ∧ ((act = 0 ∧ c = .pctlResume cell 0) ∨ (act = 1 ∧ c =
        .pctlResumeReissue cell 0) ∨ (act = 2 ∧ c = .pctlParkreq cell 0) ∨ (act = 3 ∧ c = .pctlKill cell 0)))) ∧ ran ∧ act = 3 ∧ (v.st =
        .active ∨ v.st = .parked) ∧ (k ≠ 0 ∨ (s.cell id).supervised = [])) ∧
    (∃ (s : State) (cell : BitVec 10) (up a : Nat) (n : BitVec 4) (act : Nat) (viaHost : Bool) (c : Instr),
      let id := cell.toNat
      let w := s.swarm id 0
      let k := n.toNat
      let v := s.swarm id k
      let ran := if viaHost then s.windowGate id = .serve else up < 4 ∧ a < 64 ∧ w.ureg a = k ∧ k ≠ 0 ∧ s.stands id 0 (rWord 0x66 0 (up + 4 * act) 0 a 0 0) true false = true
      ((viaHost = true ∧ ((act = 0 ∧ c = .parkCmdResume cell n) ∨ (act = 1 ∧ c = .parkCmdResumeReissue cell n) ∨ (act = 2 ∧ c = .parkCmdParkRequest
        cell n) ∨ (act = 3 ∧ c = .parkCmdKill cell n))) ∨ (viaHost = false ∧ ((act = 0 ∧ c = .pctlResume cell 0) ∨ (act = 1 ∧ c =
        .pctlResumeReissue cell 0) ∨ (act = 2 ∧ c = .pctlParkreq cell 0) ∨ (act = 3 ∧ c = .pctlKill cell 0)))) ∧ ran ∧ ((act ≤ 1 ∧ v.st ≠
        .parked) ∨ (act = 2 ∧ v.st ≠ .active) ∨ (act = 3 ∧ v.st ≠ .active ∧ v.st ≠ .parked))) ∧
    (∃ (s : State) (cell : BitVec 10) (up a : Nat) (n : BitVec 4) (act : Nat) (viaHost : Bool) (c : Instr),
      let id := cell.toNat
      let w := s.swarm id 0
      ((viaHost = true ∧ ((act = 0 ∧ c = .parkCmdResume cell n) ∨ (act = 1 ∧ c = .parkCmdResumeReissue cell n) ∨ (act = 2 ∧ c = .parkCmdParkRequest
        cell n) ∨ (act = 3 ∧ c = .parkCmdKill cell n))) ∨ (viaHost = false ∧ ((act = 0 ∧ c = .pctlResume cell 0) ∨ (act = 1 ∧ c =
        .pctlResumeReissue cell 0) ∨ (act = 2 ∧ c = .pctlParkreq cell 0) ∨ (act = 3 ∧ c = .pctlKill cell 0)))) ∧ viaHost = false ∧ up < 4 ∧ a <
        64 ∧ w.ureg a = 0 ∧ s.stands id 0 (rWord 0x66 0 (up + 4 * act) 0 a 0 0) true false = true ∧ act ≤ 1) ∧
    (∃ (s : State) (cell : BitVec 10) (up a : Nat) (n : BitVec 4) (act : Nat) (viaHost : Bool) (c : Instr),
      let id := cell.toNat
      let w := s.swarm id 0
      ((viaHost = true ∧ ((act = 0 ∧ c = .parkCmdResume cell n) ∨ (act = 1 ∧ c = .parkCmdResumeReissue cell n) ∨ (act = 2 ∧ c = .parkCmdParkRequest
        cell n) ∨ (act = 3 ∧ c = .parkCmdKill cell n))) ∨ (viaHost = false ∧ ((act = 0 ∧ c = .pctlResume cell 0) ∨ (act = 1 ∧ c =
        .pctlResumeReissue cell 0) ∨ (act = 2 ∧ c = .pctlParkreq cell 0) ∨ (act = 3 ∧ c = .pctlKill cell 0)))) ∧ viaHost = false ∧ up < 4 ∧ a <
        64 ∧ w.ureg a = 0 ∧ s.stands id 0 (rWord 0x66 0 (up + 4 * act) 0 a 0 0) true false = true ∧ act = 3 ∧ (s.cell id).supervised = []) :=
  ⟨⟨((awake (atWord 0 (iWord 0x48 0 0 0 0 0))).modSwarm 0 15 fun w => { w with st := .parked }).modCell 0 fun c => (c.setRec 15 2 (8 * 2 ^ 24)).setRec 15 10 0, 0, 3, 63, 15, 1, true, .parkCmdResumeReissue 0 15, by decide⟩,
   ⟨((awake (atWord 0 0)).modSwarm 0 15 fun w => { w with st := .parked }).modCell 0 fun c => c.setRec 15 15 1, 0, 3, 63, 15, 0, true, .parkCmdResume 0 15, by decide⟩,
   ⟨(setu (atWord 0 (rWord 0x66 0 11 0 63 0 0)) 0 63 15).modSwarm 0 15 fun w => { w with st := .active }, 0, 3, 63, 15, 2, false, .pctlParkreq 0 0, by decide⟩,
   ⟨awake (atWord 0 0), 0, 3, 63, 0, 3, true, .parkCmdKill 0 0, by decide⟩,
   ⟨setu (atWord 0 (rWord 0x66 0 15 0 63 0 0)) 0 63 15, 0, 3, 63, 15, 3, false, .pctlKill 0 0, by decide⟩,
   ⟨atWord 0 (rWord 0x66 0 7 0 63 0 0), 0, 3, 63, 15, 1, false, .pctlResumeReissue 0 0, by decide⟩,
   ⟨atWord 0 (rWord 0x66 0 15 0 63 0 0), 0, 3, 63, 15, 3, false, .pctlKill 0 0, by decide⟩⟩

/-- The hypotheses of every clause of CellTables are met. -/
theorem wit_cellTables :
    (∃ (s : State) (window : BitVec 10) (data : Word) (op : Nat),
      let id := window.toNat
      let p := s.phys id
      let v := data.toNat
      let slot := bits v 16 4
      let row := bits v 0 13
      ∃ (i : Instr), bitAt v 32 = true ∧ bits v 24 2 = op ∧ s.windowGate id = .serve ∧ ((i = .ftabWriteRow window data ∧ op = 0) ∨ (i = .ftabSetSlot
        window data ∧ op = 1) ∨ (i = .ftabClearSlot window data ∧ op = 2) ∨ (i = .ftabReadRow window data ∧ op = 3)) ∧ s.ftabRefused p op slot
        row = false) ∧
    (∃ (s : State) (window : BitVec 10) (data : Word) (op : Nat),
      let id := window.toNat
      let p := s.phys id
      let v := data.toNat
      let slot := bits v 16 4
      let row := bits v 0 13
      ∃ (i : Instr), bitAt v 32 = true ∧ bits v 24 2 = op ∧ s.windowGate id = .serve ∧ ((i = .ftabWriteRow window data ∧ op = 0) ∨ (i = .ftabSetSlot
        window data ∧ op = 1) ∨ (i = .ftabClearSlot window data ∧ op = 2) ∨ (i = .ftabReadRow window data ∧ op = 3)) ∧ s.ftabRefused p op slot
        row = true) ∧
    (∃ (s : State) (window : BitVec 10) (data : Word) (op : Nat),
      let id := window.toNat
      let p := s.phys id
      let v := data.toNat
      ∃ (i : Instr),
      let d := s.reg (0x10004B8 + p * 0x1000)
      let refused := s.rd (Reg.cellScaleCtlBusy p) = 1 ∨ (op = 0 ∧ 2 ^ 41 ≤ d) ∨ s.applying (chOf p) = true
      bitAt v 32 = true ∧ bits v 24 2 = op ∧ s.windowGate id = .serve ∧ ((i = .scaleWrite window data ∧ op = 0) ∨ (i = .scaleRead window data ∧ op =
        1) ∨ (i = .scaleClearCount window data ∧ op = 2)) ∧ ¬ refused) ∧
    (∃ (s : State) (window : BitVec 10) (data : Word) (op : Nat),
      let id := window.toNat
      let p := s.phys id
      let v := data.toNat
      ∃ (i : Instr),
      let d := s.reg (0x10004B8 + p * 0x1000)
      let refused := s.rd (Reg.cellScaleCtlBusy p) = 1 ∨ (op = 0 ∧ 2 ^ 41 ≤ d) ∨ s.applying (chOf p) = true
      bitAt v 32 = true ∧ bits v 24 2 = op ∧ s.windowGate id = .serve ∧ ((i = .scaleWrite window data ∧ op = 0) ∨ (i = .scaleRead window data ∧ op =
        1) ∨ (i = .scaleClearCount window data ∧ op = 2)) ∧ refused) ∧
    (∃ (s : State) (window : BitVec 10) (data : Word) (op : Nat),
      let id := window.toNat
      let v := data.toNat
      let c := s.cell id
      ∃ (x : CellCmd), bitAt v 32 = true ∧ bits v 24 2 = op ∧ s.windowGate id = .serve ∧ c.tabCmd = some x ∧ x.op ≤ 3) ∧
    (∃ (s : State) (window : BitVec 10) (data : Word) (op : Nat),
      let id := window.toNat
      let v := data.toNat
      let c := s.cell id
      ∃ (x : CellCmd), bitAt v 32 = true ∧ bits v 24 2 = op ∧ s.windowGate id = .serve ∧ c.scaleCmd = some x ∧ x.op ≤ 2) :=
  ⟨⟨awake State.reset, 0x3BB, BitVec.ofNat 64 (2 ^ 32 + 3 * 2 ^ 24 + 15 * 2 ^ 16 + 8191), 3, .ftabReadRow 0x3BB (BitVec.ofNat 64 (2 ^ 32 + 3 * 2 ^ 24 + 15 * 2 ^ 16 + 8191)), by decide⟩,
   ⟨awake State.reset, 0x3BB, BitVec.ofNat 64 (2 ^ 32 + 2 ^ 24 + 15 * 2 ^ 16 + 8191), 1, .ftabSetSlot 0x3BB (BitVec.ofNat 64 (2 ^ 32 + 2 ^ 24 + 15 * 2 ^ 16 + 8191)), by decide⟩,
   ⟨awake State.reset, 0x3BB, BitVec.ofNat 64 (2 ^ 32 + 2 * 2 ^ 24 + 1023), 2, .scaleClearCount 0x3BB (BitVec.ofNat 64 (2 ^ 32 + 2 * 2 ^ 24 + 1023)), by decide⟩,
   ⟨{ awake State.reset with regs := sset 0 (awake State.reset).regs (0x10004B8 + 0x3BB * 0x1000) (BitVec.ofNat 64 (2 ^ 41)) }, 0x3BB, BitVec.ofNat 64 (2 ^ 32 + 1023), 0, .scaleWrite 0x3BB (BitVec.ofNat 64 (2 ^ 32 + 1023)), by decide⟩,
   ⟨(awake State.reset).modCell 0x3BB fun c => { c with tabCmd := some { op := 3, slot := 15, row := 8191 } }, 0x3BB, BitVec.ofNat 64 (2 ^ 32 + 2 ^ 24 + 15 * 2 ^ 16 + 8191), 1, { op := 3, slot := 15, row := 8191 }, by decide⟩,
   ⟨(awake State.reset).modCell 0x3BB fun c => { c with scaleCmd := some { op := 2, row := 1023 } }, 0x3BB, BitVec.ofNat 64 (2 ^ 32 + 2 ^ 24 + 15 * 2 ^ 16 + 8191), 1, { op := 2, row := 1023 }, by decide⟩⟩

/-- The hypotheses of every clause of RegionSyncAndScrub are met. -/
theorem wit_regionSyncAndScrub :
    (∃ (s : State),
      ∃ (ch : BitVec 2) (data : Word) (mode : Nat) (i : Instr),
      let c := ch.toNat
      ((i = .regionSyncAll ch data ∧ mode = 0) ∨ (i = .regionSyncAddr ch data ∧ mode = 1)) ∧ bitAt data.toNat 0 = true ∧ bits data.toNat 1 1 = mode ∧
        s.chanGate c = .serve ∧ s.rd (Reg.dispRegionCmdBusy c) = 0) ∧
    (∃ (s : State),
      ∃ (ch : BitVec 2) (data : Word) (mode : Nat) (i : Instr),
      let c := ch.toNat
      ((i = .regionSyncAll ch data ∧ mode = 0) ∨ (i = .regionSyncAddr ch data ∧ mode = 1)) ∧ bitAt data.toNat 0 = true ∧ bits data.toNat 1 1 = mode ∧
        s.chanGate c = .serve ∧ s.rd (Reg.dispRegionCmdBusy c) = 1) ∧
    (∃ (s : State),
      ∃ (cell : BitVec 10),
      let id := cell.toNat
      let c := chOf id
      let d := s.dsp c
      id ∈ d.syncLeft ∧ d.syncLeft.Nodup ∧ s.cellInReset id = false ∧ (∀ k, k < 16 → (s.ctx c k).phase.holds = false)) ∧
    (∃ (s : State),
      ∃ (n : BitVec 3) (ecc : EccSeen),
      let k := n.toNat
      let pos := (sget (0, false) s.stackScrub k).1
      let b := stackBlock k pos / 64
      s.pwr.porst = false ∧ s.stackUp k = true ∧ sget 0 s.hbmErr b = 0 ∧ ecc = .good) ∧
    (∃ (s : State),
      ∃ (n : BitVec 3) (ecc : EccSeen),
      let k := n.toNat
      let pos := (sget (0, false) s.stackScrub k).1
      let b := stackBlock k pos / 64
      s.pwr.porst = false ∧ s.stackUp k = true ∧ sget 0 s.hbmErr b = 0 ∧ ecc = .single ∧ pos + 1 < 2 ^ 30) ∧
    (∃ (s : State),
      ∃ (cell : BitVec 10) (ecc : EccSeen),
      let id := cell.toNat
      let p := s.phys id
      let pos := (s.cell id).scrubPos
      s.pwr.porst = false ∧ isLogical id = true ∧ s.cellInReset id = false ∧ (s.island p).stopped = false ∧ sget 0 (s.cell id).lmErr pos = 0 ∧ pos + 1
        < 196608 ∧ ecc = .good) ∧
    (∃ (s : State),
      ∃ (cell : BitVec 10) (ecc : EccSeen),
      let id := cell.toNat
      let p := s.phys id
      let pos := (s.cell id).scrubPos
      s.pwr.porst = false ∧ isLogical id = true ∧ s.cellInReset id = false ∧ (s.island p).stopped = false ∧ sget 0 (s.cell id).lmErr pos = 0 ∧ pos + 1
        < 196608 ∧ ecc = .single) :=
  ⟨⟨awake State.reset, 3, 3, 1, .regionSyncAddr 3 3, by decide⟩,
   ⟨(awake State.reset).wr (Reg.dispRegionCmdBusy 3) 1, 3, 1, 0, .regionSyncAll 3 1, by decide⟩,
   ⟨(State.reset).modDisp 3 fun d => { d with syncLeft := [0x3BB] }, 0x3BB, by decide⟩,
   ⟨{ (awake State.reset).wr (Reg.memStatusPresent 7) 1 with stackScrub := [(7, (2 ^ 30 - 1, true))] }, 7, .good, by decide⟩,
   ⟨{ (awake State.reset).wr (Reg.memStatusPresent 7) 1 with stackScrub := [(7, (2 ^ 30 - 2, true))] }, 7, .single, by decide⟩,
   ⟨(awake State.reset).modCell 0x3BB fun c => { c with scrubPos := 196606 }, 0x3BB, .good, by decide⟩,
   ⟨(awake State.reset).modCell 0x3BB fun c => { c with scrubPos := 196606 }, 0x3BB, .single, by decide⟩⟩

/-- The hypotheses of every clause of Governor are met. -/
theorem wit_governor :
    (∃ (s : State), s.blockGate = .serve ∧ s.rd Reg.govProfileLock = 0) ∧
    (∃ (s : State), s.blockGate = .serve ∧ s.rd Reg.govProfileLock = 1) ∧
    (∃ (s : State),
      ∃ (ch : BitVec 2) (p : Nat), sget 0 s.gov.pendingProfile ch.toNat = p + 1 ∧ s.gov.failed = false ∧ s.dispUp ch.toNat = true) ∧
    (∃ (s : State),
      ∃ (data : Word),
      let v := data.toNat
      s.blockGate = .serve ∧ bitAt v 63 = true) ∧
    (∃ (s : State),
      ∃ (island : BitVec 11),
      let i := island.toNat
      s.pwr.running = true ∧ (isleRange i).isSome = true ∧ (s.island i).stopped = false) ∧
    (∃ (s : State),
      ∃ (island : BitVec 11),
      let i := island.toNat
      ∃ (f : Nat), (s.island i).pending = some f ∧ s.gov.failed = false ∧ (s.island i).stopped = false) ∧
    (∃ (s : State),
      ∃ (a b : BitVec 11), s.pwr.running = true ∧ s.gov.failed = false ∧ s.rd Reg.govLimitsStallLimit ≠ 0 ∧ isIsland a.toNat = true ∧ isIsland b.toNat
        = true) ∧
    (∃ (s : State),
      ∃ (m : GovMeas), s.serving = true ∧ s.gov.failed = false ∧ (∀ x ∈ m.islands, x.clockFail = false ∧ quarterOf x < 460)) ∧
    (∃ (s : State), s.serving = true ∧ s.gov.failed = true ∧ s.gov.trip = false ∧ s.fnCount = 0 ∧ (∀ ch k, (s.ctx ch k).phase.holds = false)) :=
  ⟨⟨awake State.reset, by decide⟩,
   ⟨(awake State.reset).wr Reg.govProfileLock 1, by decide⟩,
   ⟨{ State.reset with gov := { pendingProfile := [(3, 4)] } }, 3, 3, by decide⟩,
   ⟨awake State.reset, BitVec.ofNat 64 (2 ^ 63 + 0x42C * 2 ^ 48 + 1200 * 2 ^ 16 + 400), by decide⟩,
   ⟨awake State.reset, 0x42C, by decide⟩,
   ⟨(awake State.reset).modIsle 0x42C fun x => { x with pending := some 1200 }, 0x42C, 1200, by decide⟩,
   ⟨awake State.reset, 0x42E, 0x3CB, by decide⟩,
   ⟨awake State.reset, { islands := [{ island := 0x42C, temp := 459, activity := 0 }], power := 900, hbmCase := [] }, by decide⟩,
   ⟨{ awake State.reset with gov := { failed := true } }, by (repeat' apply And.intro) <;> first | decide | exact fun _ _ => rfl⟩⟩

/-- The hypotheses of every clause of IngestLanes are met. -/
theorem wit_ingestLanes :
    (∃ (s : State) (ch : BitVec 2) (lane : BitVec 4),
      let c := ch.toNat
      let l := lane.toNat
      s.laneUsed c l = true ∧ s.laneState c l = .down) ∧
    (∃ (s : State) (ch : BitVec 2) (lane : BitVec 4),
      let c := ch.toNat
      let l := lane.toNat
      s.laneUsed c l = true ∧ s.laneState c l = .locking) ∧
    (∃ (s : State) (ch : BitVec 2) (lane : BitVec 4),
      let c := ch.toNat
      let l := lane.toNat
      s.laneUsed c l = true ∧ s.laneState c l = .up) ∧
    (∃ (s : State) (ch : BitVec 2) (lane : BitVec 4),
      let c := ch.toNat
      let l := lane.toNat
      let g := s.ingOf c
      let p := s.igSec c
      let live := s.laneUsed c l = true ∧ s.laneState c l = .up ∧ s.isPair c = false ∧ s.ingSettle c = s
      ∃ (header : Bytes) (x : Copy),
      ∃ (k j : Nat), live ∧ g.onLane l = none ∧ s.liveIgnored = false ∧ (s.dsp c).drain = false ∧ s.rd (Reg.ingCtlResyncBusy c) = 0 ∧ fieldLE header 0
        1 = 0x78 ∧ x = { lane := l, tick := s.now, raw := fit 24 header, disp := .resync } ∧ igIndex p x.source x.index = some k ∧ x.ident ∉
        g.window ∧ g.live x.event = none ∧ g.events.length < 64 ∧ s.ingSlot c = some j ∧ (s.rd (Reg.ingMarkValid c) = 0 ∨ atOrBelow x.event
        (s.rd (Reg.ingMarkMark c)) = false) ∧ (∀ y ∈ g.events, y.event ≠ x.event)) ∧
    (∃ (s : State) (ch : BitVec 2) (lane : BitVec 4),
      let c := ch.toNat
      let l := lane.toNat
      let g := s.ingOf c
      let p := s.igSec c
      let live := s.laneUsed c l = true ∧ s.laneState c l = .up ∧ s.isPair c = false ∧ s.ingSettle c = s
      ∃ (header : Bytes) (x : Copy), live ∧ g.onLane l = none ∧ s.liveIgnored = false ∧ (s.dsp c).drain = false ∧ s.rd (Reg.ingCtlResyncBusy c) = 0 ∧
        fieldLE header 0 1 = 0x78 ∧ x = { lane := l, tick := s.now, raw := fit 24 header, disp := .resync } ∧ igIndex p x.source x.index =
        none) ∧
    (∃ (s : State) (ch : BitVec 2) (lane : BitVec 4),
      let c := ch.toNat
      let l := lane.toNat
      let g := s.ingOf c
      let live := s.laneUsed c l = true ∧ s.laneState c l = .up ∧ s.isPair c = false ∧ s.ingSettle c = s
      ∃ (x : Copy), live ∧ g.onLane l = some x ∧ x.disp ∈ [.unknown, .dup, .late, .drained, .ignored, .stopped, .lost, .excess, .later]) ∧
    (∃ (s : State) (ch : BitVec 2) (lane : BitVec 4),
      let c := ch.toNat
      let l := lane.toNat
      let g := s.ingOf c
      let p := s.igSec c
      let live := s.laneUsed c l = true ∧ s.laneState c l = .up ∧ s.isPair c = false ∧ s.ingSettle c = s
      ∃ (x : Copy) (e : FrameEv) (tail : Bytes),
      let d := { x with raw := x.raw ++ fit 8 tail }
      live ∧ fieldLE tail 0 1 = 0xE1 ∧ g.copies = [x] ∧ x.lane = l ∧ x.receiving = true ∧ x.disp = .deliver ∧ d.sound = true ∧ g.events = [e] ∧
        e.event = x.event ∧ e.stage ≠ .closed ∧ e.lag = false ∧ e.slot.isSome = true ∧ x.len = igExp p x.frag ∧ bitAt (fieldLE d.raw 14 1) 1 =
        false ∧ fieldLE d.raw (d.raw.length - 7) 1 = 0 ∧ s.rd Reg.hrdStatusState = 0 ∧ (∃ k, k < igFrags p ∧ k ≠ x.frag ∧ sget .missing e.frags
        k = .missing)) ∧
    (∃ (s : State) (ch : BitVec 2) (lane : BitVec 4),
      let c := ch.toNat
      let l := lane.toNat
      let g := s.ingOf c
      let live := s.laneUsed c l = true ∧ s.laneState c l = .up ∧ s.isPair c = false ∧ s.ingSettle c = s
      live ∧ g.onLane l = none) ∧
    (∃ (s : State) (ch : BitVec 2) (lane : BitVec 4),
      let c := ch.toNat
      let l := lane.toNat
      let g := s.ingOf c
      let p := s.igSec c
      let live := s.laneUsed c l = true ∧ s.laneState c l = .up ∧ s.isPair c = false ∧ s.ingSettle c = s
      ∃ (ev : BitVec 48) (e : FrameEv), s.ingOn c = true ∧ g.live ev.toNat = some e ∧ s.ingFlush c = s ∧ jumped (e.tick + igTimeout p) e.shift ≤
        s.now) ∧
    (∃ (s : State) (ch : BitVec 2),
      let c := ch.toNat
      let g := s.ingOf c
      let p := s.igSec c
      ∃ (ev : BitVec 48) (e : FrameEv), s.ingOn c = true ∧ (s.dsp c).drain = false ∧ s.ingSettle c = s ∧ g.frame ev.toNat = some e ∧ g.nextReady e =
        true ∧ s.wayStopped { kind := .store, src := .ingest c, dst := .cell (c * 256 + fieldLE p 14 2 % 256) } = false) ∧
    (∃ (s : State) (ch : BitVec 2),
      let c := ch.toNat
      s.ingGate c = .serve ∧ s.rd (Reg.ingCtlResyncBusy c) = 0) ∧
    (∃ (s : State) (ch : BitVec 2),
      let c := ch.toNat
      let g := s.ingOf c
      s.rd (Reg.ingCtlResyncBusy c) = 1 ∧ (s.island (0x418 + c)).stopped = false ∧ g.events = [] ∧ (∀ x ∈ g.copies, x.disp ≠ .resync)) :=
  ⟨⟨ingState, 3, 15, by decide⟩,
   ⟨{ ingState with ing := [(3, { lanes := [(15, .locking)] })] }, 3, 15, by decide⟩,
   ⟨ingUp {}, 3, 15, by decide⟩,
   ⟨ingUp {}, 3, 15, blob 24 [(0, 1, 0x78), (1, 1, 1), (2, 2, 4095), (4, 1, 255), (6, 6, 2 ^ 48 - 1)], { lane := 15, tick := 0, raw := fit 24 (blob 24 [(0, 1, 0x78), (1, 1, 1), (2, 2, 4095), (4, 1, 255), (6, 6, 2 ^ 48 - 1)]), disp := .resync }, 0, 0, by decide⟩,
   ⟨ingUp {}, 3, 15, blob 24 [(0, 1, 0x78), (1, 1, 1), (2, 2, 4094), (4, 1, 255), (6, 6, 2 ^ 48 - 1)], { lane := 15, tick := 0, raw := fit 24 (blob 24 [(0, 1, 0x78), (1, 1, 1), (2, 2, 4094), (4, 1, 255), (6, 6, 2 ^ 48 - 1)]), disp := .resync }, by decide⟩,
   ⟨ingUp { copies := [{ lane := 15, tick := 0, raw := [], disp := .later }] }, 3, 15, { lane := 15, tick := 0, raw := [], disp := .later }, by decide⟩,
   ⟨ingUp { copies := [{ lane := 15, tick := 0, raw := blob 24 [(0, 1, 0x78), (1, 1, 1), (2, 2, 4095), (4, 1, 255), (6, 6, 5)], disp := .deliver }], events := [{ event := 5, tick := 0, slot := some 0, shift := 1 }] }, 3, 15, { lane := 15, tick := 0, raw := blob 24 [(0, 1, 0x78), (1, 1, 1), (2, 2, 4095), (4, 1, 255), (6, 6, 5)], disp := .deliver }, { event := 5, tick := 0, slot := some 0, shift := 1 }, [0xE1, 0, 2, 0] ++ leBytes 4 (crc32 (blob 23 [(0, 1, 1), (1, 2, 4095), (3, 1, 255), (5, 6, 5)])), by decide +kernel⟩,
   ⟨ingUp {}, 3, 15, by decide⟩,
   ⟨{ ingUp { events := [{ event := 2 ^ 48 - 1, tick := 0, slot := some 0 }] } with counter := 1 }, 3, 15, 0xFFFFFFFFFFFF, { event := 2 ^ 48 - 1, tick := 0, slot := some 0 }, by decide⟩,
   ⟨ingUp { events := [{ event := 2 ^ 48 - 1, tick := 0, slot := some 0, stage := .closed, ready := some 0 }] }, 3, 0xFFFFFFFFFFFF, { event := 2 ^ 48 - 1, tick := 0, slot := some 0, stage := .closed, ready := some 0 }, by decide⟩,
   ⟨awake ingState, 3, by decide⟩,
   ⟨ingState.wr (Reg.ingCtlResyncBusy 3) 1, 3, by decide⟩⟩

/-- The hypotheses of every clause of CameraFrames are met. -/
theorem wit_cameraFrames :
    (∃ (s : State) (ch ctx : BitVec 2),
      let c := ch.toNat
      let k := ctx.toNat
      let g := s.camOf c
      let p := s.caSec c
      let on := s.camOn c = true ∧ s.isFollower c = false ∧ s.isPair c = false
      ∃ (num : BitVec 16) (x : CamGroup) (i : Nat), on ∧ s.camSettle c = s ∧ k < caCtxs p ∧ g.running k = none ∧ s.liveIgnored = false ∧ (s.dsp
        c).drain = false ∧ g.joins k num.toNat = some x ∧ (x.frames.any fun f => f.ctx == k) = false ∧ ((List.range (caRaw p)).find? fun i =>
        !(g.busyBufs k).contains i) = some i) ∧
    (∃ (s : State) (ch : BitVec 2),
      let c := ch.toNat
      let p := s.caSec c
      let on := s.camOn c = true ∧ s.isFollower c = false ∧ s.isPair c = false
      ∃ (vc : BitVec 4) (dt : BitVec 6), on ∧ s.camSettle c = s ∧ (∀ j, j < caCtxs p → fieldLE (caCtx p j) 0 1 = vc.toNat → if dt.toNat = 0x12 then
        fieldLE (caCtx p j) 2 1 ≠ 1 else caDt p j ≠ dt.toNat)) ∧
    (∃ (s : State) (ch ctx : BitVec 2),
      let c := ch.toNat
      let k := ctx.toNat
      let g := s.camOf c
      let p := s.caSec c
      let on := s.camOn c = true ∧ s.isFollower c = false ∧ s.isPair c = false
      ∃ (vc : BitVec 4) (dt : BitVec 6) (crcOk full : Bool),
      ∃ (x : CamGroup) (f : CamFrame), on ∧ s.camSettle c = s ∧ dt.toNat = 0x12 ∧ crcOk = true ∧ full = false ∧ k < caCtxs p ∧ fieldLE (caCtx p k) 0 1
        = vc.toNat ∧ fieldLE (caCtx p k) 2 1 = 1 ∧ (∀ j, j < k → ¬ (fieldLE (caCtx p j) 0 1 = vc.toNat ∧ fieldLE (caCtx p j) 2 1 = 1)) ∧
        g.running k = some (x, f) ∧ f.dropping = false) ∧
    (∃ (s : State) (ch ctx : BitVec 2),
      let c := ch.toNat
      let k := ctx.toNat
      let g := s.camOf c
      let p := s.caSec c
      let on := s.camOn c = true ∧ s.isFollower c = false ∧ s.isPair c = false
      ∃ (x : CamGroup) (f : CamFrame), on ∧ s.camSettle c = s ∧ g.running k = some (x, f) ∧ caH p ≤ f.lines) ∧
    (∃ (s : State) (ch ctx : BitVec 2),
      let c := ch.toNat
      let k := ctx.toNat
      let g := s.camOf c
      let p := s.caSec c
      ∃ (x : CamGroup) (f : CamFrame), s.camOn c = true ∧ g.running k = some (x, f) ∧ caH p ≤ f.lines ∧ jumped (f.start + 1000 * fieldLE p 0x18 4)
        f.shift ≤ s.now) ∧
    (∃ (s : State) (ch : BitVec 2),
      let c := ch.toNat
      let g := s.camOf c
      let p := s.caSec c
      ∃ (x : CamGroup), s.camOn c = true ∧ (g.groups.find? fun y => !y.closed && decide (jumped (y.tick + 1000 * fieldLE p 0x14 4) y.shift ≤ s.now)) =
        some x ∧ (∀ f ∈ x.frames, f.ended = true) ∧ g.group x.f = some x) ∧
    (∃ (s : State) (ch : BitVec 2),
      let c := ch.toNat
      let g := s.camOf c
      let p := s.caSec c
      ∃ (x : CamGroup) (i : Nat), s.camOn c = true ∧ (s.dsp c).drain = false ∧ s.camSettle c = s ∧ (g.groups.find? fun y => !y.done) = some x ∧
        ((List.range (fieldLE p 0x4A 1)).find? fun i => !g.slots.contains i) = some i ∧ x.closed = true ∧ x.frames ≠ []) ∧
    (∃ (s : State) (ch : BitVec 2),
      let c := ch.toNat
      let g := s.camOf c
      ∃ (x : CamGroup) (l : List CamGroup), s.camOn c = true ∧ (s.dsp c).drain = false ∧ s.camSettle c = s ∧ g.groups = x :: l ∧ x.stuck = false ∧
        x.closed = true ∧ x.frames = [] ∧ x.done = false ∧ x.slot = none) ∧
    (∃ (s : State) (ch : BitVec 2),
      let c := ch.toNat
      let g := s.camOf c
      let p := s.caSec c
      ∃ (w : SensorWrite) (l : List SensorWrite), s.camOn c = true ∧ g.bus = w :: l ∧ w.since + 1000 * fieldLE p 0x10 4 ≤ s.now) ∧
    (∃ (s : State) (ch : BitVec 2),
      let c := ch.toNat
      let g := s.camOf c
      let p := s.caSec c
      s.camOn c = true ∧ (s.dsp c).drain = false ∧ g.quiet + 1000000 ≤ s.now ∧ s.hbmErr = [] ∧ s.absentStack (caBase p 3) 4 = none) ∧
    (∃ (s : State) (ch : BitVec 2),
      let c := ch.toNat
      let g := s.camOf c
      let on := s.camOn c = true ∧ s.isFollower c = false ∧ s.isPair c = false
      ∃ (w : SensorWrite) (l : List SensorWrite) (r : CamReq), on ∧ g.bus = w :: l ∧ (g.reqs.find? fun r => r.index == w.index) = some r ∧ 1 < r.left) ∧
    (∃ (s : State) (ch : BitVec 2),
      let c := ch.toNat
      s.camGate c = .serve) :=
  ⟨⟨camState { groups := [{ f := 7, num := 0xFFFF, tick := 0 }] }, 3, 3, 0xFFFF, { f := 7, num := 0xFFFF, tick := 0 }, 0, by decide +kernel⟩,
   ⟨camState { frameSeq := 1 }, 3, 14, 0x3F, by decide +kernel⟩,
   ⟨camState { groups := [{ f := 7, num := 0xFFFF, tick := 0, frames := [{ ctx := 3, num := 0xFFFF, start := 0, buf := 0 }] }] }, 3, 3, 15, 0x12, true, false, { f := 7, num := 0xFFFF, tick := 0, frames := [{ ctx := 3, num := 0xFFFF, start := 0, buf := 0 }] }, { ctx := 3, num := 0xFFFF, start := 0, buf := 0 }, by decide +kernel⟩,
   ⟨camState { groups := [{ f := 7, num := 0xFFFF, tick := 0, frames := [{ ctx := 3, num := 0xFFFF, start := 0, buf := 0, lines := 1 }] }] }, 3, 3, { f := 7, num := 0xFFFF, tick := 0, frames := [{ ctx := 3, num := 0xFFFF, start := 0, buf := 0, lines := 1 }] }, { ctx := 3, num := 0xFFFF, start := 0, buf := 0, lines := 1 }, by decide +kernel⟩,
   ⟨{ camState { groups := [{ f := 7, num := 0xFFFF, tick := 0, frames := [{ ctx := 3, num := 0xFFFF, start := 0, buf := 0, lines := 1 }] }] } with counter := 1000 }, 3, 3, { f := 7, num := 0xFFFF, tick := 0, frames := [{ ctx := 3, num := 0xFFFF, start := 0, buf := 0, lines := 1 }] }, { ctx := 3, num := 0xFFFF, start := 0, buf := 0, lines := 1 }, by decide +kernel⟩,
   ⟨{ camState { groups := [{ f := 7, num := 0xFFFF, tick := 0 }] } with counter := 1000 }, 3, { f := 7, num := 0xFFFF, tick := 0 }, by decide +kernel⟩,
   ⟨camState { groups := [{ f := 7, num := 0xFFFF, tick := 0, closed := true, frames := [{ ctx := 3, num := 0xFFFF, start := 0, buf := 0, lines := 1, ended := true }] }] }, 3, { f := 7, num := 0xFFFF, tick := 0, closed := true, frames := [{ ctx := 3, num := 0xFFFF, start := 0, buf := 0, lines := 1, ended := true }] }, 0, by decide +kernel⟩,
   ⟨camState { groups := [{ f := 7, num := 0xFFFF, tick := 0, closed := true }] }, 3, { f := 7, num := 0xFFFF, tick := 0, closed := true }, [], by decide +kernel⟩,
   ⟨{ camState { bus := [{ index := 7, write := 3, since := 0 }] } with counter := 1000 }, 3, { index := 7, write := 3, since := 0 }, [], by decide +kernel⟩,
   ⟨{ (camState { frameSeq := 1 }).wr (Reg.memStatusPresent 0) 1 with counter := 1000000 }, 3, by decide +kernel⟩,
   ⟨camState { bus := [{ index := 7, write := 3, since := 0 }], reqs := [{ index := 7, entry := [], taken := 0, tick := 0, eff := 0, left := 2 }] }, 3, { index := 7, write := 3, since := 0 }, [], { index := 7, entry := [], taken := 0, tick := 0, eff := 0, left := 2 }, by decide +kernel⟩,
   ⟨awake (camState { frameSeq := 1 }), 3, by decide +kernel⟩⟩

/-- The hypotheses of every clause of WaggleLink are met. -/
theorem wit_waggleLink :
    (∃ (s : State) (quad : BitVec 4),
      let q := quad.toNat
      ∃ (p : Bytes), s.wgPort q = some p ∧ s.portOn q = true ∧ s.linkState q = 1) ∧
    (∃ (s : State) (quad : BitVec 4),
      let q := quad.toNat
      ∃ (p : Bytes), s.wgPort q = some p ∧ s.portOn q = true ∧ s.linkStage q = 2) ∧
    (∃ (s : State) (quad : BitVec 4),
      let q := quad.toNat
      ∃ (p : Bytes), s.wgPort q = some p ∧ s.portOn q = true ∧ s.linkStage q = 3) ∧
    (∃ (s : State) (quad : BitVec 4),
      let q := quad.toNat
      ∃ (p : Bytes),
      ∃ (flit : Bytes), s.wgPort q = some p ∧ s.portOn q = true ∧ s.linkStage q = 4 ∧ badFlit flit = true) ∧
    (∃ (s : State) (quad : BitVec 4),
      let q := quad.toNat
      ∃ (p : Bytes),
      ∃ (flit : Bytes),
      let b := flit.take 64
      ∃ (o : Nat), s.wgPort q = some p ∧ s.portOn q = true ∧ s.linkStage q = 4 ∧ badFlit flit = false ∧ flType flit = 3 ∧ s.initBad q p b = some o) ∧
    (∃ (s : State) (quad : BitVec 4),
      let q := quad.toNat
      ∃ (p : Bytes),
      ∃ (flit : Bytes),
      let b := flit.take 64
      s.wgPort q = some p ∧ s.portOn q = true ∧ s.linkStage q = 4 ∧ badFlit flit = false ∧ flType flit = 3 ∧ s.initBad q p b = none) ∧
    (∃ (s : State) (quad : BitVec 4),
      let q := quad.toNat
      ∃ (p : Bytes), s.wgPort q = some p ∧ s.portOn q = true ∧ s.linkState q = 5 ∧ s.chanGate (quadCh q) = .serve) ∧
    (∃ (s : State) (quad : BitVec 4),
      let q := quad.toNat
      let w := s.wglOf q
      ∃ (p : Bytes),
      ∃ (lane : BitVec 2),
      let l := lane.toNat
      ∃ (portion : Bytes),
      let mask := fieldLE portion 1 1 % 16
      s.wgPort q = some p ∧ s.portOn q = true ∧ s.linkState q = 5 ∧ bitAt (s.rd (Reg.wglStatusActive q)) l = true ∧ s.rd (Reg.wglCtlRetireEn q) = 0 ∧
        (∀ e ∈ w.masks, e.1 ≠ l → e.2.1 = fieldLE portion 2 2 → e.2.2 = mask)) ∧
    (∃ (s : State) (quad : BitVec 4),
      let q := quad.toNat
      s.linkState q = 2 ∧ 100000000 ≤ s.inState q) ∧
    (∃ (s : State) (quad : BitVec 4),
      let q := quad.toNat
      s.linkState q = 3 ∧ 10000000 ≤ s.inState q) ∧
    (∃ (s : State) (quad : BitVec 4),
      let q := quad.toNat
      s.linkState q = 4 ∧ 1000000 ≤ s.inState q) ∧
    (∃ (s : State) (quad : BitVec 4),
      let q := quad.toNat
      s.linkState q = 6 ∧ 10000000 ≤ s.inState q ∧ (∀ r ∈ s.relays (quadCh q), cePrev r.2 ≠ 2) ∧ s.tmRole ≠ 2 ∧ s.fnCount = 0) ∧
    (∃ (s : State) (quad : BitVec 4),
      let q := quad.toNat
      let w := s.wglOf q
      ∃ (p : Bytes) (d : Nat), s.wgPort q = some p ∧ w.downAt = some d ∧ s.linkState q ≠ 5 ∧ d + wpHold p ≤ s.now) :=
  ⟨⟨wagState 1 {}, 15, wagPort, by decide +kernel⟩,
   ⟨wagState 6 { phase := 2 }, 15, wagPort, by decide +kernel⟩,
   ⟨wagState 3 {}, 15, wagPort, by decide +kernel⟩,
   ⟨wagState 4 {}, 15, wagPort, zeros 72, by decide +kernel⟩,
   ⟨wagState 4 { trained := 15 }, 15, wagPort, mkFlit 0 0 3 0 [], 0, by decide +kernel⟩,
   ⟨wagState 6 { phase := 4, trained := 15 }, 15, wagPort, mkFlit 0 0 3 0 (blob 64 [(0, 2, 0x100), (2, 1, 7), (5, 1, 3), (6, 1, 2)]), by decide +kernel⟩,
   ⟨awake (wagState 5 {}), 15, wagPort, by decide +kernel⟩,
   ⟨(wagState 5 { masks := [(0, 1, 8)] }).wr (Reg.wglStatusActive 15) 15, 15, wagPort, 3, [0, 8, 1, 0, 0, BitVec.ofNat 8 (crc8 [0, 8, 1, 0, 0])], by decide +kernel⟩,
   ⟨{ wagState 2 { entered := 7 } with counter := 100000007 }, 15, by decide +kernel⟩,
   ⟨{ wagState 3 {} with counter := 10000000 }, 15, by decide +kernel⟩,
   ⟨{ wagState 4 {} with counter := 1000000 }, 15, by decide +kernel⟩,
   ⟨{ (State.reset).wr (Reg.wglStatusState 15) 6 with counter := 10000000 }, 15, by decide +kernel⟩,
   ⟨{ wagState 1 { downAt := some 7 } with counter := 1007 }, 15, wagPort, 7, by decide +kernel⟩⟩

/-- The hypotheses of every clause of WaggleFlits are met. -/
theorem wit_waggleFlits :
    (∃ (s : State) (quad : BitVec 4) (p : Bytes),
      let q := quad.toNat
      let w := s.wglOf q
      ∃ (flit : Bytes),
      ∃ (fec : FecSeen), s.wgPort q = some p ∧ s.portOn q = true ∧ s.linkState q = 5 ∧ (fec = .uncorrectable ∨ badFlit flit = true ∨ (flType flit = 1
        ∧ flSeq flit ≠ w.rxSeq))) ∧
    (∃ (s : State) (quad : BitVec 4) (p : Bytes),
      let q := quad.toNat
      let w := s.wglOf q
      ∃ (flit : Bytes),
      ∃ (fec : FecSeen), s.wgPort q = some p ∧ s.portOn q = true ∧ s.linkState q = 5 ∧ badFlit flit = false ∧ flType flit = 1 ∧ flSeq flit = w.rxSeq ∧
        fec ≠ .uncorrectable) ∧
    (∃ (s : State) (quad : BitVec 4) (p : Bytes),
      let q := quad.toNat
      ∃ (flit : Bytes), s.wgPort q = some p ∧ s.portOn q = true ∧ s.linkState q = 5 ∧ badFlit flit = false ∧ (∀ i, i < 4 → bitAt (fieldLE flit 8 1) i
        = false) ∧ flType flit = 0) ∧
    (∃ (s : State) (quad : BitVec 4) (p : Bytes),
      let q := quad.toNat
      let w := s.wglOf q
      ∃ (flit : Bytes),
      ∃ (u : Wgl), s.wgPort q = some p ∧ s.portOn q = true ∧ s.linkState q = 5 ∧ badFlit flit = false ∧ (∀ i, i < 4 → bitAt (fieldLE flit 8 1) i =
        false) ∧ flType flit = 2 ∧ w.acked (flAck flit) s.now = some u ∧ u.replay ≠ []) ∧
    (∃ (s : State) (quad : BitVec 4) (p : Bytes),
      let q := quad.toNat
      let w := s.wglOf q
      s.wgPort q = some p ∧ s.portOn q = true ∧ s.linkState q = 5 ∧ w.replay ≠ [] ∧ w.progress + wpAckTimeout p ≤ s.now) :=
  ⟨⟨wagState 5 {}, 15, wagPort, mkFlit 4095 4095 1 3 [], .corrected, by decide +kernel⟩,
   ⟨wagState 5 { rxSeq := 4095 }, 15, wagPort, mkFlit 4095 4095 1 3 [], .corrected, by decide +kernel⟩,
   ⟨wagState 5 {}, 15, wagPort, mkFlit 0 0 0 0 [], by decide +kernel⟩,
   ⟨wagState 5 { txSeq := 1, replay := [{ seq := 0, vl := 1, payload := zeros 64 }], replays := 8 }, 15, wagPort, mkFlit 0 4095 2 0 [], { txSeq := 1, replay := [{ seq := 0, vl := 1, payload := zeros 64 }], replays := 8 }, by decide +kernel⟩,
   ⟨{ wagState 5 { txSeq := 1, replay := [{ seq := 0, vl := 1, payload := zeros 64 }], replays := 8 } with counter := 1 }, 15, wagPort, by decide +kernel⟩⟩

/-- The hypotheses of every clause of WaggleMessages are met. -/
theorem wit_waggleMessages :
    (∃ (s : State) (quad : BitVec 4) (m : RxMsg),
      let q := quad.toNat
      let c := quadCh q
      let w := s.wglOf q
      ∃ (i : Instr) (vl : Nat), s.portOn q = true ∧ s.rd Reg.hrdStatusState = 0 ∧ s.isPair c = false ∧ ((i = .wglData quad ∧ vl = 3) ∨ (i = .wglStore
        quad ∧ vl = 3) ∨ (i = .wglChain quad ∧ vl = 2) ∨ (i = .wglAnnounce quad ∧ vl = 2)) ∧ w.headOf vl = some m ∧ s.disposition q m ≠ 5) ∧
    (∃ (s : State) (quad : BitVec 4) (m : RxMsg),
      let q := quad.toNat
      let c := quadCh q
      let w := s.wglOf q
      let b := m.bytes
      ∃ (e : Bytes), s.portOn q = true ∧ s.rd Reg.hrdStatusState = 0 ∧ s.isPair c = false ∧ s.disposition q m = 5 ∧ w.headOf 3 = some m ∧ mType b = 1
        ∧ s.wgStream q (mStream b) = some e ∧ wsSink e = 0) ∧
    (∃ (s : State) (quad : BitVec 4) (m : RxMsg),
      let q := quad.toNat
      let c := quadCh q
      let w := s.wglOf q
      let b := m.bytes
      ∃ (e : Bytes), s.portOn q = true ∧ s.rd Reg.hrdStatusState = 0 ∧ s.isPair c = false ∧ s.disposition q m = 5 ∧ w.headOf 3 = some m ∧ mType b = 1
        ∧ s.wgStream q (mStream b) = some e ∧ 1 < wsSink e ∧ fieldLE b 12 2 < 64 ∧ s.queueUp (fieldLE b 12 2) = true ∧ recBytes b.length ≤
        s.stagingFree) ∧
    (∃ (s : State) (quad : BitVec 4) (m : RxMsg),
      let q := quad.toNat
      let c := quadCh q
      let w := s.wglOf q
      let b := m.bytes
      let arg := mArg b
      let id := bits (fieldLE arg 0 8) 0 10
      let off := bits (fieldLE arg 0 8) 20 21
      let n := b.length - 32
      s.portOn q = true ∧ s.rd Reg.hrdStatusState = 0 ∧ s.isPair c = false ∧ s.disposition q m = 5 ∧ w.headOf 3 = some m ∧ mType b = 2 ∧ isLogical id
        = true ∧ off + n ≤ 0x180000 ∧ 0 < n ∧ n ≤ 512 ∧ s.closedOn c (chOf id) = none ∧ s.inboundCause id off n false = 0) ∧
    (∃ (s : State) (quad : BitVec 4) (m : RxMsg),
      let q := quad.toNat
      let c := quadCh q
      let w := s.wglOf q
      let b := m.bytes
      let arg := mArg b
      ∃ (r : Nat) (e : Bytes),
      let n := fieldLE arg 2 6
      s.portOn q = true ∧ s.rd Reg.hrdStatusState = 0 ∧ s.isPair c = false ∧ s.disposition q m = 5 ∧ w.headOf 2 = some m ∧ mType b = 3 ∧ (s.relays
        c).find? (fun r => ceId r.2 == fieldLE arg 0 1 && ceStation r.2 == fieldLE arg 1 1 + 1 && fromPrev r.2 (some (q % 4, mStream b))) =
        some (r, e) ∧ s.inst c r n = none ∧ s.closedInst c r n = none ∧ s.isAnnounced c r = true ∧ bitAt (fieldLE arg 14 1) 0 = false ∧ fieldLE
        arg 12 2 = 0 ∧ 32 < b.length ∧ (b.length - 32) % ceRecLen e = 0 ∧ (b.length - 32) / ceRecLen e < ceRecords e) ∧
    (∃ (s : State) (quad : BitVec 4) (m : RxMsg),
      let q := quad.toNat
      let c := quadCh q
      let w := s.wglOf q
      let b := m.bytes
      let arg := mArg b
      ∃ (r : Nat) (e : Bytes), s.portOn q = true ∧ s.rd Reg.hrdStatusState = 0 ∧ s.isPair c = false ∧ s.disposition q m = 5 ∧ w.headOf 2 = some m ∧
        mType b = 4 ∧ bitAt (fieldLE arg 6 1) 0 = true ∧ (s.relays c).find? (fun r => ceId r.2 == fieldLE arg 0 1 && fromPrev r.2 (some (q % 4,
        mStream b)) && ceStation r.2 == fieldLE arg 1 1 + 1 && ceCount r.2 == fieldLE arg 2 1 && ceForm r.2 == fieldLE arg 3 1 && ceRecords r.2
        == fieldLE arg 4 2) = some (r, e)) ∧
    (∃ (s : State) (quad : BitVec 4) (m : RxMsg),
      let q := quad.toNat
      let c := quadCh q
      let w := s.wglOf q
      let b := m.bytes
      let mine := fun x : TxMsg => x.vl != 0 && x.stream == fieldLE b 16 1 && x.id == fieldLE b 20 4
      s.portOn q = true ∧ s.rd Reg.hrdStatusState = 0 ∧ s.isPair c = false ∧ w.headOf 0 = some m ∧ s.badMack q b = false ∧ w.tx.any mine = true) :=
  ⟨⟨wagState 5 { inbox := [wagMsg 2 3 3 8 []], running := [{ src := 7, stream := 3, id := 2 ^ 32 - 1, left := 1 }] }, 15, wagMsg 2 3 3 8 [], .wglChain 15, 2, by decide +kernel⟩,
   ⟨wagState 5 { inbox := [wagMsg 3 1 0 8 []] }, 15, wagMsg 3 1 0 8 [], wagStream 0 0 0, by decide +kernel⟩,
   ⟨{ wagState 5 { inbox := [wagMsg 3 1 1 8 [(12, 2, 63)]] } with host := { queues := [(63, { enabled := true })] } }, 15, wagMsg 3 1 1 8 [(12, 2, 63)], wagStream 1 0 2, by decide +kernel⟩,
   ⟨wagState 5 { inbox := [wagMsg 3 2 2 8 [(16, 8, 0x3BB + 0x17FFF8 * 2 ^ 20)]] }, 15, wagMsg 3 2 2 8 [(16, 8, 0x3BB + 0x17FFF8 * 2 ^ 20)], by decide +kernel⟩,
   ⟨{ wagState 5 { inbox := [wagMsg 2 3 3 24 [(16, 1, 255), (18, 6, 2 ^ 48 - 1)]] } with disp := [(3, { announced := [0] })] }, 15, wagMsg 2 3 3 24 [(16, 1, 255), (18, 6, 2 ^ 48 - 1)], 0, wagChain 255 2, by decide +kernel⟩,
   ⟨wagState 5 { inbox := [wagMsg 2 4 3 0 [(16, 1, 255), (18, 1, 3), (20, 2, 2), (22, 1, 1)]] }, 15, wagMsg 2 4 3 0 [(16, 1, 255), (18, 1, 3), (20, 2, 2), (22, 1, 1)], 0, wagChain 255 2, by decide +kernel⟩,
   ⟨wagState 5 { inbox := [wagMsg 0 7 0 0 [(4, 4, 0), (8, 8, 0), (16, 1, 1), (20, 4, 2 ^ 32 - 1)]], tx := [{ stream := 1, id := 2 ^ 32 - 1, vl := 3, bytes := [], left := [] }] }, 15, wagMsg 0 7 0 0 [(4, 4, 0), (8, 8, 0), (16, 1, 1), (20, 4, 2 ^ 32 - 1)], by decide +kernel⟩⟩

/-- The hypotheses of every clause of Chains are met. -/
theorem wit_chains :
    (∃ (s : State) (i : Nat) (p : Packet) (ch : BitVec 2),
      let c := ch.toNat
      s.rd Reg.hrdStatusState = 0 ∧ s.arriving i [.msg] = some p ∧ p.dst = .dispatcher c ∧ p.route = none ∧ 1 < bits p.arg.toNat 16 8 ∧ s.relayOf c
        (bits p.arg.toNat 16 8) (bits p.arg.toNat 0 10) = none) ∧
    (∃ (s : State) (i : Nat) (p : Packet) (ch : BitVec 2),
      let c := ch.toNat
      let n := fieldLE p.payload 0 8
      let x := p.payload.drop 8
      let user := bits p.arg.toNat 48 16
      ∃ (r : Nat) (e : Bytes), s.rd Reg.hrdStatusState = 0 ∧ s.arriving i [.msg] = some p ∧ p.dst = .dispatcher c ∧ p.route = none ∧ 1 < bits
        p.arg.toNat 16 8 ∧ s.relayOf c (bits p.arg.toNat 16 8) (bits p.arg.toNat 0 10) = some (r, e) ∧ s.inst c r n = none ∧ s.closedInst c r n
        = none ∧ 8 ≤ p.payload.length ∧ n < 2 ^ 48 ∧ x.length % ceRecLen e = 0 ∧ x.length ≤ cePiece e * ceRecLen e ∧ ceLast e = false ∧ user %
        2 ^ 15 = 0 ∧ x.length < ceRecords e * ceRecLen e) ∧
    (∃ (s : State) (i : Nat) (p : Packet) (ch : BitVec 2),
      let c := ch.toNat
      let bs := p.payload.drop 16
      ∃ (r : Nat) (e : Bytes),
      let arg := p.payload.take 16
      let n := fieldLE arg 2 6
      s.rd Reg.hrdStatusState = 0 ∧ s.arriving i [.chainForward] = some p ∧ p.dst = .dispatcher c ∧ (s.relays c).find? (fun r => ceId r.2 == fieldLE
        arg 0 1 && ceStation r.2 == fieldLE arg 1 1 + 1 && fromPrev r.2 none) = some (r, e) ∧ s.inst c r n = none ∧ s.closedInst c r n = none ∧
        s.isAnnounced c r = true ∧ bitAt (fieldLE arg 14 1) 0 = false ∧ fieldLE arg 12 2 = 0 ∧ bs ≠ [] ∧ bs.length % ceRecLen e = 0 ∧ bs.length
        / ceRecLen e < ceRecords e) ∧
    (∃ (s : State) (i : Nat) (p : Packet) (ch : BitVec 2),
      let c := ch.toNat
      ∃ (r : Nat) (e : Bytes),
      let arg := p.payload
      s.rd Reg.hrdStatusState = 0 ∧ s.arriving i [.chainAnnounce] = some p ∧ p.dst = .dispatcher c ∧ bitAt (fieldLE arg 6 1) 0 = true ∧ (s.relays
        c).find? (fun r => ceId r.2 == fieldLE arg 0 1 && fromPrev r.2 none && ceStation r.2 == fieldLE arg 1 1 + 1 && ceCount r.2 == fieldLE
        arg 2 1 && ceForm r.2 == fieldLE arg 3 1 && ceRecords r.2 == fieldLE arg 4 2) = some (r, e)) ∧
    (∃ (s : State) (ch : BitVec 2),
      let c := ch.toNat
      ∃ (entry : BitVec 6) (inst : BitVec 48) (e : Bytes) (x : ChainInst), s.rd Reg.hrdStatusState = 0 ∧ s.inst c entry.toNat inst.toNat = some x ∧
        s.chainEntry c entry.toNat = some e ∧ s.chainExpired x = true ∧ ceLast e = false ∧ x.outBytes = [] ∧ x.forwarded = false) :=
  ⟨⟨{ wagState 5 {} with pkts := [{ kind := .msg, src := .cell 0x3BB, dst := .dispatcher 3, arg := BitVec.ofNat 64 (0x3BB + 253 * 2 ^ 16) }] }, 0, { kind := .msg, src := .cell 0x3BB, dst := .dispatcher 3, arg := BitVec.ofNat 64 (0x3BB + 253 * 2 ^ 16) }, 3, by decide +kernel⟩,
   ⟨{ wagState 5 {} with pkts := [{ kind := .msg, src := .cell 0x3BB, dst := .dispatcher 3, arg := BitVec.ofNat 64 (0x3BB + 254 * 2 ^ 16 + 2 ^ 63), payload := blob 32 [(0, 6, 2 ^ 48 - 1)] }] }, 0, { kind := .msg, src := .cell 0x3BB, dst := .dispatcher 3, arg := BitVec.ofNat 64 (0x3BB + 254 * 2 ^ 16 + 2 ^ 63), payload := blob 32 [(0, 6, 2 ^ 48 - 1)] }, 3, 1, wagChain 254 1, by decide +kernel⟩,
   ⟨{ wagState 5 {} with disp := [(3, { announced := [1] })], pkts := [{ kind := .chainForward, src := .dispatcher 0, dst := .dispatcher 3, payload := blob 40 [(0, 1, 254), (2, 6, 2 ^ 48 - 1)] }] }, 0, { kind := .chainForward, src := .dispatcher 0, dst := .dispatcher 3, payload := blob 40 [(0, 1, 254), (2, 6, 2 ^ 48 - 1)] }, 3, 1, wagChain 254 1, by decide +kernel⟩,
   ⟨{ wagState 5 {} with pkts := [{ kind := .chainAnnounce, src := .dispatcher 0, dst := .dispatcher 3, payload := blob 16 [(0, 1, 254), (2, 1, 3), (4, 2, 2), (6, 1, 1)] }] }, 0, { kind := .chainAnnounce, src := .dispatcher 0, dst := .dispatcher 3, payload := blob 16 [(0, 1, 254), (2, 1, 3), (4, 2, 2), (6, 1, 1)] }, 3, 1, wagChain 254 1, by decide +kernel⟩,
   ⟨{ wagState 5 {} with disp := [(3, { chains := [{ entry := 1, inst := 2 ^ 48 - 1, timeout := some 0 }] })] }, 3, 1, 0xFFFFFFFFFFFF, wagChain 254 1, { entry := 1, inst := 2 ^ 48 - 1, timeout := some 0 }, by decide +kernel⟩⟩

/-- The hypotheses of every clause of CounterAndEpoch are met. -/
theorem wit_counterAndEpoch :
    (∃ (s : State), s.pwr.running = true ∧ (s.rd Reg.timeEpochCtlArm = 0 ∨ s.time.armTick = s.now)) ∧
    (∃ (s : State), s.pwr.running = true ∧ s.rd Reg.timeEpochCtlArm = 1 ∧ s.time.armTick ≠ s.now ∧ s.group = 3 ∧ s.tmRole = 1) ∧
    (∃ (s : State),
      let calm := s.rd Reg.hrdStatusState = 0 ∧ ∀ ch k, (sget {} (s.dsp ch).arms k).armed = false
      s.pwr.running = true ∧ s.rd Reg.timeEpochCtlArm = 1 ∧ s.time.armTick ≠ s.now ∧ ¬ (s.group = 3 ∧ s.tmRole = 1) ∧ calm) ∧
    (∃ (s : State), s.pwr.running = true ∧ s.tmMref ≠ 0 ∧ s.rd Reg.timeStatusSource ≠ 1 ∧ s.rd Reg.hrdStatusState = 0) ∧
    (∃ (s : State), s.pwr.running = true ∧ s.rd Reg.timeStatusSource = 1 ∧ s.rd Reg.hrdStatusState = 0) ∧
    (∃ (s : State), s.pwr.running = true ∧ 999 ≤ s.time.slewTick ∧ 0 < s.time.slew) ∧
    (∃ (s : State), s.pwr.running = true ∧ 999 ≤ s.time.slewTick ∧ s.time.slew < 0) ∧
    (∃ (s : State),
      let calm := s.rd Reg.hrdStatusState = 0 ∧ ∀ ch k, (sget {} (s.dsp ch).arms k).armed = false
      ∃ (a : Nat), s.time.stepAt = some a ∧ a ≤ s.now ∧ calm) ∧
    (∃ (s : State), s.blockGate = .serve ∧ s.armRefused = true) ∧
    (∃ (s : State), s.blockGate = .serve ∧ s.armRefused = false) :=
  ⟨⟨awake State.reset, by decide +kernel⟩,
   ⟨{ (awake (inGroup State.reset 1 3)).wr Reg.timeEpochCtlArm 1 with counter := 1 }, by decide +kernel⟩,
   ⟨{ (awake (inGroup State.reset 2 3)).wr Reg.timeEpochCtlArm 1 with counter := 1 }, by (repeat' apply And.intro) <;> first | decide | exact fun _ _ => rfl⟩,
   ⟨awake (inGroup State.reset 1 3), by decide +kernel⟩,
   ⟨(awake State.reset).wr Reg.timeStatusSource 1, by decide +kernel⟩,
   ⟨{ awake State.reset with time := { slew := 1, slewTick := 999 } }, by decide +kernel⟩,
   ⟨{ awake State.reset with time := { slew := -1, slewTick := 999 } }, by decide +kernel⟩,
   ⟨{ State.reset with time := { stepAt := some 0, stepJump := -1 } }, 0, by (repeat' apply And.intro) <;> first | decide | exact fun _ _ => rfl⟩,
   ⟨awake (inGroup State.reset 2 2), by decide +kernel⟩,
   ⟨awake (inGroup State.reset 1 3), by decide +kernel⟩⟩

/-- The hypotheses of every clause of GroupOfDevices are met. -/
theorem wit_groupOfDevices :
    (∃ (s : State),
      ∃ (quad : BitVec 4) (m : RxMsg),
      let q := quad.toNat
      let w := s.wglOf q
      let b := m.bytes
      let pl := b.drop 32
      let up := s.isUp q (mStream b)
      s.portOn q = true ∧ s.rd Reg.hrdStatusState = 0 ∧ w.headOf 1 = some m ∧ s.disposition q m = 5 ∧ mType b = 5 ∧ bKind b = 0 ∧ up = true ∧ fieldLE
        pl 0 8 = 0) ∧
    (∃ (s : State),
      ∃ (quad : BitVec 4) (m : RxMsg),
      let q := quad.toNat
      let w := s.wglOf q
      let b := m.bytes
      let up := s.isUp q (mStream b)
      s.portOn q = true ∧ s.rd Reg.hrdStatusState = 0 ∧ w.headOf 1 = some m ∧ s.disposition q m = 5 ∧ mType b = 5 ∧ bKind b = 1 ∧ up = false) ∧
    (∃ (s : State),
      ∃ (quad : BitVec 4) (m : RxMsg),
      let q := quad.toNat
      let w := s.wglOf q
      let b := m.bytes
      let arg := mArg b
      let up := s.isUp q (mStream b)
      let group := fieldLE arg 10 2
      s.portOn q = true ∧ s.rd Reg.hrdStatusState = 0 ∧ w.headOf 1 = some m ∧ s.disposition q m = 5 ∧ mType b = 5 ∧ bKind b = 2 ∧ up = false ∧ s.group
        = 1) ∧
    (∃ (s : State),
      ∃ (quad : BitVec 4) (m : RxMsg),
      let q := quad.toNat
      let w := s.wglOf q
      let b := m.bytes
      let arg := mArg b
      let pl := b.drop 32
      let up := s.isUp q (mStream b)
      let group := fieldLE arg 10 2
      s.portOn q = true ∧ s.rd Reg.hrdStatusState = 0 ∧ w.headOf 1 = some m ∧ s.disposition q m = 5 ∧ mType b = 5 ∧ bKind b = 2 ∧ up = false ∧
        (s.group = 2 ∨ s.group = 3) ∧ s.joinBad group pl = none ∧ s.tmRole ≠ 1) ∧
    (∃ (s : State),
      ∃ (quad : BitVec 4) (m : RxMsg),
      let q := quad.toNat
      let w := s.wglOf q
      let b := m.bytes
      let arg := mArg b
      let pl := b.drop 32
      let up := s.isUp q (mStream b)
      let group := fieldLE arg 10 2
      ∃ (f : Nat), s.portOn q = true ∧ s.rd Reg.hrdStatusState = 0 ∧ w.headOf 1 = some m ∧ s.disposition q m = 5 ∧ mType b = 5 ∧ bKind b = 2 ∧ up =
        false ∧ (s.group = 2 ∨ s.group = 3) ∧ s.joinBad group pl = some f) ∧
    (∃ (s : State),
      ∃ (quad : BitVec 4) (m : RxMsg),
      let q := quad.toNat
      let w := s.wglOf q
      let b := m.bytes
      let pl := b.drop 32
      let up := s.isUp q (mStream b)
      s.portOn q = true ∧ s.rd Reg.hrdStatusState = 0 ∧ w.headOf 1 = some m ∧ s.disposition q m = 5 ∧ mType b = 5 ∧ bKind b = 3 ∧ up = true ∧ s.group
        = 2 ∧ pl.length = 32) ∧
    (∃ (s : State),
      ∃ (quad : BitVec 4) (m : RxMsg),
      let q := quad.toNat
      let w := s.wglOf q
      let b := m.bytes
      let up := s.isUp q (mStream b)
      s.portOn q = true ∧ s.rd Reg.hrdStatusState = 0 ∧ w.headOf 1 = some m ∧ s.disposition q m = 5 ∧ mType b = 5 ∧ bKind b = 4 ∧ up = true) ∧
    (∃ (s : State),
      ∃ (quad : BitVec 4) (m : RxMsg),
      let q := quad.toNat
      let w := s.wglOf q
      let b := m.bytes
      let up := s.isUp q (mStream b)
      s.portOn q = true ∧ s.rd Reg.hrdStatusState = 0 ∧ w.headOf 1 = some m ∧ s.disposition q m = 5 ∧ mType b = 5 ∧ bKind b = 5 ∧ up = false ∧
        s.tmRole ≠ 1) ∧
    (∃ (s : State), s.pwr.running = true ∧ s.tmRole ≠ 0 ∧ s.time.lastBeacon + s.tmPeriod ≤ s.now) ∧
    (∃ (s : State), s.group = 3 ∧ s.tmRole = 2 ∧ s.time.lost = false ∧ s.time.lastSync + 4 * s.tmPeriod < s.now) ∧
    (∃ (s : State), s.group = 2 ∧ s.time.since + s.tmForm ≤ s.now) ∧
    (∃ (s : State), s.blockGate = .serve ∧ s.tmRole = 2 ∧ s.group = 3) ∧
    (∃ (s : State), s.blockGate = .serve ∧ s.tmRole = 2 ∧ s.group = 4) :=
  ⟨⟨inGroup (wagState 5 { inbox := [wagMsg 1 5 4 24 [(24, 1, 0), (48, 8, 1)]] }) 2 3, 15, wagMsg 1 5 4 24 [(24, 1, 0), (48, 8, 1)], by decide +kernel⟩,
   ⟨inGroup (wagState 5 { inbox := [wagMsg 1 5 5 0 [(24, 1, 1)]] }) 2 3, 15, wagMsg 1 5 5 0 [(24, 1, 1)], by decide +kernel⟩,
   ⟨inGroup (wagState 5 { inbox := [wagMsg 1 5 5 112 [(24, 1, 2), (26, 2, 0xFFFF)]] }) 2 1, 15, wagMsg 1 5 5 112 [(24, 1, 2), (26, 2, 0xFFFF)], by decide +kernel⟩,
   ⟨{ inGroup (wagState 5 { inbox := [joinMsg] }) 2 2 with pwr := { banks := [(0, { version := some 9 })] } }, 15, joinMsg, by decide +kernel⟩,
   ⟨inGroup (wagState 5 { inbox := [wagMsg 1 5 5 112 [(24, 1, 2), (26, 2, 0xFFFE)]] }) 2 2, 15, wagMsg 1 5 5 112 [(24, 1, 2), (26, 2, 0xFFFE)], 1, by decide +kernel⟩,
   ⟨inGroup (wagState 5 { inbox := [wagMsg 1 5 4 32 [(24, 1, 3)]] }) 2 2, 15, wagMsg 1 5 4 32 [(24, 1, 3)], by decide +kernel⟩,
   ⟨inGroup (wagState 5 { inbox := [wagMsg 1 5 4 8 [(24, 1, 4)]] }) 2 2, 15, wagMsg 1 5 4 8 [(24, 1, 4)], by decide +kernel⟩,
   ⟨inGroup (wagState 5 { inbox := [wagMsg 1 5 5 8 [(24, 1, 5)]] }) 2 3, 15, wagMsg 1 5 5 8 [(24, 1, 5)], by decide +kernel⟩,
   ⟨{ awake (inGroup State.reset 1 3) with counter := 1000 }, by decide +kernel⟩,
   ⟨{ inGroup State.reset 2 3 with counter := 4001 }, by decide +kernel⟩,
   ⟨{ inGroup State.reset 2 2 with counter := 1000000 }, by decide +kernel⟩,
   ⟨awake (inGroup State.reset 2 3), by decide +kernel⟩,
   ⟨awake (inGroup State.reset 2 4), by decide +kernel⟩⟩

/-- The hypotheses of every clause of ContextsAndLaunches are met. -/
theorem wit_contextsAndLaunches :
    (∃ (s : State) (ch : BitVec 2) (ctx : BitVec 4),
      let c := ch.toNat
      let k := ctx.toNat
      let x := s.ctx c k
      let e := s.ctxEntry c k
      x.phase = .waiting ∧ s.mayBegin c = true ∧ s.blockedBy c k = none ∧ s.waitingAbove c k = false ∧ s.canReserve c k = true ∧ modeAdapt (leMode e)
        = false ∧ leChain e = none) ∧
    (∃ (s : State) (ch : BitVec 2) (ctx : BitVec 4),
      let c := ch.toNat
      let k := ctx.toNat
      let x := s.ctx c k
      let lone := x.trig.hostRef = none ∧ (s.dsp c).queue = []
      ∃ (code : Nat), x.phase = .waiting ∧ s.mayBegin c = true ∧ s.blockedBy c k = some code ∧ lone ∧ x.trig.deadline = none ∧ s.fnCount = 0) ∧
    (∃ (s : State) (ch : BitVec 2) (ctx : BitVec 4),
      let c := ch.toNat
      let k := ctx.toNat
      let x := s.ctx c k
      let e := s.ctxEntry c k
      x.phase = .reserved ∧ s.pwr.resetChannel ≠ some c ∧ s.leRegions c e = [] ∧ s.leReplicas c e = []) ∧
    (∃ (s : State) (ch : BitVec 2) (ctx : BitVec 4),
      let c := ch.toNat
      let k := ctx.toNat
      let x := s.ctx c k
      let e := s.ctxEntry c k
      ∃ (n : Nat), x.phase = .running ∧ s.ctxEmpty c k = true ∧ leNext e = some n) ∧
    (∃ (s : State) (ch : BitVec 2) (ctx : BitVec 4),
      let c := ch.toNat
      let k := ctx.toNat
      let x := s.ctx c k
      let e := s.ctxEntry c k
      let lone := x.trig.hostRef = none ∧ (s.dsp c).queue = []
      x.phase = .running ∧ s.ctxEmpty c k = true ∧ leNext e = none ∧ x.ready.isSome = true ∧ lone) ∧
    (∃ (s : State) (ch : BitVec 2) (ctx : BitVec 4),
      let c := ch.toNat
      let k := ctx.toNat
      let x := s.ctx c k
      x.phase = .parking ∧ s.ctxParked c k = true ∧ s.ctxEmpty c k = false) ∧
    (∃ (s : State) (ch : BitVec 2) (ctx : BitVec 4),
      let c := ch.toNat
      let k := ctx.toNat
      let x := s.ctx c k
      ∃ (u : State), x.phase = .saving ∧ s.saveCells c k (s.ctxCells c k) = (u, true)) ∧
    (∃ (s : State) (ch : BitVec 2) (ctx : BitVec 4),
      let c := ch.toNat
      let k := ctx.toNat
      let x := s.ctx c k
      let e := s.ctxEntry c k
      x.phase = .saved ∧ s.blockedBy c k = none ∧ s.waitingAbove c k = false ∧ s.canReserve c k = true ∧ s.leRegions c e = []) ∧
    (∃ (s : State) (ch : BitVec 2) (ctx : BitVec 4),
      let c := ch.toNat
      let k := ctx.toNat
      let x := s.ctx c k
      let e := s.ctxEntry c k
      ∃ (u : State) (l : List (Nat × Bytes)), x.phase = .restoring ∧ s.readAreas c k (s.ctxCells c k) = (u, some l) ∧ (l.any fun y => (s.cell
        y.1).tileInWay (fieldLE y.2 4 2) (y.2.drop (64 + saveSwarmLen (16 * leVb e) * fieldLE y.2 3 1))) = false) :=
  ⟨⟨launchState { ctxs := [(15, { phase := .waiting })] }, 3, 15, by decide +kernel⟩,
   ⟨(launchState { ctxs := [(15, { phase := .waiting })] }).modIsle 0x3BB fun x => { x with stopped := true }, 3, 15, 0xC008, by decide +kernel⟩,
   ⟨launchState { ctxs := [(15, { phase := .reserved })] }, 3, 15, by decide +kernel⟩,
   ⟨launchState { ctxs := [(15, { phase := .running })] }, 3, 15, 1, by decide +kernel⟩,
   ⟨launchState { ctxs := [(15, { phase := .running, entry := 1, ready := some 0 })] }, 3, 15, by decide +kernel⟩,
   ⟨(launchState { ctxs := [(15, { phase := .parking })] }).modSwarm 0x3BB 15 fun w => { w with st := .parked, blocks := 1, ctx := some 15 }, 3, 15, by decide +kernel⟩,
   ⟨launchState { ctxs := [(15, { phase := .saving })] }, 3, 15, ((launchState { ctxs := [(15, { phase := .saving })] }).saveCells 3 15 [0x3BB]).1, by decide +kernel⟩,
   ⟨launchState { ctxs := [(15, { phase := .saved })] }, 3, 15, by decide +kernel⟩,
   ⟨launchState { ctxs := [(15, { phase := .restoring })] }, 3, 15, ((launchState { ctxs := [(15, { phase := .restoring })] }).readAreas 3 15 [0x3BB]).1, [(0x3BB, [])], by decide +kernel⟩⟩

/-- The hypotheses of every clause of TriggersAndResults are met. -/
theorem wit_triggersAndResults :
    (∃ (s : State) (ch : BitVec 2),
      let c := ch.toNat
      ∃ (data : Word),
      let u := s.writeReg .disp c 0x20 all64 data.toNat
      let slot := u.rd (Reg.dispArmCtlSlot c)
      let entry := u.rd (Reg.dispArmCtlEntry c)
      let bad := (sget {} (u.dsp c).arms slot).armed || !u.isHead c entry 4 || (u.dsp c).drain || !u.configured c
      bitAt data.toNat 48 = true ∧ s.chanGate c = .serve ∧ u.liveIgnored = false ∧ bad = true) ∧
    (∃ (s : State) (ch : BitVec 2),
      let c := ch.toNat
      ∃ (data : Word),
      let u := s.writeReg .disp c 0x20 all64 data.toNat
      let slot := u.rd (Reg.dispArmCtlSlot c)
      let entry := u.rd (Reg.dispArmCtlEntry c)
      let n := u.rd (Reg.dispArmCountC c)
      let bad := (sget {} (u.dsp c).arms slot).armed || !u.isHead c entry 4 || (u.dsp c).drain || !u.configured c
      bitAt data.toNat 48 = true ∧ s.chanGate c = .serve ∧ u.liveIgnored = false ∧ bad = false ∧ u.now < n) ∧
    (∃ (s : State) (ch : BitVec 2),
      let c := ch.toNat
      let d := s.dsp c
      ∃ (slot : BitVec 4),
      let i := slot.toNat
      let a := sget {} d.arms i
      a.armed = true ∧ s.rd Reg.hrdStatusState = 0 ∧ s.chanGate c = .serve ∧ leDeadline (s.launchEntry c a.entry) = 0) ∧
    (∃ (s : State) (ch : BitVec 2),
      let c := ch.toNat
      let d := s.dsp c
      let opened := s.dispUp c = true ∧ s.configured c = true ∧ s.isPair c = false ∧ s.fnCount = 0 ∧ d.drain = false ∧ d.queue.length < 64
      ∃ (slot : BitVec 4),
      let i := slot.toNat
      let a := sget {} d.arms i
      a.armed = true ∧ s.rd Reg.hrdStatusState = 0 ∧ a.count ≤ s.now ∧ s.group ≠ 3 ∧ opened ∧ s.isHead c a.entry 4 = true ∧ leDeadline (s.launchEntry
        c a.entry) = 0) ∧
    (∃ (s : State) (ch : BitVec 2),
      let c := ch.toNat
      ∃ (i : Nat) (p : Packet),
      let h := p.payload
      let flags := fieldLE h 2 1
      let bad := h.length != 24 || flags / 2 != 0 || fieldLE h 3 5 != 0 || fieldLE h 14 2 != 0
      s.arriving i [.msg] = some p ∧ p.dst = .dispatcher c ∧ bits p.arg.toNat 16 8 = 1 ∧ bad = true) ∧
    (∃ (s : State) (ch : BitVec 2),
      let c := ch.toNat
      let d := s.dsp c
      let opened := s.dispUp c = true ∧ s.configured c = true ∧ s.isPair c = false ∧ s.fnCount = 0 ∧ d.drain = false ∧ d.queue.length < 64
      ∃ (i : Nat) (p : Packet),
      let h := p.payload
      let flags := fieldLE h 2 1
      let bad := h.length != 24 || flags / 2 != 0 || fieldLE h 3 5 != 0 || fieldLE h 14 2 != 0
      s.arriving i [.msg] = some p ∧ p.dst = .dispatcher c ∧ bits p.arg.toNat 16 8 = 1 ∧ bad = false ∧ opened ∧ s.isHead c (fieldLE h 0 2) 5 = true ∧
        leDeadline (s.launchEntry c (fieldLE h 0 2)) = 0) ∧
    (∃ (s : State) (ch : BitVec 2),
      let c := ch.toNat
      ∃ (i : Nat) (p : Packet),
      let h := p.payload
      let user := bits p.arg.toNat 48 16
      let k := bits (fieldLE h 0 8) 48 4
      s.arriving i [.msg] = some p ∧ p.dst = .dispatcher c ∧ bits p.arg.toNat 16 8 = 0 ∧ s.badPiece c k user h = true) ∧
    (∃ (s : State) (ch : BitVec 2),
      let c := ch.toNat
      ∃ (i : Nat) (p : Packet),
      let h := p.payload
      let user := bits p.arg.toNat 48 16
      let k := bits (fieldLE h 0 8) 48 4
      let x := s.ctx c k
      let y := { x with pieces := sset [] x.pieces (user % 2 ^ 15) (h.drop 8), lastPiece := if bitAt user 15 then some (user % 2 ^ 15) else x.lastPiece }
      s.arriving i [.msg] = some p ∧ p.dst = .dispatcher c ∧ bits p.arg.toNat 16 8 = 0 ∧ s.badPiece c k user h = false ∧ (∀ n, y.lastPiece = some n →
        y.pieces.length ≠ n + 1)) ∧
    (∃ (s : State) (ch : BitVec 2),
      let c := ch.toNat
      ∃ (i : Nat) (p : Packet),
      let h := p.payload
      let user := bits p.arg.toNat 48 16
      let k := bits (fieldLE h 0 8) 48 4
      let x := s.ctx c k
      let y := { x with pieces := sset [] x.pieces (user % 2 ^ 15) (h.drop 8), lastPiece := if bitAt user 15 then some (user % 2 ^ 15) else x.lastPiece }
      ∃ (n : Nat), s.arriving i [.msg] = some p ∧ p.dst = .dispatcher c ∧ bits p.arg.toNat 16 8 = 0 ∧ s.badPiece c k user h = false ∧ y.lastPiece =
        some n ∧ y.pieces.length = n + 1 ∧ s.fnCount = 0 ∧ x.ready = none ∧ x.outLeft = false ∧ x.trig.due s.now = true ∧ s.sealDown = false) ∧
    (∃ (s : State) (ch : BitVec 2),
      let c := ch.toNat
      let d := s.dsp c
      ∃ (u : Trigger), s.dispUp c = true ∧ d.chains = [] ∧ d.waitMatch = [] ∧ s.rd Reg.hrdStatusState = 0 ∧ (∀ k, k < 16 → s.ctxLate c k = false) ∧
        d.queue = [u] ∧ u.due s.now = false ∧ u.hostRef = none) ∧
    (∃ (s : State) (ch : BitVec 2),
      let c := ch.toNat
      let d := s.dsp c
      ∃ (k : Nat), s.dispUp c = true ∧ d.chains = [] ∧ d.waitMatch = [] ∧ s.rd Reg.hrdStatusState = 0 ∧ k < 16 ∧ (∀ j, j < 16 → (s.ctxLate c j = true
        ↔ j = k)) ∧ d.queue = [] ∧ (s.ctx c k).trig.hostRef = none ∧ leAbortLate (s.launchEntry c (s.ctx c k).trig.head) = false) :=
  ⟨⟨awake (launchState {}), 3, BitVec.ofNat 64 (2 ^ 48 + 1023 * 2 ^ 16 + 15), by decide +kernel⟩,
   ⟨(awake (launchState {})).wr (Reg.dispArmCountC 3) 1, 3, BitVec.ofNat 64 (2 ^ 48 + 15), by decide +kernel⟩,
   ⟨awake (launchState { arms := [(15, { armed := true })] }), 3, 15, by decide +kernel⟩,
   ⟨launchState { arms := [(15, { armed := true })] }, 3, 15, by decide +kernel⟩,
   ⟨{ launchState {} with pkts := [{ kind := .msg, src := .cell 0x3BB, dst := .dispatcher 3, arg := 0x10000 }] }, 3, 0, { kind := .msg, src := .cell 0x3BB, dst := .dispatcher 3, arg := 0x10000 }, by decide +kernel⟩,
   ⟨{ launchState {} with pkts := [{ kind := .msg, src := .cell 0x3BB, dst := .dispatcher 3, arg := 0x10000, payload := blob 24 [(0, 2, 1), (2, 1, 1), (8, 6, 2 ^ 48 - 1)] }] }, 3, 0, { kind := .msg, src := .cell 0x3BB, dst := .dispatcher 3, arg := 0x10000, payload := blob 24 [(0, 2, 1), (2, 1, 1), (8, 6, 2 ^ 48 - 1)] }, by decide +kernel⟩,
   ⟨{ launchState {} with pkts := [{ kind := .msg, src := .cell 0x3BB, dst := .dispatcher 3 }] }, 3, 0, { kind := .msg, src := .cell 0x3BB, dst := .dispatcher 3 }, by decide +kernel⟩,
   ⟨{ launchState { ctxs := [(15, { phase := .running })] } with pkts := [{ kind := .msg, src := .cell 0x3BB, dst := .dispatcher 3, payload := blob 512 [(6, 1, 15)] }] }, 3, 0, { kind := .msg, src := .cell 0x3BB, dst := .dispatcher 3, payload := blob 512 [(6, 1, 15)] }, by exact ⟨by decide +kernel, rfl, by decide +kernel, by decide +kernel, fun n h => nomatch h⟩⟩,
   ⟨{ launchState { ctxs := [(15, { phase := .running, pieces := [(0, [])] })] } with pkts := [{ kind := .msg, src := .cell 0x3BB, dst := .dispatcher 3, arg := BitVec.ofNat 64 (0x8001 * 2 ^ 48), payload := blob 16 [(6, 1, 15)] }] }, 3, 0, { kind := .msg, src := .cell 0x3BB, dst := .dispatcher 3, arg := BitVec.ofNat 64 (0x8001 * 2 ^ 48), payload := blob 16 [(6, 1, 15)] }, 1, by decide +kernel⟩,
   ⟨launchState { queue := [{ deadline := some 0 }] }, 3, { deadline := some 0 }, by decide +kernel⟩,
   ⟨launchState { ctxs := [(15, { phase := .running, trig := { deadline := some 0 } })] }, 3, 15, by decide +kernel⟩⟩

/-- The hypotheses of every clause of SealAndHoard are met. -/
theorem wit_sealAndHoard :
    (∃ (s : State),
      ∃ (data : Word),
      let u := s.writeReg .seal_ 0 0 all64 data.toNat
      let n := u.rd Reg.sealWctlCount
      let a := u.rd Reg.sealWmanAddr
      let bad := u.sealer.command.isSome || u.sealDown || a % 64 != 0 || decide (2 ^ 39 < a + 16 * n) || (u.absentStack a (16 * n)).isSome
      bitAt data.toNat 0 = true ∧ s.blockGate = .serve ∧ bad = true) ∧
    (∃ (s : State),
      ∃ (data : Word),
      let u := s.writeReg .seal_ 0 0 all64 data.toNat
      let n := u.rd Reg.sealWctlCount
      let a := u.rd Reg.sealWmanAddr
      let bad := u.sealer.command.isSome || u.sealDown || a % 64 != 0 || decide (2 ^ 39 < a + 16 * n) || (u.absentStack a (16 * n)).isSome
      bitAt data.toNat 0 = true ∧ s.blockGate = .serve ∧ bad = false) ∧
    (∃ (s : State),
      ∃ (ch n a : Nat),
      let l := (List.range n).map fun i => s.hbmRead (a + 16 * i) 16
      s.sealer.command = some (ch, n, a) ∧ s.hbmErr = [] ∧ s.absentStack a (16 * n) = none ∧ s.rd Reg.hrdStatusState = 0 ∧ (l.any fun e => s.badRange
        (fieldLE e 0 8) (fieldLE e 8 8)) = true) ∧
    (∃ (s : State),
      ∃ (ch n a : Nat),
      let l := (List.range n).map fun i => s.hbmRead (a + 16 * i) 16
      s.sealer.command = some (ch, n, a) ∧ s.hbmErr = [] ∧ s.absentStack a (16 * n) = none ∧ s.rd Reg.hrdStatusState = 0 ∧ (l.any fun e => s.badRange
        (fieldLE e 0 8) (fieldLE e 8 8)) = false) ∧
    (∃ (s : State),
      ∃ (ch : BitVec 2) (j : SealJob) (l : List SealJob),
      let c := ch.toNat
      (s.dsp c).sealJobs = j :: l ∧ j.trig.hostRef = none ∧ s.rd Reg.hrdStatusState = 0) ∧
    (∃ (s : State),
      ∃ (run : Nat × Nat × Nat × Nat),
      let fits := s.hrdRoom (hrdBytes 32) && (s.hrdMode != 2 || s.ringFits (hrdBytes 32))
      s.rd Reg.hrdStatusState = 1 ∧ s.hrd.lostRun = some run ∧ fits = false) ∧
    (∃ (s : State),
      ∃ (run : Nat × Nat × Nat × Nat),
      let fits := s.hrdRoom (hrdBytes 32) && (s.hrdMode != 2 || s.ringFits (hrdBytes 32))
      s.rd Reg.hrdStatusState = 1 ∧ s.hrd.lostRun = some run ∧ fits = true) ∧
    (∃ (s : State),
      let off := s.liveIgnored || s.hrdMode == 0 || (s.island 0x42C).stopped
      s.blockGate = .serve ∧ off = true) ∧
    (∃ (s : State),
      let off := s.liveIgnored || s.hrdMode == 0 || (s.island 0x42C).stopped
      s.blockGate = .serve ∧ off = false) ∧
    (∃ (s : State), s.blockGate = .serve ∧ s.liveIgnored = false) ∧
    (∃ (s : State), s.blockGate = .serve ∧ s.liveIgnored = true) ∧
    (∃ (s : State),
      ∃ (data : Word),
      let u := s.writeReg .hrd 0 0x28 all64 data.toNat
      s.blockGate = .serve ∧ bitAt data.toNat 0 = true ∧ u.replaying = false ∧ (u.island 0x42C).stopped = false ∧ u.rd Reg.hrdStatusState = 4 ∧
        u.loadOrDrain = false) ∧
    (∃ (s : State),
      ∃ (data : Word) (stream : Bytes),
      let u := s.writeReg .hrd 0 0x28 all64 data.toNat
      let host := u.rd Reg.hrdReplayCtlSource == 1
      let v := u.modHrd fun x => { x with source := host, base := u.rd Reg.hrdReplayBaseValue, len := if host then stream.length else u.rd Reg.hrdReplayLenValue, pos := 0, stream := if host then stream else [], consumed := [], gapPorts := [], frags := [], frames := [], badBanks := [], profiles := [], unverifiable := [] }
      s.blockGate = .serve ∧ bitAt data.toNat 0 = true ∧ u.replaying = false ∧ (u.island 0x42C).stopped = false ∧ u.rd Reg.hrdStatusState ≠ 4 ∧
        v.replayBad = true) ∧
    (∃ (s : State),
      ∃ (data : Word) (stream : Bytes),
      let u := s.writeReg .hrd 0 0x28 all64 data.toNat
      let host := u.rd Reg.hrdReplayCtlSource == 1
      let v := u.modHrd fun x => { x with source := host, base := u.rd Reg.hrdReplayBaseValue, len := if host then stream.length else u.rd Reg.hrdReplayLenValue, pos := 0, stream := if host then stream else [], consumed := [], gapPorts := [], frags := [], frames := [], badBanks := [], profiles := [], unverifiable := [] }
      s.blockGate = .serve ∧ bitAt data.toNat 0 = true ∧ u.replaying = false ∧ (u.island 0x42C).stopped = false ∧ u.rd Reg.hrdStatusState ≠ 4 ∧
        v.replayBad = false) ∧
    (∃ (s : State), s.replaying = true ∧ s.hrd.len ≤ s.hrd.pos) ∧
    (∃ (s : State),
      let h := s.replayHead s.hrd.pos
      s.replaying = true ∧ s.hrd.pos < s.hrd.len ∧ enIdle (enKind h) = true) ∧
    (∃ (s : State),
      let h := s.replayHead s.hrd.pos
      s.replaying = true ∧ s.hrd.pos < s.hrd.len ∧ enKind h = 0x7E ∧ s.rd Reg.hrdReplayCtlGapSkip = 0) ∧
    (∃ (s : State),
      let h := s.replayHead s.hrd.pos
      let pl := s.replayBytes (s.hrd.pos + 64) (enLen h)
      s.replaying = true ∧ s.hrd.pos < s.hrd.len ∧ s.digestOk s.hrd.pos h pl = true ∧ enKind h = 0x50 ∧ s.memberSame h pl = false) ∧
    (∃ (s : State),
      let h := s.replayHead s.hrd.pos
      let pl := s.replayBytes (s.hrd.pos + 64) (enLen h)
      s.replaying = true ∧ s.hrd.pos < s.hrd.len ∧ s.digestOk s.hrd.pos h pl = true ∧ enKind h = 0x01 ∧ bits (enId h) 52 4 = 0) :=
  ⟨⟨awake State.reset, BitVec.ofNat 64 (1 + 4096 * 2 ^ 16), by decide +kernel⟩,
   ⟨awake (hoardState 0 0 {}), BitVec.ofNat 64 (1 + 4096 * 2 ^ 16 + 3 * 2 ^ 4), by decide +kernel⟩,
   ⟨poke { hoardState 0 0 {} with sealer := { command := some (3, 1, 0) } } 0 8 1, 3, 1, 0, by decide +kernel⟩,
   ⟨{ hoardState 0 0 {} with sealer := { command := some (3, 1, 0) } }, 3, 1, 0, by decide +kernel⟩,
   ⟨{ State.reset with disp := [(3, { sealJobs := [{ ctx := 15, trig := {}, modes := [], events := 0, mark := 0, result := [] }] })] }, 3, { ctx := 15, trig := {}, modes := [], events := 0, mark := 0, result := [] }, [], by decide +kernel⟩,
   ⟨hoardState 2 1 { lostRun := some (1, 0, 0, 0), staging := 4194304 }, (1, 0, 0, 0), by decide +kernel⟩,
   ⟨hoardState 2 1 { lostRun := some (1, 0, 0, 0), staging := 4194304 - 128 }, (1, 0, 0, 0), by decide +kernel⟩,
   ⟨awake (hoardState 0 1 {}), by decide +kernel⟩,
   ⟨awake (hoardState 1 1 {}), by decide +kernel⟩,
   ⟨awake State.reset, by decide +kernel⟩,
   ⟨awake (hoardState 1 4 {}), by decide +kernel⟩,
   ⟨awake (hoardState 1 4 {}), 1, by decide +kernel⟩,
   ⟨awake (hoardState 1 5 {}), 1, [], by decide +kernel⟩,
   ⟨awake (hoardState 1 5 {}), 17, blob 64 [(0, 2, 0x70)], by decide +kernel⟩,
   ⟨hoardState 1 3 {}, by decide +kernel⟩,
   ⟨hoardState 1 3 { source := true, len := 128, pos := 64, stream := blob 128 [(64, 2, 0x7F)] }, by decide +kernel⟩,
   ⟨hoardState 1 3 { source := true, len := 128, pos := 64, stream := blob 128 [(64, 2, 0x7E)] }, by decide +kernel⟩,
   ⟨{ hoardState 1 3 { source := true, len := 64, stream := blob 32 [(0, 2, 0x50)] ++ sha256 [] } with img := { memberDigest := [1] } }, by decide +kernel⟩,
   ⟨hoardState 1 3 { source := true, len := 64, stream := blob 32 [(0, 2, 0x01), (0x18, 8, 2 ^ 52 - 1)] ++ sha256 [] }, by decide +kernel⟩⟩

/-- The hypotheses of every clause of SafetyFunctions are met. -/
theorem wit_safetyFunctions :
    (∃ (s : State),
      ∃ (data : Word),
      let v := data.toNat
      let f := bits v 4 1
      let x := s.fn f
      bitAt v 0 = true ∧ s.blockGate = .serve ∧ bits v 8 2 = 0 ∧ (x.st = .disarmed ∨ x.st = .simplex)) ∧
    (∃ (s : State),
      ∃ (data : Word),
      let v := data.toNat
      let f := bits v 4 1
      let x := s.fn f
      bitAt v 0 = true ∧ s.blockGate = .serve ∧ bits v 8 2 = 0 ∧ x.st ≠ .disarmed ∧ x.st ≠ .simplex) ∧
    (∃ (s : State),
      ∃ (data : Word),
      let v := data.toNat
      let f := bits v 4 1
      let opens := f < s.fnCount ∧ bits v 48 16 = s.fnUnlock f
      ∃ (i : Instr), bitAt v 0 = true ∧ s.blockGate = .serve ∧ ((i = .safeDisarm data ∧ bits v 8 2 = 1) ∨ (i = .safeUncurl data ∧ bits v 8 2 = 2)) ∧ ¬
        opens) ∧
    (∃ (s : State),
      ∃ (data : Word),
      let v := data.toNat
      let f := bits v 4 1
      let x := s.fn f
      let opens := f < s.fnCount ∧ bits v 48 16 = s.fnUnlock f
      ∃ (i : Instr), bitAt v 0 = true ∧ s.blockGate = .serve ∧ ((i = .safeDisarm data ∧ bits v 8 2 = 1) ∨ (i = .safeUncurl data ∧ bits v 8 2 = 2)) ∧
        opens ∧ ((i = .safeUncurl data ∧ x.st = .curled) ∨ (i = .safeDisarm data ∧ (x.st = .arming ∨ x.st = .armed ∨ x.st = .simplex)))) ∧
    (∃ (s : State),
      ∃ (f : Bool),
      let n := fnNo f
      let x := s.fn n
      let idle := x.egress = [] ∧ x.fromSimplex = false
      x.st = .arming ∧ idle ∧ s.armCheck n true = none) ∧
    (∃ (s : State),
      ∃ (f : Bool),
      let n := fnNo f
      let x := s.fn n
      let idle := x.egress = [] ∧ x.fromSimplex = false
      ∃ (k : Nat), x.st = .arming ∧ idle ∧ s.armCheck n true = some k ∧ k ≠ 5 ∧ k ≠ 2) ∧
    (∃ (s : State),
      ∃ (f : Bool),
      let n := fnNo f
      let x := s.fn n
      let idle := x.egress = [] ∧ x.fromSimplex = false
      x.st = .arming ∧ idle ∧ s.armCheck n false = some 2) ∧
    (∃ (s : State),
      ∃ (f : Bool),
      let n := fnNo f
      let x := s.fn n
      let idle := x.egress = [] ∧ x.fromSimplex = false
      x.st = .arming ∧ idle ∧ x.armStart + armLimit ≤ s.now) ∧
    (∃ (s : State),
      ∃ (f : Bool),
      let n := fnNo f
      let x := s.fn n
      let idle := x.egress = [] ∧ x.fromSimplex = false
      n < s.fnCount ∧ idle ∧ x.selfTest = false ∧ x.st ≠ .curled) ∧
    (∃ (s : State),
      ∃ (f : Bool),
      let n := fnNo f
      let x := s.fn n
      let idle := x.egress = [] ∧ x.fromSimplex = false
      n < s.fnCount ∧ idle ∧ x.selfTest = false ∧ x.st = .arming) ∧
    (∃ (s : State),
      ∃ (f : Bool),
      let n := fnNo f
      let x := s.fn n
      let idle := x.egress = [] ∧ x.fromSimplex = false
      n < s.fnCount ∧ idle ∧ x.st ≠ .curled) ∧
    (∃ (s : State),
      ∃ (f : Bool),
      let n := fnNo f
      let x := s.fn n
      let idle := x.egress = [] ∧ x.fromSimplex = false
      n < s.fnCount ∧ idle ∧ x.st = .disarmed) ∧
    (∃ (s : State),
      ∃ (f : Bool),
      let n := fnNo f
      let x := s.fn n
      ∃ (a b : DelayEntry), firstDue (pairUp x.local0 x.remote0) = some (a, b) ∧ x.egress = [] ∧ a.cls ≠ 1 ∧ (x.st = .disarmed ∨ x.st = .arming ∨ x.st
        = .armed) ∧ a.outcome = b.outcome ∧ a.fault = b.fault ∧ a.compare = b.compare ∧ a.crc = b.crc) ∧
    (∃ (s : State),
      ∃ (f : Bool),
      let n := fnNo f
      let x := s.fn n
      ∃ (a b : DelayEntry), firstDue (pairUp x.local0 x.remote0) = some (a, b) ∧ x.egress = [] ∧ a.cls ≠ 1 ∧ a.compare ≠ b.compare ∧ a.crc ≠ b.crc ∧
        x.st = .disarmed) ∧
    (∃ (s : State),
      let quiet := s.rd Reg.hrdStatusState = 0 ∧ ∀ ch, ch < 4 → (s.dsp ch).queue = [] ∧ (s.dsp ch).waitMatch = [] ∧ ∀ k, (s.ctx ch k).phase = .dead ∧ (sget {} (s.dsp ch).arms k).armed = false
      ∃ (f : Bool),
      let n := fnNo f
      let x := s.fn n
      ∃ (a b : DelayEntry), firstDue (pairUp x.local0 x.remote0) = some (a, b) ∧ x.egress = [] ∧ a.cls ≠ 1 ∧ a.compare ≠ b.compare ∧ a.crc ≠ b.crc ∧
        x.st = .armed ∧ quiet) ∧
    (∃ (s : State),
      ∃ (f : Bool),
      let n := fnNo f
      let x := s.fn n
      ∃ (e : Nat × DelayEntry) (l : List (Nat × DelayEntry)), x.st = .disarmed ∧ x.egress = [] ∧ s.overdue n = e :: l ∧ e.2.cls ≠ 1) ∧
    (∃ (s : State),
      ∃ (f : Bool),
      let n := fnNo f
      let x := s.fn n
      ∃ (side : Bool) (i : Nat) (e : DelayEntry), x.st = .disarmed ∧ x.egress = [] ∧ (x.side side.toNat)[i]? = some e ∧ e.cls ≠ 1) ∧
    (∃ (s : State), s.pwr.running = true ∧ (∀ f, f < s.fnCount → (s.fn f).st = .disarmed)) :=
  ⟨⟨awake (safeState 5 {} 1 { st := .simplex }), BitVec.ofNat 64 (0xFFFF * 2 ^ 48 + 17), by decide +kernel⟩,
   ⟨awake (safeState 5 {} 1 { st := .curled }), BitVec.ofNat 64 (0xFFFF * 2 ^ 48 + 17), by decide +kernel⟩,
   ⟨awake (safeState 5 {} 1 { st := .curled }), BitVec.ofNat 64 (0xFFFE * 2 ^ 48 + 17 + 256), .safeDisarm (BitVec.ofNat 64 (0xFFFE * 2 ^ 48 + 17 + 256)), by decide +kernel⟩,
   ⟨awake (safeState 5 {} 1 { st := .curled }), BitVec.ofNat 64 (0xFFFF * 2 ^ 48 + 17 + 512), .safeUncurl (BitVec.ofNat 64 (0xFFFF * 2 ^ 48 + 17 + 512)), by decide +kernel⟩,
   ⟨safeState 5 {} 0 { st := .arming }, false, by decide +kernel⟩,
   ⟨safeState 1 {} 1 { st := .arming }, true, 4, by decide +kernel⟩,
   ⟨safeState 1 {} 1 { st := .arming }, true, by decide +kernel⟩,
   ⟨{ safeState 1 {} 1 { st := .arming } with counter := 10000000 }, true, by decide +kernel⟩,
   ⟨safeState 1 {} 1 { st := .disarmed }, true, by decide +kernel⟩,
   ⟨safeState 1 {} 1 { st := .arming }, true, by decide +kernel⟩,
   ⟨safeState 1 {} 1 { st := .none }, true, by decide +kernel⟩,
   ⟨safeState 1 {} 1 { st := .disarmed }, true, by decide +kernel⟩,
   ⟨safeState 5 {} 1 { st := .armed, local0 := [entryOf 1 7], remote0 := [entryOf 1 7] }, true, entryOf 1 7, entryOf 1 7, by decide +kernel⟩,
   ⟨safeState 5 {} 1 { st := .disarmed, local0 := [entryOf 1 7], remote0 := [entryOf 1 6] }, true, entryOf 1 7, entryOf 1 6, by decide +kernel⟩,
   ⟨safeState 5 {} 1 { st := .armed, local0 := [entryOf 1 7], remote0 := [entryOf 1 6] }, true, entryOf 1 7, entryOf 1 6, by (repeat' apply And.intro) <;> first | decide +kernel | exact fun _ _ => ⟨rfl, rfl, fun _ => ⟨rfl, rfl⟩⟩⟩,
   ⟨{ safeState 5 {} 1 { st := .disarmed, local0 := [entryOf 1 7] } with counter := 1 }, true, (0, entryOf 1 7), [], by decide +kernel⟩,
   ⟨safeState 5 {} 1 { st := .disarmed, remote0 := [entryOf 1 7] }, true, true, 0, entryOf 1 7, by decide +kernel⟩,
   ⟨{ awake (safeState 5 {} 1 {}) with safe := [(0, { st := .disarmed }), (1, { st := .disarmed })] }, by decide +kernel⟩⟩

/-- The hypotheses of every clause of SafetyPartner are met. -/
theorem wit_safetyPartner :
    (∃ (s : State),
      let bytes := fun t : State => KeepsBytes s t ∧ t.cells = s.cells
      ∃ (quad : BitVec 4) (m : RxMsg),
      let q := quad.toNat
      let w := s.wglOf q
      let b := m.bytes
      let kind := fieldLE (mArg b) 0 1
      ∃ (i : Instr), s.portOn q = true ∧ s.rd Reg.hrdStatusState = 0 ∧ w.headOf 1 = some m ∧ s.disposition q m = 5 ∧ mType b = 6 ∧ ((i =
        .mirrorHeartbeat quad ∧ kind = 0) ∨ (i = .mirrorRecord quad ∧ kind = 1) ∨ (i = .mirrorArm quad ∧ kind = 2) ∨ (i = .mirrorCurl quad ∧
        kind = 3) ∨ (i = .mirrorDisarm quad ∧ kind = 4)) ∧ s.mirrorBad q b = true) ∧
    (∃ (s : State),
      let bytes := fun t : State => KeepsBytes s t ∧ t.cells = s.cells
      ∃ (quad : BitVec 4) (m : RxMsg),
      let q := quad.toNat
      let w := s.wglOf q
      let b := m.bytes
      let kind := fieldLE (mArg b) 0 1
      ∃ (i : Instr), s.portOn q = true ∧ s.rd Reg.hrdStatusState = 0 ∧ w.headOf 1 = some m ∧ s.disposition q m = 5 ∧ mType b = 6 ∧ ((i =
        .mirrorHeartbeat quad ∧ kind = 0) ∨ (i = .mirrorRecord quad ∧ kind = 1) ∨ (i = .mirrorArm quad ∧ kind = 2) ∨ (i = .mirrorCurl quad ∧
        kind = 3) ∨ (i = .mirrorDisarm quad ∧ kind = 4)) ∧ s.mirrorBad q b = false ∧ kind = 0) ∧
    (∃ (s : State),
      let bytes := fun t : State => KeepsBytes s t ∧ t.cells = s.cells
      ∃ (quad : BitVec 4) (m : RxMsg),
      let q := quad.toNat
      let w := s.wglOf q
      let b := m.bytes
      let kind := fieldLE (mArg b) 0 1
      let g := fieldLE (mArg b) 1 1
      let pl := b.drop 32
      let x := s.fn g
      let e := DelayEntry.ofBytes pl s.now
      ∃ (i : Instr), s.portOn q = true ∧ s.rd Reg.hrdStatusState = 0 ∧ w.headOf 1 = some m ∧ s.disposition q m = 5 ∧ mType b = 6 ∧ ((i =
        .mirrorHeartbeat quad ∧ kind = 0) ∨ (i = .mirrorRecord quad ∧ kind = 1) ∨ (i = .mirrorArm quad ∧ kind = 2) ∨ (i = .mirrorCurl quad ∧
        kind = 3) ∨ (i = .mirrorDisarm quad ∧ kind = 4)) ∧ s.mirrorBad q b = false ∧ kind = 1 ∧ (x.st = .disarmed ∨ x.st = .arming ∨ x.st =
        .armed) ∧ (∀ n, x.prevSeq = some n → (n + 1) % 2 ^ 32 = e.seq) ∧ x.remote0.length < 256) ∧
    (∃ (s : State),
      let bytes := fun t : State => KeepsBytes s t ∧ t.cells = s.cells
      ∃ (quad : BitVec 4) (m : RxMsg),
      let q := quad.toNat
      let w := s.wglOf q
      let b := m.bytes
      let kind := fieldLE (mArg b) 0 1
      ∃ (i : Instr), s.portOn q = true ∧ s.rd Reg.hrdStatusState = 0 ∧ w.headOf 1 = some m ∧ s.disposition q m = 5 ∧ mType b = 6 ∧ ((i =
        .mirrorHeartbeat quad ∧ kind = 0) ∨ (i = .mirrorRecord quad ∧ kind = 1) ∨ (i = .mirrorArm quad ∧ kind = 2) ∨ (i = .mirrorCurl quad ∧
        kind = 3) ∨ (i = .mirrorDisarm quad ∧ kind = 4)) ∧ s.mirrorBad q b = false ∧ kind = 2) ∧
    (∃ (s : State),
      let bytes := fun t : State => KeepsBytes s t ∧ t.cells = s.cells
      ∃ (quad : BitVec 4) (m : RxMsg),
      let q := quad.toNat
      let w := s.wglOf q
      let b := m.bytes
      let kind := fieldLE (mArg b) 0 1
      let g := fieldLE (mArg b) 1 1
      let x := s.fn g
      ∃ (i : Instr), s.portOn q = true ∧ s.rd Reg.hrdStatusState = 0 ∧ w.headOf 1 = some m ∧ s.disposition q m = 5 ∧ mType b = 6 ∧ ((i =
        .mirrorHeartbeat quad ∧ kind = 0) ∨ (i = .mirrorRecord quad ∧ kind = 1) ∨ (i = .mirrorArm quad ∧ kind = 2) ∨ (i = .mirrorCurl quad ∧
        kind = 3) ∨ (i = .mirrorDisarm quad ∧ kind = 4)) ∧ s.mirrorBad q b = false ∧ 3 ≤ kind ∧ x.st = .disarmed) ∧
    (∃ (s : State),
      let bytes := fun t : State => KeepsBytes s t ∧ t.cells = s.cells
      ∃ (quad : BitVec 4) (m : RxMsg),
      let q := quad.toNat
      let w := s.wglOf q
      let b := m.bytes
      let kind := fieldLE (mArg b) 0 1
      let g := fieldLE (mArg b) 1 1
      let x := s.fn g
      ∃ (i : Instr), s.portOn q = true ∧ s.rd Reg.hrdStatusState = 0 ∧ w.headOf 1 = some m ∧ s.disposition q m = 5 ∧ mType b = 6 ∧ ((i =
        .mirrorHeartbeat quad ∧ kind = 0) ∨ (i = .mirrorRecord quad ∧ kind = 1) ∨ (i = .mirrorArm quad ∧ kind = 2) ∨ (i = .mirrorCurl quad ∧
        kind = 3) ∨ (i = .mirrorDisarm quad ∧ kind = 4)) ∧ s.mirrorBad q b = false ∧ 3 ≤ kind ∧ x.st = .armed ∧ s.fnSimplex g = true ∧ x.local0
        = [] ∧ x.egress = []) ∧
    (∃ (s : State),
      ∃ (f : Bool),
      let n := fnNo f
      let x := s.fn n
      n < s.fnCount ∧ s.fnDevice n = true ∧ x.st ≠ .none ∧ x.st ≠ .curled ∧ s.wglUp (s.fnQuad n) = false) ∧
    (∃ (s : State),
      ∃ (f : Bool),
      let n := fnNo f
      let x := s.fn n
      n < s.fnCount ∧ s.fnDevice n = true ∧ x.partnerSeen = true ∧ x.lastMirror + s.fnTimeout n ≤ s.now ∧ x.st = .disarmed) ∧
    (∃ (s : State),
      ∃ (f : Bool),
      let n := fnNo f
      let x := s.fn n
      x.st = .simplex ∧ x.simplexAt + s.fnLimit n ≤ s.now ∧ s.rd Reg.hrdStatusState = 0 ∧ (∀ ch, ch < 4 → (s.dsp ch).queue = [] ∧ (s.dsp ch).waitMatch
        = [] ∧ ∀ k, (s.ctx ch k).phase = .dead ∧ (sget {} (s.dsp ch).arms k).armed = false)) :=
  ⟨⟨safeState 5 { inbox := [wagMsg 1 6 6 0 [(17, 1, 0)]] } 1 {}, 15, wagMsg 1 6 6 0 [(17, 1, 0)], .mirrorHeartbeat 15, by decide +kernel⟩,
   ⟨safeState 5 { inbox := [wagMsg 1 6 6 0 [(17, 1, 1)]] } 1 {}, 15, wagMsg 1 6 6 0 [(17, 1, 1)], .mirrorHeartbeat 15, by decide +kernel⟩,
   ⟨safeState 5 { inbox := [wagMsg 1 6 6 96 [(16, 1, 1), (17, 1, 1), (36, 4, 0)]] } 1 { st := .armed, prevSeq := some (2 ^ 32 - 1) }, 15, wagMsg 1 6 6 96 [(16, 1, 1), (17, 1, 1), (36, 4, 0)], .mirrorRecord 15, by refine ⟨by decide +kernel, by decide +kernel, by decide +kernel, by decide +kernel, by decide +kernel, by decide +kernel, by decide +kernel, by decide +kernel, by decide +kernel, fun n h => ?_, by decide +kernel⟩; cases h; decide +kernel⟩,
   ⟨safeState 5 { inbox := [wagMsg 1 6 6 328 [(16, 1, 2), (17, 1, 1)]] } 1 {}, 15, wagMsg 1 6 6 328 [(16, 1, 2), (17, 1, 1)], .mirrorArm 15, by decide +kernel⟩,
   ⟨safeState 5 { inbox := [wagMsg 1 6 6 0 [(16, 1, 4), (17, 1, 1)]] } 1 { st := .disarmed }, 15, wagMsg 1 6 6 0 [(16, 1, 4), (17, 1, 1)], .mirrorDisarm 15, by decide +kernel⟩,
   ⟨safeState 5 { inbox := [wagMsg 1 6 6 8 [(16, 1, 3), (17, 1, 1)]] } 1 { st := .armed }, 15, wagMsg 1 6 6 8 [(16, 1, 3), (17, 1, 1)], .mirrorCurl 15, by decide +kernel⟩,
   ⟨safeState 1 {} 1 { st := .simplex }, true, by decide +kernel⟩,
   ⟨{ safeState 1 {} 1 { st := .disarmed, partnerSeen := true } with counter := 1000 }, true, by decide +kernel⟩,
   ⟨{ safeState 1 {} 1 { st := .simplex } with counter := 1000000 }, true, by (repeat' apply And.intro) <;> first | decide +kernel | exact fun _ _ => ⟨rfl, rfl, fun _ => ⟨rfl, rfl⟩⟩⟩⟩

/-- The hypotheses of every clause of HostQueues are met. -/
theorem wit_hostQueues :
    (∃ (s : State),
      ∃ (data : Word),
      let v := data.toNat
      let q := s.rd Reg.hostQSelectQueue
      let x := s.queue q
      s.held = false ∧ bitAt v 0 = true ∧ x.enableBit = false ∧ bits v 24 7 ≤ 63 ∧ 16 ≤ bits v 16 5 ∧ bits v 16 5 ≤ 30 ∧ 1 ≤ bits v 12 4 ∧ bits v 12 4
        ≤ 12 ∧ 1 ≤ bits v 8 4 ∧ bits v 8 4 ≤ 12) ∧
    (∃ (s : State),
      ∃ (data : Word),
      let v := data.toNat
      let q := s.rd Reg.hostQSelectQueue
      let x := s.queue q
      s.held = false ∧ bitAt v 0 = false ∧ x.enableBit = true ∧ bits v 24 7 = x.vector ∧ bits v 16 5 = x.drLog ∧ bits v 12 4 = x.cqLog ∧ bits v 8 4 =
        x.sqLog ∧ (∀ r ∈ s.host.staged, r.queue ≠ q) ∧ s.host.waitingOut = []) ∧
    (∃ (s : State),
      ∃ (queue : BitVec 6),
      let q := queue.toNat
      s.held = false ∧ (∀ r ∈ s.host.staged, r.queue ≠ q) ∧ s.host.waitingOut = []) ∧
    (∃ (s : State),
      ∃ (queue : BitVec 6),
      let q := queue.toNat
      let x := s.queue q
      s.queueUp q = true ∧ s.linkUp = true ∧ s.booted = true ∧ x.sqHead ≠ x.sqTail ∧ x.cqRoom = true ∧ (∀ r ∈ s.host.reads, r.use = 1 → r.queue ≠ q)) ∧
    (∃ (s : State),
      ∃ (queue : BitVec 6),
      let q := queue.toNat
      let x := s.queue q
      ∃ (r : Staged), s.queueUp q = true ∧ s.linkUp = true ∧ s.host.staged.find? (fun r => r.queue == q) = some r ∧ r.ref = none ∧ r.mack = none ∧
        s.host.waitingOut = [] ∧ x.drFits (recBytes r.body.length) = true ∧ x.pad (recBytes r.body.length) = 0) ∧
    (∃ (s : State),
      ∃ (i : Nat) (r : HostRead),
      ∃ (bytes : Bytes),
      let e := fit r.len bytes
      let x := s.queue r.queue
      s.host.reads[i]? = some r ∧ r.use = 1 ∧ s.halted = false ∧ seOk e s.slotSize = true ∧ seAdmin e = false ∧ s.liveIgnored = false ∧ x.window = []) ∧
    (∃ (s : State),
      ∃ (i : Nat) (r : HostRead),
      ∃ (c : Instr) (bytes : Bytes), s.host.reads[i]? = some r ∧ (c = .hostReadCompletion i false bytes ∨ c = .completionTimeout i) ∧ r.use = 0) ∧
    (∃ (s : State),
      ∃ (speed : BitVec 4) (width : BitVec 5), s.pwr.porst = false ∧ speed.toNat ∈ [4, 5, 6] ∧ width.toNat ∈ [4, 8, 16]) ∧
    (∃ (s : State), s.pwr.porst = false ∧ s.linkUp = true ∧ s.host.reads = [] ∧ s.host.staged = [] ∧ s.host.waitingOut = []) ∧
    (∃ (s : State),
      ∃ (vector : BitVec 7),
      let v := vector.toNat
      s.pwr.porst = false ∧ v ∈ s.host.msixMask) ∧
    (∃ (s : State),
      ∃ (log : BitVec 6),
      let k := log.toNat
      s.pwr.porst = false ∧ 30 ≤ k ∧ k ≤ 39) :=
  ⟨⟨(awake State.reset).wr Reg.hostQSelectQueue 63, BitVec.ofNat 64 (1 + 12 * 2 ^ 8 + 12 * 2 ^ 12 + 30 * 2 ^ 16 + 63 * 2 ^ 24), by decide +kernel⟩,
   ⟨(hostState { enableBit := true }).wr Reg.hostQSelectQueue 63, BitVec.ofNat 64 (2 ^ 8 + 2 ^ 12 + 16 * 2 ^ 16), by decide +kernel⟩,
   ⟨hostState {}, 63, by decide +kernel⟩,
   ⟨hostState { sqLog := 12, cqLog := 12, sqHead := 4095 }, 63, by decide +kernel⟩,
   ⟨{ hostState {} with host := { (hostState {}).host with staged := [{ queue := 63, kind := 1, ch := 3, srcKind := 0, src := 0, tag := 0, user := 0, body := zeros 32 }] } }, 63, { queue := 63, kind := 1, ch := 3, srcKind := 0, src := 0, tag := 0, user := 0, body := zeros 32 }, by decide +kernel⟩,
   ⟨{ hostState {} with host := { (hostState {}).host with reads := [{ addr := 0, len := 64, queue := 63, use := 1 }] } }, 0, { addr := 0, len := 64, queue := 63, use := 1 }, subEntry [(0, 1, 1), (2, 1, 3), (8, 8, 2 ^ 64 - 1)], by decide +kernel⟩,
   ⟨{ hostState {} with host := { (hostState {}).host with reads := [{ addr := 0, len := 64 }] } }, 0, { addr := 0, len := 64 }, .completionTimeout 0, [], by decide +kernel⟩,
   ⟨awake State.reset, 6, 16, by decide +kernel⟩,
   ⟨hostState {}, by decide +kernel⟩,
   ⟨awake State.reset, 67, by decide +kernel⟩,
   ⟨awake State.reset, 39, by decide +kernel⟩⟩

/-- The hypotheses of every clause of HostOperations are met. -/
theorem wit_hostOperations :
    (∃ (s : State) (queue : BitVec 6) (j : Job),
      let q := queue.toNat
      let e := j.entry
      let begins := fun op => s.jobToBegin q (fun y => seOp y == op) = some j
      begins 1 ∧ s.configured (seCh e) = false) ∧
    (∃ (s : State) (queue : BitVec 6) (j : Job),
      let q := queue.toNat
      let x := s.queue q
      let e := j.entry
      let begins := fun op => s.jobToBegin q (fun y => seOp y == op) = some j
      let jobs := fun (t : State) (f : Job → Job) => (t.queue q).jobs = x.jobs.map fun y => if y.id == j.id then f y else y
      let single := ∀ y ∈ x.jobs, y.id = j.id → y = j
      begins 1 ∧ s.configured (seCh e) = true ∧ single ∧ seLen e = 0 ∧ j.pos = 0) ∧
    (∃ (s : State) (queue : BitVec 6) (j : Job),
      let q := queue.toNat
      let stands := fun stage op => s.jobAt q stage (fun y => seOp y == op) = some j
      stands 2 1 ∧ j.status ≠ 0) ∧
    (∃ (s : State) (queue : BitVec 6) (j : Job),
      let q := queue.toNat
      let e := j.entry
      let stands := fun stage op => s.jobAt q stage (fun y => seOp y == op) = some j
      let c := seCh e
      let d := s.dsp c
      stands 2 1 ∧ j.status = 0 ∧ j.input = [] ∧ s.rd Reg.hrdStatusState = 0 ∧ s.configured c = true ∧ s.isHead c (seEntry e) 3 = true ∧ s.dispUp c =
        true ∧ s.isPair c = false ∧ s.fnCount = 0 ∧ d.drain = false ∧ d.queue.length < 64 ∧ leDeadline (s.launchEntry c (seEntry e)) = 0 ∧
        d.freeCtxs = []) ∧
    (∃ (s : State) (queue : BitVec 6) (j : Job),
      let q := queue.toNat
      let x := s.queue q
      let e := j.entry
      let begins := fun op => s.jobToBegin q (fun y => seOp y == op) = some j
      let jobs := fun (t : State) (f : Job → Job) => (t.queue q).jobs = x.jobs.map fun y => if y.id == j.id then f y else y
      let single := ∀ y ∈ x.jobs, y.id = j.id → y = j
      begins 2 ∧ s.dmaBusy < 8 ∧ single ∧ seBus e = true ∧ 0 < seLen e ∧ j.pos = 0 ∧ s.linkUp = true) ∧
    (∃ (s : State) (queue : BitVec 6) (j : Job),
      let q := queue.toNat
      let e := j.entry
      let begins := fun op => s.jobToBegin q (fun y => seOp y == op) = some j
      let readable := s.hbmErr = [] ∧ s.absentStack (seSrc e) (seLen e) = none
      begins 3 ∧ s.dmaBusy < 8 ∧ seBus e = true ∧ seDst e % 4096 + seLen e ≤ 4096 ∧ s.linkUp = true ∧ readable) ∧
    (∃ (s : State) (queue : BitVec 6) (j : Job),
      let q := queue.toNat
      s.jobAt q 2 (fun y => seOp y == 2 || seOp y == 3) = some j) ∧
    (∃ (s : State) (queue : BitVec 6) (j : Job),
      let q := queue.toNat
      let e := j.entry
      let begins := fun op => s.jobToBegin q (fun y => seOp y == op) = some j
      let readable := s.hbmErr = [] ∧ s.absentStack (seSrc e) (seLen e) = none
      begins 0x10 ∧ s.slotLoading (seParam e) = false ∧ readable) ∧
    (∃ (s : State) (queue : BitVec 6) (j : Job),
      let q := queue.toNat
      let stands := fun stage op => s.jobAt q stage (fun y => seOp y == op) = some j
      stands 1 0x10 ∧ j.input.length ≤ s.slotSize) ∧
    (∃ (s : State) (queue : BitVec 6) (j : Job),
      let q := queue.toNat
      let stands := fun stage op => s.jobAt q stage (fun y => seOp y == op) = some j
      stands 1 0x10) ∧
    (∃ (s : State) (queue : BitVec 6) (j : Job),
      let q := queue.toNat
      let e := j.entry
      let slot := bits (seParam e) 4 2
      let f := s.pwr.fuses
      ∃ (i : Instr) (g : Fuses) (op : Nat), ((i = .fuseKey queue ∧ op = 0 ∧ g =
        { f with keyHash := sset [] f.keyHash slot (fit 48 (s.hbmRead (seSrc e) 48)), keyValid := f.keyValid ||| BitVec.ofNat 4 (2 ^ slot) }) ∨
        (i = .fuseRevoke queue ∧ op = 1 ∧ g = { f with keyRevoked := f.keyRevoked ||| BitVec.ofNat 4 (2 ^ slot) }) ∨ (i = .fuseSigRequired
        queue ∧ op = 2 ∧ g = { f with sigRequired := true })) ∧ s.jobToBegin q (fun y => seOp y == 0x11 && bits (seParam y) 0 2 == op) = some j
        ∧ s.fuseRefused op slot = true) ∧
    (∃ (s : State) (queue : BitVec 6) (j : Job),
      let q := queue.toNat
      let e := j.entry
      let slot := bits (seParam e) 4 2
      let f := s.pwr.fuses
      ∃ (i : Instr) (g : Fuses) (op : Nat), ((i = .fuseKey queue ∧ op = 0 ∧ g =
        { f with keyHash := sset [] f.keyHash slot (fit 48 (s.hbmRead (seSrc e) 48)), keyValid := f.keyValid ||| BitVec.ofNat 4 (2 ^ slot) }) ∨
        (i = .fuseRevoke queue ∧ op = 1 ∧ g = { f with keyRevoked := f.keyRevoked ||| BitVec.ofNat 4 (2 ^ slot) }) ∨ (i = .fuseSigRequired
        queue ∧ op = 2 ∧ g = { f with sigRequired := true })) ∧ s.jobToBegin q (fun y => seOp y == 0x11 && bits (seParam y) 0 2 == op) = some j
        ∧ s.fuseRefused op slot = false ∧ s.hbmErr = [] ∧ s.absentStack (seSrc e) 48 = none) ∧
    (∃ (s : State) (queue : BitVec 6) (j : Job),
      let q := queue.toNat
      let e := j.entry
      let begins := fun op => s.jobToBegin q (fun y => seOp y == op) = some j
      let readable := s.hbmErr = [] ∧ s.absentStack (seSrc e) (seLen e) = none
      let data := s.hbmRead (seSrc e) (seLen e)
      begins 0x12 ∧ readable ∧ fwOk s.pwr.fuses data = true) ∧
    (∃ (s : State) (queue : BitVec 6) (j : Job),
      let q := queue.toNat
      let e := j.entry
      let begins := fun op => s.jobToBegin q (fun y => seOp y == op) = some j
      let readable := s.hbmErr = [] ∧ s.absentStack (seSrc e) (seLen e) = none
      let data := s.hbmRead (seSrc e) (seLen e)
      begins 0x12 ∧ readable ∧ fwOk s.pwr.fuses data = false) ∧
    (∃ (s : State) (queue : BitVec 6) (j : Job),
      let q := queue.toNat
      let stands := fun stage op => s.jobAt q stage (fun y => seOp y == op) = some j
      stands 2 0x12 ∧ j.status ≠ 0) ∧
    (∃ (s : State) (queue : BitVec 6) (j : Job),
      let q := queue.toNat
      let stands := fun stage op => s.jobAt q stage (fun y => seOp y == op) = some j
      stands 2 0x12 ∧ j.status = 0) :=
  ⟨⟨{ jobState { id := 7, entry := subEntry [(0, 1, 1), (2, 1, 3)] } with regs := ((jobState { id := 7, entry := subEntry [(0, 1, 1), (2, 1, 3)] }).wr Reg.imgStatusConfigured 7).regs }, 63, { id := 7, entry := subEntry [(0, 1, 1), (2, 1, 3)] }, by decide +kernel⟩,
   ⟨jobState { id := 7, entry := subEntry [(0, 1, 1), (2, 1, 3)] }, 63, { id := 7, entry := subEntry [(0, 1, 1), (2, 1, 3)] }, by decide +kernel⟩,
   ⟨jobState { id := 7, entry := subEntry [(0, 1, 1)], stage := 2, status := 0xB009 }, 63, { id := 7, entry := subEntry [(0, 1, 1)], stage := 2, status := 0xB009 }, by decide +kernel⟩,
   ⟨{ withSection (jobState { id := 7, entry := subEntry [(0, 1, 1), (2, 1, 2)], stage := 2 }) 2 0xD0 (blob 64 [(0, 2, 1), (16, 4, 64)] ++ launchBytes 3 0xFFFF) with disp := [(2, { ctxs := (List.range 16).map fun k => (k, { phase := .running }) })] }, 63, { id := 7, entry := subEntry [(0, 1, 1), (2, 1, 2)], stage := 2 }, by decide +kernel⟩,
   ⟨jobState { id := 7, entry := subEntry [(0, 1, 2), (1, 1, 2), (0x20, 4, 64)] }, 63, { id := 7, entry := subEntry [(0, 1, 2), (1, 1, 2), (0x20, 4, 64)] }, by decide +kernel⟩,
   ⟨jobState { id := 7, entry := subEntry [(0, 1, 3), (1, 1, 2), (0x18, 8, 4032), (0x20, 4, 64)] }, 63, { id := 7, entry := subEntry [(0, 1, 3), (1, 1, 2), (0x18, 8, 4032), (0x20, 4, 64)] }, by decide +kernel⟩,
   ⟨jobState { id := 7, entry := subEntry [(0, 1, 3)], stage := 2 }, 63, { id := 7, entry := subEntry [(0, 1, 3)], stage := 2 }, by decide +kernel⟩,
   ⟨jobState { id := 7, entry := subEntry [(0, 1, 16), (0x20, 4, 64), (0x24, 4, 1)] }, 63, { id := 7, entry := subEntry [(0, 1, 16), (0x20, 4, 64), (0x24, 4, 1)] }, by decide +kernel⟩,
   ⟨jobState { id := 7, entry := subEntry [(0, 1, 16), (0x24, 4, 1)], stage := 1 }, 63, { id := 7, entry := subEntry [(0, 1, 16), (0x24, 4, 1)], stage := 1 }, by decide +kernel⟩,
   ⟨jobState { id := 7, entry := subEntry [(0, 1, 16), (0x24, 4, 1)], stage := 1 }, 63, { id := 7, entry := subEntry [(0, 1, 16), (0x24, 4, 1)], stage := 1 }, by decide +kernel⟩,
   ⟨jobState { id := 7, entry := subEntry [(0, 1, 17), (0x24, 4, 2)] }, 63, { id := 7, entry := subEntry [(0, 1, 17), (0x24, 4, 2)] }, .fuseSigRequired 63, { sigRequired := true }, 2, by decide +kernel⟩,
   ⟨jobState { id := 7, entry := subEntry [(0, 1, 17), (0x24, 4, 49)] }, 63, { id := 7, entry := subEntry [(0, 1, 17), (0x24, 4, 49)] }, .fuseRevoke 63, { keyRevoked := 8 }, 1, by decide +kernel⟩,
   ⟨{ jobState { id := 7, entry := subEntry [(0, 1, 18), (0x20, 4, 512)] } with hbm := ssetN 0 [] 0 (fwPackage 8) }, 63, { id := 7, entry := subEntry [(0, 1, 18), (0x20, 4, 512)] }, by decide +kernel⟩,
   ⟨jobState { id := 7, entry := subEntry [(0, 1, 18), (0x20, 4, 512)] }, 63, { id := 7, entry := subEntry [(0, 1, 18), (0x20, 4, 512)] }, by decide +kernel⟩,
   ⟨jobState { id := 7, entry := subEntry [(0, 1, 18)], stage := 2, status := 0xB00E }, 63, { id := 7, entry := subEntry [(0, 1, 18)], stage := 2, status := 0xB00E }, by decide +kernel⟩,
   ⟨jobState { id := 7, entry := subEntry [(0, 1, 18)], stage := 2, input := leBytes 4 9 }, 63, { id := 7, entry := subEntry [(0, 1, 18)], stage := 2, input := leBytes 4 9 }, by decide +kernel⟩⟩

/-- The hypotheses of every clause of ResetsAndBoot are met. -/
theorem wit_resetsAndBoot :
    (∃ (s : State),
      let still := s.host.reads = [] ∧ s.host.staged = [] ∧ s.host.waitingOut = []
      ∃ (i : Instr), s.pwr.porst = false ∧ s.linkUp = true ∧ still ∧ (i = .functionLevelReset ∨ i = .hotReset)) ∧
    (∃ (s : State),
      let still := s.host.reads = [] ∧ s.host.staged = [] ∧ s.host.waitingOut = []
      s.pwr.porst = false ∧ s.linkUp = true ∧ still) ∧
    (∃ (s : State), s.pwr.porst = false) ∧
    (∃ (s : State),
      ∃ (b : Board), s.pwr.porst = true ∧ s.pwr.railFault = false ∧ b.railsOk = false) ∧
    (∃ (s : State),
      ∃ (b : Board), s.pwr.porst = true ∧ s.pwr.railFault = false ∧ b.railsOk = true ∧ s.pwr.tap.holds = true) ∧
    (∃ (s : State),
      ∃ (b : Board), s.pwr.porst = true ∧ s.pwr.railFault = false ∧ b.railsOk = true ∧ s.pwr.tap.holds = false ∧ s.pwr.warmBoot = false ∧
        s.pwr.bootBank = 0) ∧
    (∃ (s : State), s.booting = true ∧ s.pwr.bootSel = false ∧ s.pwr.hbmDone = false) ∧
    (∃ (s : State), s.booting = true ∧ s.pwr.bootSel = false ∧ s.pwr.bistDone = false) ∧
    (∃ (s : State),
      let held := fun t : State => t.pwr.porst = true ∧ t.hbm = s.hbm ∧ t.host.mem = s.host.mem ∧ t.pwr.fuses = s.pwr.fuses ∧ t.pwr.flash = s.pwr.flash ∧ t.cells = [] ∧ t.pkts = [] ∧ t.disp = [] ∧ t.pending = s.pending
      s.held = false ∧ s.group ≠ 3) ∧
    (∃ (s : State),
      let held := fun t : State => t.pwr.porst = true ∧ t.hbm = s.hbm ∧ t.host.mem = s.host.mem ∧ t.pwr.fuses = s.pwr.fuses ∧ t.pwr.flash = s.pwr.flash ∧ t.cells = [] ∧ t.pkts = [] ∧ t.disp = [] ∧ t.pending = s.pending
      ∃ (data : Word),
      let v := data.toNat
      let c := bits v 10 2
      let u := s.resetFields v
      ∃ (n : Nat), s.held = false ∧ bitAt v 16 = true ∧ bitAt v 17 = false ∧ bitAt v 18 = false ∧ u.resetRefusal c false = some n) ∧
    (∃ (s : State),
      let held := fun t : State => t.pwr.porst = true ∧ t.hbm = s.hbm ∧ t.host.mem = s.host.mem ∧ t.pwr.fuses = s.pwr.fuses ∧ t.pwr.flash = s.pwr.flash ∧ t.cells = [] ∧ t.pkts = [] ∧ t.disp = [] ∧ t.pending = s.pending
      ∃ (data : Word),
      let v := data.toNat
      let c := bits v 10 2
      let u := s.resetFields v
      s.held = false ∧ bitAt v 16 = true ∧ bitAt v 17 = false ∧ bitAt v 18 = false ∧ u.resetRefusal c false = none) ∧
    (∃ (s : State),
      let held := fun t : State => t.pwr.porst = true ∧ t.hbm = s.hbm ∧ t.host.mem = s.host.mem ∧ t.pwr.fuses = s.pwr.fuses ∧ t.pwr.flash = s.pwr.flash ∧ t.cells = [] ∧ t.pkts = [] ∧ t.disp = [] ∧ t.pending = s.pending
      ∃ (data : Word),
      let v := data.toNat
      let id := bits v 0 10
      let u := s.resetFields v
      ∃ (n : Nat), s.held = false ∧ bitAt v 17 = true ∧ bitAt v 18 = false ∧ u.resetRefusal (chOf id) (!isLogical id) = some n) ∧
    (∃ (s : State),
      let held := fun t : State => t.pwr.porst = true ∧ t.hbm = s.hbm ∧ t.host.mem = s.host.mem ∧ t.pwr.fuses = s.pwr.fuses ∧ t.pwr.flash = s.pwr.flash ∧ t.cells = [] ∧ t.pkts = [] ∧ t.disp = [] ∧ t.pending = s.pending
      ∃ (data : Word),
      let v := data.toNat
      let id := bits v 0 10
      let u := s.resetFields v
      s.held = false ∧ bitAt v 17 = true ∧ bitAt v 18 = false ∧ u.resetRefusal (chOf id) (!isLogical id) = none ∧ (∀ k, k < 16 → (s.cell
        id).slotsOfCtx k = [])) ∧
    (∃ (s : State),
      ∃ (c : Nat), s.pwr.resetChannel = some c ∧ c < 4 ∧ s.group ≠ 3) ∧
    (∃ (s : State),
      ∃ (id : Nat), s.pwr.resetCell = some id) :=
  ⟨⟨hostState {}, .hotReset, by decide +kernel⟩,
   ⟨hostState {}, by decide +kernel⟩,
   ⟨hostState {}, by decide +kernel⟩,
   ⟨State.reset, { railsOk := false, bank0Ok := false, bank1Ok := false, bootSel := true, mgmtAddr := 3, vrAddr := 3, flashSlotMiB := 64 }, by decide +kernel⟩,
   ⟨{ State.reset with pwr := { State.reset.pwr with tap := .extest } }, { railsOk := true, bank0Ok := false, bank1Ok := false, bootSel := true, mgmtAddr := 3, vrAddr := 3, flashSlotMiB := 64 }, by decide +kernel⟩,
   ⟨State.reset, { railsOk := true, bank0Ok := false, bank1Ok := false, bootSel := true, mgmtAddr := 3, vrAddr := 3, flashSlotMiB := 64 }, by decide +kernel⟩,
   ⟨{ State.reset with pwr := { State.reset.pwr with porst := false } }, by decide +kernel⟩,
   ⟨{ State.reset with pwr := { State.reset.pwr with porst := false } }, by decide +kernel⟩,
   ⟨hostState {}, by decide +kernel⟩,
   ⟨(hostState {}).wr Reg.glbResetStatusBusy 1, BitVec.ofNat 64 (2 ^ 16 + 3 * 2 ^ 10), 1, by decide +kernel⟩,
   ⟨hostState {}, BitVec.ofNat 64 (2 ^ 16 + 3 * 2 ^ 10), by decide +kernel⟩,
   ⟨(hostState {}).wr Reg.glbResetStatusBusy 1, BitVec.ofNat 64 (2 ^ 17 + 0x3BB), 1, by decide +kernel⟩,
   ⟨hostState {}, BitVec.ofNat 64 (2 ^ 17 + 0x3BB), by decide +kernel⟩,
   ⟨{ hostState {} with pwr := { (hostState {}).pwr with resetChannel := some 3 } }, 3, by decide +kernel⟩,
   ⟨{ hostState {} with pwr := { (hostState {}).pwr with resetCell := some 0x3BB } }, 0x3BB, by decide +kernel⟩⟩

/-- The hypotheses of every clause of ManagementPorts are met. -/
theorem wit_managementPorts :
    (∃ (s : State), s.vrTalks = true) ∧
    (∃ (s : State), s.vrTalks = true ∧ s.pwr.vrModeRead = false) ∧
    (∃ (s : State), s.vrTalks = true ∧ s.pwr.vrModeRead = true ∧ s.pwr.vrNextIout = true) ∧
    (∃ (s : State),
      ∃ (v : Nat), s.vrTalks = true ∧ s.pwr.vrModeRead = true ∧ s.pwr.vrNextIout = false ∧ apart v s.pwr.vrCommand ≤ 25) ∧
    (∃ (s : State),
      ∃ (v : Nat), s.vrTalks = true ∧ s.pwr.vrModeRead = true ∧ s.pwr.vrNextIout = false ∧ 25 < apart v s.pwr.vrCommand) ∧
    (∃ (s : State),
      ∃ (status : BitVec 16), s.vrTalks = true ∧ status.toNat &&& 0xF73F ≠ 0) ∧
    (∃ (s : State),
      ∃ (status : BitVec 16), s.vrTalks = true ∧ status.toNat &&& 0xF73F = 0) ∧
    (∃ (s : State), s.mgmtAlert = true) ∧
    (∃ (s : State), s.mgmtAlert = false) ∧
    (∃ (k : Nat), k < 6) ∧
    (∃ (s : State),
      ∃ (i : Instr) (t : TapInsn), ((i = .tapReset ∧ t = .idcode) ∨ (i = .bypass ∧ t = .bypass) ∨ (i = .idcode ∧ t = .idcode) ∨ (i = .samplePreload ∧
        t = .sample) ∨ (i = .extest ∧ t = .extest) ∨ (i = .clamp ∧ t = .clamp) ∨ (i = .highz ∧ t = .highz)) ∧ (s.pwr.porst = true ∨ t.holds =
        s.pwr.tapHold)) ∧
    (∃ (s : State),
      ∃ (i : Instr) (t : TapInsn), ((i = .tapReset ∧ t = .idcode) ∨ (i = .bypass ∧ t = .bypass) ∨ (i = .idcode ∧ t = .idcode) ∨ (i = .samplePreload ∧
        t = .sample) ∨ (i = .extest ∧ t = .extest) ∨ (i = .clamp ∧ t = .clamp) ∨ (i = .highz ∧ t = .highz)) ∧ s.pwr.porst = false ∧ t.holds =
        true ∧ s.pwr.tapHold = false ∧ s.group ≠ 3) ∧
    (∃ (s : State),
      ∃ (i : Instr) (t : TapInsn), ((i = .tapReset ∧ t = .idcode) ∨ (i = .bypass ∧ t = .bypass) ∨ (i = .idcode ∧ t = .idcode) ∨ (i = .samplePreload ∧
        t = .sample) ∨ (i = .extest ∧ t = .extest) ∨ (i = .clamp ∧ t = .clamp) ∨ (i = .highz ∧ t = .highz)) ∧ s.pwr.porst = false ∧ t.holds =
        false ∧ s.pwr.tapHold = true) :=
  ⟨⟨{ hostState {} with gov := { periods := 1 } }, by decide +kernel⟩,
   ⟨{ hostState {} with gov := { periods := 1 } }, by decide +kernel⟩,
   ⟨{ hostState {} with pwr := { (hostState {}).pwr with vrModeRead := true, vrNextIout := true } }, by decide +kernel⟩,
   ⟨{ hostState {} with pwr := { (hostState {}).pwr with vrModeRead := true } }, 875, by decide +kernel⟩,
   ⟨{ hostState {} with pwr := { (hostState {}).pwr with vrModeRead := true } }, 876, by decide +kernel⟩,
   ⟨{ hostState {} with gov := { periods := 1 } }, 0x0020, by decide +kernel⟩,
   ⟨{ hostState {} with gov := { periods := 1 } }, 0x08C0, by decide +kernel⟩,
   ⟨State.reset, by decide +kernel⟩,
   ⟨{ hostState {} with pwr := { (hostState {}).pwr with loaded := true } }, by decide +kernel⟩,
   ⟨5, by decide +kernel⟩,
   ⟨{ hostState {} with gov := { periods := 1 } }, .bypass, .bypass, by decide +kernel⟩,
   ⟨{ hostState {} with gov := { periods := 1 } }, .highz, .highz, by decide +kernel⟩,
   ⟨{ hostState {} with pwr := { (hostState {}).pwr with tapHold := true, tap := .clamp } }, .idcode, .idcode, by decide +kernel⟩⟩

/-- The hypotheses of every clause of HostRegisters are met. -/
theorem wit_hostRegisters :
    (∃ (s : State), s.held = true) ∧
    (∃ (s : State),
      ∃ (off size : Nat), s.held = false ∧ (unitOk off size = false ∨ blockOf (off / 8 * 8) = none ∨ (∃ b n o, blockOf (off / 8 * 8) = some (b, n, o)
        ∧ s.bar0Gate b n = .refuse))) ∧
    (∃ (s : State),
      ∃ (ch : BitVec 2), s.chanGate ch.toNat = .serve) ∧
    (∃ (s : State), s.held = false) ∧
    (∃ (s : State), s.blockGate = .serve) ∧
    (∃ (s : State), s.held = false) ∧
    (∃ (s : State), s.blockGate = .serve) ∧
    (∃ (s : State),
      ∃ (off len : Nat) (bytes : Bytes), s.bar2Comes off len = true ∧ bytes.length = len ∧ s.booted = false) ∧
    (∃ (s : State),
      ∃ (off len : Nat) (bytes : Bytes),
      let a := s.rd Reg.hostBar2BaseBase + off
      s.bar2Comes off len = true ∧ bytes.length = len ∧ s.booted = true ∧ inHbm a len = true ∧ s.absentStack a len = none ∧ s.hbmErr = []) ∧
    (∃ (s : State),
      ∃ (off len : Nat) (bytes : Bytes),
      let a := s.rd Reg.hostBar2BaseBase + off
      s.bar2Comes off len = true ∧ bytes.length = len ∧ s.booted = true ∧ inHbm a len = true ∧ s.absentStack a len = none ∧ s.hbmUce a len = true) ∧
    (∃ (s : State),
      ∃ (off len : Nat) (bytes : Bytes),
      let a := s.rd Reg.hostBar2BaseBase + off
      ∃ (id o : Nat), s.bar2Comes off len = true ∧ bytes.length = len ∧ s.booted = true ∧ inHbm a len = false ∧ placeOf a = .window id o ∧
        s.windowOpen id o len = true ∧ (s.cell id).lmErr = [] ∧ (s.cell id).inReplica o len = false) ∧
    (∃ (s : State),
      ∃ (off len : Nat) (bytes : Bytes),
      let a := s.rd Reg.hostBar2BaseBase + off
      ∃ (id o : Nat), s.bar2Comes off len = true ∧ bytes.length = len ∧ s.booted = true ∧ inHbm a len = false ∧ placeOf a = .window id o ∧
        s.windowOpen id o len = true ∧ (s.cell id).lmErr = []) :=
  ⟨⟨State.reset, by decide +kernel⟩,
   ⟨hostState {}, 0x500004, 8, by exact ⟨by decide +kernel, Or.inl (by decide +kernel)⟩⟩,
   ⟨hostState {}, 3, by decide +kernel⟩,
   ⟨hostState {}, by decide +kernel⟩,
   ⟨hostState {}, by decide +kernel⟩,
   ⟨hostState {}, by decide +kernel⟩,
   ⟨hostState {}, by decide +kernel⟩,
   ⟨(hostState {}).wr Reg.glbBootDone 0, 4032, 64, zeros 64, by decide +kernel⟩,
   ⟨hostState {}, 2 ^ 36 - 64, 64, zeros 64, by decide +kernel⟩,
   ⟨{ hostState {} with hbmErr := [(2 ^ 30 - 1, 2)] }, 2 ^ 36 - 64, 64, zeros 64, by decide +kernel⟩,
   ⟨(hostState {}).wr Reg.hostBar2BaseBase 0x010000000000, 0x7FFF0, 16, zeros 16, 0, 0x7FFF0, by decide +kernel⟩,
   ⟨(hostState {}).wr Reg.hostBar2BaseBase 0x010000000000, 0x7FFF0, 16, zeros 16, 0, 0x7FFF0, by decide +kernel⟩⟩

/-- The hypotheses of every clause of ImageLoads are met. -/
theorem wit_imageLoads :
    (∃ (s : State),
      ∃ (i : Instr) (data : Word), ((i = .imgLoad data ∧ bitAt data.toNat 8 = false) ∨ (i = .imgVerifyOnly data ∧ bitAt data.toNat 8 = true)) ∧ bitAt
        data.toNat 0 = true ∧ s.blockGate = .serve ∧ s.img.load.isSome = true) ∧
    (∃ (s : State),
      ∃ (i : Instr) (data : Word),
      let u := s.writeReg .img 0 0 all64 data.toNat
      let source := u.rd Reg.imgCtlSource
      let addr := u.rd Reg.imgSrcSrcAddr
      let size := u.rd Reg.imgSizeSize
      ((i = .imgLoad data ∧ bitAt data.toNat 8 = false) ∨ (i = .imgVerifyOnly data ∧ bitAt data.toNat 8 = true)) ∧ bitAt data.toNat 0 = true ∧
        s.blockGate = .serve ∧ s.img.load = none ∧ s.loaderDown = false ∧ (source ≠ 0 ∨ srcBad addr size = none)) ∧
    (∃ (s : State),
      ∃ (i : Instr) (data : Word),
      let u := s.writeReg .img 0 0 all64 data.toNat
      let source := u.rd Reg.imgCtlSource
      let addr := u.rd Reg.imgSrcSrcAddr
      let size := u.rd Reg.imgSizeSize
      ∃ (o : Nat), ((i = .imgLoad data ∧ bitAt data.toNat 8 = false) ∨ (i = .imgVerifyOnly data ∧ bitAt data.toNat 8 = true)) ∧ bitAt data.toNat 0 =
        true ∧ s.blockGate = .serve ∧ s.img.load = none ∧ s.loaderDown = false ∧ source = 0 ∧ srcBad addr size = some (some o)) ∧
    (∃ (s : State),
      ∃ (ld : Load),
      let m := s.hbmRead ld.addr ld.size
      let bad := s.verify m ld.size (some (ld.addr, ld.size))
      ∃ (code detail : Nat), s.img.load = some ld ∧ s.rd Reg.imgStatusState = 1 ∧ ld.source = 0 ∧ s.loaderDown = false ∧ s.hbmErr = [] ∧ s.absentStack
        ld.addr ld.size = none ∧ bad = some (code, detail) ∧ ld.boot = false) ∧
    (∃ (s : State),
      ∃ (ld : Load),
      let m := s.hbmRead ld.addr ld.size
      let bad := s.verify m ld.size (some (ld.addr, ld.size))
      s.img.load = some ld ∧ s.rd Reg.imgStatusState = 1 ∧ ld.source = 0 ∧ s.loaderDown = false ∧ s.hbmErr = [] ∧ s.absentStack ld.addr ld.size = none
        ∧ bad = none ∧ ld.verifyOnly = true) ∧
    (∃ (s : State),
      ∃ (ld : Load),
      let m := s.hbmRead ld.addr ld.size
      let bad := s.verify m ld.size (some (ld.addr, ld.size))
      s.img.load = some ld ∧ s.rd Reg.imgStatusState = 1 ∧ ld.source = 0 ∧ s.loaderDown = false ∧ s.hbmErr = [] ∧ s.absentStack ld.addr ld.size = none
        ∧ bad = none ∧ ld.verifyOnly = false ∧ (∀ c ∈ imChannels m, s.configured c = false) ∧ s.rd Reg.imgPctlDrainLimit ≠ 0) ∧
    (∃ (s : State),
      ∃ (ld : Load), s.img.load = some ld ∧ s.rd Reg.imgStatusState = 2 ∧ ld.drainFrom + s.rd Reg.imgPctlDrainLimit ≤ s.now ∧ s.fnCount = 0 ∧ (∀ c ∈
        ld.chans, (s.dsp c).queue = [] ∧ ∀ k, (s.ctx c k).trig.deadline = none ∧ (s.ctx c k).trig.hostRef = none)) ∧
    (∃ (s : State),
      ∃ (ld : Load),
      ∃ (c : Nat), s.img.load = some ld ∧ s.rd Reg.imgStatusState = 2 ∧ ld.chans = [c] ∧ c < 4 ∧ (∀ k, k < 16 → (s.ctx c k).phase.begun = false)) ∧
    (∃ (s : State),
      ∃ (ld : Load), s.img.load = some ld ∧ s.rd Reg.imgStatusState = 2 ∧ (∃ c ∈ ld.chans, ∃ k, k < 16 ∧ (s.ctx c k).phase.begun = true)) ∧
    (∃ (s : State),
      ∃ (ld : Load), s.img.load = some ld ∧ s.rd Reg.imgStatusState = 3) ∧
    (∃ (s : State), s.blockGate = .serve ∧ s.mayClear = true) ∧
    (∃ (s : State),
      ∃ (i : Instr), s.blockGate = .serve ∧ (i = .clearCells ∨ i = .clearLanes) ∧ s.mayClear = false) :=
  ⟨⟨loadState 1 (some { source := 0, verifyOnly := true, prior := 4 }), .imgVerifyOnly 0x101, 0x101, by decide +kernel⟩,
   ⟨loadState 4 none, .imgLoad 1, 1, by decide +kernel⟩,
   ⟨((loadState 4 none).wr Reg.imgSrcSrcAddr (2 ^ 39 - 64)).wr Reg.imgSizeSize 128, .imgVerifyOnly 0x101, 0x101, 0x20, by decide +kernel⟩,
   ⟨loadState 1 (some { source := 0, size := 1023, verifyOnly := false, prior := 4 }), { source := 0, size := 1023, verifyOnly := false, prior := 4 }, 0xA002, 0x20, by decide +kernel⟩,
   ⟨loadState 1 (some { source := 0, size := 1024, verifyOnly := true, prior := 4 }), { source := 0, size := 1024, verifyOnly := true, prior := 4 }, by decide +kernel⟩,
   ⟨loadState 1 (some { source := 0, size := 1024, verifyOnly := false, prior := 4 }), { source := 0, size := 1024, verifyOnly := false, prior := 4 }, by decide +kernel⟩,
   ⟨{ loadState 2 (some { source := 0, size := 1024, verifyOnly := false, prior := 4, channels := 8, image := blob 16 [(12, 4, 34)], drainFrom := 100000 }) with disp := [] }, { source := 0, size := 1024, verifyOnly := false, prior := 4, channels := 8, image := blob 16 [(12, 4, 34)], drainFrom := 100000 }, by refine ⟨by decide +kernel, by decide +kernel, by decide +kernel, by decide +kernel, fun _ _ => ⟨rfl, fun _ => ⟨rfl, rfl⟩⟩⟩⟩,
   ⟨{ loadState 2 (some { source := 0, size := 1024, verifyOnly := false, prior := 4, channels := 8, image := blob 16 [(12, 4, 34)] }) with disp := [(3, { ctxs := [(15, { phase := .waiting })] })] }, { source := 0, size := 1024, verifyOnly := false, prior := 4, channels := 8, image := blob 16 [(12, 4, 34)] }, 3, by decide +kernel⟩,
   ⟨{ loadState 2 (some { source := 0, size := 1024, verifyOnly := false, prior := 4, channels := 8, image := blob 16 [(12, 4, 34)] }) with disp := [(3, { ctxs := [(15, { phase := .running })] })] }, { source := 0, size := 1024, verifyOnly := false, prior := 4, channels := 8, image := blob 16 [(12, 4, 34)] }, by decide +kernel⟩,
   ⟨loadState 3 (some { source := 0, size := 1024, verifyOnly := false, prior := 4, channels := 8, image := blob 16 [(12, 4, 34)] }), { source := 0, size := 1024, verifyOnly := false, prior := 4, channels := 8, image := blob 16 [(12, 4, 34)] }, by decide +kernel⟩,
   ⟨loadState 4 none, by decide +kernel⟩,
   ⟨loadState 1 none, .clearLanes, by decide +kernel⟩⟩

/-- The hypotheses of StepRunsCommand are met. -/
theorem wit_stepRunsCommand :
    ∃ (s : State), s.pending = [] :=
  ⟨State.reset, by decide⟩

/-- The hypotheses of every clause of ResetState are met. -/
theorem wit_resetState :
    (∃ (n : Nat), n < 8) ∧
    (∃ (q : Nat), q < 16) :=
  ⟨⟨0, by decide⟩,
   ⟨0, by decide⟩⟩

/-- The hypotheses of StepKeepsInvariant are met. -/
theorem wit_stepKeepsInvariant :
    ∃ (s t : State), s.memWf = true ∧ step s = .next t :=
  ⟨State.reset, { State.reset with pwr := State.reset.pwr }, by exact ⟨by decide, rfl⟩⟩

/-- The hypotheses on the doorbells of HostQueues are met: in range, out of range, and on a queue that is not ENABLED. -/
theorem wit_doorbells :
    (∃ (s : State) (queue : BitVec 6) (data : Word), s.queueUp queue.toNat = true ∧ s.held = false ∧ bits data.toNat 0 30 < 2 ^ (s.queue queue.toNat).sqLog) ∧
    (∃ (s : State) (queue : BitVec 6) (data : Word), s.queueUp queue.toNat = true ∧ s.held = false ∧ ¬ bits data.toNat 0 30 < 2 ^ (s.queue queue.toNat).sqLog) ∧
    (∃ (s : State) (queue : BitVec 6) (data : Word), s.queueUp queue.toNat = true ∧ s.held = false ∧ bits data.toNat 0 30 % 64 = 0 ∧
      bits data.toNat 0 30 < 2 ^ (s.queue queue.toNat).drLog) ∧
    (∃ (s : State) (queue : BitVec 6), s.queueUp queue.toNat = false ∧ s.held = false) :=
  ⟨⟨hostState {}, 63, 1, by decide +kernel⟩, ⟨hostState {}, 63, 2, by decide +kernel⟩, ⟨hostState {}, 63, 65472, by decide +kernel⟩,
   ⟨hostState {}, 62, by decide +kernel⟩⟩

/-! ### Every check of WellFormed refuses an ill-formed command -/

theorem test_wf_router_row_12 : Instr.wf (.ackPacket 0 (.corrected 0x3C5)) = false := by decide
theorem test_wf_logical_row_12 : Instr.wf (.nop 0x3C5 0) = false ∧ Instr.wf (.nop 0x07B 0) = true := by decide
theorem test_wf_physical_column_12 : Instr.wf (.parkCmdKill 0x00C 0) = false ∧ Instr.wf (.parkCmdKill 0x3C5 0) = true := by decide
theorem test_wf_island_past_the_last : Instr.wf (.droopTrip 0x42F) = false ∧ Instr.wf (.droopTrip 0x42E) = true := by decide
theorem test_wf_isle_stall : Instr.wf (.isleStall 0x42E 0x0D0) = false := by decide
theorem test_wf_access_of_no_byte : Instr.wf (.bar0Write 0 0 0) = false ∧ Instr.wf (.rcRegisterRead 0 0) = false := by decide
theorem test_wf_bar2_of_no_byte : Instr.wf (.bar2Write 0 []) = false ∧ Instr.wf (.bar2Read 0 0) = false := by decide
theorem test_wf_part_10 : Instr.wf (.powerOnSelftestDone [{ cell := 0, part := 10 }]) = false := by decide
theorem test_wf_flit_of_71_bytes : Instr.wf (.wglNullFlit 0 (List.replicate 71 0)) = false := by decide +kernel
theorem test_wf_marker_of_73_bytes : Instr.wf (.wglMarker 0 0 (List.replicate 73 0) 0 0) = false := by decide +kernel
theorem test_wf_island_measured_twice :
    Instr.wf (.govControlPeriod { islands := [⟨1, 0, 0, false⟩, ⟨1, 0, 0, false⟩], hbmCase := [], power := 0 }) = false := by decide
theorem test_wf_link_width_2 : Instr.wf (.hostLinkUp 5 2 false) = false ∧ Instr.wf (.hostLinkUp 5 4 false) = true := by decide
theorem test_wf_window_of_2_pow_40 : Instr.wf (.bar2Resize 40) = false ∧ Instr.wf (.msiXUnmask 68) = false := by decide
theorem test_wf_scrub_of_a_spare : Instr.wf (.scrubRead (.cell 0x3C5) .good) = false := by decide
theorem test_wf_header_of_23_bytes : Instr.wf (.copyHeader 0 0 (List.replicate 23 0) .none) = false := by decide
theorem test_wf_trailer_of_9_bytes : Instr.wf (.copyEof 0 0 (List.replicate 9 0)) = false := by decide

/-! ### The worked examples of the spec -/

/-- 00_scope, "Reading a cell id". -/
theorem test_cell_ids : cellId 0 7 11 = 0x07B ∧ cellId 3 12 5 = 0x3C5 ∧ placeOf 0x0_0100_0F60_0000 = .window 0x07B 0 := by decide

/-- 24_register_map, "Locating registers after a remap". -/
theorem test_register_windows : blockOf 0x0053_F018 = some (.disp, 3, 0xF018) ∧ blockOf 0x001D_0020 = some (.wgl, 13, 0x20) ∧
    blockOf 0x0133_5000 = some (.cell, 0x335, 0) := by decide

/-- 03_number_formats, "Decoding posit patterns by hand": 10, −0.5, 2^24, 2^-24 and 3.125 in FP32. -/
theorem test_posit_decode : (convert .posit8 .fp32 0 0 0x5A).out = 0x41200000 ∧ (convert .posit8 .fp32 0 0 0xC8).out = 0xBF000000 ∧
    (convert .posit8 .fp32 0 0 0x7F).out = 0x4B800000 ∧ (convert .posit8 .fp32 0 0 0x01).out = 0x33800000 ∧
    (convert .posit32 .fp32 0 0 0x4C800000).out = 0x40480000 := by decide +kernel

/-- 03_number_formats, "Rounding into posit8 and E4M3": 300, 320, 460 and 470. -/
theorem test_round_posit8 : (convert .fp32 .posit8 0 0 0x43960000).out = 0x70 ∧ (convert .fp32 .posit8 0 0 0x43A00000).out = 0x70 ∧
    (convert .fp32 .posit8 0 0 0x43E60000).out = 0x72 ∧ (convert .fp32 .posit8 0 0 0x43EB0000).out = 0x72 := by decide +kernel
theorem test_round_e4m3 : (convert .fp32 .e4m3 0 0 0x43960000).out = 0x79 ∧ (convert .fp32 .e4m3 0 0 0x43A00000).out = 0x7A ∧
    (convert .fp32 .e4m3 0 0 0x43E60000) = { out := 0x7E } ∧ (convert .fp32 .e4m3 0 0 0x43EB0000) = { out := 0x7F, ev := .ovf } := by
  decide +kernel

/-- 07_instruction_set, "A loop that rescales a byte vector": the state before one of its words, with the bytes 200 and 1, `v` as
lanes, and lane numbers in v1. -/
def rescale (x : Nat) (v : Sparse (BitVec 32)) : State :=
  let s := atWord 2 x
  { s with cells := s.cells.map fun e => (e.1, { e.2 with
      lm := ssetN 0 e.2.lm 0x20000 [200, 1], swarms := [(2, { st := .active, blocks := 4, p := [(1, 3)], u := [(2, 0x20000), (3, 0x30000)],
                                                               v := (33, 1) :: v })] }) }

/-- What a meaning leaves, of which it is asked. -/
def after {α : Type} (d : α) (f : State → α) : Host.Outcome State Fault Refusal → α
  | .next t => f t
  | _ => d

theorem test_example_loop :
    after none (fun t => some ((t.swarm 0 2).loop1, (t.swarm 0 2).pc)) (exec (.loop 0 2) (rescale 0x5203_0040_0000_3000 [])) =
      some ({ start := 8, stop := 32, count := 64, active := true }, 8) := by decide +kernel
/-- v8 takes 72 and −127 in POSIT32; under guard p1 the lanes are 0 and 1. -/
theorem test_example_ld :
    after [] (fun t => [(t.swarm 0 2).vreg 8 0, (t.swarm 0 2).vreg 8 1]) (exec (.ld 0 2) (rescale 0x3020_0802_0153_8000 [])) =
      [0x68800000, 0x94100000] := by decide +kernel
theorem test_example_mul :
    after 0 (fun t => (t.swarm 0 2).vreg 9 0) (exec (.valuP32 0 2) (rescale 0x1222_0908_1400_0000 [(256, 0x68800000), (640, 0x14000000)])) =
      0x39000000 := by decide +kernel
theorem test_example_st :
    after [] (fun t => [t.lmByte 0 0x30000, t.lmByte 0 0x30001]) (exec (.st 0 2) (rescale 0x3120_0903_0113_0000 [(288, 0x39000000), (289, 0xC0200000)])) =
      [0x39, 0xC0] := by decide +kernel
theorem test_example_add :
    after [] (fun t => [(t.swarm 0 2).vreg 1 0, (t.swarm 0 2).vreg 1 1]) (exec (.valuI32i 0 2) (rescale 0x1120_0101_0000_0020 [])) = [32, 33] := by
  decide +kernel

/-- 10_functions_norm, "A user table loaded by the host and evaluated": SFU TAB on −3.25 in FP16, on 1.5 in POSIT8, and past EMAX. -/
def tableState (x a : Nat) : State :=
  let s := rescale x [(96, BitVec.ofNat 32 a)]
  s.modCell 0 fun c => { c with
    tables := [(5, { header := [0, 2, 1, 0, 0, 1, 0, 0] ++ leBytes 4 0x60000000 ++ zeros 52, base := 0x100 })],
    tableRam := [(0x100, 0x00000000300000004000000040000000), (0x101, 0x00000000300000004400000049000000),
                 (0x102, 0x00000000400000005000000050000000), (0x103, 0x00000000400000005400000059000000)] }
theorem test_example_table_fp16 :
    after 0 (fun t => (t.swarm 0 2).vreg 4 0) (exec (.sfu 0 2) (tableState 0x4025_0403_0005_A000 0xC280)) = 0x4948 := by decide +kernel
theorem test_example_table_posit8 :
    after 0 (fun t => (t.swarm 0 2).vreg 4 0) (exec (.sfu 0 2) (tableState 0x4025_0403_0005_1000 0xB3)) = 0x5B := by decide +kernel

/-! ### One step of each other kind of command -/

/-- R141: a reserved opcode parks the swarm. -/
theorem test_reserved_opcode : after SwarmSt.free (fun t => (t.swarm 0 2).st) (exec (.reservedOpcode 0 2) (rescale (0xFF * 2 ^ 56) [])) = .parked := by
  decide +kernel
/-- R460: the loss of the link shows as event 8 and speed 0. -/
theorem test_link_down : after none (fun t => some (t.rd Reg.hostLinkSpeed, bits (t.rd Reg.hostEventsEvents) 8 1)) (exec .hostLinkDown (hostState {})) =
    some (0, 1) := by decide +kernel
/-- R494: the management bus answers GLB.IDENT, least significant byte first. -/
theorem test_mgmt_ident : after [] (fun t => t.pwr.mgmtOut) (exec .mgmtIdent (hostState {})) = [0x00, 0x01, 0x49, 0x21, 0x76, 0x05, 0x4C, 0x4F] := by
  decide +kernel
/-- R430: CURL_N is asserted after reset. -/
theorem test_curl_after_reset : State.reset.curlN = true := by decide
/-- A step on an empty queue is a tick: in power-on reset it changes nothing. -/
theorem test_idle_in_reset : after none (fun t => some (t.regs, t.counter)) (step State.reset) = some (State.reset.regs, 0) := by decide +kernel
/-- R442, R443, as the queue's front command: a doorbell past the queue's size stops it. -/
theorem test_doorbell_past_the_end :
    after none (fun t => some ((t.queue 63).error, t.pending)) (step { hostState {} with pending := [.sqTail 63 2, .wrstN] }) = some (true, [.wrstN]) := by
  decide +kernel

end
end Sys2Proof.Tests
end

section
/-! PROOFS (O60, part 1). Every command keeps what every step must keep: one lemma for each meaning of more than one operation. -/
namespace Sys2Proof.Machine

/-! ### Branches -/

theorem Keeps.ite {z a b : State} {c : Prop} [Decidable c] (ha : Keeps z a) (hb : Keeps z b) : Keeps z (if c then a else b) := by
  split
  · exact ha
  · exact hb

/-- One branch goes on from the state that is the other. -/
theorem Keeps.ite_of_else {z a b : State} {c : Prop} [Decidable c] (hb : Keeps z b) (ha : Keeps z b → Keeps z a) :
    Keeps z (if c then a else b) := .ite (ha hb) hb

theorem Keeps.ite_of_then {z a b : State} {c : Prop} [Decidable c] (ha : Keeps z a) (hb : Keeps z a → Keeps z b) :
    Keeps z (if c then a else b) := .ite ha (hb ha)

/-- A cell's fields other than its local memory take new values. -/
theorem State.modCell_keeps_of_lm {z s : State} {n : Nat} {f : CellMem → CellMem} (hf : ∀ c, (f c).lm = c.lm) (h : Keeps z s) :
    Keeps z (s.modCell n f) :=
  State.modCell_keeps (fun c hc => by rw [hf c]; exact hc) h

section
variable {z s : State} {cell window : BitVec 10} {slot : BitVec 4}

/-! ### Instructions of the lanes, of control and of the supervisor -/

theorem execReservedOpcode_keeps (h : Keeps z s) : KeepsOut z (execReservedOpcode cell slot s) :=
  .next (State.issue_keeps h fun _ _ h => h)

theorem execCvt_keeps (h : Keeps z s) : KeepsOut z (execCvt cell slot s) :=
  .next (State.issue_keeps h fun _ _ h => State.put_keeps (Keeps.foldl (fun _ _ h => State.laneConv_keeps h) h))

theorem execLoop_keeps (h : Keeps z s) : KeepsOut z (execLoop cell slot s) :=
  .next (State.issue_keeps h fun _ _ h =>
    .ite (State.faultInsn_keeps h) (.ite (State.faultInsn_keeps h)
      (.ite (State.boundary_keeps (State.modSwarm_keeps h)) (State.put_keeps h))))

theorem execModeset_keeps (h : Keeps z s) : KeepsOut z (execModeset cell slot s) :=
  .next (State.issue_keeps h fun _ _ h =>
    .ite (State.park_keeps h) (.ite (State.modeEnd_keeps h) (State.modSwarm_keeps h)))

theorem execModeShadowEnd_keeps (h : Keeps z s) : KeepsOut z (execModeShadowEnd cell slot s) := by
  refine .next ?_
  split
  · exact .ite (State.modeEnd_keeps h) h
  · exact h

theorem execWait_keeps (h : Keeps z s) : KeepsOut z (execWait cell slot s) :=
  .next (State.issue_keeps h fun _ _ h => .ite h (State.commit_keeps h))

theorem execBrk_keeps (h : Keeps z s) : KeepsOut z (execBrk cell slot s) :=
  .next (State.issue_keeps h fun _ _ h => State.park_keeps (State.modSwarm_keeps h))

theorem execSwarmRelease_keeps (h : Keeps z s) : KeepsOut z (execSwarmRelease cell slot s) :=
  .next (.ite (State.modCell_keeps_of_lm (fun _ => rfl) h) h)

theorem execSpawn_keeps (h : Keeps z s) : KeepsOut z (execSpawn cell slot s) := by
  refine .next (State.issue_keeps h fun y x h => ?_)
  have refused : Keeps z ((y.modSwarm cell.toNat 0 fun w => w.setU (wD x) 0x1013).supEnd cell.toNat x false) :=
    State.supEnd_keeps (State.modSwarm_keeps h)
  refine .ite (State.park_keeps h) ?_
  split
  · exact refused
  · exact .ite refused (State.supEnd_keeps (State.modSwarm_keeps (State.modSwarm_keeps h)))

theorem execPwait_keeps (h : Keeps z s) : KeepsOut z (execPwait cell slot s) := by
  refine .next (State.issue_keeps h fun _ _ h => ?_)
  dsimp only
  split
  · exact h
  · exact State.put_keeps (State.modCell_keeps_of_lm (fun _ => rfl) h)

theorem execPread_keeps (h : Keeps z s) : KeepsOut z (execPread cell slot s) :=
  .next (State.issue_keeps h fun _ _ h => State.supOn_keeps h fun _ => .some (State.modSwarm_keeps h))

theorem execPwrite_keeps (h : Keeps z s) : KeepsOut z (execPwrite cell slot s) :=
  .next (State.issue_keeps h fun _ _ h => State.supOn_keeps h fun _ => .some (State.modCell_keeps_of_lm (fun _ => rfl) h))

theorem execRread_keeps (h : Keeps z s) : KeepsOut z (execRread cell slot s) :=
  .next (State.issue_keeps h fun _ _ h => State.supOn_keeps h fun _ => .of_map fun _ => State.modSwarm_keeps h)

theorem execRwrite_keeps (h : Keeps z s) : KeepsOut z (execRwrite cell slot s) :=
  .next (State.issue_keeps h fun _ _ h => State.supOn_keeps h fun _ => .of_map fun _ => State.modSwarm_keeps h)

/-! ### Commands of the function tables and of the scale file -/

theorem execFtabCommandDone_keeps (h : Keeps z s) : KeepsOut z (execFtabCommandDone window s) := by
  refine .next (.ite h ?_)
  split
  · exact h
  · exact State.incr_keeps (State.wr_keeps (State.modCell_keeps_of_lm (fun _ => rfl)
      (.ite (State.wr_keeps (State.wr_keeps h)) h)))

theorem execScaleCommandDone_keeps (h : Keeps z s) : KeepsOut z (execScaleCommandDone window s) := by
  refine .next (.ite h ?_)
  split
  · exact h
  · exact State.incr_keeps (State.wr_keeps (State.modCell_keeps_of_lm (fun _ => rfl) (State.scaleDone_keeps h)))

/-! ### Function and normalisation instructions -/

theorem execSfu_keeps (h : Keeps z s) : KeepsOut z (execSfu cell slot s) :=
  .next (State.issue_keeps h fun _ _ h =>
    have hv := State.tabView_keeps h
    .ite (State.faultInsn_keeps hv) (State.commit_keeps (State.sfuLanes_keeps hv)))

theorem execSoftmax_keeps (h : Keeps z s) : KeepsOut z (execSoftmax cell slot s) :=
  .next (State.issue_keeps h fun _ _ h => State.rowOp_keeps h fun _ h =>
    have hq := Keeps.ite (State.qovf_keeps h) h
    State.commit_keeps (State.scaleLanes_keeps (.ite (State.smSat_keeps hq) hq)))

theorem execRmsnormAccumFirst_keeps (h : Keeps z s) : KeepsOut z (execRmsnormAccumFirst cell slot s) :=
  .next (State.issue_keeps h fun _ _ h => State.rowOp_keeps h fun _ h => State.commit_keeps (State.lmStores_keeps h))

theorem execRmsnormAccum_keeps (h : Keeps z s) : KeepsOut z (execRmsnormAccum cell slot s) :=
  .next (State.issue_keeps h fun _ _ h => State.rowOp_keeps h fun _ h =>
    .ite (State.commit_keeps h) (State.commit_keeps (State.lmStores_keeps h)))

theorem execRmsnormApply_keeps (h : Keeps z s) : KeepsOut z (execRmsnormApply cell slot s) :=
  .next (State.issue_keeps h fun _ _ h => State.rowOp_keeps h fun _ h =>
    State.commit_keeps (State.scaleLanes_keeps (.ite (State.qovf_keeps h) h)))

/-! ### Fragment instructions -/

theorem execMxfZero_keeps (h : Keeps z s) : KeepsOut z (execMxfZero cell slot s) :=
  .next (State.mxf_keeps h fun _ _ h => .bind fun _ => .bind fun _ => .ok (State.modCell_keeps_of_lm (fun _ => by simp) h))

theorem execMxfMma_keeps (h : Keeps z s) : KeepsOut z (execMxfMma cell slot s) :=
  .next (State.mxf_keeps h fun _ _ h => .bind fun _ => .bind fun _ => .bind fun _ => .ok (State.fragAdd_keeps h))

theorem execMxfOut_keeps (h : Keeps z s) : KeepsOut z (execMxfOut cell slot s) :=
  .next (State.mxf_keeps h fun _ _ h =>
    .bind fun _ => .bind fun _ => .bind fun _ => .bind fun _ => .bind fun _ => .bind fun _ => .bind fun _ => .bind fun _ =>
    .bind fun _ => .bind fun _ => .ok
      (State.modCell_keeps_of_lm (fun _ => rfl) (State.modSwarm_keeps (State.fragRows_keeps (State.folds_keeps
        (Keeps.foldl (fun _ _ h => State.lmTouch_keeps h) (State.tabView_keeps h)))))))

end
end Sys2Proof.Machine
end

section
/-! PROOFS (O60, part 2). Commands of the mesh, the memory system, the chains and the quads. -/
namespace Sys2Proof.Machine

section
variable {z s : State} {i : Nat} {link : LinkErr} {cell : BitVec 10} {quad lanes : BitVec 4} {flit : Bytes}

/-! ### Packets -/

theorem execStorePacket_keeps (h : Keeps z s) : KeepsOut z (execStorePacket i link s) := by
  refine .next (State.arrive_keeps h fun _ p h => ?_)
  split
  · have hd := State.dropPkt_keeps (i := i) h
    exact .ite (State.ack_keeps (State.inboundStore_keeps hd)) (State.refuse_keeps (State.inboundStore_keeps hd))
  · exact h

theorem execAtomicPacket_keeps (h : Keeps z s) : KeepsOut z (execAtomicPacket i link s) := by
  refine .next (State.arrive_keeps h fun _ p h => ?_)
  split
  · have hd := State.dropPkt_keeps (i := i) h
    dsimp only
    split
    · exact .ite (State.post_keeps (State.atomApply_keeps hd)) (State.ack_keeps (State.atomApply_keeps hd))
    · exact State.refuse_keeps (State.inboundCount_keeps hd)
  · exact h

theorem execAtomicRspPacket_keeps (h : Keeps z s) : KeepsOut z (execAtomicRspPacket i link s) := by
  refine .next (State.arrive_keeps h fun _ p h => ?_)
  split
  · exact State.modSwarm_keeps (State.dropPkt_keeps h)
  · exact h

theorem execMsgPacket_keeps (h : Keeps z s) : KeepsOut z (execMsgPacket i link s) :=
  .next (State.arrive_keeps h fun _ _ h => .ite h (State.msgAt_keeps h))

theorem execMsgRingWaitRelease_keeps (h : Keeps z s) : KeepsOut z (execMsgRingWaitRelease i s) := by
  refine .next ?_
  split
  · exact .ite (State.msgAt_keeps h) h
  · exact h

theorem execAckPacket_keeps (h : Keeps z s) : KeepsOut z (execAckPacket i link s) := by
  refine .next (State.arrive_keeps h fun _ p h => ?_)
  split
  · exact State.pieceSettled_keeps (State.dropPkt_keeps h)
  · exact State.dropPkt_keeps h

theorem execRefusePacket_keeps (h : Keeps z s) : KeepsOut z (execRefusePacket i link s) := by
  refine .next (State.arrive_keeps h fun _ p h => ?_)
  have hd := State.dropPkt_keeps (i := i) h
  dsimp only
  split
  · exact State.remoteRefused_keeps hd
  · exact State.remoteRefused_keeps hd
  · exact State.memSettled_keeps hd
  · exact State.pieceSettled_keeps hd
  · exact State.sentRefused_keeps hd
  · exact hd

theorem execMemreqPacket_keeps (h : Keeps z s) : KeepsOut z (execMemreqPacket i link s) := by
  refine .next (State.arrive_keeps h fun _ p h => ?_)
  have hd := State.dropPkt_keeps (i := i) h
  dsimp only
  split
  · have hf {a n : Nat} := State.hbmFetch_keeps (a := a) (n := n) hd
    exact .ite (State.memAnswer_keeps (State.hbmStore_keeps hd)) (.ite (State.memAnswer_keeps hf) (State.memAnswer_keeps hf))
  · exact .ite (State.memAnswer_keeps (State.hostWrite_keeps hd)) (.ite (.frame hd rfl rfl) (State.memAnswer_keeps hd))
  · exact hd

theorem execMemrspPacket_keeps (h : Keeps z s) : KeepsOut z (execMemrspPacket i link s) := by
  refine .next (State.arrive_keeps h fun _ p h => ?_)
  split
  · exact State.memSettled_keeps (State.dropPkt_keeps h)
  · exact h

theorem execBridgeDiscard_keeps (h : Keeps z s) : KeepsOut z (execBridgeDiscard i s) := by
  refine .next ?_
  split
  · exact h
  split
  · exact h
  · exact .ite h (State.countEnd_keeps (State.refuseAt_keeps (State.dropPkt_keeps h)))

theorem execTriggerMessage_keeps (h : Keeps z s) : KeepsOut z (execTriggerMessage i link s) := by
  refine .next (State.arrive_keeps h fun _ p h => ?_)
  split
  · exact .ite (State.triggerMsg_keeps (State.ack_keeps (State.dropPkt_keeps h))) h
  · exact h

theorem execResultPiece_keeps (h : Keeps z s) : KeepsOut z (execResultPiece i link s) := by
  refine .next (State.arrive_keeps h fun _ p h => ?_)
  split
  · exact .ite (State.resultPiece_keeps (State.ack_keeps (State.dropPkt_keeps h))) h
  · exact h

/-! ### Regions and scrubbing -/

theorem execRegionSyncArrival_keeps (h : Keeps z s) : KeepsOut z (execRegionSyncArrival cell s) :=
  .next (.ite h (.ite_of_else (State.modDisp_keeps (State.syncCell_keeps h)) fun h =>
    State.modDisp_keeps (State.wr_keeps (State.wr_keeps h))))

theorem execScrubRead_keeps {unit : ScrubUnit} {ecc : EccSeen} (h : Keeps z s) : KeepsOut z (execScrubRead unit ecc s) := by
  refine .next (.ite h ?_)
  split
  · exact State.scrubStack_keeps h
  · exact State.scrubCell_keeps h

/-! ### Chains -/

theorem execChainOutputPiece_keeps (h : Keeps z s) : KeepsOut z (execChainOutputPiece i link s) := by
  refine .next (State.arrive_keeps h fun _ p h => ?_)
  split
  · refine .ite h ?_
    have ha := State.ack_keeps (p := p) (State.dropPkt_keeps (i := i) h)
    dsimp only
    split
    · exact State.outputPiece_keeps ha
    · exact State.dEvt_keeps ha
  · exact h

theorem execChainForward_keeps (h : Keeps z s) : KeepsOut z (execChainForward i s) := by
  refine .next (State.arrive_keeps h fun _ p h => ?_)
  split
  · exact State.forwardTo_keeps (State.dropPkt_keeps h)
  · exact h

theorem execInDeviceAnnounce_keeps (h : Keeps z s) : KeepsOut z (execInDeviceAnnounce i s) := by
  refine .next (State.arrive_keeps h fun _ p h => ?_)
  split
  · exact State.announceAt_keeps (State.dropPkt_keeps h)
  · exact h

theorem execChainTimeout_keeps {ch : BitVec 2} {entry : BitVec 6} {inst : BitVec 48} (h : Keeps z s) :
    KeepsOut z (execChainTimeout ch entry inst s) := by
  refine .next ?_
  split
  · exact .ite (State.makeIncomplete_keeps h) h
  · exact h

/-! ### States of a quad's link -/

theorem execWglDetect_keeps (h : Keeps z s) : KeepsOut z (execWglDetect quad lanes s) := by
  refine .next ?_
  split
  · exact h
  · exact .ite h (.ite_of_then (Keeps.foldl (fun _ _ h => State.wr_keeps h) h) State.setLink_keeps)

theorem execWglTrainDone_keeps (h : Keeps z s) : KeepsOut z (execWglTrainDone quad lanes s) := by
  refine .next ?_
  split
  · exact h
  · exact .ite h (.ite_of_then (Keeps.foldl (fun _ _ h => State.wr_keeps h) h) fun h =>
      State.nextStage_keeps (State.modWgl_keeps h))

theorem execWglAlignDone_keeps (h : Keeps z s) : KeepsOut z (execWglAlignDone quad s) := by
  refine .next ?_
  split
  · exact h
  · exact .ite h (State.modWgl_keeps (State.nextStage_keeps h))

theorem execWglRetrainTimeout_keeps (h : Keeps z s) : KeepsOut z (execWglRetrainTimeout quad s) :=
  .next (.ite h (State.pairPortLost_keeps (State.timePortLost_keeps (State.chainsPortLost_keeps (State.setLink_keeps
    (State.modWgl_keeps (State.evt_keeps h)))))))

/-! ### Flits -/

theorem execWglInitFlit_keeps (h : Keeps z s) : KeepsOut z (execWglInitFlit quad flit s) := by
  refine .next ?_
  split
  · exact h
  refine .ite h (.ite (State.evt_keeps (State.bump_keeps h)) (.ite h ?_))
  dsimp only
  split
  · exact .ite_of_else (State.evt_keeps (State.wr_keeps (State.wr_keeps h))) State.setLink_keeps
  · exact State.linkUpNow_keeps (State.wr_keeps h)

theorem execWglMsgFlit_keeps {fec : FecSeen} {tap : TapErr} (h : Keeps z s) : KeepsOut z (execWglMsgFlit quad flit fec tap s) := by
  refine .next ?_
  split
  · exact h
  have hb : Keeps z (if (fec == .corrected) = true then s.bump (Reg.wglCountAFecCorr quad.toNat) else s) :=
    .ite (State.bump_keeps h) h
  exact .ite h (.ite (State.discardFlit_keeps (State.evt_keeps (State.bump_keeps hb))) (.ite (State.discardFlit_keeps hb)
    (.ite hb (.ite (State.discardFlit_keeps hb)
      (State.takeAck_keeps (.ite_of_else (State.modWgl_keeps hb) State.channelFault_keeps))))))

theorem execWglNullFlit_keeps (h : Keeps z s) : KeepsOut z (execWglNullFlit quad flit s) := by
  refine .next ?_
  split
  · exact h
  · exact .ite h (.ite (State.discardFlit_keeps h) (.ite h (State.takeReport_keeps h)))

theorem execWglNakFlit_keeps (h : Keeps z s) : KeepsOut z (execWglNakFlit quad flit s) := by
  refine .next ?_
  split
  · exact h
  · exact .ite h (.ite (State.discardFlit_keeps h) (.ite h (.ite_of_else (State.takeReport_keeps h) State.replayFlits_keeps)))

theorem execAckTimeout_keeps (h : Keeps z s) : KeepsOut z (execAckTimeout quad s) := by
  refine .next ?_
  split
  · exact h
  · exact .ite (State.replayFlits_keeps h) h

theorem execMsgHold_keeps (h : Keeps z s) : KeepsOut z (execMsgHold quad s) := by
  refine .next ?_
  split
  · exact .ite h (State.modWgl_keeps (State.loseHeld_keeps h))
  · exact h

theorem execWglMarker_keeps {lane : BitVec 2} {portion : Bytes} {parity : BitVec 8} {symbols : Nat} (h : Keeps z s) :
    KeepsOut z (execWglMarker quad lane portion parity symbols s) := by
  refine .next ?_
  split
  · exact h
  · exact .ite h (.ite_of_else (State.laneErrors_keeps h) State.takeMask_keeps)

theorem execWglMack_keeps (h : Keeps z s) : KeepsOut z (execWglMack quad s) := by
  refine .next (.ite h ?_)
  split
  · exact h
  · exact .ite (State.evt_keeps (State.bump_keeps (State.consume_keeps h))) (.ite_of_then (State.consume_keeps h) fun h =>
      .ite_of_then (State.modWgl_keeps h) fun h => State.evt_keeps (State.bump_keeps h))

end
end Sys2Proof.Machine
end

section
/-! PROOFS (O60, part 3). Commands of the time block, of dispatch, of the host queues and of the host interface. -/
namespace Sys2Proof.Machine

section
variable {z s : State} {i : Nat} {ch : BitVec 2} {slot ctx : BitVec 4} {queue : BitVec 6}

/-! ### Time -/

theorem execSyncInEdge_keeps (h : Keeps z s) : KeepsOut z (execSyncInEdge s) :=
  have hw := State.wr_keeps (f := Reg.timeEpochCtlArm) (v := 0) h
  .next (.ite h (.ite (State.bump_keeps h) (.ite (State.modTime_keeps hw) (State.evt_keeps (State.jump_keeps hw)))))

theorem execMrefLock_keeps (h : Keeps z s) : KeepsOut z (execMrefLock s) :=
  .next (.ite h (State.timeRecord_keeps (State.evt_keeps (State.wr_keeps h))))

theorem execMrefLoss_keeps (h : Keeps z s) : KeepsOut z (execMrefLoss s) :=
  .next (.ite h (State.timeRecord_keeps (State.evt_keeps (State.wr_keeps h))))

theorem execCounterSlew_keeps (h : Keeps z s) : KeepsOut z (execCounterSlew s) :=
  .next (.ite h (.ite (.frame h rfl rfl) (.frame h rfl rfl)))

theorem execBeaconPeriod_keeps (h : Keeps z s) : KeepsOut z (execBeaconPeriod s) :=
  .next (.ite h (.ite_of_then (State.modTime_keeps h) fun h => Keeps.foldl (fun _ _ h => State.beacon_keeps h) h))

theorem execGroupStep_keeps (h : Keeps z s) : KeepsOut z (execGroupStep s) := by
  refine .next ?_
  split
  · exact h
  · exact .ite h (State.evt_keeps (State.jump_keeps (State.modTime_keeps h)))

theorem execCountFire_keeps (h : Keeps z s) : KeepsOut z (execCountFire ch slot s) :=
  .next (.ite h (.ite (State.ignoreLive_keeps (State.modDisp_keeps h)) (State.fireCount_keeps h)))

theorem execDispArmGo_keeps {data : Word} (h : Keeps z s) : KeepsOut z (execDispArmGo ch data s) :=
  .next (.ite h (State.gated_keeps h fun _ h => State.armGo_keeps (State.writeReg_keeps h)))

/-! ### Launches and contexts -/

theorem execLaunchBegin_keeps (h : Keeps z s) : KeepsOut z (execLaunchBegin ch ctx s) := by
  refine .next (.ite h ?_)
  split
  · exact State.abortCtx_keeps h
  refine .ite h (.ite (State.preempt_keeps h) (.ite ?_ (State.reserve_keeps h)))
  split
  · exact h
  · exact State.reserve_keeps h

theorem execLaunchSwarmCreate_keeps {host : Bytes} (h : Keeps z s) : KeepsOut z (execLaunchSwarmCreate ch ctx host s) := by
  refine .next (.ite h ?_)
  split
  · next e => exact State.abortCtx_keeps (.of_fst e (State.loadRegions_keeps h))
  · next y e =>
    have hy : Keeps z y := .of_fst e (State.loadRegions_keeps h)
    refine .ite (State.abortCtx_keeps hy) ?_
    split
    · next e => exact State.abortCtx_keeps (.of_fst e (State.refresh_keeps hy))
    · next e => exact State.modCtx_keeps (Keeps.foldl (fun _ _ h => State.createOn_keeps h) (.of_fst e (State.refresh_keeps hy)))

theorem execLaunchComplete_keeps (h : Keeps z s) : KeepsOut z (execLaunchComplete ch ctx s) := by
  refine .next (.ite h ?_)
  dsimp only
  have hf : Keeps z ((s.ctxCells ch.toNat ctx.toNat).foldl (fun s id => s.modCell id fun x => x.freeLaunch ctx.toNat) s) :=
    Keeps.foldl (fun _ _ h => State.modCell_keeps_of_lm (fun c => c.freeLaunch_lm _) h) h
  split
  · exact State.modCtx_keeps (.ite_of_else hf fun h => State.modCtx_keeps (State.releaseSlot_keeps h))
  · exact State.completeCtx_keeps (.ite_of_else hf fun h => State.modCtx_keeps (State.releaseSlot_keeps h))

theorem execPreemptSaveDone_keeps (h : Keeps z s) : KeepsOut z (execPreemptSaveDone ch ctx s) := by
  refine .next (.ite h ?_)
  split
  · next e => exact State.abortCtx_keeps (State.dEvt_keeps (.of_fst e (State.saveCells_keeps h)))
  · next e =>
    exact State.dEvt_keeps (State.modCtx_keeps (Keeps.foldl (fun _ _ h => State.modCell_keeps_of_lm (fun c => c.evict_lm _) h)
      (.of_fst e (State.saveCells_keeps h))))

theorem execContextRestore_keeps (h : Keeps z s) : KeepsOut z (execContextRestore ch ctx s) := by
  refine .next (.ite h ?_)
  split
  · exact State.abortCtx_keeps h
  refine .ite h ?_
  dsimp only
  split
  · next e => exact State.abortCtx_keeps (.of_fst e (State.loadRegions_keeps (State.modCtx_keeps h)))
  · next e => exact .of_fst e (State.loadRegions_keeps (State.modCtx_keeps h))

theorem execContextRestoreDone_keeps (h : Keeps z s) : KeepsOut z (execContextRestoreDone ch ctx s) := by
  refine .next (.ite h ?_)
  dsimp only
  split
  · next e => exact State.abortCtx_keeps (State.dEvt_keeps (.of_fst e (State.readAreas_keeps h)))
  · next e =>
    exact .ite h (State.modCtx_keeps (Keeps.foldl (fun _ _ h => State.restoreCell_keeps h) (.of_fst e (State.readAreas_keeps h))))

theorem execDeadline_keeps (h : Keeps z s) : KeepsOut z (execDeadline ch s) :=
  .next (.ite h (Keeps.foldl (fun _ _ h => State.lateTrigger_keeps h) (Keeps.foldl (fun _ _ h => State.lateJob_keeps h)
    (Keeps.foldl (fun _ _ h => .ite_of_else h State.lateCtx_keeps) (State.chainsDue_keeps h)))))

/-! ### Host queues -/

theorem execHostDrWrite_keeps (h : Keeps z s) : KeepsOut z (execHostDrWrite queue s) := by
  refine .next ?_
  split
  · exact h
  · exact .ite h (State.stageWaiting_keeps (State.stagedDone_keeps (.frame (State.drPut_keeps
      (.ite_of_then h State.drPut_keeps)) rfl rfl)))

theorem execLaunch_keeps (h : Keeps z s) : KeepsOut z (execLaunch queue s) := by
  refine .next ?_
  split
  · exact h
  · exact .ite (State.jobDone_keeps (State.dEvt_keeps h)) (State.nextRead_keeps (State.modJob_keeps h))

theorem execLaunchInputDone_keeps (h : Keeps z s) : KeepsOut z (execLaunchInputDone queue s) := by
  refine .next ?_
  split
  · exact h
  refine .ite (State.jobDone_keeps h) (.ite h ?_)
  split
  · next e =>
    exact State.hostTrigger_keeps (State.hrdRecord_keeps (State.modJob_keeps (.of_fst e (State.launchWrite_keeps h))))
  · next e => exact State.jobDone_keeps (.of_fst e (State.launchWrite_keeps h))

theorem execCopyIn_keeps (h : Keeps z s) : KeepsOut z (execCopyIn queue s) := by
  refine .next ?_
  split
  · exact h
  · exact .ite h (State.nextRead_keeps (State.modJob_keeps h))

theorem execCopyOut_keeps (h : Keeps z s) : KeepsOut z (execCopyOut queue s) := by
  refine .next ?_
  split
  · exact h
  · exact .ite h (State.jobEnd_keeps (State.copyOut_keeps h))

theorem execHostCopyDone_keeps (h : Keeps z s) : KeepsOut z (execHostCopyDone queue s) := by
  refine .next ?_
  split
  · exact State.jobDone_keeps h
  split
  · exact State.copyInWrite_keeps h
  · exact h

theorem execFlashWrite_keeps (h : Keeps z s) : KeepsOut z (execFlashWrite queue s) := by
  refine .next ?_
  split
  · exact h
  · exact .ite h (.ite (State.jobDone_keeps (State.hbmFetch_keeps h)) (State.modJob_keeps (State.hbmFetch_keeps h)))

theorem execFlashWriteDone_keeps {ok : Bool} (h : Keeps z s) : KeepsOut z (execFlashWriteDone queue ok s) := by
  refine .next ?_
  split
  · exact h
  · exact .ite (State.jobDone_keeps (State.modPwr_keeps (fun _ => rfl) h))
      (State.jobDone_keeps (State.evt_keeps (State.modPwr_keeps (fun _ => rfl) h)))

/-! ### Fuses: a bit is added to those that are set (R31, R451) -/

theorem Fuses.within_setKey (f : Fuses) (hash : Sparse Bytes) (m : BitVec 4) :
    Fuses.within f { f with keyHash := hash, keyValid := f.keyValid ||| m } = true := by
  simp [Fuses.within, within_or]

theorem Fuses.within_revoke (f : Fuses) (m : BitVec 4) : Fuses.within f { f with keyRevoked := f.keyRevoked ||| m } = true := by
  simp [Fuses.within, within_or]

theorem Fuses.within_sigRequired (f : Fuses) : Fuses.within f { f with sigRequired := true } = true := by
  simp [Fuses.within]

theorem execFuseKey_keeps (h : Keeps z s) : KeepsOut z (execFuseKey queue s) :=
  .next (State.fuseOp_keeps h fun _ _ _ h =>
    .ite (State.jobDone_keeps (State.hbmFetch_keeps h))
      (State.jobDone_keeps (State.modFuses_keeps (fun f => Fuses.within_setKey f _ _) (State.hbmFetch_keeps h))))

theorem execFuseRevoke_keeps (h : Keeps z s) : KeepsOut z (execFuseRevoke queue s) :=
  .next (State.fuseOp_keeps h fun _ _ _ h => State.jobDone_keeps (State.modFuses_keeps (fun f => Fuses.within_revoke f _) h))

theorem execFuseSigRequired_keeps (h : Keeps z s) : KeepsOut z (execFuseSigRequired queue s) :=
  .next (State.fuseOp_keeps h fun _ _ _ h => State.jobDone_keeps (State.modFuses_keeps Fuses.within_sigRequired h))

/-! ### Firmware and host reads -/

theorem execFwUpdate_keeps (h : Keeps z s) : KeepsOut z (execFwUpdate queue s) := by
  refine .next ?_
  split
  · exact h
  · exact .ite (State.modJob_keeps (State.hbmFetch_keeps h)) (State.jobEnd_keeps (State.evt_keeps (State.hbmFetch_keeps h)))

theorem execFwUpdateDone_keeps (h : Keeps z s) : KeepsOut z (execFwUpdateDone queue s) := by
  refine .next ?_
  split
  · exact h
  · exact .ite (State.jobDone_keeps h) (State.jobDone_keeps (State.modPwr_keeps (fun _ => rfl) h))

theorem execHostReadCompletion_keeps {ok : Bool} {bytes : Bytes} (h : Keeps z s) : KeepsOut z (execHostReadCompletion i ok bytes s) := by
  refine .next ?_
  split
  · exact h
  · exact .ite (State.readServed_keeps (.frame h rfl rfl)) (State.readRefused_keeps (State.evt_keeps (.frame h rfl rfl)))

theorem execCompletionTimeout_keeps (h : Keeps z s) : KeepsOut z (execCompletionTimeout i s) := by
  refine .next ?_
  split
  · exact h
  · exact State.readRefused_keeps (State.evt_keeps (.frame h rfl rfl))

/-! ### The host interface -/

theorem execBar0Write_keeps {off size : Nat} {data : Word} (h : Keeps z s) : KeepsOut z (execBar0Write off size data s) := by
  refine .next (.ite h (.ite (State.regAccess_keeps h) ?_))
  split
  · exact State.regAccess_keeps h
  · exact State.gated_keeps h fun _ h => State.writeServed_keeps h

theorem execBar2Read_keeps {off len : Nat} (h : Keeps z s) : KeepsOut z (execBar2Read off len s) := by
  refine .next (.ite h (.ite (State.bar2Refused_keeps h) (.ite ?_ ?_)))
  · have hf := State.hbmFetch_keeps (a := s.rd Reg.hostBar2BaseBase + off) (n := len) h
    exact .ite (State.answer_keeps hf) (.ite (State.answer_keeps hf) (State.bar2Refused_keeps hf))
  · split
    · exact .ite (State.bar2Refused_keeps h) (.ite (State.answer_keeps (State.lmUceTold_keeps h))
        (State.answer_keeps (State.lmTouch_keeps h)))
    · exact State.bar2Refused_keeps h

theorem execBar2Write_keeps {off : Nat} {bytes : Bytes} (h : Keeps z s) : KeepsOut z (execBar2Write off bytes s) := by
  refine .next (.ite h (.ite (State.bar2Refused_keeps h) (.ite ?_ ?_)))
  · split
    · next e => exact State.answer_keeps (.of_fst e (State.hbmStore_keeps h))
    · next e => exact State.bar2Refused_keeps (.of_fst e (State.hbmStore_keeps h))
  split
  · refine .ite (State.bar2Refused_keeps h) ?_
    split
    · next e => exact State.answer_keeps (.of_fst e (State.inboundStore_keeps h))
    · next e => exact State.answer_keeps (.of_fst e (State.inboundStore_keeps h))
  · exact State.bar2Refused_keeps h

theorem execBar2Resize_keeps {log2 : BitVec 6} (h : Keeps z s) : KeepsOut z (execBar2Resize log2 s) :=
  .next (.ite h (.ite_of_then (.frame h rfl rfl) State.wr_keeps))

theorem execMsiXUnmask_keeps {vector : BitVec 7} (h : Keeps z s) : KeepsOut z (execMsiXUnmask vector s) :=
  .next (.ite h (.ite_of_else (.frame h rfl rfl) State.signal_keeps))

end
end Sys2Proof.Machine
end

section
/-! PROOFS (O60, part 4). Commands of ingest and the camera, of the image loader, of seals and the Hoard, of the governor, of the safety
functions, of resets and of the management ports. -/
namespace Sys2Proof.Machine

section
variable {z s : State} {ch ctx : BitVec 2} {lane : BitVec 4} {hdr : HdrErr} {tap : TapErr} {f ok : Bool} {data : Word}

/-! ### Ingest -/

theorem execIngLaneDown_keeps (h : Keeps z s) : KeepsOut z (execIngLaneDown ch lane s) := by
  refine .next (.ite h ?_)
  split
  · exact h
  · exact State.setLane_keeps h
  · exact State.setLane_keeps (State.ingRaise_keeps (Keeps.foldl (fun _ _ h =>
      State.modIng_keeps (.ite_of_else (State.ingSettle_keeps h) State.ingFail_keeps)) h))

theorem execCopyHeader_keeps {header : Bytes} (h : Keeps z s) : KeepsOut z (execCopyHeader ch lane header tap s) :=
  .next (.ite h (State.onBlock_keeps h fun _ _ h =>
    .ite (State.channelFault_keeps (State.modIng_keeps h)) (State.ingHeader_keeps h)))

theorem execCopyEof_keeps {tail : Bytes} (h : Keeps z s) : KeepsOut z (execCopyEof ch lane tail s) :=
  .next (.ite h (State.onBlock_keeps h fun _ _ h => State.ingEof_keeps h))

theorem execFramingFailure_keeps (h : Keeps z s) : KeepsOut z (execFramingFailure ch lane s) :=
  .next (State.onBlock_keeps h fun _ _ h => State.ingFail_keeps (State.ingSettle_keeps h))

theorem execAsmTimeout_keeps {event : BitVec 48} (h : Keeps z s) : KeepsOut z (execAsmTimeout ch event s) := by
  refine .next (.ite h ?_)
  split
  · exact h
  · exact .ite (State.ingExpire_keeps (State.ingFlush_keeps h)) h

theorem execFrameHandoff_keeps {event : BitVec 48} (h : Keeps z s) : KeepsOut z (execFrameHandoff ch event s) := by
  refine .next (.ite h ?_)
  dsimp only
  split
  · exact h
  · exact .ite (State.ingHandoff_keeps (State.ingSettle_keeps h)) h

theorem execIngResyncDone_keeps (h : Keeps z s) : KeepsOut z (execIngResyncDone ch s) :=
  .next (.ite h (Keeps.foldl (fun _ _ h => State.ingResume_keeps h)
    (State.modIng_keeps (State.wr_keeps (State.wr_keeps (State.wr_keeps h))))))

/-! ### The camera -/

theorem State.camHeader_settled_keeps {y : State} {c : Nat} (h : Keeps z y) : Keeps z ((y.camSettle c).camHeader c hdr).1 :=
  State.camHeader_keeps (State.camSettle_keeps h)

theorem execCamFrameStart_keeps {frame : BitVec 16} (h : Keeps z s) : KeepsOut z (execCamFrameStart ch ctx frame hdr tap s) :=
  .next (State.onCam_keeps h fun _ _ h => .ite_of_else (State.camHeader_settled_keeps h) State.camStart_keeps)

theorem execCamLongPacket_keeps {vc : BitVec 4} {dt : BitVec 6} {payload : Bytes} {crcOk full : Bool} (h : Keeps z s) :
    KeepsOut z (execCamLongPacket ch vc dt hdr payload crcOk full tap s) :=
  .next (State.onCam_keeps h fun _ _ h => .ite_of_else (State.camHeader_settled_keeps h) State.camPacket_keeps)

theorem execCamFrameEnd_keeps {frame : BitVec 16} (h : Keeps z s) : KeepsOut z (execCamFrameEnd ch ctx frame hdr tap s) :=
  .next (State.onCam_keeps h fun _ _ h => .ite_of_else (State.camHeader_settled_keeps h) State.camEndFrame_keeps)

theorem execFrameTimeout_keeps (h : Keeps z s) : KeepsOut z (execFrameTimeout ch ctx s) := by
  refine .next (.ite h ?_)
  split
  · exact h
  · exact .ite (State.camEndFrame_keeps h) h

theorem execMergeTimeout_keeps (h : Keeps z s) : KeepsOut z (execMergeTimeout ch s) := by
  refine .next (.ite h ?_)
  split
  · exact h
  · exact State.camClose_keeps h

theorem execCamProcessStart_keeps (h : Keeps z s) : KeepsOut z (execCamProcessStart ch s) := by
  refine .next (.ite h ?_)
  dsimp only
  split
  · exact .ite (State.camProcess_keeps (State.camSettle_keeps h)) h
  · exact h

theorem execCamHandoff_keeps (h : Keeps z s) : KeepsOut z (execCamHandoff ch s) := by
  refine .next (.ite h ?_)
  dsimp only
  split
  · exact .ite (State.camHandoff_keeps (State.camSettle_keeps h)) h
  · exact h

theorem execSensorWriteDone_keeps {ack : Bool} (h : Keeps z s) : KeepsOut z (execSensorWriteDone ch ack s) := by
  refine .next (State.onCam_keeps h fun _ _ h => ?_)
  split
  · exact h
  · exact .ite (State.camWriteAcked_keeps h) (State.camWriteFailed_keeps h)

theorem execWriteWindow_keeps (h : Keeps z s) : KeepsOut z (execWriteWindow ch s) := by
  refine .next (.ite h ?_)
  split
  · exact h
  · exact .ite (State.camWriteFailed_keeps h) h

/-! ### The image -/

theorem execImgPass1Done_keeps {readOk : Bool} (h : Keeps z s) : KeepsOut z (execImgPass1Done readOk s) := by
  refine .next ?_
  split
  · exact h
  refine .ite h ?_
  dsimp only
  split
  · exact State.loadFail_keeps (State.sourceRead_keeps h)
  refine .ite (State.loadFail_keeps (State.fresh_keeps (State.sourceRead_keeps h))) ?_
  split
  · exact State.loadFail_keeps (State.sourceRead_keeps h)
  · exact .ite (State.loadEnd_keeps (State.sourceRead_keeps h)) (State.drainStart_keeps (State.sourceRead_keeps h))

theorem execDrainLimit_keeps (h : Keeps z s) : KeepsOut z (execDrainLimit s) := by
  refine .next ?_
  split
  · exact h
  · exact .ite h (State.drainAbort_keeps h)

theorem execImgDrainDone_keeps (h : Keeps z s) : KeepsOut z (execImgDrainDone s) := by
  refine .next ?_
  split
  · exact h
  · exact .ite h (Keeps.foldl (fun _ _ h =>
      State.unconfigure_keeps (State.restoresLost_keeps (State.channelReset_keeps h))) (State.wr_keeps h))

theorem Keeps.fst_ite {α : Type} {p q : State × α} {c : Prop} [Decidable c] (hp : Keeps z p.1) (hq : Keeps z q.1) :
    Keeps z (if c then p else q).1 := by
  split
  · exact hp
  · exact hq

/-- R23, R24: pass 2 of a load ends in its stop or in its application, in a state in which sections have been applied. A partial
load without a channel applies none and does not stop. -/
theorem execImgApplyDone_ends {ld : Load} (hl : s.img.load = some ld) (hs : s.rd Reg.imgStatusState = 3) (readOk : Bool)
    (bad : List CellFail) : ∃ y : State, (∀ z, Keeps z s → Keeps z y) ∧
      ((∃ done, execImgApplyDone readOk bad s = .next (y.loadApplied ld done)) ∨
        (¬ (imPartial ld.image = true ∧ ld.chans = []) ∧
          ∃ code detail, execImgApplyDone readOk bad s = .next (y.loadStop ld code detail))) := by
  unfold execImgApplyDone
  split
  next e => cases e.symm.trans hl
  next _ e =>
  cases e.symm.trans hl
  rw [if_neg (by simp [hs])]
  split
  next k t ek =>
  split
  next y stop e =>
  have hy z (h : Keeps z s) : Keeps z y := .of_fst e (.fst_ite h (.of_snd ek (State.freeStop_keeps h)))
  have hi z (h : Keeps z s) : Keeps z (y.withImage ld.image) := State.withImage_keeps (hy z h)
  dsimp only
  generalize e1 : (if imPartial ld.image = true then (y.withImage ld.image, none) else
    (if ((y.withImage ld.image).global 0x21).isEmpty = true then (y.withImage ld.image).applyGov govDefault
      else y.withImage ld.image).applyPart ld stop 0xF (imPart ld.image 0xF)) = part
  obtain ⟨y1, r1⟩ := part
  have h1 z (h : Keeps z s) : Keeps z y1 :=
    .of_fst e1 (.fst_ite (hi z h) (State.applyPart_keeps (.ite_of_else (hi z h) State.applyGov_keeps)))
  cases r1 with
  | some e => exact ⟨_, fun z h => .frame (h1 z h) rfl rfl, .inr ⟨fun hp => by simp [hp.1] at e1, e.1, e.2, rfl⟩⟩
  | none =>
    dsimp only
    generalize e2 : y1.applyChannels ld bad stop ld.chans = chans
    obtain ⟨y2, r2⟩ := chans
    have h2 z (h : Keeps z s) : Keeps z y2 := .of_fst e2 (State.applyChannels_keeps (h1 z h))
    cases r2 with
    | some e =>
      refine ⟨_, fun z h => .frame (h2 z h) rfl rfl, .inr ⟨fun hp => ?_, e.1, e.2, rfl⟩⟩
      rw [hp.2] at e2
      cases e2
    | none => exact ⟨y2, h2, .inl ⟨_, rfl⟩⟩

theorem execImgApplyDone_keeps {readOk : Bool} {bad : List CellFail} (h : Keeps z s) : KeepsOut z (execImgApplyDone readOk bad s) := by
  by_cases hr : ∃ ld, s.img.load = some ld ∧ s.rd Reg.imgStatusState = 3
  · obtain ⟨ld, hl, hs⟩ := hr
    obtain ⟨y, hy, ⟨done, e⟩ | ⟨-, code, detail, e⟩⟩ := execImgApplyDone_ends hl hs readOk bad
    · rw [e]; exact .next (State.loadApplied_keeps (hy z h))
    · rw [e]; exact .next (State.loadStop_keeps (hy z h))
  · refine .next ?_
    split
    · exact h
    · next ld hl => rw [if_pos (by simpa using fun hs => hr ⟨ld, hl, hs⟩)]; exact h

/-! ### Seals and the Hoard -/

theorem execSealManifestGo_keeps (h : Keeps z s) : KeepsOut z (execSealManifestGo data s) :=
  .next (.ite h (State.gated_keeps h fun _ h => State.manifestGo_keeps (State.writeReg_keeps h)))

theorem execSealManifestDone_keeps (h : Keeps z s) : KeepsOut z (execSealManifestDone s) := by
  refine .next ?_
  split
  · exact h
  next ch n a _ =>
  have hf : Keeps z ((({ s with sealer := { s.sealer with command := none } }).wr Reg.sealWctlBusy 0).hbmFetch a (16 * n)).1 :=
    State.hbmFetch_keeps (State.wr_keeps (.frame h rfl rfl))
  refine .ite (State.manifestRefused_keeps hf) (.ite (State.manifestRefused_keeps hf) ?_)
  split
  · next e => exact State.manifestRefused_keeps (.of_fst e (State.rangeBytes_keeps hf))
  · next e =>
    exact State.hrdRecord_keeps (State.evt_keeps (State.incr_keeps (.frame (.of_fst e (State.rangeBytes_keeps hf)) rfl rfl)))

theorem execSealComplete_keeps (h : Keeps z s) : KeepsOut z (execSealComplete ch s) := by
  refine .next ?_
  split
  · exact h
  · exact State.emitOut_keeps (State.modDisp_keeps h)

theorem execHrdReplayEntry_keeps (h : Keeps z s) : KeepsOut z (execHrdReplayEntry s) := by
  refine .next (.ite h (.ite (State.replayEnd_keeps h) (.ite (State.modHrd_keeps h) (.ite (State.modHrd_keeps (State.replayGap_keeps h))
    (.ite (State.modHrd_keeps (State.replayBroken_keeps h)) (.ite (State.replayPause_keeps h) (.ite (State.replayPause_keeps h) ?_)))))))
  split
  · next e => exact State.modHrd_keeps (.of_opt e (State.replayOne_keeps h))
  · exact h

/-! ### The governor -/

theorem execGovControlPeriod_keeps {m : GovMeas} (h : Keeps z s) : KeepsOut z (execGovControlPeriod m s) :=
  .next (.ite h (State.govVoltage_keeps (State.govBreaches_keeps (State.govClamp_keeps (State.govSteps_keeps
    (Keeps.foldl (fun _ _ h => State.clockFail_keeps h) (State.govMeasure_keeps (State.govProfile_keeps h))))))))

theorem execProfileApply_keeps (h : Keeps z s) : KeepsOut z (execProfileApply ch s) := by
  refine .next ?_
  dsimp only
  split
  · exact h
  · exact .ite h (State.hrdRecord_keeps (State.setBit_keeps (State.modDisp_keeps (State.modGov_keeps h))))

theorem execVoltageSettled_keeps {island : BitVec 11} (h : Keeps z s) : KeepsOut z (execVoltageSettled island s) := by
  refine .next ?_
  dsimp only
  split
  · exact h
  · exact .ite h (State.setFreq_keeps h)

/-! ### Safety functions -/

theorem State.armFailed_keeps {n : Nat} (h : Keeps z s) :
    Keeps z ((((s.evt 0x9004 0).bump (fnFaults n)).refuseArm n 2).modPwr fun p => { p with faultN := true }) :=
  State.modPwr_keeps (fun _ => rfl) (State.refuseArm_keeps (State.bump_keeps (State.evt_keeps h)))

theorem execArmingComplete_keeps {selfTest : Bool} (h : Keeps z s) : KeepsOut z (execArmingComplete f selfTest s) := by
  refine .next (.ite h ?_)
  have ht : Keeps z (if selfTest = true then s.selfTested (fnNo f) else s) := .ite (State.selfTested_keeps h) h
  dsimp only
  split
  · exact ht
  · exact State.armFailed_keeps ht
  · exact State.refuseArm_keeps ht
  · exact State.evt_keeps (State.modFn_keeps ht)

theorem execStartUpSelfTestDone_keeps (h : Keeps z s) : KeepsOut z (execStartUpSelfTestDone f ok s) :=
  .next (.ite h (.ite_of_then (State.selfTested_keeps h) fun h => .ite (State.armFailed_keeps h) (State.safeFault_keeps h)))

theorem execComparatorDecision_keeps (h : Keeps z s) : KeepsOut z (execComparatorDecision f s) := by
  have decided : Keeps z (match firstDue (pairUp (s.fn (fnNo f)).local0 (s.fn (fnNo f)).remote0) with
      | some (a, b) => s.decidePair (fnNo f) a b
      | none => s) := by
    split
    · exact State.decidePair_keeps h
    · exact h
  refine .next ?_
  split
  · exact decided
  · exact decided
  · exact decided
  · exact h

theorem execDelayTimeout_keeps (h : Keeps z s) : KeepsOut z (execDelayTimeout f s) := by
  have expired : Keeps z (match s.overdue (fnNo f) with
      | e :: _ => s.entryFault (fnNo f) 0x9002 [e]
      | [] => s) := by
    split
    · exact State.entryFault_keeps h
    · exact h
  refine .next ?_
  split
  · exact expired
  · exact expired
  · exact expired
  · exact h

theorem execDelayScrub_keeps {side : Bool} {i : Nat} (h : Keeps z s) : KeepsOut z (execDelayScrub f side i ok s) := by
  refine .next ?_
  split
  · exact .ite h (State.entryFault_keeps h)
  · exact h

/-! ### Resets and power -/

theorem execChannelResetDone_keeps (h : Keeps z s) : KeepsOut z (execChannelResetDone s) := by
  refine .next ?_
  split
  · exact h
  · exact State.leaveGroup_keeps (State.evt_keeps (State.modPwr_keeps (fun _ => rfl) (State.wr_keeps (State.modDisp_keeps
      (State.unconfigure_keeps (State.restoresLost_keeps h))))))

theorem execCellResetDone_keeps (h : Keeps z s) : KeepsOut z (execCellResetDone s) := by
  refine .next ?_
  split
  · exact h
  · exact State.evt_keeps (Keeps.foldl (fun _ _ h => State.credit_keeps h) (State.modPwr_keeps (fun _ => rfl) (State.wr_keeps h)))

theorem execPorstNRelease_keeps {b : Board} (h : Keeps z s) : KeepsOut z (execPorstNRelease b s) :=
  have hb := State.modPwr_keeps (f := fun p => { p with porst := false }) (fun _ => rfl) (State.readBoard_keeps (b := b) h)
  .next (.ite h (.ite (State.railTrip_keeps h) (.ite (State.modPwr_keeps (fun _ => rfl) hb) (State.bootStart_keeps hb))))

theorem execHbmTrainingDone_keeps {trained : BitVec 8} (h : Keeps z s) : KeepsOut z (execHbmTrainingDone trained s) :=
  .next (.ite h (State.bootDone_keeps (State.modPwr_keeps (fun _ => rfl) (State.wr_keeps
    (Keeps.foldl (fun _ _ h => State.trainStack_keeps h) h)))))

theorem execPowerOnSelftestDone_keeps {bad : List CellFail} (h : Keeps z s) : KeepsOut z (execPowerOnSelftestDone bad s) :=
  .next (.ite h (State.bootDone_keeps (State.modPwr_keeps (fun _ => rfl)
    (.ite_of_else (State.cellSelfTest_keeps h) State.evt_keeps))))

theorem execPmbusTelemetry_keeps {v : VrReading} (h : Keeps z s) : KeepsOut z (execPmbusTelemetry v s) := by
  have turned {f : Power → Power} (hf : ∀ p, (f p).fuses = p.fuses) : Keeps z (if s.pwr.vrModeRead = true then s.modPwr f else s) :=
    .ite_of_else h (State.modPwr_keeps hf)
  have answered {f g : Power → Power} (hf : ∀ p, (f p).fuses = p.fuses) (hg : ∀ p, (g p).fuses = p.fuses) :
      Keeps z ((if s.pwr.vrModeRead = true then s.modPwr f else s).modPwr g) := State.modPwr_keeps hg (turned hf)
  exact .next (.ite h (.ite (State.vrUnanswered_keeps (turned fun _ => rfl))
    (.ite (.ite_of_then (answered (fun _ => rfl) fun _ => rfl) State.vrFail_keeps)
      (.ite (State.modPwr_keeps (fun _ => rfl) (answered (fun _ => rfl) fun _ => rfl))
        (State.vrVout_keeps (answered (fun _ => rfl) fun _ => rfl))))))

end
end Sys2Proof.Machine
end

section
/-! PROOFS (O60, part 5). Every command and every step keeps the canonical form of the memories, the fuses that are set, and the
commands that wait. -/
namespace Sys2Proof.Machine

/-- No command changes the commands that wait, breaks the canonical form of a memory or clears a fuse. -/
theorem exec_keeps {z s : State} (h : Keeps z s) (i : Instr) : KeepsOut z (exec i s) := by
  cases i with simp only [exec]
  | bar0Write => exact execBar0Write_keeps h
  | rcRegisterRead => exact .next (State.bar0Read_keeps h)
  | timeCounterLowRead => exact .next (State.bar0Read_keeps h)
  | bar2Read => exact execBar2Read_keeps h
  | bar2Write => exact execBar2Write_keeps h
  | imgLoad => exact .next (.ite h (State.gated_keeps h fun _ h => State.imgCtl_keeps h))
  | imgVerifyOnly => exact .next (.ite h (State.gated_keeps h fun _ h => State.imgCtl_keeps h))
  | imgPass1Done => exact execImgPass1Done_keeps h
  | drainLimit => exact execDrainLimit_keeps h
  | imgDrainDone => exact execImgDrainDone_keeps h
  | imgApplyDone => exact execImgApplyDone_keeps h
  | clearCells => exact .next (State.gated_keeps h fun _ h => State.clearCells_keeps h)
  | clearLanes => exact .next (State.gated_keeps h fun _ h => State.clearLanes_keeps h)
  | nop => exact .next (State.issue_keeps h fun _ _ h => State.put_keeps h)
  | valuI32 => exact .next (State.issue_keeps h fun _ _ h => State.put_keeps h)
  | valuI32i => exact .next (State.issue_keeps h fun _ _ h => State.put_keeps h)
  | valuP32 => exact .next (State.valuFloat_keeps h)
  | valuF32 => exact .next (State.valuFloat_keeps h)
  | vcmp => exact .next (State.issue_keeps h fun _ _ h => State.put_keeps h)
  | vcmpi => exact .next (State.issue_keeps h fun _ _ h => State.put_keeps h)
  | vmov => exact .next (State.issue_keeps h fun _ _ h => State.put_keeps h)
  | vmovi => exact .next (State.issue_keeps h fun _ _ h => State.put_keeps h)
  | cvt => exact execCvt_keeps h
  | shfl => exact .next (State.issue_keeps h fun _ _ h => State.put_keeps h)
  | ualu => exact .next (State.issue_keeps h fun _ _ h => State.put_keeps h)
  | ualui => exact .next (State.issue_keeps h fun _ _ h => State.put_keeps h)
  | ucmp => exact .next (State.issue_keeps h fun _ _ h => State.put_keeps h)
  | ucmpi => exact .next (State.issue_keeps h fun _ _ h => State.put_keeps h)
  | umov => exact .next (State.issue_keeps h fun _ _ h => State.put_keeps h)
  | umovi => exact .next (State.issue_keeps h fun _ _ h => State.put_keeps h)
  | mask => exact .next (State.issue_keeps h fun _ _ h => State.put_keeps h)
  | vote => exact .next (State.issue_keeps h fun _ _ h => State.put_keeps h)
  | upred => exact .next (State.issue_keeps h fun _ _ h => State.put_keeps h)
  | ld => exact .next (State.issue_keeps h fun _ _ h => State.memStep_keeps h)
  | st => exact .next (State.issue_keeps h fun _ _ h => State.memStep_keeps h)
  | ldu => exact .next (State.issue_keeps h fun _ _ h => State.memStep_keeps h)
  | stu => exact .next (State.issue_keeps h fun _ _ h => State.memStep_keeps h)
  | atom => exact .next (State.issue_keeps h fun _ _ h => State.memStep_keeps h)
  | sendDynamic => exact .next (State.sendInsn_keeps h)
  | sendStatic => exact .next (State.sendInsn_keeps h)
  | recvWait => exact .next (State.recvInsn_keeps h)
  | recvPoll => exact .next (State.recvInsn_keeps h)
  | xfer => exact .next (State.asyncInsn_keeps h)
  | sfu => exact execSfu_keeps h
  | softmax => exact execSoftmax_keeps h
  | rmsnormAccumFirst => exact execRmsnormAccumFirst_keeps h
  | rmsnormAccum => exact execRmsnormAccum_keeps h
  | rmsnormApply => exact execRmsnormApply_keeps h
  | mx => exact .next (State.asyncInsn_keeps h)
  | mxfMma => exact execMxfMma_keeps h
  | mxfZero => exact execMxfZero_keeps h
  | mxfOut => exact execMxfOut_keeps h
  | br => exact .next (State.branch_keeps h)
  | bri => exact .next (State.branch_keeps h)
  | loop => exact execLoop_keeps h
  | loopx => exact .next (State.issue_keeps h fun _ _ h => State.put_keeps h)
  | modeset => exact execModeset_keeps h
  | modeShadowEnd => exact execModeShadowEnd_keeps h
  | fenceL => exact .next (State.fence_keeps h)
  | fenceC => exact .next (State.fence_keeps h)
  | fenceD => exact .next (State.fence_keeps h)
  | wait => exact execWait_keeps h
  | exit => exact .next (State.issue_keeps h fun _ _ h => State.leave_keeps h)
  | brk => exact execBrk_keeps h
  | spawn => exact execSpawn_keeps h
  | pwait => exact execPwait_keeps h
  | pread => exact execPread_keeps h
  | pwrite => exact execPwrite_keeps h
  | rread => exact execRread_keeps h
  | rwrite => exact execRwrite_keeps h
  | pctlResume => exact .next (State.pctl_keeps h)
  | pctlResumeReissue => exact .next (State.pctl_keeps h)
  | pctlParkreq => exact .next (State.pctl_keeps h)
  | pctlKill => exact .next (State.pctl_keeps h)
  | parkCmdParkRequest => exact .next (State.parkCmd_keeps h)
  | parkCmdResume => exact .next (State.parkCmd_keeps h)
  | parkCmdResumeReissue => exact .next (State.parkCmd_keeps h)
  | parkCmdKill => exact .next (State.parkCmd_keeps h)
  | requestedPark => exact .next (State.boundary_keeps h)
  | swarmRelease => exact execSwarmRelease_keeps h
  | mxStart => exact .next (.ite (State.mxStart_keeps h) h)
  | mxComplete => exact .next (.ite (State.mxComplete_keeps h) h)
  | xferStart => exact .next (.ite (State.xferStart_keeps h) h)
  | xferComplete => exact .next (.ite (State.xferComplete_keeps h) h)
  | regionWalkComplete => exact .next (.ite (State.memWalk_keeps h) h)
  | storePacket => exact execStorePacket_keeps h
  | atomicPacket => exact execAtomicPacket_keeps h
  | atomicRspPacket => exact execAtomicRspPacket_keeps h
  | msgPacket => exact execMsgPacket_keeps h
  | msgRingWaitRelease => exact execMsgRingWaitRelease_keeps h
  | ackPacket => exact execAckPacket_keeps h
  | refusePacket => exact execRefusePacket_keeps h
  | memreqPacket => exact execMemreqPacket_keeps h
  | memrspPacket => exact execMemrspPacket_keeps h
  | creditPacket => exact .next (State.creditAt_keeps h)
  | creditRestore => exact .next (State.creditAt_keeps h)
  | bridgeDiscard => exact execBridgeDiscard_keeps h
  | regionSyncAll => exact .next (State.regionSync_keeps h)
  | regionSyncAddr => exact .next (State.regionSync_keeps h)
  | regionSyncArrival => exact execRegionSyncArrival_keeps h
  | scrubRead => exact execScrubRead_keeps h
  | ftabWriteRow => exact .next (State.ftabGo_keeps h)
  | ftabSetSlot => exact .next (State.ftabGo_keeps h)
  | ftabClearSlot => exact .next (State.ftabGo_keeps h)
  | ftabReadRow => exact .next (State.ftabGo_keeps h)
  | ftabCommandDone => exact execFtabCommandDone_keeps h
  | scaleWrite => exact .next (State.scaleGo_keeps h)
  | scaleRead => exact .next (State.scaleGo_keeps h)
  | scaleClearCount => exact .next (State.scaleGo_keeps h)
  | scaleCommandDone => exact execScaleCommandDone_keeps h
  | govControlPeriod => exact execGovControlPeriod_keeps h
  | droopTrip => exact .next (.ite h (State.modIsle_keeps h))
  | voltageSettled => exact execVoltageSettled_keeps h
  | govProfileWrite => exact .next (State.gated_keeps h fun _ h => State.profileWrite_keeps h)
  | profileApply => exact execProfileApply_keeps h
  | govIsleWrite => exact .next (.ite h (State.gated_keeps h fun _ h => State.isleWrite_keeps h))
  | govClockCheck => exact .next (.ite h (State.evt_keeps (State.modPwr_keeps (fun _ => rfl) (State.modGov_keeps h))))
  | junctionComparatorTrip => exact .next (.ite h (State.thermTrip_keeps h))
  | isleStall => exact .next (.ite h (State.evt_keeps (State.wr_keeps (State.wr_keeps h))))
  | feLaneSignal => exact .next (.ite (State.setLane_keeps h) h)
  | feLaneLock => exact .next (.ite (State.setLane_keeps h) h)
  | ingLaneDown => exact execIngLaneDown_keeps h
  | copyHeader => exact execCopyHeader_keeps h
  | copyEof => exact execCopyEof_keeps h
  | asmTimeout => exact execAsmTimeout_keeps h
  | frameHandoff => exact execFrameHandoff_keeps h
  | ingResync => exact .next (State.gated_keeps h fun _ h => State.ingResync_keeps h)
  | ingResyncDone => exact execIngResyncDone_keeps h
  | camFrameStart => exact execCamFrameStart_keeps h
  | camLongPacket => exact execCamLongPacket_keeps h
  | camFrameEnd => exact execCamFrameEnd_keeps h
  | frameTimeout => exact execFrameTimeout_keeps h
  | mergeTimeout => exact execMergeTimeout_keeps h
  | camProcessStart => exact execCamProcessStart_keeps h
  | camHandoff => exact execCamHandoff_keeps h
  | sensorWriteDone => exact execSensorWriteDone_keeps h
  | writeWindow => exact execWriteWindow_keeps h
  | camRingPoll => exact .next (.ite h (State.camTake_keeps (State.modCam_keeps h)))
  | camResync => exact .next (State.gated_keeps h fun _ h => State.camRestart_keeps h)
  | wglDetect => exact execWglDetect_keeps h
  | wglTrainDone => exact execWglTrainDone_keeps h
  | wglTrainTimeout => exact .next (.ite (State.trainFail_keeps h) h)
  | wglAlignDone => exact execWglAlignDone_keeps h
  | wglAlignTimeout => exact .next (.ite (State.trainFail_keeps h) h)
  | wglInitFlit => exact execWglInitFlit_keeps h
  | wglInitTimeout => exact .next (.ite (State.evt_keeps (State.setLink_keeps h)) h)
  | wglRetrainCmd => exact .next (State.gated_keeps h fun _ h => State.retrainCmd_keeps h)
  | wglLaneLockLoss => exact .next (.ite (State.toRetrain_keeps (State.wr_keeps h)) h)
  | wglRetrainTimeout => exact execWglRetrainTimeout_keeps h
  | wglMarker => exact execWglMarker_keeps h
  | wglMsgFlit => exact execWglMsgFlit_keeps h
  | wglNullFlit => exact execWglNullFlit_keeps h
  | wglNakFlit => exact execWglNakFlit_keeps h
  | ackTimeout => exact execAckTimeout_keeps h
  | msgHold => exact execMsgHold_keeps h
  | wglData => exact .next (State.onRequest_keeps h fun _ _ h => State.execData_keeps h)
  | wglStore => exact .next (State.onRequest_keeps h fun _ _ h => .some (State.execStoreMsg_keeps h))
  | wglChain => exact .next (State.onRequest_keeps h fun _ _ h => .some (State.execChainMsg_keeps h))
  | wglAnnounce => exact .next (State.onRequest_keeps h fun _ _ h => .some (State.execChainMsg_keeps h))
  | wglMack => exact execWglMack_keeps h
  | chainOutputPiece => exact execChainOutputPiece_keeps h
  | chainForward => exact execChainForward_keeps h
  | chainTimeout => exact execChainTimeout_keeps h
  | syncInEdge => exact execSyncInEdge_keeps h
  | timeEpochArm => exact .next (State.gated_keeps h fun _ h => State.epochArm_keeps h)
  | timeEpochCancel => exact .next (State.gated_keeps h fun _ h => State.epochArm_keeps h)
  | mrefLock => exact execMrefLock_keeps h
  | mrefLoss => exact execMrefLoss_keeps h
  | counterSlew => exact execCounterSlew_keeps h
  | beaconPeriod => exact execBeaconPeriod_keeps h
  | beaconSync => exact .next (State.onBeacon_keeps h)
  | beaconDelayReq => exact .next (State.onBeacon_keeps h)
  | beaconJoin => exact .next (State.onBeacon_keeps h)
  | beaconForm => exact .next (State.onBeacon_keeps h)
  | beaconRefuse => exact .next (State.onBeacon_keeps h)
  | beaconLeave => exact .next (State.onBeacon_keeps h)
  | beaconLost => exact .next (.ite (State.evt_keeps (State.modTime_keeps h)) h)
  | groupStep => exact execGroupStep_keeps h
  | formTimeout => exact .next (.ite h (State.refuseGroup_keeps h))
  | groupLeave => exact .next (State.gated_keeps h fun _ h => State.leaveGroup_keeps h)
  | groupRetry => exact .next (State.gated_keeps h fun _ h => .ite (State.syncing_keeps h) h)
  | countFire => exact execCountFire_keeps h
  | dispArmGo => exact execDispArmGo_keeps h
  | dispArmCancel => exact .next (State.gated_keeps h fun _ h => State.armCancel_keeps h)
  | triggerMessage => exact execTriggerMessage_keeps h
  | resultPiece => exact execResultPiece_keeps h
  | launchBegin => exact execLaunchBegin_keeps h
  | launchSwarmCreate => exact execLaunchSwarmCreate_keeps h
  | launchComplete => exact execLaunchComplete_keeps h
  | deadline => exact execDeadline_keeps h
  | preemptSaveStart => exact .next (.ite (State.modCtx_keeps h) h)
  | preemptSaveDone => exact execPreemptSaveDone_keeps h
  | contextRestore => exact execContextRestore_keeps h
  | contextRestoreDone => exact execContextRestoreDone_keeps h
  | sealManifestGo => exact execSealManifestGo_keeps h
  | sealManifestDone => exact execSealManifestDone_keeps h
  | sealComplete => exact execSealComplete_keeps h
  | hrdOverflowEntry => exact .next (.ite (State.hrdFlush_keeps h) h)
  | hrdRearm => exact .next (State.gated_keeps h fun _ h => State.hrdRearm_keeps h)
  | hrdReplayGo => exact .next (.ite h (State.gated_keeps h fun _ h => State.replayGo_keeps (State.writeReg_keeps h)))
  | hrdReplayEntry => exact execHrdReplayEntry_keeps h
  | hrdReplayStop => exact .next (State.gated_keeps h fun _ h => State.replayStop_keeps h)
  | safeArm => exact .next (State.safeRow_keeps h)
  | safeDisarm => exact .next (State.safeRow_keeps h)
  | safeUncurl => exact .next (State.safeRow_keeps h)
  | armingComplete => exact execArmingComplete_keeps h
  | armingTimeout => exact .next (.ite h (State.refuseArm_keeps h))
  | comparatorDecision => exact execComparatorDecision_keeps h
  | delayTimeout => exact execDelayTimeout_keeps h
  | cmpInjection => exact .next (.ite h (State.safeFault_keeps h))
  | delayScrub => exact execDelayScrub_keeps h
  | tickClockCheck => exact .next (.ite h (State.allFault_keeps h))
  | watchdog => exact .next (.ite h (State.allFault_keeps (State.modPwr_keeps (fun _ => rfl) h)))
  | heartbeatSend => exact .next (.ite h (State.mirror_keeps h))
  | mirrorHeartbeat => exact .next (State.onMirror_keeps h)
  | mirrorRecord => exact .next (State.onMirror_keeps h)
  | mirrorArm => exact .next (State.onMirror_keeps h)
  | mirrorCurl => exact .next (State.onMirror_keeps h)
  | mirrorDisarm => exact .next (State.onMirror_keeps h)
  | partnerTimeout => exact .next (.ite h (State.partnerLost_keeps h))
  | simplexLimit => exact .next (.ite h (State.safeFault_keeps h))
  | hostQueueEnable => exact .next (State.qRow_keeps h)
  | hostQueueDisable => exact .next (State.qRow_keeps h)
  | sqTail => exact .next (State.gated_keeps h fun _ h => State.sqTail_keeps h)
  | cqHead => exact .next (State.gated_keeps h fun _ h => State.cqHead_keeps h)
  | drHead => exact .next (State.gated_keeps h fun _ h => State.drHead_keeps h)
  | hostSqFetch => exact .next (.ite h (.frame h rfl rfl))
  | launch => exact execLaunch_keeps h
  | launchInputDone => exact execLaunchInputDone_keeps h
  | copyIn => exact execCopyIn_keeps h
  | copyOut => exact execCopyOut_keeps h
  | hostCopyDone => exact execHostCopyDone_keeps h
  | flashWrite => exact execFlashWrite_keeps h
  | flashWriteDone => exact execFlashWriteDone_keeps h
  | fuseKey => exact execFuseKey_keeps h
  | fuseRevoke => exact execFuseRevoke_keeps h
  | fuseSigRequired => exact execFuseSigRequired_keeps h
  | fwUpdate => exact execFwUpdate_keeps h
  | fwUpdateDone => exact execFwUpdateDone_keeps h
  | hostDrWrite => exact execHostDrWrite_keeps h
  | hostReadCompletion => exact execHostReadCompletion_keeps h
  | hostLinkDown => exact .next (.ite h (State.linkLost_keeps h))
  | functionLevelReset => exact .next (.ite h (State.hostReset_keeps h))
  | hotReset => exact .next (.ite h (State.hostReset_keeps h))
  | perstN => exact .next (.ite h (.ite (State.linkLost_keeps h) (State.hostReset_keeps h)))
  | porstNAssert => exact .next (State.powerOff_keeps h)
  | porstNRelease => exact execPorstNRelease_keeps h
  | railMonitor => exact .next (.ite h (State.railTrip_keeps h))
  | hbmTrainingDone => exact execHbmTrainingDone_keeps h
  | powerOnSelftestDone => exact execPowerOnSelftestDone_keeps h
  | wrstN => exact .next (.ite h (State.warmBoot_keeps h))
  | resetCtlWarm => exact .next (State.gated_keeps h fun _ h => State.warmBoot_keeps h)
  | resetCtlChannel => exact .next (.ite h (State.gated_keeps h fun _ h => State.channelGo_keeps (State.resetFields_keeps h)))
  | channelResetDone => exact execChannelResetDone_keeps h
  | resetCtlCell => exact .next (.ite h (State.gated_keeps h fun _ h => State.cellGo_keeps (State.resetFields_keeps h)))
  | cellResetDone => exact execCellResetDone_keeps h
  | pmbusTelemetry => exact execPmbusTelemetry_keeps h
  | pmbAlertN => exact .next (.ite h (State.vrFail_keeps h))
  | mgmtIdent => exact .next (State.mgmtRead_keeps h)
  | mgmtStatus => exact .next (State.mgmtRead_keeps h)
  | mgmtJunctionTemp => exact .next (State.mgmtLate_keeps h)
  | mgmtHbmTemp => exact .next (State.mgmtLate_keeps h)
  | mgmtPower => exact .next (State.mgmtLate_keeps h)
  | mgmtProfile => exact .next (State.mgmtLate_keeps h)
  | mgmtSafeState => exact .next (State.mgmtLate_keeps h)
  | mgmtLastCode => exact .next (State.mgmtRead_keeps h)
  | mgmtAlertResponse => exact .next (.ite (State.mgmtRead_keeps h) (State.modPwr_keeps (fun _ => rfl) h))
  | tapReset => exact .next (State.tapLoad_keeps h)
  | bypass => exact .next (State.tapLoad_keeps h)
  | idcode => exact .next (State.tapLoad_keeps h)
  | samplePreload => exact .next (State.tapLoad_keeps h)
  | extest => exact .next (State.tapLoad_keeps h)
  | clamp => exact .next (State.tapLoad_keeps h)
  | highz => exact .next (State.tapLoad_keeps h)
  | reservedOpcode => exact execReservedOpcode_keeps h
  | dataBlock => exact .next (State.onBlock_keeps h fun _ _ h => State.ingData_keeps h)
  | framingFailure => exact execFramingFailure_keeps h
  | inDeviceAnnounce => exact execInDeviceAnnounce_keeps h
  | completionTimeout => exact execCompletionTimeout_keeps h
  | hostLinkUp => exact .next (.ite h (State.wr_keeps (State.wr_keeps (State.wr_keeps h))))
  | bar2Resize => exact execBar2Resize_keeps h
  | msiXUnmask => exact execMsiXUnmask_keeps h
  | startUpSelfTestDone => exact execStartUpSelfTestDone_keeps h

/-- Settles O60: an idle step is a tick; any other takes the front command off the queue, which touches no memory, and runs it. -/
theorem stepKeepsInvariant : Obligations.StepKeepsInvariant := by
  intro s t hwf hstep
  unfold step at hstep
  split at hstep
  · next hp =>
    cases hstep
    obtain ⟨hpending, hmem, hfuses⟩ := idleTick_keeps (Keeps.refl s)
    exact ⟨hmem hwf, hfuses, by rw [hpending, hp]; rfl⟩
  · next c rest hp =>
    obtain ⟨hpending, hmem, hfuses⟩ := exec_keeps (Keeps.refl { s with pending := rest }) c t hstep
    exact ⟨hmem hwf, hfuses, by rw [hpending, hp]; rfl⟩

end Sys2Proof.Machine
end

section
/-! PROOFS. What leaves every byte of memory as it is; what changes registers and the MSI-X state alone; and the interrupt causes and
events that are set. -/
namespace Sys2Proof.Machine

/-! ### Bytes of memory that stay -/

theorem KeepsBytes.refl (s : State) : KeepsBytes s s := ⟨fun _ => rfl, fun _ => rfl, fun _ _ => rfl⟩

theorem KeepsBytes.trans {s t u : State} (h : KeepsBytes s t) (k : KeepsBytes t u) : KeepsBytes s u :=
  ⟨fun a => (k.hbm a).trans (h.hbm a), fun a => (k.host a).trans (h.host a), fun p a => (k.lm p a).trans (h.lm p a)⟩

theorem KeepsBytes.of_eq {s t : State} (hh : t.hbm = s.hbm) (hm : t.host.mem = s.host.mem) (hc : t.cells = s.cells) : KeepsBytes s t :=
  ⟨fun _ => by rw [State.hbmByte, hh]; rfl, fun _ => by rw [State.hostByte, hm]; rfl, fun _ _ => by rw [State.lmByte, hc]; rfl⟩

theorem KeepsBytes.modCell (s : State) (id : Nat) {f : CellMem → CellMem} (hf : ∀ c, (f c).lm = c.lm) : KeepsBytes s (s.modCell id f) := by
  refine ⟨fun _ => rfl, fun _ => rfl, fun p a => ?_⟩
  show sget 0 (sget {} (smod {} s.cells (s.phys id) f) p).lm a = sget 0 (sget {} s.cells p).lm a
  rw [sget_smod]
  split
  · next h => rw [hf, h]
  · rfl

/-! ### Registers and the MSI-X state alone -/

/-- From `s` to `t` only registers and the host interface's MSI-X state have changed. -/
def RegsOnly (s t : State) : Prop :=
  ∃ r m p, t = { s with regs := r, host := { s.host with msixSignalled := m, msixPending := p } }

section
variable {s t u : State}

theorem RegsOnly.refl (s : State) : RegsOnly s s := ⟨s.regs, s.host.msixSignalled, s.host.msixPending, rfl⟩

theorem RegsOnly.trans (h : RegsOnly s t) (k : RegsOnly t u) : RegsOnly s u := by
  obtain ⟨_, _, _, rfl⟩ := h
  obtain ⟨r, m, p, rfl⟩ := k
  exact ⟨r, m, p, rfl⟩

theorem RegsOnly.wr (h : RegsOnly s t) (f : RegField) (v : Nat) : RegsOnly s (t.wr f v) := h.trans ⟨_, _, _, rfl⟩

theorem RegsOnly.irq (h : RegsOnly s t) (b : Nat) : RegsOnly s (t.irq b) :=
  let ⟨r, m, p, e, _⟩ := irq_eq t b
  h.trans ⟨r, m, p, e⟩

theorem RegsOnly.evt (h : RegsOnly s t) (code n : Nat) : RegsOnly s (t.evt code n) :=
  let ⟨r, m, p, e, _⟩ := evt_eq t code n
  h.trans ⟨r, m, p, e⟩

theorem RegsOnly.bytes (h : RegsOnly s t) : KeepsBytes s t := by
  obtain ⟨r, m, p, rfl⟩ := h; exact .of_eq rfl rfl rfl

theorem RegsOnly.cells (h : RegsOnly s t) : t.cells = s.cells := by obtain ⟨_, _, _, rfl⟩ := h; rfl
theorem RegsOnly.img (h : RegsOnly s t) : t.img = s.img := by obtain ⟨_, _, _, rfl⟩ := h; rfl
theorem RegsOnly.gov (h : RegsOnly s t) : t.gov = s.gov := by obtain ⟨_, _, _, rfl⟩ := h; rfl
theorem RegsOnly.pwr (h : RegsOnly s t) : t.pwr = s.pwr := by obtain ⟨_, _, _, rfl⟩ := h; rfl
theorem RegsOnly.disp (h : RegsOnly s t) : t.disp = s.disp := by obtain ⟨_, _, _, rfl⟩ := h; rfl
end

/-! ### Causes and events -/

theorem rd_irq_ne (s : State) (b : Nat) (f : RegField) (h : f.off ≠ Reg.hostIrqCauseBits.off) : (s.irq b).rd f = s.rd f := by
  obtain ⟨r, m, p, e, k⟩ := irq_eq s b
  rw [e, State.rd, State.rd, State.reg, State.reg, k _ h]

/-- R459: the cause bit stands after it is raised. -/
theorem bitAt_irq (s : State) (b : Nat) (hb : b < Reg.hostIrqCauseBits.len) :
    bitAt ((s.irq b).rd Reg.hostIrqCauseBits) b = true := by
  have key : bitAt ((s.setBit Reg.hostIrqCauseBits b).rd Reg.hostIrqCauseBits) b = true := by
    rw [bitAt_setBit s _ b b (by decide) hb]; simp
  unfold State.irq
  split
  · assumption
  dsimp only
  split
  · exact key
  · obtain ⟨m, p, e⟩ := signal_eq (s.setBit Reg.hostIrqCauseBits b) (64 + b)
    rw [e]
    exact key

/-- R6: REG_ENCODING shows as event 15 of the host interface. -/
theorem bitAt_regEncoding (s : State) : bitAt (s.regEncoding.rd Reg.hostEventsEvents) 15 = true := by
  show bitAt ((s.setBit Reg.hostEventsEvents 15).rd Reg.hostEventsEvents) 15 = true
  rw [bitAt_setBit s _ 15 15 (by decide) (by decide)]
  simp

/-- R6: REG_ENCODING changes HOST.EVENTS alone. -/
theorem rd_regEncoding_ne (s : State) (f : RegField) (h : f.off ≠ Reg.hostEventsEvents.off) : s.regEncoding.rd f = s.rd f :=
  rd_wr_ne s Reg.hostEventsEvents f _ h

theorem regEncoding_regsOnly (s : State) : RegsOnly s s.regEncoding := (RegsOnly.refl s).evt _ _

/-! ### A bit cleared in a field -/

theorem bitAt_sub_two_pow (v i : Nat) (h : bitAt v i = true) : bitAt (v - 2 ^ i) i = false := by
  rw [bitAt_eq] at h ⊢
  obtain ⟨w, rfl⟩ : ∃ w, v = 2 ^ i + w := ⟨v - 2 ^ i, by have := Nat.ge_two_pow_of_testBit h; omega⟩
  rw [Nat.testBit_two_pow_add_eq] at h
  simpa using h

theorem bitAt_clrBit (s : State) (f : RegField) (i : Nat) (h : f.lo + f.len ≤ 64) : bitAt ((s.clrBit f i).rd f) i = false := by
  unfold State.clrBit
  split
  · next hb =>
    have hs := bitAt_sub_two_pow _ _ hb
    rw [rd_wr_same _ _ _ h, bitAt_eq, Nat.testBit_mod_two_pow, ← bitAt_eq, hs, Bool.and_false]
  · next hb => simpa using hb

end Sys2Proof.Machine
end

section
/-! PROOFS (O57). A write of a host register: which registers it leaves; and a write of IMG.CTL. -/
namespace Sys2Proof.Machine

/-! ### Register writes -/

/-- R5, R6: the write of a field leaves it, writes it, or raises REG_ENCODING. -/
theorem writeField_cases (s : State) (b : Blk) (n o key mask v lo len : Nat) (acc : Acc) :
    s.writeField b n o key mask v (lo, len, acc) = s ∨ (∃ x, s.writeField b n o key mask v (lo, len, acc) = s.wr ⟨key, lo, len⟩ x) ∨
      s.writeField b n o key mask v (lo, len, acc) = s.regEncoding := by
  cases acc with
  | rw =>
    simp only [State.writeField]
    split
    · exact .inl rfl
    · split
      · exact .inr (.inl ⟨_, rfl⟩)
      · exact .inr (.inr rfl)
  | w1c => exact .inr (.inl ⟨_, rfl⟩)
  | _ => exact .inl rfl

theorem writeField_regsOnly (s : State) (b : Blk) (n o key mask v : Nat) (f : Nat × Nat × Acc) :
    RegsOnly s (s.writeField b n o key mask v f) := by
  obtain ⟨lo, len, acc⟩ := f
  obtain e | ⟨x, e⟩ | e := writeField_cases s b n o key mask v lo len acc
  · rw [e]; exact .refl s
  · rw [e]; exact (RegsOnly.refl s).wr _ _
  · rw [e]; exact regEncoding_regsOnly s

theorem writeReg_regsOnly (s : State) (b : Blk) (n o mask v : Nat) : RegsOnly s (s.writeReg b n o mask v) := by
  unfold State.writeReg
  split
  · exact .refl s
  · next d _ =>
    suffices h : ∀ (l : List (Nat × Nat × Acc)) t, RegsOnly s t →
        RegsOnly s (l.foldl (fun s f => s.writeField b n o (blockBase b n + o) mask v f) t) from h _ s (.refl s)
    intro l
    induction l with
    | nil => exact fun t h => h
    | cons f l ih => exact fun t h => ih _ (h.trans (writeField_regsOnly ..))

/-- The write of a field leaves a field that is neither in it nor in HOST.EVENTS. -/
theorem rd_writeField (s : State) (b : Blk) (n o key mask v lo len : Nat) (acc : Acc) (g : RegField)
    (hg : g.off ≠ Reg.hostEventsEvents.off) (hl : g.lo + g.len ≤ 64)
    (h : g.off ≠ key ∨ lo + len ≤ g.lo ∨ g.lo + g.len ≤ lo) :
    (s.writeField b n o key mask v (lo, len, acc)).rd g = s.rd g := by
  obtain e | ⟨x, e⟩ | e := writeField_cases s b n o key mask v lo len acc
  · rw [e]
  · rw [e]
    by_cases hk : g.off = key
    · exact rd_wr_disjoint s ⟨key, lo, len⟩ g x hk hl (h.resolve_left fun c => c hk)
    · exact rd_wr_ne s ⟨key, lo, len⟩ g x hk
  · rw [e]; exact rd_regEncoding_ne s g hg

theorem bits_all64 (lo len : Nat) (h : lo + len ≤ 64) : bits all64 lo len = 2 ^ len - 1 := by
  refine Nat.eq_of_testBit_eq fun i => ?_
  rw [testBit_bits, all64, Nat.testBit_two_pow_sub_one, Nat.testBit_two_pow_sub_one]
  by_cases hi : i < len
  · simp [hi]; omega
  · simp [hi]

/-- R6: a whole-register write sets an RW field whose encoding is listed. -/
theorem rd_writeField_rw (s : State) (b : Blk) (n o key v lo len : Nat) (h : lo + len ≤ 64) (hlen : 0 < len)
    (hs : s.listed b n o lo (bits v lo len) = true) :
    (s.writeField b n o key all64 v (lo, len, .rw)).rd ⟨key, lo, len⟩ = bits v lo len := by
  have hm : 2 ^ len - 1 ≠ 0 := by have := Nat.one_lt_two_pow (Nat.ne_of_gt hlen); omega
  simp only [State.writeField, bits_all64 lo len h, beq_iff_eq, if_neg hm, Nat.xor_self, Nat.and_zero, Nat.zero_or,
    Nat.and_two_pow_sub_one_eq_mod, Nat.mod_eq_of_lt (bits_lt v lo len), hs, if_true]
  rw [rd_wr_same _ _ _ h]
  exact Nat.mod_eq_of_lt (bits_lt v lo len)

/-! ### IMG.CTL -/

theorem descAt_imgCtl : descAt .img 0 = some ⟨.img, 0x0, .warm, [(8, 1, .rw), (2, 2, .rw), (0, 1, .wo)]⟩ := by rfl

theorem writeReg_imgCtl_eq (s : State) (v : Nat) : s.writeReg .img 0 0 all64 v =
    (s.writeField .img 0 0 0x70000 all64 v (8, 1, .rw)).writeField .img 0 0 0x70000 all64 v (2, 2, .rw) := by
  unfold State.writeReg
  rw [descAt_imgCtl]
  rfl

/-- R6, R33: VERIFY_ONLY is bit 8 of what is written. -/
theorem rd_verifyOnly_imgCtl (s : State) (v : Nat) : (s.writeReg .img 0 0 all64 v).rd Reg.imgCtlVerifyOnly = bits v 8 1 := by
  rw [writeReg_imgCtl_eq, rd_writeField _ _ _ _ _ _ _ _ _ _ Reg.imgCtlVerifyOnly (by decide) (by decide) (by decide)]
  exact rd_writeField_rw s .img 0 0 0x70000 v 8 1 (by decide) (by decide) rfl

/-- A write of IMG.CTL leaves the fields of the registers after it in the block. -/
theorem rd_imgCtl_ne (s : State) (v : Nat) (g : RegField) (hc : g.off ≠ 0x70000) (hg : g.off ≠ Reg.hostEventsEvents.off)
    (hl : g.lo + g.len ≤ 64) : (s.writeReg .img 0 0 all64 v).rd g = s.rd g := by
  rw [writeReg_imgCtl_eq, rd_writeField _ _ _ _ _ _ _ _ _ _ g hg hl (.inl hc), rd_writeField _ _ _ _ _ _ _ _ _ _ g hg hl (.inl hc)]

end Sys2Proof.Machine
end

section
/-! PROOFS (O57, part 1). Requests for a load, pass 1, and the ways in which a load ends. -/
namespace Sys2Proof.Machine

/-! ### What IMG.STATUS shows at the end of a load -/

/-- R33: IMG.STATUS shows a code, a detail and a STATE. -/
def ShowsLoad (t : State) (code detail st : Nat) : Prop :=
  t.rd Reg.imgStatusLastCode = code % 2 ^ 16 ∧ t.rd Reg.imgStatusFaultDetail = detail % 2 ^ 16 ∧ t.rd Reg.imgStatusState = st % 8

/-- R33, R459: no load runs, IMG.STATUS shows how the last one ended, and the image-load cause stands. -/
def EndsLoad (t : State) (code detail st : Nat) : Prop :=
  ShowsLoad t code detail st ∧ t.img.load = none ∧ bitAt (t.rd Reg.hostIrqCauseBits) 0 = true

section
variable (s : State)

theorem ShowsLoad.irq {t : State} {code detail st : Nat} (h : ShowsLoad t code detail st) (b : Nat) : ShowsLoad (t.irq b) code detail st := by
  obtain ⟨hc, hd, hs⟩ := h
  exact ⟨(rd_irq_ne _ _ _ (by decide)).trans hc, (rd_irq_ne _ _ _ (by decide)).trans hd, (rd_irq_ne _ _ _ (by decide)).trans hs⟩

/-- The three fields of IMG.STATUS that a load's end writes do not overlap. -/
theorem showsLoad_wr (code detail st : Nat) :
    ShowsLoad (((s.wr Reg.imgStatusLastCode code).wr Reg.imgStatusFaultDetail detail).wr Reg.imgStatusState st) code detail st := by
  refine ⟨?_, ?_, rd_wr_same _ _ _ (by decide)⟩
  · rw [rd_wr_disjoint _ Reg.imgStatusState Reg.imgStatusLastCode _ rfl (by decide) (by decide),
      rd_wr_disjoint _ Reg.imgStatusFaultDetail Reg.imgStatusLastCode _ rfl (by decide) (by decide)]
    exact rd_wr_same _ _ _ (by decide)
  · rw [rd_wr_disjoint _ Reg.imgStatusState Reg.imgStatusFaultDetail _ rfl (by decide) (by decide)]
    exact rd_wr_same _ _ _ (by decide)

/-- No load runs any more. -/
def State.loadless : State := { s with img := { s.img with load := none } }

@[simp] theorem loadless_cells : s.loadless.cells = s.cells := rfl
@[simp] theorem loadless_pwr : s.loadless.pwr = s.pwr := rfl
@[simp] theorem loadless_load : s.loadless.img.load = none := rfl
@[simp] theorem rd_loadless (f : RegField) : s.loadless.rd f = s.rd f := rfl

/-- R33: the end of a load writes IMG.STATUS, forgets the load and raises the image-load cause. -/
theorem loadEnd_eq (code detail st : Nat) :
    ∃ w : State, RegsOnly s w ∧ ShowsLoad w code detail st ∧ s.loadEnd code detail st = w.loadless.irq 0 :=
  ⟨_, (((RegsOnly.refl s).wr _ _).wr _ _).wr _ _, showsLoad_wr s code detail st, rfl⟩

theorem endsLoad_loadEnd (code detail st : Nat) : EndsLoad (s.loadEnd code detail st) code detail st := by
  obtain ⟨w, -, hs, e⟩ := loadEnd_eq s code detail st
  rw [e]
  exact ⟨ShowsLoad.irq (by simpa [ShowsLoad] using hs) 0, by simp, bitAt_irq _ 0 (by decide)⟩

theorem loadEnd_pwr (code detail st : Nat) : (s.loadEnd code detail st).pwr = s.pwr := by
  obtain ⟨w, hr, -, e⟩ := loadEnd_eq s code detail st
  rw [e, irq_pwr, loadless_pwr, hr.pwr]

theorem loadEnd_cells (code detail st : Nat) : (s.loadEnd code detail st).cells = s.cells := by
  obtain ⟨w, hr, -, e⟩ := loadEnd_eq s code detail st
  rw [e, irq_cells, loadless_cells, hr.cells]

theorem loadEnd_bytes (code detail st : Nat) : KeepsBytes s (s.loadEnd code detail st) := by
  obtain ⟨w, hr, -, e⟩ := loadEnd_eq s code detail st
  have hw : KeepsBytes w w.loadless := .of_eq rfl rfl rfl
  rw [e]
  exact (hr.bytes.trans hw).trans ((RegsOnly.refl _).irq 0).bytes

/-- R22: a load that is not the boot's ends where it fails, and nothing else changes. -/
theorem loadFail_eq (ld : Load) (code detail : Nat) (h : ld.boot = false) : s.loadFail ld code detail = s.loadEnd code detail ld.prior := by
  have key (t : State) : (if (!ld.boot) = true then t
      else if (ld.source == 1) = true then t.loadBegin { source := 2, verifyOnly := false, prior := ld.prior, boot := true }
      else t.evt 0xC026 0) = t := by rw [if_pos (by simp [h])]
  exact key _

end
end Sys2Proof.Machine
end

section
/-! PROOFS (O57). What a request for a load does, and how the lists are cleared. -/
namespace Sys2Proof.Machine

/-! ### A request (R21, R33, R44) -/

section
variable (s : State)

/-- The load that a request asks for. -/
def State.requested (source : Nat) (verifyOnly boot : Bool) : Load :=
  { source := source, addr := s.rd Reg.imgSrcSrcAddr, size := s.rd Reg.imgSizeSize, verifyOnly := verifyOnly,
    prior := s.rd Reg.imgStatusState, boot := boot }

/-- Why a request is refused before anything is read, for a source in HBM. -/
def State.requestBad (source : Nat) : Option (Option Nat) :=
  if source == 0 then srcBad (s.rd Reg.imgSrcSrcAddr) (s.rd Reg.imgSizeSize) else none

theorem loadGo_busy (source : Nat) (verifyOnly boot : Bool) (h : s.img.load.isSome = true) :
    s.loadGo source verifyOnly boot = (s.wr Reg.imgStatusLastCode 0xA012).wr Reg.imgStatusFaultDetail 0 := by
  rw [State.loadGo, if_pos h]

theorem loadGo_eq (source : Nat) (verifyOnly boot : Bool) (h : s.img.load = none) (hd : s.loaderDown = false) :
    s.loadGo source verifyOnly boot = match s.requestBad source with
      | some (some o) => s.loadFail (s.requested source verifyOnly boot) 0xA002 o
      | some none => s.fresh.2.loadFail (s.requested source verifyOnly boot) 0xA002 s.fresh.1
      | none => s.loadBegin (s.requested source verifyOnly boot) := by
  rw [State.loadGo, if_neg (by simp [h]), hd]
  rfl

theorem rd_state_loadBegin (ld : Load) : (s.loadBegin ld).rd Reg.imgStatusState = 1 := rd_wr_same _ _ _ (by decide)

/-- R33: what is written to the code and the detail leaves STATE. -/
theorem showsLoad_code (code detail : Nat) :
    ShowsLoad ((s.wr Reg.imgStatusLastCode code).wr Reg.imgStatusFaultDetail detail) code detail (s.rd Reg.imgStatusState) := by
  have hst : s.rd Reg.imgStatusState % 8 = s.rd Reg.imgStatusState := Nat.mod_eq_of_lt (rd_lt s Reg.imgStatusState)
  refine ⟨?_, rd_wr_same _ _ _ (by decide), ?_⟩
  · rw [rd_wr_disjoint _ Reg.imgStatusFaultDetail Reg.imgStatusLastCode _ rfl (by decide) (by decide)]
    exact rd_wr_same _ _ _ (by decide)
  · rw [rd_wr_disjoint _ Reg.imgStatusFaultDetail Reg.imgStatusState _ rfl (by decide) (by decide),
      rd_wr_disjoint _ Reg.imgStatusLastCode Reg.imgStatusState _ rfl (by decide) (by decide), hst]

end

/-! ### The write of IMG.CTL that asks for a load -/

/-- A write of IMG.CTL that sets LOAD. -/
def AsksLoad (i : Instr) (data : Word) : Prop :=
  (i = .imgLoad data ∧ bitAt data.toNat 8 = false) ∨ (i = .imgVerifyOnly data ∧ bitAt data.toNat 8 = true)

section
variable {s : State} {i : Instr} {data : Word}

theorem rd_verifyOnly_eq (s : State) (v : Nat) :
    ((s.writeReg .img 0 0 all64 v).rd Reg.imgCtlVerifyOnly == 1) = bitAt v 8 := by
  rw [rd_verifyOnly_imgCtl]
  rfl

/-- R21, R33: the write is served: it goes to the register, and the request is made. -/
theorem exec_asksLoad (hi : AsksLoad i data) (hb : bitAt data.toNat 0 = true) (hg : s.blockGate = .serve) :
    exec i s = .next ((s.writeReg .img 0 0 all64 data.toNat).loadGo
      ((s.writeReg .img 0 0 all64 data.toNat).rd Reg.imgCtlSource) (bitAt data.toNat 8) false) := by
  have served : s.gated s.blockGate (fun s => s.imgCtl data.toNat) = s.imgCtl data.toNat := by rw [hg]; rfl
  have written : s.imgCtl data.toNat = (s.writeReg .img 0 0 all64 data.toNat).loadGo
      ((s.writeReg .img 0 0 all64 data.toNat).rd Reg.imgCtlSource) (bitAt data.toNat 8) false := by
    rw [State.imgCtl, if_pos hb, rd_verifyOnly_eq]
  obtain ⟨rfl, h8⟩ | ⟨rfl, h8⟩ := hi
  · show execImgLoad data s = _
    rw [execImgLoad, if_neg (by simp [hb, h8]), served, written]
  · show execImgVerifyOnly data s = _
    rw [execImgVerifyOnly, if_neg (by simp [hb, h8]), served, written]

/-- R33: a request that comes while a load runs is ignored, with 0xA012. -/
theorem exec_asksLoad_busy (hi : AsksLoad i data) (hb : bitAt data.toNat 0 = true) (hg : s.blockGate = .serve)
    (h : s.img.load.isSome = true) :
    ∃ t, exec i s = .next t ∧ KeepsBytes s t ∧ t.img = s.img ∧ ShowsLoad t 0xA012 0 (s.rd Reg.imgStatusState) := by
  have hu := writeReg_regsOnly s .img 0 0 all64 data.toNat
  have hst := rd_imgCtl_ne s data.toNat Reg.imgStatusState (by decide) (by decide) (by decide)
  have he := exec_asksLoad hi hb hg
  generalize s.writeReg .img 0 0 all64 data.toNat = u at hu hst he
  have ht : RegsOnly s ((u.wr Reg.imgStatusLastCode 0xA012).wr Reg.imgStatusFaultDetail 0) := (hu.wr _ _).wr _ _
  rw [loadGo_busy u _ _ _ (by rw [hu.img]; exact h)] at he
  exact ⟨_, he, ht.bytes, ht.img, hst ▸ showsLoad_code u _ _⟩

/-- R21, R44: a request that nothing refuses starts pass 1. -/
theorem exec_asksLoad_begins (hi : AsksLoad i data) (hb : bitAt data.toNat 0 = true) (hg : s.blockGate = .serve)
    (h : s.img.load = none) (hd : s.loaderDown = false) :
    let u := s.writeReg .img 0 0 all64 data.toNat
    u.requestBad (u.rd Reg.imgCtlSource) = none →
    ∃ t, exec i s = .next t ∧ KeepsBytes s t ∧ t.cells = s.cells ∧ t.rd Reg.imgStatusState = 1 ∧
      t.img.load = some { u.requested (u.rd Reg.imgCtlSource) (bitAt data.toNat 8) false with prior := s.rd Reg.imgStatusState } := by
  intro u hr
  have hu : RegsOnly s u := writeReg_regsOnly ..
  have hst : u.rd Reg.imgStatusState = s.rd Reg.imgStatusState := rd_imgCtl_ne _ _ _ (by decide) (by decide) (by decide)
  have he : exec i s = .next (u.loadGo (u.rd Reg.imgCtlSource) (bitAt data.toNat 8) false) := exec_asksLoad hi hb hg
  generalize u = u at *
  have hdu : u.loaderDown = false := by rw [← hd, State.loaderDown, State.loaderDown, State.island, State.island, hu.gov]
  rw [loadGo_eq u _ _ _ (by rw [hu.img]; exact h) hdu, hr] at he
  refine ⟨_, he, hu.bytes.trans (.of_eq rfl rfl rfl), hu.cells, rd_state_loadBegin u _, ?_⟩
  rw [← hst]
  rfl

/-- R44: a source in HBM that does not fit ends the load at once with IMG_HEADER. -/
theorem exec_asksLoad_refused (hi : AsksLoad i data) (hb : bitAt data.toNat 0 = true) (hg : s.blockGate = .serve)
    (h : s.img.load = none) (hd : s.loaderDown = false) (o : Nat) :
    let u := s.writeReg .img 0 0 all64 data.toNat
    u.requestBad (u.rd Reg.imgCtlSource) = some (some o) →
    ∃ t, exec i s = .next t ∧ KeepsBytes s t ∧ t.cells = s.cells ∧ EndsLoad t 0xA002 o (s.rd Reg.imgStatusState) := by
  intro u hr
  have hu : RegsOnly s u := writeReg_regsOnly ..
  have hst : u.rd Reg.imgStatusState = s.rd Reg.imgStatusState := rd_imgCtl_ne _ _ _ (by decide) (by decide) (by decide)
  have he : exec i s = .next (u.loadGo (u.rd Reg.imgCtlSource) (bitAt data.toNat 8) false) := exec_asksLoad hi hb hg
  generalize u = u at *
  have hdu : u.loaderDown = false := by rw [← hd, State.loaderDown, State.loaderDown, State.island, State.island, hu.gov]
  rw [loadGo_eq u _ _ _ (by rw [hu.img]; exact h) hdu, hr] at he
  dsimp only at he
  rw [loadFail_eq u _ _ _ rfl] at he
  exact ⟨_, he, hu.bytes.trans (loadEnd_bytes ..), (loadEnd_cells ..).trans hu.cells, hst ▸ endsLoad_loadEnd u _ _ _⟩

end

/-! ### The lists (R38) -/

section
variable {s : State}

theorem exec_clearCells (hg : s.blockGate = .serve) : exec .clearCells s = .next s.clearCells := by
  show execClearCells s = _
  rw [execClearCells, hg]
  rfl

theorem exec_clearLanes (hg : s.blockGate = .serve) : exec .clearLanes s = .next s.clearLanes := by
  show execClearLanes s = _
  rw [execClearLanes, hg]
  rfl

/-- R38: while a load runs a request to clear a list is an unlisted encoding. -/
theorem exec_clear_refused {i : Instr} (hi : i = .clearCells ∨ i = .clearLanes) (hg : s.blockGate = .serve) (h : s.mayClear = false) :
    exec i s = .next s.regEncoding := by
  obtain rfl | rfl := hi
  · rw [exec_clearCells hg, State.clearCells, if_neg (by simp [h])]
  · rw [exec_clearLanes hg, State.clearLanes, if_neg (by simp [h])]

end
end Sys2Proof.Machine
end

section
/-! PROOFS (O57). Pass 1: reading the source in HBM, its verification, and the way into the drain. -/
namespace Sys2Proof.Machine

/-! ### Reading HBM without faults -/

section
variable (s : State)

theorem hbmTouch_of_noErr (a n : Nat) (h : s.hbmErr = []) : s.hbmTouch a n = s := by
  unfold State.hbmTouch
  generalize blocksOf a n = l
  induction l with
  | nil => rfl
  | cons b l ih => rw [List.foldl_cons, if_neg (by rw [h]; simp [sget]), ih]

/-- R283, R287: a read of HBM with no fault in it gives its bytes and changes nothing. -/
theorem hbmFetch_of_noErr (a n : Nat) (h : s.hbmErr = []) (ha : s.absentStack a n = none) :
    s.hbmFetch a n = (s, { data := s.hbmRead a n }) := by
  have hf : (blocksOf a n).find? (fun b => sget 0 s.hbmErr b == 2) = none := by
    rw [List.find?_eq_none]
    intro b _
    rw [h]
    simp [sget]
  rw [State.hbmFetch, ha]
  dsimp only
  rw [hf]
  dsimp only
  rw [hbmTouch_of_noErr s a n h]

/-- R21: so does the reading of a source in HBM. -/
theorem sourceRead_of_noErr (ld : Load) (n : Nat) (h0 : ld.source = 0) (h : s.hbmErr = []) (ha : s.absentStack ld.addr n = none) :
    s.sourceRead ld 0 n = (s, some (s.hbmRead ld.addr n), 0) := by
  rw [State.sourceRead, if_pos (by simp [h0]), Nat.add_zero, hbmFetch_of_noErr s _ _ h ha]
  simp

/-! ### Pass 1 -/

/-- What pass 1 finds in a source in HBM. -/
def State.verdict (ld : Load) : Option (Nat × Nat) :=
  s.verify (s.hbmRead ld.addr ld.size) ld.size (some (ld.addr, ld.size))

/-- The load of an image that has passed pass 1: its image, and the tick at which its drain begins. -/
def State.verified (ld : Load) : Load :=
  { ld with image := s.hbmRead ld.addr ld.size, channels := maskOf 4 fun c => (imChannels (s.hbmRead ld.addr ld.size)).contains c,
            drainFrom := s.now }

/-- What pass 1 of a load from HBM has to work with: the load, a loader that runs, and a source that can be read. -/
structure Pass1Ready (ld : Load) : Prop where
  load : s.img.load = some ld
  state : s.rd Reg.imgStatusState = 1
  source : ld.source = 0
  up : s.loaderDown = false
  noErr : s.hbmErr = []
  present : s.absentStack ld.addr ld.size = none

variable {s}

/-- R33: pass 1 ends with its verdict. -/
theorem exec_imgPass1Done {ld : Load} (h : Pass1Ready s ld) :
    exec (.imgPass1Done true) s = .next (match s.verdict ld with
      | some (code, detail) => s.loadFail ld code detail
      | none => if ld.verifyOnly then s.loadEnd 0 0 ld.prior else s.drainStart (s.verified ld)) := by
  obtain ⟨hl, hst, h0, hup, he, ha⟩ := h
  have hw : s.slotWriting ld = false := by rw [State.slotWriting, h0]; rfl
  have hsrc : (if (ld.source == 0) = true then s.sourceLen ld else max 512 (s.sourceLen ld)) = ld.size := by
    rw [if_pos (by simp [h0]), State.sourceLen, if_pos (by simp [h0])]
  have hlen : s.sourceLen ld = ld.size := by rw [State.sourceLen, if_pos (by simp [h0])]
  show execImgPass1Done true s = _
  rw [execImgPass1Done, hl]
  dsimp only
  rw [hst, hw, if_neg (by decide), hsrc, sourceRead_of_noErr s ld _ h0 he ha]
  dsimp only
  rw [hup, if_neg (by decide), hlen, if_pos (by simp [h0])]
  rfl

theorem exec_imgPass1Done_fails {ld : Load} (h : Pass1Ready s ld) {code detail : Nat} (hv : s.verdict ld = some (code, detail))
    (hb : ld.boot = false) :
    ∃ t, exec (.imgPass1Done true) s = .next t ∧ KeepsBytes s t ∧ t.cells = s.cells ∧ EndsLoad t code detail ld.prior := by
  have he := exec_imgPass1Done h
  rw [hv] at he
  dsimp only at he
  rw [loadFail_eq s ld _ _ hb] at he
  exact ⟨_, he, loadEnd_bytes .., loadEnd_cells .., endsLoad_loadEnd ..⟩

theorem exec_imgPass1Done_verifyOnly {ld : Load} (h : Pass1Ready s ld) (hv : s.verdict ld = none) (ho : ld.verifyOnly = true) :
    ∃ t, exec (.imgPass1Done true) s = .next t ∧ KeepsBytes s t ∧ t.cells = s.cells ∧ EndsLoad t 0 0 ld.prior := by
  have he := exec_imgPass1Done h
  rw [hv] at he
  dsimp only at he
  rw [if_pos ho] at he
  exact ⟨_, he, loadEnd_bytes .., loadEnd_cells .., endsLoad_loadEnd ..⟩

/-! ### Into the drain -/

/-- The write of STATE in IMG.STATUS leaves the mask of configured channels. -/
theorem configured_wr_state (s : State) (v c : Nat) : (s.wr Reg.imgStatusState v).configured c = s.configured c := by
  rw [State.configured, rd_wr_disjoint s Reg.imgStatusState Reg.imgStatusConfigured v rfl (by decide) (by decide), State.configured]

/-- The load has become `ld`. -/
def State.withLoad (s : State) (ld : Load) : State := { s with img := { s.img with load := some ld } }

/-- R43: a drain without a configured channel only begins. -/
theorem drainStart_eq (ld : Load) (hc : ∀ c ∈ ld.chans, s.configured c = false) (hd : s.rd Reg.imgPctlDrainLimit ≠ 0) :
    s.drainStart ld = (s.withLoad ld).wr Reg.imgStatusState 2 := by
  have hf : ld.chans.filter ((s.withLoad ld).wr Reg.imgStatusState 2).configured = [] := by
    rw [List.filter_eq_nil_iff]
    intro c h
    have hu : (s.withLoad ld).configured c = false := hc c h
    rw [configured_wr_state, hu]
    decide
  have hl : ((s.withLoad ld).wr Reg.imgStatusState 2).rd Reg.imgPctlDrainLimit = s.rd Reg.imgPctlDrainLimit :=
    rd_wr_ne _ _ _ _ (by decide)
  have key (u : State) (hu : u = (s.withLoad ld).wr Reg.imgStatusState 2)
      (e : s.drainStart ld = if ((ld.chans.filter u.configured).foldl State.drainBegin u).rd Reg.imgPctlDrainLimit == 0
        then ((ld.chans.filter u.configured).foldl State.drainBegin u).drainAbort ld
        else (ld.chans.filter u.configured).foldl State.drainBegin u) : s.drainStart ld = u := by
    rw [e, hu, hf, List.foldl_nil, hl, if_neg (by simpa using hd)]
  exact key _ rfl rfl

theorem exec_imgPass1Done_drains {ld : Load} (h : Pass1Ready s ld) (hv : s.verdict ld = none) (ho : ld.verifyOnly = false)
    (hc : ∀ c ∈ (s.verified ld).chans, s.configured c = false) (hd : s.rd Reg.imgPctlDrainLimit ≠ 0) :
    ∃ t, exec (.imgPass1Done true) s = .next t ∧ KeepsBytes s t ∧ t.cells = s.cells ∧ t.rd Reg.imgStatusState = 2 ∧
      t.img.load = some (s.verified ld) := by
  have he := exec_imgPass1Done h
  rw [hv] at he
  dsimp only at he
  rw [if_neg (by simp [ho]), drainStart_eq _ hc hd] at he
  exact ⟨_, he, .of_eq rfl rfl rfl, rfl, rd_wr_same _ _ _ (by decide), rfl⟩

end
end Sys2Proof.Machine
end

section
/-! PROOFS (O57). DRAIN_LIMIT: the launches of the load's channels are aborted (R43, R382), and no byte of memory changes. -/
namespace Sys2Proof.Machine

/-! ### What an abort may change -/

/-- From `s` to `t` no byte of memory, nothing of the loader and no queue of a dispatcher has changed, and each context is as it
was or empty. -/
structure AbortsOnly (s t : State) : Prop where
  bytes : KeepsBytes s t
  img : t.img = s.img
  queue : ∀ c, (t.dsp c).queue = (s.dsp c).queue
  ctx : ∀ c k, t.ctx c k = s.ctx c k ∨ t.ctx c k = {}

/-- Nothing waits for a context of the channel, and none of its launches owes anyone an answer. -/
structure Calm (s : State) (ch : Nat) : Prop where
  queue : (s.dsp ch).queue = []
  deadline : ∀ k, (s.ctx ch k).trig.deadline = none
  hostRef : ∀ k, (s.ctx ch k).trig.hostRef = none

section
variable {s t u : State}

theorem AbortsOnly.refl (s : State) : AbortsOnly s s := ⟨.refl s, rfl, fun _ => rfl, fun _ _ => .inl rfl⟩

theorem AbortsOnly.trans (h : AbortsOnly s t) (k : AbortsOnly t u) : AbortsOnly s u := by
  refine ⟨h.bytes.trans k.bytes, k.img.trans h.img, fun c => (k.queue c).trans (h.queue c), fun c j => ?_⟩
  obtain e | e := k.ctx c j
  · rw [e]; exact h.ctx c j
  · exact .inr e

theorem AbortsOnly.of_disp (hb : KeepsBytes s t) (hi : t.img = s.img) (hd : t.disp = s.disp) : AbortsOnly s t :=
  ⟨hb, hi, fun c => by rw [State.dsp, hd, State.dsp],
    fun c k => .inl (by rw [State.ctx, State.dsp, hd, State.ctx, State.dsp])⟩

theorem RegsOnly.abortsOnly (h : RegsOnly s t) : AbortsOnly s t := .of_disp h.bytes h.img h.disp

theorem AbortsOnly.fnCount (h : AbortsOnly s t) : t.fnCount = s.fnCount := by
  rw [State.fnCount, State.global, h.img, State.fnCount, State.global]

theorem AbortsOnly.calm (h : AbortsOnly s t) {ch : Nat} (q : Calm s ch) : Calm t ch := by
  refine ⟨(h.queue ch).trans q.queue, fun k => ?_, fun k => ?_⟩
  · obtain e | e := h.ctx ch k
    · rw [e]; exact q.deadline k
    · rw [e]
  · obtain e | e := h.ctx ch k
    · rw [e]; exact q.hostRef k
    · rw [e]

/-- A launch that does not run does not begin to by an abort. -/
theorem AbortsOnly.not_begun (h : AbortsOnly s t) {ch k : Nat} (hk : (s.ctx ch k).phase.begun = false) :
    (t.ctx ch k).phase.begun = false := by
  obtain e | e := h.ctx ch k
  · rw [e]; exact hk
  · rw [e]; rfl

end

/-! ### The parts of an abort -/

section
variable (s : State)

theorem dEvt_faulted_regsOnly (ch : Nat) : RegsOnly s (s.dEvt ch 0x8003) := by
  have hb : RegsOnly s (s.bump (Reg.dispCountAFaulted ch)) := (RegsOnly.refl s).wr _ _
  unfold State.dEvt
  exact hb.evt 0x8003 ch

/-- R382: swarms are killed where they stand; their local memory stays. -/
theorem stopLaunch_abortsOnly (ch k : Nat) : AbortsOnly s (s.stopLaunch ch k) := by
  unfold State.stopLaunch
  generalize s.ctxCells ch k = l
  induction l generalizing s with
  | nil => exact .refl s
  | cons id l ih => exact .trans (.of_disp (.modCell s id fun c => c.stopCtx_lm k) rfl rfl) (ih _)

/-- R422: without a safety function no outcome is compared. -/
theorem abortEntry_of_noFn (h : s.fnCount = 0) (ch k outcome fault : Nat) (t : Trigger) :
    s.abortEntry ch k outcome fault t = s := by
  have hf : s.fnOf ch = none := by rw [State.fnOf, h]; rfl
  rw [State.abortEntry, State.comparing, hf]

theorem setDone_of_noRef (ch : Nat) (t : Trigger) (f : HostDone → HostDone) (h : t.hostRef = none) : s.setDone ch t f = s := by
  rw [State.setDone, h]

theorem releaseSlot_abortsOnly (ch : Nat) (t : Trigger) : AbortsOnly s (s.releaseSlot ch t) := by
  unfold State.releaseSlot
  split
  · exact .refl s
  split
  · exact .of_disp (.of_eq rfl rfl rfl) rfl rfl
  split
  · exact .of_disp (.of_eq rfl rfl rfl) rfl rfl
  · exact .refl s

/-- R377: with no trigger queued a free context stays free. -/
theorem serveQueue_of_empty (n ch : Nat) (h : (s.dsp ch).queue = []) : State.serveQueue n s ch = s := by
  cases n with
  | zero => rfl
  | succ n => simp [State.serveQueue, State.nextTrigger, h]

/-- A context is emptied. -/
theorem modCtx_empty_abortsOnly (ch k : Nat) : AbortsOnly s (s.modCtx ch k fun _ => {}) := by
  refine ⟨.of_eq rfl rfl rfl, rfl, fun c => ?_, fun c j => ?_⟩
  · unfold State.modCtx
    by_cases h : c = ch
    · rw [h, dsp_modDisp_same]
    · rw [dsp_modDisp_ne s _ h]
  · by_cases h : c = ch ∧ j = k
    · obtain ⟨rfl, rfl⟩ := h
      exact .inr (ctx_modCtx_same ..)
    · exact .inl (ctx_modCtx_ne s _ (by omega))

/-- The walks that a dispatcher has to make are no context and no queue. -/
theorem modDisp_syncWalks_abortsOnly (ch : Nat) (f : Disp → List (Nat × Nat × WalkResult)) :
    AbortsOnly s (s.modDisp ch fun d => { d with syncWalks := f d }) := by
  refine ⟨.of_eq rfl rfl rfl, rfl, fun c => ?_, fun c k => .inl ?_⟩ <;> by_cases h : c = ch
  · rw [h, dsp_modDisp_same]
  · rw [dsp_modDisp_ne s _ h]
  · rw [h, State.ctx, dsp_modDisp_same, State.ctx]
  · rw [State.ctx, dsp_modDisp_ne s _ h, State.ctx]


/-! ### The abort of a launch -/

variable {s} {ch : Nat}

/-- What the end of a context does before the trigger queue is served: its frame slot is released, and it is emptied. -/
def State.vacate (s : State) (ch k : Nat) : State :=
  ((if (s.ctx ch k).slotDone then s else s.releaseSlot ch (s.ctx ch k).trig).modCtx ch k fun _ => {}).modDisp ch
    fun d => { d with syncWalks := d.syncWalks.filter fun w => w.1 != k }

theorem vacate_abortsOnly (s : State) (ch k : Nat) :
    AbortsOnly s (s.vacate ch k) ∧ ((s.vacate ch k).ctx ch k).phase.begun = false := by
  have hr : AbortsOnly s (if (s.ctx ch k).slotDone then s else s.releaseSlot ch (s.ctx ch k).trig) := by
    split
    · exact .refl s
    · exact releaseSlot_abortsOnly ..
  unfold State.vacate
  generalize (if (s.ctx ch k).slotDone then s else s.releaseSlot ch (s.ctx ch k).trig) = a at hr
  have hw := modDisp_syncWalks_abortsOnly (a.modCtx ch k fun _ => {}) ch fun d => d.syncWalks.filter fun w => w.1 != k
  exact ⟨(hr.trans (modCtx_empty_abortsOnly a ch k)).trans hw, hw.not_begun (by rw [ctx_modCtx_same]; rfl)⟩

/-- R376, R384: a context of a calm channel ends, and no other one begins. -/
theorem endCtx_calm (q : Calm s ch) (k : Nat) : s.endCtx ch k = s.vacate ch k := by
  have key : s.endCtx ch k =
      State.serveQueue 16 ((s.vacate ch k).setDone ch (s.ctx ch k).trig fun d => { d with ended := true }) ch := rfl
  obtain ⟨h, -⟩ := vacate_abortsOnly s ch k
  rw [key, setDone_of_noRef _ ch _ _ (q.hostRef k), serveQueue_of_empty _ 16 ch (h.calm q).queue]

/-- R382: an abort in a calm channel ends the launch and tells no one. -/
theorem abortCtx_calm (hf : s.fnCount = 0) (q : Calm s ch) (k code : Nat) :
    AbortsOnly s (s.abortCtx ch k code) ∧ ((s.abortCtx ch k code).ctx ch k).phase.begun = false := by
  by_cases hd : (s.ctx ch k).phase = .dead
  · rw [State.abortCtx, if_pos (by simp [hd])]
    exact ⟨.refl s, by rw [hd]; rfl⟩
  have hs : AbortsOnly s ((s.dEvt ch 0x8003).stopLaunch ch k) :=
    (dEvt_faulted_regsOnly s ch).abortsOnly.trans (stopLaunch_abortsOnly _ ch k)
  have he : s.abortCtx ch k code = ((s.dEvt ch 0x8003).stopLaunch ch k).endCtx ch k := by
    rw [State.abortCtx, if_neg (by simpa using hd)]
    dsimp only
    rw [abortEntry_of_noFn _ (hs.fnCount.trans hf), setDone_of_noRef _ ch _ _ (q.hostRef k), q.deadline k]
    simp
  obtain ⟨h, hk⟩ := vacate_abortsOnly ((s.dEvt ch 0x8003).stopLaunch ch k) ch k
  rw [he, endCtx_calm (hs.calm q)]
  exact ⟨hs.trans h, hk⟩

/-! ### The abort of every launch of a drain -/

/-- A step for each member of a list: each does only what aborts do and stops what its member stands for, so the whole does. -/
theorem foldl_abortsOnly {α : Type} (f : State → α → State) (stops : α → State → Prop) (chans : List Nat) (l : List α)
    (hf : ∀ s, s.fnCount = 0 → (∀ c ∈ chans, Calm s c) → ∀ x ∈ l, AbortsOnly s (f s x) ∧ stops x (f s x))
    (stays : ∀ s t x, AbortsOnly s t → stops x s → stops x t) (s : State) (hn : s.fnCount = 0) (hc : ∀ c ∈ chans, Calm s c) :
    AbortsOnly s (l.foldl f s) ∧ ∀ x ∈ l, stops x (l.foldl f s) := by
  induction l generalizing s with
  | nil => exact ⟨.refl s, by simp⟩
  | cons x l ih =>
    obtain ⟨h, hx⟩ := hf s hn hc x (by simp)
    obtain ⟨hl, hr⟩ := ih (fun s hn hc y hy => hf s hn hc y (by simp [hy])) (f s x) (h.fnCount.trans hn) fun c m => h.calm (hc c m)
    refine ⟨h.trans hl, fun y hy => ?_⟩
    obtain rfl | hy := List.mem_cons.1 hy
    · exact stays _ _ _ hl hx
    · exact hr y hy

/-- The launches of a channel do not run. -/
def Idle (ch : Nat) (t : State) : Prop := ∀ k ∈ List.range 16, (t.ctx ch k).phase.begun = false

/-- R43, R382: in calm channels the end of the drain only aborts, and afterwards no launch of them runs. -/
theorem drainAbort_calm (ld : Load) (hn : s.fnCount = 0) (hc : ∀ c ∈ ld.chans, Calm s c) :
    AbortsOnly s (s.drainAbort ld) ∧ ∀ c ∈ ld.chans, Idle c (s.drainAbort ld) := by
  refine foldl_abortsOnly _ Idle ld.chans ld.chans (fun s hn hc c hm => ?_)
    (fun s t c h hi k hk => h.not_begun (hi k hk)) s hn hc
  refine foldl_abortsOnly _ (fun k t => (t.ctx c k).phase.begun = false) ld.chans (List.range 16) (fun s hn hc k _ => ?_)
    (fun s t k h => h.not_begun) s hn hc
  split
  · exact abortCtx_calm hn (hc c hm) k _
  · next hb => exact ⟨.refl s, by simpa using hb⟩

/-- R43: DRAIN_LIMIT. -/
theorem exec_drainLimit {ld : Load} (hl : s.img.load = some ld) (hst : s.rd Reg.imgStatusState = 2)
    (ht : ld.drainFrom + s.rd Reg.imgPctlDrainLimit ≤ s.now) : exec .drainLimit s = .next (s.drainAbort ld) := by
  show execDrainLimit s = _
  rw [execDrainLimit, hl]
  dsimp only
  rw [if_neg (by simpa [hst] using ht)]

end
end Sys2Proof.Machine
end

section
/-! PROOFS (O57). The way into pass 2: the channels of a load are reset and unconfigured (R23, R43); and the end of pass 2 (R24, R33). -/
namespace Sys2Proof.Machine

variable {s : State} {ld : Load}

/-! ### An unconfigured channel -/

section
variable (s : State) (c : Nat)

/-- R20: the channel leaves the mask of configured channels. -/
theorem configured_unconfigure : (s.unconfigure c).configured c = false := by
  have h : ((s.clrBit Reg.imgStatusConfigured c).setBit Reg.imgStatusUnconfigured c).rd Reg.imgStatusConfigured =
      (s.clrBit Reg.imgStatusConfigured c).rd Reg.imgStatusConfigured :=
    rd_wr_disjoint _ Reg.imgStatusUnconfigured Reg.imgStatusConfigured _ rfl (by decide) (by decide)
  have key (t : State) (h : t.rd Reg.imgStatusConfigured = (s.clrBit Reg.imgStatusConfigured c).rd Reg.imgStatusConfigured) :
      t.configured c = false := by
    rw [State.configured, h]
    exact bitAt_clrBit s Reg.imgStatusConfigured c (by decide)
  exact key _ h

theorem bitAt_sub_own (v : Nat) : bitAt (v - if bitAt v c then 2 ^ c else 0) c = false := by
  split
  · next h => exact bitAt_sub_two_pow v c h
  · next h => simpa using h

/-- R484: the channel's binding is no longer in force. -/
theorem isBound_unconfigure : (s.unconfigure c).isBound c = false :=
  bitAt_sub_own c ((s.clrBit Reg.imgStatusConfigured c).setBit Reg.imgStatusUnconfigured c).img.bound

theorem parts_unconfigure : sget [] (s.unconfigure c).img.parts c = [] :=
  sget_sdel_same [] ((s.clrBit Reg.imgStatusConfigured c).setBit Reg.imgStatusUnconfigured c).img.parts c

end

/-! ### IMG_DRAIN_DONE -/

/-- R43: while a launch of the load's channels runs, the drain goes on. -/
theorem exec_imgDrainDone_runs (hl : s.img.load = some ld) (hr : ∃ c ∈ ld.chans, ∃ k, k < 16 ∧ (s.ctx c k).phase.begun = true) :
    exec .imgDrainDone s = .next s := by
  have hb : ld.chans.any (fun c => (List.range 16).any fun k => (s.ctx c k).phase.begun) = true := by
    simpa [List.any_eq_true] using hr
  show execImgDrainDone s = _
  rw [execImgDrainDone, hl]
  dsimp only
  rw [if_pos (by simp only [hb, Bool.or_true])]

/-- R23, R43: once no launch runs, each channel of the load is reset and unconfigured. -/
theorem exec_imgDrainDone_idle (hl : s.img.load = some ld) (hst : s.rd Reg.imgStatusState = 2)
    (hi : ∀ c ∈ ld.chans, ∀ k, k < 16 → (s.ctx c k).phase.begun = false) :
    exec .imgDrainDone s = .next (ld.chans.foldl (fun s c => ((s.channelReset c).restoresLost c).unconfigure c)
      (s.wr Reg.imgStatusState 3)) := by
  have hb : ld.chans.any (fun c => (List.range 16).any fun k => (s.ctx c k).phase.begun) = false := by
    simpa [List.any_eq_false] using hi
  show execImgDrainDone s = _
  rw [execImgDrainDone, hl]
  dsimp only
  rw [if_neg (by simp [hst, hb])]

theorem exec_imgDrainDone_single {c : Nat} (hl : s.img.load = some ld) (hst : s.rd Reg.imgStatusState = 2) (hc : ld.chans = [c])
    (hi : ∀ k, k < 16 → (s.ctx c k).phase.begun = false) :
    ∃ t, exec .imgDrainDone s = .next t ∧ t.configured c = false ∧ t.isBound c = false ∧ sget [] t.img.parts c = [] := by
  have he := exec_imgDrainDone_idle hl hst (by simpa [hc] using hi)
  rw [hc] at he
  exact ⟨_, he, configured_unconfigure _ c, isBound_unconfigure _ c, parts_unconfigure _ c⟩

/-! ### The end of pass 2 -/

/-- R33: a load that succeeds ends with no code in STATE 4, with a running image. -/
theorem loadApplied_eq (s : State) (ld : Load) (done : List Nat) :
    ∃ y : State, s.loadApplied ld done = (y.modPwr fun p => { p with loaded := true }).loadEnd 0 0 4 := ⟨_, rfl⟩

/-- R24: a load that stops ends in STATE 4 where it was partial, otherwise in STATE 0. -/
theorem loadStop_eq (s : State) (ld : Load) (code detail : Nat) :
    ∃ y : State, s.loadStop ld code detail = y.loadEnd code detail (if imPartial ld.image then 4 else 0) := ⟨_, rfl⟩

theorem loadApplied_ends (s : State) (ld : Load) (done : List Nat) :
    EndsLoad (s.loadApplied ld done) 0 0 4 ∧ (s.loadApplied ld done).pwr.loaded = true := by
  obtain ⟨y, e⟩ := loadApplied_eq s ld done
  rw [e, loadEnd_pwr]
  exact ⟨endsLoad_loadEnd .., rfl⟩

theorem loadStop_ends (s : State) (ld : Load) (code detail : Nat) :
    EndsLoad (s.loadStop ld code detail) code detail (if imPartial ld.image then 4 else 0) := by
  obtain ⟨y, e⟩ := loadStop_eq s ld code detail
  rw [e]
  exact endsLoad_loadEnd ..

/-- R24, R33: pass 2 ends with no load, in the STATE that the image's kind and the outcome give. -/
theorem exec_imgApplyDone (hl : s.img.load = some ld) (hst : s.rd Reg.imgStatusState = 3) (readOk : Bool) (bad : List CellFail) :
    ∃ t, exec (.imgApplyDone readOk bad) s = .next t ∧ t.img.load = none ∧ bitAt (t.rd Reg.hostIrqCauseBits) 0 = true ∧
      (t.rd Reg.imgStatusState = 4 ∨ t.rd Reg.imgStatusState = 0) ∧ (imPartial ld.image = true → t.rd Reg.imgStatusState = 4) ∧
      (imPartial ld.image = true → ld.chans = [] → ShowsLoad t 0 0 4 ∧ t.pwr.loaded = true) := by
  obtain ⟨y, -, ⟨done, he⟩ | ⟨hne, code, detail, he⟩⟩ := execImgApplyDone_ends hl hst readOk bad
  · obtain ⟨⟨⟨hc, hd, hs⟩, hn, hi⟩, hp⟩ := loadApplied_ends y ld done
    exact ⟨_, he, hn, hi, .inl hs, fun _ => hs, fun _ _ => ⟨⟨hc, hd, hs⟩, hp⟩⟩
  · obtain ⟨⟨-, -, hs⟩, hn, hi⟩ := loadStop_ends y ld code detail
    refine ⟨_, he, hn, hi, ?_, fun hp => by rw [hs, if_pos hp], fun hp hc => absurd ⟨hp, hc⟩ hne⟩
    by_cases hp : imPartial ld.image = true
    · exact .inl (by rw [hs, if_pos hp])
    · exact .inr (by rw [hs, if_neg hp])

end Sys2Proof.Machine
end

section
/-! PROOFS (O57). Loading an image: a request, pass 1, the drain, pass 2 and the lists, put together. -/
namespace Sys2Proof.Machine

/-- Settles O57: a request (R21, R33, R44), pass 1 (R33), the drain and the way into pass 2 (R23, R43), the end of pass 2 (R24,
R33), and the clearing of the lists (R38), each from the equation of its command. -/
theorem imageLoads : Obligations.ImageLoads := by
  unfold Obligations.ImageLoads
  intro s shows ends
  refine ⟨fun i data hi hb hg => ?request, fun ld hl => ⟨?pass1, ?drain, ?pass2⟩, fun hg => ?lists⟩
  case request =>
    refine ⟨exec_asksLoad_busy hi hb hg, fun h hd => ⟨fun hs => ?_, fun o h0 hs => ?_⟩⟩
    · refine exec_asksLoad_begins hi hb hg h hd ?_
      by_cases h0 : (s.writeReg .img 0 0 all64 data.toNat).rd Reg.imgCtlSource = 0
      · rw [State.requestBad, if_pos (by simp [h0])]
        exact hs.resolve_left (fun hn => hn h0)
      · rw [State.requestBad, if_neg (by simpa using h0)]
    · refine exec_asksLoad_refused hi hb hg h hd o ?_
      rw [State.requestBad, if_pos (by simp [h0])]
      exact hs
  case pass1 =>
    intro hst h0 hup he ha
    have hr : Pass1Ready s ld := ⟨hl, hst, h0, hup, he, ha⟩
    refine ⟨fun code detail hv hb => exec_imgPass1Done_fails hr hv hb, exec_imgPass1Done_verifyOnly hr, fun hv ho hc hd => ?_⟩
    obtain ⟨t, ht, hk, hcells, hs, hload⟩ := exec_imgPass1Done_drains hr hv ho hc hd
    exact ⟨t, ht, hk, hcells, hs, s.verified ld, hload, rfl, rfl, h0⟩
  case drain =>
    intro hst
    refine ⟨fun ht hn hq => ?_, fun c hc _ hi => exec_imgDrainDone_single hl hst hc hi, exec_imgDrainDone_runs hl⟩
    obtain ⟨ha, hi⟩ := drainAbort_calm ld hn fun c hc => ⟨(hq c hc).1, fun k => ((hq c hc).2 k).1, fun k => ((hq c hc).2 k).2⟩
    exact ⟨_, exec_drainLimit hl hst ht, ha.bytes, fun c hc k hk => hi c hc k (List.mem_range.2 hk)⟩
  case pass2 => exact fun hst readOk bad => exec_imgApplyDone hl hst readOk bad
  case lists =>
    refine ⟨fun h => ⟨?_, ?_⟩, fun i hi h => ⟨_, exec_clear_refused hi hg h, ?_, ?_, bitAt_regEncoding s⟩⟩
    · rw [exec_clearCells hg, State.clearCells, if_pos h]
    · rw [exec_clearLanes hg, State.clearLanes, if_pos h]
    · exact (regEncoding_regsOnly s).bytes
    · exact (regEncoding_regsOnly s).img

end Sys2Proof.Machine
end

section
/-! PROOFS (O31). The quire as a number (R65 to R68): what an addition does, that additions commute, and how a sum reads. -/
namespace Sys2Proof.Machine

/-! ### Additions (R66, R67) -/

/-- What a value adds to a quire, in units of 2^-288; nothing where it is not finite. -/
def Val.quireUnits : Val → Int
  | .fin n s e => shiftI (Val.num (.fin n s e)) (e + 288)
  | _ => 0

theorem Quire.addVal_fin (q : Quire) (n : Bool) (s : Nat) (e : Int) :
    q.addVal (.fin n s e) = q.addUnits (Val.quireUnits (.fin n s e)) := rfl

theorem Quire.addUnits_w (q : Quire) (x : Int) : ((q.addUnits x).w : Int) = (q.w + x) % 2 ^ 643 :=
  Int.toNat_of_nonneg (Int.emod_nonneg _ (Int.pow_ne_zero (by decide)))

theorem Quire.addUnits_addUnits (q : Quire) (x y : Int) : (q.addUnits x).addUnits y = q.addUnits (x + y) := by
  rw [Quire.addUnits, Quire.addUnits_w, Int.emod_add_emod, Int.add_assoc]
  rfl

/-- A value's class decides what it sets of the tag. -/
theorem Quire.addVal_tag (q : Quire) (v : Val) : (q.addVal v).nar = (q.nar || v.isNar) ∧
    (q.addVal v).pinf = (q.pinf || v == .inf false) ∧ (q.addVal v).ninf = (q.ninf || v == .inf true) := by
  rcases v with _ | ⟨_ | _⟩ | _ | _ <;> simp [Quire.addVal, Quire.addUnits, Val.isNar]

theorem Quire.addVal_w {q : Quire} (h : q.w < 2 ^ 643) (v : Val) : ((q.addVal v).w : Int) = (q.w + v.quireUnits) % 2 ^ 643 := by
  have stays : (q.w : Int) = (q.w + 0) % 2 ^ 643 := by
    rw [Int.add_zero, Int.emod_eq_of_lt (Int.natCast_nonneg _) (by exact_mod_cast h)]
  rcases v with _ | ⟨_ | _⟩ | _ | _
  case fin => exact q.addUnits_w _
  all_goals exact stays

/-- R67: two additions commute: two finite values add the sum of their units, and any other value only sets its bit of the tag. -/
theorem Quire.addVal_comm (q : Quire) (x y : Val) : (q.addVal x).addVal y = (q.addVal y).addVal x := by
  rcases x with _ | ⟨_ | _⟩ | _ | _ <;> rcases y with _ | ⟨_ | _⟩ | _ | _
  case fin.fin => simp only [Quire.addVal_fin, Quire.addUnits_addUnits, Int.add_comm]
  all_goals rfl

theorem Quire.addAll_perm (q : Quire) {l m : List Val} (h : l.Perm m) : q.addAll l = q.addAll m :=
  h.foldl_eq' (fun x _ y _ q => q.addVal_comm x y) q

theorem Quire.addAll_tag (q : Quire) (l : List Val) : (q.addAll l).nar = (q.nar || l.any Val.isNar) ∧
    (q.addAll l).pinf = (q.pinf || l.contains (.inf false)) ∧ (q.addAll l).ninf = (q.ninf || l.contains (.inf true)) := by
  induction l generalizing q with
  | nil => simp [Quire.addAll]
  | cons v l ih =>
    obtain ⟨hn, hp, hm⟩ := ih (q.addVal v)
    obtain ⟨tn, tp, tm⟩ := q.addVal_tag v
    refine ⟨hn.trans ?_, hp.trans ?_, hm.trans ?_⟩
    · rw [tn, List.any_cons, Bool.or_assoc]
    · rw [tp, List.contains_cons, Bool.or_assoc, BEq.comm]
    · rw [tm, List.contains_cons, Bool.or_assoc, BEq.comm]

theorem Quire.addVal_lt {q : Quire} (h : q.w < 2 ^ 643) (v : Val) : (q.addVal v).w < 2 ^ 643 := by
  have := Int.emod_lt_of_pos ((q.w : Int) + v.quireUnits) (Int.pow_pos (m := 643) (show (0 : Int) < 2 by decide))
  rw [← Quire.addVal_w h] at this
  exact_mod_cast this

/-- R67: the 643-bit value of a quire to which values were added is their sum, modulo 2^643. -/
theorem Quire.addAll_w {q : Quire} (h : q.w < 2 ^ 643) (l : List Val) :
    ((q.addAll l).w : Int) = (q.w + (l.map Val.quireUnits).sum) % 2 ^ 643 := by
  induction l generalizing q with
  | nil =>
    rw [List.map_nil, List.sum_nil, Int.add_zero, Int.emod_eq_of_lt (Int.natCast_nonneg _) (by exact_mod_cast h)]
    rfl
  | cons v l ih =>
    rw [List.map_cons, List.sum_cons, ← Int.add_assoc, ← Int.emod_add_emod, ← Quire.addVal_w h]
    exact ih (Quire.addVal_lt h v)

theorem Quire.addAll_lt {q : Quire} (h : q.w < 2 ^ 643) (l : List Val) : (q.addAll l).w < 2 ^ 643 := by
  induction l generalizing q with
  | nil => exact h
  | cons v l ih => exact ih (Quire.addVal_lt h v)

/-! ### How a quire reads (R65, R68) -/

theorem sx_bounds (n v : Nat) : -(2 : Int) ^ n ≤ sx (n + 1) v ∧ sx (n + 1) v < 2 ^ n := by
  have hx : v % 2 ^ (n + 1) < 2 ^ (n + 1) := Nat.mod_lt _ (Nat.two_pow_pos _)
  have hc : ((2 ^ n : Nat) : Int) = 2 ^ n := by push_cast; rfl
  simp only [sx, Nat.add_sub_cancel, Nat.pow_succ, Int.pow_succ, ← hc] at hx ⊢
  split <;> constructor <;> omega

/-- The rounded quotient by 2^(n+1): the remainder's upper half counts one more. -/
theorem add_half_div (n v : Nat) : (v + 2 ^ n) / 2 ^ (n + 1) = v / 2 ^ (n + 1) + if v % 2 ^ (n + 1) < 2 ^ n then 0 else 1 := by
  have hlt : 2 ^ n < 2 ^ (n + 1) := Nat.pow_lt_pow_right (by decide) n.lt_succ_self
  have hs : 2 ^ (n + 1) = 2 ^ n * 2 := Nat.pow_succ ..
  rw [Nat.add_div (Nat.two_pow_pos _), Nat.div_eq_of_lt hlt, Nat.mod_eq_of_lt hlt, Nat.add_zero]
  congr 1
  split <;> split <;> omega

theorem sx_add_half_div (n v : Nat) : (v : Int) = sx (n + 1) v + 2 ^ (n + 1) * ((v + 2 ^ n) / 2 ^ (n + 1) : Nat) := by
  have hv : (2 ^ (n + 1) * (v / 2 ^ (n + 1) : Nat) + (v % 2 ^ (n + 1) : Nat) : Int) = v := by exact_mod_cast Nat.div_add_mod ..
  rw [add_half_div, sx, Nat.add_sub_cancel]
  split <;> rw [Int.natCast_add, Int.mul_add] <;> omega

/-- R65: a quire's 643-bit value is its signed Q and 2^640 as often as WRAP counts, before WRAP is cut to its 3 bits. -/
theorem Quire.w_eq (q : Quire) : (q.w : Int) = q.q + 2 ^ 640 * ((q.w + 2 ^ 639) / 2 ^ 640 : Nat) := sx_add_half_div 639 q.w

theorem Quire.q_bounds (q : Quire) : -(2 : Int) ^ 639 ≤ q.q ∧ q.q < 2 ^ 639 := sx_bounds 639 q.w

theorem Quire.wrap_eq (q : Quire) : q.wrap = (q.w + 2 ^ 639) / 2 ^ 640 % 8 := by rw [Quire.wrap, Nat.shiftRight_eq_div_pow]

/-- A number `t` of 16 halves, cut into a signed remainder `r` of two halves and a quotient `k` counted modulo 8: the quotient is 0
exactly where `t` fits two halves. -/
theorem signed_digits_iff {H w r t : Int} {k : Nat} (hr : -H ≤ r ∧ r < H) (hw : w = r + H * 2 * k) (h : w = t % (H * 16))
    (hlo : -(H * 8) ≤ t) (hhi : t < H * 8) : (k % 8 = 0 ↔ -H ≤ t ∧ t < H) ∧ (k % 8 = 0 → r = t) := by
  have hlt : w < H * 16 := h ▸ Int.emod_lt_of_pos t (by omega)
  have ht : w = t ∨ w = t + H * 16 := by
    rcases Int.lt_or_le t 0 with hn | hp
    · rw [h, ← Int.add_emod_right, Int.emod_eq_of_lt (by omega) (by omega)]
      exact .inr rfl
    · exact .inl (h.trans (Int.emod_eq_of_lt hp (by omega)))
  have hk : k < 9 := by
    have : H * 2 * k < H * 2 * 9 := by omega
    exact_mod_cast Int.lt_of_mul_lt_mul_left this (by omega)
  obtain rfl | rfl | rfl | rfl | rfl | rfl | rfl | rfl | rfl :
      k = 0 ∨ k = 1 ∨ k = 2 ∨ k = 3 ∨ k = 4 ∨ k = 5 ∨ k = 6 ∨ k = 7 ∨ k = 8 := by omega
  all_goals omega

/-- R68: a quire whose 643 bits are those of `t` has WRAP 0 exactly where `t` fits 640 bits, and then its Q is `t`. -/
theorem Quire.wrap_iff {q : Quire} {t : Int} (h : (q.w : Int) = t % 2 ^ 643) (hlo : -(2 : Int) ^ 642 ≤ t) (hhi : t < 2 ^ 642) :
    (q.wrap = 0 ↔ -(2 : Int) ^ 639 ≤ t ∧ t < 2 ^ 639) ∧ (q.wrap = 0 → q.q = t) := by
  have hw := q.w_eq
  rw [Int.pow_succ _ 639] at hw
  rw [Int.pow_add _ 639 4] at h
  rw [Int.pow_add _ 639 3] at hlo hhi
  rw [q.wrap_eq]
  exact signed_digits_iff q.q_bounds hw h hlo hhi

/-- R68: how a quire reads whose tag has none of NAR, PINF and NINF. -/
theorem Quire.read_of_finite {q : Quire} (hn : q.nar = false) (hp : q.pinf = false) (hm : q.ninf = false) :
    q.read = if q.wrap = 0 then (.ofInt q.q (-288), false) else (.nar, true) := by
  simp only [Quire.read, hn, hp, hm, Bool.or_self, Bool.and_self, Bool.false_eq_true, if_false, bne_iff_ne, ite_not]

/-- R67, R68: how the sum of values reads, where no value sets NAR, PINF or NINF and 643 bits hold the sum. -/
theorem Quire.read_addAll {l : List Val} {t : Int} (ht : (l.map Val.quireUnits).sum = t)
    (hf : ∀ v ∈ l, v.isNar = false ∧ v ≠ .inf false ∧ v ≠ .inf true) (hlo : -(2 : Int) ^ 642 ≤ t) (hhi : t < 2 ^ 642) :
    (Quire.addAll {} l).read = if -(2 : Int) ^ 639 ≤ t ∧ t < 2 ^ 639 then (.ofInt t (-288), false) else (.nar, true) := by
  obtain ⟨hn, hp, hm⟩ := Quire.addAll_tag {} l
  have hw : ((Quire.addAll {} l).w : Int) = t % 2 ^ 643 := by
    rw [Quire.addAll_w (Nat.two_pow_pos _), ht]
    exact congrArg (· % 2 ^ 643) (Int.zero_add t)
  obtain ⟨hz, hq⟩ := Quire.wrap_iff hw hlo hhi
  rw [Quire.read_of_finite]
  · simp only [← hz]
    split
    · next h => rw [hq h]
    · rfl
  · rw [hn, Bool.false_or, List.any_eq_false]
    exact fun v hv => by simp [(hf v hv).1]
  · rw [hp, Bool.false_or, List.contains_eq_mem, decide_eq_false]
    exact fun hv => (hf _ hv).2.1 rfl
  · rw [hm, Bool.false_or, List.contains_eq_mem, decide_eq_false]
    exact fun hv => (hf _ hv).2.2 rfl

/-- R68: a NaR, or infinities of both signs, make a quire read as NaR, without QOVF. -/
theorem Quire.read_addAll_nar (q : Quire) {l : List Val} (h : .nar ∈ l ∨ .nan ∈ l ∨ (.inf true ∈ l ∧ .inf false ∈ l)) :
    (q.addAll l).read = (.nar, false) := by
  obtain ⟨hn, hp, hm⟩ := q.addAll_tag l
  rw [Quire.read, if_pos]
  rw [hn, hp, hm]
  rcases h with h | h | ⟨hm, hp⟩
  · simp [show l.any Val.isNar = true from List.any_eq_true.2 ⟨_, h, rfl⟩]
  · simp [show l.any Val.isNar = true from List.any_eq_true.2 ⟨_, h, rfl⟩]
  · simp [hm, hp]

theorem Val.quireUnits_fin (n : Bool) (s : Nat) {e : Int} (he : -288 ≤ e) :
    Val.quireUnits (.fin n s e) = (if n then -(s : Int) else s) * 2 ^ (e + 288).toNat := by
  rw [Val.quireUnits, shiftI, if_pos (by omega), Val.num]

/-- R67, R68: how the sum of finite values reads whose units of 2^-288 are whole, where 643 bits hold the sum. -/
theorem Quire.read_addAll_fin {l : List (Bool × Nat × Int)} {t : Int} (he : ∀ x ∈ l, -288 ≤ x.2.2)
    (ht : (l.map fun x => (if x.1 then -(x.2.1 : Int) else x.2.1) * 2 ^ (x.2.2 + 288).toNat).sum = t)
    (hlo : -(2 : Int) ^ 642 ≤ t) (hhi : t < 2 ^ 642) : (Quire.addAll {} (l.map fun x => .fin x.1 x.2.1 x.2.2)).read =
      if -(2 : Int) ^ 639 ≤ t ∧ t < 2 ^ 639 then (.ofInt t (-288), false) else (.nar, true) := by
  refine Quire.read_addAll ?_ (fun v hv => ?_) hlo hhi
  · rw [← ht, List.map_map]
    exact congrArg List.sum (List.map_congr_left fun x hx => Val.quireUnits_fin x.1 x.2.1 (he x hx))
  · obtain ⟨x, -, rfl⟩ := List.mem_map.1 hv
    exact ⟨rfl, nofun, nofun⟩

end Sys2Proof.Machine
end

section
/-! PROOFS (O31). Numbers as bytes, and a quire in its record (R84) and in the accumulator store (R77). -/
namespace Sys2Proof.Machine

/-! ### Little-endian bytes (R4) -/

@[simp] theorem leBytes_length (n v : Nat) : (leBytes n v).length = n := by
  induction n generalizing v with
  | zero => rfl
  | succ n ih => rw [leBytes, List.length_cons, ih]

@[simp] theorem zeros_length (n : Nat) : (zeros n).length = n := List.length_replicate

theorem leNat_leBytes (n v : Nat) : leNat (leBytes n v) = v % 256 ^ n := by
  induction n generalizing v with
  | zero => rw [Nat.pow_zero, Nat.mod_one]; rfl
  | succ n ih => rw [leBytes, leNat, ih, BitVec.toNat_ofNat, Nat.pow_succ' (m := 256) (n := n), Nat.mod_mul]

/-- The field at the start of a byte string holds the number written there. -/
theorem fieldLE_leBytes_append (n v : Nat) (bs : Bytes) : fieldLE (leBytes n v ++ bs) 0 n = v % 256 ^ n := by
  have h : slice (leBytes n v ++ bs) 0 n = leBytes n v := by
    rw [slice, List.drop_zero, List.take_left' (leBytes_length n v), leBytes_length, Nat.sub_self]
    exact List.append_nil _
  rw [fieldLE, h, leNat_leBytes]

/-! ### The tag (Table 04-1) -/

theorem tagByte_lt (nar pinf ninf : Bool) (wrap : Nat) (fast smsat : Bool) : tagByte nar pinf ninf wrap fast smsat < 2 ^ 8 := by
  have := Bool.toNat_lt nar
  have := Bool.toNat_lt pinf
  have := Bool.toNat_lt ninf
  have := Bool.toNat_lt fast
  have := Bool.toNat_lt smsat
  rw [tagByte]
  omega

/-- Each field of a tag byte is what it was made of. -/
theorem tagByte_fields (nar pinf ninf : Bool) (wrap : Nat) (fast smsat : Bool) : let t := tagByte nar pinf ninf wrap fast smsat
    bitAt t 0 = nar ∧ bitAt t 1 = pinf ∧ bitAt t 2 = ninf ∧ bits t 3 3 = wrap % 8 ∧ bitAt t 6 = fast ∧ bitAt t 7 = smsat := by
  have all : ∀ k < 8, ∀ nar pinf ninf fast smsat : Bool,
      let t := nar.toNat + 2 * pinf.toNat + 4 * ninf.toNat + 8 * k + 64 * fast.toNat + 128 * smsat.toNat
      bitAt t 0 = nar ∧ bitAt t 1 = pinf ∧ bitAt t 2 = ninf ∧ bits t 3 3 = k ∧ bitAt t 6 = fast ∧ bitAt t 7 = smsat := by decide
  exact all _ (Nat.mod_lt _ (by decide)) nar pinf ninf fast smsat

/-! ### Entries and records (R77, R84) -/

theorem sx_mod (w v : Nat) : sx w (v % 2 ^ w) = sx w v := by simp only [sx, Nat.mod_mod]

/-- R67: the 643 bits of a quire are those of its Q and its WRAP. -/
theorem Quire.ofI_q_wrap {q : Quire} (h : q.w < 2 ^ 643) : ofI 643 (q.q + (q.wrap : Nat) * 2 ^ 640) = q.w := by
  have hw := q.w_eq
  rw [← Nat.mod_add_div ((q.w + 2 ^ 639) / 2 ^ 640) 8, ← q.wrap_eq] at hw
  have hx : (q.w : Int) = q.q + (q.wrap : Nat) * 2 ^ 640 + 2 ^ 643 * ((q.w + 2 ^ 639) / 2 ^ 640 / 8 : Nat) := by
    rw [hw, Int.natCast_add, Int.natCast_mul, Int.pow_add _ 640 3, Int.mul_add, Int.mul_comm (2 ^ 640) (q.wrap : Int), ← Int.mul_assoc,
      Int.add_assoc]
    rfl
  rw [ofI, ← Int.add_mul_emod_self_left, ← hx, Int.emod_eq_of_lt (Int.natCast_nonneg _) (by exact_mod_cast h), Int.toNat_natCast]

theorem Quire.tag_lt (q : Quire) : q.tag < 2 ^ 8 := tagByte_lt ..

theorem Quire.toEntry_lt (q : Quire) : q.toEntry < 2 ^ 648 := by
  have hq : q.w % 2 ^ 640 < 2 ^ 640 := Nat.mod_lt _ (Nat.two_pow_pos _)
  have ht := q.tag_lt
  calc q.toEntry < 2 ^ 640 + q.tag * 2 ^ 640 := Nat.add_lt_add_right hq _
    _ = (q.tag + 1) * 2 ^ 640 := by rw [Nat.add_mul, Nat.one_mul, Nat.add_comm]
    _ ≤ 2 ^ 8 * 2 ^ 640 := Nat.mul_le_mul_right _ ht
    _ = 2 ^ 648 := by rw [← Nat.pow_add]

/-- R77: an entry holds Q below its tag. -/
theorem Quire.toEntry_fields (q : Quire) : sx 640 q.toEntry = q.q ∧ bits q.toEntry 640 8 = q.tag := by
  constructor
  · rw [← sx_mod, Quire.toEntry, Nat.add_mul_mod_self_right, Nat.mod_mod, sx_mod, Quire.q]
  · rw [bits_eq, Quire.toEntry, Nat.add_mul_div_right _ _ (Nat.two_pow_pos _), Nat.div_eq_of_lt (Nat.mod_lt _ (Nat.two_pow_pos _)),
      Nat.zero_add, Nat.mod_eq_of_lt q.tag_lt]

/-- R77: the entry of a quire gives the quire back. -/
theorem Quire.ofEntry_toEntry {q : Quire} (h : q.w < 2 ^ 643) : Quire.ofEntry q.toEntry = q := by
  obtain ⟨hq, ht⟩ := q.toEntry_fields
  obtain ⟨hn, hp, hm, hw, hf, hs⟩ := tagByte_fields q.nar q.pinf q.ninf q.wrap q.fast q.smsat
  have hwrap : q.wrap % 8 = q.wrap := Nat.mod_mod _ 8
  rw [Quire.ofEntry, hq, ht, Quire.tag, hn, hp, hm, hw, hf, hs, hwrap, Quire.ofI_q_wrap h]

/-- R84: the record of a quire gives the quire back. -/
theorem Quire.ofRecord_toRecord {q : Quire} (h : q.w < 2 ^ 643) : Quire.ofRecord q.toRecord = q := by
  rw [Quire.ofRecord, Quire.toRecord, fieldLE_leBytes_append, Nat.mod_eq_of_lt, Quire.ofEntry_toEntry h]
  rw [show 256 = 2 ^ 8 by decide, ← Nat.pow_mul]
  exact q.toEntry_lt

@[simp] theorem Quire.toRecord_length (q : Quire) : q.toRecord.length = 96 := by simp [Quire.toRecord]

/-- R77: quires written to the accumulator store are read back. -/
theorem CellMem.quires_setQuires (c : CellMem) (a : Nat) {l : List Quire} (h : ∀ q ∈ l, q.w < 2 ^ 643) :
    (c.setQuires a l).quires a l.length = l := by
  have hs := sgetN_ssetN 0 c.acc a (l.map fun q => BitVec.ofNat 648 q.toEntry)
  rw [List.length_map] at hs
  rw [CellMem.quires, CellMem.setQuires, hs, List.map_map]
  refine List.map_congr_left (fun q hq => ?_) |>.trans (List.map_id l)
  rw [Function.comp_apply, BitVec.toNat_ofNat, Nat.mod_eq_of_lt q.toEntry_lt, Quire.ofEntry_toEntry (h q hq), id]

end Sys2Proof.Machine
end

section
/-! PROOFS (O31). Bytes of local memory: what reads and stores of an asynchronous operation leave and write (R182, R288). -/
namespace Sys2Proof.Machine

/-! ### Pieces of one length -/

theorem length_flatMap_of_const {α β : Type} {f : α → List β} {k : Nat} (hf : ∀ x, (f x).length = k) (l : List α) :
    (l.flatMap f).length = l.length * k := by
  induction l with
  | nil => exact (Nat.zero_mul k).symm
  | cons x l ih => rw [List.flatMap_cons, List.length_append, hf, ih, List.length_cons, Nat.add_mul, Nat.one_mul, Nat.add_comm]

/-- Piece `i` of the pieces joined, where all are of one length. -/
theorem take_drop_flatMap_of_const {α β : Type} {f : α → List β} {k : Nat} (hf : ∀ x, (f x).length = k) {l : List α} {i : Nat}
    {a : α} (ha : l[i]? = some a) : ((l.flatMap f).drop (k * i)).take k = f a := by
  induction l generalizing i with
  | nil => cases ha
  | cons x l ih =>
    rw [List.flatMap_cons]
    cases i with
    | zero =>
      obtain rfl : x = a := Option.some_inj.1 ha
      rw [Nat.mul_zero, List.drop_zero, List.take_left' (hf x)]
    | succ i =>
      have e : k * (i + 1) = (f x).length + k * i := by rw [hf, Nat.mul_add, Nat.mul_one, Nat.add_comm]
      rw [e, ← List.drop_drop, List.drop_left, ih ha]

/-! ### Errors met and corrected -/

/-- From `s` to `t` every byte stays, and the bindings of cells with it. -/
structure SameBytes (s t : State) : Prop extends KeepsBytes s t where
  img : t.img = s.img

section
variable {s t u : State}

theorem SameBytes.refl (s : State) : SameBytes s s := ⟨.refl s, rfl⟩

theorem SameBytes.trans (h : SameBytes s t) (k : SameBytes t u) : SameBytes s u :=
  ⟨h.toKeepsBytes.trans k.toKeepsBytes, k.img.trans h.img⟩

theorem SameBytes.modCell (s : State) (id : Nat) {f : CellMem → CellMem} (hf : ∀ c, (f c).lm = c.lm) : SameBytes s (s.modCell id f) :=
  ⟨.modCell s id hf, rfl⟩

theorem RegsOnly.sameBytes (h : RegsOnly s t) : SameBytes s t := ⟨h.bytes, h.img⟩

theorem SameBytes.phys (h : SameBytes s t) (id : Nat) : t.phys id = s.phys id := by
  unfold State.phys State.isBound State.failedRowOf
  rw [h.img]

theorem SameBytes.foldl {α : Type} {f : State → α → State} (hf : ∀ s x, SameBytes s (f s x)) (l : List α) (s : State) :
    SameBytes s (l.foldl f s) := by
  induction l generalizing s with
  | nil => exact .refl s
  | cons x l ih => exact (hf s x).trans (ih _)

end

theorem State.raiseCellScrub_regsOnly (s : State) (p : Nat) : RegsOnly s (s.raiseCellScrub p) := by
  unfold State.raiseCellScrub
  split
  · exact .refl s
  · exact (RegsOnly.refl s).wr _ _

/-- R288: a read corrects errors; no byte reads otherwise. -/
theorem State.lmTouch_sameBytes (s : State) (id off n : Nat) : SameBytes s (s.lmTouch id off n) := by
  refine .foldl (fun s w => ?_) _ s
  split
  · refine .trans ?_ (State.raiseCellScrub_regsOnly ..).sameBytes
    refine .trans ?_ ((RegsOnly.refl _).wr _ _).sameBytes
    exact .modCell s id fun _ => rfl
  · exact .refl s

/-- R93, R288: stores into local memory correct errors of words they cover in part, drop those of words they cover whole, and then
write their bytes. -/
theorem State.lmStores_eq (s : State) (id off : Nat) (bs : Bytes) : ∃ u, SameBytes s u ∧
    s.lmStores id [(off, bs)] = u.modCell id fun c => { c with lm := ssetN 0 c.lm off bs } := by
  refine ⟨_, .foldl (fun s w => ?_) _ s, rfl⟩
  split
  · exact .modCell s id fun _ => rfl
  · exact s.lmTouch_sameBytes ..

/-- R93: the bytes of one store are written, and every other byte of local memory stays. -/
theorem State.lmByte_lmStores (s : State) (id off : Nat) (bs : Bytes) (p o : Nat) : (s.lmStores id [(off, bs)]).lmByte p o =
    if p = s.phys id ∧ off ≤ o then (bs[o - off]?).getD (s.lmByte p o) else s.lmByte p o := by
  obtain ⟨u, hu, he⟩ := s.lmStores_eq id off bs
  rw [he, ← hu.phys id, ← hu.lm p o]
  simp only [State.lmByte, State.modCell, sget_smod]
  by_cases hp : p = u.phys id
  · simp only [hp, if_true, true_and, sget_ssetN]
  · simp only [hp, if_false, false_and]

@[simp] theorem State.phys_lmStores (s : State) (id off : Nat) (bs : Bytes) (i : Nat) : (s.lmStores id [(off, bs)]).phys i = s.phys i := by
  obtain ⟨u, hu, he⟩ := s.lmStores_eq id off bs
  rw [he]
  exact hu.phys i

/-- Bytes outside a store's range stay. -/
theorem State.lmByte_lmStores_out (s : State) (id off : Nat) (bs : Bytes) {p o : Nat}
    (h : p ≠ s.phys id ∨ o < off ∨ off + bs.length ≤ o) : (s.lmStores id [(off, bs)]).lmByte p o = s.lmByte p o := by
  rw [State.lmByte_lmStores]
  split
  · next hin =>
    obtain ⟨hp, ho⟩ := hin
    have hpast : off + bs.length ≤ o := (h.resolve_left (absurd hp)).resolve_left (by omega)
    rw [List.getElem?_eq_none (by omega)]
    rfl
  · rfl

/-- A range inside a store's range reads as the bytes stored there. -/
theorem State.read_lmStores (s : State) (id off : Nat) {bs : Bytes} {a n : Nat} (h : a + n ≤ bs.length) :
    ((s.lmStores id [(off, bs)]).cell id).read (off + a) n = (bs.drop a).take n := by
  refine List.ext_getElem? fun b => ?_
  by_cases hb : b < n
  · have hread : (((s.lmStores id [(off, bs)]).cell id).read (off + a) n)[b]? =
        some ((s.lmStores id [(off, bs)]).lmByte (s.phys id) (off + a + b)) := by
      rw [← State.phys_lmStores s id off bs]
      exact sgetN_getElem? _ _ _ _ _ hb
    rw [hread, State.lmByte_lmStores, if_pos ⟨rfl, by omega⟩, List.getElem?_take_of_lt hb, List.getElem?_drop,
      show off + a + b - off = a + b by omega, List.getElem?_eq_getElem (by omega)]
    rfl
  · rw [List.getElem?_eq_none (by rw [CellMem.read, sgetN_length]; omega), List.getElem?_eq_none (by rw [List.length_take]; omega)]

/-- R182: reads of a cell without errors meet none and change nothing. -/
theorem State.lmReads_clean {s : State} {id : Nat} (h : (s.cell id).lmErr = []) (l : List (Nat × Nat)) : s.lmReads id l = (s, false) := by
  have hz : ∀ w, sget 0 (s.cell id).lmErr w = 0 := fun w => by rw [h]; rfl
  have ht : l.foldl (fun s r => s.lmTouch id r.1 r.2) s = s := by
    induction l with
    | nil => rfl
    | cons r l ih => rw [List.foldl_cons, lmTouch_clean s id r.1 r.2 fun w _ => hz w]; exact ih
  rw [State.lmReads, if_neg, ht]
  simp [uce_clean _ _ _ fun w _ => hz w]

/-- R182: a write of a cell without errors merges with none. -/
theorem State.lmPut_clean {s : State} {id : Nat} (h : (s.cell id).lmErr = []) (off : Nat) (bs : Bytes) :
    s.lmPut id off bs = (s.lmStores id [(off, bs)], false) := by
  rw [State.lmPut, if_neg]
  simp [CellMem.partUce, h, sget]

end Sys2Proof.Machine
end

section
/-! PROOFS (O31). A STRICT pass with FIRST and without LAST: the records that it leaves in PSUM (R173). -/
namespace Sys2Proof.Machine

/-! ### Operands -/

theorem CellMem.tdElem_congr {c c' : CellMem} (h : c'.lm = c.lm) (b : Bytes) (row r col : Nat) :
    c'.tdElem b row r col = c.tdElem b row r col := by
  simp only [CellMem.tdElem, CellMem.read, h]

theorem CellMem.wdElem_congr {c c' : CellMem} (h : c'.lm = c.lm) (w src : Bytes) (oy ox t cb ch : Nat) :
    c'.wdElem w src oy ox t cb ch = c.wdElem w src oy ox t cb ch := by
  unfold CellMem.wdElem
  split
  · rfl
  · rfl
  · exact CellMem.tdElem_congr h ..

/-- R167: operands are bytes of local memory. -/
theorem PassIn.aVal_congr (i : PassIn) {c c' : CellMem} (h : c'.lm = c.lm) (m n k : Nat) : i.aVal c' m n k = i.aVal c m n k := by
  unfold PassIn.aVal
  split
  · exact CellMem.wdElem_congr h ..
  · exact CellMem.tdElem_congr h ..

theorem PassIn.bVal_congr (i : PassIn) {c c' : CellMem} (h : c'.lm = c.lm) (n k : Nat) : i.bVal c' n k = i.bVal c n k :=
  CellMem.tdElem_congr h ..

/-- R173: the products of an element, where no position is an outlier's. -/
def PassIn.plainProducts (i : PassIn) (c : CellMem) (m n : Nat) : List Val :=
  (List.range (mdKlen i.d)).map fun k => if i.void m then .zero else (i.aVal c m n k).mul (i.bVal c n k)

theorem PassIn.plainProducts_congr (i : PassIn) {c c' : CellMem} (h : c'.lm = c.lm) (m n : Nat) :
    i.plainProducts c' m n = i.plainProducts c m n := by
  simp only [PassIn.plainProducts, i.aVal_congr h, i.bVal_congr h]

/-- R70, R173: without group scales and outliers, an element's terms are its products. -/
theorem PassIn.terms_plain {i : PassIn} (hg : mdGsize i.d = 0) (ho : mdOutliers i.d = 0) (c : CellMem) (m n : Nat) :
    i.terms c m n = ⟨[], i.plainProducts c m n⟩ := by
  have hout : ∀ k, i.isOutlier k = false := fun k => by rw [PassIn.isOutlier, ho]; rfl
  have hterms : i.outlierTerms m n = [] := by
    rw [PassIn.outlierTerms, ho]
    exact ite_self []
  simp only [PassIn.terms, hg, hterms, PassIn.products, hout, Bool.or_false, BEq.rfl, if_true]
  rfl

/-! ### Elements of a tile -/

theorem Shape.elems_getElem? (x : Shape) {m n : Nat} (hm : m < x.m) (hn : n < x.n) : x.elems[m * x.n + n]? = some (m, n) := by
  have hrow : ∀ m : Nat, ((List.range x.n).map fun n => (m, n)).length = x.n := by simp
  have h := congrArg (·[n]?) (take_drop_flatMap_of_const (i := m) hrow (List.getElem?_range hm))
  rw [Nat.mul_comm, Shape.elems]
  simpa [hn] using h

theorem Shape.elems_length (x : Shape) : x.elems.length = x.e := by
  rw [Shape.elems, length_flatMap_of_const (k := x.n) (by simp), List.length_range, Shape.e]

/-- R173: the records of a pass over quires of zero, element by element. -/
def PassIn.records (i : PassIn) (c : CellMem) : Bytes :=
  i.x.elems.flatMap fun e => (Quire.addAll {} (i.plainProducts c e.1 e.2)).toRecord

theorem PassIn.records_length (i : PassIn) (c : CellMem) : (i.records c).length = 96 * i.x.e := by
  rw [PassIn.records, length_flatMap_of_const fun _ => Quire.toRecord_length _, Shape.elems_length, Nat.mul_comm]

theorem PassIn.records_slice (i : PassIn) (c : CellMem) {m n : Nat} (hm : m < i.x.m) (hn : n < i.x.n) :
    ((i.records c).drop (96 * (m * i.x.n + n))).take 96 = (Quire.addAll {} (i.plainProducts c m n)).toRecord := by
  have hf : ∀ e : Nat × Nat, ((Quire.addAll {} (i.plainProducts c e.1 e.2)).toRecord).length = 96 := fun _ => Quire.toRecord_length _
  have h := take_drop_flatMap_of_const hf (i.x.elems_getElem? hm hn)
  rw [PassIn.records, h]

theorem PassIn.records_congr (i : PassIn) {c c' : CellMem} (h : c'.lm = c.lm) : i.records c' = i.records c := by
  simp only [PassIn.records, i.plainProducts_congr h]

/-! ### The pass -/

@[simp] theorem CellMem.beginTile_lmErr (c : CellMem) {t : Tile} (e : Nat) (hf : t.fast = false) : (c.beginTile t e).lmErr = c.lmErr := by
  simp only [CellMem.beginTile, hf, Bool.false_eq_true, if_false, CellMem.setQuires]

/-- R172: a STRICT tile begins with quires of zero. -/
theorem CellMem.quires_beginTile (c : CellMem) {t : Tile} (e : Nat) (hf : t.fast = false) :
    (c.beginTile t e).quires t.acc e = List.replicate e {} := by
  have h := CellMem.quires_setQuires { c with tiles := c.tiles ++ [t] } t.acc (l := List.replicate e ({} : Quire))
    fun q hq => (List.eq_of_mem_replicate hq) ▸ Nat.two_pow_pos _
  rw [List.length_replicate] at h
  simpa only [CellMem.beginTile, hf, Bool.false_eq_true, if_false] using h

/-- A pass with FIRST and without LAST, group scales and outliers. -/
structure PassIn.Plain (i : PassIn) : Prop where
  first : mdFirst i.d = true
  last : mdLast i.d = false
  gsize : mdGsize i.d = 0
  outliers : mdOutliers i.d = 0

section
variable {s : State} {id : Nat} {i : PassIn} {run : AsyncRun}

theorem andThen_ok (s : State) (f : State → State × Bool) : andThen (s, false) f = f s := rfl

/-- R172, R173: a STRICT pass with FIRST begins a tile of zero quires and leaves local memory as it is. -/
theorem State.passBegin_strictFirst (hf : mdFirst i.d = true) (hm : modeFast run.op.mode = false) : ∃ u,
    s.passBegin id i run.op = (u, false) ∧ SameBytes s u ∧ (u.cell id).lm = (s.cell id).lm ∧ (u.cell id).lmErr = (s.cell id).lmErr ∧
      (u.cell id).quires (mdAcc i.d) i.x.e = List.replicate i.x.e {} := by
  simp only [State.passBegin, hf, hm, if_true, Bool.false_eq_true, if_false]
  refine ⟨_, rfl, .modCell s id fun c => CellMem.beginTile_lm .., ?_⟩
  rw [cell_modCell_same]
  exact ⟨CellMem.beginTile_lm .., CellMem.beginTile_lmErr _ _ rfl, CellMem.quires_beginTile _ _ rfl⟩

/-- R173: a plain STRICT pass over quires of zero stores its records in PSUM. -/
theorem State.strictPass_plain (h : i.Plain) (herr : (s.cell id).lmErr = [])
    (hq : (s.cell id).quires (mdAcc i.d) i.x.e = List.replicate i.x.e {}) :
    ∃ u, SameBytes s u ∧ s.strictPass id i run = (u.lmStores id [(mdPsum i.d, i.records (s.cell id))], false) := by
  have hz : i.x.elems.zip (List.replicate i.x.e ({} : Quire)) = i.x.elems.map fun e => (e, {}) := by
    rw [← i.x.elems_length, ← List.map_const']
    simpa using List.zip_map' (f := fun e => e) (g := fun _ => ({} : Quire)) (l := i.x.elems)
  simp only [State.strictPass, h.last, h.gsize, i.terms_plain h.gsize h.outliers, hq, hz, Bool.false_eq_true, if_false, BEq.rfl,
    if_true, List.nil_append, List.map_map, List.flatMap_map]
  refine ⟨_, .modCell s id fun _ => ?lm, State.lmPut_clean ?err _ _⟩
  case lm => rfl
  case err =>
    rw [cell_modCell_same]
    exact herr

end

/-- R173: what a pass with FIRST reads. -/
def AsyncRun.firstPass (run : AsyncRun) (x : Shape) : PassIn :=
  { d := run.desc, a := run.tensors.getD 0 [], src := run.tensors.getD 1 [], b := run.tensors.getD 2 [],
    c := run.tensors.getD 3 [], o := run.tensors.getD 4 [], x := x, done := 0 }

/-- R172, R173: a plain STRICT pass whose cell has no errors stores in PSUM the sums of its products, and changes no other byte. -/
theorem State.mxPass_strictFirst {s : State} {id : Nat} {run : AsyncRun} {x : Shape} (h : (run.firstPass x).Plain)
    (hs : shapeOf (mdShape run.desc) = some x) (hm : modeFast run.op.mode = false) (herr : (s.cell id).lmErr = []) :
    ∃ u, SameBytes s u ∧
      s.mxPass id run = (u.lmStores id [(mdPsum run.desc, (run.firstPass x).records (s.cell id))], false) := by
  obtain ⟨u, hb, hu, hlm, hle, hq⟩ := State.passBegin_strictFirst (s := s) (id := id) h.first hm
  have hfirst : mdFirst run.desc = true := h.first
  have he : s.mxPass id run = andThen (s.passBegin id (run.firstPass x) run.op) fun s =>
      andThen (s.lmReads id (run.firstPass x).reads) fun s => s.strictPass id (run.firstPass x) run := by
    simp only [State.mxPass, hs, hm, hfirst, if_true, Bool.false_eq_true, if_false]
    rfl
  obtain ⟨v, hv, hp⟩ := State.strictPass_plain (run := run) h (hle.trans herr) hq
  refine ⟨v, hu.trans hv, ?_⟩
  rw [he, hb, andThen_ok, State.lmReads_clean (hle.trans herr), andThen_ok, hp, PassIn.records_congr _ hlm]
  rfl

end Sys2Proof.Machine
end

section
/-! PROOFS (O31). The STRICT quire, put together. -/
namespace Sys2Proof.Machine

/-- Settles O31: a quire's 643 bits are the sum of what was added, and tell Q and WRAP (R65 to R68); additions commute; the record
holds both and the tag (R84); a STRICT pass with FIRST adds the products of each element to a quire of zero and stores the records
in PSUM (R173). -/
theorem strictQuire : Obligations.StrictQuire := by
  unfold Obligations.StrictQuire
  refine ⟨fun l he => ?sum, fun q l m => q.addAll_perm, fun q l => q.read_addAll_nar, fun q => Quire.ofRecord_toRecord, ?pass⟩
  case sum =>
    have hw : (2 : Int) ^ 639 ≤ 2 ^ 642 := by omega
    refine ⟨fun lo hi => ?_, fun lo hi hout => ?_⟩
    · exact (Quire.read_addAll_fin he rfl (Int.le_trans (Int.neg_le_neg hw) lo) (Int.lt_of_lt_of_le hi hw)).trans (if_pos ⟨lo, hi⟩)
    · exact (Quire.read_addAll_fin he rfl lo hi).trans (if_neg hout)
  case pass =>
    intro s id run sh d t i r hs hf hl hg ho hm herr
    obtain ⟨u, hu, hr⟩ := State.mxPass_strictFirst (id := id) (run := run) (x := sh) ⟨hf, hl, hg, ho⟩ hs hm herr
    have hr : r = (u.lmStores id [(mdPsum d, i.records (s.cell id))], false) := hr
    have hlen : (i.records (s.cell id)).length = 96 * sh.e := PassIn.records_length ..
    rw [hr]
    refine ⟨rfl, fun m n hm hn => ?_, fun p o hpo => ?_⟩
    · have hin : m * sh.n + n < sh.e := by
        calc m * sh.n + n < (m + 1) * sh.n := by rw [Nat.add_mul, Nat.one_mul]; omega
          _ ≤ sh.m * sh.n := Nat.mul_le_mul_right _ hm
      rw [State.read_lmStores _ _ _ (by omega)]
      exact PassIn.records_slice i _ hm hn
    · rw [State.lmByte_lmStores_out _ _ _ _ (by rw [hu.phys, hlen]; exact hpo), hu.lm]

end Sys2Proof.Machine
end

section
/-! PROOFS (O15). Fences and waits (R101, R160). -/
namespace Sys2Proof.Machine

/-- R120: the commit of an instruction that changes nothing but its swarm's offset, where nothing is due at the boundary. -/
theorem commit_quiet {s : State} {id k : Nat} (h1 : (s.swarm id k).asyncFaults = []) (h2 : (s.swarm id k).parkReq = none) :
    s.commit id k = s.modSwarm id k fun w => w.advance none := by
  unfold State.commit
  apply boundary_quiet
  · rw [swarm_modSwarm_same, advance_asyncFaults, h1]
  · rw [swarm_modSwarm_same, advance_parkReq, h2]

theorem commit_onlySwarm {s : State} {id k : Nat} (h1 : (s.swarm id k).asyncFaults = []) (h2 : (s.swarm id k).parkReq = none) :
    OnlySwarm s (s.commit id k) id k ∧ (s.commit id k).swarm id k = (s.swarm id k).advance none := by
  rw [commit_quiet h1 h2]
  exact ⟨onlySwarm_modSwarm .., swarm_modSwarm_same ..⟩

/-- R126: nothing is due at the boundary after an instruction at which a swarm stands. -/
theorem quiet_of_stands {s : State} {id k x : Nat} {isC isBranch : Bool} (h : s.stands id k x isC isBranch = true) :
    (s.swarm id k).asyncFaults = [] ∧ (s.swarm id k).parkReq = none := by
  obtain ⟨_, _, _, _, _, _, _, h1, h2⟩ := (stands_iff ..).mp h
  exact ⟨h1, h2⟩

section
variable {s : State} {id k : Nat}

/-- R101: the fence of FN `fn` waits for the accesses within its scope, and then commits. -/
theorem fence_eq {fn : Nat} (hfn : fn ≤ 2) (h : s.stands id k (rWord 0x55 0 fn 0 0 0 0) true false = true) :
    s.fence id k fn = if fn != 0 && s.outstanding id k fn then s else s.commit id k := by
  obtain ⟨hop, hg, hf, hd, ha, hb, hc, hl⟩ := rWord_fields (op := 0x55) (g := 0) (fn := fn) (d := 0) (a := 0) (b := 0) (c := 0)
    (by decide) (by decide) (by omega) (by decide) (by decide) (by decide) (by decide)
  have hz : bits (rWord 0x55 0 fn 0 0 0 0) 16 32 = 0 := by simp only [rWord, bits_eq]; omega
  refine issue_stands h ?_ ?_ (fun h => by cases h) rfl rfl
  · simp [isOp, hop, hf]
  · simp [firstBad, hg, hf, hz, hl, hfn]

theorem outstanding_eq_false {fn : Nat} (h : ∀ p ∈ s.pkts, p.isOf id k = true → fn < p.origin.scope) :
    s.outstanding id k fn = false := by
  refine List.any_eq_false.2 fun p hp => ?_
  cases hi : p.isOf id k
  · simp
  · simpa using h p hp hi

theorem outstanding_eq_true {fn : Nat} (h : ∃ p ∈ s.pkts, p.isOf id k = true ∧ p.origin.scope ≤ fn) :
    s.outstanding id k fn = true := by
  obtain ⟨p, hp, hi, hs⟩ := h
  exact List.any_eq_true.2 ⟨p, hp, by simp [hi, hs]⟩

end

/-- R160: WAIT waits while a named counter is not zero, and then commits. -/
theorem execWait_eq {s : State} {cell : BitVec 10} {slot : BitVec 4} {tokens : Nat} (ht : tokens < 2 ^ 16)
    (h : s.stands cell.toNat slot.toNat (iWord 0x56 0 0 0 0 tokens) true false = true) :
    execWait cell slot s = .next (if (List.range 16).any fun t => bitAt tokens t && (s.swarm cell.toNat slot.toNat).token t != 0
      then s else s.commit cell.toNat slot.toNat) := by
  obtain ⟨hop, hg, hf, hd, ha, hi⟩ := iWord_fields (op := 0x56) (g := 0) (fn := 0) (d := 0) (a := 0) (imm := tokens)
    (by decide) (by decide) (by decide) (by decide) (by decide) (by omega)
  have hz : bits (iWord 0x56 0 0 0 0 tokens) 16 32 = 0 := by simp only [iWord, bits_eq]; omega
  have hb : ∀ t ∈ List.range 16, bitAt (iWord 0x56 0 0 0 0 tokens) t = bitAt tokens t := fun t h => by
    have h := List.mem_range.1 h
    have hbit := congrArg (Nat.testBit · t) hi
    simp only [wImm, testBit_bits, Nat.zero_add, decide_eq_true (show t < 32 by omega), Bool.true_and] at hbit
    rw [bitAt_eq, bitAt_eq, hbit]
  refine congrArg Host.Outcome.next ((issue_stands h ?_ ?_ (fun h => by cases h) rfl rfl).trans ?_)
  · simp [isOp, hop]
  · simp [firstBad, hg, hf, hz]
  · have e : ((List.range 16).any fun t => bitAt (iWord 0x56 0 0 0 0 tokens) t && (s.swarm cell.toNat slot.toNat).token t != 0) =
        (List.range 16).any fun t => bitAt tokens t && (s.swarm cell.toNat slot.toNat).token t != 0 := by
      rw [Bool.eq_iff_iff, List.any_eq_true, List.any_eq_true]
      exact exists_congr fun t => and_congr_right fun ht => by rw [hb t ht]
    dsimp only
    rw [e]

/-- Settles O15: a fence commits once no access within its scope is outstanding, WAIT once every named counter reads zero; until then
each changes nothing (R101, R160). -/
theorem fencesAndWaits : Obligations.FencesAndWaits := by
  unfold Obligations.FencesAndWaits
  intro s cell slot tokens id k w commits
  have commits_of {i : Instr} {x : Nat} (h : s.stands id k x true false = true) (e : exec i s = .next (s.commit id k)) : commits i :=
    ⟨_, e, commit_onlySwarm (quiet_of_stands h).1 (quiet_of_stands h).2⟩
  refine ⟨fun h => ?l, fun h => ⟨fun hp => ?c, fun hp => ?cw⟩, fun h => ⟨fun hp => ?d, fun hp => ?dw⟩,
    fun ht h => ⟨fun hz => ?w, fun hz => ?ww⟩⟩
  case l => exact commits_of h (congrArg _ (fence_eq (by decide) h))
  case c => exact commits_of h (congrArg _ ((fence_eq (by decide) h).trans (by simp [outstanding_eq_false hp])))
  case cw => exact congrArg _ ((fence_eq (by decide) h).trans (by simp [outstanding_eq_true hp]))
  case d => exact commits_of h (congrArg _ ((fence_eq (by decide) h).trans (by simp [outstanding_eq_false hp])))
  case dw => exact congrArg _ ((fence_eq (by decide) h).trans (by simp [outstanding_eq_true hp]))
  case w =>
    refine commits_of h ((execWait_eq ht h).trans (congrArg _ (if_neg ?_)))
    simpa using hz
  case ww =>
    refine (execWait_eq ht h).trans (congrArg _ (if_pos ?_))
    simpa using hz

end Sys2Proof.Machine
end

section
/-! PROOFS (O29). The issue and the start of matrix operations and transfers (R94, R154, R164, R181, R199). -/
namespace Sys2Proof.Machine

/-! ### A cell changed twice, and one swarm of a cell changed -/

theorem modCell_modCell (s : State) (id : Nat) (f g : CellMem → CellMem) :
    (s.modCell id f).modCell id g = s.modCell id fun c => g (f c) := by
  show { s with cells := smod {} (smod {} s.cells (s.phys id) f) (s.phys id) g } = { s with cells := smod {} s.cells (s.phys id) (g ∘ f) }
  rw [smod_smod_same]

/-- A change of a cell that leaves all its swarms but one leaves every other swarm of the device. -/
theorem keepsSwarms_modCell {s : State} {id k : Nat} {f : CellMem → CellMem} (hf : ∀ c j, j ≠ k → (f c).swarm j = c.swarm j) :
    KeepsSwarms s (s.modCell id f) id k := by
  intro i j h
  show ((s.modCell id f).cell i).swarm j = (s.cell i).swarm j
  rw [cell_modCell]
  split
  · next hp => rw [hf _ _ (h.resolve_left (absurd hp)), State.cell, State.cell, hp]
  · rfl

/-- A raised high-water mark changes registers alone. -/
theorem State.high_eq (s : State) (f : RegField) (v : Nat) : ∃ r, s.high f v = { s with regs := r } := by
  unfold State.high
  split
  · exact ⟨_, rfl⟩
  · exact ⟨s.regs, rfl⟩

theorem advance_tokens (w : Swarm) (br : Option (Bool × Nat)) (x : Sparse Nat) :
    ({ w with tokens := x } : Swarm).advance br = { w.advance br with tokens := x } := by
  unfold Swarm.advance
  cases br <;> dsimp only
  all_goals
    split
    · rfl
    · split <;> rfl

/-! ### Issue -/

/-- R164: an operation joins the queue of the matrix unit or of the transfer engine. -/
def CellMem.enqueue (c : CellMem) (mx : Bool) (o : AsyncOp) : CellMem :=
  if mx then { c with mxQueue := c.mxQueue ++ [o] } else { c with agQueue := c.agQueue ++ [o] }

@[simp] theorem CellMem.enqueue_lm (c : CellMem) (mx : Bool) (o : AsyncOp) : (c.enqueue mx o).lm = c.lm := by
  cases mx <;> rfl

@[simp] theorem CellMem.enqueue_swarm (c : CellMem) (mx : Bool) (o : AsyncOp) (j : Nat) : (c.enqueue mx o).swarm j = c.swarm j := by
  cases mx <;> rfl

/-- R94: a token's count goes up by one. -/
def Swarm.countUp (w : Swarm) (t : Nat) : Swarm := { w with tokens := sset 0 w.tokens t (w.token t + 1) }

theorem Swarm.token_countUp (w : Swarm) (t n : Nat) : (w.countUp t).token n = w.token n + if n = t then 1 else 0 := by
  show sget 0 (sset 0 w.tokens t (w.token t + 1)) n = _
  rw [sget_sset]
  split
  · next h => rw [h]
  · rfl

/-- The cell in which a swarm's instruction has issued an operation and committed. -/
def CellMem.issueOp (c : CellMem) (mx : Bool) (o : AsyncOp) : CellMem :=
  (c.enqueue mx o).modSwarm o.slot fun w => (w.countUp o.token).advance none

/-- R94, R120: an issue and its commit change one cell and a high-water mark. -/
theorem asyncIssue_commit {s : State} {id : Nat} {o : AsyncOp} (mx : Bool) (h1 : (s.swarm id o.slot).asyncFaults = [])
    (h2 : (s.swarm id o.slot).parkReq = none) : ∃ r, (s.asyncIssue id mx o).commit id o.slot =
      { s.modCell id fun c => c.issueOp mx o with regs := r } := by
  have he : ∃ r, s.asyncIssue id mx o = { s.modCell id fun c => (c.enqueue mx o).modSwarm o.slot fun w => w.countUp o.token with
      regs := r } := by
    unfold State.asyncIssue
    obtain ⟨r, hr⟩ := State.high_eq ((s.modSwarm id o.slot fun w => w.countUp o.token).modCell id fun c => c.enqueue mx o)
      (Reg.cellSbStatusHighWater (s.phys id))
      ((((s.modSwarm id o.slot fun w => w.countUp o.token).modCell id fun c => c.enqueue mx o)).cell id).inFlight
    refine ⟨r, hr.trans ?_⟩
    rw [State.modSwarm, modCell_modCell]
    cases mx <;> rfl
  obtain ⟨r, hr⟩ := he
  have hw : (s.asyncIssue id mx o).swarm id o.slot = (s.swarm id o.slot).countUp o.token := by
    rw [hr]
    show ((s.modCell id fun c => (c.enqueue mx o).modSwarm o.slot fun w => w.countUp o.token).cell id).swarm o.slot = _
    rw [cell_modCell_same, CellMem.swarm_modSwarm_same, CellMem.enqueue_swarm]
    rfl
  refine ⟨r, ?_⟩
  rw [commit_quiet (by rw [hw]; exact h1) (by rw [hw]; exact h2), hr]
  have h3 := modCell_modCell s id (fun c => (c.enqueue mx o).modSwarm o.slot fun w => w.countUp o.token) fun c =>
    c.modSwarm o.slot fun w => w.advance none
  simp only [CellMem.modSwarm_modSwarm] at h3
  exact congrArg (fun t : State => { t with regs := r }) h3

/-- R94: the operation that slot `k` issues under token `tok`, with the operand in uniform register `a`. -/
def Swarm.asyncOp (w : Swarm) (k tok a : Nat) : AsyncOp := { slot := k, token := tok, pc := w.pc, operand := w.ureg a, mode := w.mode }

/-- R94, R154: an MX or XFER whose word is valid issues its operation where there is room for it, and else waits. -/
theorem asyncInsn_eq {s : State} {id k opc tok a : Nat} (mx : Bool) (hopc : opc < 256) (ht : tok < 16) (ha : a < 64)
    (h : s.stands id k (iWord opc 0 0 (16 * tok) a 0) false false = true) : s.asyncInsn id k opc mx =
      if s.roomFor id k tok then (s.asyncIssue id mx ((s.swarm id k).asyncOp k tok a)).commit id k else s := by
  obtain ⟨hop, hg, hf, hd, hA, hi⟩ := iWord_fields (op := opc) (g := 0) (fn := 0) (d := 16 * tok) (a := a) (imm := 0)
    hopc (by decide) (by decide) (by omega) (by omega) (by decide)
  have hlow : bits (iWord opc 0 0 (16 * tok) a 0) 40 4 = 0 := by simp only [iWord, bits_eq]; omega
  have htok : bits (iWord opc 0 0 (16 * tok) a 0) 44 4 = tok := by simp only [iWord, bits_eq]; omega
  unfold State.asyncInsn
  rw [issue_stands h (by simp [isOp, hop]) (by simp [encT, firstBad, hg, hf, hlow, hA, hi, okU, ha]) (fun h => by cases h) rfl rfl]
  simp only [htok, hA, Swarm.asyncOp]

/-- What the issue of `o` by swarm `k` leaves: the bytes, the other swarms, the packets, and its own swarm but for a token. -/
theorem issueOp_effect {s : State} {id k tok : Nat} {o : AsyncOp} (mx : Bool) (r : Sparse Word) (hk : o.slot = k) (ht : o.token = tok) :
    let t : State := { s.modCell id fun c => c.issueOp mx o with regs := r }
    (KeepsBytes s t ∧ KeepsSwarms s t id k ∧ t.pkts = s.pkts ∧
      t.swarm id k = { (s.swarm id k).advance none with tokens := (t.swarm id k).tokens } ∧
      ∀ n, (t.swarm id k).token n = (s.swarm id k).token n + if n = tok then 1 else 0) ∧
    (t.cell id).mxQueue = ((s.cell id).enqueue mx o).mxQueue ∧ (t.cell id).agQueue = ((s.cell id).enqueue mx o).agQueue := by
  subst hk ht
  intro t
  have hc : t.cell id = (s.cell id).issueOp mx o := cell_modCell_same s id fun c => c.issueOp mx o
  have hw : t.swarm id o.slot = { (s.swarm id o.slot).advance none with tokens := ((s.swarm id o.slot).countUp o.token).tokens } := by
    rw [State.swarm, hc, CellMem.issueOp, CellMem.swarm_modSwarm_same, CellMem.enqueue_swarm]
    exact advance_tokens ..
  have hb : KeepsBytes s (s.modCell id fun c => c.issueOp mx o) := .modCell s id fun c => c.enqueue_lm mx o
  have hs : KeepsSwarms s (s.modCell id fun c => c.issueOp mx o) id o.slot := keepsSwarms_modCell fun c j hj => by
    rw [CellMem.issueOp, CellMem.swarm_modSwarm_ne _ _ hj, CellMem.enqueue_swarm]
  refine ⟨⟨⟨hb.hbm, hb.host, hb.lm⟩, hs, rfl, by rw [hw], fun n => ?_⟩, by rw [hc]; rfl, by rw [hc]; rfl⟩
  rw [hw]
  exact Swarm.token_countUp ..

/-- R94, R154: MX and XFER, where the scoreboard and the token have room and where they have not. -/
theorem asyncInsn_effect {s : State} {id k opc tok a : Nat} (mx : Bool) (hopc : opc < 256) (ht : tok < 16) (ha : a < 64)
    (h : s.stands id k (iWord opc 0 0 (16 * tok) a 0) false false = true) :
    let w := s.swarm id k
    let o := w.asyncOp k tok a
    ((s.cell id).inFlight < 256 → w.token tok < 255 → ∃ r, s.asyncInsn id k opc mx = { s.modCell id fun c => c.issueOp mx o with regs := r }) ∧
    (¬ ((s.cell id).inFlight < 256 ∧ w.token tok < 255) → s.asyncInsn id k opc mx = s) := by
  intro w o
  have hroom : s.roomFor id k tok = true ↔ (s.cell id).inFlight < 256 ∧ w.token tok < 255 := by simp [State.roomFor, w]
  rw [asyncInsn_eq mx hopc ht ha h]
  refine ⟨fun h1 h2 => ?_, fun hn => if_neg fun hr => hn (hroom.1 hr)⟩
  rw [if_pos (hroom.2 ⟨h1, h2⟩)]
  exact asyncIssue_commit (o := o) mx (quiet_of_stands h).1 (quiet_of_stands h).2

/-! ### Start -/

theorem touchAll_sameBytes (s : State) (id : Nat) (l : List Nat) : SameBytes s (s.touchAll id l) :=
  .foldl (fun s a => s.lmTouch_sameBytes id a 64) l s

/-- R288: the start of an operation whose checks fail is told of the error only if an uncorrectable word made them fail. -/
theorem told_keepsBytes (s : State) (id code : Nat) (h : code ≠ 0x300A) :
    KeepsBytes s (if code == 0x300A then s.lmUceTold id else s) := by
  rw [if_neg (by simpa using h)]
  exact .refl s

/-- R164, R181: what MX_START does where no matrix operation runs and no table command is in progress. -/
theorem mxStart_effect {s : State} {id : Nat} {o : AsyncOp} {rest : List AsyncOp} (hr : (s.cell id).mxRun = none)
    (hq : (s.cell id).mxQueue = o :: rest) (ht : (s.cell id).tabCmd = none) : ∃ r,
    ((s.mxStart id).cell id).mxQueue = rest ∧ ((s.mxStart id).cell id).mxRun = some r ∧ r.op = o ∧
    (∀ e, (s.cell id).mxChecks (s.cell id).tables o = .error e → r.fault = some e ∧ (e.1 ≠ 0x300A → KeepsBytes s (s.mxStart id))) ∧
    (∀ d ts, (s.cell id).mxChecks (s.cell id).tables o = .ok (d, ts) →
      r.fault = none ∧ r.desc = d ∧ r.tensors = ts ∧ KeepsBytes s (s.mxStart id)) := by
  unfold State.mxStart
  simp only [hr, hq, ht, State.tabView]
  rcases hc : (s.cell id).mxChecks (s.cell id).tables o with e | ⟨d, ts⟩
  · refine ⟨_, by rw [cell_modCell_same], by rw [cell_modCell_same], rfl, fun _ h => ?_, fun _ _ h => by cases h⟩
    cases h
    exact ⟨rfl, fun h => (told_keepsBytes s id e.1 h).trans (.modCell _ id fun _ => rfl)⟩
  · refine ⟨_, by rw [cell_modCell_same], by rw [cell_modCell_same], rfl, fun _ h => (by cases h), fun _ _ h => ?_⟩
    cases h
    exact ⟨rfl, rfl, rfl, (touchAll_sameBytes ..).toKeepsBytes.trans (.modCell _ id fun _ => rfl)⟩

/-- R164, R199: what XFER_START does where no transfer runs. -/
theorem xferStart_effect {s : State} {id : Nat} {o : AsyncOp} {rest : List AsyncOp} (hr : (s.cell id).agRun = none)
    (hq : (s.cell id).agQueue = o :: rest) : ∃ r,
    ((s.xferStart id).cell id).agQueue = rest ∧ ((s.xferStart id).cell id).agRun = some r ∧ r.op = o ∧
    (∀ e, (s.cell id).xfChecks id o = .error e → r.fault = some e ∧ (e.1 ≠ 0x300A → KeepsBytes s (s.xferStart id))) ∧
    (∀ d ts, (s.cell id).xfChecks id o = .ok (d, ts) →
      r.fault = none ∧ r.desc = d ∧ r.tensors = ts ∧ KeepsBytes s (s.xferStart id)) := by
  unfold State.xferStart
  simp only [hr, hq]
  rcases hc : (s.cell id).xfChecks id o with e | ⟨d, ts⟩
  · refine ⟨_, by rw [cell_modCell_same], by rw [cell_modCell_same], rfl, fun _ h => ?_, fun _ _ h => by cases h⟩
    cases h
    exact ⟨rfl, fun h => (told_keepsBytes s id e.1 h).trans (.modCell _ id fun _ => rfl)⟩
  · refine ⟨_, by rw [cell_modCell_same], by rw [cell_modCell_same], rfl, fun _ h => (by cases h), fun _ _ h => ?_⟩
    cases h
    exact ⟨rfl, rfl, rfl, (touchAll_sameBytes ..).toKeepsBytes.trans (.modCell _ id fun _ => rfl)⟩

/-- Settles O29: MX and XFER issue where there is room and else wait; MX_START and XFER_START take the operation at the front. -/
theorem asyncIssue : Obligations.AsyncIssue := by
  unfold Obligations.AsyncIssue
  intro s cell slot tok a id k w c op issued ht ha
  refine ⟨fun h => ⟨fun h1 h2 => ?mx, fun hn => ?mxWaits⟩, fun h => ⟨fun h1 h2 => ?xfer, fun hn => ?xferWaits⟩,
    fun hrun o rest => ⟨fun hr hq htab => ?mxStart, fun hr hq => ?xferStart⟩⟩
  case mx =>
    obtain ⟨r, e⟩ := (asyncInsn_effect true (by decide) ht ha h).1 h1 h2
    obtain ⟨hi, hq⟩ := issueOp_effect (s := s) (id := id) (o := op) true r rfl rfl
    exact ⟨_, congrArg Host.Outcome.next e, hi, hq⟩
  case mxWaits => exact congrArg _ ((asyncInsn_effect true (by decide) ht ha h).2 hn)
  case xfer =>
    obtain ⟨r, e⟩ := (asyncInsn_effect false (by decide) ht ha h).1 h1 h2
    obtain ⟨hi, hm, hag⟩ := issueOp_effect (s := s) (id := id) (o := op) false r rfl rfl
    exact ⟨_, congrArg Host.Outcome.next e, hi, hag, hm⟩
  case xferWaits => exact congrArg _ ((asyncInsn_effect false (by decide) ht ha h).2 hn)
  case mxStart =>
    obtain ⟨r, h⟩ := mxStart_effect hr hq htab
    exact ⟨_, r, congrArg Host.Outcome.next (if_pos hrun), h⟩
  case xferStart =>
    obtain ⟨r, h⟩ := xferStart_effect hr hq
    exact ⟨_, r, congrArg Host.Outcome.next (if_pos hrun), h⟩

end Sys2Proof.Machine
end

section
/-! PROOFS. LD, ST and ATOM at a RAW word that passes the checks before check 10 (R135, R136, R151, R152), and their accesses. -/
namespace Sys2Proof.Machine

/-! ### The word -/

/-- R135, R136, R151: the operands of a RAW lane-memory word are valid for the swarm; DATA names `n` lane registers. -/
structure Swarm.Names (w : Swarm) (g d a b sh ni sp wd n : Nat) : Prop where
  guard : g < 8
  base : a < 64
  shift : sh < 4
  noidx : ni ≤ 1
  space : sp ≤ 1
  width : wd ≤ 4
  idx : ni = 1 → b = 0
  data : d % n = 0
  some : 0 < n
  lanes : w.holds (if ni = 1 then [d + n - 1] else [b, d + n - 1]) = true

section
variable {w : Swarm} {op g fn d a b sh ni sp wd n : Nat}

/-- R135: the last register of DATA, and IDX where it is used, lie within V. -/
theorem Swarm.Names.within (h : w.Names g d a b sh ni sp wd n) :
    d + n - 1 < w.V ∧ d + n - 1 < 256 ∧ b < 256 ∧ (ni ≠ 1 → b < w.V) := by
  have hl := h.lanes
  by_cases hn : ni = 1
  · obtain rfl := h.idx hn
    rw [if_pos hn] at hl
    obtain ⟨h1, h2⟩ : d + n - 1 < w.V ∧ d + n - 1 < 256 := by simpa [Swarm.holds] using hl
    exact ⟨h1, h2, by decide, fun h => absurd hn h⟩
  · rw [if_neg hn] at hl
    obtain ⟨⟨h1, h2⟩, h3, h4⟩ : (b < w.V ∧ b < 256) ∧ d + n - 1 < w.V ∧ d + n - 1 < 256 := by simpa [Swarm.holds] using hl
    exact ⟨h3, h4, h2, fun _ => h1⟩

/-- R134, R151: the fields of a valid RAW lane-memory word. -/
theorem Swarm.Names.fields (h : w.Names g d a b sh ni sp wd n) (hop : op < 256) (hfn : fn < 32) :
    let x := mWord op g fn d a b 0 0 0 sh ni sp wd
    wOp x = op ∧ wGuard x = g ∧ wFn x = fn ∧ wD x = d ∧ wA x = a ∧ wB x = b ∧ mMfmt x = 0 ∧ mRfmt x = 0 ∧ mZp x = 0 ∧
      mShift x = sh ∧ mNoidx x = (ni == 1) ∧ mDevice x = (sp == 1) ∧ mW x = wd ∧ bits x 0 1 = 0 := by
  obtain ⟨_, hd, hb, _⟩ := h.within
  have hn := h.some
  exact mWord_fields hop h.guard hfn (by omega) (Nat.lt_trans h.base (by decide)) hb (by decide) (by decide) (by decide) h.shift
    (Nat.lt_succ_of_le h.noidx) (Nat.lt_succ_of_le h.space) (Nat.lt_of_le_of_lt h.width (by decide))

theorem Swarm.Names.encMem (h : w.Names g d a b sh ni sp wd n) (hop : op < 256) {atom : Bool}
    (hfn : fn = 0 ∨ (atom = true ∧ fn < 16)) :
    firstBad (encMem (mWord op g fn d a b 0 0 0 sh ni sp wd) atom n) = none := by
  obtain ⟨_, hG, hF, hD, hA, hB, hm, hr, hz, hs, hN, hS, hW, h0⟩ := h.fields (op := op) (fn := fn) hop (by omega)
  have h52 : atom = true → bits (mWord op g fn d a b 0 0 0 sh ni sp wd) 52 1 = 0 := by
    rintro -
    have h5 : bits (mWord op g fn d a b 0 0 0 sh ni sp wd) 48 5 = fn := hF
    simp only [bits_eq] at h5 ⊢
    omega
  have hatom : (if atom = true then (52, bits (mWord op g fn d a b 0 0 0 sh ni sp wd) 52 1 == 0)
      else (48, wFn (mWord op g fn d a b 0 0 0 sh ni sp wd) == 0)).2 = true := by
    cases atom with
    | true => simpa using h52 rfl
    | false => simpa [hF] using hfn
  refine (firstBad_none_iff _).2 ?_
  simp only [Machine.encMem, List.mem_cons, List.not_mem_nil, or_false, forall_eq_or_imp, forall_eq]
  have hidx : (!mNoidx (mWord op g fn d a b 0 0 0 sh ni sp wd) || wB (mWord op g fn d a b 0 0 0 sh ni sp wd) == 0) = true := by
    rw [hN, hB]
    by_cases hn : ni = 1
    · simp [h.idx hn]
    · simp [hn]
  refine ⟨hatom, ?_, hidx, ?_, ?_, ?_⟩
  · simp [hA, okU, h.base]
  · simp [hW, h.width]
  · simp [hD, h.data]
  · simp [h0]

theorem Swarm.Names.regsM (h : w.Names g d a b sh ni sp wd n) (hop : op < 256) (hfn : fn < 32) :
    pastV w.V (regsM (mWord op g fn d a b 0 0 0 sh ni sp wd) n) = none := by
  obtain ⟨_, _, _, hD, _, hB, _, _, _, _, hN, _, _, _⟩ := h.fields (op := op) (fn := fn) hop hfn
  obtain ⟨hd, _, _, hb⟩ := h.within
  have hn := h.some
  rw [pastV_none_iff, Machine.regsM, hN, hD, hB]
  by_cases hi : ni = 1
  · simp only [hi, BEq.rfl, if_true, List.nil_append, List.mem_singleton, forall_eq]
    omega
  · have := hb hi
    simp only [beq_eq_false_iff_ne.2 hi, Bool.false_eq_true, if_false, List.singleton_append, List.mem_cons, List.not_mem_nil,
      or_false, forall_eq_or_imp, forall_eq]
    omega

theorem Swarm.Names.fmtMem (h : w.Names g d a b sh ni sp wd n) (hop : op < 256) (hfn : fn < 32) :
    firstBad (fmtMem (mWord op g fn d a b 0 0 0 sh ni sp wd)) = none := by
  obtain ⟨_, _, _, _, _, _, hm, hr, hz, _, _, _, _, _⟩ := h.fields (op := op) (fn := fn) hop hfn
  simp [Machine.fmtMem, hm, hr, hz, memFmts, regFmts, firstBad]

theorem Swarm.Names.fmtRaw (h : w.Names g d a b sh ni sp wd n) (hop : op < 256) (hfn : fn < 32) {ws : List Nat} (hw : wd ∈ ws) :
    firstBad (fmtRaw ws (mWord op g fn d a b 0 0 0 sh ni sp wd)) = none := by
  obtain ⟨_, _, _, _, _, _, hm, hr, hz, _, _, _, hW, _⟩ := h.fields (op := op) (fn := fn) hop hfn
  simp [Machine.fmtRaw, hm, hr, hz, hW, hw, firstBad]

end

/-! ### The instructions at a valid word -/

section
variable {s : State} {cell : BitVec 10} {slot : BitVec 4} {g fn d a b sh ni sp wd n : Nat}

theorem memRegs_raw {x : Nat} (hm : mMfmt x = 0) : memRegs x = if 3 ≤ mW x ∧ mW x ≤ 4 then 2 ^ (mW x - 2) else 1 := by
  simp [memRegs, hm]

/-- R151: LD goes on to check 10. -/
theorem execLd_eq (h : (s.swarm cell.toNat slot.toNat).Names g d a b sh ni sp wd (memRegs (mWord 0x30 g 0 d a b 0 0 0 sh ni sp wd)))
    (hs : s.stands cell.toNat slot.toNat (mWord 0x30 g 0 d a b 0 0 0 sh ni sp wd) false false = true) :
    exec (.ld cell slot) s = .next (s.memStep cell.toNat slot.toNat (mWord 0x30 g 0 d a b 0 0 0 sh ni sp wd)) :=
  congrArg Host.Outcome.next <| issue_stands hs (by simp [isOp, h.fields (op := 0x30) (fn := 0)]) (h.encMem (by decide) (.inl rfl))
    (fun h => by cases h) (h.regsM (by decide) (by decide)) (h.fmtMem (by decide) (by decide))

/-- R151: ST goes on to check 10. -/
theorem execSt_eq (h : (s.swarm cell.toNat slot.toNat).Names g d a b sh ni sp wd (memRegs (mWord 0x31 g 0 d a b 0 0 0 sh ni sp wd)))
    (hs : s.stands cell.toNat slot.toNat (mWord 0x31 g 0 d a b 0 0 0 sh ni sp wd) false false = true) :
    exec (.st cell slot) s = .next (s.memStep cell.toNat slot.toNat (mWord 0x31 g 0 d a b 0 0 0 sh ni sp wd)) :=
  congrArg Host.Outcome.next <| issue_stands hs (by simp [isOp, h.fields (op := 0x31) (fn := 0)]) (h.encMem (by decide) (.inl rfl))
    (fun h => by cases h) (h.regsM (by decide) (by decide)) (h.fmtMem (by decide) (by decide))

/-- R152: ATOM goes on to check 10. -/
theorem execAtom_eq (hfn : fn < 16) (hw : wd = 2 ∨ wd = 3)
    (h : (s.swarm cell.toNat slot.toNat).Names g d a b sh ni sp wd (memRegs (mWord 0x34 g fn d a b 0 0 0 sh ni sp wd)))
    (hs : s.stands cell.toNat slot.toNat (mWord 0x34 g fn d a b 0 0 0 sh ni sp wd) false false = true) :
    exec (.atom cell slot) s = .next (s.memStep cell.toNat slot.toNat (mWord 0x34 g fn d a b 0 0 0 sh ni sp wd)) := by
  obtain ⟨hO, _, _, _, _, _, hm, _, _, _, _, _, hW, _⟩ := h.fields (op := 0x34) (fn := fn) (by decide) (by omega)
  have hr : (if mW (mWord 0x34 g fn d a b 0 0 0 sh ni sp wd) == 3 then 2 else 1) =
      memRegs (mWord 0x34 g fn d a b 0 0 0 sh ni sp wd) := by
    rw [memRegs_raw hm, hW]
    rcases hw with rfl | rfl <;> rfl
  refine congrArg Host.Outcome.next <| issue_stands hs (by simp [isOp, hO]) ?_ (fun h => by cases h) ?_
    (h.fmtRaw (by decide) (by omega) (by simpa using hw))
  · rw [hr]; exact h.encMem (by decide) (.inr ⟨rfl, hfn⟩)
  · rw [hr]; exact h.regsM (by decide) (by omega)

end

/-! ### The accesses -/

/-- Local accesses of the lanes listed. -/
def localAccs (lanes : List Nat) (addr off : Nat → Nat) : List LaneAcc :=
  lanes.map fun i => { lane := i, addr := addr i, target := .loc (off i) }

/-- R150: the accesses of a lane-memory word whose active lanes all address local memory. -/
theorem accs_eq_localAccs {w : Swarm} {id x : Nat} {addr off : Nat → Nat} (hu : isUni x = false)
    (ha : ∀ i, addr i = (w.ureg (wA x) + if mNoidx x then 0 else w.vreg (wB x) i * 2 ^ mShift x) % 2 ^ 64)
    (ht : ∀ i, i < 32 → bitAt (w.preg (wGuard x)) i = true → targetOf id x (addr i) = .loc (off i)) :
    w.accs id x = localAccs (w.active x) addr off := by
  simp only [Swarm.accs, hu, Bool.false_eq_true, if_false, localAccs]
  refine List.map_congr_left fun i hi => ?_
  obtain ⟨h1, h2⟩ := (mem_active ..).1 hi
  rw [← ha, ht i h1 h2]

theorem localAccs_filter (lanes : List Nat) (addr off : Nat → Nat) (p : LaneAcc → Bool) :
    (localAccs lanes addr off).filter p =
      localAccs (lanes.filter fun i => p { lane := i, addr := addr i, target := .loc (off i) }) addr off := List.filter_map ..

theorem locOf_localAccs (lanes : List Nat) (addr off : Nat → Nat) : locOf (localAccs lanes addr off) =
    lanes.map fun i => ({ lane := i, addr := addr i, target := .loc (off i) }, off i) := by
  unfold locOf localAccs
  rw [List.filterMap_map]
  exact congrFun (List.filterMap_eq_map' (f := fun i => (({ lane := i, addr := addr i, target := .loc (off i) } : LaneAcc), off i))) lanes

theorem remOf_localAccs (lanes : List Nat) (addr off : Nat → Nat) : remOf (localAccs lanes addr off) = [] := by
  refine List.filterMap_eq_nil_iff.2 fun a ha => ?_
  obtain ⟨i, _, rfl⟩ := List.mem_map.1 ha
  rfl

theorem extOf_localAccs (lanes : List Nat) (addr off : Nat → Nat) : extOf (localAccs lanes addr off) = [] := by
  refine List.filter_eq_nil_iff.2 fun a ha => ?_
  obtain ⟨i, _, rfl⟩ := List.mem_map.1 ha
  exact Bool.false_ne_true

/-- R124, R163: check 10 of local accesses judges first whether a lane runs past the memory, then whether one is misaligned. -/
theorem firstFail_localAccs (lanes : List Nat) (addr off : Nat → Nat) (x : Nat) :
    firstFail (localAccs lanes addr off) (memChecks x) =
      match lanes.filter fun i => decide (0x180000 < off i + memWidth x) with
      | i :: l => some (0x3030, localAccs (i :: l) addr off)
      | [] => match lanes.filter fun i => addr i % memWidth x != 0 with
        | i :: l => some (0x3031, localAccs (i :: l) addr off)
        | [] => none := by
  have never : ∀ p : LaneAcc → Bool, (∀ i, p { lane := i, addr := addr i, target := .loc (off i) } = false) →
      (localAccs lanes addr off).filter p = [] := fun p hp => by
    rw [localAccs_filter]; simp [hp, localAccs]
  simp only [memChecks, firstFail]
  rw [never _ fun i => by simp, never _ fun i => rfl, never _ fun i => rfl, localAccs_filter, localAccs_filter, never _ fun i => by simp]
  dsimp only
  cases lanes.filter fun i => decide (0x180000 < off i + memWidth x) with
  | cons i l => rfl
  | nil => cases lanes.filter fun i => addr i % memWidth x != 0 <;> rfl

section
variable {w : Swarm} {op g fn d a b sh ni sp wd n : Nat}

theorem Swarm.Names.memWidth (h : w.Names g d a b sh ni sp wd n) (hop : op < 256) (hfn : fn < 32) :
    memWidth (mWord op g fn d a b 0 0 0 sh ni sp wd) = 2 ^ wd := by
  obtain ⟨_, _, _, _, _, _, hm, _, _, _, _, _, hW, _⟩ := h.fields (op := op) (fn := fn) hop hfn
  rw [Machine.memWidth, hm, hW]
  rfl

/-- The address of lane `i` of a lane-memory word (R150). -/
def Swarm.laneAddr (w : Swarm) (a b sh ni i : Nat) : Nat := (w.ureg a + if ni = 1 then 0 else w.vreg b i * 2 ^ sh) % 2 ^ 64

theorem Swarm.Names.accs (h : w.Names g d a b sh ni sp wd n) (hop : op = 0x30 ∨ op = 0x31 ∨ op = 0x34) (hfn : fn < 32) {id : Nat}
    {off : Nat → Nat} (ht : ∀ i, i < 32 → bitAt (w.preg g) i = true →
      targetOf id (mWord op g fn d a b 0 0 0 sh ni sp wd) (w.laneAddr a b sh ni i) = .loc (off i)) :
    w.accs id (mWord op g fn d a b 0 0 0 sh ni sp wd) =
      localAccs ((List.range 32).filter fun i => bitAt (w.preg g) i) (w.laneAddr a b sh ni) off := by
  obtain ⟨hO, hG, _, _, hA, hB, _, _, _, hS, hN, _, _, _⟩ := h.fields (op := op) (fn := fn) (by omega) hfn
  have hu : isUni (mWord op g fn d a b 0 0 0 sh ni sp wd) = false := by
    rw [isUni, hO]; rcases hop with rfl | rfl | rfl <;> rfl
  have ha : ∀ i, w.laneAddr a b sh ni i = (w.ureg (wA (mWord op g fn d a b 0 0 0 sh ni sp wd)) +
      if mNoidx (mWord op g fn d a b 0 0 0 sh ni sp wd) then 0 else
        w.vreg (wB (mWord op g fn d a b 0 0 0 sh ni sp wd)) i * 2 ^ mShift (mWord op g fn d a b 0 0 0 sh ni sp wd)) % 2 ^ 64 := fun i => by
    rw [hA, hB, hS, hN]; simp only [Swarm.laneAddr, beq_iff_eq]
  rw [accs_eq_localAccs hu ha (by rw [hG]; exact ht), Swarm.active, hG]

end

end Sys2Proof.Machine
end

section
/-! PROOFS (O22). A park that ends no launch, and the faults LM_RANGE and LM_ALIGN (R92, R102, R124, R129, R130). -/
namespace Sys2Proof.Machine

/-! ### Masks of lanes -/

/-- A number built from its bits, from the lowest up. -/
theorem testBit_maskOf (n : Nat) (f : Nat → Bool) : maskOf n f < 2 ^ n ∧ ∀ i, (maskOf n f).testBit i = (decide (i < n) && f i) := by
  induction n with
  | zero => exact ⟨Nat.one_pos, fun i => by simp [maskOf]⟩
  | succ n ih =>
    obtain ⟨hlt, hbit⟩ := ih
    have he : maskOf (n + 1) f = if f n then maskOf n f + 2 ^ n else maskOf n f := by
      rw [maskOf, List.range_succ, List.foldl_append]; rfl
    rw [he]
    cases hf : f n with
    | false =>
      refine ⟨by rw [Nat.pow_succ]; simp only [Bool.false_eq_true, if_false]; omega, fun i => ?_⟩
      rw [if_neg Bool.false_ne_true, hbit]
      rcases Nat.lt_trichotomy i n with h | rfl | h
      · simp [h, Nat.lt_succ_of_lt h]
      · simp [hf]
      · simp [Nat.not_lt.2 (Nat.le_of_lt h), show ¬ i < n + 1 by omega]
    | true =>
      refine ⟨by rw [Nat.pow_succ]; simp only [if_true]; omega, fun i => ?_⟩
      rw [if_pos rfl, Nat.add_comm]
      rcases Nat.lt_trichotomy i n with h | rfl | h
      · rw [Nat.testBit_two_pow_add_gt h, hbit]
        simp [h, Nat.lt_succ_of_lt h]
      · rw [Nat.testBit_two_pow_add_eq, hbit]
        simp [hf]
      · have : maskOf n f + 2 ^ n < 2 ^ i := by
          calc maskOf n f + 2 ^ n < 2 ^ (n + 1) := by rw [Nat.pow_succ]; omega
            _ ≤ 2 ^ i := Nat.pow_le_pow_right (by decide) h
        rw [Nat.add_comm, Nat.testBit_lt_two_pow this]
        simp [show ¬ i < n + 1 by omega]

/-! ### A park that ends no launch -/

/-- R382: an event of the dispatcher for a park outside every launch. -/
theorem dEvt_parked_regsOnly (s : State) (ch : Nat) : RegsOnly s (s.dEvt ch 0x800C) := by
  unfold State.dEvt
  exact (RegsOnly.refl s).evt _ _

/-- R130: where a park ends no launch, its report changes no byte, no record and no swarm. -/
theorem reportPark_alone {s : State} {id slot : Nat} (code : Nat) (h : s.parksAlone id slot = true) :
    SameBytes s (s.reportPark id slot code) ∧ ((s.reportPark id slot code).cell id).records = (s.cell id).records ∧
      ∀ k, (s.reportPark id slot code).swarm id k = s.swarm id k := by
  unfold State.reportPark
  dsimp only
  split
  · exact ⟨.modCell s id fun _ => rfl, by rw [cell_modCell_same], fun k => by rw [State.swarm, cell_modCell_same]; rfl⟩
  · next hn =>
    have hc : (s.swarm id slot).ctx = none := by
      simp only [State.parksAlone, Bool.or_eq_true, Option.isNone_iff_eq_none] at h
      exact h.resolve_right hn
    have hr : RegsOnly s (s.parkReport id slot code) := by
      simp only [State.parkReport, hc]
      exact dEvt_parked_regsOnly s _
    have hcell : (s.parkReport id slot code).cell id = s.cell id := by
      rw [State.cell, State.cell, hr.sameBytes.phys, hr.cells]
    exact ⟨hr.sameBytes, by rw [hcell], fun k => by rw [State.swarm, State.swarm, hcell]⟩

/-- The swarm that a park leaves (R122, R128). -/
def Swarm.parked (w : Swarm) (at_ : Nat) : Swarm :=
  { w with st := .parked, pc := w.restart at_, inSlot := false, slotNext := 0, branchPc := 0, branchTaken := false,
           shadow := none, parkReq := none, replay := none, mem := none, asyncFaults := [] }

/-- The cell in which a swarm has parked with a record, before the park is reported. -/
def CellMem.parkSwarm (c : CellMem) (slot : Nat) (ws : List Nat) (at_ : Nat) : CellMem :=
  (c.putRecord slot ws).modSwarm slot fun w => w.parked at_

/-- R129: the record of a synchronous fault. -/
def State.parkWords (s : State) (id slot : Nat) (p : Park) : List Nat :=
  (s.swarm id slot).record slot p (s.swarm id slot).pc s.now

/-- R122, R129: the state in which a swarm has parked, before the park is reported. -/
def State.parkedAt (s : State) (id slot : Nat) (p : Park) : State :=
  (s.modCell id fun c => c.parkSwarm slot (s.parkWords id slot p) (s.swarm id slot).pc).bump (Reg.cellParkStatusParkCount (s.phys id))

section
variable {s : State} {id slot : Nat} {p : Park}

theorem park_eq (hr : (s.swarm id slot).parkReq = none) (hp : p.code ≠ 0x1015) :
    s.park id slot p = (s.parkedAt id slot p).reportPark id slot p.code := by
  have hf : (p.code == 0x1015) = false := beq_eq_false_iff_ne.2 hp
  have hm := modCell_modCell s id (fun c => c.putRecord slot (s.parkWords id slot p))
    fun c => c.modSwarm slot fun w => w.parked (s.swarm id slot).pc
  unfold State.park State.parkAt
  simp only [hr, Option.isSome_none, Bool.false_and, hf, Bool.false_eq_true, if_false]
  exact congrArg (fun t : State => (t.bump (Reg.cellParkStatusParkCount (s.phys id))).reportPark id slot p.code) hm

theorem parkedAt_sameBytes : SameBytes s (s.parkedAt id slot p) :=
  (SameBytes.modCell s id (f := fun c => c.parkSwarm slot (s.parkWords id slot p) (s.swarm id slot).pc) fun _ => rfl).trans
    ((RegsOnly.refl _).wr _ _).sameBytes

theorem cell_parkedAt : (s.parkedAt id slot p).cell id =
    (s.cell id).parkSwarm slot (s.parkWords id slot p) (s.swarm id slot).pc := by
  rw [State.parkedAt, State.cell_bump, cell_modCell_same]

theorem swarm_parkedAt : (s.parkedAt id slot p).swarm id slot = (s.swarm id slot).parked (s.swarm id slot).pc := by
  rw [State.swarm, cell_parkedAt, CellMem.parkSwarm, CellMem.swarm_modSwarm_same]; rfl

theorem swarm_parkedAt_ne {k : Nat} (h : k ≠ slot) : (s.parkedAt id slot p).swarm id k = s.swarm id k := by
  rw [State.swarm, cell_parkedAt, CellMem.parkSwarm, CellMem.swarm_modSwarm_ne _ _ h]; rfl

theorem handler_parkedAt : (s.parkedAt id slot p).handler id = s.handler id := by
  have hne : ∀ n, (Reg.cellParkCtlHandler n).off ≠ (Reg.cellParkStatusParkCount n).off := fun n => by
    simp only [Reg.cellParkCtlHandler, Reg.cellParkStatusParkCount]; omega
  rw [State.handler, parkedAt_sameBytes.phys, State.parkedAt, bump_def, rd_wr_ne _ _ _ _ (hne _)]
  rfl

theorem parksAlone_parkedAt (h : s.parksAlone id slot = true) : (s.parkedAt id slot p).parksAlone id slot = true := by
  have h0 : slot ≠ 0 → (s.parkedAt id slot p).swarm id 0 = s.swarm id 0 := fun h => swarm_parkedAt_ne (Ne.symm h)
  unfold State.parksAlone at h ⊢
  rw [swarm_parkedAt, handler_parkedAt]
  by_cases hs : slot = 0
  · simpa [hs, Swarm.parked] using h
  · rw [h0 hs]; exact h

/-- R122, R129, R130: a synchronous fault parks its swarm: the record is written, the swarm stops, and no byte changes. -/
theorem park_alone (h : s.parksAlone id slot = true) (hr : (s.swarm id slot).parkReq = none) (hp : p.code ≠ 0x1015) :
    KeepsBytes s (s.park id slot p) ∧ (s.park id slot p).swarm id slot = (s.swarm id slot).parked (s.swarm id slot).pc ∧
      ((s.park id slot p).cell id).records = ((s.cell id).putRecord slot (s.parkWords id slot p)).records := by
  obtain ⟨h1, h2, h3⟩ := reportPark_alone p.code (parksAlone_parkedAt (p := p) h)
  rw [park_eq hr hp]
  refine ⟨(parkedAt_sameBytes.trans h1).toKeepsBytes, (h3 slot).trans swarm_parkedAt, h2.trans ?_⟩
  rw [cell_parkedAt]
  rfl

end

/-! ### The record -/

theorem recWord_of_records {c : CellMem} {c' : CellMem} {slot i : Nat} {ws : List Nat} (h : c.records = (c'.putRecord slot ws).records)
    (hi : i < ws.length) : c.recWord slot i = ws[i] % 2 ^ 64 := by
  rw [CellMem.recWord, h, CellMem.putRecord, sget_ssetN, if_pos (Nat.le_add_right ..), Nat.add_sub_cancel_left,
    List.getElem?_map, List.getElem?_eq_getElem hi]
  exact BitVec.toNat_ofNat ..

/-- R129: CODE, FAULT_LANES and FAULT_ADDR of the record of a fault of lanes. -/
theorem park_record {s : State} {id slot : Nat} {p : Park} {c : CellMem}
    (h : c.records = ((s.cell id).putRecord slot (s.parkWords id slot p)).records) (hslot : slot < 16) (hcode : p.code < 2 ^ 16)
    (hlanes : p.lanes < 2 ^ 32) (haddr : p.addr < 2 ^ 64) (hasync : p.async = none) :
    c.recField slot 2 0 16 = p.code ∧ c.recWord slot 3 = p.addr ∧ c.recField slot 2 32 32 = p.lanes := by
  have h2 := recWord_of_records (i := 2) h (by simp [State.parkWords, Swarm.record, hasync])
  have h3 := recWord_of_records (i := 3) h (by simp [State.parkWords, Swarm.record, hasync])
  simp only [State.parkWords, Swarm.record, hasync, Option.getD_none, List.getElem_cons_succ, List.getElem_cons_zero] at h2 h3
  obtain ⟨f, hf, h2⟩ : ∃ f < 64, c.recWord slot 2 = (p.code + slot * 2 ^ 16 + f * 2 ^ 24 + p.lanes * 2 ^ 32) % 2 ^ 64 := by
    refine ⟨_, ?_, h2⟩
    have hb : ∀ b : Bool, b.toNat ≤ 1 := Bool.toNat_le
    have h0 := hb (s.swarm id slot).slotOf.isSome
    have h1 := hb (s.swarm id slot).shadow.isSome
    have h4 := hb (!(s.swarm id slot).inSlot && (s.swarm id slot).endsLoop ((s.swarm id slot).restart (s.swarm id slot).pc))
    have h8 := hb p.async.isSome
    have h16 := hb ((s.swarm id slot).slotOf.any (·.1))
    have h32 := hb p.placement
    simp only [hasync] at h8
    omega
  refine ⟨?_, h3.trans (Nat.mod_eq_of_lt haddr), ?_⟩
  all_goals
    rw [CellMem.recField, h2, bits_eq]
    omega

/-! ### Check 10 -/

/-- R124: the lowest of the lanes that are active and fail a check comes first. -/
theorem filter_filter_eq_cons {on bad : Nat → Bool} {lane : Nat} (hl : lane < 32) (hon : on lane = true) (hbad : bad lane = true)
    (hlow : ∀ j, j < lane → on j = true → bad j = false) : ∃ l, ((List.range 32).filter on).filter bad = lane :: l := by
  rw [List.filter_filter, ← List.head?_eq_some_iff, List.head?_filter, List.find?_range_eq_some]
  refine ⟨by simp [hon, hbad], List.mem_range.2 hl, fun j hj => ?_⟩
  cases h : on j
  · simp
  · simp [hlow j hj h]

/-- R124, R129: what a fault of local lanes leaves: a parked swarm with its registers, its record, and every byte as it was. -/
theorem memFault_parks {s : State} {id k x code lane : Nat} {l : List Nat} {addr off : Nat → Nat} (hu : isUni x = false)
    (h : s.parksAlone id k = true) (hr : (s.swarm id k).parkReq = none) (hk : k < 16) (hcode : code < 2 ^ 16 ∧ code ≠ 0x1015)
    (haddr : addr lane < 2 ^ 64) :
    let t := s.memFault id k x code 0 (localAccs (lane :: l) addr off)
    KeepsBytes s t ∧ (t.swarm id k).st = .parked ∧ (t.swarm id k).v = (s.swarm id k).v ∧ (t.swarm id k).u = (s.swarm id k).u ∧
      (t.cell id).recField k 2 0 16 = code ∧ (t.cell id).recWord k 3 = addr lane ∧
      ∀ j, j < 32 → bitAt ((t.cell id).recField k 2 32 32) j = decide (j ∈ lane :: l) := by
  intro t
  have hm : laneMask x (localAccs (lane :: l) addr off) = maskOf 32 fun i => (localAccs (lane :: l) addr off).any fun a => a.lane == i := by
    simp only [laneMask, hu, Bool.false_eq_true, if_false]
  obtain ⟨hlt, hbit⟩ := testBit_maskOf 32 fun i => (localAccs (lane :: l) addr off).any fun a => a.lane == i
  obtain ⟨hb, hw, hrec⟩ := park_alone (p := ⟨code, x, laneMask x (localAccs (lane :: l) addr off), addr lane, 0, 0, false, none⟩)
    h hr hcode.2
  obtain ⟨h2, h3, h4⟩ := park_record hrec hk hcode.1 (hm ▸ hlt) haddr rfl
  have hw : t.swarm id k = (s.swarm id k).parked (s.swarm id k).pc := hw
  refine ⟨hb, by rw [hw]; rfl, by rw [hw]; rfl, by rw [hw]; rfl, h2, h3, fun j hj => ?_⟩
  refine (congrArg (bitAt · j) h4).trans ?_
  dsimp only
  rw [hm, bitAt_eq, hbit, decide_eq_true hj, Bool.true_and, Bool.eq_iff_iff]
  simp [localAccs, eq_comm (a := lane)]

theorem memStep_of_firstFail {s : State} {id k x code : Nat} {bad : List LaneAcc}
    (h : firstFail ((s.swarm id k).accs id x) (memChecks x) = some (code, bad)) :
    s.memStep id k x = s.memFault id k x code 0 bad := by
  unfold State.memStep
  simp only [h]

theorem memRegs_pos (x : Nat) : 0 < memRegs x := by
  unfold memRegs
  split
  · exact Nat.two_pow_pos _
  · exact Nat.one_pos

/-- Settles O22: LM_RANGE is judged before LM_ALIGN; each parks with the lanes that fail it and the address of the lowest (R124). -/
theorem memoryFaults : Obligations.MemoryFaults := by
  unfold Obligations.MemoryFaults
  intro s cell slot i op g fn d a b sh ni sp wd lane off id k w x n addr on past odd parks first hi hg ha hsh hni hsp hwd hidx hd hl
    hs hpk ht
  have hN : w.Names g d a b sh ni sp wd (memRegs x) := ⟨hg, ha, hsh, hni, hsp, hwd, hidx, hd, memRegs_pos x, hl⟩
  have hop : (op = 0x30 ∨ op = 0x31 ∨ op = 0x34) ∧ fn < 32 := by omega
  have hmw : memWidth x = n := hN.memWidth (by omega) hop.2
  have hacc : w.accs id x = localAccs ((List.range 32).filter on) addr off := hN.accs hop.1 hop.2 ht
  have hu : isUni x = false := by
    rw [isUni, (hN.fields (op := op) (fn := fn) (by omega) hop.2).1]
    rcases hop.1 with rfl | rfl | rfl <;> rfl
  have hstep : exec i s = .next (s.memStep id k x) := by
    rcases hi with ⟨rfl, rfl, rfl⟩ | ⟨rfl, rfl, rfl⟩ | ⟨rfl, rfl, hfn, hw⟩
    · exact execLd_eq hN hs
    · exact execSt_eq hN hs
    · exact execAtom_eq hfn hw hN hs
  have hparks {code : Nat} {bad : Nat → Bool} (hcode : code < 2 ^ 16 ∧ code ≠ 0x1015) (hf : first bad)
      (he : ∀ l, ((List.range 32).filter on).filter bad = lane :: l →
        firstFail (w.accs id x) (memChecks x) = some (code, localAccs (lane :: l) addr off)) : parks code bad := by
    obtain ⟨hlane, hon, hbad, hlow⟩ := hf
    obtain ⟨l, hl⟩ := filter_filter_eq_cons hlane hon hbad hlow
    obtain ⟨h1, h2, h3, h4, h5, h6, h7⟩ := memFault_parks (s := s) (id := id) (l := l) (addr := addr) (off := off) hu hpk
      (quiet_of_stands hs).2 slot.isLt hcode (Nat.mod_lt _ (by decide))
    refine ⟨_, hstep.trans (congrArg _ (memStep_of_firstFail (he l hl))), h1, h2, h3, h4, h5, h6, fun j hj => ?_⟩
    rw [h7 j hj, ← hl, Bool.eq_iff_iff]
    simp [hj, and_comm]
  have hff := firstFail_localAccs ((List.range 32).filter on) addr off x
  rw [hmw, ← hacc] at hff
  refine ⟨fun hf => hparks (by decide) hf fun l hl => ?_, fun hin hf => hparks (by decide) hf fun l hl => ?_⟩
  · rw [hff, hl]
  · have hnone : ((List.range 32).filter on).filter past = [] := by
      refine List.filter_eq_nil_iff.2 fun i hi => ?_
      obtain ⟨h1, h2⟩ := List.mem_filter.1 hi
      rw [hin i (List.mem_range.1 h1) h2]
      exact Bool.false_ne_true
    rw [hff, hnone]
    dsimp only
    rw [hl]

end Sys2Proof.Machine
end

section
/-! PROOFS (O25). What a store into a cell without errors changes (R93, R288). -/
namespace Sys2Proof.Machine

/-- A counter that stops at its field's largest value, read after it counted. -/
theorem rd_bump_same (s : State) (f : RegField) (n : Nat) {m : Nat} (h : f.lo + f.len ≤ 64) (hm : 2 ^ f.len - 1 = m) :
    (s.bump f n).rd f = min m (s.rd f + n) := by
  subst hm
  rw [bump_def, rd_wr_same _ _ _ h]
  have := Nat.two_pow_pos f.len
  exact Nat.mod_eq_of_lt (by omega)

/-- The counter of a packet that is taken out, counted and answered. -/
theorem rd_answered_same (s : State) (i : Nat) (p : Packet) (f : RegField) (n : Nat) {m : Nat} (h : f.lo + f.len ≤ 64)
    (hm : 2 ^ f.len - 1 = m) : (((s.dropPkt i).bump f n).post p).rd f = min m (s.rd f + n) :=
  rd_bump_same (s.dropPkt i) f n h hm

theorem keepsBytes_answered (s : State) (i : Nat) (p : Packet) (f : RegField) (n : Nat) :
    KeepsBytes s (((s.dropPkt i).bump f n).post p) := .of_eq rfl rfl rfl

theorem lmByte_modCell (s : State) (id : Nat) (f : CellMem → CellMem) (p o : Nat) :
    (s.modCell id f).lmByte p o = if p = s.phys id then sget 0 (f (s.cell id)).lm o else s.lmByte p o := by
  show sget 0 (sget {} (smod {} s.cells (s.phys id) f) p).lm o = _
  rw [sget_smod]
  split <;> rfl

/-- The bytes that a cell reads. -/
theorem read_eq_map_lmByte (s : State) (id off n : Nat) :
    (s.cell id).read off n = (List.range n).map fun j => s.lmByte (s.phys id) (off + j) := by
  refine List.ext_getElem? fun j => ?_
  by_cases h : j < n
  · rw [CellMem.read, sgetN_getElem? _ _ _ _ _ h, List.getElem?_map, List.getElem?_range h]
    rfl
  · rw [List.getElem?_eq_none (by rw [CellMem.read, sgetN_length]; omega), List.getElem?_eq_none (by simp; omega)]

/-! ### Stores into a cell without errors -/

/-- From `s` to `t` only local memories have changed, and cell `id` still has no errors. -/
structure StoresOnly (s t : State) (id : Nat) : Prop where
  state : t = { s with cells := t.cells }
  swarms : ∀ j k, t.swarm j k = s.swarm j k
  clean : (t.cell id).lmErr = []

section
variable {s t u : State} {id : Nat}

theorem StoresOnly.refl (h : (s.cell id).lmErr = []) : StoresOnly s s id := ⟨rfl, fun _ _ => rfl, h⟩

theorem StoresOnly.trans (h : StoresOnly s t id) (k : StoresOnly t u id) : StoresOnly s u id :=
  ⟨by rw [k.state, h.state], fun i j => (k.swarms i j).trans (h.swarms i j), k.clean⟩

theorem swarm_modCell_of_swarms {f : CellMem → CellMem} (hf : ∀ c, (f c).swarms = c.swarms) (j k : Nat) :
    (s.modCell id f).swarm j k = s.swarm j k := by
  rw [State.swarm, cell_modCell]
  split
  · next h => rw [CellMem.swarm, hf, State.swarm, CellMem.swarm, State.cell, State.cell, h]
  · rfl

theorem StoresOnly.modCell {f : CellMem → CellMem} (hf : ∀ c, (f c).swarms = c.swarms) (he : (f (s.cell id)).lmErr = []) :
    StoresOnly s (s.modCell id f) id :=
  ⟨rfl, swarm_modCell_of_swarms hf, by rw [cell_modCell_same]; exact he⟩

/-- R93: the bytes of several writes, in order. -/
theorem foldl_ssetN_lm (l : List (Nat × Bytes)) (c : CellMem) :
    l.foldl (fun c e => { c with lm := ssetN 0 c.lm e.1 e.2 }) c = { c with lm := l.foldl (fun m e => ssetN 0 m e.1 e.2) c.lm } := by
  induction l generalizing c with
  | nil => rfl
  | cons e l ih => exact ih _

/-- R93, R288: stores into a cell without errors change its local memory alone. -/
theorem lmStores_storesOnly (h : (s.cell id).lmErr = []) (l : List (Nat × Bytes)) : StoresOnly s (s.lmStores id l) id := by
  have step : ∀ (s : State) (v : Nat), (s.cell id).lmErr = [] → StoresOnly s (if coveredBy l v then
      s.modCell id fun c => { c with lmErr := sdel c.lmErr v } else s.lmTouch id (8 * v) 8) id := fun s v h => by
    split
    · exact .modCell (fun _ => rfl) (by rw [h]; rfl)
    · rw [lmTouch_clean s id _ _ fun w _ => by rw [h]; rfl]
      exact .refl h
  have fold : ∀ (ws : List Nat) (s : State), (s.cell id).lmErr = [] → StoresOnly s (ws.foldl (fun s v => if coveredBy l v then
      s.modCell id fun c => { c with lmErr := sdel c.lmErr v } else s.lmTouch id (8 * v) 8) s) id := fun ws => by
    induction ws with
    | nil => exact fun s h => .refl h
    | cons v ws ih => exact fun s h => (step s v h).trans (ih _ (step s v h).clean)
  have hw := fold (sortNat (l.flatMap fun e => wordsOf e.1 e.2.length)) s h
  exact hw.trans (.modCell (fun c => by rw [foldl_ssetN_lm]) (by rw [foldl_ssetN_lm]; exact hw.clean))

end

/-- One store's bytes are read back. -/
theorem lmByte_lmStores_in (s : State) (id off : Nat) {bs : Bytes} {j : Nat} (h : j < bs.length) :
    (s.lmStores id [(off, bs)]).lmByte (s.phys id) (off + j) = bs.getD j 0 := by
  rw [State.lmByte_lmStores, if_pos ⟨rfl, Nat.le_add_right ..⟩, Nat.add_sub_cancel_left, List.getElem?_eq_getElem h,
    List.getD_eq_getElem?_getD, List.getElem?_eq_getElem h]
  rfl

end Sys2Proof.Machine
end

section
/-! PROOFS (O25). Requests at a cell (R102, R104, R105, R108, R269). -/
namespace Sys2Proof.Machine

/-! ### Arrival -/

section
variable {s : State} {i id : Nat} {p : Packet} {kinds : List PktKind}

theorem arrive_eq (h : s.arriving i kinds = some p) (f : State → Packet → State) : s.arrive i kinds .none f = f s p := by
  unfold State.arrive
  rw [h]

theorem kind_of_arriving {k : PktKind} (h : s.arriving i [k] = some p) : p.kind = k := by
  unfold State.arriving at h
  split at h
  · cases h
  · next q _ =>
    split at h
    · next hc =>
      cases h
      simp only [Bool.and_eq_true, List.contains_iff_mem, List.mem_singleton] at hc
      exact hc.1.1
    · cases h

/-! ### Why a write is refused -/

theorem inboundCause_reset (h : s.cellInReset id = true) (off n : Nat) (atomic : Bool) : s.inboundCause id off n atomic = 0xC022 := by
  simp [State.inboundCause, h]

theorem inboundCause_replica (h : s.cellInReset id = false) {off n : Nat} (hr : (s.cell id).inReplica off n = true) (atomic : Bool) :
    s.inboundCause id off n atomic = 0x3034 := by
  simp [State.inboundCause, h, hr]

theorem inboundCause_clean (h : s.cellInReset id = false) {off n : Nat} (hr : (s.cell id).inReplica off n = false)
    (he : (s.cell id).lmErr = []) (atomic : Bool) : s.inboundCause id off n atomic = 0 := by
  simp [State.inboundCause, h, hr, CellMem.uce, CellMem.partUce, he, sget]

/-! ### Stores and atomics -/

theorem inboundStore_refused {off cause : Nat} {bs : Bytes} (h : s.inboundCause id off bs.length false = cause) (hz : cause ≠ 0) :
    s.inboundStore id off bs = (s.inboundCount id cause, cause) := by
  subst h
  unfold State.inboundStore
  split
  · next h => exact absurd h hz
  · rfl

theorem inboundStore_done {off : Nat} {bs : Bytes} (h : s.inboundCause id off bs.length false = 0) :
    s.inboundStore id off bs = (s.lmStores id [(off, bs)], 0) := by
  unfold State.inboundStore
  simp only [h]

theorem refuse_eq (t : State) (hr : p.route = none) (cause : Nat) : t.refuse p cause = t.post (p.answer .refuse cause []) := by
  simp [State.refuse, hr]

theorem ack_eq (t : State) (hr : p.route = none) : t.ack p = t.post (p.answer .ack 0 []) := by
  simp [State.ack, hr]

/-- R102: a store that is refused changes what the refusal counts, and is answered. -/
theorem exec_store_refused (hd : p.dst = .cell id) (hr : p.route = none) (ha : s.arriving i [.store] = some p) {cause : Nat}
    (hc : s.inboundCause id p.arg.toNat p.payload.length false = cause) (hz : cause ≠ 0) :
    exec (.storePacket i .none) s = .next (((s.dropPkt i).inboundCount id cause).post (p.answer .refuse cause [])) := by
  refine congrArg Host.Outcome.next ((arrive_eq ha _).trans ?_)
  have hs := inboundStore_refused (s := s.dropPkt i) hc hz
  simp only [hd, hs, beq_eq_false_iff_ne.2 hz, Bool.false_eq_true, if_false, refuse_eq _ hr]

/-- R102: a store that is performed writes its bytes and is acknowledged. -/
theorem exec_store_done (hd : p.dst = .cell id) (hr : p.route = none) (ha : s.arriving i [.store] = some p)
    (hc : s.inboundCause id p.arg.toNat p.payload.length false = 0) :
    exec (.storePacket i .none) s =
      .next (((s.dropPkt i).lmStores id [(p.arg.toNat, p.payload)]).post (p.answer .ack 0 [])) := by
  refine congrArg Host.Outcome.next ((arrive_eq ha _).trans ?_)
  have hs := inboundStore_done (s := s.dropPkt i) hc
  simp only [hd, hs, BEq.rfl, if_true, ack_eq _ hr]

/-- R104: an atomic that is refused changes what the refusal counts, and is answered. -/
theorem exec_atomic_refused (hd : p.dst = .cell id) (hr : p.route = none) (ha : s.arriving i [.atomic] = some p) {cause : Nat}
    (hc : s.inboundCause id (bits p.arg.toNat 0 21) p.payload.length true = cause) (hz : cause ≠ 0) :
    exec (.atomicPacket i .none) s = .next (((s.dropPkt i).inboundCount id cause).post (p.answer .refuse cause [])) := by
  refine congrArg Host.Outcome.next ((arrive_eq ha _).trans ?_)
  have hc : (s.dropPkt i).inboundCause id (bits p.arg.toNat 0 21) p.payload.length true = cause := hc
  simp only [hd]
  split
  · next h => exact absurd (hc.symm.trans h) hz
  · rw [hc, refuse_eq _ hr]

/-- R104, R105: the new value of the word that an atomic updates. -/
def Packet.updated (p : Packet) (old : Nat) : Bytes :=
  leBytes p.payload.length (atomOp (bits p.arg.toNat 21 3) (8 * p.payload.length) old (leNat p.payload))

/-- R104, R105: an atomic that is performed in a cell without errors updates its word and is answered. -/
theorem exec_atomic_done (hd : p.dst = .cell id) (hr : p.route = none) (ha : s.arriving i [.atomic] = some p)
    (hc : s.inboundCause id (bits p.arg.toNat 0 21) p.payload.length true = 0) (he : (s.cell id).lmErr = []) :
    let off := bits p.arg.toNat 0 21
    let old := s.lmNat (s.phys id) off p.payload.length
    exec (.atomicPacket i .none) s = .next (((s.dropPkt i).lmStores id [(off, p.updated old)]).post
      (if bitAt p.arg.toNat 25 then p.answer .atomicRsp p.arg.toNat (leBytes p.payload.length old) else p.answer .ack 0 [])) := by
  intro off old
  have hold : leNat ((s.cell id).read off p.payload.length) = old := by
    rw [read_eq_map_lmByte]; rfl
  refine congrArg Host.Outcome.next ((arrive_eq ha _).trans ?_)
  have hc : (s.dropPkt i).inboundCause id (bits p.arg.toNat 0 21) p.payload.length true = 0 := hc
  have hap : (s.dropPkt i).atomApply id p = ((s.dropPkt i).lmStores id [(off, p.updated old)], old) := by
    have ht : (s.dropPkt i).lmTouch id off p.payload.length = s.dropPkt i :=
      lmTouch_clean _ _ _ _ fun w _ => by rw [State.cell_dropPkt, he]; rfl
    unfold State.atomApply
    dsimp only
    rw [ht, State.cell_dropPkt, hold]
    rfl
  simp only [hd, hc, hap]
  split
  · rfl
  · exact ack_eq _ hr

/-! ### Messages -/

/-- R269: a dynamic message at a cell that answers it, in a ring with an unreserved slot. -/
theorem cellMsg_delivers (hr : p.route = none) (h0 : s.cellInReset id = false) {base slots k : Nat} (hring : s.ringOf id = some (base, slots))
    (hres : s.ringReserved id < slots) (hroom : s.ringRoom id slots = true) (hk : (s.cell id).freeRing slots = some k)
    (hin : (s.cell id).inReplica (base + 528 * k) (16 + p.payload.length) = false) :
    s.cellMsg i id p = ((s.dropPkt i).ringPutMsg id base k p.arg.toNat p.payload).post (p.answer .ack 0 []) := by
  unfold State.cellMsg
  simp only [hr, h0, Bool.false_eq_true, if_false, hring, Nat.not_le.2 hres, hroom, if_true, State.ringDeliver, hk, State.cell_dropPkt,
    hin, ack_eq _ hr]

/-- R269: a dynamic message without room waits. -/
theorem cellMsg_waits (hr : p.route = none) (h0 : s.cellInReset id = false) {base slots : Nat} (hring : s.ringOf id = some (base, slots))
    (hres : s.ringReserved id < slots) (hroom : s.ringRoom id slots = false) :
    s.cellMsg i id p = { s with pkts := s.pkts.set i { p with waiting := true } } := by
  unfold State.cellMsg
  simp only [hr, h0, Bool.false_eq_true, if_false, hring, Nat.not_le.2 hres, hroom]

/-- R269: a dynamic message at a cell without a ring is refused and counted. -/
theorem cellMsg_refused (hr : p.route = none) (h0 : s.cellInReset id = false) (hring : s.ringOf id = none) :
    s.cellMsg i id p =
      ((s.dropPkt i).bump (Reg.cellMsgStatusRxRefused (s.phys id))).post (p.answer .refuse 0x4006 []) := by
  unfold State.cellMsg
  simp only [hr, h0, Bool.false_eq_true, if_false, hring, refuse_eq _ hr]

theorem exec_msg_first (hd : p.dst = .cell id) (ha : s.arriving i [.msg] = some p) (hw : p.waiting = false) :
    exec (.msgPacket i .none) s = .next (s.cellMsg i id p) := by
  refine congrArg Host.Outcome.next ((arrive_eq ha _).trans ?_)
  simp only [hw, Bool.false_eq_true, if_false, State.msgAt, hd]

theorem exec_msg_waiting (hd : p.dst = .cell id) (ha : s.arriving i [.msg] = some p) (hw : p.waiting = true) :
    exec (.msgRingWaitRelease i) s = .next (s.cellMsg i id p) := by
  show execMsgRingWaitRelease i s = _
  unfold execMsgRingWaitRelease
  simp only [ha, hw, if_true, State.msgAt, hd]

/-- R269: a message performed: its slot, its bytes, and nothing else of the memories. -/
theorem ringPutMsg_effect (s : State) (id base k : Nat) (arg : Word) (payload : Bytes) :
    let t := s.ringPutMsg id base k arg.toNat payload
    let at_ := base + 528 * k
    let bs := leBytes 8 arg.toNat ++ zeros 8 ++ payload
    t.pkts = s.pkts ∧ t.hbm = s.hbm ∧ t.host.mem = s.host.mem ∧
      (t.cell id).ring = (s.cell id).ring ++ [{ slot := k, header := arg }] ∧
      (∀ j, j < bs.length → t.lmByte (s.phys id) (at_ + j) = bs.getD j 0) ∧
      ∀ r o, r ≠ s.phys id ∨ o < at_ ∨ at_ + bs.length ≤ o → t.lmByte r o = s.lmByte r o := by
  intro t at_ bs
  let f : CellMem → CellMem := fun c => { c.write at_ bs with ring := c.ring ++ [{ slot := k, header := arg }] }
  obtain ⟨r, ht⟩ : ∃ r, t = { s.modCell id f with regs := r } := by
    obtain ⟨r, hr⟩ := State.high_eq (s.modCell id f) (Reg.cellMsgStatusRxHighWater (s.phys id)) ((s.modCell id f).cell id).ring.length
    refine ⟨r, Eq.trans ?_ hr⟩
    show State.ringPutMsg s id base k arg.toNat payload = _
    unfold State.ringPutMsg
    rw [BitVec.ofNat_toNat, BitVec.setWidth_eq]
    rfl
  have hlm : ∀ q o, t.lmByte q o = if q = s.phys id then sget 0 (ssetN 0 (s.cell id).lm at_ bs) o else s.lmByte q o := fun q o => by
    rw [ht]; exact lmByte_modCell s id f q o
  have hread : ∀ o, at_ ≤ o → sget 0 (ssetN 0 (s.cell id).lm at_ bs) o = (bs[o - at_]?).getD (s.lmByte (s.phys id) o) := fun o h => by
    rw [sget_ssetN, if_pos h]; rfl
  have hcell : t.cell id = f (s.cell id) := by rw [ht]; exact cell_modCell_same s id f
  refine ⟨by rw [ht]; rfl, by rw [ht]; rfl, by rw [ht]; rfl, by rw [hcell], fun j hj => ?_, fun q o h => ?_⟩
  · rw [hlm, if_pos rfl, hread _ (Nat.le_add_right ..), Nat.add_sub_cancel_left, List.getD_eq_getElem?_getD,
      List.getElem?_eq_getElem hj]
    rfl
  · rw [hlm]
    split
    · next hq =>
      rcases h with h | h | h
      · exact absurd hq h
      · rw [sget_ssetN_lt _ _ _ h, hq]; rfl
      · rw [hread o (by omega), List.getElem?_eq_none (by omega), hq]; rfl
    · rfl

end

/-- Settles O25: STORE, ATOMIC and dynamic MSG packets at a cell are performed, refused or, without room in the ring, wait. -/
theorem requestPackets : Obligations.RequestPackets := by
  unfold Obligations.RequestPackets
  intro s i id p n q answers others holds hd hr
  have answered {u : State} (a : Packet) (h : u.pkts = s.pkts.eraseIdx i) : answers (u.post a) a :=
    ⟨_, congrArg (· ++ [_]) h⟩
  have stored {t : State} {off : Nat} {bs : Bytes} {a : Packet} (ht : t = ((s.dropPkt i).lmStores id [(off, bs)]).post a)
      (he : (s.cell id).lmErr = []) : answers t a ∧ holds t off bs ∧ others t off (off + bs.length) ∧ t.regs = s.regs ∧
        ∀ j k, t.swarm j k = s.swarm j k := by
    subst ht
    have hs : StoresOnly (s.dropPkt i) ((s.dropPkt i).lmStores id [(off, bs)]) id := lmStores_storesOnly (s := s.dropPkt i) he _
    refine ⟨answered _ (by rw [hs.state]; rfl), fun j hj => ?_, ⟨?_, ?_, fun r o h => ?_⟩, ?_, fun j k => hs.swarms j k⟩
    · exact lmByte_lmStores_in (s.dropPkt i) id off hj
    · show ((s.dropPkt i).lmStores id [(off, bs)]).hbm = s.hbm
      rw [hs.state]
      rfl
    · show ((s.dropPkt i).lmStores id [(off, bs)]).host.mem = s.host.mem
      rw [hs.state]
      rfl
    · exact State.lmByte_lmStores_out (s.dropPkt i) id off bs h
    · show ((s.dropPkt i).lmStores id [(off, bs)]).regs = s.regs
      rw [hs.state]
      rfl
  refine ⟨fun c hc => ?refused, fun ha h0 hrep he => ?store, fun ha h0 hrep he => ?atomic,
    fun base slots k ha h0 hring hres => ⟨fun hroom hk hin => ?msg, fun hroom hw => ?waits⟩, fun ha h0 hring hw => ?noRing⟩
  case refused =>
    have key {cause : Nat} (hz : cause ≠ 0) (hcause : s.inboundCause id (if p.kind = .atomic then bits p.arg.toNat 0 21 else p.arg.toNat) n
        (decide (p.kind = .atomic)) = cause) :
        exec c s = .next (((s.dropPkt i).inboundCount id cause).post (p.answer .refuse cause [])) := by
      rcases hc with ⟨rfl, ha⟩ | ⟨rfl, ha⟩
      · have hk := kind_of_arriving ha
        exact exec_store_refused hd hr ha (by simpa [hk] using hcause) hz
      · have hk := kind_of_arriving ha
        exact exec_atomic_refused hd hr ha (by simpa [hk] using hcause) hz
    refine ⟨fun h0 => ?_, fun h0 hrep => ?_⟩
    · exact ⟨_, key (by decide) (inboundCause_reset h0 _ _ _), .of_eq rfl rfl rfl, answered _ rfl, rfl⟩
    · exact ⟨_, key (by decide) (inboundCause_replica h0 hrep _), keepsBytes_answered s i _ _ 1, answered _ (State.bump_pkts ..),
        rd_answered_same s i _ (Reg.cellLmStatusReplicaWriteCount q) 1 (show 48 + 16 ≤ 64 by decide) (show 2 ^ 16 - 1 = 0xFFFF by decide)⟩
  case store =>
    obtain ⟨h1, h2, h3, h4, h5⟩ := stored rfl he
    exact ⟨_, exec_store_done hd hr ha (inboundCause_clean h0 hrep he _), h1, h2, h3, h4, h5⟩
  case atomic =>
    obtain ⟨h1, h2, h3, h4, h5⟩ := stored rfl he
    refine ⟨_, exec_atomic_done hd hr ha (inboundCause_clean h0 hrep he _) he, ?_, h4, h5, h2, h1⟩
    simpa [Packet.updated] using h3
  case msg =>
    obtain ⟨h1, h2, h3, h4, h5, h6⟩ := ringPutMsg_effect (s.dropPkt i) id base k p.arg p.payload
    have hlen : (leBytes 8 p.arg.toNat ++ zeros 8 ++ p.payload).length = 16 + n := by
      simp only [List.length_append, leBytes_length, zeros_length, n]
    have hex : exec (if p.waiting then .msgRingWaitRelease i else .msgPacket i .none) s = .next (s.cellMsg i id p) := by
      cases hw : p.waiting
      · exact exec_msg_first hd ha hw
      · exact exec_msg_waiting hd ha hw
    have ht := hex.trans (congrArg Host.Outcome.next (cellMsg_delivers hr h0 hring hres hroom hk hin))
    generalize (s.dropPkt i).ringPutMsg id base k p.arg.toNat p.payload = t at ht h1 h2 h3 h4 h5 h6
    exact ⟨_, ht, answered _ h1, h4, h5, h2, h3, fun r o h => h6 r o (h.imp_right fun h => by rw [hlen]; omega)⟩
  case waits => exact ⟨_, (exec_msg_first hd ha hw).trans (congrArg _ (cellMsg_waits hr h0 hring hres hroom)), rfl⟩
  case noRing =>
    exact ⟨_, (exec_msg_first hd ha hw).trans (congrArg _ (cellMsg_refused hr h0 hring)), keepsBytes_answered s i _ _ 1,
      answered _ (State.bump_pkts ..),
      rd_answered_same s i _ (Reg.cellMsgStatusRxRefused q) 1 (show 32 + 16 ≤ 64 by decide) (show 2 ^ 16 - 1 = 0xFFFF by decide)⟩

end Sys2Proof.Machine
end

section
/-! PROOFS. Check 10 passed: what a memory instruction goes on to (R163, R281). -/
namespace Sys2Proof.Machine

theorem firstFail_eq_none {l : List LaneAcc} {cs : List (Nat × (LaneAcc → Bool))} (h : ∀ c ∈ cs, ∀ a ∈ l, c.2 a = false) :
    firstFail l cs = none := by
  induction cs with
  | nil => rfl
  | cons c cs ih =>
    have hc : l.filter c.2 = [] := List.filter_eq_nil_iff.2 fun a ha => by rw [h c (.head _) a ha]; exact Bool.false_ne_true
    obtain ⟨code, bad⟩ := c
    rw [firstFail, hc]
    exact ih fun c hc => h c (.tail _ hc)

section
variable {s : State} {id k x : Nat}

/-- R163: no local access of the instruction meets a live replica range or an uncorrectable word. -/
def State.clearLocal (s : State) (id k x : Nat) : Prop :=
  (∀ e ∈ locOf ((s.swarm id k).accs id x), (s.cell id).inReplica e.2 (memWidth x) = false) ∧
    (s.cell id).uceLanes x ((s.swarm id k).accs id x) = []

theorem clearLocal_of_locOf_nil (h : locOf ((s.swarm id k).accs id x) = []) : s.clearLocal id k x := by
  refine ⟨fun e he => ?_, ?_⟩
  · rw [h] at he; cases he
  · rw [CellMem.uceLanes, h]; rfl

/-- R281: every access passes the checks of its covering region. -/
def Covered (x : Nat) (descs : List (LaneAcc × Desc)) : Prop := ∀ e ∈ descs, e.2.check e.1.addr (memWidth x) (!isLoad x) = 0

theorem memPerform_passes {descs : List (LaneAcc × Desc)} (hd : Covered x descs) (hl : s.clearLocal id k x) :
    s.memPerform id k x descs =
      if isAtom x then s.atomDone id k x
      else if !isLoad x then s.storeDone id k x descs
      else if descs.isEmpty then s.loadDone id k x []
      else (descs.foldl (fun s e => s.memreq id k x e.1 e.2 none) s).modSwarm id k fun w =>
        { w with mem := some { insn := x, walking := false, outstanding := descs.map fun e => e.1.lane } } := by
  have none_fail : ∀ code, code ≠ 0 → descs.filter (fun e => e.2.check e.1.addr (memWidth x) (!isLoad x) == code) = [] :=
    fun code hc => List.filter_eq_nil_iff.2 fun e he => by simpa [hd e he] using hc.symm
  have hrep : (locOf ((s.swarm id k).accs id x)).filter (fun e => (s.cell id).inReplica e.2 (memWidth x)) = [] :=
    List.filter_eq_nil_iff.2 fun e he => by simp [hl.1 e he]
  have hrep : (if isLoad x then [] else
      ((locOf ((s.swarm id k).accs id x)).filter fun e => (s.cell id).inReplica e.2 (memWidth x)).map (·.1)) = [] := by
    rw [hrep]; split <;> rfl
  unfold State.memPerform
  dsimp only
  rw [none_fail 0x3003 (by decide), none_fail 0x3004 (by decide), hrep, hl.2]

theorem memPerform_store {descs : List (LaneAcc × Desc)} (hd : Covered x descs) (hl : s.clearLocal id k x) (ha : isAtom x = false)
    (hx : isLoad x = false) : s.memPerform id k x descs = s.storeDone id k x descs := by
  simp [memPerform_passes hd hl, ha, hx]

theorem memPerform_request {descs : List (LaneAcc × Desc)} (hd : Covered x descs) (hl : s.clearLocal id k x) (ha : isAtom x = false)
    (hx : isLoad x = true) (hne : descs ≠ []) : s.memPerform id k x descs =
      (descs.foldl (fun s e => s.memreq id k x e.1 e.2 none) s).modSwarm id k fun w =>
        { w with mem := some { insn := x, walking := false, outstanding := descs.map fun e => e.1.lane } } := by
  simp [memPerform_passes hd hl, ha, hx, hne]

theorem memPerform_atom (hl : s.clearLocal id k x) (ha : isAtom x = true) : s.memPerform id k x [] = s.atomDone id k x := by
  rw [memPerform_passes (fun e he => by cases he) hl, if_pos ha]

end

section
variable {s : State} {id k x : Nat} {cs : List (LaneAcc × Cover)}

/-- R281: a memory instruction that still needs a walk is held. -/
theorem memStep_walk (hf : firstFail ((s.swarm id k).accs id x) (memChecks x) = none)
    (hcs : (extOf ((s.swarm id k).accs id x)).map (fun a =>
      (a, s.cover id (s.swarm id k).ctx (((s.swarm id k).mem.map (·.done)).getD []) a.addr)) = cs)
    (hw : (cs.any fun e => e.2 == .walk) = true) :
    s.memStep id k x = s.modSwarm id k fun w => { w with
      mem := some { insn := x, done := ((s.swarm id k).mem.map (·.done)).getD [] } } := by
  unfold State.memStep
  simp only [hf, hcs, hw, if_true]

/-- R163, R281: a memory instruction whose accesses all have their covering regions goes on. -/
theorem memStep_covered (hf : firstFail ((s.swarm id k).accs id x) (memChecks x) = none)
    (hcs : (extOf ((s.swarm id k).accs id x)).map (fun a =>
      (a, s.cover id (s.swarm id k).ctx (((s.swarm id k).mem.map (·.done)).getD []) a.addr)) = cs)
    (hw : (cs.any fun e => e.2 == .walk) = false) (hn : coverFails cs = []) :
    s.memStep id k x = s.memPerform id k x (coverDescs cs) := by
  unfold State.memStep
  simp only [hf, hcs, hw, hn, Bool.false_eq_true, if_false]

end

/-! ### LDU and STU -/

section
variable {op d a wd : Nat}

/-- The word of an LDU or STU of `2 ^ wd` bytes in the device space. -/
def uniWord (op d a wd : Nat) : Nat := mWord op 0 0 d a 0 0 0 0 0 1 1 wd

/-- R134, R150: an LDU or STU whose operands are valid. -/
structure UniWord (op d a wd : Nat) : Prop where
  op : op = 0x32 ∨ op = 0x33
  data : d < 64
  base : a < 64
  width : wd ≤ 3

theorem UniWord.fields (h : UniWord op d a wd) : let x := uniWord op d a wd
    wOp x = op ∧ wGuard x = 0 ∧ wFn x = 0 ∧ wD x = d ∧ wA x = a ∧ wB x = 0 ∧ mMfmt x = 0 ∧ mRfmt x = 0 ∧ mZp x = 0 ∧
      mShift x = 0 ∧ mNoidx x = true ∧ mDevice x = true ∧ mW x = wd ∧ bits x 0 1 = 0 := by
  obtain ⟨ho, hd, ha, hw⟩ := h
  exact mWord_fields (ni := 1) (sp := 1) (by omega) (by decide) (by decide) (by omega) (by omega) (by decide) (by decide) (by decide)
    (by decide) (by decide) (by decide) (by decide) (by omega)

theorem UniWord.isUni (h : UniWord op d a wd) : isUni (uniWord op d a wd) = true := by
  rw [Machine.isUni, h.fields.1]
  rcases h.op with rfl | rfl <;> rfl

theorem UniWord.isAtom (h : UniWord op d a wd) : isAtom (uniWord op d a wd) = false := by
  rw [Machine.isAtom, h.fields.1]
  rcases h.op with rfl | rfl <;> rfl

theorem UniWord.isLoad (h : UniWord op d a wd) : isLoad (uniWord op d a wd) = (op == 0x32) := by
  rw [Machine.isLoad, h.fields.1]
  rcases h.op with rfl | rfl <;> rfl

theorem UniWord.memWidth (h : UniWord op d a wd) : memWidth (uniWord op d a wd) = 2 ^ wd := by
  obtain ⟨_, _, _, _, _, _, hm, _, _, _, _, _, hW, _⟩ := h.fields
  rw [Machine.memWidth, hm, hW]
  rfl

theorem UniWord.encUni (h : UniWord op d a wd) : firstBad (encUni (uniWord op d a wd)) = none := by
  obtain ⟨_, hG, hF, hD, hA, hB, _, _, _, hs, hN, _, hW, h0⟩ := h.fields
  obtain ⟨_, hd, ha, hw⟩ := h
  simp [Machine.encUni, hG, hF, hD, hA, hB, hs, hN, hW, h0, okU, firstBad, hd, ha, Nat.le_succ_of_le hw]

theorem UniWord.fmtRaw (h : UniWord op d a wd) : firstBad (fmtRaw [0, 1, 2, 3] (uniWord op d a wd)) = none := by
  obtain ⟨_, _, _, _, _, _, hm, hr, hz, _, _, _, hW, _⟩ := h.fields
  have hw : wd = 0 ∨ wd = 1 ∨ wd = 2 ∨ wd = 3 := by have := h.width; omega
  simp [Machine.fmtRaw, hm, hr, hz, hW, hw, firstBad]

/-- R150: LDU goes on to check 10. -/
theorem execLdu_eq {s : State} {cell : BitVec 10} {slot : BitVec 4} (h : UniWord 0x32 d a wd)
    (hs : s.stands cell.toNat slot.toNat (uniWord 0x32 d a wd) false false = true) :
    exec (.ldu cell slot) s = .next (s.memStep cell.toNat slot.toNat (uniWord 0x32 d a wd)) :=
  congrArg Host.Outcome.next <| issue_stands hs (by rw [isOp, h.fields.1]; rfl) h.encUni (fun h => by cases h) rfl h.fmtRaw

/-- R150: STU goes on to check 10. -/
theorem execStu_eq {s : State} {cell : BitVec 10} {slot : BitVec 4} (h : UniWord 0x33 d a wd)
    (hs : s.stands cell.toNat slot.toNat (uniWord 0x33 d a wd) false false = true) :
    exec (.stu cell slot) s = .next (s.memStep cell.toNat slot.toNat (uniWord 0x33 d a wd)) :=
  congrArg Host.Outcome.next <| issue_stands hs (by rw [isOp, h.fields.1]; rfl) h.encUni (fun h => by cases h) rfl h.fmtRaw

/-- R150: the one access of an LDU or STU, that of lane 0. -/
def uniAcc (addr : Nat) (t : Target) : LaneAcc := { lane := 0, addr := addr, target := t }

theorem UniWord.accs (h : UniWord op d a wd) (w : Swarm) (id : Nat) :
    w.accs id (uniWord op d a wd) = [uniAcc (w.ureg a) (targetOf id (uniWord op d a wd) (w.ureg a))] := by
  obtain ⟨_, _, _, _, hA, _, _, _, _, _, hN, _, _, _⟩ := h.fields
  have hlt : w.ureg a % 2 ^ 64 = w.ureg a := Nat.mod_eq_of_lt (sget 0 w.u a).isLt
  simp only [Swarm.accs, h.isUni, if_true, List.map_cons, List.map_nil, hN, hA, Nat.add_zero, hlt]
  rfl

theorem UniWord.targetOf_window (h : UniWord op d a wd) {id addr j o : Nat} (hp : placeOf addr = .window j o) (hj : j ≠ id) :
    targetOf id (uniWord op d a wd) addr = .rem j o := by
  obtain ⟨_, _, _, _, _, _, _, _, _, _, _, hS, _, _⟩ := h.fields
  simp [targetOf, hS, hp, hj]

theorem UniWord.targetOf_hbm (h : UniWord op d a wd) {id addr : Nat} (ha : addr < 2 ^ 39) :
    targetOf id (uniWord op d a wd) addr = .ext .hbm := by
  obtain ⟨_, _, _, _, _, _, _, _, _, _, _, hS, _, _⟩ := h.fields
  have hp : placeOf addr = .hbm := if_pos ha
  simp [targetOf, hS, hp]

/-- R102, R163: an aligned access of an HBM address passes check 10 as far as the regions. -/
theorem UniWord.checks_hbm (h : UniWord op d a wd) {addr : Nat} (ha : addr % 2 ^ wd = 0) :
    firstFail [uniAcc addr (.ext .hbm)] (memChecks (uniWord op d a wd)) = none := by
  refine firstFail_eq_none ?_
  simp only [memChecks, h.isAtom, h.memWidth, List.mem_cons, List.not_mem_nil, or_false, forall_eq_or_imp, forall_eq, uniAcc]
  simp [ha]

/-- R102, R163: an aligned store into another cell's window passes check 10. -/
theorem UniWord.checks_window (h : UniWord 0x33 d a wd) {addr j o : Nat} (ha : addr % 2 ^ wd = 0) (hj : isLogical j = true)
    (ho : o + 2 ^ wd ≤ 0x180000) : firstFail [uniAcc addr (.rem j o)] (memChecks (uniWord 0x33 d a wd)) = none := by
  refine firstFail_eq_none ?_
  simp only [memChecks, h.isAtom, h.isLoad, h.memWidth, List.mem_cons, List.not_mem_nil, or_false, forall_eq_or_imp, forall_eq, uniAcc]
  simp [ha, hj, ho]

end

end Sys2Proof.Machine
end

section
/-! PROOFS (O21). Stores that leave the cell, and loads from a region (R102, R150, R256, R281 to R283). -/
namespace Sys2Proof.Machine

/-! ### The STORE packet of one run of bytes (R256) -/

theorem sins_last {α : Type} {l : Sparse α} {k : Nat} (v : α) (h : ∀ e ∈ l, e.1 < k) : sins (sdel l k) k v = l ++ [(k, v)] := by
  induction l with
  | nil => rfl
  | cons e l ih =>
    obtain ⟨k', v'⟩ := e
    have hk : k' < k := h _ (.head _)
    rw [sdel, if_neg (Nat.ne_of_lt hk), sins, if_neg (Nat.not_lt.2 (Nat.le_of_lt hk)), ih fun e he => h e (.tail _ he)]
    rfl

theorem foldl_sins_consecutive {α : Type} (o : Nat) (f : Nat → α) (n : Nat) :
    (List.range n).foldl (fun m k => sins (sdel m (o + k)) (o + k) (f k)) [] = (List.range n).map fun k => (o + k, f k) := by
  induction n with
  | zero => rfl
  | succ n ih =>
    rw [List.range_succ, List.foldl_append, ih, List.map_append]
    refine sins_last _ fun e he => ?_
    obtain ⟨k, hk, rfl⟩ := List.mem_map.1 he
    exact Nat.add_lt_add_left (List.mem_range.1 hk) o

theorem splitRuns_consecutive (o : Nat) (f : Nat → Byte) {n : Nat} (hn : n < 512) :
    splitRuns ((List.range (n + 1)).map fun k => (o + k, f k)) = [(o, (List.range (n + 1)).map f)] := by
  induction n with
  | zero => rfl
  | succ n ih =>
    rw [List.range_succ, List.map_append, splitRuns, List.foldl_append]
    rw [splitRuns] at ih
    rw [ih (by omega), List.map_append]
    simp [hn]

theorem map_getD_range (bs : Bytes) : (List.range bs.length).map (fun k => bs.getD k 0) = bs := by
  refine List.ext_getElem (by simp) fun j h _ => ?_
  rw [List.length_map, List.length_range] at h
  simp [h]

/-- R256: one store of up to 512 bytes into one other cell is one STORE packet. -/
theorem remoteStores_single (s : State) (id k j o : Nat) {bs : Bytes} (h0 : bs ≠ []) (hn : bs.length ≤ 512) :
    s.remoteStores id k [(j, o, bs)] = s.post { kind := .store, src := .cell id, dst := .cell j, arg := BitVec.ofNat 64 o, payload := bs,
                                                origin := { slot := k, scope := scopeOf id j } } := by
  obtain ⟨n, hl⟩ : ∃ n, bs.length = n + 1 := Nat.exists_eq_succ_of_ne_zero fun h => h0 (List.length_eq_zero_iff.1 h)
  have hruns : splitRuns ((List.range bs.length).foldl (fun m k => sins (sdel m (o + k)) (o + k) (bs.getD k 0)) []) = [(o, bs)] := by
    rw [foldl_sins_consecutive, hl, splitRuns_consecutive o _ (by omega), ← hl, map_getD_range]
  have hf : [(j, o, bs)].filter (fun e => e.1 == j) = [(j, o, bs)] := by simp
  show (splitRuns (([(j, o, bs)].filter fun e => e.1 == j).foldl (fun m e =>
    (List.range e.2.2.length).foldl (fun m k => sins (sdel m (e.2.1 + k)) (e.2.1 + k) (e.2.2.getD k 0)) m) [])).foldl _ s = _
  rw [hf]
  show (splitRuns ((List.range bs.length).foldl (fun m k => sins (sdel m (o + k)) (o + k) (bs.getD k 0)) [])).foldl _ s = _
  rw [hruns]
  rfl

/-! ### A store that sends -/

section
variable {s : State} {id k x : Nat}

/-- The state in which a store without local lanes sends its packets: the pass counter is written, and nothing is stored. -/
def State.storeIdle (s : State) (id x : Nat) : State := (s.passes id [] (memWidth x)).lmStores id []

theorem laneConv_none (s : State) (id k v : Nat) : s.laneConv id k { out := v } = s := rfl

/-- R102, R283: a uniform store outside the cell's own memory only sends, and commits. -/
theorem storeDone_uni (hu : isUni x = true) (hl : locOf ((s.swarm id k).accs id x) = []) (descs : List (LaneAcc × Desc)) :
    let bs := leBytes (memWidth x) ((s.swarm id k).ureg (wD x))
    s.storeDone id k x descs =
      ((((descs.foldl (fun s e => s.memreq id k x e.1 e.2 (some bs)) (s.storeIdle id x)).remoteStores id k
        ((remOf ((s.swarm id k).accs id x)).map fun e => (e.2.1, e.2.2, bs))).modSwarm id k
          fun w => { w with mem := none }).commit id k) := by
  intro bs
  have hst : ∀ i, (s.swarm id k).storeLane x i = (bs, { out := 0 }) := fun i => by
    rw [Swarm.storeLane, if_pos hu]
  have hconv : ∀ (l : List LaneAcc) (s : State), l.foldl (fun s _ => s.laneConv id k { out := 0 }) s = s := fun l => by
    induction l with
    | nil => exact fun _ => rfl
    | cons a l ih => exact fun s => ih s
  unfold State.storeDone
  simp only [hst, hl, hconv, List.map_nil, State.storeIdle]

/-- No stores change no byte, no swarm, no register and no packet. -/
theorem lmStores_nil (s : State) (id : Nat) : s.lmStores id [] = s.modCell id fun c => c := rfl

theorem passes_eq (s : State) (id : Nat) (offs : List Nat) (w : Nat) : ∃ r, s.passes id offs w = { s with regs := r } := ⟨_, rfl⟩

theorem storeIdle_sameBytes (s : State) (id x : Nat) : SameBytes s (s.storeIdle id x) := by
  rw [State.storeIdle, lmStores_nil]
  exact ((RegsOnly.refl s).wr _ _).sameBytes.trans (.modCell _ id fun _ => rfl)

theorem swarm_storeIdle (i j : Nat) : (s.storeIdle id x).swarm i j = s.swarm i j := by
  obtain ⟨r, hr⟩ := passes_eq s id [] (memWidth x)
  rw [State.storeIdle, lmStores_nil, swarm_modCell_of_swarms fun _ => rfl, hr]
  rfl

theorem pkts_storeIdle (s : State) (id x : Nat) : (s.storeIdle id x).pkts = s.pkts := by
  obtain ⟨r, hr⟩ := passes_eq s id [] (memWidth x)
  rw [State.storeIdle, lmStores_nil, hr]
  rfl

/-- R93: of the registers, a pass of local accesses writes the pass counter alone. -/
theorem keepsRegs_passes (s : State) (id : Nat) (offs : List Nat) (w : Nat) : KeepsRegs s (s.passes id offs w) (s.phys id) := by
  intro o ho
  have hne : o ≠ (Reg.cellLmStatusExtraPasses (s.phys id)).off := fun h => by
    subst h
    exact ho (.tail _ (.head _))
  rw [State.passes, incr_def, reg_wr_ne _ _ _ hne]

/-- What a store that only sends packet `p` leaves. -/
structure Sent (s t : State) (id k : Nat) (p : Packet) : Prop where
  bytes : KeepsBytes s t
  swarms : KeepsSwarms s t id k
  regs : KeepsRegs s t (s.phys id)
  swarm : t.swarm id k = (s.swarm id k).advance none
  sends : Sends s t p

theorem swarm_post (s : State) (p : Packet) (i j : Nat) : (s.post p).swarm i j = s.swarm i j := rfl

theorem reg_post (s : State) (p : Packet) (o : Nat) : (s.post p).reg o = s.reg o := rfl

theorem post_sameBytes (s : State) (p : Packet) : SameBytes s (s.post p) := ⟨.of_eq rfl rfl rfl, rfl⟩

/-- R102, R120, R283: a store that sends one packet and commits. -/
theorem storeIdle_sent (hm : (s.swarm id k).mem = none) (h1 : (s.swarm id k).asyncFaults = []) (h2 : (s.swarm id k).parkReq = none)
    (p : Packet) : Sent s ((((s.storeIdle id x).post p).modSwarm id k fun w => { w with mem := none }).commit id k) id k p := by
  have hbytes : SameBytes s ((s.storeIdle id x).post p) := (storeIdle_sameBytes s id x).trans (post_sameBytes _ p)
  have hswarm : ∀ i j, ((s.storeIdle id x).post p).swarm i j = s.swarm i j := fun i j => (swarm_post ..).trans (swarm_storeIdle i j)
  have hregs : KeepsRegs s ((s.storeIdle id x).post p) (s.phys id) := fun o ho => by
    rw [reg_post, State.storeIdle, lmStores_nil, State.reg_modCell]
    exact keepsRegs_passes s id [] (memWidth x) o ho
  have hsends : Sends s ((s.storeIdle id x).post p) p := ⟨_, congrArg (· ++ [_]) (pkts_storeIdle s id x)⟩
  generalize (s.storeIdle id x).post p = u at hbytes hswarm hregs hsends ⊢
  have hw : ({ u.swarm id k with mem := none } : Swarm) = s.swarm id k := by rw [hswarm, ← hm]
  rw [commit_modSwarm u id k _ (by rw [hw, h1]) (by rw [hw, h2])]
  refine ⟨hbytes.toKeepsBytes.trans (onlySwarm_modSwarm ..).bytes, fun i j h => ?_, hregs, ?_, hsends⟩
  · rw [swarm_modSwarm, hbytes.phys, hbytes.phys, if_neg fun hc => h.elim (· hc.1) (· hc.2), hswarm]
  · rw [swarm_modSwarm_same, hw]

end
/-! ### Check 10 of an LDU or STU -/

section
variable {s : State} {id k op d a wd : Nat} {e : Desc}

theorem memStep_window (h : UniWord 0x33 d a wd) {j o : Nat} (hp : placeOf ((s.swarm id k).ureg a) = .window j o) (hj : j ≠ id)
    (hl : isLogical j = true) (ho : o + 2 ^ wd ≤ 0x180000) (ha : (s.swarm id k).ureg a % 2 ^ wd = 0) :
    s.memStep id k (uniWord 0x33 d a wd) = s.memPerform id k (uniWord 0x33 d a wd) [] := by
  refine memStep_covered (cs := []) ?_ ?_ rfl rfl
  · rw [h.accs, h.targetOf_window hp hj, h.checks_window ha hl ho]
  · rw [h.accs, h.targetOf_window hp hj]; rfl

/-- R281: an access of HBM that its covering region is known for goes on. -/
theorem memStep_region (h : UniWord op d a wd) (hlt : (s.swarm id k).ureg a < 2 ^ 39) (ha : (s.swarm id k).ureg a % 2 ^ wd = 0)
    (hc : s.cover id (s.swarm id k).ctx (((s.swarm id k).mem.map (·.done)).getD []) ((s.swarm id k).ureg a) = .region e) :
    s.memStep id k (uniWord op d a wd) =
      s.memPerform id k (uniWord op d a wd) [(uniAcc ((s.swarm id k).ureg a) (.ext .hbm), e)] := by
  refine memStep_covered (cs := [(uniAcc ((s.swarm id k).ureg a) (.ext .hbm), .region e)]) ?_ ?_ rfl rfl
  · rw [h.accs, h.targetOf_hbm hlt, h.checks_hbm ha]
  · rw [h.accs, h.targetOf_hbm hlt, ← hc]; rfl

/-- R281: an access of HBM that no region is known for waits for a walk. -/
theorem memStep_needsWalk (h : UniWord op d a wd) (hlt : (s.swarm id k).ureg a < 2 ^ 39) (ha : (s.swarm id k).ureg a % 2 ^ wd = 0)
    (hm : (s.swarm id k).mem = none) (hc : s.cover id (s.swarm id k).ctx [] ((s.swarm id k).ureg a) = .walk) :
    s.memStep id k (uniWord op d a wd) = s.modSwarm id k fun w => { w with mem := some { insn := uniWord op d a wd } } := by
  have hd : ((s.swarm id k).mem.map (·.done)).getD [] = [] := by rw [hm]; rfl
  refine (memStep_walk (cs := [(uniAcc ((s.swarm id k).ureg a) (.ext .hbm), .walk)]) ?_ ?_ rfl).trans (by rw [hd])
  · rw [h.accs, h.targetOf_hbm hlt, h.checks_hbm ha]
  · rw [h.accs, h.targetOf_hbm hlt, hd, ← hc]; rfl

theorem requestArg_eq {addr : Nat} (h : addr < 2 ^ 39) (u n : Nat) :
    addr % 2 ^ 52 + u * 2 ^ 52 + (n - 1) * 2 ^ 53 + false.toNat * 2 ^ 62 + false.toNat * 2 ^ 63 = addr + u * 2 ^ 52 + (n - 1) * 2 ^ 53 := by
  rw [Bool.toNat_false]
  omega

/-- Table 14-5: the MEMREQ of an access of HBM through a region without attributes. -/
theorem memreq_hbm {x addr : Nat} (hlt : addr < 2 ^ 39) (hh : e.host = false) (hn : e.noSnoop = false) (hr : e.relaxed = false)
    (t : Target) (data : Option Bytes) :
    s.memreq id k x (uniAcc addr t) e data = s.post (hbmRequest id k addr (memWidth x) data.isSome.toNat (data.getD [])) := by
  unfold State.memreq hbmRequest
  simp only [uniAcc, hh, hn, hr, Bool.false_eq_true, if_false, requestArg_eq hlt, Bool.not_false, Bool.true_and, beq_iff_eq]

theorem covered_of_fits (h : UniWord op d a wd) {addr : Nat} (hf : addr + 2 ^ wd ≤ e.start + e.size)
    (hp : if op = 0x32 then e.read = true else e.write = true) (t : Target) : Covered (uniWord op d a wd) [(uniAcc addr t, e)] := by
  intro p hm
  obtain rfl := List.mem_singleton.1 hm
  show e.check addr _ _ = 0
  rw [Desc.check, h.memWidth, h.isLoad, if_neg (Nat.not_lt.2 hf)]
  rcases h.op with rfl | rfl
  · simpa using hp
  · simpa using hp

/-- What a load that sends packet `p` leaves: its swarm is held. -/
def State.heldAt (s : State) (id k x : Nat) (p : Packet) : State :=
  (s.post p).modSwarm id k fun w => { w with mem := some { insn := x, walking := false, outstanding := [0] } }

/-- R281, R283: an LDU with READ of a region sends one MEMREQ and is held. -/
theorem memStep_ldu_region (h : UniWord 0x32 d a wd) (hlt : (s.swarm id k).ureg a < 2 ^ 39) (ha : (s.swarm id k).ureg a % 2 ^ wd = 0)
    (hf : (s.swarm id k).ureg a + 2 ^ wd ≤ e.start + e.size) (hh : e.host = false) (hn : e.noSnoop = false) (hr : e.relaxed = false)
    (hread : e.read = true)
    (hc : s.cover id (s.swarm id k).ctx (((s.swarm id k).mem.map (·.done)).getD []) ((s.swarm id k).ureg a) = .region e) :
    s.memStep id k (uniWord 0x32 d a wd) =
      s.heldAt id k (uniWord 0x32 d a wd) (hbmRequest id k ((s.swarm id k).ureg a) (2 ^ wd) 0 []) := by
  have hl : locOf ((s.swarm id k).accs id (uniWord 0x32 d a wd)) = [] := by rw [h.accs, h.targetOf_hbm hlt]; rfl
  rw [memStep_region h hlt ha hc, memPerform_request (covered_of_fits h hf hread _) (clearLocal_of_locOf_nil hl) h.isAtom h.isLoad
    (List.cons_ne_nil _ _)]
  have hreq := memreq_hbm (s := s) (id := id) (k := k) (x := uniWord 0x32 d a wd) hlt hh hn hr (.ext .hbm) none
  rw [h.memWidth] at hreq
  exact congrArg (fun t : State => t.modSwarm id k fun w =>
    { w with mem := some { insn := uniWord 0x32 d a wd, walking := false, outstanding := [0] } }) hreq

/-- R102, R256: an STU into another cell's window sends one STORE and commits. -/
theorem memStep_stu_window (h : UniWord 0x33 d a wd) {j o : Nat} (hp : placeOf ((s.swarm id k).ureg a) = .window j o) (hj : j ≠ id)
    (hl : isLogical j = true) (ho : o + 2 ^ wd ≤ 0x180000) (ha : (s.swarm id k).ureg a % 2 ^ wd = 0) :
    s.memStep id k (uniWord 0x33 d a wd) =
      (((s.storeIdle id (uniWord 0x33 d a wd)).post
        { kind := .store, src := .cell id, dst := .cell j, arg := BitVec.ofNat 64 o, payload := leBytes (2 ^ wd) ((s.swarm id k).ureg d),
          origin := { slot := k, scope := scopeOf id j } }).modSwarm id k fun w => { w with mem := none }).commit id k := by
  have hacc : (s.swarm id k).accs id (uniWord 0x33 d a wd) = [uniAcc ((s.swarm id k).ureg a) (.rem j o)] := by
    rw [h.accs, h.targetOf_window hp hj]
  have hloc : locOf ((s.swarm id k).accs id (uniWord 0x33 d a wd)) = [] := by rw [hacc]; rfl
  have hlen : (leBytes (2 ^ wd) ((s.swarm id k).ureg d)).length = 2 ^ wd := leBytes_length ..
  have hmax : 2 ^ wd ≤ 512 := Nat.le_trans (Nat.pow_le_pow_right (by decide) h.width) (by decide)
  have hne : leBytes (2 ^ wd) ((s.swarm id k).ureg d) ≠ [] := List.ne_nil_of_length_pos (by rw [hlen]; exact Nat.two_pow_pos wd)
  have hD := h.fields.2.2.2.1
  rw [memStep_window h hp hj hl ho ha, memPerform_store (fun e he => by cases he) (clearLocal_of_locOf_nil hloc) h.isAtom h.isLoad,
    storeDone_uni h.isUni hloc, hacc, hD, h.memWidth, List.foldl_nil]
  exact congrArg (fun t : State => (t.modSwarm id k fun w => { w with mem := none }).commit id k)
    (remoteStores_single _ id k j o hne (by rw [hlen]; exact hmax))

/-- R281, R283: an STU with WRITE of a region sends one MEMREQ with its bytes and commits. -/
theorem memStep_stu_region (h : UniWord 0x33 d a wd) (hlt : (s.swarm id k).ureg a < 2 ^ 39) (ha : (s.swarm id k).ureg a % 2 ^ wd = 0)
    (hf : (s.swarm id k).ureg a + 2 ^ wd ≤ e.start + e.size) (hh : e.host = false) (hn : e.noSnoop = false) (hr : e.relaxed = false)
    (hwrite : e.write = true)
    (hc : s.cover id (s.swarm id k).ctx (((s.swarm id k).mem.map (·.done)).getD []) ((s.swarm id k).ureg a) = .region e) :
    s.memStep id k (uniWord 0x33 d a wd) =
      (((s.storeIdle id (uniWord 0x33 d a wd)).post (hbmRequest id k ((s.swarm id k).ureg a) (2 ^ wd) 1
        (leBytes (2 ^ wd) ((s.swarm id k).ureg d)))).modSwarm id k fun w => { w with mem := none }).commit id k := by
  have hacc : (s.swarm id k).accs id (uniWord 0x33 d a wd) = [uniAcc ((s.swarm id k).ureg a) (.ext .hbm)] := by
    rw [h.accs, h.targetOf_hbm hlt]
  have hl : locOf ((s.swarm id k).accs id (uniWord 0x33 d a wd)) = [] := by rw [hacc]; rfl
  have hD := h.fields.2.2.2.1
  rw [memStep_region h hlt ha hc, memPerform_store (covered_of_fits h hf hwrite _) (clearLocal_of_locOf_nil hl) h.isAtom h.isLoad,
    storeDone_uni h.isUni hl, hacc, hD, h.memWidth, List.foldl_cons, List.foldl_nil, memreq_hbm hlt hh hn hr, h.memWidth]
  rfl

end

/-! ### The end of a walk -/

section
variable {s : State} {id k d a wd : Nat} {e : Desc}

/-- R281: which register holds an address, among those that do. -/
def lowerReg (b : Option RegionReg) (r : RegionReg) : Option RegionReg :=
  match b with
  | none => some r
  | some x => if r.num < x.num then some r else b

theorem regionFor_eq (c : CellMem) (n addr : Nat) :
    c.regionFor (some n) addr = (c.regions.filter fun r => r.ctx == n && r.desc.has addr).foldl lowerReg none := rfl

theorem foldl_lowerReg_isSome (l : List RegionReg) (r : RegionReg) : (l.foldl lowerReg (some r)).isSome = true := by
  induction l generalizing r with
  | nil => rfl
  | cons q l ih =>
    rw [List.foldl_cons, lowerReg]
    split <;> exact ih _

theorem filter_nil_of_regionFor {c : CellMem} {n addr : Nat} (h : c.regionFor (some n) addr = none) :
    c.regions.filter (fun r => r.ctx == n && r.desc.has addr) = [] := by
  rw [regionFor_eq] at h
  cases hl : c.regions.filter fun r => r.ctx == n && r.desc.has addr with
  | nil => rfl
  | cons r l =>
    rw [hl] at h
    have := foldl_lowerReg_isSome l r
    rw [List.foldl_cons] at h
    rw [show lowerReg none r = some r from rfl] at h
    rw [h] at this
    cases this

/-- R281: a walk's region register holds the descriptor reached; nothing else changes. -/
theorem fillRegion_effect (s : State) (id : Nat) (ctx : Option Nat) (e : Desc) (p : Nat) : s.fillRegion id ctx e p = s ∨
    ∃ r : RegionReg, r.desc = e ∧ ctx = some r.ctx ∧
      s.fillRegion id ctx e p = s.modCell id fun c => { c with regions := c.regions ++ [r] } := by
  unfold State.fillRegion
  cases ctx with
  | none => exact .inl rfl
  | some n =>
    dsimp only
    split
    · exact .inl rfl
    · split
      · exact .inl rfl
      · exact .inr ⟨_, rfl, rfl, rfl⟩

/-- R281: a new register that holds the address covers it where none did. -/
theorem regionFor_append {c : CellMem} {r : RegionReg} {addr : Nat} (h : c.regionFor (some r.ctx) addr = none) (hr : r.desc.has addr = true) :
    ({ c with regions := c.regions ++ [r] } : CellMem).regionFor (some r.ctx) addr = some r := by
  rw [regionFor_eq, List.filter_append, filter_nil_of_regionFor h]
  simp [hr, lowerReg]

/-- R282: an address is covered by the descriptor that the walk for its granule reached. -/
theorem cover_of_walk {t : State} {ctx : Option Nat} {addr p : Nat} (ha : e.has addr = true)
    (h : (t.cell id).regionFor ctx addr = none ∨ ∃ r, (t.cell id).regionFor ctx addr = some r ∧ r.desc = e) :
    t.cover id ctx [{ granule := addr / 2 ^ 21, desc := some (e, p) }] addr = .region e := by
  unfold State.cover
  rcases h with h | ⟨r, h, rfl⟩
  · rw [h]
    simp [WalkResult.covers, ha]
  · rw [h]

theorem cover_walk {ctx : Option Nat} {addr : Nat} (h : (s.cell id).regionFor ctx addr = none)
    (hw : s.rd (Reg.dispRegionRootWalkEn (chOf id)) = 1) : s.cover id ctx [] addr = .walk := by
  simp [State.cover, h, hw]

/-- The state in which a walk has ended: its counter is written, a register may be filled, and the swarm keeps the result. -/
def State.walked (s : State) (id k x : Nat) (e : Desc) (p : Nat) (r : WalkResult) : State :=
  ((s.incr (Reg.cellRegionStatusWalks (s.phys id))).fillRegion id (s.swarm id k).ctx e p).modSwarm id k fun w =>
    { w with mem := some { insn := x, done := [r] } }

theorem memWalk_eq (h : UniWord 0x32 d a wd) (hlt : (s.swarm id k).ureg a < 2 ^ 39) (hst : (s.swarm id k).st = .active)
    (hm : (s.swarm id k).mem = some { insn := uniWord 0x32 d a wd }) (hc : s.cover id (s.swarm id k).ctx [] ((s.swarm id k).ureg a) = .walk)
    (ha : e.has ((s.swarm id k).ureg a) = true) {p : Nat} (hw : s.cellWalk id ((s.swarm id k).ureg a) =
      (s.incr (Reg.cellRegionStatusWalks (s.phys id)), { granule := (s.swarm id k).ureg a / 2 ^ 21, desc := some (e, p) })) :
    s.memWalk id k = (s.walked id k (uniWord 0x32 d a wd) e p
      { granule := (s.swarm id k).ureg a / 2 ^ 21, desc := some (e, p) }).memStep id k (uniWord 0x32 d a wd) := by
  have hacc : extOf ((s.swarm id k).accs id (uniWord 0x32 d a wd)) = [uniAcc ((s.swarm id k).ureg a) (.ext .hbm)] := by
    rw [h.accs, h.targetOf_hbm hlt]; rfl
  have haddr : (uniAcc ((s.swarm id k).ureg a) (.ext .hbm)).addr = (s.swarm id k).ureg a := rfl
  have hfind : [uniAcc ((s.swarm id k).ureg a) (.ext .hbm)].find? (fun a => s.cover id (s.swarm id k).ctx [] a.addr == .walk) =
      some (uniAcc ((s.swarm id k).ureg a) (.ext .hbm)) := by
    rw [List.find?_cons, haddr, hc]; rfl
  unfold State.memWalk State.walked
  simp only [hm, hst, hacc, hfind, haddr, hw, ha, List.any_cons, List.any_nil, BEq.rfl, bne_self_eq_false, Bool.not_true, Bool.or_self,
    Bool.and_self, Bool.or_false, Bool.false_eq_true, if_false, if_true, List.nil_append]

/-- R281, R282: what the end of a walk changes, and that the address is then covered. -/
theorem walked_effect (x : Nat) {p : Nat} {r : WalkResult} (hr : r = { granule := (s.swarm id k).ureg a / 2 ^ 21, desc := some (e, p) })
    (ha : e.has ((s.swarm id k).ureg a) = true) (hn : (s.cell id).regionFor (s.swarm id k).ctx ((s.swarm id k).ureg a) = none) :
    let t := s.walked id k x e p r
    SameBytes s t ∧ KeepsSwarms s t id k ∧ t.swarm id k = { s.swarm id k with mem := some { insn := x, done := [r] } } ∧
      t.regs = (s.incr (Reg.cellRegionStatusWalks (s.phys id))).regs ∧ t.pkts = s.pkts ∧
      t.cover id (s.swarm id k).ctx [r] ((s.swarm id k).ureg a) = .region e := by
  have hinc : SameBytes s (s.incr (Reg.cellRegionStatusWalks (s.phys id))) := ((RegsOnly.refl s).wr _ _).sameBytes
  have hpkts : (s.incr (Reg.cellRegionStatusWalks (s.phys id))).pkts = s.pkts := State.incr_pkts ..
  have hcell : (s.incr (Reg.cellRegionStatusWalks (s.phys id))).cell id = s.cell id := State.cell_incr ..
  have hswarm : ∀ i j, (s.incr (Reg.cellRegionStatusWalks (s.phys id))).swarm i j = s.swarm i j := fun i j => State.swarm_incr ..
  intro t
  obtain ⟨u, hu, hsame, hregs, hup, hus, hcov⟩ : ∃ u,
      t = u.modSwarm id k (fun w => { w with mem := some { insn := x, done := [r] } }) ∧
      SameBytes s u ∧ u.regs = (s.incr (Reg.cellRegionStatusWalks (s.phys id))).regs ∧ u.pkts = s.pkts ∧
      (∀ i j, u.swarm i j = s.swarm i j) ∧ ((u.cell id).regionFor (s.swarm id k).ctx ((s.swarm id k).ureg a) = none ∨
        ∃ r, (u.cell id).regionFor (s.swarm id k).ctx ((s.swarm id k).ureg a) = some r ∧ r.desc = e) := by
    refine ⟨_, rfl, ?_⟩
    generalize s.incr (Reg.cellRegionStatusWalks (s.phys id)) = v at hinc hpkts hcell hswarm ⊢
    rcases fillRegion_effect v id (s.swarm id k).ctx e p with h | ⟨q, hq, hctx, h⟩
    · rw [h]
      exact ⟨hinc, rfl, hpkts, hswarm, .inl (by rw [hcell, hn])⟩
    · rw [h]
      refine ⟨hinc.trans (.modCell v id fun _ => rfl), rfl, hpkts, fun i j => ?_, .inr ⟨q, ?_, hq⟩⟩
      · exact (swarm_modCell_of_swarms (f := fun c => { c with regions := c.regions ++ [q] }) (fun _ => rfl) i j).trans (hswarm i j)
      · rw [cell_modCell_same, hcell, hctx]
        exact regionFor_append (hctx ▸ hn) (hq ▸ ha)
  have hm : SameBytes u t := hu ▸ .modCell u id fun _ => rfl
  refine ⟨hsame.trans hm, fun i j h => ?_, ?_, by rw [hu, ← hregs]; rfl, by rw [hu, ← hup]; rfl, ?_⟩
  · rw [hu, swarm_modSwarm, hsame.phys, hsame.phys, if_neg fun hc => h.elim (· hc.1) (· hc.2), hus]
  · rw [hu, swarm_modSwarm_same, hus]
  · rw [hr]
    refine cover_of_walk ha ?_
    have hreg : (t.cell id).regions = (u.cell id).regions := by rw [hu, State.modSwarm, cell_modCell_same]; rfl
    simpa only [CellMem.regionFor, hreg] using hcov

/-- What a held load leaves of the state it was asked in. -/
theorem heldAt_effect (s : State) (id k x : Nat) (p : Packet) :
    KeepsBytes s (s.heldAt id k x p) ∧ KeepsSwarms s (s.heldAt id k x p) id k ∧ (s.heldAt id k x p).regs = s.regs ∧
      (s.heldAt id k x p).swarm id k = { s.swarm id k with mem := some { insn := x, walking := false, outstanding := [0] } } ∧
      Sends s (s.heldAt id k x p) p := by
  have hb := (post_sameBytes s p)
  refine ⟨hb.toKeepsBytes.trans (onlySwarm_modSwarm ..).bytes, fun i j h => ?_, rfl, ?_, ⟨_, rfl⟩⟩
  · rw [State.heldAt, swarm_modSwarm, hb.phys, hb.phys, if_neg fun hc => h.elim (· hc.1) (· hc.2), swarm_post]
  · rw [State.heldAt, swarm_modSwarm_same, swarm_post]

end

/-- R95: a swarm that stands at a word is held at no memory instruction. -/
theorem mem_of_stands {s : State} {id k x : Nat} {isC isBranch : Bool} (h : s.stands id k x isC isBranch = true) :
    (s.swarm id k).mem = none := by
  obtain ⟨_, hr, _⟩ := (stands_iff ..).mp h
  simp only [Swarm.ready, Bool.and_eq_true, Option.isNone_iff_eq_none] at hr
  exact hr.1.2

/-- Settles O21: a store or a request leaves the cell as one packet, with or without a walk before it. -/
theorem remoteAndRegionAccess : Obligations.RemoteAndRegionAccess := by
  unfold Obligations.RemoteAndRegionAccess
  intro s cell slot d a wd e id k w ld st addr n hd ha hwd hal
  have hld : UniWord 0x32 d a wd := ⟨.inl rfl, hd, ha, hwd⟩
  have hst : UniWord 0x33 d a wd := ⟨.inr rfl, hd, ha, hwd⟩
  have done_nil (hm : w.mem = none) : (w.mem.map (·.done)).getD [] = [] := by rw [hm]; rfl
  refine ⟨fun j o hs hj hl hp ho => ?window, fun hlt hf hh hn hr => ⟨fun hread hs hc => ?load, fun hwrite hs hc => ?store,
    fun hs hnone hen => ?waits, fun hread hhas hruns hact hm hnone hen p hw => ?walk⟩⟩
  case window =>
    obtain ⟨h1, h2⟩ := quiet_of_stands hs
    have hscope : scopeOf id j = if chOf id = chOf j then 1 else 2 := by simp [scopeOf]
    have hstep := memStep_stu_window hst hp hj hl ho hal
    rw [hscope] at hstep
    obtain ⟨h3, h4, h5, h6, h7⟩ := storeIdle_sent (x := st) (mem_of_stands hs) h1 h2
      { kind := .store, src := .cell id, dst := .cell j, arg := BitVec.ofNat 64 o, payload := leBytes n (w.ureg d),
        origin := { slot := k, scope := if chOf id = chOf j then 1 else 2 } }
    exact ⟨_, (execStu_eq hst hs).trans (congrArg _ hstep), h3, h4, h5, h6, h7⟩
  case load =>
    obtain ⟨h1, h2, h3, h4, h5⟩ := heldAt_effect s id k ld (hbmRequest id k addr n 0 [])
    have hstep := memStep_ldu_region hld hlt hal hf hh hn hr hread (by rw [done_nil (mem_of_stands hs)]; exact hc)
    exact ⟨_, (execLdu_eq hld hs).trans (congrArg _ hstep), h1, h2, h3, h4, h5⟩
  case store =>
    obtain ⟨h1, h2⟩ := quiet_of_stands hs
    obtain ⟨h3, h4, h5, h6, h7⟩ := storeIdle_sent (x := st) (mem_of_stands hs) h1 h2 (hbmRequest id k addr n 1 (leBytes n (w.ureg d)))
    have hstep := memStep_stu_region hst hlt hal hf hh hn hr hwrite (by rw [done_nil (mem_of_stands hs)]; exact hc)
    exact ⟨_, (execStu_eq hst hs).trans (congrArg _ hstep), h3, h4, h5, h6, h7⟩
  case waits =>
    exact ⟨_, (execLdu_eq hld hs).trans (congrArg _ (memStep_needsWalk hld hlt hal (mem_of_stands hs) (cover_walk hnone hen))),
      onlySwarm_modSwarm .., swarm_modSwarm_same ..⟩
  case walk =>
    let r : WalkResult := { granule := addr / 2 ^ 21, desc := some (e, p) }
    obtain ⟨h1, h2, h3, h4, h5, h6⟩ := walked_effect (s := s) (id := id) (k := k) ld (r := r) rfl hhas hnone
    have hstep : exec (.regionWalkComplete cell slot) s = .next ((s.walked id k ld e p r).memStep id k ld) :=
      (congrArg Host.Outcome.next (if_pos hruns)).trans (congrArg _ (memWalk_eq hld hlt hact hm (cover_walk hnone hen) hhas hw))
    generalize s.walked id k ld e p r = t at h1 h2 h3 h4 h5 h6 hstep
    have hu : (t.swarm id k).ureg a = addr := by rw [h3]; rfl
    have hcov : t.cover id (t.swarm id k).ctx (((t.swarm id k).mem.map (·.done)).getD []) ((t.swarm id k).ureg a) = .region e := by
      rw [h3]; exact h6
    have hreq := memStep_ldu_region hld (by rw [hu]; exact hlt) (by rw [hu]; exact hal) (by rw [hu]; exact hf) hh hn hr hread hcov
    rw [hu] at hreq
    obtain ⟨g1, g2, g3, g4, ⟨b, g5⟩⟩ := heldAt_effect t id k ld (hbmRequest id k addr n 0 [])
    refine ⟨_, hstep.trans (congrArg _ hreq), h1.toKeepsBytes.trans g1, fun i j h => ?_, congrArg Swarm.mem g4, g3.trans h4,
      ⟨b, g5.trans (by rw [h5])⟩⟩
    exact (g2 i j (by rw [h1.phys, h1.phys]; exact h)).trans (h2 i j h)

end Sys2Proof.Machine
end

section
/-! PROOFS (O20). Atomic operations, and the operands of lanes combined (R104, R105). -/
namespace Sys2Proof.Machine

/-! ### The operations -/

theorem atomOp_assoc (op wd a b c : Nat) : atomOp op wd (atomOp op wd a b) c = atomOp op wd a (atomOp op wd b c) := by
  match op with
  | 0 =>
    show ((a + b) % 2 ^ wd + c) % 2 ^ wd = (a + (b + c) % 2 ^ wd) % 2 ^ wd
    rw [Nat.mod_add_mod, Nat.add_mod_mod, Nat.add_assoc]
  | 1 => simp only [atomOp]; split_ifs <;> omega
  | 2 => simp only [atomOp]; split_ifs <;> omega
  | 3 => exact Nat.min_assoc ..
  | 4 => exact Nat.max_assoc ..
  | 5 => exact Nat.and_assoc ..
  | 6 => exact Nat.or_assoc ..
  | _ + 7 => exact Nat.xor_assoc ..

theorem atomOp_lt {op wd a b : Nat} (ha : a < 2 ^ wd) (hb : b < 2 ^ wd) : atomOp op wd a b < 2 ^ wd := by
  match op with
  | 0 => exact Nat.mod_lt _ (Nat.two_pow_pos wd)
  | 1 => simp only [atomOp]; split <;> assumption
  | 2 => simp only [atomOp]; split <;> assumption
  | 3 => exact Nat.lt_of_le_of_lt (Nat.min_le_left ..) ha
  | 4 => exact Nat.max_lt.2 ⟨ha, hb⟩
  | 5 => exact Nat.and_lt_two_pow a hb
  | 6 => exact Nat.or_lt_two_pow ha hb
  | _ + 7 => exact Nat.xor_lt_two_pow ha hb

theorem foldl_atomOp_lt {op wd old : Nat} (ho : old < 2 ^ wd) {l : List Nat} (h : ∀ v ∈ l, v < 2 ^ wd) :
    l.foldl (atomOp op wd) old < 2 ^ wd := by
  induction l generalizing old with
  | nil => exact ho
  | cons v l ih => exact ih (atomOp_lt ho (h v (.head _))) fun v hv => h v (.tail _ hv)

theorem sx_toNat {n : Nat} (hn : 0 < n) (a : BitVec n) : sx n a.toNat = a.toInt := by
  obtain ⟨m, rfl⟩ := Nat.exists_eq_succ_of_ne_zero (Nat.ne_of_gt hn)
  have hlt := a.isLt
  rw [sx, Nat.mod_eq_of_lt hlt, BitVec.toInt_eq_toNat_cond, Nat.succ_sub_one]
  have : 2 * a.toNat < 2 ^ (m + 1) ↔ a.toNat < 2 ^ m := by rw [Nat.pow_succ]; omega
  simp only [Nat.succ_eq_add_one, this]
  push_cast
  rfl

/-- R104: each operation on the words of a width. -/
theorem atomOp_toNat {n : Nat} (hn : 0 < n) (a b : BitVec n) :
    atomOp 0 n a.toNat b.toNat = (a + b).toNat ∧
    atomOp 1 n a.toNat b.toNat = (if a.toInt ≤ b.toInt then a else b).toNat ∧
    atomOp 2 n a.toNat b.toNat = (if a.toInt ≤ b.toInt then b else a).toNat ∧
    atomOp 3 n a.toNat b.toNat = min a.toNat b.toNat ∧ atomOp 4 n a.toNat b.toNat = max a.toNat b.toNat ∧
    atomOp 5 n a.toNat b.toNat = (a &&& b).toNat ∧ atomOp 6 n a.toNat b.toNat = (a ||| b).toNat ∧
    atomOp 7 n a.toNat b.toNat = (a ^^^ b).toNat := by
  have hif : ∀ c d : BitVec n, (if sx n a.toNat ≤ sx n b.toNat then c.toNat else d.toNat) =
      (if a.toInt ≤ b.toInt then c else d).toNat :=
    fun c d => by rw [sx_toNat hn, sx_toNat hn]; split <;> rfl
  exact ⟨(BitVec.toNat_add ..).symm, hif a b, hif b a, rfl, rfl, (BitVec.toNat_and ..).symm, (BitVec.toNat_or ..).symm,
    (BitVec.toNat_xor ..).symm⟩

/-! ### The lanes of one word -/

/-- R105: operands combined behind those combined before. -/
def combine (op wd : Nat) (acc : Option Nat) (v : Nat) : Option Nat :=
  some (match acc with
    | none => v
    | some a => atomOp op wd a v)

theorem fetchVal_combine (op wd old : Nat) (acc : Option Nat) (v : Nat) :
    fetchVal op wd old (combine op wd acc v) = atomOp op wd (fetchVal op wd old acc) v := by
  cases acc with
  | none => rfl
  | some a => exact (atomOp_assoc ..).symm

/-- R105: operands combined, and then with the word, are the word combined with each in turn. -/
theorem fetchVal_foldl (op wd old : Nat) (acc : Option Nat) (l : List Nat) :
    fetchVal op wd old (l.foldl (combine op wd) acc) = l.foldl (atomOp op wd) (fetchVal op wd old acc) := by
  induction l generalizing acc with
  | nil => rfl
  | cons v l ih => rw [List.foldl_cons, ih, fetchVal_combine, List.foldl_cons]

theorem combineLanes_cons (op wd i v : Nat) (l : List (Nat × Nat)) (acc : Option Nat) : combineLanes op wd ((i, v) :: l) acc =
    ((i, acc) :: (combineLanes op wd l (combine op wd acc v)).1, (combineLanes op wd l (combine op wd acc v)).2) := rfl

/-- R105: each lane comes with the operands of the lanes below it, and all come together. -/
theorem combineLanes_eq (op wd : Nat) (arg : Nat → Nat) {ls : List Nat} (h : ls.Pairwise (· < ·)) (acc : Option Nat) :
    combineLanes op wd (ls.map fun i => (i, arg i)) acc =
      (ls.map fun i => (i, ((ls.filter (· < i)).map arg).foldl (combine op wd) acc), (ls.map arg).foldl (combine op wd) acc) := by
  induction ls generalizing acc with
  | nil => rfl
  | cons i ls ih =>
    obtain ⟨hi, hls⟩ := List.pairwise_cons.1 h
    have hhead : (i :: ls).filter (· < i) = [] := by
      refine List.filter_eq_nil_iff.2 fun j hj => ?_
      rcases List.mem_cons.1 hj with rfl | hj
      · simp
      · simpa using Nat.le_of_lt (hi j hj)
    have htail : ∀ j ∈ ls, (i :: ls).filter (· < j) = i :: ls.filter (· < j) := fun j hj => by simp [hi j hj]
    have hmap : ls.map (fun j => (j, (((i :: ls).filter (· < j)).map arg).foldl (combine op wd) acc)) =
        ls.map fun j => (j, ((ls.filter (· < j)).map arg).foldl (combine op wd) (combine op wd acc (arg i))) :=
      List.map_congr_left fun j hj => by rw [htail j hj, List.map_cons, List.foldl_cons]
    rw [List.map_cons, combineLanes_cons, ih hls, List.map_cons, hhead, hmap]
    rfl

/-! ### Fetched values -/

theorem setFetched_vreg (w : Swarm) {n k i v r j : Nat} (hi : i < 32) (hj : j < 32) :
    (w.setFetched n k i v).vreg r j = if j = i ∧ n ≤ r ∧ r < n + k then v / 2 ^ (32 * (r - n)) % 2 ^ 32 else w.vreg r j := by
  induction k with
  | zero => rw [if_neg (by omega)]; rfl
  | succ k ih =>
    rw [Swarm.setFetched, List.range_succ, List.foldl_append]
    rw [Swarm.setFetched] at ih
    rw [List.foldl_cons, List.foldl_nil, Swarm.vreg_setV _ _ _ _ _ _ hi hj, ih]
    by_cases hr : r = n + k
    · subst hr
      by_cases hji : j = i
      · simp [hji]
      · simp [hji]
    · have : r < n + (k + 1) ↔ r < n + k := by omega
      simp only [hr, false_and, if_false, this]

theorem foldl_setFetched_vreg (n k : Nat) (val : Nat → Nat) {ls : List Nat} (hl : ∀ i ∈ ls, i < 32) (w : Swarm) {r j : Nat}
    (hj : j < 32) :
    (ls.foldl (fun w i => w.setFetched n k i (val i)) w).vreg r j =
      if j ∈ ls ∧ n ≤ r ∧ r < n + k then val j / 2 ^ (32 * (r - n)) % 2 ^ 32 else w.vreg r j := by
  induction ls generalizing w with
  | nil => simp
  | cons i ls ih =>
    rw [List.foldl_cons, ih (fun i hi => hl i (.tail _ hi)), setFetched_vreg w (hl i (.head _)) hj]
    by_cases hr : n ≤ r ∧ r < n + k
    · by_cases hji : j = i
      · subst hji; simp [hr]
      · simp [hr, hji]
    · simp [hr]

/-- From `w` to `w'` only lane registers have changed. -/
def Swarm.OnlyLanes (w w' : Swarm) : Prop := w' = { w with v := w'.v }

theorem Swarm.OnlyLanes.refl (w : Swarm) : w.OnlyLanes w := rfl

theorem Swarm.OnlyLanes.trans {w w' w'' : Swarm} (h : w.OnlyLanes w') (g : w'.OnlyLanes w'') : w.OnlyLanes w'' := by
  rw [OnlyLanes] at h g ⊢
  rw [g, h]

theorem Swarm.OnlyLanes.foldl {α : Type} {f : Swarm → α → Swarm} (hf : ∀ w x, Swarm.OnlyLanes w (f w x)) (l : List α) (w : Swarm) :
    w.OnlyLanes (l.foldl f w) := by
  induction l generalizing w with
  | nil => exact .refl w
  | cons x l ih => exact (hf w x).trans (ih _)

theorem setFetched_onlyLanes (w : Swarm) (n k i v : Nat) : w.OnlyLanes (w.setFetched n k i v) :=
  .foldl (f := fun w j => w.setV (n + j) i (v / 2 ^ (32 * j))) (fun _ _ => rfl) _ w

/-! ### A list of numbers, rising and each once -/

theorem mem_insNat {n m : Nat} {l : List Nat} : m ∈ insNat n l ↔ m = n ∨ m ∈ l := by
  induction l with
  | nil => simp [insNat]
  | cons a l ih =>
    rw [insNat]
    split
    · simp
    · split
      · next h => simp [beq_iff_eq.1 h]
      · simp only [List.mem_cons, ih]
        tauto

theorem mem_sortNat {m : Nat} {l : List Nat} : m ∈ sortNat l ↔ m ∈ l := by
  induction l with
  | nil => simp [sortNat]
  | cons a l ih => rw [sortNat, List.foldr_cons, mem_insNat, List.mem_cons]; exact or_congr_right ih

theorem insNat_pairwise {n : Nat} {l : List Nat} (h : l.Pairwise (· < ·)) : (insNat n l).Pairwise (· < ·) := by
  induction l with
  | nil => simp [insNat]
  | cons a l ih =>
    obtain ⟨ha, hl⟩ := List.pairwise_cons.1 h
    rw [insNat]
    split
    · next hn =>
      refine List.pairwise_cons.2 ⟨fun b hb => ?_, h⟩
      rcases List.mem_cons.1 hb with rfl | hb
      · exact hn
      · exact Nat.lt_trans hn (ha b hb)
    · split
      · exact h
      · next hn hne =>
        refine List.pairwise_cons.2 ⟨fun b hb => ?_, ih hl⟩
        rcases mem_insNat.1 hb with rfl | hb
        · have : b ≠ a := fun e => hne (beq_iff_eq.2 e)
          omega
        · exact ha b hb

theorem sortNat_pairwise (l : List Nat) : (sortNat l).Pairwise (· < ·) := by
  induction l with
  | nil => exact .nil
  | cons a l ih => exact insNat_pairwise ih

theorem sortNat_nodup (l : List Nat) : (sortNat l).Nodup := (sortNat_pairwise l).imp fun h => Nat.ne_of_lt h

end Sys2Proof.Machine
end

section
/-! PROOFS (O20). ATOM on the cell's own words (R93, R104, R105, R152). -/
namespace Sys2Proof.Machine

/-! ### Words of local memory -/

theorem leNat_lt (bs : Bytes) : leNat bs < 256 ^ bs.length := by
  induction bs with
  | nil => exact Nat.one_pos
  | cons b bs ih =>
    have hb : b.toNat < 256 := b.isLt
    rw [leNat, List.length_cons, Nat.pow_succ]
    omega

theorem lmNat_lt (s : State) (p o n : Nat) : s.lmNat p o n < 2 ^ (8 * n) := by
  have h := leNat_lt ((List.range n).map fun j => s.lmByte p (o + j))
  rw [List.length_map, List.length_range, show (256 : Nat) = 2 ^ 8 from rfl, ← Nat.pow_mul] at h
  exact h

theorem lmNat_congr {s t : State} {p o n : Nat} (h : ∀ c, o ≤ c → c < o + n → t.lmByte p c = s.lmByte p c) :
    t.lmNat p o n = s.lmNat p o n :=
  congrArg leNat (List.map_congr_left fun _ hj => h _ (Nat.le_add_right ..) (Nat.add_lt_add_left (List.mem_range.1 hj) o))

theorem leNat_read (s : State) (id o n : Nat) : leNat ((s.cell id).read o n) = s.lmNat (s.phys id) o n := by
  rw [read_eq_map_lmByte]; rfl

/-- A number stored as a word is read back. -/
theorem lmNat_lmStores (s : State) (id o n : Nat) {v : Nat} (hv : v < 2 ^ (8 * n)) :
    (s.lmStores id [(o, leBytes n v)]).lmNat (s.phys id) o n = v := by
  have hlen : (leBytes n v).length = n := leBytes_length ..
  have hread : (List.range n).map (fun j => (s.lmStores id [(o, leBytes n v)]).lmByte (s.phys id) (o + j)) = leBytes n v := by
    refine List.ext_getElem (by rw [List.length_map, List.length_range, hlen]) fun j h1 h2 => ?_
    rw [List.getElem_map, List.getElem_range, lmByte_lmStores_in s id o h2, List.getD_eq_getElem?_getD, List.getElem?_eq_getElem h2]
    rfl
  have hpow : 256 ^ n = 2 ^ (8 * n) := by rw [show (256 : Nat) = 2 ^ 8 from rfl, ← Nat.pow_mul]
  rw [State.lmNat, hread, leNat_leBytes, Nat.mod_eq_of_lt (hpow ▸ hv)]

/-- Aligned words of one width that differ do not overlap. -/
theorem aligned_disjoint {n o o' c : Nat} (h : o % n = 0) (h' : o' % n = 0) (hne : o ≠ o') (hc : o ≤ c ∧ c < o + n) :
    ¬ (o' ≤ c ∧ c < o' + n) := by
  obtain ⟨q, rfl⟩ := Nat.dvd_of_mod_eq_zero h
  obtain ⟨q', rfl⟩ := Nat.dvd_of_mod_eq_zero h'
  rintro ⟨h1, h2⟩
  obtain ⟨h3, h4⟩ := hc
  have hq : q < q' + 1 := Nat.lt_of_mul_lt_mul_left (a := n) (by rw [Nat.mul_add]; omega)
  have hq' : q' < q + 1 := Nat.lt_of_mul_lt_mul_left (a := n) (by rw [Nat.mul_add]; omega)
  exact hne (by rw [show q = q' by omega])

/-! ### One word -/

section
variable {s : State} {id k x : Nat}

/-- R105: word `o` combined with the operands of the lanes listed, in their order. -/
def State.atomVal (s : State) (id k x o : Nat) (ls : List Nat) : Nat :=
  (ls.map ((s.swarm id k).joined (wD x) (memRegs x))).foldl (atomOp (bits x 48 3) (8 * memWidth x)) (s.lmNat (s.phys id) o (memWidth x))

/-- R105: the values that the lanes of word `o` fetch. -/
def Swarm.fetch (w : Swarm) (x : Nat) (ls : List Nat) (val : Nat → Nat) : Swarm :=
  ls.foldl (fun w i => w.setFetched (wD x) (memRegs x) i (val i)) w

/-- R93, R105: an update of a local word stores the word combined with all operands, and gives each lane what it fetches. -/
theorem atomLocal_eq (he : (s.cell id).lmErr = []) {ls : List Nat} (hls : ls.Pairwise (· < ·)) (addr off : Nat → Nat) (o : Nat) :
    s.atomLocal id k x o (localAccs ls addr off) =
      let t := s.lmStores id [(o, leBytes (memWidth x) (s.atomVal id k x o ls))]
      if bits x 51 1 == 1 then t.modSwarm id k fun w => w.fetch x ls fun i => s.atomVal id k x o (ls.filter (· < i)) else t := by
  have hmap : (localAccs ls addr off).map (fun a => (a.lane, (s.swarm id k).joined (wD x) (memRegs x) a.lane)) =
      ls.map fun i => (i, (s.swarm id k).joined (wD x) (memRegs x) i) := by rw [localAccs, List.map_map]; rfl
  have htouch : s.lmTouch id o (memWidth x) = s := lmTouch_clean s id _ _ fun v _ => by rw [he]; rfl
  let arg := (s.swarm id k).joined (wD x) (memRegs x)
  let got := fetchVal (bits x 48 3) (8 * memWidth x) (s.lmNat (s.phys id) o (memWidth x))
  have hval : ∀ l : List Nat, got ((l.map arg).foldl (combine (bits x 48 3) (8 * memWidth x)) none) = s.atomVal id k x o l :=
    fun l => fetchVal_foldl ..
  have hfetch : ∀ w : Swarm, (ls.map fun i => (i, ((ls.filter (· < i)).map arg).foldl (combine (bits x 48 3) (8 * memWidth x)) none)).foldl
      (fun w e => w.setFetched (wD x) (memRegs x) e.1 (got e.2)) w = w.fetch x ls fun i => s.atomVal id k x o (ls.filter (· < i)) :=
    fun w => by simp only [List.foldl_map (f := fun i => (i, _)), hval, Swarm.fetch]
  unfold State.atomLocal
  simp only [hmap, combineLanes_eq _ _ _ hls, htouch, leNat_read]
  rw [← hval]
  simp only [← hfetch]
  rfl

theorem modCell_frame {t : State} (h : t = { s with cells := t.cells }) (f : CellMem → CellMem) :
    t.modCell id f = { s with cells := (t.modCell id f).cells } := by
  have ht : t.modCell id f = { t with cells := (t.modCell id f).cells } := rfl
  generalize (t.modCell id f).cells = c at ht ⊢
  rw [ht, h]

/-- R105: what an update of a local word leaves. -/
theorem atomLocal_effect (he : (s.cell id).lmErr = []) {ls : List Nat} (hls : ls.Pairwise (· < ·)) (addr off : Nat → Nat) (o : Nat) :
    let t := s.atomLocal id k x o (localAccs ls addr off)
    t = { s with cells := t.cells } ∧ KeepsSwarms s t id k ∧ (t.cell id).lmErr = [] ∧
      (∀ q c, t.lmByte q c = (s.lmStores id [(o, leBytes (memWidth x) (s.atomVal id k x o ls))]).lmByte q c) ∧
      t.swarm id k =
        if bits x 51 1 = 1 then (s.swarm id k).fetch x ls fun i => s.atomVal id k x o (ls.filter (· < i)) else s.swarm id k := by
  have hs := lmStores_storesOnly he [(o, leBytes (memWidth x) (s.atomVal id k x o ls))]
  have hp := State.phys_lmStores s id o (leBytes (memWidth x) (s.atomVal id k x o ls))
  intro t
  have ht : t = _ := atomLocal_eq he hls addr off o
  generalize s.lmStores id [(o, leBytes (memWidth x) (s.atomVal id k x o ls))] = u at hs hp ht ⊢
  by_cases hf : bits x 51 1 = 1
  · simp only [hf, BEq.rfl, if_true] at ht ⊢
    rw [ht]
    refine ⟨?_, fun i j h => ?_, ?_, fun q c => lmByte_modSwarm u id k q c _, ?_⟩
    · exact modCell_frame hs.state fun c => c.modSwarm k _
    · rw [swarm_modSwarm, hp, hp, if_neg fun hc => h.elim (· hc.1) (· hc.2), hs.swarms]
    · rw [State.modSwarm, cell_modCell_same]; exact hs.clean
    · rw [swarm_modSwarm_same, hs.swarms]
  · simp only [beq_eq_false_iff_ne.2 hf, Bool.false_eq_true, if_false, if_neg hf] at ht ⊢
    rw [ht]
    exact ⟨hs.state, fun i j _ => hs.swarms i j, hs.clean, fun _ _ => rfl, hs.swarms id k⟩

/-! ### All words of an instruction -/

variable {on : Nat → Bool} {off : Nat → Nat}

/-- R105: the lanes below `m` that address word `o`. -/
def lanesAt (on : Nat → Bool) (off : Nat → Nat) (m o : Nat) : List Nat := (List.range m).filter fun i => on i && off i == o

theorem mem_lanesAt {m o i : Nat} : i ∈ lanesAt on off m o ↔ i < m ∧ on i = true ∧ off i = o := by
  simp [lanesAt]

theorem lanesAt_pairwise (on : Nat → Bool) (off : Nat → Nat) (m o : Nat) : (lanesAt on off m o).Pairwise (· < ·) :=
  List.pairwise_lt_range.filter _

theorem lanesAt_filter_lt {m i : Nat} (h : i ≤ m) (o : Nat) : (lanesAt on off m o).filter (· < i) = lanesAt on off i o := by
  obtain ⟨j, rfl⟩ := Nat.exists_eq_add_of_le h
  have h1 : (lanesAt on off i o).filter (· < i) = lanesAt on off i o :=
    List.filter_eq_self.2 fun a ha => decide_eq_true (mem_lanesAt.1 ha).1
  have h2 : (((List.range j).map (i + ·)).filter fun a => on a && off a == o).filter (· < i) = [] := by
    refine List.filter_eq_nil_iff.2 fun a ha => ?_
    obtain ⟨b, _, rfl⟩ := List.mem_map.1 (List.mem_filter.1 ha).1
    simp
  rw [lanesAt, List.range_add, List.filter_append, List.filter_append, h2, List.append_nil]
  exact h1

/-- From `s`, the updates of the words `done` have led to `t` (R104, R105). -/
structure Updated (s t : State) (id k x : Nat) (on : Nat → Bool) (off : Nat → Nat) (done : List Nat) : Prop where
  state : t = { s with cells := t.cells }
  swarms : KeepsSwarms s t id k
  lanes : (s.swarm id k).OnlyLanes (t.swarm id k)
  clean : (t.cell id).lmErr = []
  word : ∀ o ∈ done, t.lmNat (s.phys id) o (memWidth x) = s.atomVal id k x o (lanesAt on off 32 o)
  rest : ∀ q c, (q ≠ s.phys id ∨ ∀ o ∈ done, ¬ (o ≤ c ∧ c < o + memWidth x)) → t.lmByte q c = s.lmByte q c
  vreg : ∀ r i, i < 32 → (t.swarm id k).vreg r i =
    if bits x 51 1 = 1 ∧ on i = true ∧ off i ∈ done ∧ wD x ≤ r ∧ r < wD x + memRegs x then
      s.atomVal id k x (off i) (lanesAt on off i (off i)) / 2 ^ (32 * (r - wD x)) % 2 ^ 32
    else (s.swarm id k).vreg r i

theorem Updated.refl (h : (s.cell id).lmErr = []) : Updated s s id k x on off [] where
  state := rfl
  swarms := fun _ _ _ => rfl
  lanes := .refl _
  clean := h
  word := fun _ h => by cases h
  rest := fun _ _ _ => rfl
  vreg := fun r i _ => by simp

theorem joined_congr {w w' : Swarm} {n m i : Nat} (h : ∀ r, w'.vreg r i = w.vreg r i) : w'.joined n m i = w.joined n m i := by
  simp only [Swarm.joined, h]

theorem atomVal_lt {o : Nat} (ha : ∀ i, (s.swarm id k).joined (wD x) (memRegs x) i < 2 ^ (8 * memWidth x)) (ls : List Nat) :
    s.atomVal id k x o ls < 2 ^ (8 * memWidth x) := by
  refine foldl_atomOp_lt (lmNat_lt ..) fun v hv => ?_
  obtain ⟨i, _, rfl⟩ := List.mem_map.1 hv
  exact ha i

section
variable {t : State} {done : List Nat} {o : Nat}

/-- What the lanes of a word that is still to come combine is not changed by the updates before it. -/
theorem Updated.atomVal (h : Updated s t id k x on off done) (hal : ∀ o' ∈ o :: done, o' % memWidth x = 0) (hne : o ∉ done)
    {m : Nat} (hm : m ≤ 32) : t.atomVal id k x o (lanesAt on off m o) = s.atomVal id k x o (lanesAt on off m o) := by
  have hp : t.phys id = s.phys id := by rw [h.state]; rfl
  have hold : t.lmNat (s.phys id) o (memWidth x) = s.lmNat (s.phys id) o (memWidth x) := lmNat_congr fun c h1 h2 =>
    h.rest _ c (.inr fun o' ho' => aligned_disjoint (hal o (.head _)) (hal o' (.tail _ ho')) (fun e => hne (e ▸ ho')) ⟨h1, h2⟩)
  have hargs : ∀ i ∈ lanesAt on off m o, (t.swarm id k).joined (wD x) (memRegs x) i = (s.swarm id k).joined (wD x) (memRegs x) i := by
    intro i hi
    obtain ⟨him, _, hio⟩ := mem_lanesAt.1 hi
    refine joined_congr fun r => ?_
    rw [h.vreg r i (Nat.lt_of_lt_of_le him hm), if_neg]
    rintro ⟨_, _, hmem, _⟩
    exact hne (hio ▸ hmem)
  rw [State.atomVal, State.atomVal, hp, hold, List.map_congr_left hargs]

/-- R105: the next word is updated. -/
theorem Updated.step (h : Updated s t id k x on off done) (hal : ∀ o' ∈ o :: done, o' % memWidth x = 0) (hne : o ∉ done)
    (ha : ∀ i, (s.swarm id k).joined (wD x) (memRegs x) i < 2 ^ (8 * memWidth x)) (addr : Nat → Nat) :
    Updated s (t.atomLocal id k x o (localAccs (lanesAt on off 32 o) addr off)) id k x on off (o :: done) := by
  have hp : ∀ i, t.phys i = s.phys i := fun i => by rw [h.state]; rfl
  have hlen : (leBytes (memWidth x) (s.atomVal id k x o (lanesAt on off 32 o))).length = memWidth x := leBytes_length ..
  obtain ⟨hst, hsw, hcl, hby, hlane⟩ := atomLocal_effect (x := x) (k := k) h.clean (lanesAt_pairwise on off 32 o) addr off o
  generalize t.atomLocal id k x o (localAccs (lanesAt on off 32 o) addr off) = t' at hst hsw hcl hby hlane ⊢
  rw [h.atomVal hal hne (Nat.le_refl 32)] at hby
  refine ⟨?_, fun i j hij => ?_, h.lanes.trans ?_, hcl, fun o' ho' => ?_, fun q c hc => ?_, fun r i hi => ?_⟩
  · rw [hst, h.state]
  · exact (hsw i j (by rw [hp, hp]; exact hij)).trans (h.swarms i j hij)
  · rw [hlane]
    split
    · exact .foldl (fun w i => setFetched_onlyLanes w ..) _ _
    · exact .refl _
  · rw [lmNat_congr fun c _ _ => hby (s.phys id) c]
    rcases List.mem_cons.1 ho' with rfl | ho'
    · rw [← hp id]
      exact lmNat_lmStores t id _ _ (atomVal_lt ha _)
    · refine (lmNat_congr fun c h1 h2 => State.lmByte_lmStores_out t id _ _ (.inr ?_)).trans (h.word o' ho')
      have := aligned_disjoint (hal o' (.tail _ ho')) (hal o (.head _)) (fun e => hne (e ▸ ho')) ⟨h1, h2⟩
      rw [hlen]
      omega
  · rw [hby, State.lmByte_lmStores_out t id]
    · exact h.rest q c (hc.imp_right fun hc o' ho' => hc o' (.tail _ ho'))
    · rw [hp, hlen]
      refine hc.imp_right fun hc => ?_
      have := hc o (.head _)
      omega
  · have hstay : ∀ hno : ¬ (bits x 51 1 = 1 ∧ on i = true ∧ off i = o ∧ wD x ≤ r ∧ r < wD x + memRegs x),
        (if bits x 51 1 = 1 ∧ on i = true ∧ off i ∈ o :: done ∧ wD x ≤ r ∧ r < wD x + memRegs x then
          s.atomVal id k x (off i) (lanesAt on off i (off i)) / 2 ^ (32 * (r - wD x)) % 2 ^ 32 else (s.swarm id k).vreg r i) =
        (t.swarm id k).vreg r i := fun hno => by
      have hiff : (bits x 51 1 = 1 ∧ on i = true ∧ off i ∈ o :: done ∧ wD x ≤ r ∧ r < wD x + memRegs x) ↔
          (bits x 51 1 = 1 ∧ on i = true ∧ off i ∈ done ∧ wD x ≤ r ∧ r < wD x + memRegs x) := by
        rw [List.mem_cons]; tauto
      rw [h.vreg r i hi]
      simp only [hiff]
    rw [hlane]
    by_cases hf : bits x 51 1 = 1
    · rw [if_pos hf, Swarm.fetch, foldl_setFetched_vreg _ _ _ (fun j hj => (mem_lanesAt.1 hj).1) _ hi, lanesAt_filter_lt (Nat.le_of_lt hi)]
      by_cases hon : on i = true ∧ off i = o ∧ wD x ≤ r ∧ r < wD x + memRegs x
      · obtain ⟨h1, rfl, h3, h4⟩ := hon
        rw [if_pos ⟨mem_lanesAt.2 ⟨hi, h1, rfl⟩, h3, h4⟩, if_pos ⟨hf, h1, .head _, h3, h4⟩, h.atomVal hal hne (Nat.le_of_lt hi)]
      · rw [hstay fun hc => hon hc.2, if_neg]
        rintro ⟨hmem, hr⟩
        obtain ⟨_, h1, h2⟩ := mem_lanesAt.1 hmem
        exact hon ⟨h1, h2, hr⟩
    · rw [if_neg hf, hstay fun hc => hf hc.1]

/-- R105: all words of an instruction are updated, each once. -/
theorem Updated.foldl (ha : ∀ i, (s.swarm id k).joined (wD x) (memRegs x) i < 2 ^ (8 * memWidth x)) (addr : Nat → Nat) {os : List Nat}
    (h : Updated s t id k x on off done) (hal : ∀ o ∈ os ++ done, o % memWidth x = 0) (hnd : os.Nodup) (hdis : ∀ o ∈ os, o ∉ done) :
    Updated s (os.foldl (fun t o => t.atomLocal id k x o (localAccs (lanesAt on off 32 o) addr off)) t) id k x on off
      (os.reverse ++ done) := by
  induction os generalizing t done with
  | nil => exact h
  | cons o os ih =>
    obtain ⟨ho, hnd⟩ := List.nodup_cons.1 hnd
    have hal' : ∀ o' ∈ o :: done, o' % memWidth x = 0 := fun o' h => hal o' (by
      rcases List.mem_cons.1 h with rfl | h
      · exact .head _
      · exact List.mem_append_right _ h)
    have halRest : ∀ o' ∈ os ++ o :: done, o' % memWidth x = 0 := fun o' h => hal o' (by
      simp only [List.mem_append, List.mem_cons] at h ⊢
      tauto)
    have hdisRest : ∀ o' ∈ os, o' ∉ o :: done := fun o' ho' hmem => by
      rcases List.mem_cons.1 hmem with rfl | hmem
      · exact ho ho'
      · exact hdis o' (.tail _ ho') hmem
    rw [List.reverse_cons, List.append_assoc]
    exact ih (h.step hal' (hdis o (.head _)) ha addr) halRest hnd hdisRest

end

/-- The lanes of a mask. -/
def onLanes (on : Nat → Bool) : List Nat := (List.range 32).filter on

theorem atomDone_eq {addr : Nat → Nat} (hacc : (s.swarm id k).accs id x = localAccs (onLanes on) addr off) :
    s.atomDone id k x = ((sortNat ((onLanes on).map off)).foldl
      (fun t o => t.atomLocal id k x o (localAccs (lanesAt on off 32 o) addr off))
      (s.passes id ((onLanes on).map off) (memWidth x))).commit id k := by
  have hoffs : (locOf (localAccs (onLanes on) addr off)).map (·.2) = (onLanes on).map off := by
    rw [locOf_localAccs, List.map_map]; rfl
  have hat : ∀ o, (localAccs (onLanes on) addr off).filter (fun a => a.target == .loc o) =
      localAccs (lanesAt on off 32 o) addr off := fun o => by
    rw [localAccs_filter, onLanes, List.filter_filter, lanesAt]
    refine congrArg (localAccs · addr off) (List.filter_congr fun i _ => ?_)
    rw [Bool.and_comm, Bool.eq_iff_iff]
    simp
  unfold State.atomDone
  simp only [hacc, hoffs, hat, remOf_localAccs]
  rfl

/-- R93, R105, R120: an ATOM of local words updates them all, counts its passes and commits. -/
theorem atomDone_updated {addr : Nat → Nat} (hacc : (s.swarm id k).accs id x = localAccs (onLanes on) addr off)
    (he : (s.cell id).lmErr = []) (h1 : (s.swarm id k).asyncFaults = []) (h2 : (s.swarm id k).parkReq = none)
    (hal : ∀ i ∈ onLanes on, off i % memWidth x = 0)
    (ha : ∀ i, (s.swarm id k).joined (wD x) (memRegs x) i < 2 ^ (8 * memWidth x)) :
    ∃ t done, s.atomDone id k x = t.modSwarm id k (fun w => w.advance none) ∧ (∀ o, o ∈ done ↔ ∃ i ∈ onLanes on, off i = o) ∧
      Updated (s.passes id ((onLanes on).map off) (memWidth x)) t id k x on off done := by
  obtain ⟨r, hr⟩ := passes_eq s id ((onLanes on).map off) (memWidth x)
  have hu := Updated.foldl (s := s.passes id ((onLanes on).map off) (memWidth x)) (id := id) (k := k) (x := x) (on := on) (off := off)
    (done := []) (by rw [hr]; exact ha) addr (.refl (by rw [hr]; exact he)) (os := sortNat ((onLanes on).map off)) (fun o ho => by
      rw [List.append_nil, mem_sortNat] at ho
      obtain ⟨i, hi, rfl⟩ := List.mem_map.1 ho
      exact hal i hi) (sortNat_nodup _) (fun _ _ h => by cases h)
  refine ⟨_, _, (atomDone_eq hacc).trans (commit_quiet ?_ ?_), fun o => ?_, hu⟩
  · rw [hu.lanes, hr]; exact h1
  · rw [hu.lanes, hr]; exact h2
  · rw [List.append_nil, List.mem_reverse, mem_sortNat, List.mem_map]

/-- R163: an ATOM of aligned words of the cell's own memory, without replicas and errors, passes check 10. -/
theorem memStep_atom {addr : Nat → Nat} (hacc : (s.swarm id k).accs id x = localAccs (onLanes on) addr off) (hx : isAtom x = true)
    (he : (s.cell id).lmErr = []) (hr : (s.cell id).replicas = [])
    (hin : ∀ i ∈ onLanes on, off i + memWidth x ≤ 0x180000 ∧ addr i % memWidth x = 0) :
    s.memStep id k x = s.atomDone id k x := by
  have hpast : (onLanes on).filter (fun i => decide (0x180000 < off i + memWidth x)) = [] :=
    List.filter_eq_nil_iff.2 fun i hi => by simpa using (hin i hi).1
  have hodd : (onLanes on).filter (fun i => addr i % memWidth x != 0) = [] :=
    List.filter_eq_nil_iff.2 fun i hi => by simpa using (hin i hi).2
  have hff : firstFail ((s.swarm id k).accs id x) (memChecks x) = none := by rw [hacc, firstFail_localAccs, hpast, hodd]
  have hclear : s.clearLocal id k x := by
    refine ⟨fun e _ => by rw [CellMem.inReplica, hr]; rfl, ?_⟩
    simp [CellMem.uceLanes, he, sget]
  rw [memStep_covered hff (by rw [hacc, extOf_localAccs, List.map_nil]) rfl rfl]
  exact memPerform_atom hclear hx

theorem joined_one (w : Swarm) (n i : Nat) : w.joined n 1 i = w.vreg n i := by simp [Swarm.joined, total]

theorem joined_two (w : Swarm) (n i : Nat) : w.joined n 2 i = w.vreg n i + 2 ^ 32 * w.vreg (n + 1) i := by
  simp [Swarm.joined, total, List.range_succ, Nat.mul_comm]

theorem vreg_advance (w : Swarm) (br : Option (Bool × Nat)) (r i : Nat) : (w.advance br).vreg r i = w.vreg r i := by
  have h := congrArg Swarm.v (advance_v w br w.v)
  exact congrArg (fun v => (sget 0 v (32 * r + i)).toNat) h

theorem Swarm.OnlyLanes.advance {w w' : Swarm} (h : w.OnlyLanes w') (br : Option (Bool × Nat)) :
    w'.advance br = { w.advance br with v := (w'.advance br).v } := by
  rw [OnlyLanes] at h
  generalize w'.v = v at h
  subst h
  rw [advance_v]

end

section
variable {w : Swarm} {g op fetch d a b sh ni sp wd : Nat}

/-- R134, R152: the fields of a valid ATOM word. -/
theorem Swarm.Names.atom (h : w.Names g d a b sh ni sp wd (wd - 1)) (hw : wd = 2 ∨ wd = 3) (hop : op < 8) (hf : fetch ≤ 1) :
    let x := mWord 0x34 g (op + 8 * fetch) d a b 0 0 0 sh ni sp wd
    wD x = d ∧ memRegs x = wd - 1 ∧ Machine.memWidth x = 2 ^ wd ∧ bits x 48 3 = op ∧ bits x 51 1 = fetch ∧ isAtom x = true := by
  intro x
  obtain ⟨hO, _, hF, hD, _, _, hM, _, _, _, _, _, hW, _⟩ := h.fields (op := 0x34) (fn := op + 8 * fetch) (by decide) (by omega)
  have hfn : bits x 48 5 = op + 8 * fetch := hF
  refine ⟨hD, ?_, h.memWidth (by decide) (by omega), ?_, ?_, by rw [isAtom, hO]; rfl⟩
  · rw [memRegs_raw hM, hW]
    rcases hw with rfl | rfl <;> rfl
  · simp only [bits_eq] at hfn ⊢
    omega
  · simp only [bits_eq] at hfn ⊢
    omega

/-- R104: the operand of a lane, of 32 or 64 bits. -/
theorem joined_operand (w : Swarm) (hw : wd = 2 ∨ wd = 3) (i : Nat) :
    w.joined d (wd - 1) i = (if wd = 2 then w.vreg d i else w.vreg d i + 2 ^ 32 * w.vreg (d + 1) i) ∧
      w.joined d (wd - 1) i < 2 ^ (8 * 2 ^ wd) := by
  have hv : ∀ r, w.vreg r i < 2 ^ 32 := fun r => (sget 0 w.v (32 * r + i)).isLt
  rcases hw with rfl | rfl
  · exact ⟨joined_one .., (joined_one ..).trans_lt (hv d)⟩
  · refine ⟨joined_two .., (joined_two ..).trans_lt ?_⟩
    have h0 := hv d
    have h1 := hv (d + 1)
    show w.vreg d i + 2 ^ 32 * w.vreg (d + 1) i < 2 ^ (8 * 2 ^ 3)
    omega

end

/-- Settles O20: the words are updated one after the other, each with its lanes' operands in ascending order. -/
theorem localAtomics : Obligations.LocalAtomics := by
  unfold Obligations.LocalAtomics
  refine ⟨?_, fun n hn a b => atomOp_toNat (by omega) a b⟩
  intro s cell slot g op fetch d a b sh ni sp wd off id k w x n p addr on old arg upTo hg hop hfetch ha hsh hni hsp hwd hd hb hl
    he hrep hs ht
  have hN : w.Names g d a b sh ni sp wd (wd - 1) := ⟨hg, ha, hsh, hni, hsp, by omega, hb, by
    rcases hwd with rfl | rfl
    · exact Nat.mod_one d
    · exact hd rfl, by omega, by
    rw [show d + (wd - 1) - 1 = d + wd - 2 by omega]; exact hl⟩
  obtain ⟨hD, hregs, hwidth, hbop, hbfetch, hatom⟩ := hN.atom hwd hop hfetch
  have hwidth : memWidth x = n := hwidth
  have hacc : w.accs id x = localAccs (onLanes on) addr off := hN.accs (.inr (.inr rfl)) (by omega) fun i hi hon => (ht i hi hon).1
  have hlane : ∀ i ∈ onLanes on, i < 32 ∧ on i = true := fun i hi => by simpa [onLanes] using hi
  have harg : ∀ i, w.joined (wD x) (memRegs x) i = arg i := fun i => by
    rw [hD, hregs]; exact (joined_operand w hwd i).1
  have hargLt : ∀ i, w.joined (wD x) (memRegs x) i < 2 ^ (8 * memWidth x) := fun i => by
    rw [hD, hregs, hwidth]; exact (joined_operand w hwd i).2
  have hexec : exec (.atom cell slot) s = .next (s.atomDone id k x) :=
    (execAtom_eq (by omega) hwd (hregs ▸ hN) hs).trans (congrArg _ (memStep_atom hacc hatom he hrep fun i hi => by
      obtain ⟨_, h1, h2, _⟩ := ht i (hlane i hi).1 (hlane i hi).2
      rw [hwidth]; exact ⟨h1, h2⟩))
  obtain ⟨hq1, hq2⟩ := quiet_of_stands hs
  obtain ⟨t, done, hdone, hmem, hu⟩ := atomDone_updated hacc he hq1 hq2 (fun i hi => by
    rw [hwidth]; exact (ht i (hlane i hi).1 (hlane i hi).2).2.2.2) hargLt
  have hkeep := keepsRegs_passes s id ((onLanes on).map off) (memWidth x)
  obtain ⟨r, hr⟩ := passes_eq s id ((onLanes on).map off) (memWidth x)
  rw [hr] at hu hkeep
  have hval : ∀ m o, ({ s with regs := r } : State).atomVal id k x o (lanesAt on off m o) = upTo m o := fun m o => by
    show ((lanesAt on off m o).map (w.joined (wD x) (memRegs x))).foldl (atomOp (bits x 48 3) (8 * memWidth x))
      (s.lmNat p o (memWidth x)) = _
    rw [hbop, hwidth, funext harg]
    rfl
  have hphys : ∀ i, t.phys i = s.phys i := fun i => by rw [hu.state]; rfl
  have hcov : ∀ i, i < 32 → on i = true → off i ∈ done := fun i hi hon =>
    (hmem _).2 ⟨i, List.mem_filter.2 ⟨List.mem_range.2 hi, hon⟩, rfl⟩
  refine ⟨_, hexec.trans (congrArg _ hdone), fun i j h => ?_, fun o ho => ?_, ?_, ?_, ?_, ?_, fun i hi hon => ?_, fun q c hc => ?_,
    fun m i hi => ?_⟩
  · rw [swarm_modSwarm, hphys, hphys, if_neg fun hc => h.elim (· hc.1) (· hc.2)]
    exact hu.swarms i j h
  · rw [State.reg_modSwarm, ← hkeep o ho, hu.state]
    rfl
  · show t.pkts = s.pkts
    rw [hu.state]
  · show t.hbm = s.hbm
    rw [hu.state]
  · show t.host.mem = s.host.mem
    rw [hu.state]
  · rw [swarm_modSwarm_same]
    exact hu.lanes.advance none
  · rw [← hval, ← hwidth]
    exact (lmNat_congr fun c _ _ => lmByte_modSwarm ..).trans (hu.word _ (hcov i hi hon))
  · rw [lmByte_modSwarm]
    refine hu.rest q c (hc.imp_right fun hc o ho => ?_)
    obtain ⟨i, hi, rfl⟩ := (hmem o).1 ho
    rw [hwidth]
    exact hc i (hlane i hi).1 (hlane i hi).2
  · rw [swarm_modSwarm_same, vreg_advance, hu.vreg m i hi, hbfetch, hD, hregs, hval]
    have hiff : (fetch = 1 ∧ on i = true ∧ off i ∈ done ∧ d ≤ m ∧ m < d + (wd - 1)) ↔
        (fetch = 1 ∧ on i = true ∧ d ≤ m ∧ m < d + wd - 1) := by
      rw [show d + (wd - 1) = d + wd - 1 by omega]
      exact ⟨fun ⟨h1, h2, _, h4⟩ => ⟨h1, h2, h4⟩, fun ⟨h1, h2, h4⟩ => ⟨h1, h2, hcov i hi h2, h4⟩⟩
    simp only [hiff]
    rfl

end Sys2Proof.Machine
end

section
/-! PROOFS (O26). The answer to a held LDU whose word's BASE field overflows. -/
namespace Sys2Proof.Machine

/-- The word of an LDU of eight bytes with DATA 0 and 256 put where BASE has eight bits: it reads as DATA 1 and BASE 0 (R134). -/
def carriedLdu : Nat := mWord 0x32 0 0 0 256 0 0 0 0 0 1 1 3

theorem carriedLdu_fields : wD carriedLdu = 1 ∧ wA carriedLdu = 0 := by decide

/-- A MEMRSP with the byte 1 for lane 0 of slot 0 of cell 0. -/
def dataAnswer : Packet := { kind := .memrsp, src := .cell 0, dst := .cell 0, payload := [1] }

/-- The answer is on the mesh, and slot 0 of cell 0 is held at `carriedLdu` for it. -/
def heldForAnswer : State :=
  { pkts := [dataAnswer]
    cells := [(0, { swarms := [(0, { st := .active, mem := some { insn := carriedLdu, walking := false, outstanding := [0] } })] })] }

/-- What the machine makes of the answer: DATA is u[1], and u[1] takes the data. -/
theorem ureg_after_dataAnswer :
    (match exec (.memrspPacket 0 .none) heldForAnswer with
      | .next t => (t.swarm 0 0).ureg 1
      | _ => 0) = 1 := by
  decide +kernel

/-- Refutes O26: its clause on MEMRSP bounds DATA and W of the held LDU but not BASE `a`. With `a = 256` the word carries into
DATA, and the data goes to u[d + 1] where the clause has u[d]. -/
theorem not_answerPackets : ¬ Obligations.AnswerPackets := by
  unfold Obligations.AnswerPackets
  intro h
  obtain ⟨_, _, _, hrsp, _, _⟩ := h heldForAnswer 0 0 dataAnswer rfl
  obtain ⟨t, he, _, _, _, hw⟩ := hrsp 0 256 3 { insn := carriedLdu, walking := false, outstanding := [0] }
    (by decide) (by decide) (by decide) (by decide) rfl rfl rfl rfl rfl rfl (by decide) (by decide) (by decide) (by decide) (by decide)
  have h1 := ureg_after_dataAnswer
  rw [he] at h1
  have h0 : (t.swarm 0 0).ureg 1 = 0 := (congrArg (Swarm.ureg · 1) hw).trans (by decide)
  exact absurd (h0.symm.trans h1) (by decide)

end Sys2Proof.Machine
end

section
/-! PROOFS (O11). The next offset after an instruction (R120). -/
namespace Sys2Proof.Machine

/-! ### A loop at the end of its body -/

section
variable {l : Loop} {pc : Nat}

theorem Loop.back_none (h : ¬ (l.active = true ∧ l.stop = pc)) : l.back pc = none := by
  simp [Loop.back, h]

theorem Loop.back_again (h : l.active = true ∧ l.stop = pc) (hc : 1 < l.count) :
    l.back pc = some ({ l with count := l.count - 1 }, some l.start) := by
  simp [Loop.back, h, hc]

theorem Loop.back_last (h : l.active = true ∧ l.stop = pc) (hc : l.count ≤ 1) :
    l.back pc = some ({ l with count := 0, active := false }, none) := by
  simp [Loop.back, h, Nat.not_lt.2 hc]

end

/-! ### The three ways an instruction goes on -/

/-- R120: where an instruction leads that no loop takes back. -/
def Swarm.following (w : Swarm) : Nat := if w.inSlot then w.slotNext else w.pc + 8

/-- R118: a branch makes the next instruction its delay slot; after any other instruction there is none. -/
def Swarm.slotted (w : Swarm) : Option (Bool × Nat) → Swarm
  | some (taken, target) => { w with inSlot := true, slotNext := if taken then target else w.pc + 16, branchPc := w.pc,
                                     branchTaken := taken, replay := none }
  | none => { w with inSlot := false, slotNext := 0, branchPc := 0, branchTaken := false, replay := none }

section
variable {w : Swarm} {br : Option (Bool × Nat)} {l : Loop} {d : Option Nat}

theorem advance_of_loop1 (h : w.loop1.back w.pc = some (l, d)) :
    w.advance br = { w.slotted br with loop1 := l, pc := d.getD w.following } := by
  cases br <;> simp only [Swarm.advance, h] <;> rfl

theorem advance_of_loop0 (h1 : w.loop1.back w.pc = none) (h0 : w.loop0.back w.pc = some (l, d)) :
    w.advance br = { w.slotted br with loop0 := l, pc := d.getD w.following } := by
  cases br <;> simp only [Swarm.advance, h1, h0] <;> rfl

theorem advance_of_no_loop (h1 : w.loop1.back w.pc = none) (h0 : w.loop0.back w.pc = none) :
    w.advance br = { w.slotted br with pc := w.following } := by
  cases br <;> simp only [Swarm.advance, h1, h0] <;> rfl

/-- R120: besides the delay slot, an instruction's end changes the offset and the loops alone. -/
theorem advance_frame (w : Swarm) (br : Option (Bool × Nat)) :
    ∃ pc l0 l1, w.advance br = { w.slotted br with pc := pc, loop0 := l0, loop1 := l1 } := by
  rcases h1 : w.loop1.back w.pc with _ | ⟨l, d⟩
  · rcases h0 : w.loop0.back w.pc with _ | ⟨l, d⟩
    · exact ⟨_, _, _, advance_of_no_loop h1 h0⟩
    · exact ⟨_, _, _, advance_of_loop0 h1 h0⟩
  · exact ⟨_, _, _, advance_of_loop1 h1⟩

@[simp] theorem slotted_loop0 : (w.slotted br).loop0 = w.loop0 := by cases br <;> rfl
@[simp] theorem slotted_loop1 : (w.slotted br).loop1 = w.loop1 := by cases br <;> rfl

end

section
variable (w : Swarm) (br : Option (Bool × Nat))

@[simp] theorem advance_inSlot : (w.advance br).inSlot = br.isSome := by
  obtain ⟨_, _, _, e⟩ := advance_frame w br; rw [e]; cases br <;> rfl

theorem advance_slot (taken : Bool) (target : Nat) : (w.advance (some (taken, target))).slotNext = (if taken then target else w.pc + 16) ∧
    (w.advance (some (taken, target))).branchPc = w.pc := by
  obtain ⟨_, _, _, e⟩ := advance_frame w (some (taken, target)); rw [e]; exact ⟨rfl, rfl⟩

@[simp] theorem advance_keeps_v : (w.advance br).v = w.v := by
  obtain ⟨_, _, _, e⟩ := advance_frame w br; rw [e]; cases br <;> rfl
@[simp] theorem advance_keeps_u : (w.advance br).u = w.u := by
  obtain ⟨_, _, _, e⟩ := advance_frame w br; rw [e]; cases br <;> rfl
@[simp] theorem advance_keeps_p : (w.advance br).p = w.p := by
  obtain ⟨_, _, _, e⟩ := advance_frame w br; rw [e]; cases br <;> rfl
@[simp] theorem advance_keeps_up : (w.advance br).up = w.up := by
  obtain ⟨_, _, _, e⟩ := advance_frame w br; rw [e]; cases br <;> rfl
@[simp] theorem advance_keeps_mode : (w.advance br).mode = w.mode := by
  obtain ⟨_, _, _, e⟩ := advance_frame w br; rw [e]; cases br <;> rfl
@[simp] theorem advance_keeps_tokens : (w.advance br).tokens = w.tokens := by
  obtain ⟨_, _, _, e⟩ := advance_frame w br; rw [e]; cases br <;> rfl
@[simp] theorem advance_keeps_st : (w.advance br).st = w.st := by
  obtain ⟨_, _, _, e⟩ := advance_frame w br; rw [e]; cases br <;> rfl
@[simp] theorem advance_keeps_ctx : (w.advance br).ctx = w.ctx := by
  obtain ⟨_, _, _, e⟩ := advance_frame w br; rw [e]; cases br <;> rfl

end

/-- Settles O11: the inner loop comes first, then the outer one, and else the next offset (R120). -/
theorem nextOffset : Obligations.NextOffset := by
  unfold Obligations.NextOffset
  intro w br u next ends
  refine ⟨advance_inSlot w br, fun taken target h => ?_, fun h1 => ⟨?_, fun hc => ?_, fun hc => ?_⟩,
    fun h1 => ⟨?_, fun h0 => ⟨fun hc => ?_, fun hc => ?_⟩, fun h0 => ?_⟩, advance_keeps_v w br, advance_keeps_u w br,
    advance_keeps_p w br, advance_keeps_up w br, advance_keeps_mode w br, advance_keeps_tokens w br⟩
  all_goals dsimp only [u]
  · rw [h]
    exact advance_slot w taken target
  · rcases Nat.lt_or_ge 1 w.loop1.count with hc | hc
    · simp [advance_of_loop1 (Loop.back_again h1 hc)]
    · simp [advance_of_loop1 (Loop.back_last h1 hc)]
  · simp [advance_of_loop1 (Loop.back_again h1 hc)]
  · rw [advance_of_loop1 (Loop.back_last h1 hc)]
    exact ⟨rfl, rfl⟩
  · rcases h0 : w.loop0.back w.pc with _ | ⟨l, d⟩
    · simp [advance_of_no_loop (Loop.back_none h1) h0]
    · simp [advance_of_loop0 (Loop.back_none h1) h0]
  · simp [advance_of_loop0 (Loop.back_none h1) (Loop.back_again h0 hc)]
  · rw [advance_of_loop0 (Loop.back_none h1) (Loop.back_last h0 hc)]
    exact ⟨rfl, rfl⟩
  · rw [advance_of_no_loop (Loop.back_none h1) (Loop.back_none h0)]
    exact ⟨rfl, slotted_loop0⟩

end Sys2Proof.Machine
end

section
/-! PROOFS. What an operation on one cell leaves: the cell it gives, and every other cell, the memories and the packets as they were.
A park that ends no launch and the leaving of a swarm are such operations. -/
namespace Sys2Proof.Machine

/-! ### One cell of the device changes -/

/-- From `s` to `t` the cell bound to `id` becomes `c`, with its local memory as it was; every other cell, the HBM, host memory, the
image and the packets stay. -/
structure CellTo (s t : State) (id : Nat) (c : CellMem) : Prop where
  cells : ∀ p, sget {} t.cells p = if p = s.phys id then c else sget {} s.cells p
  lm : c.lm = (s.cell id).lm
  hbm : t.hbm = s.hbm
  hostMem : t.host.mem = s.host.mem
  img : t.img = s.img
  pkts : t.pkts = s.pkts

section
variable {s t u : State} {id : Nat} {c d : CellMem}

theorem RegsOnly.cellTo (h : RegsOnly s t) (id : Nat) : CellTo s t id (s.cell id) := by
  obtain ⟨_, _, _, rfl⟩ := h
  refine ⟨fun p => ?_, rfl, rfl, rfl, rfl, rfl⟩
  split
  · next hp => rw [hp]; rfl
  · rfl

theorem CellTo.refl (s : State) (id : Nat) : CellTo s s id (s.cell id) := (RegsOnly.refl s).cellTo id

theorem cellTo_modCell (s : State) (id : Nat) {f : CellMem → CellMem} (hf : (f (s.cell id)).lm = (s.cell id).lm) :
    CellTo s (s.modCell id f) id (f (s.cell id)) :=
  ⟨fun p => sget_smod _ _ p _ f, hf, rfl, rfl, rfl, rfl⟩

theorem cellTo_modSwarm (s : State) (id k : Nat) (f : Swarm → Swarm) :
    CellTo s (s.modSwarm id k f) id ((s.cell id).modSwarm k f) := cellTo_modCell s id rfl

namespace CellTo

theorem phys (h : CellTo s t id c) (i : Nat) : t.phys i = s.phys i := by
  unfold State.phys State.isBound State.failedRowOf
  rw [h.img]

theorem cell (h : CellTo s t id c) : t.cell id = c := by rw [State.cell, h.phys, h.cells, if_pos rfl]

theorem trans (h : CellTo s t id c) (k : CellTo t u id d) : CellTo s u id d := by
  refine ⟨fun p => ?_, k.lm.trans ?_, k.hbm.trans h.hbm, k.hostMem.trans h.hostMem, k.img.trans h.img, k.pkts.trans h.pkts⟩
  · rw [k.cells, h.phys, h.cells]
    split <;> rfl
  · rw [h.cell, h.lm]

theorem regsOnly (h : CellTo s t id c) (k : RegsOnly t u) : CellTo s u id c := by
  have hk := k.cellTo id
  rw [h.cell] at hk
  exact h.trans hk

theorem modCell (h : CellTo s t id c) {f : CellMem → CellMem} (hf : (f c).lm = c.lm) : CellTo s (t.modCell id f) id (f c) := by
  have hk := cellTo_modCell t id (f := f) (by rw [h.cell, hf])
  rw [h.cell] at hk
  exact h.trans hk

theorem modSwarm (h : CellTo s t id c) (k : Nat) (f : Swarm → Swarm) : CellTo s (t.modSwarm id k f) id (c.modSwarm k f) :=
  h.modCell rfl

theorem bytes (h : CellTo s t id c) : KeepsBytes s t := by
  refine ⟨fun _ => by rw [State.hbmByte, h.hbm]; rfl, fun _ => by rw [State.hostByte, h.hostMem]; rfl, fun p a => ?_⟩
  rw [State.lmByte, h.cells]
  split
  · next hp => rw [h.lm, hp]; rfl
  · rfl

theorem swarm (h : CellTo s t id c) (k : Nat) : t.swarm id k = c.swarm k := by rw [State.swarm, h.cell]

theorem keepsSwarms (h : CellTo s t id c) {k : Nat} (hc : ∀ j, j ≠ k → c.swarm j = (s.cell id).swarm j) : KeepsSwarms s t id k := by
  intro i j hij
  rw [State.swarm, State.swarm, State.cell, State.cell, h.phys, h.cells]
  split
  · next hp => rw [hc j (hij.resolve_left (absurd hp)), hp]; rfl
  · rfl

end CellTo

end

/-! ### Parks -/

/-- R122, R129, R130: from `s` to `t` swarm `k` has parked with the record of `p`, and its park is held for the supervisor or
reported. -/
def Parks (s t : State) (id k : Nat) (p : Park) : Prop :=
  ∃ l, CellTo s t id { (s.cell id).parkSwarm k (s.parkWords id k p) (s.swarm id k).pc with supervised := l }

section
variable {s t : State} {id k : Nat} {p : Park}

theorem Parks.cellTo_eq (h : Parks s t id k p) : ∃ c, CellTo s t id c ∧ c.swarm k = (s.swarm id k).parked (s.swarm id k).pc ∧
    (∀ j, j ≠ k → c.swarm j = s.swarm id j) ∧ c.records = ((s.cell id).putRecord k (s.parkWords id k p)).records := by
  obtain ⟨l, h⟩ := h
  have hs : ∀ j, { (s.cell id).parkSwarm k (s.parkWords id k p) (s.swarm id k).pc with supervised := l }.swarm j =
      ((s.cell id).parkSwarm k (s.parkWords id k p) (s.swarm id k).pc).swarm j := fun _ => rfl
  refine ⟨_, h, (hs k).trans ?_, fun j hj => (hs j).trans ?_, rfl⟩
  · exact CellMem.swarm_modSwarm_same ..
  · exact CellMem.swarm_modSwarm_ne _ _ hj

theorem Parks.bytes (h : Parks s t id k p) : KeepsBytes s t := h.elim fun _ h => CellTo.bytes h

theorem Parks.swarm (h : Parks s t id k p) : t.swarm id k = (s.swarm id k).parked (s.swarm id k).pc := by
  obtain ⟨c, h, hk, _⟩ := h.cellTo_eq
  rw [h.swarm, hk]

theorem Parks.keepsSwarms (h : Parks s t id k p) : KeepsSwarms s t id k := by
  obtain ⟨c, h, _, hj, _⟩ := h.cellTo_eq
  exact h.keepsSwarms hj

theorem Parks.swarm_ne (h : Parks s t id k p) {j : Nat} (hj : j ≠ k) : t.swarm id j = s.swarm id j := h.keepsSwarms id j (.inr hj)

theorem Parks.records (h : Parks s t id k p) : (t.cell id).records = ((s.cell id).putRecord k (s.parkWords id k p)).records := by
  obtain ⟨c, h, _, _, hr⟩ := h.cellTo_eq
  rw [h.cell, hr]

/-- Table 06-4: RESTART_PC, CODE and DETAIL of the record of a park that is tied to no lanes and no operation. -/
theorem Parks.record (h : Parks s t id k p) (hk : k < 16) (hcode : p.code < 2 ^ 16) (hlanes : p.lanes = 0) (haddr : p.addr < 2 ^ 64)
    (hasync : p.async = none) : (t.cell id).recWord k 0 = (s.swarm id k).restart (s.swarm id k).pc % 2 ^ 64 ∧
      (t.cell id).recField k 2 0 16 = p.code ∧ (t.cell id).recWord k 13 = p.detail % 2 ^ 64 := by
  obtain ⟨h2, _, _⟩ := park_record h.records hk hcode (by rw [hlanes]; decide) haddr hasync
  refine ⟨?_, h2, ?_⟩
  · exact recWord_of_records (i := 0) h.records (by simp [State.parkWords, Swarm.record, hasync])
  · exact recWord_of_records (i := 13) h.records (by simp [State.parkWords, Swarm.record, hasync])

/-- R130, R131: where a park ends no launch, its report at most adds it to those held for the supervisor. -/
theorem reportPark_cellTo (code : Nat) (h : s.parksAlone id k = true) :
    ∃ l, CellTo s (s.reportPark id k code) id { s.cell id with supervised := l } := by
  unfold State.reportPark
  dsimp only
  split
  · exact ⟨_, cellTo_modCell s id rfl⟩
  · next hn =>
    have hc : (s.swarm id k).ctx = none := by
      simp only [State.parksAlone, Bool.or_eq_true, Option.isNone_iff_eq_none] at h
      exact h.resolve_right hn
    simp only [State.parkReport, hc]
    exact ⟨(s.cell id).supervised, (dEvt_parked_regsOnly s _).cellTo id⟩

theorem parkedAt_cellTo (s : State) (id k : Nat) (p : Park) :
    CellTo s (s.parkedAt id k p) id ((s.cell id).parkSwarm k (s.parkWords id k p) (s.swarm id k).pc) :=
  (cellTo_modCell s id (f := fun c => c.parkSwarm k (s.parkWords id k p) (s.swarm id k).pc) rfl).regsOnly ((RegsOnly.refl _).wr _ _)

theorem parkedAt_parks (s : State) (id k : Nat) (p : Park) : Parks s (s.parkedAt id k p) id k p :=
  ⟨(s.cell id).supervised, parkedAt_cellTo s id k p⟩

theorem reportPark_parks (code : Nat) (h : s.parksAlone id k = true) : Parks s ((s.parkedAt id k p).reportPark id k code) id k p := by
  obtain ⟨l, hl⟩ := reportPark_cellTo code (parksAlone_parkedAt (p := p) h)
  rw [cell_parkedAt] at hl
  exact ⟨l, (parkedAt_cellTo s id k p).trans hl⟩

/-- R122, R130: a synchronous park that ends no launch. -/
theorem park_parks (h : s.parksAlone id k = true) (hr : (s.swarm id k).parkReq = none) (hp : p.code ≠ 0x1015) :
    Parks s (s.park id k p) id k p := by
  rw [park_eq hr hp]
  exact reportPark_parks p.code h

/-- R126: a requested park is reported, unless the dispatcher requested it for a preemption. -/
theorem park_requested_eq (d : Nat) : let p : Park := { code := 0x1015, detail := d }
    s.park id k p = if d = 1 then s.parkedAt id k p else (s.parkedAt id k p).reportPark id k 0x1015 := by
  intro p
  have hm := modCell_modCell s id (fun c => c.putRecord k (s.parkWords id k p)) fun c => c.modSwarm k fun w => w.parked (s.swarm id k).pc
  have e : s.parkedAt id k p = (((s.modCell id fun c => c.putRecord k (s.parkWords id k p)).modSwarm id k
      fun w => w.parked (s.swarm id k).pc)).bump (Reg.cellParkStatusParkCount (s.phys id)) :=
    congrArg (fun t : State => t.bump (Reg.cellParkStatusParkCount (s.phys id))) hm.symm
  have hq : ∀ b : Bool, (if (b && p.code != 0x1015) = true then s.ignored id else s) = s := fun b => by simp [p]
  unfold State.park State.parkAt
  dsimp only
  rw [hq, e]
  by_cases hd : d = 1
  · simp only [p, hd, beq_self_eq_true, Bool.and_self, if_true]; rfl
  · simp only [p, hd, beq_iff_eq, Bool.and_eq_true, and_false, if_false]; rfl

/-- R126: a swarm with a park requested parks at its boundary. -/
theorem boundary_requested {d : Nat} (hst : (s.swarm id k).st = .active) (hm : (s.swarm id k).mem = none)
    (hi : (s.swarm id k).reissue = none) (hf : (s.swarm id k).asyncFaults = []) (hr : (s.swarm id k).parkReq = some d)
    (h : d = 1 ∨ s.parksAlone id k = true) : Parks s (s.boundary id k) id k { code := 0x1015, detail := d } := by
  have e : s.boundary id k = s.park id k { code := 0x1015, detail := d } := by
    simp [State.boundary, hst, hm, hi, hf, hr, firstFault]
  rw [e, park_requested_eq]
  split
  · exact parkedAt_parks ..
  · next hd => exact reportPark_parks _ (h.resolve_left hd)

end

/-! ### EXIT and KILL -/

theorem reportHeld_of_empty {s : State} {id : Nat} (n : Nat) (h : (s.cell id).supervised = []) : State.reportHeld n s id = s := by
  cases n with
  | zero => rfl
  | succ n => simp only [State.reportHeld, h, firstPark]

/-- R114: a cell that a swarm leaves: the swarm drains, and its parks are no longer held. -/
def CellMem.leftBy (c : CellMem) (k : Nat) : CellMem :=
  { c.modSwarm k Swarm.leave with supervised := c.supervised.filter fun p => p.2.1 != k }

section
variable {s : State} {id k : Nat}

/-- R114, R131: where swarm 0 holds no parks, a swarm that leaves changes its cell alone. -/
theorem leave_eq (h : k ≠ 0 ∨ (s.cell id).supervised = []) : s.leave id k = s.modCell id fun c => c.leftBy k := by
  unfold State.leave
  dsimp only
  split
  · next h0 =>
    have hs : (s.cell id).supervised = [] := h.resolve_left fun hk => hk (by simpa using h0)
    exact reportHeld_of_empty 16 (by simp [hs])
  · rfl

theorem leave_cellTo (h : k ≠ 0 ∨ (s.cell id).supervised = []) : CellTo s (s.leave id k) id ((s.cell id).leftBy k) := by
  rw [leave_eq h]
  exact cellTo_modCell s id (f := fun c => c.leftBy k) rfl

theorem leave_st {w : Swarm} (h : w.st = .active ∨ w.st = .parked) : w.leave.st = .exiting := by
  rcases h with h | h <;> simp [Swarm.leave, h]

theorem CellMem.swarm_leftBy (c : CellMem) : (c.leftBy k).swarm k = (c.swarm k).leave := CellMem.swarm_modSwarm_same ..

theorem CellMem.swarm_leftBy_ne (c : CellMem) {j : Nat} (h : j ≠ k) : (c.leftBy k).swarm j = c.swarm j :=
  CellMem.swarm_modSwarm_ne _ _ h

end

/-- R95: a swarm that stands at an instruction is ACTIVE. -/
theorem active_of_stands {s : State} {id k x : Nat} {isC isBranch : Bool} (h : s.stands id k x isC isBranch = true) :
    (s.swarm id k).st = .active := by
  obtain ⟨_, hr, _⟩ := (stands_iff ..).mp h
  simp only [Swarm.ready, Bool.and_eq_true, beq_iff_eq] at hr
  exact hr.1.1.1

end Sys2Proof.Machine
end

section
/-! PROOFS (O16). EXIT, BRK, the release of a swarm and a requested park (R114, R126, R127, R172). -/
namespace Sys2Proof.Machine

section
variable {s : State} {id k : Nat}

/-- R161: the words of EXIT and BRK are valid. -/
theorem encZ_ok {op : Nat} (hop : op < 256) :
    isOp op (rWord op 0 0 0 0 0 0) = true ∧ firstBad (encZ (rWord op 0 0 0 0 0 0)) = none := by
  obtain ⟨ho, hg, hf, _, _, _, _, hl⟩ := rWord_fields (op := op) (g := 0) (fn := 0) (d := 0) (a := 0) (b := 0) (c := 0)
    hop (by decide) (by decide) (by decide) (by decide) (by decide) (by decide)
  have hz : bits (rWord op 0 0 0 0 0 0) 16 32 = 0 := by simp only [rWord, bits_eq]; omega
  exact ⟨by simp [isOp, ho], by simp [encZ, firstBad, hg, hf, hz, hl]⟩

theorem execExit_eq {cell : BitVec 10} {slot : BitVec 4} (h : s.stands cell.toNat slot.toNat (rWord 0x57 0 0 0 0 0 0) true false = true) :
    execExit cell slot s = .next (s.leave cell.toNat slot.toNat) := by
  obtain ⟨hrow, henc⟩ := encZ_ok (op := 0x57) (by decide)
  exact congrArg _ (issue_stands h hrow henc (fun h => by cases h) rfl rfl)

theorem execBrk_eq {cell : BitVec 10} {slot : BitVec 4} (h : s.stands cell.toNat slot.toNat (rWord 0x58 0 0 0 0 0 0) true false = true) :
    execBrk cell slot s = .next ((s.modSwarm cell.toNat slot.toNat fun w => w.advance none).park cell.toNat slot.toNat
      { code := 0x1014, insn := rWord 0x58 0 0 0 0 0 0 }) := by
  obtain ⟨hrow, henc⟩ := encZ_ok (op := 0x58) (by decide)
  exact congrArg _ (issue_stands h hrow henc (fun h => by cases h) rfl rfl)

/-- R130: whether a park ends a launch turns on the context of its swarm, and on swarm 0. -/
theorem parksAlone_modSwarm {f : Swarm → Swarm} (hf : ∀ w, (f w).ctx = w.ctx) :
    (s.modSwarm id k f).parksAlone id k = s.parksAlone id k := by
  have hh : (s.modSwarm id k f).handler id = s.handler id := rfl
  unfold State.parksAlone
  rw [hh, swarm_modSwarm_same, hf]
  by_cases hk : k = 0
  · simp [hk]
  · rw [swarm_modSwarm, if_neg (by omega)]

/-- R114, R172: the cell in which the drain of a swarm has completed. -/
def CellMem.released (c : CellMem) (k : Nat) : CellMem :=
  { c.modSwarm k fun _ => {} with tiles := c.tiles.filter fun t => t.slot != k }

theorem execSwarmRelease_eq {cell : BitVec 10} {slot : BitVec 4} (hst : (s.swarm cell.toNat slot.toNat).st = .exiting)
    (hd : s.drained cell.toNat slot.toNat = true) :
    execSwarmRelease cell slot s = .next (s.modCell cell.toNat fun c => c.released slot.toNat) :=
  congrArg Host.Outcome.next (if_pos (by simp [hst, hd]))

theorem CellMem.swarm_released (c : CellMem) : (c.released k).swarm k = {} :=
  c.swarm_modSwarm_same k fun _ => {}

theorem CellMem.swarm_released_ne (c : CellMem) {j : Nat} (h : j ≠ k) : (c.released k).swarm j = c.swarm j :=
  c.swarm_modSwarm_ne (fun _ => {}) h

/-- R127: BRK commits, and its swarm parks at the instruction that follows. -/
theorem brk_parks {p : Park} (h : s.stands id k (rWord 0x58 0 0 0 0 0 0) true false = true) (hp : s.parksAlone id k = true)
    (hcode : p.code ≠ 0x1015) :
    Parks (s.modSwarm id k fun w => w.advance none) ((s.modSwarm id k fun w => w.advance none).park id k p) id k p := by
  refine park_parks (by rw [parksAlone_modSwarm fun w => advance_keeps_ctx w none, hp]) ?_ hcode
  rw [swarm_modSwarm_same, advance_parkReq]
  exact (quiet_of_stands h).2

end

/-- Settles O16: each of the four changes its own swarm's cell alone, and its swarm as R114, R126 and R127 say. -/
theorem exitBreakRelease : Obligations.ExitBreakRelease := by
  unfold Obligations.ExitBreakRelease
  intro s cell slot id k w
  refine ⟨fun h h0 => ?exit, fun h hp => ?brk, fun hst hd => ?release, fun d hr hlt hst hm hi hf hp => ?requested⟩
  case exit =>
    have ht := leave_cellTo h0
    have hw : w.leave.st = .exiting := leave_st (.inl (active_of_stands h))
    refine ⟨_, execExit_eq h, ht.bytes, ?_, fun j hj => ?_, by rw [leave_eq h0]; rfl, ht.pkts⟩
    · rw [ht.swarm, CellMem.swarm_leftBy]; exact hw
    · rw [ht.swarm, CellMem.swarm_leftBy_ne _ hj]; rfl
  case brk =>
    have ht := brk_parks (p := { code := 0x1014, insn := rWord 0x58 0 0 0 0 0 0 }) h hp (by decide)
    obtain ⟨hpc, hcode, _⟩ := ht.record slot.isLt (by decide) rfl (by decide) rfl
    have hw := ht.swarm
    rw [swarm_modSwarm_same] at hpc hw
    refine ⟨_, execBrk_eq h, (keepsBytes_modSwarm ..).trans ht.bytes, by rw [hw]; rfl, ?_, hcode, ?_, ?_, fun j hj => ?_⟩
    · rw [hpc, Swarm.restart, advance_inSlot]; rfl
    · rw [hw]; exact advance_keeps_u ..
    · rw [hw]; exact advance_keeps_v ..
    · rw [ht.swarm_ne hj, swarm_modSwarm, if_neg (by omega)]
  case release =>
    have ht := cellTo_modCell s id (f := fun c => c.released k) rfl
    refine ⟨_, execSwarmRelease_eq hst hd, ht.bytes, ?_, by rw [ht.cell]; rfl, rfl, fun j hj => ?_⟩
    · rw [ht.swarm, CellMem.swarm_released]
    · rw [ht.swarm, CellMem.swarm_released_ne _ hj]; rfl
  case requested =>
    have ht := boundary_requested hst hm hi hf hr hp
    obtain ⟨_, hcode, hdet⟩ := ht.record slot.isLt (show 0x1015 < 2 ^ 16 by decide) rfl (show 0 < 2 ^ 64 by decide) rfl
    have hw := ht.swarm
    refine ⟨_, rfl, ht.bytes, ?_, hcode, hdet.trans (Nat.mod_eq_of_lt hlt), ?_, ?_, fun j hj => ht.swarm_ne hj⟩
    all_goals
      rw [hw]
      rfl

end Sys2Proof.Machine
end

section
/-! PROOFS (O34). The supervisor instructions (R112, R113, R131, R132, R162). -/
namespace Sys2Proof.Machine

/-! ### The offset and the registers move apart -/

theorem Swarm.setU_advance (w : Swarm) (n v : Nat) (br : Option (Bool × Nat)) : (w.setU n v).advance br = (w.advance br).setU n v := by
  refine (advance_u w br _).trans ?_
  simp only [Swarm.setU, advance_keeps_u]

theorem Swarm.setUp_advance (w : Swarm) (n : Nat) (b : Bool) (br : Option (Bool × Nat)) :
    (w.setUp n b).advance br = (w.advance br).setUp n b := by
  refine (advance_up w br _).trans ?_
  simp only [Swarm.setUp, advance_keeps_up]

/-! ### The check of swarm 0, and the end with UP -/

section
variable {s : State} {id k x : Nat}

/-- R131, R163: a supervisor instruction whose word is valid takes its effect in swarm 0, and parks any other swarm with PRIV. -/
theorem issue_supervisor {row : Nat → Bool} {enc : Nat → List (Nat × Bool)} {body : State → Nat → State}
    (h : s.stands id k x true false = true) (hrow : row x = true) (henc : firstBad (enc x) = none) :
    s.issue id k row true false true enc (fun _ => []) (fun _ => []) body =
      if k = 0 then body s x else s.faultInsn id k x 0x1012 0 := by
  split
  · next hk => exact issue_stands h hrow henc (fun _ => hk) rfl rfl
  · next hk =>
    obtain ⟨h1, h2, h3, h4, h5, h6, _, _, _⟩ := (stands_iff ..).mp h
    have hs : (true && k != 0) = true := by simpa using hk
    unfold State.issue
    simp only [h1, h2, Bool.not_true, Bool.or_self, Bool.false_eq_true, if_false, Nat.not_le.mpr h3, lmTouch_clean s id _ _ h4,
      uce_clean _ _ _ h4, h5, hrow, henc, h6, hs, if_true]

/-- R162: a supervisor instruction commits with UP. -/
def State.endUp (s : State) (id up : Nat) (ok : Bool) : State := s.put id 0 fun w => w.setUp up ok

/-- R162: what UP and the commit make of swarm 0. -/
def Swarm.endUp (up : Nat) (ok : Bool) (w : Swarm) : Swarm := (w.advance none).setUp up ok

/-- R126: nothing is due at swarm 0's next boundary. -/
def State.quiet0 (s : State) (id : Nat) : Prop := (s.swarm id 0).asyncFaults = [] ∧ (s.swarm id 0).parkReq = none

theorem endUp_eq (h : s.quiet0 id) (up : Nat) (ok : Bool) : s.endUp id up ok = s.modSwarm id 0 (Swarm.endUp up ok) := by
  refine (put_quiet s id 0 _ h.1 h.2).trans ?_
  simp only [Swarm.setUp_advance]
  rfl

/-- R162: a supervisor instruction that writes a uniform register of swarm 0, and UP. -/
theorem endUp_setU_eq (h : s.quiet0 id) (up d v : Nat) (ok : Bool) : (s.modSwarm id 0 fun w => w.setU d v).endUp id up ok =
    s.modSwarm id 0 fun w => ((w.advance none).setU d v).setUp up ok := by
  rw [endUp_eq (by rw [State.quiet0, swarm_modSwarm_same]; exact h), modSwarm_modSwarm]
  simp only [Swarm.endUp, Function.comp_def, Swarm.setU_advance]

/-- R162: on a PARKED target that has what the instruction names, its effect comes first and then UP is set. -/
theorem supOn_parked {f : Nat → Option State} {t : State} (hlt : (s.swarm id 0).ureg (wA x) < 16)
    (hst : (s.swarm id ((s.swarm id 0).ureg (wA x))).st = .parked) (hf : f ((s.swarm id 0).ureg (wA x)) = some t) :
    s.supOn id x f = t.endUp id (bits x 48 2) true := by
  unfold State.supOn State.supTarget
  simp only [hlt, if_true, hst, beq_self_eq_true, hf]
  rfl

/-- R162: a supervisor instruction of swarm 0 on a PARKED target that has what it names. -/
theorem next_supOn_parked {r : Host.Outcome State Fault Refusal} {e t : State} {a up : Nat} {f : Nat → Option State}
    (h : r = .next (if (0 : BitVec 4).toNat = 0 then s.supOn id x f else e)) (hA : wA x = a) (hU : bits x 48 2 = up)
    (hlt : (s.swarm id 0).ureg a < 16) (hst : (s.swarm id ((s.swarm id 0).ureg a)).st = .parked)
    (hf : f ((s.swarm id 0).ureg a) = some t) : r = .next (t.endUp id up true) := by
  subst hA hU
  exact h.trans (congrArg _ ((if_pos rfl).trans (supOn_parked hlt hst hf)))

/-- R162: on a target that is not PARKED, CMD_IGNORED is set and UP cleared. -/
theorem supOn_ignored {f : Nat → Option State} (h : 16 ≤ (s.swarm id 0).ureg (wA x) ∨
    (s.swarm id ((s.swarm id 0).ureg (wA x))).st ≠ .parked) : s.supOn id x f = (s.ignored id).endUp id (bits x 48 2) false := by
  unfold State.supOn State.supTarget
  dsimp only
  split
  · rfl
  · next t ht =>
    obtain ⟨hlt, rfl⟩ : (s.swarm id 0).ureg (wA x) < 16 ∧ (s.swarm id 0).ureg (wA x) = t := by
      simpa only [Option.ite_none_right_eq_some, Option.some.injEq] using ht
    rw [if_neg (by simpa using h.resolve_left (Nat.not_le.2 hlt))]
    rfl

end

section
variable {s t : State} {id : Nat} {c : CellMem}

/-- R162: the end of a supervisor instruction after a change of its cell that leaves swarm 0. -/
theorem CellTo.endUp (h : CellTo s t id c) (h0 : c.swarm 0 = s.swarm id 0) (hq : s.quiet0 id) (up : Nat) (ok : Bool) :
    CellTo s (t.endUp id up ok) id (c.modSwarm 0 (Swarm.endUp up ok)) ∧ (t.endUp id up ok).regs = t.regs := by
  rw [endUp_eq (by rw [State.quiet0, h.swarm, h0]; exact hq)]
  exact ⟨h.modSwarm 0 _, rfl⟩

/-- R162: the same for an instruction that also writes a uniform register of swarm 0. -/
theorem CellTo.endUp_setU (h : CellTo s t id c) (h0 : c.swarm 0 = s.swarm id 0) (hq : s.quiet0 id) (up d v : Nat) (ok : Bool) :
    CellTo s ((t.modSwarm id 0 fun w => w.setU d v).endUp id up ok) id
      (c.modSwarm 0 fun w => ((w.advance none).setU d v).setUp up ok) ∧
      ((t.modSwarm id 0 fun w => w.setU d v).endUp id up ok).regs = t.regs := by
  rw [endUp_setU_eq (by rw [State.quiet0, h.swarm, h0]; exact hq)]
  exact ⟨h.modSwarm 0 _, rfl⟩

theorem ignored_cellTo (s : State) (id : Nat) : CellTo s (s.ignored id) id (s.cell id) := ((RegsOnly.refl s).wr _ _).cellTo id

/-- CMD_IGNORED reads 1 once it is set, whatever a cell does then. -/
theorem rd_ignored {u : State} (h : u.regs = (s.ignored id).regs) : u.rd (Reg.cellParkStatusCmdIgnored (s.phys id)) = 1 := by
  have hr : u.rd (Reg.cellParkStatusCmdIgnored (s.phys id)) = (s.ignored id).rd (Reg.cellParkStatusCmdIgnored (s.phys id)) := by
    simp only [State.rd, State.reg, h]
  exact hr.trans (rd_wr_same _ _ _ (show 49 + 1 ≤ 64 by decide))

end

/-! ### The words -/

/-- R162: the fields of SPAWN. -/
def encSpawn (x : Nat) : List (Nat × Bool) :=
  encUp x ++ [(40, okU (wD x)), (32, okU (wA x)), (24, okU (wB x)), (21, bits x 21 3 == 0),
    (16, 1 ≤ bits x 16 5 && bits x 16 5 ≤ 16), (8, bits x 8 8 == 0), (0, bits x 0 8 == 0)]

/-- R162: the fields of PWAIT. -/
def encPwait (x : Nat) : List (Nat × Bool) :=
  [(53, wGuard x == 0), (48, wFn x == 0), (40, okU (wD x)), (32, wA x == 0), (24, wB x == 0), (8, bits x 8 16 == 0),
    (0, bits x 0 8 == 0)]

section
variable {op up d a b vb i kind num lane : Nat}

/-- R162: the fields of a word whose FN holds UP in its low two bits. -/
theorem upWord_fields {c : Nat} (hop : op < 256) (hup : up < 4) (hd : d < 64) (ha : a < 64) (hb : b < 64) (hc : c < 32) :
    let x := rWord op 0 up d a b c
    wOp x = op ∧ wGuard x = 0 ∧ bits x 50 3 = 0 ∧ bits x 48 2 = up ∧ wD x = d ∧ wA x = a ∧ wB x = b ∧ bits x 21 3 = 0 ∧
      bits x 16 5 = c ∧ bits x 16 4 = c % 16 ∧ bits x 20 4 = c / 16 ∧ bits x 8 8 = 0 ∧ bits x 0 8 = 0 := by
  obtain ⟨ho, hg, _, hD, hA, hB, _, _⟩ := rWord_fields (op := op) (g := 0) (fn := up) (d := d) (a := a) (b := b) (c := c)
    hop (by decide) (by omega) (by omega) (by omega) (by omega) (by omega)
  refine ⟨ho, hg, ?_, ?_, hD, hA, hB, ?_⟩
  all_goals
    simp only [rWord, bits_eq]
    omega

/-- R162: the fields of RREAD and RWRITE. -/
theorem regWord_fields (hop : op < 256) (hup : up < 4) (hd : d < 64) (ha : a < 64) (hb : b < 64) (hk : kind < 4) (hn : num < 256)
    (hl : lane < 32) : let x := rWord op 0 up d a b 0 + (kind * 2 ^ 22 + num * 2 ^ 14 + lane * 2 ^ 9)
    (wOp x = op ∧ wGuard x = 0 ∧ bits x 50 3 = 0 ∧ bits x 48 2 = up) ∧ (wD x = d ∧ wA x = a ∧ wB x = b) ∧
      bits x 22 2 = kind ∧ bits x 14 8 = num ∧ bits x 9 5 = lane ∧ bits x 8 1 = 0 ∧ bits x 0 8 = 0 := by
  simp only [wOp, wGuard, wD, wA, wB, rWord, bits_eq]
  refine ⟨?_, ?_, ?_⟩ <;> omega

/-- R132: the registers that KIND, NUM and LANE of a valid word can name. -/
def RegNamed (kind num lane : Nat) : Prop :=
  (kind = 0 ∧ num < 256) ∨ (kind = 1 ∧ num < 64 ∧ lane = 0) ∨ (kind = 2 ∧ num < 8 ∧ lane = 0) ∨ (kind = 3 ∧ num < 4 ∧ lane = 0)

end

/-! ### The instructions -/

section
variable {s : State} {cell : BitVec 10} {slot : BitVec 4} {up d a b vb i kind num lane : Nat}

/-- SPAWN's word is valid. -/
theorem spawnWord_ok (hup : up < 4) (hd : d < 64) (ha : a < 64) (hb : b < 64) (h1 : 1 ≤ vb) (h16 : vb ≤ 16) :
    isOp 0x60 (rWord 0x60 0 up d a b vb) = true ∧ firstBad (encSpawn (rWord 0x60 0 up d a b vb)) = none := by
  obtain ⟨ho, hg, hf, _, hD, hA, hB, h21, h165, _, _, h8, h0⟩ := upWord_fields (op := 0x60) (c := vb) (by decide) hup hd ha hb (by omega)
  refine ⟨by simp [isOp, ho], ?_⟩
  simp [encSpawn, encUp, firstBad, hg, hf, hD, hA, hB, h21, h165, h8, h0, okU, hd, ha, hb, h1, h16]

/-- PWAIT's word is valid. -/
theorem pwaitWord_ok (hd : d < 64) :
    isOp 0x61 (rWord 0x61 0 0 d 0 0 0) = true ∧ firstBad (encPwait (rWord 0x61 0 0 d 0 0 0)) = none := by
  obtain ⟨ho, hg, hf, hD, hA, hB, _, _⟩ := rWord_fields (op := 0x61) (g := 0) (fn := 0) (d := d) (a := 0) (b := 0) (c := 0)
    (by decide) (by decide) (by decide) (by omega) (by decide) (by decide) (by decide)
  have h8 : bits (rWord 0x61 0 0 d 0 0 0) 8 16 = 0 := by simp only [rWord, bits_eq]; omega
  have h0 : bits (rWord 0x61 0 0 d 0 0 0) 0 8 = 0 := by simp only [rWord, bits_eq]; omega
  exact ⟨by simp [isOp, ho], by simp [encPwait, firstBad, hg, hf, hD, hA, hB, h8, h0, okU, hd]⟩

/-- A word of PREAD or PWRITE is valid where its fields D and B pass. -/
theorem encWord_ok {op : Nat} {okD okB : Nat → Bool} (hop : op < 256) (hup : up < 4) (hd : d < 64) (ha : a < 64) (hb : b < 64)
    (hi : i < 16) (hD : okD d = true) (hB : okB b = true) :
    isOp op (rWord op 0 up d a b i) = true ∧ firstBad (encWord (rWord op 0 up d a b i) okD okB) = none := by
  obtain ⟨ho, hg, hf, _, eD, eA, eB, _, _, _, h20, h8, h0⟩ := upWord_fields (c := i) hop hup hd ha hb (by omega)
  refine ⟨by simp [isOp, ho], ?_⟩
  simp [encWord, encUp, firstBad, hg, hf, eD, eA, eB, h20, h8, h0, hD, hB, okU, ha, Nat.div_eq_of_lt hi]

/-- A word of RREAD or RWRITE that names a register is valid where its fields D and B pass. -/
theorem encReg_ok {op : Nat} {okD okB : Nat → Bool} (hop : op < 256) (hup : up < 4) (hd : d < 64) (ha : a < 64) (hb : b < 64)
    (hl : lane < 32) (hv : RegNamed kind num lane) (hD : okD d = true) (hB : okB b = true) :
    let x := rWord op 0 up d a b 0 + (kind * 2 ^ 22 + num * 2 ^ 14 + lane * 2 ^ 9)
    isOp op x = true ∧ firstBad (encReg x okD okB) = none := by
  have hkn : kind < 4 ∧ num < 256 := by unfold RegNamed at hv; omega
  obtain ⟨⟨ho, hg, hf, _⟩, ⟨eD, eA, eB⟩, hK, hN, hL, h8, h0⟩ :=
    regWord_fields (kind := kind) (num := num) (lane := lane) hop hup hd ha hb hkn.1 hkn.2 hl
  refine ⟨by simp only [isOp, ho, beq_self_eq_true], ?_⟩
  have h14 : (kind == 0 || (kind == 1 && num < 64) || (kind == 2 && num < 8) || (kind == 3 && num < 4)) = true := by
    rcases hv with h | h | h | h <;> simp [h]
  have h9 : (kind == 0 || lane == 0) = true := by
    rcases hv with h | h | h | h <;> simp [h]
  simp only [encReg, encUp, List.cons_append, List.nil_append, firstBad, hg, hf, eD, eA, eB, hK, hN, hL, h8, h0, hD, hB, okU, ha,
    h14, h9, beq_self_eq_true, decide_true, if_true]

/-- R112, R113: SPAWN where a launch slot and its blocks are left. -/
theorem execSpawn_free {n : Nat} {l : List Nat} (hup : up < 4) (hd : d < 64) (ha : a < 64) (hb : b < 64) (h1 : 1 ≤ vb) (h16 : vb ≤ 16)
    (h : s.stands cell.toNat 0 (rWord 0x60 0 up d a b vb) true false = true) (hpc : badPc ((s.swarm cell.toNat 0).ureg a) = false)
    (hf : (s.cell cell.toNat).freeSlots = n :: l) (hs : (s.heldBack cell.toNat).1 < (n :: l).length)
    (hbl : vb + (s.heldBack cell.toNat).2 ≤ (s.cell cell.toNat).freeBlocks) :
    let w := s.swarm cell.toNat 0
    execSpawn cell 0 s = .next (((s.modSwarm cell.toNat n fun _ => Swarm.create vb (w.ureg a) (w.ureg b) w.mode).modSwarm cell.toNat 0
      fun w => w.setU d n).endUp cell.toNat up true) := by
  intro w
  obtain ⟨_, _, _, hU, hD, hA, hB, _, hvb, _⟩ := upWord_fields (op := 0x60) (c := vb) (by decide) hup hd ha hb (by omega)
  obtain ⟨hrow, henc⟩ := spawnWord_ok hup hd ha hb h1 h16
  refine congrArg Host.Outcome.next ((issue_supervisor (enc := encSpawn) h hrow henc).trans ((if_pos rfl).trans ?_))
  have hno : (decide ((n :: l).length ≤ (s.heldBack cell.toNat).1) ||
      decide ((s.cell cell.toNat).freeBlocks < vb + (s.heldBack cell.toNat).2)) = false := by
    simp only [Bool.or_eq_false_iff, decide_eq_false_iff_not]; omega
  simp only [hA, hB, hD, hvb, hpc, hno, hf, Bool.false_eq_true, if_false, State.supEnd, hU]
  rfl

/-- R112, R113: SPAWN where they are not. -/
theorem execSpawn_full (hup : up < 4) (hd : d < 64) (ha : a < 64) (hb : b < 64) (h1 : 1 ≤ vb) (h16 : vb ≤ 16)
    (h : s.stands cell.toNat 0 (rWord 0x60 0 up d a b vb) true false = true) (hpc : badPc ((s.swarm cell.toNat 0).ureg a) = false)
    (hf : (s.cell cell.toNat).freeSlots.length ≤ (s.heldBack cell.toNat).1 ∨
      (s.cell cell.toNat).freeBlocks < vb + (s.heldBack cell.toNat).2) :
    execSpawn cell 0 s = .next ((s.modSwarm cell.toNat 0 fun w => w.setU d 0x1013).endUp cell.toNat up false) := by
  obtain ⟨_, _, _, hU, hD, hA, hB, _, hvb, _⟩ := upWord_fields (op := 0x60) (c := vb) (by decide) hup hd ha hb (by omega)
  obtain ⟨hrow, henc⟩ := spawnWord_ok hup hd ha hb h1 h16
  refine congrArg Host.Outcome.next ((issue_supervisor (enc := encSpawn) h hrow henc).trans ((if_pos rfl).trans ?_))
  have hno : (decide ((s.cell cell.toNat).freeSlots.length ≤ (s.heldBack cell.toNat).1) ||
      decide ((s.cell cell.toNat).freeBlocks < vb + (s.heldBack cell.toNat).2)) = true := by
    simpa only [Bool.or_eq_true, decide_eq_true_eq] using hf
  simp only [hA, hB, hD, hvb, hpc, hno, Bool.false_eq_true, if_false, if_true, State.supEnd, hU]
  split <;> rfl

/-- R132: PWAIT. -/
theorem execPwait_eq (hd : d < 64) (h : s.stands cell.toNat 0 (rWord 0x61 0 0 d 0 0 0) true false = true) :
    (∀ p, firstPark ((s.cell cell.toNat).supervised.filter fun p => !p.2.2) = some p → execPwait cell 0 s =
      .next ((s.modCell cell.toNat fun c => { c with
        supervised := c.supervised.map fun q => if q == p then (q.1, q.2.1, true) else q }).put cell.toNat 0 fun w => w.setU d p.2.1)) ∧
    ((s.cell cell.toNat).supervised.filter (fun p => !p.2.2) = [] → execPwait cell 0 s = .next s) := by
  obtain ⟨_, _, _, hD, _⟩ := rWord_fields (op := 0x61) (g := 0) (fn := 0) (d := d) (a := 0) (b := 0) (c := 0)
    (by decide) (by decide) (by decide) (by omega) (by decide) (by decide) (by decide)
  obtain ⟨hrow, henc⟩ := pwaitWord_ok hd
  refine ⟨fun p hp => ?_, fun hp => ?_⟩
  all_goals
    refine congrArg Host.Outcome.next ((issue_supervisor (enc := encPwait) h hrow henc).trans ((if_pos rfl).trans ?_))
    simp only [hp, hD, firstPark]

/-- R132: PREAD. -/
theorem execPread_eq (hup : up < 4) (hd : d < 64) (ha : a < 64) (hi : i < 16)
    (h : s.stands cell.toNat slot.toNat (rWord 0x62 0 up d a 0 i) true false = true) :
    execPread cell slot s = .next (if slot.toNat = 0 then s.supOn cell.toNat (rWord 0x62 0 up d a 0 i) fun t =>
        some (s.modSwarm cell.toNat 0 fun w => w.setU d ((s.cell cell.toNat).recWord t i))
      else s.faultInsn cell.toNat slot.toNat (rWord 0x62 0 up d a 0 i) 0x1012 0) := by
  obtain ⟨hrow, henc⟩ := encWord_ok (op := 0x62) (b := 0) (okD := okU) (okB := okZ) (by decide) hup hd ha (by decide) hi (by simp [okU, hd]) rfl
  obtain ⟨_, _, _, _, hD, _, _, _, _, hI, _⟩ := upWord_fields (op := 0x62) (b := 0) (c := i) (by decide) hup hd ha (by decide) (by omega)
  refine congrArg Host.Outcome.next ((issue_supervisor h hrow henc).trans ?_)
  simp only [hD, hI, Nat.mod_eq_of_lt hi]

/-- R132: PWRITE. -/
theorem execPwrite_eq (hup : up < 4) (ha : a < 64) (hb : b < 64) (hi : i < 16)
    (h : s.stands cell.toNat slot.toNat (rWord 0x63 0 up 0 a b i) true false = true) :
    execPwrite cell slot s = .next (if slot.toNat = 0 then s.supOn cell.toNat (rWord 0x63 0 up 0 a b i) fun t =>
        some (s.modCell cell.toNat fun c => c.setRec t i (pwriteWord i (c.recWord t i) ((s.swarm cell.toNat 0).ureg b)))
      else s.faultInsn cell.toNat slot.toNat (rWord 0x63 0 up 0 a b i) 0x1012 0) := by
  obtain ⟨hrow, henc⟩ := encWord_ok (op := 0x63) (d := 0) (okD := okZ) (okB := okU) (by decide) hup (by decide) ha hb hi rfl (by simp [okU, hb])
  obtain ⟨_, _, _, _, _, _, hB, _, _, hI, _⟩ := upWord_fields (op := 0x63) (d := 0) (c := i) (by decide) hup (by decide) ha hb (by omega)
  refine congrArg Host.Outcome.next ((issue_supervisor h hrow henc).trans ?_)
  simp only [hB, hI, Nat.mod_eq_of_lt hi]

/-- R132: RREAD. -/
theorem execRread_eq (hup : up < 4) (hd : d < 64) (ha : a < 64) (hl : lane < 32) (hv : RegNamed kind num lane) :
    let x := rWord 0x64 0 up d a 0 0 + (kind * 2 ^ 22 + num * 2 ^ 14 + lane * 2 ^ 9)
    s.stands cell.toNat slot.toNat x true false = true →
    execRread cell slot s = .next (if slot.toNat = 0 then s.supOn cell.toNat x fun t =>
        ((s.swarm cell.toNat t).getReg kind num lane).map fun v => s.modSwarm cell.toNat 0 fun w => w.setU d v
      else s.faultInsn cell.toNat slot.toNat x 0x1012 0) := by
  intro x h
  have hkn : kind < 4 ∧ num < 256 := by unfold RegNamed at hv; omega
  obtain ⟨hrow, henc⟩ := encReg_ok (op := 0x64) (b := 0) (okD := okU) (okB := okZ) (by decide) hup hd ha (by decide) hl hv (by simp [okU, hd]) rfl
  obtain ⟨_, ⟨hD, _⟩, hK, hN, hL, _⟩ := regWord_fields (op := 0x64) (b := 0) (by decide) hup hd ha (by decide) hkn.1 hkn.2 hl
  refine congrArg Host.Outcome.next ((issue_supervisor h hrow henc).trans ?_)
  simp only [x, hD, hK, hN, hL]

/-- R132: RWRITE. -/
theorem execRwrite_eq (hup : up < 4) (ha : a < 64) (hb : b < 64) (hl : lane < 32) (hv : RegNamed kind num lane) :
    let x := rWord 0x65 0 up 0 a b 0 + (kind * 2 ^ 22 + num * 2 ^ 14 + lane * 2 ^ 9)
    s.stands cell.toNat slot.toNat x true false = true →
    execRwrite cell slot s = .next (if slot.toNat = 0 then s.supOn cell.toNat x fun t =>
        ((s.swarm cell.toNat t).getReg kind num lane).map fun _ => s.modSwarm cell.toNat t fun w =>
          w.putReg kind num lane ((s.swarm cell.toNat 0).ureg b)
      else s.faultInsn cell.toNat slot.toNat x 0x1012 0) := by
  intro x h
  have hkn : kind < 4 ∧ num < 256 := by unfold RegNamed at hv; omega
  obtain ⟨hrow, henc⟩ := encReg_ok (op := 0x65) (d := 0) (okD := okZ) (okB := okU) (by decide) hup (by decide) ha hb hl hv rfl (by simp [okU, hb])
  obtain ⟨_, ⟨_, _, hB⟩, hK, hN, hL, _⟩ := regWord_fields (op := 0x65) (d := 0) (by decide) hup (by decide) ha hb hkn.1 hkn.2 hl
  refine congrArg Host.Outcome.next ((issue_supervisor h hrow henc).trans ?_)
  simp only [x, hB, hK, hN, hL]

end

/-! ### What each leaves in swarm 0 -/

/-- Bytes, packets and every swarm of the cell but swarm 0 and swarm `j` stay. -/
def OthersStay (s t : State) (id j : Nat) : Prop :=
  KeepsBytes s t ∧ t.pkts = s.pkts ∧ ∀ n, n ≠ 0 → n ≠ j → t.swarm id n = s.swarm id n

section
variable {s t : State} {id : Nat} {c : CellMem}

theorem CellTo.othersStay {j : Nat} (h : CellTo s t id c) (hc : ∀ n, n ≠ 0 → n ≠ j → c.swarm n = s.swarm id n) : OthersStay s t id j :=
  ⟨h.bytes, h.pkts, fun n h0 hj => (h.swarm n).trans (hc n h0 hj)⟩

/-- R162: an instruction that writes a uniform register of swarm 0, and UP, changes nothing else. -/
theorem endUp_setU_effect (hq : s.quiet0 id) (up d v : Nat) (ok : Bool) :
    let t := (s.modSwarm id 0 fun w => w.setU d v).endUp id up ok
    OnlySwarm s t id 0 ∧ t.swarm id 0 = (((s.swarm id 0).advance none).setU d v).setUp up ok := by
  intro t
  rw [show t = _ from endUp_setU_eq hq up d v ok]
  exact ⟨onlySwarm_modSwarm .., swarm_modSwarm_same ..⟩

/-- R112, R113: a swarm created in a free launch slot. -/
theorem spawn_effect {n : Nat} (w' : Swarm) (hq : s.quiet0 id) (hn : n ≠ 0) (up d : Nat) :
    let t := ((s.modSwarm id n fun _ => w').modSwarm id 0 fun w => w.setU d n).endUp id up true
    OthersStay s t id n ∧ t.regs = s.regs ∧ t.swarm id 0 = (((s.swarm id 0).advance none).setU d n).setUp up true ∧
      t.swarm id n = w' := by
  have h0 : ((s.cell id).modSwarm n fun _ => w').swarm 0 = s.swarm id 0 := CellMem.swarm_modSwarm_ne _ _ (Ne.symm hn)
  obtain ⟨ht, hr⟩ := (cellTo_modSwarm s id n fun _ => w').endUp_setU h0 hq up d n true
  refine ⟨ht.othersStay fun j hj0 hjn => ?_, hr, ?_, ?_⟩
  · rw [CellMem.swarm_modSwarm_ne _ _ hj0, CellMem.swarm_modSwarm_ne _ _ hjn]; rfl
  · rw [ht.swarm, CellMem.swarm_modSwarm_same, h0]
  · rw [ht.swarm, CellMem.swarm_modSwarm_ne _ _ hn, CellMem.swarm_modSwarm_same]

/-- R132: a park taken by PWAIT. -/
theorem pwait_effect (hq : s.quiet0 id) (f : List (Nat × Nat × Bool) → List (Nat × Nat × Bool)) (d v : Nat) :
    let t := (s.modCell id fun c => { c with supervised := f c.supervised }).put id 0 fun w => w.setU d v
    OthersStay s t id 0 ∧ t.regs = s.regs ∧ t.swarm id 0 = ((s.swarm id 0).advance none).setU d v ∧
      (t.cell id).supervised = f (s.cell id).supervised := by
  intro t
  have h := cellTo_modCell s id (f := fun c => { c with supervised := f c.supervised }) rfl
  have h0 : (s.modCell id fun c => { c with supervised := f c.supervised }).swarm id 0 = s.swarm id 0 := h.swarm 0
  have e : t = (s.modCell id fun c => { c with supervised := f c.supervised }).modSwarm id 0 fun w => (w.setU d v).advance none :=
    put_quiet _ id 0 _ (h0 ▸ hq.1) (h0 ▸ hq.2)
  have ht := h.modSwarm 0 fun w => (w.setU d v).advance none
  rw [e]
  refine ⟨ht.othersStay fun n hn _ => ?_, rfl, ?_, by rw [ht.cell]; rfl⟩
  · rw [CellMem.swarm_modSwarm_ne _ _ hn]; rfl
  · rw [ht.swarm, CellMem.swarm_modSwarm_same, Swarm.setU_advance]; rfl

theorem recWord_setRec (c : CellMem) {k i : Nat} (hi : i < 16) (x j n : Nat) (hn : n < 16) :
    (c.setRec k i x).recWord j n = if j = k ∧ n = i then x % 2 ^ 64 else c.recWord j n := by
  have hk : 16 * j + n = 16 * k + i ↔ j = k ∧ n = i := by omega
  rw [CellMem.recWord, CellMem.setRec, sget_sset]
  simp only [hk]
  split
  · exact BitVec.toNat_ofNat ..
  · rfl

/-- R132: a word of a record written. -/
theorem pwrite_effect (hq : s.quiet0 id) (k i x up : Nat) (hi : i < 16) :
    let t := (s.modCell id fun c => c.setRec k i (pwriteWord i (c.recWord k i) x)).endUp id up true
    OthersStay s t id 0 ∧ t.regs = s.regs ∧ t.swarm id 0 = ((s.swarm id 0).advance none).setUp up true ∧
      ∀ j n, j < 16 → n < 16 → (t.cell id).recWord j n =
        if j = k ∧ n = i then pwriteWord i ((s.cell id).recWord k i) x % 2 ^ 64 else (s.cell id).recWord j n := by
  obtain ⟨ht, hr⟩ := (cellTo_modCell s id (f := fun c => c.setRec k i (pwriteWord i (c.recWord k i) x)) rfl).endUp rfl hq up true
  refine ⟨ht.othersStay fun n hn _ => ?_, hr, ?_, fun j n _ hn => ?_⟩
  · rw [CellMem.swarm_modSwarm_ne _ _ hn]; rfl
  · rw [ht.swarm, CellMem.swarm_modSwarm_same]; rfl
  · rw [ht.cell]; exact recWord_setRec (s.cell id) hi _ j n hn

/-- R132: a register of another swarm written. -/
theorem rwrite_effect (hq : s.quiet0 id) {k : Nat} (hk : k ≠ 0) (g : Swarm → Swarm) (up : Nat) :
    let t := (s.modSwarm id k g).endUp id up true
    OthersStay s t id k ∧ t.regs = s.regs ∧ t.swarm id 0 = ((s.swarm id 0).advance none).setUp up true ∧
      t.swarm id k = g (s.swarm id k) := by
  have h0 : ((s.cell id).modSwarm k g).swarm 0 = s.swarm id 0 := CellMem.swarm_modSwarm_ne _ _ (Ne.symm hk)
  obtain ⟨ht, hr⟩ := (cellTo_modSwarm s id k g).endUp h0 hq up true
  refine ⟨ht.othersStay fun n hn hnk => ?_, hr, ?_, ?_⟩
  · rw [CellMem.swarm_modSwarm_ne _ _ hn, CellMem.swarm_modSwarm_ne _ _ hnk]; rfl
  · rw [ht.swarm, CellMem.swarm_modSwarm_same, h0]; rfl
  · rw [ht.swarm, CellMem.swarm_modSwarm_ne _ _ hk, CellMem.swarm_modSwarm_same]; rfl

/-- R162: a target that is not PARKED. -/
theorem ignored_effect (hq : s.quiet0 id) (up : Nat) :
    let t := (s.ignored id).endUp id up false
    OthersStay s t id 0 ∧ t.swarm id 0 = ((s.swarm id 0).advance none).setUp up false ∧
      t.rd (Reg.cellParkStatusCmdIgnored (s.phys id)) = 1 := by
  obtain ⟨ht, hr⟩ := (ignored_cellTo s id).endUp rfl hq up false
  refine ⟨ht.othersStay fun n hn _ => ?_, ?_, rd_ignored hr⟩
  · rw [CellMem.swarm_modSwarm_ne _ _ hn]; rfl
  · rw [ht.swarm, CellMem.swarm_modSwarm_same]; rfl

/-- R131, R163: PRIV. -/
theorem faultInsn_parks {k x : Nat} (hr : (s.swarm id k).parkReq = none) (hp : s.parksAlone id k = true) :
    Parks s (s.faultInsn id k x 0x1012 0) id k { code := 0x1012, insn := x, addr := (s.swarm id k).pc, detail := 0 } :=
  park_parks hp hr (show 0x1012 ≠ 0x1015 by decide)

/-- R132: what the register that KIND, NUM and LANE name holds. -/
def Swarm.regVal (w : Swarm) (kind num lane : Nat) : Nat :=
  match kind with
  | 0 => w.vreg num lane
  | 1 => w.ureg num
  | 2 => w.preg num
  | _ => (w.upred num).toNat

theorem getReg_eq {w : Swarm} {kind num : Nat} (lane : Nat) (hv : kind = 0 → num < w.V) :
    w.getReg kind num lane = some (w.regVal kind num lane) :=
  match kind, hv with
  | 0, hv => if_pos (hv rfl)
  | 1, _ => rfl
  | 2, _ => rfl
  | _ + 3, _ => rfl

theorem freeSlots_ne_zero {n : Nat} {l : List Nat} (h : (s.cell id).freeSlots = n :: l) : n ≠ 0 := by
  have hn : n ∈ (s.cell id).freeSlots := by rw [h]; exact List.mem_cons_self ..
  simp only [CellMem.freeSlots, List.mem_filter, List.mem_map] at hn
  omega

end

/-! ### The instructions together -/

section
variable {s : State} {cell : BitVec 10} {slot : BitVec 4} {up d a b vb i kind num lane : Nat}

/-- R162: PREAD, PWRITE, RREAD and RWRITE work on the target that u[A] names, and end with UP. -/
theorem exec_supOn {c : Instr} {x : Nat} (hup : up < 4) (hd : d < 64) (ha : a < 64) (hb : b < 64) (hi : i < 16) (hl : lane < 32)
    (hv : RegNamed kind num lane)
    (hc : (c = .pread cell slot ∧ x = rWord 0x62 0 up d a 0 i) ∨ (c = .pwrite cell slot ∧ x = rWord 0x63 0 up 0 a b i) ∨
      (c = .rread cell slot ∧ x = rWord 0x64 0 up d a 0 0 + (kind * 2 ^ 22 + num * 2 ^ 14 + lane * 2 ^ 9)) ∨
      (c = .rwrite cell slot ∧ x = rWord 0x65 0 up 0 a b 0 + (kind * 2 ^ 22 + num * 2 ^ 14 + lane * 2 ^ 9)))
    (h : s.stands cell.toNat slot.toNat x true false = true) : wA x = a ∧ bits x 48 2 = up ∧
    ∃ f, exec c s = .next (if slot.toNat = 0 then s.supOn cell.toNat x f else s.faultInsn cell.toNat slot.toNat x 0x1012 0) := by
  have hkn : kind < 4 ∧ num < 256 := by unfold RegNamed at hv; omega
  rcases hc with ⟨rfl, rfl⟩ | ⟨rfl, rfl⟩ | ⟨rfl, rfl⟩ | ⟨rfl, rfl⟩
  · obtain ⟨_, _, _, hU, _, hA, _⟩ := upWord_fields (op := 0x62) (b := 0) (c := i) (by decide) hup hd ha (by decide) (by omega)
    exact ⟨hA, hU, _, execPread_eq hup hd ha hi h⟩
  · obtain ⟨_, _, _, hU, _, hA, _⟩ := upWord_fields (op := 0x63) (d := 0) (c := i) (by decide) hup (by decide) ha hb (by omega)
    exact ⟨hA, hU, _, execPwrite_eq hup ha hb hi h⟩
  · obtain ⟨⟨_, _, _, hU⟩, ⟨_, hA, _⟩, _⟩ := regWord_fields (op := 0x64) (b := 0) (by decide) hup hd ha (by decide) hkn.1 hkn.2 hl
    exact ⟨hA, hU, _, execRread_eq hup hd ha hl hv h⟩
  · obtain ⟨⟨_, _, _, hU⟩, ⟨_, hA, _⟩, _⟩ := regWord_fields (op := 0x65) (d := 0) (by decide) hup (by decide) ha hb hkn.1 hkn.2 hl
    exact ⟨hA, hU, _, execRwrite_eq hup ha hb hl hv h⟩

end

/-- Settles O34: in swarm 0 each of the six has the effect of its rule; in another swarm each parks with PRIV (R131). -/
theorem supervisorInstructions : Obligations.SupervisorInstructions := by
  unfold Obligations.SupervisorInstructions
  intro s cell slot up d a b vb i kind num lane id w tgt v next others spawn pwait pread pwrite field rread rwrite valid hup hd ha hb
    h1 h16 hi hl hv
  refine ⟨fun h0 => ?swarm0, fun c x hc hne hs hp => ?priv⟩
  case swarm0 =>
    subst h0
    refine ⟨fun h hpc => ⟨fun n l hf hlen hbl => ?free, fun hfull => ?full⟩, fun h => ⟨fun p hp => ?taken, fun hp => ?waits⟩,
      fun hlt hst ht0 => ⟨fun h => ?pread, fun h => ?pwrite, fun hV => ⟨fun h => ?rread, fun h => ?rwrite⟩⟩, fun c x hc h hn => ?ignored⟩
    case free => exact ⟨_, execSpawn_free hup hd ha hb h1 h16 h hpc hf hlen hbl, spawn_effect _ (quiet_of_stands h) (freeSlots_ne_zero hf) up d⟩
    case full => exact ⟨_, execSpawn_full hup hd ha hb h1 h16 h hpc hfull, endUp_setU_effect (quiet_of_stands h) up d 0x1013 false⟩
    case taken =>
      obtain ⟨ho, hr, hw, hl⟩ := pwait_effect (quiet_of_stands h) (fun l => l.map fun q => if q == p then (q.1, q.2.1, true) else q) d p.2.1
      exact ⟨_, (execPwait_eq hd h).1 p hp, ho, hr, hw, hl.trans (by simp only [beq_iff_eq])⟩
    case waits => exact (execPwait_eq hd h).2 (List.filter_eq_nil_iff.2 fun p hm => by simp [hp p hm])
    case pread =>
      obtain ⟨hA, hU, _⟩ := exec_supOn (slot := 0) hup hd ha hb hi hl hv (.inl ⟨rfl, rfl⟩) h
      exact ⟨_, next_supOn_parked (execPread_eq hup hd ha hi h) hA hU hlt hst rfl, endUp_setU_effect (quiet_of_stands h) up d _ true⟩
    case pwrite =>
      obtain ⟨hA, hU, _⟩ := exec_supOn (slot := 0) hup hd ha hb hi hl hv (.inr (.inl ⟨rfl, rfl⟩)) h
      exact ⟨_, next_supOn_parked (execPwrite_eq hup ha hb hi h) hA hU hlt hst rfl,
        pwrite_effect (quiet_of_stands h) tgt i (w.ureg b) up hi⟩
    case rread =>
      obtain ⟨hA, hU, _⟩ := exec_supOn (slot := 0) hup hd ha hb hi hl hv (.inr (.inr (.inl ⟨rfl, rfl⟩))) h
      exact ⟨_, next_supOn_parked (execRread_eq hup hd ha hl hv h) hA hU hlt hst (by rw [getReg_eq lane hV]; rfl),
        endUp_setU_effect (quiet_of_stands h) up d (v.regVal kind num lane) true⟩
    case rwrite =>
      obtain ⟨hA, hU, _⟩ := exec_supOn (slot := 0) hup hd ha hb hi hl hv (.inr (.inr (.inr ⟨rfl, rfl⟩))) h
      exact ⟨_, next_supOn_parked (execRwrite_eq hup ha hb hl hv h) hA hU hlt hst (by rw [getReg_eq lane hV]; rfl),
        rwrite_effect (quiet_of_stands h) ht0 (fun v => v.putReg kind num lane (w.ureg b)) up⟩
    case ignored =>
      obtain ⟨hA, hU, f, e⟩ := exec_supOn (slot := 0) hup hd ha hb hi hl hv hc h
      have e := e.trans (congrArg _ ((if_pos rfl).trans (supOn_ignored (by rw [hA]; exact hn))))
      rw [hU] at e
      exact ⟨_, e, ignored_effect (quiet_of_stands h) up⟩
  case priv =>
    have hk : slot.toNat ≠ 0 := fun h => hne (BitVec.eq_of_toNat_eq h)
    have e : exec c s = .next (s.faultInsn id slot.toNat x 0x1012 0) := by
      rcases hc with ⟨rfl, rfl⟩ | ⟨rfl, rfl⟩ | hc
      · obtain ⟨hrow, henc⟩ := spawnWord_ok hup hd ha hb h1 h16
        exact congrArg _ ((issue_supervisor (enc := encSpawn) hs hrow henc).trans (if_neg hk))
      · obtain ⟨hrow, henc⟩ := pwaitWord_ok hd
        exact congrArg _ ((issue_supervisor (enc := encPwait) hs hrow henc).trans (if_neg hk))
      · obtain ⟨_, _, f, e⟩ := exec_supOn hup hd ha hb hi hl hv hc hs
        exact e.trans (congrArg _ (if_neg hk))
    obtain ⟨_, _, hpc, _⟩ := (stands_iff ..).mp hs
    have ht := faultInsn_parks (x := x) (quiet_of_stands hs).2 hp
    obtain ⟨_, hcode, _⟩ := ht.record slot.isLt (show 0x1012 < 2 ^ 16 by decide) rfl (Nat.lt_trans hpc (by decide)) rfl
    exact ⟨_, e, ht.bytes, ht.keepsSwarms, by rw [ht.swarm]; rfl, hcode⟩

end Sys2Proof.Machine
end


section
/-! PROOFS (O35). The commands on a swarm slot, through PCTL and through a debug window (R114, R126, R132, R133, R162). -/
namespace Sys2Proof.Machine

/-! ### RESUME of a bad record -/

/-- R133: the record of a slot that RESUME refuses: CODE says so. -/
def CellMem.refuseResume (c : CellMem) (k : Nat) : CellMem := c.setRec k 2 (setBits (c.recWord k 2) 0 16 0x1016)

section
variable {s : State} {id k : Nat} {re : Bool}

theorem resume_bad (h : (s.cell id).badRecord k re = true) : s.resume id k re = (s.modCell id fun c => c.refuseResume k, false) := by
  unfold State.resume
  simp only [h, if_true]
  rfl

theorem CellMem.swarm_setRec (c : CellMem) (k i v j : Nat) : (c.setRec k i v).swarm j = c.swarm j := rfl

theorem CellMem.swarm_refuseResume (c : CellMem) (k j : Nat) : (c.refuseResume k).swarm j = c.swarm j := CellMem.swarm_setRec ..

theorem CellMem.code_refuseResume (c : CellMem) (k : Nat) : (c.refuseResume k).recField k 2 0 16 = 0x1016 := by
  rw [CellMem.recField, CellMem.refuseResume, recWord_setRec c (by decide) _ k 2 (by decide), if_pos ⟨rfl, rfl⟩,
    bits_mod _ _ _ _ (by decide), bits_setBits_same]
  rfl

/-! ### An operation issued again -/

/-- R94: the issue of an operation changes its swarm's token, a queue of its cell, and a high-water mark. -/
theorem asyncIssue_cellTo (s : State) (id : Nat) (mx : Bool) (o : AsyncOp) :
    CellTo s (s.asyncIssue id mx o) id (((s.cell id).modSwarm o.slot fun w => w.countUp o.token).enqueue mx o) := by
  have h := (cellTo_modSwarm s id o.slot fun w => w.countUp o.token).modCell (f := fun c => c.enqueue mx o) (CellMem.enqueue_lm ..)
  obtain ⟨r, hr⟩ := State.high_eq ((s.modSwarm id o.slot fun w => w.countUp o.token).modCell id fun c => c.enqueue mx o)
    (Reg.cellSbStatusHighWater (s.phys id))
    ((((s.modSwarm id o.slot fun w => w.countUp o.token).modCell id fun c => c.enqueue mx o)).cell id).inFlight
  have e : s.asyncIssue id mx o =
      { (s.modSwarm id o.slot fun w => w.countUp o.token).modCell id fun c => c.enqueue mx o with regs := r } := by
    rw [← hr]
    cases mx <;> rfl
  rw [e]
  exact h.regsOnly ⟨r, _, _, rfl⟩

theorem CellMem.enqueue_length (c : CellMem) (mx : Bool) (o : AsyncOp) :
    (c.enqueue mx o).mxQueue.length + (c.enqueue mx o).agQueue.length = c.mxQueue.length + c.agQueue.length + 1 := by
  cases mx <;> simp [CellMem.enqueue] <;> omega

/-- R133: the cell in which RESUME.REISSUE has issued the recorded operation again. -/
def CellMem.reissued (c : CellMem) (mx : Bool) (o : AsyncOp) : CellMem :=
  (c.modSwarm o.slot fun w => { w with reissue := none }.countUp o.token).enqueue mx o

theorem CellMem.swarm_reissued (c : CellMem) (mx : Bool) {o : AsyncOp} (h : o.slot = k) :
    (c.reissued mx o).swarm k = { c.swarm k with reissue := none }.countUp o.token := by
  subst h
  rw [CellMem.reissued, CellMem.enqueue_swarm, CellMem.swarm_modSwarm_same]

theorem CellMem.swarm_reissued_ne (c : CellMem) (mx : Bool) (o : AsyncOp) {j : Nat} (h : j ≠ o.slot) :
    (c.reissued mx o).swarm j = c.swarm j := by
  rw [CellMem.reissued, CellMem.enqueue_swarm, CellMem.swarm_modSwarm_ne _ _ h]

theorem CellTo.quiet {t : State} {c : CellMem} (h : CellTo s t id c) (h1 : (c.swarm k).asyncFaults = [])
    (h2 : (c.swarm k).parkReq = none) : t.boundary id k = t :=
  boundary_quiet t id k (by rw [h.swarm, h1]) (by rw [h.swarm, h2])

theorem tryReissue_none (h : (s.swarm id k).reissue = none) : s.tryReissue id k = s := by
  unfold State.tryReissue
  rw [h]

/-- R133, R94: an operation that waits to be issued again is issued where there is room, and else still waits. -/
theorem tryReissue_some {mx : Bool} {o : AsyncOp} (ho : o.slot = k) (h : (s.swarm id k).reissue = some (mx, o))
    (h1 : (s.swarm id k).asyncFaults = []) (h2 : (s.swarm id k).parkReq = none) :
    CellTo s (s.tryReissue id k) id (if s.roomFor id k o.token = true then (s.cell id).reissued mx o else s.cell id) := by
  subst ho
  unfold State.tryReissue
  simp only [h]
  split
  · have ht := (cellTo_modSwarm s id o.slot fun w => { w with reissue := none }).trans
      (asyncIssue_cellTo (s.modSwarm id o.slot fun w => { w with reissue := none }) id mx o)
    have hc : (((s.modSwarm id o.slot fun w => { w with reissue := none }).cell id).modSwarm o.slot fun w => w.countUp o.token).enqueue mx o =
        (s.cell id).reissued mx o := by
      rw [State.modSwarm, cell_modCell_same, CellMem.modSwarm_modSwarm]; rfl
    rw [hc] at ht
    rw [ht.quiet (by rw [CellMem.swarm_reissued _ _ rfl]; exact h1) (by rw [CellMem.swarm_reissued _ _ rfl]; exact h2)]
    exact ht
  · exact .refl s id

/-! ### RESUME of a good record -/

/-- R133: the operation that a record names. -/
def CellMem.recordedOp (c : CellMem) (k : Nat) : AsyncOp :=
  { slot := k, token := c.recField k 10 8 8 % 16, pc := c.recField k 10 32 32, operand := c.recField k 14 0 64,
    mode := BitVec.ofNat 64 (c.recField k 5 0 64) }

/-- R133: the swarm that RESUME makes of a record, with the operation that RESUME.REISSUE has yet to issue. -/
def CellMem.resumedSwarm (c : CellMem) (k : Nat) (re : Bool) : Swarm :=
  { c.installed k with reissue := if re then some (isOp 0x48 (c.word (c.recField k 10 32 32)), c.recordedOp k) else none }

/-- R133: the cell in which a swarm is ACTIVE again: its record holds no more fault tokens, and its park is no longer held. -/
def CellMem.resumed (c : CellMem) (k : Nat) (w : Swarm) : CellMem :=
  let c := c.modSwarm k fun _ => w
  let c := c.setRec k 10 (setBits (c.recWord k 10) 16 16 0)
  let c := c.setRec k 11 (setBits (c.recWord k 11) 0 16 0)
  { c with supervised := c.supervised.filter fun p => p.2.1 != k }

theorem CellMem.resumed_swarms (c : CellMem) (k : Nat) (w : Swarm) : (c.resumed k w).swarms = (c.modSwarm k fun _ => w).swarms := rfl
theorem CellMem.resumed_lm (c : CellMem) (k : Nat) (w : Swarm) : (c.resumed k w).lm = c.lm := rfl
theorem CellMem.resumed_mxQueue (c : CellMem) (k : Nat) (w : Swarm) : (c.resumed k w).mxQueue = c.mxQueue := rfl
theorem CellMem.resumed_agQueue (c : CellMem) (k : Nat) (w : Swarm) : (c.resumed k w).agQueue = c.agQueue := rfl
theorem CellMem.resumed_inFlight (c : CellMem) (k : Nat) (w : Swarm) : (c.resumed k w).inFlight = c.inFlight := rfl

theorem CellMem.swarm_resumed (c : CellMem) (k : Nat) (w : Swarm) : (c.resumed k w).swarm k = w := by
  rw [CellMem.swarm, CellMem.resumed_swarms]
  exact c.swarm_modSwarm_same k fun _ => w

theorem CellMem.swarm_resumed_ne (c : CellMem) (w : Swarm) {j : Nat} (h : j ≠ k) : (c.resumed k w).swarm j = c.swarm j := by
  rw [CellMem.swarm, CellMem.resumed_swarms]
  exact c.swarm_modSwarm_ne (fun _ => w) h

/-- R133: the state in which the swarm is ACTIVE again, before an operation is issued again. -/
def State.resumeAt (s : State) (id k : Nat) (re : Bool) : State :=
  s.modCell id fun c => c.resumed k ((s.cell id).resumedSwarm k re)

theorem resume_good (h : (s.cell id).badRecord k re = false) :
    s.resume id k re = (((s.resumeAt id k re).tryReissue id k).boundary id k, true) := by
  unfold State.resume
  simp only [h, Bool.false_eq_true, if_false]
  rfl

theorem resumeAt_cellTo (s : State) (id k : Nat) (re : Bool) :
    CellTo s (s.resumeAt id k re) id ((s.cell id).resumed k ((s.cell id).resumedSwarm k re)) :=
  cellTo_modCell s id (f := fun c => c.resumed k ((s.cell id).resumedSwarm k re)) (CellMem.resumed_lm ..)

/-- R94: the cell has room for the operation that a record names. -/
def CellMem.roomFor (c : CellMem) (k : Nat) : Bool := c.inFlight < 256 && (c.swarm k).token (c.recordedOp k).token < 255

/-- R133: the cell that RESUME leaves. -/
def CellMem.afterResume (c : CellMem) (k : Nat) (re : Bool) : CellMem :=
  if (re && c.roomFor k) = true then
    (c.resumed k (c.resumedSwarm k re)).reissued (isOp 0x48 (c.word (c.recField k 10 32 32))) (c.recordedOp k)
  else c.resumed k (c.resumedSwarm k re)

section
variable (c : CellMem)

theorem CellMem.swarm_afterResume_ne {j : Nat} (h : j ≠ k) : (c.afterResume k re).swarm j = c.swarm j := by
  unfold CellMem.afterResume
  split
  · rw [CellMem.swarm_reissued_ne _ _ _ h, CellMem.swarm_resumed_ne _ _ h]
  · rw [CellMem.swarm_resumed_ne _ _ h]

/-- R133: the swarm is as its record says, but for its token and the operation that waits. -/
theorem CellMem.swarm_afterResume : ∃ ts o, (c.afterResume k re).swarm k = { c.installed k with tokens := ts, reissue := o } := by
  unfold CellMem.afterResume
  split
  · rw [CellMem.swarm_reissued (k := k) _ _ rfl, CellMem.swarm_resumed]
    exact ⟨_, _, rfl⟩
  · rw [CellMem.swarm_resumed]
    exact ⟨_, _, rfl⟩

theorem CellMem.afterResume_of_plain : c.afterResume k false = c.resumed k (c.resumedSwarm k false) := if_neg (by simp)

theorem CellMem.afterResume_of_room (h : c.roomFor k = true) : c.afterResume k true =
    (c.resumed k (c.resumedSwarm k true)).reissued (isOp 0x48 (c.word (c.recField k 10 32 32))) (c.recordedOp k) :=
  if_pos (by rw [h]; rfl)

theorem CellMem.reissued_length (mx : Bool) (o : AsyncOp) :
    (c.reissued mx o).mxQueue.length + (c.reissued mx o).agQueue.length = c.mxQueue.length + c.agQueue.length + 1 :=
  CellMem.enqueue_length ..

/-- R133: RESUME without REISSUE leaves the tokens and the queues. -/
theorem CellMem.afterResume_plain : let c' := c.afterResume k false
    (c'.swarm k).tokens = (c.swarm k).tokens ∧ c'.mxQueue = c.mxQueue ∧ c'.agQueue = c.agQueue := by
  dsimp only
  rw [CellMem.afterResume_of_plain, CellMem.swarm_resumed, CellMem.resumed_mxQueue, CellMem.resumed_agQueue]
  exact ⟨rfl, rfl, rfl⟩

/-- R133, R94: RESUME.REISSUE, where there is room, issues the recorded operation again. -/
theorem CellMem.afterResume_reissued (h : c.roomFor k = true) : let c' := c.afterResume k true
    let tok := (c.recordedOp k).token
    (c'.swarm k).token tok = (c.swarm k).token tok + 1 ∧ (c'.swarm k).reissue = none ∧
      c'.mxQueue.length + c'.agQueue.length = c.mxQueue.length + c.agQueue.length + 1 := by
  dsimp only
  rw [CellMem.afterResume_of_room c h, CellMem.swarm_reissued (k := k) _ _ rfl, CellMem.swarm_resumed, CellMem.reissued_length,
    CellMem.resumed_mxQueue, CellMem.resumed_agQueue]
  refine ⟨?_, rfl, rfl⟩
  rw [Swarm.token_countUp, if_pos rfl]
  rfl

end

/-- R133: RESUME of a good record succeeds and changes its cell alone. -/
theorem resume_cellTo (hb : (s.cell id).badRecord k re = false) (hf : (s.swarm id k).asyncFaults = []) :
    CellTo s (s.resume id k re).1 id ((s.cell id).afterResume k re) ∧ (s.resume id k re).2 = true := by
  have hu := resumeAt_cellTo s id k re
  have hw := (hu.swarm k).trans (CellMem.swarm_resumed ..)
  have h1 : ((s.resumeAt id k re).swarm id k).asyncFaults = [] := by rw [hw]; exact hf
  have h2 : ((s.resumeAt id k re).swarm id k).parkReq = none := by rw [hw]; rfl
  have hroom : (s.resumeAt id k re).roomFor id k ((s.cell id).recordedOp k).token = (s.cell id).roomFor k := by
    rw [State.roomFor, CellMem.roomFor, hw, hu.cell, CellMem.resumed_inFlight]
    rfl
  have ht : CellTo s ((s.resumeAt id k re).tryReissue id k) id ((s.cell id).afterResume k re) := by
    cases re with
    | false =>
      have e : (s.resumeAt id k false).tryReissue id k = s.resumeAt id k false := tryReissue_none (by rw [hw]; rfl)
      rw [e, CellMem.afterResume_of_plain]
      exact hu
    | true =>
      have ht := hu.trans (tryReissue_some (k := k) (o := (s.cell id).recordedOp k) rfl (by rw [hw]; rfl) h1 h2)
      rw [hroom, hu.cell] at ht
      exact ht
  obtain ⟨ts, o, hk⟩ := (s.cell id).swarm_afterResume (k := k) (re := re)
  rw [resume_good hb, ht.quiet (by rw [hk]; exact hf) (by rw [hk]; rfl)]
  exact ⟨ht, rfl⟩

/-! ### What a record says -/

theorem bitAt_bits (v lo : Nat) {len i : Nat} (h : i < len) : bitAt (bits v lo len) i = (bits v (lo + i) 1 == 1) := by
  rw [bitAt_eq, testBit_bits, decide_eq_true h, Bool.true_and, bits_eq, Nat.testBit_eq_decide_div_mod_eq, Bool.beq_eq_decide_eq]
  rfl

/-- R133: the branch that a resumed swarm re-executes. -/
theorem CellMem.installed_replay (c : CellMem) : (c.installed k).replay =
    if c.recField k 2 24 1 = 1 then some (c.recField k 2 28 1 == 1, c.recField k 4 0 64) else none := by
  have h0 : bitAt (c.recField k 2 24 8) 0 = (c.recField k 2 24 1 == 1) := bitAt_bits _ 24 (by decide)
  have h4 : bitAt (c.recField k 2 24 8) 4 = (c.recField k 2 28 1 == 1) := bitAt_bits _ 24 (by decide)
  unfold CellMem.installed
  simp only [h0, h4, beq_iff_eq]

theorem CellMem.recordedOp_token (c : CellMem) : (c.recordedOp k).token = c.recField k 10 8 4 := by
  show bits _ 8 8 % 16 = bits _ 8 4
  rw [bits_eq, bits_eq]
  omega

end

/-! ### PARKREQ -/

section
variable {s : State} {id k : Nat}

/-- R126: a park is requested of a swarm. -/
def Swarm.askPark (w : Swarm) (d : Nat) : Swarm := { w with parkReq := some d }

/-- R126: PARKREQ parks an ACTIVE swarm that has nothing else due at its boundary. -/
theorem requestPark_parks (hst : (s.swarm id k).st = .active) (hm : (s.swarm id k).mem = none) (hi : (s.swarm id k).reissue = none)
    (hf : (s.swarm id k).asyncFaults = []) (hp : s.parksAlone id k = true) :
    Parks (s.modSwarm id k fun w => w.askPark 0) (s.requestPark id k 0) id k { code := 0x1015, detail := 0 } := by
  have e : s.requestPark id k 0 = (s.modSwarm id k fun w => w.askPark 0).boundary id k := by
    simp only [State.requestPark, hst]
    rfl
  have hw : (s.modSwarm id k fun w => w.askPark 0).swarm id k = (s.swarm id k).askPark 0 := swarm_modSwarm_same ..
  have hp : (s.modSwarm id k fun w => w.askPark 0).parksAlone id k = true :=
    (parksAlone_modSwarm (f := fun w => w.askPark 0) fun _ => rfl).trans hp
  rw [e]
  exact boundary_requested (by rw [hw]; exact hst) (by rw [hw]; exact hm) (by rw [hw]; exact hi) (by rw [hw]; exact hf)
    (by rw [hw]; rfl) (.inr hp)

end

/-! ### PCTL -/

section
variable {s : State} {id up a act : Nat}

/-- R162: PCTL's word is valid. -/
theorem pctlWord_ok (hup : up < 4) (ha : a < 64) (hact : act ≤ 3) : let x := rWord 0x66 0 (up + 4 * act) 0 a 0 0
    (isOp 0x66 x && (bits x 50 3 == act || 4 ≤ bits x 50 3)) = true ∧ firstBad (encPctl x) = none ∧ wA x = a ∧ bits x 48 2 = up := by
  obtain ⟨ho, hg, _, hD, hA, hB, _, _⟩ := rWord_fields (op := 0x66) (g := 0) (fn := up + 4 * act) (d := 0) (a := a) (b := 0) (c := 0)
    (by decide) (by decide) (by omega) (by decide) (by omega) (by decide) (by decide)
  have h50 : bits (rWord 0x66 0 (up + 4 * act) 0 a 0 0) 50 3 = act := by simp only [rWord, bits_eq]; omega
  have h8 : bits (rWord 0x66 0 (up + 4 * act) 0 a 0 0) 8 16 = 0 := by simp only [rWord, bits_eq]; omega
  have h0 : bits (rWord 0x66 0 (up + 4 * act) 0 a 0 0) 0 8 = 0 := by simp only [rWord, bits_eq]; omega
  refine ⟨by simp [isOp, ho, h50], by simp [encPctl, firstBad, hg, h50, hD, hA, hB, h8, h0, okU, ha, hact], hA, ?_⟩
  simp only [rWord, bits_eq]
  omega

/-- R132, R162: PCTL on another slot carries its command out and commits with UP. -/
theorem pctl_other {k : Nat} (hup : up < 4) (ha : a < 64) (hact : act ≤ 3) (hu : (s.swarm id 0).ureg a = k) (hk : k ≠ 0) (hlt : k < 16)
    (h : s.stands id 0 (rWord 0x66 0 (up + 4 * act) 0 a 0 0) true false = true) :
    s.pctl id 0 act = (s.slotCmd id k act).1.endUp id up (s.slotCmd id k act).2 := by
  obtain ⟨hrow, henc, hA, hU⟩ := pctlWord_ok hup ha hact
  have ht : s.supTarget id (rWord 0x66 0 (up + 4 * act) 0 a 0 0) = some k := by
    simp only [State.supTarget, hA, hu, hlt, if_true]
  refine (issue_supervisor h hrow henc).trans ((if_pos rfl).trans ?_)
  simp only [ht, State.supEnd, hU]
  rfl

/-- R132: swarm 0 cannot resume itself. -/
theorem pctl_self_resume (hup : up < 4) (ha : a < 64) (hact : act < 2) (hu : (s.swarm id 0).ureg a = 0)
    (h : s.stands id 0 (rWord 0x66 0 (up + 4 * act) 0 a 0 0) true false = true) :
    s.pctl id 0 act = (s.ignored id).endUp id up false := by
  obtain ⟨hrow, henc, hA, hU⟩ := pctlWord_ok (act := act) hup ha (by omega)
  have ht : s.supTarget id (rWord 0x66 0 (up + 4 * act) 0 a 0 0) = some 0 := by
    simp only [State.supTarget, hA, hu]; rfl
  refine (issue_supervisor h hrow henc).trans ((if_pos rfl).trans ?_)
  simp only [ht, State.supEnd, hU, hact, if_true]
  rfl

/-- R132: swarm 0 can stop itself, once its PCTL has committed. -/
theorem pctl_self_stop (hup : up < 4) (ha : a < 64) (h2 : 2 ≤ act) (hact : act ≤ 3) (hu : (s.swarm id 0).ureg a = 0)
    (h : s.stands id 0 (rWord 0x66 0 (up + 4 * act) 0 a 0 0) true false = true) :
    s.pctl id 0 act = ((s.endUp id up true).slotCmd id 0 act).1 := by
  obtain ⟨hrow, henc, hA, hU⟩ := pctlWord_ok hup ha hact
  have ht : s.supTarget id (rWord 0x66 0 (up + 4 * act) 0 a 0 0) = some 0 := by
    simp only [State.supTarget, hA, hu]; rfl
  refine (issue_supervisor h hrow henc).trans ((if_pos rfl).trans ?_)
  simp only [ht, State.supEnd, hU, Nat.not_lt.2 h2, if_false]
  rfl

end

/-! ### The four commands, by both ways -/

/-- R162: what follows a command on a slot: through PCTL, its commit with UP. -/
def State.endCmd (s : State) (id up : Nat) (viaHost ok : Bool) : State := if viaHost then s else s.endUp id up ok

theorem endCmd_host (s : State) (id up : Nat) (ok : Bool) : s.endCmd id up true ok = s := rfl

theorem endCmd_pctl (s : State) (id up : Nat) (ok : Bool) : s.endCmd id up false ok = s.endUp id up ok := rfl

/-- Table 06-5: the instruction or the register access that gives command `act`. -/
def GivesCmd (cell : BitVec 10) (n : BitVec 4) (act : Nat) (viaHost : Bool) (c : Instr) : Prop :=
  (viaHost = true ∧ ((act = 0 ∧ c = .parkCmdResume cell n) ∨ (act = 1 ∧ c = .parkCmdResumeReissue cell n) ∨
      (act = 2 ∧ c = .parkCmdParkRequest cell n) ∨ (act = 3 ∧ c = .parkCmdKill cell n))) ∨
    (viaHost = false ∧ ((act = 0 ∧ c = .pctlResume cell 0) ∨ (act = 1 ∧ c = .pctlResumeReissue cell 0) ∨
      (act = 2 ∧ c = .pctlParkreq cell 0) ∨ (act = 3 ∧ c = .pctlKill cell 0)))

section
variable {s : State} {cell : BitVec 10} {n : BitVec 4} {act up a : Nat} {viaHost : Bool} {c : Instr}

theorem GivesCmd.act_le (h : GivesCmd cell n act viaHost c) : act ≤ 3 := by unfold GivesCmd at h; omega

theorem GivesCmd.pctl (h : GivesCmd cell n act false c) : exec c s = .next (s.pctl cell.toNat 0 act) := by
  rcases h with ⟨h, _⟩ | ⟨_, h⟩
  · cases h
  · rcases h with ⟨rfl, rfl⟩ | ⟨rfl, rfl⟩ | ⟨rfl, rfl⟩ | ⟨rfl, rfl⟩ <;> rfl

theorem GivesCmd.host (h : GivesCmd cell n act true c) : exec c s = .next (s.parkCmd cell.toNat n.toNat act) := by
  rcases h with ⟨_, h⟩ | ⟨h, _⟩
  · rcases h with ⟨rfl, rfl⟩ | ⟨rfl, rfl⟩ | ⟨rfl, rfl⟩ | ⟨rfl, rfl⟩ <;> rfl
  · cases h

/-- R132: a command through a served debug window, or through PCTL on another slot, is carried out. -/
theorem GivesCmd.exec_eq (hc : GivesCmd cell n act viaHost c)
    (h : if viaHost then s.windowGate cell.toNat = .serve else up < 4 ∧ a < 64 ∧ (s.swarm cell.toNat 0).ureg a = n.toNat ∧ n.toNat ≠ 0 ∧
      s.stands cell.toNat 0 (rWord 0x66 0 (up + 4 * act) 0 a 0 0) true false = true) :
    exec c s = .next ((s.slotCmd cell.toNat n.toNat act).1.endCmd cell.toNat up viaHost (s.slotCmd cell.toNat n.toNat act).2) ∧
      (viaHost = false → n.toNat ≠ 0 ∧ s.quiet0 cell.toNat) := by
  cases viaHost with
  | true =>
    have h : s.windowGate cell.toNat = .serve := h
    refine ⟨hc.host.trans (congrArg Host.Outcome.next ?_), fun h => by cases h⟩
    simp only [State.parkCmd, h, State.gated, endCmd_host]
  | false =>
    obtain ⟨hup, ha, hu, hk, hs⟩ := h
    rw [endCmd_pctl]
    exact ⟨hc.pctl.trans (congrArg _ (pctl_other hup ha hc.act_le hu hk n.isLt hs)), fun _ => ⟨hk, quiet_of_stands hs⟩⟩

end

/-- What a command on slot `k` leaves: bytes and other swarms stay; through PCTL, swarm 0 commits with UP. -/
def CmdLeaves (s t : State) (id k up : Nat) (viaHost ok : Bool) : Prop :=
  KeepsBytes s t ∧ (∀ j, j ≠ k → (viaHost = true ∨ j ≠ 0) → t.swarm id j = s.swarm id j) ∧
    (viaHost = false → t.swarm id 0 = ((s.swarm id 0).advance none).setUp up ok)

/-- What the end of a command leaves of the cell `c` that it gave. -/
structure CmdEnd (s t u : State) (id k up : Nat) (viaHost ok : Bool) (c : CellMem) : Prop where
  leaves : CmdLeaves s t id k up viaHost ok
  swarm : t.swarm id k = c.swarm k
  records : (t.cell id).records = c.records
  mxQueue : (t.cell id).mxQueue = c.mxQueue
  agQueue : (t.cell id).agQueue = c.agQueue
  regs : t.regs = u.regs

section
variable {s : State} {id k up act : Nat} {viaHost : Bool}

theorem endCmd_end {u : State} {c : CellMem} (ok : Bool) (h : CellTo s u id c) (hj : ∀ j, j ≠ k → c.swarm j = s.swarm id j)
    (hv : viaHost = false → k ≠ 0 ∧ s.quiet0 id) : CmdEnd s (u.endCmd id up viaHost ok) u id k up viaHost ok c := by
  cases viaHost with
  | true =>
    rw [endCmd_host]
    exact ⟨⟨h.bytes, fun j hk _ => (h.swarm j).trans (hj j hk), fun h => by cases h⟩, h.swarm k, congrArg CellMem.records h.cell,
      congrArg CellMem.mxQueue h.cell, congrArg CellMem.agQueue h.cell, rfl⟩
  | false =>
    obtain ⟨hk, hq⟩ := hv rfl
    obtain ⟨ht, hr⟩ := h.endUp (hj 0 (Ne.symm hk)) hq up ok
    rw [endCmd_pctl]
    refine ⟨⟨ht.bytes, fun j hjk h0 => ?_, fun _ => ?_⟩, ?_, by rw [ht.cell]; rfl, by rw [ht.cell]; rfl, by rw [ht.cell]; rfl, hr⟩
    · rw [ht.swarm, CellMem.swarm_modSwarm_ne _ _ (h0.resolve_left Bool.false_ne_true), hj j hjk]
    · rw [ht.swarm, CellMem.swarm_modSwarm_same, hj 0 (Ne.symm hk)]; rfl
    · rw [ht.swarm, CellMem.swarm_modSwarm_ne _ _ hk]

theorem slotCmd_resume (hact : act ≤ 1) (h : (s.swarm id k).st = .parked) : s.slotCmd id k act = s.resume id k (act == 1) := by
  obtain rfl | rfl : act = 0 ∨ act = 1 := by omega
  all_goals
    simp only [State.slotCmd, h]
    rfl

theorem slotCmd_parkreq (h : (s.swarm id k).st = .active) : s.slotCmd id k 2 = (s.requestPark id k 0, true) := by
  simp only [State.slotCmd, h]
  rfl

theorem slotCmd_kill (h : (s.swarm id k).st = .active ∨ (s.swarm id k).st = .parked) : s.slotCmd id k 3 = (s.leave id k, true) := by
  rcases h with h | h
  all_goals
    simp only [State.slotCmd, h]
    rfl

theorem slotCmd_ignored (h : (act ≤ 1 ∧ (s.swarm id k).st ≠ .parked) ∨ (act = 2 ∧ (s.swarm id k).st ≠ .active) ∨
    (act = 3 ∧ (s.swarm id k).st ≠ .active ∧ (s.swarm id k).st ≠ .parked)) : s.slotCmd id k act = (s.ignored id, false) := by
  rcases h with ⟨hact, h⟩ | ⟨rfl, h⟩ | ⟨rfl, ha, hp⟩
  · obtain rfl | rfl : act = 0 ∨ act = 1 := by omega
    all_goals simp [State.slotCmd, h]
  · simp [State.slotCmd, h]
  · simp [State.slotCmd, ha, hp]

end

/-! ### What each command leaves -/

section
variable {s : State} {id k up act : Nat} {viaHost : Bool}

/-- R133: RESUME and RESUME.REISSUE of a good record. -/
theorem cmd_resume (hv : viaHost = false → k ≠ 0 ∧ s.quiet0 id) (hact : act ≤ 1) (hst : (s.swarm id k).st = .parked)
    (hb : (s.cell id).badRecord k (act == 1) = false) (hf : (s.swarm id k).asyncFaults = []) :
    let t := (s.slotCmd id k act).1.endCmd id up viaHost (s.slotCmd id k act).2
    let c := (s.cell id).afterResume k (act == 1)
    CmdLeaves s t id k up viaHost true ∧ t.swarm id k = c.swarm k ∧ (t.cell id).mxQueue = c.mxQueue ∧ (t.cell id).agQueue = c.agQueue := by
  obtain ⟨hr, hok⟩ := resume_cellTo hb hf
  have ht := endCmd_end (up := up) true hr (fun j hj => CellMem.swarm_afterResume_ne _ hj) hv
  rw [slotCmd_resume hact hst, hok]
  exact ⟨ht.leaves, ht.swarm, ht.mxQueue, ht.agQueue⟩

/-- R133: RESUME of a bad record. -/
theorem cmd_refuse (hv : viaHost = false → k ≠ 0 ∧ s.quiet0 id) (hact : act ≤ 1) (hst : (s.swarm id k).st = .parked)
    (hb : (s.cell id).badRecord k (act == 1) = true) :
    let t := (s.slotCmd id k act).1.endCmd id up viaHost (s.slotCmd id k act).2
    CmdLeaves s t id k up viaHost false ∧ t.swarm id k = s.swarm id k ∧ (t.cell id).recField k 2 0 16 = 0x1016 := by
  have hr := cellTo_modCell s id (f := fun c => c.refuseResume k) (CellMem.setRec_lm ..)
  have ht := endCmd_end (k := k) (up := up) false hr (fun j _ => CellMem.swarm_refuseResume ..) hv
  rw [slotCmd_resume hact hst, resume_bad hb]
  refine ⟨ht.leaves, ht.swarm.trans (CellMem.swarm_refuseResume ..), ?_⟩
  rw [CellMem.recField, CellMem.recWord, ht.records]
  exact (s.cell id).code_refuseResume k

/-- R126: PARKREQ. -/
theorem cmd_parkreq (hv : viaHost = false → k ≠ 0 ∧ s.quiet0 id) (hlt : k < 16) (hst : (s.swarm id k).st = .active)
    (hm : (s.swarm id k).mem = none) (hi : (s.swarm id k).reissue = none) (hf : (s.swarm id k).asyncFaults = [])
    (hp : s.parksAlone id k = true) : let t := (s.slotCmd id k 2).1.endCmd id up viaHost (s.slotCmd id k 2).2
    CmdLeaves s t id k up viaHost true ∧ (t.swarm id k).st = .parked ∧ (t.cell id).recField k 2 0 16 = 0x1015 ∧
      (t.cell id).recWord k 13 = 0 ∧ (t.swarm id k).u = (s.swarm id k).u ∧ (t.swarm id k).v = (s.swarm id k).v := by
  have hp := requestPark_parks hst hm hi hf hp
  obtain ⟨_, hcode, hdet⟩ := hp.record hlt (show 0x1015 < 2 ^ 16 by decide) rfl (show 0 < 2 ^ 64 by decide) rfl
  obtain ⟨c, hc, hk, hj, _⟩ := hp.cellTo_eq
  have hr := (cellTo_modSwarm s id k fun w => w.askPark 0).trans hc
  have ht := endCmd_end (up := up) true hr
    (fun j hne => (hj j hne).trans (by rw [swarm_modSwarm, if_neg fun h => hne h.2])) hv
  rw [swarm_modSwarm_same] at hk
  have hw := ht.swarm.trans hk
  rw [hc.cell] at hcode hdet
  rw [slotCmd_parkreq hst]
  refine ⟨ht.leaves, by rw [hw]; rfl, ?_, ?_, by rw [hw]; rfl, by rw [hw]; rfl⟩
  · rw [CellMem.recField, CellMem.recWord, ht.records]; exact hcode
  · rw [CellMem.recWord, ht.records]; exact hdet

/-- R114: KILL. -/
theorem cmd_kill (hv : viaHost = false → k ≠ 0 ∧ s.quiet0 id) (hst : (s.swarm id k).st = .active ∨ (s.swarm id k).st = .parked)
    (h0 : k ≠ 0 ∨ (s.cell id).supervised = []) : let t := (s.slotCmd id k 3).1.endCmd id up viaHost (s.slotCmd id k 3).2
    CmdLeaves s t id k up viaHost true ∧ (t.swarm id k).st = .exiting := by
  have ht := endCmd_end (up := up) true (leave_cellTo h0) (fun j hj => CellMem.swarm_leftBy_ne _ hj) hv
  rw [slotCmd_kill hst]
  refine ⟨ht.leaves, ?_⟩
  rw [ht.swarm, CellMem.swarm_leftBy]
  exact leave_st hst

/-- R162: a command on a slot in another state. -/
theorem cmd_ignored (hv : viaHost = false → k ≠ 0 ∧ s.quiet0 id) (h : (act ≤ 1 ∧ (s.swarm id k).st ≠ .parked) ∨
    (act = 2 ∧ (s.swarm id k).st ≠ .active) ∨ (act = 3 ∧ (s.swarm id k).st ≠ .active ∧ (s.swarm id k).st ≠ .parked)) :
    let t := (s.slotCmd id k act).1.endCmd id up viaHost (s.slotCmd id k act).2
    CmdLeaves s t id k up viaHost false ∧ t.swarm id k = s.swarm id k ∧ t.rd (Reg.cellParkStatusCmdIgnored (s.phys id)) = 1 := by
  have ht := endCmd_end (k := k) (up := up) false (ignored_cellTo s id) (fun j _ => rfl) hv
  rw [slotCmd_ignored h]
  exact ⟨ht.leaves, ht.swarm, rd_ignored ht.regs⟩

/-- R114, R132: swarm 0 kills itself once its PCTL has committed. -/
theorem self_kill (hst : (s.swarm id 0).st = .active) (hq : s.quiet0 id) (h0 : (s.cell id).supervised = []) :
    let t := ((s.endUp id up true).slotCmd id 0 3).1
    KeepsBytes s t ∧ (t.swarm id 0).st = .exiting ∧ ∀ j, j ≠ 0 → t.swarm id j = s.swarm id j := by
  obtain ⟨hu, _⟩ := (CellTo.refl s id).endUp rfl hq up true
  have hw : ((s.endUp id up true).swarm id 0).st = .active := by
    rw [hu.swarm, CellMem.swarm_modSwarm_same]
    exact (advance_keeps_st _ none).trans hst
  have ht := hu.trans (leave_cellTo (s := s.endUp id up true) (id := id) (k := 0) (.inr (by rw [hu.cell]; exact h0)))
  simp only [slotCmd_kill (.inl hw)]
  refine ⟨ht.bytes, ?_, fun j hj => ?_⟩
  · rw [ht.swarm, CellMem.swarm_leftBy]
    exact leave_st (.inl hw)
  · rw [ht.swarm, CellMem.swarm_leftBy_ne _ hj, hu.cell, CellMem.swarm_modSwarm_ne _ _ hj]
    rfl

end

/-- Settles O35: each command has the effect of its rule on its slot, through PCTL as through a debug window. -/
theorem slotCommands : Obligations.SlotCommands := by
  unfold Obligations.SlotCommands
  intro s cell up a n act viaHost c id w k v f ran sup hc
  have hc : GivesCmd cell n act viaHost c := hc
  refine ⟨fun hran => ?other, fun hh hup ha hu h => ?self⟩
  case other =>
    obtain ⟨he, hv⟩ := hc.exec_eq hran
    refine ⟨fun hact hst hb hf => ?resume, fun hact hst hb => ⟨_, he, cmd_refuse hv hact hst hb⟩, fun hact hst hm hi hf hp => ?parkreq,
      fun hact hst h0 => ?kill, fun hn => ⟨_, he, cmd_ignored hv hn⟩⟩
    case resume =>
      obtain ⟨hl, hw, hmx, hag⟩ := cmd_resume (up := up) hv hact hst hb hf
      obtain ⟨ts, o, hk⟩ := (s.cell id).swarm_afterResume (k := k) (re := act == 1)
      have hk := hw.trans hk
      refine ⟨_, he, hl, by rw [hk]; rfl, by rw [hk]; rfl, by rw [hk]; rfl, by rw [hk]; rfl, by rw [hk]; rfl, ?_,
        by rw [hk]; rfl, by rw [hk]; rfl, by rw [hk]; rfl, by rw [hk]; rfl, fun h0 => ?_, fun h1 hin htok => ?_⟩
      · rw [hk]; exact (s.cell id).installed_replay
      · subst h0
        rw [hw, hmx, hag]
        exact (s.cell id).afterResume_plain
      · subst h1
        have hroom : (s.cell id).roomFor k = true := by
          rw [CellMem.roomFor, CellMem.recordedOp_token]
          simpa using ⟨hin, htok⟩
        have h := (s.cell id).afterResume_reissued hroom
        rw [CellMem.recordedOp_token] at h
        rw [hw, hmx, hag]
        exact h
    case parkreq =>
      subst hact
      exact ⟨_, he, cmd_parkreq hv n.isLt hst hm hi hf hp⟩
    case kill =>
      subst hact
      exact ⟨_, he, cmd_kill hv hst h0⟩
  case self =>
    subst hh
    refine ⟨fun hact => ?_, fun hact h0 => ?_⟩
    · obtain ⟨⟨hb, _, _⟩, hw, hrd⟩ := ignored_effect (quiet_of_stands h) up
      exact ⟨_, hc.pctl.trans (congrArg _ (pctl_self_resume hup ha (by omega) hu h)), hb, hw, hrd⟩
    · subst hact
      exact ⟨_, hc.pctl.trans (congrArg _ (pctl_self_stop hup ha (by decide) (by decide) hu h)),
        self_kill (active_of_stands h) (quiet_of_stands h) h0⟩

end Sys2Proof.Machine
end

section
/-! PROOFS. Instructions that write one register of their swarm, issued at a word that passes every check (R95, R117, R120, R135, R136). -/
namespace Sys2Proof.Machine

/-! ### What an instruction of one destination writes -/

section
variable {s : State} {id k x g d : Nat} {row : Nat → Bool} {enc : Nat → List (Nat × Bool)} {regs : Nat → List (Nat × Nat)}
  {fmt : Nat → List (Nat × Bool)}

/-- R117, R120: an issued instruction that writes v[D] in its active lanes. -/
theorem issue_writesLanes {f : Swarm → Nat → Nat → Nat} {v : Nat → Nat} (hs : s.stands id k x false false = true) (hrow : row x = true)
    (henc : firstBad (enc x) = none) (hregs : pastV (s.swarm id k).V (regs x) = none) (hfmt : firstBad (fmt x) = none)
    (hg : wGuard x = g) (hd : wD x = d) (hf : ∀ i, f (s.swarm id k) x i = v i) :
    WritesLanes s (s.issue id k row false false false enc regs fmt fun s x => s.put id k fun w =>
      w.mapLanes (w.active x) (wD x) (f w x)) id k g d v := by
  obtain ⟨h1, h2⟩ := quiet_of_stands hs
  rw [issue_stands hs hrow henc (fun h => by cases h) hregs hfmt, ← hg, ← hd, ← funext hf]
  exact put_mapLanes s id k x (wD x) (fun w => f w x) h1 h2

/-- R120: an issued instruction that writes u[D]. -/
theorem issue_writesUniform {f : Swarm → Nat → Nat} {v : Nat} (hs : s.stands id k x false false = true) (hrow : row x = true)
    (henc : firstBad (enc x) = none) (hregs : pastV (s.swarm id k).V (regs x) = none) (hfmt : firstBad (fmt x) = none)
    (hd : wD x = d) (hf : f (s.swarm id k) x = v) :
    WritesUniform s (s.issue id k row false false false enc regs fmt fun s x => s.put id k fun w => w.setU (wD x) (f w x)) id k d v := by
  obtain ⟨h1, h2⟩ := quiet_of_stands hs
  rw [issue_stands hs hrow henc (fun h => by cases h) hregs hfmt, ← hd, ← hf]
  exact put_setU s id k (wD x) (fun w => f w x) h1 h2

/-- R120: an issued instruction that writes up[D]. -/
theorem issue_writesPred {f : Swarm → Nat → Bool} {v : Bool} (hs : s.stands id k x false false = true) (hrow : row x = true)
    (henc : firstBad (enc x) = none) (hregs : pastV (s.swarm id k).V (regs x) = none) (hfmt : firstBad (fmt x) = none)
    (hd : wD x = d) (hlt : d < 4) (hf : f (s.swarm id k) x = v) :
    WritesPred s (s.issue id k row false false false enc regs fmt fun s x => s.put id k fun w => w.setUp (wD x) (f w x)) id k d v := by
  obtain ⟨h1, h2⟩ := quiet_of_stands hs
  subst hd
  rw [issue_stands hs hrow henc (fun h => by cases h) hregs hfmt, ← hf]
  exact put_setUp s id k (wD x) (fun w => f w x) hlt h1 h2

/-- R144: an issued compare that writes the bits of the active lanes of p[D]. -/
theorem issue_writesMask {f : Swarm → Nat → Nat → Bool} {v : Nat → Bool} (hs : s.stands id k x false false = true) (hrow : row x = true)
    (henc : firstBad (enc x) = none) (hregs : pastV (s.swarm id k).V (regs x) = none) (hfmt : firstBad (fmt x) = none)
    (hg : wGuard x = g) (hd : wD x = d) (hf : ∀ i, f (s.swarm id k) x i = v i) :
    WritesMask s (s.issue id k row false false false enc regs fmt fun s x => s.put id k fun w => w.setMask x (f w x)) id k d
      fun i => if bitAt ((s.swarm id k).preg g) i then v i else bitAt ((s.swarm id k).preg d) i := by
  obtain ⟨h1, h2⟩ := quiet_of_stands hs
  rw [issue_stands hs hrow henc (fun h => by cases h) hregs hfmt, ← hg, ← hd, ← funext hf]
  obtain ⟨hb, hr, hm⟩ := put_setP s id k (wD x) (fun w => maskOf 32 fun i => if bitAt (w.preg (wGuard x)) i then f w x i
    else bitAt (w.preg (wD x)) i) h1 h2
  refine ⟨hb, hr, fun n i hi => (hm n i hi).trans ?_⟩
  rw [bitAt_eq (maskOf _ _), (testBit_maskOf 32 _).2 i, decide_eq_true hi, Bool.true_and]

end

/-! ### The words -/

/-- R135: the lane registers that a word names. -/
theorem Swarm.holds_cons {w : Swarm} {r : Nat} {l : List Nat} : w.holds (r :: l) = true ↔ (r < w.V ∧ r < 256) ∧ w.holds l = true := by
  simp [Swarm.holds]

theorem Swarm.holds_pastV {w : Swarm} {l : List Nat} (h : w.holds l = true) : pastV w.V (l.map fun r => (r, 1)) = none :=
  (pastV_none_iff ..).2 fun e he => by
    obtain ⟨r, hr, rfl⟩ := List.mem_map.1 he
    simp only [Swarm.holds, List.all_eq_true, Bool.and_eq_true, decide_eq_true_eq] at h
    exact (h r hr).1

/-- R136: the fields of an R-format word, all valid. -/
theorem encR_ok {x : Nat} {g : Bool} {fns : List Nat} {d a b c : Nat → Bool} {low : Bool} (hg : g = true ∨ wGuard x = 0)
    (hfn : wFn x ∈ fns) (hd : d (wD x) = true) (ha : a (wA x) = true) (hb : b (wB x) = true) (hc : c (wC x) = true) (hl : low = true) :
    firstBad (encR x g fns d a b c low) = none := by
  have hg : (g || wGuard x == 0) = true := by simpa using hg
  simp [encR, firstBad, hg, hfn, hd, ha, hb, hc, hl]

/-- R136: the fields of an I-format word, all valid. -/
theorem encI_ok {x : Nat} {g : Bool} {fns : List Nat} {d a : Nat → Bool} (hg : g = true ∨ wGuard x = 0) (hfn : wFn x ∈ fns)
    (hd : d (wD x) = true) (ha : a (wA x) = true) : firstBad (encI x g fns d a true) = none := by
  have hg : (g || wGuard x == 0) = true := by simpa using hg
  simp [encI, firstBad, hg, hfn, hd, ha]

theorem isOp_eq {x op : Nat} (h : wOp x = op) : isOp op x = true := by simp [isOp, h]

/-- R147: IMM32, sign-extended. -/
theorem immS_eq (x : Nat) : immS x = ((BitVec.ofNat 32 (wImm x)).signExtend 64).toNat := by
  rw [BitVec.signExtend, BitVec.toNat_ofInt, ← sx_toNat (by decide), immS, ofI]
  rw [BitVec.toNat_ofNat, sx_mod]
  rfl

end Sys2Proof.Machine
end

section
/-! PROOFS (O1, O2). VALU.I32, VALU.I32I, UALU and UALUI (R142). -/
namespace Sys2Proof.Machine

theorem mem_intImmFns {fn : Nat} (h : fn ≤ 16) (h5 : fn ≠ 5) : fn ∈ intImmFns := by
  simp only [intImmFns, List.mem_cons, List.not_mem_nil, or_false]
  omega

/-- Table 07-4: field B is not used by ABS, NEG, CLZ and POPC. -/
theorem intB_ok {fn b : Nat} {ok : Nat → Bool} (h : 17 ≤ fn → b = 0) (hb : ok b = true) : intB fn ok b = true := by
  unfold intB
  split
  · next hf => simp [okZ, h hf]
  · exact hb

/-- Table 07-4: field C is used by MAD. -/
theorem intC_ok {fn c : Nat} {ok : Nat → Bool} (h : fn ≠ 5 → c = 0) (hc : ok c = true) : intC fn ok c = true := by
  unfold intC
  split
  · exact hc
  · next hf => simp [okZ, h (by simpa using hf)]

/-- Settles O1: each word passes the checks of R135 and R136, and its effect is that of one destination. -/
theorem laneIntegers : Obligations.LaneIntegers := by
  unfold Obligations.LaneIntegers
  intro s cell slot g fn d a b c imm id k w
  refine ⟨fun hg hfn hh hb hc hs => ?_, fun hg hfn h5 hh hi hs => ?_⟩
  · have hV := Swarm.holds_pastV hh
    simp only [Swarm.holds_cons] at hh
    obtain ⟨⟨_, hd⟩, ⟨_, ha⟩, ⟨_, hb'⟩, ⟨_, hc'⟩, _⟩ := hh
    obtain ⟨fO, fG, fF, fD, fA, fB, fC, fL⟩ := rWord_fields (op := 0x10) (by decide) hg (by omega : fn < 32) hd ha hb' hc'
    refine ⟨_, rfl, issue_writesLanes hs (isOp_eq fO) (encR_ok (.inl rfl) ?_ rfl rfl ?_ ?_ fL) ?_ rfl fG fD fun i => ?_⟩
    · rw [fF]; exact List.mem_range.2 (Nat.lt_succ_of_le hfn)
    · rw [fF, fB]; exact intB_ok hb rfl
    · rw [fF, fC]; exact intC_ok hc rfl
    · rw [fD, fA, fB, fC]; exact hV
    · rw [fF, fA, fB, fC]
  · have hV := Swarm.holds_pastV hh
    simp only [Swarm.holds_cons] at hh
    obtain ⟨⟨_, hd⟩, ⟨_, ha⟩, _⟩ := hh
    obtain ⟨fO, fG, fF, fD, fA, fI⟩ := iWord_fields (op := 0x11) (by decide) hg (by omega : fn < 32) hd ha hi
    refine ⟨_, rfl, issue_writesLanes hs (isOp_eq fO) (encI_ok (.inl rfl) ?_ rfl rfl) ?_ rfl fG fD fun i => ?_⟩
    · rw [fF]; exact mem_intImmFns hfn h5
    · rw [fD, fA]; exact hV
    · rw [fF, fA, fI]

/-- Settles O2: each word passes the checks of R136, and its effect is that of one destination. -/
theorem uniformIntegers : Obligations.UniformIntegers := by
  unfold Obligations.UniformIntegers
  intro s cell slot fn d a b c imm id k w
  refine ⟨fun hfn hd ha hb hc hb0 hc0 hs => ?_, fun hfn h5 hd ha hi hs => ?_⟩
  · obtain ⟨fO, fG, fF, fD, fA, fB, fC, fL⟩ := rWord_fields (op := 0x20) (g := 0) (fn := fn) (d := d) (a := a) (b := b) (c := c)
      (by decide) (by decide) (by omega) (by omega) (by omega) (by omega) (by omega)
    refine ⟨_, rfl, issue_writesUniform hs (isOp_eq fO) (encR_ok (.inr fG) ?_ ?_ ?_ ?_ ?_ fL) rfl rfl fD ?_⟩
    · rw [fF]; exact List.mem_range.2 (Nat.lt_succ_of_le hfn)
    · rw [fD]; exact decide_eq_true hd
    · rw [fA]; exact decide_eq_true ha
    · rw [fF, fB]; exact intB_ok hb0 (decide_eq_true hb)
    · rw [fF, fC]; exact intC_ok hc0 (decide_eq_true hc)
    · rw [fF, fA, fB, fC]
  · obtain ⟨fO, fG, fF, fD, fA, fI⟩ := iWord_fields (op := 0x21) (g := 0) (fn := fn) (d := d) (a := a) (imm := imm)
      (by decide) (by decide) (by omega) (by omega) (by omega) hi
    refine ⟨_, rfl, issue_writesUniform hs (isOp_eq fO) (encI_ok (.inr fG) ?_ ?_ ?_) rfl rfl fD ?_⟩
    · rw [fF]; exact mem_intImmFns hfn h5
    · rw [fD]; exact decide_eq_true hd
    · rw [fA]; exact decide_eq_true ha
    · rw [fF, fA, immS_eq, fI]

end Sys2Proof.Machine
end

section
/-! PROOFS (O3). Table 07-4: the integer operations as operations on bit vectors (R142). -/
namespace Sys2Proof.Machine

section
variable {n : Nat}

theorem ofI_eq_ofInt (n : Nat) (x : Int) : ofI n x = (BitVec.ofInt n x).toNat := by
  rw [BitVec.toNat_ofInt, ofI]; norm_cast

/-! ### Shifts, with counts at or above the width -/

theorem intOp_shiftLeft (a b : BitVec n) (c : Nat) : intOp n 10 a.toNat b.toNat c = (a <<< b.toNat).toNat := by
  simp only [intOp, Nat.mod_eq_of_lt a.isLt, Nat.mod_eq_of_lt b.isLt, BitVec.toNat_shiftLeft, Nat.shiftLeft_eq]
  split
  · rfl
  · next h =>
    obtain ⟨k, hk⟩ := Nat.exists_eq_add_of_le (Nat.not_lt.1 h)
    rw [hk, Nat.pow_add, Nat.mul_left_comm, Nat.mul_mod_right]

theorem intOp_shiftRight (a b : BitVec n) (c : Nat) : intOp n 11 a.toNat b.toNat c = (a >>> b.toNat).toNat := by
  simp only [intOp, Nat.mod_eq_of_lt a.isLt, Nat.mod_eq_of_lt b.isLt, BitVec.toNat_ushiftRight, Nat.shiftRight_eq_div_pow]
  split
  · rfl
  · next h =>
    exact (Nat.div_eq_of_lt (Nat.lt_of_lt_of_le a.isLt (Nat.pow_le_pow_right (by decide) (Nat.not_lt.1 h)))).symm

/-- A signed number of `m + 1` bits, shifted by `m` or more, is 0 or −1. -/
theorem signed_div_two_pow {m k : Nat} {x : Int} (hlo : -2 ^ m ≤ x) (hhi : x < 2 ^ m) (hk : m ≤ k) :
    x / 2 ^ k = if x < 0 then -1 else 0 := by
  have hp : (2 : Int) ^ m ≤ 2 ^ k := pow_le_pow_right₀ (by decide) hk
  split
  · next h =>
    refine (Int.ediv_emod_unique (by positivity) (r := x + 2 ^ k)).2 ⟨?_, ?_, ?_⟩ |>.1
    · ring
    · omega
    · omega
  · exact Int.ediv_eq_zero_of_lt (by omega) (by omega)

theorem intOp_sshiftRight (hn : 0 < n) (a b : BitVec n) (c : Nat) : intOp n 12 a.toNat b.toNat c = (a.sshiftRight b.toNat).toNat := by
  obtain ⟨m, rfl⟩ := Nat.exists_eq_succ_of_ne_zero (Nat.ne_of_gt hn)
  simp only [intOp, Nat.mod_eq_of_lt a.isLt, Nat.mod_eq_of_lt b.isLt, sx_toNat hn, ofI_eq_ofInt, BitVec.sshiftRight,
    Int.shiftRight_eq_div_pow, Nat.succ_sub_one]
  have hlo : -2 ^ m ≤ a.toInt := by simpa using BitVec.le_toInt a
  have hhi : a.toInt < 2 ^ m := by simpa using BitVec.toInt_lt (x := a)
  refine congrArg (fun x => (BitVec.ofInt (m + 1) x).toNat) ?_
  push_cast
  rcases Nat.le_total b.toNat m with h | h
  · rw [Nat.min_eq_left h]
  · rw [Nat.min_eq_right h, signed_div_two_pow hlo hhi h, signed_div_two_pow hlo hhi (Nat.le_refl m)]

/-! ### The operations of the signed reading -/

theorem intOp_mulh (hn : 0 < n) (a b : BitVec n) (c : Nat) :
    intOp n 3 a.toNat b.toNat c = (BitVec.ofInt n (a.toInt * b.toInt / 2 ^ n)).toNat := by
  simp only [intOp, Nat.mod_eq_of_lt a.isLt, Nat.mod_eq_of_lt b.isLt, sx_toNat hn, ofI_eq_ofInt]

theorem intOp_min_max (hn : 0 < n) (a b : BitVec n) (c : Nat) :
    intOp n 13 a.toNat b.toNat c = (if a.toInt ≤ b.toInt then a else b).toNat ∧
      intOp n 14 a.toNat b.toNat c = (if a.toInt ≤ b.toInt then b else a).toNat := by
  simp only [intOp, Nat.mod_eq_of_lt a.isLt, Nat.mod_eq_of_lt b.isLt, sx_toNat hn]
  constructor <;> split <;> rfl

theorem intOp_abs (hn : 0 < n) (a b : BitVec n) (c : Nat) :
    intOp n 17 a.toNat b.toNat c = (if a.toInt < 0 then -a else a).toNat := by
  simp only [intOp, Nat.mod_eq_of_lt a.isLt, sx_toNat hn, ofI_eq_ofInt]
  split
  · next h =>
    rw [Int.ofNat_natAbs_of_nonpos (Int.le_of_lt h), BitVec.ofInt_neg, BitVec.ofInt_toInt]
  · next h => rw [Int.natAbs_of_nonneg (Int.not_lt.1 h), BitVec.ofInt_toInt]

/-! ### Counts of bits -/

theorem intOp_clz_zero (b c : Nat) : intOp n 19 0 b c = n := by simp [intOp]

/-- The leading zeros of a number that is not zero: its highest bit stands below them. -/
theorem intOp_clz (a : BitVec n) (h : a ≠ 0) (b c : Nat) : intOp n 19 a.toNat b c < n ∧
    2 ^ (n - 1 - intOp n 19 a.toNat b c) ≤ a.toNat ∧ a.toNat < 2 ^ (n - intOp n 19 a.toNat b c) := by
  have h0 : a.toNat ≠ 0 := fun e => h (BitVec.eq_of_toNat_eq e)
  have hlg : a.toNat.log2 < n := (Nat.log2_lt h0).2 a.isLt
  have hz : intOp n 19 a.toNat b c = n - 1 - a.toNat.log2 := by
    simp [intOp, Nat.mod_eq_of_lt a.isLt, h0, lg]
  rw [hz, show n - 1 - (n - 1 - a.toNat.log2) = a.toNat.log2 by omega, show n - (n - 1 - a.toNat.log2) = a.toNat.log2 + 1 by omega]
  exact ⟨by omega, Nat.log2_self_le h0, Nat.lt_log2_self⟩

theorem intOp_popc (a : BitVec n) (b c : Nat) : intOp n 20 a.toNat b c = ((List.range n).filter fun i => a.getLsbD i).length := by
  simp only [intOp, Nat.mod_eq_of_lt a.isLt, popcount]
  refine congrArg List.length (List.filter_congr fun i _ => ?_)
  rw [bitAt_eq]
  rfl

end

/-- Settles O3: each operation of Table 07-4 is the operation on bit vectors of the width. -/
theorem integerOperations : Obligations.IntegerOperations := by
  unfold Obligations.IntegerOperations
  intro n hn a b c
  have hn : 0 < n := by omega
  have ha := Nat.mod_eq_of_lt a.isLt
  have hb := Nat.mod_eq_of_lt b.isLt
  refine ⟨?add, ?sub, ?mul, intOp_mulh hn a b _, ?mulhu, ?mad, ?and, ?or, ?xor, ?andn, intOp_shiftLeft a b _, intOp_shiftRight a b _,
    intOp_sshiftRight hn a b _, (intOp_min_max hn a b _).1, (intOp_min_max hn a b _).2, ?minu, ?maxu, intOp_abs hn a b _, ?neg,
    fun h => ?clz0, fun h => intOp_clz a h _ _, intOp_popc a _ _⟩
  case clz0 => rw [h]; exact intOp_clz_zero ..
  case sub => simp only [intOp, ha, hb, BitVec.toNat_sub]; congr 1; omega
  all_goals simp [intOp, ha, hb]
end Sys2Proof.Machine
end

section
/-! PROOFS (O4). VALU.P32 and VALU.F32: one rounding, NaR and NaN (R57, R58, R61, R143). -/
namespace Sys2Proof.Machine

/-! ### NaR and NaN -/

theorem Val.add_isNar {a b : Val} (h : a.isNar = true ∨ b.isNar = true) : a.add b = .nar := by
  cases a <;> cases b <;> simp_all [Val.isNar, Val.add]

theorem Val.mul_isNar {a b : Val} (h : a.isNar = true ∨ b.isNar = true) : a.mul b = .nar := by
  cases a <;> cases b <;> simp_all [Val.isNar, Val.mul]

@[simp] theorem Val.isNar_negate (a : Val) : a.negate.isNar = a.isNar := by cases a <;> rfl

/-- R143: which operands of an operation are NaR or NaN. -/
def FloatNar (fn : Nat) (a b c : Prop) : Prop := (fn ∈ [0, 1, 2, 3, 13, 14] ∧ (a ∨ b)) ∨ (fn = 3 ∧ c) ∨ (fn ∈ [17, 18] ∧ a)

/-- R143: NaR or NaN in an operand that the operation uses gives NaR or NaN. -/
theorem floatVal_isNar {fn : Nat} {a b c : Val} (h : FloatNar fn (a.isNar = true) (b.isNar = true) (c.isNar = true)) :
    (floatVal fn a b c).isNar = true := by
  rcases h with ⟨hf, h⟩ | ⟨rfl, h⟩ | ⟨hf, h⟩
  · have hor : (a.isNar || b.isNar) = true := by simpa using h
    simp only [List.mem_cons, List.not_mem_nil, or_false] at hf
    rcases hf with rfl | rfl | rfl | rfl | rfl | rfl
    · rw [floatVal, Val.add_isNar h]; rfl
    · rw [floatVal, Val.add_isNar (by simpa using h)]; rfl
    · rw [floatVal, Val.mul_isNar h]; rfl
    · rw [floatVal, Val.mul_isNar h, Val.add_isNar (.inl rfl)]; rfl
    · rw [floatVal, if_pos hor]; rfl
    · rw [floatVal, if_pos hor]; rfl
  · rw [floatVal, Val.add_isNar (.inr h)]; rfl
  · simp only [List.mem_cons, List.not_mem_nil, or_false] at hf
    rcases hf with rfl | rfl
    · rw [floatVal]; cases a <;> simp_all [Val.isNar, Val.abs]
    · exact (Val.isNar_negate a).trans h

theorem positDec_nar {v : Nat} (h : v % 2 ^ 32 = 2 ^ 31) : positDec 32 v = .nar := by
  have hm : positDec 32 v = positDec 32 (v % 2 ^ 32) := by simp only [positDec, Nat.mod_mod]
  rw [hm, h]
  rfl

theorem positDec_isNar {v : Nat} (h : v % 2 ^ 32 = 2 ^ 31) : (positDec 32 v).isNar = true := by
  rw [positDec_nar h]; rfl

theorem ieeeDec_isNar {v : Nat} (h : bits v 23 8 = 255 ∧ v % 2 ^ 23 ≠ 0) : (ieeeDec .fp32 v).isNar = true := by
  have hm : v % 8388608 ≠ 0 := h.2
  simp [ieeeDec, Fmt.ieee, h.1, hm, Val.isNar]

theorem encode_posit32_isNar {v : Val} (h : v.isNar = true) : (encode .posit32 0 v).out = 2 ^ 31 := by
  cases v <;> simp_all [Val.isNar, encode, Fmt.isInt, Fmt.isPosit, Fmt.width]

theorem encode_fp32_isNar {v : Val} (h : v.isNar = true) : (encode .fp32 0 v).out = 0x7FC00000 := by
  cases v <;> simp_all [Val.isNar, encode, Fmt.isInt, Fmt.isPosit, Fmt.canonicalNan]

/-! ### A zero result of an FP32 operation -/

theorem encode_fp32_fin (neg : Bool) (sig : Nat) (exp : Int) : encode .fp32 0 (.fin neg sig exp) =
    if sig != 0 && decide (400 < exp + (lg sig : Int)) then { out := (if neg then 2 ^ 31 else 0) + (2 ^ 8 - 1) * 2 ^ 23 }
    else { out := if min (ieeeMag .fp32 sig exp) ((2 ^ 8 - 1) * 2 ^ 23) == 0 then 0
                  else (if neg then 2 ^ 31 else 0) + min (ieeeMag .fp32 sig exp) ((2 ^ 8 - 1) * 2 ^ 23) } := rfl

/-- R61: no FP32 result is −0. -/
theorem encode_fp32_ne (v : Val) : (encode .fp32 0 v).out ≠ 2 ^ 31 := by
  cases v with
  | nar => decide
  | nan => decide
  | inf neg => cases neg <;> decide
  | fin neg sig exp =>
    rw [encode_fp32_fin]
    generalize ieeeMag .fp32 sig exp = m
    split
    · cases neg <;> decide
    · simp only [beq_iff_eq]
      split
      · decide
      · cases neg <;> simp only [Bool.false_eq_true, if_false, if_true] <;> omega

/-! ### The instructions -/

section
variable {s : State} {id k g fn d a b c op : Nat} {f : Fmt}

/-- R143: VALU.P32 and VALU.F32 write the result, rounded once, in the active lanes. -/
theorem valuFloat_writes (hop : op < 256) (hg : g < 8) (hfn : fn ∈ floatFns) (hh : (s.swarm id k).holds [d, a, b, c] = true)
    (hb : 17 ≤ fn → b = 0) (hc : fn ≠ 3 → c = 0) (hs : s.stands id k (rWord op g fn d a b c) false false = true) :
    WritesLanes s (s.valuFloat id k op f) id k g d fun i =>
      floatOp f fn ((s.swarm id k).vreg a i) ((s.swarm id k).vreg b i) ((s.swarm id k).vreg c i) := by
  have hlt : fn < 32 := (by decide : ∀ n ∈ floatFns, n < 32) fn hfn
  have hV := Swarm.holds_pastV hh
  simp only [Swarm.holds_cons] at hh
  obtain ⟨⟨_, hd⟩, ⟨_, ha⟩, ⟨_, hb'⟩, ⟨_, hc'⟩, _⟩ := hh
  obtain ⟨fO, fG, fF, fD, fA, fB, fC, fL⟩ := rWord_fields hop hg hlt hd ha hb' hc'
  refine issue_writesLanes hs (isOp_eq fO) (encR_ok (.inl rfl) ?_ rfl rfl ?_ ?_ fL) ?_ rfl fG fD fun i => ?_
  · rw [fF]; exact hfn
  · rw [fF, fB]; exact intB_ok hb rfl
  · rw [fF, fC]
    split
    · rfl
    · next h => simp [okZ, hc (by simpa using h)]
  · rw [fD, fA, fB, fC]; exact hV
  · rw [fF, fA, fB, fC]

end

/-- Settles O4: each operation rounds its exact value once; NaR and NaN come through, and no FP32 result is −0. -/
theorem laneFloats : Obligations.LaneFloats := by
  unfold Obligations.LaneFloats
  refine ⟨?_, fun fn a b c h => ?_, ?_, fun fn a b c => encode_fp32_ne _⟩
  · intro s cell slot g fn d a b c id k w hg hfn hh hb hc
    exact ⟨fun hs => ⟨_, rfl, valuFloat_writes (by decide) hg hfn hh hb hc hs⟩,
      fun hs => ⟨_, rfl, valuFloat_writes (by decide) hg hfn hh hb hc hs⟩⟩
  · have hn : FloatNar fn ((positDec 32 a).isNar = true) ((positDec 32 b).isNar = true) ((positDec 32 c).isNar = true) :=
      h.imp (And.imp_right (Or.imp positDec_isNar positDec_isNar)) (Or.imp (And.imp_right positDec_isNar) (And.imp_right positDec_isNar))
    exact encode_posit32_isNar (floatVal_isNar hn)
  · intro fn a b c nan h
    have hn : FloatNar fn ((ieeeDec .fp32 a).isNar = true) ((ieeeDec .fp32 b).isNar = true) ((ieeeDec .fp32 c).isNar = true) :=
      h.imp (And.imp_right (Or.imp ieeeDec_isNar ieeeDec_isNar)) (Or.imp (And.imp_right ieeeDec_isNar) (And.imp_right ieeeDec_isNar))
    exact encode_fp32_isNar (floatVal_isNar hn)

end Sys2Proof.Machine
end

section
/-! PROOFS (O5). VCMP, VCMPI, UCMP and UCMPI, and what their conditions mean (R144). -/
namespace Sys2Proof.Machine

/-! ### The words -/

section
variable {x g ty cond d a b imm : Nat}

/-- R144: TYPE and COND within FN. -/
theorem bits_of_wFn (h : wFn x = 8 * ty + cond) (hc : cond ≤ 5) : bits x 51 2 = ty ∧ bits x 48 3 = cond := by
  simp only [wFn, bits_eq] at h ⊢
  omega

/-- R136, R144: GUARD, TYPE and COND are valid, and so are the fields `l`. -/
theorem encCmp_ok {gd : Bool} {types : List Nat} {l : List (Nat × Bool)} (h : bits x 51 2 = ty ∧ bits x 48 3 = cond)
    (hg : gd = true ∨ wGuard x = 0) (hty : ty ∈ types) (hc : cond ≤ 5) (hl : firstBad l = none) :
    firstBad (encCmp x gd types ++ l) = none := by
  have hg : (gd || wGuard x == 0) = true := by simpa using hg
  rw [firstBad_none_iff] at hl ⊢
  simpa [encCmp, hg, h.1, h.2, hty, hc, List.forall_mem_cons] using hl

end

/-! ### The conditions -/

/-- R144: COND of a linear order. -/
theorem condOf_order {α : Type} [LinearOrder α] (x y : α) :
    condOf 0 (decide (x < y)) (decide (x = y)) = decide (x = y) ∧ condOf 1 (decide (x < y)) (decide (x = y)) = !decide (x = y) ∧
    condOf 2 (decide (x < y)) (decide (x = y)) = decide (x < y) ∧ condOf 3 (decide (x < y)) (decide (x = y)) = decide (x ≤ y) ∧
    condOf 4 (decide (x < y)) (decide (x = y)) = decide (y < x) ∧ condOf 5 (decide (x < y)) (decide (x = y)) = decide (y ≤ x) := by
  rcases lt_trichotomy x y with h | h | h
  · simp [condOf, h, h.le, h.ne, h.not_gt, h.not_ge]
  · simp [condOf, h]
  · simp [condOf, h, h.le, h.ne', h.not_gt, h.not_ge]

section
variable {n : Nat}

/-- R144: the signed conditions. -/
theorem cmpOp_signed (hn : 0 < n) {ty : Nat} (hty : ty = 0 ∨ ty = 2) (a b : BitVec n) :
    cmpOp ty 0 n a.toNat b.toNat = (a == b) ∧ cmpOp ty 1 n a.toNat b.toNat = (a != b) ∧
    cmpOp ty 2 n a.toNat b.toNat = a.slt b ∧ cmpOp ty 3 n a.toNat b.toNat = a.sle b ∧
    cmpOp ty 4 n a.toNat b.toNat = b.slt a ∧ cmpOp ty 5 n a.toNat b.toNat = b.sle a := by
  have he : ∀ cond, cmpOp ty cond n a.toNat b.toNat = condOf cond (decide (a.toInt < b.toInt)) (decide (a.toInt = b.toInt)) := by
    intro cond
    have heq : decide (a.toInt = b.toInt) = (a.toNat == b.toNat) := by
      rw [Bool.eq_iff_iff, decide_eq_true_iff, beq_iff_eq, BitVec.toNat_inj, BitVec.toInt_inj]
    rcases hty with rfl | rfl <;>
      simp only [cmpOp, Nat.mod_eq_of_lt a.isLt, Nat.mod_eq_of_lt b.isLt, sx_toNat hn, heq]
  have hab : decide (a.toInt = b.toInt) = (a == b) := by
    rw [Bool.eq_iff_iff, decide_eq_true_iff, beq_iff_eq, BitVec.toInt_inj]
  obtain ⟨h0, h1, h2, h3, h4, h5⟩ := condOf_order a.toInt b.toInt
  simp only [he]
  exact ⟨h0.trans hab, h1.trans (congrArg not hab), h2, h3, h4, h5⟩

/-- R144: the unsigned conditions. -/
theorem cmpOp_unsigned (a b : BitVec n) :
    cmpOp 1 0 n a.toNat b.toNat = (a == b) ∧ cmpOp 1 1 n a.toNat b.toNat = (a != b) ∧
    cmpOp 1 2 n a.toNat b.toNat = a.ult b ∧ cmpOp 1 3 n a.toNat b.toNat = a.ule b ∧
    cmpOp 1 4 n a.toNat b.toNat = b.ult a ∧ cmpOp 1 5 n a.toNat b.toNat = b.ule a := by
  have he : ∀ cond, cmpOp 1 cond n a.toNat b.toNat = condOf cond (decide (a.toNat < b.toNat)) (decide (a.toNat = b.toNat)) := by
    intro cond
    simp only [cmpOp, Nat.mod_eq_of_lt a.isLt, Nat.mod_eq_of_lt b.isLt]
    rfl
  have hab : decide (a.toNat = b.toNat) = (a == b) := by
    rw [Bool.eq_iff_iff, decide_eq_true_iff, beq_iff_eq, BitVec.toNat_inj]
  obtain ⟨h0, h1, h2, h3, h4, h5⟩ := condOf_order a.toNat b.toNat
  simp only [he]
  exact ⟨h0.trans hab, h1.trans (congrArg not hab), h2, h3, h4, h5⟩

/-- R144: an FP32 NaN. -/
theorem cmpOp_nan {a b : Nat} (cond : Nat) (h : (bits a 23 8 = 255 ∧ a % 2 ^ 23 ≠ 0) ∨ (bits b 23 8 = 255 ∧ b % 2 ^ 23 ≠ 0)) :
    cmpOp 3 cond 32 a b = (cond == 1) := by
  have hm : ∀ v, (bits v 23 8 = 255 ∧ v % 2 ^ 23 ≠ 0) → (ieeeDec .fp32 (v % 2 ^ 32)).isNar = true := fun v hv => ieeeDec_isNar (by
    rw [bits_mod _ _ _ _ (by decide), Nat.mod_mod_of_dvd _ (by decide)]; exact hv)
  have hor : ((ieeeDec .fp32 (a % 2 ^ 32)).isNar || (ieeeDec .fp32 (b % 2 ^ 32)).isNar) = true := by
    simpa using h.imp (hm a) (hm b)
  exact if_pos hor

end

/-- Settles O5: the words pass the checks of R135 and R136; the conditions are those of the order of the type. -/
theorem compares : Obligations.Compares := by
  unfold Obligations.Compares
  refine ⟨?_, fun n hn a b => ⟨fun ty hty => cmpOp_signed (by omega) hty a b, cmpOp_unsigned a b⟩, ?_, by decide⟩
  · intro s cell slot g ty cond d a b imm id k w hg hty hc hd hi
    have hfn : 8 * ty + cond < 32 := by omega
    refine ⟨fun hh hs => ?vcmp, fun hh hs => ?vcmpi, fun hty hd ha hb hs => ?ucmp, fun hty hd ha hs => ?ucmpi⟩
    case vcmp =>
      have hV := Swarm.holds_pastV hh
      simp only [Swarm.holds_cons] at hh
      obtain ⟨⟨_, ha⟩, ⟨_, hb⟩, _⟩ := hh
      obtain ⟨fO, fG, fF, fD, fA, fB, fC, fL⟩ := rWord_fields (op := 0x14) (c := 0) (by decide) hg hfn (by omega : d < 256) ha hb (by decide)
      have hx := bits_of_wFn fF hc
      refine ⟨_, rfl, issue_writesMask hs (isOp_eq fO) (encCmp_ok hx (.inl rfl) ?_ hc ?_) ?_ rfl fG fD fun i => ?_⟩
      · simp only [List.mem_cons, List.not_mem_nil, or_false]; omega
      · simp [firstBad, fD, fC, fL, okP, hd]
      · rw [fA, fB]; exact hV
      · rw [hx.1, hx.2, fA, fB]
    case vcmpi =>
      have hV := Swarm.holds_pastV hh
      simp only [Swarm.holds_cons] at hh
      obtain ⟨⟨_, ha⟩, _⟩ := hh
      obtain ⟨fO, fG, fF, fD, fA, fI⟩ := iWord_fields (op := 0x15) (by decide) hg hfn (by omega : d < 256) ha hi
      have hx := bits_of_wFn fF hc
      refine ⟨_, rfl, issue_writesMask hs (isOp_eq fO) (encCmp_ok hx (.inl rfl) ?_ hc ?_) ?_ rfl fG fD fun i => ?_⟩
      · simp only [List.mem_cons, List.not_mem_nil, or_false]; omega
      · simp [firstBad, fD, okP, hd]
      · rw [fA]; exact hV
      · rw [hx.1, hx.2, fA, fI]
    case ucmp =>
      obtain ⟨fO, fG, fF, fD, fA, fB, fC, fL⟩ := rWord_fields (op := 0x22) (g := 0) (c := 0) (by decide) (by decide) hfn
        (by omega : d < 256) (by omega : a < 256) (by omega : b < 256) (by decide)
      have hx := bits_of_wFn fF hc
      refine ⟨_, rfl, issue_writesPred hs (isOp_eq fO) (encCmp_ok hx (.inr fG) ?_ hc ?_) rfl rfl fD hd ?_⟩
      · simp only [List.mem_cons, List.not_mem_nil, or_false]; omega
      · simp [firstBad, fD, fA, fB, fC, fL, okUp, okU, hd, ha, hb]
      · rw [hx.1, hx.2, fA, fB]
    case ucmpi =>
      obtain ⟨fO, fG, fF, fD, fA, fI⟩ := iWord_fields (op := 0x23) (g := 0) (by decide) (by decide) hfn
        (by omega : d < 256) (by omega : a < 256) hi
      have hx := bits_of_wFn fF hc
      refine ⟨_, rfl, issue_writesPred hs (isOp_eq fO) (encCmp_ok hx (.inr fG) ?_ hc ?_) rfl rfl fD hd ?_⟩
      · simp only [List.mem_cons, List.not_mem_nil, or_false]; omega
      · simp [firstBad, fD, fA, okUp, okU, hd, ha]
      · rw [hx.1, hx.2, fA, immS_eq, fI]
  · intro a b cond nan _ h
    exact cmpOp_nan cond h

end Sys2Proof.Machine
end

section
/-! PROOFS (O6, O7). VOTE, MASK and UPRED (R145, R146). -/
namespace Sys2Proof.Machine

/-! ### Masks as sets of bits -/

theorem bitAt_and (a b i : Nat) : bitAt (a &&& b) i = (bitAt a i && bitAt b i) := by simp only [bitAt_eq, Nat.testBit_and]
theorem bitAt_or (a b i : Nat) : bitAt (a ||| b) i = (bitAt a i || bitAt b i) := by simp only [bitAt_eq, Nat.testBit_or]
theorem bitAt_xor (a b i : Nat) : bitAt (a ^^^ b) i = xor (bitAt a i) (bitAt b i) := by simp only [bitAt_eq, Nat.testBit_xor]

theorem bitAt_mod {a i n : Nat} (hi : i < n) : bitAt (a % 2 ^ n) i = bitAt a i := by
  simp [bitAt_eq, Nat.testBit_mod_two_pow, hi]

theorem bitAt_complement {a i n : Nat} (ha : a < 2 ^ n) (hi : i < n) : bitAt (2 ^ n - 1 - a) i = !bitAt a i := by
  rw [bitAt_eq, bitAt_eq, Nat.sub_sub, Nat.add_comm 1 a, Nat.testBit_two_pow_sub_succ ha, decide_eq_true hi, Bool.true_and]

theorem preg_lt (w : Swarm) (n : Nat) : w.preg n < 2 ^ 32 := (sget 0 w.p n).isLt

section
variable {s t : State} {id k d : Nat} {f f' : Nat → Bool}

theorem WritesMask.congr (h : WritesMask s t id k d f) (hf : ∀ i, i < 32 → f i = f' i) : WritesMask s t id k d f' :=
  ⟨h.only, h.rest, fun n i hi => by rw [h.mask n i hi, hf i hi]⟩

end

/-! ### VOTE -/

/-- R146: VOTE at a valid word writes one predicate. -/
theorem exec_vote {s : State} {cell : BitVec 10} {slot : BitVec 4} {g fn d a : Nat} (hg : g < 8) (hfn : fn ≤ 1) (hd : d < 4)
    (ha : a < 8) (hs : s.stands cell.toNat slot.toNat (rWord 0x29 g fn d a 0 0) false false = true) :
    let w := s.swarm cell.toNat slot.toNat
    ∃ t, exec (.vote cell slot) s = .next t ∧ WritesPred s t cell.toNat slot.toNat d
      (if fn = 0 then decide (w.preg a &&& w.preg g ≠ 0) else decide (w.preg a &&& w.preg g = w.preg g)) := by
  obtain ⟨fO, fG, fF, fD, fA, fB, fC, fL⟩ := rWord_fields (op := 0x29) (b := 0) (c := 0) (by decide) hg (by omega : fn < 32)
    (by omega : d < 256) (by omega : a < 256) (by decide) (by decide)
  refine ⟨_, rfl, issue_writesPred hs (isOp_eq fO) (encR_ok (.inl rfl) ?_ ?_ ?_ ?_ ?_ fL) rfl rfl fD hd ?_⟩
  · rw [fF]; simp only [List.mem_cons, List.not_mem_nil, or_false]; omega
  · rw [fD]; exact decide_eq_true hd
  · rw [fA]; exact decide_eq_true ha
  · rw [fB]; rfl
  · rw [fC]; rfl
  · rw [fF, fA, fG]
    by_cases h : fn = 0 <;> simp [h, bne, beq_eq_decide]

/-- Settles O6: VOTE writes its predicate, whose value with no active lane follows. -/
theorem vote : Obligations.Vote := by
  unfold Obligations.Vote
  intro s cell slot g fn d a id k w hg hfn hd ha hs
  obtain ⟨t, he, hw⟩ := exec_vote hg hfn hd ha hs
  refine ⟨t, he, hw, fun h => ?_⟩
  have h : (s.swarm cell.toNat slot.toNat).preg g = 0 := h
  have hfn : fn = 0 ∨ fn = 1 := by omega
  rw [hw.pred d hd, if_pos rfl, h]
  rcases hfn with rfl | rfl <;> simp

/-! ### MASK -/

section
variable {s : State} {cell : BitVec 10} {slot : BitVec 4} {x fn d a b c : Nat}

/-- R145: a MASK word, by its fields. -/
structure MaskWord (x fn d a b c : Nat) : Prop where
  op : wOp x = 0x28
  guard : wGuard x = 0
  fn : wFn x = fn
  d : wD x = d
  a : wA x = a
  b : wB x = b
  c : wC x = c
  low : lowZero x = true

theorem maskWord (hfn : fn ≤ 8) (hd : d < 64) (ha : a < 64) (hb : b < 64) (hc : c < 64) :
    MaskWord (rWord 0x28 0 fn d a b c) fn d a b c := by
  obtain ⟨h1, h2, h3, h4, h5, h6, h7, h8⟩ := rWord_fields (op := 0x28) (g := 0) (fn := fn) (d := d) (a := a) (b := b) (c := c)
    (by decide) (by decide) (by omega) (by omega) (by omega) (by omega) (by omega)
  exact ⟨h1, h2, h3, h4, h5, h6, h7, h8⟩

/-- R136, R145: MASK at a word whose fields its FN allows. -/
theorem MaskWord.exec_eq (h : MaskWord x fn d a b c) (hfn : fn ≤ 8) {okD okA okB okC : Nat → Bool}
    (hm : maskOk fn = (okD, okA, okB, okC)) (hok : okD d = true ∧ okA a = true ∧ okB b = true ∧ okC c = true)
    (hs : s.stands cell.toNat slot.toNat x false false = true) :
    exec (.mask cell slot) s = .next (s.put cell.toNat slot.toNat fun w => w.maskOp x) := by
  obtain ⟨hd, ha, hb, hc⟩ := hok
  refine congrArg Host.Outcome.next <| issue_stands hs (isOp_eq h.op) ?_ (fun h => by cases h) rfl rfl
  rw [h.fn, hm]
  exact encR_ok (.inr h.guard) (by rw [h.fn]; exact List.mem_range.2 (Nat.lt_succ_of_le hfn)) (by rw [h.d]; exact hd)
    (by rw [h.a]; exact ha) (by rw [h.b]; exact hb) (by rw [h.c]; exact hc) h.low

/-- R145: MASK writes p[D] where its effect is to set it to a value `v` whose bits are `f`. -/
theorem mask_writes {v : Swarm → Nat} {f : Nat → Bool} (hs : s.stands cell.toNat slot.toNat x false false = true)
    (he : exec (.mask cell slot) s = .next (s.put cell.toNat slot.toNat fun w => w.maskOp x)) (hv : ∀ w : Swarm, w.maskOp x = w.setP d (v w))
    (hf : ∀ i, i < 32 → bitAt (v (s.swarm cell.toNat slot.toNat)) i = f i) :
    ∃ t, exec (.mask cell slot) s = .next t ∧ WritesMask s t cell.toNat slot.toNat d f := by
  obtain ⟨h1, h2⟩ := quiet_of_stands hs
  rw [show (fun w : Swarm => w.maskOp x) = fun w => w.setP d (v w) from funext hv] at he
  exact ⟨_, he, (put_setP s _ _ d v h1 h2).congr hf⟩

/-- R145: MAND, MOR, MXOR and MANDN. -/
theorem MaskWord.binary (h : MaskWord x fn d a b 0) (hfn : fn ≤ 3) (hd : d < 8) (ha : a < 8) (hb : b < 8)
    (hs : s.stands cell.toNat slot.toNat x false false = true) :
    let w := s.swarm cell.toNat slot.toNat
    ∃ t, exec (.mask cell slot) s = .next t ∧ WritesMask s t cell.toNat slot.toNat d fun i =>
      if fn = 0 then bitAt (w.preg a) i && bitAt (w.preg b) i else if fn = 1 then bitAt (w.preg a) i || bitAt (w.preg b) i
      else if fn = 2 then xor (bitAt (w.preg a) i) (bitAt (w.preg b) i) else bitAt (w.preg a) i && !bitAt (w.preg b) i := by
  intro w
  have he := h.exec_eq (by omega) (if_pos hfn) ⟨decide_eq_true hd, decide_eq_true ha, decide_eq_true hb, rfl⟩ hs
  have hfn : fn = 0 ∨ fn = 1 ∨ fn = 2 ∨ fn = 3 := by omega
  rcases hfn with rfl | rfl | rfl | rfl
  · exact mask_writes hs he (v := fun w => w.preg a &&& w.preg b) (fun w => by rw [Swarm.maskOp, h.fn, h.d, h.a, h.b]; rfl)
      fun i _ => bitAt_and ..
  · exact mask_writes hs he (v := fun w => w.preg a ||| w.preg b) (fun w => by rw [Swarm.maskOp, h.fn, h.d, h.a, h.b]; rfl)
      fun i _ => bitAt_or ..
  · exact mask_writes hs he (v := fun w => w.preg a ^^^ w.preg b) (fun w => by rw [Swarm.maskOp, h.fn, h.d, h.a, h.b]; rfl)
      fun i _ => bitAt_xor ..
  · exact mask_writes hs he (v := fun w => w.preg a &&& (2 ^ 32 - 1 - w.preg b)) (fun w => by rw [Swarm.maskOp, h.fn, h.d, h.a, h.b]; rfl)
      fun i hi => (bitAt_and ..).trans (congrArg _ (bitAt_complement (preg_lt w b) hi))

/-- R145: MSPLIT writes two masks; where they are one register, that of D stays. -/
theorem MaskWord.split (h : MaskWord x 6 d a b c) (hd : d < 8) (ha : a < 8) (hb : b < 8) (hc : c < 8)
    (hs : s.stands cell.toNat slot.toNat x false false = true) :
    let w := s.swarm cell.toNat slot.toNat
    ∃ t, exec (.mask cell slot) s = .next t ∧ OnlySwarm s t cell.toNat slot.toNat ∧
      t.swarm cell.toNat slot.toNat = { w.advance none with p := (t.swarm cell.toNat slot.toNat).p } ∧
      ∀ n i, i < 32 → bitAt ((t.swarm cell.toNat slot.toNat).preg n) i =
        if n = d then bitAt (w.preg b) i && bitAt (w.preg c) i else if n = a then bitAt (w.preg b) i && !bitAt (w.preg c) i
        else bitAt (w.preg n) i := by
  intro w
  have he := h.exec_eq (by decide) rfl ⟨decide_eq_true hd, decide_eq_true ha, decide_eq_true hb, decide_eq_true hc⟩ hs
  have hv : (fun w => w.maskOp x) = fun w : Swarm =>
      { w with p := ((w.setP a (w.preg b &&& (2 ^ 32 - 1 - w.preg c))).setP d (w.preg b &&& w.preg c)).p } := by
    funext w
    rw [Swarm.maskOp, h.fn, h.d, h.a, h.b, h.c]
    rfl
  obtain ⟨h1, h2⟩ := quiet_of_stands hs
  rw [hv] at he
  obtain ⟨ho, hr⟩ := put_p s cell.toNat slot.toNat (fun w =>
    ((w.setP a (w.preg b &&& (2 ^ 32 - 1 - w.preg c))).setP d (w.preg b &&& w.preg c)).p) h1 h2
  refine ⟨_, he, ho, by rw [hr], fun n i hi => ?_⟩
  rw [hr]
  show bitAt (((w.setP a (w.preg b &&& (2 ^ 32 - 1 - w.preg c))).setP d (w.preg b &&& w.preg c)).preg n) i = _
  rw [Swarm.preg_setP, Swarm.preg_setP]
  split
  · rw [bitAt_mod hi, bitAt_and]
  · split
    · rw [bitAt_mod hi, bitAt_and, bitAt_complement (preg_lt w c) hi]
    · rfl

end

/-! ### UPRED -/

/-- R145: UPRED at a valid word writes one predicate. -/
theorem exec_upred {s : State} {cell : BitVec 10} {slot : BitVec 4} {fn d a b : Nat} (hfn : fn ≤ 5) (hd : d < 4) (ha : a < 4)
    (hb : b < 4) (ha0 : 3 < fn → a = 0) (hb0 : 2 < fn → b = 0)
    (hs : s.stands cell.toNat slot.toNat (rWord 0x2A 0 fn d a b 0) false false = true) :
    let w := s.swarm cell.toNat slot.toNat
    ∃ t, exec (.upred cell slot) s = .next t ∧ WritesPred s t cell.toNat slot.toNat d (
      if fn = 0 then w.upred a && w.upred b else if fn = 1 then w.upred a || w.upred b
      else if fn = 2 then xor (w.upred a) (w.upred b) else if fn = 3 then !w.upred a else decide (fn = 4)) := by
  obtain ⟨fO, fG, fF, fD, fA, fB, fC, fL⟩ := rWord_fields (op := 0x2A) (g := 0) (fn := fn) (d := d) (a := a) (b := b) (c := 0)
    (by decide) (by decide) (by omega) (by omega) (by omega) (by omega) (by decide)
  generalize rWord 0x2A 0 fn d a b 0 = x at *
  refine ⟨_, rfl, issue_writesPred hs (isOp_eq fO) (encR_ok (.inr fG) ?_ ?_ ?_ ?_ ?_ fL) rfl rfl fD hd ?_⟩
  · rw [fF]; exact List.mem_range.2 (Nat.lt_succ_of_le hfn)
  · rw [fD]; exact decide_eq_true hd
  · rw [fF, fA]
    split
    · exact decide_eq_true ha
    · next h => rw [ha0 (by omega)]; rfl
  · rw [fF, fB]
    split
    · exact decide_eq_true hb
    · next h => rw [hb0 (by omega)]; rfl
  · rw [fC]; rfl
  · rw [Swarm.upredOp, fF, fA, fB]
    have hfn : fn = 0 ∨ fn = 1 ∨ fn = 2 ∨ fn = 3 ∨ fn = 4 ∨ fn = 5 := by omega
    rcases hfn with rfl | rfl | rfl | rfl | rfl | rfl <;> rfl

/-- Settles O7: the operations of MASK and UPRED, one after the other. -/
theorem masksAndPredicates : Obligations.MasksAndPredicates := by
  unfold Obligations.MasksAndPredicates
  intro s cell slot fn d a b c id k w x y
  refine ⟨fun hd ha => ⟨fun hb hfn hs => ?_, fun hs => ?_, fun hs => ?_, fun hb hc hs => ?_⟩, fun hd ha hs => ?_, fun hd ha hs => ?_,
    fun hfn hd ha hb ha0 hb0 hs => exec_upred hfn hd ha hb ha0 hb0 hs⟩
  · exact (maskWord (by omega) (by omega) (by omega) (by omega) (by decide)).binary hfn hd ha hb hs
  · have h := maskWord (fn := 4) (d := d) (a := a) (b := 0) (c := 0) (by decide) (by omega) (by omega) (by decide) (by decide)
    exact mask_writes hs (h.exec_eq (by decide) rfl ⟨decide_eq_true hd, decide_eq_true ha, rfl, rfl⟩ hs) (v := fun w => 2 ^ 32 - 1 - w.preg a)
      (fun w => by rw [Swarm.maskOp, h.fn, h.d, h.a]; rfl) fun i hi => bitAt_complement (preg_lt w a) hi
  · have h := maskWord (fn := 5) (d := d) (a := a) (b := 0) (c := 0) (by decide) (by omega) (by omega) (by decide) (by decide)
    exact mask_writes hs (h.exec_eq (by decide) rfl ⟨decide_eq_true hd, decide_eq_true ha, rfl, rfl⟩ hs) (v := fun w => w.preg a)
      (fun w => by rw [Swarm.maskOp, h.fn, h.d, h.a]; rfl) fun i _ => rfl
  · exact (maskWord (by decide) (by omega) (by omega) (by omega) (by omega)).split hd ha hb hc hs
  · have h := maskWord (fn := 7) (d := d) (a := a) (b := 0) (c := 0) (by decide) (by omega) ha (by decide) (by decide)
    exact mask_writes hs (h.exec_eq (by decide) rfl ⟨decide_eq_true hd, decide_eq_true ha, rfl, rfl⟩ hs) (v := fun w => w.ureg a % 2 ^ 32)
      (fun w => by rw [Swarm.maskOp, h.fn, h.d, h.a]; rfl) fun i hi => bitAt_mod hi
  · have h := maskWord (fn := 8) (d := d) (a := a) (b := 0) (c := 0) (by decide) hd (by omega) (by decide) (by decide)
    have he := h.exec_eq (by decide) rfl ⟨decide_eq_true hd, decide_eq_true ha, rfl, rfl⟩ hs
    have hv : (fun w => w.maskOp (rWord 0x28 0 8 d a 0 0)) = fun w : Swarm => w.setU d (w.preg a) := by
      funext w
      rw [Swarm.maskOp, h.fn, h.d, h.a]
      rfl
    obtain ⟨h1, h2⟩ := quiet_of_stands hs
    rw [hv] at he
    exact ⟨_, he, put_setU s id k d (fun w => w.preg a) h1 h2⟩

end Sys2Proof.Machine
end

section
/-! PROOFS (O8, O9). VMOV, VMOVI, UMOV, UMOVI and SHFL (R147, R148). -/
namespace Sys2Proof.Machine

section
variable {s : State} {cell : BitVec 10} {slot : BitVec 4} {g fn d a b c : Nat}

/-- R136, R147: which fields VMOV uses, by its FN. -/
def VmovFields (w : Swarm) (fn d a b c : Nat) : Prop :=
  (fn = 0 ∧ w.holds [d, a] = true ∧ b = 0 ∧ c = 0) ∨ (fn = 1 ∧ w.holds [d] = true ∧ a < 64 ∧ b = 0 ∧ c = 0) ∨
    (fn = 2 ∧ w.holds [d] = true ∧ a = 0 ∧ b = 0 ∧ c = 0) ∨ (fn = 3 ∧ w.holds [d, a, b] = true ∧ c < 8)

/-- R147: VMOV at a valid word writes v[D] in its active lanes. -/
theorem exec_vmov {v : Nat → Nat} (hg : g < 8) (h : VmovFields (s.swarm cell.toNat slot.toNat) fn d a b c)
    (hs : s.stands cell.toNat slot.toNat (rWord 0x16 g fn d a b c) false false = true)
    (hv : ∀ x, wFn x = fn → wA x = a → wB x = b → wC x = c → ∀ i, (s.swarm cell.toNat slot.toNat).vmovVal x i = v i) :
    ∃ t, exec (.vmov cell slot) s = .next t ∧ WritesLanes s t cell.toNat slot.toNat g d v := by
  have hlt : fn < 4 ∧ d < 256 ∧ a < 256 ∧ b < 256 ∧ c < 256 := by
    rcases h with ⟨rfl, h, rfl, rfl⟩ | ⟨rfl, h, ha, rfl, rfl⟩ | ⟨rfl, h, rfl, rfl, rfl⟩ | ⟨rfl, h, hc⟩ <;>
      simp only [Swarm.holds_cons] at h <;> omega
  obtain ⟨hfn, hd, ha, hb, hc⟩ := hlt
  obtain ⟨fO, fG, fF, fD, fA, fB, fC, fL⟩ := rWord_fields (op := 0x16) (by decide) hg (by omega : fn < 32) hd ha hb hc
  generalize rWord 0x16 g fn d a b c = x at *
  have hmem : wFn x ∈ [0, 1, 2, 3] := by rw [fF]; simp only [List.mem_cons, List.not_mem_nil, or_false]; omega
  refine ⟨_, rfl, issue_writesLanes hs (isOp_eq fO) (encR_ok (.inl rfl) hmem rfl ?_ ?_ ?_ fL) ?_ rfl fG fD (hv x fF fA fB fC)⟩
  · rw [fF, fA]
    rcases h with ⟨rfl, _⟩ | ⟨rfl, _, ha, _⟩ | ⟨rfl, _, rfl, _⟩ | ⟨rfl, _⟩
    · rfl
    · exact decide_eq_true ha
    · rfl
    · rfl
  · rw [fF, fB]
    rcases h with ⟨rfl, _, rfl, _⟩ | ⟨rfl, _, _, rfl, _⟩ | ⟨rfl, _, _, rfl, _⟩ | ⟨rfl, _⟩ <;> rfl
  · rw [fF, fC]
    rcases h with ⟨rfl, _, _, rfl⟩ | ⟨rfl, _, _, _, rfl⟩ | ⟨rfl, _, _, _, rfl⟩ | ⟨rfl, _, hc⟩
    · rfl
    · rfl
    · rfl
    · exact decide_eq_true hc
  · rw [fF, fD, fA, fB]
    rcases h with ⟨rfl, h, _⟩ | ⟨rfl, h, _⟩ | ⟨rfl, h, _⟩ | ⟨rfl, h, _⟩ <;> exact Swarm.holds_pastV h

/-- R136, R147: which fields UMOV uses, by its FN. -/
def UmovFields (w : Swarm) (fn a b : Nat) : Prop :=
  (fn = 0 ∧ a < 64 ∧ b = 0) ∨ (fn = 1 ∧ w.holds [a] = true ∧ b < 32) ∨ (fn = 2 ∧ a = 0 ∧ b = 0) ∨ (fn = 3 ∧ a = 0 ∧ b < 3)

/-- R147: UMOV at a valid word writes u[D]. -/
theorem exec_umov {v : Nat} (hd : d < 64) (h : UmovFields (s.swarm cell.toNat slot.toNat) fn a b)
    (hs : s.stands cell.toNat slot.toNat (rWord 0x24 0 fn d a b 0) false false = true)
    (hv : ∀ x, wFn x = fn → wA x = a → wB x = b → (s.swarm cell.toNat slot.toNat).umovVal cell.toNat slot.toNat x = v) :
    ∃ t, exec (.umov cell slot) s = .next t ∧ WritesUniform s t cell.toNat slot.toNat d v := by
  have hlt : fn < 4 ∧ a < 256 ∧ b < 256 := by
    rcases h with ⟨rfl, ha, rfl⟩ | ⟨rfl, h, hb⟩ | ⟨rfl, rfl, rfl⟩ | ⟨rfl, rfl, hb⟩
    · omega
    · simp only [Swarm.holds_cons] at h; omega
    · decide
    · omega
  obtain ⟨hfn, ha, hb⟩ := hlt
  obtain ⟨fO, fG, fF, fD, fA, fB, fC, fL⟩ := rWord_fields (op := 0x24) (g := 0) (fn := fn) (d := d) (a := a) (b := b) (c := 0)
    (by decide) (by decide) (by omega) (by omega) ha hb (by decide)
  generalize rWord 0x24 0 fn d a b 0 = x at *
  have hmem : wFn x ∈ [0, 1, 2, 3] := by rw [fF]; simp only [List.mem_cons, List.not_mem_nil, or_false]; omega
  refine ⟨_, rfl, issue_writesUniform hs (isOp_eq fO) (encR_ok (.inr fG) hmem ?_ ?_ ?_ ?_ fL) ?_ rfl fD (hv x fF fA fB)⟩
  · rw [fD]; exact decide_eq_true hd
  · rw [fF, fA]
    rcases h with ⟨rfl, ha, _⟩ | ⟨rfl, _⟩ | ⟨rfl, rfl, _⟩ | ⟨rfl, rfl, _⟩
    · exact decide_eq_true ha
    · rfl
    · rfl
    · rfl
  · rw [fF, fB]
    rcases h with ⟨rfl, _, rfl⟩ | ⟨rfl, _, hb⟩ | ⟨rfl, _, rfl⟩ | ⟨rfl, _, hb⟩
    · rfl
    · exact decide_eq_true hb
    · rfl
    · exact decide_eq_true hb
  · rw [fC]; rfl
  · rw [fF, fA]
    rcases h with ⟨rfl, _⟩ | ⟨rfl, h, _⟩ | ⟨rfl, _⟩ | ⟨rfl, _⟩
    · rfl
    · exact Swarm.holds_pastV h
    · rfl
    · rfl

/-- R147: VMOVI at a valid word writes v[D] in its active lanes. -/
theorem exec_vmovi {imm : Nat} (hg : g < 8) (hi : imm < 2 ^ 32) (hh : (s.swarm cell.toNat slot.toNat).holds [d] = true)
    (hs : s.stands cell.toNat slot.toNat (iWord 0x17 g 0 d 0 imm) false false = true) :
    ∃ t, exec (.vmovi cell slot) s = .next t ∧ WritesLanes s t cell.toNat slot.toNat g d fun _ => imm := by
  have hV := Swarm.holds_pastV hh
  obtain ⟨⟨_, hd⟩, _⟩ := Swarm.holds_cons.1 hh
  obtain ⟨fO, fG, fF, fD, fA, fI⟩ := iWord_fields (op := 0x17) (fn := 0) (a := 0) (by decide) hg (by decide) hd (by decide) hi
  refine ⟨_, rfl, issue_writesLanes hs (isOp_eq fO) (encI_ok (.inl rfl) ?_ rfl ?_) ?_ rfl fG fD fun _ => fI⟩
  · rw [fF]; decide
  · rw [fA]; rfl
  · rw [fD]; exact hV

/-- R147: UMOVI at a valid word writes u[D]. -/
theorem exec_umovi {imm v : Nat} (hfn : fn ≤ 1) (hd : d < 64) (hi : imm < 2 ^ 32)
    (hs : s.stands cell.toNat slot.toNat (iWord 0x25 0 fn d 0 imm) false false = true)
    (hv : (if fn = 0 then ((BitVec.ofNat 32 imm).signExtend 64).toNat
      else (s.swarm cell.toNat slot.toNat).ureg d % 2 ^ 32 + imm * 2 ^ 32) = v) :
    ∃ t, exec (.umovi cell slot) s = .next t ∧ WritesUniform s t cell.toNat slot.toNat d v := by
  obtain ⟨fO, fG, fF, fD, fA, fI⟩ := iWord_fields (op := 0x25) (g := 0) (fn := fn) (d := d) (a := 0) (imm := imm) (by decide)
    (by decide) (by omega) (by omega) (by decide) hi
  refine ⟨_, rfl, issue_writesUniform hs (isOp_eq fO) (encI_ok (.inr fG) ?_ ?_ ?_) rfl rfl fD ?_⟩
  · rw [fF]; simp only [List.mem_cons, List.not_mem_nil, or_false]; omega
  · rw [fD]; exact decide_eq_true hd
  · rw [fA]; rfl
  · rw [fF, fD, immS_eq, fI]
    simpa only [beq_iff_eq] using hv

end

/-- Settles O8: each form of the moves, at a valid word. -/
theorem moves : Obligations.Moves := by
  unfold Obligations.Moves
  intro s cell slot g d a b c imm id k w hg hi
  refine ⟨fun hh hs => ?_, fun hh ha hs => ?_, fun hh hs => ?_, fun hh hc hs => ?_, fun hh hs => exec_vmovi hg hi hh hs,
    fun hd => ⟨fun ha hs => ?_, fun hh hb hs => ?_, fun hs => ?_, fun hb hs => ?_, fun hs => ?_, fun hs => ?_⟩⟩
  · exact exec_vmov hg (.inl ⟨rfl, hh, rfl, rfl⟩) hs fun x fF fA fB fC i => by rw [Swarm.vmovVal, fF, fA]; rfl
  · exact exec_vmov hg (.inr (.inl ⟨rfl, hh, ha, rfl, rfl⟩)) hs fun x fF fA fB fC i => by rw [Swarm.vmovVal, fF, fA]; rfl
  · exact exec_vmov hg (.inr (.inr (.inl ⟨rfl, hh, rfl, rfl, rfl⟩))) hs fun x fF fA fB fC i => by rw [Swarm.vmovVal, fF]; rfl
  · exact exec_vmov hg (.inr (.inr (.inr ⟨rfl, hh, hc⟩))) hs fun x fF fA fB fC i => by rw [Swarm.vmovVal, fF, fA, fB, fC]; rfl
  · exact exec_umov hd (.inl ⟨rfl, ha, rfl⟩) hs fun x fF fA fB => by rw [Swarm.umovVal, fF, fA]; rfl
  · exact exec_umov hd (.inr (.inl ⟨rfl, hh, hb⟩)) hs fun x fF fA fB => by rw [Swarm.umovVal, fF, fA, fB]; rfl
  · exact exec_umov hd (.inr (.inr (.inl ⟨rfl, rfl, rfl⟩))) hs fun x fF fA fB => by rw [Swarm.umovVal, fF]; rfl
  · exact exec_umov hd (.inr (.inr (.inr ⟨rfl, rfl, hb⟩))) hs fun x fF fA fB => by
      rw [Swarm.umovVal, fF, fB]
      simp only [beq_iff_eq]
      rfl
  · exact exec_umovi (by decide) hd hi hs rfl
  · exact exec_umovi (by decide) hd hi hs rfl

/-! ### SHFL -/

section
variable {s : State} {cell : BitVec 10} {slot : BitVec 4} {g fn d a b : Nat}

/-- R148: SHFL at a valid word reads v[A] of the source lane. -/
theorem exec_shfl {v : Nat → Nat} (hg : g < 8) (hfn : fn ≤ 4) (hh : (s.swarm cell.toNat slot.toNat).holds [d, a] = true)
    (hb : (fn = 0 ∧ (s.swarm cell.toNat slot.toNat).holds [b] = true) ∨ (fn ≠ 0 ∧ b < 32))
    (hs : s.stands cell.toNat slot.toNat (rWord 0x19 g fn d a b 0) false false = true)
    (hv : ∀ x, wFn x = fn → wB x = b → ∀ i, (s.swarm cell.toNat slot.toNat).vreg a ((s.swarm cell.toNat slot.toNat).shflSrc x i) = v i) :
    ∃ t, exec (.shfl cell slot) s = .next t ∧ WritesLanes s t cell.toNat slot.toNat g d v := by
  obtain ⟨⟨hd', hd⟩, ⟨ha', ha⟩, _⟩ : _ ∧ _ ∧ _ := by simpa only [Swarm.holds_cons] using hh
  have hb' : b < 256 := by
    rcases hb with ⟨_, hb⟩ | ⟨_, hb⟩
    · exact (Swarm.holds_cons.1 hb).1.2
    · omega
  obtain ⟨fO, fG, fF, fD, fA, fB, fC, fL⟩ := rWord_fields (op := 0x19) (c := 0) (by decide) hg (by omega : fn < 32) hd ha hb' (by decide)
  generalize rWord 0x19 g fn d a b 0 = x at *
  refine ⟨_, rfl, issue_writesLanes hs (isOp_eq fO) (encR_ok (.inl rfl) ?_ rfl rfl ?_ ?_ fL) ?_ rfl fG fD fun i => ?_⟩
  · rw [fF]; exact List.mem_range.2 (Nat.lt_succ_of_le hfn)
  · rw [fF, fB]
    rcases hb with ⟨rfl, _⟩ | ⟨h0, hb⟩
    · rfl
    · rw [if_neg (by simpa using h0)]; exact decide_eq_true hb
  · rw [fC]; rfl
  · rw [fF, fD, fA, fB]
    rcases hb with ⟨rfl, hb⟩ | ⟨h0, _⟩
    · exact Swarm.holds_pastV (l := [d, a, b]) (by simp only [Swarm.holds_cons] at hh hb ⊢; exact ⟨hh.1, hh.2.1, hb⟩)
    · rw [if_neg (by simpa using h0)]; exact Swarm.holds_pastV hh
  · rw [fA]; exact hv x fF fB i

end

/-- Settles O9: SHFL with each source lane. -/
theorem shuffles : Obligations.Shuffles := by
  unfold Obligations.Shuffles
  intro s cell slot g fn d a b id k w hg hh
  refine ⟨fun hb hs => exec_shfl hg (by decide) hh (.inl ⟨rfl, hb⟩) hs fun x fF fB i => ?_,
    fun h1 h4 hb hs => exec_shfl hg h4 hh (.inr ⟨by omega, hb⟩) hs fun x fF fB i => ?_⟩
  · rw [Swarm.shflSrc, fF, fB]; rfl
  · rw [Swarm.shflSrc, fF, fB]
    have hfn : fn = 1 ∨ fn = 2 ∨ fn = 3 ∨ fn = 4 := by omega
    rcases hfn with rfl | rfl | rfl | rfl <;> rfl

end Sys2Proof.Machine
end

section
/-! PROOFS (O23). SEND.DYNAMIC and SEND.STATIC (R153, R265, R267, R268). -/
namespace Sys2Proof.Machine

/-! ### The checks (R268) -/

section
variable {s : State} {id t off len : Nat} {st : Bool}

theorem sendCheck_target : s.sendCheck id t off len st = 0x4001 ↔ s.badTarget t st = true := by
  unfold State.sendCheck
  split_ifs <;> simp_all

theorem badTarget_of_cell (h0 : bits t 0 3 = 0) (hl : isLogical (bits t 8 10) = false) : s.badTarget t st = true := by
  simp [State.badTarget, h0, hl]

theorem badTarget_of_static (h : bits t 0 3 ≠ 0) : s.badTarget t true = true := by
  simp [State.badTarget, h]

theorem badTarget_of_route (h : bits t 32 8 ≠ 0) : s.badTarget t false = true := by
  simp [State.badTarget, h]

theorem badTarget_of_kind (h : 4 ≤ bits t 0 3) : s.badTarget t st = true := by
  simp [State.badTarget, h]

/-- R265: the cell is the source of the static route. -/
def State.ownsRoute (s : State) (id route : Nat) : Prop := ∃ e, s.routeOf (chOf id) route = some e ∧ fieldLE e 8 2 = id

theorem ownsRoute_iff : s.ownsRoute id (bits t 32 8) ↔ ((s.routeOf (chOf id) (bits t 32 8)).any fun e => fieldLE e 8 2 == id) = true := by
  unfold State.ownsRoute
  cases s.routeOf (chOf id) (bits t 32 8) <;> simp

theorem sendCheck_route (hb : s.badTarget t st = false) (hst : st = true) (hm : ¬ s.ownsRoute id (bits t 32 8)) :
    s.sendCheck id t off len st = 0x4003 := by
  subst hst
  rw [ownsRoute_iff, Bool.not_eq_true] at hm
  simp [State.sendCheck, hb, hm]

/-- R268: with the target and the route judged, the length, the alignment and the range are. -/
theorem sendCheck_operands (hb : s.badTarget t st = false) (hm : st = true → s.ownsRoute id (bits t 32 8)) :
    s.sendCheck id t off len st = if 512 < len ∨ len % 8 ≠ 0 then 0x4002 else if off % 8 ≠ 0 then 0x3031
      else if 0x180000 < off + len then 0x3030 else 0 := by
  have hr : (st && !((s.routeOf (chOf id) (bits t 32 8)).any fun e => fieldLE e 8 2 == id)) = false := by
    cases st with
    | false => rfl
    | true => rw [ownsRoute_iff.1 (hm rfl)]; rfl
  unfold State.sendCheck
  rw [hb, hr]
  simp

end

/-! ### What a SEND does -/

section
variable {s : State} {id k : Nat}

/-- R268: the codes of the checks. -/
theorem sendCheck_mem (t off len : Nat) (st : Bool) : s.sendCheck id t off len st ∈ [0x4001, 0x4003, 0x4002, 0x3031, 0x3030, 0] := by
  unfold State.sendCheck
  split_ifs <;> decide

/-- R136, R153: what SEND does at a valid word. -/
theorem sendInsn_eq {fn a b c : Nat} (hfn : fn ≤ 1) (ha : a < 64) (hb : b < 64) (hc : c < 64)
    (hs : s.stands id k (rWord 0x38 0 fn 0 a b c) false false = true) :
    let w := s.swarm id k
    let off := w.ureg b
    let len := w.ureg c
    let code := s.sendCheck id (w.ureg a) off len (fn == 1)
    (code ≠ 0 → s.sendInsn id k fn = s.faultInsn id k (rWord 0x38 0 fn 0 a b c) code 0) ∧
    (code = 0 → (s.cell id).lmErr = [] → s.sendInsn id k fn =
      if fn = 0 then (s.sendDynamic id k (w.ureg a) ((s.cell id).read off len)).commit id k
      else match s.routeOf (chOf id) (bits (w.ureg a) 32 8) with
        | none => s
        | some e => if (s.cell id).creditsLeft (bits (w.ureg a) 32 8) e then
            (s.sendStatic id k (w.ureg a) ((s.cell id).read off len) e).commit id k else s) := by
  obtain ⟨fO, fG, fF, fD, fA, fB, fC, fL⟩ := rWord_fields (op := 0x38) (g := 0) (fn := fn) (d := 0) (a := a) (b := b) (c := c)
    (by decide) (by decide) (by omega) (by decide) (by omega) (by omega) (by omega)
  generalize rWord 0x38 0 fn 0 a b c = x at *
  intro w off len code
  have henc : firstBad (encSend x) = none := by
    simp [encSend, firstBad, fG, fF, fD, fA, fB, fC, fL, okU, ha, hb, hc, hfn]
  unfold State.sendInsn
  rw [issue_stands hs (by simp [isOp, fO, fF]) henc (fun h => by cases h) rfl rfl]
  simp only [fA, fB, fC]
  refine ⟨fun h => if_pos (bne_iff_ne.2 h), fun h he => ?_⟩
  have hu : (s.cell id).uce off len = false := uce_clean _ _ _ fun n _ => by rw [he]; rfl
  have ht : s.lmTouch id off len = s := lmTouch_clean _ _ _ _ fun n _ => by rw [he]; rfl
  rw [if_neg (by simpa using h), if_neg (by rw [hu]; decide), ht]
  simp only [beq_iff_eq]
  rfl

/-- Packets sent one after the other join the mesh in order. -/
theorem foldl_send {f : State → Nat → Packet} (hf : ∀ (s : State) pk d, f { s with pkts := pk } d = f s d) (l : List Nat) (s : State) :
    l.foldl (fun s d => s.send (f s d)) s = { s with pkts := s.pkts ++ l.map (f s) } := by
  induction l generalizing s with
  | nil => simp
  | cons d l ih =>
    rw [List.foldl_cons, ih]
    have hs : f (s.send (f s d)) = f s := funext fun e => hf s _ e
    rw [hs]
    simp [State.send]

/-- R265: a message on a static route to cell `d`. -/
def State.staticMsg (s : State) (id k t : Nat) (payload : Bytes) (d : Nat) : Packet :=
  { kind := .msg, src := .cell id, dst := .cell d, payload := payload, route := some (bits t 32 8),
    arg := BitVec.ofNat 64 (msgHeader id 0 true (bits t 24 8) (bits t 32 8) payload.length (bits t 48 16)),
    origin := { slot := k, scope := scopeOf id d }, wasOpen := (s.closedOn (chOf id) (chOf d)).isNone }

/-- R265: the cell from which a static route has taken one credit of each destination. -/
def CellMem.spend (c : CellMem) (route : Nat) (dests : List Nat) : CellMem :=
  { c with creditUsed := dests.foldl (fun m d => smod 0 m (creditKey route d) (· + 1)) c.creditUsed }

theorem sendStatic_eq (t : Nat) (payload e : Bytes) : s.sendStatic id k t payload e =
    { s.modCell id fun c => c.spend (bits t 32 8) (routeDests e) with
      pkts := s.pkts ++ (routeDests e).map (s.staticMsg id k t payload) } :=
  foldl_send (f := fun s d => s.staticMsg id k t payload d) (fun _ _ _ => rfl) _ (s.modCell id fun c => c.spend (bits t 32 8) (routeDests e))

theorem sget_foldl_smod_succ {key : Nat → Nat} (hk : ∀ i j, key i = key j → i = j) {l : List Nat} (hl : l.Nodup) (m : Sparse Nat) (d : Nat) :
    sget 0 (l.foldl (fun m d => smod 0 m (key d) (· + 1)) m) (key d) = sget 0 m (key d) + if d ∈ l then 1 else 0 := by
  induction l generalizing m with
  | nil => rfl
  | cons a l ih =>
    obtain ⟨ha, hl⟩ := List.nodup_cons.1 hl
    rw [List.foldl_cons, ih hl, sget_smod]
    by_cases hd : d = a
    · subst hd; simp [ha]
    · have hne : key d ≠ key a := fun h => hd (hk _ _ h)
      simp [hd, hne]

/-- Table 13-2: a static route names each destination once. -/
theorem routeDests_nodup (e : Bytes) : (routeDests e).Nodup := by
  refine List.Nodup.filter _ (List.nodup_flatMap.2 ⟨fun r _ => ?_, ?_⟩)
  · exact List.nodup_range.map fun i j h => by simpa [cellId] using h
  · refine List.nodup_range.imp fun {r r'} hne x hx hx' => hne ?_
    obtain ⟨i, hi, rfl⟩ := List.mem_map.1 hx
    obtain ⟨j, hj, he⟩ := List.mem_map.1 hx'
    rw [List.mem_range] at hi hj
    simp only [cellId] at he
    omega

/-- R120: an instruction that leaves every swarm as it was, and commits. -/
theorem commit_frame {u : State} (hw : ∀ i j, u.swarm i j = s.swarm i j) (hp : ∀ i, u.phys i = s.phys i)
    (hq : (s.swarm id k).asyncFaults = [] ∧ (s.swarm id k).parkReq = none) :
    u.commit id k = (u.modSwarm id k fun w => w.advance none) ∧ KeepsSwarms s (u.commit id k) id k ∧
      (u.commit id k).swarm id k = (s.swarm id k).advance none := by
  have he := commit_quiet (s := u) (id := id) (k := k) (by rw [hw]; exact hq.1) (by rw [hw]; exact hq.2)
  refine ⟨he, fun i j h => ?_, ?_⟩
  · rw [he, swarm_modSwarm, hp, hp, if_neg fun hc => h.elim (· hc.1) (· hc.2), hw]
  · rw [he, swarm_modSwarm_same, hw]

/-- R267: SEND.DYNAMIC sends one message and commits. -/
theorem sendDynamic_effect (t : Nat) (payload : Bytes) (hq : (s.swarm id k).asyncFaults = [] ∧ (s.swarm id k).parkReq = none) :
    let u := (s.sendDynamic id k t payload).commit id k
    (KeepsBytes s u ∧ KeepsSwarms s u id k ∧ u.regs = s.regs ∧ u.swarm id k = (s.swarm id k).advance none) ∧
      Sends s u { kind := .msg, src := .cell id, dst := targetEnd (chOf id) t, payload := payload,
                  arg := BitVec.ofNat 64 (msgHeader id 0 false (bits t 24 8) 0 payload.length (bits t 48 16)),
                  origin := { slot := k, scope := targetScope (chOf id) t } } := by
  obtain ⟨he, h1, h2⟩ := commit_frame (u := s.sendDynamic id k t payload) (fun _ _ => rfl) (fun _ => rfl) hq
  refine ⟨⟨?_, h1, by rw [he]; rfl, h2⟩, _, by rw [he]; rfl⟩
  have hb : KeepsBytes s (s.sendDynamic id k t payload) := .of_eq rfl rfl rfl
  rw [he]
  exact hb.trans (keepsBytes_modSwarm ..)

/-- R265: SEND.STATIC takes one credit of every destination, sends to each and commits. -/
theorem sendStatic_effect (t : Nat) (payload e : Bytes) (hq : (s.swarm id k).asyncFaults = [] ∧ (s.swarm id k).parkReq = none) :
    let u := (s.sendStatic id k t payload e).commit id k
    (KeepsBytes s u ∧ KeepsSwarms s u id k ∧ u.regs = s.regs ∧ u.swarm id k = (s.swarm id k).advance none) ∧
      u.pkts = s.pkts ++ (routeDests e).map (s.staticMsg id k t payload) ∧
      ∀ d, sget 0 (u.cell id).creditUsed (creditKey (bits t 32 8) d) =
        sget 0 (s.cell id).creditUsed (creditKey (bits t 32 8) d) + if d ∈ routeDests e then 1 else 0 := by
  rw [sendStatic_eq]
  have hsw : ∀ i j, (s.modCell id fun c => c.spend (bits t 32 8) (routeDests e)).swarm i j = s.swarm i j :=
    swarm_modCell_of_swarms fun _ => rfl
  obtain ⟨he, h1, h2⟩ := commit_frame (u := { s.modCell id fun c => c.spend (bits t 32 8) (routeDests e) with
    pkts := s.pkts ++ (routeDests e).map (s.staticMsg id k t payload) }) hsw (fun _ => rfl) hq
  refine ⟨⟨?_, h1, by rw [he]; rfl, h2⟩, by rw [he]; rfl, fun d => ?_⟩
  · have hb : KeepsBytes s (s.modCell id fun c => c.spend (bits t 32 8) (routeDests e)) := .modCell s id fun _ => rfl
    have hp : KeepsBytes s { s.modCell id fun c => c.spend (bits t 32 8) (routeDests e) with
        pkts := s.pkts ++ (routeDests e).map (s.staticMsg id k t payload) } := hb.trans (.of_eq rfl rfl rfl)
    rw [he]
    exact hp.trans (keepsBytes_modSwarm ..)
  · rw [he, State.modSwarm, cell_modCell_same]
    show sget 0 ((s.modCell id fun c => c.spend (bits t 32 8) (routeDests e)).cell id).creditUsed _ = _
    rw [cell_modCell_same]
    exact sget_foldl_smod_succ (key := creditKey (bits t 32 8)) (fun i j h => Nat.add_left_cancel h) (routeDests_nodup e) _ d

/-- R122, R268: a SEND whose check fails parks with its code. -/
theorem sendFault_parks {x code : Nat} (hk : k < 16) (hc : code < 2 ^ 16 ∧ code ≠ 0x1015) (hp : s.parksAlone id k = true)
    (hs : s.stands id k x false false = true) : let u := s.faultInsn id k x code 0
    KeepsBytes s u ∧ (u.swarm id k).st = .parked ∧ u.pkts = s.pkts ∧ (u.cell id).recField k 2 0 16 = code := by
  obtain ⟨_, _, hpc, _⟩ := (stands_iff ..).mp hs
  have h : Parks s (s.faultInsn id k x code 0) id k { code := code, insn := x, addr := (s.swarm id k).pc, detail := 0 } :=
    park_parks hp (quiet_of_stands hs).2 hc.2
  obtain ⟨_, hcode, _⟩ := h.record hk hc.1 rfl (Nat.lt_trans hpc (by decide)) rfl
  obtain ⟨c, hcell, _⟩ := h.cellTo_eq
  exact ⟨h.bytes, by rw [h.swarm]; rfl, hcell.pkts, hcode⟩

end

/-- Settles O23: SEND passes its checks and sends, waits for a credit, or parks with the code of the first check that fails. -/
theorem sendMessages : Obligations.SendMessages := by
  unfold Obligations.SendMessages
  refine ⟨?_, ?_⟩
  · intro s cell slot fn a b c e id k w target off len route header data kept used ha hb hc hs
    have hq := quiet_of_stands hs
    have hlen : data.length = len := sgetN_length ..
    have hh : ∀ r st, BitVec.ofNat 64 (msgHeader id 0 st (bits target 24 8) r len (bits target 48 16)) = header r st.toNat := fun r st => by
      simp only [msgHeader, header, Nat.zero_mul, Nat.add_zero]
    refine ⟨fun hfn he hcode => ?dynamic, fun hfn he hcode hr => ?static, fun i hi hcode hp => ?fault⟩
    case dynamic =>
      subst hfn
      obtain ⟨_, hpass⟩ := sendInsn_eq (by decide) ha hb hc hs
      obtain ⟨hkept, hsend⟩ := sendDynamic_effect (id := id) (k := k) target data hq
      rw [hlen, hh] at hsend
      exact ⟨_, congrArg Host.Outcome.next ((hpass hcode he).trans (if_pos rfl)), hkept, hsend⟩
    case static =>
      subst hfn
      obtain ⟨_, hpass⟩ := sendInsn_eq (by decide) ha hb hc hs
      have hpass := hpass hcode he
      rw [if_neg (by decide), show s.routeOf (chOf cell.toNat) (bits ((s.swarm cell.toNat slot.toNat).ureg a) 32 8) = some e from hr] at hpass
      refine ⟨fun hcr => ?_, fun hcr => ?_⟩
      · have hl : (s.cell id).creditsLeft route e = true := List.all_eq_true.2 fun d hd => decide_eq_true (hcr d hd)
        obtain ⟨hkept, hpkts, hused⟩ := sendStatic_effect (id := id) (k := k) target data e hq
        refine ⟨_, congrArg Host.Outcome.next (hpass.trans (if_pos hl)), hkept, hpkts.trans ?_, fun d _ => hused d⟩
        refine congrArg (s.pkts ++ ·) (List.map_congr_left fun d _ => ?_)
        rw [State.staticMsg, hlen, hh]
        rfl
      · obtain ⟨d, hd, hle⟩ := hcr
        have hl : ¬ (s.cell id).creditsLeft route e = true := fun h =>
          Nat.not_lt.2 hle (of_decide_eq_true (List.all_eq_true.1 h d hd))
        exact congrArg Host.Outcome.next (hpass.trans (if_neg hl))
    case fault =>
      have hfn : fn ≤ 1 := by omega
      obtain ⟨hbad, _⟩ := sendInsn_eq hfn ha hb hc hs
      have hexec : exec i s = .next (s.sendInsn id k fn) := by
        rcases hi with ⟨rfl, rfl⟩ | ⟨rfl, rfl⟩ <;> rfl
      have hlt : ∀ n ∈ [0x4001, 0x4003, 0x4002, 0x3031, 0x3030, 0], n < 2 ^ 16 ∧ n ≠ 0x1015 := by decide
      exact ⟨_, hexec.trans (congrArg _ (hbad hcode)), sendFault_parks slot.isLt (hlt _ (sendCheck_mem ..)) hp hs⟩
  · intro s id t off len st mine
    refine ⟨sendCheck_target, fun hb hst hm => sendCheck_route hb hst hm, fun hb hm => ?_, badTarget_of_cell,
      fun hst h => by subst hst; exact badTarget_of_static h, fun hst h => by subst hst; exact badTarget_of_route h, badTarget_of_kind⟩
    rw [sendCheck_operands hb hm]
    refine ⟨by split_ifs <;> simp_all, fun h1 h2 => ⟨?_, fun h3 => ⟨?_, fun h4 => ?_⟩⟩⟩
    all_goals rw [if_neg (by omega)]
    · split_ifs <;> simp_all
    · rw [if_neg (by omega)]
      split_ifs <;> simp_all
    · rw [if_neg (by omega), if_neg (by omega)]

end Sys2Proof.Machine
end

section
/-! PROOFS. The events of conversions and functions, which change registers and context events alone (R63, R68, R206, R217, R231,
R232), and states reached by such events and changes of one swarm. -/
namespace Sys2Proof.Machine

/-! ### Registers and context events alone -/

/-- From `s` to `t` only registers and the dispatchers' state have changed. -/
def EventsOnly (s t : State) : Prop := ∃ r d, t = { s with regs := r, disp := d }

section
variable {s t u : State}

theorem EventsOnly.refl (s : State) : EventsOnly s s := ⟨s.regs, s.disp, rfl⟩

theorem EventsOnly.trans (h : EventsOnly s t) (k : EventsOnly t u) : EventsOnly s u := by
  obtain ⟨_, _, rfl⟩ := h
  obtain ⟨r, d, rfl⟩ := k
  exact ⟨r, d, rfl⟩

theorem EventsOnly.wr (h : EventsOnly s t) (f : RegField) (v : Nat) : EventsOnly s (t.wr f v) := h.trans ⟨_, _, rfl⟩

theorem EventsOnly.foldl {α : Type} {f : State → α → State} (hf : ∀ s x, EventsOnly s (f s x)) (l : List α) (s : State) :
    EventsOnly s (l.foldl f s) := by
  induction l generalizing s with
  | nil => exact .refl s
  | cons x l ih => exact (hf s x).trans (ih _)

theorem EventsOnly.phys (h : EventsOnly s t) (i : Nat) : t.phys i = s.phys i := by obtain ⟨_, _, rfl⟩ := h; rfl
theorem EventsOnly.cells (h : EventsOnly s t) : t.cells = s.cells := by obtain ⟨_, _, rfl⟩ := h; rfl
theorem EventsOnly.cell (h : EventsOnly s t) (i : Nat) : t.cell i = s.cell i := by obtain ⟨_, _, rfl⟩ := h; rfl
theorem EventsOnly.swarm (h : EventsOnly s t) (i j : Nat) : t.swarm i j = s.swarm i j := by obtain ⟨_, _, rfl⟩ := h; rfl
theorem EventsOnly.pkts (h : EventsOnly s t) : t.pkts = s.pkts := by obtain ⟨_, _, rfl⟩ := h; rfl
theorem EventsOnly.hbm (h : EventsOnly s t) : t.hbm = s.hbm := by obtain ⟨_, _, rfl⟩ := h; rfl
theorem EventsOnly.host (h : EventsOnly s t) : t.host = s.host := by obtain ⟨_, _, rfl⟩ := h; rfl

theorem EventsOnly.bytes (h : EventsOnly s t) : KeepsBytes s t := .of_eq h.hbm (congrArg _ h.host) h.cells

theorem EventsOnly.modSwarm (h : EventsOnly s t) (id k : Nat) (f : Swarm → Swarm) :
    EventsOnly (s.modSwarm id k f) (t.modSwarm id k f) := by
  obtain ⟨r, d, rfl⟩ := h
  exact ⟨r, d, rfl⟩

end

/-! ### The events -/

section
variable (s : State) (id k : Nat)

theorem ctxEvent_eventsOnly (bit : Nat) : EventsOnly s (s.ctxEvent id k bit) := by
  unfold State.ctxEvent
  split
  · exact ⟨_, _, rfl⟩
  · exact .refl s

theorem passes_eventsOnly (offs : List Nat) (w : Nat) : EventsOnly s (s.passes id offs w) := (EventsOnly.refl s).wr _ _

/-- A sticky bit, its counter and the context's event. -/
theorem raise_eventsOnly (f g : RegField) (bit : Nat) : EventsOnly s (((s.wr f 1).bump g).ctxEvent id k bit) :=
  (((EventsOnly.refl s).wr _ _).wr _ _).trans (ctxEvent_eventsOnly ..)

theorem qovf_eventsOnly : EventsOnly s (s.qovf id k) := raise_eventsOnly ..
theorem fnSat_eventsOnly : EventsOnly s (s.fnSat id k) := raise_eventsOnly ..
theorem smSat_eventsOnly : EventsOnly s (s.smSat id k) := raise_eventsOnly ..

theorem cvtEvent_eventsOnly (e : CvtEv) : EventsOnly s (s.cvtEvent id k e) := by
  cases e with
  | none => exact .refl s
  | _ => exact raise_eventsOnly ..

theorem qsat_eventsOnly (src : Nat) : EventsOnly s (s.qsat id k src) :=
  ((((EventsOnly.refl s).wr _ _).wr _ _).wr _ _).trans (ctxEvent_eventsOnly ..)

theorem clipOther_eventsOnly : EventsOnly s (s.clipOther id k) := by
  have hb := (EventsOnly.refl s).wr (Reg.cellQsatStatusOtherClipCount (s.phys id))
    (min (2 ^ (Reg.cellQsatStatusOtherClipCount (s.phys id)).len - 1) (s.rd (Reg.cellQsatStatusOtherClipCount (s.phys id)) + 1))
  unfold State.clipOther
  dsimp only
  split
  · exact (hb.wr _ _).trans (qsat_eventsOnly ..)
  · exact hb

theorem laneConv_eventsOnly (c : Conv) : EventsOnly s (s.laneConv id k c) := by
  have h := cvtEvent_eventsOnly s id k c.ev
  unfold State.laneConv
  dsimp only
  split
  · exact h.trans (clipOther_eventsOnly ..)
  · exact h

end

/-! ### The registers that conversions count in -/

section
variable {s t u : State} {p : Nat}

theorem KeepsRegs.refl (s : State) (p : Nat) : KeepsRegs s s p := fun _ _ => rfl

theorem KeepsRegs.trans (h : KeepsRegs s t p) (k : KeepsRegs t u p) : KeepsRegs s u p := fun o ho => (k o ho).trans (h o ho)

theorem KeepsRegs.wr (h : KeepsRegs s t p) (f : RegField) (v : Nat)
    (hf : f.off ∈ [(Reg.cellCvtStatusOvf p).off, (Reg.cellLmStatusExtraPasses p).off, (Reg.cellQsatStatusQsat p).off]) :
    KeepsRegs s (t.wr f v) p := fun o ho => by
  have hne : o ≠ f.off := fun e => ho (e ▸ hf)
  exact (reg_wr_ne t f v hne).trans (h o ho)

theorem KeepsRegs.bump (h : KeepsRegs s t p) (f : RegField)
    (hf : f.off ∈ [(Reg.cellCvtStatusOvf p).off, (Reg.cellLmStatusExtraPasses p).off, (Reg.cellQsatStatusQsat p).off]) :
    KeepsRegs s (t.bump f) p := h.wr f _ hf

theorem KeepsRegs.of_regs (h : t.regs = s.regs) : KeepsRegs s t p := fun o _ => by rw [State.reg, h]; rfl

end

section
variable (s : State) (id k : Nat)

theorem ctxEvent_keepsRegs (bit p : Nat) : KeepsRegs s (s.ctxEvent id k bit) p := by
  unfold State.ctxEvent
  split
  · exact .of_regs rfl
  · exact .refl s p

theorem raise_keepsRegs (f g : RegField) (bit : Nat) {p : Nat}
    (hf : f.off ∈ [(Reg.cellCvtStatusOvf p).off, (Reg.cellLmStatusExtraPasses p).off, (Reg.cellQsatStatusQsat p).off])
    (hg : g.off ∈ [(Reg.cellCvtStatusOvf p).off, (Reg.cellLmStatusExtraPasses p).off, (Reg.cellQsatStatusQsat p).off]) :
    KeepsRegs s (((s.wr f 1).bump g).ctxEvent id k bit) p :=
  (((KeepsRegs.refl s p).wr f 1 hf).bump g hg).trans (ctxEvent_keepsRegs _ id k bit p)

/-- The fields of CVT_STATUS share its offset. -/
theorem cvtStatus_mem {o : Nat} (p : Nat) (h : o = (Reg.cellCvtStatusOvf p).off) :
    o ∈ [(Reg.cellCvtStatusOvf p).off, (Reg.cellLmStatusExtraPasses p).off, (Reg.cellQsatStatusQsat p).off] := h ▸ .head _

/-- The fields of QSAT_STATUS share its offset. -/
theorem qsatStatus_mem {o : Nat} (p : Nat) (h : o = (Reg.cellQsatStatusQsat p).off) :
    o ∈ [(Reg.cellCvtStatusOvf p).off, (Reg.cellLmStatusExtraPasses p).off, (Reg.cellQsatStatusQsat p).off] := h ▸ .tail _ (.tail _ (.head _))

theorem cvtEvent_keepsRegs (e : CvtEv) : KeepsRegs s (s.cvtEvent id k e) (s.phys id) := by
  unfold State.cvtEvent
  generalize s.phys id = p
  cases e with
  | none => exact .refl s p
  | _ => exact raise_keepsRegs s id k _ _ _ (cvtStatus_mem p rfl) (cvtStatus_mem p rfl)

theorem qsat_keepsRegs (src : Nat) : KeepsRegs s (s.qsat id k src) (s.phys id) := by
  unfold State.qsat
  generalize s.phys id = p
  have h1 := (KeepsRegs.refl s p).wr (Reg.cellQsatStatusQsat p) 1 (qsatStatus_mem p rfl)
  have h2 := h1.bump (Reg.cellQsatStatusQsatCount p) (qsatStatus_mem p rfl)
  exact (h2.wr (Reg.cellQsatStatusLastSource p) src (qsatStatus_mem p rfl)).trans (ctxEvent_keepsRegs _ id k 6 p)

theorem clipOther_keepsRegs : KeepsRegs s (s.clipOther id k) (s.phys id) := by
  unfold State.clipOther
  generalize hp : s.phys id = p
  have hb := (KeepsRegs.refl s p).bump (Reg.cellQsatStatusOtherClipCount p) (qsatStatus_mem p rfl)
  have he : EventsOnly s ((s.bump (Reg.cellQsatStatusOtherClipCount p)).wr (Reg.cellQsatStatusOtherRaised p) 1) :=
    ((EventsOnly.refl s).wr _ _).wr _ _
  dsimp only
  split
  · have hr := hb.wr (Reg.cellQsatStatusOtherRaised p) 1 (qsatStatus_mem p rfl)
    have hq := qsat_keepsRegs ((s.bump (Reg.cellQsatStatusOtherClipCount p)).wr (Reg.cellQsatStatusOtherRaised p) 1) id k 1024
    rw [he.phys, hp] at hq
    exact hr.trans hq
  · exact hb

/-- R63, R231: a conversion in a lane path raises its events in CVT_STATUS and QSAT_STATUS. -/
theorem laneConv_keepsRegs (c : Conv) : KeepsRegs s (s.laneConv id k c) (s.phys id) := by
  have h := cvtEvent_keepsRegs s id k c.ev
  unfold State.laneConv
  dsimp only
  split
  · refine h.trans ?_
    rw [← (cvtEvent_eventsOnly s id k c.ev).phys id]
    exact clipOther_keepsRegs _ id k
  · exact h

theorem foldl_laneConv_keepsRegs {α : Type} (f : α → Conv) (l : List α) :
    KeepsRegs s (l.foldl (fun s a => s.laneConv id k (f a)) s) (s.phys id) := by
  induction l generalizing s with
  | nil => exact .refl s _
  | cons a l ih =>
    refine (laneConv_keepsRegs s id k (f a)).trans ?_
    rw [← (laneConv_eventsOnly s id k (f a)).phys id]
    exact ih _

end

/-! ### Events, and one swarm -/

/-- From `s` to `t` only registers and the dispatchers' state have changed, and slot `k` of cell `id` has become `w`. -/
def SwarmTo (s t : State) (id k : Nat) (w : Swarm) : Prop :=
  (EventsOnly s t ∧ s.swarm id k = w) ∨ EventsOnly (s.modSwarm id k fun _ => w) t

section
variable {s t u : State} {id k : Nat} {w : Swarm}

theorem SwarmTo.refl (s : State) (id k : Nat) : SwarmTo s s id k (s.swarm id k) := .inl ⟨.refl s, rfl⟩

theorem SwarmTo.events (h : SwarmTo s t id k w) (g : EventsOnly t u) : SwarmTo s u id k w :=
  h.imp (fun h => ⟨h.1.trans g, h.2⟩) (·.trans g)

theorem EventsOnly.swarmTo (h : EventsOnly s t) (id k : Nat) : SwarmTo s t id k (s.swarm id k) := .inl ⟨h, rfl⟩

theorem SwarmTo.swarm (h : SwarmTo s t id k w) : t.swarm id k = w := by
  rcases h with ⟨h, rfl⟩ | h
  · exact h.swarm id k
  · rw [h.swarm, swarm_modSwarm_same]

theorem SwarmTo.modSwarm (h : SwarmTo s t id k w) (f : Swarm → Swarm) : SwarmTo s (t.modSwarm id k f) id k (f w) := by
  refine .inr ?_
  rcases h with ⟨h, rfl⟩ | h
  · rw [← modSwarm_const]
    exact h.modSwarm id k f
  · have g := h.modSwarm id k f
    rw [modSwarm_modSwarm] at g
    exact g

theorem SwarmTo.commit (h : SwarmTo s t id k w) (h1 : w.asyncFaults = []) (h2 : w.parkReq = none) :
    SwarmTo s (t.commit id k) id k (w.advance none) := by
  rw [commit_quiet (by rw [h.swarm]; exact h1) (by rw [h.swarm]; exact h2)]
  exact h.modSwarm fun w => w.advance none

theorem SwarmTo.commit_keepsRegs {p : Nat} (h : SwarmTo s t id k w) (hr : KeepsRegs s t p) (h1 : w.asyncFaults = []) (h2 : w.parkReq = none) :
    KeepsRegs s (t.commit id k) p := by
  rw [commit_quiet (by rw [h.swarm]; exact h1) (by rw [h.swarm]; exact h2)]
  exact hr.trans (.of_regs rfl)

theorem SwarmTo.phys (h : SwarmTo s t id k w) (i : Nat) : t.phys i = s.phys i := by
  rcases h with ⟨h, rfl⟩ | h
  · exact h.phys i
  · exact h.phys i

theorem SwarmTo.bytes (h : SwarmTo s t id k w) : KeepsBytes s t := by
  rcases h with ⟨h, rfl⟩ | h
  · exact h.bytes
  · exact (keepsBytes_modSwarm ..).trans h.bytes

theorem SwarmTo.swarms (h : SwarmTo s t id k w) : KeepsSwarms s t id k := fun i j hij => by
  rcases h with ⟨h, rfl⟩ | h
  · exact h.swarm i j
  · rw [h.swarm, swarm_modSwarm, if_neg fun hc => hij.elim (· hc.1) (· hc.2)]

theorem SwarmTo.pkts (h : SwarmTo s t id k w) : t.pkts = s.pkts := by
  rcases h with ⟨h, rfl⟩ | h
  · exact h.pkts
  · exact h.pkts

theorem SwarmTo.hbm (h : SwarmTo s t id k w) : t.hbm = s.hbm := by
  rcases h with ⟨h, rfl⟩ | h
  · exact h.hbm
  · exact h.hbm

theorem SwarmTo.host (h : SwarmTo s t id k w) : t.host = s.host := by
  rcases h with ⟨h, rfl⟩ | h
  · exact h.host
  · exact h.host

/-- Whatever of a cell does not depend on its swarms stays. -/
theorem SwarmTo.field {α : Type} (h : SwarmTo s t id k w) (f : CellMem → α) (hf : ∀ c g, f (c.modSwarm k g) = f c) :
    f (t.cell id) = f (s.cell id) := by
  rcases h with ⟨h, rfl⟩ | h
  · rw [h.cell]
  · rw [h.cell, State.modSwarm, cell_modCell_same, hf]

end

end Sys2Proof.Machine
end

section
/-! PROOFS (O18, O19). LD, LDU, ST and STU at a word that passes the checks before check 10, with local accesses alone (R134 to R136,
R150, R151, R163). -/
namespace Sys2Proof.Machine

/-! ### The words -/

/-- R134 to R136, R151: the operands of a word of LD or ST, which passes every check before check 10. -/
structure Swarm.LaneWord (w : Swarm) (op g d a b mf rf zp sh ni x : Nat) : Prop where
  opcode : wOp x = op
  guard : wGuard x = g
  data : wD x = d
  base : wA x = a
  index : wB x = b
  memFmt : mMfmt x = mf
  regFmt : mRfmt x = rf
  zero : mZp x = zp
  shift : mShift x = sh
  noidx : mNoidx x = (ni == 1)
  width : mW x ≤ 4
  inMem : mf ∈ memFmts
  inReg : rf ∈ regFmts
  enc : firstBad (encMem x false (memRegs x)) = none
  regs : pastV w.V (regsM x (memRegs x)) = none
  fmt : firstBad (fmtMem x) = none

section
variable {w : Swarm} {op g d a b mf rf zp sh ni sp wd : Nat}

/-- R134: the fields of a lane-memory word whose registers lie within V. -/
theorem laneWord_fields (hop : op < 256) (hg : g < 8) (ha : a < 64) (hsh : sh < 4) (hni : ni ≤ 1) (hsp : sp ≤ 1) (hwd : wd ≤ 4)
    (hzp : zp < 256) (hm : mf ∈ memFmts) (hr : rf ∈ regFmts) (hb : ni = 1 → b = 0) :
    let x := mWord op g 0 d a b mf rf zp sh ni sp wd
    w.holds (if ni = 1 then [d + memRegs x - 1] else [b, d + memRegs x - 1]) = true →
    (wOp x = op ∧ wGuard x = g ∧ wFn x = 0 ∧ wD x = d ∧ wA x = a ∧ wB x = b ∧ mMfmt x = mf ∧ mRfmt x = rf ∧ mZp x = zp ∧
      mShift x = sh ∧ mNoidx x = (ni == 1) ∧ mDevice x = (sp == 1) ∧ mW x = wd ∧ bits x 0 1 = 0) ∧
    d + memRegs x - 1 < w.V ∧ (ni ≠ 1 → b < w.V) := by
  intro x hl
  have hpos := memRegs_pos x
  obtain ⟨hd, hd', hb', hbV⟩ : d + memRegs x - 1 < w.V ∧ d + memRegs x - 1 < 256 ∧ b < 256 ∧ (ni ≠ 1 → b < w.V) := by
    by_cases hn : ni = 1
    · rw [if_pos hn, Swarm.holds_cons] at hl
      exact ⟨hl.1.1, hl.1.2, hb hn ▸ by decide, fun h => absurd hn h⟩
    · rw [if_neg hn, Swarm.holds_cons, Swarm.holds_cons] at hl
      exact ⟨hl.2.1.1, hl.2.1.2, hl.1.2, fun _ => hl.1.1⟩
  have hmf : ∀ m ∈ memFmts, m < 16 := by decide
  have hrf : ∀ m ∈ regFmts, m < 16 := by decide
  exact ⟨mWord_fields hop hg (by decide) (by omega) (by omega) hb' (hmf mf hm) (hrf rf hr) hzp hsh (by omega) (by omega) (by omega),
    hd, hbV⟩

/-- R135, R136, R151: the checks that a lane-memory word passes. -/
theorem laneWord (hop : op < 256) (hg : g < 8) (ha : a < 64) (hsh : sh < 4) (hni : ni ≤ 1) (hsp : sp ≤ 1) (hwd : wd ≤ 4)
    (hzp : zp < 256) (hm : mf ∈ memFmts) (hr : rf ∈ regFmts) (hraw : mf = 0 ↔ rf = 0) (hz : mf ≠ 4 → mf ≠ 5 → zp = 0)
    (hw : mf ≠ 0 → wd = 0) (hb : ni = 1 → b = 0) :
    let x := mWord op g 0 d a b mf rf zp sh ni sp wd
    d % memRegs x = 0 → w.holds (if ni = 1 then [d + memRegs x - 1] else [b, d + memRegs x - 1]) = true → w.LaneWord op g d a b mf rf zp sh ni x := by
  have hf := laneWord_fields (w := w) (d := d) hop hg ha hsh hni hsp hwd hzp hm hr hb
  generalize mWord op g 0 d a b mf rf zp sh ni sp wd = x at hf ⊢
  dsimp only at hf ⊢
  intro hal hl
  have hpos := memRegs_pos x
  obtain ⟨⟨hO, hG, hF, hD, hA, hB, hM, hR, hZ, hS, hN, _, hW, h0⟩, hd, hbV⟩ := hf hl
  have hidx : (!mNoidx x || wB x == 0) = true := by
    rw [hN, hB]
    by_cases hn : ni = 1
    · simp [hb hn]
    · simp [hn]
  refine ⟨hO, hG, hD, hA, hB, hM, hR, hZ, hS, hN, hW ▸ hwd, hm, hr, (firstBad_none_iff _).2 ?_, ?_, (firstBad_none_iff _).2 ?_⟩
  · simp only [encMem, List.mem_cons, List.not_mem_nil, or_false, forall_eq_or_imp, forall_eq]
    refine ⟨?_, ?_, hidx, ?_, ?_, ?_⟩
    · simp [hF]
    · simp [hA, okU, ha]
    · simp [hW, hwd]
    · simp [hD, hal]
    · simp [h0]
  · rw [pastV_none_iff, regsM, hN, hD, hB]
    by_cases hi : ni = 1
    · simp only [hi, BEq.rfl, if_true, List.nil_append, List.mem_singleton, forall_eq]
      omega
    · have := hbV hi
      simp only [beq_eq_false_iff_ne.2 hi, Bool.false_eq_true, if_false, List.singleton_append, List.mem_cons, List.not_mem_nil,
        or_false, forall_eq_or_imp, forall_eq]
      omega
  · simp only [fmtMem, hM, hR, hZ, hW, List.mem_cons, List.not_mem_nil, or_false, forall_eq_or_imp, forall_eq]
    refine ⟨by simpa using hm, ?_, ?_, ?_⟩
    · simp [hr, hraw]
    · by_cases h4 : mf = 4 <;> by_cases h5 : mf = 5 <;> simp [h4, h5, hz]
    · by_cases h : mf = 0 <;> simp [h, hw]

end

section
variable {s : State} {cell : BitVec 10} {slot : BitVec 4} {g d a b mf rf zp sh ni x : Nat}

theorem execLd_accepts (h : (s.swarm cell.toNat slot.toNat).LaneWord 0x30 g d a b mf rf zp sh ni x)
    (hs : s.stands cell.toNat slot.toNat x false false = true) : exec (.ld cell slot) s = .next (s.memStep cell.toNat slot.toNat x) :=
  congrArg Host.Outcome.next (issue_stands hs (isOp_eq h.opcode) h.enc (fun h => by cases h) h.regs h.fmt)

theorem execSt_accepts (h : (s.swarm cell.toNat slot.toNat).LaneWord 0x31 g d a b mf rf zp sh ni x)
    (hs : s.stands cell.toNat slot.toNat x false false = true) : exec (.st cell slot) s = .next (s.memStep cell.toNat slot.toNat x) :=
  congrArg Host.Outcome.next (issue_stands hs (isOp_eq h.opcode) h.enc (fun h => by cases h) h.regs h.fmt)

end

section
variable {w : Swarm} {op g d a b mf rf zp sh ni x : Nat}

theorem Swarm.LaneWord.isUni (h : w.LaneWord op g d a b mf rf zp sh ni x) (hop : op = 0x30 ∨ op = 0x31) : isUni x = false := by
  rw [Machine.isUni, h.opcode]; rcases hop with rfl | rfl <;> rfl

theorem Swarm.LaneWord.isAtom (h : w.LaneWord op g d a b mf rf zp sh ni x) (hop : op = 0x30 ∨ op = 0x31) : isAtom x = false := by
  rw [Machine.isAtom, h.opcode]; rcases hop with rfl | rfl <;> rfl

theorem Swarm.LaneWord.mem_active (h : w.LaneWord op g d a b mf rf zp sh ni x) (i : Nat) :
    i ∈ w.active x ↔ i < 32 ∧ bitAt (w.preg g) i = true := by rw [Machine.mem_active, h.guard]

/-- R150: the accesses of the active lanes, all local. -/
theorem Swarm.LaneWord.accs (h : w.LaneWord op g d a b mf rf zp sh ni x) (hop : op = 0x30 ∨ op = 0x31) {id : Nat} {off : Nat → Nat}
    (ht : ∀ i, i < 32 → bitAt (w.preg g) i = true → targetOf id x (w.laneAddr a b sh ni i) = .loc (off i)) :
    w.accs id x = localAccs (w.active x) (w.laneAddr a b sh ni) off :=
  accs_eq_localAccs (h.isUni hop) (fun i => by rw [h.base, h.index, h.shift, h.noidx]; simp only [beq_iff_eq]; rfl) (by
    rw [h.guard]; exact ht)

end

/-- R150: the facts of an LDU or STU word of either space. -/
structure UniformWord (op d a wd y : Nat) : Prop where
  opcode : wOp y = op
  enc : firstBad (encUni y) = none
  fmt : firstBad (fmtRaw [0, 1, 2, 3] y) = none
  uni : isUni y = true
  data : wD y = d
  width : memWidth y = 2 ^ wd
  base : wA y = a
  noidx : mNoidx y = true

theorem uniformWord {op d a sp wd : Nat} (hop : op = 0x32 ∨ op = 0x33) (hd : d < 64) (ha : a < 64) (hsp : sp ≤ 1) (hwd : wd ≤ 3) :
    UniformWord op d a wd (mWord op 0 0 d a 0 0 0 0 0 1 sp wd) := by
  obtain ⟨hO, hG, hF, hD, hA, hB, hM, hR, hZ, hS, hN, _, hW, h0⟩ := mWord_fields (op := op) (g := 0) (fn := 0) (d := d) (a := a) (b := 0)
    (mf := 0) (rf := 0) (zp := 0) (sh := 0) (ni := 1) (sp := sp) (wd := wd) (by omega) (by decide) (by decide) (by omega) (by omega)
    (by decide) (by decide) (by decide) (by decide) (by decide) (by decide) (by omega) (by omega)
  generalize mWord op 0 0 d a 0 0 0 0 0 1 sp wd = y at *
  have hw : wd = 0 ∨ wd = 1 ∨ wd = 2 ∨ wd = 3 := by omega
  refine ⟨hO, ?_, ?_, ?_, hD, ?_, hA, hN⟩
  · simp [encUni, hG, hF, hD, hA, hB, hS, hN, hW, h0, okU, firstBad, hd, ha, Nat.le_succ_of_le hwd]
  · simp [fmtRaw, hM, hR, hZ, hW, hw, firstBad]
  · rw [isUni, hO]; rcases hop with rfl | rfl <;> rfl
  · rw [memWidth, hM, hW]; rfl

section
variable {s : State} {cell : BitVec 10} {slot : BitVec 4} {d a wd y : Nat}

theorem execLdu_accepts (h : UniformWord 0x32 d a wd y) (hs : s.stands cell.toNat slot.toNat y false false = true) :
    exec (.ldu cell slot) s = .next (s.memStep cell.toNat slot.toNat y) :=
  congrArg Host.Outcome.next (issue_stands hs (isOp_eq h.opcode) h.enc (fun h => by cases h) rfl h.fmt)

theorem execStu_accepts (h : UniformWord 0x33 d a wd y) (hs : s.stands cell.toNat slot.toNat y false false = true) :
    exec (.stu cell slot) s = .next (s.memStep cell.toNat slot.toNat y) :=
  congrArg Host.Outcome.next (issue_stands hs (isOp_eq h.opcode) h.enc (fun h => by cases h) rfl h.fmt)

/-- R150: the one access of a uniform instruction whose address is local. -/
theorem UniformWord.accs {op id o : Nat} (h : UniformWord op d a wd y) (w : Swarm) (ht : targetOf id y (w.ureg a) = .loc o) :
    w.accs id y = localAccs [0] (fun _ => w.ureg a) fun _ => o := by
  have hlt : w.ureg a % 2 ^ 64 = w.ureg a := Nat.mod_eq_of_lt (sget 0 w.u a).isLt
  simp only [Swarm.accs, h.uni, if_true, List.map_cons, List.map_nil, h.noidx, h.base, Nat.add_zero, hlt, ht, localAccs]

end

/-! ### Check 10 -/

section
variable {s : State} {id k x : Nat} {lanes : List Nat} {addr off : Nat → Nat}

/-- R163: aligned accesses of the cell's own memory, in range, without errors and outside replicas, pass check 10. -/
theorem memStep_local (hacc : (s.swarm id k).accs id x = localAccs lanes addr off) (he : (s.cell id).lmErr = [])
    (hr : isLoad x = true ∨ (s.cell id).replicas = []) (ha : isAtom x = false)
    (hin : ∀ i ∈ lanes, off i + memWidth x ≤ 0x180000 ∧ addr i % memWidth x = 0) :
    s.memStep id k x = if isLoad x then s.loadDone id k x [] else s.storeDone id k x [] := by
  have hpast : lanes.filter (fun i => decide (0x180000 < off i + memWidth x)) = [] :=
    List.filter_eq_nil_iff.2 fun i hi => by simpa using (hin i hi).1
  have hodd : lanes.filter (fun i => addr i % memWidth x != 0) = [] :=
    List.filter_eq_nil_iff.2 fun i hi => by simpa using (hin i hi).2
  have hff : firstFail ((s.swarm id k).accs id x) (memChecks x) = none := by rw [hacc, firstFail_localAccs, hpast, hodd]
  have huce : (s.cell id).uceLanes x ((s.swarm id k).accs id x) = [] := by simp [CellMem.uceLanes, he, sget]
  have hrep : isLoad x = false → (locOf ((s.swarm id k).accs id x)).filter (fun e => (s.cell id).inReplica e.2 (memWidth x)) = [] :=
    fun hl => List.filter_eq_nil_iff.2 fun e _ => by simp [CellMem.inReplica, hr.resolve_left (by simp [hl])]
  rw [memStep_covered hff (by rw [hacc, extOf_localAccs, List.map_nil]) rfl rfl]
  unfold State.memPerform
  cases hl : isLoad x with
  | true => simp [coverDescs, huce, ha]
  | false => simp [coverDescs, huce, ha, hrep hl]

end

end Sys2Proof.Machine
end

section
/-! PROOFS (O18). LD and LDU from local memory (R92, R117, R120, R150, R151). -/
namespace Sys2Proof.Machine

/-! ### A load performs -/

section
variable {s : State} {id k x : Nat} {lanes : List Nat} {addr off : Nat → Nat}

/-- The swarm after the lanes listed have loaded their bytes. -/
def Swarm.loads (w : Swarm) (x : Nat) (lanes : List Nat) (got : Nat → Bytes) : Swarm :=
  lanes.foldl (fun w i => (w.loadLane x i (got i)).1) w

theorem foldl_lmTouch_clean {α : Type} (he : (s.cell id).lmErr = []) (o : α → Nat) (n : Nat) (l : List α) :
    l.foldl (fun s e => s.lmTouch id (o e) n) s = s := by
  induction l with
  | nil => rfl
  | cons e l ih => rw [List.foldl_cons, lmTouch_clean _ _ _ _ fun w _ => by rw [he]; rfl, ih]

/-- R120, R151: a load of local memory without errors writes its lanes, raises its conversions' events and commits. -/
theorem loadDone_local (hacc : (s.swarm id k).accs id x = localAccs lanes addr off) (he : (s.cell id).lmErr = [])
    (hm : (s.swarm id k).mem = none) {w : Swarm}
    (hw : (s.swarm id k).loads x lanes (fun i => (s.cell id).read (off i) (memWidth x)) = w)
    (h1 : w.asyncFaults = []) (h2 : w.parkReq = none) :
    SwarmTo s (s.loadDone id k x []) id k (w.advance none) ∧ KeepsRegs s (s.loadDone id k x []) (s.phys id) := by
  have hp := passes_eventsOnly s id ((locOf ((s.swarm id k).accs id x)).map (·.2)) (memWidth x)
  have hpk := keepsRegs_passes s id ((locOf ((s.swarm id k).accs id x)).map (·.2)) (memWidth x)
  unfold State.loadDone
  simp only [foldl_lmTouch_clean he]
  generalize s.passes id ((locOf ((s.swarm id k).accs id x)).map (·.2)) (memWidth x) = t at hp hpk ⊢
  rw [hp.cell]
  generalize hgot : (fun a : LaneAcc => match a.target with
    | .loc off => (s.cell id).read off (memWidth x)
    | _ => sget [] [] a.lane) = got
  have hcv : EventsOnly t (((s.swarm id k).accs id x).foldl
      (fun s' a => s'.laneConv id k ((s.swarm id k).loadLane x a.lane (got a)).2) t) :=
    .foldl (fun s' a => laneConv_eventsOnly s' id k _) _ t
  have hck := foldl_laneConv_keepsRegs t id k (fun a => ((s.swarm id k).loadLane x a.lane (got a)).2) ((s.swarm id k).accs id x)
  rw [hp.phys] at hck
  have hload : ((s.swarm id k).accs id x).foldl (fun w a => (w.loadLane x a.lane (got a)).1) { s.swarm id k with mem := none } = w := by
    have hmem : ({ s.swarm id k with mem := none } : Swarm) = s.swarm id k := by rw [← hm]
    rw [hmem, hacc, ← hw, localAccs, List.foldl_map, ← hgot]
    rfl
  have hto := (((hp.trans hcv).swarmTo id k).modSwarm fun w =>
    ((s.swarm id k).accs id x).foldl (fun w a => (w.loadLane x a.lane (got a)).1) { w with mem := none })
  rw [hload] at hto
  have hkr := (hpk.trans hck).trans (KeepsRegs.of_regs (t := State.modSwarm _ id k fun w =>
    ((s.swarm id k).accs id x).foldl (fun w a => (w.loadLane x a.lane (got a)).1) { w with mem := none }) rfl)
  subst hgot
  exact ⟨hto.commit h1 h2, hto.commit_keepsRegs hkr h1 h2⟩

/-! ### The lanes -/

theorem loadLane_uniform (h : isUni x = true) (w : Swarm) (i : Nat) (b : Bytes) : (w.loadLane x i b).1 = w.setU (wD x) (leNat b) := by
  rw [Swarm.loadLane, if_pos h]

end

/-- R151: the value that a loaded element gives its lane: RAW data, or the converted element. -/
def loadedVal (mf rf zp v : Nat) : Nat :=
  if mf = 0 then v else (Fmt.ofCode mf).elim 0 fun m => (Fmt.ofCode rf).elim 0 fun f => (convert m f (zpField m zp) 0 v).out

section
variable {x : Nat}

theorem ofCode_of_mem {m : Nat} (h : m ∈ memFmts) : ∃ f, Fmt.ofCode m = some f := by
  have hall : ∀ m ∈ memFmts, (Fmt.ofCode m).isSome = true := by decide
  exact Option.isSome_iff_exists.1 (hall m h)

theorem memFmts_of_regFmts {m : Nat} (h : m ∈ regFmts) : m ∈ memFmts := by
  have hall : ∀ m ∈ regFmts, m ∈ memFmts := by decide
  exact hall m h

theorem memRegs_typed (h : mMfmt x ≠ 0) : memRegs x = 1 := by simp [memRegs, h]

/-- R151: a lane takes its value, register by register, lowest first. -/
theorem loadLane_eq (hu : isUni x = false) (hm : mMfmt x ∈ memFmts) (hr : mRfmt x ∈ regFmts) (w : Swarm) (i : Nat) (b : Bytes) :
    (w.loadLane x i b).1 = w.setFetched (wD x) (memRegs x) i (loadedVal (mMfmt x) (mRfmt x) (mZp x) (leNat b)) := by
  obtain ⟨m, hm⟩ := ofCode_of_mem hm
  obtain ⟨f, hf⟩ := ofCode_of_mem (memFmts_of_regFmts hr)
  unfold Swarm.loadLane
  rw [hu, hm, hf]
  by_cases h0 : mMfmt x = 0
  · simp [h0, loadedVal, Swarm.setFetched]
  · simp [h0, loadedVal, Swarm.setFetched, memRegs_typed h0, hm, hf]

end

section
variable {s : State} {id k x : Nat} {lanes : List Nat} {off : Nat → Nat}

theorem loads_onlyLanes (hu : isUni x = false) (hm : mMfmt x ∈ memFmts) (hr : mRfmt x ∈ regFmts) (w : Swarm) (lanes : List Nat)
    (got : Nat → Bytes) : w.OnlyLanes (w.loads x lanes got) :=
  .foldl (fun w i => loadLane_eq hu hm hr w i (got i) ▸ setFetched_onlyLanes ..) lanes w

theorem loads_vreg (hu : isUni x = false) (hm : mMfmt x ∈ memFmts) (hr : mRfmt x ∈ regFmts) (w : Swarm) {lanes : List Nat}
    (hl : ∀ i ∈ lanes, i < 32) (got : Nat → Bytes) {r i : Nat} (hi : i < 32) : (w.loads x lanes got).vreg r i =
      if i ∈ lanes ∧ wD x ≤ r ∧ r < wD x + memRegs x then
        loadedVal (mMfmt x) (mRfmt x) (mZp x) (leNat (got i)) / 2 ^ (32 * (r - wD x)) % 2 ^ 32
      else w.vreg r i := by
  unfold Swarm.loads
  simp only [loadLane_eq hu hm hr]
  exact foldl_setFetched_vreg (wD x) (memRegs x) (fun i => loadedVal (mMfmt x) (mRfmt x) (mZp x) (leNat (got i))) hl w hi

end

section
variable {s : State} {cell : BitVec 10} {slot : BitVec 4} {g d a b mf rf zp sh ni x : Nat} {off : Nat → Nat}

/-- R150, R151: what an LD of local memory does. -/
theorem ld_local (hx : (s.swarm cell.toNat slot.toNat).LaneWord 0x30 g d a b mf rf zp sh ni x)
    (hs : s.stands cell.toNat slot.toNat x false false = true) (he : (s.cell cell.toNat).lmErr = []) :
    let id := cell.toNat
    let k := slot.toNat
    let w := s.swarm id k
    let on := fun i => i < 32 ∧ bitAt (w.preg g) i = true
    (∀ i, on i → targetOf id x (w.laneAddr a b sh ni i) = .loc (off i) ∧ off i + memWidth x ≤ 0x180000 ∧
      w.laneAddr a b sh ni i % memWidth x = 0) →
    ∃ t, exec (.ld cell slot) s = .next t ∧ KeepsBytes s t ∧ KeepsSwarms s t id k ∧ KeepsRegs s t (s.phys id) ∧ t.pkts = s.pkts ∧
      t.swarm id k = { w.advance none with v := (t.swarm id k).v } ∧
      ∀ r i, i < 32 → (t.swarm id k).vreg r i =
        if ¬ on i then w.vreg r i
        else if mf = 0 then
          (if d ≤ r ∧ r < d + memRegs x then s.lmNat (s.phys id) (off i) (memWidth x) / 2 ^ (32 * (r - d)) % 2 ^ 32 else w.vreg r i)
        else if r = d then ((Fmt.ofCode mf).elim 0 fun m => (Fmt.ofCode rf).elim 0 fun f =>
          (convert m f (zpField m zp) 0 (s.lmNat (s.phys id) (off i) (memWidth x))).out) % 2 ^ 32
        else w.vreg r i := by
  intro id k w on ht
  have hu := hx.isUni (.inl rfl)
  have hacc := hx.accs (.inl rfl) (id := id) (off := off) fun i hi hon => (ht i ⟨hi, hon⟩).1
  have hmem := hx.mem_active
  have hload : isLoad x = true := by rw [isLoad, hx.opcode]; rfl
  have hm : mMfmt x ∈ memFmts := hx.memFmt ▸ hx.inMem
  have hr : mRfmt x ∈ regFmts := hx.regFmt ▸ hx.inReg
  have hstep := memStep_local hacc he (.inl hload) (hx.isAtom (.inl rfl)) fun i hi => (ht i ((hmem i).1 hi)).2
  rw [if_pos hload] at hstep
  have hlanes := loads_onlyLanes hu hm hr w (w.active x) fun i => (s.cell id).read (off i) (memWidth x)
  obtain ⟨h1, h2⟩ := quiet_of_stands hs
  obtain ⟨hto, hregs⟩ := loadDone_local hacc he (mem_of_stands hs) rfl (by rw [hlanes]; exact h1) (by rw [hlanes]; exact h2)
  refine ⟨_, (execLd_accepts hx hs).trans (congrArg _ hstep), hto.bytes, hto.swarms, hregs, hto.pkts, ?_, fun r i hi => ?_⟩
  · rw [hto.swarm]
    exact hlanes.advance none
  · rw [hto.swarm, vreg_advance, loads_vreg hu hm hr w (fun i hi => ((hmem i).1 hi).1) _ hi, hx.data, hx.memFmt, hx.regFmt, hx.zero,
      leNat_read]
    by_cases hon : on i
    · have hin := (hmem i).2 hon
      rw [if_neg (not_not.2 hon)]
      by_cases h0 : mf = 0
      · simp only [hin, true_and, loadedVal, if_pos h0]
        rfl
      · simp only [hin, true_and, loadedVal, if_neg h0, memRegs_typed (hx.memFmt ▸ h0)]
        by_cases hrd : r = d
        · subst hrd
          simp only [Nat.le_refl, Nat.lt_succ_self, and_self, if_true, Nat.sub_self, Nat.mul_zero, Nat.pow_zero, Nat.div_one]
          rfl
        · rw [if_neg (by omega), if_neg hrd]
    · rw [if_neg fun h => hon ((hmem i).1 h.1), if_pos hon]

/-- R150: what an LDU of local memory does. -/
theorem ldu_local {wd y o : Nat} (hy : UniformWord 0x32 d a wd y) (hs : s.stands cell.toNat slot.toNat y false false = true)
    (he : (s.cell cell.toNat).lmErr = []) :
    let id := cell.toNat
    let k := slot.toNat
    let w := s.swarm id k
    targetOf id y (w.ureg a) = .loc o → o + 2 ^ wd ≤ 0x180000 → w.ureg a % 2 ^ wd = 0 →
    ∃ t, exec (.ldu cell slot) s = .next t ∧ KeepsBytes s t ∧ KeepsSwarms s t id k ∧ KeepsRegs s t (s.phys id) ∧ t.pkts = s.pkts ∧
      t.swarm id k = (w.advance none).setU d (s.lmNat (s.phys id) o (2 ^ wd)) := by
  intro id k w ht hin hal
  have hload : isLoad y = true := by rw [isLoad, hy.opcode]; rfl
  have hstep := memStep_local (hy.accs w ht) he (.inl hload) (by rw [isAtom, hy.opcode]; rfl) fun i _ => by
    rw [hy.width]; exact ⟨hin, hal⟩
  rw [if_pos hload] at hstep
  have hw : w.loads y [0] (fun _ => (s.cell id).read o (memWidth y)) = w.setU d (s.lmNat (s.phys id) o (2 ^ wd)) := by
    rw [hy.width, ← leNat_read, ← hy.data]
    exact loadLane_uniform hy.uni w 0 _
  obtain ⟨h1, h2⟩ := quiet_of_stands hs
  obtain ⟨hto, hregs⟩ := loadDone_local (hy.accs w ht) he (mem_of_stands hs) hw h1 h2
  refine ⟨_, (execLdu_accepts hy hs).trans (congrArg _ hstep), hto.bytes, hto.swarms, hregs, hto.pkts, ?_⟩
  rw [hto.swarm]
  unfold Swarm.setU
  rw [advance_u, advance_keeps_u]

end

/-- Settles O18: the lanes, or the uniform register, take what was read, and the instruction commits. -/
theorem localLoads : Obligations.LocalLoads := by
  unfold Obligations.LocalLoads
  intro s cell slot g d a b mf rf zp sh ni sp wd off id k w x n addr got on hg ha hsh hni hsp hwd hzp he
  exact ⟨fun hm hr hraw hz hw hb hal hl hs ht =>
      ld_local (laneWord (by decide) hg ha hsh hni hsp hwd hzp hm hr hraw hz hw hb hal hl) hs he ht,
    fun hwd hd hs ht hin hal => ldu_local (uniformWord (.inl rfl) hd ha hsp hwd) hs he ht hin hal⟩

end Sys2Proof.Machine
end

section
/-! PROOFS (O19). ST and STU into local memory (R92, R93, R100, R117, R120, R150, R151). -/
namespace Sys2Proof.Machine

/-! ### Several writes in order -/

section
variable {α : Type} [DecidableEq α] {d : α} {lanes : List Nat} {off : Nat → Nat} {bs : Nat → List α} {c : Nat}

/-- Runs of values written in turn. -/
def writesOf (d : α) (lanes : List Nat) (off : Nat → Nat) (bs : Nat → List α) (m : Sparse α) : Sparse α :=
  lanes.foldl (fun m i => ssetN d m (off i) (bs i)) m

theorem sget_writesOf_out (h : ∀ i ∈ lanes, ¬ (off i ≤ c ∧ c < off i + (bs i).length)) (m : Sparse α) :
    sget d (writesOf d lanes off bs m) c = sget d m c := by
  induction lanes generalizing m with
  | nil => rfl
  | cons i lanes ih =>
    have hi := h i (.head _)
    rw [writesOf, List.foldl_cons]
    refine (ih (fun j hj => h j (.tail _ hj)) _).trans ?_
    rw [sget_ssetN]
    split
    · next hle => rw [List.getElem?_eq_none (by omega)]; rfl
    · rfl

/-- Of the writes that cover a place, the last one's value stays. -/
theorem sget_writesOf_last (hl : lanes.Pairwise (· < ·)) {i : Nat} (hi : i ∈ lanes) {j : Nat} (hj : j < (bs i).length)
    (h : ∀ i' ∈ lanes, i < i' → ¬ (off i' ≤ off i + j ∧ off i + j < off i' + (bs i').length)) (m : Sparse α) :
    sget d (writesOf d lanes off bs m) (off i + j) = (bs i)[j] := by
  obtain ⟨before, after, rfl⟩ := List.append_of_mem hi
  have hlt : ∀ i' ∈ after, i < i' := (List.pairwise_cons.1 (List.pairwise_append.1 hl).2.1).1
  rw [writesOf, List.foldl_append, List.foldl_cons]
  refine (sget_writesOf_out (fun i' hi' => h i' (by simp [hi']) (hlt i' hi')) _).trans ?_
  rw [sget_ssetN, if_pos (Nat.le_add_right ..), Nat.add_sub_cancel_left, List.getElem?_eq_getElem hj]
  rfl

end

section
variable {s : State} {id : Nat} {lanes : List Nat} {off : Nat → Nat} {bs : Nat → Bytes} {p c : Nat}

/-- R93, R288: several stores correct errors, and then write their bytes in order. -/
theorem lmByte_lmStores_writes (s : State) (id : Nat) (lanes : List Nat) (off : Nat → Nat) (bs : Nat → Bytes) :
    ∃ u, SameBytes s u ∧ ∀ p c, (s.lmStores id (lanes.map fun i => (off i, bs i))).lmByte p c =
      if p = s.phys id then sget 0 (writesOf 0 lanes off bs (sget {} u.cells p).lm) c else s.lmByte p c := by
  have hu : ∃ u, SameBytes s u ∧ s.lmStores id (lanes.map fun i => (off i, bs i)) =
      u.modCell id fun c => (lanes.map fun i => (off i, bs i)).foldl (fun c e => { c with lm := ssetN 0 c.lm e.1 e.2 }) c := by
    refine ⟨_, .foldl (fun s w => ?_) _ s, rfl⟩
    split
    · exact .modCell s id fun _ => rfl
    · exact s.lmTouch_sameBytes ..
  obtain ⟨u, hu, he⟩ := hu
  refine ⟨u, hu, fun p c => ?_⟩
  rw [he, ← hu.lm p c, ← hu.phys id]
  simp only [foldl_ssetN_lm]
  simp only [State.lmByte, State.modCell, sget_smod, List.foldl_map, writesOf]
  split
  · next hp => rw [hp]
  · rfl

/-- R93: a byte outside the stores stays. -/
theorem lmByte_lmStores_outside (h : p ≠ s.phys id ∨ ∀ i ∈ lanes, ¬ (off i ≤ c ∧ c < off i + (bs i).length)) :
    (s.lmStores id (lanes.map fun i => (off i, bs i))).lmByte p c = s.lmByte p c := by
  obtain ⟨u, hu, he⟩ := lmByte_lmStores_writes s id lanes off bs
  rw [he]
  split
  · next hp =>
    rw [sget_writesOf_out (h.resolve_left fun hn => hn hp)]
    exact hu.lm p c
  · rfl

/-- R100: where stores overlap, the last one's byte stays. -/
theorem lmByte_lmStores_last (hl : lanes.Pairwise (· < ·)) {i : Nat} (hi : i ∈ lanes) {j : Nat} (hj : j < (bs i).length)
    (h : ∀ i' ∈ lanes, i < i' → ¬ (off i' ≤ off i + j ∧ off i + j < off i' + (bs i').length)) :
    (s.lmStores id (lanes.map fun i => (off i, bs i))).lmByte (s.phys id) (off i + j) = (bs i)[j] := by
  obtain ⟨u, _, he⟩ := lmByte_lmStores_writes s id lanes off bs
  rw [he, if_pos rfl, sget_writesOf_last hl hi hj h]

end

/-! ### A store performs -/

/-- From `s` to `t` a store of the bytes `bs` of the lanes listed has performed (R100, R120). -/
structure Stored (s t : State) (id k n : Nat) (lanes : List Nat) (off : Nat → Nat) (bs : Nat → Bytes) : Prop where
  swarms : KeepsSwarms s t id k
  regs : KeepsRegs s t (s.phys id)
  pkts : t.pkts = s.pkts
  swarm : t.swarm id k = (s.swarm id k).advance none
  hbm : t.hbm = s.hbm
  host : t.host.mem = s.host.mem
  rest : ∀ p c, p ≠ s.phys id ∨ (∀ i ∈ lanes, ¬ (off i ≤ c ∧ c < off i + n)) → t.lmByte p c = s.lmByte p c
  last : ∀ i ∈ lanes, ∀ j, j < n → (∀ i' ∈ lanes, i < i' → ¬ (off i' ≤ off i + j ∧ off i + j < off i' + n)) →
    t.lmByte (s.phys id) (off i + j) = (bs i).getD j 0

section
variable {s : State} {id k x : Nat} {lanes : List Nat} {addr off : Nat → Nat}

/-- R120, R151: a store into local memory without errors writes its lanes' bytes, raises its conversions' events and commits. -/
theorem storeDone_local (hacc : (s.swarm id k).accs id x = localAccs lanes addr off) (he : (s.cell id).lmErr = [])
    (hm : (s.swarm id k).mem = none) (h1 : (s.swarm id k).asyncFaults = []) (h2 : (s.swarm id k).parkReq = none)
    (hl : lanes.Pairwise (· < ·)) (hlen : ∀ i ∈ lanes, ((s.swarm id k).storeLane x i).1.length = memWidth x) :
    Stored s (s.storeDone id k x []) id k (memWidth x) lanes off fun i => ((s.swarm id k).storeLane x i).1 := by
  have hp := passes_eventsOnly s id ((locOf ((s.swarm id k).accs id x)).map (·.2)) (memWidth x)
  have hpk := keepsRegs_passes s id ((locOf ((s.swarm id k).accs id x)).map (·.2)) (memWidth x)
  have hloc : (locOf ((s.swarm id k).accs id x)).map (fun e => (e.2, ((s.swarm id k).storeLane x e.1.lane).1)) =
      lanes.map fun i => (off i, ((s.swarm id k).storeLane x i).1) := by
    rw [hacc, locOf_localAccs, List.map_map]; rfl
  have hrem : remOf ((s.swarm id k).accs id x) = [] := by rw [hacc, remOf_localAccs]
  unfold State.storeDone
  simp only [hloc, hrem]
  generalize s.passes id ((locOf ((s.swarm id k).accs id x)).map (·.2)) (memWidth x) = t at hp hpk ⊢
  have hc : EventsOnly t (((s.swarm id k).accs id x).foldl
      (fun s' a => s'.laneConv id k ((s.swarm id k).storeLane x a.lane).2) t) :=
    .foldl (fun s' a => laneConv_eventsOnly s' id k _) _ t
  have hck := foldl_laneConv_keepsRegs t id k (fun a => ((s.swarm id k).storeLane x a.lane).2) ((s.swarm id k).accs id x)
  rw [hp.phys] at hck
  have hev := hp.trans hc
  have hreg := hpk.trans hck
  generalize ((s.swarm id k).accs id x).foldl (fun s' a => s'.laneConv id k ((s.swarm id k).storeLane x a.lane).2) t = t' at hev hreg ⊢
  have hst := lmStores_storesOnly (by rw [hev.cell]; exact he) (lanes.map fun i => (off i, ((s.swarm id k).storeLane x i).1)) (s := t')
  have hout : ∀ p c, p ≠ s.phys id ∨ (∀ i ∈ lanes, ¬ (off i ≤ c ∧ c < off i + memWidth x)) →
      (t'.lmStores id (lanes.map fun i => (off i, ((s.swarm id k).storeLane x i).1))).lmByte p c = s.lmByte p c := fun p c h => by
    rw [lmByte_lmStores_outside, hev.bytes.lm]
    rw [hev.phys]
    exact h.imp_right fun h i hi => by rw [hlen i hi]; exact h i hi
  have hlast := fun i hi j (hj : j < memWidth x) h => lmByte_lmStores_last (s := t') (id := id) (off := off)
    (bs := fun i => ((s.swarm id k).storeLane x i).1) hl (i := i) hi (j := j) (by rw [hlen i hi]; exact hj) h
  generalize t'.lmStores id (lanes.map fun i => (off i, ((s.swarm id k).storeLane x i).1)) = u at hst hout hlast ⊢
  have hsw : ∀ i j, u.swarm i j = s.swarm i j := fun i j => (hst.swarms i j).trans (hev.swarm i j)
  have hph : ∀ i, u.phys i = s.phys i := fun i => by rw [← hev.phys i, hst.state]; rfl
  have hcm : (u.modSwarm id k fun w => { w with mem := none }).commit id k =
      u.modSwarm id k fun w => ({ w with mem := none } : Swarm).advance none :=
    commit_modSwarm u id k _ (by rw [hsw]; exact h1) (by rw [hsw]; exact h2)
  show Stored s ((u.modSwarm id k fun w => { w with mem := none }).commit id k) _ _ _ _ _ _
  rw [hcm]
  refine ⟨fun i j h => ?_, ?_, ?_, ?_, ?_, ?_, fun p c h => ?_, fun i hi j hj h => ?_⟩
  · rw [swarm_modSwarm, hph, hph, if_neg fun hc => h.elim (· hc.1) (· hc.2), hsw]
  · exact hreg.trans (.of_regs (by rw [hst.state]; rfl))
  · rw [← hev.pkts, hst.state]; rfl
  · rw [swarm_modSwarm_same, hsw, ← hm]
  · rw [← hev.hbm, hst.state]; rfl
  · rw [← hev.host, hst.state]; rfl
  · rw [lmByte_modSwarm]
    exact hout p c h
  · rw [lmByte_modSwarm, ← hev.phys id, hlast i hi j hj fun i' hi' hlt => by rw [hlen i' hi']; exact h i' hi' hlt]
    exact (List.getD_eq_getElem _ _ _).symm

end

/-! ### The bytes -/

theorem storeLane_uniform {x : Nat} (h : isUni x = true) (w : Swarm) (i : Nat) :
    (w.storeLane x i).1 = leBytes (memWidth x) (w.ureg (wD x)) := by
  rw [Swarm.storeLane, if_pos h]

/-- R151: the number whose bytes a lane stores: RAW registers joined, or the converted element. -/
def Swarm.storedVal (w : Swarm) (x mf rf zp d i : Nat) : Nat :=
  if mf = 0 then w.joined d (memRegs x) i
  else (Fmt.ofCode mf).elim 0 fun m => (Fmt.ofCode rf).elim 0 fun f => (convert f m 0 (zpField m zp) (w.vreg d i)).out

theorem storeLane_eq {x : Nat} (hu : isUni x = false) (hm : mMfmt x ∈ memFmts) (hr : mRfmt x ∈ regFmts) (w : Swarm) (i : Nat) :
    (w.storeLane x i).1 = leBytes (memWidth x) (w.storedVal x (mMfmt x) (mRfmt x) (mZp x) (wD x) i) := by
  obtain ⟨m, hm⟩ := ofCode_of_mem hm
  obtain ⟨f, hf⟩ := ofCode_of_mem (memFmts_of_regFmts hr)
  unfold Swarm.storeLane
  rw [hu, hm, hf]
  by_cases h0 : mMfmt x = 0
  · simp [h0, Swarm.storedVal]
  · simp [h0, Swarm.storedVal, hm, hf]

theorem leBytes_getD (n v : Nat) {j : Nat} (h : j < n) : (leBytes n v).getD j 0 = BitVec.ofNat 8 (v / 256 ^ j) := by
  induction n generalizing v j with
  | zero => cases h
  | succ n ih =>
    cases j with
    | zero => simp [leBytes]
    | succ j => rw [leBytes, List.getD_cons_succ, ih _ (by omega), Nat.div_div_eq_div_mul, Nat.pow_succ']

/-- What stands above a byte does not change it. -/
theorem byte_add_high {j k : Nat} (h : j < k) (a b : Nat) : (a + 256 ^ k * b) / 256 ^ j % 256 = a / 256 ^ j % 256 := by
  obtain ⟨m, rfl⟩ := Nat.exists_eq_add_of_lt h
  rw [show 256 ^ (j + m + 1) * b = 256 ^ j * (256 * (256 ^ m * b)) by ring, Nat.add_mul_div_left _ _ (Nat.pow_pos (by decide)),
    Nat.add_mul_mod_self_left]

/-- Four lane registers joined. -/
def Swarm.fourRegs (w : Swarm) (d i : Nat) : Nat :=
  w.vreg d i + 2 ^ 32 * w.vreg (d + 1) i + 2 ^ 64 * w.vreg (d + 2) i + 2 ^ 96 * w.vreg (d + 3) i

theorem fourRegs_one (w : Swarm) (d i : Nat) : w.fourRegs d i =
    w.joined d 1 i + 256 ^ 4 * (w.vreg (d + 1) i + 2 ^ 32 * w.vreg (d + 2) i + 2 ^ 64 * w.vreg (d + 3) i) := by
  rw [joined_one, Swarm.fourRegs]
  generalize w.vreg d i = a0, w.vreg (d + 1) i = a1, w.vreg (d + 2) i = a2, w.vreg (d + 3) i = a3
  omega

theorem fourRegs_two (w : Swarm) (d i : Nat) : w.fourRegs d i =
    w.joined d 2 i + 256 ^ 8 * (w.vreg (d + 2) i + 2 ^ 32 * w.vreg (d + 3) i) := by
  rw [joined_two, Swarm.fourRegs]
  generalize w.vreg d i = a0, w.vreg (d + 1) i = a1, w.vreg (d + 2) i = a2, w.vreg (d + 3) i = a3
  omega

theorem fourRegs_four (w : Swarm) (d i : Nat) : w.fourRegs d i = w.joined d 4 i := by
  simp [Swarm.joined, Swarm.fourRegs, total, List.range_succ, Nat.mul_comm]

/-- R151: a RAW access of up to 4 bytes names one register, one of 8 bytes two, one of 16 bytes four. -/
theorem memRegs_cases {x : Nat} (hm : mMfmt x = 0) (hw : mW x ≤ 4) :
    (memRegs x = 1 ∧ memWidth x ≤ 4) ∨ (memRegs x = 2 ∧ memWidth x ≤ 8) ∨ memRegs x = 4 := by
  have hn : memWidth x = 2 ^ mW x := by rw [memWidth, hm]; rfl
  rw [memRegs_raw hm, hn]
  generalize mW x = v at *
  interval_cases v <;> decide

/-- R151: the bytes of a RAW store come from the registers that DATA names alone. -/
theorem joined_byte {x : Nat} (hm : mMfmt x = 0) (hw : mW x ≤ 4) (w : Swarm) (d i : Nat) {j : Nat} (hj : j < memWidth x) :
    w.joined d (memRegs x) i / 256 ^ j % 256 = w.fourRegs d i / 256 ^ j % 256 := by
  obtain ⟨h, hn⟩ | ⟨h, hn⟩ | h := memRegs_cases hm hw
  · rw [h, fourRegs_one, byte_add_high (Nat.lt_of_lt_of_le hj hn)]
  · rw [h, fourRegs_two, byte_add_high (Nat.lt_of_lt_of_le hj hn)]
  · rw [h, fourRegs_four]

section
variable {s : State} {cell : BitVec 10} {slot : BitVec 4} {g d a b mf rf zp sh ni x : Nat} {off : Nat → Nat}

/-- R150, R151: what an ST into local memory does. -/
theorem st_local (hx : (s.swarm cell.toNat slot.toNat).LaneWord 0x31 g d a b mf rf zp sh ni x)
    (hs : s.stands cell.toNat slot.toNat x false false = true) (he : (s.cell cell.toNat).lmErr = [])
    (hrep : (s.cell cell.toNat).replicas = []) :
    let id := cell.toNat
    let k := slot.toNat
    let w := s.swarm id k
    let n := memWidth x
    let val := fun i => if mf = 0 then w.vreg d i + 2 ^ 32 * w.vreg (d + 1) i + 2 ^ 64 * w.vreg (d + 2) i + 2 ^ 96 * w.vreg (d + 3) i
      else (Fmt.ofCode mf).elim 0 fun m => (Fmt.ofCode rf).elim 0 fun f => (convert f m 0 (zpField m zp) (w.vreg d i)).out
    let on := fun i => i < 32 ∧ bitAt (w.preg g) i = true
    let in' := fun i c => off i ≤ c ∧ c < off i + n
    (∀ i, on i → targetOf id x (w.laneAddr a b sh ni i) = .loc (off i) ∧ off i + n ≤ 0x180000 ∧ w.laneAddr a b sh ni i % n = 0) →
    ∃ t, exec (.st cell slot) s = .next t ∧ KeepsSwarms s t id k ∧ KeepsRegs s t (s.phys id) ∧ t.pkts = s.pkts ∧
      t.swarm id k = w.advance none ∧ t.hbm = s.hbm ∧ t.host.mem = s.host.mem ∧
      (∀ p c, p ≠ s.phys id ∨ (∀ i, on i → ¬ in' i c) → t.lmByte p c = s.lmByte p c) ∧
      ∀ i j, on i → j < n → (∀ i', i < i' → on i' → ¬ in' i' (off i + j)) →
        t.lmByte (s.phys id) (off i + j) = BitVec.ofNat 8 (val i / 256 ^ j) := by
  intro id k w n val on in' ht
  have hu := hx.isUni (.inr rfl)
  have hacc := hx.accs (.inr rfl) (id := id) (off := off) fun i hi hon => (ht i ⟨hi, hon⟩).1
  have hmem := hx.mem_active
  have hload : isLoad x = false := by rw [isLoad, hx.opcode]; rfl
  have hbytes := storeLane_eq hu (hx.memFmt ▸ hx.inMem) (hx.regFmt ▸ hx.inReg) w
  have hstep := memStep_local hacc he (.inr hrep) (hx.isAtom (.inr rfl)) fun i hi => (ht i ((hmem i).1 hi)).2
  rw [if_neg (by rw [hload]; decide)] at hstep
  obtain ⟨h1, h2⟩ := quiet_of_stands hs
  have hst := storeDone_local hacc he (mem_of_stands hs) h1 h2 (List.pairwise_lt_range.filter _) fun i _ => by
    rw [hbytes, leBytes_length]
  refine ⟨_, (execSt_accepts hx hs).trans (congrArg _ hstep), hst.swarms, hst.regs, hst.pkts, hst.swarm, hst.hbm, hst.host,
    fun p c h => hst.rest p c (h.imp_right fun h i hi => h i ((hmem i).1 hi)), fun i j hon hj h => ?_⟩
  rw [hst.last i ((hmem i).2 hon) j hj fun i' hi' hlt => h i' hlt ((hmem i').1 hi'), hbytes, leBytes_getD _ _ hj, hx.memFmt, hx.regFmt,
    hx.zero, hx.data]
  by_cases h0 : mf = 0
  · simp only [Swarm.storedVal, val, if_pos h0]
    exact BitVec.eq_of_toNat_eq (joined_byte (hx.memFmt.trans h0) hx.width w d i hj)
  · simp only [Swarm.storedVal, val, if_neg h0]

/-- R150: what an STU into local memory does. -/
theorem stu_local {wd y o : Nat} (hy : UniformWord 0x33 d a wd y) (hs : s.stands cell.toNat slot.toNat y false false = true)
    (he : (s.cell cell.toNat).lmErr = []) (hrep : (s.cell cell.toNat).replicas = []) :
    let id := cell.toNat
    let k := slot.toNat
    let w := s.swarm id k
    targetOf id y (w.ureg a) = .loc o → o + 2 ^ wd ≤ 0x180000 → w.ureg a % 2 ^ wd = 0 →
    ∃ t, exec (.stu cell slot) s = .next t ∧ KeepsSwarms s t id k ∧ KeepsRegs s t (s.phys id) ∧ t.pkts = s.pkts ∧
      t.swarm id k = w.advance none ∧ t.hbm = s.hbm ∧ t.host.mem = s.host.mem ∧
      (∀ p c, p ≠ s.phys id ∨ c < o ∨ o + 2 ^ wd ≤ c → t.lmByte p c = s.lmByte p c) ∧
      ∀ j, j < 2 ^ wd → t.lmByte (s.phys id) (o + j) = BitVec.ofNat 8 (w.ureg d / 256 ^ j) := by
  intro id k w ht hin hal
  have hload : isLoad y = false := by rw [isLoad, hy.opcode]; rfl
  have hbytes := fun i => storeLane_uniform hy.uni w i
  have hstep := memStep_local (hy.accs w ht) he (.inr hrep) (by rw [isAtom, hy.opcode]; rfl) fun i _ => by
    rw [hy.width]; exact ⟨hin, hal⟩
  rw [if_neg (by rw [hload]; decide)] at hstep
  obtain ⟨h1, h2⟩ := quiet_of_stands hs
  have hst := storeDone_local (hy.accs w ht) he (mem_of_stands hs) h1 h2 (List.pairwise_singleton ..) fun i _ => by
    rw [hbytes, leBytes_length]
  refine ⟨_, (execStu_accepts hy hs).trans (congrArg _ hstep), hst.swarms, hst.regs, hst.pkts, hst.swarm, hst.hbm, hst.host,
    fun p c h => hst.rest p c (h.imp_right fun h i _ => by rw [hy.width]; omega), fun j hj => ?_⟩
  have hj' : j < memWidth y := hy.width ▸ hj
  rw [hst.last 0 (.head _) j hj' fun i' hi' hlt => by simp_all, hbytes, leBytes_getD _ _ hj', hy.data]

end

/-- Settles O19: the stores are written in ascending lane order, and the instruction commits. -/
theorem localStores : Obligations.LocalStores := by
  unfold Obligations.LocalStores
  intro s cell slot g d a b mf rf zp sh ni sp wd off id k w x n addr val on in' hg ha hsh hni hsp hwd hzp he hrep
  exact ⟨fun hm hr hraw hz hw hb hal hl hs ht =>
      st_local (laneWord (by decide) hg ha hsh hni hsp hwd hzp hm hr hraw hz hw hb hal hl) hs he hrep ht,
    fun hwd hd hs ht hin hal => stu_local (uniformWord (.inr rfl) hd ha hsp hwd) hs he hrep ht hin hal⟩

end Sys2Proof.Machine
end

section
/-! PROOFS (O33). SFU, SOFTMAX and RMSNORM (R155, R205, R213, R216 to R218). -/
namespace Sys2Proof.Machine

/-! ### The words -/

/-- R134, R213: the fields of an SFU word. -/
structure SfuWord (fn g d a b c sub fmt x : Nat) : Prop where
  opcode : wOp x = 0x40
  guard : wGuard x = g
  func : wFn x = fn
  dest : wD x = d
  arg : wA x = a
  row : wB x = b
  count : wC x = c
  sub : sfSub x = sub
  fmt : sfFmt x = fmt
  low : bits x 0 8 = 0

theorem sfuWord {fn g d a b c sub fmt : Nat} (hg : g < 8) (hfn : fn < 32) (hd : d < 256) (ha : a < 256) (hb : b < 256) (hc : c < 256)
    (hsub : sub < 16) (hfmt : fmt < 16) :
    SfuWord fn g d a b c sub fmt (rWord 0x40 g fn d a b c + fmt * 2 ^ 12 + sub * 2 ^ 8) := by
  constructor <;> simp only [wOp, wGuard, wFn, wD, wA, wB, wC, sfSub, sfFmt, rWord, bits_eq] <;> omega

section
variable {fn g d a b c sub fmt x : Nat}

/-- R136, R213: the forms of an SFU word, with the fields each of them uses. -/
inductive SfuForm : Nat → Nat → Nat → Nat → Nat → Prop where
  | lookup {fn d c : Nat} (hfn : fn ≤ 5) (tab : fn = 5 → c < 16) (other : fn ≠ 5 → c = 0) : SfuForm fn d 0 c 0
  | softmax {d b : Nat} (hb : b < 64) : SfuForm 6 d b 0 0
  | apply {d b c : Nat} (hb : b < 64) (hc : c < 64) : SfuForm 7 d b c 0
  | accum {b sub : Nat} (hb : b < 64) (hs : sub = 1 ∨ sub = 2) : SfuForm 7 0 b 0 sub

/-- R136: an SFU word of one of the forms passes check 1. -/
theorem SfuWord.enc (h : SfuWord fn g d a b c sub fmt x) (hf : SfuForm fn d b c sub) : firstBad (encSfu x) = none := by
  rw [firstBad_none_iff]
  simp only [encSfu, h.func, h.row, h.count, h.sub, h.dest, h.low, List.mem_cons, List.not_mem_nil, or_false, forall_eq_or_imp, forall_eq,
    okU, okZ]
  cases hf with
  | lookup hfn tab other =>
    have h6 : fn ≠ 6 := by omega
    have h7 : fn ≠ 7 := by omega
    by_cases h5 : fn = 5
    · simp [h5, Nat.le_of_lt_succ (tab h5)]
    · simp [h5, h6, h7, other h5]
      omega
  | softmax hb => simp [hb]
  | apply hb hc => simp [hb, hc]
  | accum hb hs => rcases hs with rfl | rfl <;> simp [hb]

/-- R163: its lane registers. -/
theorem SfuWord.regs (h : SfuWord fn g d a b c sub fmt x) {w : Swarm} (hd : w.holds [d, a] = true ∨ (fn = 7 ∧ sub ≠ 0 ∧ w.holds [a] = true)) :
    pastV w.V (regsSfu x) = none := by
  unfold regsSfu
  rw [h.func, h.sub, h.dest, h.arg]
  rcases hd with hd | ⟨rfl, hs, ha⟩
  · have hd' : w.holds [a, d] = true := by
      rw [Swarm.holds_cons, Swarm.holds_cons] at hd ⊢
      exact ⟨hd.2.1, hd.1, hd.2.2⟩
    split_ifs with h1 h2
    · exact Swarm.holds_pastV hd
    · exact Swarm.holds_pastV hd'
    · exact Swarm.holds_pastV (Swarm.holds_cons.1 hd).2
  · rw [if_neg (by decide), if_neg (by simpa using hs)]
    exact Swarm.holds_pastV ha

/-- R155: its format. -/
theorem SfuWord.fmtOk (h : SfuWord fn g d a b c sub fmt x) (hf : fmt ∈ [1, 2, 3, 10, 11, 12]) : firstBad (fmtSfu x) = none := by
  rw [firstBad_none_iff]
  simp only [fmtSfu, h.fmt, List.mem_singleton, forall_eq]
  exact List.contains_iff_mem.2 hf

theorem SfuWord.sfF (h : SfuWord fn g d a b c sub fmt x) {f : Fmt} (hf : Fmt.ofCode fmt = some f) : sfF x = f := by
  rw [Machine.sfF, h.fmt, hf]; rfl

end

/-! ### The active lanes -/

section
variable {s t u : State} {id k x : Nat} {w : Swarm}

/-- R117: each lane of a list takes its value, with events between. -/
theorem foldl_lanes {f : State → Nat → State} {d : Nat} {v : Nat → Nat}
    (hf : ∀ t w i, SwarmTo s t id k w → SwarmTo s (f t i) id k (w.setV d i (v i))) (l : List Nat) {t : State} {w : Swarm}
    (h : SwarmTo s t id k w) : SwarmTo s (l.foldl f t) id k (w.mapLanes l d v) := by
  induction l generalizing t w with
  | nil => exact h
  | cons i l ih => exact ih (hf t w i h)

/-- R117, R120: what an instruction leaves that writes the active lanes of one register and commits. -/
theorem SwarmTo.commit_lanes (d : Nat) (v : Nat → Nat) {g : Nat} (hg : wGuard x = g) (hs : s.stands id k x false false = true)
    (h : SwarmTo s t id k ((s.swarm id k).mapLanes ((s.swarm id k).active x) d v)) :
    let w := s.swarm id k
    let u := t.commit id k
    (KeepsSwarms s u id k ∧ u.pkts = s.pkts ∧ u.hbm = s.hbm ∧ u.host.mem = s.host.mem) ∧ KeepsBytes s u ∧
      u.swarm id k = { w.advance none with v := (u.swarm id k).v } ∧
      ∀ n i, i < 32 → (u.swarm id k).vreg n i = if n = d ∧ bitAt (w.preg g) i = true then v i % 2 ^ 32 else w.vreg n i := by
  intro w u
  have hl : w.OnlyLanes (w.mapLanes (w.active x) d v) := mapLanes_fields ..
  obtain ⟨h1, h2⟩ := quiet_of_stands hs
  have hu := h.commit (by rw [hl]; exact h1) (by rw [hl]; exact h2)
  refine ⟨⟨hu.swarms, hu.pkts, hu.hbm, congrArg _ hu.host⟩, hu.bytes, ?_, fun n i hi => ?_⟩
  · rw [hu.swarm]
    exact hl.advance none
  · rw [hu.swarm, vreg_advance, vreg_mapLanes _ _ _ _ _ _ (fun j hj => ((mem_active ..).1 hj).1) hi]
    simp only [mem_active, hg, hi, true_and]
    rfl

/-- R216, R218: the active lanes scaled by a value. -/
theorem scaleLanes_swarmTo (r : Val) (h : EventsOnly s t) : SwarmTo s (t.scaleLanes id k x r) id k
    ((s.swarm id k).mapLanes ((s.swarm id k).active x) (wD x) fun i => (encode (sfF x) 0 (((s.swarm id k).sfArg x i).mul r)).out) := by
  unfold State.scaleLanes
  rw [h.swarm]
  refine foldl_lanes (fun t w i ht => ?_) _ (h.swarmTo id k)
  exact SwarmTo.modSwarm (ht.events (laneConv_eventsOnly t id k _)) fun w => w.setV (wD x) i _

/-- R155, R206: the active lanes looked up in the tables. -/
theorem sfuLanes_swarmTo (h : (s.cell id).tabCmd = none) : SwarmTo s (s.sfuLanes id k x) id k
    ((s.swarm id k).mapLanes ((s.swarm id k).active x) (wD x) fun i =>
      (encode (sfF x) 0 (tabLookup (s.cell id).tables (s.cell id).tableRam (sfSlot x) ((s.swarm id k).sfArg x i)).1).out) := by
  unfold State.sfuLanes
  refine foldl_lanes (fun t w i ht => ?_) _ (.refl s id k)
  have h1 : (t.cell id).tabCmd = none := (ht.field (·.tabCmd) fun _ _ => rfl).trans h
  have h2 : (t.cell id).tables = (s.cell id).tables := ht.field (·.tables) fun _ _ => rfl
  have h3 : (t.cell id).tableRam = (s.cell id).tableRam := ht.field (·.tableRam) fun _ _ => rfl
  simp only [State.laneLookup, State.tabView, h1, h2, h3]
  refine SwarmTo.modSwarm ?_ fun w => w.setV (wD x) i _
  split
  · exact (ht.events (laneConv_eventsOnly ..)).events (fnSat_eventsOnly ..)
  · exact ht.events (laneConv_eventsOnly ..)

end

end Sys2Proof.Machine
end

section
/-! PROOFS (O33). The row operations on their records, and the instructions (R213, R216 to R218). -/
namespace Sys2Proof.Machine

/-! ### Records -/

section
variable {s : State} {id k x : Nat}

/-- R213, R288: a row operation whose checks pass goes on. -/
theorem rowOp_passes {badCount write reads : Bool} {f : State → State} (he : (s.cell id).lmErr = [])
    (ho : (s.swarm id k).ureg (wB x) % 8 = 0 ∧ (s.swarm id k).ureg (wB x) ≤ 0x17FF80) (hc : badCount = false)
    (hr : write = true → (s.cell id).inReplica ((s.swarm id k).ureg (wB x)) 96 = false) :
    s.rowOp id k x badCount write reads f = f s := by
  have hrec : badRec ((s.swarm id k).ureg (wB x)) = false := by simp [badRec, ho]
  have hrep : (write && (s.cell id).inReplica ((s.swarm id k).ureg (wB x)) 96) = false := by
    cases write with
    | false => rfl
    | true => rw [hr rfl]; rfl
  have huce : (s.cell id).uce ((s.swarm id k).ureg (wB x)) 96 = false := uce_clean _ _ _ fun w _ => by rw [he]; rfl
  have htouch : s.lmTouch id ((s.swarm id k).ureg (wB x)) 96 = s := lmTouch_clean _ _ _ _ fun w _ => by rw [he]; rfl
  simp [State.rowOp, hrec, hc, hrep, huce, htouch]

/-- R217: the squares of the active lanes join a quire in lane order. -/
theorem addSquares_eq (w : Swarm) (x : Nat) (q : Quire) :
    w.addSquares x q = q.addAll ((w.active x).map fun i => (w.sfArg x i).mul (w.sfArg x i)) := by
  rw [Quire.addAll, List.foldl_map]; rfl

theorem CellMem.read_modSwarm (c : CellMem) (k o n : Nat) (f : Swarm → Swarm) : (c.modSwarm k f).read o n = c.read o n := rfl

theorem modSwarm_others (s : State) (id k : Nat) (f : Swarm → Swarm) :
    (s.modSwarm id k f).pkts = s.pkts ∧ (s.modSwarm id k f).hbm = s.hbm ∧ (s.modSwarm id k f).host.mem = s.host.mem := by
  unfold State.modSwarm State.modCell
  exact ⟨rfl, rfl, rfl⟩

/-- What an instruction leaves that writes a record and no register (R217). -/
def RecordTakes (s t : State) (id k off : Nat) (r : Quire) : Prop :=
  (KeepsSwarms s t id k ∧ t.pkts = s.pkts ∧ t.hbm = s.hbm ∧ t.host.mem = s.host.mem) ∧
    t.swarm id k = (s.swarm id k).advance none ∧ (t.cell id).read off 96 = r.toRecord ∧
    ∀ p o, p ≠ s.phys id ∨ o < off ∨ off + 96 ≤ o → t.lmByte p o = s.lmByte p o

/-- R217: a record is written, and the instruction commits. -/
theorem record_effect (he : (s.cell id).lmErr = []) (hq : (s.swarm id k).asyncFaults = [] ∧ (s.swarm id k).parkReq = none)
    (off : Nat) (r : Quire) :
    RecordTakes s ((s.lmStores id [(off, r.toRecord)]).commit id k) id k off r := by
  have hst := lmStores_storesOnly he [(off, r.toRecord)]
  have hread := s.read_lmStores id off (bs := r.toRecord) (a := 0) (n := 96) (Quire.toRecord_length r).ge
  have hout := fun p o => s.lmByte_lmStores_out id off r.toRecord (p := p) (o := o)
  obtain ⟨hcm, hsw, hw⟩ := commit_frame hst.swarms (State.phys_lmStores s id off r.toRecord) hq
  rw [Quire.toRecord_length] at hout
  rw [List.drop_zero, List.take_of_length_le (Quire.toRecord_length r).le, Nat.add_zero] at hread
  generalize s.lmStores id [(off, r.toRecord)] = u at *
  have hpk : u.pkts = s.pkts := by rw [hst.state]
  have hhbm : u.hbm = s.hbm := by rw [hst.state]
  have hhost : u.host.mem = s.host.mem := by rw [hst.state]
  rw [hcm] at hsw hw ⊢
  obtain ⟨ppk, phbm, phost⟩ := modSwarm_others u id k fun w => w.advance none
  refine ⟨⟨hsw, ppk.trans hpk, phbm.trans hhbm, phost.trans hhost⟩, hw, ?_, fun p o h => ?_⟩
  · rw [State.modSwarm, cell_modCell_same, CellMem.read_modSwarm]
    exact hread
  · rw [lmByte_modSwarm]
    exact hout p o h

end

/-! ### The instructions -/

section
variable {s : State} {cell : BitVec 10} {slot : BitVec 4} {fn g d a b c sub fmt x : Nat} {f : Fmt}

/-- An event that is raised or not. -/
theorem when_eventsOnly (s : State) (e : State → State) (c : Bool) (he : ∀ s, EventsOnly s (e s)) :
    EventsOnly s (if c then e s else s) := by
  split
  · exact he s
  · exact .refl s

/-- R216: what a reciprocal of a row sum is where the sum is no number. -/
theorem rowRecip_special : (∀ v, v = .nar ∨ v = .nan → rowRecip v = .nar) ∧ (∀ n, rowRecip (.inf n) = .zero) ∧
    rowRecip .zero = .inf false := by
  refine ⟨fun v h => ?_, fun _ => rfl, by simp [rowRecip, Val.zero, Val.isZero]⟩
  rcases h with rfl | rfl <;> rfl

/-- R136, R163, R213: an SFU word of one of the forms takes its effect. -/
theorem issue_sfu {row : Nat → Bool} {body : State → Nat → State} {id k : Nat} (hx : SfuWord fn g d a b c sub fmt x)
    (hform : SfuForm fn d b c sub) (hfmt : fmt ∈ [1, 2, 3, 10, 11, 12])
    (hregs : (s.swarm id k).holds [d, a] = true ∨ (fn = 7 ∧ sub ≠ 0 ∧ (s.swarm id k).holds [a] = true))
    (hs : s.stands id k x false false = true) (hrow : row x = true) :
    s.issue id k row false false false encSfu regsSfu fmtSfu body = body s x :=
  issue_stands hs hrow (hx.enc hform) (fun h => by cases h) (hx.regs hregs) (hx.fmtOk hfmt)

theorem SfuWord.sfArg (hx : SfuWord fn g d a b c sub fmt x) (hf : Fmt.ofCode fmt = some f) (w : Swarm) (i : Nat) :
    w.sfArg x i = decode f 0 (w.vreg a i) := by rw [Swarm.sfArg, hx.sfF hf, hx.arg]

theorem execSfu_eq (hx : SfuWord fn g d a b c sub fmt x) (hform : SfuForm fn d b c sub) (hfn : fn ≤ 5) (hfmt : fmt ∈ [1, 2, 3, 10, 11, 12])
    (hregs : (s.swarm cell.toNat slot.toNat).holds [d, a] = true) (hs : s.stands cell.toNat slot.toNat x false false = true)
    (hc : (s.cell cell.toNat).tabCmd = none) (ht : (slotHead (s.cell cell.toNat).tables (sfSlot x)).isSome = true) :
    exec (.sfu cell slot) s = .next ((s.sfuLanes cell.toNat slot.toNat x).commit cell.toNat slot.toNat) := by
  refine congrArg Host.Outcome.next ((issue_sfu hx hform hfmt (.inl hregs) hs ?_).trans ?_)
  · simp [isOp, hx.opcode, hx.func, hfn]
  · simp only [State.tabView, hc]
    rw [if_neg]
    simpa using Option.isSome_iff_ne_none.1 ht

theorem execSoftmax_eq (hx : SfuWord 6 g d a b 0 0 fmt x) (hb : b < 64) (hfmt : fmt ∈ [1, 2, 3, 10, 11, 12])
    (hregs : (s.swarm cell.toNat slot.toNat).holds [d, a] = true) (hs : s.stands cell.toNat slot.toNat x false false = true)
    (he : (s.cell cell.toNat).lmErr = [])
    (ho : (s.swarm cell.toNat slot.toNat).ureg b % 8 = 0 ∧ (s.swarm cell.toNat slot.toNat).ureg b ≤ 0x17FF80) :
    ∃ u, EventsOnly s u ∧ exec (.softmax cell slot) s = .next ((u.scaleLanes cell.toNat slot.toNat x
      (rowRecip ((s.cell cell.toNat).quireAt ((s.swarm cell.toNat slot.toNat).ureg b)).read.1)).commit cell.toNat slot.toNat) := by
  have hpass := fun f => rowOp_passes (x := x) (badCount := false) (write := false) (reads := true) (f := f) he (hx.row ▸ ho) rfl
    fun h => by cases h
  generalize hq : (s.cell cell.toNat).quireAt ((s.swarm cell.toNat slot.toNat).ureg b) = q
  have h1 := when_eventsOnly s (fun s => s.qovf cell.toNat slot.toNat) q.read.2 (qovf_eventsOnly · _ _)
  have h2 := when_eventsOnly (if q.read.2 then s.qovf cell.toNat slot.toNat else s) (fun s => s.smSat cell.toNat slot.toNat) q.smsat (smSat_eventsOnly · _ _)
  refine ⟨_, h1.trans h2, congrArg Host.Outcome.next ((issue_sfu hx (.softmax hb) hfmt (.inl hregs) hs
    (by simp [isOp, hx.opcode, hx.func])).trans ((hpass _).trans ?_))⟩
  rw [hx.row, hq]

theorem execRmsnormApply_eq (hx : SfuWord 7 g d a b c 0 fmt x) (hb : b < 64) (hc : c < 64) (hfmt : fmt ∈ [1, 2, 3, 10, 11, 12])
    (hregs : (s.swarm cell.toNat slot.toNat).holds [d, a] = true) (hs : s.stands cell.toNat slot.toNat x false false = true)
    (he : (s.cell cell.toNat).lmErr = [])
    (ho : (s.swarm cell.toNat slot.toNat).ureg b % 8 = 0 ∧ (s.swarm cell.toNat slot.toNat).ureg b ≤ 0x17FF80)
    (hn : bits ((s.swarm cell.toNat slot.toNat).ureg c) 0 32 ≠ 0) :
    ∃ u, EventsOnly s u ∧ exec (.rmsnormApply cell slot) s = .next ((u.scaleLanes cell.toNat slot.toNat x
      (tabLookup [] [] 2 (rmsMean ((s.cell cell.toNat).quireAt ((s.swarm cell.toNat slot.toNat).ureg b)).read.1
        (bits ((s.swarm cell.toNat slot.toNat).ureg c) 0 32)
        (positDec 32 (bits ((s.swarm cell.toNat slot.toNat).ureg c) 32 32)))).1).commit cell.toNat slot.toNat) := by
  have hpass := fun f => rowOp_passes (x := x) (badCount := bits ((s.swarm cell.toNat slot.toNat).ureg c) 0 32 == 0) (write := false) (reads := true) (f := f) he
    (hx.row ▸ ho) (beq_eq_false_iff_ne.2 hn) fun h => by cases h
  generalize hq : (s.cell cell.toNat).quireAt ((s.swarm cell.toNat slot.toNat).ureg b) = q
  have h1 := when_eventsOnly s (fun s => s.qovf cell.toNat slot.toNat) q.read.2 (qovf_eventsOnly · _ _)
  refine ⟨_, h1, congrArg Host.Outcome.next ((issue_sfu hx (.apply hb hc) hfmt (.inl hregs) hs
    (by simp [isRms, isOp, hx.opcode, hx.func, hx.sub])).trans ?_)⟩
  simp only [hx.count, hx.row]
  exact (hpass _).trans (by rw [hq])

/-- R163: ACCUM_FIRST and ACCUM judge the register that they read alone. -/
theorem rms_regs {w : Swarm} (h : w.holds [a] = true) {sub : Nat} (hs : sub ≠ 0) :
    w.holds [0, a] = true ∨ (7 = 7 ∧ sub ≠ 0 ∧ w.holds [a] = true) := .inr ⟨rfl, hs, h⟩

/-- The squares of the active lanes of a register in a format (R217). -/
def Swarm.squares (w : Swarm) (g a : Nat) (f : Fmt) : List Val :=
  ((List.range 32).filter fun i => bitAt (w.preg g) i).map fun i => (decode f 0 (w.vreg a i)).mul (decode f 0 (w.vreg a i))

theorem SfuWord.addSquares_eq (hx : SfuWord fn g d a b c sub fmt x) (hf : Fmt.ofCode fmt = some f) (w : Swarm) (q : Quire) :
    w.addSquares x q = q.addAll (w.squares g a f) := by
  rw [Machine.addSquares_eq, Swarm.active, hx.guard]
  simp only [hx.sfArg hf]
  rfl

theorem execRmsnormAccumFirst_record (hx : SfuWord 7 g 0 a b 0 1 fmt x) (hf : Fmt.ofCode fmt = some f) (hb : b < 64) (hfmt : fmt ∈ [1, 2, 3, 10, 11, 12])
    (hregs : (s.swarm cell.toNat slot.toNat).holds [a] = true) (hs : s.stands cell.toNat slot.toNat x false false = true)
    (he : (s.cell cell.toNat).lmErr = [])
    (ho : (s.swarm cell.toNat slot.toNat).ureg b % 8 = 0 ∧ (s.swarm cell.toNat slot.toNat).ureg b ≤ 0x17FF80)
    (hr : (s.cell cell.toNat).inReplica ((s.swarm cell.toNat slot.toNat).ureg b) 96 = false) :
    ∃ t, exec (.rmsnormAccumFirst cell slot) s = .next t ∧
      RecordTakes s t cell.toNat slot.toNat ((s.swarm cell.toNat slot.toNat).ureg b)
        (Quire.addAll {} ((s.swarm cell.toNat slot.toNat).squares g a f)) := by
  rw [← hx.addSquares_eq hf]
  refine ⟨_, congrArg Host.Outcome.next ((issue_sfu hx (.accum hb (.inl rfl)) hfmt (rms_regs hregs (by decide)) hs
    (by simp [isRms, isOp, hx.opcode, hx.func, hx.sub])).trans ((rowOp_passes he (hx.row ▸ ho) rfl fun _ => hx.row ▸ hr).trans ?_)),
    record_effect he (quiet_of_stands hs) _ _⟩
  rw [hx.row]

theorem execRmsnormAccum_record (hx : SfuWord 7 g 0 a b 0 2 fmt x) (hf : Fmt.ofCode fmt = some f) (hb : b < 64) (hfmt : fmt ∈ [1, 2, 3, 10, 11, 12])
    (hregs : (s.swarm cell.toNat slot.toNat).holds [a] = true) (hs : s.stands cell.toNat slot.toNat x false false = true)
    (he : (s.cell cell.toNat).lmErr = [])
    (ho : (s.swarm cell.toNat slot.toNat).ureg b % 8 = 0 ∧ (s.swarm cell.toNat slot.toNat).ureg b ≤ 0x17FF80)
    (hr : (s.cell cell.toNat).inReplica ((s.swarm cell.toNat slot.toNat).ureg b) 96 = false)
    (hact : (s.swarm cell.toNat slot.toNat).squares g a f ≠ []) :
    ∃ t, exec (.rmsnormAccum cell slot) s = .next t ∧
      RecordTakes s t cell.toNat slot.toNat ((s.swarm cell.toNat slot.toNat).ureg b)
        (((s.cell cell.toNat).quireAt ((s.swarm cell.toNat slot.toNat).ureg b)).addAll
          ((s.swarm cell.toNat slot.toNat).squares g a f)) := by
  have hact : (s.swarm cell.toNat slot.toNat).active x ≠ [] := fun h0 => hact (by
    rw [Swarm.active, hx.guard] at h0
    exact congrArg (List.map _) h0)
  rw [← hx.addSquares_eq hf]
  refine ⟨_, congrArg Host.Outcome.next ((issue_sfu hx (.accum hb (.inr rfl)) hfmt (rms_regs hregs (by decide)) hs
    (by simp [isRms, isOp, hx.opcode, hx.func, hx.sub])).trans ((rowOp_passes he (hx.row ▸ ho) rfl fun _ => hx.row ▸ hr).trans ?_)),
    record_effect he (quiet_of_stands hs) _ _⟩
  rw [hx.row]
  exact if_neg (by simpa using hact)

end

section
variable {s : State} {cell : BitVec 10} {slot : BitVec 4} {fn g d a b c sub fmt x : Nat} {f : Fmt}

/-- What an instruction leaves that writes the active lanes of `d` with values rounded to a format. -/
def LanesTake (s t : State) (id k g d : Nat) (f : Fmt) (v : Nat → Val) : Prop :=
  let w := s.swarm id k
  (KeepsSwarms s t id k ∧ t.pkts = s.pkts ∧ t.hbm = s.hbm ∧ t.host.mem = s.host.mem) ∧ KeepsBytes s t ∧
    t.swarm id k = { w.advance none with v := (t.swarm id k).v } ∧
    ∀ n i, i < 32 → (t.swarm id k).vreg n i = if n = d ∧ bitAt (w.preg g) i = true then (encode f 0 (v i)).out % 2 ^ 32 else w.vreg n i

theorem sfu_lanes (hx : SfuWord fn g d a b c sub fmt x) (hform : SfuForm fn d b c sub) (hfn : fn ≤ 5) (hfmt : fmt ∈ [1, 2, 3, 10, 11, 12])
    (hf : Fmt.ofCode fmt = some f) (hregs : (s.swarm cell.toNat slot.toNat).holds [d, a] = true)
    (hs : s.stands cell.toNat slot.toNat x false false = true) (hc : (s.cell cell.toNat).tabCmd = none)
    (ht : (slotHead (s.cell cell.toNat).tables (sfSlot x)).isSome = true) :
    ∃ t, exec (.sfu cell slot) s = .next t ∧ LanesTake s t cell.toNat slot.toNat g d f fun i =>
      (tabLookup (s.cell cell.toNat).tables (s.cell cell.toNat).tableRam (sfSlot x)
        (decode f 0 ((s.swarm cell.toNat slot.toNat).vreg a i))).1 := by
  have h := sfuLanes_swarmTo (x := x) (k := slot.toNat) hc
  simp only [hx.dest, hx.sfF hf, hx.sfArg hf] at h
  exact ⟨_, execSfu_eq hx hform hfn hfmt hregs hs hc ht, h.commit_lanes _ _ hx.guard hs⟩

theorem scaled_lanes (hx : SfuWord fn g d a b c sub fmt x) (hf : Fmt.ofCode fmt = some f) {i : Instr} {r : Val}
    (hs : s.stands cell.toNat slot.toNat x false false = true)
    (h : ∃ u, EventsOnly s u ∧ exec i s = .next ((u.scaleLanes cell.toNat slot.toNat x r).commit cell.toNat slot.toNat)) :
    ∃ t, exec i s = .next t ∧ LanesTake s t cell.toNat slot.toNat g d f fun i =>
      (decode f 0 ((s.swarm cell.toNat slot.toNat).vreg a i)).mul r := by
  obtain ⟨u, hu, he⟩ := h
  have ht := scaleLanes_swarmTo (x := x) (k := slot.toNat) (id := cell.toNat) r hu
  simp only [hx.dest, hx.sfF hf, hx.sfArg hf] at ht
  exact ⟨_, he, ht.commit_lanes _ _ hx.guard hs⟩

end

section
variable {s : State} {cell : BitVec 10} {slot : BitVec 4} {g d a b c fmt x : Nat} {f : Fmt}

theorem softmax_lanes (hx : SfuWord 6 g d a b 0 0 fmt x) (hf : Fmt.ofCode fmt = some f) (hb : b < 64) (hfmt : fmt ∈ [1, 2, 3, 10, 11, 12])
    (hregs : (s.swarm cell.toNat slot.toNat).holds [d, a] = true) (hs : s.stands cell.toNat slot.toNat x false false = true)
    (he : (s.cell cell.toNat).lmErr = [])
    (ho : (s.swarm cell.toNat slot.toNat).ureg b % 8 = 0 ∧ (s.swarm cell.toNat slot.toNat).ureg b ≤ 0x17FF80) :
    ∃ t, exec (.softmax cell slot) s = .next t ∧ LanesTake s t cell.toNat slot.toNat g d f fun i =>
      (decode f 0 ((s.swarm cell.toNat slot.toNat).vreg a i)).mul
        (rowRecip ((s.cell cell.toNat).quireAt ((s.swarm cell.toNat slot.toNat).ureg b)).read.1) :=
  scaled_lanes hx hf hs (execSoftmax_eq hx hb hfmt hregs hs he ho)

theorem rmsnormApply_lanes (hx : SfuWord 7 g d a b c 0 fmt x) (hf : Fmt.ofCode fmt = some f) (hb : b < 64) (hc : c < 64)
    (hfmt : fmt ∈ [1, 2, 3, 10, 11, 12])
    (hregs : (s.swarm cell.toNat slot.toNat).holds [d, a] = true) (hs : s.stands cell.toNat slot.toNat x false false = true)
    (he : (s.cell cell.toNat).lmErr = [])
    (ho : (s.swarm cell.toNat slot.toNat).ureg b % 8 = 0 ∧ (s.swarm cell.toNat slot.toNat).ureg b ≤ 0x17FF80)
    (hn : bits ((s.swarm cell.toNat slot.toNat).ureg c) 0 32 ≠ 0) :
    ∃ t, exec (.rmsnormApply cell slot) s = .next t ∧ LanesTake s t cell.toNat slot.toNat g d f fun i =>
      (decode f 0 ((s.swarm cell.toNat slot.toNat).vreg a i)).mul
        (tabLookup [] [] 2 (rmsMean ((s.cell cell.toNat).quireAt ((s.swarm cell.toNat slot.toNat).ureg b)).read.1
          (bits ((s.swarm cell.toNat slot.toNat).ureg c) 0 32)
          (positDec 32 (bits ((s.swarm cell.toNat slot.toNat).ureg c) 32 32)))).1 :=
  scaled_lanes hx hf hs (execRmsnormApply_eq hx hb hc hfmt hregs hs he ho hn)

end

/-- Settles O33: the active lanes take their values one after the other, or the record takes the quire, with events beside. -/
theorem specialFunctions : Obligations.SpecialFunctions := by
  unfold Obligations.SpecialFunctions
  intro s cell slot fn g d a b c sub fmt f id k w x off q on arg squares others lanes record hg hfmt hf he
  have hcode : fmt < 16 := by
    have hall : ∀ m ∈ [1, 2, 3, 10, 11, 12], m < 16 := by decide
    exact hall fmt hfmt
  have hword : ∀ {fn d b c sub : Nat}, fn < 32 → w.holds [d, a] = true → b < 64 → c < 64 → sub < 16 →
      SfuWord fn g d a b c sub fmt (rWord 0x40 g fn d a b c + fmt * 2 ^ 12 + sub * 2 ^ 8) := fun hfn hh hb hc hsub => by
    obtain ⟨hd, ha⟩ := Swarm.holds_cons.1 hh
    exact sfuWord hg hfn hd.2 (Swarm.holds_cons.1 ha).1.2 (by omega) (by omega) hsub hcode
  have hnorm : ∀ {sub : Nat}, w.holds [a] = true → b < 64 → sub < 16 →
      SfuWord 7 g 0 a b 0 sub fmt (rWord 0x40 g 7 0 a b 0 + fmt * 2 ^ 12 + sub * 2 ^ 8) := fun hh hb hsub =>
    sfuWord hg (by decide) (by decide) (Swarm.holds_cons.1 hh).1.2 (by omega) (by decide) hsub hcode
  refine ⟨?lookup, fun h8 hmax hb => ⟨?softmax, ?first, ?accum, ?apply⟩, rowRecip_special⟩
  case lookup =>
    rintro hfn rfl rfl htab hother hh hs hcmd hslot
    have hc : c < 64 := by by_cases h5 : fn = 5 <;> omega
    exact sfu_lanes (hword (by omega) hh (by decide) hc (by decide)) (.lookup hfn htab hother) hfn hfmt hf hh hs hcmd hslot
  case softmax =>
    rintro rfl rfl rfl hh hs
    have hx := hword (fn := 6) (c := 0) (sub := 0) (by decide) hh hb (by decide) (by decide)
    exact softmax_lanes hx hf hb hfmt hh hs he ⟨h8, hmax⟩
  case apply =>
    rintro rfl rfl hc hh hs hn
    have hx := hword (fn := 7) (c := c) (sub := 0) (by decide) hh hb hc (by decide)
    exact rmsnormApply_lanes hx hf hb hc hfmt hh hs he ⟨h8, hmax⟩ hn
  case first =>
    rintro rfl rfl rfl rfl hh hs hr
    exact execRmsnormAccumFirst_record (hnorm hh hb (by decide)) hf hb hfmt hh hs he ⟨h8, hmax⟩ hr
  case accum =>
    rintro rfl rfl rfl rfl hh hs hr hne
    exact execRmsnormAccum_record (hnorm hh hb (by decide)) hf hb hfmt hh hs he ⟨h8, hmax⟩ hr hne

end Sys2Proof.Machine
end

section
/-! PROOFS (O32). The encodings of a format fit its width (R57 to R61). -/
namespace Sys2Proof.Machine

/-! ### Posits -/

/-- R57: the regime of a posit is not zero and fits its length. -/
theorem positRegime_bounds (k : Int) : 0 < (if 0 ≤ k then (2 ^ (k.toNat + 1) - 1) * 2 else 1) ∧
    (if 0 ≤ k then (2 ^ (k.toNat + 1) - 1) * 2 else 1) < 2 ^ (if 0 ≤ k then k.toNat + 2 else (-k).toNat + 1) := by
  split
  · have h := Nat.one_lt_two_pow (n := k.toNat + 1) (by omega)
    rw [Nat.pow_succ 2 (k.toNat + 1)]
    omega
  · exact ⟨Nat.one_pos, Nat.one_lt_two_pow (by omega)⟩

/-- R57: the bits of a posit before rounding: regime, two exponent bits and the fraction. -/
theorem positString_bounds {reg rl e fb frac : Nat} (hr : 0 < reg ∧ reg < 2 ^ rl) (he : e < 4) (hf : frac < 2 ^ fb) :
    0 < ((reg * 4 + e) <<< fb) + frac ∧ ((reg * 4 + e) <<< fb) + frac < 2 ^ (rl + 2 + fb) := by
  have hpos : 0 < 2 ^ fb := Nat.two_pow_pos fb
  rw [Nat.shiftLeft_eq]
  constructor
  · have : 0 < (reg * 4 + e) * 2 ^ fb := Nat.mul_pos (by omega) hpos
    omega
  · have h1 : reg * 4 + e + 1 ≤ 2 ^ (rl + 2) := by rw [Nat.pow_add]; omega
    calc (reg * 4 + e) * 2 ^ fb + frac < (reg * 4 + e) * 2 ^ fb + 2 ^ fb := by omega
      _ = (reg * 4 + e + 1) * 2 ^ fb := by rw [Nat.succ_mul]
      _ ≤ 2 ^ (rl + 2) * 2 ^ fb := Nat.mul_le_mul_right _ h1
      _ = 2 ^ (rl + 2 + fb) := by rw [← Nat.pow_add]

/-- A string of `len` bits cut to `n` bits, or padded to them. -/
theorem shiftTo_bounds {str len n : Nat} (h : 0 < str ∧ str < 2 ^ len) :
    (len ≤ n → 0 < str <<< (n - len) ∧ str <<< (n - len) < 2 ^ n) ∧ (¬ len ≤ n → str >>> (len - n) < 2 ^ n) := by
  obtain ⟨h0, h1⟩ := h
  refine ⟨fun hl => ?_, fun hl => ?_⟩
  · rw [Nat.shiftLeft_eq]
    refine ⟨Nat.mul_pos h0 (Nat.two_pow_pos _), ?_⟩
    calc str * 2 ^ (n - len) < 2 ^ len * 2 ^ (n - len) := Nat.mul_lt_mul_of_pos_right h1 (Nat.two_pow_pos _)
      _ = 2 ^ n := by rw [← Nat.pow_add, Nat.add_sub_cancel' hl]
  · rw [Nat.shiftRight_eq_div_pow]
    refine Nat.div_lt_of_lt_mul ?_
    rw [← Nat.pow_add, show len - n + n = len by omega]
    exact h1

/-- R57: the bits below a posit's sign are not all zero, and fit. -/
theorem positMag_bounds {n : Nat} (hn : 2 ≤ n) {sig : Nat} (hsig : sig ≠ 0) (exp : Int) :
    0 < positMag n sig exp ∧ positMag n sig exp < 2 ^ n := by
  obtain ⟨m, rfl⟩ := Nat.exists_eq_add_of_le' hn
  have hpow : 2 ^ (m + 2) = 2 * 2 ^ (m + 1) := Nat.pow_succ'
  have hone : 1 < 2 ^ (m + 1) := Nat.one_lt_two_pow (by omega)
  have hlo : 2 ^ lg sig ≤ sig := Nat.log2_self_le hsig
  have hhi : sig < 2 ^ (lg sig + 1) := Nat.lt_log2_self
  rw [Nat.pow_succ] at hhi
  unfold positMag
  generalize lg sig = fb at hlo hhi ⊢
  dsimp only
  rw [show m + 2 - 1 = m + 1 by omega]
  generalize hk : (exp + (fb : Int)) / 4 = k
  have hstr := positString_bounds (e := (exp + (fb : Int) - 4 * k).toNat) (frac := sig - 2 ^ fb) (fb := fb) (positRegime_bounds k)
    (by omega) (by omega)
  generalize ((if 0 ≤ k then (2 ^ (k.toNat + 1) - 1) * 2 else 1) * 4 + (exp + (fb : Int) - 4 * k).toNat) <<< fb + (sig - 2 ^ fb) = str
    at hstr ⊢
  generalize (if 0 ≤ k then k.toNat + 2 else (-k).toNat + 1) + 2 + fb = len at hstr ⊢
  obtain ⟨hpad, hcut⟩ := shiftTo_bounds (n := m + 1) hstr
  by_cases hl : len ≤ m + 1
  · have := hpad hl
    simp only [if_pos hl]
    split_ifs <;> omega
  · have := hcut hl
    simp only [if_neg hl, beq_iff_eq]
    generalize str >>> (len - (m + 1)) = p at this ⊢
    split_ifs <;> omega

theorem positEnc_lt {n : Nat} (hn : 2 ≤ n) (neg : Bool) (sig : Nat) (exp : Int) : positEnc n neg sig exp < 2 ^ n := by
  have hpos : 0 < 2 ^ n := Nat.two_pow_pos n
  unfold positEnc
  by_cases hs : sig = 0
  · simp [hs]
  · have := positMag_bounds hn hs exp
    simp only [beq_iff_eq, if_neg hs]
    split <;> omega

/-! ### All formats -/

theorem ofI_lt (w : Nat) (x : Int) : ofI w x < 2 ^ w := by
  have hpos : (0 : Int) < 2 ^ w := Int.pow_pos (by decide)
  have h := Int.emod_lt_of_pos x hpos
  have h0 := Int.emod_nonneg x (ne_of_gt hpos)
  unfold ofI
  zify
  rw [Int.toNat_of_nonneg h0]
  exact h

theorem encInt_lt (f : Fmt) (z : Int) (v : Val) : (encInt f z v).out < 2 ^ f.width := by
  unfold encInt
  cases v <;> dsimp only
  case fin =>
    split
    · exact ofI_lt ..
    · split
      · exact ofI_lt ..
      · split <;> exact ofI_lt ..
  all_goals exact ofI_lt ..

/-- The sign, exponent and mantissa bits of an IEEE format fill its width. -/
theorem ieee_width {f : Fmt} (h1 : f.isInt = false) (h2 : f.isPosit = false) (h3 : f ≠ .raw) :
    f.ieee.1 + f.ieee.2.1 + 1 = f.width := by
  cases f <;> simp_all [Fmt.isInt, Fmt.isPosit, Fmt.ieee, Fmt.width]

theorem signed_lt {eb mb m : Nat} (neg : Bool) (hm : m ≤ (2 ^ eb - 1) * 2 ^ mb) :
    (if neg then 2 ^ (eb + mb) else 0) + m < 2 ^ (eb + mb + 1) := by
  have h1 : 0 < 2 ^ mb := Nat.two_pow_pos mb
  have h2 : (2 ^ eb - 1) * 2 ^ mb < 2 ^ (eb + mb) := by
    rw [Nat.pow_add]
    exact Nat.mul_lt_mul_of_pos_right (Nat.sub_lt (Nat.two_pow_pos eb) Nat.one_pos) h1
  rw [Nat.pow_succ]
  split <;> omega

/-- R57 to R61: what a conversion writes fits the format. -/
theorem encode_lt (f : Fmt) (z : Int) (v : Val) : (encode f z v).out < 2 ^ f.width := by
  unfold encode
  by_cases hi : f.isInt
  · rw [if_pos hi]
    exact encInt_lt f z v
  rw [if_neg hi]
  by_cases hp : f.isPosit
  · rw [if_pos hp]
    have hw : 2 ≤ f.width := by cases f <;> simp_all [Fmt.isPosit, Fmt.width]
    have hnar : 2 ^ (f.width - 1) < 2 ^ f.width := Nat.pow_lt_pow_right (by decide) (by omega)
    cases v with
    | fin neg sig exp => exact positEnc_lt hw neg sig exp
    | _ => exact hnar
  rw [if_neg hp]
  by_cases hr : f = .raw
  · subst hr; exact Nat.two_pow_pos 32
  rw [if_neg (by simpa using hr)]
  have hw := ieee_width (by simpa using hi) (by simpa using hp) hr
  have hnan : f.canonicalNan < 2 ^ f.width := by cases f <;> simp_all [Fmt.canonicalNan, Fmt.width, Fmt.isInt, Fmt.isPosit]
  have h43 : ∀ {n : Nat}, f = .e4m3 → n < 2 ^ 8 → n < 2 ^ f.width := fun he hn => by rw [he]; exact hn
  rw [← hw] at hnan h43 ⊢
  generalize f.ieee = e at *
  obtain ⟨eb, mb, bias⟩ := e
  cases v with
  | fin neg sig exp =>
    dsimp only
    by_cases he : f = .e4m3
    · simp only [he, BEq.rfl, if_true]
      split_ifs <;> exact h43 he (by simp_all <;> omega)
    · simp only [beq_eq_false_iff_ne.2 he, Bool.false_eq_true, if_false]
      split
      · exact signed_lt _ (Nat.le_refl _)
      · dsimp only
        split
        · exact Nat.two_pow_pos _
        · exact signed_lt _ (Nat.min_le_right ..)
  | inf neg =>
    dsimp only
    by_cases he : f = .e4m3
    · simp only [he, BEq.rfl, if_true]
      exact h43 he (by decide)
    · simp only [beq_eq_false_iff_ne.2 he, Bool.false_eq_true, if_false]
      exact signed_lt _ (Nat.le_refl _)
  | _ => exact hnan

end Sys2Proof.Machine
end

section
/-! PROOFS (O32). Fragments in lane registers (R179). -/
namespace Sys2Proof.Machine

/-! ### Bytes of numbers -/

/-- Byte `j` of the number that a byte string holds. -/
theorem leNat_byte (l : Bytes) (j : Nat) : leNat l / 256 ^ j % 256 = (l.getD j 0).toNat := by
  induction l generalizing j with
  | nil => simp [leNat]
  | cons b l ih =>
    have hb : b.toNat < 256 := b.isLt
    cases j with
    | zero => rw [leNat, Nat.pow_zero, Nat.div_one, Nat.add_mul_mod_self_left, Nat.mod_eq_of_lt hb]; rfl
    | succ j =>
      rw [leNat, Nat.pow_succ', ← Nat.div_div_eq_div_mul, Nat.add_mul_div_left _ _ (by decide), Nat.div_eq_of_lt hb, Nat.zero_add, ih]
      rfl

theorem slice_getD (bs : Bytes) (off n : Nat) {j : Nat} (h : j < n) : (slice bs off n).getD j 0 = bs.getD (off + j) 0 := by
  have hlen : ((bs.drop off).take n).length = min n (bs.length - off) := by rw [List.length_take, List.length_drop]
  simp only [slice, List.getD_eq_getElem?_getD, zeros]
  by_cases hj : off + j < bs.length
  · rw [List.getElem?_append_left (by omega), List.getElem?_take_of_lt h, List.getElem?_drop]
  · rw [List.getElem?_append_right (by omega), List.getElem?_eq_none (l := bs) (by omega)]
    rw [List.getElem?_replicate]
    split <;> rfl

theorem slice_length (bs : Bytes) (off n : Nat) : (slice bs off n).length = n := by
  simp only [slice, zeros, List.length_append, List.length_replicate, List.length_take]
  omega

theorem fieldLE_byte (bs : Bytes) (off n : Nat) {j : Nat} (h : j < n) :
    fieldLE bs off n / 256 ^ j % 256 = (bs.getD (off + j) 0).toNat := by rw [fieldLE, leNat_byte, slice_getD bs off n h]

/-- A number of `n` bytes is the sum of its bytes. -/
theorem total_bytes (v n : Nat) : total ((List.range n).map fun k => v / 256 ^ k % 256 * 2 ^ (8 * k)) = v % 256 ^ n := by
  induction n with
  | zero => simp [total, Nat.mod_one]
  | succ n ih =>
    have h256 : 2 ^ (8 * n) = 256 ^ n := by rw [Nat.pow_mul]
    rw [List.range_succ, List.map_append, total, List.foldl_append]
    rw [total] at ih
    rw [ih, List.map_singleton, List.foldl_cons, List.foldl_nil, h256, Nat.pow_succ, Nat.mod_mul, Nat.mul_comm (v / 256 ^ n % 256)]

/-! ### A fragment written -/

section
variable (w : Swarm) (base : Nat)

/-- The lanes of consecutive registers written in turn. -/
theorem vreg_foldl_lanes (val : Nat → Nat) (n q : Nat) {l : Nat} (hl : l < 32) :
    ((List.range n).foldl (fun w i => w.setV (base + i / 32) (i % 32) (val i)) w).vreg (base + q) l =
      if 32 * q + l < n then val (32 * q + l) % 2 ^ 32 else w.vreg (base + q) l := by
  induction n with
  | zero => rfl
  | succ n ih =>
    rw [List.range_succ, List.foldl_append, List.foldl_cons, List.foldl_nil, Swarm.vreg_setV _ _ _ _ _ _ (Nat.mod_lt _ (by decide)) hl, ih]
    by_cases h : 32 * q + l = n
    · rw [if_pos (by omega), if_pos (by omega), h]
    · rw [if_neg (by omega)]
      by_cases hn : 32 * q + l < n
      · rw [if_pos hn, if_pos (by omega)]
      · rw [if_neg hn, if_neg (by omega)]

theorem setFrag_onlyLanes (bs : Bytes) : w.OnlyLanes (w.setFrag base bs) :=
  .foldl (f := fun w i => w.setV (base + i / 32) (i % 32) (fieldLE bs (4 * i) 4)) (fun _ _ => rfl) _ w

/-- R179: the bytes of a fragment written are read back. -/
theorem fragByte_setFrag (bs : Bytes) {b : Nat} (hb : b < bs.length) : (w.setFrag base bs).fragByte base b = (bs.getD b 0).toNat := by
  have hlane : 32 * (b / 128) + b % 128 / 4 = b / 4 := by omega
  have hin : b / 4 < cdiv bs.length 128 * 32 := by unfold cdiv; omega
  have hbyte := fieldLE_byte bs (4 * (b / 4)) 4 (j := b % 4) (by omega)
  rw [show 4 * (b / 4) + b % 4 = b by omega] at hbyte
  have hlt : fieldLE bs (4 * (b / 4)) 4 < 2 ^ 32 := by
    have h := leNat_lt (slice bs (4 * (b / 4)) 4)
    rw [slice_length] at h
    exact h
  rw [Swarm.fragByte, Swarm.setFrag, vreg_foldl_lanes w base (fun i => fieldLE bs (4 * i) 4) _ _ (by omega), hlane, if_pos hin,
    Nat.mod_eq_of_lt hlt, bits_eq, ← hbyte, Nat.pow_mul]
  rfl

end

/-! ### The elements of an output fragment -/

/-- Byte `k` of piece `i` of pieces of one length joined. -/
theorem flatMap_getD {α : Type} {f : α → Bytes} {n : Nat} (hf : ∀ x, (f x).length = n) {l : List α} {i k : Nat} {a : α}
    (ha : l[i]? = some a) (hk : k < n) : (l.flatMap f).getD (i * n + k) 0 = (f a).getD k 0 := by
  rw [← take_drop_flatMap_of_const hf ha, List.getD_eq_getElem?_getD, List.getD_eq_getElem?_getD, List.getElem?_take_of_lt hk,
    List.getElem?_drop, Nat.mul_comm]

theorem flatMap_index_lt {n len i k : Nat} (hi : i < len) (hk : k < n) : i * n + k < len * n :=
  calc i * n + k < i * n + n := Nat.add_lt_add_left hk _
    _ = (i + 1) * n := (Nat.succ_mul i n).symm
    _ ≤ len * n := Nat.mul_le_mul_right n hi

/-- Formats of whole bytes. -/
theorem width_bytes {f : Fmt} (h : f.width ≠ 4) : f.width = 8 * (f.width / 8) := by
  cases f <;> simp_all [Fmt.width]

theorem runsOf_two_getElem? {l : List Nat} {i : Nat} (hi : i < l.length) : (runsOf 2 l)[i / 2]? = some ((l.drop (i / 2 * 2)).take 2) := by
  rw [runsOf, List.getElem?_map, List.getElem?_range (by unfold cdiv; omega)]
  rfl

theorem runsOf_two_length (l : List Nat) : (runsOf 2 l).length = cdiv l.length 2 := by simp [runsOf]

/-- A nibble of a byte that packs two. -/
theorem packed_nibble (a b : Nat) {j : Nat} (hj : j < 2) :
    bits ((leBytes 1 (a % 16 + b % 16 * 16)).getD 0 0).toNat (4 * j) 4 = (if j = 0 then a else b) % 16 := by
  have hv : ((leBytes 1 (a % 16 + b % 16 * 16)).getD 0 0).toNat = a % 16 + b % 16 * 16 := by
    rw [leBytes_getD 1 _ Nat.one_pos, Nat.pow_zero, Nat.div_one, BitVec.toNat_ofNat]
    omega
  rw [hv, bits_eq]
  obtain rfl | rfl : j = 0 ∨ j = 1 := by omega
  · simp only [if_true]; omega
  · simp only [Nat.one_ne_zero, if_false]; omega

/-- R179: the elements of a fragment written are read back. -/
theorem fragElem_setFrag (w : Swarm) (base : Nat) (f : Fmt) (l : List Nat) {i : Nat} (hi : i < l.length) :
    (w.setFrag base (fragPack f l)).fragElem base i f = l.getD i 0 % 2 ^ f.width := by
  have hget : l[i]? = some (l.getD i 0) := by rw [List.getD_eq_getElem _ _ hi, List.getElem?_eq_getElem hi]
  unfold Swarm.fragElem
  by_cases h4 : f.width = 4
  · have hpack : fragPack f l = (runsOf 2 l).flatMap fun p => leBytes 1 (p.getD 0 0 % 16 + p.getD 1 0 % 16 * 16) := by
      rw [fragPack, h4]; rfl
    have hlen : i / 2 < (fragPack f l).length := by
      rw [hpack, length_flatMap_of_const fun _ => leBytes_length .., runsOf_two_length]
      unfold cdiv; omega
    have hbyte := flatMap_getD (k := 0) (f := fun p : List Nat => leBytes 1 (p.getD 0 0 % 16 + p.getD 1 0 % 16 * 16))
      (fun _ => leBytes_length ..) (runsOf_two_getElem? hi) Nat.one_pos
    rw [Nat.mul_one, Nat.add_zero, ← hpack] at hbyte
    rw [if_pos (by simp [h4]), fragByte_setFrag w base _ hlen, hbyte, packed_nibble _ _ (Nat.mod_lt _ (by decide)), h4]
    have hsel : (if i % 2 = 0 then ((l.drop (i / 2 * 2)).take 2).getD 0 0 else ((l.drop (i / 2 * 2)).take 2).getD 1 0) = l.getD i 0 := by
      simp only [List.getD_eq_getElem?_getD]
      split
      · rw [List.getElem?_take_of_lt (by decide), List.getElem?_drop, show i / 2 * 2 + 0 = i by omega]
      · rw [List.getElem?_take_of_lt (by decide), List.getElem?_drop, show i / 2 * 2 + 1 = i by omega]
    rw [hsel]
    rfl
  · have hpack : fragPack f l = l.flatMap fun v => leBytes (f.width / 8) v := by
      rw [fragPack, if_neg (by simpa using h4)]
    have hbyte : ∀ k ∈ List.range (f.width / 8), (w.setFrag base (fragPack f l)).fragByte base (i * (f.width / 8) + k) * 2 ^ (8 * k) =
        l.getD i 0 / 256 ^ k % 256 * 2 ^ (8 * k) := fun k hk => by
      have hk := List.mem_range.1 hk
      rw [fragByte_setFrag, hpack, flatMap_getD (fun _ => leBytes_length ..) hget hk, leBytes_getD _ _ hk, BitVec.toNat_ofNat]
      rw [hpack, length_flatMap_of_const fun _ => leBytes_length ..]
      exact flatMap_index_lt hi hk
    rw [if_neg (by simpa using h4), List.map_congr_left hbyte, total_bytes]
    conv_rhs => rw [width_bytes h4, Nat.pow_mul]

end Sys2Proof.Machine
end

section
/-! PROOFS (O32). MXF at a word that passes its checks; ZERO and MMA (R156, R164, R172, R179, R180). -/
namespace Sys2Proof.Machine

/-! ### The words -/

/-- R134, R156: the fields of an MXF word. -/
structure MxfWord (fn g d a acc shape af bf zu x : Nat) : Prop where
  opcode : wOp x = 0x49
  guard : wGuard x = g
  func : wFn x = fn
  dest : wD x = d
  arg : wA x = a
  acc : xfAcc x = acc
  shape : xfShape x = shape
  afmt : xfAfmt x = af
  bfmt : xfBfmt x = bf
  zu : xfZu x = zu
  low : bits x 0 2 = 0

theorem mxfWord {fn g d a acc shape af bf zu : Nat} (hg : g < 8) (hfn : fn < 32) (hd : d < 256) (ha : a < 256) (hacc : acc < 2048)
    (hsh : shape < 32) (haf : af < 14) (hbf : bf < 14) (hzu : zu < 64) : MxfWord fn g d a acc shape af bf zu
      (0x49 * 2 ^ 56 + g * 2 ^ 53 + fn * 2 ^ 48 + d * 2 ^ 40 + a * 2 ^ 32 + acc * 2 ^ 21 + shape * 2 ^ 16 + af * 2 ^ 12 + bf * 2 ^ 8 +
        zu * 4) := by
  constructor <;> simp only [wOp, wGuard, wFn, wD, wA, xfAcc, xfShape, xfAfmt, xfBfmt, xfZu, bits_eq] <;> omega

/-- R169: the shapes hold up to 1024 elements of each kind, those of POSIT32 up to 256 of its operands. -/
theorem shape_bounds {code : Nat} {sh : Shape} (h : shapeOf code = some sh) : code < 32 ∧ sh.m * sh.n ≤ 1024 ∧ sh.m * sh.kf ≤ 1024 ∧
    sh.n * sh.kf ≤ 1024 ∧ (sh.path = .posit32 → sh.m * sh.kf ≤ 256 ∧ sh.n * sh.kf ≤ 256) := by
  unfold shapeOf at h
  split at h
  all_goals cases h
  all_goals decide

/-- R156: the forms of an MXF word. -/
def MxfForm (fn d a bf : Nat) : Prop :=
  (fn = 1 ∧ d = 0 ∧ a = 0 ∧ bf = 0) ∨ (fn = 0 ∧ d % 8 = 0 ∧ a % 8 = 0) ∨ (fn = 2 ∧ d % 8 = 0 ∧ a = 0 ∧ bf = 0)

section
variable {fn g d a acc shape af bf zu x : Nat} {sh : Shape}

theorem MxfWord.enc (h : MxfWord fn g d a acc shape af bf zu x) (hf : MxfForm fn d a bf) : firstBad (encMxf x) = none := by
  rw [firstBad_none_iff]
  simp only [encMxf, h.func, h.dest, h.arg, h.bfmt, h.low, List.mem_cons, List.not_mem_nil, or_false, forall_eq_or_imp, forall_eq]
  obtain ⟨rfl, rfl, rfl, rfl⟩ | ⟨rfl, hd, ha⟩ | ⟨rfl, hd, rfl, rfl⟩ := hf
  · decide
  · simp [hd, ha]
  · simp [hd]

theorem MxfWord.fmt (h : MxfWord fn g d a acc shape af bf zu x) (haf : af < 14) (hbf : bf < 14) : firstBad (fmtMxf x) = none := by
  rw [firstBad_none_iff]
  simp [fmtMxf, h.afmt, h.bfmt, haf, hbf]

/-- R179: the registers of a fragment of `elems` elements of up to `k * 1024` bits together. -/
theorem fragRegs_le {base code : Nat} {elems : Shape → Nat} {k : Nat} (hs : shapeOf (xfShape x) = some sh)
    (hw : ∀ f, typedFmt code = some f → elems sh * f.width ≤ k * 1024) : ∀ e ∈ fragRegs x base code elems, e.1 = base ∧ e.2 ≤ k := by
  intro e he
  unfold fragRegs at he
  rw [hs] at he
  cases hf : typedFmt code with
  | none => rw [hf] at he; cases he
  | some f =>
    rw [hf] at he
    obtain rfl := List.mem_singleton.1 he
    have := hw f hf
    refine ⟨rfl, ?_⟩
    simp only [fragBytes, cdiv]
    omega

theorem MxfWord.regs (h : MxfWord fn g d a acc shape af bf zu x) (hs : shapeOf shape = some sh) {w : Swarm} {k : Nat}
    (hA : fn = 0 → ∀ f, typedFmt af = some f → sh.m * sh.kf * f.width ≤ k * 1024)
    (hB : fn = 0 → ∀ f, typedFmt bf = some f → sh.n * sh.kf * f.width ≤ k * 1024)
    (hO : fn = 2 → ∀ f, typedFmt af = some f → sh.e * f.width ≤ k * 1024)
    (hd : fn ≠ 1 → d + k ≤ w.V) (ha : fn = 0 → a + k ≤ w.V) (hfn : fn ≤ 2) : pastV w.V (regsMxf x) = none := by
  rw [← h.shape] at hs
  rw [pastV_none_iff]
  obtain rfl | rfl | rfl : fn = 0 ∨ fn = 1 ∨ fn = 2 := by omega
  · intro e he
    simp only [regsMxf, h.func, h.dest, h.arg, h.afmt, h.bfmt, List.mem_append] at he
    rcases he with he | he
    · obtain ⟨h1, h2⟩ := fragRegs_le (k := k) hs (hA rfl) e he
      have := hd (by decide)
      omega
    · obtain ⟨h1, h2⟩ := fragRegs_le (k := k) hs (hB rfl) e he
      have := ha rfl
      omega
  · simp [regsMxf, h.func]
  · intro e he
    simp only [regsMxf, h.func, h.dest, h.afmt] at he
    obtain ⟨h1, h2⟩ := fragRegs_le (k := k) hs (hO rfl) e he
    have := hd (by decide)
    omega

theorem width_le (f : Fmt) : f.width ≤ 32 := by cases f <;> decide

end

/-! ### The turn, and what an MXF leaves -/

section
variable {s : State} {id k fn g d a acc shape af bf zu x : Nat} {body : State → Nat → Except (Nat × Nat) State}

/-- R156: an MXF word that passes the checks up to check 9. -/
structure State.MxfStands (s : State) (id k fn g d a acc shape af bf zu x : Nat) : Prop where
  word : MxfWord fn g d a acc shape af bf zu x
  form : MxfForm fn d a bf
  fmts : af < 14 ∧ bf < 14
  regs : pastV (s.swarm id k).V (regsMxf x) = none
  full : (s.swarm id k).preg g = 0xFFFFFFFF
  stands : s.stands id k x false false = true

theorem State.MxfStands.mxf_eq (h : s.MxfStands id k fn g d a acc shape af bf zu x) : s.mxf id k fn body =
    if !(s.cell id).matrixIdle then s
    else match body s x with
      | .ok t => (t.incr (Reg.cellMxStatusOpsDone (t.phys id))).commit id k
      | .error (code, detail) =>
        let t := (s.incr (Reg.cellMxStatusOpsDone (s.phys id))).faultInsn id k x code detail
        if code == 0x300A then t.lmUceTold id else t := by
  unfold State.mxf
  rw [issue_stands h.stands (by simp [isOp, h.word.opcode, h.word.func]) (h.word.enc h.form) (fun h => by cases h) h.regs
    (h.word.fmt h.fmts.1 h.fmts.2)]
  dsimp only
  rw [h.word.guard, h.full, if_neg (by decide)] <;> rfl

/-- R164: an MXF waits while a matrix operation is outstanding. -/
theorem State.MxfStands.waits (h : s.MxfStands id k fn g d a acc shape af bf zu x) (hi : (s.cell id).matrixIdle = false) :
    s.mxf id k fn body = s := by rw [h.mxf_eq, hi]; rfl

/-- R120, R156: an MXF that performs counts and commits. -/
theorem State.MxfStands.performs (h : s.MxfStands id k fn g d a acc shape af bf zu x) (hi : (s.cell id).matrixIdle = true) {t : State}
    (hb : body s x = .ok t) : s.mxf id k fn body = (t.incr (Reg.cellMxStatusOpsDone (t.phys id))).commit id k := by
  rw [h.mxf_eq, hi, hb]; rfl

variable {v : State} {w : Swarm} {f : CellMem → CellMem}

/-- What a change of the cell's tiles and accumulators leaves, with a change of the swarm and events before it. -/
theorem modCell_done (h : SwarmTo s v id k w) (hlm : ∀ c, (f c).lm = c.lm) (hsw : ∀ c, (f c).swarms = c.swarms)
    (h1 : w.asyncFaults = []) (h2 : w.parkReq = none) (r : RegField) :
    let t := ((v.modCell id f).incr r).commit id k
    (KeepsBytes s t ∧ KeepsSwarms s t id k ∧ t.pkts = s.pkts) ∧ t.swarm id k = w.advance none ∧
      ∀ {α : Type} (p : CellMem → α), (∀ c g, p (c.modSwarm k g) = p c) → p (t.cell id) = p (f (v.cell id)) := by
  intro t
  have hu : EventsOnly (v.modCell id f) ((v.modCell id f).incr r) := (EventsOnly.refl _).wr _ _
  have hw : (v.modCell id f).swarm id k = w := by rw [swarm_modCell_of_swarms hsw, h.swarm]
  have hphys : ∀ i, (v.modCell id f).phys i = s.phys i := h.phys
  have ht := (hu.swarmTo id k).commit (by rw [hw]; exact h1) (by rw [hw]; exact h2)
  refine ⟨⟨?_, fun i j hij => ?_, ?_⟩, ?_, fun p hp => ?_⟩
  · exact (h.bytes.trans (.modCell v id hlm)).trans ht.bytes
  · rw [ht.swarms i j (by rw [hphys, hphys]; exact hij), swarm_modCell_of_swarms hsw]
    exact h.swarms i j hij
  · exact ht.pkts.trans h.pkts
  · rw [ht.swarm, hw]
  · rw [ht.field p hp, cell_modCell_same]

end

end Sys2Proof.Machine
end

section
/-! PROOFS (O32). MXF ZERO and MMA on a STRICT tile (R156, R172, R180). -/
namespace Sys2Proof.Machine

/-! ### Quires in the accumulator store -/

/-- The quire of entry `e`. -/
def CellMem.entry (c : CellMem) (e : Nat) : Quire := Quire.ofEntry (sget 0 c.acc e).toNat

theorem Quire.ofEntry_lt (v : Nat) : (Quire.ofEntry v).w < 2 ^ 643 := by
  rw [Quire.ofEntry]
  generalize sx 640 v + ((bits (bits v 640 8) 3 3 : Nat) : Int) * 2 ^ 640 = y
  exact ofI_lt 643 y

theorem CellMem.quires_getElem? (c : CellMem) (a : Nat) {n e : Nat} (h : e < n) : (c.quires a n)[e]? = some (c.entry (a + e)) := by
  rw [CellMem.quires, List.getElem?_map, sgetN_getElem? _ _ _ _ _ h]
  rfl

theorem CellMem.quires_length (c : CellMem) (a n : Nat) : (c.quires a n).length = n := by simp [CellMem.quires, sgetN_length]

/-- R77: quires written are the entries from there on. -/
theorem CellMem.entry_setQuires (c : CellMem) (a : Nat) {l : List Quire} (h : ∀ q ∈ l, q.w < 2 ^ 643) {e : Nat} {q : Quire}
    (hq : l[e]? = some q) : (c.setQuires a l).entry (a + e) = q := by
  have hlt : e < l.length := (List.getElem?_eq_some_iff.1 hq).1
  have hget := (c.setQuires a l).quires_getElem? a hlt
  rw [c.quires_setQuires a h, hq] at hget
  exact (Option.some_inj.1 hget).symm

theorem CellMem.acc_setQuires_out (c : CellMem) (a : Nat) (l : List Quire) {e : Nat} (h : e < a ∨ a + l.length ≤ e) :
    sget 0 (c.setQuires a l).acc e = sget 0 c.acc e := by
  rw [CellMem.setQuires, sget_ssetN]
  split
  · rw [List.getElem?_eq_none (by rw [List.length_map]; omega)]; rfl
  · rfl

/-- R172: beginning a STRICT tile. -/
theorem CellMem.beginTile_strict (c : CellMem) {t : Tile} (n : Nat) (hf : t.fast = false) :
    c.beginTile t n = { c with tiles := c.tiles ++ [t] }.setQuires t.acc (List.replicate n {}) := by
  unfold CellMem.beginTile
  rw [if_neg (by simp [hf])]

theorem mxShape_ok {code : Nat} {sh : Shape} {path : Option MxPath} (h : shapeOf code = some sh) (hp : ∀ p ∈ path, p = sh.path) :
    mxShape code path false = .ok sh := by
  unfold mxShape
  rw [h]
  cases path with
  | none => rfl
  | some p => rw [hp p rfl]; simp

section
variable {s : State} {cell : BitVec 10} {slot : BitVec 4} {g d a acc shape af bf zu x : Nat} {sh : Shape}

/-- R180: ZERO begins a fragment tile. -/
theorem mxfZero_begins (h : s.MxfStands cell.toNat slot.toNat 1 g d a acc shape af bf zu x) (hs : shapeOf shape = some sh)
    (hm : modeFast (s.swarm cell.toNat slot.toNat).mode = false) (hi : (s.cell cell.toNat).matrixIdle = true)
    (ho : (s.cell cell.toNat).overlaps acc sh.e false = false) :
    let id := cell.toNat
    let k := slot.toNat
    let w := s.swarm id k
    let c := s.cell id
    ∃ t, exec (.mxfZero cell slot) s = .next t ∧ (KeepsBytes s t ∧ KeepsSwarms s t id k ∧ t.pkts = s.pkts) ∧ t.swarm id k = w.advance none ∧
      (t.cell id).tiles = c.tiles ++ [{ acc := acc, shape := shape, fast := false, frag := true, slot := k, mode := w.mode, ctx := w.ctx }] ∧
      (∀ e, e < sh.e → (t.cell id).entry (acc + e) = {}) ∧ ∀ e, e < acc ∨ acc + sh.e ≤ e → sget 0 (t.cell id).acc e = sget 0 c.acc e := by
  intro id k w c
  let tile : Tile := { acc := acc, shape := shape, fast := false, frag := true, slot := k, mode := w.mode, ctx := w.ctx }
  have hbegin : ∀ c : CellMem, c.beginTile tile sh.e = { c with tiles := c.tiles ++ [tile] }.setQuires acc (List.replicate sh.e {}) :=
    fun c => c.beginTile_strict sh.e rfl
  obtain ⟨h1, h2⟩ := quiet_of_stands h.stands
  obtain ⟨hfr, hsw, hfield⟩ := modCell_done (f := fun c => c.beginTile tile sh.e) (.refl s id k) (fun c => by rw [hbegin]; rfl)
    (fun c => by rw [hbegin]; rfl) h1 h2 (Reg.cellMxStatusOpsDone ((s.modCell id fun c => c.beginTile tile sh.e).phys id))
  refine ⟨_, congrArg Host.Outcome.next (h.performs hi (t := s.modCell id fun c => c.beginTile tile sh.e) ?body), hfr, hsw, ?_,
    fun e he => ?_, fun e he => ?_⟩
  case body =>
    dsimp only
    rw [h.word.acc, h.word.shape, hm, mxShape_ok hs fun p hp => by cases hp]
    show (need (!(s.cell id).overlaps acc sh.e false) 0x2025 acc >>= _) = _
    rw [ho]
    rfl
  · rw [hfield (·.tiles) fun _ _ => rfl, hbegin]; rfl
  · rw [hfield (·.entry (acc + e)) fun _ _ => rfl, hbegin]
    exact CellMem.entry_setQuires _ acc (fun q hq => (List.eq_of_mem_replicate hq) ▸ Nat.two_pow_pos _) (by simp [he])
  · rw [hfield (fun c => sget 0 c.acc e) fun _ _ => rfl, hbegin]
    exact CellMem.acc_setQuires_out _ acc _ (by rw [List.length_replicate]; exact he)

/-- R180: the quires of a tile to which an MMA adds. -/
def mmaQuires (c : CellMem) (acc : Nat) (sh : Shape) (prods : Nat → Nat → List Val) : List Quire :=
  (sh.elems.zip (c.quires acc sh.e)).map fun e => e.2.addAll (prods e.1.1 e.1.2)

theorem mmaQuires_lt (c : CellMem) (acc : Nat) (sh : Shape) (prods : Nat → Nat → List Val) :
    ∀ q ∈ mmaQuires c acc sh prods, q.w < 2 ^ 643 := by
  intro q hq
  obtain ⟨⟨p, r⟩, hr, rfl⟩ := List.mem_map.1 hq
  obtain ⟨v, _, rfl⟩ := List.mem_map.1 (List.of_mem_zip hr).2
  exact Quire.addAll_lt (Quire.ofEntry_lt _) _

theorem mmaQuires_length (c : CellMem) (acc : Nat) (sh : Shape) (prods : Nat → Nat → List Val) :
    (mmaQuires c acc sh prods).length = sh.e := by
  simp [mmaQuires, CellMem.quires_length, Shape.elems_length]

theorem elem_lt {m n : Nat} (hm : m < sh.m) (hn : n < sh.n) : m * sh.n + n < sh.e := flatMap_index_lt hm hn

theorem mmaQuires_getElem? (c : CellMem) (acc : Nat) (prods : Nat → Nat → List Val) {m n : Nat} (hm : m < sh.m) (hn : n < sh.n) :
    (mmaQuires c acc sh prods)[m * sh.n + n]? = some ((c.entry (acc + (m * sh.n + n))).addAll (prods m n)) := by
  have hz : (sh.elems.zip (c.quires acc sh.e))[m * sh.n + n]? = some ((m, n), c.entry (acc + (m * sh.n + n))) :=
    List.getElem?_zip_eq_some.2 ⟨sh.elems_getElem? hm hn, c.quires_getElem? acc (elem_lt hm hn)⟩
  rw [mmaQuires, List.getElem?_map, hz]
  rfl

theorem fragAdd_strict {id : Nat} {tile : Tile} (hf : tile.fast = false) (prods : Nat → Nat → List Val) :
    s.fragAdd id tile sh prods = s.modCell id fun c => (c.setQuires tile.acc (mmaQuires (s.cell id) tile.acc sh prods)).modTile tile.acc false
      fun t => { t with reduced := t.reduced + sh.kf } := by
  unfold State.fragAdd
  rw [if_pos (by simp [hf])]
  rfl

/-- R180: MMA adds its products. -/
theorem mxfMma_adds (h : s.MxfStands cell.toNat slot.toNat 0 g d a acc shape af bf zu x) (hs : shapeOf shape = some sh)
    (hm : modeFast (s.swarm cell.toNat slot.toNat).mode = false) (hi : (s.cell cell.toNat).matrixIdle = true) {fa fb : Fmt} {tile : Tile}
    (hfa : Fmt.ofCode af = some fa) (hfb : Fmt.ofCode bf = some fb)
    (hfmt : mxFormat af (bits ((s.swarm cell.toNat slot.toNat).ureg zu) 8 8) bf (bits ((s.swarm cell.toNat slot.toNat).ureg zu) 0 8) false =
      .ok sh.path)
    (ht : (s.cell cell.toNat).continues acc shape true (s.swarm cell.toNat slot.toNat).mode = .ok tile) (hacc : tile.acc = acc)
    (hfast : tile.fast = false) :
    let id := cell.toNat
    let k := slot.toNat
    let w := s.swarm id k
    let c := s.cell id
    ∃ t, exec (.mxfMma cell slot) s = .next t ∧ (KeepsBytes s t ∧ KeepsSwarms s t id k ∧ t.pkts = s.pkts) ∧ t.swarm id k = w.advance none ∧
      (∀ m n, m < sh.m → n < sh.n → (t.cell id).entry (acc + (m * sh.n + n)) = (c.entry (acc + (m * sh.n + n))).addAll
        ((List.range sh.kf).map fun j =>
          (decode fa (zpField fa (bits (w.ureg zu) 8 8)) (w.fragElem d (m * sh.kf + j) fa)).mul
            (decode fb (zpField fb (bits (w.ureg zu) 0 8)) (w.fragElem a (n * sh.kf + j) fb)))) ∧
      ∀ e, e < acc ∨ acc + sh.e ≤ e → sget 0 (t.cell id).acc e = sget 0 c.acc e := by
  intro id k w c
  let prods := w.fragProducts x sh fa fb (zpField fa (bits (w.ureg zu) 8 8)) (zpField fb (bits (w.ureg zu) 0 8))
  let f := fun c' : CellMem => (c'.setQuires acc (mmaQuires c acc sh prods)).modTile acc false
    fun t => { t with reduced := t.reduced + sh.kf }
  obtain ⟨h1, h2⟩ := quiet_of_stands h.stands
  obtain ⟨hfr, hsw, hfield⟩ := modCell_done (f := f) (.refl s id k) (fun _ => rfl) (fun _ => rfl) h1 h2
    (Reg.cellMxStatusOpsDone ((s.modCell id f).phys id))
  refine ⟨_, congrArg Host.Outcome.next (h.performs hi (t := s.modCell id f) ?body), hfr, hsw, fun m n hm hn => ?_, fun e he => ?_⟩
  case body =>
    dsimp only
    rw [h.word.zu, h.word.afmt, h.word.bfmt, h.word.acc, h.word.shape, hm, hfmt]
    show (mxShape shape (some sh.path) false >>= _) = _
    rw [mxShape_ok hs fun p hp => (Option.mem_some.1 hp).symm]
    show ((s.cell id).continues acc shape true (s.swarm id k).mode >>= _) = _
    rw [ht, hfa, hfb]
    refine congrArg Except.ok ((fragAdd_strict hfast _).trans ?_)
    rw [hacc]
    rfl
  · rw [hfield (·.entry (acc + (m * sh.n + n))) fun _ _ => rfl]
    refine (CellMem.entry_setQuires _ acc (mmaQuires_lt c acc sh prods) (mmaQuires_getElem? c acc prods hm hn)).trans ?_
    simp only [prods, Swarm.fragProducts, h.word.dest, h.word.arg]
  · rw [hfield (fun c => sget 0 c.acc e) fun _ _ => rfl]
    exact CellMem.acc_setQuires_out _ acc _ (by rw [mmaQuires_length]; exact he)

end

end Sys2Proof.Machine
end

section
/-! PROOFS (O32). MXF OUT of a STRICT tile under a descriptor of zeros (R172, R177, R179, R180). -/
namespace Sys2Proof.Machine

/-! ### A descriptor of zeros (R168) -/

theorem leNat_zero {l : Bytes} (h : ∀ b ∈ l, b = 0) : leNat l = 0 := by
  induction l with
  | nil => rfl
  | cons b l ih =>
    rw [leNat, h b (.head _), ih fun b hb => h b (.tail _ hb)]
    rfl

theorem fieldLE_zero {d : Bytes} (h : d.all (· == 0) = true) (off n : Nat) : fieldLE d off n = 0 := by
  have hz : ∀ b ∈ d, b = 0 := fun b hb => by simpa using List.all_eq_true.1 h b hb
  refine leNat_zero fun b hb => ?_
  simp only [slice, List.mem_append] at hb
  rcases hb with hb | hb
  · exact hz b (List.mem_of_mem_drop (List.mem_of_mem_take hb))
  · exact (List.mem_replicate.1 hb).2

section
variable {d : Bytes} (hd : d.all (· == 0) = true)
include hd

theorem mdCtl_zero : mdCtl d = 0 := fieldLE_zero hd ..
theorem mdAct_zero : mdAct d = 0 := fieldLE_zero hd ..
theorem mdOutZp_zero : mdOutZp d = 0 := fieldLE_zero hd ..
theorem mdBias_zero : mdBias d = false := by rw [mdBias, mdCtl_zero hd]; rfl
theorem mdRowstat_zero : mdRowstat d = false := by rw [mdRowstat, mdCtl_zero hd]; rfl
theorem mdScaleMode_zero : mdScaleMode d = 0 := by rw [mdScaleMode, mdCtl_zero hd]; rfl
theorem mdChain_zero : mdChain d = false := by rw [mdChain, mdChainIn, mdChainOut, mdCtl_zero hd]; rfl

theorem fragFields_zero (sh : Shape) : firstBad (fragFields d sh) = none := by
  rw [firstBad_none_iff]
  simp [fragFields, mdOutFields, mdAct_zero hd, mdBias_zero hd, mdRowstat_zero hd, mdScaleMode_zero hd, mdChain_zero hd]

end

theorem zpField_zero (f : Fmt) : zpField f 0 = 0 := by cases f <;> rfl

theorem zpFits_zero (f : Fmt) : zpFits (some f) 0 = true := by cases f <;> decide

/-! ### The output step of an element (R177) -/

theorem roundAway_zero (neg : Bool) (exp : Int) : roundAway neg 0 exp = 0 := by
  have hm : (if 0 ≤ exp then 0 * 2 ^ exp.toNat else (0 + 2 ^ ((-exp).toNat - 1)) / 2 ^ (-exp).toNat) = 0 := by
    split
    · exact Nat.zero_mul _
    · rw [Nat.zero_add]
      exact Nat.div_eq_of_lt (Nat.pow_lt_pow_right (by decide) (by omega))
  unfold roundAway
  dsimp only
  rw [hm]
  cases neg <;> rfl

/-- R57 to R59: zero has one encoding. -/
theorem encode_zero (f : Fmt) (neg : Bool) (exp : Int) : encode f 0 (.fin neg 0 exp) = encode f 0 .zero := by
  have hint : encInt f 0 (.fin neg 0 exp) = encInt f 0 .zero := by
    simp [encInt, Val.zero, roundAway_zero]
  unfold encode
  rw [hint]
  simp [positEnc, ieeeMag, Val.zero]

/-- A value times one keeps its encoding. -/
theorem encode_mul_one {v : Val} (hv : v ≠ .nan) (f : Fmt) : encode f 0 ((v.mul (.ofInt 1 0)).mul (Val.pow2 (-0))) = encode f 0 v := by
  cases v with
  | fin neg sig exp =>
    by_cases hs : sig = 0
    · subst hs
      rw [encode_zero f neg exp]
      rfl
    · simp [Val.mul, Val.ofInt, Val.pow2, hs]
  | inf neg => simp [Val.mul, Val.ofInt, Val.pow2]
  | nar => rfl
  | nan => exact absurd rfl hv

theorem read_ne_nan (q : Quire) : q.read.1 ≠ .nan := by
  unfold Quire.read
  split_ifs <;> simp [Val.ofInt]

section
variable {s : State} {id : Nat} {o : OutPar}

theorem outValue_plain (hd : o.d.all (· == 0) = true) (hz : o.zp = 0) (ht : o.texp = 0) (n : Nat) (q : Quire) :
    EventsOnly s (s.outValue id o n q).1 ∧ (s.outValue id o n q).2.conv = encode o.f 0 q.read.1 := by
  unfold State.outValue
  simp only [mdBias_zero hd, State.activate, mdAct_zero hd, State.outScale, mdScaleMode_zero hd, hz, ht, encode_mul_one (read_ne_nan _),
    Bool.false_eq_true, if_false, show (0 == 2) = false from rfl]
  refine ⟨?_, trivial⟩
  have h1 := when_eventsOnly s (fun s => s.qovf id o.slot) q.read.2 (qovf_eventsOnly · _ _)
  generalize (if q.read.2 = true then s.qovf id o.slot else s) = t at h1 ⊢
  have h2 := h1.trans (cvtEvent_eventsOnly t id o.slot (encode o.f 0 q.read.1).ev)
  split
  · exact h2
  · exact h2.trans (clipOther_eventsOnly ..)

/-- A fold that raises events and appends values. -/
theorem foldl_collect {τ : Type} (st : τ → State) (vs : τ → List Nat) {f : τ → Nat → τ} {outs : Nat → List Nat}
    (hf : ∀ e n, EventsOnly (st e) (st (f e n)) ∧ vs (f e n) = vs e ++ outs n) (l : List Nat) (e : τ) :
    EventsOnly (st e) (st (l.foldl f e)) ∧ vs (l.foldl f e) = vs e ++ l.flatMap outs := by
  induction l generalizing e with
  | nil => exact ⟨.refl _, (List.append_nil _).symm⟩
  | cons n l ih =>
    obtain ⟨h1, h2⟩ := hf e n
    obtain ⟨h3, h4⟩ := ih (f e n)
    exact ⟨h1.trans h3, by rw [List.foldl_cons, h4, h2, List.flatMap_cons, List.append_assoc]⟩

/-- R177, R180: the values of an output fragment. -/
def fragVals (f : Fmt) (sh : Shape) (qs : List Quire) : List Nat :=
  sh.elems.map fun e => (encode f 0 (qs.getD (e.1 * sh.n + e.2) {}).read.1).out

theorem rowStat_plain (hd : o.d.all (· == 0) = true) (m : Nat) (r : RowAcc) : s.rowStat id o m r = (s, false) := by
  unfold State.rowStat
  rw [mdRowstat_zero hd]
  rfl

theorem fragRows_plain (hd : o.d.all (· == 0) = true) (hz : o.zp = 0) (ht : o.texp = 0) (sh : Shape) (qs : List Quire) :
    EventsOnly s (s.fragRows id sh o qs).1 ∧ (s.fragRows id sh o qs).2 = fragVals o.f sh qs := by
  have hrow : ∀ (m : Nat) (e : State × List Nat × RowAcc) n,
      EventsOnly e.1 (e.1.outValue id o n (qs.getD (m * sh.n + n) {})).1 ∧
      e.2.1 ++ [(e.1.outValue id o n (qs.getD (m * sh.n + n) {})).2.conv.out] =
        e.2.1 ++ [(encode o.f 0 (qs.getD (m * sh.n + n) {}).read.1).out] := fun m e n => by
    obtain ⟨h1, h2⟩ := outValue_plain (s := e.1) (id := id) hd hz ht n (qs.getD (m * sh.n + n) {})
    exact ⟨h1, by rw [h2]⟩
  unfold State.fragRows
  obtain ⟨h1, h2⟩ := foldl_collect (τ := State × List Nat) (·.1) (·.2)
    (outs := fun m => (List.range sh.n).flatMap fun n => [(encode o.f 0 (qs.getD (m * sh.n + n) {}).read.1).out])
    (f := fun r m =>
      let (s, vs, row) := (List.range sh.n).foldl (fun (e : State × List Nat × RowAcc) n =>
        let (s, v) := e.1.outValue id o n (qs.getD (m * sh.n + n) {})
        (s, e.2.1 ++ [v.conv.out], e.2.2.enter o.f v)) (r.1, r.2, {})
      ((s.rowStat id o m row).1, vs)) (fun r m => by
        obtain ⟨h1, h2⟩ := foldl_collect (τ := State × List Nat × RowAcc) (·.1) (·.2.1)
          (f := fun (e : State × List Nat × RowAcc) n =>
            let (s, v) := e.1.outValue id o n (qs.getD (m * sh.n + n) {})
            (s, e.2.1 ++ [v.conv.out], e.2.2.enter o.f v)) (hrow m) (List.range sh.n) (r.1, r.2, {})
        simp only [rowStat_plain hd]
        exact ⟨h1, h2⟩) (List.range sh.m) (s, [])
  refine ⟨h1, h2.trans ?_⟩
  rw [List.nil_append, fragVals, Shape.elems, List.map_flatMap]
  refine List.flatMap_congr fun m _ => ?_
  rw [List.map_map]
  exact List.flatMap_pure_eq_map (fun n => (encode o.f 0 (qs.getD (m * sh.n + n) {}).read.1).out) _

end

end Sys2Proof.Machine
end

section
/-! PROOFS (O32). MXF OUT, and the fragment tiles (R156, R164, R172, R180). -/
namespace Sys2Proof.Machine

section
variable {s : State} {cell : BitVec 10} {slot : BitVec 4} {g d a acc shape af bf zu x : Nat} {sh : Shape}

theorem except_ok_bind {ε α β : Type} (a : α) (f : α → Except ε β) : (Except.ok a >>= f) = f a := rfl

theorem need_ok {b : Bool} (h : b = true) (code detail : Nat) : need b code detail = .ok () := by rw [need, if_pos h]

theorem fragElem_advance (w : Swarm) (br : Option (Bool × Nat)) (base i : Nat) (f : Fmt) :
    (w.advance br).fragElem base i f = w.fragElem base i f := by
  simp only [Swarm.fragElem, Swarm.fragByte, vreg_advance]

theorem fragVals_length (f : Fmt) (sh : Shape) (qs : List Quire) : (fragVals f sh qs).length = sh.e := by
  rw [fragVals, List.length_map, Shape.elems_length]

theorem fragVals_getElem? (f : Fmt) (qs : List Quire) {m n : Nat} (hm : m < sh.m) (hn : n < sh.n) :
    (fragVals f sh qs)[m * sh.n + n]? = some (encode f 0 ((qs[m * sh.n + n]?).getD {}).read.1).out := by
  rw [fragVals, List.getElem?_map, sh.elems_getElem? hm hn]
  simp only [Option.map_some, List.getD_eq_getElem?_getD]

/-- R177, R180: what the output step of an OUT under descriptor `dd` works with. -/
def State.fragPar (s : State) (id k : Nat) (dd : Bytes) (f : Fmt) : OutPar where
  d := dd
  slot := k
  run :=
    { op := { slot := k, token := 0, pc := 0, operand := 0, mode := (s.swarm id k).mode }
      tables := (s.cell id).tables
      tableRam := (s.cell id).tableRam
      tabCmd := (s.cell id).tabCmd
      scale := (s.cell id).scale
      scaleCmd := (s.cell id).scaleCmd }
  f := f
  zp := zpField f (mdOutZp dd)
  texp := 0

/-- R180: OUT writes its fragment and ends the tile. -/
theorem mxfOut_writes (h : s.MxfStands cell.toNat slot.toNat 2 g d a acc shape af bf zu x) (hs : shapeOf shape = some sh)
    (hi : (s.cell cell.toNat).matrixIdle = true) {f : Fmt} {tile : Tile}
    (hf : Fmt.ofCode af = some f) (hraw : f ≠ .raw) (he : (s.cell cell.toNat).lmErr = []) (hc : (s.cell cell.toNat).tabCmd = none)
    (ho : (s.swarm cell.toNat slot.toNat).ureg zu % 64 = 0) (hlt : (s.swarm cell.toNat slot.toNat).ureg zu < 0x180000)
    (hz : ((s.cell cell.toNat).read ((s.swarm cell.toNat slot.toNat).ureg zu) 64).all (· == 0) = true)
    (ht : (s.cell cell.toNat).continues acc shape true (s.swarm cell.toNat slot.toNat).mode = .ok tile) (hacc : tile.acc = acc)
    (hfast : tile.fast = false) :
    let id := cell.toNat
    let k := slot.toNat
    let w := s.swarm id k
    let c := s.cell id
    ∃ t, exec (.mxfOut cell slot) s = .next t ∧ (KeepsBytes s t ∧ KeepsSwarms s t id k ∧ t.pkts = s.pkts) ∧
      t.swarm id k = { w.advance none with v := (t.swarm id k).v } ∧
      (∀ m n, m < sh.m → n < sh.n → (t.swarm id k).fragElem d (m * sh.n + n) f = (encode f 0 (c.entry (acc + (m * sh.n + n))).read.1).out) ∧
      ∀ y ∈ (t.cell id).tiles, ¬ (y.acc = acc ∧ y.fast = false) := by
  intro id k w c
  have hgrab : c.grab (w.ureg zu) 64 = .ok (c.read (w.ureg zu) 64) := by
    rw [CellMem.grab, uce_clean _ _ _ fun v _ => by rw [he]; rfl]
    rfl
  have htouch : s.lmTouch cell.toNat ((s.swarm cell.toNat slot.toNat).ureg zu) 64 = s := lmTouch_clean _ _ _ _ fun v _ => by rw [he]; rfl
  generalize hdd : c.read (w.ureg zu) 64 = dd at hz hgrab
  have hzp : (s.fragPar id k dd f).zp = 0 := by
    show zpField f (mdOutZp dd) = 0
    rw [mdOutZp_zero hz, zpField_zero]
  obtain ⟨hrowsEv, hvals⟩ := fragRows_plain (s := s.folds id 0) (id := id) (o := s.fragPar id k dd f) hz hzp rfl sh (c.quires acc sh.e)
  have hev := ((EventsOnly.refl s).wr _ _ : EventsOnly s (s.folds id 0)).trans hrowsEv
  change _ = fragVals f sh _ at hvals
  generalize hrows : (s.folds id 0).fragRows id sh (s.fragPar id k dd f) (c.quires acc sh.e) = rows at hev hvals
  have hlanes := setFrag_onlyLanes w d (fragPack f rows.2)
  obtain ⟨h1, h2⟩ := quiet_of_stands h.stands
  have hfits : need (f != .raw && zpFits (some f) (mdOutZp dd)) 0x2023 0 = .ok () := need_ok (by
    rw [mdOutZp_zero hz, zpFits_zero]; simpa using hraw) ..
  have hshape := mxShape_ok (path := none) hs fun p hp => by cases hp
  have hscale : ∀ n, need (mdScaleMode dd != 2 || decide (mdScale dd + n ≤ 1024)) 0x202A 0x24 = .ok () := fun n => need_ok (by
    rw [mdScaleMode_zero hz]; rfl) ..
  have hrep : (s.cell cell.toNat).noReplica [] = .ok () := rfl
  have hftab : ∀ t, ftabThere dd t = .ok () := fun t => need_ok (by rw [mdAct_zero hz]; rfl) ..
  have hview : s.tabView (s.cell cell.toNat).tables (s.cell cell.toNat).tableRam (s.cell cell.toNat).tabCmd =
      (s, (s.cell cell.toNat).tables, (s.cell cell.toNat).tableRam) := by rw [hc]; rfl
  have hquires : (s.cell cell.toNat).fragQuires tile sh.e = ((s.cell cell.toNat).quires acc sh.e, 0) := by
    rw [CellMem.fragQuires, if_pos (by simp [hfast]), hacc]
  let v := rows.1.modSwarm id k fun w => w.setFrag d (fragPack f rows.2)
  obtain ⟨hfr, hsw, hfield⟩ := modCell_done (f := fun c => c.endTile acc false)
    ((hev.swarmTo id k).modSwarm fun w => w.setFrag d (fragPack f rows.2)) (fun _ => rfl) (fun _ => rfl)
    (by rw [hlanes]; exact h1) (by rw [hlanes]; exact h2) (Reg.cellMxStatusOpsDone ((v.modCell id fun c => c.endTile acc false).phys id))
  refine ⟨_, congrArg Host.Outcome.next (h.performs hi (t := v.modCell id fun c => c.endTile acc false) ?body), hfr, ?_, fun m n hm hn => ?_,
    fun y hy => ?_⟩
  case body =>
    dsimp only
    rw [h.word.zu, h.word.afmt, h.word.acc, h.word.shape, h.word.dest, hf, hs, need_ok (by simp [lmSize, ho, hlt]), except_ok_bind,
      hgrab, except_ok_bind, needAll, fragFields_zero hz]
    simp only [except_ok_bind, Option.getD_some, hfits, hshape, ht, hscale, mdRowstat_zero hz, mdBias_zero hz, hrep, hftab, hview, hquires,
      Bool.false_eq_true, if_false, ite_self, List.append_nil, List.any_nil, Bool.not_false, need_ok, List.foldl_cons, List.foldl_nil, htouch,
      hfast]
    exact congrArg (fun r : State × List Nat => Except.ok ((r.1.modSwarm id k fun w => w.setFrag d (fragPack f r.2)).modCell id fun c =>
      c.endTile acc false)) hrows
  · rw [hsw]
    exact hlanes.advance none
  · rw [hsw, fragElem_advance, fragElem_setFrag w d f rows.2 (by rw [hvals, fragVals_length]; exact elem_lt hm hn), hvals]
    rw [List.getD_eq_getElem?_getD, fragVals_getElem? f _ hm hn, c.quires_getElem? acc (elem_lt hm hn)]
    exact Nat.mod_eq_of_lt (encode_lt ..)
  · rw [hfield (·.tiles) fun _ _ => rfl] at hy
    have hne := (List.mem_filter.1 hy).2
    rintro ⟨rfl, hyf⟩
    simp [hyf] at hne

theorem width_of_pathOf {f : Fmt} {p : MxPath} (h : f.pathOf = some p) (hp : p ≠ .posit32) : f.width ≤ 16 := by
  cases f <;> simp_all [Fmt.pathOf, Fmt.width]

/-- R170: the operands of a pair on a path other than POSIT32's have 16 bits at most. -/
theorem pair_widths {fa fb : Fmt} {p : MxPath} (h : pairPath fa fb false = some p) (hp : p ≠ .posit32) : fa.width ≤ 16 ∧ fb.width ≤ 16 := by
  unfold pairPath at h
  split at h
  case h_1 => exact absurd (Option.some_inj.1 h).symm hp
  case h_2 => cases h
  case h_3 => cases h
  case h_4 ha hb => exact ⟨width_of_pathOf ha (by decide), width_of_pathOf hb (by decide)⟩
  case h_5 q r _ hq hr _ ha hb => exact ⟨width_of_pathOf ha hq, width_of_pathOf hb hr⟩
  case h_6 => cases h

theorem pairPath_of_mxFormat {za zb : Nat} {fa fb : Fmt} {p : MxPath} (hfa : Fmt.ofCode af = some fa) (hfb : Fmt.ofCode bf = some fb)
    (h : mxFormat af za bf zb false = .ok p) : pairPath fa fb false = some p := by
  unfold mxFormat at h
  rw [hfa, hfb] at h
  cases ha : opndOk af za with
  | false => rw [ha] at h; cases h
  | true =>
    cases hb : opndOk bf zb with
    | false => rw [ha, hb] at h; cases h
    | true =>
      rw [ha, hb] at h
      cases hp : pairPath fa fb false with
      | none => simp only [hp] at h; cases h
      | some q =>
        simp only [hp] at h
        cases h
        rfl

/-- R156, R179: the extents of MXF's fragments, 32 registers at most, lie within V. -/
theorem MxfWord.regs_full {fn : Nat} (h : MxfWord fn g d a acc shape af bf zu x) (hs : shapeOf shape = some sh) {w : Swarm} (hfn : fn ≤ 2)
    (hd : fn ≠ 1 → d + 32 ≤ w.V) (ha : fn = 0 → a + 32 ≤ w.V) : pastV w.V (regsMxf x) = none := by
  obtain ⟨_, hmn, hmk, hnk, _⟩ := shape_bounds hs
  exact h.regs hs (fun _ f _ => Nat.mul_le_mul hmk (width_le f) |>.trans (by decide))
    (fun _ f _ => Nat.mul_le_mul hnk (width_le f) |>.trans (by decide))
    (fun _ f _ => Nat.mul_le_mul hmn (width_le f) |>.trans (by decide)) hd ha hfn

/-- R170, R179: the fragments of an accepted MMA are of 16 registers at most. -/
theorem MxfWord.regs_mma {fn : Nat} (h : MxfWord fn g d a acc shape af bf zu x) (hs : shapeOf shape = some sh) {w : Swarm} (hfn : fn = 0)
    {fa fb : Fmt} (hfa : Fmt.ofCode af = some fa) (hfb : Fmt.ofCode bf = some fb) (hp : pairPath fa fb false = some sh.path)
    (hd : d + 16 ≤ w.V) (ha : a + 16 ≤ w.V) : pastV w.V (regsMxf x) = none := by
  obtain ⟨_, _, hmk, hnk, hpos⟩ := shape_bounds hs
  have htyped : ∀ {c : Nat} {f' f : Fmt}, typedFmt c = some f' → Fmt.ofCode c = some f → f' = f := fun h1 h2 => by
    unfold typedFmt at h1
    split at h1
    · cases h1
    · exact Option.some_inj.1 (h1.symm.trans h2)
  have hbound : sh.m * sh.kf * fa.width ≤ 16 * 1024 ∧ sh.n * sh.kf * fb.width ≤ 16 * 1024 := by
    by_cases h32 : sh.path = .posit32
    · obtain ⟨h1, h2⟩ := hpos h32
      exact ⟨Nat.mul_le_mul h1 (width_le fa) |>.trans (by decide), Nat.mul_le_mul h2 (width_le fb) |>.trans (by decide)⟩
    · obtain ⟨h1, h2⟩ := pair_widths hp h32
      exact ⟨Nat.mul_le_mul hmk h1 |>.trans (by decide), Nat.mul_le_mul hnk h2 |>.trans (by decide)⟩
  exact h.regs hs (fun _ f hf => htyped hf hfa ▸ hbound.1) (fun _ f hf => htyped hf hfb ▸ hbound.2) (fun h2 => by omega) (fun _ => hd)
    (fun _ => ha) (by omega)

end

/-- Settles O32: each MXF waits for its turn, and then begins, adds to or writes out and ends its tile. -/
theorem fragmentTiles : Obligations.FragmentTiles := by
  unfold Obligations.FragmentTiles
  intro s cell slot fn g d a acc shape af bf zu sh id k w c x quire others hg hfull hacc hzu haf hbf hs hmode hst
  have hword : fn < 32 → d < 256 → a < 256 → MxfWord fn g d a acc shape af bf zu x := fun h1 h2 h3 =>
    mxfWord hg h1 h2 h3 hacc (shape_bounds hs).1 haf hbf hzu
  clear_value x
  have hV : ∀ {r n : Nat}, w.holds [r + n] = true → r + n < w.V ∧ r + n < 256 := fun h => (Swarm.holds_cons.1 h).1
  have hV2 : ∀ {r n q : Nat}, w.holds [r + n, q + n] = true → (r + n < w.V ∧ r + n < 256) ∧ q + n < w.V ∧ q + n < 256 := fun h =>
    ⟨(Swarm.holds_cons.1 h).1, (Swarm.holds_cons.1 (Swarm.holds_cons.1 h).2).1⟩
  refine ⟨?waits, ?zero, ?mma, ?out⟩
  case waits =>
    rintro i (⟨rfl, rfl, rfl, rfl, rfl⟩ | ⟨rfl, rfl, hd, ha, hh⟩ | ⟨rfl, rfl, hd, rfl, rfl, hh⟩) hi
    · have hx := hword (by decide) (by decide) (by decide)
      have hS : s.MxfStands id k _ g _ _ acc shape af _ zu x := ⟨hx, .inl ⟨rfl, rfl, rfl, rfl⟩, ⟨haf, hbf⟩,
        hx.regs_full hs (by decide) (fun h => absurd rfl h) (fun h => by cases h), hfull, hst⟩
      exact congrArg Host.Outcome.next (hS.waits hi)
    · obtain ⟨⟨h1, h2⟩, h3, h4⟩ := hV2 hh
      have hx := hword (by decide) (by omega) (by omega)
      have hS : s.MxfStands id k _ g _ _ acc shape af _ zu x := ⟨hx, .inr (.inl ⟨rfl, hd, ha⟩), ⟨haf, hbf⟩,
        hx.regs_full hs (by decide) (fun _ => h1) (fun _ => h3), hfull, hst⟩
      exact congrArg Host.Outcome.next (hS.waits hi)
    · obtain ⟨h1, h2⟩ := hV hh
      have hx := hword (by decide) (by omega) (by decide)
      have hS : s.MxfStands id k _ g _ _ acc shape af _ zu x := ⟨hx, .inr (.inr ⟨rfl, hd, rfl, rfl⟩), ⟨haf, hbf⟩,
        hx.regs_full hs (by decide) (fun _ => h1) (fun h => by cases h), hfull, hst⟩
      exact congrArg Host.Outcome.next (hS.waits hi)
  case zero =>
    rintro rfl rfl rfl rfl hi ho
    have hx := hword (by decide) (by decide) (by decide)
    have hS : s.MxfStands id k _ g _ _ acc shape af _ zu x := ⟨hx, .inl ⟨rfl, rfl, rfl, rfl⟩, ⟨haf, hbf⟩,
      hx.regs_full hs (by decide) (fun h => absurd rfl h) (fun h => by cases h), hfull, hst⟩
    exact mxfZero_begins hS hs hmode hi ho
  case mma =>
    rintro fa fb tile rfl hd ha hh hi hfa hfb hfmt ht htacc hfast
    obtain ⟨⟨h1, h2⟩, h3, h4⟩ := hV2 hh
    have hx := hword (by decide) (by omega) (by omega)
    have hS : s.MxfStands id k _ g _ _ acc shape af _ zu x := ⟨hx, .inr (.inl ⟨rfl, hd, ha⟩), ⟨haf, hbf⟩,
      hx.regs_mma hs rfl hfa hfb (pairPath_of_mxFormat hfa hfb hfmt) h1 h3, hfull, hst⟩
    exact mxfMma_adds hS hs hmode hi hfa hfb hfmt ht htacc hfast
  case out =>
    rintro f tile rfl hd rfl rfl hh hi hf hraw he hc h64 hlt hz ht htacc hfast
    obtain ⟨h1, h2⟩ := hV hh
    have hx := hword (by decide) (by omega) (by decide)
    have hS : s.MxfStands id k _ g _ _ acc shape af _ zu x := ⟨hx, .inr (.inr ⟨rfl, hd, rfl, rfl⟩), ⟨haf, hbf⟩,
      hx.regs_full hs (by decide) (fun _ => h1) (fun h => by cases h), hfull, hst⟩
    exact mxfOut_writes hS hs hi hf hraw he hc h64 hlt hz ht htacc hfast

end Sys2Proof.Machine
end

section
/-! PROOFS (O30). The completion of an asynchronous operation, with and without a fault (R94, R125, R129, R174, R195). -/
namespace Sys2Proof.Machine

/-! ### A park that ends no launch, with or without a park requested (R125, R126) -/

section
variable {s t : State} {id k : Nat} {p : Park}

/-- R130: whether a park ends a launch turns on the context of its swarm, on PARK_CTL.HANDLER and on swarm 0. -/
theorem parksAlone_congr (hc : (t.swarm id k).ctx = (s.swarm id k).ctx) (h0 : k ≠ 0 → t.swarm id 0 = s.swarm id 0)
    (hh : t.handler id = s.handler id) : t.parksAlone id k = s.parksAlone id k := by
  unfold State.parksAlone
  rw [hc, hh]
  by_cases hk : k = 0
  · simp [hk]
  · rw [h0 hk]

/-- R126: the state in which a park requested of a swarm that parks for another cause has been ignored. -/
def State.dropRequest (s : State) (id k code : Nat) : State :=
  if (s.swarm id k).parkReq.isSome && code != 0x1015 then s.ignored id else s

theorem dropRequest_cases (s : State) (id k code : Nat) : s.dropRequest id k code = s ∨ s.dropRequest id k code = s.ignored id := by
  unfold State.dropRequest
  split
  · exact .inr rfl
  · exact .inl rfl

theorem cell_ignored (s : State) (id i : Nat) : (s.ignored id).cell i = s.cell i := State.cell_wr ..

theorem handler_dropRequest (code : Nat) : (s.dropRequest id k code).handler id = s.handler id := by
  have hne : ∀ n, (Reg.cellParkCtlHandler n).off ≠ (Reg.cellParkStatusCmdIgnored n).off := fun n => by
    simp only [Reg.cellParkCtlHandler, Reg.cellParkStatusCmdIgnored]; omega
  rcases dropRequest_cases s id k code with h | h
  · rw [h]
  · rw [h, State.handler, State.ignored, State.phys_wr, rd_wr_ne _ _ _ _ (hne _), State.handler]

theorem cell_dropRequest (code i : Nat) : (s.dropRequest id k code).cell i = s.cell i := by
  rcases dropRequest_cases s id k code with h | h <;> rw [h]
  exact cell_ignored s id i

theorem swarm_dropRequest (code j : Nat) : (s.dropRequest id k code).swarm id j = s.swarm id j :=
  congrArg (·.swarm j) (cell_dropRequest code id)

theorem parksAlone_dropRequest (code : Nat) : (s.dropRequest id k code).parksAlone id k = s.parksAlone id k :=
  parksAlone_congr (by rw [swarm_dropRequest]) (fun _ => swarm_dropRequest code 0) (handler_dropRequest code)

/-- R122, R126: every park at the instruction a swarm stands at: a request is ignored, the swarm parks, and its park is reported unless
the dispatcher asked for it. -/
theorem park_eq_report (s : State) (id k : Nat) (p : Park) : let u := s.dropRequest id k p.code
    s.park id k p = if p.code == 0x1015 && p.detail == 1 then u.parkedAt id k p else (u.parkedAt id k p).reportPark id k p.code := by
  intro u
  have hm := modCell_modCell u id (fun c => c.putRecord k (u.parkWords id k p)) fun c => c.modSwarm k fun w => w.parked (u.swarm id k).pc
  have e : u.parkedAt id k p = ((u.modCell id fun c => c.putRecord k (u.parkWords id k p)).modSwarm id k
      fun w => w.parked (u.swarm id k).pc).bump (Reg.cellParkStatusParkCount (u.phys id)) :=
    congrArg (fun t : State => t.bump (Reg.cellParkStatusParkCount (u.phys id))) hm.symm
  have hu : u = if (s.swarm id k).parkReq.isSome && p.code != 0x1015 then s.ignored id else s := rfl
  have hw : u.swarm id k = s.swarm id k := swarm_dropRequest ..
  clear_value u
  rw [e, State.parkWords, hw]
  unfold State.park State.parkAt
  dsimp only
  rw [← hu]
  rfl

/-- A park that follows a change of registers alone is a park of the state before that change. -/
theorem Parks.after {u : State} (h : Parks u t id k p) (hu : CellTo s u id (s.cell id)) (hn : u.now = s.now) : Parks s t id k p := by
  obtain ⟨l, h⟩ := h
  have hw : u.swarm id k = s.swarm id k := hu.swarm k
  rw [State.parkWords, hw, hu.cell, hn] at h
  exact ⟨l, hu.trans h⟩

/-- R122, R130: every park that ends no launch leaves its record, and its swarm parked. -/
theorem park_parks_of_alone (h : s.parksAlone id k = true) : Parks s (s.park id k p) id k p := by
  have hu : Parks (s.dropRequest id k p.code) (s.park id k p) id k p := by
    rw [park_eq_report]
    split
    · exact parkedAt_parks ..
    · exact reportPark_parks _ ((parksAlone_dropRequest p.code).trans h)
  rcases dropRequest_cases s id k p.code with e | e <;> rw [e] at hu
  · exact hu
  · exact hu.after (ignored_cellTo s id) (State.now_wr ..)

/-- R130: the report of a park that ends no launch writes no register but the dispatcher's EVENTS. -/
theorem reg_reportPark_alone (code : Nat) {o : Nat} (h : s.parksAlone id k = true) (hi : o ≠ Reg.hostIrqCauseBits.off)
    (hd : o ≠ (Reg.dispEventsEvents (chOf id)).off) : (s.reportPark id k code).reg o = s.reg o := by
  unfold State.reportPark
  dsimp only
  split
  · rfl
  · next hn =>
    have hc : (s.swarm id k).ctx = none := by
      simp only [State.parksAlone, Bool.or_eq_true, Option.isNone_iff_eq_none] at h
      exact h.resolve_right hn
    simp only [State.parkReport, hc]
    exact reg_evt s 0x800C (chOf id) o hi fun f b e => by cases e; exact hd

/-- R122, R130: a park that ends no launch writes no register but PARK_STATUS and the dispatcher's EVENTS. -/
theorem reg_park_alone {o : Nat} (h : s.parksAlone id k = true) (hp : o ≠ (Reg.cellParkStatusParkCount (s.phys id)).off)
    (hi : o ≠ Reg.hostIrqCauseBits.off) (hd : o ≠ (Reg.dispEventsEvents (chOf id)).off) : (s.park id k p).reg o = s.reg o := by
  have hu : (s.dropRequest id k p.code).reg o = s.reg o ∧ (s.dropRequest id k p.code).phys id = s.phys id := by
    rcases dropRequest_cases s id k p.code with e | e <;> rw [e]
    · exact ⟨rfl, rfl⟩
    · exact ⟨reg_wr_ne s _ 1 hp, State.phys_wr ..⟩
  have hparked : ((s.dropRequest id k p.code).parkedAt id k p).reg o = s.reg o := by
    rw [State.parkedAt, bump_def, reg_wr_ne _ _ _ (by rw [hu.2]; exact hp)]
    exact hu.1
  rw [park_eq_report]
  split
  · exact hparked
  · rw [reg_reportPark_alone p.code (parksAlone_parkedAt ((parksAlone_dropRequest p.code).trans h)) hi hd, hparked]

end

/-! ### The record of a park for an asynchronous fault (R129, Table 06-4) -/

/-- R125, R129: the park of a swarm for a fault of an asynchronous operation. -/
def AsyncFault.park (f : AsyncFault) (insn : Nat) : Park :=
  { code := f.code, insn := insn, detail := f.detail, async := some (f.token, f.pc, f.operand) }

/-- Table 06-4: what a fault reports fits its fields of the record. -/
structure AsyncFault.Fits (f : AsyncFault) : Prop where
  code : f.code < 2 ^ 16
  detail : f.detail < 2 ^ 64
  token : f.token < 16
  pc : f.pc < 2 ^ 32
  operand : f.operand < 2 ^ 64

/-- R129: CODE, DETAIL, the token, the issue offset and the operand of the record of an asynchronous fault. -/
theorem Parks.asyncRecord {s t : State} {id k insn : Nat} {f : AsyncFault} (h : Parks s t id k (f.park insn)) (hf : f.Fits) :
    (t.cell id).recField k 2 0 16 = f.code ∧ (t.cell id).recWord k 13 = f.detail ∧ (t.cell id).recField k 10 8 8 = f.token ∧
      (t.cell id).recField k 10 32 32 = f.pc ∧ (t.cell id).recWord k 14 = f.operand := by
  obtain ⟨hcode, hdetail, htok, hpc, hop⟩ := hf
  have hlen : (s.parkWords id k (f.park insn)).length = 16 := rfl
  have h2 := recWord_of_records (i := 2) h.records (by rw [hlen]; decide)
  have h10 := recWord_of_records (i := 10) h.records (by rw [hlen]; decide)
  have h13 := recWord_of_records (i := 13) h.records (by rw [hlen]; decide)
  have h14 := recWord_of_records (i := 14) h.records (by rw [hlen]; decide)
  obtain ⟨n, h2⟩ : ∃ n, (t.cell id).recWord k 2 = (f.code + n * 2 ^ 16) % 2 ^ 64 := by
    simp only [State.parkWords, Swarm.record, AsyncFault.park, List.getElem_cons_succ, List.getElem_cons_zero] at h2
    generalize Bool.toNat _ + 2 * _ + _ + _ + _ + _ = flags at h2
    exact ⟨k + flags * 2 ^ 8, by omega⟩
  obtain ⟨act, faults, hact, hfaults, h10⟩ : ∃ act faults, act < 4 ∧ faults < 2 ^ 16 ∧
      (t.cell id).recWord k 10 = (act + f.token * 2 ^ 8 + faults * 2 ^ 16 + f.pc * 2 ^ 32) % 2 ^ 64 := by
    refine ⟨_, _, ?_, (testBit_maskOf 16 _).1, h10⟩
    have h0 := Bool.toNat_le (s.swarm id k).loop0.active
    have h1 := Bool.toNat_le (s.swarm id k).loop1.active
    omega
  refine ⟨?_, h13.trans (Nat.mod_eq_of_lt hdetail), ?_, ?_, h14.trans (Nat.mod_eq_of_lt hop)⟩
  · rw [CellMem.recField, h2, bits_eq]; omega
  · rw [CellMem.recField, h10, bits_eq]; omega
  · rw [CellMem.recField, h10, bits_eq]; omega

/-! ### A unit is done with its operation -/

/-- R94: a token's count goes down by one. -/
def Swarm.countDown (w : Swarm) (t : Nat) : Swarm := { w with tokens := sset 0 w.tokens t (w.token t - 1) }

theorem Swarm.token_countDown (w : Swarm) (t n : Nat) : (w.countDown t).token n = w.token n - if n = t then 1 else 0 := by
  show sget 0 (sset 0 w.tokens t (w.token t - 1)) n = _
  rw [sget_sset]
  split
  · next h => rw [h]
  · rfl

/-- A change of a cell that concerns neither its local memory nor its swarms. -/
def KeepsLmAndSwarms (g : CellMem → CellMem) : Prop := ∀ c, (g c).lm = c.lm ∧ (g c).swarms = c.swarms

/-- R174, R195: OPS_DONE or XFERS_DONE of a physical cell. -/
def IsDoneCount (p : Nat) (f : RegField) : Prop := f = Reg.cellMxStatusOpsDone p ∨ f = Reg.cellAgStatusXfersDone p

theorem IsDoneCount.fits {p : Nat} {f : RegField} (h : IsDoneCount p f) : f.lo + f.len ≤ 64 := by
  rcases h with rfl | rfl <;> exact (by decide : 0 + 32 ≤ 64)

/-- Neither count shares its register with what a park or an event writes, or with PARK_CTL. -/
theorem IsDoneCount.off_ne {p : Nat} {f : RegField} (h : IsDoneCount p f) (id : Nat) :
    f.off ≠ (Reg.cellParkStatusParkCount p).off ∧ f.off ≠ (Reg.cellParkCtlHandler p).off ∧ f.off ≠ Reg.hostIrqCauseBits.off ∧
      f.off ≠ (Reg.dispEventsEvents (chOf id)).off := by
  have hch : chOf id < 2 ^ 2 := bits_lt ..
  rcases h with rfl | rfl <;>
    simp only [Reg.cellMxStatusOpsDone, Reg.cellAgStatusXfersDone, Reg.cellParkStatusParkCount, Reg.cellParkCtlHandler,
      Reg.hostIrqCauseBits, Reg.dispEventsEvents] <;> omega

section
variable {s : State} {id : Nat} {op : AsyncOp} {g : CellMem → CellMem} {f : RegField}

/-- R133: where no operation waits to be issued again, none is. -/
theorem foldl_tryReissue_none (h : ∀ j, (s.swarm id j).reissue = none) (l : List Nat) :
    l.foldl (fun s j => s.tryReissue id j) s = s := by
  induction l with
  | nil => rfl
  | cons j l ih => rw [List.foldl_cons, tryReissue_none (h j), ih]

/-- R174, R195: the state in which a unit has become idle and counted its operation. -/
def State.unitDone (s : State) (id : Nat) (g : CellMem → CellMem) (f : RegField) : State := (s.modCell id g).incr f

/-- R94: and in which the operation's token has counted down. -/
def State.opDone (s : State) (id : Nat) (g : CellMem → CellMem) (f : RegField) (op : AsyncOp) : State :=
  (s.unitDone id g f).modSwarm id op.slot fun w => w.countDown op.token

theorem opDone_cellTo (hg : KeepsLmAndSwarms g) :
    CellTo s (s.opDone id g f op) id ((g (s.cell id)).modSwarm op.slot fun w => w.countDown op.token) :=
  ((cellTo_modCell s id (hg _).1).regsOnly ((RegsOnly.refl _).wr f _)).modSwarm op.slot _

theorem rd_opDone (hf : f.lo + f.len ≤ 64) : (s.opDone id g f op).rd f = (s.rd f + 1) % 2 ^ f.len :=
  rd_wr_same (s.modCell id g) f (s.rd f + 1) hf

theorem swarm_opDone (hg : KeepsLmAndSwarms g) : (s.opDone id g f op).swarm id op.slot = (s.swarm id op.slot).countDown op.token := by
  rw [(opDone_cellTo hg).swarm, CellMem.swarm_modSwarm_same, CellMem.swarm, (hg _).2]
  rfl

theorem swarm_opDone_ne (hg : KeepsLmAndSwarms g) {j : Nat} (hj : j ≠ op.slot) : (s.opDone id g f op).swarm id j = s.swarm id j := by
  rw [(opDone_cellTo hg).swarm, CellMem.swarm_modSwarm_ne _ _ hj, CellMem.swarm, (hg _).2]
  rfl

theorem reissue_opDone (hg : KeepsLmAndSwarms g) (h : ∀ j, (s.swarm id j).reissue = none) (j : Nat) :
    ((s.opDone id g f op).swarm id j).reissue = none := by
  by_cases hj : j = op.slot
  · subst hj; rw [swarm_opDone hg]; exact h _
  · rw [swarm_opDone_ne hg hj]; exact h _

/-- R94, R174, R195: a completion without a fault takes one from its token, is counted, and changes nothing else. -/
theorem asyncDone_effect (hg : KeepsLmAndSwarms g) (hf : IsDoneCount (s.phys id) f) (h : ∀ j, (s.swarm id j).reissue = none) :
    let k := op.slot
    let t := (s.unitDone id g f).asyncDone id op none
    (KeepsBytes s t ∧ KeepsSwarms s t id k ∧ t.pkts = s.pkts ∧ t.rd f = (s.rd f + 1) % 2 ^ f.len ∧
      t.swarm id k = { s.swarm id k with tokens := (t.swarm id k).tokens } ∧
      ∀ n, (t.swarm id k).token n = (s.swarm id k).token n - if n = op.token then 1 else 0) ∧
    t.cell id = (g (s.cell id)).modSwarm k fun w => w.countDown op.token := by
  intro k t
  have ht : t = s.opDone id g f op := foldl_tryReissue_none (reissue_opDone hg h) _
  have hc := opDone_cellTo (s := s) (id := id) (op := op) (f := f) hg
  rw [ht, swarm_opDone hg]
  refine ⟨⟨hc.bytes, hc.keepsSwarms fun j hj => ?_, hc.pkts, rd_opDone hf.fits, rfl, Swarm.token_countDown _ _⟩, hc.cell⟩
  rw [CellMem.swarm_modSwarm_ne _ _ hj, CellMem.swarm, (hg _).2]
  rfl

/-! ### A completion with a fault (R125) -/

/-- R125, R130: a fault reported to the swarm parks it at once, and the park ends no launch. -/
structure State.ParksAtFault (s : State) (id k : Nat) : Prop where
  active : (s.swarm id k).st = .active
  mem : (s.swarm id k).mem = none
  reissue : (s.swarm id k).reissue = none
  faults : (s.swarm id k).asyncFaults = []
  alone : s.parksAlone id k = true

/-- R94: a count and a token count leave a swarm one that parks at a fault. -/
theorem State.ParksAtFault.opDone (h : s.ParksAtFault id op.slot) (hg : KeepsLmAndSwarms g)
    (hf : f.off ≠ (Reg.cellParkCtlHandler (s.phys id)).off) : (s.opDone id g f op).ParksAtFault id op.slot := by
  have hw := swarm_opDone (s := s) (id := id) (op := op) (f := f) hg
  have hh : (s.opDone id g f op).handler id = s.handler id := congrArg (· == 1) (rd_wr_ne (s.modCell id g) f _ _ hf.symm)
  refine ⟨?_, ?_, ?_, ?_, (parksAlone_congr (by rw [hw]; rfl) (fun h0 => swarm_opDone_ne hg h0.symm) hh).trans h.alone⟩
  all_goals rw [hw]
  exacts [h.active, h.mem, h.reissue, h.faults]

/-- R125: the state of a swarm to which an asynchronous fault has been reported. -/
def State.reported (s : State) (id k : Nat) (f : AsyncFault) : State := s.modSwarm id k fun w => { w with asyncFaults := w.asyncFaults ++ [f] }

section
variable {k : Nat} {f : AsyncFault}

theorem parksAlone_reported : (s.reported id k f).parksAlone id k = s.parksAlone id k :=
  parksAlone_modSwarm (f := fun w => { w with asyncFaults := w.asyncFaults ++ [f] }) fun _ => rfl

/-- R125: an ACTIVE swarm without other faults parks for the fault that is reported. -/
theorem asyncFault_eq_park (h : s.ParksAtFault id k) :
    ∃ insn, s.asyncFault id k f = (s.reported id k f).park id k (f.park insn) := by
  have hw : (s.reported id k f).swarm id k = { s.swarm id k with asyncFaults := [f] } := by
    rw [State.reported, swarm_modSwarm_same, h.faults]; rfl
  have e : s.asyncFault id k f = (s.reported id k f).boundary id k := by simp only [State.asyncFault, h.active]; rfl
  refine ⟨((s.reported id k f).cell id).word f.pc, ?_⟩
  rw [e, State.boundary]
  simp [hw, h.active, h.mem, h.reissue, firstFault, AsyncFault.park]

theorem asyncFault_parks (h : s.ParksAtFault id k) :
    ∃ insn, Parks (s.reported id k f) (s.asyncFault id k f) id k (f.park insn) := by
  obtain ⟨insn, e⟩ := asyncFault_eq_park (f := f) h
  rw [e]
  exact ⟨insn, park_parks_of_alone (parksAlone_reported.trans h.alone)⟩

theorem reg_asyncFault (h : s.ParksAtFault id k) {o : Nat} (hp : o ≠ (Reg.cellParkStatusParkCount (s.phys id)).off)
    (hi : o ≠ Reg.hostIrqCauseBits.off) (hd : o ≠ (Reg.dispEventsEvents (chOf id)).off) : (s.asyncFault id k f).reg o = s.reg o := by
  obtain ⟨insn, e⟩ := asyncFault_eq_park (f := f) h
  rw [e]
  exact (reg_park_alone (parksAlone_reported.trans h.alone) hp hi hd).trans (State.reg_modSwarm ..)

/-- R125, R130: the cell that a reported fault leaves. -/
theorem asyncFault_cellTo (h : s.ParksAtFault id k) : ∃ c, CellTo s (s.asyncFault id k f) id c ∧ (c.swarm k).st = .parked ∧
    (c.swarm k).tokens = (s.swarm id k).tokens ∧ (c.swarm k).reissue = none ∧ ∀ j, j ≠ k → c.swarm j = s.swarm id j := by
  obtain ⟨insn, hpark⟩ := asyncFault_parks (f := f) h
  obtain ⟨c, hc, hk, hj, -⟩ := hpark.cellTo_eq
  rw [State.reported, swarm_modSwarm_same] at hk
  refine ⟨c, (cellTo_modSwarm ..).trans hc, by rw [hk]; rfl, by rw [hk]; rfl, by rw [hk]; exact h.reissue,
    fun j hne => (hj j hne).trans ?_⟩
  rw [State.reported, swarm_modSwarm, if_neg fun h => hne h.2]

end

/-- R94, R125, R129: a completion with a fault counts down its token, is counted, and parks its ACTIVE swarm with the fault's record. -/
theorem asyncDone_fault_effect {code detail : Nat} (hg : KeepsLmAndSwarms g) (hf : IsDoneCount (s.phys id) f)
    (hfit : AsyncFault.Fits { token := op.token, pc := op.pc, operand := op.operand, code := code, detail := detail })
    (hs : s.ParksAtFault id op.slot) (hr : ∀ j, (s.swarm id j).reissue = none) :
    let k := op.slot
    let t := (s.unitDone id g f).asyncDone id op (some (code, detail))
    KeepsBytes s t ∧ KeepsSwarms s t id k ∧ (t.swarm id k).st = .parked ∧ (t.swarm id k).token op.token = (s.swarm id k).token op.token - 1 ∧
      (t.cell id).recField k 2 0 16 = code ∧ (t.cell id).recWord k 13 = detail ∧ (t.cell id).recField k 10 8 8 = op.token ∧
      (t.cell id).recField k 10 32 32 = op.pc ∧ (t.cell id).recWord k 14 = op.operand ∧ t.rd f = (s.rd f + 1) % 2 ^ f.len := by
  intro k t
  let e : AsyncFault := { token := op.token, pc := op.pc, operand := op.operand, code := code, detail := detail }
  let u := s.opDone id g f op
  obtain ⟨hpark_ne, hctl_ne, hirq_ne, hevents_ne⟩ := hf.off_ne id
  have hu : CellTo s u id _ := opDone_cellTo hg
  have hup : u.ParksAtFault id k := hs.opDone hg hctl_ne
  obtain ⟨insn, hpark⟩ := asyncFault_parks (f := e) hup
  obtain ⟨c, hc, hst, htokens, hreissue, hne⟩ := asyncFault_cellTo (f := e) hup
  have ht : t = u.asyncFault id k e := foldl_tryReissue_none (s := u.asyncFault id k e) (fun j => by
    rw [hc.swarm]
    by_cases hj : j = k
    · rw [hj, hreissue]
    · rw [hne j hj]; exact reissue_opDone hg hr j) _
  have hreg : (u.asyncFault id k e).reg f.off = u.reg f.off :=
    reg_asyncFault hup (by rw [hu.phys]; exact hpark_ne) hirq_ne hevents_ne
  obtain ⟨hcode, hdetail, htok, hpc, hop⟩ := hpark.asyncRecord hfit
  have hsc := hu.trans hc
  rw [ht]
  refine ⟨hsc.bytes, hsc.keepsSwarms fun j hj => (hne j hj).trans (swarm_opDone_ne hg hj), by rw [hc.swarm, hst], ?_,
    hcode, hdetail, htok, hpc, hop, ?_⟩
  · have huk : u.swarm id k = (s.swarm id k).countDown op.token := swarm_opDone hg
    rw [hc.swarm, Swarm.token, htokens, huk]
    exact (Swarm.token_countDown ..).trans (by rw [if_pos rfl])
  · exact (congrArg (bits · f.lo f.len) hreg).trans (rd_opDone hf.fits)

end

/-! ### MX_COMPLETE and XFER_COMPLETE -/

section
variable {s : State} {id : Nat} {run : AsyncRun}

/-- R172, R174: the matrix unit is idle, and a LAST pass has ended its tile. -/
def CellMem.passDone (run : AsyncRun) (c : CellMem) : CellMem :=
  { if mdLast run.desc then c.endTile (mdAcc run.desc) (modeFast run.op.mode) else c with mxRun := none }

/-- R174: the matrix unit is idle. -/
def CellMem.mxIdle (c : CellMem) : CellMem := { c with mxRun := none }

/-- R195: the transfer engine is idle. -/
def CellMem.agIdle (c : CellMem) : CellMem := { c with agRun := none }

theorem CellMem.passDone_keeps (run : AsyncRun) : KeepsLmAndSwarms (CellMem.passDone run) := fun c => by
  unfold CellMem.passDone
  split <;> exact ⟨rfl, rfl⟩

theorem CellMem.mxIdle_keeps : KeepsLmAndSwarms CellMem.mxIdle := fun _ => ⟨rfl, rfl⟩

theorem CellMem.agIdle_keeps : KeepsLmAndSwarms CellMem.agIdle := fun _ => ⟨rfl, rfl⟩

theorem CellMem.passDone_tiles (run : AsyncRun) (c : CellMem) : (c.passDone run).tiles =
    if mdLast run.desc then c.tiles.filter fun x => x.acc != mdAcc run.desc || x.fast != modeFast run.op.mode else c.tiles := by
  unfold CellMem.passDone
  split <;> rfl

/-- R174: the completion of a pass that met no error. -/
theorem mxComplete_pass (h : (s.cell id).mxRun = some run) (hf : run.fault = none) (hp : (s.mxPass id run).2 = false) :
    let u := (s.mxPass id run).1
    s.mxComplete id = (u.unitDone id (CellMem.passDone run) (Reg.cellMxStatusOpsDone (u.phys id))).asyncDone id run.op none := by
  unfold State.mxComplete
  simp only [h, hf, hp, Bool.false_or, Bool.false_eq_true, if_false]
  have hu : ∀ u : State, (if mdLast run.desc = true then u.modCell id fun c => c.endTile (mdAcc run.desc) (modeFast run.op.mode) else u).modCell id
      CellMem.mxIdle = u.modCell id (CellMem.passDone run) := fun u => by
    unfold CellMem.passDone
    split
    · exact modCell_modCell ..
    · rfl
  exact congrArg (fun v : State => (v.incr (Reg.cellMxStatusOpsDone (v.phys id))).asyncDone id run.op none) (hu _)

/-- R174: the completion of a matrix operation whose checks failed. -/
theorem mxComplete_fault {e : Nat × Nat} (h : (s.cell id).mxRun = some run) (hf : run.fault = some e) :
    s.mxComplete id = (s.unitDone id CellMem.mxIdle (Reg.cellMxStatusOpsDone (s.phys id))).asyncDone id run.op (some e) := by
  unfold State.mxComplete
  simp only [h, hf]
  rfl

/-- R195: the operation and the descriptors of the transfer that runs. -/
def AsyncRun.xfer (run : AsyncRun) : XferIn :=
  { op := fieldLE run.desc 0 1, win := run.tensors.getD 0 [], src := run.tensors.getD 1 [], dst := run.tensors.getD 2 [] }

/-- R195: the completion of a transfer that met no error. -/
theorem xferComplete_all {host : Bytes} (h : (s.cell id).agRun = some run) (hf : run.fault = none) :
    let x := XferSt.all { s := s, host := host } id run.op.slot run.xfer
    x.fault = none →
    s.xferComplete id host = (x.s.unitDone id CellMem.agIdle (Reg.cellAgStatusXfersDone (x.s.phys id))).asyncDone id run.op none := by
  intro x hx
  have e : s.xferComplete id host =
      (x.s.unitDone id CellMem.agIdle (Reg.cellAgStatusXfersDone (x.s.phys id))).asyncDone id run.op x.fault := by
    unfold State.xferComplete
    simp only [h, hf, Option.isSome_none, Bool.false_eq_true, if_false]
    rfl
  rw [e, hx]

/-- R195: the completion of a transfer whose checks failed. -/
theorem xferComplete_fault {host : Bytes} {e : Nat × Nat} (h : (s.cell id).agRun = some run) (hf : run.fault = some e) :
    s.xferComplete id host = (s.unitDone id CellMem.agIdle (Reg.cellAgStatusXfersDone (s.phys id))).asyncDone id run.op (some e) := by
  unfold State.xferComplete
  simp only [h, hf, Option.isSome_some, if_true]
  rfl

end

/-- Settles O30: a completion is a unit that becomes idle and counts, and an operation that is done, with or without a fault. -/
theorem asyncCompletion : Obligations.AsyncCompletion := by
  unfold Obligations.AsyncCompletion
  intro s cell host run id k w p x ends hrun
  refine ⟨fun h hf hp hr => ?pass, fun h hf hx hr => ?transfer,
    fun i f code detail hi hf hcode hdetail _ htok hpc hop hst hm hfs hr hal => ?fault⟩
  case pass =>
    obtain ⟨hends, hcell⟩ := asyncDone_effect (op := run.op) (CellMem.passDone_keeps run) (.inl rfl) hr
    refine ⟨_, congrArg Host.Outcome.next ((if_pos hrun).trans (mxComplete_pass h hf hp)), ?_, hends, ?_⟩
    · exact congrArg CellMem.mxRun hcell
    · exact (congrArg CellMem.tiles hcell).trans (CellMem.passDone_tiles run _)
  case transfer =>
    obtain ⟨hends, hcell⟩ := asyncDone_effect (op := run.op) CellMem.agIdle_keeps (.inr rfl) hr
    refine ⟨_, congrArg Host.Outcome.next ((if_pos hrun).trans (xferComplete_all h hf hx)), congrArg CellMem.agRun hcell, hends⟩
  case fault =>
    have hfit : AsyncFault.Fits ⟨run.op.token, run.op.pc, run.op.operand, code, detail⟩ := ⟨hcode, hdetail, htok, hpc, hop⟩
    have hs : s.ParksAtFault id k := ⟨hst, hm, hr k, hfs, hal⟩
    rcases hi with ⟨rfl, rfl, h⟩ | ⟨rfl, rfl, h⟩
    · exact ⟨_, congrArg Host.Outcome.next ((if_pos hrun).trans (mxComplete_fault h hf)),
        asyncDone_fault_effect CellMem.mxIdle_keeps (.inl rfl) hfit hs hr⟩
    · exact ⟨_, congrArg Host.Outcome.next ((if_pos hrun).trans (xferComplete_fault h hf)),
        asyncDone_fault_effect CellMem.agIdle_keeps (.inr rfl) hfit hs hr⟩

end Sys2Proof.Machine
end

section
/-! PROOFS. An event and the fields of its block's registers; what the Hoard recorder changes; and the islands of the governor. -/
namespace Sys2Proof.Machine

/-! ### The bit of an event -/

section
variable (s : State) {code n b : Nat} {f g : RegField}

/-- A code raised stands in its block's EVENTS field. -/
theorem bitAt_evt (h : evtField code n = some (f, b)) (hi : f.off ≠ Reg.hostIrqCauseBits.off) (hl : f.lo + f.len ≤ 64)
    (hb : b < f.len) :
    bitAt ((s.evt code n).rd f) b = true := by
  have key : bitAt ((s.setBit f b).rd f) b = true := by rw [bitAt_setBit s f b b hl hb]; simp
  unfold State.evt
  rw [h]
  dsimp only
  split
  · rw [rd_irq_ne _ _ f hi]; exact key
  · exact key

/-- A code raised leaves the fields outside its EVENTS field and HOST.IRQ_CAUSE. -/
theorem rd_evt (h : evtField code n = some (f, b)) (hi : g.off ≠ Reg.hostIrqCauseBits.off) (hl : g.lo + g.len ≤ 64)
    (hd : g.off ≠ f.off ∨ f.lo + f.len ≤ g.lo ∨ g.lo + g.len ≤ f.lo) : (s.evt code n).rd g = s.rd g := by
  have key : (s.setBit f b).rd g = s.rd g := by
    by_cases ho : g.off = f.off
    · exact rd_wr_disjoint s f g _ ho hl (hd.resolve_left fun h => h ho)
    · exact rd_wr_ne s f g _ ho
  unfold State.evt
  rw [h]
  dsimp only
  split
  · rw [rd_irq_ne _ _ g hi]; exact key
  · exact key

end

/-! ### What the recorder changes (R404 to R408) -/

/-- From `s` to `t` only registers, HBM, the recorder and the host interface have changed. -/
def RecordsOnly (s t : State) : Prop := ∃ r b e d o, t = { s with regs := r, hbm := b, hbmErr := e, hrd := d, host := o }

section
variable {s t u : State}

theorem RecordsOnly.refl (s : State) : RecordsOnly s s := ⟨_, _, _, _, _, rfl⟩

theorem RecordsOnly.trans (h : RecordsOnly s t) (k : RecordsOnly t u) : RecordsOnly s u := by
  obtain ⟨_, _, _, _, _, rfl⟩ := h
  obtain ⟨r, b, e, d, o, rfl⟩ := k
  exact ⟨r, b, e, d, o, rfl⟩

theorem RecordsOnly.wr (h : RecordsOnly s t) (f : RegField) (v : Nat) : RecordsOnly s (t.wr f v) := h.trans ⟨_, _, _, _, _, rfl⟩

theorem RecordsOnly.evt (h : RecordsOnly s t) (code n : Nat) : RecordsOnly s (t.evt code n) := by
  obtain ⟨r, m, p, e⟩ := (RegsOnly.refl t).evt code n
  exact h.trans ⟨r, _, _, _, _, e⟩

theorem RecordsOnly.cells (h : RecordsOnly s t) : t.cells = s.cells := by obtain ⟨_, _, _, _, _, rfl⟩ := h; rfl
theorem RecordsOnly.gov (h : RecordsOnly s t) : t.gov = s.gov := by obtain ⟨_, _, _, _, _, rfl⟩ := h; rfl
theorem RecordsOnly.dsp (h : RecordsOnly s t) (c : Nat) : t.dsp c = s.dsp c := by obtain ⟨_, _, _, _, _, rfl⟩ := h; rfl

end

section
variable (s : State)

theorem takeSeq_recordsOnly : RecordsOnly s s.takeSeq.2 := (RecordsOnly.refl s).wr _ _

theorem ringPut_recordsOnly (bs : Bytes) : RecordsOnly s (s.ringPut bs) := by
  unfold State.ringPut
  dsimp only
  split
  · exact ⟨_, _, _, _, _, rfl⟩
  · exact ⟨_, _, _, _, _, rfl⟩

theorem hrdAppend_recordsOnly (kind ch tick id : Nat) (payload : Bytes) : RecordsOnly s (s.hrdAppend kind ch tick id payload) := by
  have put : ∀ (t : State) (bs : Bytes), RecordsOnly t (t.takeSeq.2.ringPut bs) :=
    fun t bs => (takeSeq_recordsOnly t).trans (ringPut_recordsOnly _ bs)
  unfold State.hrdAppend
  dsimp only
  split
  · exact (takeSeq_recordsOnly s).trans ⟨_, _, _, _, _, rfl⟩
  · split
    · exact put s _
    · exact (put s _).trans (put _ _)

theorem hrdLose_recordsOnly : RecordsOnly s s.hrdLose := by
  have h : ∀ run, RecordsOnly s { s.takeSeq.2 with hrd := { s.takeSeq.2.hrd with lostRun := run } } :=
    fun run => (takeSeq_recordsOnly s).trans ⟨_, _, _, _, _, rfl⟩
  unfold State.hrdLose
  exact ((h _).wr _ _).evt _ _

theorem hrdFlush_recordsOnly : RecordsOnly s s.hrdFlush := by
  unfold State.hrdFlush
  split
  · exact .refl s
  split
  · exact RecordsOnly.trans ⟨_, _, _, _, _, rfl⟩ (hrdAppend_recordsOnly ..)
  · exact .refl s

theorem hrdHalt_recordsOnly : RecordsOnly s s.hrdHalt := by
  unfold State.hrdHalt
  exact (((takeSeq_recordsOnly s).wr _ _).wr _ _).evt _ _

/-- R404 to R408: an entry of the recorder, wherever it goes. -/
theorem hrdRecord_recordsOnly (kind ch id : Nat) (payload : Bytes) : RecordsOnly s (s.hrdRecord kind ch id payload) := by
  unfold State.hrdRecord State.hrdRecordAt
  split
  · dsimp only
    split
    · exact hrdHalt_recordsOnly s
    split
    · exact (hrdFlush_recordsOnly s).trans (hrdLose_recordsOnly _)
    · exact (hrdFlush_recordsOnly s).trans (hrdAppend_recordsOnly ..)
  split
  · exact (takeSeq_recordsOnly s).wr _ _
  · exact .refl s

end

/-! ### Islands alone -/

theorem island_modIsle (s : State) (i j : Nat) (f : Island → Island) :
    (s.modIsle i f).island j = if j = i then f (s.island i) else s.island j := sget_smod ..

theorem RegsOnly.island {s t : State} (h : RegsOnly s t) (i : Nat) : t.island i = s.island i := by rw [State.island, h.gov, State.island]

/-- From `s` to `t` only islands have changed. -/
def IslesOnly (s t : State) : Prop := ∃ l, t = { s with gov := { s.gov with islands := l } }

theorem IslesOnly.refl (s : State) : IslesOnly s s := ⟨_, rfl⟩

theorem IslesOnly.trans {s t u : State} (h : IslesOnly s t) (k : IslesOnly t u) : IslesOnly s u := by
  obtain ⟨_, rfl⟩ := h
  obtain ⟨l, rfl⟩ := k
  exact ⟨l, rfl⟩

theorem modIsle_islesOnly (s : State) (i : Nat) (f : Island → Island) : IslesOnly s (s.modIsle i f) := ⟨_, rfl⟩

theorem IslesOnly.foldl {α : Type} {f : State → α → State} (hf : ∀ s x, IslesOnly s (f s x)) (l : List α) (s : State) :
    IslesOnly s (l.foldl f s) :=
  List.foldlRecOn l f (.refl s) fun t h x _ => h.trans (hf t x)

end Sys2Proof.Machine
end

section
/-! PROOFS (O38). The profile, the bounds, droops, settling and stalls (R239, R240, R244 to R246, R250). -/
namespace Sys2Proof.Machine

section
variable {s : State}

/-! ### The profile (R244, R245) -/

theorem exec_govProfileWrite (hg : s.blockGate = .serve) (data : Word) :
    exec (.govProfileWrite data) s = .next (s.profileWrite (bits data.toNat 0 2)) := by
  show Host.Outcome.next (s.gated s.blockGate _) = _
  rw [hg]
  rfl

/-- The four dispatchers, each with the value sent. -/
theorem sget_pendingProfile (l : Sparse Nat) {c v : Nat} (hc : c < 4) :
    sget 0 ([0, 1, 2, 3].foldl (fun l ch => sset 0 l ch v) l) c = v := by
  have h : c = 0 ∨ c = 1 ∨ c = 2 ∨ c = 3 := by omega
  simp only [List.foldl_cons, List.foldl_nil, sget_sset]
  rcases h with rfl | rfl | rfl | rfl <;> rfl

/-- R244: without the lock the profile is sent to the four dispatchers, and none has applied it. -/
theorem profileWrite_unlocked (hl : s.rd Reg.govProfileLock = 0) {p : Nat} (hp : p < 4) :
    let t := s.profileWrite p
    KeepsBytes s t ∧ t.rd Reg.govProfileProfile = p ∧ t.rd Reg.govProfileApplied = 0 ∧
      (∀ c, c < 4 → sget 0 t.gov.pendingProfile c = p + 1) ∧ t.disp = s.disp ∧ t.gov.islands = s.gov.islands := by
  have e : s.profileWrite p = ((s.wr Reg.govProfileProfile p).wr Reg.govProfileApplied 0).modGov fun g =>
      { g with pendingProfile := [0, 1, 2, 3].foldl (fun l ch => sset 0 l ch (p % 4 + 1)) g.pendingProfile } := if_neg (by simp [hl])
  have hr : ((s.wr Reg.govProfileProfile p).wr Reg.govProfileApplied 0).rd Reg.govProfileProfile = p := by
    rw [rd_wr_disjoint _ Reg.govProfileApplied Reg.govProfileProfile _ rfl (by decide) (by decide), rd_wr_same _ _ _ (by decide)]
    exact Nat.mod_eq_of_lt hp
  rw [e]
  refine ⟨.of_eq rfl rfl rfl, hr, rd_wr_same _ Reg.govProfileApplied 0 (by decide), fun c hc => ?_, rfl, rfl⟩
  exact (sget_pendingProfile s.gov.pendingProfile hc).trans (congrArg (· + 1) (Nat.mod_eq_of_lt hp))

/-- R245: with the lock a write of the profile is an event alone. -/
theorem profileWrite_locked (hl : s.rd Reg.govProfileLock = 1) (p : Nat) : s.profileWrite p = s.evt 0xC00A 0 := if_pos (by simp [hl])

/-- R244: a dispatcher takes a profile, and its bit of APPLIED is set. -/
def State.takeProfile (s : State) (c p : Nat) : State :=
  ((s.modGov fun g => { g with pendingProfile := sdel g.pendingProfile c }).modDisp c fun d => { d with profile := p }).setBit
    Reg.govProfileApplied c

theorem takeProfile_profile (s : State) (c p : Nat) : ((s.takeProfile c p).dsp c).profile = p := by
  rw [State.takeProfile, State.dsp_setBit, dsp_modDisp_same]

theorem takeProfile_pendingProfile (s : State) (c p : Nat) : sget 0 (s.takeProfile c p).gov.pendingProfile c = 0 := sget_sdel_same ..

/-- R244: a dispatcher takes the value it has received, and the recorder keeps it. -/
theorem exec_profileApply {ch : BitVec 2} {p : Nat} (hp : sget 0 s.gov.pendingProfile ch.toNat = p + 1) (hf : s.gov.failed = false)
    (hu : s.dispUp ch.toNat = true) : exec (.profileApply ch) s =
      .next ((s.takeProfile ch.toNat p).hrdRecord 0x41 ch.toNat p []) := by
  show execProfileApply ch s = _
  unfold execProfileApply
  dsimp only
  rw [hp]
  dsimp only
  rw [if_neg (by simp [hf, hu])]
  rfl

/-! ### The bounds (R246) -/

theorem exec_govIsleWrite {data : Word} (hg : s.blockGate = .serve) (hw : bitAt data.toNat 63 = true) :
    exec (.govIsleWrite data) s = .next (s.isleWrite data.toNat) := by
  show execGovIsleWrite data s = _
  unfold execGovIsleWrite
  rw [if_neg (by simp [hw]), hg]
  rfl

/-- R246: valid bounds go to their island, and others are refused; registers apart, nothing else changes. -/
theorem isleWrite_eq {v : Nat} (hw : bitAt v 63 = true) :
    ∃ u, RegsOnly s u ∧ s.isleWrite v = if (isIsland (bits v 48 11) && boundsOk (bits v 48 11) (bits v 0 16) (bits v 16 16)) = true
      then u.isleBounds (bits v 48 11) (bits v 0 16) (bits v 16 16) else u := by
  have hr := writeReg_regsOnly s .gov 0 0x18 all64 v
  unfold State.isleWrite
  generalize s.writeReg .gov 0 0x18 all64 v = u at hr
  dsimp only
  rw [if_neg (by simp [hw]), ← Bool.not_and]
  cases isIsland (bits v 48 11) && boundsOk (bits v 48 11) (bits v 0 16) (bits v 16 16) with
  | true => exact ⟨u, hr, rfl⟩
  | false => exact ⟨u.regEncoding, hr.trans (regEncoding_regsOnly u), rfl⟩

theorem isleBounds_island (s : State) (i floor ceil j : Nat) : (s.isleBounds i floor ceil).island j =
    if j = i then { s.island i with floor := floor, ceil := ceil, set := true } else s.island j := island_modIsle ..

theorem isleWrite_effect {v : Nat} (hw : bitAt v 63 = true) :
    let t := s.isleWrite v
    let i := bits v 48 11
    KeepsBytes s t ∧ t.cells = s.cells ∧ ∀ j, t.island j = if (isIsland i && boundsOk i (bits v 0 16) (bits v 16 16)) = true ∧ j = i
      then { s.island i with floor := bits v 0 16, ceil := bits v 16 16, set := true } else s.island j := by
  obtain ⟨u, hu, e⟩ := isleWrite_eq (s := s) hw
  dsimp only
  rw [e]
  cases isIsland (bits v 48 11) && boundsOk (bits v 48 11) (bits v 0 16) (bits v 16 16) with
  | true =>
    refine ⟨hu.bytes.trans (.of_eq rfl rfl rfl), hu.cells, fun j => ?_⟩
    rw [if_pos rfl, isleBounds_island, hu.island, hu.island]
    simp only [true_and]
  | false => exact ⟨hu.bytes, hu.cells, fun j => by simpa only [Bool.false_eq_true, if_false, false_and] using hu.island j⟩

/-! ### Droops, settling and stalls (R239, R240, R250) -/

theorem exec_droopTrip {i : BitVec 11} (hr : s.pwr.running = true) (hi : (isleRange i.toNat).isSome = true)
    (hs : (s.island i.toNat).stopped = false) :
    exec (.droopTrip i) s = .next (s.modIsle i.toNat fun x => { x with droops := x.droops + 1 }) := by
  refine congrArg Host.Outcome.next (if_neg ?_)
  simpa [hr, hs] using Option.isSome_iff_ne_none.1 hi

theorem exec_voltageSettled {i : BitVec 11} {f : Nat} (hp : (s.island i.toNat).pending = some f) (hf : s.gov.failed = false)
    (hs : (s.island i.toNat).stopped = false) : exec (.voltageSettled i) s =
      .next (s.setFreq i.toNat (min f (max (s.isleTop i.toNat) (s.island i.toNat).freq))) := by
  show execVoltageSettled i s = _
  unfold execVoltageSettled
  dsimp only
  rw [hp]
  dsimp only
  rw [if_neg (by simp [hf, hs])]

theorem exec_isleStall {a b : BitVec 11} (hr : s.pwr.running = true) (hf : s.gov.failed = false)
    (hl : s.rd Reg.govLimitsStallLimit ≠ 0) (ha : isIsland a.toNat = true) (hb : isIsland b.toNat = true) :
    exec (.isleStall a b) s =
      .next (((s.wr Reg.govStatusStallFrom a.toNat).wr Reg.govStatusStallTo b.toNat).evt 0xC009 0) :=
  congrArg Host.Outcome.next (if_neg (by simp [hr, hf, hl, ha, hb]))

/-- R250: a stall's event names both islands. -/
theorem stall_effect (s : State) (a b : BitVec 11) :
    let t := ((s.wr Reg.govStatusStallFrom a.toNat).wr Reg.govStatusStallTo b.toNat).evt 0xC009 0
    KeepsBytes s t ∧ t.gov = s.gov ∧ t.rd Reg.govStatusStallFrom = a.toNat ∧ t.rd Reg.govStatusStallTo = b.toNat ∧
      bitAt (t.rd Reg.govStatusEvents) 8 = true := by
  have h := (((RegsOnly.refl s).wr Reg.govStatusStallFrom a.toNat).wr Reg.govStatusStallTo b.toNat).evt 0xC009 0
  refine ⟨h.bytes, h.gov, ?_, ?_, bitAt_evt _ rfl (by decide) (by decide) (by decide)⟩
  · rw [rd_evt _ (f := Reg.govStatusEvents) (b := 8) rfl (by decide) (by decide) (by decide),
      rd_wr_disjoint _ Reg.govStatusStallTo Reg.govStatusStallFrom _ rfl (by decide) (by decide), rd_wr_same _ _ _ (by decide)]
    exact Nat.mod_eq_of_lt a.isLt
  · rw [rd_evt _ (f := Reg.govStatusEvents) (b := 8) rfl (by decide) (by decide) (by decide), rd_wr_same _ _ _ (by decide)]
    exact Nat.mod_eq_of_lt b.isLt

end
end Sys2Proof.Machine
end

section
/-! PROOFS (O38). The control period and the comparator trip of the governor (R235, R239, R241, R242, R249). -/
namespace Sys2Proof.Machine

/-! ### What the steps of a period change (R239, R240) -/

/-- From `s` to `t` only registers, the MSI-X state, islands, the governor's `hot` and the stream of free values have changed. -/
def Steers (s t : State) : Prop :=
  ∃ r m p n l h, t = { s with regs := r, host := { s.host with msixSignalled := m, msixPending := p }, free := n,
                              gov := { s.gov with islands := l, hot := h } }

section
variable {s t u : State}

theorem Steers.refl (s : State) : Steers s s := ⟨_, _, _, _, _, _, rfl⟩

theorem Steers.trans (h : Steers s t) (k : Steers t u) : Steers s u := by
  obtain ⟨_, _, _, _, _, _, rfl⟩ := h
  obtain ⟨r, m, p, n, l, h, rfl⟩ := k
  exact ⟨r, m, p, n, l, h, rfl⟩

theorem Steers.evt (h : Steers s t) (code n : Nat) : Steers s (t.evt code n) := by
  obtain ⟨r, m, p, e⟩ := (RegsOnly.refl t).evt code n
  exact h.trans ⟨r, m, p, _, _, _, e⟩

theorem IslesOnly.steers (h : IslesOnly s t) : Steers s t := by
  obtain ⟨l, rfl⟩ := h
  exact ⟨_, _, _, _, l, _, rfl⟩

theorem Steers.setFreq (h : Steers s t) (i f : Nat) : Steers s (t.setFreq i f) := h.trans (modIsle_islesOnly ..).steers

theorem Steers.raiseTo (h : Steers s t) (i f : Nat) : Steers s (t.raiseTo i f) := h.trans (modIsle_islesOnly ..).steers

/-- A condition decides between two states. -/
theorem Steers.ite {c : Prop} [Decidable c] (h : Steers s t) (k : Steers s u) : Steers s (if c then t else u) := by
  split
  · exact h
  · exact k

theorem Steers.foldl {α : Type} {f : State → α → State} (hf : ∀ s x, Steers s (f s x)) (l : List α) (s : State) :
    Steers s (l.foldl f s) :=
  List.foldlRecOn l f (.refl s) fun t h x _ => h.trans (hf t x)

theorem Steers.foldl_fst {α β : Type} {f : State × β → α → State × β} (hf : ∀ a x, Steers a.1 (f a x).1) (l : List α)
    (a : State × β) : Steers a.1 (l.foldl f a).1 :=
  List.foldlRecOn (motive := fun b => Steers a.1 b.1) l f (.refl a.1) fun b h x _ => h.trans (hf b x)

theorem Steers.bytes (h : Steers s t) : KeepsBytes s t := by
  obtain ⟨_, _, _, _, _, _, rfl⟩ := h
  exact .of_eq rfl rfl rfl

theorem Steers.pwr (h : Steers s t) : t.pwr = s.pwr := by obtain ⟨_, _, _, _, _, _, rfl⟩ := h; rfl
theorem Steers.periods (h : Steers s t) : t.gov.periods = s.gov.periods := by obtain ⟨_, _, _, _, _, _, rfl⟩ := h; rfl
theorem Steers.powerNow (h : Steers s t) : t.gov.powerNow = s.gov.powerNow := by obtain ⟨_, _, _, _, _, _, rfl⟩ := h; rfl
theorem Steers.junction (h : Steers s t) : t.gov.junction = s.gov.junction := by obtain ⟨_, _, _, _, _, _, rfl⟩ := h; rfl

end

section
variable (s : State)

theorem stepDown_steers (i : Nat) : Steers s (s.stepDown i) := (Steers.refl s).setFreq _ _

theorem toFloor_steers (i : Nat) : Steers s (s.toFloor i) :=
  .ite ((Steers.refl s).setFreq _ _) (.ite ((Steers.refl s).raiseTo _ _) (.refl s))

theorem powerStep_steers (m : GovMeas) : Steers s (s.powerStep m).1 := by
  unfold State.powerStep
  extract_lets all above l
  split
  · exact .refl s
  · dsimp only
    have hf : Steers s s.fresh.2 := ⟨_, _, _, _, _, _, rfl⟩
    exact (hf.trans (.foldl stepDown_steers _ _)).evt _ _

theorem softStep_steers (a : State × List Nat) (i : Nat) : Steers a.1 (State.softStep a i).1 :=
  by
  unfold State.softStep
  dsimp only
  exact (Steers.foldl stepDown_steers _ _).evt _ _

theorem hbmStep_steers (a : State × List Nat) (x : BitVec 3 × Nat) : Steers a.1 (State.hbmStep a x).1 := by
  obtain ⟨s, acted⟩ := a
  have he : Steers s (if 95 ≤ x.2 then s.evt 0xC005 0 else s) := .ite ((Steers.refl s).evt _ _) (.refl s)
  unfold State.hbmStep
  dsimp only
  generalize (if 95 ≤ x.2 then s.evt 0xC005 0 else s) = t at he
  split
  · exact he
  split
  · exact he.trans (toFloor_steers t _)
  · exact he.trans (.ite (stepDown_steers t _) (.refl t))

theorem droopStep_steers (a : State × List Nat) (i : Nat) : Steers a.1 (State.droopStep a i).1 := by
  obtain ⟨s, acted⟩ := a
  have he : Steers s (s.evt 0xC00B 0) := (Steers.refl s).evt _ _
  unfold State.droopStep
  dsimp only
  split
  · exact .refl s
  split
  · exact he
  · exact he.trans (.ite (stepDown_steers _ i) (.refl _))

theorem activityStep_steers (acted : List Nat) (x : IslandMeas) : Steers s (State.activityStep acted s x) :=
  .ite (.refl s) (.ite (.ite ((Steers.refl s).raiseTo _ _) (.refl s)) (.ite (.ite (stepDown_steers s _) (.refl s)) (.refl s)))

/-- R239, R240: below the trip the steps of a period steer. -/
theorem govSteps_steers {m : GovMeas} (hm : ∀ x ∈ m.islands, quarterOf x < 460) : Steers s (s.govSteps m) := by
  have htrip : ((m.islands.map quarterOf).any fun t => decide (460 ≤ t)) = false := by
    simpa using hm
  have hhot : ∀ b, Steers s (s.modGov fun g => { g with hot := b }) := fun b => ⟨_, _, _, _, _, _, rfl⟩
  unfold State.govSteps
  simp only [htrip, Bool.false_eq_true, if_false]
  generalize ((m.islands.map quarterOf).any fun t => decide (420 ≤ t)) = hot
  have hs := hhot hot
  generalize (s.modGov fun g => { g with hot := hot }) = u at hs
  split
  · exact (hs.trans (.foldl toFloor_steers _ _)).evt _ _
  · have hp : Steers s (if u.rd Reg.govPowerLimit < u.rd Reg.govPowerAvg1ms then u.powerStep m else (u, [])).1 := by
      split
      · exact hs.trans (powerStep_steers u m)
      · exact hs
    generalize (if u.rd Reg.govPowerLimit < u.rd Reg.govPowerAvg1ms then u.powerStep m else (u, [])) = a at hp
    have hact : ∀ acted t, Steers t (m.islands.foldl (State.activityStep acted) t) :=
      fun acted => .foldl (fun t x => activityStep_steers t acted x) _
    have hraise : ∀ (l : List Nat) t, Steers t (l.foldl (fun t i => t.raiseTo i (t.isleFloor i)) t) :=
      .foldl fun t i => (Steers.refl t).raiseTo i _
    refine .trans ?_ (hraise _ _)
    refine .trans ?_ (hact _ _)
    refine .trans ?_ (.foldl_fst droopStep_steers _ _)
    refine .trans ?_ (.foldl_fst hbmStep_steers _ _)
    exact hp.trans (.foldl_fst softStep_steers _ _)

end

/-! ### The limits of an island (R241, R496) -/

/-- What the ceilings of islands and their movability depend on is the same. -/
structure SameLimits (s t : State) : Prop where
  img : t.img = s.img
  vrFault : t.pwr.vrFault = s.pwr.vrFault
  vrAgreed : t.pwr.vrAgreed = s.pwr.vrAgreed
  profile : t.gov.profile = s.gov.profile
  isle : ∀ i, (t.island i).set = (s.island i).set ∧ (t.island i).ceil = (s.island i).ceil ∧ (t.island i).stopped = (s.island i).stopped

section
variable {s t u : State}

theorem SameLimits.refl (s : State) : SameLimits s s := ⟨rfl, rfl, rfl, rfl, fun _ => ⟨rfl, rfl, rfl⟩⟩

theorem SameLimits.trans (h : SameLimits s t) (k : SameLimits t u) : SameLimits s u := by
  refine ⟨k.img.trans h.img, k.vrFault.trans h.vrFault, k.vrAgreed.trans h.vrAgreed, k.profile.trans h.profile, fun i => ?_⟩
  obtain ⟨hs, hc, hk⟩ := h.isle i
  obtain ⟨ks, kc, kk⟩ := k.isle i
  exact ⟨ks.trans hs, kc.trans hc, kk.trans hk⟩

theorem RegsOnly.sameLimits (h : RegsOnly s t) : SameLimits s t :=
  ⟨h.img, by rw [h.pwr], by rw [h.pwr], by rw [h.gov], fun i => by rw [h.island]; exact ⟨rfl, rfl, rfl⟩⟩

theorem modIsle_sameLimits (s : State) (i : Nat) {f : Island → Island}
    (hf : ∀ x, (f x).set = x.set ∧ (f x).ceil = x.ceil ∧ (f x).stopped = x.stopped) : SameLimits s (s.modIsle i f) := by
  refine ⟨rfl, rfl, rfl, rfl, fun j => ?_⟩
  rw [island_modIsle]
  split
  · next h => rw [h]; exact hf _
  · exact ⟨rfl, rfl, rfl⟩

theorem setFreq_sameLimits (s : State) (i f : Nat) : SameLimits s (s.setFreq i f) := modIsle_sameLimits s i fun _ => ⟨rfl, rfl, rfl⟩

theorem SameLimits.foldl {α : Type} {f : State → α → State} (hf : ∀ s x, SameLimits s (f s x)) (l : List α) (s : State) :
    SameLimits s (l.foldl f s) :=
  List.foldlRecOn l f (.refl s) fun t h x _ => h.trans (hf t x)

theorem SameLimits.unusedCell (h : SameLimits s t) (i : Nat) : t.unusedCell i = s.unusedCell i := by
  simp only [State.unusedCell, State.isBound, State.failedRowOf, h.img]

theorem SameLimits.movable (h : SameLimits s t) (i : Nat) : t.movable i = s.movable i := by
  obtain ⟨-, -, hs⟩ := h.isle i
  rw [State.movable, hs, h.unusedCell, State.movable]

theorem SameLimits.isleTop (h : SameLimits s t) (i : Nat) : t.isleTop i = s.isleTop i := by
  obtain ⟨hset, hceil, -⟩ := h.isle i
  simp only [State.isleTop, State.isleCeil, State.vrCap, hset, hceil, h.vrFault, h.vrAgreed, h.profile]

/-! ### No island above its ceiling (R241) -/

/-- No scalable island that runs and is in use runs above what it may. -/
def State.underCeilings (s : State) : Prop := ∀ i ∈ scalable, s.movable i = true → (s.island i).freq ≤ s.isleTop i

theorem SameLimits.underCeilings (h : SameLimits s t) (hf : ∀ i, s.movable i = true → (t.island i).freq = (s.island i).freq)
    (hs : s.underCeilings) : t.underCeilings := by
  intro i hi hm
  rw [h.movable] at hm
  rw [h.isleTop, hf i hm]
  exact hs i hi hm

theorem setFreq_freq (s : State) (i j f : Nat) : ((s.setFreq i f).island j).freq = if j = i then f else (s.island j).freq := by
  rw [State.setFreq, island_modIsle]
  split <;> rfl

/-- An island lowered to its ceiling, or below it already, stays there while others are lowered to theirs. -/
theorem foldl_setTop_le (l : List Nat) (s : State) {i : Nat} (h : i ∈ l ∨ (s.island i).freq ≤ s.isleTop i) :
    ((l.foldl (fun s i => s.setFreq i (s.isleTop i)) s).island i).freq ≤ s.isleTop i := by
  induction l generalizing s with
  | nil => exact h.resolve_left (List.not_mem_nil)
  | cons x l ih =>
    have htop := (setFreq_sameLimits s x (s.isleTop x)).isleTop i
    rw [List.foldl_cons, ← htop]
    refine ih _ ?_
    rw [htop, setFreq_freq]
    by_cases hx : i = x
    · exact .inr (by rw [if_pos hx, hx])
    · rw [if_neg hx]
      exact h.imp_left fun hm => (List.mem_cons.1 hm).resolve_left hx

theorem foldl_setFreq_freq_of_not_mem {l : List Nat} {f i : Nat} (h : i ∉ l) (s : State) :
    ((l.foldl (fun s i => s.setFreq i f) s).island i).freq = (s.island i).freq := by
  induction l generalizing s with
  | nil => rfl
  | cons x l ih =>
    obtain ⟨hx, hl⟩ := List.ne_and_not_mem_of_not_mem_cons h
    rw [List.foldl_cons, ih hl, setFreq_freq, if_neg hx]

theorem govClamp_steers (s : State) : Steers s s.govClamp :=
  (Steers.foldl (fun t i => (Steers.refl t).setFreq i _) _ s).trans (.foldl (fun t i => (Steers.refl t).setFreq i 400) _ _)

/-- R241: the clamp leaves no island above its ceiling. -/
theorem govClamp_underCeilings (s : State) : s.govClamp.underCeilings := by
  have hcap : ∀ l : List Nat, SameLimits s (l.foldl (fun s i => s.setFreq i (s.isleTop i)) s) :=
    fun l => .foldl (fun t i => setFreq_sameLimits t i _) l s
  have htop : ((scalable.filter fun i => s.movable i && s.isleTop i < (s.island i).freq).foldl
      (fun s i => s.setFreq i (s.isleTop i)) s).underCeilings := by
    intro i hi hm
    rw [(hcap _).movable] at hm
    rw [(hcap _).isleTop]
    refine foldl_setTop_le _ s ?_
    by_cases hf : (s.island i).freq ≤ s.isleTop i
    · exact .inr hf
    · exact .inl (List.mem_filter.2 ⟨hi, by simpa [hm] using hf⟩)
  unfold State.govClamp
  dsimp only
  generalize (scalable.filter fun i => s.movable i && s.isleTop i < (s.island i).freq).foldl
      (fun s i => s.setFreq i (s.isleTop i)) s = t at htop
  refine SameLimits.underCeilings (.foldl (fun u i => setFreq_sameLimits u i 400) _ t) (fun i hm => ?_) htop
  refine foldl_setFreq_freq_of_not_mem (fun hi => ?_) t
  have hu : t.unusedCell i = false := by
    rw [State.movable, Bool.and_eq_true, Bool.not_eq_true'] at hm
    exact hm.2
  simpa [hu] using (List.mem_filter.1 hi).2

end

/-! ### Breaches and the voltage (R235, R241, R246, R496) -/

/-- From `s` to `t` no island's frequency or limit has changed. -/
structure KeepsPoints (s t : State) : Prop where
  steers : Steers s t
  limits : SameLimits s t
  freq : ∀ i, (t.island i).freq = (s.island i).freq

section
variable {s t u : State}

theorem KeepsPoints.refl (s : State) : KeepsPoints s s := ⟨.refl s, .refl s, fun _ => rfl⟩

theorem KeepsPoints.trans (h : KeepsPoints s t) (k : KeepsPoints t u) : KeepsPoints s u :=
  ⟨h.steers.trans k.steers, h.limits.trans k.limits, fun i => (k.freq i).trans (h.freq i)⟩

theorem KeepsPoints.evt (h : KeepsPoints s t) (code n : Nat) : KeepsPoints s (t.evt code n) :=
  have hr := (RegsOnly.refl t).evt code n
  h.trans ⟨(Steers.refl t).evt code n, hr.sameLimits, fun i => by rw [hr.island]⟩

/-- R241: a breach counted. -/
theorem KeepsPoints.breach (h : KeepsPoints s t) (i : Nat) :
    KeepsPoints s (t.modIsle i fun x => { x with breaches := min 0xFFFF (x.breaches + 1) }) := by
  refine h.trans ⟨(modIsle_islesOnly ..).steers, modIsle_sameLimits _ _ fun _ => ⟨rfl, rfl, rfl⟩, fun j => ?_⟩
  rw [island_modIsle]
  split
  · next e => rw [e]
  · rfl

theorem govBreaches_keepsPoints (s : State) : KeepsPoints s s.govBreaches := by
  unfold State.govBreaches
  refine List.foldlRecOn _ _ (.refl s) fun t h i _ => ?_
  have hb := (h.evt 0xC006 0).breach i
  dsimp only
  split
  · exact hb.evt _ _
  · exact hb

/-- R235, R495, R496: the voltage and the regulator's command alone change, and agree unless a fault holds the regulator. -/
theorem govVoltage_eq (s : State) : ∃ v c,
    s.govVoltage = { s with gov := { s.gov with vddCore := v }, pwr := { s.pwr with vrCommand := c } } ∧
    (s.pwr.vrFault = false → v = c ∧ 650 ≤ v ∧ v ≤ 900) := by
  unfold State.govVoltage
  split
  · next hv => exact ⟨_, _, rfl, fun h => absurd hv (by simp [h])⟩
  · exact ⟨_, _, rfl, fun _ => ⟨rfl, Nat.le_max_left .., Nat.max_le.2 ⟨by decide, Nat.min_le_left ..⟩⟩⟩

/-! ### The control period (R239, R244) -/

/-- R244: the profile enforced. -/
theorem govProfile_eq (s : State) : ∃ r p, s.govProfile = { s with regs := r, gov := { s.gov with profile := p } } := by
  unfold State.govProfile
  split
  · exact ⟨s.regs, s.gov.profile, rfl⟩
  · exact ⟨_, _, rfl⟩

/-- R239, Table 12-2: the measurements of a period. -/
theorem govMeasure_eq (s : State) (m : GovMeas) : ∃ r g, s.govMeasure m = { s with regs := r, gov := g } ∧
    g.periods = s.gov.periods + 1 ∧ g.powerNow = m.power ∧ g.junction = hottest m := by
  unfold State.govMeasure
  extract_lets hist t u v
  obtain ⟨l, hu⟩ : IslesOnly s u :=
    (IslesOnly.foldl (fun s x => modIsle_islesOnly ..) _ s).trans (.foldl (fun s x => modIsle_islesOnly ..) _ t)
  clear_value u
  subst hu
  exact ⟨_, v.gov, rfl, rfl, rfl, rfl⟩

theorem exec_govControlPeriod {m : GovMeas} (hf : s.gov.failed = false) (hs : s.serving = true)
    (hm : ∀ x ∈ m.islands, x.clockFail = false) : exec (.govControlPeriod m) s =
      .next ((((s.govProfile.govMeasure m).govSteps m).govClamp).govBreaches).govVoltage := by
  show execGovControlPeriod m s = _
  unfold execGovControlPeriod
  rw [if_neg (by simp [hf, hs]), List.filter_eq_nil_iff.2 (by simpa using hm)]
  rfl

/-- R239, R241, R496: what a period without a trip and without a failed clock leaves. -/
theorem controlPeriod_effect {m : GovMeas} (hm : ∀ x ∈ m.islands, quarterOf x < 460) :
    let t := ((((s.govProfile.govMeasure m).govSteps m).govClamp).govBreaches).govVoltage
    KeepsBytes s t ∧ t.gov.periods = s.gov.periods + 1 ∧ t.gov.powerNow = m.power ∧ t.gov.junction = hottest m ∧ t.underCeilings ∧
      (s.pwr.vrFault = false → t.gov.vddCore = t.pwr.vrCommand ∧ 650 ≤ t.gov.vddCore ∧ t.gov.vddCore ≤ 900) := by
  obtain ⟨r, p, hprofile⟩ := govProfile_eq s
  obtain ⟨r', g, hmeasure, hper, hpow, hjun⟩ := govMeasure_eq s.govProfile m
  rw [hmeasure, hprofile]
  rw [hprofile] at hper
  generalize hu : ({ s with regs := r', gov := g } : State) = u
  have hclamp := (govSteps_steers u hm).trans (govClamp_steers _)
  have hbreach := govBreaches_keepsPoints (u.govSteps m).govClamp
  have hunder := hbreach.limits.underCeilings (fun i _ => hbreach.freq i) (govClamp_underCeilings _)
  have hsteer := hclamp.trans hbreach.steers
  dsimp only
  generalize (u.govSteps m).govClamp.govBreaches = w at hsteer hunder
  obtain ⟨v, c, hvolt, hv⟩ := govVoltage_eq w
  have hbytes : KeepsBytes s u := by rw [← hu]; exact .of_eq rfl rfl rfl
  have hpwr : u.pwr = s.pwr := by rw [← hu]
  rw [hvolt]
  refine ⟨(hbytes.trans hsteer.bytes).trans (.of_eq rfl rfl rfl), ?_, ?_, ?_, ?_, fun hn => hv ?_⟩
  · exact hsteer.periods.trans (by rw [← hu]; exact hper)
  · exact hsteer.powerNow.trans (by rw [← hu]; exact hpow)
  · exact hsteer.junction.trans (by rw [← hu]; exact hjun)
  · exact SameLimits.underCeilings ⟨rfl, rfl, rfl, rfl, fun _ => ⟨rfl, rfl, rfl⟩⟩ (fun _ _ => rfl) hunder
  · rw [hsteer.pwr, hpwr]; exact hn

/-! ### The governor's clock and the comparators (R242, R249) -/

theorem exec_govClockCheck_ok (s : State) : exec (.govClockCheck true) s = .next s := congrArg Host.Outcome.next (if_pos (by simp))

theorem exec_govClockCheck_failed (hs : s.serving = true) (hf : s.gov.failed = false) : exec (.govClockCheck false) s =
    .next (((s.modGov fun g => { g with failed := true }).modPwr fun p => { p with faultN := true }).evt 0xC008 0) :=
  congrArg Host.Outcome.next (if_neg (by simp [hs, hf]))

theorem exec_junctionComparatorTrip (hs : s.serving = true) (hf : s.gov.failed = true) :
    exec .junctionComparatorTrip s = .next s.thermTrip := congrArg Host.Outcome.next (if_neg (by simp [hs, hf]))

/-- Every island stopped, or stopped before, stands. -/
theorem foldl_stopIsle_stopped (l : List Nat) (s : State) {i : Nat} {b : Bool} (h : i ∈ l ∨ (s.island i).stopped = true) :
    ((l.foldl (fun s i => s.stopIsle i b) s).island i).stopped = true := by
  induction l generalizing s with
  | nil => exact h.resolve_left List.not_mem_nil
  | cons x l ih =>
    refine ih _ ?_
    dsimp only [State.stopIsle]
    rw [island_modIsle]
    by_cases hx : i = x
    · exact .inr (by rw [if_pos hx])
    · rw [if_neg hx]
      exact h.imp_left fun hm => (List.mem_cons.1 hm).resolve_left hx

/-- R382: without a launch in the channel there is none to abort. -/
theorem abortOn_of_idle {ch : Nat} (h : ∀ k, (s.ctx ch k).phase.holds = false) (code : Nat) (gone : Nat → Bool) :
    s.abortOn ch code gone = s :=
  List.foldlRecOn (motive := fun t => t = s) _ _ rfl fun t e k _ => by rw [e, if_neg (by simp [h k])]

/-- R428, R430: without a safety function a trip is told by FAULT_N alone. -/
theorem allFault_trip_of_noFn (h : s.fnCount = 0) : s.allFault 0xC004 = s.modPwr fun p => { p with faultN := true } := by
  have e : s.allFault 0xC004 =
      (List.range s.fnCount).foldl (fun s f => s.safeFault f 0xC004) (s.modPwr fun p => { p with faultN := true }) := rfl
  rw [e, h]
  rfl

/-- R242: the islands that a trip stops, stopped. -/
def State.tripStopped (s : State) : State :=
  (tripIsles.filter fun i => !(s.island i).stopped).foldl (fun s i => s.stopIsle i true) (s.modGov fun g => { g with trip := true })

theorem tripStopped_eq (s : State) : ∃ l, s.tripStopped = { s with gov := { s.gov with trip := true, islands := l } } := by
  obtain ⟨l, e⟩ : IslesOnly (s.modGov fun g => { g with trip := true }) s.tripStopped := .foldl (fun s i => modIsle_islesOnly ..) _ _
  exact ⟨l, e⟩

theorem tripStopped_stopped (s : State) {i : Nat} (hi : i ∈ tripIsles) : (s.tripStopped.island i).stopped = true := by
  refine foldl_stopIsle_stopped _ _ ?_
  cases h : (s.island i).stopped with
  | true => exact .inr h
  | false => exact .inl (List.mem_filter.2 ⟨hi, by simp [h]⟩)

/-- R242: a trip without launches and safety functions stops its islands and is told. -/
theorem thermTrip_eq (ht : s.gov.trip = false) (hn : s.fnCount = 0) (hc : ∀ ch k, (s.ctx ch k).phase.holds = false) :
    s.thermTrip = (s.tripStopped.evt 0xC004 0).modPwr fun p => { p with faultN := true } := by
  obtain ⟨l, e⟩ := tripStopped_eq s
  have hidle : ∀ ch k, (s.tripStopped.ctx ch k).phase.holds = false := by rw [e]; exact hc
  have hfn : (s.tripStopped.evt 0xC004 0).fnCount = 0 := by
    rw [State.fnCount, State.global, evt_img, e]
    exact hn
  have hab : [0, 1, 2, 3].foldl (fun s ch => s.abortOn ch 0xC004 fun _ => true) s.tripStopped = s.tripStopped :=
    List.foldlRecOn (motive := fun t => t = s.tripStopped) _ _ rfl fun t e ch _ => by rw [e, abortOn_of_idle (hidle ch)]
  have key : s.thermTrip =
      (([0, 1, 2, 3].foldl (fun s ch => s.abortOn ch 0xC004 fun _ => true) s.tripStopped).evt 0xC004 0).allFault 0xC004 :=
    if_neg (by simp [ht])
  rw [key, hab, allFault_trip_of_noFn hfn]

end

/-! ### The governor -/

/-- Settles O38: each command of the governor through what it does to islands, to its registers and to the regulator. -/
theorem governor : Obligations.Governor := by
  unfold Obligations.Governor
  intro s
  refine ⟨fun data hg => ⟨fun hl => ?sent, fun hl => ?locked⟩, fun ch p hp hf hu => ?applied,
    fun data hg hw => ⟨_, exec_govIsleWrite hg hw, isleWrite_effect hw⟩,
    fun island => ⟨fun hr hi hs => ?droop, fun f hp hf hs => ?settled⟩,
    fun a b hr hf hl ha hb => ⟨_, exec_isleStall hr hf hl ha hb, stall_effect s a b⟩,
    fun hs hf => ⟨exec_govClockCheck_ok s, ?clock, fun m hm => ?period⟩, fun hs hf ht hn hc => ?trip⟩
  case sent => exact ⟨_, exec_govProfileWrite hg data, profileWrite_unlocked hl (bits_lt ..)⟩
  case locked =>
    have h := (RegsOnly.refl s).evt 0xC00A 0
    refine ⟨_, (exec_govProfileWrite hg data).trans (congrArg _ (profileWrite_locked hl _)), h.bytes, h.gov, h.disp, ?_,
      bitAt_evt s rfl (by decide) (by decide) (by decide)⟩
    exact rd_evt s (f := Reg.govStatusEvents) (b := 9) rfl (by decide) (by decide) (by decide)
  case applied =>
    have h := hrdRecord_recordsOnly (s.takeProfile ch.toNat p) 0x41 ch.toNat p []
    refine ⟨_, exec_profileApply hp hf hu, ?_, ?_, h.cells, (congrArg Gov.islands h.gov).trans rfl⟩
    · rw [h.dsp]
      exact takeProfile_profile ..
    · rw [h.gov]
      exact takeProfile_pendingProfile ..
  case droop => exact ⟨_, exec_droopTrip hr hi hs, rfl, rfl, fun j => island_modIsle ..⟩
  case settled => exact ⟨_, exec_voltageSettled hp hf hs, rfl, rfl, fun j => island_modIsle ..⟩
  case clock =>
    have h := (RegsOnly.refl ((s.modGov fun g => { g with failed := true }).modPwr fun p => { p with faultN := true })).evt 0xC008 0
    refine ⟨_, exec_govClockCheck_failed hs hf, KeepsBytes.trans ?_ h.bytes, h.gov, h.pwr⟩
    exact .of_eq rfl rfl rfl
  case period => exact ⟨_, exec_govControlPeriod hf hs fun x hx => (hm x hx).1, controlPeriod_effect fun x hx => (hm x hx).2⟩
  case trip =>
    have h := (RegsOnly.refl s.tripStopped).evt 0xC004 0
    obtain ⟨l, e⟩ := tripStopped_eq s
    have hbytes : KeepsBytes s s.tripStopped := by rw [e]; exact .of_eq rfl rfl rfl
    refine ⟨_, (exec_junctionComparatorTrip hs hf).trans (congrArg _ (thermTrip_eq ht hn hc)),
      (hbytes.trans h.bytes).trans (.of_eq rfl rfl rfl), ?_, bitAt_evt _ rfl (by decide) (by decide) (by decide), fun i hi => ?_⟩
    · show (s.tripStopped.evt 0xC004 0).gov.trip = true
      rw [h.gov, e]
    · show ((s.tripStopped.evt 0xC004 0).island i).stopped = true
      rw [h.island]
      exact tripStopped_stopped s hi

end Sys2Proof.Machine
end

section
/-! PROOFS (O28). Corrected beats on a packet's way (R259, R273). -/
namespace Sys2Proof.Machine

/-! ### What the arrival of a packet reads of the registers -/

section
variable {s : State} {i : Nat} {p : Packet} {kinds : List PktKind} {r : BitVec 10}

/-- R43, R262: of the registers, the closed bridge ends read IMG.STATUS.CONFIGURED alone. -/
theorem closedOn_wr {f : RegField} {v : Nat} (h : ∀ c, (s.wr f v).configured c = s.configured c) (c d : Nat) :
    (s.wr f v).closedOn c d = s.closedOn c d := by
  have hend : ∀ a b, (s.wr f v).endOpen a b = s.endOpen a b := fun a b => by
    unfold State.endOpen
    rw [h, h]
    rfl
  unfold State.closedOn
  simp only [hend]
  rfl

/-- R247, R260, R262: which packet may arrive does not depend on registers other than IMG.STATUS.CONFIGURED. -/
theorem arriving_wr {f : RegField} {v : Nat} (h : ∀ c, (s.wr f v).configured c = s.configured c) (i : Nat) (kinds : List PktKind) :
    (s.wr f v).arriving i kinds = s.arriving i kinds := by
  unfold State.arriving
  simp only [closedOn_wr h]
  rfl

/-- R273: the count of corrected beats at a router does not lie in IMG.STATUS. -/
theorem configured_bump_corrected (s : State) (n c : Nat) :
    (s.bump (Reg.cellMeshStatusCorrected n)).configured c = s.configured c := by
  have ho : Reg.imgStatusConfigured.off ≠ (Reg.cellMeshStatusCorrected n).off := by
    show 0x70018 ≠ 0x10004E0 + n * 0x1000
    omega
  rw [State.configured, bump_def, rd_wr_ne _ _ _ _ ho, State.configured]

/-! ### The checks of a packet's way -/

/-- R273: a corrected beat at a router of the way is counted there, and the packet arrives. -/
theorem arrive_corrected (ha : s.arriving i kinds = some p) (hr : r.toNat ∈ s.path p.src p.dst) (f : State → Packet → State) :
    s.arrive i kinds (.corrected r) f =
      (s.bump (Reg.cellMeshStatusCorrected (s.phys r.toNat))).arrive i kinds .none f := by
  have hb : (s.bump (Reg.cellMeshStatusCorrected (s.phys r.toNat))).arriving i kinds = some p :=
    (arriving_wr (configured_bump_corrected s _) i kinds).trans ha
  rw [arrive_eq hb]
  unfold State.arrive
  simp only [ha, List.contains_iff_mem.2 hr, if_true]

/-- A router beside the way of a packet finds nothing in it. -/
theorem arrive_beside (ha : s.arriving i kinds = some p) (hr : r.toNat ∉ s.path p.src p.dst) (f : State → Packet → State) :
    s.arrive i kinds (.corrected r) f = s ∧ s.arrive i kinds (.uncorrectable r) f = s := by
  have hc : (s.path p.src p.dst).contains r.toNat = false := by
    rw [← Bool.not_eq_true, List.contains_iff_mem]
    exact hr
  unfold State.arrive
  simp only [ha, hc, Bool.false_eq_true, if_false, and_self]

end

/-- Table 13-4: the commands that bring packet `i` of a kind to its destination, by what the checks of its way found. -/
def BringsPacket (i : Nat) (kind : PktKind) (c : LinkErr → Instr) : Prop :=
  (kind = .store ∧ c = .storePacket i) ∨ (kind = .atomic ∧ c = .atomicPacket i) ∨ (kind = .atomicRsp ∧ c = .atomicRspPacket i) ∨
    (kind = .msg ∧ c = .msgPacket i) ∨ (kind = .ack ∧ c = .ackPacket i) ∨ (kind = .refuse ∧ c = .refusePacket i) ∨
    (kind = .memreq ∧ c = .memreqPacket i) ∨ (kind = .memrsp ∧ c = .memrspPacket i) ∨ (kind = .credit ∧ c = .creditPacket i) ∨
    (kind = .credit ∧ c = .creditRestore i)

/-- Each of them is an arrival with an effect of its own. -/
theorem BringsPacket.exec_eq {i : Nat} {kind : PktKind} {c : LinkErr → Instr} (h : BringsPacket i kind c) :
    ∃ f, ∀ link s, exec (c link) s = .next (s.arrive i [kind] link f) := by
  rcases h with ⟨rfl, rfl⟩ | ⟨rfl, rfl⟩ | ⟨rfl, rfl⟩ | ⟨rfl, rfl⟩ | ⟨rfl, rfl⟩ | ⟨rfl, rfl⟩ | ⟨rfl, rfl⟩ | ⟨rfl, rfl⟩ | ⟨rfl, rfl⟩ |
    ⟨rfl, rfl⟩
  all_goals exact ⟨_, fun _ _ => rfl⟩

/-- Settles O28: the ten commands are arrivals, and no arrival reads the count of corrected beats. -/
theorem packetLinks : Obligations.PacketLinks := by
  unfold Obligations.PacketLinks
  intro s i r p c kind hc ha
  obtain ⟨f, hf⟩ := BringsPacket.exec_eq hc
  refine ⟨fun hr => ?onWay, fun hr => ?beside⟩
  case onWay => rw [hf, hf, arrive_corrected ha hr]
  case beside =>
    obtain ⟨hcor, hunc⟩ := arrive_beside ha hr f
    exact ⟨(hf _ s).trans (congrArg _ hcor), (hf _ s).trans (congrArg _ hunc)⟩

end Sys2Proof.Machine
end

section
/-! PROOFS (O24). RECV WAIT and RECV POLL (R153, R265, R269, R270). -/
namespace Sys2Proof.Machine

/-! ### A message leaves the ring -/

section
variable {s : State} {id : Nat}

/-- R288: errors corrected by a read leave the messages of the ring. -/
theorem ring_lmTouch (s : State) (id off n : Nat) : ((s.lmTouch id off n).cell id).ring = (s.cell id).ring := by
  refine List.foldlRecOn (motive := fun t : State => (t.cell id).ring = (s.cell id).ring) _ _ rfl fun t ht w _ => ?_
  split
  · have hr := ((RegsOnly.refl _).wr _ _).trans (State.raiseCellScrub_regsOnly
      ((t.modCell id fun c => { c with lmErr := sdel c.lmErr w, scrubFound := true }).bump
        (Reg.cellLmEccCorrected (t.phys id))) (t.phys id))
    rw [← ht]
    refine (congrArg CellMem.ring (hr.cellTo id).cell).trans ?_
    rw [cell_modCell_same]
  · exact ht

/-- R93, R288: stores into local memory leave the messages of the ring. -/
theorem ring_lmStores (s : State) (id : Nat) (l : List (Nat × Bytes)) : ((s.lmStores id l).cell id).ring = (s.cell id).ring := by
  unfold State.lmStores
  dsimp only
  rw [cell_modCell_same, foldl_ssetN_lm]
  refine List.foldlRecOn (motive := fun t : State => (t.cell id).ring = (s.cell id).ring) _ _ rfl fun t ht v _ => ?_
  split
  · rw [cell_modCell_same, ← ht]
  · exact (ring_lmTouch t id _ _).trans ht

/-- R270: the payload of message `g` of the ring at `base` is in the buffer at `buf`, and the slot is free. -/
def State.moveMsg (s : State) (id base buf : Nat) (g : RingMsg) : State :=
  (s.modCell id fun c => { c with ring := c.ring.erase g }).lmStores id [(buf, (s.cell id).read (base + 528 * g.slot + 16) g.len)]

theorem moveMsg_storesOnly (he : (s.cell id).lmErr = []) (base buf : Nat) (g : RingMsg) :
    StoresOnly s (s.moveMsg id base buf g) id := by
  have h : StoresOnly s (s.modCell id fun c => { c with ring := c.ring.erase g }) id := .modCell (fun _ => rfl) he
  exact h.trans (lmStores_storesOnly h.clean _)

theorem ring_moveMsg (s : State) (id base buf : Nat) (g : RingMsg) :
    ((s.moveMsg id base buf g).cell id).ring = (s.cell id).ring.erase g := by
  rw [State.moveMsg, ring_lmStores, cell_modCell_same]

/-- The bytes outside the buffer stay. -/
theorem lmByte_moveMsg_out (s : State) (id base buf : Nat) (g : RingMsg) {q o : Nat}
    (h : q ≠ s.phys id ∨ o < buf ∨ buf + g.len ≤ o) : (s.moveMsg id base buf g).lmByte q o = s.lmByte q o := by
  have hkeep : KeepsBytes s (s.modCell id fun c => { c with ring := c.ring.erase g }) := .modCell s id fun _ => rfl
  refine (State.lmByte_lmStores_out _ id _ _ ?_).trans (hkeep.lm q o)
  rw [CellMem.read, sgetN_length]
  exact h

/-- The buffer holds what the slot held. -/
theorem lmByte_moveMsg_in (s : State) (id base buf : Nat) (g : RingMsg) {j : Nat} (h : j < g.len) :
    (s.moveMsg id base buf g).lmByte (s.phys id) (buf + j) = s.lmByte (s.phys id) (base + 528 * g.slot + 16 + j) := by
  have hj : j < ((s.cell id).read (base + 528 * g.slot + 16) g.len).length := by rwa [CellMem.read, sgetN_length]
  refine (lmByte_lmStores_in (s.modCell id fun c => { c with ring := c.ring.erase g }) id buf hj).trans ?_
  rw [read_eq_map_lmByte, List.getD_eq_getElem?_getD, List.getElem?_map, List.getElem?_range h]
  rfl

/-! ### Its credit -/

/-- R265: a static message returns its credit to its source. -/
def State.creditMsg (s : State) (id : Nat) (g : RingMsg) : State :=
  if g.static then s.credit id (bits g.header.toNat 0 10) g.route false else s

/-- A credit is a packet, and nothing else. -/
theorem creditMsg_eq (s : State) (id : Nat) (g : RingMsg) : s.creditMsg id g = { s with pkts := (s.creditMsg id g).pkts } := by
  unfold State.creditMsg
  split <;> rfl

theorem pkts_creditMsg_dynamic {g : RingMsg} (h : g.static = false) : (s.creditMsg id g).pkts = s.pkts := by
  simp [State.creditMsg, h]

theorem creditMsg_sends {g : RingMsg} (h : g.static = true) : Sends s (s.creditMsg id g)
    { kind := .credit, src := .cell id, dst := .cell (bits g.header.toNat 0 10), arg := BitVec.ofNat 64 g.route } := by
  rw [State.creditMsg, if_pos h]
  exact ⟨_, rfl⟩

end

/-! ### What a RECV does -/

section
variable {s : State} {id k : Nat}

/-- R270: a RECV leaves its swarm as it does to u[D], and POLL to up[C], and its offset moves on (R120). -/
def Swarm.received (w : Swarm) (poll : Bool) (d c : Nat) (g : RingMsg) : Swarm :=
  if poll then ((w.advance none).setU d g.header.toNat).setUp c true else (w.advance none).setU d g.header.toNat

/-- The registers that a RECV writes do not tell where its swarm goes on. -/
theorem Swarm.received_of_advance (w : Swarm) (poll : Bool) (d c : Nat) (g : RingMsg) :
    (if poll then (w.setU d g.header.toNat).setUp c true else w.setU d g.header.toNat).advance none = w.received poll d c g := by
  cases poll
  · exact Swarm.setU_advance ..
  · exact (Swarm.setUp_advance ..).trans (congrArg (·.setUp c true) (Swarm.setU_advance ..))

/-- R270: a RECV that takes message `g`. -/
def State.received (s : State) (id k base buf d c : Nat) (poll : Bool) (g : RingMsg) : State :=
  ((s.moveMsg id base buf g).creditMsg id g).modSwarm id k fun w => w.received poll d c g

/-- R120, R270: taking a message and committing. -/
theorem recvTake_put {x base : Nat} {g : RingMsg} (poll : Bool) (he : (s.cell id).lmErr = [])
    (hq : (s.swarm id k).asyncFaults = [] ∧ (s.swarm id k).parkReq = none) :
    ((s.recvTake id k x base g).put id k fun w => if poll then w.setUp (wC x) true else w) =
      s.received id k base ((s.swarm id k).ureg (wA x)) (wD x) (wC x) poll g := by
  have ht : s.lmTouch id (base + 528 * g.slot + 16) g.len = s := lmTouch_clean _ _ _ _ fun w _ => by rw [he]; rfl
  have htake : s.recvTake id k x base g =
      ((s.moveMsg id base ((s.swarm id k).ureg (wA x)) g).creditMsg id g).modSwarm id k fun w => w.setU (wD x) g.header.toNat := by
    unfold State.recvTake
    dsimp only
    rw [ht]
    rfl
  have hsw : ((s.moveMsg id base ((s.swarm id k).ureg (wA x)) g).creditMsg id g).swarm id k = s.swarm id k := by
    rw [creditMsg_eq]
    exact (moveMsg_storesOnly he ..).swarms id k
  rw [htake, put_quiet, modSwarm_modSwarm, State.received]
  · exact congrArg _ (funext fun w => w.received_of_advance poll (wD x) (wC x) g)
  · rw [swarm_modSwarm_same, hsw]
    cases poll <;> exact hq.1
  · rw [swarm_modSwarm_same, hsw]
    cases poll <;> exact hq.2

/-- R136, R153, R270: what RECV does at a valid word, in a cell that has a ring: with no message that matches, and with one. -/
theorem recvInsn_eq {poll : Bool} {d a b c base n : Nat} (hd : d < 64) (ha : a < 64) (hb : b < 64) (hc : c < 4)
    (hc0 : poll = false → c = 0) (hbad : badMatch ((s.swarm id k).ureg b) ((s.swarm id k).ureg a) = false)
    (hring : s.ringOf id = some (base, n)) (hs : s.stands id k (rWord 0x39 0 poll.toNat d a b c) false false = true) :
    ((s.cell id).ring.find? (fun g => g.fits ((s.swarm id k).ureg b)) = none →
      s.recvInsn id k poll = if poll then s.put id k fun w => w.setUp c false else s) ∧
    (∀ g, (s.cell id).ring.find? (fun g => g.fits ((s.swarm id k).ureg b)) = some g → (s.cell id).lmErr = [] →
      (s.cell id).inReplica ((s.swarm id k).ureg a) g.len = false →
      s.recvInsn id k poll = s.received id k base ((s.swarm id k).ureg a) d c poll g) := by
  have hfn : poll.toNat < 2 := Bool.toNat_lt poll
  obtain ⟨fO, fG, fF, fD, fA, fB, fC, fL⟩ := rWord_fields (op := 0x39) (g := 0) (fn := poll.toNat) (d := d) (a := a) (b := b) (c := c)
    (by decide) (by decide) (by omega) (by omega) (by omega) (by omega) (by omega)
  have hq := quiet_of_stands hs
  generalize rWord 0x39 0 poll.toNat d a b c = x at *
  unfold State.recvInsn
  rw [issue_stands hs (by simp [isOp, fO, fF]) ?enc (fun h => by cases h) rfl rfl]
  case enc =>
    cases poll
    · simp [firstBad, fG, fF, fD, fA, fB, fC, fL, okU, okZ, hd, ha, hb, hc0]
    · simp [firstBad, fG, fF, fD, fA, fB, fC, fL, okU, okUp, hd, ha, hb, hc]
  simp only [fA, fB, fC, hbad, hring, Bool.false_eq_true, if_false]
  refine ⟨fun hf => by simp only [hf], fun g hf he hin => ?_⟩
  have hu : (s.cell id).uce (base + 528 * g.slot + 16) g.len = false := uce_clean _ _ _ fun w _ => by rw [he]; rfl
  have htake := recvTake_put (x := x) (base := base) (g := g) poll he hq
  rw [fA, fD, fC] at htake
  simp only [hf, hin, hu, Bool.false_eq_true, if_false]
  exact htake

/-- R265, R269, R270: what a RECV that takes a message leaves. -/
theorem received_effect (he : (s.cell id).lmErr = []) (base buf d c : Nat) (poll : Bool) (g : RingMsg) :
    let t := s.received id k base buf d c poll g
    KeepsSwarms s t id k ∧ t.regs = s.regs ∧ t.hbm = s.hbm ∧ t.host.mem = s.host.mem ∧
      (t.cell id).ring = (s.cell id).ring.erase g ∧ t.swarm id k = (s.swarm id k).received poll d c g ∧
      (∀ q o, t.lmByte q o = (s.moveMsg id base buf g).lmByte q o) ∧ t.pkts = ((s.moveMsg id base buf g).creditMsg id g).pkts := by
  intro t
  have hm := moveMsg_storesOnly he base buf g
  have hcr := creditMsg_eq (s.moveMsg id base buf g) id g
  generalize hu : (s.moveMsg id base buf g).creditMsg id g = u at hcr
  have ht : t = u.modSwarm id k fun w => w.received poll d c g := by rw [← hu]; rfl
  have hphys : ∀ i, u.phys i = s.phys i := fun i => by rw [hcr, hm.state]; rfl
  have hsw : ∀ i j, u.swarm i j = s.swarm i j := fun i j => by rw [hcr]; exact hm.swarms i j
  rw [ht]
  refine ⟨fun i j h => ?_, ?_, ?_, ?_, ?_, ?_, fun q o => ?_, rfl⟩
  · rw [swarm_modSwarm, hphys, hphys, if_neg fun hc => h.elim (· hc.1) (· hc.2), hsw]
  · show u.regs = s.regs
    rw [hcr, hm.state]
  · show u.hbm = s.hbm
    rw [hcr, hm.state]
  · show u.host.mem = s.host.mem
    rw [hcr, hm.state]
  · rw [State.modSwarm, cell_modCell_same, hcr]
    exact ring_moveMsg s id base buf g
  · rw [swarm_modSwarm_same, hsw]
  · rw [lmByte_modSwarm, hcr]
    rfl

end

/-- Settles O24: a RECV moves the payload, frees the slot, returns the credit and writes its registers; without a match WAIT stays
and POLL commits. -/
theorem receiveMessages : Obligations.ReceiveMessages := by
  unfold Obligations.ReceiveMessages
  intro s cell slot fn d a b c base n id k w m buf p hfn hd ha hb hc hc0 hbad hring hs
  obtain ⟨poll, rfl⟩ : ∃ poll : Bool, fn = poll.toNat := by
    interval_cases fn
    · exact ⟨false, rfl⟩
    · exact ⟨true, rfl⟩
  obtain ⟨hnone, hsome⟩ := recvInsn_eq hd ha hb hc (fun h => hc0 (by rw [h]; rfl)) hbad hring hs
  refine ⟨fun i g hi hg he hin => ?taken, fun hf => ⟨fun h => ?wait, fun h => ?poll⟩⟩
  case taken =>
    have hexec : exec i s = .next (s.recvInsn id k poll) := by
      rcases hi with ⟨hp, rfl⟩ | ⟨hp, rfl⟩
      · rw [Bool.toNat_eq_zero.1 hp]; rfl
      · rw [Bool.toNat_eq_one.1 hp]; rfl
    obtain ⟨hsw, hregs, hhbm, hhost, hrg, hown, hby, hpk⟩ := received_effect (k := k) he base buf d c poll g
    refine ⟨_, hexec.trans (congrArg _ (hsome g hg he hin)), hsw, hregs, hhbm, hhost, hrg, hown.trans ?_, fun q o h => ?_, fun j hj => ?_,
      fun hst => ?_, fun hst => ?_⟩
    · cases poll <;> rfl
    · exact (hby q o).trans (lmByte_moveMsg_out s id base buf g h)
    · exact (hby p _).trans (lmByte_moveMsg_in s id base buf g hj)
    · rw [hpk, pkts_creditMsg_dynamic hst, (moveMsg_storesOnly he base buf g).state]
    · obtain ⟨o, ho⟩ := creditMsg_sends (s := s.moveMsg id base buf g) (id := id) hst
      refine ⟨o, hpk.trans (ho.trans ?_)⟩
      rw [(moveMsg_storesOnly he base buf g).state]
  case wait =>
    cases poll
    · exact congrArg Host.Outcome.next (hnone hf)
    · cases h
  case poll =>
    cases poll
    · cases h
    · obtain ⟨h1, h2⟩ := quiet_of_stands hs
      have hp := put_quiet s id k (fun w => w.setUp c false) h1 h2
      refine ⟨_, congrArg Host.Outcome.next ((hnone hf).trans hp), onlySwarm_modSwarm .., ?_⟩
      rw [swarm_modSwarm_same]
      exact Swarm.setUp_advance ..

end Sys2Proof.Machine
end

section
/-! PROOFS (O27). MEMREQ packets at a stack and at the host (R283, R287, R458), and packets that a closed bridge end takes (R262). -/
namespace Sys2Proof.Machine

/-! ### Bytes written from an address on -/

theorem sget_ssetN_in {α : Type} [DecidableEq α] (d : α) (l : Sparse α) (k : Nat) {vs : List α} {j : Nat} (h : j < vs.length) :
    sget d (ssetN d l k vs) (k + j) = vs.getD j d := by
  rw [sget_ssetN, if_pos (Nat.le_add_right ..), Nat.add_sub_cancel_left, List.getD_eq_getElem?_getD, List.getElem?_eq_getElem h]
  rfl

theorem sget_ssetN_out {α : Type} [DecidableEq α] (d : α) (l : Sparse α) {k i : Nat} {vs : List α} (h : i < k ∨ k + vs.length ≤ i) :
    sget d (ssetN d l k vs) i = sget d l i := by
  rcases h with h | h
  · exact sget_ssetN_lt _ _ _ h
  · rw [sget_ssetN, if_pos (by omega), List.getElem?_eq_none (by omega)]
    rfl

/-! ### HBM without errors, and an absent stack -/

section
variable (s : State)

/-- R283, R287: a write of HBM at a present stack with no error in it writes its bytes. -/
theorem hbmStore_of_noErr (a : Nat) (bs : Bytes) (h : s.hbmErr = []) (ha : s.absentStack a bs.length = none) :
    s.hbmStore a bs = (s.hbmWrite a bs, 0) := by
  have hpart : s.hbmPartUce a bs.length = false := by simp [State.hbmPartUce, h, sget]
  have htouch : ∀ l : List Nat, l.foldl (fun s b => s.hbmTouch (64 * b) 64) s = s := fun l =>
    List.foldl_fixed' (fun b => hbmTouch_of_noErr s (64 * b) 64 h) l
  rw [State.hbmStore, ha]
  simp only [hpart, htouch, Bool.false_eq_true, if_false]

/-- R283: a read of an absent stack is refused with its cause. -/
theorem hbmFetch_absent {a n k : Nat} (ha : s.absentStack a n = some k) :
    s.hbmFetch a n = (s, { code := 0x300C, cause := s.absentCause k }) := by
  rw [State.hbmFetch, ha]

theorem hbmRead_eq_map_hbmByte (a n : Nat) : s.hbmRead a n = (List.range n).map fun j => s.hbmByte (a + j) := by
  refine List.ext_getElem? fun j => ?_
  by_cases h : j < n
  · rw [hbmRead_getElem? s a n j h, List.getElem?_map, List.getElem?_range h]
    rfl
  · rw [List.getElem?_eq_none (by rw [State.hbmRead, sgetN_length]; omega), List.getElem?_eq_none (by simp; omega)]

end

/-! ### What a MEMREQ does, by its destination and its direction -/

section
variable {s : State} {i : Nat} {p : Packet}

theorem exec_memreq_hbmWrite (ha : s.arriving i [.memreq] = some p) {k : Nat} (hd : p.dst = .stack k) (hw : bitAt p.arg.toNat 52 = true)
    (he : s.hbmErr = []) (hst : s.absentStack (bits p.arg.toNat 0 52) p.payload.length = none) :
    exec (.memreqPacket i .none) s = .next (((s.dropPkt i).hbmWrite (bits p.arg.toNat 0 52) p.payload).post (p.answer .memrsp 0 [])) := by
  refine congrArg Host.Outcome.next ((arrive_eq ha _).trans ?_)
  have hstore := hbmStore_of_noErr (s.dropPkt i) (bits p.arg.toNat 0 52) p.payload he hst
  simp only [hd, hw, if_true, hstore, State.memAnswer]

theorem exec_memreq_hbmRead (ha : s.arriving i [.memreq] = some p) {k : Nat} (hd : p.dst = .stack k) (hw : bitAt p.arg.toNat 52 = false)
    (he : s.hbmErr = []) (hst : s.absentStack (bits p.arg.toNat 0 52) (bits p.arg.toNat 53 9 + 1) = none) :
    exec (.memreqPacket i .none) s = .next ((s.dropPkt i).post
      (p.answer .memrsp 0 (s.hbmRead (bits p.arg.toNat 0 52) (bits p.arg.toNat 53 9 + 1)))) := by
  refine congrArg Host.Outcome.next ((arrive_eq ha _).trans ?_)
  have hfetch := hbmFetch_of_noErr (s.dropPkt i) (bits p.arg.toNat 0 52) (bits p.arg.toNat 53 9 + 1) he hst
  simp only [hd, hw, hfetch, State.memAnswer, BEq.rfl, if_true, Bool.false_eq_true, if_false]
  rfl

theorem exec_memreq_absent (ha : s.arriving i [.memreq] = some p) {k x : Nat} (hd : p.dst = .stack k) (hw : bitAt p.arg.toNat 52 = false)
    (hst : s.absentStack (bits p.arg.toNat 0 52) (bits p.arg.toNat 53 9 + 1) = some x) :
    exec (.memreqPacket i .none) s = .next ((s.dropPkt i).post (p.answer .memrsp (s.absentCause x) [])) := by
  refine congrArg Host.Outcome.next ((arrive_eq ha _).trans ?_)
  have hfetch := hbmFetch_absent (s.dropPkt i) hst
  simp only [hd, hw, hfetch, State.memAnswer, Bool.false_eq_true, if_false]
  rfl

theorem exec_memreq_hostWrite (ha : s.arriving i [.memreq] = some p) {c : Nat} (hd : p.dst = .services c)
    (hw : bitAt p.arg.toNat 52 = true) :
    exec (.memreqPacket i .none) s = .next (((s.dropPkt i).hostWrite (bits p.arg.toNat 0 52) p.payload).post (p.answer .memrsp 0 [])) := by
  refine congrArg Host.Outcome.next ((arrive_eq ha _).trans ?_)
  simp only [hd, hw, if_true, State.memAnswer]

theorem exec_memreq_hostRead (ha : s.arriving i [.memreq] = some p) {c : Nat} (hd : p.dst = .services c)
    (hw : bitAt p.arg.toNat 52 = false) :
    exec (.memreqPacket i .none) s = .next (if s.linkUp then
      { s.dropPkt i with host := { s.host with reads := s.host.reads ++
          [{ addr := bits p.arg.toNat 0 52, len := bits p.arg.toNat 53 9 + 1, src := p.src, origin := p.origin }] } }
      else (s.dropPkt i).post (p.answer .memrsp 0xB009 [])) := by
  refine congrArg Host.Outcome.next ((arrive_eq ha _).trans ?_)
  simp only [hd, hw, Bool.false_eq_true, if_false]
  rfl

/-! ### A closed bridge end -/

/-- R262: the counter of a closed bridge end. -/
theorem countEnd_eq_bump (s : State) (e : Nat × Bool) :
    s.countEnd e = s.bump (if e.2 then Reg.dispBridgeStatusDiscardUp e.1 else Reg.dispBridgeStatusDiscardDown e.1) := by
  unfold State.countEnd
  split <;> rfl

/-- R262: the first closed end on its way takes a request, refuses it, and counts. -/
theorem exec_bridgeDiscard_closed {e : Nat × Bool} (hp : s.pkts[i]? = some p) (hm : p.onMesh = true) (hk : p.kind.isRsp = false)
    (hr : p.route = none) (hl : (s.pkts.take i).any p.sameLane = false) (hc : s.closedOn p.src.ch p.dst.ch = some e) :
    exec (.bridgeDiscard i) s = .next (((s.dropPkt i).post { p.answer .refuse 0x4007 [] with src := .dispatcher e.1 }).bump
      (if e.2 then Reg.dispBridgeStatusDiscardUp e.1 else Reg.dispBridgeStatusDiscardDown e.1)) := by
  show execBridgeDiscard i s = _
  unfold execBridgeDiscard
  simp only [hp, hm, hc, hl, hk, hr, if_true, Bool.false_eq_true, if_false, State.refuseAt, Option.isSome_none, Bool.or_self,
    countEnd_eq_bump]

end

/-- Settles O27: a MEMREQ is performed and answered by its destination and direction; a closed bridge end refuses and counts. -/
theorem memoryRequests : Obligations.MemoryRequests := by
  unfold Obligations.MemoryRequests
  intro s i p a n write answers
  have answered {u : State} (x : Packet) (h : u.pkts = s.pkts.eraseIdx i) : answers (u.post x) x := ⟨_, congrArg (· ++ [_]) h⟩
  refine ⟨fun ha => ⟨fun k hd he => ⟨fun hw hlen hst => ?hbmWrite, fun hw hst => ?hbmRead, fun x hw hst => ?absent⟩,
    fun c hd => ⟨fun hw hup => ?hostRead, fun hw hdown => ?hostDown, fun hw hup => ?hostWrite⟩⟩, fun e hp hm hk hr hl hc => ?bridge⟩
  case hbmWrite =>
    refine ⟨_, exec_memreq_hbmWrite ha hd hw he (by rw [hlen]; exact hst), answered _ rfl, fun j hj => ?_, fun o ho => ?_, rfl, rfl, rfl⟩
    · exact sget_ssetN_in _ _ _ (by rw [hlen]; exact hj)
    · exact sget_ssetN_out _ _ (by rw [hlen]; exact ho)
  case hbmRead =>
    refine ⟨_, exec_memreq_hbmRead ha hd hw he hst, ?_, .of_eq rfl rfl rfl, rfl, rfl⟩
    rw [hbmRead_eq_map_hbmByte]
    exact answered _ rfl
  case absent => exact ⟨_, exec_memreq_absent ha hd hw hst, answered _ rfl, .of_eq rfl rfl rfl⟩
  case hostRead =>
    have hex := exec_memreq_hostRead ha hd hw
    rw [if_pos hup] at hex
    exact ⟨_, hex, rfl, .of_eq rfl rfl rfl, rfl⟩
  case hostDown =>
    have hex := exec_memreq_hostRead ha hd hw
    rw [hdown, if_neg Bool.false_ne_true] at hex
    exact ⟨_, hex, answered _ rfl, .of_eq rfl rfl rfl, rfl⟩
  case hostWrite =>
    have hex := exec_memreq_hostWrite ha hd hw
    have hmem : (s.dropPkt i).hostWrite a p.payload =
        { s.dropPkt i with host := { s.host with mem := ssetN 0 s.host.mem a p.payload } } := if_pos hup
    rw [hmem] at hex
    exact ⟨_, hex, answered _ rfl, fun j hj => sget_ssetN_in _ _ _ hj, rfl, rfl⟩
  case bridge =>
    intro f
    have hf : f.lo + f.len ≤ 64 := by
      unfold f
      split
      · exact show 48 + 16 ≤ 64 by decide
      · exact show 32 + 16 ≤ 64 by decide
    exact ⟨_, exec_bridgeDiscard_closed hp hm hk hr hl hc, .of_eq rfl rfl rfl, rfl, answered _ rfl, rd_bump_same _ f 1 hf rfl⟩

end Sys2Proof.Machine
end

section
/-! PROOFS (O37). REGION.SYNC: a write of DISP.REGION_CMD with GO, and the command's arrival at a cell (R284). -/
namespace Sys2Proof.Machine

section
variable {s : State}

/-! ### A write of DISP.REGION_CMD -/

theorem descAt_regionCmd :
    descAt .disp 0xF018 = some ⟨.disp, 0xF018, .warm, [(48, 16, .rc), (3, 1, .w1c), (2, 1, .ro), (1, 1, .rw), (0, 1, .wo)]⟩ := by rfl

/-- R5: of DISP.REGION_CMD a host write changes DONE and MODE. -/
theorem writeReg_regionCmd_eq (s : State) (ch mask v : Nat) : s.writeReg .disp ch 0xF018 mask v =
    (s.writeField .disp ch 0xF018 (blockBase .disp ch + 0xF018) mask v (3, 1, .w1c)).writeField .disp ch 0xF018
      (blockBase .disp ch + 0xF018) mask v (1, 1, .rw) := by
  unfold State.writeReg
  rw [descAt_regionCmd]
  rfl

/-- The write leaves BUSY, and the fields of other registers than HOST.EVENTS. -/
theorem rd_writeReg_regionCmd (s : State) (ch mask v : Nat) (g : RegField) (hg : g.off ≠ Reg.hostEventsEvents.off)
    (hl : g.lo + g.len ≤ 64) (h : g.off ≠ blockBase .disp ch + 0xF018 ∨ 2 ≤ g.lo ∧ g.lo + g.len ≤ 3) :
    (s.writeReg .disp ch 0xF018 mask v).rd g = s.rd g := by
  rw [writeReg_regionCmd_eq, rd_writeField _ _ _ _ _ _ _ _ _ _ g hg hl (h.imp_right fun h => .inl h.1),
    rd_writeField _ _ _ _ _ _ _ _ _ _ g hg hl (h.imp_right fun h => .inr h.2)]

theorem dispRegionCmdBusy_off_ne (ch : Nat) : (Reg.dispRegionCmdBusy ch).off ≠ Reg.hostEventsEvents.off := by
  simp only [Reg.dispRegionCmdBusy, Reg.hostEventsEvents]
  omega

/-- R284: a command that starts: its mode and address are taken, and every cell of the channel is left to reach. -/
def State.syncStarted (s : State) (ch v mode : Nat) : State :=
  ((s.writeReg .disp ch 0xF018 all64 v).wr (Reg.dispRegionCmdBusy ch) 1).modDisp ch fun d => { d with
    syncMode := mode == 1, syncAddr := s.rd (Reg.dispRegionSyncAddrDesc ch), syncLeft := cellsOf ch, syncWalks := [] }

/-- R284: a served write with GO starts the command, or is refused while one is in progress. -/
theorem regionSync_served {ch v mode : Nat} (hgo : bitAt v 0 = true) (hm : bits v 1 1 = mode) (hg : s.chanGate ch = .serve) :
    s.regionSync ch v mode = if s.rd (Reg.dispRegionCmdBusy ch) = 1 then (s.writeReg .disp ch 0xF018 8 v).regEncoding
      else s.syncStarted ch v mode := by
  have haddr : ((s.writeReg .disp ch 0xF018 all64 v).wr (Reg.dispRegionCmdBusy ch) 1).rd (Reg.dispRegionSyncAddrDesc ch) =
      s.rd (Reg.dispRegionSyncAddrDesc ch) := by
    rw [rd_wr_ne _ _ _ _ (by simp only [Reg.dispRegionCmdBusy, Reg.dispRegionSyncAddrDesc]; omega),
      rd_writeReg_regionCmd _ _ _ _ _ (by simp only [Reg.dispRegionSyncAddrDesc, Reg.hostEventsEvents]; omega)
        (show 0 + 52 ≤ 64 by decide) (.inl (by simp only [Reg.dispRegionSyncAddrDesc, blockBase]; omega))]
  unfold State.regionSync
  simp only [hgo, hm, hg, State.gated, haddr, bne_self_eq_false, Bool.not_true, Bool.or_self, Bool.false_eq_true, if_false, beq_iff_eq]
  rfl

theorem exec_regionSync {ch : BitVec 2} {data : Word} {mode : Nat} {i : Instr}
    (hi : (i = .regionSyncAll ch data ∧ mode = 0) ∨ (i = .regionSyncAddr ch data ∧ mode = 1)) :
    exec i s = .next (s.regionSync ch.toNat data.toNat mode) := by
  rcases hi with ⟨rfl, rfl⟩ | ⟨rfl, rfl⟩ <;> rfl

theorem keepsBytes_modDisp (s : State) (ch : Nat) (f : Disp → Disp) : KeepsBytes s (s.modDisp ch f) := .of_eq rfl rfl rfl

/-- What a command that starts leaves. -/
theorem syncStarted_effect (s : State) (ch v mode : Nat) : let t := s.syncStarted ch v mode
    KeepsBytes s t ∧ t.cells = s.cells ∧ t.rd (Reg.dispRegionCmdBusy ch) = 1 ∧ (t.dsp ch).syncLeft = cellsOf ch ∧
      (t.dsp ch).syncMode = (mode == 1) ∧ (t.dsp ch).syncAddr = s.rd (Reg.dispRegionSyncAddrDesc ch) := by
  unfold State.syncStarted
  have hr : RegsOnly s (s.writeReg .disp ch 0xF018 all64 v) := writeReg_regsOnly ..
  generalize s.writeReg .disp ch 0xF018 all64 v = u at hr
  have hbusy := rd_wr_same u (Reg.dispRegionCmdBusy ch) 1 (show 2 + 1 ≤ 64 by decide)
  refine ⟨(hr.wr _ _).bytes.trans (keepsBytes_modDisp ..), (State.modDisp_cells ..).trans (hr.wr _ _).cells,
    (State.rd_modDisp ..).trans hbusy, ?_, ?_, ?_⟩ <;>
    rw [dsp_modDisp_same]

/-- What a command that is refused leaves. -/
theorem syncRefused_effect (s : State) (ch v : Nat) : let t := (s.writeReg .disp ch 0xF018 8 v).regEncoding
    RegsOnly s t ∧ t.rd (Reg.dispRegionCmdBusy ch) = s.rd (Reg.dispRegionCmdBusy ch) := by
  refine ⟨(writeReg_regsOnly ..).trans (regEncoding_regsOnly _), ?_⟩
  rw [rd_regEncoding_ne _ _ (dispRegionCmdBusy_off_ne ch), rd_writeReg_regionCmd _ _ _ _ _ (dispRegionCmdBusy_off_ne ch)
    (show 2 + 1 ≤ 64 by decide) (.inr (show 2 ≤ 2 ∧ 2 + 1 ≤ 3 by decide))]

/-! ### The arrival at a cell -/

/-- R284: the region registers that the command in progress in channel `ch` leaves: list registers, and in ADDR mode those read from
another address. -/
def State.syncKeeps (s : State) (ch : Nat) (r : RegionReg) : Bool :=
  decide (r.num < s.regionCount ch r.ctx) || ((s.dsp ch).syncMode && r.addr != (s.dsp ch).syncAddr)

/-- R284: at a cell that no launch holds nothing is walked again. -/
theorem syncCell_unheld (s : State) (ch id : Nat) (h : ∀ k, k < 16 → (s.ctx ch k).phase.holds = false) :
    s.syncCell ch id = s.modCell id fun c => { c with regions := c.regions.filter (s.syncKeeps ch) } := by
  refine List.foldlRecOn (motive := (· = s.modCell id fun c => { c with regions := c.regions.filter (s.syncKeeps ch) })) _ _ rfl ?_
  rintro _ rfl k hk
  have hk' : ((s.modCell id fun c => { c with regions := c.regions.filter (s.syncKeeps ch) }).ctx ch k).phase.holds = false :=
    h k (List.mem_range.1 hk)
  simp only [hk', Bool.false_and, Bool.false_eq_true, if_false]

/-- R284: the cell `id` is reached. -/
def State.syncReached (s : State) (ch id : Nat) : State :=
  (s.modCell id fun c => { c with regions := c.regions.filter (s.syncKeeps ch) }).modDisp ch fun d =>
    { d with syncLeft := d.syncLeft.erase id }

/-- R284: the command has reached every cell. -/
def State.syncDone (s : State) (ch : Nat) : State :=
  ((s.wr (Reg.dispRegionCmdBusy ch) 0).wr (Reg.dispRegionCmdDone ch) 1).modDisp ch fun d => { d with syncWalks := [] }

/-- R284: the arrival at a cell that no launch holds reaches it, and ends the command with the last one. -/
theorem exec_regionSyncArrival_unheld {cell : BitVec 10} (hm : cell.toNat ∈ (s.dsp (chOf cell.toNat)).syncLeft)
    (hr : s.cellInReset cell.toNat = false) (h : ∀ k, k < 16 → (s.ctx (chOf cell.toNat) k).phase.holds = false) :
    exec (.regionSyncArrival cell) s = .next (if (s.dsp (chOf cell.toNat)).syncLeft = [cell.toNat]
      then (s.syncReached (chOf cell.toNat) cell.toNat).syncDone (chOf cell.toNat) else s.syncReached (chOf cell.toNat) cell.toNat) := by
  have hlast : ((s.syncReached (chOf cell.toNat) cell.toNat).dsp (chOf cell.toNat)).syncLeft.isEmpty = true ↔
      (s.dsp (chOf cell.toNat)).syncLeft = [cell.toNat] := by
    rw [State.syncReached, dsp_modDisp_same, List.isEmpty_iff]
    exact List.erase_eq_nil_iff.trans (or_iff_right (List.ne_nil_of_mem hm))
  show execRegionSyncArrival cell s = _
  unfold execRegionSyncArrival
  simp only [List.contains_iff_mem.2 hm, hr, Bool.not_true, Bool.or_self, Bool.false_eq_true, if_false, syncCell_unheld s _ _ h]
  exact congrArg Host.Outcome.next (if_congr hlast rfl rfl)

theorem cell_syncReached (s : State) (ch id : Nat) :
    ((s.syncReached ch id).cell id).regions = (s.cell id).regions.filter (s.syncKeeps ch) := by
  rw [State.syncReached, State.cell_modDisp, cell_modCell_same]

theorem syncLeft_syncReached (s : State) (ch id : Nat) : ((s.syncReached ch id).dsp ch).syncLeft = (s.dsp ch).syncLeft.erase id := by
  rw [State.syncReached, dsp_modDisp_same]
  rfl

theorem syncReached_bytes (s : State) (ch id : Nat) : KeepsBytes s (s.syncReached ch id) :=
  (KeepsBytes.modCell s id (f := fun c => { c with regions := c.regions.filter (s.syncKeeps ch) }) fun _ => rfl).trans
    (keepsBytes_modDisp ..)

theorem syncDone_bytes (s : State) (ch : Nat) : KeepsBytes s (s.syncDone ch) :=
  (((RegsOnly.refl s).wr _ _).wr _ _).bytes.trans (keepsBytes_modDisp ..)

theorem syncLeft_syncDone (s : State) (ch : Nat) : ((s.syncDone ch).dsp ch).syncLeft = (s.dsp ch).syncLeft := by
  rw [State.syncDone, dsp_modDisp_same, State.dsp_wr, State.dsp_wr]

theorem cell_syncDone (s : State) (ch id : Nat) : (s.syncDone ch).cell id = s.cell id := by
  rw [State.syncDone, State.cell_modDisp, State.cell_wr, State.cell_wr]

/-- R284: with the last cell BUSY clears and DONE sets. -/
theorem rd_syncDone (s : State) (ch : Nat) :
    (s.syncDone ch).rd (Reg.dispRegionCmdBusy ch) = 0 ∧ (s.syncDone ch).rd (Reg.dispRegionCmdDone ch) = 1 := by
  have hbusy := rd_wr_same s (Reg.dispRegionCmdBusy ch) 0 (show 2 + 1 ≤ 64 by decide)
  have hkept := rd_wr_disjoint (s.wr (Reg.dispRegionCmdBusy ch) 0) (Reg.dispRegionCmdDone ch) (Reg.dispRegionCmdBusy ch) 1 rfl
    (show 2 + 1 ≤ 64 by decide) (.inr (show 2 + 1 ≤ 3 by decide))
  have hdone := rd_wr_same (s.wr (Reg.dispRegionCmdBusy ch) 0) (Reg.dispRegionCmdDone ch) 1 (show 3 + 1 ≤ 64 by decide)
  exact ⟨(State.rd_modDisp ..).trans (hkept.trans hbusy), (State.rd_modDisp ..).trans hdone⟩

end

end Sys2Proof.Machine
end

section
/-! PROOFS (O37). The scrubbers of the stacks and of the cells (R287 to R289). -/
namespace Sys2Proof.Machine

/-! ### Blocks and words -/

theorem blocksOf_block (b : Nat) : blocksOf (64 * b) 64 = [b] := by
  have hn : (64 * b + 64 - 1) / 64 - 64 * b / 64 + 1 = 1 := by omega
  have hb : 64 * b / 64 = b := by omega
  rw [blocksOf, hn, hb]
  rfl

theorem wordsOf_word (w : Nat) : wordsOf (8 * w) 8 = [w] := by
  have hn : (8 * w + 8 - 1) / 8 - 8 * w / 8 + 1 = 1 := by omega
  have hw : 8 * w / 8 = w := by omega
  rw [wordsOf, hn, hw]
  rfl

/-- R274: blocks of a stack are blocks of HBM. -/
theorem mul_stackBlock_div (n k : Nat) : 64 * (stackBlock n k / 64) = stackBlock n k := by
  unfold stackBlock
  omega

/-! ### The scrubber of a stack -/

section
variable {s : State} {n b : Nat}

theorem keepsBytes_hbmErr (s : State) (l : Sparse Nat) : KeepsBytes s { s with hbmErr := l } := .of_eq rfl rfl rfl

theorem keepsBytes_stackScrub (s : State) (l : Sparse (Nat × Bool)) : KeepsBytes s { s with stackScrub := l } := .of_eq rfl rfl rfl

theorem raiseStackScrub_regsOnly (s : State) (n : Nat) : RegsOnly s (s.raiseStackScrub n) := by
  unfold State.raiseStackScrub
  split
  · exact .refl s
  · exact (RegsOnly.refl s).wr _ _

/-- R289: unless pinned, the level goes up by one, to 7 at most. -/
theorem rd_level_raiseStackScrub (s : State) (n : Nat) : (s.raiseStackScrub n).rd (Reg.memScrubCtlLevel n) =
    if s.rd (Reg.memScrubCtlPin n) = 1 then s.rd (Reg.memScrubCtlLevel n) else min 7 (s.rd (Reg.memScrubCtlLevel n) + 1) := by
  unfold State.raiseStackScrub
  simp only [beq_iff_eq]
  split
  · rfl
  · exact (rd_wr_same _ _ _ (show 0 + 3 ≤ 64 by decide)).trans (Nat.mod_eq_of_lt (show min 7 _ < 8 by omega))

theorem rd_raiseStackScrub_ne (s : State) (n : Nat) {f : RegField} (h : f.off ≠ (Reg.memScrubCtlLevel n).off) :
    (s.raiseStackScrub n).rd f = s.rd f := by
  unfold State.raiseStackScrub
  split
  · rfl
  · exact rd_wr_ne _ _ _ _ h

/-- R287, R289: a read of a block with a single-bit error corrects it, counts it at its stack and raises the stack's level. -/
theorem hbmTouch_single (h : sget 0 s.hbmErr b = 1) : let t := s.hbmTouch (64 * b) 64
    let k := stackOf (64 * b)
    KeepsBytes s t ∧ t.hbmErr = sdel s.hbmErr b ∧ t.stackScrub = smod (0, false) s.stackScrub k (fun e => (e.1, true)) ∧
      t.rd (Reg.memStatusCorrected k) = min (2 ^ (Reg.memStatusCorrected k).len - 1) (s.rd (Reg.memStatusCorrected k) + 1) ∧
      t.rd (Reg.memScrubCtlLevel k) = if s.rd (Reg.memScrubCtlPin k) = 1 then s.rd (Reg.memScrubCtlLevel k)
        else min 7 (s.rd (Reg.memScrubCtlLevel k) + 1) := by
  intro t k
  obtain ⟨u, hu⟩ : ∃ u : State, u =
      { s with hbmErr := sdel s.hbmErr b, stackScrub := smod (0, false) s.stackScrub k fun e => (e.1, true) } := ⟨_, rfl⟩
  have ht : t = (u.bump (Reg.memStatusCorrected k)).raiseStackScrub k := by
    show s.hbmTouch (64 * b) 64 = _
    rw [State.hbmTouch, blocksOf_block, List.foldl_cons, List.foldl_nil, if_pos (by rw [h]; rfl), hu]
  have hr : RegsOnly u t := by
    rw [ht]
    exact ((RegsOnly.refl u).wr _ _).trans (raiseStackScrub_regsOnly _ _)
  have hrd : ∀ f, u.rd f = s.rd f := fun f => by rw [hu]; rfl
  have hne : (Reg.memStatusCorrected k).off ≠ (Reg.memScrubCtlLevel k).off := by
    simp only [Reg.memStatusCorrected, Reg.memScrubCtlLevel]
    omega
  have hbump : ∀ f : RegField, f.off = (Reg.memScrubCtlLevel k).off → (u.bump (Reg.memStatusCorrected k)).rd f = s.rd f := fun f hf =>
    (rd_wr_ne _ _ _ _ (by rw [hf]; exact hne.symm)).trans (hrd f)
  refine ⟨?bytes, ?err, ?scrub, ?corrected, ?level⟩
  case bytes => exact KeepsBytes.trans (.of_eq (by rw [hu]) (by rw [hu]) (by rw [hu])) hr.bytes
  case err => obtain ⟨_, _, _, e⟩ := hr; rw [e, hu]
  case scrub => obtain ⟨_, _, _, e⟩ := hr; rw [e, hu]
  case corrected =>
    rw [ht, rd_raiseStackScrub_ne _ _ hne, ← hrd]
    exact rd_bump_same u _ 1 (show 48 + 16 ≤ 64 by decide) rfl
  case level => rw [ht, rd_level_raiseStackScrub, hbump (Reg.memScrubCtlPin k) rfl, hbump (Reg.memScrubCtlLevel k) rfl]

/-- R289: where a stack's scrubber goes on after block `k`. -/
def State.stackGoesOn (s : State) (n k : Nat) : State :=
  let found := (sget (0, false) s.stackScrub n).2
  if k + 1 < 2 ^ 30 then { s with stackScrub := sset (0, false) s.stackScrub n (k + 1, found) }
  else { s with stackScrub := sset (0, false) s.stackScrub n (0, false) }.stackPassEnd n found

theorem exec_scrubRead_stack (hp : s.pwr.porst = false) (n : BitVec 3) (ecc : EccSeen) :
    exec (.scrubRead (.stack n) ecc) s = .next (s.scrubStack n.toNat ecc) := by
  show execScrubRead (.stack n) ecc s = _
  simp only [execScrubRead, hp, Bool.false_eq_true, if_false]

/-- R289: a block that reads good leaves the scrubber to go on. -/
theorem scrubStack_good {k : Nat} (hk : (sget (0, false) s.stackScrub n).1 = k) (hup : s.stackUp n = true)
    (h0 : sget 0 s.hbmErr (stackBlock n k / 64) = 0) :
    s.scrubStack n .good = { s with hbmErr := sset 0 s.hbmErr (stackBlock n k / 64) 0 }.stackGoesOn n k := by
  unfold State.scrubStack
  simp only [hup, hk, h0, eccNow, Bool.not_true, Bool.false_eq_true, if_false]
  rfl

/-- R287, R289: a single-bit error is met as any read meets it, and the scrubber goes on. -/
theorem scrubStack_single {k : Nat} (hk : (sget (0, false) s.stackScrub n).1 = k) (hup : s.stackUp n = true)
    (h0 : sget 0 s.hbmErr (stackBlock n k / 64) = 0) :
    s.scrubStack n .single =
      ({ s with hbmErr := sset 0 s.hbmErr (stackBlock n k / 64) 1 }.hbmTouch (64 * (stackBlock n k / 64)) 64).stackGoesOn n k := by
  unfold State.scrubStack
  simp only [hup, hk, h0, eccNow, mul_stackBlock_div, Bool.not_true, Bool.false_eq_true, if_false]
  rfl

theorem stackPassEnd_regsOnly (s : State) (n : Nat) (found : Bool) : RegsOnly s (s.stackPassEnd n found) := by
  have h : RegsOnly s (s.incr (Reg.memScrubCtlPasses n)) := (RegsOnly.refl s).wr _ _
  unfold State.stackPassEnd
  dsimp only
  split
  · exact h
  · exact h.wr _ _

/-- R289: a pass that found no error lowers the level by one, unless pinned. -/
theorem rd_level_stackPassEnd (s : State) (n : Nat) (found : Bool) : (s.stackPassEnd n found).rd (Reg.memScrubCtlLevel n) =
    if found = true ∨ s.rd (Reg.memScrubCtlPin n) = 1 then s.rd (Reg.memScrubCtlLevel n) else s.rd (Reg.memScrubCtlLevel n) - 1 := by
  have hpin : (s.incr (Reg.memScrubCtlPasses n)).rd (Reg.memScrubCtlPin n) = s.rd (Reg.memScrubCtlPin n) :=
    rd_wr_disjoint _ _ _ _ rfl (show 11 + 1 ≤ 64 by decide) (.inr (show 11 + 1 ≤ 16 by decide))
  have hlevel : (s.incr (Reg.memScrubCtlPasses n)).rd (Reg.memScrubCtlLevel n) = s.rd (Reg.memScrubCtlLevel n) :=
    rd_wr_disjoint _ _ _ _ rfl (show 0 + 3 ≤ 64 by decide) (.inr (show 0 + 3 ≤ 16 by decide))
  have hlt : s.rd (Reg.memScrubCtlLevel n) < 8 := rd_lt s (Reg.memScrubCtlLevel n)
  unfold State.stackPassEnd
  simp only [Bool.or_eq_true, beq_iff_eq, hpin, hlevel]
  split
  · exact hlevel
  · exact (rd_wr_same _ _ _ (show 0 + 3 ≤ 64 by decide)).trans (Nat.mod_eq_of_lt (show _ < 8 by omega))

/-- R289: beside the registers and its own place the scrubber changes nothing. -/
theorem stackGoesOn_keeps (s : State) (n k : Nat) : KeepsBytes s (s.stackGoesOn n k) ∧ (s.stackGoesOn n k).hbmErr = s.hbmErr := by
  unfold State.stackGoesOn
  dsimp only
  split
  · exact ⟨.of_eq rfl rfl rfl, rfl⟩
  · have hr := stackPassEnd_regsOnly { s with stackScrub := sset (0, false) s.stackScrub n (0, false) } n
      (sget (0, false) s.stackScrub n).2
    refine ⟨(keepsBytes_stackScrub s _).trans hr.bytes, ?_⟩
    obtain ⟨_, _, _, e⟩ := hr
    rw [e]

/-- R289: within a pass the scrubber goes on to the next block. -/
theorem stackGoesOn_next {k : Nat} (h : k + 1 < 2 ^ 30) :
    sget (0, false) (s.stackGoesOn n k).stackScrub n = (k + 1, (sget (0, false) s.stackScrub n).2) ∧
      (s.stackGoesOn n k).regs = s.regs := by
  rw [State.stackGoesOn, if_pos h]
  exact ⟨sget_sset_same (0, false) s.stackScrub n (k + 1, (sget (0, false) s.stackScrub n).2), rfl⟩

/-- R289: the last block ends the pass. -/
theorem stackGoesOn_last {k : Nat} (h : k + 1 = 2 ^ 30) :
    sget (0, false) (s.stackGoesOn n k).stackScrub n = (0, false) ∧ (s.stackGoesOn n k).rd (Reg.memScrubCtlLevel n) =
      if (sget (0, false) s.stackScrub n).2 = true ∨ s.rd (Reg.memScrubCtlPin n) = 1 then s.rd (Reg.memScrubCtlLevel n)
        else s.rd (Reg.memScrubCtlLevel n) - 1 := by
  rw [State.stackGoesOn, if_neg (by omega)]
  refine ⟨?_, rd_level_stackPassEnd ..⟩
  obtain ⟨_, _, _, e⟩ := stackPassEnd_regsOnly { s with stackScrub := sset (0, false) s.stackScrub n (0, false) } n
    (sget (0, false) s.stackScrub n).2
  rw [e]
  exact sget_sset_same (0, false) s.stackScrub n (0, false)

/-- R289: a scrub read of a good block goes on to the next one, or ends the pass. -/
theorem scrubStack_good_effect {k : Nat} (hk : (sget (0, false) s.stackScrub n).1 = k) (hup : s.stackUp n = true)
    (h0 : sget 0 s.hbmErr (stackBlock n k / 64) = 0) :
    let t := s.scrubStack n .good
    let found := (sget (0, false) s.stackScrub n).2
    KeepsBytes s t ∧ sget 0 t.hbmErr (stackBlock n k / 64) = 0 ∧
      (k + 1 < 2 ^ 30 → sget (0, false) t.stackScrub n = (k + 1, found) ∧ t.regs = s.regs) ∧
      (k + 1 = 2 ^ 30 → sget (0, false) t.stackScrub n = (0, false) ∧ t.rd (Reg.memScrubCtlLevel n) =
        if found = true ∨ s.rd (Reg.memScrubCtlPin n) = 1 then s.rd (Reg.memScrubCtlLevel n) else s.rd (Reg.memScrubCtlLevel n) - 1) := by
  intro t found
  have ht : t = { s with hbmErr := sset 0 s.hbmErr (stackBlock n k / 64) 0 }.stackGoesOn n k := scrubStack_good hk hup h0
  rw [ht]
  obtain ⟨hbytes, herr⟩ := stackGoesOn_keeps { s with hbmErr := sset 0 s.hbmErr (stackBlock n k / 64) 0 } n k
  refine ⟨(keepsBytes_hbmErr s _).trans hbytes, ?_, stackGoesOn_next, stackGoesOn_last⟩
  rw [herr, sget_sset_same]

/-- R287, R289: within a pass, a scrub read that finds a single-bit error corrects it and goes on; the stack of the block counts it. -/
theorem scrubStack_single_effect {k : Nat} (hk : (sget (0, false) s.stackScrub n).1 = k) (hup : s.stackUp n = true)
    (h0 : sget 0 s.hbmErr (stackBlock n k / 64) = 0) (hlt : k + 1 < 2 ^ 30) :
    let t := s.scrubStack n .single
    let b := stackBlock n k / 64
    KeepsBytes s t ∧ sget 0 t.hbmErr b = 0 ∧ (stackOf (64 * b) = n → sget (0, false) t.stackScrub n = (k + 1, true) ∧
      t.rd (Reg.memStatusCorrected n) = min (2 ^ (Reg.memStatusCorrected n).len - 1) (s.rd (Reg.memStatusCorrected n) + 1) ∧
      t.rd (Reg.memScrubCtlLevel n) = if s.rd (Reg.memScrubCtlPin n) = 1 then s.rd (Reg.memScrubCtlLevel n)
        else min 7 (s.rd (Reg.memScrubCtlLevel n) + 1)) := by
  intro t b
  obtain ⟨u, hu⟩ : ∃ u, u = { s with hbmErr := sset 0 s.hbmErr b 1 }.hbmTouch (64 * b) 64 := ⟨_, rfl⟩
  obtain ⟨htouch, hclear, hscrub, hcorrected, hlevel⟩ := hbmTouch_single (s := { s with hbmErr := sset 0 s.hbmErr b 1 })
    (sget_sset_same 0 s.hbmErr b 1)
  rw [← hu] at htouch hclear hscrub hcorrected hlevel
  have ht : t = u.stackGoesOn n k := (scrubStack_single hk hup h0).trans (by rw [hu])
  obtain ⟨hbytes, herr⟩ := stackGoesOn_keeps u n k
  obtain ⟨hnext, hregs⟩ := stackGoesOn_next (s := u) (n := n) hlt
  have hrd : ∀ f, (u.stackGoesOn n k).rd f = u.rd f := fun f => by rw [State.rd, State.reg, hregs]; rfl
  rw [ht]
  refine ⟨((keepsBytes_hbmErr s _).trans htouch).trans hbytes, ?_, fun hst => ?_⟩
  · rw [herr, hclear, sget_sdel_same]
  · rw [hst] at hscrub hcorrected hlevel
    refine ⟨hnext.trans ?_, (hrd _).trans hcorrected, (hrd _).trans hlevel⟩
    rw [hscrub, sget_smod_same]

end

/-! ### The scrubber of a cell -/

section
variable {s : State} {id : Nat}

/-- R289: unless pinned, the level goes up by one, to 7 at most. -/
theorem rd_level_raiseCellScrub (s : State) (p : Nat) : (s.raiseCellScrub p).rd (Reg.cellLmEccLevel p) =
    if s.rd (Reg.cellLmEccPin p) = 1 then s.rd (Reg.cellLmEccLevel p) else min 7 (s.rd (Reg.cellLmEccLevel p) + 1) := by
  unfold State.raiseCellScrub
  simp only [beq_iff_eq]
  split
  · rfl
  · exact (rd_wr_same _ _ _ (show 0 + 3 ≤ 64 by decide)).trans (Nat.mod_eq_of_lt (show min 7 _ < 8 by omega))

/-- R288, R289: a read of a word with a single-bit error corrects it, and raises the cell's level. -/
theorem lmTouch_single {w : Nat} (h : sget 0 (s.cell id).lmErr w = 1) : let t := s.lmTouch id (8 * w) 8
    let p := s.phys id
    CellTo s t id { s.cell id with lmErr := sdel (s.cell id).lmErr w, scrubFound := true } ∧
      t.rd (Reg.cellLmEccLevel p) = if s.rd (Reg.cellLmEccPin p) = 1 then s.rd (Reg.cellLmEccLevel p)
        else min 7 (s.rd (Reg.cellLmEccLevel p) + 1) := by
  intro t p
  obtain ⟨u, hu⟩ : ∃ u : State, u = s.modCell id fun c => { c with lmErr := sdel c.lmErr w, scrubFound := true } := ⟨_, rfl⟩
  have ht : t = (u.bump (Reg.cellLmEccCorrected p)).raiseCellScrub p := by
    show s.lmTouch id (8 * w) 8 = _
    rw [State.lmTouch, wordsOf_word, List.foldl_cons, List.foldl_nil, if_pos (by rw [h]; rfl), hu]
    rfl
  have hcell : CellTo s u id { s.cell id with lmErr := sdel (s.cell id).lmErr w, scrubFound := true } := by
    rw [hu]; exact cellTo_modCell s id rfl
  have hbump : ∀ f : RegField, f.off = (Reg.cellLmEccCorrected p).off → f.lo + f.len ≤ 48 →
      (u.bump (Reg.cellLmEccCorrected p)).rd f = s.rd f := fun f ho hf =>
    (rd_wr_disjoint _ _ _ _ ho (by omega) (.inr hf)).trans (by rw [hu]; rfl)
  refine ⟨?_, ?_⟩
  · rw [ht]
    exact hcell.regsOnly (((RegsOnly.refl u).wr _ _).trans (State.raiseCellScrub_regsOnly _ _))
  · rw [ht, rd_level_raiseCellScrub, hbump (Reg.cellLmEccPin p) rfl (show 11 + 1 ≤ 48 by decide),
      hbump (Reg.cellLmEccLevel p) rfl (show 0 + 3 ≤ 48 by decide)]

theorem exec_scrubRead_cell (hp : s.pwr.porst = false) (cell : BitVec 10) (ecc : EccSeen) :
    exec (.scrubRead (.cell cell) ecc) s = .next (s.scrubCell cell.toNat ecc) := by
  show execScrubRead (.cell cell) ecc s = _
  simp only [execScrubRead, hp, Bool.false_eq_true, if_false]

section
variable (hl : isLogical id = true) (hr : s.cellInReset id = false) (hs : (s.island (s.phys id)).stopped = false)
  (h0 : sget 0 (s.cell id).lmErr (s.cell id).scrubPos = 0) (hk : (s.cell id).scrubPos + 1 < 196608)
include hl hr hs h0 hk

/-- R288, R289: what the scrubber of a running cell does within a pass with a good word, and with a single-bit error. -/
theorem scrubCell_eq {k : Nat} (hpos : (s.cell id).scrubPos = k) :
    s.scrubCell id .good = (s.modCell id fun c => { c with lmErr := sset 0 c.lmErr k 0 }).modCell id (fun c => { c with scrubPos := k + 1 }) ∧
      s.scrubCell id .single = ((s.modCell id fun c => { c with lmErr := sset 0 c.lmErr k 1 }).lmTouch id (8 * k) 8).modCell id
        fun c => { c with scrubPos := k + 1 } := by
  rw [hpos] at h0 hk
  unfold State.scrubCell
  simp only [hl, hr, hs, hpos, h0, hk, eccNow, Bool.not_true, Bool.or_self, Bool.false_eq_true, if_false, if_true]
  exact ⟨rfl, rfl⟩

/-- R289: within a pass, a scrub read of a good word goes on to the next one. -/
theorem scrubCell_good_effect : let t := s.scrubCell id .good
    KeepsBytes s t ∧ t.regs = s.regs ∧ (t.cell id).scrubPos = (s.cell id).scrubPos + 1 := by
  obtain ⟨k, hpos⟩ : ∃ k, (s.cell id).scrubPos = k := ⟨_, rfl⟩
  intro t
  have ht : t = _ := (scrubCell_eq hl hr hs h0 hk hpos).1
  have hc := (cellTo_modCell s id (f := fun c => { c with lmErr := sset 0 c.lmErr k 0 }) rfl).modCell
    (f := fun c => { c with scrubPos := k + 1 }) rfl
  rw [ht, hpos]
  exact ⟨hc.bytes, rfl, by rw [hc.cell]⟩

/-- R288, R289: within a pass, a scrub read of a word with a single-bit error corrects it, raises the cell's level and goes on. -/
theorem scrubCell_single_effect : let t := s.scrubCell id .single
    let p := s.phys id
    KeepsBytes s t ∧ (t.cell id).scrubPos = (s.cell id).scrubPos + 1 ∧ sget 0 (t.cell id).lmErr (s.cell id).scrubPos = 0 ∧
      (t.cell id).scrubFound = true ∧ t.rd (Reg.cellLmEccLevel p) =
        if s.rd (Reg.cellLmEccPin p) = 1 then s.rd (Reg.cellLmEccLevel p) else min 7 (s.rd (Reg.cellLmEccLevel p) + 1) := by
  obtain ⟨k, hpos⟩ : ∃ k, (s.cell id).scrubPos = k := ⟨_, rfl⟩
  intro t p
  have ht : t = _ := (scrubCell_eq hl hr hs h0 hk hpos).2
  have hmet := cellTo_modCell s id (f := fun c => { c with lmErr := sset 0 c.lmErr k 1 }) rfl
  obtain ⟨htouch, hlevel⟩ := lmTouch_single (s := s.modCell id fun c => { c with lmErr := sset 0 c.lmErr k 1 }) (id := id) (w := k)
    (by rw [hmet.cell]; exact sget_sset_same 0 (s.cell id).lmErr k 1)
  have hc := (hmet.trans htouch).modCell (f := fun c => { c with scrubPos := k + 1 }) rfl
  rw [hmet.cell] at hc
  rw [ht, hpos]
  refine ⟨hc.bytes, by rw [hc.cell], ?_, by rw [hc.cell], hlevel⟩
  rw [hc.cell, sget_sdel_same]

end

end

/-- Settles O37: a REGION_CMD starts or is refused, arrives cell by cell and is done with the last; scrub reads go on, correct single-bit
errors and move the level. -/
theorem regionSyncAndScrub : Obligations.RegionSyncAndScrub := by
  unfold Obligations.RegionSyncAndScrub
  intro s
  refine ⟨?command, ?arrival, ?stack, ?cell⟩
  case command =>
    intro ch data mode i hi c hgo hm hg
    have hex := (exec_regionSync hi).trans (congrArg Host.Outcome.next (regionSync_served hgo hm hg))
    refine ⟨fun hidle => ?starts, fun hbusy => ?refused⟩
    case starts =>
      rw [if_neg (by rw [hidle]; decide)] at hex
      exact ⟨_, hex, syncStarted_effect s c data.toNat mode⟩
    case refused =>
      rw [if_pos hbusy] at hex
      obtain ⟨hregs, hrd⟩ := syncRefused_effect s c data.toNat
      exact ⟨_, hex, hregs.bytes, hregs.cells, hregs.disp, hrd.trans hbusy⟩
  case arrival =>
    intro cell id c d hm _ hr hh
    have hex := exec_regionSyncArrival_unheld hm hr hh
    have hb := syncReached_bytes s c id
    by_cases hlast : d.syncLeft = [id]
    · rw [if_pos hlast] at hex
      exact ⟨_, hex, hb.trans (syncDone_bytes _ c), (syncLeft_syncDone _ c).trans (syncLeft_syncReached s c id),
        (congrArg _ (cell_syncDone _ c id)).trans (cell_syncReached s c id), fun _ => rd_syncDone _ c, fun h => absurd hlast h⟩
    · rw [if_neg hlast] at hex
      exact ⟨_, hex, hb, syncLeft_syncReached s c id, cell_syncReached s c id, fun h => absurd h hlast, fun _ => rfl⟩
  case stack =>
    intro n ecc k pos found b level hp hup h0
    refine ⟨fun he => ?good, fun he hk => ?single⟩
    case good =>
      subst he
      exact ⟨_, exec_scrubRead_stack hp n .good, scrubStack_good_effect rfl hup h0⟩
    case single =>
      subst he
      exact ⟨_, exec_scrubRead_stack hp n .single, scrubStack_single_effect rfl hup h0 hk⟩
  case cell =>
    intro cell ecc id p pos hp hl hr hs h0 hk
    refine ⟨fun he => ?good, fun he => ?single⟩
    case good =>
      subst he
      exact ⟨_, exec_scrubRead_cell hp cell .good, scrubCell_good_effect hl hr hs h0 hk⟩
    case single =>
      subst he
      exact ⟨_, exec_scrubRead_cell hp cell .single, scrubCell_single_effect hl hr hs h0 hk⟩

end Sys2Proof.Machine
end

section
/-! PROOFS (O39). The frame events that ingest holds and the input digests that it keeps (R303, R402): what outputs, the dispatcher, Bristle
and the stores of the cells leave of them. -/
namespace Sys2Proof.Machine

/-- A held event without what its flags, its slot and its fragments tell: its number, its stage, and whether a write of it waits. -/
def FrameEv.standing (e : FrameEv) : Nat × FrameStage × Bool := (e.event, e.stage, e.stuck)

/-- From `s` to `t` every channel's events stand as they did, and no input digest of ingest is added or lost. -/
structure KeepsFrames (s t : State) : Prop where
  events : ∀ c, (t.ingOf c).events.map FrameEv.standing = (s.ingOf c).events.map FrameEv.standing
  ingest : t.sealer.ingest = s.sealer.ingest

section
variable {z s t : State}

/-! ### The relation -/

theorem KeepsFrames.refl (s : State) : KeepsFrames s s := ⟨fun _ => rfl, rfl⟩

/-- A change of other parts of the state. -/
theorem KeepsFrames.next (h : KeepsFrames z s) (hi : t.ing = s.ing) (hs : t.sealer = s.sealer) : KeepsFrames z t :=
  ⟨fun c => by rw [State.ingOf, hi]; exact h.events c, by rw [hs]; exact h.ingest⟩

theorem KeepsFrames.ite {p : Prop} [Decidable p] (hs : KeepsFrames z s) (ht : KeepsFrames z t) :
    KeepsFrames z (if p then s else t) := by
  split
  · exact hs
  · exact ht

theorem KeepsFrames.foldl {α : Type} {f : State → α → State} (hf : ∀ s x, KeepsFrames z s → KeepsFrames z (f s x))
    (h : KeepsFrames z s) (l : List α) : KeepsFrames z (l.foldl f s) :=
  List.foldlRecOn l f h fun t ht x _ => hf t x ht

theorem KeepsFrames.modIng (h : KeepsFrames z s) (ch : Nat) {f : Ing → Ing}
    (hf : ∀ g, (f g).events.map FrameEv.standing = g.events.map FrameEv.standing) : KeepsFrames z (s.modIng ch f) := by
  refine ⟨fun c => ?_, h.ingest⟩
  rw [← h.events c]
  by_cases hc : c = ch
  · rw [hc, ingOf_modIng_same, hf]
  · rw [ingOf_modIng_ne s f hc]

section
variable (h : KeepsFrames z s)
include h

theorem KeepsFrames.wr (f : RegField) (v : Nat) : KeepsFrames z (s.wr f v) := h.next (State.wr_ing ..) (State.wr_sealer ..)
theorem KeepsFrames.bump (f : RegField) (n : Nat) : KeepsFrames z (s.bump f n) := h.wr ..
theorem KeepsFrames.evt (code n : Nat) : KeepsFrames z (s.evt code n) := h.next (evt_ing ..) (evt_sealer ..)
theorem KeepsFrames.irq (b : Nat) : KeepsFrames z (s.irq b) := h.next (irq_ing ..) (irq_sealer ..)
theorem KeepsFrames.signal (v : Nat) : KeepsFrames z (s.signal v) := h.next (signal_ing ..) (signal_sealer ..)
theorem KeepsFrames.modCell (id : Nat) (f : CellMem → CellMem) : KeepsFrames z (s.modCell id f) := h.next rfl rfl
theorem KeepsFrames.modDisp (ch : Nat) (f : Disp → Disp) : KeepsFrames z (s.modDisp ch f) := h.next rfl rfl
theorem KeepsFrames.modFn (i : Nat) (f : SafeFn → SafeFn) : KeepsFrames z (s.modFn i f) := h.next rfl rfl
theorem KeepsFrames.modQueue (q : Nat) (f : Queue → Queue) : KeepsFrames z (s.modQueue q f) := h.next rfl rfl
theorem KeepsFrames.modWgl (q : Nat) (f : Wgl → Wgl) : KeepsFrames z (s.modWgl q f) := h.next rfl rfl
theorem KeepsFrames.fresh : KeepsFrames z s.fresh.2 := h.next rfl rfl
theorem KeepsFrames.host (x : HostIf) : KeepsFrames z { s with host := x } := h.next rfl rfl
theorem KeepsFrames.modPwr (f : Power → Power) : KeepsFrames z (s.modPwr f) := h.next rfl rfl
theorem KeepsFrames.stage (r : Staged) : KeepsFrames z (s.stage r) := h.next rfl rfl

omit h in
/-- R404 to R407: an entry of the recorder stamped with any tick. -/
theorem hrdRecordAt_recordsOnly (s : State) (tick kind ch id : Nat) (payload : Bytes) :
    RecordsOnly s (s.hrdRecordAt tick kind ch id payload) := by
  unfold State.hrdRecordAt
  split
  · dsimp only
    split
    · exact hrdHalt_recordsOnly s
    split
    · exact (hrdFlush_recordsOnly s).trans (hrdLose_recordsOnly _)
    · exact (hrdFlush_recordsOnly s).trans (hrdAppend_recordsOnly ..)
  split
  · exact (takeSeq_recordsOnly s).wr _ _
  · exact .refl s

theorem RecordsOnly.keepsFrames (hr : RecordsOnly s t) : KeepsFrames z t := by
  obtain ⟨_, _, _, _, _, rfl⟩ := hr
  exact h.next rfl rfl

theorem KeepsFrames.hrdRecord (kind ch id : Nat) (payload : Bytes) : KeepsFrames z (s.hrdRecord kind ch id payload) :=
  RecordsOnly.keepsFrames h (hrdRecordAt_recordsOnly ..)

/-! ### Completions, Waggle messages and outputs -/

theorem KeepsFrames.dEvt (ch code : Nat) : KeepsFrames z (s.dEvt ch code) := by
  unfold State.dEvt
  refine KeepsFrames.evt ?_ code ch
  split
  case h_9 => exact h
  all_goals exact h.bump ..

theorem KeepsFrames.queueSignal (q : Nat) : KeepsFrames z (s.queueSignal q) := .ite (.signal (h.modQueue ..) _) h

theorem KeepsFrames.hostWrite (bus : Nat) (bs : Bytes) : KeepsFrames z (s.hostWrite bus bs) := by
  unfold State.hostWrite
  split
  · exact h.next rfl rfl
  · exact h

theorem KeepsFrames.cqPost (q status mark id events : Nat) (seal8 : Bytes) (output dup : Bool) :
    KeepsFrames z (s.cqPost q status mark id events seal8 output dup) :=
  .ite (h.bump ..) (.queueSignal (.modQueue (h.hostWrite _ _) ..) q)

omit h in
theorem KeepsFrames.cqDups (h : KeepsFrames z s) (q id : Nat) (c : Bytes) (n : Nat) : KeepsFrames z (s.cqDups q id c n) := by
  induction n generalizing s with
  | zero => exact h
  | succ n ih => exact ih (h.cqPost ..)

theorem KeepsFrames.hostFinish (q id status mark events : Nat) (seal8 : Bytes) (output : Bool) :
    KeepsFrames z (s.hostFinish q id status mark events seal8 output) :=
  .cqDups (.ite (.bump (h.modQueue ..) ..) (.cqPost (h.modQueue ..) ..)) ..

theorem KeepsFrames.setDone (ch : Nat) (t : Trigger) (f : HostDone → HostDone) : KeepsFrames z (s.setDone ch t f) := by
  unfold State.setDone State.tryFinish
  split
  · exact h
  split
  · exact h.modDisp ..
  · exact .ite (.hostFinish (.modDisp (h.modDisp ..) ..) ..) (h.modDisp ..)

theorem KeepsFrames.wglStore (q : Nat) (bytes : Bytes) (reserve : Bool) : KeepsFrames z (s.wglStore q bytes reserve) :=
  .ite (.modWgl (h.modWgl ..) ..) (h.modWgl ..)

theorem KeepsFrames.replayCompare (ch : Nat) (header sealBytes : Bytes) :
    KeepsFrames z (s.replayCompare ch header sealBytes) := by
  unfold State.replayCompare
  refine .ite (h.bump ..) ?_
  extract_lets isOutput hoard
  split
  · exact h.bump ..
  · extract_lets used first diverged
    have hu : KeepsFrames z used := h.next rfl rfl
    have hd : KeepsFrames z diverged := .bump (.ite (hu.wr ..) hu) ..
    exact .ite (hu.bump ..) (.ite (.irq (.wr (hd.wr ..) ..) 2) hd)

theorem KeepsFrames.outPath (ch : Nat) (t : Trigger) (real : Bool) (header sealBytes out : Bytes)
    (status mark events : Nat) : KeepsFrames z (s.outPath ch t real header sealBytes out status mark events) := by
  have blocked : KeepsFrames z (s.outBlocked ch) := h.dEvt ch 0x800A
  unfold State.outPath
  refine .ite (.setDone (.ite (.wglStore (.modWgl h.fresh ..) ..) blocked) ..) (.ite ?_ (h.setDone ..))
  split
  · exact blocked.setDone ..
  · exact .ite (blocked.setDone ..) (.setDone (.ite (h.stage ..) (h.host _)) ..)

theorem KeepsFrames.emitFallback (ch : Nat) (t : Trigger) (ctxNo mark fault events missing status : Nat) :
    KeepsFrames z (s.emitFallback ch t ctxNo mark fault events missing status) :=
  .ite (.ite (h.replayCompare ..) h) (.ite h (.outPath (.ite (h.hrdRecord ..) h) ..))

end

/-! ### The dispatcher -/

/-- R298: a released slot goes to an event that waits for one, and the event stands as it did. -/
theorem standing_release (g : Ing) (k : Nat) : (g.release k).events.map FrameEv.standing = g.events.map FrameEv.standing := by
  unfold Ing.release
  split
  · rfl
  split
  · rfl
  · rw [List.map_map]
    refine List.map_congr_left fun x _ => ?_
    rw [Function.comp_apply]
    split <;> rfl

section
variable (h : KeepsFrames z s)
include h

theorem KeepsFrames.releaseSlot (ch : Nat) (t : Trigger) : KeepsFrames z (s.releaseSlot ch t) := by
  unfold State.releaseSlot
  refine .ite h (.ite (h.modIng ch fun g => standing_release g t.slot) (.ite ?_ h))
  exact h.next rfl rfl

theorem KeepsFrames.pick (l : List Nat) : KeepsFrames z (s.pick l).2 := by
  unfold State.pick
  split
  · exact h
  · exact h
  · exact h.fresh

omit h in
theorem KeepsFrames.serveQueue (h : KeepsFrames z s) (n ch : Nat) : KeepsFrames z (State.serveQueue n s ch) := by
  induction n generalizing s with
  | zero => exact h
  | succ n ih =>
    unfold State.serveQueue
    split
    · exact ih (.setDone (.modDisp (.modDisp (h.pick _) ..) ..) ..)
    · exact h

theorem KeepsFrames.dropTrigger (ch : Nat) (t : Trigger) (mark fault status : Nat) :
    KeepsFrames z (s.dropTrigger ch t mark fault status) :=
  .setDone (.ite (.emitFallback h.fresh ..) h) ..

theorem KeepsFrames.enqueue (ch : Nat) (t : Trigger) : KeepsFrames z (s.enqueue ch t) := by
  unfold State.enqueue
  extract_lets owing
  have ho : KeepsFrames z owing := by
    unfold owing
    split
    · exact h
    · exact h.modDisp ..
  have released := ho.releaseSlot ch t
  split
  · exact released.dropTrigger ..
  · exact .ite (.dropTrigger (released.dEvt ..) ..) (.ite (.dropTrigger (released.dEvt ..) ..) (.serveQueue (ho.modDisp ..) ..))

theorem KeepsFrames.acceptNow (ch : Nat) (t : Trigger) (tick : Option Nat) (unbound : Bool) :
    KeepsFrames z (s.acceptNow ch t tick unbound) := h.enqueue ..

theorem KeepsFrames.accept (ch : Nat) (t : Trigger) (tick : Option Nat) (unbound : Bool) :
    KeepsFrames z (s.accept ch t tick unbound) := by
  unfold State.accept
  refine .ite h (.ite (.dEvt (h.releaseSlot ..) ..) (.ite ?_ (h.acceptNow ..)))
  dsimp only
  split
  · exact h.modDisp ..
  · exact .acceptNow (.acceptNow (h.modDisp ..) ..) ..

theorem KeepsFrames.endCtx (ch k : Nat) : KeepsFrames z (s.endCtx ch k) :=
  .serveQueue (.setDone (.modDisp (.modDisp (.ite h (h.releaseSlot ..)) ..) ..) ..) ..

/-! ### Bristle -/

theorem KeepsFrames.mirror (f kind : Nat) (payload : Bytes) : KeepsFrames z (s.mirror f kind payload) := .wglStore (h.modWgl ..) ..

theorem KeepsFrames.enter (f side : Nat) (e : DelayEntry) : KeepsFrames z (s.enter f side e) :=
  .ite (.mirror (h.modFn ..) ..) (h.modFn ..)

theorem KeepsFrames.abortEntry (ch k outcome fault : Nat) (t : Trigger) : KeepsFrames z (s.abortEntry ch k outcome fault t) := by
  unfold State.abortEntry
  split
  · exact h
  · exact .ite h (.ite (h.enter ..) (h.modFn ..))

/-- What answers a trigger whose real result will not come: nothing, its fallback, or the completion of its host launch. -/
theorem KeepsFrames.answered {p q : Prop} [Decidable p] [Decidable q] {ch : Nat} {t u : Trigger}
    {ctxNo mark fault events missing status : Nat} {f : HostDone → HostDone} :
    KeepsFrames z (if p then s else if q then s.emitFallback ch t ctxNo mark fault events missing status else s.setDone ch u f) :=
  .ite h (.ite (h.emitFallback ..) (h.setDone ..))

theorem KeepsFrames.stopLaunch (ch k : Nat) : KeepsFrames z (s.stopLaunch ch k) := .foldl (fun _ _ h => h.modCell ..) h _

theorem KeepsFrames.abortCtx (ch k code : Nat) : KeepsFrames z (s.abortCtx ch k code) :=
  .ite h (.endCtx (.answered (.abortEntry (.stopLaunch (h.dEvt ..) ..) ..)) ..)

theorem KeepsFrames.cancelCount (ch slot outcome : Nat) : KeepsFrames z (s.cancelCount ch slot outcome) :=
  have cancelled : KeepsFrames z (s.cancelArm ch slot outcome) := .ite h (.dEvt (.hrdRecord (h.modDisp ..) ..) ..)
  .ite h (cancelled.dropTrigger ..)

theorem KeepsFrames.cancelQueue (ch mark fault status : Nat) : KeepsFrames z (s.cancelQueue ch mark fault status) :=
  .foldl (fun _ _ h => .dropTrigger (.dEvt (h.releaseSlot ..) ..) ..) (h.modDisp ..) _

theorem KeepsFrames.dropWaiting (ch cause : Nat) : KeepsFrames z (s.dropWaiting ch cause) :=
  .foldl (fun _ _ h => h.answered) (h.modDisp ..) _

theorem KeepsFrames.curlChannel (ch cause : Nat) : KeepsFrames z (s.curlChannel ch cause) :=
  have cancelled := KeepsFrames.foldl (fun _ k h => h.cancelCount ch k 4) h (List.range 16)
  .foldl (fun _ _ h => h.abortCtx ..) (.dropWaiting (cancelled.cancelQueue ..) ..) _

theorem KeepsFrames.setCause (f code field : Nat) : KeepsFrames z (s.setCause f code field) :=
  .ite (.wr (.wr (h.wr ..) ..) ..) (.wr (.wr (h.wr ..) ..) ..)

theorem KeepsFrames.curl (f cause : Nat) : KeepsFrames z (s.curl f cause) := by
  unfold State.curl
  extract_lets cleared curled told
  have hc : KeepsFrames z curled := .foldl (fun _ _ h => h.curlChannel ..) (h.modFn ..) _
  exact .evt (.setCause (.ite (hc.mirror ..) hc) ..) ..

theorem KeepsFrames.latency (ch : Nat) (t : Trigger) : KeepsFrames z (s.latency ch t) :=
  .ite (.dEvt (h.modDisp ..) ..) (h.modDisp ..)

theorem KeepsFrames.unsealed (ch k : Nat) (t : Trigger) (events missing : Nat) : KeepsFrames z (s.unsealed ch k t events missing) :=
  .ite (.emitFallback (h.dEvt ..) ..) (.setDone (h.dEvt ..) ..)

theorem KeepsFrames.jobReady (ch : Nat) (j : SealJob) : KeepsFrames z (s.jobReady ch j) :=
  have l := h.latency ch j.trig
  .ite (l.dEvt ..) (.ite (.emitFallback (.dEvt (l.dEvt ..) ..) ..) (.ite (l.unsealed ..) (l.modDisp ..)))

theorem KeepsFrames.jobReleased (ch entry event : Nat) : KeepsFrames z (s.jobReleased ch entry event) := by
  unfold State.jobReleased
  split
  · exact h
  · exact .jobReady (h.modDisp ..) ..

theorem KeepsFrames.releaseMsg (cls : Nat) (key message : Bytes) (ch : Nat) : KeepsFrames z (s.releaseMsg cls key message ch) :=
  .ite (h.wglStore ..) (.ite (h.bump ..) (h.stage ..))

theorem KeepsFrames.releaseEntry (f side : Nat) (e : DelayEntry) : KeepsFrames z (s.releaseEntry f side e) := by
  unfold State.releaseEntry
  split
  · exact h
  · exact .ite (.ite (h.jobReleased ..) h) (.ite (h.releaseMsg ..) h)

theorem KeepsFrames.releaseHeld (f : Nat) : KeepsFrames z (s.releaseHeld f) :=
  .foldl (fun _ _ h => h.releaseEntry ..) (h.modFn ..) _

theorem KeepsFrames.refuseArm (f field : Nat) : KeepsFrames z (s.refuseArm f field) := by
  unfold State.refuseArm
  extract_lets back refused released
  have hr : KeepsFrames z refused := h.modFn ..
  exact .evt (.setCause (.ite (hr.releaseHeld ..) hr) ..) ..

theorem KeepsFrames.safeFault (f code : Nat) : KeepsFrames z (s.safeFault f code) := by
  unfold State.safeFault
  extract_lets raised power pinned counted
  have hr : KeepsFrames z raised := .ite (h.evt ..) h
  have hp : KeepsFrames z pinned := .ite (hr.modPwr fun x => { x with faultN := true }) hr
  have hc : KeepsFrames z counted := hp.bump ..
  split
  · exact hc.curl ..
  · exact hc.curl ..
  · exact hc.refuseArm ..
  · exact hc

theorem KeepsFrames.channelFault (ch code : Nat) : KeepsFrames z (s.channelFault ch code) := by
  unfold State.channelFault
  split
  · exact h.safeFault ..
  · exact h

/-! ### Stores of other sources into a cell -/

theorem KeepsFrames.raiseCellScrub (p : Nat) : KeepsFrames z (s.raiseCellScrub p) := .ite h (h.wr ..)

theorem KeepsFrames.lmTouch (id off n : Nat) : KeepsFrames z (s.lmTouch id off n) :=
  .foldl (fun _ _ h => .ite (.raiseCellScrub (.bump (h.modCell ..) ..) _) h) h _

theorem KeepsFrames.lmStores (id : Nat) (l : List (Nat × Bytes)) : KeepsFrames z (s.lmStores id l) :=
  .modCell (.foldl (fun _ _ h => .ite (h.modCell ..) (h.lmTouch ..)) h _) ..

theorem KeepsFrames.inboundCount (id cause : Nat) : KeepsFrames z (s.inboundCount id cause) :=
  .ite (h.bump ..) (.ite (.channelFault (h.bump ..) ..) h)

theorem KeepsFrames.inboundStore (id off : Nat) (bs : Bytes) : KeepsFrames z (s.inboundStore id off bs).1 := by
  unfold State.inboundStore
  split
  · exact h.lmStores ..
  · exact h.inboundCount ..

end
end
end Sys2Proof.Machine
end

section
/-! PROOFS (O39). Lanes, headers, data blocks and framing failures (R293, R294, R296, R298). -/
namespace Sys2Proof.Machine

/-! ### Codes of ingest (Table 15-9) -/

section
variable {s t : State}

theorem RegsOnly.stores (h : RegsOnly s t) : t.hbm = s.hbm ∧ t.host.mem = s.host.mem := by obtain ⟨_, _, _, rfl⟩ := h; exact ⟨rfl, rfl⟩

theorem RegsOnly.ingOf (h : RegsOnly s t) (c : Nat) : t.ingOf c = s.ingOf c := by obtain ⟨_, _, _, rfl⟩ := h; rfl

theorem ingRaise_regsOnly (s : State) (c code : Nat) : RegsOnly s (s.ingRaise c code) := by
  unfold State.ingRaise
  refine RegsOnly.evt ?_ code c
  split
  case h_8 => exact .refl s
  all_goals exact (RegsOnly.refl s).wr _ _

theorem ingRaise_framing (s : State) (c : Nat) : s.ingRaise c 0x5001 = (s.bump (Reg.ingCountBBadCopy c)).evt 0x5001 c := by
  simp only [State.ingRaise]

theorem ingRaise_unknown (s : State) (c : Nat) : s.ingRaise c 0x5003 = (s.bump (Reg.ingCountBUnknown c)).evt 0x5003 c := by
  simp only [State.ingRaise]

/-- A code counted in a field of ING.COUNT_B and raised: the field has counted it. -/
theorem rd_counted_evt (s : State) {c code b : Nat} {f : RegField} (hev : evtField code c = some (Reg.ingEventsEvents c, b))
    (ho : f.off = 0x200018 + c * 0x10000) (hl : f.lo + f.len ≤ 64) :
    ((s.bump f).evt code c).rd f = min (2 ^ f.len - 1) (s.rd f + 1) := by
  have hi : f.off ≠ 0x60038 := by omega
  have he : f.off ≠ 0x200030 + c * 0x10000 := by omega
  rw [rd_evt (s.bump f) hev hi hl (.inl he), rd_bump_same s f 1 hl rfl]

end

/-- From `s` to `t` only ingest has changed. -/
def IngOnly (s t : State) : Prop := ∃ i, t = { s with ing := i }

section
variable {s t : State}

theorem IngOnly.refl (s : State) : IngOnly s s := ⟨_, rfl⟩
theorem IngOnly.modIng (h : IngOnly s t) (c : Nat) (f : Ing → Ing) : IngOnly s (t.modIng c f) := by obtain ⟨_, rfl⟩ := h; exact ⟨_, rfl⟩
theorem IngOnly.stores (h : IngOnly s t) : t.hbm = s.hbm ∧ t.host.mem = s.host.mem := by obtain ⟨_, rfl⟩ := h; exact ⟨rfl, rfl⟩
theorem IngOnly.cells (h : IngOnly s t) : t.cells = s.cells := by obtain ⟨_, rfl⟩ := h; rfl
theorem IngOnly.regs (h : IngOnly s t) : t.regs = s.regs := by obtain ⟨_, rfl⟩ := h; rfl

end

/-! ### Lanes (R293) -/

section
variable {s : State} {c l : Nat} {ch : BitVec 2} {lane : BitVec 4}

@[simp] theorem laneState_setLane (s : State) (c l : Nat) (st : FeLane) : (s.setLane c l st).laneState c l = st := by
  simp [State.setLane, State.laneState]

theorem exec_feLaneSignal (hu : s.laneUsed ch.toNat lane.toNat = true) (hd : s.laneState ch.toNat lane.toNat = .down) :
    exec (.feLaneSignal ch lane) s = .next (s.setLane ch.toNat lane.toNat .locking) := by
  show execFeLaneSignal ch lane s = _
  simp [execFeLaneSignal, hu, hd]

theorem exec_feLaneLock (hu : s.laneUsed ch.toNat lane.toNat = true) (hd : s.laneState ch.toNat lane.toNat = .locking) :
    exec (.feLaneLock ch lane) s = .next (s.setLane ch.toNat lane.toNat .up) := by
  show execFeLaneLock ch lane s = _
  simp [execFeLaneLock, hu, hd]

/-- R293: whatever the loss of its lane does to a copy in progress, ING_LANE_DOWN is raised last and the lane is DOWN. -/
theorem exec_ingLaneDown (hu : s.laneUsed ch.toNat lane.toNat = true) (hd : s.laneState ch.toNat lane.toNat = .up) :
    ∃ u : State, exec (.ingLaneDown ch lane) s = .next ((u.ingRaise ch.toNat 0x500C).setLane ch.toNat lane.toNat .down) := by
  show ∃ u : State, execIngLaneDown ch lane s = _
  simp only [execIngLaneDown, hu, hd, Bool.not_true, Bool.false_eq_true, if_false]
  exact ⟨_, rfl⟩

theorem bitAt_ingLaneDown (s : State) (c : Nat) : bitAt ((s.ingRaise c 0x500C).rd (Reg.ingEventsEvents c)) 11 = true := by
  have hi : (Reg.ingEventsEvents c).off ≠ Reg.hostIrqCauseBits.off := by
    show 0x200030 + c * 0x10000 ≠ 0x60038
    omega
  exact bitAt_evt s (code := 0x500C) rfl hi (by show 0 + 13 ≤ 64; decide) (by show 11 < 13; decide)

/-- An UP lane in use of a channel outside a pair, whose ingest has nothing left to do that time or staging owes. -/
structure LaneLive (s : State) (c l : Nat) : Prop where
  used : s.laneUsed c l = true
  up : s.laneState c l = .up
  alone : s.isPair c = false
  settled : s.ingSettle c = s

/-- R419: a block of a lane of a channel outside a pair is taken by the channel's own ingest. -/
theorem LaneLive.onBlock (h : LaneLive s c l) (f : State → Nat → State) : s.onBlock c l f = f s c := by
  simp [State.onBlock, State.ingTakers, h.used, h.up, h.alone]

/-! ### Headers (R296, R298) -/

theorem exec_copyHeader {header : Bytes} (h : LaneLive s ch.toNat lane.toNat) (hh : fieldLE header 0 1 = 0x78) :
    exec (.copyHeader ch lane header .none) s = .next (s.ingHeader ch.toNat lane.toNat header) := by
  show execCopyHeader ch lane header .none s = _
  simp [execCopyHeader, hh, h.onBlock]

/-- R296: a copy joins the copies of ingest; its lane is no longer mute. -/
def State.addCopy (s : State) (c : Nat) (x : Copy) : State :=
  s.modIng c fun g => { g with mute := g.mute.erase x.lane, copies := g.copies ++ [x] }

@[simp] theorem ingOf_addCopy (s : State) (c : Nat) (x : Copy) : (s.addCopy c x).ingOf c =
    { s.ingOf c with mute := (s.ingOf c).mute.erase x.lane, copies := (s.ingOf c).copies ++ [x] } := ingOf_modIng_same ..

theorem ingHeader_eq {header : Bytes} {x : Copy} (h : LaneLive s c l) (hn : (s.ingOf c).onLane l = none) (hi : s.liveIgnored = false)
    (hd : (s.dsp c).drain = false) (hb : s.rd (Reg.ingCtlResyncBusy c) = 0)
    (hx : x = { lane := l, tick := s.now, raw := fit 24 header, disp := .resync }) :
    s.ingHeader c l header = (s.addCopy c x).ingDispose c x := by
  have hb' : (s.addCopy c x).rd (Reg.ingCtlResyncBusy c) = 0 := hb
  subst hx
  simp [State.ingHeader, h.settled, hn, hi, hd, hb, State.addCopy]

/-- A copy that has just joined is replaced, and no other one is. -/
theorem swap_added {copies : List Copy} {x : Copy} (h : x ∉ copies) (d : Copy) :
    (copies ++ [x]).map (fun y => if y == x then d else y) = copies ++ [d] := by
  have keep : copies.map (fun y => if y = x then d else y) = copies :=
    (List.map_congr_left (g := id) fun y hy => if_neg (by rintro rfl; exact h hy)).trans (List.map_id copies)
  simp [keep]

/-- A lane without a copy in progress has none that is still received. -/
theorem not_mem_copies {g : Ing} {x : Copy} (hn : g.onLane x.lane = none) (hr : x.receiving = true) : x ∉ g.copies := by
  intro hx
  have := List.find?_eq_none.1 hn x hx
  simp [hr] at this

/-- R296: a copy of an identity that no fragment expects is unknown, and is counted. -/
theorem ingDispose_unknown {x : Copy} (hk : igIndex (s.igSec c) x.source x.index = none) :
    s.ingDispose c x = (s.modIng c fun g => g.swap x { x with disp := .unknown, frag := 0 }).ingRaise c 0x5003 := by
  unfold State.ingDispose
  simp only [hk]

/-- R296, R298: a copy of a new expected identity, whose event is neither held nor late, opens it in the lowest free slot. -/
theorem ingDispose_new {x : Copy} {k j : Nat} (hk : igIndex (s.igSec c) x.source x.index = some k)
    (hw : x.ident ∉ (s.ingOf c).window) (hl : (s.ingOf c).live x.event = none) (he : (s.ingOf c).events.length < 64)
    (hj : s.ingSlot c = some j) (hm : s.rd (Reg.ingMarkValid c) = 0 ∨ atOrBelow x.event (s.rd (Reg.ingMarkMark c)) = false) :
    s.ingDispose c x = ((s.modIng c fun g => { g with
      slots := g.slots ++ [j], events := g.events ++ [{ event := x.event, tick := x.tick, slot := some j }] }).modIng c fun g =>
        g.swap x { x with disp := .deliver, frag := k }).ingStage c { x with disp := .deliver, frag := k } := by
  have hnew : (s.ingOf c).window.contains x.ident = false := by simpa using hw
  have hlate : (s.rd (Reg.ingMarkValid c) == 1 && atOrBelow x.event (s.rd (Reg.ingMarkMark c))) = false := by
    obtain hm | hm := hm <;> simp [hm]
  unfold State.ingDispose
  simp only [hk, hnew, hl, hlate, Nat.not_le.2 he, State.ingPend, hj, Bool.false_eq_true, if_false, Option.toList_some]

/-- R302: a copy that is written to its event's slot as it comes does not stand in staging. -/
theorem ingStage_of_slot {x : Copy} (hx : x.disp = .deliver) {e : FrameEv} (hf : (s.ingOf c).frame x.event = some e)
    (he : e.inStaging = false) : s.ingStage c x = s := by
  have hs : (s.ingOf c).staged x = false := by simp only [Ing.staged, hx, hf, he]
  simp [State.ingStage, hs]

/-- An event that is held last under a number that no other one has is the event of that number. -/
theorem frame_of_last {g : Ing} {l : List FrameEv} {e : FrameEv} (hg : g.events = l ++ [e]) (hn : ∀ y ∈ l, y.event ≠ e.event) :
    g.frame e.event = some e := by
  have hnone : l.find? (fun y => y.event == e.event) = none := List.find?_eq_none.2 fun y hy => by simpa using hn y hy
  simp [Ing.frame, hg, List.find?_append, hnone]

/-! ### Data blocks (R294) -/

theorem exec_dataBlock {block : Word} (h : LaneLive s ch.toNat lane.toNat) :
    exec (.dataBlock ch lane block) s = .next (s.ingData ch.toNat lane.toNat (leBytes 8 block.toNat)) :=
  congrArg Host.Outcome.next (h.onBlock _)

/-- R294: the blocks of a copy that is not to be written are added to it and to nothing else. -/
theorem ingData_unwritten {x : Copy} {block : Bytes} (h : LaneLive s c l) (hx : (s.ingOf c).onLane l = some x)
    (hd : x.disp ≠ .held ∧ x.disp ≠ .resync ∧ x.disp ≠ .deliver) :
    s.ingData c l block = s.modIng c fun g => g.swap x { x with raw := x.raw ++ block } := by
  obtain ⟨hheld, hresync, hdeliver⟩ := hd
  have hs : ∀ g : Ing, g.staged { x with raw := x.raw ++ block } = false := by
    intro g
    unfold Ing.staged
    split
    · next h => exact absurd h hheld
    · next h => exact absurd h hresync
    · next h => exact absurd h hdeliver
    · rfl
  simp [State.ingData, h.settled, hx, hs, hdeliver]

/-! ### Framing failures (R294) -/

theorem exec_framingFailure (h : LaneLive s ch.toNat lane.toNat) :
    exec (.framingFailure ch lane) s = .next (s.ingFail ch.toNat lane.toNat) := by
  refine congrArg Host.Outcome.next ((h.onBlock _).trans ?_)
  rw [h.settled]

/-- R294: a framing failure on a lane without a copy in progress is counted, and mutes the lane. -/
theorem ingFail_idle (hn : (s.ingOf c).onLane l = none) :
    s.ingFail c l = (s.ingRaise c 0x5001).modIng c fun g => { g with mute := l :: g.mute.erase l } := by
  have hn' : ((s.ingRaise c 0x5001).ingOf c).onLane l = none := by rw [(ingRaise_regsOnly s c 0x5001).ingOf]; exact hn
  have hm : (((s.ingRaise c 0x5001).modIng c fun g => { g with mute := l :: g.mute.erase l }).ingOf c).onLane l = none := by
    rw [ingOf_modIng_same]; exact hn'
  unfold State.ingFail
  simp only [hm]

end

end Sys2Proof.Machine
end

section
/-! PROOFS (O39). The end of an intact copy (R295, R296). -/
namespace Sys2Proof.Machine

section
variable {s : State} {c l : Nat} {ch : BitVec 2} {lane : BitVec 4}

/-! ### The header of a copy whose trailer has come -/

/-- A field that lies within the bytes a copy has is the same after more have come. -/
theorem fieldLE_append_left {a : Bytes} (b : Bytes) {off n : Nat} (h : off + n ≤ a.length) :
    fieldLE (a ++ b) off n = fieldLE a off n := by
  have hd : ((a ++ b).drop off).take n = (a.drop off).take n := by
    rw [List.drop_append_of_le_length (by omega), List.take_append_of_le_length (by rw [List.length_drop]; omega)]
  unfold fieldLE slice
  rw [hd]

/-- R295: an intact copy has at least the 32 bytes of its header and its trailer. -/
theorem Copy.length_of_sound {d : Copy} (h : d.sound = true) : 32 ≤ d.raw.length := by
  simp only [Copy.sound, Bool.and_eq_true, decide_eq_true_eq] at h
  obtain ⟨⟨⟨⟨-, h⟩, -⟩, -⟩, -⟩ := h
  omega

theorem header_of_sound {x d : Copy} {tail : Bytes} (hr : d.raw = x.raw ++ fit 8 tail) (h : d.sound = true) :
    d.event = x.event ∧ d.len = x.len := by
  have hlen := Copy.length_of_sound h
  rw [hr, List.length_append, fit, slice_length] at hlen
  rw [Copy.event, Copy.len, hr]
  exact ⟨fieldLE_append_left _ (by omega), fieldLE_append_left _ (by omega)⟩

/-! ### The steps of an acceptance -/

/-- The ingest of a channel as it is given. -/
def State.setIng (s : State) (c : Nat) (g : Ing) : State := s.modIng c fun _ => g

@[simp] theorem ingOf_setIng (s : State) (c : Nat) (g : Ing) : (s.setIng c g).ingOf c = g := ingOf_modIng_same ..

theorem modIng_eq_setIng (s : State) (c : Nat) (f : Ing → Ing) : s.modIng c f = s.setIng c (f (s.ingOf c)) := rfl

theorem modIng_modIng (s : State) (c : Nat) (f g : Ing → Ing) : (s.modIng c f).modIng c g = s.modIng c fun x => g (f x) := by
  show { s with ing := smod {} (smod {} s.ing c f) c g } = _
  rw [smod_smod_same]
  rfl

theorem modIng_setIng (s : State) (c : Nat) (g : Ing) (f : Ing → Ing) : (s.setIng c g).modIng c f = s.setIng c (f g) :=
  modIng_modIng ..

theorem incr_setIng (s : State) (c : Nat) (g : Ing) (f : RegField) (n : Nat) :
    (s.setIng c g).incr f n = (s.incr f n).setIng c g := rfl

/-- R297: a copy without another one beside it has no rival. -/
theorem dropRivals_alone {x : Copy} (h : (s.ingOf c).copies = [x]) : s.dropRivals c x = s := by
  simp [State.dropRivals, h]

/-- R304: without a recorder that runs or is full, a copy that ends leaves and nothing else changes. -/
theorem endCopy_unrecorded (x : Copy) (h0 : s.rd Reg.hrdStatusState = 0) (outcome : Nat) :
    s.endCopy c x outcome = s.modIng c fun g => { g with copies := g.copies.erase x } := by
  have h0' : (s.modIng c fun g => { g with copies := g.copies.erase x }).rd Reg.hrdStatusState = 0 := h0
  simp [State.endCopy, State.hrdRecordAt, h0']

/-- R299: an open frame of which a fragment is missing stays open. -/
theorem ingCheck_incomplete {ev : Nat} {e : FrameEv} (hl : (s.ingOf c).live ev = some e) {k : Nat} (hk : k < igFrags (s.igSec c))
    (hm : sget .missing e.frags k = .missing) : s.ingCheck c ev = s := by
  have hn : ((List.range (igFrags (s.igSec c))).all fun k => sget .missing e.frags k != .missing) = false := by
    rw [List.all_eq_false]
    exact ⟨k, List.mem_range.2 hk, by simp [hm]⟩
  unfold State.ingCheck
  simp only [hl, hn, Bool.and_false, Bool.false_eq_true, if_false]

theorem remember_events (g : Ing) (l : List FrameEv) (ident : Nat) :
    Ing.remember { g with events := l } ident = { g.remember ident with events := l } := by
  unfold Ing.remember
  split <;> rfl

theorem copies_remember (g : Ing) (ident : Nat) : (g.remember ident).copies = g.copies := by
  unfold Ing.remember
  split <;> rfl

theorem mem_window_remember (g : Ing) (ident : Nat) : ident ∈ (g.remember ident).window := by
  unfold Ing.remember
  split
  · next h => simpa using h
  · simp

/-- R298, R300: an event once a copy's fragment has been accepted; bytes that are still to be written are kept. -/
def FrameEv.accepting (x : Copy) (e : FrameEv) : FrameEv :=
  { e with stage := .opened, frags := sset .missing e.frags x.frag (.accepted x.len (sha256 x.raw) (if e.inStaging then x.body else [])) }

/-- R300: nothing is kept of a copy whose bytes stand in the event's slot. -/
theorem accepting_of_slot {e : FrameEv} (x : Copy) (hslot : e.slot.isSome = true) (hlag : e.lag = false) : e.accepting x =
    { e with stage := .opened, frags := sset .missing e.frags x.frag (.accepted x.len (sha256 x.raw) []) } := by
  have hwritten : e.inStaging = false := by simp [FrameEv.inStaging, hlag, Option.isNone_eq_false_iff.2 hslot]
  rw [FrameEv.accepting, hwritten]
  rfl

/-- R296, R298, R300: the only copy of a channel, of the length that the only event expects and without a flag, is accepted. -/
theorem ingAccept_only {x : Copy} {e : FrameEv} {g : Ing} (hx : x.disp = .deliver) (he : e.event = x.event) (hst : e.stage ≠ .closed)
    (hslot : e.slot.isSome = true) (hc : g.copies = [x]) (hg : g.events = [e]) (hlen : x.len = igExp (s.igSec c) x.frag)
    (hflag : bitAt (fieldLE x.raw 14 1) 1 = false) (hzero : fieldLE x.raw (x.raw.length - 7) 1 = 0) (h0 : s.rd Reg.hrdStatusState = 0)
    (hm : ∃ k, k < igFrags (s.igSec c) ∧ k ≠ x.frag ∧ sget .missing e.frags k = .missing) :
    (s.setIng c g).ingAccept c x = (s.incr (Reg.ingCountAAccepted c)).setIng c
      { g.remember x.ident with copies := [], events := [e.accepting x] } := by
  obtain ⟨j, hj⟩ := Option.isSome_iff_exists.1 hslot
  obtain ⟨k, hk, hne, hmiss⟩ := hm
  have hlive : ((s.setIng c g).ingOf c).live x.event = some e := by simp [Ing.live, hg, he, hst]
  have hopened : (s.setIng c g).modFrame c e.event (FrameEv.accepting x) = s.setIng c { g with events := [e.accepting x] } := by
    rw [State.modFrame, modIng_setIng, hg]
    simp
  have h0' : ∀ g, ((s.incr (Reg.ingCountAAccepted c)).setIng c g).rd Reg.hrdStatusState = 0 := by
    intro g
    refine (rd_wr_ne s (Reg.ingCountAAccepted c) Reg.hrdStatusState _ ?_).trans h0
    show 0x50008 ≠ 0x200010 + c * 0x10000
    omega
  have hleft : sget .missing (e.accepting x).frags k = .missing := by
    rw [FrameEv.accepting, sget_sset_ne _ _ _ hne, hmiss]
  have hshort : ¬ x.len < igExp ((s.setIng c g).igSec c) x.frag := Nat.not_lt.2 hlen.ge
  have hlong : ¬ igExp ((s.setIng c g).igSec c) x.frag < x.len := Nat.not_lt.2 hlen.le
  unfold State.ingAccept
  simp only [hlive, hj, hx, hflag, hzero, hshort, hlong, beq_self_eq_true, bne_self_eq_false, Bool.or_true, Bool.or_self,
    Bool.false_eq_true, if_true, if_false]
  change (((((s.setIng c g).modFrame c e.event (FrameEv.accepting x)).incr (Reg.ingCountAAccepted c)).modIng c
    fun g => g.remember x.ident).dropRivals c x |>.endCopy c x 0).ingCheck c e.event = _
  have hc' : (g.remember x.ident).copies = [x] := (copies_remember g x.ident).trans hc
  rw [hopened, incr_setIng, modIng_setIng, remember_events, dropRivals_alone (by rw [ingOf_setIng]; exact hc'),
    endCopy_unrecorded x (h0' _) 0, modIng_setIng, hc', List.erase_cons_head]
  exact ingCheck_incomplete (e := e.accepting x) (by simp [Ing.live, FrameEv.accepting]) hk hleft

/-- R295: the copy as its intact end leaves it. -/
def Copy.ended (x : Copy) (now : Nat) : Copy := { x with receiving := false, intact := some now }

theorem exec_copyEof {tail : Bytes} (h : LaneLive s ch.toNat lane.toNat) (ht : fieldLE tail 0 1 = 0xE1) :
    exec (.copyEof ch lane tail) s = .next (s.ingEof ch.toNat lane.toNat tail) := by
  show execCopyEof ch lane tail s = _
  simp [execCopyEof, ht, h.onBlock]

/-- R297: of the copies of an identity that are found intact at one tick, the one on the lowest lane. -/
def lowestLane (l : List Copy) (x : Copy) : Copy := l.foldl (fun b y => if y.lane < b.lane then y else b) x

/-- R295, R297: a copy that is being delivered has ended intact. -/
theorem ingFinish_intact {d : Copy} (hd : d.disp = .deliver) :
    s.ingFinish c d true = (s.modIng c fun g => g.swap d (d.ended s.now)).ingAccept c
      (lowestLane (((s.modIng c fun g => g.swap d (d.ended s.now)).ingOf c).copies.filter fun y =>
        y.ident == (d.ended s.now).ident && y.disp == .held && y.intact == some s.now) (d.ended s.now)) := by
  obtain ⟨lane, tick, raw, disp, frag, receiving, intact⟩ := d
  cases (show disp = .deliver from hd)
  rfl

/-- R295, R296: the trailer of the only copy of a channel, found intact, leads to its acceptance. -/
theorem ingEof_only {x d : Copy} {tail : Bytes} (h : LaneLive s c l) (hc : (s.ingOf c).copies = [x]) (hl : x.lane = l)
    (hr : x.receiving = true) (hx : x.disp = .deliver) (hd : d = { x with raw := x.raw ++ fit 8 tail }) (hs : d.sound = true) :
    s.ingEof c l tail = (s.setIng c { s.ingOf c with copies := [d.ended s.now] }).ingAccept c (d.ended s.now) := by
  have hon : (s.ingOf c).onLane l = some x := by simp [Ing.onLane, hc, hl, hr]
  have hheard : (x.disp == CopyDisp.ignored) = false := by rw [hx]; rfl
  have hdd : d.disp = .deliver := by rw [hd]; exact hx
  have htrail : s.modIng c (fun g => g.swap x d) = s.setIng c { s.ingOf c with copies := [d] } := by
    rw [modIng_eq_setIng, Ing.swap, hc]
    simp
  have hend : (s.setIng c { s.ingOf c with copies := [d] }).modIng c (fun g => g.swap d (d.ended s.now)) =
      s.setIng c { s.ingOf c with copies := [d.ended s.now] } := by
    rw [modIng_setIng, Ing.swap]
    simp
  have hlone : [d.ended s.now].filter (fun y => y.ident == (d.ended s.now).ident && y.disp == .held && y.intact == some s.now) = [] := by
    simp [Copy.ended, hdd]
  unfold State.ingEof
  simp only [h.settled, hon, hheard, ← hd, htrail, hs, if_true, Bool.false_eq_true, if_false]
  refine (ingFinish_intact hdd).trans ?_
  rw [show (s.setIng c { s.ingOf c with copies := [d] }).now = s.now from rfl, hend, ingOf_setIng, hlone]
  rfl

end
end Sys2Proof.Machine
end

section
/-! PROOFS (O39). Timeouts, handoffs and resynchronisations (R298, R299, R303, R305). -/
namespace Sys2Proof.Machine

section
variable {z s t : State} {c ev : Nat} {ch : BitVec 2} {event : BitVec 48} {e : FrameEv}

/-! ### Events found again by what stands of them -/

theorem KeepsFrames.mem (h : KeepsFrames s t) {y : FrameEv} (hy : y ∈ (t.ingOf c).events) :
    ∃ x ∈ (s.ingOf c).events, x.standing = y.standing := by
  have hm : y.standing ∈ (s.ingOf c).events.map FrameEv.standing := h.events c ▸ List.mem_map_of_mem hy
  exact List.mem_map.1 hm

/-- A number that no event has is still free. -/
theorem KeepsFrames.not_held (h : KeepsFrames s t) (hn : ∀ y ∈ (s.ingOf c).events, y.event ≠ ev) :
    ∀ y ∈ (t.ingOf c).events, y.event ≠ ev := by
  intro y hy
  obtain ⟨x, hx, hxy⟩ := h.mem hy
  have hev : x.event = y.event := congrArg Prod.fst hxy
  exact hev ▸ hn x hx

theorem KeepsFrames.frame (h : KeepsFrames s t) (hf : (s.ingOf c).frame ev = some e) :
    ∃ d, (t.ingOf c).frame ev = some d ∧ d.standing = e.standing := by
  have key : ∀ g : Ing, (g.frame ev).map FrameEv.standing = (g.events.map FrameEv.standing).find? fun x => x.1 == ev :=
    fun g => by rw [List.find?_map]; rfl
  have hm := (key (t.ingOf c)).trans ((congrArg _ (h.events c)).trans (key (s.ingOf c)).symm)
  rw [hf] at hm
  exact Option.map_eq_some_iff.1 hm

theorem KeepsFrames.ingRaise (h : KeepsFrames z s) (c code : Nat) : KeepsFrames z (s.ingRaise c code) := by
  obtain ⟨_, _, _, e⟩ := ingRaise_regsOnly s c code
  rw [e]
  exact h.next rfl rfl

theorem KeepsFrames.modFrame (h : KeepsFrames z s) (c n : Nat) {f : FrameEv → FrameEv} (hf : ∀ y, (f y).standing = y.standing) :
    KeepsFrames z (s.modFrame c n f) := by
  refine h.modIng c fun g => ?_
  rw [List.map_map]
  refine List.map_congr_left fun y _ => ?_
  rw [Function.comp_apply]
  split
  · exact hf y
  · rfl

/-! ### Events that are no longer live -/

/-- Every held event of a number is closed. -/
structure NotLive (s : State) (c ev : Nat) : Prop where
  closed : ∀ y ∈ (s.ingOf c).events, y.event = ev → y.stage = .closed

theorem live_eq_none_iff : (s.ingOf c).live ev = none ↔ NotLive s c ev := by
  rw [show NotLive s c ev ↔ _ from ⟨NotLive.closed, NotLive.mk⟩]
  simp [Ing.live, List.find?_eq_none]

theorem NotLive.ite {p : Prop} [Decidable p] (hs : NotLive s c ev) (ht : NotLive t c ev) : NotLive (if p then s else t) c ev := by
  split
  · exact hs
  · exact ht

theorem NotLive.foldl {α : Type} {f : State → α → State} (hf : ∀ s x, NotLive s c ev → NotLive (f s x) c ev) (h : NotLive s c ev)
    (l : List α) : NotLive (l.foldl f s) c ev :=
  List.foldlRecOn l f h fun t ht x _ => hf t x ht

theorem KeepsFrames.notLive (h : KeepsFrames s t) (hn : NotLive s c ev) : NotLive t c ev := by
  refine ⟨fun y hy hev => ?_⟩
  obtain ⟨x, hx, hxy⟩ := h.mem hy
  simp only [FrameEv.standing, Prod.mk.injEq] at hxy
  obtain ⟨he, hst, -⟩ := hxy
  exact hst ▸ hn.closed x hx (he.trans hev)

/-- What an event becomes by a change of the events of a number. -/
theorem mem_modFrame {n : Nat} {f : FrameEv → FrameEv} {y : FrameEv} :
    y ∈ ((s.modFrame c n f).ingOf c).events ↔ ∃ x ∈ (s.ingOf c).events, (if x.event = n then f x else x) = y := by
  simp [State.modFrame]

theorem NotLive.modFrame (h : NotLive s c ev) {n : Nat} {f : FrameEv → FrameEv}
    (hf : ∀ y, (f y).event = y.event ∧ (f y).stage = y.stage) : NotLive (s.modFrame c n f) c ev := by
  refine ⟨fun y hy hev => ?_⟩
  obtain ⟨x, hx, rfl⟩ := mem_modFrame.1 hy
  have same : (if x.event = n then f x else x).event = x.event ∧ (if x.event = n then f x else x).stage = x.stage := by
    split
    · exact hf x
    · exact ⟨rfl, rfl⟩
  exact same.2.trans (h.closed x hx (same.1.symm.trans hev))

/-! ### The writes of a frame (R300, R303) -/

/-- R303: a write of a frame whose way is not stopped, performed or refused, leaves every event standing. -/
theorem ingStore_keepsFrames {cell : Nat}
    (hw : s.wayStopped { kind := .store, src := .ingest c, dst := .cell (c * 256 + cell % 256) } = false) (n off : Nat) (bs : Bytes) :
    KeepsFrames s (s.ingStore c n cell off bs) := by
  have stored := (KeepsFrames.refl s).inboundStore (c * 256 + cell % 256) off bs
  unfold State.ingStore
  dsimp only
  rw [if_neg (by rw [hw]; decide)]
  exact .ite stored (.ingRaise (stored.modFrame c n (by intro y; rfl)) c 0x500B)

/-- R247, R303: a write of a frame makes no event live, even where it has to wait. -/
theorem NotLive.ingStore (h : NotLive s c ev) (n cell off : Nat) (bs : Bytes) : NotLive (s.ingStore c n cell off bs) c ev := by
  by_cases hw : s.wayStopped { kind := .store, src := .ingest c, dst := .cell (c * 256 + cell % 256) } = true
  · unfold State.ingStore
    dsimp only
    rw [if_pos hw]
    exact h.modFrame fun _ => ⟨rfl, rfl⟩
  · exact (ingStore_keepsFrames (Bool.eq_false_iff.2 hw) n off bs).notLive h

theorem NotLive.ingPut (h : NotLive s c ev) (n slot k off : Nat) (bs : Bytes) : NotLive (s.ingPut c n slot k off bs) c ev :=
  .foldl (fun _ _ h => .ite (h.ingStore ..) h) h _

theorem NotLive.ingFill (h : NotLive s c ev) (e : FrameEv) (slot : Nat) : NotLive (s.ingFill c e slot) c ev :=
  have padded : NotLive (s.ingPad c e slot) c ev := .foldl (fun _ _ h => .ite h (h.ingPut ..)) h _
  padded.modFrame fun _ => ⟨rfl, rfl⟩

/-! ### Timeouts (R298, R299) -/

/-- R299: a frame that closes is live no more. -/
theorem ingClose_notLive (s : State) (c : Nat) (e : FrameEv) (tick : Nat) : NotLive (s.ingClose c e tick) c e.event := by
  have closed : ∀ (u : State) (f : FrameEv → FrameEv), (∀ y, (f y).stage = .closed) → NotLive (u.modFrame c e.event f) c e.event := by
    refine fun u f hf => ⟨fun y hy hev => ?_⟩
    obtain ⟨x, -, rfl⟩ := mem_modFrame.1 hy
    by_cases hx : x.event = e.event
    · rw [if_pos hx]; exact hf x
    · rw [if_neg hx] at hev; exact absurd hev hx
  unfold State.ingClose
  extract_lets marked late raised u
  have hu : NotLive u c e.event := closed _ _ fun _ => rfl
  split
  · exact .ite hu (hu.ingFill ..)
  · exact hu

/-- R298: the slot of an event, where it has one, is released. -/
def Ing.releaseOf (g : Ing) : Option Nat → Ing
  | some k => g.release k
  | none => g

theorem standing_releaseOf (g : Ing) (k : Option Nat) :
    (g.releaseOf k).events.map FrameEv.standing = g.events.map FrameEv.standing := by
  cases k with
  | none => rfl
  | some k => exact standing_release g k

/-- R298: a pending event that is discarded is held no more, whichever event its slot goes to. -/
theorem ingDiscard_notLive (s : State) (c : Nat) (e : FrameEv) (cause : Nat) : NotLive (s.ingDiscard c e cause) c e.event := by
  have key : s.ingDiscard c e cause = (((s.stopCopies c e.event).frameDrop c e.event cause e.tick).modIng c fun g =>
      { g with events := g.events.filter fun x => x.event != e.event }).modIng c fun g => g.releaseOf e.slot := by
    rw [modIng_modIng]
    rfl
  rw [key]
  generalize (s.stopCopies c e.event).frameDrop c e.event cause e.tick = u
  have left := (KeepsFrames.refl (u.modIng c fun g => { g with events := g.events.filter fun x => x.event != e.event })).modIng c
    fun g => standing_releaseOf g e.slot
  refine ⟨fun y hy hev => absurd hev (left.not_held (fun x hx => ?_) y hy)⟩
  rw [ingOf_modIng_same] at hx
  simpa using (List.mem_filter.1 hx).2

theorem exec_asmTimeout (ho : s.ingOn ch.toNat = true) (hl : (s.ingOf ch.toNat).live event.toNat = some e)
    (hf : s.ingFlush ch.toNat = s) (ht : jumped (e.tick + igTimeout (s.igSec ch.toNat)) e.shift ≤ s.now) :
    exec (.asmTimeout ch event) s =
      .next (s.ingExpire ch.toNat e (jumped (e.tick + igTimeout (s.igSec ch.toNat)) e.shift)) := by
  show execAsmTimeout ch event s = _
  simp [execAsmTimeout, ho, hl, hf, ht]

/-- R298, R299: an event whose timeout has passed is discarded or closes. -/
theorem ingExpire_live_none (hl : (s.ingOf c).live ev = some e) (tick : Nat) : ((s.ingExpire c e tick).ingOf c).live ev = none := by
  have he := List.find?_some hl
  simp only [Bool.and_eq_true, beq_iff_eq, bne_iff_ne] at he
  obtain ⟨rfl, hopen⟩ := he
  rw [live_eq_none_iff]
  unfold State.ingExpire
  split
  · exact ingDiscard_notLive ..
  · exact ingClose_notLive ..
  · next hclosed => exact absurd hclosed hopen

/-! ### Handoffs (R303) -/

theorem exec_frameHandoff (ho : s.ingOn ch.toNat = true) (hd : (s.dsp ch.toNat).drain = false) (hs : s.ingSettle ch.toNat = s)
    (hf : (s.ingOf ch.toNat).frame event.toNat = some e) (hr : (s.ingOf ch.toNat).nextReady e = true) :
    exec (.frameHandoff ch event) s = .next (s.ingHandoff ch.toNat e) := by
  show execFrameHandoff ch event s = _
  simp [execFrameHandoff, ho, hd, hs, hf, hr]

/-- R303: a frame that is handed over next is not stuck at a stopped cell. -/
theorem stuck_of_nextReady {g : Ing} (h : g.nextReady e = true) : e.stuck = false := by
  unfold Ing.nextReady at h
  split at h
  · cases h
  · simp only [Bool.and_eq_true, Bool.not_eq_true'] at h
    exact h.1

/-- R303, R402: no event has the number, and the input digest kept last is that of the frame. -/
structure HandedOver (t : State) (c ev : Nat) : Prop where
  gone : ∀ y ∈ (t.ingOf c).events, y.event ≠ ev
  digest : ∃ h, t.sealer.ingest.head? = some h ∧ h.ch = c ∧ h.event = ev

/-- R303, R402: the dispatcher's trigger leaves the input digest of the frame first among those of ingest, and brings no event. -/
theorem ingTrigger_handedOver (hn : ∀ y ∈ (s.ingOf c).events, y.event ≠ e.event) (payload : Bytes) :
    HandedOver (s.ingTrigger c e payload) c e.event := by
  have kept : KeepsFrames { s with sealer := { s.sealer with
    ingest := keepHandoff s.sealer.ingest { ch := c, event := e.event, digest := sha256 (payload.drop 0x18) } } }
      (s.ingTrigger c e payload) := (KeepsFrames.refl _).accept ..
  exact ⟨kept.not_held hn, _, congrArg List.head? kept.ingest, rfl, rfl⟩

theorem KeepsFrames.ingCount (h : KeepsFrames z s) (c : Nat) (e : FrameEv) : KeepsFrames z (s.ingCount c e) :=
  have counted : KeepsFrames z (s.incr (Reg.ingCountAFrames c)) := h.wr ..
  .ite (.bump (.ite counted (counted.bump ..)) ..) (.ite counted (counted.bump ..))

/-- R303: once its record is written, the frame leaves the events and its digest is kept for the seal. -/
theorem ingHandoff_handedOver (hf : (s.ingOf c).frame e.event = some e) (hst : e.stuck = false)
    (hw : s.wayStopped { kind := .store, src := .ingest c, dst := .cell (c * 256 + fieldLE (s.igSec c) 14 2 % 256) } = false) :
    HandedOver (s.ingHandoff c e) c e.event := by
  unfold State.ingHandoff
  extract_lets p n seq slot record bytes u
  obtain ⟨d, hd, hde⟩ := (ingStore_keepsFrames hw e.event (fieldLE p 0x14 4 + 32 * slot) bytes).frame hf
  simp only [FrameEv.standing, Prod.mk.injEq] at hde
  obtain ⟨hev, -, hstuck⟩ := hde
  have left : ∀ y ∈ ((u.modIng c fun g => { g with events := g.events.filter fun x => x.event != e.event, frameSeq := seq }).ingOf
      c).events, y.event ≠ e.event := by
    intro y hy
    rw [ingOf_modIng_same] at hy
    simpa using (List.mem_filter.1 hy).2
  rw [show (u.ingOf c).frame e.event = some d from hd]
  dsimp only
  rw [if_neg (by rw [hstuck, hst]; decide), hev]
  rw [← hev] at left ⊢
  exact ingTrigger_handedOver ((RecordsOnly.keepsFrames (.ingCount (.refl _) c d) (hrdRecordAt_recordsOnly ..)).not_held left) _

/-! ### Resynchronisation (R305) -/

theorem exec_ingResync (hg : s.ingGate ch.toNat = .serve) (hb : s.rd (Reg.ingCtlResyncBusy ch.toNat) = 0) :
    ∃ u : State, exec (.ingResync ch) s = .next (u.wr (Reg.ingCtlResyncBusy ch.toNat) 1) := by
  have hres : ∃ u : State, s.ingResync ch.toNat = u.wr (Reg.ingCtlResyncBusy ch.toNat) 1 := by
    unfold State.ingResync
    rw [hb]
    exact ⟨_, rfl⟩
  obtain ⟨u, hu⟩ := hres
  refine ⟨u, (?_ : Host.Outcome.next (s.gated (s.ingGate ch.toNat) fun s => s.ingResync ch.toNat) = _)⟩
  rw [hg, ← hu]
  rfl

/-- The state in which a resynchronisation is done: neither busy nor marked, its window empty. -/
def State.resynced (s : State) (c : Nat) : State :=
  (((s.wr (Reg.ingCtlResyncBusy c) 0).wr (Reg.ingMarkValid c) 0).wr (Reg.ingMarkMark c) 0).modIng c fun g => { g with window := [], lost := [] }

theorem ingOf_resynced (s : State) (c : Nat) : (s.resynced c).ingOf c = { s.ingOf c with window := [], lost := [] } := by
  rw [State.resynced, ingOf_modIng_same, State.ingOf_wr, State.ingOf_wr, State.ingOf_wr]

theorem exec_ingResyncDone (hb : s.rd (Reg.ingCtlResyncBusy ch.toNat) = 1) (hs : (s.island (0x418 + ch.toNat)).stopped = false)
    (he : (s.ingOf ch.toNat).events = []) (hx : ∀ x ∈ (s.ingOf ch.toNat).copies, x.disp ≠ .resync) :
    exec (.ingResyncDone ch) s = .next (s.resynced ch.toNat) := by
  have hnone : ((s.resynced ch.toNat).ingOf ch.toNat).copies.filter (fun x => x.disp == .resync) = [] := by
    rw [ingOf_resynced]
    exact List.filter_eq_nil_iff.2 fun x h => by simpa using hx x h
  show execIngResyncDone ch s = _
  unfold State.resynced at hnone ⊢
  simp only [execIngResyncDone, hb, hs, he, hnone, bne_self_eq_false, List.isEmpty_nil, Bool.not_true, Bool.or_self, Bool.false_eq_true,
    if_false, List.foldl_nil]

theorem resynced_effect (s : State) (c : Nat) : let t := s.resynced c
    (t.hbm = s.hbm ∧ t.host.mem = s.host.mem) ∧ t.cells = s.cells ∧ t.rd (Reg.ingCtlResyncBusy c) = 0 ∧
      t.rd (Reg.ingMarkValid c) = 0 := by
  have hr : RegsOnly s (((s.wr (Reg.ingCtlResyncBusy c) 0).wr (Reg.ingMarkValid c) 0).wr (Reg.ingMarkMark c) 0) :=
    (((RegsOnly.refl s).wr ..).wr ..).wr ..
  have hvalid : (((s.wr (Reg.ingCtlResyncBusy c) 0).wr (Reg.ingMarkValid c) 0).wr (Reg.ingMarkMark c) 0).rd (Reg.ingMarkValid c) = 0 := by
    rw [rd_wr_disjoint _ (Reg.ingMarkMark c) (Reg.ingMarkValid c) 0 rfl (by show 48 + 1 ≤ 64; decide) (.inl (by show 0 + 48 ≤ 48; decide)),
      rd_wr_same _ _ _ (by show 48 + 1 ≤ 64; decide)]
    rfl
  have hbusy : (((s.wr (Reg.ingCtlResyncBusy c) 0).wr (Reg.ingMarkValid c) 0).wr (Reg.ingMarkMark c) 0).rd (Reg.ingCtlResyncBusy c) = 0 := by
    have ho : 0x200000 + c * 0x10000 ≠ 0x200028 + c * 0x10000 := by omega
    rw [rd_wr_ne _ (Reg.ingMarkMark c) (Reg.ingCtlResyncBusy c) 0 ho, rd_wr_ne _ (Reg.ingMarkValid c) (Reg.ingCtlResyncBusy c) 0 ho,
      rd_wr_same _ _ _ (by show 1 + 1 ≤ 64; decide)]
    rfl
  unfold State.resynced
  generalize ((s.wr (Reg.ingCtlResyncBusy c) 0).wr (Reg.ingMarkValid c) 0).wr (Reg.ingMarkMark c) 0 = u at hr hvalid hbusy
  exact ⟨hr.stores, hr.cells, hbusy, hvalid⟩

end
end Sys2Proof.Machine
end

section
/-! PROOFS (O39). The statement, clause by clause. -/
namespace Sys2Proof.Machine

section
variable {s : State} {c l : Nat}

/-- R296, R298: the copy joins, its event is opened in slot `j`, and it is to be delivered. -/
theorem addCopy_new_effect {x : Copy} {k j : Nat} (hr : x.receiving = true) (hn : (s.ingOf c).onLane x.lane = none)
    (hk : igIndex (s.igSec c) x.source x.index = some k) (hw : x.ident ∉ (s.ingOf c).window) (hl : (s.ingOf c).live x.event = none)
    (he : (s.ingOf c).events.length < 64) (hj : s.ingSlot c = some j)
    (hm : s.rd (Reg.ingMarkValid c) = 0 ∨ atOrBelow x.event (s.rd (Reg.ingMarkMark c)) = false)
    (hev : ∀ y ∈ (s.ingOf c).events, y.event ≠ x.event) : let t := (s.addCopy c x).ingDispose c x
    (t.hbm = s.hbm ∧ t.host.mem = s.host.mem) ∧ t.cells = s.cells ∧ t.regs = s.regs ∧
      (t.ingOf c).events = (s.ingOf c).events ++ [{ event := x.event, tick := x.tick, slot := some j }] ∧
      (t.ingOf c).slots = (s.ingOf c).slots ++ [j] ∧
      (t.ingOf c).copies = (s.ingOf c).copies ++ [{ x with disp := .deliver, frag := k }] := by
  have hslot : (s.addCopy c x).ingSlot c = some j := by rw [← hj, State.ingSlot, State.ingSlot, ingOf_addCopy]; rfl
  have hnew := ingDispose_new (s := s.addCopy c x) (x := x) hk (by rwa [ingOf_addCopy]) (by rwa [ingOf_addCopy])
    (by rwa [ingOf_addCopy]) hslot hm
  intro t
  have ht : t = _ := hnew.trans (ingStage_of_slot rfl (by
    rw [ingOf_modIng_same, ingOf_modIng_same, ingOf_addCopy]
    exact frame_of_last (e := { event := x.event, tick := x.tick, slot := some j }) rfl hev) rfl)
  have hi : IngOnly s t := by
    rw [ht]
    exact (((IngOnly.refl s).modIng ..).modIng ..).modIng ..
  refine ⟨hi.stores, hi.cells, hi.regs, ?_⟩
  rw [ht, ingOf_modIng_same, ingOf_modIng_same, ingOf_addCopy]
  exact ⟨rfl, rfl, swap_added (not_mem_copies hn hr) _⟩

/-- R296: the copy joins and is unknown, and is counted. -/
theorem addCopy_unknown_effect {x : Copy} (hr : x.receiving = true) (hf : x.frag = 0) (hn : (s.ingOf c).onLane x.lane = none)
    (hk : igIndex (s.igSec c) x.source x.index = none) : let t := (s.addCopy c x).ingDispose c x
    (t.hbm = s.hbm ∧ t.host.mem = s.host.mem) ∧ t.cells = s.cells ∧ (t.ingOf c).events = (s.ingOf c).events ∧
      (t.ingOf c).copies = (s.ingOf c).copies ++ [{ x with disp := .unknown }] ∧
      t.rd (Reg.ingCountBUnknown c) = min (2 ^ (Reg.ingCountBUnknown c).len - 1) (s.rd (Reg.ingCountBUnknown c) + 1) := by
  intro t
  obtain ⟨u, hu⟩ : ∃ u, u = (s.addCopy c x).modIng c fun g => g.swap x { x with disp := .unknown, frag := 0 } := ⟨_, rfl⟩
  have ht : t = u.ingRaise c 0x5003 := by rw [hu]; exact ingDispose_unknown (s := s.addCopy c x) hk
  have hreg := ingRaise_regsOnly u c 0x5003
  have hcount := rd_counted_evt u (code := 0x5003) (c := c) (b := 2) (f := Reg.ingCountBUnknown c) rfl rfl (by show 0 + 16 ≤ 64; decide)
  rw [← ingRaise_unknown] at hcount
  rw [ht, hcount, hreg.ingOf, hreg.cells, hreg.stores.1, hreg.stores.2, hu, ingOf_modIng_same, ingOf_addCopy]
  refine ⟨⟨rfl, rfl⟩, rfl, rfl, ?_, rfl⟩
  rw [← hf]
  exact swap_added (not_mem_copies hn hr) _

/-- R294: the lane is mute and the failure is counted. -/
theorem ingFail_idle_effect (hn : (s.ingOf c).onLane l = none) : let t := s.ingFail c l
    (t.hbm = s.hbm ∧ t.host.mem = s.host.mem) ∧ t.cells = s.cells ∧ l ∈ (t.ingOf c).mute ∧
      t.rd (Reg.ingCountBBadCopy c) = min (2 ^ (Reg.ingCountBBadCopy c).len - 1) (s.rd (Reg.ingCountBBadCopy c) + 1) := by
  intro t
  have hreg := ingRaise_regsOnly s c 0x5001
  have hcount := rd_counted_evt s (code := 0x5001) (c := c) (b := 0) (f := Reg.ingCountBBadCopy c) rfl rfl (by show 16 + 16 ≤ 64; decide)
  rw [← ingRaise_framing] at hcount
  have ht : t = _ := ingFail_idle hn
  rw [ht, State.modIng_hbm, State.modIng_host, State.modIng_cells, State.rd_modIng, ingOf_modIng_same]
  exact ⟨hreg.stores, hreg.cells, List.mem_cons_self .., hcount⟩

end

/-- Settles O39: the lanes, headers, data blocks, trailers, framing failures, timeouts, handoffs and resynchronisations of ingest, each by
what its command leads to and what that changes. -/
theorem ingestLanes : Obligations.IngestLanes := by
  unfold Obligations.IngestLanes
  intro s ch lane c l g p live kept
  have lane_live : live → LaneLive s c l := fun ⟨used, up, alone, settled⟩ => ⟨used, up, alone, settled⟩
  refine ⟨?lanes, ?headers, ?blocks, ?trailers, ?failures, ?frames, ?resync, ?resyncDone⟩
  case lanes =>
    intro hu
    refine ⟨fun hd => ?signal, fun hk => ?lock, fun hup => ?down⟩
    case signal => exact ⟨_, exec_feLaneSignal hu hd, laneState_setLane .., rfl, rfl⟩
    case lock => exact ⟨_, exec_feLaneLock hu hk, laneState_setLane .., rfl, rfl⟩
    case down =>
      obtain ⟨u, hex⟩ := exec_ingLaneDown hu hup
      exact ⟨_, hex, laneState_setLane .., bitAt_ingLaneDown u c⟩
  case headers =>
    intro hlive hn hi hd hb header x hh hx
    have hex := (exec_copyHeader (lane_live hlive) hh).trans
      (congrArg Host.Outcome.next (ingHeader_eq (lane_live hlive) hn hi hd hb hx))
    have hlane : x.lane = l := by rw [hx]
    have htick : x.tick = s.now := by rw [hx]
    have hr : x.receiving = true := by rw [hx]
    have hfrag : x.frag = 0 := by rw [hx]
    rw [← hlane] at hn
    refine ⟨fun k j hk hw hl he hj hm hev => ⟨_, hex, ?new⟩, fun hk => ⟨_, hex, ?unknown⟩⟩
    case new => exact htick ▸ addCopy_new_effect hr hn hk hw hl he hj hm hev
    case unknown => exact addCopy_unknown_effect hr hfrag hn hk
  case blocks =>
    intro hlive x hx hdisp block
    have hd : x.disp ≠ .held ∧ x.disp ≠ .resync ∧ x.disp ≠ .deliver :=
      ⟨fun h => absurd (h ▸ hdisp) (by decide), fun h => absurd (h ▸ hdisp) (by decide), fun h => absurd (h ▸ hdisp) (by decide)⟩
    refine ⟨_, (exec_dataBlock (lane_live hlive)).trans (congrArg _ (ingData_unwritten (lane_live hlive) hx hd)), ⟨rfl, rfl⟩, rfl, rfl, ?_⟩
    rw [ingOf_modIng_same]
    simp only [Ing.swap, beq_iff_eq]
    rfl
  case trailers =>
    intro hlive x e tail d ht hc hl hr hx hs he hev hst hlag hslot hlen hflag hzero h0 hm
    obtain ⟨hevent, hdlen⟩ := header_of_sound (x := x) (d := d) rfl hs
    have hex := (exec_copyEof (lane_live hlive) ht).trans
      (congrArg Host.Outcome.next (ingEof_only (lane_live hlive) hc hl hr hx rfl hs))
    have hacc := ingAccept_only (s := s) (c := c) (x := d.ended s.now) (g := { s.ingOf c with copies := [d.ended s.now] }) hx
      (hev.trans hevent.symm) hst hslot rfl he (hdlen.trans hlen) hflag hzero h0 hm
    have hreg : RegsOnly s (s.incr (Reg.ingCountAAccepted c)) := (RegsOnly.refl s).wr ..
    generalize s.incr (Reg.ingCountAAccepted c) = u at hacc hreg
    refine ⟨_, hex.trans (congrArg _ hacc), hreg.stores, hreg.cells, ?_⟩
    rw [ingOf_setIng, accepting_of_slot _ hslot hlag, show (d.ended s.now).len = x.len from hdlen]
    exact ⟨rfl, mem_window_remember _ d.ident, rfl⟩
  case failures =>
    intro hlive hn
    exact ⟨_, exec_framingFailure (lane_live hlive), ingFail_idle_effect hn⟩
  case frames =>
    intro ho ev e
    refine ⟨fun hl hf ht => ?timeout, fun hd hs hf hr hw => ?handoff⟩
    case timeout => exact ⟨_, exec_asmTimeout ho hl hf ht, ingExpire_live_none hl _⟩
    case handoff =>
      have he : e.event = ev.toNat := by simpa using List.find?_some hf
      have h := ingHandoff_handedOver (c := c) (e := e) (he ▸ hf) (stuck_of_nextReady hr) hw
      rw [he] at h
      exact ⟨_, exec_frameHandoff ho hd hs hf hr, h.gone, h.digest⟩
  case resync =>
    intro hg hb
    obtain ⟨u, hex⟩ := exec_ingResync hg hb
    exact ⟨_, hex, rd_wr_same u (Reg.ingCtlResyncBusy c) 1 (by show 1 + 1 ≤ 64; decide)⟩
  case resyncDone =>
    intro hb hs he hx
    obtain ⟨hstores, hcells, hbusy, hvalid⟩ := resynced_effect s c
    exact ⟨_, exec_ingResyncDone hb hs he hx, hstores, hcells, hbusy, hvalid, ingOf_resynced s c⟩

end Sys2Proof.Machine
end
